-- ==== Sys2Proof/Word.lean ====
section
/-!
DEFINITION. The words of the YG288 and their plainest arithmetic: the 64-bit register word, the
256-bit vector register (R47), the 64-byte line (R194), and a line's bytes, little-endian (R9).
-/

namespace Sys2Proof

/-- A 64-bit word: a general register, a system register, a socket register. -/
abbrev Word := BitVec 64

/-- A byte of memory. -/
abbrev Byte := BitVec 8

/-- A vector register, 256 bits (R47). -/
abbrev VWord := BitVec 256

/-- A cache line, 64 bytes (R194); byte 0 is bits [7:0]. -/
abbrev Line := BitVec 512

/-- A register field of an instruction, naming n0 to n31 or v0 to v31 (R84). -/
abbrev Reg := BitVec 5

/-- A word from a Nat. -/
abbrev word (n : Nat) : Word := BitVec.ofNat 64 n

end Sys2Proof
end

