-- ==== Sys2Proof/Syntax.lean ====
section
/-!
DEFINITION. The commands of the YG288 block: one constructor of `Instr` for each row of
spec/opcode_table.json. An instruction of the Nerni set names the strand that executes it (its index
in the socket, 2 × logical core + strand, R482) and carries the fields of its encoding (R83); an event
carries what its message, its register write, or the board gives the device.
-/

namespace Sys2Proof

/-- Who makes a register access: a strand of this socket by its index, or a requester that is no strand
(R40: 0xFFF). -/
inductive Requester
  | strand (g : Nat)
  | other
  deriving DecidableEq, Repr

/-- An agent of the coherence protocol (R215, R219, R223): a physical core of this socket, another
socket's proxy or home, a non-caching agent (I/O die 0 or 1, the Ledger Engine). -/
inductive Agent
  | core (c : Nat)
  | socket (s : Nat)
  | io (die : Nat)
  | ledger
  deriving DecidableEq, Repr

/-- The line states of R216. -/
inductive LineState
  | invalid
  | shared
  | lead
  | exclusive
  | modified
  deriving DecidableEq, Repr

/-- The operations of the atomics (R118). -/
inductive AtomicOp
  | add | swap | cas | and | or | min | max | minu | maxu
  deriving DecidableEq, Repr

/-- The fields of an op 0x1F word beyond SUB and Z (R113): O, F, d, a and b. -/
structure MemEnc where
  o : BitVec 2
  f : BitVec 1
  d : Reg
  a : Reg
  b : Reg
  deriving DecidableEq, Repr

/-- The fields of a format S word beyond fn (R83): d, a and sysreg. -/
structure SysEnc where
  d : Reg
  a : Reg
  sysreg : BitVec 12
  deriving DecidableEq, Repr

/-- A cache-control unit of a tile (R213): core k of the tile, or its LLC slice. -/
inductive CacheUnit
  | core (k : Nat)
  | llc
  deriving DecidableEq, Repr

/-- An array or LLC way that a disable empties (R203). -/
inductive CacheArray
  | l1i (k : Nat)
  | l1d (k : Nat)
  | l2 (k : Nat)
  | way (w : Nat)
  deriving DecidableEq, Repr

/-- The frame tasks that can be abandoned (R253). -/
inductive FrameTask
  | retrain (mc : Nat)
  | sliceTest (e : Nat)
  | telemetry
  deriving DecidableEq, Repr

/-- What the channel check of one line read from the DIMM gives (R315, R328): good, correctable after
some replay, uncorrectable after three replays. -/
inductive ReadCheck
  | clean
  | correctable
  | uncorrectable
  deriving DecidableEq, Repr

/-- The outcome of a confirmation test (R339). -/
inductive TestOutcome
  | confirmed
  | confirmedPermanent
  | notConfirmed
  deriving DecidableEq, Repr

/-- What one sliced test finds (R374), in an instance of a group and one of its sub-arrays. -/
inductive SliceFinding
  | clean
  | row (group inst sub row : Nat)
  | column (group inst sub col : Nat)
  | checker (group inst sub : Nat)
  deriving DecidableEq, Repr

/-- The channel that carries an SPDM request or a management command (R387, R406, R442, R506). -/
inductive Channel
  | mailbox
  | mctp
  | pfMailbox
  deriving DecidableEq, Repr

/-- What the device meets when `PWRGOOD` rises (R306, R534, R535): pins, straps, what image
verification, self-test and memory training find, and what the other sockets report. -/
structure PowerUpIn where
  /-- `COLD_RESET_N` is low, or this is the first power-up after manufacture (R306). -/
  cold : Bool
  /-- Every rail is within its limits (R493). -/
  railsOk : Bool
  /-- `TEST[4:0]` is tied to VSS (R533). -/
  testTied : Bool
  /-- `CHAIN_HEAD` strap. -/
  head : Bool
  /-- `BOOT_SRC[1:0]` straps. -/
  bootSrc : BitVec 2
  /-- Socket ID that enumeration gives this socket, and the mask of present sockets. -/
  socketId : Nat
  present : BitVec 8
  /-- Every image verifies (R382); the PS0 system partition is readable. -/
  imagesOk : Bool
  partitionOk : Bool
  /-- Every other socket's report allows a retained resume, and agrees on `RETAIN_ARM` (R306). -/
  othersRetained : Bool
  mismatch : Bool
  /-- Bit c: channel c's canary matches (R297, R306). -/
  canaryOk : BitVec 16
  /-- Bit c: channel c trained. -/
  trained : BitVec 16
  /-- The head's starting frame number (R246). -/
  startFrame : Word
  /-- Physical cores with a manufacturing defect or removed by the self-test, bit c (R23, R370). -/
  badCores : BitVec 288
  /-- Frahal: sockets whose link maps were received, in the coherent system (R458). -/
  coherent : BitVec 8
  deriving DecidableEq, Repr

/-- The slot signals that the steward samples (R417). -/
structure SlotInputs where
  present : Bool
  attention : Bool
  powerFault : Bool
  deriving DecidableEq, Repr

/-- An inbound PCI Express memory request: root port (4n + p), requester ID, DMA address, and whether
it carries a PASID prefix or is an ATS request (R190). -/
structure DmaReq where
  port : Nat
  rid : BitVec 16
  addr : Word
  pasidOrAts : Bool
  deriving DecidableEq, Repr

/-- The fields of an UPDATE_CTL message (R516): the sender, a frame, SORUS_ID and a reason. -/
structure UpdMsg where
  src : Nat
  frame : Word
  sorusId : Word
  reason : BitVec 8
  deriving DecidableEq, Repr

/-- The result of training a Frahal link (R458). -/
inductive LinkOutcome
  | active (peer peerLink width : Nat) (confidential : Bool)
  | ownSocket
  | authFailed
  | noPeer
  deriving DecidableEq, Repr

/-- One link entry of a LINK_MAP message (R458). -/
structure LinkEntry where
  peer : Nat
  peerLink : Nat
  inService : Bool
  spare : Bool
  deriving DecidableEq, Repr

/-- One command: the rows of spec/opcode_table.json in their order. -/
inductive Instr
  /-- REGISTER_WRITE (R11): a write to the socket register space by its access code. -/
  | registerWrite (req : Requester) (off : Nat) (v : Word)
  /-- UNDEFINED_OFFSET_ACCESS (R35). -/
  | undefinedOffsetAccess (req : Requester) (off : Nat) (write : Bool)
  /-- BOOT_LOCK (R38): a write to SOC.LOCK. -/
  | bootLock (req : Requester) (v : Word)
  /-- WARM_SPARE (R25): core c is warmed. -/
  | warmSpare (c : Nat)
  /-- STEWARD_WATCHDOG_RESTART (R30). -/
  | stewardWatchdogRestart
  /-- INTERRUPT_ENTRY (R467). -/
  | interruptEntry (g : Nat)
  /-- SHADOW_CLOSE (R80). -/
  | shadowClose (g : Nat)
  /-- TIMECMP_REACHED (R257). -/
  | timecmpReached (g : Nat)
  /-- LONG_OP_COMPLETE (R89): the k-th long operation in flight completes. -/
  | longOpComplete (g k : Nat)
  /-- MODE_DRAIN_COMPLETE (R138): of physical core c. -/
  | modeDrainComplete (c : Nat)
  /-- ADD (R90). -/
  | add (g : Nat) (d a b : Reg)
  /-- SUB (R90). -/
  | sub (g : Nat) (d a b : Reg)
  /-- AND (R90). -/
  | and (g : Nat) (d a b : Reg)
  /-- OR (R90). -/
  | or (g : Nat) (d a b : Reg)
  /-- XOR (R90). -/
  | xor (g : Nat) (d a b : Reg)
  /-- ANDN (R90). -/
  | andn (g : Nat) (d a b : Reg)
  /-- SHL (R90). -/
  | shl (g : Nat) (d a b : Reg)
  /-- SHR (R90). -/
  | shr (g : Nat) (d a b : Reg)
  /-- SAR (R90). -/
  | sar (g : Nat) (d a b : Reg)
  /-- ROR (R90). -/
  | ror (g : Nat) (d a b : Reg)
  /-- SLT (R90). -/
  | slt (g : Nat) (d a b : Reg)
  /-- SLTU (R90). -/
  | sltu (g : Nat) (d a b : Reg)
  /-- SEQ (R90). -/
  | seq (g : Nat) (d a b : Reg)
  /-- MIN (R90). -/
  | min (g : Nat) (d a b : Reg)
  /-- MAX (R90). -/
  | max (g : Nat) (d a b : Reg)
  /-- MINU (R90). -/
  | minu (g : Nat) (d a b : Reg)
  /-- MAXU (R90). -/
  | maxu (g : Nat) (d a b : Reg)
  /-- CLZ (R90). -/
  | clz (g : Nat) (d a b : Reg)
  /-- CTZ (R90). -/
  | ctz (g : Nat) (d a b : Reg)
  /-- POPC (R90). -/
  | popc (g : Nat) (d a b : Reg)
  /-- BSWAP (R90). -/
  | bswap (g : Nat) (d a b : Reg)
  /-- ADDW (R90). -/
  | addw (g : Nat) (d a b : Reg)
  /-- SUBW (R90). -/
  | subw (g : Nat) (d a b : Reg)
  /-- SEXTB (R90). -/
  | sextb (g : Nat) (d a b : Reg)
  /-- SEXTH (R90). -/
  | sexth (g : Nat) (d a b : Reg)
  /-- SEXTW (R90). -/
  | sextw (g : Nat) (d a b : Reg)
  /-- ZEXTW (R90). -/
  | zextw (g : Nat) (d a b : Reg)
  /-- ADDI (R91). -/
  | addi (g : Nat) (d a : Reg) (imm : BitVec 16)
  /-- ANDI (R91). -/
  | andi (g : Nat) (d a : Reg) (imm : BitVec 16)
  /-- ORI (R91). -/
  | ori (g : Nat) (d a : Reg) (imm : BitVec 16)
  /-- XORI (R91). -/
  | xori (g : Nat) (d a : Reg) (imm : BitVec 16)
  /-- SLTI (R91). -/
  | slti (g : Nat) (d a : Reg) (imm : BitVec 16)
  /-- SLTIU (R91). -/
  | sltiu (g : Nat) (d a : Reg) (imm : BitVec 16)
  /-- SHLI (R91): hi is imm16[15:8], sh is imm16[5:0]. -/
  | shli (g : Nat) (d a : Reg) (hi : BitVec 8) (sh : BitVec 6)
  /-- SHRI (R91). -/
  | shri (g : Nat) (d a : Reg) (hi : BitVec 8) (sh : BitVec 6)
  /-- SARI (R91). -/
  | sari (g : Nat) (d a : Reg) (hi : BitVec 8) (sh : BitVec 6)
  /-- RORI (R91). -/
  | rori (g : Nat) (d a : Reg) (hi : BitVec 8) (sh : BitVec 6)
  /-- LUI (R91). -/
  | lui (g : Nat) (d a : Reg) (imm : BitVec 16)
  /-- HINS (R91): a is the position. -/
  | hins (g : Nat) (d a : Reg) (imm : BitVec 16)
  /-- APC (R91). -/
  | apc (g : Nat) (d a : Reg) (imm : BitVec 16)
  /-- MUL (R92). -/
  | mul (g : Nat) (d a b : Reg)
  /-- MULH (R92). -/
  | mulh (g : Nat) (d a b : Reg)
  /-- MULHU (R92). -/
  | mulhu (g : Nat) (d a b : Reg)
  /-- MULW (R92). -/
  | mulw (g : Nat) (d a b : Reg)
  /-- DIV (R93). -/
  | div (g : Nat) (d a b : Reg)
  /-- DIVU (R93). -/
  | divu (g : Nat) (d a b : Reg)
  /-- REM (R93). -/
  | rem (g : Nat) (d a b : Reg)
  /-- REMU (R93). -/
  | remu (g : Nat) (d a b : Reg)
  /-- BEQ (R95): A and H are the annul and hint bits. -/
  | beq (g : Nat) (A H : Bool) (a : Reg) (disp : BitVec 16)
  /-- BNE (R95). -/
  | bne (g : Nat) (A H : Bool) (a : Reg) (disp : BitVec 16)
  /-- BLT (R95). -/
  | blt (g : Nat) (A H : Bool) (a : Reg) (disp : BitVec 16)
  /-- BGE (R95). -/
  | bge (g : Nat) (A H : Bool) (a : Reg) (disp : BitVec 16)
  /-- BLE (R95). -/
  | ble (g : Nat) (A H : Bool) (a : Reg) (disp : BitVec 16)
  /-- BGT (R95). -/
  | bgt (g : Nat) (A H : Bool) (a : Reg) (disp : BitVec 16)
  /-- BCEQ (R95). -/
  | bceq (g : Nat) (A H : Bool) (a b : Reg) (disp : BitVec 11)
  /-- BCNE (R95). -/
  | bcne (g : Nat) (A H : Bool) (a b : Reg) (disp : BitVec 11)
  /-- BCLT (R95). -/
  | bclt (g : Nat) (A H : Bool) (a b : Reg) (disp : BitVec 11)
  /-- BCGE (R95). -/
  | bcge (g : Nat) (A H : Bool) (a b : Reg) (disp : BitVec 11)
  /-- BCLTU (R95). -/
  | bcltu (g : Nat) (A H : Bool) (a b : Reg) (disp : BitVec 11)
  /-- BCGEU (R95). -/
  | bcgeu (g : Nat) (A H : Bool) (a b : Reg) (disp : BitVec 11)
  /-- J (R95). -/
  | j (g : Nat) (A : Bool) (disp : BitVec 25)
  /-- CALL (R95). -/
  | call (g : Nat) (A : Bool) (disp : BitVec 25)
  /-- JR (R95): z is fn[9:2], which must be 0. -/
  | jr (g : Nat) (A : Bool) (z : BitVec 8) (d a b : Reg)
  /-- CALLR (R95). -/
  | callr (g : Nat) (A : Bool) (z : BitVec 8) (d a b : Reg)
  /-- RET (R95). -/
  | ret (g : Nat) (A : Bool) (z : BitVec 8) (d a b : Reg)
  /-- FADD (R99). -/
  | fadd (g : Nat) (d a b : Reg)
  /-- FSUB (R99). -/
  | fsub (g : Nat) (d a b : Reg)
  /-- FMUL (R99). -/
  | fmul (g : Nat) (d a b : Reg)
  /-- FDIV (R99). -/
  | fdiv (g : Nat) (d a b : Reg)
  /-- FSQRT (R99). -/
  | fsqrt (g : Nat) (d a b : Reg)
  /-- FMA (R99). -/
  | fma (g : Nat) (d a b : Reg)
  /-- FMIN (R99). -/
  | fmin (g : Nat) (d a b : Reg)
  /-- FMAX (R99). -/
  | fmax (g : Nat) (d a b : Reg)
  /-- FABS (R99). -/
  | fabs (g : Nat) (d a b : Reg)
  /-- FNEG (R99). -/
  | fneg (g : Nat) (d a b : Reg)
  /-- FEQ (R99). -/
  | feq (g : Nat) (d a b : Reg)
  /-- FLT (R99). -/
  | flt (g : Nat) (d a b : Reg)
  /-- FLE (R99). -/
  | fle (g : Nat) (d a b : Reg)
  /-- FCVT_L_D (R100). -/
  | fcvtLD (g : Nat) (d a b : Reg)
  /-- FCVT_LU_D (R100). -/
  | fcvtLuD (g : Nat) (d a b : Reg)
  /-- FCVT_D_L (R100). -/
  | fcvtDL (g : Nat) (d a b : Reg)
  /-- FCVT_D_LU (R100). -/
  | fcvtDLu (g : Nat) (d a b : Reg)
  /-- FCVT_S_D (R100). -/
  | fcvtSD (g : Nat) (d a b : Reg)
  /-- FCVT_D_S (R100). -/
  | fcvtDS (g : Nat) (d a b : Reg)
  /-- FMV_N (R99). -/
  | fmvN (g : Nat) (d a b : Reg)
  /-- FMV_V (R99). -/
  | fmvV (g : Nat) (d a b : Reg)
  /-- VADD (R102): w is the lane width code W. -/
  | vadd (g : Nat) (w : BitVec 2) (d a b : Reg)
  /-- VSUB (R102). -/
  | vsub (g : Nat) (w : BitVec 2) (d a b : Reg)
  /-- VAND (R102). -/
  | vand (g : Nat) (w : BitVec 2) (d a b : Reg)
  /-- VOR (R102). -/
  | vor (g : Nat) (w : BitVec 2) (d a b : Reg)
  /-- VXOR (R102). -/
  | vxor (g : Nat) (w : BitVec 2) (d a b : Reg)
  /-- VANDN (R102). -/
  | vandn (g : Nat) (w : BitVec 2) (d a b : Reg)
  /-- VMIN (R102). -/
  | vmin (g : Nat) (w : BitVec 2) (d a b : Reg)
  /-- VMAX (R102). -/
  | vmax (g : Nat) (w : BitVec 2) (d a b : Reg)
  /-- VMINU (R102). -/
  | vminu (g : Nat) (w : BitVec 2) (d a b : Reg)
  /-- VMAXU (R102). -/
  | vmaxu (g : Nat) (w : BitVec 2) (d a b : Reg)
  /-- VSHL (R102). -/
  | vshl (g : Nat) (w : BitVec 2) (d a b : Reg)
  /-- VSHR (R102). -/
  | vshr (g : Nat) (w : BitVec 2) (d a b : Reg)
  /-- VSAR (R102). -/
  | vsar (g : Nat) (w : BitVec 2) (d a b : Reg)
  /-- VSPLAT (R102). -/
  | vsplat (g : Nat) (w : BitVec 2) (d a b : Reg)
  /-- VEXT (R102): b is the lane index. -/
  | vext (g : Nat) (w : BitVec 2) (d a b : Reg)
  /-- VINS (R102): b is the lane index. -/
  | vins (g : Nat) (w : BitVec 2) (d a b : Reg)
  /-- VCMPEQ (R103). -/
  | vcmpeq (g : Nat) (w : BitVec 2) (d a b : Reg)
  /-- VCMPLT (R103). -/
  | vcmplt (g : Nat) (w : BitVec 2) (d a b : Reg)
  /-- VCMPLTU (R103). -/
  | vcmpltu (g : Nat) (w : BitVec 2) (d a b : Reg)
  /-- VSEL (R102). -/
  | vsel (g : Nat) (w : BitVec 2) (d a b : Reg)
  /-- VCOMPRESS (R103). -/
  | vcompress (g : Nat) (w : BitVec 2) (d a b : Reg)
  /-- VGATHER (R104). -/
  | vgather (g : Nat) (w : BitVec 2) (d a b : Reg)
  /-- VCRC32C (R105): over the first k + 1 bytes. -/
  | vcrc32c (g : Nat) (w : BitVec 2) (k : BitVec 5) (d a b : Reg)
  /-- VCRC64 (R105): over the first k + 1 bytes. -/
  | vcrc64 (g : Nat) (w : BitVec 2) (k : BitVec 5) (d a b : Reg)
  /-- VHMIX (R106). -/
  | vhmix (g : Nat) (w : BitVec 2) (d a b : Reg)
  /-- VHFOLD (R106). -/
  | vhfold (g : Nat) (w : BitVec 2) (d a b : Reg)
  /-- LB (R108). -/
  | lb (g : Nat) (t base : Reg) (imm : BitVec 16)
  /-- LBU (R108). -/
  | lbu (g : Nat) (t base : Reg) (imm : BitVec 16)
  /-- LH (R108). -/
  | lh (g : Nat) (t base : Reg) (imm : BitVec 16)
  /-- LHU (R108). -/
  | lhu (g : Nat) (t base : Reg) (imm : BitVec 16)
  /-- LW (R108). -/
  | lw (g : Nat) (t base : Reg) (imm : BitVec 16)
  /-- LWU (R108). -/
  | lwu (g : Nat) (t base : Reg) (imm : BitVec 16)
  /-- LD (R108). -/
  | ld (g : Nat) (t base : Reg) (imm : BitVec 16)
  /-- LDF (R108). -/
  | ldf (g : Nat) (t base : Reg) (imm : BitVec 16)
  /-- LDV (R108). -/
  | ldv (g : Nat) (t base : Reg) (imm : BitVec 16)
  /-- SB (R108). -/
  | sb (g : Nat) (t base : Reg) (imm : BitVec 16)
  /-- SH (R108). -/
  | sh (g : Nat) (t base : Reg) (imm : BitVec 16)
  /-- SW (R108). -/
  | sw (g : Nat) (t base : Reg) (imm : BitVec 16)
  /-- SD (R108). -/
  | sd (g : Nat) (t base : Reg) (imm : BitVec 16)
  /-- STF (R108). -/
  | stf (g : Nat) (t base : Reg) (imm : BitVec 16)
  /-- STV (R108). -/
  | stv (g : Nat) (t base : Reg) (imm : BitVec 16)
  /-- STORE_BUFFER_ENTRY_LEAVE (R143): the oldest entry of strand g's store buffer. -/
  | storeBufferEntryLeave (g : Nat)
  /-- LDA (R117): z is the size. -/
  | lda (g : Nat) (z : BitVec 2) (e : MemEnc)
  /-- STA (R117). -/
  | sta (g : Nat) (z : BitVec 2) (e : MemEnc)
  /-- AADD (R118). -/
  | aadd (g : Nat) (z : BitVec 2) (e : MemEnc)
  /-- ASWAP (R118). -/
  | aswap (g : Nat) (z : BitVec 2) (e : MemEnc)
  /-- ACAS (R118). -/
  | acas (g : Nat) (z : BitVec 2) (e : MemEnc)
  /-- AAND (R118). -/
  | aand (g : Nat) (z : BitVec 2) (e : MemEnc)
  /-- AOR (R118). -/
  | aor (g : Nat) (z : BitVec 2) (e : MemEnc)
  /-- AMIN (R118). -/
  | amin (g : Nat) (z : BitVec 2) (e : MemEnc)
  /-- AMAX (R118). -/
  | amax (g : Nat) (z : BitVec 2) (e : MemEnc)
  /-- AMINU (R118). -/
  | aminu (g : Nat) (z : BitVec 2) (e : MemEnc)
  /-- AMAXU (R118). -/
  | amaxu (g : Nat) (z : BitVec 2) (e : MemEnc)
  /-- FENCE_LL (R115). -/
  | fenceLl (g : Nat) (e : MemEnc)
  /-- FENCE_SS (R115). -/
  | fenceSs (g : Nat) (e : MemEnc)
  /-- FENCE_ALL (R115). -/
  | fenceAll (g : Nat) (e : MemEnc)
  /-- CODESYNC (R127). -/
  | codesync (g : Nat) (z : BitVec 2) (e : MemEnc)
  /-- STASH (R121). -/
  | stash (g : Nat) (z : BitVec 2) (e : MemEnc)
  /-- CFLUSH (R126). -/
  | cflush (g : Nat) (z : BitVec 2) (e : MemEnc)
  /-- CINV_ALL (R128). -/
  | cinvAll (g : Nat) (z : BitVec 2) (e : MemEnc)
  /-- PWB (R122). -/
  | pwb (g : Nat) (z : BitVec 2) (e : MemEnc)
  /-- PSYNC (R124). -/
  | psync (g : Nat) (z : BitVec 2) (e : MemEnc)
  /-- PSTNT_D (R123). -/
  | pstntD (g : Nat) (e : MemEnc)
  /-- PSTNT_V (R123). -/
  | pstntV (g : Nat) (e : MemEnc)
  /-- PSTNT_SEND (R279): strand g's store buffer sends the PSTNT at its head. -/
  | pstntSend (g : Nat)
  /-- TINV_VA (R129). -/
  | tinvVa (g : Nat) (z : BitVec 2) (e : MemEnc)
  /-- TINV_ASID (R129). -/
  | tinvAsid (g : Nat) (z : BitVec 2) (e : MemEnc)
  /-- TINV_ALL (R129). -/
  | tinvAll (g : Nat) (z : BitVec 2) (e : MemEnc)
  /-- TINV_IPA (R129). -/
  | tinvIpa (g : Nat) (z : BitVec 2) (e : MemEnc)
  /-- TINV_VMID (R129). -/
  | tinvVmid (g : Nat) (z : BitVec 2) (e : MemEnc)
  /-- TINV_H_ALL (R129). -/
  | tinvHAll (g : Nat) (z : BitVec 2) (e : MemEnc)
  /-- TSYNC (R130). -/
  | tsync (g : Nat) (z : BitVec 2) (e : MemEnc)
  /-- TSYNC_COMPLETE (R187). -/
  | tsyncComplete (g : Nat)
  /-- BTBFLUSH (R131). -/
  | btbflush (g : Nat) (z : BitVec 2) (e : MemEnc)
  /-- MFSR (R54). -/
  | mfsr (g : Nat) (e : SysEnc)
  /-- MTSR (R54). -/
  | mtsr (g : Nat) (e : SysEnc)
  /-- ERET (R68). -/
  | eret (g : Nat) (e : SysEnc)
  /-- SYS (R132). -/
  | sys (g : Nat) (e : SysEnc)
  /-- HCALL (R132). -/
  | hcall (g : Nat) (e : SysEnc)
  /-- BRK (R75). -/
  | brk (g : Nat) (e : SysEnc)
  /-- WAIT (R133). -/
  | wait (g : Nat) (e : SysEnc)
  /-- WAIT_WAKE (R133). -/
  | waitWake (g : Nat)
  /-- PARK (R134). -/
  | park (g : Nat) (e : SysEnc)
  /-- SECALL_BUSY (R136): a SECALL word with fn, not accepted within 20 µs. -/
  | secallBusy (g : Nat) (fn : BitVec 4) (e : SysEnc)
  /-- CREATE (R395): a SECALL word with fn whose command block holds this command; likewise below. -/
  | create (g : Nat) (fn : BitVec 4) (e : SysEnc)
  /-- ADD_PAGE (R395). -/
  | addPage (g : Nat) (fn : BitVec 4) (e : SysEnc)
  /-- ADD_ZERO (R395). -/
  | addZero (g : Nat) (fn : BitVec 4) (e : SysEnc)
  /-- SEAL (R395). -/
  | sealDomain (g : Nat) (fn : BitVec 4) (e : SysEnc)
  /-- ENTER (R398). -/
  | enter (g : Nat) (fn : BitVec 4) (e : SysEnc)
  /-- ACCEPT (R395). -/
  | accept (g : Nat) (fn : BitVec 4) (e : SysEnc)
  /-- RELEASE (R395). -/
  | release (g : Nat) (fn : BitVec 4) (e : SysEnc)
  /-- REPORT (R395). -/
  | report (g : Nat) (fn : BitVec 4) (e : SysEnc)
  /-- SHARE_REGS (R395). -/
  | shareRegs (g : Nat) (fn : BitVec 4) (e : SysEnc)
  /-- EXIT (R395). -/
  | exit (g : Nat) (fn : BitVec 4) (e : SysEnc)
  /-- DESTROY (R395). -/
  | destroy (g : Nat) (fn : BitVec 4) (e : SysEnc)
  /-- RECLAIM (R395). -/
  | reclaim (g : Nat) (fn : BitVec 4) (e : SysEnc)
  /-- QUERY (R395). -/
  | query (g : Nat) (fn : BitVec 4) (e : SysEnc)
  /-- REFILL_INSTALL (R182): a write of REFILL_CTL of strand i, by a requester. -/
  | refillInstall (req : Requester) (i : Nat) (v : Word)
  /-- IOIQ_ENABLE (R193): a write of SOC.IOIQ_BASE. -/
  | ioiqEnable (req : Requester) (v : Word)
  /-- INV_DT (R193): the I/O queue executes the command at HEAD; likewise below. -/
  | invDt
  /-- INV_RID (R193). -/
  | invRid
  /-- INV_VA (R193). -/
  | invVa
  /-- INV_IPA (R193). -/
  | invIpa
  /-- INV_VMID (R193). -/
  | invVmid
  /-- INV_ALL (R193). -/
  | invAll
  /-- IOIQ_WAIT (R193). -/
  | ioiqWait
  /-- CACHE_ENABLE (R201): a write of CORE_CACHE_CTL[k] or LLC_CTL of tile t. -/
  | cacheEnable (req : Requester) (t : Nat) (u : CacheUnit) (v : Word)
  /-- CACHE_DISABLE (R203): a write of CORE_CACHE_CTL[k] or LLC_CTL of tile t. -/
  | cacheDisable (req : Requester) (t : Nat) (u : CacheUnit) (v : Word)
  /-- DISABLE_COMPLETE (R203). -/
  | disableComplete (t : Nat) (x : CacheArray)
  /-- RDS (R231): flags U (uncached snapshot) and M (write back, PWB). -/
  | rds (g : Nat) (src : Agent) (u m : Bool)
  /-- RDX (R231): flag M (write back and invalidate everywhere, CFLUSH). -/
  | rdx (g : Nat) (src : Agent) (m : Bool)
  /-- UPG (R231). -/
  | upg (g : Nat) (src : Agent)
  /-- STASH_REQUEST (R235): target as R121, bytes under a byte mask. -/
  | stashRequest (g : Nat) (src : Agent) (target : BitVec 16) (mask : BitVec 64) (bytes : Line)
  /-- FAR_ATOMIC_REQUEST (R237): on the 4- or 8-byte location at byte offset off of line g. -/
  | farAtomicRequest (g : Nat) (src : Agent) (op : AtomicOp) (dbl : Bool) (off : Nat)
      (operand expected : Word)
  /-- WBM (R233): SEQ, flag K, and the 64 bytes with their poison. -/
  | wbm (g : Nat) (src : Agent) (seq : BitVec 8) (k : Bool) (bytes : Line) (poison : Bool)
  /-- EVC (R234). -/
  | evc (g : Nat) (src : Agent) (bytes : Line) (poison : Bool)
  /-- FWDS (R232): at holder core c, for a requester, flags U and M. -/
  | fwds (c g : Nat) (requester : Agent) (u m : Bool)
  /-- FWDX (R232): at holder core c; in a recall the data goes to the home. -/
  | fwdx (c g : Nat) (requester : Agent) (rcl : Bool)
  /-- INV (R232): at core c. -/
  | inv (c g : Nat)
  /-- ACK_FWD (R223): flags G (from a ghost) and D (Data also sent to the home). -/
  | ackFwd (g : Nat) (src : Agent) (ghost d : Bool)
  /-- ACK_INV (R223). -/
  | ackInv (g : Nat) (src : Agent)
  /-- ACK_GRANT (R231): at core c, with the granted state and OWNSEQ. -/
  | ackGrant (c g : Nat) (st : LineState) (seq : BitVec 8)
  /-- ACK_WB (R270): at core c, with flag P. -/
  | ackWb (c g : Nat) (p : Bool)
  /-- ACK_DONE (R225). -/
  | ackDone (g : Nat) (src : Agent)
  /-- ACK_HINT (R235). -/
  | ackHint (g : Nat) (src : Agent)
  /-- ABSENT (R234). -/
  | absent (g : Nat) (src : Agent)
  /-- DATA (R222): at dst (none: the home), flags D, P and T. -/
  | data (dst : Option Agent) (src : Agent) (g : Nat) (bytes : Line) (d p t : Bool)
  /-- RETRY (R226): at core c. -/
  | retry (c g : Nat)
  /-- REQUEST_RESEND (R226): by core c. -/
  | requestResend (c g : Nat)
  /-- FORWARD_TIMEOUT (R241): the forward of line g to an agent. -/
  | forwardTimeout (g : Nat) (dst : Agent)
  /-- SOCKET_REMOVAL (R462). -/
  | socketRemoval (d : Nat)
  /-- FRAME_TICK (R246). -/
  | frameTick
  /-- CHAIN_TICK_PULSE (R254): its offset in 1.25 ns units, or none when the pulse is missing. -/
  | chainTickPulse (off : Option (BitVec 16))
  /-- TICK_LOSS (R254). -/
  | tickLoss
  /-- RESYNC_START (R256). -/
  | resyncStart
  /-- RESYNC_REQ (R256): a write of SOC.TICK_CTL. -/
  | resyncReq (req : Requester) (v : Word)
  /-- RESYNC_TIMEOUT (R256). -/
  | resyncTimeout
  /-- TASK_ABANDON (R253). -/
  | taskAbandon (task : FrameTask)
  /-- CREDIT_REQUEST (R274): by core c, to stack n, with or without the priority mark. -/
  | creditRequest (n c : Nat) (prio : Bool)
  /-- INTAKE_ACCEPT (R265): stack n accepts the next line that waits at its intake. -/
  | intakeAccept (n : Nat)
  /-- INTAKE_MEDIA_WRITE (R265): stack n writes its oldest accepted line to media. -/
  | intakeMediaWrite (n : Nat)
  /-- EPOCH_CLOSED (R271). -/
  | epochClosed
  /-- PERSIST_WRITE_FAILED (R282): the write of line g toward stack n. -/
  | persistWriteFailed (n g : Nat)
  /-- WEAR_MOVE (R284): of a granule of stack n. -/
  | wearMove (n granule : Nat)
  /-- WEAR_MOVE_SWITCH (R284). -/
  | wearMoveSwitch (n : Nat)
  /-- GOVERNOR_MINUTE (R285). -/
  | governorMinute (n : Nat)
  /-- PWRFAIL (R290). -/
  | pwrfail
  /-- POWER_FAIL (R450). -/
  | powerFail
  /-- BROWNOUT (R290): of rail r. -/
  | brownout (r : Nat)
  /-- DRAIN_TEST (R312): a write of SOC.DRAIN_TEST. -/
  | drainTest (req : Requester) (v : Word)
  /-- STRAND_HALT (R294). -/
  | strandHalt (g : Nat)
  /-- PEAT_DONE (R296): from a socket. -/
  | peatDone (src : Nat)
  /-- DRAM_DONE (R297): from a socket. -/
  | dramDone (src : Nat)
  /-- P2_DEADLINE (R296). -/
  | p2Deadline
  /-- CANARY_WRITE (R297): of channel n. -/
  | canaryWrite (n : Nat)
  /-- RETAIN_ASSERT (R292). -/
  | retainAssert
  /-- RETAIN_HELD_CLEAR (R292). -/
  | retainHeldClear
  /-- LEDGER_DRAIN_STOP (R298). -/
  | ledgerDrainStop
  /-- DRAIN_REPORT_WRITE (R299). -/
  | drainReportWrite
  /-- DRAIN_COMPLETE (R299). -/
  | drainComplete
  /-- POWER_UP (R306). -/
  | powerUp (p : PowerUpIn)
  /-- STRAND_RESTORE (R310): a write of SOC.STRAND_RESTORE. -/
  | strandRestore (req : Requester) (v : Word)
  /-- IMAGES_RELEASE (R312): a write of SOC.RESUME_INFO. -/
  | imagesRelease (req : Requester) (v : Word)
  /-- BLOCK_INIT (R309): 1 MiB block b of the socket's DRAM (physical address ÷ 2^20). -/
  | blockInit (b : Nat)
  /-- PWRGOOD_FALL (R535). -/
  | pwrgoodFall
  /-- MEMORY_READ (R328): line g, of a requester group, under a KEYID, as the check finds it. -/
  | memoryRead (g group keyid : Nat) (chk : ReadCheck)
  /-- MEMORY_WRITE (R320). -/
  | memoryWrite (g group keyid : Nat) (bytes : Line) (poison : Bool)
  /-- REFRESH (R321): of channel n. -/
  | refresh (n : Nat)
  /-- RETRAINING_PAUSE (R323): of channel n. -/
  | retrainingPause (n : Nat)
  /-- DIMM_THERMAL_READ (R323): channel n reads a temperature in °C. -/
  | dimmThermalRead (n temp : Nat)
  /-- COEFFICIENT_STORE (R322): of channel n. -/
  | coefficientStore (n : Nat) (coeff : Word)
  /-- RETRAIN_GO (R323): a write of RETRAIN_CTL of channel n. -/
  | retrainGo (req : Requester) (n : Nat) (v : Word)
  /-- NEIGHBOUR_REFRESH (R324): an activate of a row of a bank (bank coded as ROWGUARD_EVENT's
  BG, BANK, RANK and SUB fields) of channel n reaches the threshold or not. -/
  | neighbourRefresh (n bank row : Nat)
  /-- ROWGUARD_TABLE_CLEAR (R324): of channel n. -/
  | rowguardTableClear (n : Nat)
  /-- ROWGUARD_RELEASE (R325): a write of ROWGUARD_EVENT of channel n. -/
  | rowguardRelease (req : Requester) (n : Nat) (v : Word)
  /-- PATROL_SCRUB (R329): channel n reads one line of its granule, as the check finds it. -/
  | patrolScrub (n : Nat) (chk : ReadCheck)
  /-- SCRUB_REWRITE (R329): a write of SCRUB_CTL of channel n. -/
  | scrubRewrite (req : Requester) (n : Nat) (v : Word)
  /-- SCRUB_SKIP (R329): a write of SCRUB_CTL of channel n. -/
  | scrubSkip (req : Requester) (n : Nat) (v : Word)
  /-- EVAC_START (R332): a write of SOC.EVAC_CTL. -/
  | evacStart (req : Requester) (v : Word)
  /-- EVAC_SWITCH (R332). -/
  | evacSwitch
  /-- EVAC_BACKGROUND_MOVE (R332): as the checks of the granule's four lines find them, in order. -/
  | evacBackgroundMove (chks : List ReadCheck)
  /-- EVAC_COMPLETE (R332). -/
  | evacComplete
  /-- CHANNEL_RETIRE (R332). -/
  | channelRetire
  /-- BUCKET_DECAY (R337). -/
  | bucketDecay
  /-- CONFIRMATION_TEST (R339): of a unit of a kind. -/
  | confirmationTest (kind inst : Nat) (o : TestOutcome)
  /-- ROUTE_RECOMPUTE (R344): the mesh link l is retired. -/
  | routeRecompute (l : Nat)
  /-- ERR_EVENT_TIMEOUT (R350). -/
  | errEventTimeout
  /-- CORE_TRANSPLANT (R353): core c; bit j of unreadable: strand j's state cannot be read. -/
  | coreTransplant (c : Nat) (unreadable : BitVec 2)
  /-- SOURCE_CORE_TEST (R355): of core c. -/
  | sourceCoreTest (c : Nat) (faulty : Bool)
  /-- XPLANT_GO (R362): a write of SOC.XPLANT_CTL. -/
  | xplantGo (req : Requester) (v : Word)
  /-- P2_GO (R360): the steward writes DRAIN_STEP.GO bit 0. -/
  | p2Go
  /-- P3_GO (R360). -/
  | p3Go
  /-- P4_GO (R360). -/
  | p4Go
  /-- DRAIN_STEP_TIMEOUT (R360): of phase 2, 3 or 4. -/
  | drainStepTimeout (phase : Nat)
  /-- ERR_TAIL_WRITE (R361): a write of SOC.ERR_TAIL. -/
  | errTailWrite (req : Requester) (v : Word)
  /-- INJECTION_ARM (R368): a write of INJ_ARM of group grp. -/
  | injectionArm (req : Requester) (grp : Nat) (v : Word)
  /-- SLICE_TEST (R372): engine e, and what it finds. -/
  | sliceTest (e : Nat) (finding : SliceFinding)
  /-- SLICE_GO (R375): a write of SLICE_GO of engine e. -/
  | sliceGo (req : Requester) (e : Nat) (v : Word)
  /-- SLICE_REPAIR (R375): a write of SLICE_GO of engine e. -/
  | sliceRepair (req : Requester) (e : Nat) (v : Word)
  /-- SLICE_SKIP (R375): a write of SLICE_GO of engine e. -/
  | sliceSkip (req : Requester) (e : Nat) (v : Word)
  /-- MB_CLAIM (R406): a read of MB_CLAIM, or of SMB_CLAIM when stw. -/
  | mbClaim (req : Requester) (stw : Bool)
  /-- MB_RELEASE (R406): a write of MB_CLAIM, or of SMB_CLAIM when stw. -/
  | mbRelease (req : Requester) (stw : Bool) (v : Word)
  /-- MB_CLAIM_LAPSE (R406). -/
  | mbClaimLapse (stw : Bool)
  /-- KEY_GENERATE (R389): the SE serves its data-plane mailbox; likewise below. -/
  | keyGenerate
  /-- KEY_CLEAR (R406). -/
  | keyClear
  /-- ROLLBACK_COMMIT (R385). -/
  | rollbackCommit
  /-- FUSE_SESSION (R379): bit i: the burn of the i-th named entry fails its verification. -/
  | fuseSession (bad : BitVec 64)
  /-- DEBUG_NONCE (R405). -/
  | debugNonce
  /-- DEBUG_UNLOCK (R405): whether the token verifies. -/
  | debugUnlock (tokenOk : Bool)
  /-- LINK_SECRET_GEN (R404). -/
  | linkSecretGen
  /-- IDE_KEY_SET (R404). -/
  | ideKeySet
  /-- GET_VERSION (R387): an SPDM request on a channel; likewise below. -/
  | getVersion (ch : Channel)
  /-- GET_CAPABILITIES (R387). -/
  | getCapabilities (ch : Channel)
  /-- NEGOTIATE_ALGORITHMS (R387): whether the requester offers both ML-DSA-87 and SHA3-512. -/
  | negotiateAlgorithms (ch : Channel) (offersBoth : Bool)
  /-- GET_DIGESTS (R387). -/
  | getDigests (ch : Channel)
  /-- GET_CERTIFICATE (R387): of a slot. -/
  | getCertificate (ch : Channel) (slot : Nat)
  /-- CHALLENGE (R387): of a slot, with a nonce. -/
  | challenge (ch : Channel) (slot : Nat) (nonce : Word)
  /-- GET_MEASUREMENTS (R387): of a block, signed or not. -/
  | getMeasurements (ch : Channel) (block : Nat) (signed : Bool)
  /-- LINK_REKEY (R404): of link n. -/
  | linkRekey (n : Nat)
  /-- DMA_READ (R414): of len bytes. -/
  | dmaRead (q : DmaReq) (len : Nat)
  /-- DMA_WRITE (R412): the bytes, the steering tag when TH is set, and the poisoned attribute. -/
  | dmaWrite (q : DmaReq) (bytes : List Byte) (th : Option (BitVec 16)) (poisoned : Bool)
  /-- ATOMICOP (R413): of 4, 8 or 16 bytes. -/
  | atomicop (q : DmaReq) (op : AtomicOp) (size : Nat) (operand expected : Word)
  /-- COMPLETION_TIMEOUT (R416): of the oldest outbound request of root port pt. -/
  | completionTimeout (pt : Nat)
  /-- SURPRISE_DOWN (R419). -/
  | surpriseDown (pt : Nat)
  /-- DPC_TRIGGER (R419). -/
  | dpcTrigger (pt : Nat)
  /-- DPC_RELEASE (R419): software clears DPC Trigger Status; whether a partner is present. -/
  | dpcRelease (pt : Nat) (partner : Bool)
  /-- SLOT_SAMPLE (R417). -/
  | slotSample (pt : Nat) (i : SlotInputs)
  /-- SLOT_CONTROL_WRITE (R417): the Slot Control value. -/
  | slotControlWrite (pt : Nat) (v : BitVec 16)
  /-- KPORT_RETIRE_GO (R422): a write of KPORT_RETIRE of root port pt. -/
  | kportRetireGo (req : Requester) (pt : Nat) (v : Word)
  /-- SSC_APPLY (R423): controller n. -/
  | sscApply (n : Nat)
  /-- PORT_IDLE (R421). -/
  | portIdle (pt : Nat)
  /-- SQ_DOORBELL (R431): a write of SQ_TAIL of pair q. -/
  | sqDoorbell (q : Nat) (v : Word)
  /-- DESCRIPTOR_FETCH (R431): from pair q. -/
  | descriptorFetch (q : Nat)
  /-- COPY (R433): the descriptor with sequence sq of pair q runs; likewise below. -/
  | copy (q sq : Nat)
  /-- FILL (R433). -/
  | fill (q sq : Nat)
  /-- APPEND (R436). -/
  | append (q sq : Nat)
  /-- DIGEST (R433). -/
  | digest (q sq : Nat)
  /-- ENCRYPT (R433). -/
  | encrypt (q sq : Nat)
  /-- COMPARE (R433). -/
  | compare (q sq : Nat)
  /-- STASHCOPY (R433). -/
  | stashcopy (q sq : Nat)
  /-- COMPLETION_WRITE (R435): of the descriptor with sequence sq of pair q. -/
  | completionWrite (q sq : Nat)
  /-- QUEUE_ENABLE (R430): a write of Q_CTL of pair q. -/
  | queueEnable (q : Nat) (v : Word)
  /-- QP_ASSIGN (R428): a write of QP_ASSIGN[q]. -/
  | qpAssign (q : Nat) (v : Word)
  /-- STREAM_ENABLE (R436): a write of STREAM_CTL[st]. -/
  | streamEnable (st : Nat) (v : Word)
  /-- STREAM_DISABLE (R436): a write of STREAM_CTL[st]. -/
  | streamDisable (st : Nat) (v : Word)
  /-- FLR (R437): of function f. -/
  | flr (f : Nat)
  /-- D3HOT_ENTRY (R437): of function f. -/
  | d3hotEntry (f : Nat)
  /-- VF_ENABLE (R437): VF Enable written, with NumVFs. -/
  | vfEnable (on : Bool) (numVfs : Nat)
  /-- BUS_MASTER_ENABLE (R427): of function f. -/
  | busMasterEnable (f : Nat) (on : Bool)
  /-- QUIESCE_COMPLETE (R438): of function f. -/
  | quiesceComplete (f : Nat)
  /-- DLOG_GEN (R440): a write of DLOG_GEN[v]. -/
  | dlogGen (v : Nat) (x : Word)
  /-- DLOG_GEN_ACK (R440): of VF v. -/
  | dlogGenAck (v : Nat)
  /-- DLOG_RING_HEAD_WRITE (R439): a write of DLOG_RING_HEAD[v]. -/
  | dlogRingHeadWrite (v : Nat) (x : Word)
  /-- ENUM (R446): a token with its overflow mark. -/
  | enum (v : Nat) (overflow : Bool)
  /-- ENUM_RETRY (R454). -/
  | enumRetry
  /-- PING (R447). -/
  | ping
  /-- ECHO (R447): the round trip in 1.25 ns units. -/
  | echo (roundTrip : Nat)
  /-- DELAY (R447): h and the upstream socket's D, in 1.25 ns units. -/
  | delay (h dUp : Nat)
  /-- COMP (R248): in 1.25 ns units. -/
  | comp (c : Nat)
  /-- FRAME_START (R446). -/
  | frameStart (f : Word)
  /-- RESYNC_REPORT (R256). -/
  | resyncReport (src : Nat) (f : Word)
  /-- RESYNC_SET (R256). -/
  | resyncSet (n : Word)
  /-- CHECK (R455). -/
  | check (mask : BitVec 8)
  /-- RING_CLOSE_CHECK (R455): bit s: socket s answers; whether a new socket appears. -/
  | ringCloseCheck (answers : BitVec 8) (newSocket : Bool)
  /-- CHAIN_MESSAGE_RETURN (R449): returned with a good CRC and no error mark. -/
  | chainMessageReturn (ok : Bool)
  /-- CHAIN_BREAK (R452). -/
  | chainBreak
  /-- READY (R516). -/
  | ready (m : UpdMsg)
  /-- ABORT (R518). -/
  | abort (m : UpdMsg)
  /-- ARM (R516). -/
  | arm (m : UpdMsg)
  /-- ARMED (R516). -/
  | armed (m : UpdMsg)
  /-- CONFIRM (R517). -/
  | confirm (m : UpdMsg)
  /-- ACTIVATED (R519). -/
  | activated (m : UpdMsg)
  /-- NOT_ACTIVATED (R519). -/
  | notActivated (m : UpdMsg)
  /-- SORUS_DATA (R516): a chunk at an offset. -/
  | sorusData (off total : Nat) (bytes : List Byte)
  /-- LINK_MAP (R458): of a socket. -/
  | linkMap (src : Nat) (links : List LinkEntry)
  /-- MAP_EXCHANGE (R408). -/
  | mapExchange (src : Nat) (ecamBase digest : Word)
  /-- SE_MSG (R451). -/
  | seMsg (src : Nat) (payload : List Byte)
  /-- STEWARD_MSG (R515). -/
  | stewardMsg (src : Nat) (payload : List Byte)
  /-- FLIT_RECEIVE (R457): on link n; CRC and tag good or not; the lane whose correction failed. -/
  | flitReceive (n : Nat) (crcOk tagOk : Bool) (lane fecCorrected : Nat)
  /-- LINK_TRAINING (R458): of link n. -/
  | linkTraining (n : Nat) (o : LinkOutcome)
  /-- LINK_BLOCK_LOCK_LOSS (R461): of link n. -/
  | linkBlockLockLoss (n : Nat)
  /-- FL_RETIRE_GO (R461): a write of FL_RETIRE of link n. -/
  | flRetireGo (req : Requester) (n : Nat) (v : Word)
  /-- INTERRUPT_MESSAGE (R477): a write of size bytes of data at an address, from a requester ID. -/
  | interruptMessage (rid : BitVec 16) (addr : Word) (size : Nat) (x : BitVec 32)
  /-- IR_SEND (R475): a write of IR_SEND. -/
  | irSend (req : Requester) (v : Word)
  /-- IR_WAKE (R475): a write of IR_SEND with WAKE. -/
  | irWake (req : Requester) (v : Word)
  /-- IR_INV (R473): a write of IR_INV. -/
  | irInv (req : Requester) (v : Word)
  /-- BIND (R478): a write of BIND[i]. -/
  | bind (req : Requester) (i : Nat) (v : Word)
  /-- UNBIND (R478): a write of BIND[i]. -/
  | unbind (req : Requester) (i : Nat) (v : Word)
  /-- SOCKET_EVENT (R479): line e rises. -/
  | socketEvent (e : Nat)
  /-- REFCLK_LOSS (R485). -/
  | refclkLoss
  /-- PLL_SETTLE (R487): of PLL p. -/
  | pllSettle (p : Nat)
  /-- TILE_RATIO_WRITE (R490): a write of TILE_CLK[t]. -/
  | tileRatioWrite (req : Requester) (t : Nat) (v : Word)
  /-- VID_ACK (R494): of frond f, at a voltage in mV. -/
  | vidAck (f mv : Nat)
  /-- VID_TIMEOUT (R494): of frond f. -/
  | vidTimeout (f : Nat)
  /-- POWER_THROTTLE (R491): at the measured package power in W. -/
  | powerThrottle (watts : Nat)
  /-- THERMAL_THROTTLE (R491): tile t at a temperature in °C. -/
  | thermalThrottle (t temp : Nat)
  /-- DEEP_PARK_ENTRY (R496): of physical core c. -/
  | deepParkEntry (c : Nat)
  /-- COLD_RESET_PIN (R498). -/
  | coldResetPin
  /-- COLD_RESET (R498): a write of RESET_CTL. -/
  | coldReset (req : Requester) (v : Word)
  /-- WARM_RESET (R501): a write of RESET_CTL. -/
  | warmReset (req : Requester) (v : Word)
  /-- STRAND_RESET (R502): a write of RESET_CTL. -/
  | strandReset (req : Requester) (v : Word)
  /-- THERMTRIP (R537). -/
  | thermtrip
  /-- OVERTEMP_CLOCK_STOP (R537). -/
  | overtempClockStop
  /-- ENTDAA (R506): the dynamic address assigned. -/
  | entdaa (addr : BitVec 7)
  /-- SETDASA (R506): static address, dynamic address. -/
  | setdasa (static addr : BitVec 7)
  /-- SET_ENDPOINT_ID (R506). -/
  | setEndpointId (eid : Byte)
  /-- GET_ENDPOINT_ID (R506). -/
  | getEndpointId
  /-- GET_MCTP_VERSION_SUPPORT (R506). -/
  | getMctpVersionSupport
  /-- GET_MESSAGE_TYPE_SUPPORT (R506). -/
  | getMessageTypeSupport
  /-- EVENT_MESSAGE_TIMEOUT (R507). -/
  | eventMessageTimeout
  /-- SMB_QUEUE_TIMEOUT (R508). -/
  | smbQueueTimeout
  /-- GET_INFO (R509): a steward command on a channel; likewise below. -/
  | getInfo (ch : Channel)
  /-- CFG_READ (R509). -/
  | cfgRead (ch : Channel) (key : Nat)
  /-- CFG_WRITE (R510). -/
  | cfgWrite (ch : Channel) (key : Nat) (value : List Byte)
  /-- CFG_DEFAULTS (R509). -/
  | cfgDefaults (ch : Channel)
  /-- ERR_READ (R509). -/
  | errRead (ch : Channel) (first count : Nat)
  /-- TLM_READ (R509). -/
  | tlmRead (ch : Channel) (first : Word) (count : Nat)
  /-- RESET (R509): kind 0 cold, 1 socket warm, and the key. -/
  | reset (ch : Channel) (kind key : Nat)
  /-- REPAIR_CLEAR (R378): a repair-record index. -/
  | repairClear (ch : Channel) (i : Nat)
  /-- SORUS_CHUNK (R515). -/
  | sorusChunk (ch : Channel) (off total : Nat) (last start rebuild : Bool) (bytes : List Byte)
  /-- UPDATE_START (R516): the first failing check of R514 at the head, as an abort reason; 0 none. -/
  | updateStart (ch : Channel) (verdict : BitVec 8)
  /-- UPDATE_STATUS (R509). -/
  | updateStatus (ch : Channel)
  /-- UPDATE_ABORT (R518). -/
  | updateAbort (ch : Channel)
  /-- UPDATE_DEADLINE (R518). -/
  | updateDeadline
  /-- CONFIRM_SEND (R516). -/
  | confirmSend
  /-- ACTIVATION_SWITCH (R517). -/
  | activationSwitch
  /-- FIRMWARE_OVERWRITE (R520): of a component's next unit; whether the image verifies. -/
  | firmwareOverwrite (component unit : Nat) (ok : Bool)
  /-- ILLEGAL_INSTRUCTION (R87): strand g executes a word. -/
  | illegalInstruction (g : Nat) (w : BitVec 32)
  /-- PWRFAIL_N_RISE (R311). -/
  | pwrfailNRise (p : PowerUpIn)
  /-- REFCLK_RETURN (R485). -/
  | refclkReturn
  /-- PCIE_LINK_UP (R420): of root port pt. -/
  | pcieLinkUp (pt : Nat)
  /-- PORT_COMPLETION (R416): for the oldest outbound request of root port pt, with its data. -/
  | portCompletion (pt : Nat) (x : Word)
  /-- SE_HALT (R30). -/
  | seHalt
  /-- RANDOM_HEALTH_TEST (R381): failing or not. -/
  | randomHealthTest (failing : Bool)
  /-- STEWARD_ACKNOWLEDGE (R350). -/
  | stewardAcknowledge
  deriving DecidableEq, Repr

end Sys2Proof
end

