-- ==== Sys2Proof/Decode.lean ====
section
/-!
DEFINITION. The command that a word spells. spec/opcode_table.json gives no row of this block any bits
(the encodings of R83 to R85 and R113 reach the model as the fields of a command), so no word spells a
command.
-/

namespace Sys2Proof

/-- The command that the nbits-bit word w spells: none, for no row of the table has bits. -/
def decodeTableWord (_nbits _w : Nat) : Option Instr := none

end Sys2Proof
end

