-- ==== Sys2Proof/Config.lean ====
section
/-!
DEFINITION. What an implementation fixes and what the spec leaves open: the free values. Each is an
opaque constant applied to a plain counter of the state (or to operands), so that no proof can see
what it is (log entries 5 and 6).
-/

namespace Sys2Proof.Config

/-- The k-th free word (log entry 5). -/
opaque freeWord : Nat → Word

/-- The k-th free choice (log entry 5). -/
opaque freeBool : Nat → Bool

/-- The k-th free line (log entry 5). -/
opaque freeLine : Nat → Line

/-- The k-th random word of the SE's source (R381), as a free value. -/
opaque randomWord : Nat → Word

/-- SHA3-512 of a byte string (R388, R396), uninterpreted (log entry 6). -/
opaque sha3 : List Byte → Line

/-- A signature of a byte string under the alias key (R386, R395): the first bytes of it as a line,
uninterpreted (log entry 6). -/
opaque sign : List Byte → Line

/-- AES-256-GCM of a byte string under a key, a nonce and a direction (R433), byte by byte,
uninterpreted (log entry 6). -/
opaque gcm : List Byte → List Byte → Bool → List Byte → List Byte

/-- The tag that `gcm` gives (R433), uninterpreted (log entry 6). -/
opaque gcmTag : List Byte → List Byte → Bool → List Byte → List Byte

/-- AES-256-XTS of a data unit under a 64-byte key block, a tweak and a direction (R433), uninterpreted (log entry 6). -/
opaque xts : List Byte → Nat → Bool → List Byte → List Byte

/-- The SHA3-512 digest of a component's spore (R386): of image `gen` of a component (log entry 6). -/
opaque sporeDigest : Nat → Nat → Line

/-- The certificate chain of slot 0 (R387), for the images that run (log entry 6). -/
opaque certificates : List Nat → List Byte

/-- What the checks of R514 that need the digests and signatures of a sorus find: 0 good, 1 a signature, 2 a digest
(log entry 6). -/
opaque sorusCheck : List Byte → Nat

end Sys2Proof.Config
end

