-- ==== Sys2Proof/Machine/RegMap.lean ====
section
/-!
DEFINITION. The socket register space as the register tables of the spec lay it out (R35 and the
tables it names): every register's offset, every field's bits, access code (R11), Cold value, and
whether a warm reset keeps it (R13). `src` marks a field whose Cold value comes from
fuses, straps, self-test, boot or the partition. The Ledger Engine's BAR registers (R429) stand at 0x1_0000_0000
plus their offset, the Kymin port registers of root port n (R424) at 0x2_0000_0000 + 0x1000 × n plus
their configuration offset. A Cold value that the spec leaves to fuses, self-test, straps or the
partition is the model's; the log entry 3 lists those.
-/

namespace Sys2Proof.Machine

/-- The access codes of R11. `rw1cf` is an RW1C field that any written 1 clears whole. -/
inductive Acc
  | ro | rw | rw1c | rw1cf | wo | rws | rwl
  deriving DecidableEq, Repr

/-- A field of a register: the register's offset and the bits [lo + width - 1 : lo]. -/
structure Field where
  reg : Nat
  lo : Nat
  width : Nat
  deriving DecidableEq, Repr

/-- The same field of the register `off` bytes on (another element of an array). -/
def Field.at (f : Field) (off : Nat) : Field := ⟨f.reg + off, f.lo, f.width⟩

/-- A field with its access code, Cold value and whether a warm reset keeps it. -/
structure FieldSpec where
  fld : Field
  acc : Acc
  cold : Nat
  kept : Bool
  src : Bool
  deriving DecidableEq, Repr

/-- A register: its first offset, the (stride, count) of its array dimensions, outermost first, and
its fields; the bits that no field covers are RSV (R12). -/
structure RegSpec where
  base : Nat
  dims : List (Nat × Nat)
  fields : List FieldSpec
  deriving DecidableEq, Repr

namespace R
def IDENT_PART : Field := ⟨0, 0, 16⟩
def IDENT_STEPPING : Field := ⟨0, 16, 8⟩
def IDENT_SOCKET_ID : Field := ⟨0, 24, 3⟩
def IDENT_CHAIN_HEAD : Field := ⟨0, 27, 1⟩
def IDENT_FROND_OK : Field := ⟨0, 28, 4⟩
def IDENT_IODIE_OK : Field := ⟨0, 32, 2⟩
def IDENT_PS_OK : Field := ⟨0, 34, 8⟩
def FRAME_NUMBER : Field := ⟨8, 0, 64⟩
def DUTY_FUNC : Field := ⟨0x10, 0, 11⟩
def CHAIN_STATUS_PRESENT : Field := ⟨0x18, 0, 8⟩
def CHAIN_STATUS_COHERENT : Field := ⟨0x18, 8, 8⟩
def CHAIN_STATUS_RING_OK : Field := ⟨0x18, 16, 1⟩
def CHAIN_STATUS_IN_LOST : Field := ⟨0x18, 17, 1⟩
def CHAIN_STATUS_OVERFLOW : Field := ⟨0x18, 18, 1⟩
def CHAIN_STATUS_UNADDRESSED : Field := ⟨0x18, 19, 1⟩
def CHAIN_STATUS_WIRING : Field := ⟨0x18, 20, 1⟩
def CHAIN_STATUS_MSG_DOWN : Field := ⟨0x18, 21, 1⟩
def CHAIN_STATUS_HOP : Field := ⟨0x18, 22, 10⟩
def CHAIN_STATUS_BREAKS : Field := ⟨0x18, 32, 16⟩
def CHAIN_STATUS_MSG_ERRORS : Field := ⟨0x18, 48, 16⟩
def LOCK_BOOT_LOCK : Field := ⟨0x20, 0, 1⟩
def CORE_COUNT_GOOD : Field := ⟨0x28, 0, 9⟩
def CORE_COUNT_SERVICE : Field := ⟨0x28, 9, 9⟩
def CORE_COUNT_SPARE : Field := ⟨0x28, 18, 9⟩
def CORE_COUNT_WARM_TARGET : Field := ⟨0x28, 27, 3⟩
def HOLE_OFFSET : Field := ⟨0x30, 0, 28⟩
def HOLE_REQUESTER : Field := ⟨0x30, 28, 12⟩
def HOLE_WRITE : Field := ⟨0x30, 40, 1⟩
def HOLE_VALID : Field := ⟨0x30, 41, 1⟩
def TICK_CTL_COMP : Field := ⟨0x38, 0, 16⟩
def TICK_CTL_DELAY : Field := ⟨0x38, 16, 16⟩
def TICK_CTL_RESYNC_AUTO : Field := ⟨0x38, 32, 1⟩
def TICK_CTL_RESYNC_REQ : Field := ⟨0x38, 33, 1⟩
def TICK_STATUS_SOURCE : Field := ⟨0x40, 0, 2⟩
def TICK_STATUS_OFFSET : Field := ⟨0x40, 2, 16⟩
def TICK_STATUS_LOSSES : Field := ⟨0x40, 18, 16⟩
def TICK_LOST_AT_NUMBER : Field := ⟨0x48, 0, 64⟩
def TICK_EVENT_LOST : Field := ⟨0x50, 0, 1⟩
def TICK_EVENT_RESYNCED : Field := ⟨0x50, 1, 1⟩
def TICK_EVENT_SKEW : Field := ⟨0x50, 2, 1⟩
def TICK_EVENT_TASK_MISS : Field := ⟨0x50, 3, 1⟩
def TICK_EVENT_JUMP : Field := ⟨0x50, 4, 1⟩
def TICK_EVENT_EN_BITS : Field := ⟨0x58, 0, 5⟩
def TASK_ABANDON_RETRAIN : Field := ⟨0x60, 0, 32⟩
def TASK_ABANDON_SLICETEST : Field := ⟨0x60, 32, 32⟩
def EPOCH_CLOSED_EPOCH : Field := ⟨0x68, 0, 64⟩
def MEM_IL_WAYS : Field := ⟨0x70, 0, 3⟩
def MEM_IL_RESERVE_EN : Field := ⟨0x70, 3, 1⟩
def MEM_IL_U_GIB : Field := ⟨0x70, 4, 10⟩
def MEM_IL_RET_SLOT : Field := ⟨0x70, 14, 4⟩
def MEM_IL_RET_STATE : Field := ⟨0x70, 18, 2⟩
def CUSHION_CTL_RETAIN_ARM : Field := ⟨0x80, 0, 1⟩
def CUSHION_CTL_BROWNOUT_EN : Field := ⟨0x80, 1, 1⟩
def CUSHION_STATUS_PWRFAIL : Field := ⟨0x88, 0, 1⟩
def CUSHION_STATUS_BROWNOUT : Field := ⟨0x88, 1, 1⟩
def CUSHION_STATUS_RETAIN_HELD : Field := ⟨0x88, 2, 1⟩
def CUSHION_STATUS_DRAINS : Field := ⟨0x88, 16, 32⟩
def RESUME_INFO_PATH : Field := ⟨0x90, 0, 2⟩
def RESUME_INFO_REPORT_VALID : Field := ⟨0x90, 2, 1⟩
def RESUME_INFO_TORN : Field := ⟨0x90, 3, 1⟩
def RESUME_INFO_RESTARTABLE : Field := ⟨0x90, 4, 1⟩
def RESUME_INFO_MISMATCH : Field := ⟨0x90, 5, 1⟩
def RESUME_INFO_CANARY_OK : Field := ⟨0x90, 6, 16⟩
def RESUME_INFO_IMAGES_HELD : Field := ⟨0x90, 22, 1⟩
def RESUME_INFO_SLOT : Field := ⟨0x90, 23, 1⟩
def RESUME_VECTOR_ADDR : Field := ⟨0x98, 2, 50⟩
def STRAND_RESTORE_ID : Field := ⟨0xA0, 0, 12⟩
def STRAND_RESTORE_GO : Field := ⟨0xA0, 12, 1⟩
def STRAND_RESTORE_BUSY : Field := ⟨0xA0, 13, 1⟩
def STRAND_RESTORE_RESULT : Field := ⟨0xA0, 14, 4⟩
def DRAIN_TEST_KEY : Field := ⟨0xA8, 0, 8⟩
def DRAIN_TEST_GO : Field := ⟨0xA8, 8, 1⟩
def HOME_BASE_EN : Field := ⟨0x100, 0, 1⟩
def HOME_BASE_ADDR : Field := ⟨0x100, 30, 22⟩
def HOME_LIMIT_ADDR : Field := ⟨0x140, 30, 22⟩
def IOWIN_BASE_EN : Field := ⟨0x180, 0, 1⟩
def IOWIN_BASE_ADDR : Field := ⟨0x180, 30, 22⟩
def IOWIN_LIMIT_ADDR : Field := ⟨0x1C0, 30, 22⟩
def ECAM_BASE_EN : Field := ⟨0x200, 0, 1⟩
def ECAM_BASE_ADDR : Field := ⟨0x200, 30, 22⟩
def CORE_MAP_PHYS : Field := ⟨0x1000, 0, 9⟩
def CORE_MAP_PRESENT : Field := ⟨0x1000, 15, 1⟩
def CORE_STATE_STATE : Field := ⟨0x2000, 0, 3⟩
def CORE_STATE_LOGICAL : Field := ⟨0x2000, 3, 8⟩
def IODT_BASE_EN : Field := ⟨0x3000, 0, 1⟩
def IODT_BASE_BASE : Field := ⟨0x3000, 21, 31⟩
def IOIQ_BASE_EN : Field := ⟨0x3008, 0, 1⟩
def IOIQ_BASE_SIZE : Field := ⟨0x3008, 1, 3⟩
def IOIQ_BASE_BASE : Field := ⟨0x3008, 12, 40⟩
def IOIQ_TAIL_INDEX : Field := ⟨0x3010, 0, 15⟩
def IOIQ_HEAD_INDEX : Field := ⟨0x3018, 0, 15⟩
def IOIQ_HEAD_ERR : Field := ⟨0x3018, 16, 1⟩
def IOIQ_HEAD_IDLE : Field := ⟨0x3018, 17, 1⟩
def IOFAULT_RID : Field := ⟨0x3020, 0, 16⟩
def IOFAULT_KIND : Field := ⟨0x3020, 16, 4⟩
def IOFAULT_LEVEL : Field := ⟨0x3020, 20, 3⟩
def IOFAULT_STAGE : Field := ⟨0x3020, 23, 1⟩
def IOFAULT_WRITE : Field := ⟨0x3020, 24, 1⟩
def IOFAULT_VALID : Field := ⟨0x3020, 25, 1⟩
def IOFAULT_COUNT : Field := ⟨0x3020, 32, 32⟩
def IOFAULT_ADDR_ADDR : Field := ⟨0x3028, 0, 64⟩
def SLICE_MAP_TILE : Field := ⟨0x4000, 0, 8⟩
def SLICE_MAP_MOVING : Field := ⟨0x4000, 8, 1⟩
def CH_MAP_MC : Field := ⟨0x5000, 0, 4⟩
def CH_MAP_VALID : Field := ⟨0x5000, 4, 1⟩
def EVAC_CTL_RATE : Field := ⟨0x5100, 0, 10⟩
def EVAC_CTL_URGENT_RATE : Field := ⟨0x5100, 10, 10⟩
def EVAC_CTL_START : Field := ⟨0x5100, 20, 1⟩
def EVAC_CTL_PAUSE : Field := ⟨0x5100, 21, 1⟩
def EVAC_STATUS_MOVED : Field := ⟨0x5108, 0, 32⟩
def EVAC_STATUS_POISONED : Field := ⟨0x5108, 32, 16⟩
def EVAC_STATUS_CANDIDATE : Field := ⟨0x5108, 48, 1⟩
def EVAC_STATUS_CAND_SLOT : Field := ⟨0x5108, 49, 4⟩
def EVAC_STATUS_NO_RESERVE : Field := ⟨0x5108, 53, 1⟩
def EVAC_STATUS_BUSY : Field := ⟨0x5108, 54, 1⟩
def ERR_CTL_DESIGNATED : Field := ⟨0x6000, 0, 12⟩
def ERR_STATUS_FAULT : Field := ⟨0x6008, 0, 1⟩
def ERR_STATUS_LOST : Field := ⟨0x6008, 16, 32⟩
def ERR_HEAD_INDEX : Field := ⟨0x6010, 0, 10⟩
def ERR_HEAD_FULL : Field := ⟨0x6010, 10, 1⟩
def ERR_HEAD_TOTAL : Field := ⟨0x6010, 16, 48⟩
def ERR_TAIL_INDEX : Field := ⟨0x6018, 0, 10⟩
def ERR_EVENT_RECORD : Field := ⟨0x6020, 0, 1⟩
def ERR_EVENT_CANDIDATE : Field := ⟨0x6020, 1, 1⟩
def ERR_EVENT_RETIRED : Field := ⟨0x6020, 2, 1⟩
def ERR_EVENT_UNCONTAINED : Field := ⟨0x6020, 3, 1⟩
def ERR_EVENT_RING_LOST : Field := ⟨0x6020, 4, 1⟩
def ERR_EVENT_DUTY : Field := ⟨0x6020, 5, 1⟩
def ERR_EVENT_EN_BITS : Field := ⟨0x6028, 0, 6⟩
def XPLANT_CTL_TARGET : Field := ⟨0x6030, 0, 9⟩
def XPLANT_CTL_ANY : Field := ⟨0x6030, 9, 1⟩
def XPLANT_CTL_GO : Field := ⟨0x6030, 10, 1⟩
def XPLANT_STATUS_SOURCE : Field := ⟨0x6038, 0, 9⟩
def XPLANT_STATUS_CANDIDATE : Field := ⟨0x6038, 9, 1⟩
def XPLANT_STATUS_BUSY : Field := ⟨0x6038, 10, 1⟩
def XPLANT_STATUS_RESULT : Field := ⟨0x6038, 11, 3⟩
def DRAIN_STEP_GO : Field := ⟨0x6040, 0, 3⟩
def DRAIN_STEP_DUE : Field := ⟨0x6040, 8, 3⟩
def ERR_THRESH_THRESH : Field := ⟨0x6100, 0, 8⟩
def ROUTE_LINKS : Field := ⟨0x7000, 0, 8⟩
def ROUTE_VIA : Field := ⟨0x7000, 8, 3⟩
def ROUTE_KIND : Field := ⟨0x7000, 11, 2⟩
def STW_STATUS_STATE : Field := ⟨0x100000, 0, 2⟩
def STW_STATUS_PREVIOUS_SET : Field := ⟨0x100000, 2, 1⟩
def STW_STATUS_SCHEMA : Field := ⟨0x100000, 3, 16⟩
def STW_STATUS_CFG_DEFAULTED : Field := ⟨0x100000, 19, 1⟩
def STW_STATUS_RESTARTS : Field := ⟨0x100000, 20, 16⟩
def STW_STATUS_MCTP_DROPS : Field := ⟨0x100000, 36, 16⟩
def SMB_CLAIM_HELD : Field := ⟨0x100008, 0, 1⟩
def SMB_CLAIM_MINE : Field := ⟨0x100008, 1, 1⟩
def SMB_CLAIM_OWNER : Field := ⟨0x100008, 2, 12⟩
def SMB_CLAIM_RELEASE : Field := ⟨0x100008, 14, 1⟩
def SMB_CMD_CODE : Field := ⟨0x100010, 0, 8⟩
def SMB_CMD_LENGTH : Field := ⟨0x100010, 8, 13⟩
def SMB_CMD_GO : Field := ⟨0x100010, 21, 1⟩
def SMB_STATUS_RESULT : Field := ⟨0x100018, 0, 8⟩
def SMB_STATUS_BUSY : Field := ⟨0x100018, 8, 1⟩
def SMB_STATUS_QUEUED : Field := ⟨0x100018, 9, 1⟩
def SMB_STATUS_RLENGTH : Field := ⟨0x100018, 10, 13⟩
def SMB_STATUS_REJECTED : Field := ⟨0x100018, 23, 1⟩
def UPD_STATUS_PHASE : Field := ⟨0x100020, 0, 4⟩
def UPD_STATUS_REASON : Field := ⟨0x100020, 4, 8⟩
def UPD_STATUS_READY : Field := ⟨0x100020, 12, 8⟩
def UPD_STATUS_ACTIVATED : Field := ⟨0x100020, 20, 8⟩
def UPD_FRAME_FRAME : Field := ⟨0x100028, 0, 64⟩
def TLM_HEAD_FRAME : Field := ⟨0x100030, 0, 64⟩
def TLM_GAPS_GAPS : Field := ⟨0x100038, 0, 32⟩
def SE_STATUS_STATE : Field := ⟨0x200000, 0, 2⟩
def SE_STATUS_DEBUG : Field := ⟨0x200000, 2, 1⟩
def SE_STATUS_LINK_SECRET : Field := ⟨0x200000, 3, 1⟩
def SE_STATUS_KEYS : Field := ⟨0x200000, 4, 17⟩
def SE_STATUS_DOMAINS : Field := ⟨0x200000, 21, 12⟩
def MB_CLAIM_HELD : Field := ⟨0x200008, 0, 1⟩
def MB_CLAIM_MINE : Field := ⟨0x200008, 1, 1⟩
def MB_CLAIM_OWNER : Field := ⟨0x200008, 2, 12⟩
def MB_CLAIM_RELEASE : Field := ⟨0x200008, 14, 1⟩
def MB_CMD_CODE : Field := ⟨0x200010, 0, 8⟩
def MB_CMD_LENGTH : Field := ⟨0x200010, 8, 13⟩
def MB_CMD_GO : Field := ⟨0x200010, 21, 1⟩
def MB_STATUS_RESULT : Field := ⟨0x200018, 0, 8⟩
def MB_STATUS_BUSY : Field := ⟨0x200018, 8, 1⟩
def MB_STATUS_QUEUED : Field := ⟨0x200018, 9, 1⟩
def MB_STATUS_RLENGTH : Field := ⟨0x200018, 10, 13⟩
def MB_STATUS_REJECTED : Field := ⟨0x200018, 23, 1⟩
def POT_BASE_EN : Field := ⟨0x200020, 0, 1⟩
def POT_BASE_BASE : Field := ⟨0x200020, 21, 31⟩
def MC_STATUS_STATE : Field := ⟨0x1000000, 0, 3⟩
def MC_STATUS_TEMP : Field := ⟨0x1000000, 3, 8⟩
def MC_CFG_RATE : Field := ⟨0x1000008, 0, 2⟩
def MC_CFG_DPC2 : Field := ⟨0x1000008, 2, 1⟩
def MC_CFG_RANKS2 : Field := ⟨0x1000008, 3, 1⟩
def MC_CFG_STACK : Field := ⟨0x1000008, 4, 2⟩
def MC_CFG_X8 : Field := ⟨0x1000008, 6, 1⟩
def MC_CFG_DENSITY : Field := ⟨0x1000008, 7, 2⟩
def MC_CFG_CAP_GIB : Field := ⟨0x1000008, 9, 10⟩
def ERR_COUNT_CE_COUNT : Field := ⟨0x1000010, 0, 32⟩
def ERR_COUNT_CE_OVF : Field := ⟨0x1000010, 32, 1⟩
def ERR_COUNT_UE_COUNT : Field := ⟨0x1000010, 33, 16⟩
def SCRUB_CTL_EN : Field := ⟨0x1000018, 0, 1⟩
def SCRUB_CTL_PERIOD : Field := ⟨0x1000018, 1, 16⟩
def SCRUB_CTL_REWRITE : Field := ⟨0x1000018, 17, 1⟩
def SCRUB_CTL_SKIP : Field := ⟨0x1000018, 18, 1⟩
def SCRUB_STATUS_ADDR : Field := ⟨0x1000020, 0, 40⟩
def SCRUB_STATUS_WAITING : Field := ⟨0x1000020, 40, 1⟩
def SCRUB_STATUS_UE : Field := ⟨0x1000020, 41, 1⟩
def SCRUB_STATUS_PASS_DONE : Field := ⟨0x1000020, 42, 1⟩
def RETRAIN_CTL_PERIOD : Field := ⟨0x1000028, 0, 16⟩
def RETRAIN_CTL_GO : Field := ⟨0x1000028, 16, 1⟩
def RETRAIN_STATUS_DUE : Field := ⟨0x1000030, 0, 1⟩
def RETRAIN_STATUS_PAUSES : Field := ⟨0x1000030, 1, 32⟩
def ROWGUARD_THRESH_VALUE : Field := ⟨0x1000038, 0, 16⟩
def ROWGUARD_EVENT_ROW : Field := ⟨0x1000040, 0, 18⟩
def ROWGUARD_EVENT_BG : Field := ⟨0x1000040, 18, 3⟩
def ROWGUARD_EVENT_BANK : Field := ⟨0x1000040, 21, 2⟩
def ROWGUARD_EVENT_RANK : Field := ⟨0x1000040, 23, 3⟩
def ROWGUARD_EVENT_SUB : Field := ⟨0x1000040, 26, 1⟩
def ROWGUARD_EVENT_VALID : Field := ⟨0x1000040, 27, 1⟩
def ROWGUARD_EVENT_RELEASE : Field := ⟨0x1000040, 28, 1⟩
def ROWGUARD_EVENT_MISSED : Field := ⟨0x1000040, 29, 1⟩
def ROWGUARD_EVENT_QUEUED : Field := ⟨0x1000040, 30, 4⟩
def GROUP_PORT_PORTS : Field := ⟨0x1000048, 0, 64⟩
def PORT_CFG_BUDGET : Field := ⟨0x1000100, 0, 12⟩
def PORT_CFG_BURST : Field := ⟨0x1000100, 12, 12⟩
def PORT_CFG_PRIORITY : Field := ⟨0x1000100, 24, 3⟩
def PORT_CFG_WORK_CONSERVE : Field := ⟨0x1000100, 27, 1⟩
def PORT_CFG_EN : Field := ⟨0x1000100, 28, 1⟩
def PORT_STATUS_CREDITS : Field := ⟨0x1000180, 0, 13⟩
def PORT_STATUS_STARVED : Field := ⟨0x1000180, 13, 32⟩
def FL_STATUS_STATE : Field := ⟨0x2000000, 0, 3⟩
def FL_STATUS_PEER_SOCKET : Field := ⟨0x2000000, 3, 3⟩
def FL_STATUS_PEER_LINK : Field := ⟨0x2000000, 6, 3⟩
def FL_STATUS_WIDTH : Field := ⟨0x2000000, 9, 5⟩
def FL_STATUS_LANES_RETIRED : Field := ⟨0x2000000, 14, 24⟩
def FL_STATUS_CANDIDATE : Field := ⟨0x2000000, 38, 1⟩
def FL_CTL_EN : Field := ⟨0x2000008, 0, 1⟩
def FL_CTL_SPARE : Field := ⟨0x2000008, 1, 1⟩
def FL_RETIRE_GO : Field := ⟨0x2000010, 0, 1⟩
def FL_COUNT_REPLAYS : Field := ⟨0x2000018, 0, 32⟩
def FL_COUNT_FEC_CORRECTED : Field := ⟨0x2000018, 32, 32⟩
def FL_CRYPTO_REKEYS : Field := ⟨0x2000020, 0, 32⟩
def FL_CRYPTO_AUTH_OK : Field := ⟨0x2000020, 32, 1⟩
def FL_CRYPTO_CONFIDENTIAL : Field := ⟨0x2000020, 33, 1⟩
def PS_STATUS_MOUNTED : Field := ⟨0x3000000, 0, 1⟩
def PS_STATUS_INTAKE_USED : Field := ⟨0x3000000, 1, 17⟩
def PS_STATUS_MOVE_BUSY : Field := ⟨0x3000000, 18, 1⟩
def PS_STATUS_SPARES_LOW : Field := ⟨0x3000000, 19, 1⟩
def PERSIST_CTL_BUDGET : Field := ⟨0x3000008, 0, 10⟩
def PERSIST_CTL_LEDGER_SHARE : Field := ⟨0x3000008, 10, 10⟩
def PERSIST_CTL_DRAIN_RESERVE : Field := ⟨0x3000008, 20, 17⟩
def PERSIST_STATUS_GRANTED : Field := ⟨0x3000010, 0, 10⟩
def PERSIST_STATUS_LEFT : Field := ⟨0x3000010, 10, 10⟩
def PERSIST_STATUS_REFUSALS : Field := ⟨0x3000010, 20, 32⟩
def GOV_CTL_CAP : Field := ⟨0x3000018, 0, 16⟩
def GOV_CTL_EN : Field := ⟨0x3000018, 16, 1⟩
def GOV_STATUS_WINDOW : Field := ⟨0x3000020, 0, 32⟩
def GOV_STATUS_LIMIT : Field := ⟨0x3000020, 32, 11⟩
def GOV_STATUS_LIMITED : Field := ⟨0x3000020, 43, 1⟩
def WEAR_SUMMARY_MAX : Field := ⟨0x3000028, 0, 28⟩
def WEAR_SUMMARY_MEAN : Field := ⟨0x3000028, 28, 28⟩
def LIFE_YEARS : Field := ⟨0x3000030, 0, 16⟩
def LIFE_SPARES : Field := ⟨0x3000030, 16, 13⟩
def LIFE_RETIRED : Field := ⟨0x3000030, 29, 12⟩
def MEDIA_WRITTEN_BYTES : Field := ⟨0x3000038, 0, 64⟩
def WL_CTL_DELTA : Field := ⟨0x3000040, 0, 16⟩
def WEAR_SEL_GRANULE : Field := ⟨0x3000048, 0, 17⟩
def WEAR_DATA_COUNT : Field := ⟨0x3000050, 0, 28⟩
def WEAR_DATA_USE : Field := ⟨0x3000050, 28, 2⟩
def WEAR_DATA_RETIRED : Field := ⟨0x3000050, 30, 1⟩
def WEAR_DATA_LOGICAL : Field := ⟨0x3000050, 31, 17⟩
def CORE_CACHE_CTL_L1I_EN : Field := ⟨0x4008000, 0, 1⟩
def CORE_CACHE_CTL_L1D_EN : Field := ⟨0x4008000, 1, 1⟩
def CORE_CACHE_CTL_L2_EN : Field := ⟨0x4008000, 2, 1⟩
def CORE_CACHE_CTL_NLP_L1D : Field := ⟨0x4008000, 3, 1⟩
def CORE_CACHE_CTL_NLP_L2 : Field := ⟨0x4008000, 4, 1⟩
def CORE_CACHE_CTL_L1I_CLEAN : Field := ⟨0x4008000, 8, 1⟩
def CORE_CACHE_CTL_L1D_CLEAN : Field := ⟨0x4008000, 9, 1⟩
def CORE_CACHE_CTL_L2_CLEAN : Field := ⟨0x4008000, 10, 1⟩
def CORE_CACHE_CTL_DISABLE_BUSY : Field := ⟨0x4008000, 11, 3⟩
def CORE_CACHE_CTL_REFUSED : Field := ⟨0x4008000, 14, 1⟩
def LLC_CTL_WAY_EN : Field := ⟨0x4008200, 0, 12⟩
def LLC_CTL_WAY_CLEAN : Field := ⟨0x4008200, 12, 12⟩
def LLC_CTL_DISABLE_BUSY : Field := ⟨0x4008200, 24, 12⟩
def LLC_CTL_RETIRED : Field := ⟨0x4008200, 36, 12⟩
def LLC_CTL_REFUSED : Field := ⟨0x4008200, 48, 1⟩
def STASH_IN_COUNT : Field := ⟨0x4008210, 0, 64⟩
def STASH_HOME_COUNT : Field := ⟨0x4008218, 0, 64⟩
def HINT_DROP_COUNT : Field := ⟨0x4008220, 0, 64⟩
def L2_LOST_SET : Field := ⟨0x4008400, 0, 64⟩
def DIR_CTL_STARVE_AFTER : Field := ⟨0x4009000, 0, 4⟩
def DIR_STATUS_OPEN : Field := ⟨0x4009008, 0, 8⟩
def DIR_STATUS_QUEUED : Field := ⟨0x4009008, 8, 7⟩
def DIR_STATUS_USABLE : Field := ⟨0x4009008, 15, 4⟩
def DIR_STATUS_RETIRED : Field := ⟨0x4009008, 19, 8⟩
def DIR_RECALLS_COUNT : Field := ⟨0x4009010, 0, 64⟩
def DIR_RETRIES_COUNT : Field := ⟨0x4009018, 0, 64⟩
def DIR_BCAST_COUNT : Field := ⟨0x4009020, 0, 64⟩
def DIR_GHOST_SERVED_COUNT : Field := ⟨0x4009028, 0, 64⟩
def DIR_WB_DISCARDED_COUNT : Field := ⟨0x4009030, 0, 64⟩
def DIR_ABSENT_COUNT : Field := ⟨0x4009038, 0, 64⟩
def DIR_PURGES_COUNT : Field := ⟨0x4009040, 0, 64⟩
def DIR_DIAG_SEL_SET : Field := ⟨0x4009100, 0, 14⟩
def DIR_DIAG_SEL_WAY : Field := ⟨0x4009100, 14, 3⟩
def DIR_DIAG_W0_WORD : Field := ⟨0x4009108, 0, 64⟩
def DIR_DIAG_W1_WORD : Field := ⟨0x4009110, 0, 64⟩
def PMC_CTL_EVENT : Field := ⟨0x400C000, 0, 10⟩
def PMC_CTL_STRANDS : Field := ⟨0x400C000, 10, 2⟩
def PMC_CTL_LEVELS : Field := ⟨0x400C000, 12, 3⟩
def PMC_CTL_EN : Field := ⟨0x400C000, 15, 1⟩
def PMC_COUNT : Field := ⟨0x400C040, 0, 64⟩
def WP_INSTR_COUNT : Field := ⟨0x400C080, 0, 64⟩
def WP_FILL_COUNT : Field := ⟨0x400C088, 0, 64⟩
def REFILL_VA_ADDR : Field := ⟨0x400D000, 0, 64⟩
def REFILL_ENTRY_ENTRY : Field := ⟨0x400D008, 0, 64⟩
def REFILL_CTL_GO : Field := ⟨0x400D010, 0, 1⟩
def REFILL_CTL_STAGE : Field := ⟨0x400D010, 1, 1⟩
def REFILL_CTL_LEVEL : Field := ⟨0x400D010, 2, 2⟩
def REFILL_CTL_PIN : Field := ⟨0x400D010, 4, 1⟩
def REFILL_CTL_SLOT : Field := ⟨0x400D010, 5, 3⟩
def REFILL_STATUS_RESULT : Field := ⟨0x400D018, 0, 3⟩
def PTRACK_OPEN : Field := ⟨0x400E000, 0, 7⟩
def PTRACK_CLOSING : Field := ⟨0x400E000, 7, 7⟩
def PHELD_COUNT : Field := ⟨0x400E008, 0, 64⟩
def IR_MSG_BASE_EN : Field := ⟨0x6000000, 0, 1⟩
def IR_MSG_BASE_BASE : Field := ⟨0x6000000, 12, 40⟩
def IR_IRT_BASE_EN : Field := ⟨0x6000008, 0, 1⟩
def IR_IRT_BASE_SIZE : Field := ⟨0x6000008, 1, 3⟩
def IR_IRT_BASE_BASE : Field := ⟨0x6000008, 12, 40⟩
def IR_SEND_TARGET : Field := ⟨0x6000010, 0, 12⟩
def IR_SEND_VECTOR : Field := ⟨0x6000010, 12, 10⟩
def IR_SEND_WAKE : Field := ⟨0x6000010, 22, 1⟩
def IR_INV_INDEX : Field := ⟨0x6000018, 0, 16⟩
def IR_INV_ALL : Field := ⟨0x6000018, 16, 1⟩
def IR_INV_BUSY : Field := ⟨0x6000018, 17, 1⟩
def IR_DROP_INVALID : Field := ⟨0x6000020, 0, 32⟩
def IR_DROP_ABSENT : Field := ⟨0x6000020, 32, 32⟩
def IR_FAULT_RID : Field := ⟨0x6000028, 0, 16⟩
def IR_FAULT_INDEX : Field := ⟨0x6000028, 16, 16⟩
def IR_FAULT_REASON : Field := ⟨0x6000028, 32, 3⟩
def IR_FAULT_VALID : Field := ⟨0x6000028, 35, 1⟩
def IR_EVROUTE_TARGET : Field := ⟨0x6000100, 0, 12⟩
def IR_EVROUTE_VECTOR : Field := ⟨0x6000100, 12, 10⟩
def IR_EVROUTE_EN : Field := ⟨0x6000100, 22, 1⟩
def PEND_BITS : Field := ⟨0x6010000, 0, 64⟩
def STRAND_CTL_THRESH : Field := ⟨0x6010080, 0, 4⟩
def STRAND_CTL_PRESENT : Field := ⟨0x6010080, 4, 1⟩
def BIND_EN : Field := ⟨0x6010088, 0, 1⟩
def BIND_REFUSED : Field := ⟨0x6010088, 1, 1⟩
def BIND_ADDR : Field := ⟨0x6010088, 8, 44⟩
def BIND_CLASS_CLASSES : Field := ⟨0x6010090, 0, 16⟩
def SELFTEST_STATUS_DONE : Field := ⟨0x7000000, 0, 1⟩
def SELFTEST_STATUS_PASS : Field := ⟨0x7000000, 1, 1⟩
def SELFTEST_STATUS_REPAIRED : Field := ⟨0x7000000, 2, 1⟩
def SELFTEST_STATUS_REMOVED : Field := ⟨0x7000000, 3, 1⟩
def SELFTEST_STATUS_CHECKER_FAULT : Field := ⟨0x7000000, 4, 1⟩
def SELFTEST_STATUS_SKIPPED : Field := ⟨0x7000000, 5, 1⟩
def SELFTEST_STATUS_FIRST_GROUP : Field := ⟨0x7000000, 8, 8⟩
def SELFTEST_STATUS_FAILS : Field := ⟨0x7000000, 16, 16⟩
def SELFTEST_CTL_INJ_POLICY : Field := ⟨0x7000008, 0, 2⟩
def REPAIR_STATUS_USED : Field := ⟨0x7000010, 0, 15⟩
def REPAIR_STATUS_RECORD_LOW : Field := ⟨0x7000010, 15, 1⟩
def REPAIR_STATUS_FUSE_FREE : Field := ⟨0x7000010, 16, 11⟩
def REPAIR_STATUS_SESSION : Field := ⟨0x7000010, 27, 1⟩
def GROUP_RESULT_PASSED : Field := ⟨0x7000108, 0, 16⟩
def GROUP_RESULT_REPAIRED : Field := ⟨0x7000108, 16, 16⟩
def GROUP_RESULT_REMOVED : Field := ⟨0x7000108, 32, 16⟩
def GROUP_RESULT_LAST : Field := ⟨0x7000108, 48, 3⟩
def SLICE_CTL_EN : Field := ⟨0x7001000, 0, 1⟩
def SLICE_CTL_PERIOD : Field := ⟨0x7001000, 1, 16⟩
def SLICE_STATUS_POSITION : Field := ⟨0x7001008, 0, 24⟩
def SLICE_STATUS_DUE : Field := ⟨0x7001008, 24, 1⟩
def SLICE_STATUS_LAST_PASS : Field := ⟨0x7001008, 25, 31⟩
def SLICE_STATUS_PASS_DONE : Field := ⟨0x7001008, 56, 1⟩
def SLICE_FAIL_GROUP : Field := ⟨0x7001010, 0, 8⟩
def SLICE_FAIL_INSTANCE : Field := ⟨0x7001010, 8, 16⟩
def SLICE_FAIL_ROW : Field := ⟨0x7001010, 24, 16⟩
def SLICE_FAIL_COLUMN : Field := ⟨0x7001010, 40, 1⟩
def SLICE_FAIL_VALID : Field := ⟨0x7001010, 41, 1⟩
def SLICE_GO_SLICE : Field := ⟨0x7001018, 0, 24⟩
def SLICE_GO_GO : Field := ⟨0x7001018, 24, 1⟩
def SLICE_GO_REPAIR : Field := ⟨0x7001018, 25, 1⟩
def SLICE_GO_SKIP : Field := ⟨0x7001018, 26, 1⟩
def INJ_SEL_INSTANCE : Field := ⟨0x7010100, 0, 16⟩
def INJ_SEL_MATCH : Field := ⟨0x7010100, 16, 2⟩
def INJ_SEL_WORD : Field := ⟨0x7010100, 18, 4⟩
def INJ_FLIP_MASK : Field := ⟨0x7010108, 0, 64⟩
def INJ_FLIP_CHK_MASK : Field := ⟨0x7010110, 0, 16⟩
def INJ_ADDR_ADDR : Field := ⟨0x7010118, 0, 64⟩
def INJ_ARM_ARM : Field := ⟨0x7010120, 0, 1⟩
def INJ_ARM_FIRED : Field := ⟨0x7010120, 1, 1⟩
def INJ_ARM_REFUSED : Field := ⟨0x7010120, 2, 1⟩
def INJ_HIT_LOCATION : Field := ⟨0x7010128, 0, 64⟩
def DLOG_CTL_EN : Field := ⟨0x8010040, 0, 1⟩
def DLOG_CTL_FULL_STALL : Field := ⟨0x8010040, 1, 1⟩
def DLOG_CTL_OVERFLOW : Field := ⟨0x8010040, 2, 1⟩
def DLOG_CTL_STALLED : Field := ⟨0x8010040, 3, 1⟩
def DLOG_CTL_GIB : Field := ⟨0x8010040, 4, 12⟩
def DLOG_MAP0_ADDR : Field := ⟨0x8010048, 12, 40⟩
def DLOG_MAP1_ADDR : Field := ⟨0x8010050, 12, 40⟩
def DLOG_RING_SIZE : Field := ⟨0x8010058, 0, 4⟩
def DLOG_RING_ADDR : Field := ⟨0x8010058, 12, 40⟩
def DLOG_RING_HEAD_INDEX : Field := ⟨0x8010060, 0, 22⟩
def DLOG_RING_TAIL_INDEX : Field := ⟨0x8010068, 0, 22⟩
def DLOG_GEN_GEN : Field := ⟨0x8010070, 0, 32⟩
def DLOG_GEN_GEN_ACK : Field := ⟨0x8010070, 32, 32⟩
def CLK_CTL_MESH_RATIO : Field := ⟨0x9000000, 0, 6⟩
def CLK_STATUS_MESH : Field := ⟨0x9000008, 0, 6⟩
def CLK_STATUS_PLAN_STD : Field := ⟨0x9000008, 6, 1⟩
def CLK_STATUS_REFCLK_OK : Field := ⟨0x9000008, 7, 1⟩
def CLK_STATUS_REFCLK_LOSSES : Field := ⟨0x9000008, 8, 16⟩
def PWR_CTL_DEEP_EN : Field := ⟨0x9000010, 0, 1⟩
def PWR_CTL_DEEP_AFTER : Field := ⟨0x9000010, 1, 16⟩
def PWR_CTL_LIMIT_W : Field := ⟨0x9000010, 17, 11⟩
def PWR_CTL_TJ_THROTTLE : Field := ⟨0x9000010, 28, 7⟩
def RESET_CTL_STRAND_ID : Field := ⟨0x9000018, 0, 12⟩
def RESET_CTL_STRAND : Field := ⟨0x9000018, 12, 1⟩
def RESET_CTL_WARM : Field := ⟨0x9000018, 13, 1⟩
def RESET_CTL_COLD : Field := ⟨0x9000018, 14, 1⟩
def RESET_CTL_KEY : Field := ⟨0x9000018, 16, 8⟩
def RESET_CTL_BUSY : Field := ⟨0x9000018, 24, 1⟩
def RESET_CTL_RESULT : Field := ⟨0x9000018, 25, 3⟩
def RESET_INFO_KIND : Field := ⟨0x9000020, 0, 3⟩
def RESET_INFO_FLUSHED : Field := ⟨0x9000020, 3, 1⟩
def RESET_INFO_STRAND_RESETS : Field := ⟨0x9000020, 4, 32⟩
def BOOT_VECTOR_ADDR : Field := ⟨0x9000028, 2, 50⟩
def STRAND_VECTOR_ADDR : Field := ⟨0x9000030, 2, 50⟩
def TILE_CLK_RATIO : Field := ⟨0x9001000, 0, 7⟩
def TILE_CLK_CURRENT : Field := ⟨0x9001000, 7, 7⟩
def TILE_CLK_MAX : Field := ⟨0x9001000, 14, 7⟩
def TILE_CLK_SETTLING : Field := ⟨0x9001000, 21, 1⟩
def TILE_CLK_PINNED : Field := ⟨0x9001000, 22, 1⟩
def TILE_CLK_THROTTLED : Field := ⟨0x9001000, 23, 1⟩
def TILE_CLK_TEMP : Field := ⟨0x9001000, 24, 8⟩
def CORE_PWR_STATE : Field := ⟨0x9002000, 0, 2⟩
def CORE_PWR_WAKES : Field := ⟨0x9002000, 2, 32⟩
def RAIL_MV : Field := ⟨0x9003000, 0, 12⟩
def RAIL_AMPS : Field := ⟨0x9003000, 12, 12⟩
def RAIL_TARGET_MV : Field := ⟨0x9003000, 24, 12⟩
def RAIL_BROWNOUT : Field := ⟨0x9003000, 36, 1⟩
def PLL_STATUS_SETTLED : Field := ⟨0x9004000, 0, 1⟩
def PLL_STATUS_LOCK : Field := ⟨0x9004000, 1, 1⟩
def PLL_STATUS_STARTS : Field := ⟨0x9004000, 2, 16⟩
def LE_STATUS_ENABLED : Field := ⟨0x100000000, 0, 1⟩
def LE_STATUS_QUIESCING : Field := ⟨0x100000000, 1, 1⟩
def LE_STATUS_PENDING_ENABLE : Field := ⟨0x100000000, 2, 1⟩
def LE_STATUS_DROPPED : Field := ⟨0x100000000, 16, 16⟩
def ENGINE_E : Field := ⟨0x100000008, 0, 64⟩
def QP_ASSIGN_FUNC : Field := ⟨0x100010000, 0, 12⟩
def QP_ASSIGN_SLOT : Field := ⟨0x100010000, 12, 8⟩
def STREAM_BASE_ADDR : Field := ⟨0x100020000, 12, 52⟩
def STREAM_CTL_EN : Field := ⟨0x100020008, 0, 1⟩
def STREAM_CTL_OWNER : Field := ⟨0x100020008, 1, 11⟩
def STREAM_CTL_LOG2SIZE : Field := ⟨0x100020008, 12, 6⟩
def STREAM_HEAD_OFFSET : Field := ⟨0x100020010, 0, 64⟩
def STREAM_TAIL_OFFSET : Field := ⟨0x100020018, 0, 64⟩
def FN_STATUS_ENABLED : Field := ⟨0x100040000, 0, 1⟩
def FN_STATUS_QUIESCING : Field := ⟨0x100040000, 1, 1⟩
def FN_STATUS_PENDING_ENABLE : Field := ⟨0x100040000, 2, 1⟩
def FN_STATUS_DROPPED : Field := ⟨0x100040000, 16, 16⟩
def MBX_CMD_CODE : Field := ⟨0x100050000, 0, 8⟩
def MBX_CMD_LENGTH : Field := ⟨0x100050000, 8, 13⟩
def MBX_CMD_GO : Field := ⟨0x100050000, 21, 1⟩
def MBX_STATUS_RESULT : Field := ⟨0x100050008, 0, 8⟩
def MBX_STATUS_BUSY : Field := ⟨0x100050008, 8, 1⟩
def MBX_STATUS_QUEUED : Field := ⟨0x100050008, 9, 1⟩
def MBX_STATUS_RLENGTH : Field := ⟨0x100050008, 10, 13⟩
def MBX_STATUS_REJECTED : Field := ⟨0x100050008, 23, 1⟩
def SQ_BASE_SIZE : Field := ⟨0x101000000, 0, 4⟩
def SQ_BASE_ADDR : Field := ⟨0x101000000, 12, 52⟩
def SQ_TAIL_INDEX : Field := ⟨0x101000008, 0, 16⟩
def CQ_BASE_SIZE : Field := ⟨0x101000010, 0, 4⟩
def CQ_BASE_ADDR : Field := ⟨0x101000010, 12, 52⟩
def CQ_HEAD_INDEX : Field := ⟨0x101000018, 0, 16⟩
def Q_CTL_EN : Field := ⟨0x101000020, 0, 1⟩
def Q_CTL_PAUSE : Field := ⟨0x101000020, 1, 1⟩
def Q_CTL_VECTOR : Field := ⟨0x101000020, 2, 11⟩
def Q_CTL_WEIGHT : Field := ⟨0x101000020, 13, 3⟩
def Q_STATUS_IDLE : Field := ⟨0x101000028, 0, 1⟩
def Q_STATUS_ERR : Field := ⟨0x101000028, 1, 3⟩
def Q_STATUS_ASSIGN_REFUSED : Field := ⟨0x101000028, 4, 1⟩
def Q_STATUS_INFLIGHT : Field := ⟨0x101000028, 5, 9⟩
def KPORT_CTL_BIFURCATE : Field := ⟨0x200000908, 0, 3⟩
def KPORT_CTL_BUSERR_EN : Field := ⟨0x200000908, 3, 1⟩
def KPORT_CTL_REFCLK_EN : Field := ⟨0x200000908, 4, 1⟩
def KPORT_CTL_SSC_DEPTH : Field := ⟨0x200000908, 5, 4⟩
def KPORT_CTL_SSC_RATE : Field := ⟨0x200000908, 9, 3⟩
def KPORT_STATUS_CONTAINED : Field := ⟨0x20000090C, 0, 1⟩
def KPORT_STATUS_CANDIDATE : Field := ⟨0x20000090C, 1, 1⟩
def KPORT_STATUS_SSC_PENDING : Field := ⟨0x20000090C, 2, 1⟩
def KPORT_STATUS_LANES_RETIRED : Field := ⟨0x20000090C, 16, 16⟩
def KPORT_RETIRE_GO : Field := ⟨0x200000910, 0, 1⟩
def KPORT_COUNT_LOST : Field := ⟨0x200000914, 0, 32⟩

end R

/-- Registers of block SOC. -/
def regsSoc0 : List RegSpec := [
  ⟨0, [], [⟨R.IDENT_PART, .ro, 0x288, false, false⟩,
      ⟨R.IDENT_STEPPING, .ro, 0x10, false, true⟩,
      ⟨R.IDENT_SOCKET_ID, .ro, 0, true, true⟩,
      ⟨R.IDENT_CHAIN_HEAD, .ro, 1, true, true⟩,
      ⟨R.IDENT_FROND_OK, .ro, 15, true, true⟩,
      ⟨R.IDENT_IODIE_OK, .ro, 3, true, true⟩,
      ⟨R.IDENT_PS_OK, .ro, 0xFF, true, true⟩]⟩,
  ⟨8, [], [⟨R.FRAME_NUMBER, .ro, 0, true, false⟩]⟩,
  ⟨0x10, [], [⟨R.DUTY_FUNC, .rwl, 0, true, false⟩]⟩,
  ⟨0x18, [], [⟨R.CHAIN_STATUS_PRESENT, .ro, 1, true, true⟩,
      ⟨R.CHAIN_STATUS_COHERENT, .ro, 1, true, true⟩,
      ⟨R.CHAIN_STATUS_RING_OK, .ro, 0, true, false⟩,
      ⟨R.CHAIN_STATUS_IN_LOST, .ro, 0, true, false⟩,
      ⟨R.CHAIN_STATUS_OVERFLOW, .ro, 0, true, false⟩,
      ⟨R.CHAIN_STATUS_UNADDRESSED, .ro, 0, true, false⟩,
      ⟨R.CHAIN_STATUS_WIRING, .ro, 0, true, false⟩,
      ⟨R.CHAIN_STATUS_MSG_DOWN, .ro, 0, true, false⟩,
      ⟨R.CHAIN_STATUS_HOP, .ro, 0, true, true⟩,
      ⟨R.CHAIN_STATUS_BREAKS, .ro, 0, true, false⟩,
      ⟨R.CHAIN_STATUS_MSG_ERRORS, .ro, 0, true, false⟩]⟩,
  ⟨0x20, [], [⟨R.LOCK_BOOT_LOCK, .rwl, 0, true, false⟩]⟩,
  ⟨0x28, [], [⟨R.CORE_COUNT_GOOD, .ro, 0x120, true, true⟩,
      ⟨R.CORE_COUNT_SERVICE, .ro, 0x100, true, true⟩,
      ⟨R.CORE_COUNT_SPARE, .ro, 0x20, true, true⟩,
      ⟨R.CORE_COUNT_WARM_TARGET, .rwl, 2, true, false⟩]⟩,
  ⟨0x30, [], [⟨R.HOLE_OFFSET, .ro, 0, false, false⟩,
      ⟨R.HOLE_REQUESTER, .ro, 0, false, false⟩,
      ⟨R.HOLE_WRITE, .ro, 0, false, false⟩,
      ⟨R.HOLE_VALID, .rw1c, 0, false, false⟩]⟩,
  ⟨0x38, [], [⟨R.TICK_CTL_COMP, .ro, 0, true, true⟩,
      ⟨R.TICK_CTL_DELAY, .ro, 0, true, true⟩,
      ⟨R.TICK_CTL_RESYNC_AUTO, .rwl, 1, true, false⟩,
      ⟨R.TICK_CTL_RESYNC_REQ, .wo, 0, false, false⟩]⟩,
  ⟨0x40, [], [⟨R.TICK_STATUS_SOURCE, .ro, 0, true, false⟩,
      ⟨R.TICK_STATUS_OFFSET, .ro, 0, false, false⟩,
      ⟨R.TICK_STATUS_LOSSES, .ro, 0, true, false⟩]⟩,
  ⟨0x48, [], [⟨R.TICK_LOST_AT_NUMBER, .ro, 0, true, false⟩]⟩]

/-- Registers of block SOC. -/
def regsSoc1 : List RegSpec := [
  ⟨0x50, [], [⟨R.TICK_EVENT_LOST, .rw1c, 0, false, false⟩,
      ⟨R.TICK_EVENT_RESYNCED, .rw1c, 0, false, false⟩,
      ⟨R.TICK_EVENT_SKEW, .rw1c, 0, false, false⟩,
      ⟨R.TICK_EVENT_TASK_MISS, .rw1c, 0, false, false⟩,
      ⟨R.TICK_EVENT_JUMP, .rw1c, 0, false, false⟩]⟩,
  ⟨0x58, [], [⟨R.TICK_EVENT_EN_BITS, .rw, 0, false, false⟩]⟩,
  ⟨0x60, [], [⟨R.TASK_ABANDON_RETRAIN, .ro, 0, true, false⟩,
      ⟨R.TASK_ABANDON_SLICETEST, .ro, 0, true, false⟩]⟩,
  ⟨0x68, [], [⟨R.EPOCH_CLOSED_EPOCH, .ro, 0, true, false⟩]⟩,
  ⟨0x70, [], [⟨R.MEM_IL_WAYS, .rwl, 4, true, true⟩,
      ⟨R.MEM_IL_RESERVE_EN, .rwl, 0, true, false⟩,
      ⟨R.MEM_IL_U_GIB, .rwl, 0x3F, true, true⟩,
      ⟨R.MEM_IL_RET_SLOT, .ro, 0, true, true⟩,
      ⟨R.MEM_IL_RET_STATE, .ro, 0, true, true⟩]⟩,
  ⟨0x80, [], [⟨R.CUSHION_CTL_RETAIN_ARM, .rw, 0, true, false⟩,
      ⟨R.CUSHION_CTL_BROWNOUT_EN, .rwl, 1, true, false⟩]⟩,
  ⟨0x88, [], [⟨R.CUSHION_STATUS_PWRFAIL, .ro, 0, true, true⟩,
      ⟨R.CUSHION_STATUS_BROWNOUT, .ro, 0, false, false⟩,
      ⟨R.CUSHION_STATUS_RETAIN_HELD, .ro, 0, true, true⟩,
      ⟨R.CUSHION_STATUS_DRAINS, .ro, 0, true, true⟩]⟩,
  ⟨0x90, [], [⟨R.RESUME_INFO_PATH, .ro, 0, true, true⟩,
      ⟨R.RESUME_INFO_REPORT_VALID, .ro, 0, true, true⟩,
      ⟨R.RESUME_INFO_TORN, .ro, 0, true, true⟩,
      ⟨R.RESUME_INFO_RESTARTABLE, .ro, 0, true, true⟩,
      ⟨R.RESUME_INFO_MISMATCH, .ro, 0, true, true⟩,
      ⟨R.RESUME_INFO_CANARY_OK, .ro, 0, true, true⟩,
      ⟨R.RESUME_INFO_IMAGES_HELD, .rw1c, 0, true, true⟩,
      ⟨R.RESUME_INFO_SLOT, .ro, 0, true, true⟩]⟩,
  ⟨0x98, [], [⟨R.RESUME_VECTOR_ADDR, .rwl, 0, true, true⟩]⟩,
  ⟨0xA0, [], [⟨R.STRAND_RESTORE_ID, .rw, 0, false, false⟩,
      ⟨R.STRAND_RESTORE_GO, .wo, 0, false, false⟩,
      ⟨R.STRAND_RESTORE_BUSY, .ro, 0, false, false⟩,
      ⟨R.STRAND_RESTORE_RESULT, .ro, 0, false, false⟩]⟩]

/-- Registers of block SOC. -/
def regsSoc2 : List RegSpec := [
  ⟨0xA8, [], [⟨R.DRAIN_TEST_KEY, .wo, 0, false, false⟩,
      ⟨R.DRAIN_TEST_GO, .wo, 0, false, false⟩]⟩,
  ⟨0x100, [(8, 8)], [⟨R.HOME_BASE_EN, .rwl, 0, true, false⟩,
      ⟨R.HOME_BASE_ADDR, .rwl, 0, true, false⟩]⟩,
  ⟨0x140, [(8, 8)], [⟨R.HOME_LIMIT_ADDR, .rwl, 0, true, false⟩]⟩,
  ⟨0x180, [(8, 8)], [⟨R.IOWIN_BASE_EN, .rwl, 0, true, false⟩,
      ⟨R.IOWIN_BASE_ADDR, .rwl, 0, true, false⟩]⟩,
  ⟨0x1C0, [(8, 8)], [⟨R.IOWIN_LIMIT_ADDR, .rwl, 0, true, false⟩]⟩,
  ⟨0x200, [], [⟨R.ECAM_BASE_EN, .rwl, 0, true, false⟩,
      ⟨R.ECAM_BASE_ADDR, .rwl, 0, true, false⟩]⟩,
  ⟨0x1000, [(8, 256)], [⟨R.CORE_MAP_PHYS, .rwl, 0, true, false⟩,
      ⟨R.CORE_MAP_PRESENT, .rwl, 0, true, false⟩]⟩,
  ⟨0x2000, [(8, 288)], [⟨R.CORE_STATE_STATE, .ro, 0, true, true⟩,
      ⟨R.CORE_STATE_LOGICAL, .ro, 0, true, true⟩]⟩,
  ⟨0x3000, [], [⟨R.IODT_BASE_EN, .rwl, 0, true, false⟩,
      ⟨R.IODT_BASE_BASE, .rwl, 0, true, false⟩]⟩,
  ⟨0x3008, [], [⟨R.IOIQ_BASE_EN, .rw, 0, false, false⟩,
      ⟨R.IOIQ_BASE_SIZE, .rw, 0, false, false⟩,
      ⟨R.IOIQ_BASE_BASE, .rw, 0, false, false⟩]⟩]

/-- Registers of block SOC. -/
def regsSoc3 : List RegSpec := [
  ⟨0x3010, [], [⟨R.IOIQ_TAIL_INDEX, .rw, 0, false, false⟩]⟩,
  ⟨0x3018, [], [⟨R.IOIQ_HEAD_INDEX, .ro, 0, false, false⟩,
      ⟨R.IOIQ_HEAD_ERR, .rw1c, 0, false, false⟩,
      ⟨R.IOIQ_HEAD_IDLE, .ro, 1, false, false⟩]⟩,
  ⟨0x3020, [], [⟨R.IOFAULT_RID, .ro, 0, false, false⟩,
      ⟨R.IOFAULT_KIND, .ro, 0, false, false⟩,
      ⟨R.IOFAULT_LEVEL, .ro, 0, false, false⟩,
      ⟨R.IOFAULT_STAGE, .ro, 0, false, false⟩,
      ⟨R.IOFAULT_WRITE, .ro, 0, false, false⟩,
      ⟨R.IOFAULT_VALID, .rw1c, 0, false, false⟩,
      ⟨R.IOFAULT_COUNT, .ro, 0, false, false⟩]⟩,
  ⟨0x3028, [], [⟨R.IOFAULT_ADDR_ADDR, .ro, 0, false, false⟩]⟩,
  ⟨0x4000, [(8, 144)], [⟨R.SLICE_MAP_TILE, .rwl, 0, true, true⟩,
      ⟨R.SLICE_MAP_MOVING, .ro, 0, false, false⟩]⟩,
  ⟨0x5000, [(8, 16)], [⟨R.CH_MAP_MC, .rwl, 0, true, false⟩,
      ⟨R.CH_MAP_VALID, .rwl, 0, true, false⟩]⟩,
  ⟨0x5100, [], [⟨R.EVAC_CTL_RATE, .rw, 0x100, true, false⟩,
      ⟨R.EVAC_CTL_URGENT_RATE, .rw, 0x2D0, true, false⟩,
      ⟨R.EVAC_CTL_START, .wo, 0, false, false⟩,
      ⟨R.EVAC_CTL_PAUSE, .rw, 0, false, false⟩]⟩,
  ⟨0x5108, [], [⟨R.EVAC_STATUS_MOVED, .ro, 0, true, false⟩,
      ⟨R.EVAC_STATUS_POISONED, .ro, 0, true, false⟩,
      ⟨R.EVAC_STATUS_CANDIDATE, .rw1c, 0, true, false⟩,
      ⟨R.EVAC_STATUS_CAND_SLOT, .ro, 0, true, false⟩,
      ⟨R.EVAC_STATUS_NO_RESERVE, .rw1c, 0, true, false⟩,
      ⟨R.EVAC_STATUS_BUSY, .ro, 0, false, false⟩]⟩,
  ⟨0x6000, [], [⟨R.ERR_CTL_DESIGNATED, .rwl, 0, true, false⟩]⟩,
  ⟨0x6008, [], [⟨R.ERR_STATUS_FAULT, .rw1c, 0, true, false⟩,
      ⟨R.ERR_STATUS_LOST, .ro, 0, true, true⟩]⟩]

/-- Registers of block SOC. -/
def regsSoc4 : List RegSpec := [
  ⟨0x6010, [], [⟨R.ERR_HEAD_INDEX, .ro, 0, true, true⟩,
      ⟨R.ERR_HEAD_FULL, .ro, 0, true, true⟩,
      ⟨R.ERR_HEAD_TOTAL, .ro, 0, true, true⟩]⟩,
  ⟨0x6018, [], [⟨R.ERR_TAIL_INDEX, .rw, 0, true, true⟩]⟩,
  ⟨0x6020, [], [⟨R.ERR_EVENT_RECORD, .rw1c, 0, false, false⟩,
      ⟨R.ERR_EVENT_CANDIDATE, .rw1c, 0, false, false⟩,
      ⟨R.ERR_EVENT_RETIRED, .rw1c, 0, false, false⟩,
      ⟨R.ERR_EVENT_UNCONTAINED, .rw1c, 0, false, false⟩,
      ⟨R.ERR_EVENT_RING_LOST, .rw1c, 0, false, false⟩,
      ⟨R.ERR_EVENT_DUTY, .rw1c, 0, false, false⟩]⟩,
  ⟨0x6028, [], [⟨R.ERR_EVENT_EN_BITS, .rw, 0, false, false⟩]⟩,
  ⟨0x6030, [], [⟨R.XPLANT_CTL_TARGET, .rw, 0, false, false⟩,
      ⟨R.XPLANT_CTL_ANY, .rw, 0, false, false⟩,
      ⟨R.XPLANT_CTL_GO, .wo, 0, false, false⟩]⟩,
  ⟨0x6038, [], [⟨R.XPLANT_STATUS_SOURCE, .ro, 0, false, false⟩,
      ⟨R.XPLANT_STATUS_CANDIDATE, .ro, 0, false, false⟩,
      ⟨R.XPLANT_STATUS_BUSY, .ro, 0, false, false⟩,
      ⟨R.XPLANT_STATUS_RESULT, .ro, 0, false, false⟩]⟩,
  ⟨0x6040, [], [⟨R.DRAIN_STEP_GO, .wo, 0, false, false⟩,
      ⟨R.DRAIN_STEP_DUE, .ro, 0, false, false⟩]⟩,
  ⟨0x6100, [(8, 8)], [⟨R.ERR_THRESH_THRESH, .rwl, 0x40, true, false⟩]⟩,
  ⟨0x7000, [(8, 8)], [⟨R.ROUTE_LINKS, .ro, 0, true, false⟩,
      ⟨R.ROUTE_VIA, .ro, 0, true, false⟩,
      ⟨R.ROUTE_KIND, .ro, 0, true, false⟩]⟩]

/-- Registers of block STW. -/
def regsStw : List RegSpec := [
  ⟨0x100000, [], [⟨R.STW_STATUS_STATE, .ro, 1, false, true⟩,
      ⟨R.STW_STATUS_PREVIOUS_SET, .ro, 0, true, true⟩,
      ⟨R.STW_STATUS_SCHEMA, .ro, 0, true, true⟩,
      ⟨R.STW_STATUS_CFG_DEFAULTED, .ro, 0, true, true⟩,
      ⟨R.STW_STATUS_RESTARTS, .ro, 0, true, false⟩,
      ⟨R.STW_STATUS_MCTP_DROPS, .ro, 0, true, false⟩]⟩,
  ⟨0x100008, [], [⟨R.SMB_CLAIM_HELD, .ro, 0, false, false⟩,
      ⟨R.SMB_CLAIM_MINE, .ro, 0, false, false⟩,
      ⟨R.SMB_CLAIM_OWNER, .ro, 0, false, false⟩,
      ⟨R.SMB_CLAIM_RELEASE, .wo, 0, false, false⟩]⟩,
  ⟨0x100010, [], [⟨R.SMB_CMD_CODE, .rw, 0, false, false⟩,
      ⟨R.SMB_CMD_LENGTH, .rw, 0, false, false⟩,
      ⟨R.SMB_CMD_GO, .wo, 0, false, false⟩]⟩,
  ⟨0x100018, [], [⟨R.SMB_STATUS_RESULT, .ro, 0, false, false⟩,
      ⟨R.SMB_STATUS_BUSY, .ro, 0, false, false⟩,
      ⟨R.SMB_STATUS_QUEUED, .ro, 0, false, false⟩,
      ⟨R.SMB_STATUS_RLENGTH, .ro, 0, false, false⟩,
      ⟨R.SMB_STATUS_REJECTED, .rw1c, 0, false, false⟩]⟩,
  ⟨0x100020, [], [⟨R.UPD_STATUS_PHASE, .ro, 0, true, false⟩,
      ⟨R.UPD_STATUS_REASON, .ro, 0, true, false⟩,
      ⟨R.UPD_STATUS_READY, .ro, 0, true, false⟩,
      ⟨R.UPD_STATUS_ACTIVATED, .ro, 0, true, false⟩]⟩,
  ⟨0x100028, [], [⟨R.UPD_FRAME_FRAME, .ro, 0, true, false⟩]⟩,
  ⟨0x100030, [], [⟨R.TLM_HEAD_FRAME, .ro, 0, false, false⟩]⟩,
  ⟨0x100038, [], [⟨R.TLM_GAPS_GAPS, .ro, 0, true, false⟩]⟩]

/-- Registers of block SE. -/
def regsSe : List RegSpec := [
  ⟨0x200000, [], [⟨R.SE_STATUS_STATE, .ro, 1, true, true⟩,
      ⟨R.SE_STATUS_DEBUG, .ro, 0, true, false⟩,
      ⟨R.SE_STATUS_LINK_SECRET, .ro, 0, true, true⟩,
      ⟨R.SE_STATUS_KEYS, .ro, 1, true, true⟩,
      ⟨R.SE_STATUS_DOMAINS, .ro, 0, true, false⟩]⟩,
  ⟨0x200008, [], [⟨R.MB_CLAIM_HELD, .ro, 0, false, false⟩,
      ⟨R.MB_CLAIM_MINE, .ro, 0, false, false⟩,
      ⟨R.MB_CLAIM_OWNER, .ro, 0, false, false⟩,
      ⟨R.MB_CLAIM_RELEASE, .wo, 0, false, false⟩]⟩,
  ⟨0x200010, [], [⟨R.MB_CMD_CODE, .rw, 0, false, false⟩,
      ⟨R.MB_CMD_LENGTH, .rw, 0, false, false⟩,
      ⟨R.MB_CMD_GO, .wo, 0, false, false⟩]⟩,
  ⟨0x200018, [], [⟨R.MB_STATUS_RESULT, .ro, 0, false, false⟩,
      ⟨R.MB_STATUS_BUSY, .ro, 0, false, false⟩,
      ⟨R.MB_STATUS_QUEUED, .ro, 0, false, false⟩,
      ⟨R.MB_STATUS_RLENGTH, .ro, 0, false, false⟩,
      ⟨R.MB_STATUS_REJECTED, .rw1c, 0, false, false⟩]⟩,
  ⟨0x200020, [], [⟨R.POT_BASE_EN, .rwl, 0, true, false⟩,
      ⟨R.POT_BASE_BASE, .rwl, 0, true, false⟩]⟩]

/-- Registers of block MC. -/
def regsMc0 : List RegSpec := [
  ⟨0x1000000, [(0x40000, 16)], [⟨R.MC_STATUS_STATE, .ro, 2, true, true⟩,
      ⟨R.MC_STATUS_TEMP, .ro, 0, false, false⟩]⟩,
  ⟨0x1000008, [(0x40000, 16)], [⟨R.MC_CFG_RATE, .rwl, 0, true, false⟩,
      ⟨R.MC_CFG_DPC2, .rwl, 0, true, false⟩,
      ⟨R.MC_CFG_RANKS2, .rwl, 0, true, false⟩,
      ⟨R.MC_CFG_STACK, .rwl, 0, true, false⟩,
      ⟨R.MC_CFG_X8, .rwl, 0, true, false⟩,
      ⟨R.MC_CFG_DENSITY, .rwl, 0, true, false⟩,
      ⟨R.MC_CFG_CAP_GIB, .ro, 0x40, true, true⟩]⟩,
  ⟨0x1000010, [(0x40000, 16)], [⟨R.ERR_COUNT_CE_COUNT, .ro, 0, true, false⟩,
      ⟨R.ERR_COUNT_CE_OVF, .rw1c, 0, true, false⟩,
      ⟨R.ERR_COUNT_UE_COUNT, .ro, 0, true, false⟩]⟩,
  ⟨0x1000018, [(0x40000, 16)], [⟨R.SCRUB_CTL_EN, .rw, 1, true, false⟩,
      ⟨R.SCRUB_CTL_PERIOD, .rw, 0x28, true, false⟩,
      ⟨R.SCRUB_CTL_REWRITE, .wo, 0, false, false⟩,
      ⟨R.SCRUB_CTL_SKIP, .wo, 0, false, false⟩]⟩,
  ⟨0x1000020, [(0x40000, 16)], [⟨R.SCRUB_STATUS_ADDR, .ro, 0, false, false⟩,
      ⟨R.SCRUB_STATUS_WAITING, .ro, 0, false, false⟩,
      ⟨R.SCRUB_STATUS_UE, .ro, 0, false, false⟩,
      ⟨R.SCRUB_STATUS_PASS_DONE, .rw1c, 0, true, false⟩]⟩,
  ⟨0x1000028, [(0x40000, 16)], [⟨R.RETRAIN_CTL_PERIOD, .rwl, 0x800, true, false⟩,
      ⟨R.RETRAIN_CTL_GO, .wo, 0, false, false⟩]⟩,
  ⟨0x1000030, [(0x40000, 16)], [⟨R.RETRAIN_STATUS_DUE, .ro, 0, false, false⟩,
      ⟨R.RETRAIN_STATUS_PAUSES, .ro, 0, true, false⟩]⟩,
  ⟨0x1000038, [(0x40000, 16)], [⟨R.ROWGUARD_THRESH_VALUE, .rwl, 0x800, true, false⟩]⟩,
  ⟨0x1000040, [(0x40000, 16)], [⟨R.ROWGUARD_EVENT_ROW, .ro, 0, false, false⟩,
      ⟨R.ROWGUARD_EVENT_BG, .ro, 0, false, false⟩,
      ⟨R.ROWGUARD_EVENT_BANK, .ro, 0, false, false⟩,
      ⟨R.ROWGUARD_EVENT_RANK, .ro, 0, false, false⟩,
      ⟨R.ROWGUARD_EVENT_SUB, .ro, 0, false, false⟩,
      ⟨R.ROWGUARD_EVENT_VALID, .ro, 0, false, false⟩,
      ⟨R.ROWGUARD_EVENT_RELEASE, .wo, 0, false, false⟩,
      ⟨R.ROWGUARD_EVENT_MISSED, .rw1c, 0, false, false⟩,
      ⟨R.ROWGUARD_EVENT_QUEUED, .ro, 0, false, false⟩]⟩,
  ⟨0x1000048, [(0x40000, 16)], [⟨R.GROUP_PORT_PORTS, .rw, 0xFEDCBA9876543210, true, false⟩]⟩]

/-- Registers of block MC. -/
def regsMc1 : List RegSpec := [
  ⟨0x1000100, [(0x40000, 16), (8, 16)], [⟨R.PORT_CFG_BUDGET, .rw, 0, true, false⟩,
      ⟨R.PORT_CFG_BURST, .rw, 0, true, false⟩,
      ⟨R.PORT_CFG_PRIORITY, .rw, 0, true, false⟩,
      ⟨R.PORT_CFG_WORK_CONSERVE, .rw, 0, true, false⟩,
      ⟨R.PORT_CFG_EN, .rw, 0, true, false⟩]⟩,
  ⟨0x1000180, [(0x40000, 16), (8, 16)], [⟨R.PORT_STATUS_CREDITS, .ro, 0, false, false⟩,
      ⟨R.PORT_STATUS_STARVED, .ro, 0, true, false⟩]⟩]

/-- Registers of block FL. -/
def regsFl : List RegSpec := [
  ⟨0x2000000, [(0x40000, 8)], [⟨R.FL_STATUS_STATE, .ro, 0, true, false⟩,
      ⟨R.FL_STATUS_PEER_SOCKET, .ro, 0, true, false⟩,
      ⟨R.FL_STATUS_PEER_LINK, .ro, 0, true, false⟩,
      ⟨R.FL_STATUS_WIDTH, .ro, 0, true, false⟩,
      ⟨R.FL_STATUS_LANES_RETIRED, .ro, 0, true, true⟩,
      ⟨R.FL_STATUS_CANDIDATE, .ro, 0, false, false⟩]⟩,
  ⟨0x2000008, [(0x40000, 8)], [⟨R.FL_CTL_EN, .rwl, 1, true, false⟩,
      ⟨R.FL_CTL_SPARE, .rwl, 0, true, false⟩]⟩,
  ⟨0x2000010, [(0x40000, 8)], [⟨R.FL_RETIRE_GO, .wo, 0, false, false⟩]⟩,
  ⟨0x2000018, [(0x40000, 8)], [⟨R.FL_COUNT_REPLAYS, .ro, 0, true, false⟩,
      ⟨R.FL_COUNT_FEC_CORRECTED, .ro, 0, true, false⟩]⟩,
  ⟨0x2000020, [(0x40000, 8)], [⟨R.FL_CRYPTO_REKEYS, .ro, 0, false, false⟩,
      ⟨R.FL_CRYPTO_AUTH_OK, .ro, 0, false, false⟩,
      ⟨R.FL_CRYPTO_CONFIDENTIAL, .ro, 0, false, false⟩]⟩]

/-- Registers of block PS. -/
def regsPs0 : List RegSpec := [
  ⟨0x3000000, [(0x40000, 8)], [⟨R.PS_STATUS_MOUNTED, .ro, 1, true, true⟩,
      ⟨R.PS_STATUS_INTAKE_USED, .ro, 0, false, false⟩,
      ⟨R.PS_STATUS_MOVE_BUSY, .ro, 0, false, false⟩,
      ⟨R.PS_STATUS_SPARES_LOW, .ro, 0, false, true⟩]⟩,
  ⟨0x3000008, [(0x40000, 8)], [⟨R.PERSIST_CTL_BUDGET, .rwl, 0x200, true, false⟩,
      ⟨R.PERSIST_CTL_LEDGER_SHARE, .rwl, 0x40, true, false⟩,
      ⟨R.PERSIST_CTL_DRAIN_RESERVE, .rwl, 0x1000, true, false⟩]⟩,
  ⟨0x3000010, [(0x40000, 8)], [⟨R.PERSIST_STATUS_GRANTED, .ro, 0, false, false⟩,
      ⟨R.PERSIST_STATUS_LEFT, .ro, 0, false, false⟩,
      ⟨R.PERSIST_STATUS_REFUSALS, .ro, 0, true, false⟩]⟩,
  ⟨0x3000018, [(0x40000, 8)], [⟨R.GOV_CTL_CAP, .rwl, 0x1B0, true, false⟩,
      ⟨R.GOV_CTL_EN, .rwl, 1, true, false⟩]⟩,
  ⟨0x3000020, [(0x40000, 8)], [⟨R.GOV_STATUS_WINDOW, .ro, 0, false, true⟩,
      ⟨R.GOV_STATUS_LIMIT, .ro, 0x640, false, true⟩,
      ⟨R.GOV_STATUS_LIMITED, .ro, 0, false, true⟩]⟩,
  ⟨0x3000028, [(0x40000, 8)], [⟨R.WEAR_SUMMARY_MAX, .ro, 0, false, true⟩,
      ⟨R.WEAR_SUMMARY_MEAN, .ro, 0, false, true⟩]⟩,
  ⟨0x3000030, [(0x40000, 8)], [⟨R.LIFE_YEARS, .ro, 0xFFFF, false, true⟩,
      ⟨R.LIFE_SPARES, .ro, 0, false, true⟩,
      ⟨R.LIFE_RETIRED, .ro, 0, false, true⟩]⟩,
  ⟨0x3000038, [(0x40000, 8)], [⟨R.MEDIA_WRITTEN_BYTES, .ro, 0, false, true⟩]⟩,
  ⟨0x3000040, [(0x40000, 8)], [⟨R.WL_CTL_DELTA, .rwl, 0x1000, true, false⟩]⟩,
  ⟨0x3000048, [(0x40000, 8)], [⟨R.WEAR_SEL_GRANULE, .rw, 0, false, false⟩]⟩]

/-- Registers of block PS. -/
def regsPs1 : List RegSpec := [
  ⟨0x3000050, [(0x40000, 8)], [⟨R.WEAR_DATA_COUNT, .ro, 0, false, true⟩,
      ⟨R.WEAR_DATA_USE, .ro, 0, false, true⟩,
      ⟨R.WEAR_DATA_RETIRED, .ro, 0, false, true⟩,
      ⟨R.WEAR_DATA_LOGICAL, .ro, 0, false, true⟩]⟩]

/-- Registers of block TILE. -/
def regsTile0 : List RegSpec := [
  ⟨0x4008000, [(0x10000, 144), (0x100, 2)], [⟨R.CORE_CACHE_CTL_L1I_EN, .rw, 0, false, false⟩,
      ⟨R.CORE_CACHE_CTL_L1D_EN, .rw, 0, false, false⟩,
      ⟨R.CORE_CACHE_CTL_L2_EN, .rw, 0, false, false⟩,
      ⟨R.CORE_CACHE_CTL_NLP_L1D, .rw, 0, false, false⟩,
      ⟨R.CORE_CACHE_CTL_NLP_L2, .rw, 0, false, false⟩,
      ⟨R.CORE_CACHE_CTL_L1I_CLEAN, .ro, 0, false, false⟩,
      ⟨R.CORE_CACHE_CTL_L1D_CLEAN, .ro, 0, false, false⟩,
      ⟨R.CORE_CACHE_CTL_L2_CLEAN, .ro, 0, false, false⟩,
      ⟨R.CORE_CACHE_CTL_DISABLE_BUSY, .ro, 0, false, false⟩,
      ⟨R.CORE_CACHE_CTL_REFUSED, .rw1c, 0, false, false⟩]⟩,
  ⟨0x4008200, [(0x10000, 144)], [⟨R.LLC_CTL_WAY_EN, .rw, 0, false, false⟩,
      ⟨R.LLC_CTL_WAY_CLEAN, .ro, 0, false, false⟩,
      ⟨R.LLC_CTL_DISABLE_BUSY, .ro, 0, false, false⟩,
      ⟨R.LLC_CTL_RETIRED, .ro, 0, true, true⟩,
      ⟨R.LLC_CTL_REFUSED, .rw1c, 0, false, false⟩]⟩,
  ⟨0x4008210, [(0x10000, 144)], [⟨R.STASH_IN_COUNT, .ro, 0, false, false⟩]⟩,
  ⟨0x4008218, [(0x10000, 144)], [⟨R.STASH_HOME_COUNT, .ro, 0, false, false⟩]⟩,
  ⟨0x4008220, [(0x10000, 144)], [⟨R.HINT_DROP_COUNT, .ro, 0, false, false⟩]⟩,
  ⟨0x4008400, [(0x10000, 144), (0x100, 2), (8, 32)], [⟨R.L2_LOST_SET, .rw1c, 0, false, false⟩]⟩,
  ⟨0x4009000, [(0x10000, 144)], [⟨R.DIR_CTL_STARVE_AFTER, .rw, 4, false, false⟩]⟩,
  ⟨0x4009008, [(0x10000, 144)], [⟨R.DIR_STATUS_OPEN, .ro, 0, false, false⟩,
      ⟨R.DIR_STATUS_QUEUED, .ro, 0, false, false⟩,
      ⟨R.DIR_STATUS_USABLE, .ro, 8, true, true⟩,
      ⟨R.DIR_STATUS_RETIRED, .ro, 0, true, true⟩]⟩,
  ⟨0x4009010, [(0x10000, 144)], [⟨R.DIR_RECALLS_COUNT, .ro, 0, false, false⟩]⟩,
  ⟨0x4009018, [(0x10000, 144)], [⟨R.DIR_RETRIES_COUNT, .ro, 0, false, false⟩]⟩]

/-- Registers of block TILE. -/
def regsTile1 : List RegSpec := [
  ⟨0x4009020, [(0x10000, 144)], [⟨R.DIR_BCAST_COUNT, .ro, 0, false, false⟩]⟩,
  ⟨0x4009028, [(0x10000, 144)], [⟨R.DIR_GHOST_SERVED_COUNT, .ro, 0, false, false⟩]⟩,
  ⟨0x4009030, [(0x10000, 144)], [⟨R.DIR_WB_DISCARDED_COUNT, .ro, 0, false, false⟩]⟩,
  ⟨0x4009038, [(0x10000, 144)], [⟨R.DIR_ABSENT_COUNT, .ro, 0, false, false⟩]⟩,
  ⟨0x4009040, [(0x10000, 144)], [⟨R.DIR_PURGES_COUNT, .ro, 0, false, false⟩]⟩,
  ⟨0x4009100, [(0x10000, 144)], [⟨R.DIR_DIAG_SEL_SET, .rw, 0, false, false⟩,
      ⟨R.DIR_DIAG_SEL_WAY, .rw, 0, false, false⟩]⟩,
  ⟨0x4009108, [(0x10000, 144)], [⟨R.DIR_DIAG_W0_WORD, .ro, 0, false, false⟩]⟩,
  ⟨0x4009110, [(0x10000, 144)], [⟨R.DIR_DIAG_W1_WORD, .ro, 0, false, false⟩]⟩,
  ⟨0x400C000, [(0x10000, 144), (0x800, 2), (8, 8)], [⟨R.PMC_CTL_EVENT, .rw, 0, false, false⟩,
      ⟨R.PMC_CTL_STRANDS, .rw, 0, false, false⟩,
      ⟨R.PMC_CTL_LEVELS, .rw, 0, false, false⟩,
      ⟨R.PMC_CTL_EN, .rw, 0, false, false⟩]⟩,
  ⟨0x400C040, [(0x10000, 144), (0x800, 2), (8, 8)], [⟨R.PMC_COUNT, .rw, 0, false, false⟩]⟩]

/-- Registers of block TILE. -/
def regsTile2 : List RegSpec := [
  ⟨0x400C080, [(0x10000, 144), (0x800, 2)], [⟨R.WP_INSTR_COUNT, .ro, 0, false, false⟩]⟩,
  ⟨0x400C088, [(0x10000, 144), (0x800, 2)], [⟨R.WP_FILL_COUNT, .ro, 0, false, false⟩]⟩,
  ⟨0x400D000, [(0x10000, 144), (0x800, 2), (0x100, 2)], [⟨R.REFILL_VA_ADDR, .rw, 0, false, false⟩]⟩,
  ⟨0x400D008, [(0x10000, 144), (0x800, 2), (0x100, 2)], [⟨R.REFILL_ENTRY_ENTRY, .rw, 0, false, false⟩]⟩,
  ⟨0x400D010, [(0x10000, 144), (0x800, 2), (0x100, 2)], [⟨R.REFILL_CTL_GO, .wo, 0, false, false⟩,
      ⟨R.REFILL_CTL_STAGE, .rw, 0, false, false⟩,
      ⟨R.REFILL_CTL_LEVEL, .rw, 0, false, false⟩,
      ⟨R.REFILL_CTL_PIN, .rw, 0, false, false⟩,
      ⟨R.REFILL_CTL_SLOT, .rw, 0, false, false⟩]⟩,
  ⟨0x400D018, [(0x10000, 144), (0x800, 2), (0x100, 2)], [⟨R.REFILL_STATUS_RESULT, .ro, 0, false, false⟩]⟩,
  ⟨0x400E000, [(0x10000, 144), (0x800, 2)], [⟨R.PTRACK_OPEN, .ro, 0, false, false⟩,
      ⟨R.PTRACK_CLOSING, .ro, 0, false, false⟩]⟩,
  ⟨0x400E008, [(0x10000, 144), (0x800, 2)], [⟨R.PHELD_COUNT, .ro, 0, false, false⟩]⟩]

/-- Registers of block IR. -/
def regsIr0 : List RegSpec := [
  ⟨0x6000000, [], [⟨R.IR_MSG_BASE_EN, .rwl, 0, true, false⟩,
      ⟨R.IR_MSG_BASE_BASE, .rwl, 0, true, false⟩]⟩,
  ⟨0x6000008, [], [⟨R.IR_IRT_BASE_EN, .rwl, 0, true, false⟩,
      ⟨R.IR_IRT_BASE_SIZE, .rwl, 0, true, false⟩,
      ⟨R.IR_IRT_BASE_BASE, .rwl, 0, true, false⟩]⟩,
  ⟨0x6000010, [], [⟨R.IR_SEND_TARGET, .wo, 0, false, false⟩,
      ⟨R.IR_SEND_VECTOR, .wo, 0, false, false⟩,
      ⟨R.IR_SEND_WAKE, .wo, 0, false, false⟩]⟩,
  ⟨0x6000018, [], [⟨R.IR_INV_INDEX, .wo, 0, false, false⟩,
      ⟨R.IR_INV_ALL, .wo, 0, false, false⟩,
      ⟨R.IR_INV_BUSY, .ro, 0, false, false⟩]⟩,
  ⟨0x6000020, [], [⟨R.IR_DROP_INVALID, .ro, 0, true, false⟩,
      ⟨R.IR_DROP_ABSENT, .ro, 0, true, false⟩]⟩,
  ⟨0x6000028, [], [⟨R.IR_FAULT_RID, .ro, 0, false, false⟩,
      ⟨R.IR_FAULT_INDEX, .ro, 0, false, false⟩,
      ⟨R.IR_FAULT_REASON, .ro, 0, false, false⟩,
      ⟨R.IR_FAULT_VALID, .rw1c, 0, false, false⟩]⟩,
  ⟨0x6000100, [(8, 8)], [⟨R.IR_EVROUTE_TARGET, .rw, 0, true, false⟩,
      ⟨R.IR_EVROUTE_VECTOR, .rw, 0, true, false⟩,
      ⟨R.IR_EVROUTE_EN, .rw, 0, true, false⟩]⟩,
  ⟨0x6010000, [(0x100, 512), (8, 16)], [⟨R.PEND_BITS, .rw1c, 0, false, false⟩]⟩,
  ⟨0x6010080, [(0x100, 512)], [⟨R.STRAND_CTL_THRESH, .rw, 0, false, false⟩,
      ⟨R.STRAND_CTL_PRESENT, .ro, 1, true, true⟩]⟩,
  ⟨0x6010088, [(0x100, 512)], [⟨R.BIND_EN, .rw, 0, false, false⟩,
      ⟨R.BIND_REFUSED, .rw1c, 0, false, false⟩,
      ⟨R.BIND_ADDR, .rw, 0, false, false⟩]⟩]

/-- Registers of block IR. -/
def regsIr1 : List RegSpec := [
  ⟨0x6010090, [(0x100, 512)], [⟨R.BIND_CLASS_CLASSES, .rw, 0, false, false⟩]⟩]

/-- Registers of block ST. -/
def regsSt0 : List RegSpec := [
  ⟨0x7000000, [], [⟨R.SELFTEST_STATUS_DONE, .ro, 1, true, true⟩,
      ⟨R.SELFTEST_STATUS_PASS, .ro, 1, true, true⟩,
      ⟨R.SELFTEST_STATUS_REPAIRED, .ro, 0, true, true⟩,
      ⟨R.SELFTEST_STATUS_REMOVED, .ro, 0, true, true⟩,
      ⟨R.SELFTEST_STATUS_CHECKER_FAULT, .ro, 0, true, true⟩,
      ⟨R.SELFTEST_STATUS_SKIPPED, .ro, 0, true, true⟩,
      ⟨R.SELFTEST_STATUS_FIRST_GROUP, .ro, 0, true, true⟩,
      ⟨R.SELFTEST_STATUS_FAILS, .ro, 0, true, true⟩]⟩,
  ⟨0x7000008, [], [⟨R.SELFTEST_CTL_INJ_POLICY, .rwl, 0, true, false⟩]⟩,
  ⟨0x7000010, [], [⟨R.REPAIR_STATUS_USED, .ro, 0, true, true⟩,
      ⟨R.REPAIR_STATUS_RECORD_LOW, .ro, 0, true, true⟩,
      ⟨R.REPAIR_STATUS_FUSE_FREE, .ro, 0x400, true, true⟩,
      ⟨R.REPAIR_STATUS_SESSION, .ro, 0, false, false⟩]⟩,
  ⟨0x7000108, [(8, 22)], [⟨R.GROUP_RESULT_PASSED, .ro, 0, true, true⟩,
      ⟨R.GROUP_RESULT_REPAIRED, .ro, 0, true, true⟩,
      ⟨R.GROUP_RESULT_REMOVED, .ro, 0, true, true⟩,
      ⟨R.GROUP_RESULT_LAST, .ro, 1, true, true⟩]⟩,
  ⟨0x7001000, [(0x40, 6)], [⟨R.SLICE_CTL_EN, .rw, 1, true, false⟩,
      ⟨R.SLICE_CTL_PERIOD, .rwl, 0x100, true, false⟩]⟩,
  ⟨0x7001008, [(0x40, 6)], [⟨R.SLICE_STATUS_POSITION, .ro, 0, true, false⟩,
      ⟨R.SLICE_STATUS_DUE, .ro, 0, false, false⟩,
      ⟨R.SLICE_STATUS_LAST_PASS, .ro, 0, true, false⟩,
      ⟨R.SLICE_STATUS_PASS_DONE, .rw1c, 0, true, false⟩]⟩,
  ⟨0x7001010, [(0x40, 6)], [⟨R.SLICE_FAIL_GROUP, .ro, 0, false, false⟩,
      ⟨R.SLICE_FAIL_INSTANCE, .ro, 0, false, false⟩,
      ⟨R.SLICE_FAIL_ROW, .ro, 0, false, false⟩,
      ⟨R.SLICE_FAIL_COLUMN, .ro, 0, false, false⟩,
      ⟨R.SLICE_FAIL_VALID, .ro, 0, false, false⟩]⟩,
  ⟨0x7001018, [(0x40, 6)], [⟨R.SLICE_GO_SLICE, .wo, 0, false, false⟩,
      ⟨R.SLICE_GO_GO, .wo, 0, false, false⟩,
      ⟨R.SLICE_GO_REPAIR, .wo, 0, false, false⟩,
      ⟨R.SLICE_GO_SKIP, .wo, 0, false, false⟩]⟩,
  ⟨0x7010100, [(0x100, 22)], [⟨R.INJ_SEL_INSTANCE, .rw, 0, false, false⟩,
      ⟨R.INJ_SEL_MATCH, .rw, 0, false, false⟩,
      ⟨R.INJ_SEL_WORD, .rw, 0, false, false⟩]⟩,
  ⟨0x7010108, [(0x100, 22)], [⟨R.INJ_FLIP_MASK, .rw, 0, false, false⟩]⟩]

/-- Registers of block ST. -/
def regsSt1 : List RegSpec := [
  ⟨0x7010110, [(0x100, 22)], [⟨R.INJ_FLIP_CHK_MASK, .rw, 0, false, false⟩]⟩,
  ⟨0x7010118, [(0x100, 22)], [⟨R.INJ_ADDR_ADDR, .rw, 0, false, false⟩]⟩,
  ⟨0x7010120, [(0x100, 22)], [⟨R.INJ_ARM_ARM, .rw, 0, false, false⟩,
      ⟨R.INJ_ARM_FIRED, .rw1c, 0, false, false⟩,
      ⟨R.INJ_ARM_REFUSED, .rw1c, 0, false, false⟩]⟩,
  ⟨0x7010128, [(0x100, 22)], [⟨R.INJ_HIT_LOCATION, .ro, 0, false, false⟩]⟩]

/-- Registers of block LED. -/
def regsLed : List RegSpec := [
  ⟨0x8010040, [(0x40, 2047)], [⟨R.DLOG_CTL_EN, .rw, 0, false, false⟩,
      ⟨R.DLOG_CTL_FULL_STALL, .rw, 1, false, false⟩,
      ⟨R.DLOG_CTL_OVERFLOW, .rw1c, 0, false, false⟩,
      ⟨R.DLOG_CTL_STALLED, .ro, 0, false, false⟩,
      ⟨R.DLOG_CTL_GIB, .rw, 0, false, false⟩]⟩,
  ⟨0x8010048, [(0x40, 2047)], [⟨R.DLOG_MAP0_ADDR, .rw, 0, false, false⟩]⟩,
  ⟨0x8010050, [(0x40, 2047)], [⟨R.DLOG_MAP1_ADDR, .rw, 0, false, false⟩]⟩,
  ⟨0x8010058, [(0x40, 2047)], [⟨R.DLOG_RING_SIZE, .rw, 0, false, false⟩,
      ⟨R.DLOG_RING_ADDR, .rw, 0, false, false⟩]⟩,
  ⟨0x8010060, [(0x40, 2047)], [⟨R.DLOG_RING_HEAD_INDEX, .rw, 0, false, false⟩]⟩,
  ⟨0x8010068, [(0x40, 2047)], [⟨R.DLOG_RING_TAIL_INDEX, .ro, 0, false, false⟩]⟩,
  ⟨0x8010070, [(0x40, 2047)], [⟨R.DLOG_GEN_GEN, .rw, 0, false, false⟩,
      ⟨R.DLOG_GEN_GEN_ACK, .ro, 0, false, false⟩]⟩]

/-- Registers of block CLK. -/
def regsClk0 : List RegSpec := [
  ⟨0x9000000, [], [⟨R.CLK_CTL_MESH_RATIO, .rwl, 0x30, true, false⟩]⟩,
  ⟨0x9000008, [], [⟨R.CLK_STATUS_MESH, .ro, 0x30, true, true⟩,
      ⟨R.CLK_STATUS_PLAN_STD, .ro, 1, true, true⟩,
      ⟨R.CLK_STATUS_REFCLK_OK, .ro, 1, false, false⟩,
      ⟨R.CLK_STATUS_REFCLK_LOSSES, .ro, 0, true, false⟩]⟩,
  ⟨0x9000010, [], [⟨R.PWR_CTL_DEEP_EN, .rw, 1, true, false⟩,
      ⟨R.PWR_CTL_DEEP_AFTER, .rw, 0x3E8, true, false⟩,
      ⟨R.PWR_CTL_LIMIT_W, .rwl, 0x41A, true, false⟩,
      ⟨R.PWR_CTL_TJ_THROTTLE, .rwl, 0x64, true, false⟩]⟩,
  ⟨0x9000018, [], [⟨R.RESET_CTL_STRAND_ID, .wo, 0, false, false⟩,
      ⟨R.RESET_CTL_STRAND, .wo, 0, false, false⟩,
      ⟨R.RESET_CTL_WARM, .wo, 0, false, false⟩,
      ⟨R.RESET_CTL_COLD, .wo, 0, false, false⟩,
      ⟨R.RESET_CTL_KEY, .wo, 0, false, false⟩,
      ⟨R.RESET_CTL_BUSY, .ro, 0, false, false⟩,
      ⟨R.RESET_CTL_RESULT, .ro, 0, false, false⟩]⟩,
  ⟨0x9000020, [], [⟨R.RESET_INFO_KIND, .ro, 0, true, true⟩,
      ⟨R.RESET_INFO_FLUSHED, .ro, 0, true, true⟩,
      ⟨R.RESET_INFO_STRAND_RESETS, .ro, 0, true, false⟩]⟩,
  ⟨0x9000028, [], [⟨R.BOOT_VECTOR_ADDR, .ro, 0x3EFFF80000, true, true⟩]⟩,
  ⟨0x9000030, [], [⟨R.STRAND_VECTOR_ADDR, .rwl, 0x3EFFF80000, true, true⟩]⟩,
  ⟨0x9001000, [(8, 144)], [⟨R.TILE_CLK_RATIO, .rw, 0x3C, false, false⟩,
      ⟨R.TILE_CLK_CURRENT, .ro, 0x3C, false, false⟩,
      ⟨R.TILE_CLK_MAX, .ro, 0x3C, false, true⟩,
      ⟨R.TILE_CLK_SETTLING, .ro, 0, false, false⟩,
      ⟨R.TILE_CLK_PINNED, .rw, 0, false, false⟩,
      ⟨R.TILE_CLK_THROTTLED, .ro, 0, false, false⟩,
      ⟨R.TILE_CLK_TEMP, .ro, 0, false, false⟩]⟩,
  ⟨0x9002000, [(8, 288)], [⟨R.CORE_PWR_STATE, .ro, 0, true, true⟩,
      ⟨R.CORE_PWR_WAKES, .ro, 0, true, false⟩]⟩,
  ⟨0x9003000, [(8, 10)], [⟨R.RAIL_MV, .ro, 0, true, true⟩,
      ⟨R.RAIL_AMPS, .ro, 0, true, true⟩,
      ⟨R.RAIL_TARGET_MV, .ro, 0, true, true⟩,
      ⟨R.RAIL_BROWNOUT, .ro, 0, false, false⟩]⟩]

/-- Registers of block CLK. -/
def regsClk1 : List RegSpec := [
  ⟨0x9004000, [(8, 197)], [⟨R.PLL_STATUS_SETTLED, .ro, 0, false, false⟩,
      ⟨R.PLL_STATUS_LOCK, .ro, 0, false, false⟩,
      ⟨R.PLL_STATUS_STARTS, .ro, 0, true, false⟩]⟩]

/-- Registers of block LEBAR. -/
def regsLebar0 : List RegSpec := [
  ⟨0x100000000, [], [⟨R.LE_STATUS_ENABLED, .ro, 0, false, true⟩,
      ⟨R.LE_STATUS_QUIESCING, .ro, 0, false, false⟩,
      ⟨R.LE_STATUS_PENDING_ENABLE, .ro, 0, false, false⟩,
      ⟨R.LE_STATUS_DROPPED, .rw1cf, 0, false, false⟩]⟩,
  ⟨0x100000008, [], [⟨R.ENGINE_E, .ro, 0, false, true⟩]⟩,
  ⟨0x100010000, [(8, 8192)], [⟨R.QP_ASSIGN_FUNC, .rw, 0, false, false⟩,
      ⟨R.QP_ASSIGN_SLOT, .rw, 0, false, false⟩]⟩,
  ⟨0x100020000, [(0x20, 4096)], [⟨R.STREAM_BASE_ADDR, .rw, 0, false, false⟩]⟩,
  ⟨0x100020008, [(0x20, 4096)], [⟨R.STREAM_CTL_EN, .rw, 0, false, false⟩,
      ⟨R.STREAM_CTL_OWNER, .rw, 0, false, false⟩,
      ⟨R.STREAM_CTL_LOG2SIZE, .rw, 12, false, false⟩]⟩,
  ⟨0x100020010, [(0x20, 4096)], [⟨R.STREAM_HEAD_OFFSET, .rw, 0, false, false⟩]⟩,
  ⟨0x100020018, [(0x20, 4096)], [⟨R.STREAM_TAIL_OFFSET, .ro, 0, false, false⟩]⟩,
  ⟨0x100040000, [(8, 2048)], [⟨R.FN_STATUS_ENABLED, .ro, 0, false, true⟩,
      ⟨R.FN_STATUS_QUIESCING, .ro, 0, false, false⟩,
      ⟨R.FN_STATUS_PENDING_ENABLE, .ro, 0, false, false⟩,
      ⟨R.FN_STATUS_DROPPED, .rw1cf, 0, false, false⟩]⟩,
  ⟨0x100050000, [], [⟨R.MBX_CMD_CODE, .rw, 0, false, false⟩,
      ⟨R.MBX_CMD_LENGTH, .rw, 0, false, false⟩,
      ⟨R.MBX_CMD_GO, .wo, 0, false, false⟩]⟩,
  ⟨0x100050008, [], [⟨R.MBX_STATUS_RESULT, .ro, 0, false, false⟩,
      ⟨R.MBX_STATUS_BUSY, .ro, 0, false, false⟩,
      ⟨R.MBX_STATUS_QUEUED, .ro, 0, false, false⟩,
      ⟨R.MBX_STATUS_RLENGTH, .ro, 0, false, false⟩,
      ⟨R.MBX_STATUS_REJECTED, .rw1c, 0, false, false⟩]⟩]

/-- Registers of block LEBAR. -/
def regsLebar1 : List RegSpec := [
  ⟨0x101000000, [(0x100, 8192)], [⟨R.SQ_BASE_SIZE, .rw, 0, false, false⟩,
      ⟨R.SQ_BASE_ADDR, .rw, 0, false, false⟩]⟩,
  ⟨0x101000008, [(0x100, 8192)], [⟨R.SQ_TAIL_INDEX, .rw, 0, false, false⟩]⟩,
  ⟨0x101000010, [(0x100, 8192)], [⟨R.CQ_BASE_SIZE, .rw, 0, false, false⟩,
      ⟨R.CQ_BASE_ADDR, .rw, 0, false, false⟩]⟩,
  ⟨0x101000018, [(0x100, 8192)], [⟨R.CQ_HEAD_INDEX, .rw, 0, false, false⟩]⟩,
  ⟨0x101000020, [(0x100, 8192)], [⟨R.Q_CTL_EN, .rw, 0, false, false⟩,
      ⟨R.Q_CTL_PAUSE, .rw, 0, false, false⟩,
      ⟨R.Q_CTL_VECTOR, .rw, 0, false, false⟩,
      ⟨R.Q_CTL_WEIGHT, .rw, 0, false, false⟩]⟩,
  ⟨0x101000028, [(0x100, 8192)], [⟨R.Q_STATUS_IDLE, .ro, 1, false, false⟩,
      ⟨R.Q_STATUS_ERR, .ro, 0, false, false⟩,
      ⟨R.Q_STATUS_ASSIGN_REFUSED, .rw1c, 0, false, false⟩,
      ⟨R.Q_STATUS_INFLIGHT, .ro, 0, false, false⟩]⟩]

/-- Registers of block KP. -/
def regsKp : List RegSpec := [
  ⟨0x200000908, [(0x1000, 80)], [⟨R.KPORT_CTL_BIFURCATE, .rwl, 0, true, false⟩,
      ⟨R.KPORT_CTL_BUSERR_EN, .rw, 0, true, false⟩,
      ⟨R.KPORT_CTL_REFCLK_EN, .rw, 1, true, false⟩,
      ⟨R.KPORT_CTL_SSC_DEPTH, .rw, 0, true, false⟩,
      ⟨R.KPORT_CTL_SSC_RATE, .rw, 3, true, false⟩]⟩,
  ⟨0x20000090C, [(0x1000, 80)], [⟨R.KPORT_STATUS_CONTAINED, .ro, 0, false, false⟩,
      ⟨R.KPORT_STATUS_CANDIDATE, .ro, 0, false, false⟩,
      ⟨R.KPORT_STATUS_SSC_PENDING, .ro, 0, false, false⟩,
      ⟨R.KPORT_STATUS_LANES_RETIRED, .ro, 0, true, true⟩]⟩,
  ⟨0x200000910, [(0x1000, 80)], [⟨R.KPORT_RETIRE_GO, .wo, 0, false, false⟩]⟩,
  ⟨0x200000914, [(0x1000, 80)], [⟨R.KPORT_COUNT_LOST, .rw1cf, 0, false, false⟩]⟩]

/-- Every register of the socket. -/
def regTable : List RegSpec :=
  regsSoc0 ++ regsSoc1 ++ regsSoc2 ++ regsSoc3 ++ regsSoc4 ++ regsStw ++ regsSe ++ regsMc0 ++ regsMc1 ++ regsFl ++ regsPs0 ++ regsPs1 ++ regsTile0 ++ regsTile1 ++ regsTile2 ++ regsIr0 ++ regsIr1 ++ regsSt0 ++ regsSt1 ++ regsLed ++ regsClk0 ++ regsClk1 ++ regsLebar0 ++ regsLebar1 ++ regsKp

/-- Whether x is an offset of an array with these dimensions, from its first element. -/
def inDims : Nat → List (Nat × Nat) → Bool
  | x, [] => x == 0
  | x, (stride, count) :: ds => x / stride < count && inDims (x % stride) ds

/-- The register at an offset (R35: none where no block defines one). -/
def regAt (off : Nat) : Option RegSpec :=
  regTable.find? (fun r => r.base ≤ off && inDims (off - r.base) r.dims)

/-- The value of a register's fields, each taken by a function of its spec. -/
def fieldsValue (g : FieldSpec → Nat) (r : RegSpec) : Nat :=
  r.fields.foldl (fun acc f => acc + (g f % 2 ^ f.fld.width) * 2 ^ f.fld.lo) 0

/-- The physical core that serves logical core l when no core is bad (R24): ascending order, without
the eight highest cores of each frond. -/
def bootPhys (l : Nat) : Nat :=
  if l < 124 then l else if l < 128 then l + 8 else if l < 252 then l + 16 else l + 24

/-- The logical core that physical core c serves when no core is bad (R24); none for a spare. -/
def bootLogical (c : Nat) : Option Nat :=
  if c < 124 then some c else if c < 132 then none else if c < 136 then some (c - 8)
  else if c < 144 then none else if c < 268 then some (c - 16) else if c < 276 then none
  else if c < 280 then some (c - 24) else none

/-- The values that the SE builds at boot and that differ along an array (R24, R198, R503 with sixteen
channels of 64 GiB): by register base and element. -/
def builtValue (base i : Nat) : Option Nat :=
  if base == R.CORE_MAP_PHYS.reg then some (bootPhys i + 2 ^ 15)
  else if base == R.CORE_STATE_STATE.reg then
    some (match bootLogical i with
      | some l => 1 + l * 8
      | none => if i == 275 || i == 287 then 3 else 2)
  else if base == R.CORE_PWR_STATE.reg then
    some (match bootLogical i with
      | some l => if l == 0 then 1 else 2
      | none => if i == 275 || i == 287 then 2 else 0)
  else if base == R.SLICE_MAP_TILE.reg then some i
  else if base == R.CH_MAP_MC.reg then some (i + 16)
  else if base == R.HOME_BASE_EN.reg && i == 0 then some 1
  else if base == R.HOME_LIMIT_ADDR.reg && i == 0 then some (1007 * 2 ^ 30)
  else none

/-- The Cold value of the register at an offset (R13), or what the boot built there. -/
def coldValue (off : Nat) : Word :=
  match regAt off with
  | none => 0
  | some r =>
    match builtValue r.base ((off - r.base) / 8) with
    | some x => word x
    | none => word (fieldsValue (·.cold) r)

end Sys2Proof.Machine
end

