-- ==== Sys2Proof/Machine/SMap.lean ====
section
/-!
DEFINITION. Sparse data in one canonical form: a list of (key, value) pairs with strictly rising keys
and no pair whose value is what an unlisted key reads as. Memories, register spaces and the records of
the socket's units are held so.
-/

namespace Sys2Proof.Machine

/-- Sparse data: (key, value) pairs. -/
abbrev SMap (β : Type) := List (Nat × β)

/-- The value at a key; d is what an unlisted key reads as. -/
def SMap.get {β : Type} (d : Nat → β) : SMap β → Nat → β
  | [], k => d k
  | (j, v) :: m, k => if k = j then v else SMap.get d m k

/-- The map without a key. -/
def SMap.erase {β : Type} : SMap β → Nat → SMap β
  | [], _ => []
  | (j, w) :: m, k => if j = k then SMap.erase m k else (j, w) :: SMap.erase m k

/-- The map with one key listed, at its place in the order. -/
def SMap.insert {β : Type} : SMap β → Nat → β → SMap β
  | [], k, v => [(k, v)]
  | (j, w) :: m, k, v =>
    if k < j then (k, v) :: (j, w) :: m
    else if k = j then (k, v) :: m
    else (j, w) :: SMap.insert m k v

/-- The map with one key's value replaced; writing what an unlisted key reads as removes the entry. -/
def SMap.set {β : Type} [DecidableEq β] (d : Nat → β) (m : SMap β) (k : Nat) (v : β) : SMap β :=
  if v = d k then SMap.erase m k else SMap.insert m k v

/-- Every key of the map lies above a bound, in rising order, with no entry that is its default. -/
def SMap.wfFrom {β : Type} [DecidableEq β] (d : Nat → β) : Nat → SMap β → Bool
  | _, [] => true
  | b, (j, v) :: m => decide (b ≤ j) && decide (v ≠ d j) && SMap.wfFrom d (j + 1) m

/-- The canonical form. -/
def SMap.wf {β : Type} [DecidableEq β] (d : Nat → β) (m : SMap β) : Bool :=
  SMap.wfFrom d 0 m

/-- The map with every listed value replaced by a function of key and value, or dropped. -/
def SMap.filterMap {β : Type} [DecidableEq β] (d : Nat → β) (f : Nat → β → Option β) : SMap β → SMap β
  | [] => []
  | (j, v) :: m =>
    match f j v with
    | none => SMap.filterMap d f m
    | some w => if w = d j then SMap.filterMap d f m else (j, w) :: SMap.filterMap d f m

end Sys2Proof.Machine
end

