-- ==== Sys2Proof/Machine/State.lean ====
section
/-!
DEFINITION. The state of one YG288 socket as plain data: the waiting commands, the 512 strands, and the
device (its register space, memories, caches, directories, trackers, stacks, channels, error ring, keys,
domains, ports, queues, links, router, and what its firmware keeps). `State.reset` is the socket right
after a cold reset has released the boot strand (R503, R504).
-/

namespace Sys2Proof.Machine

/-! ### Strands (R47) -/

/-- One copy of the banked registers (R54, R55): SCRATCH0 to SCRATCH3 are s0 to s3. -/
structure Bank where
  epc : Word := 0
  cause : Word := 0
  faddr : Word := 0
  fipa : Word := 0
  fsyn : Word := 0
  vbase : Word := 0
  s0 : Word := 0
  s1 : Word := 0
  s2 : Word := 0
  s3 : Word := 0
  deriving DecidableEq, Repr

/-- A register that an instruction names. -/
inductive RegRef
  | n (r : Reg)
  | v (r : Reg)
  deriving DecidableEq, Repr

/-- An open mode shadow (R77): the register number written, the value, the level of the write, and the
position of the last instruction of the shadow, 0 to 5. -/
structure Shadow where
  sr : BitVec 12
  val : Word
  lvl : Nat
  pos : Nat
  deriving DecidableEq, Repr

/-- A transfer whose executed slot is the next instruction (R72): the transfer's address, where execution
continues after the slot, what the link register held before (R74), whether the transfer is taken, and the
return-address stack before it (R149). -/
structure Slot where
  branch : Word
  next : Word
  link : Option (Reg × Word)
  taken : Bool
  ras : List Word
  deriving DecidableEq, Repr

/-- What a long operation in flight waits for (R89, R151): nothing but its time, the acceptance of a far atomic's
Peat line (R120), or the durability of the persistent writes up to a sequence number (PSYNC, R124). -/
inductive LongKind
  | value
  | far (line seq : Nat)
  | psync (upTo : Nat) (failed : Bool)
  deriving DecidableEq, Repr

/-- A long operation in flight: its destination, its result and what it waits for. -/
structure LongOp where
  dst : RegRef
  val : VWord
  kind : LongKind
  deriving DecidableEq, Repr

/-- What a store-buffer entry is (R143). -/
inductive SbKind
  | normal (wb : Bool)
  | device
  | pstnt
  | stash (target : BitVec 16)
  deriving DecidableEq, Repr

/-- A store-buffer entry: physical address, bytes, KEYID, kind, sequence number, whether a PSYNC in
flight holds it (R125), and whether it was already sent (a PSTNT awaiting acceptance, R279),
whether it was counted as waiting for an entry or a credit (R274), and whether it is a release (R115). -/
structure SbEntry where
  pa : Nat
  bytes : List Byte
  key : Nat
  kind : SbKind
  seq : Nat
  sent : Bool
  held : Bool
  rel : Bool
  deriving DecidableEq, Repr

/-- A strand suspended in WAIT (R133): its destination and frame limit. -/
structure Waiting where
  d : Reg
  limit : Word
  deriving DecidableEq, Repr

/-- A load from a PCI Express window that waits for its completion (R416): the root port, the
destination, the size in bytes, and whether it is sign-extended. -/
structure PortLoad where
  port : Nat
  dst : RegRef
  addr : Word
  size : Nat
  signed : Bool
  deriving DecidableEq, Repr

/-- The architectural and in-flight state of one strand (R47; pipeline state of R71 to R80, R89, R130,
R143, R149, R294, R399). `lost` holds the records of the strand-lost exceptions to be taken (R351). -/
structure Strand where
  pc : Word
  n : SMap Word
  v : SMap VWord
  status : Word
  hstatus : Word
  tcfg : Word
  ttb1 : Word
  ttb2 : Word
  asid : Word
  vmid : Word
  cycles : Word
  timecmp : Word
  bankS : Bank
  bankH : Bank
  parked : Bool
  waiting : Option Waiting
  shadow : Option Shadow
  slot : Option Slot
  longOps : List LongOp
  sb : List SbEntry
  seq : Nat
  tsync : Bool
  portLoad : Option PortLoad
  ras : List Word
  inside : Option (Nat × Nat)
  lastExit : Option (Nat × Nat × Nat)
  halted : Bool
  lost : List Nat
  deriving DecidableEq, Repr

/-- The address of the boot image after reset, bits [51:2] of BOOT_VECTOR (R503). -/
def bootPc : Word := coldValue 0x9000028

/-- A strand at its Cold values (R50), parked. -/
def Strand.reset : Strand where
  pc := bootPc
  n := []
  v := []
  status := 2
  hstatus := 0
  tcfg := 0
  ttb1 := 0
  ttb2 := 0
  asid := 0
  vmid := 0
  cycles := 0
  timecmp := 0
  bankS := {}
  bankH := {}
  parked := true
  waiting := none
  shadow := none
  slot := none
  longOps := []
  sb := []
  seq := 0
  tsync := false
  portLoad := none
  ras := []
  inside := none
  lastExit := none
  halted := false
  lost := []

/-- The mode register of a logical core (R60) and its drain (R138); `wake` is a wake of strand 1 that
the core holds (R139); `accepted` marks a change that a shadow still holds back (R61). -/
structure Pmode where
  mode : Bool := false
  active : Bool := false
  refused : Bool := false
  draining : Bool := false
  wake : Bool := false
  accepted : Bool := false
  deriving DecidableEq, Repr

/-! ### Translation caches (R175) -/

/-- A cached translation entry. Leaves carry the page (address bits above the level's page offset), the
level and the entry; pointers carry the table's address. -/
inductive TlbEntry
  | s1 (asid vmid : Nat) (va : Nat) (lvl : Nat) (e : Word) (pin : Option (Nat × Nat))
  | s2 (vmid : Nat) (ipa : Nat) (lvl : Nat) (e : Word) (pin : Option (Nat × Nat))
  | p1 (asid vmid : Nat) (va : Nat) (lvl : Nat) (e : Word)
  | p2 (vmid : Nat) (ipa : Nat) (lvl : Nat) (e : Word)
  deriving DecidableEq, Repr

/-! ### Caches, directory and messages -/

/-- A line in an L2 (R194, R216): state, data, poison, the KEYID it is held under, whether each L1 holds
it (R195), and the byte mask of stores since the poison was received (R348),
and the OWNSEQ of its grant (R231). -/
structure CLine where
  st : LineState
  data : Line
  poison : Bool
  key : Nat
  l1i : Bool
  l1d : Bool
  stored : BitVec 64
  seq : BitVec 8
  deriving DecidableEq, Repr

/-- A line in its home LLC slice: data, dirty, poison, KEYID, way. -/
structure LLine where
  data : Line
  dirty : Bool
  poison : Bool
  key : Nat
  way : Nat
  deriving DecidableEq, Repr

/-- A ghost of an evicted dirty line (R227, R232). -/
structure Ghost where
  data : Line
  poison : Bool
  key : Nat
  seq : BitVec 8
  deriving DecidableEq, Repr

/-- The states of a directory entry (R218). -/
inductive DirState
  | uncached
  | pointer
  | broadcast
  | owned
  deriving DecidableEq, Repr

/-- A directory entry (R218). Pointers are agents (R219), packed from PTR0; `way` is its way in the set, `used`
the turn of its last use (R229). -/
structure Dir where
  st : DirState := .uncached
  remote : Bool := false
  lead : Nat := 3
  ptrs : List Agent := []
  llcd : Bool := false
  llcway : Nat := 0
  held : Bool := false
  proxy : Bool := false
  ownseq : BitVec 8 := 0
  way : Nat := 0
  used : Nat := 0
  deriving DecidableEq, Repr

/-- The requests of R222. -/
inductive Req
  | rds (u m : Bool)
  | rdx (m : Bool)
  | upg
  | stash (target : BitVec 16) (mask : BitVec 64) (bytes : Line)
  | atomic (op : AtomicOp) (dbl : Bool) (off : Nat) (operand expected : Word)
  deriving DecidableEq, Repr

/-- The acknowledgements of R223. -/
inductive AckKind
  | fwd (ghost d : Bool)
  | inv
  | grant (st : LineState) (seq : BitVec 8)
  | wb (p : Bool)
  | done
  | hint
  deriving DecidableEq, Repr

/-- A message in flight (R222, R223): what it is, its line, its sender and its receiver (none: the
home). -/
inductive MsgBody
  | request (r : Req)
  | wbm (seq : BitVec 8) (k : Bool) (data : Line) (poison : Bool)
  | evc (data : Line) (poison : Bool)
  | fwds (requester : Agent) (u m : Bool)
  | fwdx (requester : Agent) (rcl : Bool)
  | inv
  | ack (k : AckKind)
  | absent
  | data (bytes : Line) (d p t : Bool)
  | retry
  deriving DecidableEq, Repr

structure Msg where
  g : Nat
  src : Option Agent
  dst : Option Agent
  body : MsgBody
  deriving DecidableEq, Repr

/-- A request of a core that the home has not closed (R223 to R231): what it asks, the KEYID of the access, the
data and the grant received so far, the Retries received, and whether it is starved. -/
structure Mshr where
  req : Req
  key : Nat
  data : Option (Line × Bool × Bool)
  grant : Option (LineState × BitVec 8)
  retries : Nat
  starved : Bool
  deriving DecidableEq, Repr

/-- Why a home transaction runs (R225): for a request of an agent, or a recall. -/
inductive TxnKind
  | request (src : Agent) (r : Req)
  | rcl
  deriving DecidableEq, Repr

/-- How far a transaction has come: it gathers answers, waits for an intake's acceptance (R270), waits for a
stash target (R235), or has sent its grant. -/
inductive TxnStage
  | gather
  | intake
  | target (t : Nat)
  | granted
  deriving DecidableEq, Repr

/-- An open transaction of a home (R225): what it is for, the answers it awaits, whether the forward was served,
from a ghost, with data owed to the home, the data that came, and the KEYID it reads memory under. -/
structure Txn where
  kind : TxnKind
  invs : List Agent
  fwd : Option Agent
  served : Bool
  ghost : Bool
  want : Bool
  data : Option (Line × Bool × Bool)
  key : Nat
  stage : TxnStage
  deriving DecidableEq, Repr

/-- A request waiting at a slice (R226). -/
structure Queued where
  g : Nat
  src : Agent
  req : Req
  key : Nat
  starved : Bool
  deriving DecidableEq, Repr

/-! ### Persistence -/

/-- A tracker entry (R267): the line, a bit per strand, the writes of it sent not yet acknowledged, whether it holds
data that no write sent carries, and the frame whose credit it drew (R272). -/
structure Track where
  g : Nat
  s0 : Bool
  s1 : Bool
  owed : Nat
  dirty : Bool
  credit : Word
  deriving DecidableEq, Repr

/-- The tracker and credit blocks of a core (R267, R274): a block is (stack, lines left, frame); a refusal
waits with the priority mark. -/
structure Tracker where
  openB : List Track := []
  closing : List Track := []
  blocks : List (Nat × Nat × Word) := []
  refused : List Nat := []
  deriving DecidableEq, Repr

/-- A line on its way to an intake, or accepted (R265): the line, its bytes under a mask, its poison, the KEYID,
whether it is urgent (R277), the former holder told of its acceptance (R270), the frame whose credit a direct write
drew, and the direct writes it carries, by strand and sequence. -/
structure Intake where
  g : Nat
  data : Line
  mask : BitVec 64
  poison : Bool
  key : Nat
  urgent : Bool
  ack : Option Agent
  credit : Option Word
  direct : List (Nat × Nat)
  deriving DecidableEq, Repr

/-- A direct persistent write not yet acknowledged (R271, R276): the strand, its sequence, the line, and the frame in
which it was sent. -/
structure DirectPw where
  strand : Nat
  seq : Nat
  line : Nat
  frame : Word
  deriving DecidableEq, Repr

/-- A granule's entry in the wear map (R283); `wear` counts the bytes written. -/
structure Granule where
  use : Nat
  logical : Nat
  retired : Bool
  wear : Nat
  deriving DecidableEq, Repr

/-- A Peat stack (R262 to R285): lines waiting, lines accepted (oldest first) and how many of
them in this frame (R526), credits granted this frame
and of them already accepted, cores refused in order, the wear map's changes, the move in progress
(from, to), the governor's buckets (bytes, newest first). -/
structure Stack where
  waitQ : List Intake := []
  accepted : List Intake := []
  acceptedNow : Nat := 0
  granted : Nat := 0
  usedNow : Nat := 0
  ledgerLeft : Nat := 0
  refusals : List Nat := []
  move : Option (Nat × Nat) := none
  bucket : Nat := 0
  buckets : List Nat := []
  deriving DecidableEq, Repr

/-! ### Memory channels -/

/-- An entry of a row-disturbance table (R324). -/
structure RowCount where
  row : Nat
  count : Nat
  deriving DecidableEq, Repr

/-- What a channel keeps beside its registers (R320 to R332): the recent-row table (R338), the temperature at its
last pause, an extra pause owed, a pause that software released, the stored coefficients, refreshes done, row
tables by bank, crossings held (bank, row), the patrol's line, whether it trained, its canary, a pause that waits for
a frame in which it fits and those abandoned in a row (R252, R253), the ports that starved in this frame, and the
port settings in effect (R326). -/
structure Chan where
  recent : List (Nat × Word) := []
  temp : Nat := 0
  extraPause : Bool := false
  pauseSlot : Bool := false
  coeff : Word := 0
  refreshes : Nat := 0
  rows : SMap (List RowCount) := []
  heldRow : List (Nat × Nat) := []
  patrol : Nat := 0
  trained : Bool := true
  canary : Option (Word × Nat × Nat × Word) := none
  owed : Bool := false
  misses : Nat := 0
  starved : List Nat := []
  ports : SMap Word := []
  deriving DecidableEq, Repr

/-- An evacuation in progress (R332): the slot, urgent or not, the next granule, the granules moved on
demand. -/
structure Evac where
  slot : Nat
  urgent : Bool
  next : Nat
  moved : List Nat
  deriving DecidableEq, Repr

/-! ### Errors -/

/-- An error record (R345), without its check. -/
structure Record where
  source : Nat
  inst : Nat
  cls : Nat
  action : Nat
  requester : Nat
  address : Nat
  syndrome : Nat
  frame : Word
  count : Nat
  bucket : Nat
  location : Nat
  rseq : Nat
  deriving DecidableEq, Repr

/-- A channel-like unit's place in the retry-then-retire scheme (R337 to R340): its bucket, whether it is
a candidate, the frames of its candidacies, whether it is retired. -/
structure ErrUnit where
  bucket : Nat := 0
  candidate : Bool := false
  candidacies : List Word := []
  retired : Bool := false
  rows : List (Nat × Word) := []
  deriving DecidableEq, Repr

/-- A transplant in progress (R353): source, target, strands whose state cannot be read, and its step. -/
structure Xplant where
  source : Nat
  target : Nat
  deriving DecidableEq, Repr

/-- An entry of the repair record (R377). -/
structure Repair where
  typ : Nat
  kind : Nat
  group : Nat
  inst : Nat
  sub : Nat
  loc : Nat
  spare : Nat
  fused : Bool
  fuseBad : Bool
  frame : Word
  deriving DecidableEq, Repr

/-! ### Cushion -/

/-- A strand image (R304); `meta` of the spec is the last five fields. -/
structure Image where
  strand : Strand
  pmode : Pmode
  sealedX : Bool
  parked : Bool
  waiting : Bool
  phys : Nat
  frame : Word
  restored : Bool
  carried : Bool
  withdrawn : Bool
  deriving DecidableEq, Repr

/-- A line of the drain report's line list (R303). -/
structure LineItem where
  g : Nat
  durable : Bool
  prev : Bool
  remote : Bool
  poisoned : Bool
  reason : Nat
  deriving DecidableEq, Repr

/-- An entry of the drain report's Ledger list (R303). -/
structure LedgerItem where
  pair : Nat
  finished : Bool
  op : Nat
  sq : Nat
  bytes : Nat
  status : Nat
  deriving DecidableEq, Repr

/-- A drain report (R302, R303), complete once `complete`, and consumed at release. -/
structure Report where
  seqn : Nat := 0
  sock : Nat := 0
  present : Nat := 0
  cause : Nat := 0
  startFrame : Word := 0
  endFrame : Word := 0
  lastClosed : Word := 0
  phases : Nat := 0
  dramDone : Nat := 0
  selfRefresh : Nat := 0
  canaryWritten : Nat := 0
  phaseEnd : SMap Word := []
  errFirst : Nat := 0
  errCount : Nat := 0
  strands : Nat := 0
  canary : SMap Word := []
  images : List (Nat × Image) := []
  ledger : List LedgerItem := []
  lines : List LineItem := []
  complete : Bool := false
  consumed : Bool := false
  deriving DecidableEq, Repr

/-- Where the device stands between power and software (R290 to R312, R498, R535). -/
inductive Phase
  | off
  | booting
  | running
  | drain
  | drained
  | stopped
  deriving DecidableEq, Repr

/-! ### Security -/

/-- A key slot (R389): its class, an identity of its key, the owning domain of classes 3 and 4. -/
structure KeySlot where
  cls : Nat
  key : Nat
  dom : Nat
  deriving DecidableEq, Repr

/-- A vCPU of a domain (R392, R398, R399): saved state, whether it runs on a strand, whether it waits at
the SECALL of an EXIT, its exit count, whether a drain image holds it. -/
structure Vcpu where
  st : Strand
  running : Bool
  exitD : Option Reg
  exits : Nat
  inImage : Bool
  deriving DecidableEq, Repr

/-- A sealed domain (R392, R395). -/
structure Domain where
  built : Bool
  vcpus : List Vcpu
  areas : Nat
  key3 : Nat
  key4 : Option Nat
  measure : Line
  shared : BitVec 32
  deriving DecidableEq, Repr

/-- A POT entry (R393). -/
structure Pot where
  st : Nat
  dom : Nat
  ipa : Nat
  rights : Nat
  deriving DecidableEq, Repr

/-- A mailbox channel (R406, R508): the frame at which the claim was taken or last used, and the buffer. -/
structure Mailbox where
  buf : SMap Byte := []
  claimer : Option Requester := none
  deriving DecidableEq, Repr

/-! ### The device -/

/-- A TINV that has been issued and not yet completed (R129, R186): the strand, the removal. -/
inductive TinvOp
  | va (page asid vmid : Nat) (anyAsid leaf : Bool)
  | asid (asid vmid : Nat)
  | all (vmid : Nat)
  | ipa (page vmid : Nat) (leaf : Bool)
  | vmid (vmid : Nat)
  | hAll
  deriving DecidableEq, Repr

/-- A cached device-table entry (R191). -/
structure DtEntry where
  rid : Nat
  d0 : Word
  d1 : Word
  d2 : Word
  deriving DecidableEq, Repr

/-- A stored word that an injection or a fault has changed (R364, R367): group, instance, location,
word, the masks, and whether it was injected. -/
structure Flip where
  group : Nat
  inst : Nat
  loc : Nat
  word : Nat
  mask : Word
  chk : BitVec 16
  injected : Bool
  deriving DecidableEq, Repr

/-- A test engine beside its registers (R371 to R375): the slice that software released, whether a slice waits for a
frame in which it fits, those abandoned in a row, the frame its pass began, the finding held for software. -/
structure Engine where
  go : Option Nat := none
  owed : Bool := false
  misses : Nat := 0
  start : Word := 0
  held : SliceFinding := .clean
  deriving DecidableEq, Repr

/-- The drain in progress (R293): its report as written so far, the sockets whose Peat-done and DRAM-done
messages arrived, the phases that are due and those started under DRAIN_STEP (R360), and the records written before
it. -/
structure DrainSt where
  report : Report := {}
  peatDone : Nat := 0
  dramDone : Nat := 0
  due : Nat := 0
  started : Nat := 0
  errTotal : Nat := 0
  deriving DecidableEq, Repr

/-! ### Ports, Ledger Engine, router, links, firmware -/

/-- An outbound request of a root port that awaits its completion (R416): a load of strand g. -/
structure Outbound where
  g : Nat
  addr : Nat
  size : Nat
  deriving DecidableEq, Repr

/-- A root port (R407 to R423) beside its registers: its configuration space by doubleword, the requests
that await completions, the link's state, the slot as the steward sees it, and what waits; on port 0 of a controller
the division into ports in effect (R407). `record` is the index of its containment's error record. `answer` is the last completion that the port gave an inbound request:
0 success or 1 Unsupported Request, the data, the poisoned attribute; it is the model's own field. -/
structure Port where
  cfg : SMap (BitVec 32) := []
  out : List Outbound := []
  posted : List (Nat × List Byte) := []
  linkUp : Bool := false
  dpcStatus : Bool := false
  partner : Bool := false
  slot : SlotInputs := ⟨false, false, false⟩
  slotStatus : BitVec 16 := 0
  slotCtl : BitVec 16 := 0
  slotWait : Option (BitVec 16) := none
  powered : Bool := false
  candidateLane : Option Nat := none
  speed : Nat := 6
  sscDepth : Nat := 0
  sscRate : Nat := 3
  bifurcation : Nat := 0
  record : Nat := 0
  answer : Option (Nat × List Byte × Bool) := none
  deriving DecidableEq, Repr

/-- A descriptor in flight (R432 to R435): its sequence, its 64 bytes, whether it has run, and its
completion's fields. -/
structure Desc where
  sq : Nat
  raw : List Byte
  started : Bool := false
  done : Bool := false
  status : Nat := 0
  bytes : Nat := 0
  result : Word := 0
  resv : Nat := 0
  deriving DecidableEq, Repr

/-- A queue pair beside its registers (R428 to R435). -/
structure Queue where
  tail : Nat := 0
  head : Nat := 0
  seqn : Nat := 0
  written : Nat := 0
  inflight : List Desc := []
  pendingEn : Bool := false
  deriving DecidableEq, Repr

/-- A stream beside its registers (R436): the reservation point and the reserved ranges not yet durable,
(pair, sequence, start, length, durable), oldest first; a disable that waits. -/
structure Stream where
  resv : Nat := 0
  ranges : List (Nat × Nat × Nat × Nat × Bool) := []
  closing : Bool := false
  deriving DecidableEq, Repr

/-- A function of the engine (R426, R427, R437, R438): Bus Master Enable, Memory Space Enable, D3hot, whether it
quiesces, whether VF Enable exposes it (VFs), what an enable waits to set, its configuration space by doubleword. -/
structure Func where
  bme : Bool := false
  mse : Bool := false
  d3 : Bool := false
  quiescing : Bool := false
  exposed : Bool := false
  wantBme : Bool := false
  wantVf : Bool := false
  cfg : SMap (BitVec 32) := []
  deriving DecidableEq, Repr

/-- A Frahal link beside its registers (R457 to R461): flits since the last rekeying, the lane that waits for software,
the failures in a row of the flit under replay, the lanes that failed on it, the tag failures in a row. -/
structure Link where
  flits : Nat := 0
  candidateLane : Option Nat := none
  replayRun : Nat := 0
  failed : List Nat := []
  tagRun : Nat := 0
  deriving DecidableEq, Repr

/-- The entries of the router's cache (R473): index and the two doublewords. -/
structure IrtEntry where
  idx : Nat
  d0 : Word
  d1 : Word
  deriving DecidableEq, Repr

/-- The socket chain as this socket sees it (R446 to R455) beside its registers: whether the ring is
enumerated, whether it awaits an ECHO or drives one, consecutive misses and good pulses, the resynchronisation in progress (1 started, 2 announced) with the
reports received and the highest, the frame number to take at the next tick, the messages sent and not yet returned
(type, payload) and the retries of the oldest, the sequence of the next one, whether a POWER_FAIL run was sent, the
link maps, ECAM bases and map digests received. -/
structure Chain where
  enumerated : Bool := true
  pinging : Bool := false
  echo : Bool := false
  misses : Nat := 0
  good : Nat := 0
  resync : Nat := 0
  reports : Nat := 0
  maxReport : Word := 0
  nextFrame : Option Word := none
  sent : List (Nat × List Byte) := []
  retries : Nat := 0
  seqn : BitVec 8 := 0
  failRun : Bool := false
  maps : SMap (List LinkEntry) := []
  mapBase : SMap Word := []
  mapDigest : SMap Word := []
  deriving DecidableEq, Repr

/-- What a firmware component's image is (R382 to R386): its security version, its version and which image it is. -/
structure ImageId where
  svn : Nat := 0
  ver : Word := 0
  gen : Nat := 0
  deriving DecidableEq, Repr

/-- The firmware's state (R506 to R527): the staged sorus, the update in progress as held in always-on
logic (R517), what the overwrite has done, the configuration store, MCTP identities, the messages to the BMC, the
telemetry ring, images, versions and fuses (R382 to R386), debug, keys, SPDM connections, the last response on the
management channel; `sample` is the entry that the newest telemetry entry replaced (R525), `partBad` an unreadable
system partition (R522). -/
structure Fw where
  staged : List Byte := []
  stagedTotal : Nat := 0
  stagedLast : Bool := false
  rebuild : Bool := false
  sorusId : Word := 0
  ready : Option Word := none
  armA : Option Word := none
  confirmed : Bool := false
  aborted : Bool := false
  armedMask : Nat := 0
  notActivated : Nat := 0
  reasons : SMap Nat := []
  switched : Bool := false
  overwritten : List (Nat × Nat) := []
  rewrites : SMap Nat := []
  cfgGen : Nat := 1
  cfgSchema : Nat := 0
  schema : Nat := 0
  cfg : SMap (List Byte) := []
  snapshot : Option (SMap Word) := none
  i3cAddr : Option (BitVec 7) := none
  eid : Byte := 0
  msgs : List (List Byte) := []
  tlm : SMap (List Byte) := []
  sample : Option (List Byte) := none
  svn : SMap Nat := []
  running : SMap ImageId := []
  previous : SMap ImageId := []
  fuses : List Repair := []
  randomBad : Bool := false
  nonce : Option (List Byte) := none
  linkSecret : Option (List Byte) := none
  ideKeys : SMap (List Byte) := []
  spdm : SMap Nat := []
  response : List Byte := []
  result : Nat := 0
  partBad : Bool := false
  deriving DecidableEq, Repr

/-- Everything of the socket but its strands and the waiting commands. `free` counts the free values
drawn so far; it is the model's own field (log entry 5). The last fields: the pins `FAULT_N` and `THERMTRIP_N`
asserted (R352, R537); a start of the power that found a rail or `TEST` wrong (R493, R533); the tiles that wait for
their frond's core voltage (R494); the ratio that each tile's PLL is set to (R490, R491). -/
structure Dev where
  free : Nat
  phase : Phase
  regs : SMap Word
  pmode : SMap Pmode
  dram : SMap Byte
  peat : SMap Byte
  keyOf : SMap Nat
  poisoned : SMap Bool
  bad : SMap Bool
  initPending : Bool
  initDone : SMap Bool
  tlb : SMap (List TlbEntry)
  btb : SMap (List (Nat × Nat × Word))
  tinvs : List (Nat × TinvOp)
  iotlb : List (Nat × TlbEntry)
  dtcache : List DtEntry
  l2 : SMap CLine
  llc : SMap (Option LLine)
  dirs : SMap Dir
  turns : Nat
  unclean : SMap Bool
  ghosts : SMap (Option Ghost)
  mshrs : SMap (Option Mshr)
  txns : SMap (Option Txn)
  homeQ : SMap (List Queued)
  wbOut : SMap Nat
  net : List Msg
  trackers : SMap Tracker
  pstacks : SMap Stack
  wear : SMap Granule
  failedPw : List Nat
  directPw : List DirectPw
  chans : SMap Chan
  evac : Option Evac
  fenced : Option Nat
  ring : SMap (Option Record)
  evHeld : Nat
  units : SMap ErrUnit
  xplant : List Xplant
  routes : SMap Bool
  lostStops : List Nat
  unreadable : Nat
  flips : List Flip
  engines : SMap Engine
  repairs : List Repair
  drain : Option DrainSt
  reports : SMap Report
  images : SMap (Option Image)
  drainSeq : Nat
  retainEn : Bool
  slots : SMap KeySlot
  nextKey : Nat
  domains : SMap (Option Domain)
  pot : SMap Pot
  seBox : Mailbox
  stwBox : Mailbox
  pfBox : Mailbox
  ports : SMap Port
  queues : SMap Queue
  streams : SMap Stream
  funcs : SMap Func
  msix : SMap Word
  links : SMap Link
  irt : List IrtEntry
  chain : Chain
  fw : Fw
  faultN : Bool
  thermtrip : Bool
  badStart : Bool
  vidWait : List Nat
  clkTarget : SMap Nat
  bindCls : SMap Nat
  deriving DecidableEq, Repr

/-- The wear map as manufactured (R262, R283): on PS0 the user granules, the system partition, the drain
and map area, then spares; on the others the user granules, the drain and map area, then spares. -/
def wearDefault (k : Nat) : Granule :=
  let n := k / 131072
  let i := k % 131072
  let use :=
    if i < 122880 then 0
    else if n == 0 then (if i < 126976 then 1 else if i < 127232 then 2 else 3)
    else (if i < 123136 then 2 else 3)
  ⟨use, if use == 0 then i else 0, false, 0⟩

/-- Key slot 0 is a host durable slot from the first cold boot (R389); every other slot is empty. Its key
has the identity 1. -/
def slotDefault (k : Nat) : KeySlot := if k == 0 then ⟨2, 1, 0⟩ else ⟨0, 0, 0⟩

/-- A line that an L2 does not hold. -/
def CLine.none : CLine := ⟨.invalid, 0, false, 0, false, false, 0, 0⟩

/-- The device right after a cold reset has released the boot strand (R503, R504). -/
def Dev.reset : Dev where
  free := 0
  phase := .running
  regs := []
  pmode := []
  dram := []
  peat := []
  keyOf := []
  poisoned := []
  bad := []
  initPending := true
  initDone := []
  tlb := []
  btb := []
  tinvs := []
  iotlb := []
  dtcache := []
  l2 := []
  llc := []
  dirs := []
  turns := 0
  unclean := []
  ghosts := []
  mshrs := []
  txns := []
  homeQ := []
  wbOut := []
  net := []
  trackers := []
  pstacks := []
  wear := []
  failedPw := []
  directPw := []
  chans := []
  evac := none
  fenced := none
  ring := []
  evHeld := 0
  units := []
  xplant := []
  routes := []
  lostStops := []
  unreadable := 0
  flips := []
  engines := []
  repairs := []
  drain := none
  reports := []
  images := []
  drainSeq := 0
  retainEn := false
  slots := []
  nextKey := 2
  domains := []
  pot := []
  seBox := {}
  stwBox := {}
  pfBox := {}
  ports := []
  queues := []
  streams := []
  funcs := []
  msix := []
  links := []
  irt := []
  chain := {}
  fw := {}
  faultN := false
  thermtrip := false
  badStart := false
  vidWait := []
  clkTarget := []
  bindCls := []

/-- The state of the block: the commands that wait, first in first out; the strands by their index in the
socket; the device. -/
structure State where
  pending : List Instr
  strands : SMap Strand
  dev : Dev
  deriving DecidableEq, Repr

/-- The reasons the machine stops with a fault. -/
inductive Fault
  /-- A command names a strand, core, stack, channel, port, link, tile or other unit that the socket does
  not have. Raised by the meaning of that command; safe: no such command reaches the hardware. -/
  | noSuchUnit
  /-- A data-plane command runs while the socket is outside the clock relations of R489, where the spec
  promises nothing of its data plane. Raised by the meanings of data-plane commands; safe. -/
  | outsideClockRelations
  deriving DecidableEq, Repr

/-- The reasons a command has no meaning. -/
inductive Refusal
  /-- The command's meaning is not modelled. Raised by the dispatch alone; safe. -/
  | notModelled (mnemonic : String)
  deriving DecidableEq, Repr

/-- The machine right after reset: no command waits; strand 0 of logical core 0 runs at H from
BOOT_VECTOR, every other strand is parked (R503); the device as `Dev.reset`. -/
def State.reset : State where
  pending := []
  strands := [(0, { Strand.reset with parked := false })]
  dev := Dev.reset

end Sys2Proof.Machine
end

