-- ==== Sys2Proof/WellFormed.lean ====
section
/-!
DEFINITION. Well-formed commands: every unit that a command names is one that the socket has. (A reserved
encoding of an instruction is well formed: it raises illegal instruction, R85, R87.)
-/

namespace Sys2Proof

/-- The strands of a socket: 256 logical cores of two strands (R482). -/
abbrev strandOk (g : Nat) : Bool := decide (g < 512)

/-- The physical cores of a socket (R42). -/
abbrev coreOk (c : Nat) : Bool := decide (c < 288)

/-- The 64-byte lines of the 52-bit physical address space (R32). -/
abbrev lineOk (g : Nat) : Bool := decide (g < 2 ^ 46)

/-- A requester of a register access. -/
def reqOk : Requester → Bool
  | .strand g => strandOk g
  | .other => true

/-- An agent of the coherence protocol (R215, R219). -/
def agentOk : Agent → Bool
  | .core c => coreOk c
  | .socket s => decide (s < 8)
  | .io d => decide (d < 2)
  | .ledger => true

/-- A cache-control unit of a tile (R213). -/
def unitOk : CacheUnit → Bool
  | .core k => decide (k < 2)
  | .llc => true

/-- An array that a disable empties (R203). -/
def arrayOk : CacheArray → Bool
  | .l1i k | .l1d k | .l2 k => decide (k < 2)
  | .way w => decide (w < 12)

/-- A frame task (R253). -/
def taskOk : FrameTask → Bool
  | .retrain mc => decide (mc < 16)
  | .sliceTest e => decide (e < 6)
  | .telemetry => true

/-- An inbound request arrives at one of the eighty root ports. -/
def dmaOk (q : DmaReq) : Bool := decide (q.port < 80)

/-- The command names only units of the socket. -/
def Instr.wf : Instr → Bool
  | .registerWrite req off _ => reqOk req && off < 2 ^ 34
  | .undefinedOffsetAccess req off _ => reqOk req && off < 2 ^ 28
  | .bootLock req _ => reqOk req
  | .warmSpare c => coreOk c
  | .stewardWatchdogRestart => true
  | .interruptEntry g | .shadowClose g | .timecmpReached g | .longOpComplete g _ => strandOk g
  | .modeDrainComplete c => coreOk c
  | .add g _ _ _ | .sub g _ _ _ | .and g _ _ _ | .or g _ _ _ | .xor g _ _ _ | .andn g _ _ _
  | .shl g _ _ _ | .shr g _ _ _ | .sar g _ _ _ | .ror g _ _ _ | .slt g _ _ _ | .sltu g _ _ _
  | .seq g _ _ _ | .min g _ _ _ | .max g _ _ _ | .minu g _ _ _ | .maxu g _ _ _ | .clz g _ _ _
  | .ctz g _ _ _ | .popc g _ _ _ | .bswap g _ _ _ | .addw g _ _ _ | .subw g _ _ _ | .sextb g _ _ _
  | .sexth g _ _ _ | .sextw g _ _ _ | .zextw g _ _ _ | .addi g _ _ _ | .andi g _ _ _ | .ori g _ _ _
  | .xori g _ _ _ | .slti g _ _ _ | .sltiu g _ _ _ | .shli g _ _ _ _ | .shri g _ _ _ _
  | .sari g _ _ _ _ | .rori g _ _ _ _ | .lui g _ _ _ | .hins g _ _ _ | .apc g _ _ _ | .mul g _ _ _
  | .mulh g _ _ _ | .mulhu g _ _ _ | .mulw g _ _ _ | .div g _ _ _ | .divu g _ _ _ | .rem g _ _ _
  | .remu g _ _ _ | .beq g _ _ _ _ | .bne g _ _ _ _ | .blt g _ _ _ _ | .bge g _ _ _ _
  | .ble g _ _ _ _ | .bgt g _ _ _ _ | .bceq g _ _ _ _ _ | .bcne g _ _ _ _ _ | .bclt g _ _ _ _ _
  | .bcge g _ _ _ _ _ | .bcltu g _ _ _ _ _ | .bcgeu g _ _ _ _ _ | .j g _ _ | .call g _ _
  | .jr g _ _ _ _ _ | .callr g _ _ _ _ _ | .ret g _ _ _ _ _ | .fadd g _ _ _ | .fsub g _ _ _
  | .fmul g _ _ _ | .fdiv g _ _ _ | .fsqrt g _ _ _ | .fma g _ _ _ | .fmin g _ _ _ | .fmax g _ _ _
  | .fabs g _ _ _ | .fneg g _ _ _ | .feq g _ _ _ | .flt g _ _ _ | .fle g _ _ _ | .fcvtLD g _ _ _
  | .fcvtLuD g _ _ _ | .fcvtDL g _ _ _ | .fcvtDLu g _ _ _ | .fcvtSD g _ _ _ | .fcvtDS g _ _ _
  | .fmvN g _ _ _ | .fmvV g _ _ _ | .vadd g _ _ _ _ | .vsub g _ _ _ _ | .vand g _ _ _ _
  | .vor g _ _ _ _ | .vxor g _ _ _ _ | .vandn g _ _ _ _ | .vmin g _ _ _ _ | .vmax g _ _ _ _
  | .vminu g _ _ _ _ | .vmaxu g _ _ _ _ | .vshl g _ _ _ _ | .vshr g _ _ _ _ | .vsar g _ _ _ _
  | .vsplat g _ _ _ _ | .vext g _ _ _ _ | .vins g _ _ _ _ | .vcmpeq g _ _ _ _ | .vcmplt g _ _ _ _
  | .vcmpltu g _ _ _ _ | .vsel g _ _ _ _ | .vcompress g _ _ _ _ | .vgather g _ _ _ _
  | .vcrc32c g _ _ _ _ _ | .vcrc64 g _ _ _ _ _ | .vhmix g _ _ _ _ | .vhfold g _ _ _ _ | .lb g _ _ _
  | .lbu g _ _ _ | .lh g _ _ _ | .lhu g _ _ _ | .lw g _ _ _ | .lwu g _ _ _ | .ld g _ _ _
  | .ldf g _ _ _ | .ldv g _ _ _ | .sb g _ _ _ | .sh g _ _ _ | .sw g _ _ _ | .sd g _ _ _
  | .stf g _ _ _ | .stv g _ _ _ | .storeBufferEntryLeave g | .lda g _ _ | .sta g _ _ | .aadd g _ _
  | .aswap g _ _ | .acas g _ _ | .aand g _ _ | .aor g _ _ | .amin g _ _ | .amax g _ _ | .aminu g _ _
  | .amaxu g _ _ | .fenceLl g _ | .fenceSs g _ | .fenceAll g _ | .codesync g _ _ | .stash g _ _
  | .cflush g _ _ | .cinvAll g _ _ | .pwb g _ _ | .psync g _ _ | .pstntD g _ | .pstntV g _
  | .pstntSend g | .tinvVa g _ _ | .tinvAsid g _ _ | .tinvAll g _ _ | .tinvIpa g _ _
  | .tinvVmid g _ _ | .tinvHAll g _ _ | .tsync g _ _ | .tsyncComplete g | .btbflush g _ _
  | .mfsr g _ | .mtsr g _ | .eret g _ | .sys g _ | .hcall g _ | .brk g _ | .wait g _ | .waitWake g
  | .park g _ | .secallBusy g _ _ | .create g _ _ | .addPage g _ _ | .addZero g _ _
  | .sealDomain g _ _ | .enter g _ _ | .accept g _ _ | .release g _ _ | .report g _ _
  | .shareRegs g _ _ | .exit g _ _ | .destroy g _ _ | .reclaim g _ _ | .query g _ _ => strandOk g
  | .refillInstall req i _ => reqOk req && strandOk i
  | .ioiqEnable req _ => reqOk req
  | .invDt | .invRid | .invVa | .invIpa | .invVmid | .invAll | .ioiqWait => true
  | .cacheEnable req t u _ | .cacheDisable req t u _ => reqOk req && t < 144 && unitOk u
  | .disableComplete t x => t < 144 && arrayOk x
  | .rds g src _ _ | .rdx g src _ | .upg g src | .stashRequest g src _ _ _ =>
    lineOk g && agentOk src
  | .farAtomicRequest g src _ dbl off _ _ => lineOk g && agentOk src && off + (if dbl then 8 else 4) ≤ 64
  | .wbm g src _ _ _ _ | .evc g src _ _ => lineOk g && agentOk src
  | .fwds c g requester _ _ | .fwdx c g requester _ => coreOk c && lineOk g && agentOk requester
  | .inv c g => coreOk c && lineOk g
  | .ackFwd g src _ _ | .ackInv g src => lineOk g && agentOk src
  | .ackGrant c g _ _ | .ackWb c g _ => coreOk c && lineOk g
  | .ackDone g src | .ackHint g src | .absent g src => lineOk g && agentOk src
  | .data dst src g _ _ _ _ => (dst.map agentOk).getD true && agentOk src && lineOk g
  | .retry c g | .requestResend c g => coreOk c && lineOk g
  | .forwardTimeout g dst => lineOk g && agentOk dst
  | .socketRemoval d => d < 8
  | .frameTick | .chainTickPulse _ | .tickLoss | .resyncStart => true
  | .resyncReq req _ => reqOk req
  | .resyncTimeout => true
  | .taskAbandon task => taskOk task
  | .creditRequest n c _ => n < 8 && coreOk c
  | .intakeAccept n | .intakeMediaWrite n => n < 8
  | .epochClosed => true
  | .persistWriteFailed n g => n < 8 && lineOk g
  | .wearMove n granule => n < 8 && granule < 131072
  | .wearMoveSwitch n | .governorMinute n => n < 8
  | .pwrfail | .powerFail => true
  | .brownout r => r < 10
  | .drainTest req _ => reqOk req
  | .strandHalt g => strandOk g
  | .peatDone src | .dramDone src => src < 8
  | .p2Deadline => true
  | .canaryWrite n => n < 16
  | .retainAssert | .retainHeldClear | .ledgerDrainStop | .drainReportWrite | .drainComplete
  | .powerUp _ => true
  | .strandRestore req _ | .imagesRelease req _ => reqOk req
  | .blockInit b => b < 2 ^ 26
  | .pwrgoodFall => true
  | .memoryRead g group keyid _ | .memoryWrite g group keyid _ _ =>
    lineOk g && group < 16 && keyid < 65536
  | .refresh n | .retrainingPause n | .dimmThermalRead n _ | .coefficientStore n _ => n < 16
  | .retrainGo req n _ => reqOk req && n < 16
  | .neighbourRefresh n bank row => n < 16 && bank < 512 && row < 2 ^ 18
  | .rowguardTableClear n => n < 16
  | .rowguardRelease req n _ => reqOk req && n < 16
  | .patrolScrub n _ => n < 16
  | .scrubRewrite req n _ | .scrubSkip req n _ => reqOk req && n < 16
  | .evacStart req _ => reqOk req
  | .evacSwitch | .evacBackgroundMove _ | .evacComplete | .channelRetire | .bucketDecay
  | .confirmationTest _ _ _ => true
  | .routeRecompute l => l < 264
  | .errEventTimeout => true
  | .coreTransplant c _ | .sourceCoreTest c _ => coreOk c
  | .xplantGo req _ => reqOk req
  | .p2Go | .p3Go | .p4Go => true
  | .drainStepTimeout phase => 2 ≤ phase && phase ≤ 4
  | .errTailWrite req _ => reqOk req
  | .injectionArm req grp _ => reqOk req && 1 ≤ grp && grp ≤ 22
  | .sliceTest e _ => e < 6
  | .sliceGo req e _ | .sliceRepair req e _ | .sliceSkip req e _ => reqOk req && e < 6
  | .mbClaim req _ | .mbRelease req _ _ => reqOk req
  | .mbClaimLapse _ | .keyGenerate | .keyClear | .rollbackCommit | .fuseSession _ | .debugNonce
  | .debugUnlock _ | .linkSecretGen | .ideKeySet | .getVersion _ | .getCapabilities _
  | .negotiateAlgorithms _ _ | .getDigests _ | .getCertificate _ _ | .challenge _ _ _
  | .getMeasurements _ _ _ => true
  | .linkRekey n => n < 8
  | .dmaRead q _ | .dmaWrite q _ _ _ | .atomicop q _ _ _ _ => dmaOk q
  | .completionTimeout pt | .surpriseDown pt | .dpcTrigger pt | .dpcRelease pt _ | .slotSample pt _
  | .slotControlWrite pt _ => pt < 80
  | .kportRetireGo req pt _ => reqOk req && pt < 80
  | .sscApply n => n < 20
  | .portIdle pt => pt < 80
  | .sqDoorbell q _ | .descriptorFetch q | .copy q _ | .fill q _ | .append q _ | .digest q _
  | .encrypt q _ | .compare q _ | .stashcopy q _ | .completionWrite q _ | .queueEnable q _
  | .qpAssign q _ => q < 8192
  | .streamEnable st _ | .streamDisable st _ => st < 4096
  | .flr f | .d3hotEntry f => f < 2048
  | .vfEnable _ numVfs => numVfs < 2048
  | .busMasterEnable f _ | .quiesceComplete f => f < 2048
  | .dlogGen v _ | .dlogGenAck v | .dlogRingHeadWrite v _ => 1 ≤ v && v < 2048
  | .enumRetry | .ping | .echo _ | .frameStart _ => true
  | .enum v _ => v < 8
  | .delay h dUp => h < 1024 && dUp < 65536
  | .comp c => c < 65536
  | .resyncReport src _ => src < 8
  | .resyncSet _ | .check _ | .ringCloseCheck _ _ | .chainMessageReturn _ | .chainBreak => true
  | .ready m | .abort m | .arm m | .armed m | .confirm m | .activated m | .notActivated m =>
    m.src < 8
  | .sorusData _ _ _ => true
  | .linkMap src _ | .mapExchange src _ _ | .seMsg src _ | .stewardMsg src _ => src < 8
  | .flitReceive n _ _ lane _ => n < 8 && lane < 24
  | .linkTraining n _ | .linkBlockLockLoss n => n < 8
  | .flRetireGo req n _ => reqOk req && n < 8
  | .interruptMessage _ _ _ _ => true
  | .irSend req _ | .irWake req _ | .irInv req _ => reqOk req
  | .bind req i _ | .unbind req i _ => reqOk req && strandOk i
  | .socketEvent e => e < 8
  | .refclkLoss => true
  | .pllSettle p => p < 197
  | .tileRatioWrite req t _ => reqOk req && t < 144
  | .vidAck f _ | .vidTimeout f => f < 4
  | .powerThrottle _ => true
  | .thermalThrottle t _ => t < 144
  | .deepParkEntry c => coreOk c
  | .coldResetPin => true
  | .coldReset req _ | .warmReset req _ | .strandReset req _ => reqOk req
  | .thermtrip | .overtempClockStop | .entdaa _ | .setdasa _ _ | .setEndpointId _ | .getEndpointId
  | .getMctpVersionSupport | .getMessageTypeSupport | .eventMessageTimeout | .smbQueueTimeout
  | .getInfo _ | .cfgRead _ _ | .cfgWrite _ _ _ | .cfgDefaults _ | .errRead _ _ _ | .tlmRead _ _ _
  | .reset _ _ _ | .repairClear _ _ | .sorusChunk _ _ _ _ _ _ _ | .updateStart _ _ | .updateStatus _
  | .updateAbort _ | .updateDeadline | .confirmSend | .activationSwitch => true
  | .firmwareOverwrite c u _ => 1 ≤ c && c ≤ 5 && u < 288
  | .illegalInstruction g _ => strandOk g
  | .pwrfailNRise _ | .refclkReturn => true
  | .pcieLinkUp pt | .portCompletion pt _ => pt < 80
  | .seHalt | .randomHealthTest _ | .stewardAcknowledge => true

end Sys2Proof
end

