-- ==== Sys2Proof/Machine/Ops.lean ====
section
/-!
DEFINITION. The named operations over the state that every family of commands shares: fields of words and
of the register space, free values, the records kept by index, pending interrupts, socket events, error
records (R345 to R352), the registers of a strand, system registers and the mode shadow (R54 to R62, R76 to
R81), taking an exception or interrupt (R63 to R70) and returning from one (R68, R399).
-/

namespace Sys2Proof.Machine

open Sys2Proof

/-! ### Fields of words -/

/-- Bits [lo + width - 1 : lo] of a word. -/
def getF (w : Word) (lo width : Nat) : Nat := w.toNat / 2 ^ lo % 2 ^ width

/-- The word with bits [lo + width - 1 : lo] replaced. -/
def putF (w : Word) (lo width x : Nat) : Word :=
  word (w.toNat % 2 ^ lo + x % 2 ^ width * 2 ^ lo + w.toNat / 2 ^ (lo + width) * 2 ^ (lo + width))

/-- Bit i of a word. -/
def bitOf (w : Word) (i : Nat) : Bool := w.toNat / 2 ^ i % 2 == 1

/-- Bit i of a number. -/
def natBit (n i : Nat) : Bool := n / 2 ^ i % 2 == 1

/-- 1 for true. -/
def bnat (b : Bool) : Nat := if b then 1 else 0

/-- The field's value in a register word. -/
def Field.get (f : Field) (w : Word) : Nat := getF w f.lo f.width

/-- The register word with the field replaced. -/
def Field.put (f : Field) (w : Word) (x : Nat) : Word := putF w f.lo f.width x

/-! ### The register space -/

/-- The register at an offset. -/
def Dev.reg (d : Dev) (off : Nat) : Word := SMap.get coldValue d.regs off

/-- The device with the register at an offset replaced. -/
def Dev.setReg (d : Dev) (off : Nat) (v : Word) : Dev :=
  { d with regs := SMap.set coldValue d.regs off v }

/-- A field's value. -/
def Dev.fld (d : Dev) (f : Field) : Nat := f.get (d.reg f.reg)

/-- A one-bit field. -/
def Dev.flag (d : Dev) (f : Field) : Bool := d.fld f != 0

/-- The device with a field replaced. -/
def Dev.setFld (d : Dev) (f : Field) (x : Nat) : Dev := d.setReg f.reg (f.put (d.reg f.reg) x)

/-- A counter field, saturating at all ones. -/
def Dev.addSat (d : Dev) (f : Field) (n : Nat) : Dev :=
  d.setFld f (Nat.min (d.fld f + n) (2 ^ f.width - 1))

/-- A counter field that wraps. -/
def Dev.addWrap (d : Dev) (f : Field) (n : Nat) : Dev := d.setFld f (d.fld f + n)

/-- The frame number (R246). -/
def Dev.frame (d : Dev) : Word := d.reg R.FRAME_NUMBER.reg

/-- The socket's ID (R37). -/
def Dev.self (d : Dev) : Nat := d.fld R.IDENT_SOCKET_ID

/-- Whether boot-lock has been performed (R38). -/
def Dev.locked (d : Dev) : Bool := d.flag R.LOCK_BOOT_LOCK

/-- Whether function n of the duty split is software's (R359). -/
def Dev.duty (d : Dev) (n : Nat) : Bool := natBit (d.fld R.DUTY_FUNC) n

/-! ### Free values (log entry 5) -/

/-- A free word. -/
def Dev.drawWord (d : Dev) : Word × Dev := (Config.freeWord d.free, { d with free := d.free + 1 })

/-- A free choice. -/
def Dev.drawBool (d : Dev) : Bool × Dev := (Config.freeBool d.free, { d with free := d.free + 1 })

/-- A free line. -/
def Dev.drawLine (d : Dev) : Line × Dev := (Config.freeLine d.free, { d with free := d.free + 1 })

/-- A random word of the SE's source (R381). -/
def Dev.drawRandom (d : Dev) : Word × Dev := (Config.randomWord d.free, { d with free := d.free + 1 })

/-! ### The records kept by index -/

def Dev.pm (d : Dev) (l : Nat) : Pmode := SMap.get (fun _ => {}) d.pmode l
def Dev.setPm (d : Dev) (l : Nat) (x : Pmode) : Dev :=
  { d with pmode := SMap.set (fun _ => {}) d.pmode l x }

def Dev.chan (d : Dev) (n : Nat) : Chan := SMap.get (fun _ => {}) d.chans n
def Dev.setChan (d : Dev) (n : Nat) (x : Chan) : Dev :=
  { d with chans := SMap.set (fun _ => {}) d.chans n x }

def Dev.stack (d : Dev) (n : Nat) : Stack := SMap.get (fun _ => {}) d.pstacks n
def Dev.setStack (d : Dev) (n : Nat) (x : Stack) : Dev :=
  { d with pstacks := SMap.set (fun _ => {}) d.pstacks n x }

def Dev.tracker (d : Dev) (c : Nat) : Tracker := SMap.get (fun _ => {}) d.trackers c
def Dev.setTracker (d : Dev) (c : Nat) (x : Tracker) : Dev :=
  { d with trackers := SMap.set (fun _ => {}) d.trackers c x }

def Dev.unitAt (d : Dev) (kind inst : Nat) : ErrUnit :=
  SMap.get (fun _ => {}) d.units (kind * 65536 + inst)
def Dev.setUnit (d : Dev) (kind inst : Nat) (x : ErrUnit) : Dev :=
  { d with units := SMap.set (fun _ => {}) d.units (kind * 65536 + inst) x }

def Dev.port (d : Dev) (p : Nat) : Port := SMap.get (fun _ => {}) d.ports p
def Dev.setPort (d : Dev) (p : Nat) (x : Port) : Dev :=
  { d with ports := SMap.set (fun _ => {}) d.ports p x }

def Dev.queue (d : Dev) (q : Nat) : Queue := SMap.get (fun _ => {}) d.queues q
def Dev.setQueue (d : Dev) (q : Nat) (x : Queue) : Dev :=
  { d with queues := SMap.set (fun _ => {}) d.queues q x }

def Dev.stream (d : Dev) (t : Nat) : Stream := SMap.get (fun _ => {}) d.streams t
def Dev.setStream (d : Dev) (t : Nat) (x : Stream) : Dev :=
  { d with streams := SMap.set (fun _ => {}) d.streams t x }

def Dev.func (d : Dev) (f : Nat) : Func := SMap.get (fun _ => {}) d.funcs f
def Dev.setFunc (d : Dev) (f : Nat) (x : Func) : Dev :=
  { d with funcs := SMap.set (fun _ => {}) d.funcs f x }

def Dev.link (d : Dev) (n : Nat) : Link := SMap.get (fun _ => {}) d.links n
def Dev.setLink (d : Dev) (n : Nat) (x : Link) : Dev :=
  { d with links := SMap.set (fun _ => {}) d.links n x }

def Dev.slot (d : Dev) (k : Nat) : KeySlot := SMap.get slotDefault d.slots k
def Dev.setSlot (d : Dev) (k : Nat) (x : KeySlot) : Dev :=
  { d with slots := SMap.set slotDefault d.slots k x }

def Dev.domain (d : Dev) (i : Nat) : Option Domain := SMap.get (fun _ => none) d.domains i
def Dev.setDomain (d : Dev) (i : Nat) (x : Option Domain) : Dev :=
  { d with domains := SMap.set (fun _ => none) d.domains i x }

def Dev.granule (d : Dev) (n k : Nat) : Granule := SMap.get wearDefault d.wear (n * 131072 + k)
def Dev.setGranule (d : Dev) (n k : Nat) (x : Granule) : Dev :=
  { d with wear := SMap.set wearDefault d.wear (n * 131072 + k) x }

def Dev.ringAt (d : Dev) (i : Nat) : Option Record := SMap.get (fun _ => none) d.ring i

def Dev.image (d : Dev) (g : Nat) : Option Image := SMap.get (fun _ => none) d.images g
def Dev.setImage (d : Dev) (g : Nat) (x : Option Image) : Dev :=
  { d with images := SMap.set (fun _ => none) d.images g x }

/-! ### Logical and physical cores (R42, R43) -/

/-- The physical core that serves logical core l. -/
def Dev.phys (d : Dev) (l : Nat) : Nat := d.fld (R.CORE_MAP_PHYS.at (8 * l))

/-- Whether logical core l is served. -/
def Dev.coreThere (d : Dev) (l : Nat) : Bool := d.flag (R.CORE_MAP_PRESENT.at (8 * l))

/-- The state of physical core c (R23). -/
def Dev.coreState (d : Dev) (c : Nat) : Nat := d.fld (R.CORE_STATE_STATE.at (8 * c))

def Dev.setCoreState (d : Dev) (c x : Nat) : Dev := d.setFld (R.CORE_STATE_STATE.at (8 * c)) x

/-- A register of the block of core c in its tile: base field, stride of the core's block. -/
def tileAt (f : Field) (c stride : Nat) : Field := f.at (0x10000 * (c / 2) + stride * (c % 2))

/-! ### Interrupts and socket events (R466 to R481) -/

/-- Sets vector v pending for strand i of the socket (R474); a vector already pending stays so once. -/
def Dev.setPend (d : Dev) (i v : Nat) : Dev :=
  let off := R.PEND_BITS.reg + 0x100 * i + 8 * (v / 64)
  d.setReg off (d.reg off ||| word (2 ^ (v % 64)))

/-- Clears vector v of strand i (R468). -/
def Dev.clearPend (d : Dev) (i v : Nat) : Dev :=
  let off := R.PEND_BITS.reg + 0x100 * i + 8 * (v / 64)
  d.setReg off (d.reg off &&& ~~~ (word (2 ^ (v % 64))))

/-- Direct delivery of a vector to a global strand ID (R474, R483). A target in another coherent socket is
forwarded there and leaves the model. -/
def Dev.deliver (d : Dev) (target v : Nat) : Dev :=
  if v % 1024 == 0 || v % 1024 == 1023 then d.addSat R.IR_DROP_INVALID 1
  else if target / 512 % 8 != d.self then
    if natBit (d.fld R.CHAIN_STATUS_COHERENT) (target / 512 % 8) then d
    else d.addSat R.IR_DROP_ABSENT 1
  else if d.coreThere (target % 512 / 2) then d.setPend (target % 512) (v % 1024)
  else d.addSat R.IR_DROP_ABSENT 1

/-- Whether event line e is high (R479): `TICK_EVENT` (R260) or `ERR_EVENT` (R362). -/
def Dev.lineHigh (d : Dev) (e : Nat) : Bool :=
  if e == 0 then
    (d.reg R.TICK_EVENT_LOST.reg &&& d.reg R.TICK_EVENT_EN_BITS.reg) != 0
  else if e == 1 then
    (d.reg R.ERR_EVENT_RECORD.reg &&& d.reg R.ERR_EVENT_EN_BITS.reg) != 0
  else false

/-- Delivers event line e where it is routed (R479). -/
def Dev.routeEvent (d : Dev) (e : Nat) : Dev :=
  if d.flag (R.IR_EVROUTE_EN.at (8 * e)) then
    d.deliver (d.fld (R.IR_EVROUTE_TARGET.at (8 * e))) (d.fld (R.IR_EVROUTE_VECTOR.at (8 * e)))
  else d

/-- Delivers each event line that has risen between two states (R479). -/
def Dev.rise (old new : Dev) : Dev :=
  let n := if new.lineHigh 0 && !old.lineHigh 0 then new.routeEvent 0 else new
  if new.lineHigh 1 && !old.lineHigh 1 then n.routeEvent 1 else n

/-- Sets bits of `TICK_EVENT` (R260). -/
def Dev.tickEvent (d : Dev) (f : Field) : Dev := d.rise (d.setFld f 1)

/-- Sets bits of `ERR_EVENT` at once (R362). -/
def Dev.errEventNow (d : Dev) (bits : Nat) : Dev :=
  d.rise (d.setReg R.ERR_EVENT_RECORD.reg (d.reg R.ERR_EVENT_RECORD.reg ||| word bits))

/-- Raises the socket event of an assisted function (R359, R469). -/
def Dev.dutyEvent (d : Dev) : Dev := d.errEventNow 32

/-- The `ERR_EVENT` bits of a record: held for the steward while ERRFIRST is 0 (R350). -/
def Dev.errEvent (d : Dev) (bits : Nat) : Dev :=
  if d.duty 10 then d.errEventNow bits else { d with evHeld := d.evHeld ||| bits }

/-! ### Error records (R345, R346) -/

/-- What a unit reports (R345); the ring adds the frame, the count and the sequence. -/
structure Rep where
  source : Nat
  inst : Nat := 0
  cls : Nat
  action : Nat := 0
  requester : Nat := 0xFFF
  address : Nat := 0
  syndrome : Nat := 0
  bucket : Nat := 0
  location : Nat := 0
  deriving DecidableEq, Repr

/-- The number of unread records (R346, R361). -/
def Dev.unread (d : Dev) : Nat :=
  if d.flag R.ERR_HEAD_FULL then 1024
  else (d.fld R.ERR_HEAD_INDEX + 1024 - d.fld R.ERR_TAIL_INDEX) % 1024

/-- The newest record's index. -/
def Dev.newest (d : Dev) : Nat := (d.fld R.ERR_HEAD_INDEX + 1023) % 1024

/-- Whether a report is merged into the newest record (R346). -/
def Dev.merges (d : Dev) (r : Rep) : Bool :=
  match d.ringAt d.newest with
  | none => false
  | some o => o.source == r.source && o.inst == r.inst && o.location == r.location
      && o.cls == r.cls && o.action == r.action && o.frame == d.frame

/-- The event bits of a record (R362). -/
def recordBits (r : Rep) (lost : Bool) : Nat :=
  1 + (if r.action == 1 then 2 else 0) + (if r.cls == 4 then 4 else 0) + (if r.cls == 3 then 8 else 0)
    + (if lost then 16 else 0)

/-- A record of class uncontained asserts `FAULT_N` (R352). -/
def Dev.faultIf (d : Dev) (b : Bool) : Dev :=
  if b then { d.setFld R.ERR_STATUS_FAULT 1 with faultN := true } else d

/-- A vendor message to the BMC (R507), when an endpoint is configured: a kind (0 record, 1 update phase, 2 restart of
the steward) and its number. -/
def Dev.bmcEvent (d : Dev) (kind n : Nat) : Dev :=
  if d.fw.schema < d.fw.cfgSchema || (SMap.get (fun _ => []) d.fw.cfg 0x600).isEmpty then d
  else
    { d with
      fw := { d.fw with
        msgs := d.fw.msgs ++ [[0x80, BitVec.ofNat 8 kind, BitVec.ofNat 8 n, BitVec.ofNat 8 (n / 256)]] } }

/-- Appends a record at `ERR_HEAD`, overwriting the oldest unread one when the ring is full (R346). -/
def Dev.appendRecord (d : Dev) (r : Rep) : Dev :=
  let h := d.fld R.ERR_HEAD_INDEX
  let full := d.flag R.ERR_HEAD_FULL
  let rec' : Record :=
    ⟨r.source, r.inst, r.cls, r.action, r.requester, r.address, r.syndrome, d.frame, 1, r.bucket,
      r.location, d.fld R.ERR_HEAD_TOTAL⟩
  let d := { d with ring := SMap.set (fun _ => none) d.ring h (some rec') }
  let d := if full then
      (d.setFld R.ERR_TAIL_INDEX (d.fld R.ERR_TAIL_INDEX + 1)).addSat R.ERR_STATUS_LOST 1
    else d
  let d := (d.setFld R.ERR_HEAD_INDEX (h + 1)).addWrap R.ERR_HEAD_TOTAL 1
  let d := d.setFld R.ERR_HEAD_FULL
    (bnat (full || (d.fld R.ERR_HEAD_INDEX == d.fld R.ERR_TAIL_INDEX)))
  let d := if 2 ≤ r.cls then d.bmcEvent 0 h else d
  (d.faultIf (r.cls == 3)).errEvent (recordBits r full)

/-- Writes an error record (R345, R346); the index it is held at. -/
def Dev.record (d : Dev) (r : Rep) : Dev × Nat :=
  if d.merges r then
    match d.ringAt d.newest with
    | some o =>
      let o' := { o with count := Nat.min (o.count + 1) (2 ^ 32 - 1) }
      ({ d with ring := SMap.set (fun _ => none) d.ring d.newest (some o') }, d.newest)
    | none => (d, d.newest)
  else (d.appendRecord r, d.fld R.ERR_HEAD_INDEX)

/-- Writes an error record. -/
def Dev.log (d : Dev) (r : Rep) : Dev := (d.record r).1

/-! ### Retry, then retire (R337 to R340) -/

/-- The threshold of a kind (R361). -/
def Dev.threshold (d : Dev) (kind : Nat) : Nat :=
  Nat.max 1 (d.fld (R.ERR_THRESH_THRESH.at (8 * kind)))

/-- The SOURCE of a kind of unit (R336, R345). -/
def kindSource (kind : Nat) : Nat :=
  if kind == 0 then 1 else if kind == 1 then 0xA else if kind == 2 then 0xB else if kind == 3 then 9
  else if kind == 4 then 3 else if kind == 5 then 7 else if kind == 6 then 8 else 0x13

/-- A unit becomes a candidate (R338), unless it already is one, or is retired (R340). A third candidacy
within 2^30 frames needs no test (R339). -/
def Dev.candidate (d : Dev) (kind inst cls : Nat) (address : Nat) : Dev :=
  let u := d.unitAt kind inst
  if u.candidate || u.retired then d
  else
    let d := d.setUnit kind inst { u with
      candidate := true
      candidacies := (d.frame :: u.candidacies).take 3 }
    d.log { source := kindSource kind, inst := inst, cls := cls, action := 1, address := address,
            bucket := u.bucket }

/-- A transient error of a unit: the record, the bucket, and the candidacy at the threshold (R337, R338). -/
def Dev.transient (d : Dev) (kind inst : Nat) (r : Rep) : Dev :=
  let u := d.unitAt kind inst
  let b := Nat.min (u.bucket + 1) 255
  let d := d.setUnit kind inst { u with bucket := b }
  let d := d.log { r with cls := 0, bucket := b }
  if d.threshold kind ≤ b then d.candidate kind inst 1 r.address else d

/-- Whether this is a unit's third candidacy within 2^30 frames (R339). -/
def Dev.thirdCandidacy (d : Dev) (kind inst : Nat) : Bool :=
  match (d.unitAt kind inst).candidacies with
  | _ :: _ :: t :: _ => decide (d.frame.toNat < t.toNat + 2 ^ 30)
  | _ => false

/-! ### Outcomes -/

/-- A command that acts on the device alone. -/
def onDev (ok : Bool) (s : State) (f : Dev → Dev) : Host.Outcome State Fault Refusal :=
  if ok then .next { s with dev := f s.dev } else .fault .noSuchUnit

/-- The memory controller's clock in MHz (R313, R488). -/
def mcMHz (rate : Nat) : Nat :=
  if rate == 0 then 1200 else if rate == 1 then 1400 else if rate == 2 then 1600 else 2000

/-- Whether the socket keeps the clock relations of R489: the standard plan, and the mesh at 1.15 times
every memory controller's clock. -/
def Dev.clocksOk (d : Dev) : Bool :=
  d.flag R.CLK_STATUS_PLAN_STD &&
  (List.range 16).all fun n =>
    115 * mcMHz (d.fld (R.MC_CFG_RATE.at (0x40000 * n))) ≤ 100 * (50 * d.fld R.CLK_STATUS_MESH)

/-- A data-plane command that acts on the device alone (R489). -/
def onData (ok : Bool) (s : State) (f : Dev → Dev) : Host.Outcome State Fault Refusal :=
  if !ok then .fault .noSuchUnit
  else if s.dev.clocksOk then .next { s with dev := f s.dev } else .fault .outsideClockRelations

/-! ### Strands and their registers (R47 to R49) -/

/-- Strand g of the socket. -/
def State.strand (s : State) (g : Nat) : Strand := SMap.get (fun _ => Strand.reset) s.strands g

/-- The state with strand g replaced. -/
def State.setStrand (s : State) (g : Nat) (x : Strand) : State :=
  { s with strands := SMap.set (fun _ => Strand.reset) s.strands g x }

/-- A general register: n0 reads as 0 (R48). -/
def Strand.getN (x : Strand) (r : Reg) : Word :=
  if r = 0 then 0 else SMap.get (fun _ => 0) x.n r.toNat

/-- Writes a general register; a write to n0 is discarded (R48). -/
def Strand.setN (x : Strand) (r : Reg) (v : Word) : Strand :=
  if r = 0 then x else { x with n := SMap.set (fun _ => 0) x.n r.toNat v }

/-- A vector register. -/
def Strand.getV (x : Strand) (r : Reg) : VWord := SMap.get (fun _ => 0) x.v r.toNat

/-- Writes a vector register. -/
def Strand.setV (x : Strand) (r : Reg) (w : VWord) : Strand :=
  { x with v := SMap.set (fun _ => 0) x.v r.toNat w }

/-- Bits [63:0] of a vector register (R49). -/
def Strand.getD (x : Strand) (r : Reg) : Word := (x.getV r).setWidth 64

/-- A scalar result: bits [255:64] become 0 (R49). -/
def Strand.setD (x : Strand) (r : Reg) (w : Word) : Strand := x.setV r (w.setWidth 256)

/-- Writes the register that an instruction names. -/
def Strand.setRef (x : Strand) (r : RegRef) (w : VWord) : Strand :=
  match r with
  | .n r => x.setN r (w.setWidth 64)
  | .v r => x.setV r w

def Strand.pl (x : Strand) : Nat := getF x.status 0 2
def Strand.ie (x : Strand) : Bool := bitOf x.status 2
def Strand.sealedB (x : Strand) : Bool := bitOf x.status 8
def Strand.vec (x : Strand) : Bool := bitOf x.status 9
def Strand.te (x : Strand) : Bool := bitOf x.status 10
def Strand.hpsealed (x : Strand) : Bool := bitOf x.hstatus 38

/-- The banked registers of a level. -/
def Strand.bank (x : Strand) (lvl : Nat) : Bank := if lvl == 2 then x.bankH else x.bankS

def Strand.setBank (x : Strand) (lvl : Nat) (b : Bank) : Strand :=
  if lvl == 2 then { x with bankH := b } else { x with bankS := b }

/-- The global strand ID of strand g (R40, R482). -/
def Dev.globalId (d : Dev) (g : Nat) : Nat := d.self * 512 + g

/-! ### Performance monitors (R159 to R161) -/

/-- Counts an event of strand g in counter i of its core, when the counter selects it. -/
def Dev.countOne (d : Dev) (c g lvl ev i : Nat) : Dev :=
  let ctl := d.reg ((tileAt R.PMC_CTL_EVENT c 0x800).reg + 8 * i)
  if bitOf ctl 15 && getF ctl 0 10 == ev && bitOf ctl (10 + g % 2) && bitOf ctl (12 + lvl) then
    d.addWrap ((tileAt R.PMC_COUNT c 0x800).at (8 * i)) 1
  else d

/-- Counts an event of a strand at its level, unless it runs sealed (R161). -/
def Dev.count (d : Dev) (g : Nat) (x : Strand) (ev : Nat) : Dev :=
  if x.sealedB then d
  else
    let c := d.phys (g / 2)
    (List.range 8).foldl (fun d i => d.countOne c g x.pl ev i) d

/-! ### Masks of the system registers (R56 to R62, R538) -/

/-- STATUS after a write (R56): PPL takes 0 or 1 only; PL and SEALED keep. -/
def statusWrite (old v : Word) : Word :=
  let w := putF old 2 2 (getF v 2 2)
  let w := if getF v 4 2 < 2 then putF w 4 2 (getF v 4 2) else w
  let w := putF w 6 2 (getF v 6 2)
  putF w 9 2 (getF v 9 2)

/-- HSTATUS after a write (R57): the EDELEG bits 0, 0x0B, 0x0D, 0x0E and 0x11 read 0; HPPL takes no 3. -/
def hstatusWrite (old v : Word) : Word :=
  let w := putF old 0 18 (getF (v &&& word 0x197FE) 0 18)
  let w := putF w 18 16 (getF v 18 16)
  let w := if getF v 34 2 < 3 then putF w 34 2 (getF v 34 2) else w
  let w := putF w 36 2 (getF v 36 2)
  putF w 39 1 (getF v 39 1)

/-- CAUSE keeps [25:0] and [63] (R58). -/
def causeMask (v : Word) : Word := v &&& word 0x8000000003FFFFFF

/-- FSYN keeps [8:0], [15:12] and [25:16] (R59). -/
def fsynMask (v : Word) : Word := v &&& word 0x3FFF1FF

/-- An address register whose bits [1:0] read 0. -/
def align4 (v : Word) : Word := putF v 0 2 0

/-- A table base: bits [51:12] (R538). -/
def ttbMask (v : Word) : Word := v &&& word 0xFFFFFFFFFF000

/-- Whether a number is a mode-bearing register (R76): its low 11 bits. -/
def modeBearing (sr : BitVec 12) : Bool :=
  let k := sr.toNat % 2048
  k == 0 || k == 6 || k == 0x10 || k == 0x11 || k == 0x12 || k == 0x13 || k == 0x14 || k == 0x15

/-- Whether a number is listed (R54, R55): bit 11 only on the banked registers. -/
def srListed (sr : BitVec 12) : Bool :=
  let k := sr.toNat
  let b := k % 2048
  let banked := (1 ≤ b && b ≤ 6) || (8 ≤ b && b ≤ 0xB)
  if k ≥ 2048 then banked
  else banked || k == 0 || (0x10 ≤ k && k ≤ 0x15) || (0x20 ≤ k && k ≤ 0x22) || k == 0x30

/-- The levels that may read a listed number (R54, R55): the lowest of them. -/
def srReadLevel (sr : BitVec 12) : Nat :=
  let k := sr.toNat
  if k ≥ 2048 then 2
  else if k == 0x20 || k == 0x21 then 0
  else if k == 0x13 || k == 0x15 || k == 0x30 then 2 else 1

/-- The lowest level that may write a listed number (R54); an S write of PMODE needs PMLOCK = 0; a write
of FRAMENO raises nothing. -/
def srWriteLevel (x : Strand) (sr : BitVec 12) : Nat :=
  let k := sr.toNat
  if k ≥ 2048 then 2
  else if k == 0x21 then 0
  else if k == 0x13 || k == 0x15 || k == 0x20 || k == 0x30 then 2
  else if k == 0x10 && bitOf x.hstatus 39 then 2 else 1

/-- The level whose copy a number names (R55). -/
def srBankLevel (sr : BitVec 12) (lvl : Nat) : Nat := if sr.toNat ≥ 2048 then 1 else lvl

/-- Reads a banked register. -/
def Bank.get (b : Bank) (k : Nat) : Word :=
  if k == 1 then b.epc else if k == 2 then b.cause else if k == 3 then b.faddr
  else if k == 4 then b.fipa else if k == 5 then b.fsyn else if k == 6 then b.vbase
  else if k == 8 then b.s0 else if k == 9 then b.s1 else if k == 0xA then b.s2 else b.s3

/-- Writes a banked register under its field map. -/
def Bank.put (b : Bank) (k : Nat) (v : Word) : Bank :=
  if k == 1 then { b with epc := align4 v } else if k == 2 then { b with cause := causeMask v }
  else if k == 3 then { b with faddr := v } else if k == 4 then { b with fipa := v }
  else if k == 5 then { b with fsyn := fsynMask v } else if k == 6 then { b with vbase := putF v 0 12 0 }
  else if k == 8 then { b with s0 := v } else if k == 9 then { b with s1 := v }
  else if k == 0xA then { b with s2 := v } else { b with s3 := v }

/-- PMODE as it reads (R60). -/
def pmodeWord (p : Pmode) (s1parked : Bool) : Word :=
  word (bnat p.mode + 2 * bnat p.active + 4 * bnat p.refused + 8 * bnat s1parked)

/-- The value that an MFSR of a listed number at a level gives (R54, R55, R79); CYCLES has its own row. -/
def srRead (s : State) (g : Nat) (sr : BitVec 12) : Word :=
  let x := s.strand g
  let k := sr.toNat % 2048
  if k == 0 then x.status
  else if k == 0x10 then pmodeWord (s.dev.pm (g / 2)) (s.strand (2 * (g / 2) + 1)).parked
  else if k == 0x11 then x.tcfg else if k == 0x12 then x.ttb1 else if k == 0x13 then x.ttb2
  else if k == 0x14 then x.asid else if k == 0x15 then x.vmid else if k == 0x20 then x.cycles
  else if k == 0x21 then s.dev.frame else if k == 0x22 then x.timecmp else if k == 0x30 then x.hstatus
  else if sr.toNat ≥ 2048 && x.hpsealed then 0
  else (x.bank (srBankLevel sr x.pl)).get k

/-- The effect of a write of a register of the strand itself, at the level of the write (R54 to R62). -/
def Strand.srWrite (x : Strand) (sr : BitVec 12) (v : Word) (lvl : Nat) : Strand :=
  let k := sr.toNat % 2048
  if k == 0 then { x with status := statusWrite x.status v }
  else if k == 0x11 then
    { x with tcfg := if lvl == 2 then putF 0 0 6 (getF v 0 6) else putF x.tcfg 0 3 (getF v 0 3) }
  else if k == 0x12 then { x with ttb1 := ttbMask v }
  else if k == 0x13 then { x with ttb2 := ttbMask v }
  else if k == 0x14 then { x with asid := word (getF v 0 16) }
  else if k == 0x15 then { x with vmid := word (getF v 0 16) }
  else if k == 0x20 then { x with cycles := v }
  else if k == 0x22 then { x with timecmp := v }
  else if k == 0x30 then { x with hstatus := hstatusWrite x.hstatus v }
  else if k == 0x10 || k == 0x21 then x
  else if sr.toNat ≥ 2048 && x.hpsealed then x
  else
    let b := srBankLevel sr lvl
    x.setBank b ((x.bank b).put k v)

/-! ### The mode shadow (R76 to R81) -/

/-- PMODE when a shadow over it closes (R61, R79, R81): the accepted mode, the cleared REFUSED (a write that was itself
refused leaves it set, log entry 34), and the drain. -/
def Pmode.close (p : Pmode) (v : Word) : Pmode :=
  { p with
    mode := if p.accepted then bitOf v 0 else p.mode
    refused := p.refused && (!bitOf v 2 || (bitOf v 0 && !p.active && !p.accepted))
    draining := p.draining || p.accepted
    accepted := false }

/-- Closes an open shadow of strand g: the pending write takes effect (R80). -/
def State.closeShadow (s : State) (g : Nat) : State :=
  let x := s.strand g
  match x.shadow with
  | none => s
  | some sh =>
    let s := s.setStrand g { x.srWrite sh.sr sh.val sh.lvl with shadow := none }
    if sh.sr.toNat % 2048 == 0x10 then
      { s with dev := s.dev.setPm (g / 2) ((s.dev.pm (g / 2)).close sh.val) }
    else s

/-! ### Sealed exit (R70, R398, R399) -/

/-- The general registers with those outside a mask (bits 31:1) set to 0. -/
def keepShared (shared : BitVec 32) (n : SMap Word) : SMap Word :=
  SMap.filterMap (fun _ => 0) (fun k v => if natBit shared.toNat k then some v else none) n

/-- The general registers outside a mask. -/
def dropShared (shared : BitVec 32) (n : SMap Word) : SMap Word :=
  SMap.filterMap (fun _ => 0) (fun k v => if natBit shared.toNat k then none else some v) n

/-- The STATUS fields IE, PIE, PPL, SLOT, VEC and TE (R70). -/
def statusSaved (w : Word) : Word := w &&& word 0x67C

/-- What a sealed exit saves of a strand (R70), with the PC at which the vCPU goes on. -/
def sealedImage (x : Strand) (shared : BitVec 32) (pc : Word) : Strand :=
  { Strand.reset with
    pc := pc
    n := dropShared shared x.n
    v := x.v
    bankS := x.bankS
    tcfg := word (getF x.tcfg 0 3)
    ttb1 := x.ttb1
    asid := x.asid
    timecmp := x.timecmp
    status := statusSaved x.status }

/-- What a sealed exit leaves in the strand: the saved registers 0 (R70), SEALED 0, the RAS empty (R150). -/
def Strand.clearSealed (x : Strand) (shared : BitVec 32) : Strand :=
  { x with
    n := keepShared shared x.n
    v := []
    bankS := {}
    tcfg := putF x.tcfg 0 3 0
    ttb1 := 0
    asid := 0
    timecmp := 0
    status := x.status &&& ~~~ (word 0x77C)
    ras := []
    inside := none }

/-- Empties a core's branch target buffer (R131, R150). -/
def Dev.flushBtb (d : Dev) (c : Nat) : Dev :=
  { d with btb := SMap.filterMap (fun _ => []) (fun k v => if k / 1024 == c then none else some v) d.btb }

/-- Replaces vCPU i of a domain. -/
def Domain.setVcpu (m : Domain) (i : Nat) (f : Vcpu → Vcpu) : Domain :=
  { m with vcpus := m.vcpus.modify i f }

/-- The sealed exit of strand g (R70): the protected state area receives its registers, with the PC at
which the vCPU resumes, and the strand keeps only what R70 lists. `d` is the register of an EXIT. -/
def State.sealedExit (s : State) (g : Nat) (pc : Word) (d : Option Reg) : State :=
  let x := s.strand g
  match x.inside with
  | none => s.setStrand g (x.clearSealed 0)
  | some (dom, i) =>
    match s.dev.domain dom with
    | none => s.setStrand g { x.clearSealed 0 with lastExit := none }
    | some m =>
      let m' := m.setVcpu i fun v =>
        { v with st := sealedImage x m.shared pc, running := false, exitD := d, exits := v.exits + 1 }
      let n := match m'.vcpus[i]? with
        | some v => v.exits
        | none => 0
      let s := { s with dev := (s.dev.setDomain dom (some m')).flushBtb (s.dev.phys (g / 2)) }
      s.setStrand g { x.clearSealed m.shared with lastExit := some (dom, i, n) }

/-! ### Exception and interrupt entry (R63 to R67) -/

/-- What a cause writes into FSYN (R59, R63). -/
inductive Syn
  | none
  | xlate (level stage s1w kind : Nat)
  | err (src record : Nat)
  | idx (record : Nat)
  deriving DecidableEq, Repr

/-- An exception that an instruction raises. -/
structure Exc where
  code : Nat
  faddr : Option Word := none
  fipa : Option Word := none
  syn : Syn := .none
  deriving DecidableEq, Repr

/-- Whether the entry is for an exception, an interrupt, or strand lost (R67). -/
inductive EntryKind
  | exception
  | interrupt
  | lost
  deriving DecidableEq, Repr

/-- FSYN after an entry: the fields that the cause does not define keep their values (R59). -/
def Syn.apply (y : Syn) (old : Word) : Word :=
  match y with
  | .none => old
  | .xlate level stage s1w kind =>
    putF old 0 9 (level % 8 + 8 * (stage % 2) + 16 * (s1w % 2) + 32 * (kind % 16))
  | .err src record => putF (putF old 12 4 src) 16 10 record
  | .idx record => putF old 16 10 record

/-- FSYN of H after a sealed exit: of a stage-2 fault only LEVEL, STAGE and KIND (R70). -/
def Syn.sealedApply (y : Syn) (old : Word) : Word :=
  match y with
  | .xlate level stage _ kind => word (level % 8 + 8 * (stage % 2) + 32 * (kind % 16))
  | y => y.apply old

/-- The level that an exception is taken to (R63, R65, R350). -/
def excLevel (d : Dev) (x : Strand) (e : Exc) : Nat :=
  let stage2 := match e.syn with
    | .xlate _ st _ _ => st == 1
    | _ => false
  if x.pl == 2 then 2
  else if e.code == 0x0B || e.code == 0x0D || e.code == 0x11 then 2
  else if (e.code == 5 || e.code == 6 || e.code == 7) && stage2 then 2
  else if e.code == 8 && !d.duty 10 then 2
  else if bitOf x.hstatus e.code then 1 else 2

/-- The vector's offset (R67). -/
def vectorOffset (kind : EntryKind) (sealedX same : Bool) : Nat :=
  match kind with
  | .lost => 0x200
  | .interrupt => if sealedX then 0x280 else if same then 0x100 else 0x180
  | .exception => if sealedX then 0x280 else if same then 0 else 0x80

/-- Taking an exception or interrupt at strand g to a level (R66), with EPC, the cause word, the slot flag,
what goes into the fault registers, and where a sealed vCPU resumes. -/
def State.enter (s : State) (g lvl : Nat) (kind : EntryKind) (epc : Word) (cause : Word)
    (slotB : Bool) (faddr fipa : Option Word) (syn : Syn) (exitD : Option Reg) : State :=
  let s := s.closeShadow g
  let s := { s with dev := s.dev.count g (s.strand g) 0x50 }
  let x := s.strand g
  let from0 := x.pl
  let sx := x.sealedB && lvl == 2
  let b := x.bank lvl
  let b' : Bank := { b with
    epc := align4 epc
    cause := cause
    faddr := if sx then 0 else faddr.getD b.faddr
    fipa := match fipa with
      | some a => if sx then putF a 0 12 0 else a
      | none => b.fipa
    fsyn := if sx then syn.sealedApply b.fsyn else syn.apply b.fsyn }
  let x := x.setBank lvl b'
  let x := if lvl == 2 then
      { x with
        hstatus := putF x.hstatus 34 5
          (x.pl + 4 * bnat x.ie + 8 * bnat slotB + 16 * bnat x.sealedB) }
    else
      { x with
        status := putF x.status 3 4 (bnat x.ie + 2 * x.pl + 8 * bnat slotB) }
  let s := s.setStrand g x
  let s := if sx then s.sealedExit g epc exitD else s
  let x := s.strand g
  let x := { x with status := putF x.status 0 3 lvl, slot := none }
  let vb := (x.bank lvl).vbase
  s.setStrand g { x with pc := vb + word (vectorOffset kind sx (from0 == lvl)) }

/-- The cause word of an exception (R58): its code, and its position in an open shadow. -/
def excCause (code : Nat) (shpos : Nat) : Word :=
  word (code + (if shpos == 0 then 0 else 2 ^ 22 + shpos * 2 ^ 23))

/-- The position that the next instruction has in an open shadow, 1 to 5; 0 outside. -/
def Strand.position (x : Strand) : Nat :=
  match x.shadow with
  | none => 0
  | some sh => sh.pos + 1

/-- An exception of the instruction at PC (R63, R66, R73, R74, R80): an instruction in a slot undoes the
branch's link write, and EPC holds the branch. -/
def State.raise (s : State) (g : Nat) (e : Exc) : State :=
  let x := s.strand g
  let cause := excCause e.code x.position
  let lvl := excLevel s.dev x e
  match x.slot with
  | none => s.enter g lvl .exception x.pc cause false e.faddr e.fipa e.syn none
  | some sl =>
    let x := { x with ras := sl.ras }
    let x := match sl.link with
      | none => x
      | some (r, v) => x.setN r v
    (s.setStrand g x).enter g lvl .exception sl.branch cause true e.faddr e.fipa e.syn none

/-! ### Return (R68, R399) -/

/-- Whether the SE lets an ERET resume the vCPU of the strand's last sealed exit (R399). -/
def Dev.mayResume (d : Dev) (x : Strand) : Bool :=
  match x.lastExit with
  | none => false
  | some (dom, i, n) =>
    match d.domain dom with
    | none => false
    | some m =>
      match m.vcpus[i]? with
      | none => false
      | some v => m.built && !v.running && v.exits == n && !v.inImage

/-- A bank under its field maps (R55, R58, R59, R67): bits that read 0 are 0. -/
def Bank.masked (b : Bank) : Bank := { b with
  epc := align4 b.epc
  cause := causeMask b.cause
  fsyn := fsynMask b.fsyn
  vbase := putF b.vbase 0 12 0 }

/-- STATUS and HSTATUS hold no level that does not exist, and 0 where they read 0 (R56, R57). -/
def legalStatus (w : Word) : Word :=
  let w := w &&& word 0x7FF
  let w := if getF w 0 2 == 3 then putF w 0 2 0 else w
  if getF w 4 2 < 2 then w else putF w 4 2 0
def legalHstatus (w : Word) : Word :=
  let w := w &&& word 0xFFFFFD97FE
  if getF w 34 2 == 3 then putF w 34 2 0 else w

/-- A transfer's addresses, of instructions (R72, R82). -/
def Slot.masked (sl : Slot) : Slot := { sl with
  branch := align4 sl.branch
  next := align4 sl.next }

/-- The general registers in canonical form; n0 is not among them (R48). -/
def canonRegs (n : SMap Word) : SMap Word :=
  n.foldl (fun m kv => if kv.1 = 0 then m else SMap.set (fun _ => 0) m kv.1 kv.2) []

/-- A saved strand as the registers take it that it is loaded into (R47, R54 to R62): what no register can hold is not
loaded. Every strand that the machine saves is so already. -/
def Strand.masked (x : Strand) : Strand := { x with
  pc := align4 x.pc
  n := canonRegs x.n
  status := legalStatus x.status
  hstatus := legalHstatus x.hstatus
  bankS := x.bankS.masked
  bankH := x.bankH.masked
  slot := x.slot.map Slot.masked }

/-- The strand with a vCPU's saved registers loaded (R398): the shared registers keep their values. -/
def Strand.loadVcpu (x : Strand) (v : Vcpu) (shared : BitVec 32) : Strand :=
  let n0 := keepShared shared x.n
  let n1 := v.st.n.foldl (fun m kv => SMap.set (fun _ => 0) m kv.1 kv.2) n0
  let y := { x with
    pc := v.st.pc
    n := n1
    v := v.st.v
    bankS := v.st.bankS
    tcfg := putF x.tcfg 0 3 (getF v.st.tcfg 0 3)
    ttb1 := v.st.ttb1
    asid := v.st.asid
    timecmp := v.st.timecmp
    status := (x.status &&& ~~~ (word 0x67C)) ||| v.st.status ||| word 0x100
    ras := [] }
  match v.exitD with
  | none => y
  | some r => y.setN r 0

/-- The strand runs inside a vCPU of a domain from its saved state (R398). -/
def State.enterVcpu (s : State) (g dom i : Nat) : State :=
  match s.dev.domain dom with
  | none => s
  | some m =>
    match m.vcpus[i]? with
    | none => s
    | some v =>
      let m' := m.setVcpu i fun v => { v with running := true, exitD := none }
      let s := { s with dev := (s.dev.setDomain dom (some m')).flushBtb (s.dev.phys (g / 2)) }
      s.setStrand g { ((s.strand g).loadVcpu v m.shared).masked with inside := some (dom, i) }

/-- ERET at strand g (R68): it closes an open shadow and returns to the level it came from; a return into a
sealed domain goes through the SE, which may refuse it (R399). -/
def State.eret (s : State) (g : Nat) : State :=
  let s := s.closeShadow g
  let x := s.strand g
  if x.pl == 2 then
    if x.hpsealed then
      match s.dev.mayResume x, x.lastExit with
      | true, some (dom, i, _) =>
        let lvl := getF x.hstatus 34 2
        let s := s.setStrand g { x with
          status := putF (putF x.status 0 2 lvl) 2 1 (getF x.hstatus 36 1) }
        s.enterVcpu g dom i
      | _, _ => s.raise g { code := 0x0D, faddr := some 0 }
    else
      s.setStrand g { x with
        pc := x.bankH.epc
        status := putF x.status 0 3 (getF x.hstatus 34 2 + 4 * getF x.hstatus 36 1) }
  else
    s.setStrand g { x with
      pc := x.bankS.epc
      status := putF x.status 0 3 (getF x.status 4 2 + 4 * getF x.status 3 1) }

end Sys2Proof.Machine
end

