-- ==== Sys2Proof/Machine/Inject.lean ====
section
/-!
DEFINITION. Corrupted words of protected arrays (R363 to R367): which write fires an armed injection, the flips that
it leaves, and what a checker makes of them. An array is named by its group, instance and location; for a line the
location is its physical address.
-/

namespace Sys2Proof.Machine

open Sys2Proof

/-- An injection register of group g. -/
def injReg (f : Field) (g : Nat) : Field := f.at (0x100 * (g - 1))

/-- The number of ones in the low n bits of a number. -/
def weight : Nat → Nat → Nat
  | 0, _ => 0
  | n + 1, x => x % 2 + weight n (x / 2)

/-- The words of a location are written: what was flipped there is gone (R367). -/
def Dev.unflip (d : Dev) (grp inst loc : Nat) (words : List Nat) : Dev :=
  { d with
    flips := d.flips.filter fun f =>
      !(f.group == grp && f.inst == inst && f.loc == loc && words.contains f.word) }

/-- Whether the armed injection of a group selects a write (R364): the instance, the line under MATCH 1, the set and
way under MATCH 2 where the model knows them, and the word. -/
def Dev.injects (d : Dev) (grp inst loc : Nat) (setWay : Option Nat) (words : List Nat) : Bool :=
  let m := d.fld (injReg R.INJ_SEL_MATCH grp)
  let a := d.fld (injReg R.INJ_ADDR_ADDR grp)
  d.flag (injReg R.INJ_ARM_ARM grp) && d.fld (injReg R.INJ_SEL_INSTANCE grp) == inst
    && words.contains (d.fld (injReg R.INJ_SEL_WORD grp))
    && (m == 0 || (m == 1 && a / 64 == loc / 64) || (m == 2 && setWay == some (a % 2 ^ 20)))

/-- A write of words of a location of an array (R364, R367): it may fire the injection that is armed. -/
def Dev.arrayWrite (d : Dev) (grp inst loc : Nat) (setWay : Option Nat) (words : List Nat) : Dev :=
  let d := if d.flips.isEmpty then d else d.unflip grp inst loc words
  if d.injects grp inst loc setWay words then
    let hit := if d.fld (injReg R.INJ_SEL_MATCH grp) == 2 then setWay.getD 0 else loc / 64 * 64
    let flip : Flip := ⟨grp, inst, loc, d.fld (injReg R.INJ_SEL_WORD grp), d.reg (injReg R.INJ_FLIP_MASK grp).reg,
      BitVec.ofNat 16 (d.fld (injReg R.INJ_FLIP_CHK_MASK grp)), true⟩
    let d := (d.setFld (injReg R.INJ_ARM_ARM grp) 0).setFld (injReg R.INJ_ARM_FIRED grp) 1
    let d := d.setFld (injReg R.INJ_HIT_LOCATION grp) hit
    -- each instance remembers its last injection alone (R367)
    let old := d.flips.map fun f => if f.group == grp && f.inst == inst then { f with injected := false } else f
    { d with flips := old ++ [flip] }
  else d

/-- The flips of a location among some words. -/
def Dev.flipsAt (d : Dev) (grp inst loc : Nat) (words : List Nat) : List Flip :=
  d.flips.filter fun f => f.group == grp && f.inst == inst && f.loc == loc && words.contains f.word

/-- What a checker makes of a protected word or line (R315, R365, R368). -/
inductive Verdict
  | good
  | corrected
  | uncorrectable
  | unknown
  deriving DecidableEq, Repr

/-- A worse one of two verdicts. -/
def Verdict.worse (a b : Verdict) : Verdict :=
  match a, b with
  | .good, v => v
  | v, .good => v
  | .unknown, _ => .unknown
  | _, .unknown => .unknown
  | .uncorrectable, _ => .uncorrectable
  | _, .uncorrectable => .uncorrectable
  | .corrected, .corrected => .corrected

/-- A SECDED word under its masks: one bit is corrected, two are detected, more may pass (R365, R368). -/
def secded (f : Flip) : Verdict :=
  match weight 64 f.mask.toNat + weight 8 f.chk.toNat with
  | 0 => .good
  | 1 => .corrected
  | 2 => .uncorrectable
  | _ => .unknown

/-- The verdict over the words of a location under SECDED. -/
def secdedAll (fs : List Flip) : Verdict := fs.foldl (fun v f => v.worse (secded f)) .good

/-- The 4-bit groups of a word that a flip touches: data group i, i = 0 to 15, and check groups 16 to 19 (R365). -/
def nibbles (f : Flip) : List Nat :=
  (List.range 20).filter fun i =>
    if i < 16 then f.mask.toNat / 16 ^ i % 16 != 0 else f.chk.toNat / 16 ^ (i - 16) % 16 != 0

/-- The device of a 4-bit group, and its half, on x4 and x8 devices (R365). -/
def deviceOf (x8 : Bool) (i : Nat) : Nat × Nat :=
  let k := if i < 16 then i % 8 else 8 + i % 2
  if x8 then (k / 2, k % 2) else (k, 0)

/-- The channel code's verdict on a line (R315). -/
def channelCode (x8 : Bool) (fs : List Flip) : Verdict :=
  let hs := ((fs.flatMap nibbles).map (deviceOf x8)).eraseDups
  let devs := (hs.map fun h => h.1).eraseDups.length
  if hs.isEmpty then .good
  else if hs.length == 1 then .corrected
  else if devs == 1 || (!x8 && devs == 2) then .uncorrectable
  else .unknown

/-- The SYNDROME of an error at a location: bit 63 when the instance's last injection is there (R367). -/
def syndromeOf (fs : List Flip) : Nat := if fs.any fun f => f.injected then 2 ^ 63 else 0

end Sys2Proof.Machine
end

