-- ==== Sys2Proof/Machine/Memory.lean ====
section
/-!
DEFINITION. The physical address map (R32 to R34, R318), the memory behind it (DRAM and the Peat user window
with its intake, R263, R265), the keys over it (R388 to R390), the LLC slices (R194 to R197, R221), the L2 lines
and ghosts (R216, R227), and the operations a home performs on a line: a snapshot, a gather, a write.
-/

namespace Sys2Proof.Machine

open Sys2Proof

/-! ### Bytes and lines (R9, R194) -/

/-- A little-endian number from bytes. -/
def leNat : List Byte → Nat
  | [] => 0
  | b :: bs => b.toNat + 256 * leNat bs

/-- The n little-endian bytes of a number. -/
def leBytes : Nat → Nat → List Byte
  | 0, _ => []
  | n + 1, x => BitVec.ofNat 8 x :: leBytes n (x / 256)

/-- A line from its bytes. -/
def packLine (f : Nat → Byte) : Line := BitVec.ofNat 512 (leNat ((List.range 64).map f))

/-- Byte i of a line. -/
def lineByte (l : Line) (i : Nat) : Byte := BitVec.ofNat 8 (l.toNat / 256 ^ i)

/-- The old line with the bytes of the new one that a mask selects. -/
def mergeLine (old new : Line) (mask : BitVec 64) : Line :=
  packLine fun i => if natBit mask.toNat i then lineByte new i else lineByte old i

/-- A line with bytes written at an offset. -/
def putBytes (l : Line) (off : Nat) (bs : List Byte) : Line :=
  packLine fun i => if off ≤ i then (bs[i - off]?).getD (lineByte l i) else lineByte l i

/-- n bytes of a line from an offset. -/
def takeBytes (l : Line) (off n : Nat) : List Byte := (List.range n).map fun i => lineByte l (off + i)

/-- The byte mask of n bytes from an offset. -/
def byteMask (off n : Nat) : BitVec 64 := BitVec.ofNat 64 ((2 ^ n - 1) * 2 ^ off)

/-- The mask of a whole line. -/
def fullMask : BitVec 64 := BitVec.allOnes 64

/-! ### The physical address map (R32 to R34) -/

/-- What claims a physical address: a DRAM home, a Peat user window, a PCI Express window or the ECAM, a
socket's register space at an offset; or nothing. -/
inductive Claim
  | dram (s : Nat)
  | peat (s : Nat)
  | window (s : Nat)
  | ecam
  | regs (s off : Nat)
  | none
  deriving DecidableEq, Repr

/-- Whether a socket other than this one may be reached, or is this one (R240). -/
def Dev.reachable (d : Dev) (s : Nat) : Bool :=
  s == d.self || (natBit (d.fld R.CHAIN_STATUS_PRESENT) s && natBit (d.fld R.CHAIN_STATUS_COHERENT) s)

/-- Whether GiB x lies in an enabled range with this base and limit (R41). -/
def Dev.inRange (d : Dev) (baseReg limitReg : Nat) (x : Nat) : Bool :=
  let b := d.reg baseReg
  bitOf b 0 && decide (getF b 30 22 ≤ x) && decide (x ≤ getF (d.reg limitReg) 30 22)

/-- The first socket whose enabled range of an array of ranges holds GiB x (R34). -/
def Dev.rangeOf (d : Dev) (base limit : Field) (x : Nat) : Option Nat :=
  (List.range 8).find? fun s => d.inRange (base.reg + 8 * s) (limit.reg + 8 * s) x

/-- log2 of the number of interleave ways (R319). -/
def Dev.waysLog (d : Dev) : Nat := Nat.min 4 (d.fld R.MEM_IL_WAYS)

/-- The offset of a physical address into this socket's home range (R318). -/
def Dev.homeOffset (d : Dev) (pa : Nat) : Nat :=
  pa - d.fld (R.HOME_BASE_ADDR.at (8 * d.self)) * 2 ^ 30

/-- Whether an offset into the home range lies within the interleave region (R318). -/
def Dev.interleaved (d : Dev) (o : Nat) : Bool :=
  decide (o / 256 / 2 ^ d.waysLog * 256 < d.fld R.MEM_IL_U_GIB * 2 ^ 30)

/-- The interleave slot and the channel-local address of an offset (R318). -/
def Dev.interleave (d : Dev) (o : Nat) : Nat × Nat :=
  let G := o / 256
  let x := (G % 16) ^^^ (G / 16 % 16) ^^^ (G / 256 % 16)
  (x % 2 ^ d.waysLog, G / 2 ^ d.waysLog * 256 + o % 256)

/-- The other socket whose ECAM region, as exchanged at boot-lock, holds an address (R408). -/
def Dev.farEcam (d : Dev) (pa : Nat) : Option Nat :=
  (List.range 8).find? fun s =>
    let b := SMap.get (fun _ => 0) d.chain.mapBase s
    s != d.self && d.reachable s && bitOf b 0 && getF b 30 22 == pa / 2 ^ 30 && decide (pa % 2 ^ 30 < 2 ^ 28)

/-- What claims a physical address (R32, R33). -/
def Dev.claim (d : Dev) (pa : Nat) : Claim :=
  if pa < 2 ^ 46 then
    match d.rangeOf R.HOME_BASE_EN R.HOME_LIMIT_ADDR (pa / 2 ^ 30) with
    | none => .none
    | some s =>
      if s == d.self then (if d.interleaved (d.homeOffset pa) then .dram s else .none)
      else if d.reachable s then .dram s else .none
  else if pa < 0x8000000000000 then .none
  else if pa < 0x8080000000000 then
    let s := pa / 2 ^ 40 % 8
    if pa % 2 ^ 40 < 0x7800000000 && natBit (d.fld R.CHAIN_STATUS_PRESENT) s && d.reachable s then .peat s
    else .none
  else if pa < 0xC000000000000 then .none
  else if pa < 0xFE00000000000 then
    match d.rangeOf R.IOWIN_BASE_EN R.IOWIN_LIMIT_ADDR (pa / 2 ^ 30) with
    | some s => .window s
    | none =>
      if d.flag R.ECAM_BASE_EN && pa / 2 ^ 30 == d.fld R.ECAM_BASE_ADDR && pa % 2 ^ 30 < 2 ^ 28 then .ecam
      else
        match d.farEcam pa with
        | some s => .window s
        | none => .none
  else if pa < 0xFE00080000000 then
    let s := (pa - 0xFE00000000000) / 2 ^ 28
    if natBit (d.fld R.CHAIN_STATUS_PRESENT) s then .regs s (pa % 2 ^ 28) else .none
  else .none

/-- Whether a physical address lies in a DRAM home range or a Peat user window (R52, R173). -/
def Claim.normal : Claim → Bool
  | .dram _ | .peat _ => true
  | _ => false

/-- Whether a physical address lies in any socket's register space (R32, R170). -/
def inRegSpace (pa : Nat) : Bool := 0xFE00000000000 ≤ pa && pa < 0xFE00080000000

/-- The socket that homes a line (R215); none where nothing normal claims it. -/
def Dev.homeOf (d : Dev) (g : Nat) : Option Nat :=
  match d.claim (64 * g) with
  | .dram s | .peat s => some s
  | _ => none

/-- Whether this socket homes a line. -/
def Dev.homedHere (d : Dev) (g : Nat) : Bool := d.homeOf g == some d.self

/-- Whether a line lies in a Peat user window. -/
def isPeat (g : Nat) : Bool := 0x8000000000000 ≤ 64 * g && 64 * g < 0x8080000000000

/-- The stack of a line of a Peat user window (R263). -/
def stackOf (g : Nat) : Nat :=
  let o := 64 * g % 2 ^ 40
  (o / 2 ^ 12 % 8) ^^^ (o / 2 ^ 15 % 8) ^^^ (o / 2 ^ 18 % 8)

/-- The granule of its stack that a line of a Peat user window lies in (R262, R263). -/
def granuleOf (g : Nat) : Nat :=
  let o := 64 * g % 2 ^ 40
  (o / 2 ^ 15 * 2 ^ 12 + o % 2 ^ 12) / 2 ^ 19

/-- The record of an unclaimed access (R33). -/
def Dev.unclaimed (d : Dev) (pa requester : Nat) : Dev × Nat :=
  d.record { source := 0x0C, cls := 5, address := pa, requester := requester }

/-! ### Memory behind a home -/

/-- A byte of the socket's DRAM: memory that nothing has written reads 0 (R309, R504). -/
def Dev.dramByte (d : Dev) (a : Nat) : Byte := SMap.get (fun _ => 0) d.dram a

/-- A byte of the media of the socket's Peat user window, by physical address (log entry 8). -/
def Dev.peatByte (d : Dev) (a : Nat) : Byte := SMap.get (fun _ => 0) d.peat a

/-- Whether a stored line carries poison (R265, R316). -/
def Dev.isPoisoned (d : Dev) (g : Nat) : Bool := SMap.get (fun _ => false) d.poisoned g

/-- The identity of the key a stored line was last written under (log entry 9). -/
def Dev.keyId (d : Dev) (g : Nat) : Nat := SMap.get (fun _ => 1) d.keyOf g

/-- The lines a stack holds or is being sent, oldest first. -/
def Stack.lines (k : Stack) : List Intake := k.accepted ++ k.waitQ

/-- A line and its poison with a stack's waiting writes to it (R265). -/
def overlay (g : Nat) : List Intake → Line × Bool → Line × Bool
  | [], p => p
  | e :: es, p =>
    overlay g es
      (if e.g == g then
        (mergeLine p.1 e.data e.mask, e.poison || (p.2 && e.mask != fullMask))
      else p)

/-- The current content of a line at its home in this socket, and its poison, without decryption. -/
def Dev.stored (d : Dev) (g : Nat) : Line × Bool :=
  if isPeat g then
    overlay g (d.stack (stackOf g)).lines
      (packLine (fun i => d.peatByte (64 * g + i)), d.isPoisoned g)
  else (packLine (fun i => d.dramByte (64 * g + i)), d.isPoisoned g)

/-- Whether a DRAM line lies in a block that is not yet initialised (R309). -/
def Dev.uninit (d : Dev) (g : Nat) : Bool :=
  d.initPending && !isPeat g && !SMap.get (fun _ => false) d.initDone (g / 2 ^ 14)

/-- Whether a DRAM line's channel is fenced (R330): every read of it gives poison, every write is discarded. -/
def Dev.isFenced (d : Dev) (g : Nat) : Bool :=
  !isPeat g && d.fenced == some (d.interleave (d.homeOffset (64 * g))).1

/-- The hash index of a line (R197). -/
def hashIndex (g : Nat) : Nat :=
  let h := (g % 65536) ^^^ (g / 65536 % 65536) ^^^ (g / 2 ^ 32 % 2 ^ 14)
  h * 144 / 65536

/-- The tile of a line's home LLC slice (R197, R198). -/
def Dev.sliceTile (d : Dev) (g : Nat) : Nat := d.fld (R.SLICE_MAP_TILE.at (8 * hashIndex g))

/-- The number of interleave ways (R319). -/
def Dev.ways (d : Dev) : Nat := 2 ^ d.waysLog

/-- The survivors of a retired slot, in ascending order (R331). -/
def Dev.survivors (d : Dev) (k : Nat) : List Nat := (List.range d.ways).filter fun i => i != k

/-- The slot that serves a line now, and its channel-local address (R318, R331). -/
def Dev.place (d : Dev) (g : Nat) : Nat × Nat :=
  let x := d.interleave (d.homeOffset (64 * g))
  let st := d.fld R.MEM_IL_RET_STATE
  let k := d.fld R.MEM_IL_RET_SLOT
  if (st == 1 || st == 2) && x.1 == k then
    let sv := d.survivors k
    let q := x.2 / 256
    ((sv[q % sv.length]?).getD k,
      d.fld R.MEM_IL_U_GIB * 2 ^ 30 + q / sv.length * 256 + x.2 % 256)
  else x

/-- The channel that serves a slot. -/
def Dev.slotMc (d : Dev) (k : Nat) : Nat := d.fld (R.CH_MAP_MC.at (8 * k))

/-- The channel that serves a line. -/
def Dev.mcOfLine (d : Dev) (g : Nat) : Nat := d.slotMc (d.place g).1

/-- Every word of a line. -/
def allWords : List Nat := List.range 8

/-- The channel code's verdict on a stored line (R315, R364). -/
def Dev.dramVerdict (d : Dev) (g : Nat) : Verdict :=
  if d.flips.isEmpty then .good
  else
    let n := d.mcOfLine g
    channelCode (d.flag (R.MC_CFG_X8.at (0x40000 * n))) (d.flipsAt 0x10 n (64 * g) allWords)

/-- The report of an error that an injection has left in a stored line (R328, R367): no bucket grows. -/
def Dev.dramReport (d : Dev) (g : Nat) (ue : Bool) : Dev :=
  let n := d.mcOfLine g
  let d := if ue then d.addSat (R.ERR_COUNT_UE_COUNT.at (0x40000 * n)) 1
    else d.addSat (R.ERR_COUNT_CE_COUNT.at (0x40000 * n)) 1
  let d := if !ue && d.fld (R.ERR_COUNT_CE_COUNT.at (0x40000 * n)) == 2 ^ 32 - 1 then
      d.setFld (R.ERR_COUNT_CE_OVF.at (0x40000 * n)) 1 else d
  d.log { source := 1, inst := n, cls := if ue then 2 else 0, action := if ue then 4 else 0, address := 64 * g,
          syndrome := syndromeOf (d.flipsAt 0x10 n (64 * g) allWords) }

/-- What a read brings: the line, its poison, the FSYN.SRC of its supplier (R59), the device after it. -/
structure Got where
  line : Line
  poison : Bool
  src : Nat
  dev : Dev
  deriving DecidableEq, Repr

/-- A read of a line at its home under a KEYID (R309, R328, R330, R344, R388, R390): an empty slot gives poison and a record;
another key than the line was written under gives an unpredictable line. -/
def Dev.homeRead (d : Dev) (g keyid : Nat) : Got :=
  let src := if isPeat g then 4 else 3
  let k := d.slot keyid
  if k.cls == 0 then
    ⟨0, true, src, d.log { source := 0x0F, cls := 2, action := 4, address := 64 * g, inst := keyid }⟩
  else if d.isFenced g then
    ⟨0, true, src, d.log { source := 1, cls := 2, action := 4, address := 64 * g }⟩
  else if d.uninit g then ⟨0, false, src, d⟩
  else if SMap.get (fun _ => false) d.bad g || d.lostStops.contains (d.sliceTile g) then ⟨0, true, src, d⟩
  else
    let p := d.stored g
    let ok (d : Dev) : Got :=
      if d.keyId g == k.key then ⟨p.1, p.2, src, d⟩
      else
        let f := d.drawLine
        ⟨f.1, p.2, src, f.2⟩
    match d.dramVerdict g with
    | .good => ok d
    | .corrected => ok (d.dramReport g false)
    | .uncorrectable => ⟨0, true, src, d.dramReport g true⟩
    | .unknown =>
      let b := d.drawBool
      if b.1 then ⟨0, true, src, b.2.dramReport g true⟩
      else
        let f := b.2.drawLine
        ⟨f.1, p.2, src, f.2⟩

/-- Stores the bytes of a line that a mask selects. -/
def writeBytes (m : SMap Byte) (a : Nat) (l : Line) (mask : BitVec 64) : SMap Byte :=
  (List.range 64).foldl
    (fun m i => if natBit mask.toNat i then SMap.set (fun _ => 0) m (a + i) (lineByte l i) else m) m

/-- The canonical form of a memory: bytes at rising addresses, none of them 0, which is what an unlisted address reads as
(log entry 8). -/
abbrev Memory.wf (m : SMap Byte) : Bool := SMap.wf (fun _ => 0) m

/-- Adds a line to those on their way to its stack's intake (R265, R269). -/
def Dev.toIntake (d : Dev) (e : Intake) : Dev :=
  let n := stackOf e.g
  let k := d.stack n
  d.setStack n { k with waitQ := k.waitQ ++ [e] }

/-- A write of a line at its home under a KEYID, with its poison (R309, R316, R388, R390): to DRAM, or toward the
stack's intake. A write through an empty slot is discarded with a record. -/
def Dev.homeWrite (d : Dev) (g keyid : Nat) (l : Line) (poison urgent : Bool) (ack : Option Agent) : Dev :=
  let k := d.slot keyid
  if k.cls == 0 then
    d.log { source := 0x0F, cls := 2, action := 0, address := 64 * g, inst := keyid }
  else if d.isFenced g then d.log { source := 1, cls := 2, action := 5, address := 64 * g }
  else
    let d := { d with
      keyOf := SMap.set (fun _ => 1) d.keyOf g k.key
      bad := SMap.set (fun _ => false) d.bad g false }
    if isPeat g then d.toIntake ⟨g, l, fullMask, poison, keyid, urgent, ack, none, []⟩
    else
      let d := d.arrayWrite 0x10 (d.mcOfLine g) (64 * g) none allWords
      { d with
        initDone := if d.initPending then SMap.set (fun _ => false) d.initDone (g / 2 ^ 14) true
          else d.initDone
        dram := writeBytes d.dram (64 * g) l fullMask
        poisoned := SMap.set (fun _ => false) d.poisoned g poison }

/-! ### The LLC (R196, R197, R221) -/

/-- The set of a line within its slice (R197). -/
def llcSet (g : Nat) : Nat := (g % 4096) ^^^ (g / 4096 % 4096)

/-- The ways of a tile's slice that may allocate (R203, R213). -/
def Dev.waysOn (d : Dev) (t : Nat) : List Nat :=
  let w := d.reg (R.LLC_CTL_WAY_EN.reg + 0x10000 * t)
  (List.range 12).filter fun i => bitOf w i && !bitOf w (24 + i)

/-- The ways in which a line may be allocated: none while its index moves (R199). -/
def Dev.llcWays (d : Dev) (g : Nat) : List Nat :=
  if d.flag (R.SLICE_MAP_MOVING.at (8 * hashIndex g)) then [] else d.waysOn (d.sliceTile g)

/-- The LLC's copy of a line. -/
def Dev.llcGet (d : Dev) (g : Nat) : Option LLine := SMap.get (fun _ => none) d.llc g

/-- Frees the LLC way of a line. -/
def Dev.llcDrop (d : Dev) (g : Nat) : Dev := { d with llc := SMap.set (fun _ => none) d.llc g none }

/-- The line that holds a way of the set of line g in its slice. -/
def Dev.llcAt (d : Dev) (g w : Nat) : Option (Nat × LLine) :=
  (List.filterMap (fun kv : Nat × Option LLine => kv.2.map fun l => (kv.1, l)) d.llc).find? fun kl =>
    d.sliceTile kl.1 == d.sliceTile g && llcSet kl.1 == llcSet g && kl.2.way == w

/-- An LLC line is read out (R207, R208): a flipped word is corrected; a clean line is read again from memory; a dirty
one is marked poisoned in place. -/
def Dev.checkLlc (d : Dev) (g : Nat) : Dev :=
  if d.flips.isEmpty then d
  else
    let t := d.sliceTile g
    let fs := d.flipsAt 7 t (64 * g) allWords
    match d.llcGet g with
    | none => d
    | some l =>
      let rep (cls action : Nat) (d : Dev) : Dev :=
        (d.unflip 7 t (64 * g) allWords).log
          { source := 7, inst := t, cls := cls, action := action, address := 64 * g, syndrome := syndromeOf fs,
            location := 7 + llcSet g * 256 + l.way * 2 ^ 24 }
      match secdedAll fs with
      | .good => d
      | .corrected => rep 0 0 d
      | .uncorrectable =>
        if l.dirty then
          rep 2 4 { d with llc := SMap.set (fun _ => none) d.llc g (some { l with poison := true }) }
        else rep 0 0 (d.llcDrop g)
      | .unknown =>
        let f := d.drawLine
        { f.2.unflip 7 t (64 * g) allWords with
          llc := SMap.set (fun _ => none) f.2.llc g (some { l with data := f.1 }) }

/-- A dirty LLC line leaves to its memory (R196); a clean one is dropped. -/
def Dev.llcEvict (d : Dev) (g : Nat) : Dev :=
  let d := d.checkLlc g
  match d.llcGet g with
  | none => d
  | some l =>
    let d := d.llcDrop g
    if l.dirty then d.homeWrite g l.key l.data l.poison false none else d

/-- Installs a line in its home LLC slice, in the way that holds it, a free way, or the first way after an
eviction (R194 leaves the order of replacement free); without a way a dirty line goes to memory (R211). -/
def Dev.llcPut (d : Dev) (g : Nat) (l : Line) (dirty poison : Bool) (key : Nat) : Dev :=
  let put (d : Dev) (w : Nat) : Dev :=
    let d := d.arrayWrite 7 (d.sliceTile g) (64 * g) (some (llcSet g + w * 65536)) allWords
    { d with llc := SMap.set (fun _ => none) d.llc g (some ⟨l, dirty, poison, key, w⟩) }
  match d.llcWays g with
  | [] => if dirty then (d.llcDrop g).homeWrite g key l poison false none else d.llcDrop g
  | w0 :: ws =>
    match d.llcGet g with
    | some o => put d o.way
    | none =>
      match (w0 :: ws).find? fun w => (d.llcAt g w).isNone with
      | some w => put d w
      | none =>
        match d.llcAt g w0 with
        | some v => put (d.llcEvict v.1) w0
        | none => put d w0

/-! ### L2 lines and ghosts -/

/-- The line that core c's L2 holds. -/
def Dev.line (d : Dev) (c g : Nat) : CLine := SMap.get (fun _ => CLine.none) d.l2 (g * 512 + c)

def Dev.setLine (d : Dev) (c g : Nat) (x : CLine) : Dev :=
  { d with l2 := SMap.set (fun _ => CLine.none) d.l2 (g * 512 + c) x }

def Dev.dropLine (d : Dev) (c g : Nat) : Dev := d.setLine c g CLine.none

/-- The L2 set of a line (R194, R217). -/
def l2SetOf (g : Nat) : Nat := g % 2048

/-- Words of a line of core c are read out of an array: the L1 data cache (group 3) or the L2 (group 5) (R207, R208).
A line that is not possibly dirty is read again; another is poisoned in place. -/
def Dev.checkArray (d : Dev) (grp c g : Nat) (words : List Nat) : Dev :=
  let l := d.line c g
  let fs := d.flipsAt grp c (64 * g) words
  let rep (cls action : Nat) (d : Dev) : Dev :=
    (d.unflip grp c (64 * g) words).log
      { source := if grp == 3 then 5 else 6, inst := c, cls := cls, action := action, address := 64 * g,
        syndrome := syndromeOf fs, location := grp + l2SetOf g * 256 + c % 2 * 2 ^ 28 }
  if l.st == .invalid then d
  else
    match secdedAll fs with
    | .good => d
    | .corrected => rep 0 0 d
    | .uncorrectable =>
      if l.st == .modified || l.st == .exclusive then rep 2 4 (d.setLine c g { l with poison := true })
      else rep 0 0 d
    | .unknown =>
      let f := d.drawLine
      (f.2.unflip grp c (64 * g) words).setLine c g { l with data := f.1 }

/-- Words of a line of core c are read (R207). -/
def Dev.checkLine (d : Dev) (c g : Nat) (words : List Nat) : Dev :=
  if d.flips.isEmpty then d
  else (d.checkArray 3 c g words).checkArray 5 c g words

/-- A line is written into core c's L2: a fill (R363). -/
def Dev.fillLine (d : Dev) (c g : Nat) (x : CLine) : Dev :=
  (d.arrayWrite 5 c (64 * g) none allWords).setLine c g x

/-- The ghost that core c keeps of a line (R227). -/
def Dev.ghost (d : Dev) (c g : Nat) : Option Ghost := SMap.get (fun _ => none) d.ghosts (g * 512 + c)

def Dev.setGhost (d : Dev) (c g : Nat) (x : Option Ghost) : Dev :=
  { d with ghosts := SMap.set (fun _ => none) d.ghosts (g * 512 + c) x }

def Dev.dir (d : Dev) (g : Nat) : Dir := SMap.get (fun _ => {}) d.dirs g

def Dev.setDir (d : Dev) (g : Nat) (x : Dir) : Dev :=
  { d with dirs := SMap.set (fun _ => {}) d.dirs g x }

def Dev.txn (d : Dev) (g : Nat) : Option Txn := SMap.get (fun _ => none) d.txns g

def Dev.setTxn (d : Dev) (g : Nat) (x : Option Txn) : Dev :=
  { d with txns := SMap.set (fun _ => none) d.txns g x }

def Dev.mshr (d : Dev) (c g : Nat) : Option Mshr := SMap.get (fun _ => none) d.mshrs (g * 512 + c)

def Dev.setMshr (d : Dev) (c g : Nat) (x : Option Mshr) : Dev :=
  { d with mshrs := SMap.set (fun _ => none) d.mshrs (g * 512 + c) x }

/-- The cores whose L2 holds a line. -/
def Dev.holders (d : Dev) (g : Nat) : List Nat :=
  (d.l2.filter fun kv => kv.1 / 512 == g && kv.2.st != .invalid).map fun kv => kv.1 % 512

/-- The core whose L2 holds a line in E or M. -/
def Dev.ownerCore (d : Dev) (g : Nat) : Option Nat :=
  (d.holders g).find? fun c => (d.line c g).st == .modified || (d.line c g).st == .exclusive

/-- Sends a message (R222): it is in flight until its command delivers it. -/
def Dev.send (d : Dev) (m : Msg) : Dev := { d with net := d.net ++ [m] }

/-- Takes the first message in flight that a predicate selects. -/
def takeMsg (p : Msg → Bool) : List Msg → Option Msg × List Msg
  | [] => (none, [])
  | m :: ms =>
    if p m then (some m, ms)
    else
      let r := takeMsg p ms
      (r.1, m :: r.2)

/-- Removes the first message in flight that a predicate selects (log entry 12). -/
def Dev.arrive (d : Dev) (p : Msg → Bool) : Dev := { d with net := (takeMsg p d.net).2 }

/-- The L2 of core c is a cache agent (R204, R215). -/
def Dev.l2On (d : Dev) (c : Nat) : Bool := d.flag (tileAt R.CORE_CACHE_CTL_L2_EN c 0x100)

/-! ### The persist tracker (R267 to R270) -/

/-- An entry whose data has been sent: one more write owes its acknowledgement. -/
def Track.send (t : Track) : Track := { t with owed := t.owed + 1, dirty := false }

/-- Line g's dirty data leaves core c (R268, R269): its closing entry owes the acknowledgement, or else its open
one; an open entry carried along is clean from then on. -/
def Tracker.sendLine (t : Tracker) (g : Nat) : Tracker :=
  if t.closing.any fun e => e.g == g && e.dirty then
    { t with
      closing := t.closing.map fun e => if e.g == g && e.dirty then e.send else e
      openB := t.openB.map fun e => if e.g == g then { e with dirty := false } else e }
  else
    { t with
      openB := t.openB.map fun e => if e.g == g && e.dirty then e.send else e }

/-- The entries left after an acknowledgement with flag P for line g (R270). -/
def ackFirst (g : Nat) : List Track → List Track × Bool
  | [] => ([], false)
  | e :: es =>
    if e.g == g && e.owed != 0 then ({ e with owed := e.owed - 1 } :: es, true)
    else
      let r := ackFirst g es
      (e :: r.1, r.2)

/-- Whether an entry is done: nothing owed, nothing unsent. -/
def Track.done (t : Track) : Bool := t.owed == 0 && !t.dirty

/-- An acknowledgement with flag P reaches a tracker (R268, R270). -/
def Tracker.ackLine (t : Tracker) (g : Nat) : Tracker :=
  let c := ackFirst g t.closing
  let o := if c.2 then t.openB else (ackFirst g t.openB).1
  { t with
    closing := c.1.filter fun e => !(e.g == g && e.done)
    openB := o.filter fun e => !(e.g == g && e.done) }

/-- Core c's dirty Peat line leaves it. -/
def Dev.trackSent (d : Dev) (c g : Nat) : Dev :=
  if isPeat g then d.setTracker c ((d.tracker c).sendLine g) else d

/-! ### What a home does with a line of its socket -/

/-- The ghost that holds a line's only dirty copy: that of the owner the directory names. -/
def Dev.ghostOf (d : Dev) (g : Nat) : Option (Nat × Ghost) :=
  let e := d.dir g
  match e.st, e.ptrs with
  | .owned, .core c :: _ => (d.ghost c g).map fun h => (c, h)
  | _, _ => none

/-- Whether the directory names another socket as the owner of a line (R219). -/
def Dev.ownedAway (d : Dev) (g : Nat) : Bool :=
  match (d.dir g).st, (d.dir g).ptrs with
  | .owned, .socket _ :: _ => true
  | _, _ => false

/-- The data of a line that has reached a requester whose grant has not come. -/
def Dev.arrived (d : Dev) (g : Nat) : Option (Line × Bool) :=
  (List.filterMap (fun kv : Nat × Option Mshr =>
    if kv.1 / 512 == g then kv.2.bind fun m => m.data.map fun x => (x.1, x.2.1) else none) d.mshrs).head?

/-- The data of a line on its way to a core or to its home (R222). -/
def Dev.onWay (d : Dev) (g : Nat) : Option (Line × Bool) :=
  (d.net.filterMap fun m =>
    match m.dst, m.body with
    | some (.core _), .data l _ p _ | none, .data l _ p _ => if m.g == g then some (l, p) else none
    | _, _ => none).head?

/-- The current data of a line whose transaction is open and that no cache holds meanwhile (R225). -/
def Dev.transit (d : Dev) (g : Nat) : Option (Line × Bool) :=
  if (d.txn g).isNone then none
  else
    match d.arrived g, d.onWay g with
    | some x, _ => some x
    | none, some x => some x
    | none, none => ((d.txn g).bind fun t => t.data).map fun x => (x.1, x.2.2)

/-- The current value of a line homed in this socket (R115, R216): a holder's, a ghost's, that of an open transaction, the
LLC's, memory's. A line that another socket owns is a free value. -/
def Dev.snapshot (d : Dev) (g keyid : Nat) : Got :=
  let d := match d.ownerCore g with
    | some c => d.checkLine c g allWords
    | none => d.checkLlc g
  match (d.ownerCore g).or (d.holders g).head? with
  | some c => ⟨(d.line c g).data, (d.line c g).poison, 1, d⟩
  | none =>
    match d.ghostOf g with
    | some (_, h) => ⟨h.data, h.poison, 1, d⟩
    | none =>
      match d.transit g with
      | some x => ⟨x.1, x.2, 1, d⟩
      | none =>
        if d.ownedAway g then
          let f := d.drawLine
          ⟨f.1, false, 1, f.2⟩
        else
        match d.llcGet g with
        | some l => ⟨l.data, l.poison, 2, d⟩
        | none => d.homeRead g keyid

/-- Whether a home transaction on a line is open or waits (R225, R226). -/
def Dev.lineBusy (d : Dev) (g : Nat) : Bool := (d.txn g).isSome

/-- A line gathered at its home: its value, its poison, whether it is newer than memory, the KEYID it was held
under, the cores that held it in M, and the device with every cached copy invalidated (R235 step 1, R237). -/
structure Gathered where
  line : Line
  poison : Bool
  dirty : Bool
  key : Nat
  former : Option Nat
  dev : Dev
  deriving DecidableEq, Repr

/-- Invalidates every L2 copy of a line, and the ghost of its owner. -/
def Dev.invalidateAll (d : Dev) (g : Nat) : Dev :=
  let d := (d.holders g).foldl (fun d c => d.dropLine c g) d
  match d.ghostOf g with
  | some (c, _) => d.setGhost c g none
  | none => d

/-- Gathers a line (R235, R237): the current value, with every copy removed and the entry Uncached. -/
def Dev.gather (d : Dev) (g keyid : Nat) : Gathered :=
  let own := d.ownerCore g
  let held : Option (Nat × CLine) := own.map fun c => (c, d.line c g)
  let gh := d.ghostOf g
  let llc := d.llcGet g
  let away := d.ownedAway g
  let r := d.snapshot g keyid
  let d := (r.dev.invalidateAll g).llcDrop g
  let d := match held with
    | some (c, l) => if l.st == LineState.modified then d.trackSent c g else d
    | none => d
  let d := d.setDir g { ownseq := (d.dir g).ownseq }
  match held, gh, llc with
  | some (c, l), _, _ =>
    ⟨r.line, r.poison, l.st == .modified, l.key, if l.st == .modified then some c else none, d⟩
  | none, some (c, h), _ => ⟨r.line, r.poison, true, h.key, some c, d⟩
  | none, none, some l => ⟨r.line, r.poison, l.dirty, l.key, none, d⟩
  | none, none, none => ⟨r.line, r.poison, away, keyid, none, d⟩

/-- Leaves a gathered line at its home (R235 step 4, R237, R269): a dirty Peat line goes to its stack's intake
and stays clean in the LLC; another goes to the LLC, dirty as it is. -/
def Dev.leaveHome (d : Dev) (g : Nat) (l : Line) (dirty poison : Bool) (key : Nat) (urgent : Bool)
    (ack : Option Agent) : Dev :=
  if isPeat g && dirty then (d.homeWrite g key l poison urgent ack).llcPut g l false poison key
  else
    let d := d.llcPut g l dirty poison key
    match d.llcGet g with
    | some x => if x.dirty then d.setDir g { d.dir g with llcd := true, llcway := x.way } else d
    | none => d

/-- The agent told of an acceptance: the core that held the line dirty. -/
def formerAgent (c : Option Nat) : Option Agent := c.map Agent.core

/-- The Data of a line that is in flight or has arrived, with bytes written into it. -/
def pokeMsg (g off : Nat) (bs : List Byte) (m : Msg) : Msg :=
  match m.body with
  | .data l d p t => if m.g == g then { m with body := .data (putBytes l off bs) d p t } else m
  | _ => m

/-- The lines that the L2s hold, with bytes written into line g. -/
def pokeL2 (g off : Nat) (bs : List Byte) (m : SMap CLine) : SMap CLine :=
  SMap.filterMap (fun _ => CLine.none)
    (fun k v => some (if k / 512 == g then { v with data := putBytes v.data off bs } else v)) m

/-- The ghosts, with bytes written into line g. -/
def pokeGhosts (g off : Nat) (bs : List Byte) (m : SMap (Option Ghost)) : SMap (Option Ghost) :=
  SMap.filterMap (fun _ => none)
    (fun k v => some (if k / 512 == g then v.map (fun h => { h with data := putBytes h.data off bs }) else v)) m

/-- The requests of the cores, with bytes written into the data of line g that has arrived. -/
def pokeMshrs (g off : Nat) (bs : List Byte) (m : SMap (Option Mshr)) : SMap (Option Mshr) :=
  SMap.filterMap (fun _ => none)
    (fun k v => some (if k / 512 == g then
        v.map (fun h => { h with data := h.data.map fun x => (putBytes x.1 off bs, x.2) }) else v)) m

/-- Writes bytes of a line while a transaction on it is open: into every copy where it stands, so that the write
takes its place in the line's order without disturbing the transaction (R225). -/
def Dev.poke (d : Dev) (g off : Nat) (bs : List Byte) (keyid : Nat) (urgent : Bool) (ack : Option Agent) :
    Dev :=
  let mask := byteMask off bs.length
  let data := putBytes 0 off bs
  let d := { d with
    l2 := pokeL2 g off bs d.l2
    ghosts := pokeGhosts g off bs d.ghosts
    mshrs := pokeMshrs g off bs d.mshrs
    net := d.net.map (pokeMsg g off bs) }
  let d := match d.llcGet g with
    | none => d
    | some l =>
      { d with
        llc := SMap.set (fun _ => none) d.llc g (some { l with data := putBytes l.data off bs }) }
  if isPeat g then d.toIntake ⟨g, data, mask, false, keyid, urgent, ack, none, []⟩
  else
    { d with
      dram := writeBytes d.dram (64 * g) data mask }

/-- Writes bytes of a line at its home, coherently (R204, R235): the line is gathered, merged, left at home; while
a transaction is open, written in place. A write of the whole line makes it good (R348). -/
def Dev.homeStore (d : Dev) (g off : Nat) (bs : List Byte) (keyid : Nat) (urgent : Bool)
    (ack : Option Agent) : Dev :=
  if d.lineBusy g then d.poke g off bs keyid urgent ack
  else
    let r := d.gather g keyid
    let l := putBytes r.line off bs
    let poison := r.poison && decide (bs.length < 64)
    r.dev.leaveHome g l true poison keyid urgent (if ack.isSome then ack else formerAgent r.former)

/-- The new value of an atomic on n bytes (R118); none where `ACAS` finds another value. -/
def atomicNew (op : AtomicOp) (n old : Nat) (operand expected : Word) : Option Nat :=
  let m := 2 ^ (8 * n)
  let b := operand.toNat % m
  let sg (x : Nat) : Int := if x < m / 2 then x else (x : Int) - m
  match op with
  | .add => some ((old + b) % m)
  | .swap => some b
  | .cas => if old == expected.toNat % m then some b else none
  | .and => some (old &&& b)
  | .or => some (old ||| b)
  | .min => some (if sg old ≤ sg b then old else b)
  | .max => some (if sg old ≤ sg b then b else old)
  | .minu => some (Nat.min old b)
  | .maxu => some (Nat.max old b)

/-- What an indivisible operation at a home brings: the old value, its poison and supplier, the device. -/
structure Rmw where
  old : Nat
  poison : Bool
  src : Nat
  dev : Dev
  deriving DecidableEq, Repr

/-- An indivisible read-modify-write of n bytes at the home of a line (R120, R237): `f` gives the new value, or
none for no write. `ack` is told of a Peat line's acceptance. -/
def Dev.homeRmw (d : Dev) (pa n keyid : Nat) (f : Nat → Option Nat) (ack : Option Agent) : Rmw :=
  let g := pa / 64
  let q := d.snapshot g keyid
  let old := leNat (takeBytes q.line (pa % 64) n)
  match f old with
  | none => ⟨old, q.poison, q.src, q.dev⟩
  | some x => ⟨old, q.poison, q.src, q.dev.homeStore g (pa % 64) (leBytes n x) keyid false ack⟩

/-- An 8-byte far atomic of a unit of the socket that is no strand, under KEYID 0 (R476): the old value. A
location homed in another socket answers a free value. -/
def Dev.farWord (d : Dev) (pa : Nat) (f : Nat → Nat) : Nat × Dev :=
  if d.homedHere (pa / 64) then
    let r := d.homeRmw pa 8 0 (fun x => some (f x)) none
    (r.old, r.dev)
  else
    let w := d.drawWord
    (w.1.toNat, w.2)

end Sys2Proof.Machine
end

