-- ==== Sys2Proof/Machine/Translate.lean ====
section
/-!
DEFINITION. Address translation (R162 to R184): the regimes, the two stages of the walk, accessed and dirty
flags, the translation caches, rights, memory types and keys, and the page-ownership check that follows (R390,
R394). A cached entry that is not pinned may have been evicted: a free choice (log entry 10).
-/

namespace Sys2Proof.Machine

open Sys2Proof

/-- The kinds of access that R169 tells apart; `io` kinds ignore U and X (R190). -/
inductive AccKind
  | fetch | load | store | atomic | ioRead | ioWrite
  deriving DecidableEq, Repr

/-- A store-class access (R172). -/
def AccKind.isStore : AccKind → Bool
  | .store | .atomic | .ioWrite => true
  | _ => false

/-- The cause of a translation fault of an access (R169). -/
def AccKind.cause : AccKind → Nat
  | .fetch => 5
  | .load | .ioRead => 6
  | .store | .atomic | .ioWrite => 7

/-- What selects a translation: the switches of TCFG, the bases, the tags, the level (R162), and whether a
miss asks software to refill (R180, R183). -/
structure Regime where
  s1en : Bool
  va57 : Bool
  had1 : Bool
  s2en : Bool
  ipa52 : Bool
  had2 : Bool
  ttb1 : Nat
  ttb2 : Nat
  asid : Nat
  vmid : Nat
  user : Bool
  refill : Bool
  deriving DecidableEq, Repr

/-- The regime of a strand at S or U. -/
def regimeOf (d : Dev) (x : Strand) : Regime where
  s1en := bitOf x.tcfg 0
  va57 := bitOf x.tcfg 1
  had1 := bitOf x.tcfg 2
  s2en := bitOf x.tcfg 3
  ipa52 := bitOf x.tcfg 4
  had2 := bitOf x.tcfg 5
  ttb1 := x.ttb1.toNat
  ttb2 := x.ttb2.toNat
  asid := x.asid.toNat
  vmid := x.vmid.toNat
  user := x.pl == 0
  refill := d.duty 0 && !x.sealedB

/-- A fault of a walk (R178). -/
structure TFault where
  level : Nat
  stage : Nat
  s1w : Nat
  kind : Nat
  fipa : Option Nat
  deriving DecidableEq, Repr

/-- The device and the translation cache that a walk reads and changes. -/
structure WS where
  dev : Dev
  tlb : List TlbEntry
  deriving DecidableEq, Repr

/-- What an entry decodes as (R167). -/
inductive EntryKindT
  | invalid
  | pointer (table : Nat)
  | leaf
  deriving DecidableEq, Repr

/-- The page number field of an entry, as an address. -/
def entryAddr (e : Word) : Nat := getF e 12 40 * 4096

/-- The size in bytes that a leaf at a level maps (R163). -/
def pageSize (lvl : Nat) : Nat := 2 ^ (12 + 9 * lvl)

/-- Decodes an entry at a level (R167). -/
def decodeEntry (e : Word) (lvl : Nat) : EntryKindT :=
  if !bitOf e 0 then .invalid
  else if !bitOf e 1 && !bitOf e 2 && !bitOf e 3 then
    if lvl == 0 then .invalid else .pointer (entryAddr e)
  else if bitOf e 2 && !bitOf e 1 then .invalid
  else if lvl ≤ 2 && entryAddr e % pageSize lvl == 0 then .leaf
  else .invalid

/-- The address that a leaf gives an input address. -/
def leafOut (e : Word) (lvl a : Nat) : Nat := entryAddr e / pageSize lvl * pageSize lvl + a % pageSize lvl

/-- The KEYID of a stage-2 leaf (R166). -/
def leafKey (e : Word) : Nat := getF e 4 2 * 2 ^ 14 + getF e 52 12 * 4 + getF e 10 2

/-- The index of an input address at a level (R163): stage 2 has 16 entries at level 4. -/
def tableIndex (a lvl : Nat) (stage2 : Bool) : Nat :=
  a / pageSize lvl % (if stage2 && lvl == 4 then 16 else 512)

/-! ### Reading and flagging tables -/

/-- The record of a consumption of poisoned data (R347): of core c, with the line's address. -/
def Dev.consumed (d : Dev) (c requester g : Nat) : Dev × Nat :=
  d.record { source := 0x03, inst := c, cls := 2, address := 64 * g, requester := requester }

/-- Whether an array that serves core c's accesses to a line was enabled without having been invalidated (R201):
keys 4c + x for the core's arrays, 10000 + 12t + w for the ways of the home slice. -/
def Dev.arbitraryHit (d : Dev) (c g : Nat) : Bool :=
  d.unclean.any fun kv => kv.2 && (kv.1 / 4 == c ||
    (10000 ≤ kv.1 && d.homedHere g && (kv.1 - 10000) / 12 == d.sliceTile g))

/-- The current value of a line for core c: its own L2's copy, or the home's; a line homed in another socket that
no cache here holds is a free value. -/
def Dev.currentFor (d : Dev) (c g keyid : Nat) : Got :=
  if (d.line c g).st != .invalid then ⟨(d.line c g).data, (d.line c g).poison, 1, d⟩
  else if d.homedHere g then d.snapshot g keyid
  else
    match (d.holders g).head? with
    | some o => ⟨(d.line o g).data, (d.line o g).poison, 1, d⟩
    | none =>
      match d.ghostOf g, d.transit g with
      | some (_, h), _ => ⟨h.data, h.poison, 1, d⟩
      | none, some x => ⟨x.1, x.2, 1, d⟩
      | none, none =>
        let f := d.drawLine
        ⟨f.1, false, 3, f.2⟩

/-- A line as core c reads it (R174): its current value, or, where an array was enabled unclean before boot-lock,
perhaps arbitrary data (R201), a free choice. -/
def Dev.coreRead (d : Dev) (c g keyid : Nat) : Got :=
  if d.arbitraryHit c g then
    let b := d.drawBool
    if b.1 then
      let f := b.2.drawLine
      ⟨f.1, false, 1, f.2⟩
    else b.2.currentFor c g keyid
  else d.currentFor c g keyid

/-- Eight bytes of a line at an offset. -/
def lineWord (l : Line) (off : Nat) : Word := word (l.toNat / 256 ^ off)

/-- Writes a flag into a table entry, coherently (R172): the compare-and-swap of the whole entry. -/
def Dev.flagEntry (d : Dev) (pa keyid : Nat) (e : Word) : Dev :=
  if d.homedHere (pa / 64) then d.homeStore (pa / 64) (pa % 64) (leBytes 8 e.toNat) keyid false none else d

/-- An entry with A set, and D when the access is of the store class (R172). -/
def flagged (e : Word) (store : Bool) : Word :=
  let e := putF e 6 1 1
  if store then putF e 7 1 1 else e

/-- Whether a leaf lacks a flag that the access needs (R172). -/
def lacksFlag (e : Word) (store : Bool) : Bool := !bitOf e 6 || (store && !bitOf e 7)

/-! ### Translation caches (R175) -/

def TlbEntry.pinned : TlbEntry → Bool
  | .s1 _ _ _ _ _ p | .s2 _ _ _ _ p => p.isSome
  | _ => false

/-- Whether a cached entry holds the stage-1 leaf of an address. -/
def TlbEntry.isS1 (t : TlbEntry) (r : Regime) (va : Nat) : Bool :=
  match t with
  | .s1 asid vmid page lvl e _ =>
    vmid == r.vmid && (asid == r.asid || bitOf e 5) && page == va / pageSize lvl
  | _ => false

/-- Whether a cached entry holds the stage-2 leaf of an address. -/
def TlbEntry.isS2 (t : TlbEntry) (r : Regime) (ipa : Nat) : Bool :=
  match t with
  | .s2 vmid page lvl _ _ => vmid == r.vmid && page == ipa / pageSize lvl
  | _ => false

/-- Whether a cached entry holds the stage-1 table pointer of an address at a level. -/
def TlbEntry.isP1 (t : TlbEntry) (r : Regime) (va lvl : Nat) : Bool :=
  match t with
  | .p1 asid vmid page l _ => vmid == r.vmid && asid == r.asid && l == lvl && page == va / pageSize lvl
  | _ => false

/-- Whether a cached entry holds the stage-2 table pointer of an address at a level. -/
def TlbEntry.isP2 (t : TlbEntry) (r : Regime) (ipa lvl : Nat) : Bool :=
  match t with
  | .p2 vmid page l _ => vmid == r.vmid && l == lvl && page == ipa / pageSize lvl
  | _ => false

/-- The entry's word and level. -/
def TlbEntry.word : TlbEntry → Word × Nat
  | .s1 _ _ _ lvl e _ => (e, lvl)
  | .s2 _ _ lvl e _ => (e, lvl)
  | .p1 _ _ _ lvl e => (e, lvl)
  | .p2 _ _ lvl e => (e, lvl)

/-- Looks an entry up: one that is not pinned may have been evicted (R188 item 1). -/
def WS.find (w : WS) (p : TlbEntry → Bool) : Option TlbEntry × WS :=
  match w.tlb.find? p with
  | none => (none, w)
  | some t =>
    if t.pinned then (some t, w)
    else
      let f := w.dev.drawBool
      if f.1 then (none, ⟨f.2, w.tlb.filter fun u => u.pinned || !p u⟩) else (some t, ⟨f.2, w.tlb⟩)

/-- Fills an entry in place of those it would match. -/
def WS.fill (w : WS) (t : TlbEntry) (p : TlbEntry → Bool) : WS :=
  ⟨w.dev, t :: w.tlb.filter fun u => u.pinned || !p u⟩

/-! ### Stage 2 -/

/-- The outcome of a stage's walk: the leaf, its level, where it lies in memory and under which KEYID
(none when it was cached), for stage 1 also the stage-2 leaf of the table it lies in. -/
inductive WalkR
  | leaf (e : Word) (lvl : Nat) (at' : Option (Nat × Nat)) (ws : WS)
  | fault (t : TFault) (ws : WS)
  deriving DecidableEq, Repr

/-- The stage-2 walk from a level (R173, R174): the tables are read under KEYID 0. -/
def s2From (r : Regime) (c requester ipa s1w : Nat) : Nat → Nat → WS → WalkR
  | lvl, table, w =>
    let bad (k : Nat) (w : WS) : WalkR := .fault ⟨lvl, 1, s1w, k, some ipa⟩ w
    if !(w.dev.claim table).normal then bad 3 w
    else
      let pa := table + 8 * tableIndex ipa lvl true
      let got : Option Word × WS :=
        match w.find fun t => t.isP2 r ipa lvl with
        | (some t, w) => (some t.word.1, w)
        | (none, w) =>
          let q := w.dev.coreRead c (pa / 64) 0
          if q.poison then (none, ⟨(q.dev.consumed c requester (pa / 64)).1, w.tlb⟩)
          else (some (lineWord q.line (pa % 64)), ⟨q.dev, w.tlb⟩)
      match got with
      | (none, w) => bad 4 w
      | (some e, w) =>
        match lvl, decodeEntry e lvl with
        | _, .invalid => bad 0 w
        | _, .leaf => .leaf e lvl (some (pa, 0)) w
        | 0, .pointer _ => bad 0 w
        | l + 1, .pointer t =>
          s2From r c requester ipa s1w l t
            (w.fill (.p2 r.vmid (ipa / pageSize (l + 1)) (l + 1) e) fun t => t.isP2 r ipa (l + 1))

/-- The stage-2 translation of an intermediate address (R164, R173, R180). -/
def s2Leaf (r : Regime) (c requester ipa s1w : Nat) (w : WS) : WalkR :=
  let root := if r.ipa52 then 4 else 3
  if (if r.ipa52 then 2 ^ 52 else 2 ^ 48) ≤ ipa then .fault ⟨root, 1, s1w, 5, some ipa⟩ w
  else
    match w.find fun t => t.isS2 r ipa with
    | (some t, w) => .leaf t.word.1 t.word.2 none w
    | (none, w) =>
      if r.refill then .fault ⟨0, 1, s1w, 7, some ipa⟩ w
      else s2From r c requester ipa s1w root (entryAddr (word r.ttb2)) w

/-- A used stage-2 leaf: its flags are set, or it raises KIND 2 (R172, R180); it is cached. -/
def s2Use (r : Regime) (c requester ipa s1w : Nat) (store : Bool) (w : WS) : WalkR :=
  let go (e : Word) (lvl : Nat) (a : Option (Nat × Nat)) (w : WS) : WalkR :=
    if lacksFlag e store then
      if r.had2 && !r.refill then
        match a with
        | some (pa, k) =>
          let e' := flagged e store
          .leaf e' lvl a
            (WS.fill ⟨w.dev.flagEntry pa k e', w.tlb⟩ (.s2 r.vmid (ipa / pageSize lvl) lvl e' none)
              fun t => t.isS2 r ipa)
        | none => .leaf e lvl a w
      else .fault ⟨lvl, 1, s1w, 2, some ipa⟩ w
    else
      match a with
      | some _ =>
        .leaf e lvl a (w.fill (.s2 r.vmid (ipa / pageSize lvl) lvl e none) fun t => t.isS2 r ipa)
      | none => .leaf e lvl a w
  match s2Leaf r c requester ipa s1w w with
  | .fault t w => .fault t w
  | .leaf e lvl none w =>
    if lacksFlag e store && r.had2 && !r.refill then
      -- a cached leaf whose flag is clear is not used: the access walks again (R172)
      match s2From r c requester ipa s1w (if r.ipa52 then 4 else 3) (entryAddr (word r.ttb2)) w with
      | .fault t w => .fault t w
      | .leaf e lvl a w => go e lvl a w
    else go e lvl none w
  | .leaf e lvl a w => go e lvl a w

/-! ### Stage 1 -/

/-- Where a stage-1 table lies: its physical address, its KEYID and the stage-2 leaf that maps it; or the
fault of reaching it (R164, R169, R173). -/
inductive TableR
  | ok (pa keyid : Nat) (s2 : Option (Word × Nat)) (ws : WS)
  | fault (t : TFault) (ws : WS)
  deriving DecidableEq, Repr

/-- Locates a stage-1 table. -/
def s1Table (r : Regime) (c requester table lvl : Nat) (w : WS) : TableR :=
  if !r.s2en then
    if (w.dev.claim table).normal then .ok table 0 none w else .fault ⟨lvl, 0, 0, 3, none⟩ w
  else
    match s2Use r c requester table 1 false w with
    | .fault t w => .fault t w
    | .leaf e l _ w =>
      let pa := leafOut e l table
      if !bitOf e 1 then .fault ⟨l, 1, 1, 1, some table⟩ w
      else if getF e 8 2 != 0 || !(w.dev.claim pa).normal then .fault ⟨l, 1, 1, 3, some table⟩ w
      else .ok pa (leafKey e) (some (e, l)) w

/-- A stage-1 leaf found by a walk: the entry, its level, its address, its table's KEYID, the table's
intermediate address and the stage-2 leaf that maps it. -/
structure S1Leaf where
  e : Word
  lvl : Nat
  pa : Nat
  keyid : Nat
  table : Nat
  s2 : Option (Word × Nat)
  deriving DecidableEq, Repr

/-- The outcome of stage 1. -/
inductive S1R
  | walked (l : S1Leaf) (ws : WS)
  | fault (t : TFault) (ws : WS)
  deriving DecidableEq, Repr

/-- One table read of a stage-1 walk: a pointer to the next table, or the walk's end. -/
inductive S1Step
  | pointer (table : Nat) (ws : WS)
  | done (r : S1R)
  deriving DecidableEq, Repr

/-- Reads the stage-1 entry of an address at a level (R167, R173, R174). -/
def s1Read (r : Regime) (c requester va lvl table : Nat) (w : WS) : S1Step :=
  match s1Table r c requester table lvl w with
  | .fault t w => .done (.fault t w)
  | .ok pa k s2 w =>
    let a := pa + 8 * tableIndex va lvl false
    let q := w.dev.coreRead c (a / 64) k
    if q.poison then
      .done (.fault ⟨lvl, 0, 0, 4, none⟩ ⟨(q.dev.consumed c requester (a / 64)).1, w.tlb⟩)
    else
      let e := lineWord q.line (a % 64)
      let w : WS := ⟨q.dev, w.tlb⟩
      match decodeEntry e lvl with
      | .invalid => .done (.fault ⟨lvl, 0, 0, 0, none⟩ w)
      | .leaf => .done (.walked ⟨e, lvl, a, k, table, s2⟩ w)
      | .pointer t =>
        .pointer t (w.fill (.p1 r.asid r.vmid (va / pageSize lvl) lvl e) fun t => t.isP1 r va lvl)

/-- The stage-1 walk from a level (R174). -/
def s1From (r : Regime) (c requester va : Nat) : Nat → Nat → WS → S1R
  | 0, table, w =>
    match s1Read r c requester va 0 table w with
    | .done x => x
    | .pointer _ w => .fault ⟨0, 0, 0, 0, none⟩ w
  | l + 1, table, w =>
    match w.find fun t => t.isP1 r va (l + 1) with
    | (some t, w) => s1From r c requester va l (entryAddr t.word.1) w
    | (none, w) =>
      match s1Read r c requester va (l + 1) table w with
      | .done x => x
      | .pointer t w => s1From r c requester va l t w

/-- Whether a stage-1 leaf grants an access (R169, R190). -/
def s1Grants (e : Word) (k : AccKind) (user : Bool) : Bool :=
  let u := bitOf e 4
  match k with
  | .fetch => bitOf e 3 && u == user
  | .load => bitOf e 1 && (!user || u)
  | .store => bitOf e 2 && (!user || u)
  | .atomic => bitOf e 1 && bitOf e 2 && (!user || u)
  | .ioRead => bitOf e 1
  | .ioWrite => bitOf e 2

/-- Whether a stage-2 leaf grants an access (R169). -/
def s2Grants (e : Word) (k : AccKind) : Bool :=
  match k with
  | .fetch => bitOf e 3
  | .load | .ioRead => bitOf e 1
  | .store | .ioWrite => bitOf e 2
  | .atomic => bitOf e 1 && bitOf e 2

/-- What stage 1 gives an access: the intermediate address, the leaf's memory type and level. -/
inductive Stage1
  | ok (ipa mt lvl : Nat) (ws : WS)
  | fault (t : TFault) (ws : WS)
  deriving DecidableEq, Repr

/-- Sets the flags of a walked stage-1 leaf and caches it (R172): the table's stage 2 must grant W; the update is no use of
that stage-2 leaf by a store (log entry 18). -/
def s1Flag (r : Regime) (va : Nat) (k : AccKind) (l : S1Leaf) (w : WS) : Stage1 :=
  let done (e : Word) (w : WS) : Stage1 :=
    .ok (leafOut e l.lvl va) (getF e 8 2) l.lvl
      (w.fill (.s1 r.asid r.vmid (va / pageSize l.lvl) l.lvl e none) fun t => t.isS1 r va)
  if lacksFlag l.e k.isStore then
    if r.had1 && !r.refill then
      let e := flagged l.e k.isStore
      let set : Stage1 := done e ⟨w.dev.flagEntry l.pa l.keyid e, w.tlb⟩
      match l.s2 with
      | some (e2, l2) => if !bitOf e2 2 then .fault ⟨l2, 1, 1, 1, some l.table⟩ w else set
      | none => set
    else .fault ⟨l.lvl, 0, 0, 2, none⟩ w
  else done l.e w

/-- Stage 1 for an access (R162, R164, R169, R172, R180). -/
def stage1 (r : Regime) (c requester va : Nat) (k : AccKind) (w : WS) : Stage1 :=
  if !r.s1en then .ok va 0 0 w
  else
    let root := if r.va57 then 4 else 3
    let top := if r.va57 then va / 2 ^ 56 else va / 2 ^ 47
    let ones := if r.va57 then 2 ^ 8 - 1 else 2 ^ 17 - 1
    if top != 0 && top != ones then .fault ⟨root, 0, 0, 5, none⟩ w
    else
      let walk (w : WS) : Stage1 :=
        match s1From r c requester va root (entryAddr (word r.ttb1)) w with
        | .fault t w => .fault t w
        | .walked l w =>
          if !s1Grants l.e k r.user then .fault ⟨l.lvl, 0, 0, 1, none⟩ w
          else s1Flag r va k l w
      match w.find fun t => t.isS1 r va with
      | (some t, w) =>
        let e := t.word.1
        let lvl := t.word.2
        if !s1Grants e k r.user then .fault ⟨lvl, 0, 0, 1, none⟩ w
        else if lacksFlag e k.isStore then
          if r.refill || !r.had1 then .fault ⟨lvl, 0, 0, 2, none⟩ w else walk w
        else .ok (leafOut e lvl va) (getF e 8 2) lvl w
      | (none, w) => if r.refill then .fault ⟨0, 0, 0, 7, none⟩ w else walk w

/-! ### The whole translation -/

/-- A translated access: its physical and intermediate addresses, its memory type (0 WB, 1 WC, 2 NC, 3 DEV),
its KEYID, the stage and level that give its type, and the level of its stage-2 leaf (R170). -/
structure Access where
  pa : Nat
  ipa : Nat
  mt : Nat
  key : Nat
  stage : Nat
  lvl : Nat
  lvl2 : Nat
  deriving DecidableEq, Repr

/-- The outcome of a translation. -/
inductive Trans
  | ok (a : Access) (ws : WS)
  | fault (t : TFault) (ws : WS)
  deriving DecidableEq, Repr

/-- The type that R52 gives a physical address: WB in a DRAM home range or Peat user window, else DEV. -/
def Dev.hType (d : Dev) (pa : Nat) : Nat := if (d.claim pa).normal then 0 else 3

/-- The stage and level that a KIND 6 of the register space names (R170). -/
def regSpaceFault (s2en : Bool) (a : Access) : TFault :=
  if s2en then ⟨a.lvl2, 1, 0, 6, some a.ipa⟩ else ⟨a.lvl, a.stage, 0, 6, none⟩

/-- The checks of a memory type that a translation makes (R170): a fetch needs WB, DMA reaches no register space. A
strand's data access checks its size first (R64, R110). -/
def typeCheck (r : Regime) (k : AccKind) (a : Access) (w : WS) : Trans :=
  if k == .fetch && a.mt != 0 then .fault ⟨a.lvl, a.stage, 0, 6, some a.ipa⟩ w
  else if inRegSpace a.pa && (k == .ioRead || k == .ioWrite) then .fault (regSpaceFault r.s2en a) w
  else .ok a w

/-- The translation of an address for an access at S or U, or of DMA (R162 to R183, R190). -/
def translate (r : Regime) (c requester va : Nat) (k : AccKind) (w : WS) : Trans :=
  match stage1 r c requester va k w with
  | .fault t w => .fault t w
  | .ok ipa mt1 lvl1 w =>
    if !r.s2en then
      if !r.s1en && 2 ^ 52 ≤ va then .fault ⟨0, 0, 0, 5, none⟩ w
      else
        let mt2 := w.dev.hType ipa
        let mt := Nat.max mt1 mt2
        typeCheck r k ⟨ipa, ipa, mt, 0, if mt1 == mt then 0 else 1, if mt1 == mt then lvl1 else 0, 0⟩ w
    else
      match s2Use r c requester ipa 0 k.isStore w with
      | .fault t w => .fault t w
      | .leaf e lvl _ w =>
        if !s2Grants e k then .fault ⟨lvl, 1, 0, 1, some ipa⟩ w
        else
          let mt := Nat.max mt1 (getF e 8 2)
          typeCheck r k
            ⟨leafOut e lvl ipa, ipa, mt, leafKey e, if mt1 == mt then 0 else 1,
              if mt1 == mt then lvl1 else lvl, lvl⟩ w

/-- The translation cache of core c. -/
def Dev.tlbOf (d : Dev) (c : Nat) : List TlbEntry := SMap.get (fun _ => []) d.tlb c

def Dev.setTlb (d : Dev) (c : Nat) (t : List TlbEntry) : Dev :=
  { d with tlb := SMap.set (fun _ => []) d.tlb c t }

/-- The outcome of a strand's translation. -/
inductive XR
  | ok (a : Access) (d : Dev)
  | exc (e : Exc) (d : Dev)
  deriving DecidableEq, Repr

/-- The exception of a translation fault (R63, R178). -/
def faultExc (k : AccKind) (va : Word) (t : TFault) : Exc where
  code := k.cause
  faddr := some va
  fipa := if t.stage == 1 then t.fipa.map word else none
  syn := .xlate t.level t.stage t.s1w t.kind

/-- The translation of an address by strand g (R52, R162): at H the address is physical. -/
def Dev.xlate (d : Dev) (g : Nat) (x : Strand) (va : Word) (k : AccKind) : XR :=
  if x.pl == 2 then
    let pa := va.toNat
    let mt := d.hType pa
    if k == .fetch && mt != 0 then
      .exc { code := 5, faddr := some va, syn := .xlate 0 0 0 6 } d
    else .ok ⟨pa, pa, mt, 0, 0, 0, 0⟩ d
  else
    let c := d.phys (g / 2)
    match translate (regimeOf d x) c (d.globalId g) va.toNat k ⟨d, d.tlbOf c⟩ with
    | .ok a w => .ok a (w.dev.setTlb c w.tlb)
    | .fault t w => .exc (faultExc k va t) w.dev

/-! ### Page ownership and key use (R390, R394) -/

/-- The GiB of this socket's home range, and where its POT lies: 2 MiB for each (R393). -/
def Dev.homeGib (d : Dev) : Nat :=
  d.fld (R.HOME_LIMIT_ADDR.at (8 * d.self)) + 1 - d.fld (R.HOME_BASE_ADDR.at (8 * d.self))
def Dev.potBase (d : Dev) : Nat := d.fld R.POT_BASE_BASE * 2 ^ 21

/-- Whether a physical address lies in the POT's own pages, SYSTEM from boot-lock on (R393). -/
def Dev.inPot (d : Dev) (pa : Nat) : Bool :=
  d.locked && decide (d.potBase ≤ pa) && decide (pa < d.potBase + d.homeGib * 2 ^ 21)

/-- The POT entry of a page of this socket (R393): HOST while the table is off, and for Peat pages. -/
def Dev.potOf (d : Dev) (pa : Nat) : Pot :=
  if !d.flag R.POT_BASE_EN then ⟨0, 0, 0, 0⟩
  else if d.inPot pa then ⟨4, 0, 0, 0⟩
  else SMap.get (fun _ => ⟨0, 0, 0, 0⟩) d.pot (pa / 4096)

/-- Whether a strand's access passes the page-ownership check (R394). -/
def Dev.potAllows (d : Dev) (x : Strand) (a : Access) (k : AccKind) : Bool :=
  match d.claim a.pa with
  | .dram _ =>
    let p := d.potOf a.pa
    if p.st == 0 then !(x.sealedB && k == .fetch)
    else if p.st == 1 then
      match x.inside with
      | none => false
      | some (dom, _) =>
        match d.domain dom with
        | none => false
        | some m =>
          x.sealedB && p.dom == dom && bitOf x.tcfg 3 && a.ipa / 4096 == p.ipa
            && (a.key == m.key3 || some a.key == m.key4)
            && (match k with
              | .fetch => natBit p.rights 2
              | .load => natBit p.rights 0
              | .atomic => natBit p.rights 0 && natBit p.rights 1
              | _ => natBit p.rights 1)
    else false
  | .peat _ => !(x.sealedB && k == .fetch)
  | _ => true

/-- Whether a strand may use a KEYID (R389, R390): a domain's key is used by the domain's strands. -/
def Dev.keyAllows (d : Dev) (x : Strand) (keyid : Nat) : Bool :=
  let s := d.slot keyid
  if s.cls == 3 || s.cls == 4 then
    x.sealedB && (match x.inside with
      | some (dom, _) => dom == s.dom
      | none => false)
  else true

/-- The sealed-domain violation of an access, if any (R63, R390, R394). -/
def Dev.guard (d : Dev) (x : Strand) (va : Word) (a : Access) (k : AccKind) : Option Exc :=
  if d.potAllows x a k && d.keyAllows x a.key then none
  else if x.sealedB then some { code := 0x0D, fipa := some (putF (word a.ipa) 0 12 0) }
  else if x.pl != 2 && bitOf x.tcfg 3 then
    some { code := 0x0D, faddr := some va, fipa := some (word a.ipa) }
  else some { code := 0x0D, faddr := some va }

end Sys2Proof.Machine
end

