-- ==== Sys2Proof/Machine/Soc.lean ====
section
/-!
DEFINITION. Writes of the socket register space by access code (R11, R12), undefined offsets (R35),
the warming of a spare core (R25), and the steward's watchdog (R30).
-/

namespace Sys2Proof.Machine

open Sys2Proof

/-- A requester as `HOLE` and error records name it (R40): a global strand ID, or 0xFFF. -/
def Dev.requesterId (d : Dev) (r : Requester) : Nat :=
  match r with
  | .strand g => d.globalId g
  | .other => 0xFFF

/-- What a field holds after a write of its register (R11): an RWL field takes it until boot-lock. -/
def writeField (locked : Bool) (f : FieldSpec) (old v : Word) : Word :=
  let x := f.fld.get v
  match f.acc with
  | .ro | .wo => old
  | .rw | .rws => f.fld.put old x
  | .rwl => if locked then old else f.fld.put old x
  | .rw1c => old &&& ~~~ (f.fld.put 0 x)
  | .rw1cf => if x == 0 then old else f.fld.put old 0

/-- A register after a write by its access codes (R11, R12): bits of no field keep 0. -/
def writeWord (locked : Bool) (r : RegSpec) (old v : Word) : Word :=
  r.fields.foldl (fun w f => writeField locked f w v) old

/-- A write by access code of the register at an offset (R11); the event lines follow what it leaves (R479). -/
def Dev.writeReg (d : Dev) (off : Nat) (v : Word) : Dev :=
  match regAt off with
  | none => d
  | some r => d.rise (d.setReg off (writeWord d.locked r (d.reg off) v))

/-- The value that a read of a register gives (R11): WO fields read 0. -/
def readWord (r : RegSpec) (w : Word) : Word :=
  r.fields.foldl (fun acc f => if f.acc == .wo then acc else f.fld.put acc (f.fld.get w)) 0

/-- The windows and buffers of the register space: the error ring, the image and report windows, the steward's
mailbox buffer and telemetry window, the SE's mailbox buffer, the repair window (R312, R361, R380, R406, R508). -/
def inWindow (off : Nat) : Bool :=
  (0x10000 ≤ off && off < 0x20000) || (0x7F800 ≤ off && off < 0x100000)
    || (0x101000 ≤ off && off < 0x102000) || (0x180000 ≤ off && off < 0x200000)
    || (0x201000 ≤ off && off < 0x202000) || (0x7080000 ≤ off && off < 0x7100000)

/-- Whether some block of the register space defines an offset (R35). -/
def definedOff (off : Nat) : Bool := (regAt off).isSome || inWindow off

/-- An access to an undefined offset: the first one is recorded (R35, R40). -/
def Dev.hole (d : Dev) (r : Requester) (off : Nat) (write : Bool) : Dev :=
  if d.flag R.HOLE_VALID then d
  else
    let d := d.setFld R.HOLE_OFFSET off
    let d := d.setFld R.HOLE_REQUESTER (d.requesterId r)
    (d.setFld R.HOLE_WRITE (bnat write)).setFld R.HOLE_VALID 1

/-- UNDEFINED_OFFSET_ACCESS (R35): an aligned offset that no block defines. -/
def execUndefinedOffsetAccess (req : Requester) (off : Nat) (write : Bool) (s : State) :
    Host.Outcome State Fault Refusal :=
  onDev (reqOk req && decide (off < 2 ^ 28)) s fun d =>
    if off % 8 == 0 && !definedOff off then d.hole req off write else d

/-- The number of warm spares. -/
def Dev.warmSpares (d : Dev) : Nat := ((List.range 288).filter fun c => d.coreState c == 3).length

/-- Whether core c may be warmed: it is a cold spare and fewer spares than WARM_TARGET are warm (R23, R25). -/
def Dev.mayWarm (d : Dev) (c : Nat) : Bool :=
  d.coreState c == 2 && decide (d.warmSpares < d.fld R.CORE_COUNT_WARM_TARGET)

/-- The core's power state (R505). -/
def corePwr (c : Nat) : Field := R.CORE_PWR_STATE.at (8 * c)

/-- The L2 lines of the other cores. -/
def keepL2 (c : Nat) (m : SMap CLine) : SMap CLine :=
  SMap.filterMap (fun _ => CLine.none) (fun k v => if k % 512 == c then none else some v) m

/-- The ghosts of the other cores. -/
def keepGhosts (c : Nat) (m : SMap (Option Ghost)) : SMap (Option Ghost) :=
  SMap.filterMap (fun _ => none) (fun k v => if k % 512 == c then none else some v) m

/-- Removes every line and cached translation of a core: its arrays are invalidated (R23, R203). -/
def Dev.emptyCore (d : Dev) (c : Nat) : Dev :=
  { d with
    l2 := keepL2 c d.l2
    ghosts := keepGhosts c d.ghosts }.setTlb c []

/-- WARM_SPARE (R25): a cold spare becomes a warm one, idle with its caches invalidated (R23). -/
def execWarmSpare (c : Nat) (s : State) : Host.Outcome State Fault Refusal :=
  onDev (coreOk c) s fun d =>
    if d.mayWarm c then
      ((d.emptyCore c).setCoreState c 3).setFld (corePwr c) 2
    else d

/-! ### The repair record (R342, R377) -/

/-- The entries in use of the repair record, and what `REPAIR_STATUS` shows of it (R377, R380). -/
def Dev.showRepairs (d : Dev) : Dev :=
  let used := d.repairs.length
  (d.setFld R.REPAIR_STATUS_USED used).setFld R.REPAIR_STATUS_RECORD_LOW (bnat (decide (16384 < used + 256)))

/-- Records a repair; a full record takes no more, which a record of ACTION no spare tells (R377). -/
def Dev.addRepair (d : Dev) (r : Repair) (source : Nat) : Dev :=
  if d.repairs.length < 16384 then { d with repairs := d.repairs ++ [r] }.showRepairs
  else d.log { source := source, inst := r.inst, cls := 4, action := 7 }

/-- The repair record of a unit retired now (R342, R377). -/
def retiredUnit (d : Dev) (kind inst sub : Nat) : Repair :=
  ⟨3, kind, 0, inst, sub, 0, 0, false, false, d.frame⟩

/-- STEWARD_WATCHDOG_RESTART (R30): the steward restarts; an error record tells of it. -/
def execStewardWatchdogRestart (s : State) : Host.Outcome State Fault Refusal :=
  onDev true s fun d =>
    (((d.addSat R.STW_STATUS_RESTARTS 1).setFld R.STW_STATUS_STATE 1).bmcEvent 2 0).log { source := 0x10, cls := 5 }

end Sys2Proof.Machine
end

