-- ==== Sys2Proof/Machine/Coherence.lean ====
section
/-!
DEFINITION. The coherence protocol (R215 to R243): what a cache agent does with its lines, its requests and the
messages it receives; what a home, or the proxy of a line homed in another socket, does with requests, writebacks
and answers; recalls, the queue and Retry; and the removal of a socket (R240).
-/

namespace Sys2Proof.Machine

open Sys2Proof

/-! ### The cache agent (R224, R227, R230) -/

/-- Sends a message from a core to a line's home or proxy. -/
def Dev.toHome (d : Dev) (c g : Nat) (b : MsgBody) : Dev := d.send ⟨g, some (.core c), none, b⟩

/-- Core c's request for line g, unless it holds the line's ghost or has a request for it open (R230). -/
def Dev.requestLine (d : Dev) (c g keyid : Nat) (r : Req) : Dev :=
  if (d.mshr c g).isSome || (d.ghost c g).isSome then d
  else (d.setMshr c g (some ⟨r, keyid, none, none, 0, false⟩)).toHome c g (.request r)

/-- The key of a core's writeback slots at the slice of a line (R227). -/
def wbKey (c g : Nat) : Nat := c * 144 + hashIndex g

/-- The writebacks of core c that the slice of a line has not answered. -/
def Dev.wbUsed (d : Dev) (c g : Nat) : Nat := SMap.get (fun _ => 0) d.wbOut (wbKey c g)

def Dev.setWbUsed (d : Dev) (c g n : Nat) : Dev :=
  { d with wbOut := SMap.set (fun _ => 0) d.wbOut (wbKey c g) n }

/-- Whether core c holds a writeback credit for a line's slice (R227). -/
def Dev.wbCredit (d : Dev) (c g : Nat) : Bool := decide (d.wbUsed c g < 2)

/-- The number of ghosts of core c (R227). -/
def Dev.ghostCount (d : Dev) (c : Nat) : Nat :=
  (d.ghosts.filter fun kv => kv.1 % 512 == c && kv.2.isSome).length

/-- Core c sends WbM with flag K for a line it holds in M and keeps it in E (R230): it needs a writeback credit. -/
def Dev.writeBack (d : Dev) (c g : Nat) : Dev :=
  let d := d.checkLine c g allWords
  let l := d.line c g
  if l.st == .modified && d.wbCredit c g then
    let d := d.setLine c g { l with st := .exclusive, stored := 0 }
    let d := (d.setWbUsed c g (d.wbUsed c g + 1)).trackSent c g
    d.toHome c g (.wbm l.seq true l.data l.poison)
  else d

/-- Evicts a line from core c's L2 (R230): EvC for a clean line; WbM for a dirty one, whose ghost stays. It needs a
writeback credit, and a dirty line one of the 16 ghost slots (R227); none when it must wait. -/
def Dev.evict (d : Dev) (c g : Nat) : Option Dev :=
  let d := d.checkLine c g allWords
  let l := d.line c g
  if l.st == .invalid then some d
  else if !d.wbCredit c g then none
  else if l.st == .modified then
    if decide (16 ≤ d.ghostCount c) then none
    else
      let d := (d.dropLine c g).setGhost c g (some ⟨l.data, l.poison, l.key, l.seq⟩)
      let d := (d.setWbUsed c g (d.wbUsed c g + 1)).trackSent c g
      some (d.toHome c g (.wbm l.seq false l.data l.poison))
  else
    let d := (d.dropLine c g).setWbUsed c g (d.wbUsed c g + 1)
    some (d.toHome c g (.evc l.data l.poison))

/-- The lines of core c in the L2 set of a line (R194). -/
def Dev.l2Set (d : Dev) (c g : Nat) : List Nat :=
  (d.l2.filter fun kv => kv.1 % 512 == c && kv.1 / 512 % 2048 == g % 2048 && kv.2.st != .invalid).map
    fun kv => kv.1 / 512

/-- The line that an install into a full set evicts: one in neither L1 when there is one (R196). -/
def Dev.l2Victim (d : Dev) (c g : Nat) : Option Nat :=
  let ls := (d.l2Set c g).filter fun v => v != g && (d.mshr c v).isNone
  match ls.find? fun v => !(d.line c v).l1i && !(d.line c v).l1d with
  | some v => some v
  | none => ls.head?

/-- Makes room for a line in core c's L2; none when the fill must wait (R227). -/
def Dev.makeRoom (d : Dev) (c g : Nat) : Option Dev :=
  if (d.l2Set c g).length < 16 || (d.line c g).st != .invalid then some d
  else
    match d.l2Victim c g with
    | none => none
    | some v => d.evict c v

/-- The state a request is granted, at the core (R231). -/
def grantedLine (st : LineState) (key : Nat) (l : Line) (poison : Bool) (seq : BitVec 8) : CLine :=
  ⟨st, l, poison, key, false, false, 0, seq⟩

/-- A core's request is complete when its grant, and the data the grant needs, have come (R231): the line is
installed and Ack DONE sent. `PWB`, `CFLUSH` and stashes bring no line. -/
def Dev.completeRequest (d : Dev) (c g : Nat) : Dev :=
  match d.mshr c g with
  | none => d
  | some m =>
    match m.grant with
    | none => d
    | some (st, seq) =>
      let close (d : Dev) : Dev := (d.setMshr c g none).toHome c g (.ack .done)
      if st == .invalid then close d
      else
        match m.data with
        | some (l, p, _) =>
          match d.makeRoom c g with
          | none => d
          | some d => close (d.fillLine c g (grantedLine st m.key l p seq))
        | none =>
          let l := d.line c g
          if l.st != .invalid then close (d.setLine c g { l with st := st, seq := seq }) else d

/-- Retries the requests of core c that wait for room (R227). -/
def Dev.retryFills (d : Dev) (c : Nat) : Dev :=
  let waiting := (List.filterMap (fun kv : Nat × Option Mshr =>
    if kv.1 % 512 == c && kv.2.isSome then some (kv.1 / 512) else none) d.mshrs)
  waiting.foldl (fun d g => d.completeRequest c g) d

/-- Whether core c's L2 marks a line's set as having lost a possibly dirty line (R209, R210). -/
def Dev.l2Lost (d : Dev) (c g : Nat) : Bool :=
  let f := (tileAt R.L2_LOST_SET c 0x100).at (8 * (g % 2048 / 64))
  bitOf (d.reg f.reg) (g % 64)

/-- A holder's answer to FwdS (R232). -/
def Dev.answerFwdS (d : Dev) (c g : Nat) (req : Agent) (u m : Bool) : Dev :=
  let me := some (Agent.core c)
  let d := d.checkLine c g allWords
  let l := d.line c g
  let toReq (d : Dev) (x : Line) (dirty p : Bool) := d.send ⟨g, me, some req, .data x dirty p false⟩
  let toHome (d : Dev) (x : Line) (p : Bool) := d.send ⟨g, me, none, .data x true p false⟩
  let ack (d : Dev) (gh dd : Bool) := d.toHome c g (.ack (.fwd gh dd))
  if m then
    if l.st == .modified then
      ack (toHome ((d.setLine c g { l with st := .exclusive, stored := 0 }).trackSent c g) l.data l.poison)
        false true
    else
      match d.ghost c g with
      | some h => ack (toHome d h.data h.poison) true true
      | none => if l.st == .invalid then d.toHome c g .absent else ack d false false
  else if l.st == .modified then
    if u then ack (toReq d l.data true l.poison) false false
    else
      let d := (d.setLine c g { l with st := .shared, stored := 0 }).trackSent c g
      ack (toHome (toReq d l.data true l.poison) l.data l.poison) false true
  else if l.st == .exclusive || l.st == .lead || l.st == .shared then
    let d := if u || l.st == .shared then d else d.setLine c g { l with st := .shared, stored := 0 }
    ack (toReq d l.data false l.poison) false false
  else
    match d.ghost c g with
    | some h =>
      if u then ack (toReq d h.data true h.poison) true false
      else ack (toHome (toReq d h.data true h.poison) h.data h.poison) true true
    | none =>
      if d.l2Lost c g then ack (toReq d 0 false true) false false else d.toHome c g .absent

/-- A holder's answer to FwdX (R232, R269): a dirty Peat line goes to the home as well; in a recall the data goes to
the home alone. -/
def Dev.answerFwdX (d : Dev) (c g : Nat) (req : Agent) (rcl : Bool) : Dev :=
  let me := some (Agent.core c)
  let d := d.checkLine c g allWords
  let l := d.line c g
  let toReq (d : Dev) (x : Line) (dirty p : Bool) :=
    if rcl then d else d.send ⟨g, me, some req, .data x dirty p false⟩
  let toHome (d : Dev) (x : Line) (dirty p : Bool) :=
    if rcl || (dirty && isPeat g) then d.send ⟨g, me, none, .data x dirty p false⟩ else d
  let ack (d : Dev) (gh dirty : Bool) := d.toHome c g (.ack (.fwd gh (rcl || (dirty && isPeat g))))
  if l.st != .invalid then
    let dirty := l.st == .modified
    let d := d.dropLine c g
    let d := if dirty then d.trackSent c g else d
    ack (toHome (toReq d l.data dirty l.poison) l.data dirty l.poison) false dirty
  else
    match d.ghost c g with
    | some h => ack (toHome (toReq d h.data true h.poison) h.data true h.poison) true true
    | none =>
      if d.l2Lost c g then
        if rcl then d.send ⟨g, me, none, .data 0 true true false⟩ |>.toHome c g (.ack (.fwd false true))
        else ack (toReq d 0 false true) false false
      else d.toHome c g .absent

/-- A sharer's answer to Inv (R232). -/
def Dev.answerInv (d : Dev) (c g : Nat) : Dev :=
  if (d.line c g).st != .invalid then (d.dropLine c g).toHome c g (.ack .inv)
  else if (d.ghost c g).isSome then d.toHome c g (.ack .inv)
  else d.toHome c g .absent

/-- Whether core c's L2 takes a stashed line (R211): a way is free, or holds a clean line in neither L1 without an open
transaction, which leaves. -/
def Dev.stashRoom (d : Dev) (c g : Nat) : Option Dev :=
  if !d.l2On c || (d.ghost c g).isSome || (d.mshr c g).isSome then none
  else if (d.l2Set c g).length < 16 then some d
  else
    match (d.l2Set c g).find? fun v =>
        let x := d.line c v
        x.st != .modified && !x.l1i && !x.l1d && (d.mshr c v).isNone && d.wbCredit c v with
    | none => none
    | some v => d.evict c v

/-- Core c's L2 installs a stashed line: in M when dirty, a Peat line in E (R235). -/
def Dev.putStash (d : Dev) (c g : Nat) (l : Line) (dirty p : Bool) (key : Nat) : Dev :=
  let st : LineState := if dirty && !isPeat g then .modified else .exclusive
  let d := d.fillLine c g (grantedLine st key l p ((d.dir g).ownseq + 1))
  d.addSat (R.STASH_IN_COUNT.at (0x10000 * (c / 2))) 1

/-- Stashed data reaches a target L2 (R211, R235): installed, or declined. -/
def Dev.takeStash (d : Dev) (c g : Nat) (l : Line) (dirty p : Bool) (key : Nat) : Dev :=
  match d.stashRoom c g with
  | some d => (d.putStash c g l dirty p key).toHome c g (.ack .hint)
  | none => d.toHome c g .absent

/-- Data reaches a core (R222): for its request, or as a stash (flag T). -/
def Dev.dataAtCore (d : Dev) (c g : Nat) (l : Line) (dirty p t : Bool) : Dev :=
  if t then d.takeStash c g l dirty p (match d.txn g with
    | some x => x.key
    | none => 0)
  else
    match d.mshr c g with
    | none => d
    | some m => (d.setMshr c g (some { m with data := some (l, p, dirty) })).completeRequest c g

/-- Ack GRANT reaches a core (R231): of a `PWB` of a Peat line it also ends the wait for it (R276). -/
def Dev.grantAtCore (d : Dev) (c g : Nat) (st : LineState) (seq : BitVec 8) : Dev :=
  match d.mshr c g with
  | none => d
  | some m =>
    let d := match m.req with
      | .rds _ true => { d with directPw := d.directPw.filter fun w => !(w.strand < 512 && d.phys (w.strand / 2) == c && w.line == g) }
      | _ => d
    (d.setMshr c g (some { m with grant := some (st, seq) })).completeRequest c g

/-- Sends the WbMs that a sweep owes: the closing entries whose line the core holds in M (R268). -/
def Dev.sweep (d : Dev) (c : Nat) : Dev :=
  let d := (d.tracker c).closing.foldl (fun d e => if e.dirty then d.writeBack c e.g else d) d
  let t := d.tracker c
  d.setTracker c { t with
    closing := t.closing.filter fun e => e.owed != 0 || (d.line c e.g).st == .modified }

/-- Ack WB reaches a core (R227, R270): with flag P the intake holds the data; without, the credit returns and the
ghost is freed, and what waited for the credit goes on. -/
def Dev.wbAckAtCore (d : Dev) (c g : Nat) (p : Bool) : Dev :=
  if p then d.setTracker c ((d.tracker c).ackLine g)
  else
    let d := (d.setWbUsed c g (d.wbUsed c g - 1)).setGhost c g none
    (d.sweep c).retryFills c

/-! ### Demand accesses (R195, R196) -/

/-- Whether core c's L1 instruction or data cache is enabled (R213). -/
def Dev.l1On (d : Dev) (c : Nat) (instr : Bool) : Bool :=
  d.flag (tileAt (if instr then R.CORE_CACHE_CTL_L1I_EN else R.CORE_CACHE_CTL_L1D_EN) c 0x100)

/-- The sets and ways of an L1 (R194). -/
def l1Sets (instr : Bool) : Nat := if instr then 256 else 128
def l1Ways (instr : Bool) : Nat := if instr then 4 else 8

/-- Whether a line is in the L1. -/
def CLine.inL1 (l : CLine) (instr : Bool) : Bool := if instr then l.l1i else l.l1d

/-- The line with its L1 mark set or cleared. -/
def CLine.putL1 (l : CLine) (instr on : Bool) : CLine :=
  if instr then { l with l1i := on } else { l with l1d := on }

/-- The other lines of core c in the L1 set of a line. -/
def Dev.l1Peers (d : Dev) (c g : Nat) (instr : Bool) : List Nat :=
  (d.l2.filter fun kv => kv.1 % 512 == c && kv.1 / 512 != g && kv.1 / 512 % l1Sets instr == g % l1Sets instr
    && kv.2.inL1 instr).map fun kv => kv.1 / 512

/-- A line that core c's L2 holds enters its L1 (R195); a full set loses a line (R194 leaves the order free). -/
def Dev.markL1 (d : Dev) (c g : Nat) (instr : Bool) : Dev :=
  let l := d.line c g
  if !d.l1On c instr || l.inL1 instr then d
  else
    let ps := d.l1Peers c g instr
    let d := match ps with
      | [] => d
      | v :: _ => if ps.length < l1Ways instr then d else d.setLine c v ((d.line c v).putL1 instr false)
    d.setLine c g (l.putL1 instr true)

/-- A demand access of core c to a WB line (R196): the L1 takes a line that the L2 holds; another is requested. -/
def Dev.demand (d : Dev) (c g keyid : Nat) (instr : Bool) : Dev :=
  if !d.l2On c then d
  else if (d.line c g).st != .invalid then d.markL1 c g instr
  else d.requestLine c g keyid (.rds false false)

/-! ### The directory's sets (R217 to R220, R228) -/

/-- The directory set of a line (R217). -/
def dirSet (g : Nat) : Nat := (g % 2 ^ 14) ^^^ (g / 2 ^ 14 % 2 ^ 14)

/-- Whether an entry is valid (R219). -/
def Dir.valid (e : Dir) : Bool := e.st != .uncached || e.llcd || e.held

/-- A register of the directory slice of a line (R243). -/
def sliceReg (f : Field) (g : Nat) : Field := f.at (0x10000 * hashIndex g)

/-- The other lines with a valid entry in a line's directory set. -/
def Dev.dirPeers (d : Dev) (g : Nat) : List (Nat × Dir) :=
  d.dirs.filter fun kv => kv.1 != g && kv.2.valid && dirSet kv.1 == dirSet g && hashIndex kv.1 == hashIndex g

/-- The usable ways of a line's set (R243). -/
def Dev.dirUsable (d : Dev) (g : Nat) : Nat := d.fld (sliceReg R.DIR_STATUS_USABLE g)

/-- The least recently used entry that is not held (R229). -/
def lruOf : List (Nat × Dir) → Option (Nat × Dir)
  | [] => none
  | e :: es =>
    match lruOf es with
    | none => if e.2.held then none else some e
    | some f => if !e.2.held && e.2.used < f.2.used then some e else some f

/-- What the admission of a request finds (R228). -/
inductive Admit
  | yes
  | evict (victim : Nat)
  | no
  deriving DecidableEq, Repr

/-- The admission of a request for a line without an open transaction (R225, R228). -/
def Dev.admission (d : Dev) (g : Nat) : Admit :=
  let peers := d.dirPeers g
  let h := (peers.filter fun e => e.2.held).length
  let cap := d.dirUsable g - 2
  if (d.dir g).valid || peers.length < d.dirUsable g then
    if h + 1 ≤ cap then .yes else .no
  else if h + 2 ≤ cap then
    match lruOf peers with
    | some v => .evict v.1
    | none => .no
  else .no

/-- A way of the set that no entry uses and that is not retired. -/
def Dev.freeDirWay (d : Dev) (g : Nat) : Nat :=
  let used := (d.dirPeers g).map fun e => e.2.way
  let ret := d.fld (sliceReg R.DIR_STATUS_RETIRED g)
  ((List.range 8).find? fun w => !natBit ret w && !used.contains w).getD 0

/-- The entry of a line as a transaction opens: held, in its way, used now; a line homed elsewhere has a proxy
entry (R217, R225). -/
def Dev.holdEntry (d : Dev) (g : Nat) : Dev :=
  let e := d.dir g
  let way := if e.valid then e.way else d.freeDirWay g
  let e' := { e with held := true, way := way, used := d.turns + 1, proxy := !d.homedHere g }
  let d := { d with turns := d.turns + 1 }
  d.setDir g e'

/-- The open transactions and the queue of a slice, as `DIR_STATUS` shows them. -/
def Dev.showSlice (d : Dev) (g : Nat) : Dev :=
  let i := hashIndex g
  let opens := (List.filter (fun kv : Nat × Option Txn => kv.2.isSome && hashIndex kv.1 == i) d.txns).length
  let q := (SMap.get (fun _ => []) d.homeQ i).length
  (d.setFld (sliceReg R.DIR_STATUS_OPEN g) (Nat.min opens 255)).setFld (sliceReg R.DIR_STATUS_QUEUED g) q

/-! ### The home's memory (R196, R239) -/

/-- A line read from memory by its home; a proxy obtains it from the other socket's home: a free value. -/
def Dev.source (d : Dev) (g key : Nat) : Got :=
  if d.homedHere g then d.homeRead g key
  else
    let f := d.drawLine
    ⟨f.1, false, 3, f.2⟩

/-- A line written by its home to memory or its intake; a proxy passes it on to the other socket. -/
def Dev.sink (d : Dev) (g key : Nat) (l : Line) (p urgent : Bool) (ack : Option Agent) : Dev :=
  if d.homedHere g then d.homeWrite g key l p urgent ack else d

/-- Dirty data that the home keeps in its LLC slice (R196); a Peat line goes to its intake and stays clean there
(R269). Lines of other sockets are never placed in this one's LLC (R239). -/
def Dev.keepDirty (d : Dev) (g key : Nat) (l : Line) (p : Bool) (ack : Option Agent) : Dev :=
  if !d.homedHere g then d
  else if isPeat g then (d.homeWrite g key l p false ack).llcPut g l false p key
  else
    let d := d.llcPut g l true p key
    match d.llcGet g with
    | some x => if x.dirty then d.setDir g { d.dir g with llcd := true, llcway := x.way } else d
    | none => d

/-- A clean copy for the home LLC slice, unless it holds the line (R196). -/
def Dev.keepClean (d : Dev) (g key : Nat) (l : Line) (p : Bool) : Dev :=
  if d.homedHere g && (d.llcGet g).isNone then d.llcPut g l false p key else d

/-- The LLC copy leaves and LLCD is cleared (R221). -/
def Dev.clearLlc (d : Dev) (g : Nat) : Dev :=
  (d.llcDrop g).setDir g { d.dir g with llcd := false, llcway := 0 }

/-- Whether the home LLC slice holds the line dirty by the directory's record (R221). -/
def Dev.llcDirty (d : Dev) (g : Nat) : Bool := (d.dir g).llcd

/-- The home's own copy of a line: the LLC's, or memory's; a dirty-LLC record whose way holds no such line gives
poison (R210). -/
def Dev.homeCopy (d : Dev) (g key : Nat) : Got × Bool :=
  match d.llcGet g with
  | some l => (⟨l.data, l.poison, 2, d⟩, true)
  | none =>
    if d.llcDirty g then (⟨0, true, 2, d⟩, true) else (d.source g key, false)

/-! ### Transactions (R225 to R231) -/

/-- The agents that a broadcast invalidation reaches (R239): every enabled L2 of the socket, and with REMOTE every
other coherent socket. -/
def Dev.everyAgent (d : Dev) (remote : Bool) : List Agent :=
  ((List.range 288).filter fun c => d.l2On c).map Agent.core ++
    (if remote then
      ((List.range 8).filter fun s => s != d.self && natBit (d.fld R.CHAIN_STATUS_COHERENT) s).map Agent.socket
    else [])

/-- The recorded or possible sharers of a line. -/
def Dev.sharers (d : Dev) (g : Nat) : List Agent :=
  let e := d.dir g
  match e.st with
  | .pointer => e.ptrs
  | .broadcast => d.everyAgent e.remote
  | _ => []

/-- The owner that the directory names. -/
def Dev.ownerOf (d : Dev) (g : Nat) : Option Agent :=
  let e := d.dir g
  match e.st with
  | .owned => e.ptrs.head?
  | _ => none

/-- The Lead that the directory names. -/
def Dev.leadOf (d : Dev) (g : Nat) : Option Agent :=
  let e := d.dir g
  match e.st with
  | .pointer => e.ptrs[e.lead]?
  | _ => none

/-- The forward of a request: FwdS with its flags, or FwdX. -/
inductive Fwd
  | s (u m : Bool)
  | x (rcl : Bool)
  deriving DecidableEq, Repr

/-- An agent other than the requester. -/
def notSrc (src : Agent) (a : Option Agent) : Option Agent := if a == some src then none else a

/-- What the home asks of others for a request (R231, R235, R237): whom it invalidates, whom it forwards to. -/
def Dev.plan (d : Dev) (g : Nat) (src : Agent) (r : Req) : List Agent × Option (Agent × Fwd) :=
  let own := d.ownerOf g
  let lead := d.leadOf g
  let ask (a : Option Agent) (f : Fwd) := a.map fun a => (a, f)
  let others := (d.sharers g).filter fun a => a != src
  match r with
  | .rds u m =>
    if m then ([], ask (notSrc src own) (.s false true))
    else ([], ask (notSrc src (if own.isSome then own else lead)) (.s u false))
  | .rdx false =>
    let l := notSrc src lead
    (others.filter fun a => some a != l, ask (if own.isSome then notSrc src own else l) (.x false))
  | .rdx true | .atomic .. => (d.sharers g, ask own (.x true))
  | .upg =>
    if (d.dir g).st == .pointer && (d.dir g).ptrs.contains src then (others, none)
    else
      let l := notSrc src lead
      (others.filter fun a => some a != l, ask (if own.isSome then notSrc src own else l) (.x false))
  | .stash .. => (others, ask (notSrc src own) (.x true))

/-- Opens a transaction and sends what it asks (R225, R231): a broadcast is counted (R243). -/
def Dev.openTxn (d : Dev) (g key : Nat) (k : TxnKind) (req : Agent) (invs : List Agent)
    (fwd : Option (Agent × Fwd)) : Dev :=
  let bcast := (d.dir g).st == .broadcast && !invs.isEmpty
  let d := d.holdEntry g
  let d := if bcast then d.addSat (sliceReg R.DIR_BCAST_COUNT g) 1 else d
  let d := d.setTxn g (some ⟨k, invs, fwd.map fun f => f.1, false, false, false, none, key, .gather⟩)
  let d := invs.foldl (fun d a => d.send ⟨g, none, some a, .inv⟩) d
  match fwd with
  | none => d
  | some (a, .s u m) => d.send ⟨g, none, some a, .fwds req u m⟩
  | some (a, .x rcl) => d.send ⟨g, none, some a, .fwdx req rcl⟩

/-- Sends Ack GRANT with a state (R231). -/
def Dev.grant (d : Dev) (g : Nat) (src : Agent) (st : LineState) : Dev :=
  let d := match d.txn g with
    | some t => d.setTxn g (some { t with stage := .granted })
    | none => d
  d.send ⟨g, none, some src, .ack (.grant st (d.dir g).ownseq)⟩

/-- Sends a line from the home to its requester. -/
def Dev.sendData (d : Dev) (g : Nat) (src : Agent) (l : Line) (dirty p t : Bool) : Dev :=
  d.send ⟨g, none, some src, .data l dirty p t⟩

/-- The entry Owned by an agent, under a new OWNSEQ (R231). -/
def Dev.ownBy (d : Dev) (g : Nat) (a : Agent) : Dev :=
  let e := d.dir g
  d.setDir g { e with st := .owned, remote := false, lead := 3, ptrs := [a], ownseq := e.ownseq + 1 }

/-- The entry with its sharers removed: Uncached (R220). -/
def Dev.noSharers (d : Dev) (g : Nat) : Dev :=
  d.setDir g { d.dir g with st := .uncached, remote := false, lead := 3, ptrs := [] }

/-- Adds a sharer as the Lead, or as a fourth one that makes the entry Broadcast-shared (R220, R231); the state it
is granted. -/
def Dev.addSharer (d : Dev) (g : Nat) (a : Agent) : LineState × Dev :=
  let e := d.dir g
  let ptrs := if e.st == .pointer then e.ptrs.filter fun p => p != a else []
  match e.st with
  | .broadcast => (.shared, d.setDir g { e with remote := e.remote || (match a with
      | .socket _ => true
      | _ => false) })
  | _ =>
    if 3 ≤ ptrs.length then
      let far := (a :: ptrs).any fun p => match p with
        | .socket _ => true
        | _ => false
      (.shared, d.setDir g { e with st := .broadcast, remote := far, lead := 3, ptrs := [] })
    else (.lead, d.setDir g { e with st := .pointer, lead := ptrs.length, ptrs := ptrs ++ [a] })

/-- Removes an agent from the pointers of an entry (R220, R234). -/
def Dev.dropPtr (d : Dev) (g : Nat) (a : Agent) : Dev :=
  let e := d.dir g
  if !e.ptrs.contains a then d
  else
    let ptrs := e.ptrs.filter fun p => p != a
    if ptrs.isEmpty then d.noSharers g
    else
      let lead := match e.ptrs[e.lead]? with
        | some l => if l == a then 3 else (ptrs.findIdx fun p => p == l)
        | none => 3
      d.setDir g { e with ptrs := ptrs, lead := lead }

/-- Whether the Data of a served forward to an agent is dirty: in flight or arrived. -/
def Dev.dirtyTo (d : Dev) (g : Nat) (src : Agent) : Bool :=
  (d.net.any fun m => m.g == g && m.dst == some src && (match m.body with
    | .data _ dirty _ _ => dirty
    | _ => false)) ||
  (match src with
    | .core c => match d.mshr c g with
      | some m => match m.data with
        | some x => x.2.2
        | none => false
      | none => false
    | _ => false)

/-- The state that ownership is granted in (R231): a Peat line, whose dirty data goes to its intake, in E (R269). -/
def ownState (g : Nat) (dirty : Bool) : LineState := if dirty && !isPeat g then .modified else .exclusive

/-- The tile whose cores a stash target names, and the physical core it may be sent to (R121): none when the line
goes home. -/
def State.stashCore (s : State) (g : Nat) (target : BitVec 16) : Option Nat :=
  let d := s.dev
  let l := target.toNat % 256
  let sk := target.toNat / 256 % 8
  if natBit target.toNat 15 || sk != d.self || !d.homedHere g || !d.coreThere l then none
  else if d.coreState (d.phys l) == 5 || !d.l2On (d.phys l) then none
  else if (s.strand (2 * l)).parked && ((s.strand (2 * l + 1)).parked || (d.pm l).active) then none
  else some (d.phys l)

/-- The former holder that is told when an intake accepts the data it sent (R270). -/
def Txn.former (t : Txn) (before : Option Agent) : Option Agent := if t.want then before else none

/-- A gathered line is in the home's hands: the value, whether it is newer than memory, its poison. -/
def Dev.gathered (d : Dev) (g : Nat) (t : Txn) : Line × Bool × Bool × Dev :=
  match t.data with
  | some (l, dirty, p) =>
    if dirty then (l, true, p, d)
    else (l, d.llcDirty g, p, d)
  | none =>
    let r := d.homeCopy g t.key
    (r.1.line, d.llcDirty g, r.1.poison, r.1.dev)

/-- The transaction waits for the intake to accept the line (R270), or goes on at once. -/
def Dev.awaitIntake (d : Dev) (g : Nat) (wait : Bool) (src : Agent) : Dev :=
  if wait then
    match d.txn g with
    | some t => d.setTxn g (some { t with stage := .intake })
    | none => d
  else d.grant g src .invalid

/-- A stashed line is placed in its home LLC slice (R235 step 4). -/
def Dev.stashHome (d : Dev) (g key : Nat) (l : Line) (dirty p : Bool) : Dev :=
  let d := d.noSharers g
  if dirty && !isPeat g then d.keepDirty g key l p none else d.keepClean g key l p

/-- A line that is not for a core goes home: counted for a target that was named (R213, R235). -/
def Dev.countHomeStash (d : Dev) (target : BitVec 16) : Dev :=
  let lg := target.toNat % 256
  if natBit target.toNat 15 || target.toNat / 256 % 8 != d.self then d
  else d.addSat (R.STASH_HOME_COUNT.at (0x10000 * (d.phys lg / 2))) 1

/-- A write of a unit of the socket that is no core, as a Stash (R235, R412, R433): the line is gathered, merged and
placed at the target or at home; a dirty Peat line goes to its intake first. While a transaction is open it is written
in place. A line homed in another socket leaves the model. -/
def State.ioStash (s : State) (g off : Nat) (bs : List Byte) (key : Nat) (target : BitVec 16) (poison : Bool) : State :=
  let d := s.dev
  if !d.homedHere g then s
  else if d.lineBusy g then
    let d := d.poke g off bs key false none
    { s with dev := if poison then { d with bad := SMap.set (fun _ => false) d.bad g true } else d }
  else
    let r := d.gather g key
    let l := putBytes r.line off bs
    let p := poison || (r.poison && decide (bs.length < 64))
    let d := if isPeat g then r.dev.homeWrite g key l p false (formerAgent r.former) else r.dev
    let dirty := !isPeat g
    let home (d : Dev) : Dev := (d.stashHome g key l dirty p).countHomeStash target
    match { s with dev := d }.stashCore g target with
    | none => { s with dev := home d }
    | some c =>
      match d.stashRoom c g with
      | none => { s with dev := home d }
      | some d => { s with dev := (d.putStash c g l dirty p key).ownBy g (.core c) }

/-- Step 3 of a stash (R235): the data goes to the target, or home. -/
def State.stashPlace (s : State) (g : Nat) (src : Agent) (target : BitVec 16) (l : Line) (dirty p : Bool) :
    State :=
  let d := s.dev
  match d.txn g with
  | none => s
  | some t =>
    match s.stashCore g target with
    | some c =>
      let d := d.noSharers g
      { s with dev := (d.setTxn g (some { t with
          stage := .target c
          data := some (l, dirty, p) })).sendData g (.core c) l dirty p true }
    | none =>
      { s with dev := ((d.stashHome g t.key l dirty p).countHomeStash target).grant g src .invalid }

/-- Closes a transaction (R225): the entry is no longer held. -/
def Dev.closeTxn (d : Dev) (g : Nat) : Dev :=
  let d := d.setTxn g none
  let e := d.dir g
  if e.st == .uncached && !e.llcd then d.setDir g { ownseq := e.ownseq }
  else d.setDir g { e with held := false }

/-- Who is told that the intake holds a stashed line (R270): a core that stashes its own dirty line, else a former
holder. -/
def stashFormer (src : Agent) (mask : BitVec 64) (former : Option Agent) : Option Agent :=
  match src with
  | .core _ => if mask != 0 then some src else former
  | _ => former

/-- A transaction has every answer: what the home then does (R229, R231, R235, R237). -/
def State.finishTxn (s : State) (g : Nat) (t : Txn) : State :=
  let d := s.dev
  let owner := d.ownerOf g
  match t.kind with
  | .rcl =>
    let r := d.gathered g t
    let d := r.2.2.2
    let d := if r.2.1 then d.sink g t.key r.1 r.2.2.1 false owner else d
    let d := (d.clearLlc g).noSharers g
    { s with dev := (d.keepClean g t.key r.1 r.2.2.1).closeTxn g }
  | .request src (.rds true false) =>
    -- an uncached snapshot: the requester is not recorded (R236)
    if t.served then { s with dev := d.closeTxn g }
    else
      let r := d.homeCopy g t.key
      { s with dev := (r.1.dev.sendData g src r.1.line false r.1.poison false).closeTxn g }
  | .request src (.rds false false) =>
    if t.served then
      let d := match t.data with
        | some (l, true, p) => d.keepDirty g t.key l p (t.former owner)
        | _ => d
      let e := d.dir g
      -- the former owner stays as a sharer, unless its ghost served (R231, R232)
      let d := if e.st == .owned then
          d.setDir g { e with st := if t.ghost then .uncached else .pointer, lead := 3, ptrs := if t.ghost then [] else e.ptrs }
        else d
      let a := d.addSharer g src
      { s with dev := a.2.grant g src a.1 }
    else
      let r := d.homeCopy g t.key
      let fromLlc := r.2
      let d := r.1.dev.sendData g src r.1.line false r.1.poison false
      if (d.dir g).st == .uncached && !fromLlc then
        { s with dev := (d.ownBy g src).grant g src .exclusive }
      else
        let d := d.keepClean g t.key r.1.line r.1.poison
        let a := d.addSharer g src
        { s with dev := a.2.grant g src a.1 }
  | .request src (.rds _ true) =>
    -- PWB (R237)
    match t.data with
    | some (l, true, p) =>
      let d := d.sink g t.key l p true (t.former owner)
      { s with dev := d.awaitIntake g (isPeat g && d.homedHere g) src }
    | _ =>
      let d := match d.llcGet g with
        | some x =>
          if x.dirty then
            let d := d.sink g x.key x.data x.poison true none
            (d.llcPut g x.data false x.poison x.key).setDir g { d.dir g with llcd := false, llcway := 0 }
          else d
        | none => d
      { s with dev := d.grant g src .invalid }
  | .request src (.rdx true) =>
    -- CFLUSH (R237)
    let r := d.gathered g t
    let d := r.2.2.2
    let d := if r.2.1 then d.sink g t.key r.1 r.2.2.1 false owner else d
    let d := (d.clearLlc g).noSharers g
    { s with dev := d.awaitIntake g (r.2.1 && isPeat g && d.homedHere g) src }
  | .request src (.rdx false) | .request src .upg =>
    let held := t.kind == .request src .upg && (d.dir g).st == .pointer && (d.dir g).ptrs.contains src
    let dirtyLlc := d.llcDirty g
    if t.served then
      let dirty := d.dirtyTo g src || (match t.data with
        | some x => x.2.1
        | none => false) || dirtyLlc
      let d := match t.data with
        | some (l, true, p) => if isPeat g then d.sink g t.key l p false (t.former owner) else d
        | _ => d
      let d := (d.clearLlc g).ownBy g src
      { s with dev := d.grant g src (ownState g dirty) }
    else if held then
      { s with dev := ((d.clearLlc g).ownBy g src).grant g src (ownState g dirtyLlc) }
    else
      let r := d.homeCopy g t.key
      let d := r.1.dev.sendData g src r.1.line dirtyLlc r.1.poison false
      { s with dev := ((d.clearLlc g).ownBy g src).grant g src (ownState g dirtyLlc) }
  | .request src (.stash target mask bytes) =>
    let r := d.gathered g t
    let d := r.2.2.2.clearLlc g
    let l := mergeLine r.1 bytes mask
    let dirty := r.2.1 || mask != 0
    let p := r.2.2.1 && mask != fullMask
    if isPeat g && dirty && d.homedHere g then
      let d := (d.noSharers g).homeWrite g t.key l p false (stashFormer src mask (t.former owner))
      { s with dev := d.setTxn g (some { t with
          stage := .intake
          data := some (l, false, p) }) }
    else { s with dev := d }.stashPlace g src target l dirty p
  | .request src (.atomic op dbl off operand expected) =>
    let r := d.gathered g t
    let d := (r.2.2.2.clearLlc g).noSharers g
    let n := if dbl then 8 else 4
    let old := leNat (takeBytes r.1 off n)
    let new := atomicNew op n old operand expected
    let l := match new with
      | some x => putBytes r.1 off (leBytes n x)
      | none => r.1
    let d := if r.2.1 || new.isSome then d.keepDirty g t.key l r.2.2.1 (t.former owner) else d
    -- the old value returns with the line as it was
    { s with dev := (d.sendData g src r.1 false r.2.2.1 false).closeTxn g }

/-- Whether a transaction that gathers has every answer (R231): no Inv or forward open, and the data owed to the
home arrived. -/
def Txn.ready (t : Txn) : Bool :=
  t.stage == .gather && t.invs.isEmpty && t.fwd.isNone && (!t.want || t.data.isSome)

/-- Goes on with a line's transaction when it has every answer. -/
def State.advanceTxn (s : State) (g : Nat) : State :=
  match s.dev.txn g with
  | none => s
  | some t => if t.ready then s.finishTxn g t else s

/-! ### Admission, the queue and Retry (R225 to R229) -/

/-- The KEYID that a request is served under: its core's access, or KEYID 0. -/
def Dev.reqKey (d : Dev) (g : Nat) (src : Agent) : Nat :=
  match src with
  | .core c => match d.mshr c g with
    | some m => m.key
    | none => 0
  | _ => 0

/-- Opens a request's transaction. -/
def State.openRequest (s : State) (g : Nat) (src : Agent) (r : Req) (key : Nat) : State :=
  let p := s.dev.plan g src r
  { s with dev := s.dev.openTxn g key (.request src r) src p.1 p.2 }.advanceTxn g

/-- Opens a recall (R229): it is counted (R243). -/
def State.openRecall (s : State) (v : Nat) : State :=
  let d := s.dev.addSat (sliceReg R.DIR_RECALLS_COUNT v) 1
  let own := d.ownerOf v
  let fwd := own.map fun a => (a, Fwd.x true)
  { s with dev := d.openTxn v 0 .rcl (.socket d.self) (d.sharers v) fwd }.advanceTxn v

/-- The queue of a line's slice. -/
def Dev.sliceQ (d : Dev) (g : Nat) : List Queued := SMap.get (fun _ => []) d.homeQ (hashIndex g)

def Dev.setSliceQ (d : Dev) (g : Nat) (q : List Queued) : Dev :=
  { d with homeQ := SMap.set (fun _ => []) d.homeQ (hashIndex g) q }

/-- Admits one queued request if it may be admitted; whether it was, or started the recall it needs. -/
def State.tryQueued (s : State) (q : Queued) : State × Bool :=
  if (s.dev.txn q.g).isSome then (s, false)
  else
    match s.dev.admission q.g with
    | .yes => (s.openRequest q.g q.src q.req q.key, true)
    | .evict v => (s.openRecall v, false)
    | .no => (s, false)

/-- Tries a list of queued requests in order; those that stay (R226). -/
def State.tryQueue (s : State) : List Queued → State × List Queued
  | [] => (s, [])
  | q :: qs =>
    let r := s.tryQueued q
    let rest := r.1.tryQueue qs
    (rest.1, if r.2 then rest.2 else q :: rest.2)

/-- Admits what a slice's queue holds: starved requests first (R226). -/
def State.pump (s : State) (g : Nat) : State :=
  let q := s.dev.sliceQ g
  let r := s.tryQueue ((q.filter fun x => x.starved) ++ q.filter fun x => !x.starved)
  { r.1 with dev := (r.1.dev.setSliceQ g r.2).showSlice g }

/-- Whether a slice's queue has a slot: 64, of which eight are for starved requests (R226). -/
def slotFree (q : List Queued) (starved : Bool) : Bool :=
  if starved then decide (q.length < 64) else decide ((q.filter fun x => !x.starved).length < 56)

/-- A request reaches its home or proxy (R225, R226, R228): it is admitted, queued, or answered Retry. -/
def State.homeRequest (s : State) (g : Nat) (src : Agent) (r : Req) : State :=
  let d := s.dev
  if (d.homeOf g).isNone then s
  else
    let starved := match src with
      | .core c => match d.mshr c g with
        | some m => m.starved
        | none => false
      | _ => false
    let q : Queued := ⟨g, src, r, d.reqKey g src, starved⟩
    let waits := (d.sliceQ g).any fun x => x.g == g
    let adm := if (d.txn g).isSome || waits then Admit.no else d.admission g
    match adm with
    | .yes =>
      let s := s.openRequest g src r q.key
      { s with dev := s.dev.showSlice g }
    | .evict v =>
      if slotFree (d.sliceQ g) starved then
        ({ s with dev := d.setSliceQ g (d.sliceQ g ++ [q]) }.openRecall v).pump g
      else
        { s with dev := (d.addSat (sliceReg R.DIR_RETRIES_COUNT g) 1).send ⟨g, none, some src, .retry⟩ }
    | .no =>
      if slotFree (d.sliceQ g) starved then
        { s with dev := (d.setSliceQ g (d.sliceQ g ++ [q])).showSlice g }
      else
        { s with dev := (d.addSat (sliceReg R.DIR_RETRIES_COUNT g) 1).send ⟨g, none, some src, .retry⟩ }

/-- A line's transaction has closed: what waited is admitted. -/
def State.afterClose (s : State) (g : Nat) : State := if (s.dev.txn g).isNone then s.pump g else s

/-! ### Answers at the home (R223, R225, R234) -/

/-- Absent from an agent (R234, R235): it answers an Inv, makes the home source the line itself, or declines a
stash. -/
def State.absentAt (s : State) (g : Nat) (src : Agent) : State :=
  let d := s.dev.addSat (sliceReg R.DIR_ABSENT_COUNT g) 1
  match d.txn g with
  | none => { s with dev := d.dropPtr g src }
  | some t =>
    match t.stage, t.kind, t.data with
    | .target c, .request rq (.stash ..), some (l, dirty, p) =>
      if src == .core c then
        let d := (d.stashHome g t.key l dirty p).addSat (R.STASH_HOME_COUNT.at (0x10000 * (c / 2))) 1
        { s with dev := d.grant g rq .invalid }
      else { s with dev := d }
    | _, _, _ =>
      let d := if t.fwd == some src then d.dropPtr g src else d
      let t := { t with
        invs := t.invs.erase src
        fwd := if t.fwd == some src then none else t.fwd }
      ({ s with dev := d.setTxn g (some t) }.advanceTxn g).afterClose g

/-- Ack FWD from a holder (R223): data may be owed to the home. -/
def State.ackFwdAt (s : State) (g : Nat) (src : Agent) (ghost dd : Bool) : State :=
  let d := if ghost then s.dev.addSat (sliceReg R.DIR_GHOST_SERVED_COUNT g) 1 else s.dev
  match d.txn g with
  | none => { s with dev := d.dropPtr g src }
  | some t =>
    if t.fwd == some src then
      let t := { t with
        fwd := none
        served := true
        ghost := ghost
        want := dd }
      ({ s with dev := d.setTxn g (some t) }.advanceTxn g).afterClose g
    else { s with dev := d }

/-- Ack INV from a sharer (R223). -/
def State.ackInvAt (s : State) (g : Nat) (src : Agent) : State :=
  match s.dev.txn g with
  | none => { s with dev := s.dev.dropPtr g src }
  | some t =>
    ({ s with dev := s.dev.setTxn g (some { t with invs := t.invs.erase src }) }.advanceTxn g).afterClose g

/-- Data reaches the home (R222). -/
def State.dataAtHome (s : State) (g : Nat) (l : Line) (dirty p : Bool) : State :=
  match s.dev.txn g with
  | none => s
  | some t =>
    ({ s with dev := s.dev.setTxn g (some { t with data := some (l, dirty, p) }) }.advanceTxn g).afterClose g

/-- Ack DONE closes the requester's transaction (R225). -/
def State.doneAt (s : State) (g : Nat) (src : Agent) : State :=
  match s.dev.txn g with
  | none => s
  | some t =>
    match t.kind with
    | .request r _ =>
      if r == src && t.stage == .granted then { s with dev := s.dev.closeTxn g }.pump g else s
    | .rcl => s

/-- Ack HINT: the stash target has installed the line (R235). -/
def State.hintAt (s : State) (g : Nat) (src : Agent) : State :=
  match s.dev.txn g with
  | none => s
  | some t =>
    match t.stage, t.kind with
    | .target c, .request rq (.stash ..) =>
      if src == .core c then { s with dev := (s.dev.ownBy g src).grant g rq .invalid } else s
    | _, _ => s

/-- A line's intake has accepted it: a transaction that waits for that goes on (R235, R270). -/
def State.intakeDone (s : State) (g : Nat) : State :=
  match s.dev.txn g with
  | none => s
  | some t =>
    if t.stage != .intake then s
    else
      match t.kind, t.data with
      | .request src (.stash target _ _), some (l, _, p) => s.stashPlace g src target l false p
      | .request src _, _ => { s with dev := s.dev.grant g src .invalid }
      | .rcl, _ => s

/-- WbM reaches the home (R227, R233, R269, R270): it waits behind an open transaction (none). -/
def Dev.wbmAt (d : Dev) (g : Nat) (src : Agent) (seq : BitVec 8) (k : Bool) (l : Line) (p : Bool)
    (key : Nat) : Option Dev :=
  if (d.txn g).isSome then none
  else
    let e := d.dir g
    let ack (d : Dev) : Dev := d.send ⟨g, none, some src, .ack (.wb false)⟩
    if e.st == .owned && e.ptrs.head? == some src && e.ownseq == seq then
      if k then some (ack (d.sink g key l p true (if isPeat g then some src else none)))
      else
        let d := d.noSharers g
        let d := d.keepDirty g key l p (if isPeat g then some src else none)
        some (ack (d.closeTxn g))
    else some (ack (d.addSat (sliceReg R.DIR_WB_DISCARDED_COUNT g) 1))

/-- EvC reaches the home (R227, R234): it waits behind an open transaction (none). -/
def Dev.evcAt (d : Dev) (g : Nat) (src : Agent) (l : Line) (p : Bool) (key : Nat) : Option Dev :=
  if (d.txn g).isSome then none
  else
    let e := d.dir g
    let ack (d : Dev) : Dev := d.send ⟨g, none, some src, .ack (.wb false)⟩
    if e.valid && !((e.st == .owned || e.st == .pointer) && e.ptrs.contains src) then some (ack d)
    else
      let d := d.dropPtr g src
      let d := if (d.dir g).st == .uncached then d.keepClean g key l p else d
      some (ack (if (d.dir g).st == .uncached then d.closeTxn g else d))

/-! ### The removal of a socket (R240) -/

/-- Treats every open forward or invalidation to a removed socket as answered Absent, and its pointers as gone; a line
it owned is poisoned in its home, with a record. -/
def State.dropSocketAt (s : State) (sk g : Nat) : State :=
  let a := Agent.socket sk
  let owned := (s.dev.dir g).st == .owned && (s.dev.dir g).ptrs.head? == some a
  let d := s.dev.dropPtr g a
  let d := if owned then
      ({ d with poisoned := SMap.set (fun _ => false) d.poisoned g true }).log
        { source := 0x14, inst := sk, cls := 2, action := 4, address := 64 * g }
    else d
  match d.txn g with
  | none => { s with dev := d }
  | some t =>
    let t := { t with
      invs := t.invs.erase a
      fwd := if t.fwd == some a then none else t.fwd }
    ({ s with dev := d.setTxn g (some t) }.advanceTxn g).afterClose g

/-- Drops the proxy entries and copies of the lines homed in a removed socket (R240). -/
def Dev.dropHomed (d : Dev) (sk : Nat) : Dev :=
  let away (g : Nat) : Bool := d.homeOf g == some sk
  { d with
    l2 := SMap.filterMap (fun _ => CLine.none) (fun k v => if away (k / 512) then none else some v) d.l2
    ghosts := SMap.filterMap (fun _ => none) (fun k v => if away (k / 512) then none else some v) d.ghosts
    mshrs := SMap.filterMap (fun _ => none) (fun k v => if away (k / 512) then none else some v) d.mshrs
    dirs := SMap.filterMap (fun _ => {}) (fun g v => if away g then none else some v) d.dirs
    txns := SMap.filterMap (fun _ => none) (fun g v => if away g then none else some v) d.txns
    net := d.net.filter fun m => !away m.g }

/-- Removes a socket from the coherent system (R240, R462). -/
def State.removeSocket (s : State) (sk : Nat) : State :=
  let d := s.dev.dropHomed sk
  let lines := (List.filterMap (fun kv : Nat × Dir =>
    if kv.2.ptrs.contains (.socket sk) || (kv.2.st == .broadcast) || kv.2.held then some kv.1 else none) d.dirs)
  let s := lines.foldl (fun s g => s.dropSocketAt sk g) { s with dev := d }
  let m := s.dev.fld R.CHAIN_STATUS_COHERENT
  { s with dev := s.dev.setFld R.CHAIN_STATUS_COHERENT (if natBit m sk then m - 2 ^ sk else m) }

/-! ### The commands -/

/-- Takes a message out of flight and acts on it (log entry 12); a data-plane command (R489). -/
def onMessage (ok : Bool) (p : Msg → Bool) (f : State → State) (s : State) : Host.Outcome State Fault Refusal :=
  if !ok then .fault .noSuchUnit
  else if !s.dev.clocksOk then .fault .outsideClockRelations
  else .next (f { s with dev := s.dev.arrive p })

/-- A message for the home of a line, from an agent, that is a request of this kind. -/
def isRequest (g : Nat) (src : Agent) (r : Req) (m : Msg) : Bool :=
  m.g == g && m.src == some src && m.dst == none && m.body == .request r

/-- RDS (R231). -/
def execRds (g : Nat) (src : Agent) (u m : Bool) (s : State) : Host.Outcome State Fault Refusal :=
  onMessage (lineOk g && agentOk src) (isRequest g src (.rds u m)) (fun s => s.homeRequest g src (.rds u m)) s

/-- RDX (R231). -/
def execRdx (g : Nat) (src : Agent) (m : Bool) (s : State) : Host.Outcome State Fault Refusal :=
  onMessage (lineOk g && agentOk src) (isRequest g src (.rdx m)) (fun s => s.homeRequest g src (.rdx m)) s

/-- UPG (R231). -/
def execUpg (g : Nat) (src : Agent) (s : State) : Host.Outcome State Fault Refusal :=
  onMessage (lineOk g && agentOk src) (isRequest g src .upg) (fun s => s.homeRequest g src .upg) s

/-- STASH_REQUEST (R235). -/
def execStashRequest (g : Nat) (src : Agent) (target : BitVec 16) (mask : BitVec 64) (bytes : Line) (s : State) :
    Host.Outcome State Fault Refusal :=
  let r := Req.stash target mask bytes
  onMessage (lineOk g && agentOk src) (isRequest g src r) (fun s => s.homeRequest g src r) s

/-- FAR_ATOMIC_REQUEST (R237, R238). -/
def execFarAtomicRequest (g : Nat) (src : Agent) (op : AtomicOp) (dbl : Bool) (off : Nat)
    (operand expected : Word) (s : State) : Host.Outcome State Fault Refusal :=
  let r := Req.atomic op dbl off operand expected
  onMessage (lineOk g && agentOk src && decide (off + (if dbl then 8 else 4) ≤ 64)) (isRequest g src r)
    (fun s => s.homeRequest g src r) s

/-- The KEYID that an agent held a line under as it wrote it back. -/
def Dev.wbKeyId (d : Dev) (g : Nat) (src : Agent) : Nat :=
  match src with
  | .core c => match d.ghost c g with
    | some h => h.key
    | none => (d.line c g).key
  | _ => 0

/-- A writeback of a core whose L2 still holds the line, with none in flight, is made as it arrives (log
entry 12). -/
def Dev.makeWriteback (d : Dev) (g : Nat) (src : Agent) (k : Bool) : Dev :=
  match src with
  | .core c =>
    if d.net.any fun m => m.g == g && m.src == some src && (match m.body with
        | .wbm .. | .evc .. => true
        | _ => false) then d
    else if k then d.writeBack c g
    else (d.evict c g).getD d
  | _ => d

/-- Whether a writeback of a core has not been made: its L2 still holds the line, and none is in flight, because a
credit or a ghost slot is missing (R227). -/
def Dev.wbMissing (d : Dev) (g : Nat) (src : Agent) (dirtyOnly : Bool) : Bool :=
  match src with
  | .core c =>
    let st := (d.line c g).st
    (if dirtyOnly then st == .modified else st != .invalid) && !(d.net.any fun m =>
      m.g == g && m.src == some src && (match m.body with
        | .wbm .. | .evc .. => true
        | _ => false))
  | _ => false

/-- WBM (R233): it waits behind an open transaction of the line. -/
def execWbm (g : Nat) (src : Agent) (seq : BitVec 8) (k : Bool) (bytes : Line) (poison : Bool) (s : State) :
    Host.Outcome State Fault Refusal :=
  if !(lineOk g && agentOk src) then .fault .noSuchUnit
  else if !s.dev.clocksOk then .fault .outsideClockRelations
  else
    let d0 := s.dev.makeWriteback g src k
    let d := d0.arrive fun m =>
      m.g == g && m.src == some src && m.dst == none && (match m.body with
        | .wbm _ k' _ _ => k' == k
        | _ => false)
    match if d0.wbMissing g src true then none else d.wbmAt g src seq k bytes poison (s.dev.wbKeyId g src) with
    | none => .next s
    | some d => .next ({ s with dev := d }.afterClose g)

/-- EVC (R234): it waits behind an open transaction of the line. -/
def execEvc (g : Nat) (src : Agent) (bytes : Line) (poison : Bool) (s : State) :
    Host.Outcome State Fault Refusal :=
  if !(lineOk g && agentOk src) then .fault .noSuchUnit
  else if !s.dev.clocksOk then .fault .outsideClockRelations
  else
    let d0 := s.dev.makeWriteback g src false
    let d := d0.arrive fun m =>
      m.g == g && m.src == some src && m.dst == none && (match m.body with
        | .evc _ _ => true
        | _ => false)
    match if d0.wbMissing g src false then none else d.evcAt g src bytes poison (s.dev.wbKeyId g src) with
    | none => .next s
    | some d => .next ({ s with dev := d }.afterClose g)

/-- Whether a message goes from a home to core c about line g. -/
def toCore (c g : Nat) (m : Msg) : Bool := m.g == g && m.dst == some (.core c)

/-- FWDS (R232). -/
def execFwds (c g : Nat) (requester : Agent) (u m : Bool) (s : State) : Host.Outcome State Fault Refusal :=
  onMessage (coreOk c && lineOk g && agentOk requester)
    (fun x => toCore c g x && x.body == .fwds requester u m)
    (fun s => { s with dev := s.dev.answerFwdS c g requester u m }) s

/-- FWDX (R232). -/
def execFwdx (c g : Nat) (requester : Agent) (rcl : Bool) (s : State) : Host.Outcome State Fault Refusal :=
  onMessage (coreOk c && lineOk g && agentOk requester)
    (fun x => toCore c g x && x.body == .fwdx requester rcl)
    (fun s => { s with dev := s.dev.answerFwdX c g requester rcl }) s

/-- INV (R232). -/
def execInv (c g : Nat) (s : State) : Host.Outcome State Fault Refusal :=
  onMessage (coreOk c && lineOk g) (fun x => toCore c g x && x.body == .inv)
    (fun s => { s with dev := s.dev.answerInv c g }) s

/-- Whether a message goes from an agent to a line's home with this body. -/
def toHomeIs (g : Nat) (src : Agent) (b : MsgBody) (m : Msg) : Bool :=
  m.g == g && m.src == some src && m.dst == none && m.body == b

/-- ACK_FWD (R223). -/
def execAckFwd (g : Nat) (src : Agent) (ghost d : Bool) (s : State) : Host.Outcome State Fault Refusal :=
  onMessage (lineOk g && agentOk src) (toHomeIs g src (.ack (.fwd ghost d)))
    (fun s => s.ackFwdAt g src ghost d) s

/-- ACK_INV (R223). -/
def execAckInv (g : Nat) (src : Agent) (s : State) : Host.Outcome State Fault Refusal :=
  onMessage (lineOk g && agentOk src) (toHomeIs g src (.ack .inv)) (fun s => s.ackInvAt g src) s

/-- ACK_GRANT (R231). -/
def execAckGrant (c g : Nat) (st : LineState) (seq : BitVec 8) (s : State) :
    Host.Outcome State Fault Refusal :=
  onMessage (coreOk c && lineOk g) (fun x => toCore c g x && x.body == .ack (.grant st seq))
    (fun s => { s with dev := s.dev.grantAtCore c g st seq }) s

/-- ACK_WB (R227, R270). -/
def execAckWb (c g : Nat) (p : Bool) (s : State) : Host.Outcome State Fault Refusal :=
  onMessage (coreOk c && lineOk g) (fun x => toCore c g x && x.body == .ack (.wb p))
    (fun s => { s with dev := s.dev.wbAckAtCore c g p }) s

/-- ACK_DONE (R225). -/
def execAckDone (g : Nat) (src : Agent) (s : State) : Host.Outcome State Fault Refusal :=
  onMessage (lineOk g && agentOk src) (toHomeIs g src (.ack .done)) (fun s => s.doneAt g src) s

/-- ACK_HINT (R235). -/
def execAckHint (g : Nat) (src : Agent) (s : State) : Host.Outcome State Fault Refusal :=
  onMessage (lineOk g && agentOk src) (toHomeIs g src (.ack .hint)) (fun s => s.hintAt g src) s

/-- ABSENT (R234). -/
def execAbsent (g : Nat) (src : Agent) (s : State) : Host.Outcome State Fault Refusal :=
  onMessage (lineOk g && agentOk src) (toHomeIs g src .absent) (fun s => s.absentAt g src) s

/-- DATA (R222): at a core or at the home; the data for another agent leaves the model. -/
def execData (dst : Option Agent) (src : Agent) (g : Nat) (bytes : Line) (d p t : Bool) (s : State) :
    Host.Outcome State Fault Refusal :=
  onMessage (lineOk g && agentOk src && (dst.map agentOk).getD true)
    (fun x => x.g == g && x.dst == dst && (match x.body with
      | .data _ _ _ t' => t' == t
      | _ => false))
    (fun s => match dst with
      | none => s.dataAtHome g bytes d p
      | some (.core c) => { s with dev := s.dev.dataAtCore c g bytes d p t }
      | some _ => s) s

/-- RETRY (R226): after STARVE_AFTER of them the request is starved. -/
def execRetry (c g : Nat) (s : State) : Host.Outcome State Fault Refusal :=
  onMessage (coreOk c && lineOk g) (fun x => toCore c g x && x.body == .retry)
    (fun s => match s.dev.mshr c g with
      | none => s
      | some m =>
        let lim := Nat.max 1 (s.dev.fld (sliceReg R.DIR_CTL_STARVE_AFTER g))
        { s with dev := s.dev.setMshr c g (some { m with
            retries := m.retries + 1
            starved := m.starved || decide (lim ≤ m.retries + 1) }) }) s

/-- REQUEST_RESEND (R226): a retried request is sent again. -/
def execRequestResend (c g : Nat) (s : State) : Host.Outcome State Fault Refusal :=
  onData (coreOk c && lineOk g) s fun d =>
    match d.mshr c g with
    | none => d
    | some m =>
      if m.retries == 0 || m.grant.isSome || d.net.any (isRequest g (.core c) m.req) then d
      else d.toHome c g (.request m.req)

/-- FORWARD_TIMEOUT (R241): a forward to another socket unanswered for 1 ms is closed as R240 gives. -/
def execForwardTimeout (g : Nat) (dst : Agent) (s : State) : Host.Outcome State Fault Refusal :=
  onMessage (lineOk g && agentOk dst) (fun _ => false)
    (fun s => match dst with
      | .socket sk => s.dropSocketAt sk g
      | _ => s) s

/-- SOCKET_REMOVAL (R240, R462). -/
def execSocketRemoval (d : Nat) (s : State) : Host.Outcome State Fault Refusal :=
  onMessage (decide (d < 8)) (fun _ => false)
    (fun s => if d == s.dev.self then s else s.removeSocket d) s

end Sys2Proof.Machine
end

