-- ==== Sys2Proof/Machine/Caches.lean ====
section
/-!
DEFINITION. Enabling and disabling the cache arrays (R200 to R205), their invalidation by CINV.ALL (R128), and the
home's removal of a core's lines.
-/

namespace Sys2Proof.Machine

open Sys2Proof

/-- Arrays that were enabled without having been invalidated (R201): array x (0 L1I, 1 L1D, 2 L2) of core c. -/
def coreArrayKey (c x : Nat) : Nat := 4 * c + x

/-- LLC way w of tile t. -/
def wayKey (t w : Nat) : Nat := 10000 + 12 * t + w

def Dev.setUnclean (d : Dev) (k : Nat) (b : Bool) : Dev :=
  { d with unclean := SMap.set (fun _ => false) d.unclean k b }

/-- A bit of CORE_CACHE_CTL of core c. -/
def coreCtl (c bit : Nat) : Field := ⟨(tileAt R.CORE_CACHE_CTL_L2_EN c 0x100).reg, bit, 1⟩

/-- A bit of LLC_CTL of tile t. -/
def llcCtl (t bit : Nat) : Field := ⟨R.LLC_CTL_WAY_EN.reg + 0x10000 * t, bit, 1⟩

/-! ### Removing lines (R203, R205) -/

/-- Writes a line of core c back to its home, when dirty, and removes it from the core and the directory (R203). -/
def Dev.flushLine (d : Dev) (c g : Nat) : Dev :=
  let d := d.checkLine c g allWords
  let l := d.line c g
  if l.st == .invalid then d
  else
    let d := d.dropLine c g
    if l.st == .modified then
      let d := ((d.trackSent c g).noSharers g).keepDirty g l.key l.data l.poison
        (if isPeat g then some (.core c) else none)
      d.closeTxn g
    else
      let d := d.dropPtr g (.core c)
      if (d.dir g).st == .uncached then (d.keepClean g l.key l.data l.poison).closeTxn g else d

/-- The lines that core c's L2 holds. -/
def Dev.linesOf (d : Dev) (c : Nat) : List Nat :=
  (d.l2.filter fun kv => kv.1 % 512 == c && kv.2.st != .invalid).map fun kv => kv.1 / 512

/-- Whether core c has no request, writeback or transaction under way, so that its L2 can be emptied. -/
def Dev.coreQuiet (d : Dev) (c : Nat) : Bool :=
  !(d.mshrs.any fun kv => kv.1 % 512 == c && kv.2.isSome)
    && !(d.ghosts.any fun kv => kv.1 % 512 == c && kv.2.isSome)
    && (d.linesOf c).all fun g => !d.lineBusy g

/-- Writes back and removes every line of core c. -/
def Dev.flushCore (d : Dev) (c : Nat) : Dev := (d.linesOf c).foldl (fun d g => d.flushLine c g) d

/-- Clears the L1 marks of core c's lines. -/
def Dev.clearL1 (d : Dev) (c : Nat) (i : Bool) : Dev :=
  (d.linesOf c).foldl (fun d g =>
    let l := d.line c g
    d.setLine c g (if i then { l with l1i := false } else { l with l1d := false })) d

/-- Clears the L2_LOST bits of core c (R214). -/
def Dev.clearLost (d : Dev) (c : Nat) : Dev :=
  (List.range 32).foldl (fun d j => d.setReg ((tileAt R.L2_LOST_SET c 0x100).reg + 8 * j) 0) d

/-- Empties an LLC way of tile t: dirty lines go to memory (R203). -/
def Dev.flushWay (d : Dev) (t w : Nat) : Dev :=
  let gs := List.filterMap (fun kv : Nat × Option LLine => match kv.2 with
    | some l => if l.way == w && d.sliceTile kv.1 == t then some kv.1 else none
    | none => none) d.llc
  gs.foldl (fun d g =>
    let d := (d.llcEvict g).setDir g { d.dir g with llcd := false, llcway := 0 }
    if (d.dir g).st == .uncached && (d.txn g).isNone then d.closeTxn g else d) d

/-! ### Writes of the enables (R201 to R203) -/

/-- One array's enable bit written: bit x, CLEAN bit 8 + x, DISABLE_BUSY bit 11 + x. -/
def Dev.coreEnable (d : Dev) (c x : Nat) (on : Bool) : Dev :=
  if d.flag (coreCtl c (11 + x)) then d
  else if on == d.flag (coreCtl c x) then d
  else if on then
    let refuse (d : Dev) := d.setFld (coreCtl c 14) 1
    if x != 2 && !d.flag (coreCtl c 2) then refuse d
    else if d.flag (coreCtl c (8 + x)) then (d.setFld (coreCtl c x) 1).setFld (coreCtl c (8 + x)) 0
    else if d.locked then refuse d
    else (d.setFld (coreCtl c x) 1).setUnclean (coreArrayKey c x) true
  else (d.setFld (coreCtl c x) 0).setFld (coreCtl c (11 + x)) 1

/-- A write of CORE_CACHE_CTL of core c (R201 to R203, R213). -/
def Dev.coreCtlWrite (d : Dev) (c : Nat) (v : Word) : Dev :=
  let d := if bitOf v 14 then d.setFld (coreCtl c 14) 0 else d
  let d := (d.setFld (coreCtl c 3) (getF v 3 1)).setFld (coreCtl c 4) (getF v 4 1)
  let l2 := bitOf v 2
  let d := if l2 then d.coreEnable c 2 true else d
  let d := (d.coreEnable c 0 (bitOf v 0 && l2)).coreEnable c 1 (bitOf v 1 && l2)
  let d := if !l2 && (bitOf v 0 || bitOf v 1) then d.setFld (coreCtl c 14) 1 else d
  if l2 then d else d.coreEnable c 2 false

/-- One way's enable bit written (R201, R203): a 1 to a retired way is ignored. -/
def Dev.wayEnable (d : Dev) (t w : Nat) (on : Bool) : Dev :=
  if d.flag (llcCtl t (24 + w)) || on == d.flag (llcCtl t w) then d
  else if on then
    if d.flag (llcCtl t (36 + w)) then d
    else if d.flag (llcCtl t (12 + w)) then (d.setFld (llcCtl t w) 1).setFld (llcCtl t (12 + w)) 0
    else if d.locked then d.setFld (llcCtl t 48) 1
    else (d.setFld (llcCtl t w) 1).setUnclean (wayKey t w) true
  else (d.setFld (llcCtl t w) 0).setFld (llcCtl t (24 + w)) 1

/-- A write of LLC_CTL of tile t (R201, R203, R213). -/
def Dev.llcCtlWrite (d : Dev) (t : Nat) (v : Word) : Dev :=
  let d := if bitOf v 48 then d.setFld (llcCtl t 48) 0 else d
  (List.range 12).foldl (fun d w => d.wayEnable t w (bitOf v w)) d

/-- A write of a cache-control register of tile t. -/
def Dev.cacheCtlWrite (d : Dev) (t : Nat) (u : CacheUnit) (v : Word) : Dev :=
  match u with
  | .core k => d.coreCtlWrite (2 * t + k) v
  | .llc => d.llcCtlWrite t v

/-- Whether a cache unit of a tile exists. -/
def tileOk (t : Nat) : Bool := decide (t < 144)

/-- CACHE_ENABLE (R201): a write of CORE_CACHE_CTL[k] or LLC_CTL. -/
def execCacheEnable (req : Requester) (t : Nat) (u : CacheUnit) (v : Word) (s : State) :
    Host.Outcome State Fault Refusal :=
  onDev (reqOk req && tileOk t && unitOk u) s fun d => d.cacheCtlWrite t u v

/-- CACHE_DISABLE (R203): a write of CORE_CACHE_CTL[k] or LLC_CTL. -/
def execCacheDisable (req : Requester) (t : Nat) (u : CacheUnit) (v : Word) (s : State) :
    Host.Outcome State Fault Refusal :=
  onDev (reqOk req && tileOk t && unitOk u) s fun d => d.cacheCtlWrite t u v

/-- An array of core c that is being disabled is empty: DISABLE_BUSY clears, CLEAN is set (R203). -/
def Dev.coreDisabled (d : Dev) (c x : Nat) : Dev :=
  let d := if x == 2 then (d.flushCore c).clearLost c else d.clearL1 c (x == 0)
  ((d.setFld (coreCtl c (11 + x)) 0).setFld (coreCtl c (8 + x)) 1).setUnclean (coreArrayKey c x) false

/-- Whether an L2 disable can complete: its L1s' have, and nothing of the core is under way. -/
def Dev.mayEmptyL2 (d : Dev) (c : Nat) : Bool :=
  !d.flag (coreCtl c 11) && !d.flag (coreCtl c 12) && d.coreQuiet c

/-- DISABLE_COMPLETE (R203): of an array that is being disabled; an L2 waits for what is under way. -/
def execDisableComplete (t : Nat) (x : CacheArray) (s : State) : Host.Outcome State Fault Refusal :=
  onDev (tileOk t && arrayOk x) s fun d =>
    match x with
    | .l1i k => if d.flag (coreCtl (2 * t + k) 11) then d.coreDisabled (2 * t + k) 0 else d
    | .l1d k => if d.flag (coreCtl (2 * t + k) 12) then d.coreDisabled (2 * t + k) 1 else d
    | .l2 k =>
      if d.flag (coreCtl (2 * t + k) 13) && d.mayEmptyL2 (2 * t + k) then d.coreDisabled (2 * t + k) 2 else d
    | .way w =>
      if d.flag (llcCtl t (24 + w)) then
        (((d.flushWay t w).setFld (llcCtl t (24 + w)) 0).setFld (llcCtl t (12 + w)) 1).setUnclean (wayKey t w)
          false
      else d

/-! ### CINV.ALL (R128) -/

/-- Invalidates an array of core c, when it is disabled; whether it did. -/
def Dev.cinvCore (d : Dev) (c x : Nat) : Bool × Dev :=
  if d.flag (coreCtl c x) || d.flag (coreCtl c (11 + x)) then (false, d)
  else
    let d := if x == 2 then { d.clearLost c with l2 := keepL2 c d.l2 } else d.clearL1 c (x == 0)
    (true, (d.setFld (coreCtl c (8 + x)) 1).setUnclean (coreArrayKey c x) false)

/-- Invalidates the ways of tile t that a mask names and that are disabled; those ways. -/
def Dev.cinvWays (d : Dev) (t mask : Nat) : Nat × Dev :=
  let ws := (List.range 12).filter fun w =>
    natBit mask w && !d.flag (llcCtl t w) && !d.flag (llcCtl t (24 + w))
  (ws.foldl (fun m w => m + 2 ^ w) 0,
    ws.foldl (fun d w => (d.setFld (llcCtl t (12 + w)) 1).setUnclean (wayKey t w) false) d)

/-- CINV.ALL of a specifier by a strand of core c (R128): its result. -/
def Dev.cinvAll (d : Dev) (c : Nat) (spec : Word) : Word × Dev :=
  let target := getF spec 0 3
  if target < 3 then
    let r := d.cinvCore c target
    (word (bnat r.1), r.2)
  else if target == 3 && getF spec 8 8 < 144 then
    let r := d.cinvWays (getF spec 8 8) (getF spec 16 12)
    (word r.1, r.2)
  else (BitVec.allOnes 64, d)

end Sys2Proof.Machine
end

