-- ==== Sys2Proof/Machine/Channels.lean ====
section
/-!
DEFINITION. The memory channels (R313 to R335): regulators, reads and writes with their checks, refresh, retraining,
the row-disturbance guard, the patrol, and the evacuation and retirement of a channel. What a home reads and writes
takes effect where its command says; the commands here are the controller's side of it.
-/

namespace Sys2Proof.Machine

open Sys2Proof

/-- The channels of a socket. -/
def mcOk (n : Nat) : Bool := decide (n < 16)

/-- A register of channel n. -/
def mcReg (f : Field) (n : Nat) : Field := f.at (0x40000 * n)

/-! ### Where a line lies (R318, R331) -/

/-- The slot and the granule within it of a DRAM line of this socket. -/
def Dev.slotGranule (d : Dev) (g : Nat) : Nat × Nat :=
  let x := d.interleave (d.homeOffset (64 * g))
  (x.1, x.2 / 256)

/-- The slot that a channel serves. -/
def Dev.mcSlot (d : Dev) (n : Nat) : Option Nat :=
  (List.range 16).find? fun k => d.flag (R.CH_MAP_VALID.at (8 * k)) && d.slotMc k == n

/-- The first line of granule q of a slot: the inverse of R318. -/
def Dev.lineOfGranule (d : Dev) (slot q : Nat) : Nat :=
  let w := d.ways
  let hi := q * w
  let low := (slot ^^^ (hi / 16) ^^^ (hi / 256)) % w
  (d.fld (R.HOME_BASE_ADDR.at (8 * d.self)) * 2 ^ 30 + (hi + low) * 256) / 64

/-- Whether this socket's DRAM holds a line that some slot serves. -/
def Dev.dramHere (d : Dev) (g : Nat) : Bool := !isPeat g && d.homedHere g

/-- The LOCATION of a channel-local address (R318, R345): rank, bank group, bank, row and subchannel. -/
def Dev.memLocation (d : Dev) (n a : Nat) : Nat :=
  let col := if d.flag (mcReg R.MC_CFG_X8 n) then 6 else 7
  let rb := bnat (d.flag (mcReg R.MC_CFG_RANKS2 n)) + Nat.min 2 (d.fld (mcReg R.MC_CFG_STACK n))
  let y := a / 2 ^ (7 + col)
  let row := y / 2 ^ (5 + rb)
  let rank := y / 32 % 2 ^ rb
  let bg := (y % 8) ^^^ (row % 8)
  let bank := (y / 8 % 4) ^^^ (row / 8 % 4)
  rank % 16 + bg * 16 + bank * 128 + row % 2 ^ 18 * 2 ^ 9 + a / 64 % 2 * 2 ^ 27

/-! ### Regulators (R326) -/

/-- Whether channel n accepts a request of a group now, and the channel after it: a port without credit waits for
the next tick unless it is work-conserving. During the cushion no limit applies. -/
def Dev.acceptReq (d : Dev) (n group : Nat) : Bool × Dev :=
  let p := d.fld ⟨(mcReg R.GROUP_PORT_PORTS n).reg, 4 * group, 4⟩
  let cfg := SMap.get (fun _ => 0) (d.chan n).ports p
  let cr := (mcReg R.PORT_STATUS_CREDITS n).at (8 * p)
  if !bitOf cfg 28 || d.phase == .drain then (true, d)
  else if d.fld cr != 0 then (true, d.setFld cr (d.fld cr - 1))
  else
    let c := d.chan n
    let d' := if c.starved.contains p then d
      else (d.setChan n { c with starved := p :: c.starved }).addSat
        ((mcReg R.PORT_STATUS_STARVED n).at (8 * p)) 1
    (bitOf cfg 27, d')

/-- The refill of channel n's ports at a tick (R326): the settings written take effect. -/
def Dev.refillPorts (d : Dev) (n : Nat) : Dev :=
  let cfgs := (List.range 16).foldl (fun m p =>
    SMap.set (fun _ => 0) m p (d.reg ((mcReg R.PORT_CFG_BUDGET n).at (8 * p)).reg)) []
  let d := d.setChan n { d.chan n with starved := [], ports := cfgs }
  (List.range 16).foldl (fun d p =>
    let cfg := SMap.get (fun _ => 0) cfgs p
    let cr := (mcReg R.PORT_STATUS_CREDITS n).at (8 * p)
    let b := getF cfg 0 12
    d.setFld cr (Nat.min (d.fld cr + b) (b + getF cfg 12 12))) d

/-! ### Checks, counts and records (R328, R336 to R338) -/

/-- Whether a row counts in the channel's bucket (R336): at most once in 2^24 frames. -/
def Dev.rowCounts (d : Dev) (n loc : Nat) : Bool :=
  !((d.unitAt 0 n).rows.any fun r => r.1 == loc && decide (d.frame.toNat < r.2.toNat + 2 ^ 24))

/-- The row of an error enters the recent-row table and, when it counts, the bucket (R336, R338). -/
def Dev.noteRow (d : Dev) (n loc : Nat) : Dev :=
  let c := d.chan n
  let d := d.setChan n { c with recent := ((loc, d.frame) :: c.recent.filter fun r => r.1 != loc).take 64 }
  if d.rowCounts n loc then
    let u := d.unitAt 0 n
    d.setUnit 0 n { u with
      bucket := Nat.min (u.bucket + 1) 255
      rows := (loc, d.frame) :: u.rows.filter fun r => r.1 != loc }
  else d

/-- The report of an error of channel n at a line. -/
def memRep (n loc g cls action bucket : Nat) : Rep where
  source := 1
  inst := n
  cls := cls
  action := action
  address := 64 * g
  bucket := bucket
  location := loc

/-- What a read's check does to channel n's counts and records (R328, R337, R338, R340). -/
def Dev.checkRead (d : Dev) (n a g : Nat) (chk : ReadCheck) : Dev :=
  let loc := d.memLocation n a
  match chk with
  | .clean => d
  | .correctable =>
    let d := d.addSat (mcReg R.ERR_COUNT_CE_COUNT n) 1
    let d := if d.fld (mcReg R.ERR_COUNT_CE_COUNT n) == 2 ^ 32 - 1 then
        d.setFld (mcReg R.ERR_COUNT_CE_OVF n) 1 else d
    let d := d.noteRow n loc
    let b := (d.unitAt 0 n).bucket
    let d := d.log (memRep n loc g 0 0 b)
    if d.threshold 0 ≤ b then d.candidate 0 n 1 (64 * g) else d
  | .uncorrectable =>
    let d := (d.addSat (mcReg R.ERR_COUNT_UE_COUNT n) 1).noteRow n loc
    let u := d.unitAt 0 n
    let d := d.log (memRep n loc g 2 4 u.bucket)
    d.candidate 0 n 2 (64 * g)

/-- The stored copy of a line is found bad, or not (R328). -/
def Dev.setBad (d : Dev) (g : Nat) (b : Bool) : Dev := { d with bad := SMap.set (fun _ => false) d.bad g b }

/-- A line is rewritten under the poison code (R316, R329, R332). -/
def Dev.poisonLine (d : Dev) (g : Nat) : Dev :=
  { d.setBad g false with poisoned := SMap.set (fun _ => false) d.poisoned g true }

/-! ### Moving granules (R332) -/

/-- Whether a granule of a slot still lies on the source of an evacuation. -/
def Dev.unmoved (d : Dev) (slot q : Nat) : Bool :=
  match d.evac with
  | none => false
  | some e =>
    d.fld R.MEM_IL_RET_STATE == 1 && e.slot == slot && decide (e.next ≤ q) && !e.moved.contains q

/-- Moves one line of a granule: an uncorrectable one goes under the poison code, the first 64 with a record of
their own (R332 step 5). -/
def Dev.moveLine (d : Dev) (n g : Nat) (chk : ReadCheck) : Dev :=
  let a := (d.interleave (d.homeOffset (64 * g))).2
  let d := d.checkRead n a g chk
  if chk == .uncorrectable || SMap.get (fun _ => false) d.bad g then
    let k := d.fld R.EVAC_STATUS_POISONED
    let d := (d.poisonLine g).addSat R.EVAC_STATUS_POISONED 1
    if k < 64 then d.log (memRep n (d.memLocation n a) g 2 4 (d.unitAt 0 n).bucket) else d
  else d

/-- Moves granule q of the evacuating slot: its four lines, as their checks find them. -/
def Dev.moveGranule (d : Dev) (slot q : Nat) (chks : List ReadCheck) : Dev :=
  let g0 := d.lineOfGranule slot q
  let n := d.slotMc slot
  let d := (List.range 4).foldl (fun d i => d.moveLine n (g0 + i) ((chks[i]?).getD .clean)) d
  d.addWrap R.EVAC_STATUS_MOVED 1

/-- An access to a granule not yet moved moves it first (R332 step 2); line g's check is as given. -/
def Dev.demandMove (d : Dev) (g : Nat) (chk : ReadCheck) : Dev :=
  let s := d.slotGranule g
  match d.evac with
  | none => d
  | some e =>
    if d.unmoved s.1 s.2 then
      let chks := (List.range 4).map fun i => if g % 4 == i then chk else ReadCheck.clean
      { d.moveGranule s.1 s.2 chks with evac := some { e with moved := s.2 :: e.moved } }
    else d

/-! ### Reads and writes -/

/-- MEMORY_READ (R326, R328): the controller accepts and serves a read of a line; a failed check is counted and
recorded, and a line that stays uncorrectable is returned poisoned to its home until a write replaces it. -/
def execMemoryRead (g group keyid : Nat) (chk : ReadCheck) (s : State) : Host.Outcome State Fault Refusal :=
  onData (lineOk g && decide (group < 16) && decide (keyid < 65536)) s fun d =>
    if !d.dramHere g then d
    else
      let p := d.place g
      let n := d.slotMc p.1
      let r := d.acceptReq n group
      if !r.1 then r.2
      else if r.2.isFenced g then
        r.2.log { source := 1, inst := n, cls := 2, action := 4, address := 64 * g }
      else
        let s := r.2.slotGranule g
        if r.2.unmoved s.1 s.2 then r.2.demandMove g chk
        else (r.2.checkRead n p.2 g chk).setBad g (chk == .uncorrectable)

/-- MEMORY_WRITE (R320, R326): the controller accepts a write of a line under a KEYID; from then on every read
returns it. -/
def execMemoryWrite (g group keyid : Nat) (bytes : Line) (poison : Bool) (s : State) :
    Host.Outcome State Fault Refusal :=
  onData (lineOk g && decide (group < 16) && decide (keyid < 65536)) s fun d =>
    if !d.dramHere g then d
    else
      let r := d.acceptReq (d.slotMc (d.place g).1) group
      if !r.1 then r.2
      else
        let d := if r.2.isFenced g then r.2 else r.2.demandMove g .clean
        d.homeWrite g keyid bytes poison false none

/-! ### Refresh and retraining (R321 to R323) -/

/-- Whether a channel is in service, as itself or as an evacuation source (R335). -/
def Dev.mcLive (d : Dev) (n : Nat) : Bool :=
  let st := d.fld (mcReg R.MC_STATUS_STATE n)
  st == 2 || st == 4

/-- REFRESH (R321): a same-bank refresh of channel n. -/
def execRefresh (n : Nat) (s : State) : Host.Outcome State Fault Refusal :=
  onData (mcOk n) s fun d =>
    if d.mcLive n then d.setChan n { d.chan n with refreshes := (d.chan n).refreshes + 1 } else d

/-- The period of the default pauses (R335). -/
def Dev.pausePeriod (d : Dev) (n : Nat) : Nat := Nat.max 256 (d.fld (mcReg R.RETRAIN_CTL_PERIOD n))

/-- Whether this frame is a slot of channel n's pause (R323): the staggered default, or the extra one. -/
def Dev.pauseSlot (d : Dev) (n : Nat) : Bool :=
  let p := d.pausePeriod n
  let f := d.frame.toNat
  f % p == n * p / 16 || ((d.chan n).extraPause && f % 16 == n)

/-- A pause that falls due at a tick in assisted mode sets DUE and raises a socket event (R323). -/
def Dev.pauseDue (d : Dev) (n : Nat) : Dev :=
  if d.duty 2 && d.phase == .running && d.mcLive n && d.pauseSlot n && !(d.chan n).pauseSlot
      && !d.flag (mcReg R.RETRAIN_STATUS_DUE n) then
    (d.setFld (mcReg R.RETRAIN_STATUS_DUE n) 1).dutyEvent
  else d

/-- A pause runs (R323): the next change of temperature counts from here. -/
def Dev.pause (d : Dev) (n : Nat) : Dev :=
  let d := d.addSat (mcReg R.RETRAIN_STATUS_PAUSES n) 1
  let d := d.setFld (mcReg R.RETRAIN_STATUS_DUE n) 0
  d.setChan n { d.chan n with
    temp := d.fld (mcReg R.MC_STATUS_TEMP n)
    extraPause := false
    pauseSlot := false
    owed := false
    misses := 0 }

/-- RETRAINING_PAUSE (R252, R323): in its slot, or deferred from it, channel n pauses; in assisted mode only once software has written GO. -/
def execRetrainingPause (n : Nat) (s : State) : Host.Outcome State Fault Refusal :=
  onData (mcOk n) s fun d =>
    if !d.mcLive n || d.phase != .running || !(d.pauseSlot n || (d.chan n).owed) then d
    else if d.duty 2 then (if (d.chan n).pauseSlot then d.pause n else d.pauseDue n)
    else d.pause n

/-- DIMM_THERMAL_READ (R323): a change of 3 °C or more since the last pause adds one. -/
def execDimmThermalRead (n temp : Nat) (s : State) : Host.Outcome State Fault Refusal :=
  onDev (mcOk n) s fun d =>
    let t := temp % 256
    let d := d.setFld (mcReg R.MC_STATUS_TEMP n) t
    let c := d.chan n
    if c.temp + 3 ≤ t || t + 3 ≤ c.temp then d.setChan n { c with extraPause := true } else d

/-- COEFFICIENT_STORE (R322): the steward stores channel n's coefficients that have moved. -/
def execCoefficientStore (n : Nat) (coeff : Word) (s : State) : Host.Outcome State Fault Refusal :=
  onDev (mcOk n) s fun d => d.setChan n { d.chan n with coeff := coeff }

/-- A write of `RETRAIN_CTL` (R323): GO releases the due pause in assisted mode. -/
def Dev.retrainWrite (d : Dev) (n : Nat) (v : Word) : Dev :=
  let d := d.writeReg (mcReg R.RETRAIN_CTL_PERIOD n).reg v
  if bitOf v 16 && d.duty 2 && d.flag (mcReg R.RETRAIN_STATUS_DUE n) then
    d.setChan n { d.chan n with pauseSlot := true }
  else d

/-- RETRAIN_GO (R323): a write of `RETRAIN_CTL`. -/
def execRetrainGo (req : Requester) (n : Nat) (v : Word) (s : State) : Host.Outcome State Fault Refusal :=
  onDev (reqOk req && mcOk n) s fun d => d.retrainWrite n v

/-! ### Row-disturbance guard (R324, R325) -/

/-- The entries of a bank's table. -/
def Chan.bankRows (c : Chan) (bank : Nat) : List RowCount := SMap.get (fun _ => []) c.rows bank

def Dev.setBankRows (d : Dev) (n bank : Nat) (es : List RowCount) : Dev :=
  let c := d.chan n
  d.setChan n { c with rows := SMap.set (fun _ => []) c.rows bank es }

/-- The smallest count of a table of 24 entries; one not yet filled counts 0. -/
def minCount (size : Nat) (es : List RowCount) : Nat :=
  if es.length < size then 0 else es.foldl (fun m e => Nat.min m e.count) ((es.head?.map RowCount.count).getD 0)

/-- The table without the first entry of a count. -/
def dropCount (k : Nat) : List RowCount → List RowCount
  | [] => []
  | e :: es => if e.count == k then es else e :: dropCount k es

/-- A bank's table after an activate of a row (R324). -/
def activate (row : Nat) (es : List RowCount) : List RowCount :=
  if es.any fun e => e.row == row then
    es.map fun e => if e.row == row then { e with count := Nat.min 65535 (e.count + 1) } else e
  else if es.length < 24 then es ++ [⟨row, 1⟩]
  else
    let m := minCount 24 es
    dropCount m es ++ [⟨row, Nat.min 65535 (m + 1)⟩]

/-- The count of a row. -/
def rowCount (row : Nat) (es : List RowCount) : Nat :=
  ((es.find? fun e => e.row == row).map RowCount.count).getD 0

/-- The neighbours of a row have been refreshed: its entry takes the smallest count of the others (R324). -/
def refreshed (row : Nat) (es : List RowCount) : List RowCount :=
  let m := minCount 23 (es.filter fun e => e.row != row)
  es.map fun e => if e.row == row then { e with count := m } else e

/-- `ROWGUARD_EVENT` shows the oldest crossing held and the number queued behind it (R325). -/
def Dev.showHeldRows (d : Dev) (n : Nat) : Dev :=
  let h := (d.chan n).heldRow
  let off := (mcReg R.ROWGUARD_EVENT_ROW n).reg
  let keep := getF (d.reg off) 29 1
  match h with
  | [] => d.setReg off (word (keep * 2 ^ 29))
  | (bank, row) :: rest =>
    d.setReg off (word (row % 2 ^ 18 + bank % 512 * 2 ^ 18 + 2 ^ 27 + keep * 2 ^ 29 + rest.length % 16 * 2 ^ 30))

/-- The threshold of the guard (R335). -/
def Dev.guardThreshold (d : Dev) (n : Nat) : Nat := Nat.max 256 (d.fld (mcReg R.ROWGUARD_THRESH_VALUE n))

/-- NEIGHBOUR_REFRESH (R324, R325): an activate of a row of a bank of channel n; where the count reaches the
threshold its neighbours are refreshed, or, in assisted mode, the row is held for software. -/
def execNeighbourRefresh (n bank row : Nat) (s : State) : Host.Outcome State Fault Refusal :=
  onData (mcOk n && decide (bank < 512) && decide (row < 2 ^ 18)) s fun d =>
    if !d.mcLive n || (d.chan n).heldRow.contains (bank, row) then d
    else
      let es := activate row ((d.chan n).bankRows bank)
      let d := d.setBankRows n bank es
      if rowCount row es < d.guardThreshold n then d
      else if !d.duty 3 then d.setBankRows n bank (refreshed row es)
      else
        let c := d.chan n
        if c.heldRow.length ≤ 8 then
          let first := c.heldRow.isEmpty
          let d := (d.setChan n { c with heldRow := c.heldRow ++ [(bank, row)] }).showHeldRows n
          if first then d.dutyEvent else d
        else (d.setBankRows n bank (refreshed row es)).setFld (mcReg R.ROWGUARD_EVENT_MISSED n) 1

/-- ROWGUARD_TABLE_CLEAR (R324): at its tick channel n clears its tables. -/
def execRowguardTableClear (n : Nat) (s : State) : Host.Outcome State Fault Refusal :=
  onDev (mcOk n) s fun d =>
    if d.frame.toNat % 32000 == 2000 * n then d.setChan n { d.chan n with rows := [] } else d

/-- A write of `ROWGUARD_EVENT` (R325): RELEASE refreshes and releases the recorded row, and reports the next. -/
def Dev.rowguardWrite (d : Dev) (n : Nat) (v : Word) : Dev :=
  let d := d.writeReg (mcReg R.ROWGUARD_EVENT_ROW n).reg v
  match bitOf v 28, (d.chan n).heldRow with
  | true, (bank, row) :: rest =>
    let d := d.setBankRows n bank (refreshed row ((d.chan n).bankRows bank))
    let d := (d.setChan n { d.chan n with heldRow := rest }).showHeldRows n
    if rest.isEmpty then d else d.dutyEvent
  | _, _ => d

/-- ROWGUARD_RELEASE (R325): a write of `ROWGUARD_EVENT`. -/
def execRowguardRelease (req : Requester) (n : Nat) (v : Word) (s : State) : Host.Outcome State Fault Refusal :=
  onDev (reqOk req && mcOk n) s fun d => d.rowguardWrite n v

/-! ### Patrol scrub (R329) -/

/-- The lines that the patrol covers: every region but the canary (R317, R329). -/
def Dev.patrolLines (d : Dev) (n : Nat) : Nat := d.fld (mcReg R.MC_CFG_CAP_GIB n) * 2 ^ 24 - 64

/-- The line whose data lies at a channel-local address of channel n: in the interleave region, or a granule moved
into its reserve (R317, R331). -/
def Dev.lineAtLocal (d : Dev) (n a : Nat) : Option Nat :=
  match d.mcSlot n with
  | none => none
  | some k =>
    let u := d.fld R.MEM_IL_U_GIB * 2 ^ 30
    let st := d.fld R.MEM_IL_RET_STATE
    if a < u then some (d.lineOfGranule k (a / 256) + a / 64 % 4)
    else
      let r := d.fld R.MEM_IL_RET_SLOT
      let sv := d.survivors r
      if (st == 1 || st == 2) && sv.contains k then
        let q := (a - u) / 256 * sv.length + (sv.takeWhile fun x => x != k).length
        if q * 256 < u && !d.unmoved r q then some (d.lineOfGranule r q + a / 64 % 4) else none
      else none

/-- The patrol goes on to the next line; a pass ends at the last (R329). -/
def Dev.patrolNext (d : Dev) (n : Nat) : Dev :=
  let c := d.chan n
  if c.patrol + 1 < d.patrolLines n then d.setChan n { c with patrol := c.patrol + 1 }
  else (d.setChan n { c with patrol := 0 }).setFld (mcReg R.SCRUB_STATUS_PASS_DONE n) 1

/-- What the patrol does to the line it stands at (R329): a correctable one is rewritten corrected, an uncorrectable
one under the poison code. -/
def Dev.scrubLine (d : Dev) (n : Nat) (ue : Bool) : Dev :=
  match d.lineAtLocal n (64 * (d.chan n).patrol) with
  | none => d
  | some g => if ue then d.poisonLine g else d.setBad g false

/-- PATROL_SCRUB (R329): channel n's patrol reads its next line; in assisted mode it stops at a bad one. -/
def execPatrolScrub (n : Nat) (chk : ReadCheck) (s : State) : Host.Outcome State Fault Refusal :=
  onData (mcOk n) s fun d =>
    if !d.mcLive n || !d.flag (mcReg R.SCRUB_CTL_EN n) || d.flag (mcReg R.SCRUB_STATUS_WAITING n) then d
    else
      let r := d.acceptReq n 15
      if !r.1 then r.2
      else
        let a := 64 * (r.2.chan n).patrol
        let d := r.2.checkRead n a (((r.2.lineAtLocal n a)).getD (a / 64)) chk
        if chk == .clean then d.patrolNext n
        else if d.duty 7 then
          let d := d.setFld (mcReg R.SCRUB_STATUS_ADDR n) a
          let d := d.setFld (mcReg R.SCRUB_STATUS_WAITING n) 1
          (d.setFld (mcReg R.SCRUB_STATUS_UE n) (bnat (chk == .uncorrectable))).dutyEvent
        else (d.scrubLine n (chk == .uncorrectable)).patrolNext n

/-- A write of `SCRUB_CTL` (R329): REWRITE or SKIP lets the patrol go on. -/
def Dev.scrubWrite (d : Dev) (n : Nat) (v : Word) : Dev :=
  let d := d.writeReg (mcReg R.SCRUB_CTL_EN n).reg v
  if d.flag (mcReg R.SCRUB_STATUS_WAITING n) && (bitOf v 17 || bitOf v 18) then
    let d := if bitOf v 17 then d.scrubLine n (d.flag (mcReg R.SCRUB_STATUS_UE n)) else d
    ((d.setFld (mcReg R.SCRUB_STATUS_WAITING n) 0).setFld (mcReg R.SCRUB_STATUS_UE n) 0).patrolNext n
  else d

/-- SCRUB_REWRITE (R329): a write of `SCRUB_CTL`. -/
def execScrubRewrite (req : Requester) (n : Nat) (v : Word) (s : State) : Host.Outcome State Fault Refusal :=
  onDev (reqOk req && mcOk n) s fun d => d.scrubWrite n v

/-- SCRUB_SKIP (R329): a write of `SCRUB_CTL`. -/
def execScrubSkip (req : Requester) (n : Nat) (v : Word) (s : State) : Host.Outcome State Fault Refusal :=
  onDev (reqOk req && mcOk n) s fun d => d.scrubWrite n v

/-! ### Evacuation and retirement (R330 to R333) -/

/-- Whether a channel of the socket can be evacuated (R330). -/
def Dev.mayEvacuate (d : Dev) : Bool :=
  d.flag R.MEM_IL_RESERVE_EN && decide (2 ≤ d.ways) && d.evac.isNone
    && (d.fld R.MEM_IL_RET_STATE == 0 || d.fld R.MEM_IL_RET_STATE == 3)

/-- Fences a slot (R330): RET_STATE shows it. -/
def Dev.fence (d : Dev) (slot n : Nat) : Dev :=
  let d := { d with fenced := some slot }
  let d := if d.fld R.MEM_IL_RET_STATE == 0 then
      (d.setFld R.MEM_IL_RET_SLOT slot).setFld R.MEM_IL_RET_STATE 3 else d
  d.log { source := 1, inst := n, cls := 2, action := 5, bucket := (d.unitAt 0 n).bucket }

/-- Step 1 begins for a slot (R332): its fence, if any, is lifted. -/
def Dev.beginEvac (d : Dev) (slot : Nat) (urgent : Bool) : Dev :=
  let d := if d.fld R.MEM_IL_RET_STATE == 3 then d.setFld R.MEM_IL_RET_STATE 0 else d
  { d with fenced := none, evac := some ⟨slot, urgent, 0, []⟩ }

/-- A channel's fault is confirmed (R330, R332, R339): it is evacuated, waits for software, or finds no reserve. -/
def Dev.retireChannel (d : Dev) (n : Nat) (permanent : Bool) : Dev :=
  match d.mcSlot n with
  | none => d
  | some k =>
    if d.mayEvacuate then
      if d.duty 4 then
        let d := (d.setFld R.EVAC_STATUS_CANDIDATE 1).setFld R.EVAC_STATUS_CAND_SLOT k
        let d := if permanent then d.fence k n else d
        d.dutyEvent
      else d.beginEvac k permanent
    else
      let d := d.setFld R.EVAC_STATUS_NO_RESERVE 1
      if permanent then d.fence k n
      else d.log { source := 1, inst := n, cls := 1, action := 7, bucket := (d.unitAt 0 n).bucket }

/-- A write of `EVAC_CTL` (R332, R334): START begins the evacuation of the candidate slot. -/
def Dev.evacWrite (d : Dev) (v : Word) : Dev :=
  let d := d.writeReg R.EVAC_CTL_RATE.reg v
  if bitOf v 20 && d.duty 4 && d.flag R.EVAC_STATUS_CANDIDATE && d.mayEvacuate then
    let k := d.fld R.EVAC_STATUS_CAND_SLOT
    d.beginEvac k (d.fenced == some k)
  else d

/-- EVAC_START (R332): a write of `EVAC_CTL`. -/
def execEvacStart (req : Requester) (v : Word) (s : State) : Host.Outcome State Fault Refusal :=
  onDev (reqOk req) s fun d => d.evacWrite v

/-- EVAC_SWITCH (R332 step 1): every home sends the slot's accesses to the survivors. -/
def execEvacSwitch (s : State) : Host.Outcome State Fault Refusal :=
  onDev true s fun d =>
    match d.evac with
    | none => d
    | some e =>
      if d.phase == .running && d.fld R.MEM_IL_RET_STATE == 0 then
        let d := (d.setFld R.MEM_IL_RET_SLOT e.slot).setFld R.MEM_IL_RET_STATE 1
        let d := d.setFld (mcReg R.MC_STATUS_STATE (d.slotMc e.slot)) 4
        d.setFld R.EVAC_STATUS_BUSY 1
      else d

/-- The first granule from q on that was not moved on demand. -/
def skipMoved (moved : List Nat) : Nat → Nat → Nat
  | 0, q => q
  | k + 1, q => if moved.contains q then skipMoved moved k (q + 1) else q

/-- The granules of a slot. -/
def Dev.granules (d : Dev) : Nat := d.fld R.MEM_IL_U_GIB * 2 ^ 22

/-- EVAC_BACKGROUND_MOVE (R332 step 4): the next granule moves, unless PAUSE is set. -/
def execEvacBackgroundMove (chks : List ReadCheck) (s : State) : Host.Outcome State Fault Refusal :=
  onData true s fun d =>
    match d.evac with
    | none => d
    | some e =>
      let q := skipMoved e.moved e.moved.length e.next
      if d.phase == .running && d.fld R.MEM_IL_RET_STATE == 1 && !d.flag R.EVAC_CTL_PAUSE && decide (q < d.granules) then
        { d.moveGranule e.slot q chks with
          evac := some { e with next := q + 1, moved := e.moved.filter fun x => decide (q < x) } }
      else d

/-- Whether every granule is moved. -/
def Dev.allMoved (d : Dev) (e : Evac) : Bool :=
  decide (d.granules ≤ skipMoved e.moved e.moved.length e.next)

/-- EVAC_COMPLETE (R332 step 6): with every granule moved, the survivors stop consulting their maps. -/
def execEvacComplete (s : State) : Host.Outcome State Fault Refusal :=
  onDev true s fun d =>
    match d.evac with
    | none => d
    | some e =>
      if d.phase == .running && d.fld R.MEM_IL_RET_STATE == 1 && d.allMoved e then
        (d.setFld R.MEM_IL_RET_STATE 2).setFld R.EVAC_STATUS_BUSY 0
      else d

/-- CHANNEL_RETIRE (R332 step 6): the source is retired and powered down, with its record. -/
def execChannelRetire (s : State) : Host.Outcome State Fault Refusal :=
  onDev true s fun d =>
    match d.evac with
    | none => d
    | some e =>
      if d.phase == .running && d.fld R.MEM_IL_RET_STATE == 2 then
        let n := d.slotMc e.slot
        let d := d.setFld (mcReg R.MC_STATUS_STATE n) 5
        let u := d.unitAt 0 n
        let d := (d.setUnit 0 n { u with retired := true, candidate := false }).log
          { source := 1, inst := n, cls := 4, action := 3, bucket := u.bucket }
        { d with evac := none }.addRepair (retiredUnit d 0 n e.slot) 1
      else d

/-- What a tick does to channel n (R252, R323, R326): refill, and a pause that falls due. -/
def Dev.mcTick (d : Dev) (n : Nat) : Dev :=
  let d := (d.refillPorts n).pauseDue n
  if d.pauseSlot n then d.setChan n { d.chan n with owed := true } else d

end Sys2Proof.Machine
end

