-- ==== Sys2Proof/Machine/Flags.lean ====
section
/-!
DEFINITION. The conditions of the compares and branches (R90, R94, R102). The YG288 has no flag register:
a condition is computed where it is used.
-/

namespace Sys2Proof.Machine

open Sys2Proof

/-- 1 for true, as a word. -/
def boolWord (b : Bool) : Word := if b then 1 else 0

/-- Signed a < b. -/
def ltS (a b : Word) : Bool := decide (a.toInt < b.toInt)

/-- Unsigned a < b. -/
def ltU (a b : Word) : Bool := decide (a.toNat < b.toNat)

/-- The conditions of format BZ, a against zero, by mnemonic (R94). -/
def condEq (a : Word) : Bool := a == 0
def condNe (a : Word) : Bool := a != 0
def condLt (a : Word) : Bool := decide (a.toInt < 0)
def condGe (a : Word) : Bool := decide (0 ≤ a.toInt)
def condLe (a : Word) : Bool := decide (a.toInt ≤ 0)
def condGt (a : Word) : Bool := decide (0 < a.toInt)

end Sys2Proof.Machine
end

