-- ==== Sys2Proof/Machine/Operands.lean ====
section
/-!
DEFINITION. How a strand issues and retires an instruction: the state that holds it back, the fetch check of its
PC, the exceptions in the order of R64, the delay slot (R72 to R75), the mode shadow's positions (R77, R80),
long operations (R89, R151), and the branch target buffer and return-address stack (R148 to R150).
-/

namespace Sys2Proof.Machine

open Sys2Proof

/-- What the order of R64 needs to know of an instruction: its encoding is one that R85 lists; it is of the
transfer class (R73); the level may execute it; it is a mode-bearing write (R76); it uses a v register (R49); the
registers it reads or writes. -/
structure Insn where
  legal : Bool := true
  transfer : Bool := false
  allowed : Bool := true
  modeWrite : Bool := false
  vec : Bool := false
  regs : List RegRef := []
  deriving DecidableEq, Repr

/-- Whether a long operation in flight writes a register of a list (R89, R151). -/
def Strand.waitsFor (x : Strand) (rs : List RegRef) : Bool :=
  x.longOps.any fun o => rs.any fun r => r == o.dst && r != .n 0

/-- Whether strand g may issue: its logical core is served, it is not parked, waiting or halted, its core
does not drain, and no load from a window or `TSYNC` holds it (log entry 2). -/
def State.mayIssue (s : State) (g : Nat) : Bool :=
  let x := s.strand g
  s.dev.coreThere (g / 2) && (s.dev.phase == .running || s.dev.phase == .drain) && !x.parked && x.waiting.isNone && !x.halted
    && x.portLoad.isNone && !x.tsync && !(s.dev.pm (g / 2)).draining

/-- The outcome of fetching the word at PC. -/
inductive FetchR
  | ok (d : Dev)
  | exc (e : Exc) (d : Dev)
  deriving DecidableEq, Repr

/-- The fetch of the word at PC: its translation (R162, R169), the ownership check (R394), an unclaimed address
(R33), and poisoned or uncorrectable data (R347). -/
def State.fetch (s : State) (g : Nat) : FetchR :=
  let x := s.strand g
  match s.dev.xlate g x x.pc .fetch with
  | .exc e d => .exc e d
  | .ok a d =>
    match d.guard x x.pc a .fetch with
    | some e => .exc e d
    | none =>
      if !(d.claim a.pa).normal then
        let r := d.unclaimed a.pa (d.globalId g)
        .exc { code := 9, faddr := some x.pc, syn := .idx r.2 } r.1
      else
        let q := d.coreRead (d.phys (g / 2)) (a.pa / 64) a.key
        if q.poison then
          let r := q.dev.consumed (d.phys (g / 2)) (d.globalId g) (a.pa / 64)
          .exc { code := 8, faddr := some x.pc, syn := .err q.src r.2 } r.1
        else .ok (q.dev.demand (d.phys (g / 2)) (a.pa / 64) a.key true)

/-- Whether a completed shadow, or its closing, is due before the next instruction (R80). -/
def Strand.shadowDue (x : Strand) : Bool :=
  match x.shadow with
  | some sh => decide (5 ≤ sh.pos)
  | none => false

/-- What becomes of an instruction before it executes. -/
inductive Issue
  | held (s : State)
  | exc (s : State) (e : Exc)
  | run (s : State)
  deriving DecidableEq, Repr

/-- The checks of an instruction of strand g in the order of R64, after a shadow that is due has closed. -/
def State.issue (s : State) (g : Nat) (i : Strand → Insn) : Issue :=
  if !s.mayIssue g then .held s
  else
    let s := if (s.strand g).shadowDue then s.closeShadow g else s
    if (s.dev.pm (g / 2)).draining then .held s
    else
      let x := s.strand g
      let n := i x
      match s.fetch g with
      | .exc e d => if x.longOps.isEmpty then .exc { s with dev := d } e else .held s
      | .ok d =>
        let s' := { s with dev := d }
        let stop (e : Exc) : Issue := if x.longOps.isEmpty then .exc s' e else .held s
        if !n.legal then stop { code := 1 }
        else if n.transfer && x.slot.isSome then stop { code := 3, faddr := some x.pc }
        else if !n.allowed then stop { code := 2 }
        else if n.modeWrite && x.shadow.isSome then stop { code := 0x10 }
        else if n.vec && !x.vec then stop { code := 0x0F }
        else if x.waitsFor n.regs then .held s
        else .run s'

/-- How an instruction's execution goes on: it retires; it has set the PC itself; it raises, with a device that
keeps the error records; it is held. -/
inductive Flow
  | ok (s : State)
  | go (s : State)
  | exc (e : Exc) (d : Dev)
  | hold (s : State)
  deriving DecidableEq, Repr

/-- A mode shadow k positions on (R77). -/
def Strand.step (x : Strand) (k : Nat) : Strand :=
  match x.shadow with
  | none => x
  | some sh => { x with shadow := some { sh with pos := Nat.min 5 (sh.pos + k) } }

/-! ### Branch targets (R148 to R150) -/

/-- The tag of a PC in the branch target buffer (R148). -/
def btbTag (pc : Word) : Nat := getF pc 12 10 ^^^ getF pc 22 10 ^^^ getF pc 32 10 ^^^ getF pc 42 6

/-- Whether the other strand of the core runs sealed, so that this one neither reads nor writes the BTB (R150). -/
def State.btbShut (s : State) (g : Nat) : Bool :=
  let o := if g % 2 == 0 then g + 1 else g - 1
  (s.strand o).sealedB

/-- The target that the BTB supplies for a PC. -/
def State.btbLook (s : State) (g : Nat) (pc : Word) : Option Word :=
  if s.btbShut g then none
  else
    let k := s.dev.phys (g / 2) * 1024 + getF pc 2 10
    ((SMap.get (fun _ => []) s.dev.btb k).find? fun e => e.1 == btbTag pc).map fun e => e.2.2

/-- A retired taken transfer writes the BTB, most recent first of 4 ways (R148). -/
def State.btbLearn (s : State) (g : Nat) (pc target : Word) : State :=
  if s.btbShut g then s
  else
    let k := s.dev.phys (g / 2) * 1024 + getF pc 2 10
    let es := (SMap.get (fun _ => []) s.dev.btb k).filter fun e => e.1 != btbTag pc
    let d := { s.dev with
      btb := SMap.set (fun _ => []) s.dev.btb k (((btbTag pc, 0, target) :: es).take 4) }
    { s with dev := d }

/-- Counts an event of strand g (R160). -/
def State.count (s : State) (g ev : Nat) : State := { s with dev := s.dev.count g (s.strand g) ev }

/-- The instruction at PC retires and the next follows it; after a slot, where its transfer leads (R72). -/
def State.retire (s : State) (g : Nat) : State :=
  let s := s.count g 1
  let x := (s.strand g).step 1
  match x.slot with
  | none => s.setStrand g { x with pc := x.pc + 4 }
  | some sl =>
    let s := s.setStrand g { x with pc := sl.next, slot := none }
    if sl.taken then s.btbLearn g sl.branch sl.next else s

/-- Runs an instruction of strand g. -/
def runInsn (g : Nat) (s : State) (i : Strand → Insn) (body : State → Flow) :
    Host.Outcome State Fault Refusal :=
  if !strandOk g then .fault .noSuchUnit
  else if !s.dev.clocksOk then .fault .outsideClockRelations
  else
    match s.issue g i with
    | .held s' => .next s'
    | .exc s' e => .next (s'.raise g e)
    | .run s' =>
      match body s' with
      | .ok t => .next (t.retire g)
      | .go t => .next t
      | .hold t => .next t
      | .exc e d =>
        if (s'.strand g).longOps.isEmpty then .next ({ s' with dev := d }.raise g e) else .next s'

/-- Writes a general register of strand g. -/
def State.setN (s : State) (g : Nat) (r : Reg) (v : Word) : State := s.setStrand g ((s.strand g).setN r v)

/-- Writes a vector register of strand g. -/
def State.setV (s : State) (g : Nat) (r : Reg) (v : VWord) : State := s.setStrand g ((s.strand g).setV r v)

/-- Writes a scalar result of strand g (R49). -/
def State.setD (s : State) (g : Nat) (r : Reg) (v : Word) : State := s.setStrand g ((s.strand g).setD r v)

/-- A long operation of strand g begins (R89, R151): its result reaches the destination when it completes. -/
def State.long (s : State) (g : Nat) (dst : RegRef) (val : VWord) (k : LongKind) : State :=
  let x := s.strand g
  s.setStrand g { x with longOps := x.longOps ++ [⟨dst, val, k⟩] }

/-! ### Operand forms -/

/-- A register operation d ← f(a, b) (R90, R92); `zb` when the b field must be 0. -/
def execNNN (g : Nat) (s : State) (d a b : Reg) (zb : Bool) (f : Word → Word → Word) :
    Host.Outcome State Fault Refusal :=
  runInsn g s (fun _ => { legal := !zb || b == 0, regs := [.n d, .n a, .n b] }) fun s =>
    .ok (s.setN g d (f ((s.strand g).getN a) ((s.strand g).getN b)))

/-- A long register operation (R89, R92). -/
def execNNNLong (g : Nat) (s : State) (d a b : Reg) (f : Word → Word → Word) :
    Host.Outcome State Fault Refusal :=
  runInsn g s (fun _ => { regs := [.n d, .n a, .n b] }) fun s =>
    .ok (s.long g (.n d) ((f ((s.strand g).getN a) ((s.strand g).getN b)).setWidth 256) .value)

/-- An immediate operation d ← f(a) (R91). -/
def execNNI (g : Nat) (s : State) (d a : Reg) (legal : Bool) (f : Word → Word) :
    Host.Outcome State Fault Refusal :=
  runInsn g s (fun _ => { legal := legal, regs := [.n d, .n a] }) fun s =>
    .ok (s.setN g d (f ((s.strand g).getN a)))

/-- The v operand forms (R98, R101): d ← f(d, a, b) on whole v registers, with W and b allowed or not. -/
def execVVV (g : Nat) (s : State) (d a b : Reg) (legal : Bool) (f : VWord → VWord → VWord → VWord) :
    Host.Outcome State Fault Refusal :=
  runInsn g s (fun _ => { legal := legal, vec := true, regs := [.v d, .v a, .v b] }) fun s =>
    let x := s.strand g
    .ok (s.setV g d (f (x.getV d) (x.getV a) (x.getV b)))

/-- d ← f(d, a, n b): a general register as the last operand. -/
def execVVN (g : Nat) (s : State) (d a b : Reg) (legal : Bool) (f : VWord → VWord → Word → VWord) :
    Host.Outcome State Fault Refusal :=
  runInsn g s (fun _ => { legal := legal, vec := true, regs := [.v d, .v a, .n b] }) fun s =>
    let x := s.strand g
    .ok (s.setV g d (f (x.getV d) (x.getV a) (x.getN b)))

/-- v d ← f(v d, n a): a general register as the only source. -/
def execVN (g : Nat) (s : State) (d a : Reg) (legal : Bool) (f : VWord → Word → VWord) :
    Host.Outcome State Fault Refusal :=
  runInsn g s (fun _ => { legal := legal, vec := true, regs := [.v d, .n a] }) fun s =>
    let x := s.strand g
    .ok (s.setV g d (f (x.getV d) (x.getN a)))

/-- n d ← f(v a, v b): a general register as the destination. -/
def execNVV (g : Nat) (s : State) (d a b : Reg) (legal : Bool) (f : VWord → VWord → Word) :
    Host.Outcome State Fault Refusal :=
  runInsn g s (fun _ => { legal := legal, vec := true, regs := [.n d, .v a, .v b] }) fun s =>
    let x := s.strand g
    .ok (s.setN g d (f (x.getV a) (x.getV b)))

/-- n d ← f(v a). -/
def execNV (g : Nat) (s : State) (d a : Reg) (legal : Bool) (f : VWord → Word) :
    Host.Outcome State Fault Refusal :=
  runInsn g s (fun _ => { legal := legal, vec := true, regs := [.n d, .v a] }) fun s =>
    .ok (s.setN g d (f ((s.strand g).getV a)))

/-- A scalar operation v d ← f(d, a, b) on bits [63:0] (R49, R99). -/
def execFFF (g : Nat) (s : State) (d a b : Reg) (zb : Bool) (f : Word → Word → Word → Word) :
    Host.Outcome State Fault Refusal :=
  execVVV g s d a b (!zb || b == 0) fun vd va vb =>
    (f (vd.setWidth 64) (va.setWidth 64) (vb.setWidth 64)).setWidth 256

/-- A long operation on v registers (R99, R102). -/
def execVVVLong (g : Nat) (s : State) (d a b : Reg) (legal : Bool) (f : VWord → VWord → VWord) :
    Host.Outcome State Fault Refusal :=
  runInsn g s (fun _ => { legal := legal, vec := true, regs := [.v d, .v a, .v b] }) fun s =>
    let x := s.strand g
    .ok (s.long g (.v d) (f (x.getV a) (x.getV b)) .value)

end Sys2Proof.Machine
end

