-- ==== Sys2Proof/Machine/Interrupt.lean ====
section
/-!
DEFINITION. The interrupt router (R466 to R483): messages and their remapping, direct and guest delivery, bind and
unbind, wakes, socket events; and interrupt entry at a strand (R467, R468).
-/

namespace Sys2Proof.Machine

open Sys2Proof

/-! ### Wakes (R134, R139, R475) -/

/-- Whether a core holds a wake of its strand 1: while Steady mode is active (R139), and from the acceptance of a change
to it until its drain ends (R61). -/
def Pmode.holdsWake (p : Pmode) : Bool := p.active || p.accepted || p.draining

/-- Wakes strand g from PARK, unless its core holds the wake (R61, R139). -/
def State.wake (s : State) (g : Nat) : State :=
  let x := s.strand g
  if g % 2 == 1 && (s.dev.pm (g / 2)).holdsWake then
    { s with dev := s.dev.setPm (g / 2) { s.dev.pm (g / 2) with wake := true } }
  else if !x.parked then s
  else
    let c := s.dev.phys (g / 2)
    let s := s.setStrand g { x with parked := false }
    let d := s.dev
    -- leaving deep park is counted (R495, R505)
    if d.fld (corePwr c) == 3 then
      { s with dev := (d.setFld (corePwr c) 1).addSat (R.CORE_PWR_WAKES.at (8 * c)) 1 }
    else { s with dev := d.setFld (corePwr c) 1 }

/-- Wakes a global strand ID (R475): one of another socket is forwarded; an absent one is dropped (R474). -/
def State.wakeId (s : State) (target : Nat) : State :=
  if target / 512 % 8 != s.dev.self then
    if natBit (s.dev.fld R.CHAIN_STATUS_COHERENT) (target / 512 % 8) then s
    else { s with dev := s.dev.addSat R.IR_DROP_ABSENT 1 }
  else if s.dev.coreThere (target % 512 / 2) then s.wake (target % 512)
  else { s with dev := s.dev.addSat R.IR_DROP_ABSENT 1 }

/-! ### Messages (R470 to R473) -/

/-- A discarded message (R472): counted, recorded, and the first one loads `IR_FAULT`. -/
def Dev.irDiscard (d : Dev) (rid index reason : Nat) : Dev :=
  let d := d.addSat R.IR_DROP_INVALID 1
  let d := if d.flag R.IR_FAULT_VALID then d
    else
      (((d.setFld R.IR_FAULT_RID rid).setFld R.IR_FAULT_INDEX index).setFld R.IR_FAULT_REASON reason).setFld
        R.IR_FAULT_VALID 1
  d.log { source := 0x15, cls := 5, syndrome := reason, address := index }

/-- The number of entries of the remapping table (R471, R483). -/
def Dev.irtSize (d : Dev) : Nat := 4096 * 2 ^ Nat.min 4 (d.fld R.IR_IRT_BASE_SIZE)

/-- An entry of the remapping table: a cached one, unless it was evicted (a free choice), or the table's, which
is then cached among 256 (R473). -/
def Dev.irtEntry (d : Dev) (index : Nat) : (Word × Word) × Dev :=
  let load (d : Dev) : (Word × Word) × Dev :=
    let pa := d.fld R.IR_IRT_BASE_BASE * 4096 + 16 * index
    let q := d.coreRead 511 (pa / 64) 0
    let w0 := lineWord q.line (pa % 64)
    let w1 := lineWord q.line (pa % 64 + 8)
    let others := q.dev.irt.filter fun e => e.idx != index
    ((w0, w1), { q.dev with irt := (⟨index, w0, w1⟩ :: others).take 256 })
  match d.irt.find? fun e => e.idx == index with
  | none => load d
  | some e =>
    let f := d.drawBool
    if f.1 then load f.2 else ((e.d0, e.d1), f.2)

/-! ### Guest delivery (R476 to R478) -/

/-- Whether strand i of this socket is bound to the block at an address. -/
def Dev.boundTo (d : Dev) (i block : Nat) : Bool :=
  d.flag (R.BIND_EN.at (0x100 * i)) && d.fld (R.BIND_ADDR.at (0x100 * i)) == block / 256

/-- An arrival of class k in a detached block: the alert of R477 step 4. -/
def Dev.alert (d : Dev) (block k : Nat) (head : Nat) : Dev :=
  if natBit head (14 + k) then
    let r := d.farWord block fun x => x ||| 2 ^ 13
    if natBit r.1 13 then r.2
    else r.2.deliver (r.1 / 2 ^ 30 % 4096) (r.1 / 2 ^ 42 % 1024)
  else d

/-- Collects a vector in a detached block (R477 steps 3 and 4). -/
def Dev.collect (d : Dev) (block v : Nat) (head : Nat) : Dev :=
  let k := v / 64
  let a := d.farWord (block + 0x10 + 8 * k) fun x => x ||| 2 ^ (v % 64)
  let b := a.2.farWord (block + 8) fun x => x ||| 2 ^ k
  b.2.alert block k head

/-- A guest message (R477). -/
def Dev.guestMessage (d : Dev) (block v : Nat) : Dev :=
  let r := d.farWord block fun x => x
  let head := r.1
  let d := r.2
  let bound := head / 2 % 4096
  if head % 2 == 1 then
    if bound / 512 % 8 != d.self then d.deliver bound v
    else if d.boundTo (bound % 512) block then d.setPend (bound % 512) v
    else d.collect block v head
  else d.collect block v head

/-- Whether a vCPU interrupt block lies in a DRAM home range (R472). -/
def Dev.blockOk (d : Dev) (block : Nat) : Bool :=
  match d.claim block with
  | .dram _ => true
  | _ => false

/-- An interrupt message that the window takes (R470 to R477). -/
def Dev.irMessage (d : Dev) (rid : BitVec 16) (addr : Word) (size : Nat) (x : BitVec 32) : Dev :=
  let index := x.toNat % 65536
  let drop (d : Dev) (reason : Nat) := d.irDiscard rid.toNat index reason
  if !d.flag R.IR_IRT_BASE_EN || decide (d.irtSize ≤ index) then drop d 1
  else if size != 4 || addr.toNat % 4 != 0 then drop d 4
  else
    let e := d.irtEntry index
    let w0 := e.1.1
    let w1 := e.1.2
    let d := e.2
    let v := getF w0 2 10
    if !bitOf w0 0 then drop d 2
    else if (getF w0 24 16 ^^^ rid.toNat) &&& getF w0 40 16 != 0 then drop d 3
    else if v == 0 || v == 1023 then drop d 4
    else if bitOf w0 1 then
      let block := getF w1 8 44 * 256
      if d.blockOk block then d.guestMessage block v else drop d 5
    else d.deliver (getF w0 12 12) v

/-- Whether a write's address lies in the message window (R470). -/
def Dev.inMsgWindow (d : Dev) (addr : Word) : Bool :=
  d.flag R.IR_MSG_BASE_EN && addr.toNat / 4096 == d.fld R.IR_MSG_BASE_BASE

/-! ### Bind and unbind (R478) -/

/-- Moves a bound class's pending bits from the block into the strand (R478 bind, step 3). -/
def Dev.bindClass (d : Dev) (i block k : Nat) : Dev :=
  let r := d.farWord (block + 0x10 + 8 * k) fun _ => 0
  let off := R.PEND_BITS.reg + 0x100 * i + 8 * k
  r.2.setReg off (r.2.reg off ||| word r.1)

/-- Binds strand i to the block its `BIND` names (R478): step 1 is refused when the block or the strand is
bound already. -/
def Dev.bindStrand (d : Dev) (i block : Nat) : Dev :=
  if d.flag (R.BIND_EN.at (0x100 * i)) then d.setFld (R.BIND_REFUSED.at (0x100 * i)) 1
  else
    let r := d.farWord block fun x => x
    if r.1 % 2 == 1 then r.2.setFld (R.BIND_REFUSED.at (0x100 * i)) 1
    else
      let classes := d.fld (R.BIND_CLASS_CLASSES.at (0x100 * i))
      let head := (putF (putF (putF (word r.1) 0 1 1) 1 12 (d.globalId i)) 13 1 0).toNat
      let a := r.2.farWord block fun _ => head
      let b := a.2.farWord (block + 8) fun x => (word x &&& ~~~ (word classes)).toNat
      let d := ((List.range 16).filter fun k => natBit classes k && natBit b.1 k).foldl
        (fun d k => d.bindClass i block k) b.2
      let d := { d with bindCls := SMap.set (fun _ => 0) d.bindCls i classes }
      (d.setFld (R.BIND_EN.at (0x100 * i)) 1).setFld (R.BIND_ADDR.at (0x100 * i)) (block / 256)

/-- Moves a class's pending bits back into the block (R478 unbind, step 2). -/
def Dev.unbindClass (d : Dev) (i block k : Nat) : Dev :=
  let off := R.PEND_BITS.reg + 0x100 * i + 8 * k
  let bits := (d.reg off).toNat
  let a := (d.setReg off 0).farWord (block + 0x10 + 8 * k) fun x => x ||| bits
  (a.2.farWord (block + 8) fun x => x ||| 2 ^ k).2

/-- Unbinds strand i (R478), for the classes that its bind took: a change of `BIND_CLASS` waits for the next (R483). -/
def Dev.unbindStrand (d : Dev) (i : Nat) : Dev :=
  if !d.flag (R.BIND_EN.at (0x100 * i)) then d
  else
    let block := d.fld (R.BIND_ADDR.at (0x100 * i)) * 256
    let classes := SMap.get (fun _ => 0) d.bindCls i
    let r := d.farWord block fun x => x / 2 * 2
    let moved := (List.range 16).filter fun k =>
      natBit classes k && d.reg (R.PEND_BITS.reg + 0x100 * i + 8 * k) != 0
    let d := moved.foldl (fun d k => d.unbindClass i block k) r.2
    let d := { d.setFld (R.BIND_EN.at (0x100 * i)) 0 with bindCls := SMap.set (fun _ => 0) d.bindCls i 0 }
    match moved.find? fun k => natBit r.1 (14 + k) with
    | none => d
    | some k => d.alert block k r.1

/-- A write of `BIND[i]` (R478, R483): REFUSED is cleared by a 1; EN binds or unbinds; an unbind keeps the
address written. -/
def Dev.bindWrite (d : Dev) (i : Nat) (v : Word) : Dev :=
  let d := if bitOf v 1 then d.setFld (R.BIND_REFUSED.at (0x100 * i)) 0 else d
  if bitOf v 0 then d.bindStrand i (getF v 8 44 * 256)
  else (d.unbindStrand i).setFld (R.BIND_ADDR.at (0x100 * i)) (getF v 8 44)

/-! ### Register writes of the router -/

/-- A write of `IR_SEND` (R475). -/
def State.irSendWrite (s : State) (v : Word) : State :=
  if bitOf v 22 then s.wakeId (getF v 0 12)
  else { s with dev := s.dev.deliver (getF v 0 12) (getF v 12 10) }

/-- A write of `IR_INV` (R473): it is complete at once. -/
def Dev.irInvWrite (d : Dev) (v : Word) : Dev :=
  if bitOf v 16 then { d with irt := [] }
  else { d with irt := d.irt.filter fun e => e.idx != getF v 0 16 }

/-! ### Interrupt entry (R467, R468) -/

/-- Whether the timer of a strand is pending (R257). -/
def timerDue (d : Dev) (x : Strand) : Bool := x.te && decide (x.timecmp.toNat ≤ d.frame.toNat)

/-- The level that takes class k at a strand, when it accepts it now (R65). -/
def takeLevel (x : Strand) (k : Nat) (ie : Bool) : Option Nat :=
  let lvl := if bitOf x.hstatus (18 + k) then 1 else 2
  if x.pl < lvl || (x.pl == lvl && ie) then some lvl else none

/-- Whether vector v of strand g is takeable (R467), were its IE as given. -/
def State.takeable (s : State) (g v : Nat) (ie : Bool) : Bool :=
  let x := s.strand g
  let pend := if v == 1023 then timerDue s.dev x
    else bitOf (s.dev.reg (R.PEND_BITS.reg + 0x100 * g + 8 * (v / 64))) (v % 64)
  pend && v != 0 && decide (s.dev.fld (R.STRAND_CTL_THRESH.at (0x100 * g)) ≤ v / 64)
    && (takeLevel x (v / 64) ie).isSome

/-- The highest takeable vector of strand g (R467). -/
def State.topVector (s : State) (g : Nat) (ie : Bool) : Option Nat :=
  (List.range 1024).reverse.find? fun v => s.takeable g v ie

/-- Whether strand g stands at a boundary where an interrupt may be taken (R71, R133, R134, R136, R139, R151). -/
def State.atBoundary (s : State) (g : Nat) : Bool :=
  let x := s.strand g
  s.dev.coreThere (g / 2) && s.dev.phase == .running && !x.parked && x.waiting.isNone && !x.halted
    && x.portLoad.isNone && !(s.dev.pm (g / 2)).draining && x.slot.isNone
    && (x.shadow.isNone || x.shadowDue) && x.longOps.isEmpty

/-- The cause word of an interrupt (R58). -/
def intCause (v : Nat) : Word := word (v * 2 ^ 8 + v / 64 * 2 ^ 18 + 2 ^ 63)

/-- Strand g takes vector v (R467, R468): a TSYNC that waits is abandoned (R130). -/
def State.takeVector (s : State) (g v : Nat) : State :=
  let x := s.strand g
  match takeLevel x (v / 64) x.ie with
  | none => s
  | some lvl =>
    let s := s.setStrand g { x with tsync := false }
    let s := { s with dev := if v == 1023 then s.dev else s.dev.clearPend g v }
    s.enter g lvl .interrupt x.pc (intCause v) false none none .none none

/-- Strand g takes a strand lost (R65, R67, R351), whatever its IE. -/
def State.takeLost (s : State) (g r : Nat) (rest : List Nat) : State :=
  let x := s.strand g
  (s.setStrand g { x with tsync := false, lost := rest }).enter g 2 .lost x.pc (excCause 0x11 0) false none none
    (.idx r) none

/-- INTERRUPT_ENTRY (R467): at a boundary the strand takes a strand lost that waits for it, else its highest takeable
vector, when it has one. -/
def execInterruptEntry (g : Nat) (s : State) : Host.Outcome State Fault Refusal :=
  if !strandOk g then .fault .noSuchUnit
  else if !s.dev.clocksOk then .fault .outsideClockRelations
  else if !s.atBoundary g then .next s
  else
    let s := if (s.strand g).shadowDue then s.closeShadow g else s
    if (s.dev.pm (g / 2)).draining then .next s
    else
      match (s.strand g).lost, s.topVector g (s.strand g).ie with
      | r :: rest, _ => .next (s.takeLost g r rest)
      | [], none => .next s
      | [], some v => .next (s.takeVector g v)

/-- TIMECMP_REACHED (R257): the timer is pending exactly while its condition holds, so its arrival changes
nothing by itself. -/
def execTimecmpReached (g : Nat) (s : State) : Host.Outcome State Fault Refusal :=
  if strandOk g then .next s else .fault .noSuchUnit

/-! ### The commands -/

/-- INTERRUPT_MESSAGE (R477). -/
def execInterruptMessage (rid : BitVec 16) (addr : Word) (size : Nat) (x : BitVec 32) (s : State) :
    Host.Outcome State Fault Refusal :=
  onData true s fun d => if d.inMsgWindow addr then d.irMessage rid addr size x else d

/-- IR_SEND (R475): a write of `IR_SEND`. -/
def execIrSend (req : Requester) (v : Word) (s : State) : Host.Outcome State Fault Refusal :=
  if reqOk req then .next (s.irSendWrite v) else .fault .noSuchUnit

/-- IR_WAKE (R475): a write of `IR_SEND` with WAKE. -/
def execIrWake (req : Requester) (v : Word) (s : State) : Host.Outcome State Fault Refusal :=
  if reqOk req then .next (s.irSendWrite v) else .fault .noSuchUnit

/-- IR_INV (R473): a write of `IR_INV`. -/
def execIrInv (req : Requester) (v : Word) (s : State) : Host.Outcome State Fault Refusal :=
  onDev (reqOk req) s fun d => d.irInvWrite v

/-- BIND (R478): a write of `BIND[i]`. -/
def execBind (req : Requester) (i : Nat) (v : Word) (s : State) : Host.Outcome State Fault Refusal :=
  onDev (reqOk req && strandOk i) s fun d => d.bindWrite i v

/-- UNBIND (R478): a write of `BIND[i]`. -/
def execUnbind (req : Requester) (i : Nat) (v : Word) (s : State) : Host.Outcome State Fault Refusal :=
  onDev (reqOk req && strandOk i) s fun d => d.bindWrite i v

/-- SOCKET_EVENT (R479): line e rises, or is high at a tick. Lines 4 to 7 are never raised. -/
def execSocketEvent (e : Nat) (s : State) : Host.Outcome State Fault Refusal :=
  onDev (decide (e < 8)) s fun d => if d.lineHigh e || (2 ≤ e && e < 4) then d.routeEvent e else d

end Sys2Proof.Machine
end

