-- ==== Sys2Proof/Machine/Persist.lean ====
section
/-!
DEFINITION. Persistence and the Peat store (R262 to R289): credits, the intake and its media writes, epoch close,
failed writes, wear levelling and the wear governor.
-/

namespace Sys2Proof.Machine

open Sys2Proof

/-- A register of stack n. -/
def psReg (f : Field) (n : Nat) : Field := f.at (0x40000 * n)

/-- The stacks of a socket. -/
def stackOk (n : Nat) : Bool := decide (n < 8)

/-! ### Credits (R272 to R274) -/

/-- The budget of a stack for a new frame (R273). -/
def Dev.budget (d : Dev) (n : Nat) : Nat :=
  let k := d.stack n
  let free := 65536 - k.accepted.length
  let pending := k.granted - k.usedNow
  let cap := Nat.min 512 (d.fld (psReg R.PERSIST_CTL_BUDGET n))
  let reserve := Nat.min 65536 (d.fld (psReg R.PERSIST_CTL_DRAIN_RESERVE n))
  Nat.min cap (free - pending - reserve)

/-- A stack at a tick (R273): the new budget, of which the Ledger's share is set apart. -/
def Dev.stackTick (d : Dev) (n : Nat) : Dev :=
  if !d.flag (psReg R.PS_STATUS_MOUNTED n) then d
  else
    let b := d.budget n
    let share := Nat.min b (d.fld (psReg R.PERSIST_CTL_LEDGER_SHARE n))
    let d := (d.setFld (psReg R.PERSIST_STATUS_GRANTED n) b).setFld (psReg R.PERSIST_STATUS_LEFT n) (b - share)
    d.setStack n { d.stack n with granted := 0, usedNow := 0, acceptedNow := 0, ledgerLeft := share }

/-- The lines left of core c's credit block for a stack, in this frame (R274). -/
def Dev.creditLeft (d : Dev) (c n : Nat) : Nat :=
  match (d.tracker c).blocks.find? fun b => b.1 == n && b.2.2 == d.frame with
  | some b => b.2.1
  | none => 0

/-- Draws one credit of core c's block for a stack. -/
def Dev.drawCredit (d : Dev) (c n : Nat) : Dev :=
  let t := d.tracker c
  d.setTracker c { t with
    blocks := t.blocks.map fun b => if b.1 == n && b.2.2 == d.frame then (n, b.2.1 - 1, b.2.2) else b }

/-- Whether a request of core c must wait for a core that the stack refused before it (R274): while lines are left, the
refused cores come first, in the order of their refusals. -/
def Dev.creditBehind (d : Dev) (c n : Nat) : Bool :=
  d.fld (psReg R.PERSIST_STATUS_LEFT n) != 0 && (match (d.stack n).refusals with
    | [] => false
    | x :: _ => x != c)

/-- CREDIT_REQUEST (R274): core c asks stack n for a block, when it holds none. -/
def execCreditRequest (n c : Nat) (prio : Bool) (s : State) : Host.Outcome State Fault Refusal :=
  onData (stackOk n && coreOk c) s fun d =>
    if d.creditLeft c n != 0 || (prio && !(d.stack n).refusals.contains c) || d.creditBehind c n then d
    else
      let left := d.fld (psReg R.PERSIST_STATUS_LEFT n)
      let t := d.tracker c
      let k := d.stack n
      if left == 0 then
        let d := d.addSat (psReg R.PERSIST_STATUS_REFUSALS n) 1
        (d.setTracker c { t with refused := t.refused ++ [n] }).setStack n
          { k with refusals := if k.refusals.contains c then k.refusals else k.refusals ++ [c] }
      else
        let m := Nat.min 8 left
        let d := d.setFld (psReg R.PERSIST_STATUS_LEFT n) (left - m)
        let d := d.setTracker c { t with
          blocks := (n, m, d.frame) :: t.blocks.filter fun b => b.1 != n
          refused := t.refused.filter fun x => x != n }
        d.setStack n { k with
          granted := k.granted + m
          refusals := k.refusals.filter fun x => x != c }

/-- A store or near atomic of a strand retires to a Peat line at core c (R267): it sets its bit in the line's open
entry, or takes an entry and a credit; none when it must wait. A stack of another socket grants its credits
outside the model. During the drain neither is needed (R295). -/
def Dev.trackStore (d : Dev) (c j g : Nat) : Option Dev :=
  let t := d.tracker c
  let mark (e : Track) : Track := { e with
    s0 := e.s0 || j == 0
    s1 := e.s1 || j == 1
    dirty := true }
  if t.openB.any fun e => e.g == g then
    some (d.setTracker c { t with openB := t.openB.map fun e => if e.g == g then mark e else e })
  else if d.phase == .drain then
    some (d.setTracker c { t with openB := t.openB ++ [mark ⟨g, false, false, 0, true, d.frame⟩] })
  else if 64 ≤ t.openB.length then none
  else
    let own := d.homedHere g
    if own && d.creditLeft c (stackOf g) == 0 then none
    else
      let d := if own then d.drawCredit c (stackOf g) else d
      let t := d.tracker c
      some (d.setTracker c { t with openB := t.openB ++ [mark ⟨g, false, false, 0, true, d.frame⟩] })

/-- The banks of core c exchange at a tick, credit blocks expire, and the sweep sends (R268, R274). -/
def Dev.closeBank (d : Dev) (c : Nat) : Dev :=
  let t := d.tracker c
  if t == {} then d
  else
    let d := d.setTracker c { t with
      openB := []
      closing := t.closing ++ t.openB
      blocks := [] }
    d.sweep c

/-! ### The intake (R265, R270, R277) -/

/-- The line that an intake accepts next: the oldest write of the line whose urgent write waits longest, else the
oldest (R277). -/
def nextIntake (q : List Intake) : Option Intake :=
  match q.find? fun e => e.urgent with
  | some u => q.find? fun e => e.g == u.g
  | none => q.head?

/-- Removes the first write of a line from a list. -/
def dropFirst (g : Nat) : List Intake → List Intake
  | [] => []
  | e :: es => if e.g == g then es else e :: dropFirst g es

/-- A line accepted again replaces, or is merged over, the copy that waits (R265). -/
def mergeIntake (o e : Intake) : Intake :=
  { e with
    data := mergeLine o.data e.data e.mask
    mask := o.mask ||| e.mask
    poison := e.poison || (o.poison && e.mask != fullMask) }

/-- The accepted lines with one more (R265). -/
def acceptInto (e : Intake) : List Intake → List Intake
  | [] => [e]
  | o :: os => if o.g == e.g then mergeIntake o e :: os else o :: acceptInto e os

/-- INTAKE_USED follows the accepted lines (R287). -/
def Dev.showIntake (d : Dev) (n : Nat) : Dev :=
  d.setFld (psReg R.PS_STATUS_INTAKE_USED n) (d.stack n).accepted.length

/-- Whether an accepted line was credited in this frame (R273). -/
def Dev.creditedNow (d : Dev) (e : Intake) : Bool :=
  e.credit == some d.frame || (match e.ack with
    | some (.core c) => (d.tracker c).openB.any fun t => t.g == e.g && t.credit == d.frame
    | _ => false)

/-- Stack n accepts a waiting line (R265, R270): it is durable, and those who wait for it are told. -/
def State.acceptLine (s : State) (n : Nat) (e : Intake) : State :=
  let d := s.dev
  let k := d.stack n
  let k' := { k with
    waitQ := dropFirst e.g k.waitQ
    accepted := acceptInto e k.accepted
    acceptedNow := k.acceptedNow + 1
    usedNow := k.usedNow + bnat (d.creditedNow e) }
  let d := ((d.arrayWrite 0x12 n (64 * e.g) none allWords).setStack n k').showIntake n
  let d := { d with directPw := d.directPw.filter fun w => !e.direct.contains (w.strand, w.seq) }
  let d := match e.ack with
    | some a => d.send ⟨e.g, none, some a, .ack (.wb true)⟩
    | none => d
  if k'.waitQ.any fun x => x.g == e.g then { s with dev := d } else { s with dev := d }.intakeDone e.g

/-- INTAKE_ACCEPT (R265): the stack accepts the next line that waits, while it has room. -/
def execIntakeAccept (n : Nat) (s : State) : Host.Outcome State Fault Refusal :=
  if !stackOk n then .fault .noSuchUnit
  else if !s.dev.clocksOk then .fault .outsideClockRelations
  else
    let k := s.dev.stack n
    match nextIntake k.waitQ with
    | none => .next s
    | some e =>
      if s.dev.flag (psReg R.PS_STATUS_MOUNTED n) &&
          ((k.accepted.any fun x => x.g == e.g) || decide (k.accepted.length < 65536)) then
        .next ((s.acceptLine n e).afterClose e.g)
      else .next s

/-! ### Media, wear and the governor (R262, R283 to R286) -/

/-- The wear-map entries of stack n that differ from manufacture. -/
def Dev.wearListed (d : Dev) (n : Nat) : List (Nat × Granule) :=
  (d.wear.filter fun kv => kv.1 / 131072 == n).map fun kv => (kv.1 % 131072, kv.2)

/-- The physical granule that holds a logical user granule. -/
def Dev.physGranule (d : Dev) (n logical : Nat) : Nat :=
  match (d.wearListed n).find? fun kv => kv.2.use == 0 && !kv.2.retired && kv.2.logical == logical with
  | some kv => kv.1
  | none => logical

/-- Bytes written to a granule's media (R283, R285, R287). -/
def Dev.wearOut (d : Dev) (n k bytes : Nat) : Dev :=
  let x := d.granule n k
  let d := d.setGranule n k { x with wear := x.wear + bytes }
  let d := d.addWrap (psReg R.MEDIA_WRITTEN_BYTES n) bytes
  d.setStack n { d.stack n with bucket := (d.stack n).bucket + bytes }

/-- An accepted line is read out: what an injection flipped in one copy is corrected from the other (R363, R365). -/
def Dev.checkIntake (d : Dev) (n g : Nat) : Dev :=
  let fs := d.flipsAt 0x12 n (64 * g) allWords
  if fs.isEmpty then d
  else
    (d.unflip 0x12 n (64 * g) allWords).log
      { source := 2, inst := n, cls := 0, address := 64 * g, syndrome := syndromeOf fs, location := 0x12 }

/-- Writes an accepted line to media (R265): a partial line is merged with the stack's copy. -/
def Dev.mediaWrite (d : Dev) (n : Nat) (e : Intake) : Dev :=
  let d := d.checkIntake n e.g
  let bad := e.poison || (d.isPoisoned e.g && e.mask != fullMask)
  let d := { d with
    peat := writeBytes d.peat (64 * e.g) e.data e.mask
    poisoned := SMap.set (fun _ => false) d.poisoned e.g bad }
  d.wearOut n (d.physGranule n (granuleOf e.g)) 64

/-- INTAKE_MEDIA_WRITE (R265): stack n writes its oldest accepted line to media. -/
def execIntakeMediaWrite (n : Nat) (s : State) : Host.Outcome State Fault Refusal :=
  onData (stackOk n) s fun d =>
    match (d.stack n).accepted with
    | [] => d
    | e :: es => ((d.mediaWrite n e).setStack n { (d.mediaWrite n e).stack n with accepted := es }).showIntake n

/-- The number of spare granules of a stack as manufactured, and where they begin (R262). -/
def spareBase (n : Nat) : Nat := if n == 0 then 127232 else 123136

/-- The spare granules that remain. -/
def Dev.spareCount (d : Dev) (n : Nat) : Nat :=
  let l := d.wearListed n
  131072 - spareBase n + (l.filter fun kv => kv.2.use == 3 && !kv.2.retired).length
    - (l.filter fun kv => spareBase n ≤ kv.1).length

/-- The least-worn spare of a stack (R284). -/
def Dev.leastSpare (d : Dev) (n : Nat) : Option Nat :=
  let l := d.wearListed n
  match ((List.range (131072 - spareBase n)).map fun i => i + spareBase n).find? fun k =>
      !(l.any fun kv => kv.1 == k) with
  | some k => some k
  | none =>
    (l.filter fun kv => kv.2.use == 3 && !kv.2.retired).foldl (fun best kv =>
      match best with
      | none => some kv.1
      | some b => if kv.2.wear < (d.granule n b).wear then some kv.1 else some b) none

/-- A wear count: the bytes written over 512 KiB (R283). -/
def wearCount (x : Granule) : Nat := x.wear / 524288

/-- SPARES_LOW follows the spares that remain (R284). -/
def Dev.showSpares (d : Dev) (n : Nat) : Dev :=
  d.setFld (psReg R.PS_STATUS_SPARES_LOW n) (bnat (decide (d.spareCount n < 64)))

/-- WEAR_MOVE (R284): a granule in use that leads the least-worn spare by DELTA, or has reached its endurance, starts
to move to that spare; one move at a time. -/
def execWearMove (n granule : Nat) (s : State) : Host.Outcome State Fault Refusal :=
  onData (stackOk n && decide (granule < 131072)) s fun d =>
    let x := d.granule n granule
    match (d.stack n).move, d.leastSpare n with
    | none, some t =>
      let lead := Nat.max 1 (d.fld (psReg R.WL_CTL_DELTA n))
      if x.use != 3 && !x.retired &&
          (decide (wearCount (d.granule n t) + lead ≤ wearCount x) || decide (2 * 10 ^ 8 ≤ wearCount x)) then
        (d.setStack n { d.stack n with move := some (granule, t) }).setFld (psReg R.PS_STATUS_MOVE_BUSY n) 1
      else d
    | _, _ => d

/-- WEAR_MOVE_SWITCH (R284): the copy is complete and the map entry switches; the old granule becomes a spare, or
is retired at its endurance. -/
def execWearMoveSwitch (n : Nat) (s : State) : Host.Outcome State Fault Refusal :=
  onData (stackOk n) s fun d =>
    match (d.stack n).move with
    | none => d
    | some (a, b) =>
      let x := d.granule n a
      let worn := decide (2 * 10 ^ 8 ≤ wearCount x)
      let d := d.wearOut n b 524288
      let d := d.setGranule n b { d.granule n b with use := x.use, logical := x.logical }
      let d := d.setGranule n a { x with use := 3, logical := 0, retired := worn }
      let d := (d.setStack n { d.stack n with move := none }).setFld (psReg R.PS_STATUS_MOVE_BUSY n) 0
      d.showSpares n

/-- The write limit of a stack in 0.01 GB/s (R285). -/
def Dev.govLimit (d : Dev) (n : Nat) (sum : Nat) : Nat :=
  if d.flag (psReg R.GOV_CTL_EN n) then
    let cap := Nat.max 1 (d.fld (psReg R.GOV_CTL_CAP n)) * 10 ^ 12
    Nat.min 1600 ((cap - sum) / 60 / 10 ^ 7)
  else 1600

/-- GOVERNOR_MINUTE (R285): a bucket closes and the media write limit is set. -/
def execGovernorMinute (n : Nat) (s : State) : Host.Outcome State Fault Refusal :=
  onData (stackOk n) s fun d =>
    let k := d.stack n
    let all := (k.bucket :: k.buckets).take 1440
    let sum := (all.take 1439).foldl (· + ·) 0
    let d := d.setStack n { k with bucket := 0, buckets := all }
    let limit := d.govLimit n sum
    let d := d.setFld (psReg R.GOV_STATUS_WINDOW n) (all.foldl (· + ·) 0 / 10 ^ 9)
    (d.setFld (psReg R.GOV_STATUS_LIMIT n) limit).setFld (psReg R.GOV_STATUS_LIMITED n)
      (bnat (decide (limit < 1600)))

/-- The registers of stack n that follow its wear map (R286, R287): WEAR_SUMMARY, LIFE and WEAR_DATA. -/
def Dev.wearSummary (d : Dev) (n : Nat) : Word :=
  let used := (d.wearListed n).filter fun kv => kv.2.use != 3 && !kv.2.retired
  let mx := used.foldl (fun m kv => Nat.max m (wearCount kv.2)) 0
  let sum := used.foldl (fun m kv => m + wearCount kv.2) 0
  word (mx % 2 ^ 28 + sum / spareBase n % 2 ^ 28 * 2 ^ 28)

/-- LIFE (R286): tenths of a year at the trailing write rate; 0xFFFF without writes in the window. -/
def Dev.lifeWord (d : Dev) (n : Nat) : Word :=
  let l := d.wearListed n
  let retired := (l.filter fun kv => kv.2.retired).length
  let used := l.foldl (fun m kv => m + kv.2.wear) 0
  let left := (131072 - retired) * (2 * 10 ^ 8) * 524288 - used
  let window := (d.stack n).buckets.foldl (· + ·) 0
  let years := if window == 0 then 0xFFFF else Nat.min 0xFFFF (left * 10 / window / 365)
  word (years + Nat.min (d.spareCount n) 8191 * 2 ^ 16 + Nat.min retired 4095 * 2 ^ 29)

/-- WEAR_DATA of the granule that WEAR_SEL names. -/
def Dev.wearData (d : Dev) (n : Nat) : Word :=
  let x := d.granule n (d.fld (psReg R.WEAR_SEL_GRANULE n))
  word (wearCount x % 2 ^ 28 + x.use * 2 ^ 28 + bnat x.retired * 2 ^ 30 + x.logical * 2 ^ 31)

/-! ### Epochs and failed writes (R271, R282) -/

/-- EPOCH_CLOSED (R271): the frame before this one is closed once every closing entry is released and every direct
write of it is accepted. In the cushion it stops advancing (R295). -/
def execEpochClosed (s : State) : Host.Outcome State Fault Refusal :=
  onData true s fun d =>
    let f := d.frame.toNat
    if f == 0 || d.phase != .running then d
    else if ((List.range 288).all fun c => (d.tracker c).closing.isEmpty) &&
        !(d.directPw.any fun w => w.frame.toNat < f) then
      d.setReg R.EPOCH_CLOSED_EPOCH.reg (word (f - 1))
    else d

/-- Marks a PSYNC in flight as failed. -/
def failOps (ops : List LongOp) : List LongOp :=
  ops.map fun o => match o.kind with
    | .psync n _ => { o with kind := .psync n true }
    | _ => o

/-- A strand learns that an earlier persistent write of it failed (R282): its PSYNC in flight, or the next. -/
def State.failStrand (s : State) (g : Nat) : State :=
  let x := s.strand g
  if x.longOps.any fun o => match o.kind with
      | .psync _ _ => true
      | _ => false then s.setStrand g { x with longOps := failOps x.longOps }
  else { s with dev := { s.dev with failedPw := g :: s.dev.failedPw.filter fun y => y != g } }

/-- The strands of the socket. -/
def allStrands : List Nat := List.range 512

/-- The strands whose bit a tracker entry of a line carries, or whose direct write it is. -/
def Dev.waitersOn (d : Dev) (g : Nat) : List Nat :=
  allStrands.filter fun i =>
    let t := d.tracker (d.phys (i / 2))
    ((t.openB ++ t.closing).any fun e => e.g == g && (if i % 2 == 0 then e.s0 else e.s1) && e.owed != 0)
      || d.directPw.any fun w => w.strand == i && w.line == g

/-- A tracker without the entries of a line whose write failed. -/
def Tracker.failLine (t : Tracker) (g : Nat) : Tracker :=
  { t with
    openB := t.openB.filter fun e => !(e.g == g && e.owed != 0)
    closing := t.closing.filter fun e => e.g != g }

/-- Settles the persistent write of a line as failed (R282): entries are released, what was sent leaves the store
buffers, a record is written, and the PSYNCs that wait are told. -/
def State.failLine (s : State) (g : Nat) : State :=
  let ws := s.dev.waitersOn g
  let d := s.dev
  let d := { d with
    trackers := SMap.filterMap (fun _ => {}) (fun _ t => some (t.failLine g)) d.trackers
    directPw := d.directPw.filter fun w => w.line != g }
  let d := d.log { source := 2, inst := stackOf g, cls := 2, address := 64 * g }
  let s := ws.foldl (fun s i => s.failStrand i) { s with dev := d }
  allStrands.foldl (fun s i =>
    let x := s.strand i
    if x.sb.any fun e => e.sent && e.pa / 64 == g then
      s.setStrand i { x with sb := x.sb.filter fun e => !(e.sent && e.pa / 64 == g) }
    else s) s

/-- A line of the drain report's list is not durable, for a reason (R296). -/
def Dev.drainFail (d : Dev) (g reason : Nat) : Dev :=
  match d.drain with
  | none => d
  | some r =>
    let ls := r.report.lines.map fun x => if x.g == g && x.reason == 0 then { x with reason := reason } else x
    { d with drain := some { r with report := { r.report with lines := ls } } }

/-- PERSIST_WRITE_FAILED (R282): the write of line g toward stack n waits unaccepted, or the line's home has left the
coherent system. In the drain the line is listed as one that its stack cannot program (R296). -/
def execPersistWriteFailed (n g : Nat) (s : State) : Host.Outcome State Fault Refusal :=
  if !(stackOk n && lineOk g) then .fault .noSuchUnit
  else if !s.dev.clocksOk then .fault .outsideClockRelations
  else
    let k := s.dev.stack n
    if s.dev.drain.isSome then
      .next { s with dev := s.dev.drainFail g (if s.dev.homedHere g then 2 else 1) }
    else if s.dev.homedHere g && stackOf g == n && k.waitQ.any fun e => e.g == g then
      let s := { s with dev := s.dev.setStack n { k with waitQ := dropFirst g k.waitQ } }
      .next ((s.failLine g).intakeDone g)
    else if isPeat g && (s.dev.homeOf g).isNone then .next (s.failLine g)
    else .next s

end Sys2Proof.Machine
end

