-- ==== Sys2Proof/Machine/Errors.lean ====
section
/-!
DEFINITION. Errors and retirement (R336 to R362): the ring's tail, the steward's part, bucket decay, routes around
retired mesh links, core transplant, and the delivery of strand lost.
-/

namespace Sys2Proof.Machine

open Sys2Proof

/-! ### The ring and the events (R346, R350, R361) -/

/-- A write of `ERR_TAIL` (R361): records are marked read, unless the new index would pass the head. -/
def Dev.errTailWrite (d : Dev) (v : Word) : Dev :=
  let n := getF v 0 10
  let full := d.flag R.ERR_HEAD_FULL
  let x := (n + 1024 - d.fld R.ERR_TAIL_INDEX) % 1024
  let dist := if x == 0 && full then 1024 else x
  if dist ≤ d.unread && dist != 0 then
    (d.setFld R.ERR_TAIL_INDEX n).setFld R.ERR_HEAD_FULL 0
  else d

/-- ERR_TAIL_WRITE (R361): a write of `ERR_TAIL`. -/
def execErrTailWrite (req : Requester) (v : Word) (s : State) : Host.Outcome State Fault Refusal :=
  onDev (reqOk req) s fun d => d.errTailWrite v

/-- The event bits that the steward was told of first are set (R350). -/
def Dev.releaseEvents (d : Dev) : Dev :=
  if d.evHeld == 0 then d else { d with evHeld := 0 }.errEventNow d.evHeld

/-- ERR_EVENT_TIMEOUT (R350): 1 ms after the record the bits are set though the steward has not acknowledged. -/
def execErrEventTimeout (s : State) : Host.Outcome State Fault Refusal := onDev true s Dev.releaseEvents

/-- STEWARD_ACKNOWLEDGE (R350): the steward acknowledges the records reported to it. -/
def execStewardAcknowledge (s : State) : Host.Outcome State Fault Refusal := onDev true s Dev.releaseEvents

/-- BUCKET_DECAY (R337): at a tick whose frame number is a multiple of 65,536 every bucket decays by 1. -/
def execBucketDecay (s : State) : Host.Outcome State Fault Refusal :=
  onDev true s fun d =>
    if d.frame.toNat % 65536 == 0 then
      { d with
        units := SMap.filterMap (fun _ => {}) (fun _ u => some { u with bucket := u.bucket - 1 }) d.units }
    else d

/-! ### Mesh routes (R19, R344) -/

/-- Whether the row segment between two columns of row y uses no retired link: link 11y + x joins (x, y) and
(x + 1, y). -/
def Dev.rowClear (d : Dev) (y x1 x2 : Nat) : Bool :=
  (List.range 11).all fun x =>
    !(Nat.min x1 x2 ≤ x && x < Nat.max x1 x2) || !SMap.get (fun _ => false) d.routes (11 * y + x)

/-- Whether the column segment between two rows of column x uses no retired link: link 132 + 11x + y joins (x, y) and
(x, y + 1). -/
def Dev.colClear (d : Dev) (x y1 y2 : Nat) : Bool :=
  (List.range 11).all fun y =>
    !(Nat.min y1 y2 ≤ y && y < Nat.max y1 y2) || !SMap.get (fun _ => false) d.routes (132 + 11 * x + y)

/-- Whether one of the routes of R344 joins two tiles. -/
def Dev.joined (d : Dev) (s t : Nat) : Bool :=
  let x1 := s % 12
  let y1 := s / 12
  let x2 := t % 12
  let y2 := t / 12
  (d.rowClear y1 x1 x2 && d.colClear x2 y1 y2) || (d.colClear x1 y1 y2 && d.rowClear y2 x1 x2)
    || (List.range 12).any fun c => d.rowClear y1 x1 c && d.colClear c y1 y2 && d.rowClear y2 c x2

/-- A mesh stop is lost (R344, R352): the lines of its hash indices are poisoned, its cores become candidates. -/
def Dev.loseStop (d : Dev) (t : Nat) : Dev :=
  let hit (g : Nat) : Bool := d.sliceTile g == t && d.homedHere g
  let d := { d with
    lostStops := t :: d.lostStops
    l2 := SMap.filterMap (fun _ => CLine.none)
      (fun k v => some (if hit (k / 512) then { v with poison := true } else v)) d.l2
    llc := SMap.filterMap (fun _ => none)
      (fun g v => some (if hit g then v.map (fun l : LLine => { l with poison := true }) else v)) d.llc
    ghosts := SMap.filterMap (fun _ => none)
      (fun k v => some (if hit (k / 512) then v.map (fun l : Ghost => { l with poison := true }) else v)) d.ghosts }
  let d := d.log { source := 9, inst := t, cls := 3 }
  (d.candidate 4 (2 * t) 1 0).candidate 4 (2 * t + 1) 1 0

/-- ROUTE_RECOMPUTE (R344): a retired mesh link leaves the routes; a stop that they no longer join to the security
engine's counts as lost. -/
def execRouteRecompute (l : Nat) (s : State) : Host.Outcome State Fault Refusal :=
  onDev (decide (l < 264)) s fun d =>
    if SMap.get (fun _ => false) d.routes l then d
    else
      let u := d.unitAt 3 l
      let d := { d with routes := SMap.set (fun _ => false) d.routes l true }.addRepair (retiredUnit d 3 l 0) 9
      let d := (d.setUnit 3 l { u with retired := true, candidate := false }).log
        { source := 9, inst := l, cls := 4, action := 3, bucket := u.bucket, location := 0 }
      (List.range 144).foldl (fun d t =>
        if d.lostStops.contains t || d.joined 5 t then d else d.loseStop t) d

/-! ### Strand lost (R351) -/

/-- Whether strand g may receive a strand lost. -/
def State.mayReceive (s : State) (g lostG : Nat) : Bool :=
  g != lostG && s.dev.coreThere (g / 2) && !(s.strand g).parked
    && s.dev.coreState (s.dev.phys (g / 2)) != 5

/-- The strand that a strand lost is delivered to (R351); a designated strand of another socket takes it there. -/
def State.lostTarget (s : State) (lostG : Nat) : Option Nat :=
  let w := s.dev.fld R.ERR_CTL_DESIGNATED
  if w / 512 != s.dev.self then none
  else if s.mayReceive (w % 512) lostG then some (w % 512)
  else (List.range 512).find? fun g => s.mayReceive g lostG

/-- Strand lostG is lost: its record, and the delivery (R351, R356, R357). -/
def State.strandLost (s : State) (lostG action : Nat) : State :=
  let r := s.dev.record
    { source := 3, inst := s.dev.phys (lostG / 2), cls := 2, action := action, requester := s.dev.globalId lostG }
  let s := { s with dev := r.1 }
  match s.lostTarget lostG with
  | none => s
  | some g => s.setStrand g { s.strand g with lost := (s.strand g).lost ++ [r.2] }

/-! ### Halting (R294, R353) -/

/-- Whether strand g stands where a drain or a transplant may halt it (R71, R158, R294). -/
def State.mayHalt (s : State) (g : Nat) : Bool :=
  let x := s.strand g
  x.parked || x.waiting.isSome ||
    (x.slot.isNone && (x.shadow.isNone || x.shadowDue) && x.longOps.isEmpty && x.portLoad.isNone
      && !(s.dev.pm (g / 2)).draining)

/-- Strand g halts: a shadow that is due closes, a TSYNC or WAIT will execute again (R294). -/
def State.halt (s : State) (g : Nat) : State :=
  let s := s.closeShadow g
  s.setStrand g { s.strand g with tsync := false, waiting := none, halted := true }

/-- Marks the vCPU of a strand's last sealed exit as held in a drain image, or no longer (R398, R399). -/
def Dev.setInImage (d : Dev) (x : Strand) (b : Bool) : Dev :=
  match x.lastExit with
  | none => d
  | some (dom, i, _) =>
    match d.domain dom with
    | none => d
    | some m => d.setDomain dom (some (m.setVcpu i fun v => { v with inImage := b }))

/-- The image of strand g after its halt (R294, R304): a sealed strand leaves its domain first, without fetching the
vector. -/
def State.saveImage (s : State) (g : Nat) (withdrawn : Bool) : State × Image :=
  let x := s.strand g
  let sx := x.sealedB
  let wasWaiting := x.waiting.isSome
  let s := s.halt g
  let s := if sx then
      s.enter g 2 .interrupt (s.strand g).pc (word (2 ^ 63)) false none none .none none
    else s
  let y := s.strand g
  let s := { s with dev := if sx then s.dev.setInImage y true else s.dev }
  (s, ⟨{ y with halted := false, sb := [], longOps := [] }, s.dev.pm (g / 2), sx, y.parked, wasWaiting, s.dev.phys (g / 2), s.dev.frame,
    false, false, withdrawn⟩)

/-- Strand g takes its Cold values, parked (R50); what it has stored still leaves its store buffer. -/
def State.resetStrand (s : State) (g : Nat) : State :=
  let x := s.strand g
  s.setStrand g { Strand.reset with sb := x.sb, seq := x.seq }

/-! ### Core transplant (R353 to R358) -/

/-- The frond of physical core c. -/
def frondOf (c : Nat) : Nat :=
  let t := c / 2
  bnat (decide (6 ≤ t % 12)) + 2 * bnat (decide (6 ≤ t / 12))

/-- The length of the mesh path between the tiles of two cores (R20): its hops, and 4 for each frond boundary. -/
def coreDist (a b : Nat) : Nat :=
  let dist (x y : Nat) : Nat := (x - y) + (y - x) + if decide (6 ≤ x) == decide (6 ≤ y) then 0 else 4
  dist (a / 2 % 12) (b / 2 % 12) + dist (a / 2 / 12) (b / 2 / 12)

/-- The spare that the device prefers for core c among those in a state (R353): the same frond, then the shortest
path. -/
def Dev.pickSpare (d : Dev) (c st : Nat) : Option Nat :=
  let cost (x : Nat) : Nat := (if frondOf x == frondOf c then 0 else 100) + coreDist c x
  (List.range 288).foldl (fun best x =>
    if d.coreState x != st then best
    else
      match best with
      | none => some x
      | some b => if cost x < cost b then some x else best) none

/-- Registers of a core's monitor, tracker and cache control that a transplant copies (R159, R205, R289, R353). -/
def Dev.copyCoreRegs (d : Dev) (a b : Nat) : Dev :=
  let copy (d : Dev) (f : Field) (stride off : Nat) : Dev :=
    d.setReg ((tileAt f b stride).reg + off) (d.reg ((tileAt f a stride).reg + off))
  let d := (List.range 18).foldl (fun d i => copy d R.PMC_CTL_EVENT 0x800 (8 * i)) d
  let d := copy d R.PHELD_COUNT 0x800 0
  let ctl := d.reg (tileAt R.CORE_CACHE_CTL_L1I_EN a 0x100).reg
  d.setReg (tileAt R.CORE_CACHE_CTL_L1I_EN b 0x100).reg (word (getF ctl 0 5))

/-- The source sends a WbM with flag K for each entry of its open bank (R353 step 2). -/
def Dev.sendOpen (d : Dev) (c : Nat) : Dev :=
  (d.tracker c).openB.foldl (fun d e => if e.dirty then d.writeBack c e.g else d) d

/-- The source's arrays begin to be disabled (R203, R354). -/
def Dev.disableSource (d : Dev) (c : Nat) : Dev :=
  ((d.coreEnable c 0 false).coreEnable c 1 false).coreEnable c 2 false

/-- The strands of logical core l whose state could not be read are lost (R356). -/
def State.loseUnreadable (s : State) (l bits : Nat) : State :=
  (List.range 2).foldl (fun s j =>
    if natBit bits j then
      let g := 2 * l + j
      (s.resetStrand g).strandLost g 6
    else s) s

/-- The other strands resume, with an empty return-address stack (R353 step 5). -/
def State.resumeCore (s : State) (l : Nat) : State :=
  (List.range 2).foldl (fun s j =>
    let g := 2 * l + j
    s.setStrand g { s.strand g with halted := false, ras := [] }) s

/-- The number of spares after one is taken or given back. -/
def Dev.addSpares (d : Dev) (up down : Nat) : Dev :=
  d.setFld R.CORE_COUNT_SPARE (d.fld R.CORE_COUNT_SPARE + up - down)

/-- Core c's strands move to core t (R353 to R356). -/
def State.transplant (s : State) (c t bits : Nat) : State :=
  let d := s.dev
  let l := d.fld (R.CORE_STATE_LOGICAL.at (8 * c))
  let warm := d.coreState t == 3
  let d := (d.setCoreState c 5).sendOpen c
  let d := if warm then d else (d.emptyCore t)
  let d := ((d.copyCoreRegs c t).disableSource c).flushBtb t
  let d := d.setFld (R.CORE_MAP_PHYS.at (8 * l)) t
  let d := (d.setCoreState t 1).setFld (R.CORE_STATE_LOGICAL.at (8 * t)) l
  let d := d.addSpares 0 1
  let d := d.setFld (corePwr t) (bnat (d.fld (corePwr c) == 1))
  let d := { d with
    xplant := d.xplant ++ [Xplant.mk c t]
    unreadable := 0 }
  let d := d.setFld R.XPLANT_STATUS_CANDIDATE 0
  let d := d.setFld R.XPLANT_STATUS_RESULT (if bits % 4 == 0 then 0 else 2)
  ({ s with dev := d }.loseUnreadable l bits).resumeCore l

/-- Logical core l is withdrawn (R357): its strands' images are held, and strand lost is delivered with ACTION no
spare. -/
def State.withdraw (s : State) (c : Nat) : State :=
  let l := s.dev.fld (R.CORE_STATE_LOGICAL.at (8 * c))
  let s := (List.range 2).foldl (fun s j =>
    let g := 2 * l + j
    let r := s.saveImage g true
    { r.1 with dev := r.1.dev.setImage g (some r.2) }.resetStrand g) s
  let d := s.dev
  let d := (d.setFld (R.CORE_MAP_PRESENT.at (8 * l)) 0).setCoreState c 5
  let d := (d.setFld R.XPLANT_STATUS_RESULT 3).setFld R.XPLANT_STATUS_CANDIDATE 0
  let d := { (d.sendOpen c).disableSource c with
    xplant := d.xplant ++ [Xplant.mk c 511]
    unreadable := 0 }
  (List.range 2).foldl (fun s j => s.strandLost (2 * l + j) 7) { s with dev := d }

/-- Core c finds its target (R353, R357): a warm spare; while only cold ones are left its strands stay halted; with
none left the logical core is withdrawn. -/
def State.transplantAny (s : State) (c bits : Nat) : State :=
  match s.dev.pickSpare c 3, s.dev.pickSpare c 2 with
  | some t, _ => s.transplant c t bits
  | none, some _ => { s with dev := { s.dev.setCoreState c 5 with unreadable := bits } }
  | none, none => s.withdraw c

/-- Halts the strands of logical core l. -/
def State.haltCore (s : State) (l : Nat) : State := (s.halt (2 * l)).halt (2 * l + 1)

/-- Whether physical core c serves a logical core: in service, or waiting in TRANSIT for a spare. -/
def Dev.servesCore (d : Dev) (c : Nat) : Bool :=
  let l := d.fld (R.CORE_STATE_LOGICAL.at (8 * c))
  (d.coreState c == 1 || (d.coreState c == 5 && !d.xplant.any fun x => x.source == c))
    && d.coreThere l && d.phys l == c

/-- CORE_TRANSPLANT (R353): core c is a candidate; its strands halt at their boundaries and move, or wait for software
under CORESPARE. -/
def execCoreTransplant (c : Nat) (unreadable : BitVec 2) (s : State) : Host.Outcome State Fault Refusal :=
  if !coreOk c then .fault .noSuchUnit
  else if !s.dev.clocksOk then .fault .outsideClockRelations
  else
    let l := s.dev.fld (R.CORE_STATE_LOGICAL.at (8 * c))
    if !s.dev.servesCore c || !s.mayHalt (2 * l) || !s.mayHalt (2 * l + 1) then .next s
    else
      let s := { s with dev := (s.dev.candidate 4 c 1 0).setFld R.XPLANT_STATUS_SOURCE c }.haltCore l
      if s.dev.duty 5 then
        let d := s.dev.setFld R.XPLANT_STATUS_CANDIDATE 1
        .next { s with dev := { d with unreadable := unreadable.toNat }.dutyEvent }
      else .next (s.transplantAny c unreadable.toNat)

/-- A write of `XPLANT_CTL` (R362): GO transplants the candidate to TARGET, or to the device's choice under ANY. -/
def State.xplantWrite (s : State) (v : Word) : State :=
  let d := s.dev.writeReg R.XPLANT_CTL_TARGET.reg v
  let s := { s with dev := d }
  if bitOf v 10 && d.duty 5 && d.flag R.XPLANT_STATUS_CANDIDATE then
    let c := d.fld R.XPLANT_STATUS_SOURCE
    if d.flag R.XPLANT_CTL_ANY then s.transplantAny c d.unreadable
    else
      let t := d.fld R.XPLANT_CTL_TARGET
      if t < 288 && (d.coreState t == 3 || d.coreState t == 2) then s.transplant c t d.unreadable
      else { s with dev := d.setFld R.XPLANT_STATUS_RESULT 1 }
  else s

/-- XPLANT_GO (R362): a write of `XPLANT_CTL`. -/
def execXplantGo (req : Requester) (v : Word) (s : State) : Host.Outcome State Fault Refusal :=
  if reqOk req then .next (s.xplantWrite v) else .fault .noSuchUnit

/-- Whether a source core's L2 is clean and its tracker empty (R354, R355). -/
def Dev.sourceClean (d : Dev) (c : Nat) : Bool :=
  !d.flag (coreCtl c 13) && (d.linesOf c).isEmpty && d.coreQuiet c && (d.tracker c).openB.isEmpty
    && (d.tracker c).closing.isEmpty

/-- SOURCE_CORE_TEST (R339, R355): once its L2 is clean the source is retired, at its third candidacy whatever the test
finds, or becomes a warm spare. -/
def execSourceCoreTest (c : Nat) (faulty : Bool) (s : State) : Host.Outcome State Fault Refusal :=
  onDev (coreOk c) s fun d =>
    if !(d.xplant.any fun x => x.source == c) || !d.sourceClean c then d
    else
      let u := d.unitAt 4 c
      let d := { d with xplant := d.xplant.filter fun x => x.source != c }
      if faulty || d.thirdCandidacy 4 c then
        let d := (d.setCoreState c 4).setFld (corePwr c) 0
        let d := d.setFld R.CORE_COUNT_GOOD (d.fld R.CORE_COUNT_GOOD - 1)
        let d := (d.setUnit 4 c { u with retired := true, candidate := false }).addRepair (retiredUnit d 4 c 0) 3
        d.log { source := 3, inst := c, cls := 4, action := 3, bucket := u.bucket }
      else
        let d := (((d.emptyCore c).setCoreState c 3).setFld (corePwr c) 2).addSpares 1 0
        (d.setUnit 4 c { u with bucket := 0, candidate := false }).log
          { source := 3, inst := c, cls := 1, action := 2 }

end Sys2Proof.Machine
end

