-- ==== Sys2Proof/Machine/Cushion.lean ====
section
/-!
DEFINITION. Power failure and the drain (R290 to R312, R360): entering the cushion, halting and saving the strands,
the phases, the report, and the images afterwards.
-/

namespace Sys2Proof.Machine

open Sys2Proof

/-! ### Chain messages of this socket (R448 to R453) -/

/-- Sends a chain message, by its TYPE and its payload (R448): it is kept until it returns, or under MSG_DOWN sent
once (R453). -/
def Dev.chainSend (d : Dev) (typ : Nat) (payload : List Byte) : Dev :=
  let c := d.chain
  { d with
    chain := { c with
      sent := if d.flag R.CHAIN_STATUS_MSG_DOWN then c.sent else c.sent ++ [(typ, payload)]
      seqn := c.seqn + 1 } }

/-- Sends the POWER_FAIL run, which is no framed message (R450). -/
def Dev.sendPowerFail (d : Dev) : Dev := { d with chain := { d.chain with failRun := true } }

/-! ### An update that ends without activation (R517, R518) -/

/-- `UPD_STATUS.PHASE` changes; the BMC is told (R507). -/
def Dev.updPhase (d : Dev) (p : Nat) : Dev :=
  if d.fld R.UPD_STATUS_PHASE == p then d else (d.setFld R.UPD_STATUS_PHASE p).bmcEvent 1 p

/-- Whether an update is under way and may still be aborted: before A - 16 (R517). -/
def Dev.mayAbort (d : Dev) : Bool :=
  2 ≤ d.fld R.UPD_STATUS_PHASE && d.fld R.UPD_STATUS_PHASE ≤ 5 &&
    (match d.fw.armA with
    | none => true
    | some a => d.frame.toNat + 16 < a.toNat)

/-- The update is aborted for a reason (R518): the staged copy stays. -/
def Dev.abortUpdate (d : Dev) (reason : Nat) : Dev :=
  if d.mayAbort then
    let d := { d with
      fw := { d.fw with
        aborted := true
        confirmed := false
        armA := none
        reasons := SMap.set (fun _ => 0) d.fw.reasons d.self reason } }
    (d.updPhase 8).setFld R.UPD_STATUS_REASON reason
  else d

/-! ### Entering the cushion (R290, R295) -/

/-- The line list as entry finds it (R303): what the trackers, the store buffers and the ways to the intakes hold. -/
def State.dirtyPeat (s : State) : List LineItem :=
  let d := s.dev
  let cores := (d.trackers.map fun kv => kv.2)
  let opens := cores.flatMap fun t => t.openB.map fun e => e.g
  let closing := cores.flatMap fun t => t.closing.map fun e => e.g
  let sbs := (s.strands.flatMap fun kv => kv.2.sb.map fun e => e.pa / 64).filter isPeat
  let ways := (List.range 8).flatMap fun n => (d.stack n).waitQ.map fun e => e.g
  let now := opens ++ sbs
  ((now ++ closing ++ ways).eraseDups).map fun g =>
    ⟨g, false, closing.contains g && !now.contains g, !d.homedHere g, false, 0⟩

/-- The line list with the lines that have become dirty since. -/
def addLines (old new : List LineItem) : List LineItem :=
  old ++ new.filter fun x => !old.any fun y => y.g == x.g

/-- The Ledger descriptors in flight (R298, R303). -/
def Dev.ledgerInFlight (d : Dev) : List LedgerItem :=
  d.queues.flatMap fun kv => kv.2.inflight.map fun e =>
    ⟨kv.1, false, ((e.raw[0]?).getD 0).toNat % 16, e.sq, e.bytes, 0⟩

/-- Wakes the deep-parked cores (R496). -/
def Dev.wakeDeep (d : Dev) : Dev :=
  (List.range 288).foldl (fun d c =>
    if d.fld (corePwr c) == 3 then
      (d.setFld (corePwr c) 2).addSat (R.CORE_PWR_WAKES.at (8 * c)) 1
    else d) d

/-- Phase p of the drain is complete (R293). -/
def Dev.phaseDone (d : Dev) (p : Nat) : Dev :=
  match d.drain with
  | none => d
  | some r =>
    if natBit r.report.phases p then d
    else
      let rep := { r.report with
        phases := r.report.phases + 2 ^ p
        phaseEnd := SMap.set (fun _ => 0) r.report.phaseEnd p d.frame }
      { d with drain := some { r with report := rep } }

/-- DRAIN_STEP.DUE shows the phases due and not started (R360). -/
def Dev.showDue (d : Dev) : Dev :=
  match d.drain with
  | none => d.setFld R.DRAIN_STEP_DUE 0
  | some r => d.setFld R.DRAIN_STEP_DUE (r.due &&& (7 - r.started % 8))

/-- A phase bit (0 for P2, 1 for P3, 2 for P4) falls due: hardware starts it; under DRAIN the steward is told (R360). -/
def Dev.drainDue (d : Dev) (bit : Nat) : Dev :=
  match d.drain with
  | none => d
  | some r =>
    if natBit r.due bit then d
    else
      let r := { r with due := r.due + 2 ^ bit, started := if d.duty 9 then r.started else r.started + 2 ^ bit }
      let d := { d with drain := some r }.showDue
      if d.duty 9 then d.dutyEvent else d

/-- A wear move in progress is abandoned (R295). -/
def Dev.abandonMoves (d : Dev) : Dev :=
  (List.range 8).foldl (fun d n =>
    (d.setStack n { d.stack n with move := none }).setFld (psReg R.PS_STATUS_MOVE_BUSY n) 0) d

/-- Quiesces of the Ledger Engine's functions end at entry (R441). -/
def Dev.endQuiesces (d : Dev) : Dev :=
  let fs := (d.funcs.filter fun kv => kv.2.quiescing).map fun kv => kv.1
  fs.foldl (fun d f => (d.setFunc f { d.func f with quiescing := false }).setFld (R.FN_STATUS_QUIESCING.at (8 * f)) 0) d

/-- The socket enters the cushion (R290, R293): the report's header starts, P0 is done, P4 is due. `cause` is the CAUSE
word of the report. -/
def State.enterCushion (s : State) (cause : Nat) : State :=
  let d := s.dev
  if d.phase != .running then s
  else
    let arm := d.fld R.CUSHION_CTL_RETAIN_ARM
    let rep : Report := {
      seqn := d.drainSeq + 1
      sock := d.self
      present := d.fld R.CHAIN_STATUS_PRESENT
      cause := cause
      startFrame := d.frame
      lastClosed := d.reg R.EPOCH_CLOSED_EPOCH.reg
      phases := 64 * arm
      errFirst := d.fld R.ERR_HEAD_INDEX
      ledger := d.ledgerInFlight
      lines := s.dirtyPeat }
    let d := { d with
      phase := .drain
      drainSeq := d.drainSeq + 1
      drain := some { report := rep, errTotal := d.fld R.ERR_HEAD_TOTAL } }
    let d := d.addSat R.CUSHION_STATUS_DRAINS 1
    -- commands that the SE has queued are dropped (R300, R401)
    let d := (d.setFld R.MB_STATUS_QUEUED 0).setFld R.EVAC_STATUS_BUSY 0
    let d := (((d.abortUpdate 7).endQuiesces.wakeDeep.abandonMoves).phaseDone 0).drainDue 2
    { s with dev := if cause % 4 / 2 == 1 then d else d.sendPowerFail }

/-- PWRFAIL (R290): `PWRFAIL_N` stays low for 100 ns. -/
def execPwrfail (s : State) : Host.Outcome State Fault Refusal :=
  .next ({ s with dev := s.dev.setFld R.CUSHION_STATUS_PWRFAIL 1 }.enterCushion 1)

/-- POWER_FAIL (R450): the run relayed by the chain. -/
def execPowerFail (s : State) : Host.Outcome State Fault Refusal := .next (s.enterCushion 2)

/-- BROWNOUT (R290): rail r stays below its threshold for 500 ns. -/
def execBrownout (r : Nat) (s : State) : Host.Outcome State Fault Refusal :=
  if r < 10 then
    let d := (s.dev.setFld (R.RAIL_BROWNOUT.at (8 * r)) 1).setFld R.CUSHION_STATUS_BROWNOUT 1
    let s := { s with dev := d }
    .next (if d.flag R.CUSHION_CTL_BROWNOUT_EN then s.enterCushion (4 + 2 ^ (4 + r)) else s)
  else .fault .noSuchUnit

/-- A write of `DRAIN_TEST` (R312): GO with the key drains every socket. -/
def State.drainTestWrite (s : State) (v : Word) : State :=
  if getF v 0 8 == 0x5A && bitOf v 8 then s.enterCushion 8 else s

/-- DRAIN_TEST (R312): a write of `DRAIN_TEST`. -/
def execDrainTest (req : Requester) (v : Word) (s : State) : Host.Outcome State Fault Refusal :=
  if reqOk req then .next (s.drainTestWrite v) else .fault .noSuchUnit

/-- PWRGOOD_FALL (R535): while the socket runs it is a power failure; outside a drain the device is then off. It frees
`THERMTRIP_N` (R537), and `FAULT_N` of a start that found a rail wrong (R493). -/
def execPwrgoodFall (s : State) : Host.Outcome State Fault Refusal :=
  let s := { s with dev := { s.dev with thermtrip := false } }
  match s.dev.phase with
  | .running => .next (s.enterCushion 1)
  | .drain => .next s
  | _ => .next { s with dev := { s.dev with phase := .off, faultN := false } }

/-! ### Halting and saving (P1, R294) -/

/-- Whether both strands of a logical core are halted. -/
def State.coreHalted (s : State) (l : Nat) : Bool :=
  (s.strand (2 * l)).halted && (s.strand (2 * l + 1)).halted

/-- Whether every strand of every served core is halted. -/
def State.allHalted (s : State) : Bool :=
  (List.range 256).all fun l => !s.dev.coreThere l || s.coreHalted l

/-- Whether the image of strand g, whose core is served, is kept from an earlier drain (R311). -/
def Dev.imageKept (d : Dev) (g : Nat) : Bool :=
  match d.image g with
  | none => false
  | some i => d.flag R.RESUME_INFO_IMAGES_HELD && !i.restored

/-- P2 of a core whose strands have halted (R296): every dirty Peat line is written back. -/
def State.peatWork (s : State) : State :=
  match s.dev.drain with
  | none => s
  | some r =>
    if natBit r.started 0 then
      { s with
        dev := (List.range 256).foldl (fun d l =>
          if s.dev.coreThere l && s.coreHalted l then d.closeBank (d.phys l) else d) s.dev }
    else s

/-- STRAND_HALT (R294): at its boundary strand g halts and its image is saved, unless an earlier one is held. -/
def execStrandHalt (g : Nat) (s : State) : Host.Outcome State Fault Refusal :=
  if !strandOk g then .fault .noSuchUnit
  else
    match s.dev.drain with
    | none => .next s
    | some _ =>
      if !s.dev.coreThere (g / 2) || (s.strand g).halted || !s.mayHalt g then .next s
      else
        let kept := s.dev.imageKept g
        let r := s.saveImage g false
        let s := r.1.setStrand g { r.1.strand g with halted := true }
        let d := s.dev
        let img := if kept then (d.image g).map fun i => { i with carried := true } else some r.2
        let d := d.setImage g img
        let s := { s with dev := d }
        let d := match d.drain with
          | none => d
          | some q =>
            { d with drain := some { q with report := { q.report with lines := addLines q.report.lines s.dirtyPeat } } }
        let d := if s.coreHalted (g / 2) then (d.drainDue 0).drainDue 1 else d
        let s := { s with dev := d }
        let s := if s.allHalted then { s with dev := s.dev.phaseDone 1 } else s
        .next s.peatWork

/-! ### The steps that software may start (R360) -/

/-- Phase bit b starts, when it is due. -/
def State.startPhase (s : State) (b : Nat) : State :=
  match s.dev.drain with
  | none => s
  | some r =>
    if natBit r.due b && !natBit r.started b then
      let d := { s.dev with drain := some { r with started := r.started + 2 ^ b } }.showDue
      { s with dev := d }.peatWork
    else s

/-- P2_GO (R360): the steward writes `DRAIN_STEP.GO` bit 0. -/
def execP2Go (s : State) : Host.Outcome State Fault Refusal := .next (s.startPhase 0)

/-- P3_GO (R360): the steward writes `DRAIN_STEP.GO` bit 1. -/
def execP3Go (s : State) : Host.Outcome State Fault Refusal := .next (s.startPhase 1)

/-- P4_GO (R360): the steward writes `DRAIN_STEP.GO` bit 2. -/
def execP4Go (s : State) : Host.Outcome State Fault Refusal := .next (s.startPhase 2)

/-- DRAIN_STEP_TIMEOUT (R360): the sequencer starts a phase left unstarted for 50 µs. -/
def execDrainStepTimeout (phase : Nat) (s : State) : Host.Outcome State Fault Refusal :=
  if 2 ≤ phase && phase ≤ 4 then .next (s.startPhase (phase - 2)) else .fault .noSuchUnit

/-! ### P2 and P3 (R296, R297) -/

/-- Whether a Peat line's last write is still short of its intake. -/
def State.peatPending (s : State) (g : Nat) : Bool :=
  let d := s.dev
  (d.trackers.any fun kv => (kv.2.openB ++ kv.2.closing).any fun e => e.g == g)
    || (s.strands.any fun kv => kv.2.sb.any fun e => e.pa / 64 == g)
    || (d.stack (stackOf g)).waitQ.any fun e => e.g == g

/-- Whether P2 is complete (R296): every line is settled and every intake empty. -/
def State.peatSettled (s : State) (deadline : Bool) : Bool :=
  s.allHalted
    && ((List.range 8).all fun n => (s.dev.stack n).accepted.isEmpty && ((s.dev.stack n).waitQ.isEmpty || deadline))
    && (deadline ||
      ((s.dev.trackers.all fun kv => kv.2.openB.isEmpty && kv.2.closing.isEmpty)
        && s.strands.all fun kv => !kv.2.sb.any fun e => isPeat (e.pa / 64)))

/-- The masks of the sockets whose messages have arrived. -/
def setBit (m i : Nat) : Nat := if natBit m i then m else m + 2 ^ i

/-- This socket's P2 is complete: it tells the others (R296). -/
def State.peatComplete (s : State) : State :=
  let d := s.dev.phaseDone 2
  match d.drain with
  | none => s
  | some r => { s with dev := { d with drain := some { r with peatDone := setBit r.peatDone d.self } }.chainSend 0x10 [] }

/-- PEAT_DONE (R296): a socket's P2 is complete; this socket's own, once every line is settled. -/
def execPeatDone (src : Nat) (s : State) : Host.Outcome State Fault Refusal :=
  if 8 ≤ src then .fault .noSuchUnit
  else
    match s.dev.drain with
    | none => .next s
    | some r =>
      if src == s.dev.self then
        .next (if natBit r.started 0 && !natBit r.peatDone src && s.peatSettled false then s.peatComplete else s)
      else .next { s with dev := { s.dev with drain := some { r with peatDone := setBit r.peatDone src } } }

/-- P2_DEADLINE (R296): at 10.5 ms the lines not yet acknowledged are listed as not durable, with reason 1. -/
def execP2Deadline (s : State) : Host.Outcome State Fault Refusal :=
  match s.dev.drain with
  | none => .next s
  | some r =>
    let ls := r.report.lines.map fun x =>
      if x.reason == 0 && s.peatPending x.g then { x with reason := 1 } else x
    let s := { s with dev := { s.dev with drain := some { r with report := { r.report with lines := ls } } } }
    .next (if !natBit r.peatDone s.dev.self && s.peatSettled true then s.peatComplete else s)

/-- Writes back every dirty DRAM line of this socket's caches to its home (R297 step 1): one that another socket homes
by a WbM with flag K. -/
def Dev.dramWriteBack (d : Dev) : Dev :=
  let d := (List.range 288).foldl (fun d c =>
    (d.linesOf c).foldl (fun d g =>
      if isPeat g || (d.line c g).st != .modified then d
      else if !d.homedHere g then d.writeBack c g
      else if d.lineBusy g then d
      else d.flushLine c g) d) d
  let gs := (d.llc.filter fun kv => kv.2.isSome).map fun kv => kv.1
  gs.foldl (fun d g => if isPeat g then d else d.llcEvict g) d

/-- Whether a dirty DRAM line is still on its way to its home: in a cache, in a ghost or in an open transaction. -/
def Dev.dramDirty (d : Dev) : Bool :=
  (d.l2.any fun kv => !isPeat (kv.1 / 512) && kv.2.st == .modified)
    || (d.ghosts.any fun kv => !isPeat (kv.1 / 512) && kv.2.isSome)
    || d.txns.any fun kv => !isPeat kv.1 && kv.2.isSome

/-- The channels that the drain counts: in service. -/
def Dev.liveChannels (d : Dev) : List Nat :=
  (List.range 16).filter fun n =>
    let st := d.fld (mcReg R.MC_STATUS_STATE n)
    st == 2 || st == 3 || st == 4

/-- A mask of channels. -/
def maskOf (ns : List Nat) : Nat := ns.foldl (fun m n => setBit m n) 0

/-- DRAM_DONE (R297): a socket's DRAM write-back is complete; this socket's own takes place here, once its strands have
halted, and is complete when no dirty line is left. -/
def execDramDone (src : Nat) (s : State) : Host.Outcome State Fault Refusal :=
  if 8 ≤ src then .fault .noSuchUnit
  else
    match s.dev.drain with
    | none => .next s
    | some r =>
      if src == s.dev.self then
        if natBit r.started 1 && !natBit r.dramDone src && s.allHalted && natBit r.report.phases 6 then
          let d := s.dev.dramWriteBack
          match d.dramDirty, d.drain with
          | true, _ => .next { s with dev := d }
          | false, none => .next s
          | false, some q =>
            let rep := { q.report with dramDone := maskOf d.liveChannels }
            let q := { q with dramDone := setBit q.dramDone src, report := rep }
            .next { s with dev := { d with drain := some q }.chainSend 0x11 [] }
        else .next s
      else .next { s with dev := { s.dev with drain := some { r with dramDone := setBit r.dramDone src } } }

/-- CANARY_WRITE (R297): channel n writes its canary and enters self-refresh. -/
def execCanaryWrite (n : Nat) (s : State) : Host.Outcome State Fault Refusal :=
  onDev (mcOk n) s fun d =>
    match d.drain with
    | none => d
    | some r =>
      if natBit r.started 1 && natBit r.report.phases 6 && d.mcLive n then
        let w := d.drawRandom
        let d := w.2.setChan n { w.2.chan n with canary := some (word r.report.seqn, d.self, n, w.1) }
        let d := d.setFld (mcReg R.MC_STATUS_STATE n) 3
        let rep := { r.report with
          canaryWritten := setBit r.report.canaryWritten n
          selfRefresh := setBit r.report.selfRefresh n
          canary := SMap.set (fun _ => 0) r.report.canary n w.1 }
        let d := { d with drain := some { r with report := rep } }
        if d.liveChannels.all fun k => natBit rep.selfRefresh k then d.phaseDone 3 else d
      else d

/-- RETAIN_ASSERT (R292): with every channel in self-refresh and RETAIN_ARM set, `RETAIN_EN` is asserted. -/
def execRetainAssert (s : State) : Host.Outcome State Fault Refusal :=
  onDev true s fun d =>
    match d.drain with
    | none => d
    | some r =>
      if d.flag R.CUSHION_CTL_RETAIN_ARM && (d.liveChannels.all fun k => natBit r.report.selfRefresh k)
          && !natBit r.report.phases 7 then
        { d.setFld R.CUSHION_STATUS_RETAIN_HELD 1 with
          retainEn := true
          drain := some { r with report := { r.report with phases := r.report.phases + 128 } } }
      else d

/-- RETAIN_HELD_CLEAR (R292): `VDD_AON` leaves its limits. -/
def execRetainHeldClear (s : State) : Host.Outcome State Fault Refusal :=
  onDev true s fun d => d.setFld R.CUSHION_STATUS_RETAIN_HELD 0

/-! ### The report (P5, R299, R302, R303) -/

/-- Whether P1 to P4 are complete: P3 only under retention. -/
def Report.ready (r : Report) : Bool :=
  natBit r.phases 1 && natBit r.phases 2 && (natBit r.phases 3 || !natBit r.phases 6) && natBit r.phases 4

/-- The images that the report indexes (R303): of the strands that have halted, and of withdrawn logical cores. -/
def State.savedImages (s : State) : List (Nat × Image) :=
  List.filterMap (fun kv : Nat × Option Image =>
    match kv.2 with
    | none => none
    | some i =>
      if (if s.dev.coreThere (kv.1 / 2) then (s.strand kv.1).halted else i.withdrawn) then some (kv.1, i) else none)
    s.dev.images

/-- The line list as P5 writes it: a line is durable unless it is still short of its intake. -/
def State.finalLines (s : State) (ls : List LineItem) : List LineItem :=
  ls.map fun x =>
    let durable := x.reason == 0 && !s.peatPending x.g
    { x with
      durable := durable
      poisoned := durable && s.dev.isPoisoned x.g
      reason := if durable then 0 else if x.reason == 0 then 1 else x.reason }

/-- DRAIN_REPORT_WRITE (R299): P5 writes the lists and the header; when it begins before all is complete it is the
deadline that starts it. -/
def execDrainReportWrite (s : State) : Host.Outcome State Fault Refusal :=
  match s.dev.drain with
  | none => .next s
  | some r =>
    let d := s.dev
    let all := r.report.ready
      && (List.range 8).all fun k => !natBit r.report.present k || natBit r.peatDone k
    let rep := { r.report with
      phases := if all || natBit r.report.phases 8 then r.report.phases else r.report.phases + 256
      images := s.savedImages
      strands := 2 * ((List.range 256).filter fun l => d.coreThere l).length
      lines := s.finalLines r.report.lines
      errCount := (d.fld R.ERR_HEAD_TOTAL - r.errTotal) % 1024 }
    .next { s with dev := { d with drain := some { r with report := rep } }.phaseDone 5 }

/-- DRAIN_COMPLETE (R299): the stack accepts the digest; the report is complete, and the clocks stop. -/
def execDrainComplete (s : State) : Host.Outcome State Fault Refusal :=
  onDev true s fun d =>
    match d.drain with
    | none => d
    | some r =>
      if natBit r.report.phases 5 then
        let rep := { r.report with endFrame := d.frame, complete := true }
        { d with
          reports := SMap.set (fun _ => {}) d.reports (rep.seqn % 2) rep
          drain := none
          phase := .drained }
      else d

/-! ### Images (R304, R310, R312, R358) -/

/-- The result of a restore of a global strand ID that changes nothing (R312), or none. -/
def State.restoreRefused (s : State) (id : Nat) : Option Nat :=
  let d := s.dev
  let g := id % 512
  if id / 512 != d.self then some 7
  else if !d.locked then some 6
  else
    match d.image g with
    | none => some 2
    | some i =>
      if !d.coreThere (g / 2) && !i.withdrawn then some 2
      else if d.fld R.RESUME_INFO_PATH != 1 && !i.withdrawn then some 5
      else if i.restored then some 4
      else none

/-- A withdrawn logical core takes a spare (R358 steps 1 and 2); none when none is left. -/
def State.unwithdraw (s : State) (l : Nat) : Option State :=
  let d := s.dev
  if d.coreThere l then some s
  else
    let last := d.phys l
    match d.pickSpare last 3, d.pickSpare last 2 with
    | none, none => none
    | w, k =>
      let t := (w.or k).getD 0
      let d := if d.coreState t == 3 then d else d.emptyCore t
      let d := ((d.setFld (R.CORE_MAP_PHYS.at (8 * l)) t).setFld (R.CORE_MAP_PRESENT.at (8 * l)) 1).setCoreState t 1
      let d := (d.setFld (R.CORE_STATE_LOGICAL.at (8 * t)) l).addSpares 0 1
      some { s with dev := d.setFld (corePwr t) 2 }

/-- Loads the image of strand g (R310 steps 2 and 3). -/
def State.loadImage (s : State) (g : Nat) (i : Image) : State :=
  let x := s.strand g
  let y := { i.strand.masked with
    parked := i.parked
    sb := x.sb
    seq := x.seq
    longOps := []
    halted := false }
  let d := (s.dev.setPm (g / 2) i.pmode).setInImage y false
  let d := d.setImage g (some { i with restored := true })
  let d := if i.parked then d else d.setFld (corePwr (d.phys (g / 2))) 1
  { s with dev := d }.setStrand g y

/-- A write of `STRAND_RESTORE` by a requester (R310, R312, R358). -/
def State.restoreWrite (s : State) (req : Requester) (v : Word) : State :=
  let s := { s with dev := s.dev.writeReg R.STRAND_RESTORE_ID.reg v }
  if !bitOf v 12 then s
  else
    let id := getF v 0 12
    let g := id % 512
    let result (s : State) (r : Nat) : State := { s with dev := s.dev.setFld R.STRAND_RESTORE_RESULT r }
    match s.restoreRefused id, s.dev.image g with
    | some r, _ => result s r
    | none, none => result s 2
    | none, some i =>
      if s.dev.coreThere (g / 2) && !(s.strand g).parked && req != .strand g then result s 1
      else
        match s.unwithdraw (g / 2) with
        | none => result s 8
        | some s => (result s 0).loadImage g i

/-- STRAND_RESTORE (R310): a write of `STRAND_RESTORE`. -/
def execStrandRestore (req : Requester) (v : Word) (s : State) : Host.Outcome State Fault Refusal :=
  if reqOk req then .next (s.restoreWrite req v) else .fault .noSuchUnit

/-- A write of `RESUME_INFO` (R312, R358): a 1 to IMAGES_HELD releases the images not yet restored. -/
def Dev.resumeInfoWrite (d : Dev) (v : Word) : Dev :=
  let d := d.writeReg R.RESUME_INFO_PATH.reg v
  if bitOf v 22 then
    { d with
      images := SMap.filterMap (fun _ => none)
        (fun _ i => some (i.map fun x : Image => { x with withdrawn := false })) d.images }
  else d

/-- IMAGES_RELEASE (R312): a write of `RESUME_INFO`. -/
def execImagesRelease (req : Requester) (v : Word) (s : State) : Host.Outcome State Fault Refusal :=
  onDev (reqOk req) s fun d => d.resumeInfoWrite v

/-- BLOCK_INIT (R309): the controller zeroes a 1 MiB block of the socket's DRAM that is not yet initialised. -/
def execBlockInit (b : Nat) (s : State) : Host.Outcome State Fault Refusal :=
  onDev (decide (b < 2 ^ 26)) s fun d =>
    if d.initPending && d.homeOf (b * 2 ^ 14) == some d.self && !SMap.get (fun _ => false) d.initDone b then
      { d with initDone := SMap.set (fun _ => false) d.initDone b true }
    else d

end Sys2Proof.Machine
end

