-- ==== Sys2Proof/Machine/IoMmu.lean ====
section
/-!
DEFINITION. The refill blocks of the assisted walk (R180 to R183), the I/O translation of DMA by the device table
(R190, R191) and its invalidation queue (R192, R193).
-/

namespace Sys2Proof.Machine

open Sys2Proof

/-! ### Refill (R181, R182) -/

/-- A register of the refill block of strand i of the socket: in the tile of the core that serves it (R181). -/
def Dev.refillAt (d : Dev) (f : Field) (i : Nat) : Field :=
  (tileAt f (d.phys (i / 2)) 0x800).at (0x100 * (i % 2))

/-- Whether a translation-cache entry occupies a pinned slot of strand parity j. -/
def TlbEntry.pinnedAt (t : TlbEntry) (j slot : Nat) : Bool :=
  match t with
  | .s1 _ _ _ _ _ p | .s2 _ _ _ _ p => p == some (j, slot)
  | _ => false

/-- The result code of an install (R181): the checks in the order 1, 3, 2. -/
def installCheck (x : Strand) (stage level : Nat) (e : Word) : Nat :=
  if stage == 1 && x.pl != 2 then 1
  else if level == 3 then 3
  else if decodeEntry e level == .leaf then 0 else 2

/-- Installs a leaf in the caches of strand i's core, tagged with its ASID and VMID (R182). -/
def Dev.installLeaf (d : Dev) (i : Nat) (x : Strand) (stage level slot : Nat) (pin : Bool) (a : Nat)
    (e : Word) : Dev :=
  let c := d.phys (i / 2)
  let p := if pin then some (i % 2, slot) else none
  let t : TlbEntry :=
    if stage == 0 then .s1 x.asid.toNat x.vmid.toNat (a / pageSize level) level e p
    else .s2 x.vmid.toNat (a / pageSize level) level e p
  let others := (d.tlbOf c).filter fun u => !(pin && u.pinnedAt (i % 2) slot)
  d.setTlb c (t :: others)

/-- A write of `REFILL_CTL` of strand i (R181, R182): only the strand itself may write its block. -/
def State.refillCtlWrite (s : State) (req : Requester) (i : Nat) (v : Word) : State :=
  if req != .strand i then s
  else
    let d := s.dev
    let x := s.strand i
    let d := d.setReg (d.refillAt R.REFILL_CTL_GO i).reg (word (getF v 1 7 * 2))
    if bitOf v 0 then
      let a := (d.reg (d.refillAt R.REFILL_VA_ADDR i).reg).toNat
      let e := d.reg (d.refillAt R.REFILL_ENTRY_ENTRY i).reg
      let r := installCheck x (getF v 1 1) (getF v 2 2) e
      let d := d.setFld (d.refillAt R.REFILL_STATUS_RESULT i) r
      { s with dev := if r == 0 then d.installLeaf i x (getF v 1 1) (getF v 2 2) (getF v 5 3) (bitOf v 4) a e else d }
    else { s with dev := d }

/-- REFILL_INSTALL (R182): a write of `REFILL_CTL` of strand i. -/
def execRefillInstall (req : Requester) (i : Nat) (v : Word) (s : State) : Host.Outcome State Fault Refusal :=
  if reqOk req && strandOk i then .next (s.refillCtlWrite req i v) else .fault .noSuchUnit

/-! ### I/O translation (R190, R191) -/

/-- Records a fault of I/O translation (R190, R192). -/
def Dev.ioFault (d : Dev) (rid kind level stage : Nat) (write : Bool) (addr : Nat) : Dev :=
  let d := d.addSat R.IOFAULT_COUNT 1
  let d := if d.flag R.IOFAULT_VALID then d
    else
      let d := (d.setFld R.IOFAULT_RID rid).setFld R.IOFAULT_KIND kind
      let d := (d.setFld R.IOFAULT_LEVEL level).setFld R.IOFAULT_STAGE stage
      let d := (d.setFld R.IOFAULT_WRITE (bnat write)).setFld R.IOFAULT_VALID 1
      d.setReg R.IOFAULT_ADDR_ADDR.reg (word addr)
  d.log { source := 0x0D, cls := 5, inst := rid, address := addr, syndrome := kind }

/-- A refusal whose KIND the spec does not give: a free value (R190, R402). -/
def Dev.ioDeny (d : Dev) (rid : Nat) (write : Bool) (addr : Nat) : Dev :=
  let w := d.drawWord
  w.2.ioFault rid (w.1.toNat % 16) 0 0 write addr

/-- The device-table entry of a requester (R191): a cached one, unless it was evicted (a free choice), or the
table's, which is then cached among 256. -/
def Dev.dtEntry (d : Dev) (rid : Nat) : DtEntry × Dev :=
  let load (d : Dev) : DtEntry × Dev :=
    let pa := d.fld R.IODT_BASE_BASE * 2 ^ 21 + 32 * rid
    let q := d.coreRead 511 (pa / 64) 0
    let w (i : Nat) : Word := lineWord q.line (pa % 64 + 8 * i)
    let e : DtEntry := ⟨rid, w 0, w 1, w 2⟩
    (e, { q.dev with dtcache := (e :: q.dev.dtcache.filter fun x => x.rid != rid).take 256 })
  match d.dtcache.find? fun x => x.rid == rid with
  | none => load d
  | some e =>
    let f := d.drawBool
    if f.1 then load f.2 else (e, f.2)

/-- The regime of a device (R190, R191). -/
def ioRegime (e : DtEntry) : Regime where
  s1en := getF e.d0 1 2 == 2
  va57 := bitOf e.d0 3
  had1 := bitOf e.d0 5
  s2en := true
  ipa52 := bitOf e.d0 4
  had2 := bitOf e.d0 6
  ttb1 := (ttbMask e.d1).toNat
  ttb2 := (ttbMask e.d2).toNat
  asid := getF e.d0 16 16
  vmid := getF e.d0 32 16
  user := false
  refill := false

/-- The I/O TLB entries of a requester. -/
def Dev.ioTlbOf (d : Dev) (rid : Nat) : List TlbEntry :=
  (d.iotlb.filter fun p => p.1 == rid).map fun p => p.2

/-- Replaces the I/O TLB entries of a requester; the I/O TLB holds 2,048 entries. -/
def Dev.setIoTlb (d : Dev) (rid : Nat) (l : List TlbEntry) : Dev :=
  { d with iotlb := ((l.map fun t => (rid, t)) ++ d.iotlb.filter fun p => p.1 != rid).take 2048 }

/-- The outcome of an I/O translation: where the access goes, or refused (the fault is recorded). -/
inductive IoR
  | ok (pa key ipa : Nat) (d : Dev)
  | refused (d : Dev)
  deriving DecidableEq, Repr

/-- The translation of a DMA address (R190 to R192): physical before boot-lock while no table is in use, blocked
after it. -/
def Dev.ioXlate (d : Dev) (rid addr : Nat) (write : Bool) : IoR :=
  if !d.flag R.IODT_BASE_EN then
    if d.locked then .refused (d.ioDeny rid write addr)
    else if inRegSpace addr then .refused (d.ioFault rid 6 0 0 write addr)
    else .ok addr 0 addr d
  else
    let r := d.dtEntry rid
    let e := r.1
    let mode := getF e.d0 1 2
    if !bitOf e.d0 0 || mode == 0 || mode == 3 then .refused (r.2.ioDeny rid write addr)
    else
      match translate (ioRegime e) 511 0xFFF addr (if write then .ioWrite else .ioRead)
          ⟨r.2, r.2.ioTlbOf rid⟩ with
      | .ok a w => .ok a.pa a.key a.ipa (w.dev.setIoTlb rid w.tlb)
      | .fault t w => .refused (w.dev.ioFault rid t.kind t.level t.stage write addr)

/-! ### What a DMA access reaches (R402, R411) -/

/-- Whether DMA may reach a page under a KEYID (R390, R402). -/
def Dev.dmaAllowed (d : Dev) (pa key : Nat) : Bool :=
  (d.potOf pa).st == 0 && (d.slot key).cls != 3 && (d.slot key).cls != 4

/-- Where a DMA access goes: memory at a physical address, with its KEYID and the input to stage 2; a PCI Express
window or ECAM region; nowhere (R33); or it is refused. -/
inductive IoTo
  | mem (pa key ipa : Nat) (d : Dev)
  | window (pa : Nat) (d : Dev)
  | unclaimed (d : Dev)
  | refused (d : Dev)
  deriving DecidableEq, Repr

/-- The target of a DMA access, within one page (R33, R190, R402). -/
def Dev.ioTo (d : Dev) (rid addr : Nat) (write : Bool) : IoTo :=
  match d.ioXlate rid addr write with
  | .refused d => .refused d
  | .ok pa key ipa d =>
    match d.claim pa with
    | .dram _ | .peat _ =>
      if d.dmaAllowed pa key then .mem pa key ipa d else .refused (d.ioDeny rid write addr)
    | .window _ | .ecam => .window pa d
    | .regs _ _ => .refused (d.ioFault rid 6 0 0 write addr)
    | .none => .unclaimed (d.unclaimed pa 0xFFF).1

/-- The parts of n bytes from an address, none crossing a multiple of a unit: (address, length). -/
def parts (unit : Nat) : Nat → Nat → Nat → List (Nat × Nat)
  | 0, _, _ => []
  | fuel + 1, a, n =>
    if n == 0 then []
    else
      let k := Nat.min n (unit - a % unit)
      (a, k) :: parts unit fuel (a + k) (n - k)

/-- The parts of n bytes by lines. -/
def lineParts (a n : Nat) : List (Nat × Nat) := parts 64 (n / 64 + 2) a n

/-! ### The invalidation queue (R193) -/

/-- The queue's size in commands. -/
def Dev.ioqSize (d : Dev) : Nat := 256 * 2 ^ d.fld R.IOIQ_BASE_SIZE

/-- HEAD and TAIL modulo the size (R193). -/
def Dev.ioqHead (d : Dev) : Nat := d.fld R.IOIQ_HEAD_INDEX % d.ioqSize
def Dev.ioqTail (d : Dev) : Nat := d.fld R.IOIQ_TAIL_INDEX % d.ioqSize

/-- IDLE follows HEAD and TAIL (R192). -/
def Dev.ioqIdle (d : Dev) : Dev := d.setFld R.IOIQ_HEAD_IDLE (bnat (d.ioqHead == d.ioqTail))

/-- Whether the queue executes the command at HEAD. -/
def Dev.ioqRuns (d : Dev) : Bool :=
  d.flag R.IOIQ_BASE_EN && !d.flag R.IOIQ_HEAD_ERR && d.ioqHead != d.ioqTail

/-- HEAD moves to the next command. -/
def Dev.ioqAdvance (d : Dev) : Dev :=
  (d.setFld R.IOIQ_HEAD_INDEX ((d.ioqHead + 1) % d.ioqSize)).ioqIdle

/-- The doublewords of the command at HEAD. -/
def Dev.ioqCommand (d : Dev) : (Word × Word) × Dev :=
  let pa := d.fld R.IOIQ_BASE_BASE * 4096 + 16 * d.ioqHead
  let q := d.coreRead 511 (pa / 64) 0
  ((lineWord q.line (pa % 64), lineWord q.line (pa % 64 + 8)), q.dev)

/-- Whether a command is valid (R193). -/
def ioqValid (w0 w1 : Word) : Bool :=
  let op := getF w0 0 8
  if op == 0x10 then getF w0 8 24 == 0 && w1.toNat % 8 == 0
  else 1 ≤ op && op ≤ 6 && getF w0 56 8 == 0

/-- Executes the command at HEAD when it has this OP (R193); an invalid one sets ERR. -/
def Dev.ioqRun (d : Dev) (op : Nat) (f : Word → Word → Dev → Dev) : Dev :=
  if !d.ioqRuns then d
  else
    let r := d.ioqCommand
    let w0 := r.1.1
    let w1 := r.1.2
    if !ioqValid w0 w1 then r.2.setFld R.IOIQ_HEAD_ERR 1
    else if getF w0 0 8 != op then d
    else (f w0 w1 r.2).ioqAdvance

/-- The VMID and ASID tags of a translation-cache entry; no ASID on stage-2 entries and global leaves. -/
def TlbEntry.vmidOf : TlbEntry → Nat
  | .s1 _ v _ _ _ _ | .s2 v _ _ _ _ | .p1 _ v _ _ _ | .p2 v _ _ _ => v

/-- Whether an entry translates, or leads toward, the 4 KiB page of an address in stage 1. -/
def TlbEntry.onS1Path (t : TlbEntry) (a : Nat) : Bool :=
  match t with
  | .s1 _ _ page lvl _ _ | .p1 _ _ page lvl _ => page == a / pageSize lvl
  | _ => false

/-- Whether an entry translates, or leads toward, the 4 KiB page of an address in stage 2. -/
def TlbEntry.onS2Path (t : TlbEntry) (a : Nat) : Bool :=
  match t with
  | .s2 _ page lvl _ _ | .p2 _ page lvl _ => page == a / pageSize lvl
  | _ => false

/-- Whether an entry is tagged with an ASID, or is global. -/
def TlbEntry.inAsid (t : TlbEntry) (asid : Nat) : Bool :=
  match t with
  | .s1 a _ _ _ e _ => a == asid || bitOf e 5
  | .p1 a _ _ _ _ => a == asid
  | _ => true

/-- Drops the I/O TLB entries that a predicate selects. -/
def Dev.ioDrop (d : Dev) (p : Nat × TlbEntry → Bool) : Dev := { d with iotlb := d.iotlb.filter fun t => !p t }

/-- A write of `IOIQ_BASE` (R193): while EN = 1 only EN changes; setting EN from 0 sets HEAD to 0. -/
def Dev.ioqBaseWrite (d : Dev) (v : Word) : Dev :=
  if d.flag R.IOIQ_BASE_EN then d.setFld R.IOIQ_BASE_EN (getF v 0 1)
  else
    let d := d.writeReg R.IOIQ_BASE_EN.reg v
    if bitOf v 0 then (d.setFld R.IOIQ_HEAD_INDEX 0).ioqIdle else d.ioqIdle

/-- IOIQ_ENABLE (R193): a write of `SOC.IOIQ_BASE`. -/
def execIoiqEnable (req : Requester) (v : Word) (s : State) : Host.Outcome State Fault Refusal :=
  onDev (reqOk req) s fun d => d.ioqBaseWrite v

/-- INV_DT (R193): drops the cached device-table entry of RID. -/
def execInvDt (s : State) : Host.Outcome State Fault Refusal :=
  onDev true s fun d => d.ioqRun 1 fun w0 _ d =>
    { d with dtcache := d.dtcache.filter fun e => e.rid != getF w0 8 16 }

/-- INV_RID (R193): drops every I/O TLB entry of RID. -/
def execInvRid (s : State) : Host.Outcome State Fault Refusal :=
  onDev true s fun d => d.ioqRun 2 fun w0 _ d => d.ioDrop fun t => t.1 == getF w0 8 16

/-- INV_VA (R193): drops the entries of RID and ASID for a 4 KiB page. -/
def execInvVa (s : State) : Host.Outcome State Fault Refusal :=
  onDev true s fun d => d.ioqRun 3 fun w0 w1 d =>
    d.ioDrop fun t => t.1 == getF w0 8 16 && t.2.inAsid (getF w0 40 16) && t.2.onS1Path w1.toNat

/-- INV_IPA (R193): drops the entries of VMID derived from a stage-2 page. -/
def execInvIpa (s : State) : Host.Outcome State Fault Refusal :=
  onDev true s fun d => d.ioqRun 4 fun w0 w1 d =>
    d.ioDrop fun t => t.2.vmidOf == getF w0 24 16 && t.2.onS2Path w1.toNat

/-- INV_VMID (R193): drops every entry of VMID. -/
def execInvVmid (s : State) : Host.Outcome State Fault Refusal :=
  onDev true s fun d => d.ioqRun 5 fun w0 _ d => d.ioDrop fun t => t.2.vmidOf == getF w0 24 16

/-- INV_ALL (R193): drops every entry and every cached device-table entry. -/
def execInvAll (s : State) : Host.Outcome State Fault Refusal :=
  onDev true s fun d => d.ioqRun 6 fun _ _ d => { d.ioDrop (fun _ => true) with dtcache := [] }

/-- IOIQ_WAIT (R193): writes its value when every earlier command has completed. -/
def execIoiqWait (s : State) : Host.Outcome State Fault Refusal :=
  onDev true s fun d => d.ioqRun 0x10 fun w0 w1 d =>
    if d.homedHere (w1.toNat / 64) then
      d.homeStore (w1.toNat / 64) (w1.toNat % 64) (leBytes 8 (getF w0 32 32)) 0 false none
    else d

end Sys2Proof.Machine
end

