-- ==== Sys2Proof/Machine/Ports.lean ====
section
/-!
DEFINITION. The PCI Express root ports (R407 to R424): their place in configuration space, inbound requests, outbound
requests of strands, containment, the slots, link retirement and the reference clock outputs.
-/

namespace Sys2Proof.Machine

open Sys2Proof

/-! ### Ports and their configuration space (R407, R424) -/

/-- A register of root port pt (R424). -/
def kpReg (f : Field) (pt : Nat) : Field := f.at (0x1000 * pt)

/-- The root ports of a socket, present or not: port p of PXn is 4n + p. -/
def portOk (pt : Nat) : Bool := decide (pt < 80)

/-- The division of the controller of a port that is in effect; codes 5 to 7 act as 0 (R407). -/
def Dev.division (d : Dev) (pt : Nat) : Nat :=
  let c := (d.port (pt / 4 * 4)).bifurcation
  if c < 5 then c else 0

/-- The first lane and the number of lanes of a port (R407); no lanes where the code leaves it out. -/
def Dev.portLanes (d : Dev) (pt : Nat) : Nat × Nat :=
  match d.division pt, pt % 4 with
  | 0, 0 => (0, 16)
  | 1, 0 | 2, 0 => (0, 8)
  | 1, 2 | 3, 2 => (8, 8)
  | 2, 2 | 4, 2 => (8, 4)
  | 2, 3 | 4, 3 => (12, 4)
  | 3, 0 | 4, 0 => (0, 4)
  | 3, 1 | 4, 1 => (4, 4)
  | _, _ => (0, 0)

/-- Whether a port is present. -/
def Dev.portThere (d : Dev) (pt : Nat) : Bool := (d.portLanes pt).2 != 0

/-- A doubleword of a port's configuration space as stored. -/
def Port.dword (x : Port) (k : Nat) : BitVec 32 := SMap.get (fun _ => 0) x.cfg k

def Port.setDword (x : Port) (k : Nat) (v : BitVec 32) : Port :=
  { x with cfg := SMap.set (fun _ => 0) x.cfg k v }

/-- The requester ID of a port (R407): bus 0, device 1 + n, function p. -/
def portRid (pt : Nat) : Nat := (1 + pt / 4) * 8 + pt % 4

/-- Bits of a doubleword. -/
def dwF (v : BitVec 32) (lo width : Nat) : Nat := v.toNat / 2 ^ lo % 2 ^ width

/-- Whether an address lies in a port's memory or prefetchable memory window (R411), in the type 1 header of the PCI
Express specification (log entry 14). -/
def Port.window (x : Port) (pa : Nat) : Bool :=
  let m := x.dword 8
  let p := x.dword 9
  let inside (b l : Nat) : Bool := decide (b * 2 ^ 20 ≤ pa) && decide (pa < (l + 1) * 2 ^ 20)
  dwF (x.dword 1) 1 1 == 1 &&
    (inside (dwF m 4 12) (dwF m 20 12) ||
      inside (dwF p 4 12 + (x.dword 10).toNat * 2 ^ 12) (dwF p 20 12 + (x.dword 11).toNat * 2 ^ 12))

/-- The root port whose window holds an address (R411). -/
def Dev.windowPort (d : Dev) (pa : Nat) : Option Nat :=
  (List.range 80).find? fun pt => d.portThere pt && (d.port pt).window pa

/-- The root port below which a bus lies, by its bus number register (log entry 14). -/
def Dev.busPort (d : Dev) (bus : Nat) : Option Nat :=
  (List.range 80).find? fun pt =>
    let b := (d.port pt).dword 6
    d.portThere pt && decide (dwF b 8 8 ≤ bus) && decide (bus ≤ dwF b 16 8) && dwF b 8 8 != 0

/-- Whether a port is in containment (R419). -/
def Dev.contained (d : Dev) (pt : Nat) : Bool := d.flag (kpReg R.KPORT_STATUS_CONTAINED pt)

/-- The port's own interrupt (R410): MSI, when it is enabled (log entry 14). -/
def Dev.portMsi (d : Dev) (pt : Nat) : Dev :=
  let x := d.port pt
  if dwF (x.dword 0x14) 16 1 == 0 then d
  else
    let addr := word ((x.dword 0x15).toNat + (x.dword 0x16).toNat * 2 ^ 32)
    if d.inMsgWindow addr then d.irMessage (BitVec.ofNat 16 (portRid pt)) addr 4 (x.dword 0x17) else d

/-- Sets bits of Slot Status; a bit that Slot Control enables raises the hot-plug interrupt (R410, R417). -/
def Dev.slotEvent (d : Dev) (pt bit : Nat) : Dev :=
  let x := d.port pt
  let d := d.setPort pt { x with slotStatus := x.slotStatus ||| BitVec.ofNat 16 (2 ^ bit) }
  let en := if bit == 8 then 12 else bit
  if natBit x.slotCtl.toNat 5 && natBit x.slotCtl.toNat en then d.portMsi pt else d

/-! ### Outbound requests of strands (R415, R416) -/

/-- The record of a port: contained uncorrectable, INSTANCE 4n + p (R419); the spec gives no class (log entry 4). -/
def Dev.portRecord (d : Dev) (pt address : Nat) : Dev × Nat :=
  d.record { source := 0x0B, inst := pt, cls := 2, address := address }

/-- The value of a load of n bytes at its destination (R49): LDV's upper bits are not the port's to give, a free
value. -/
def portValue (free : Line) (n : Nat) (signed : Bool) (v : Word) : VWord :=
  if n == 32 then (free.setWidth 256 >>> 64) <<< 64 ||| v.setWidth 256
  else if n == 8 then v.setWidth 256
  else if n == 4 then (if signed then ((v.setWidth 32).signExtend 64).setWidth 256 else (v.setWidth 32).setWidth 256)
  else if n == 2 then (if signed then ((v.setWidth 16).signExtend 64).setWidth 256 else (v.setWidth 16).setWidth 256)
  else (if signed then ((v.setWidth 8).signExtend 64).setWidth 256 else (v.setWidth 8).setWidth 256)

/-- All ones, as a load of n bytes brings them. -/
def onesValue (n : Nat) (signed : Bool) : VWord :=
  if n == 32 then BitVec.allOnes 256 else portValue 0 n signed (BitVec.allOnes 64)

/-- The load of strand g that waits at a port completes with a value and retires. -/
def State.loadDone (s : State) (g : Nat) (value : PortLoad → VWord) : State :=
  let x := s.strand g
  match x.portLoad with
  | none => s
  | some p => (s.setStrand g ({ x with portLoad := none }.setRef p.dst (value p))).retire g

/-- A waiting load ends without its data (R416, R419): all ones, or bus error with the record it names. -/
def State.loadFails (s : State) (g pt record : Nat) (busErr : Bool) : State :=
  let x := s.strand g
  match x.portLoad with
  | none => s
  | some p =>
    if busErr && s.dev.flag (kpReg R.KPORT_CTL_BUSERR_EN pt) then
      (s.setStrand g { x with portLoad := none }).raise g { code := 9, faddr := some p.addr, syn := .idx record }
    else s.loadDone g fun p => onesValue p.size p.signed

/-- Every outbound non-posted request of a port ends (R419, R421). -/
def State.failAll (s : State) (pt record : Nat) (busErr : Bool) : State :=
  let outs := (s.dev.port pt).out
  let s := { s with dev := s.dev.setPort pt { s.dev.port pt with out := [] } }
  outs.foldl (fun s o => s.loadFails o.g pt record busErr) s

/-- COMPLETION_TIMEOUT (R416): the oldest outbound request of a port times out, with an error record. -/
def execCompletionTimeout (pt : Nat) (s : State) : Host.Outcome State Fault Refusal :=
  if !portOk pt then .fault .noSuchUnit
  else
    let x := s.dev.port pt
    match x.out with
    | [] => .next s
    | o :: os =>
      let r := (s.dev.setPort pt { x with out := os }).portRecord pt o.addr
      .next ({ s with dev := r.1 }.loadFails o.g pt r.2 true)

/-- PORT_COMPLETION (R416): the completion of a port's oldest outbound request arrives. -/
def execPortCompletion (pt : Nat) (v : Word) (s : State) : Host.Outcome State Fault Refusal :=
  if !portOk pt then .fault .noSuchUnit
  else
    let x := s.dev.port pt
    match x.out with
    | [] => .next s
    | o :: os =>
      let f := (s.dev.setPort pt { x with out := os }).drawLine
      .next ({ s with dev := f.2 }.loadDone o.g fun p => portValue f.1 p.size p.signed v)

/-! ### Containment (R418, R419) -/

/-- DPC triggers at a port (R419): the link is down, what waits ends, one record, one interrupt. -/
def State.contain (s : State) (pt : Nat) : State :=
  let d := s.dev
  if d.contained pt then s
  else
    let r := (d.setFld (kpReg R.KPORT_STATUS_CONTAINED pt) 1).portRecord pt 0
    let d := r.1.setPort pt { r.1.port pt with
      linkUp := false
      dpcStatus := true
      posted := []
      record := r.2 }
    let s := { s with dev := d }.failAll pt r.2 true
    { s with dev := s.dev.portMsi pt }

/-- SURPRISE_DOWN (R419). -/
def execSurpriseDown (pt : Nat) (s : State) : Host.Outcome State Fault Refusal :=
  if !portOk pt then .fault .noSuchUnit
  else if s.dev.phase == .drain || !s.dev.portThere pt then .next s
  else .next ({ s with dev := s.dev.setPort pt { s.dev.port pt with partner := false } }.contain pt)

/-- DPC_TRIGGER (R419). -/
def execDpcTrigger (pt : Nat) (s : State) : Host.Outcome State Fault Refusal :=
  if !portOk pt then .fault .noSuchUnit
  else if s.dev.portThere pt then .next (s.contain pt) else .next s

/-- Software clears DPC Trigger Status: containment ends (R419). -/
def Dev.dpcRelease (d : Dev) (pt : Nat) (partner : Bool) : Dev :=
  if !d.contained pt then d
  else
    (d.setFld (kpReg R.KPORT_STATUS_CONTAINED pt) 0).setPort pt { d.port pt with
      dpcStatus := false
      partner := partner }

/-- DPC_RELEASE (R419): the port then retrains if a partner is present. -/
def execDpcRelease (pt : Nat) (partner : Bool) (s : State) : Host.Outcome State Fault Refusal :=
  onDev (portOk pt) s fun d => d.dpcRelease pt partner

/-- A port's link may train: from Detect, the controller's division takes its register's code (R407). -/
def Dev.trainPort (d : Dev) (pt : Nat) : Dev :=
  let b := pt / 4 * 4
  if (List.range 4).any fun i => (d.port (b + i)).linkUp then d
  else d.setPort b { d.port b with bifurcation := d.fld (kpReg R.KPORT_CTL_BIFURCATE b) }

/-- PCIE_LINK_UP (R420): Data Link Layer Link Active is set; what waited is sent. A contained port stays down
(R419), and no link trains in the cushion (R421). -/
def execPcieLinkUp (pt : Nat) (s : State) : Host.Outcome State Fault Refusal :=
  onDev (portOk pt) s fun d =>
    let d := if d.phase == .running then d.trainPort pt else d
    let x := d.port pt
    if d.phase != .running || d.contained pt || !d.portThere pt || x.linkUp then d
    else
      (d.setPort pt { x with
        linkUp := true
        partner := true
        posted := [] }).slotEvent pt 8

/-- PORT_IDLE (R421): the links are idle; what waits completes with all-ones and a record. -/
def execPortIdle (pt : Nat) (s : State) : Host.Outcome State Fault Refusal :=
  if !portOk pt then .fault .noSuchUnit
  else if s.dev.phase != .drain then .next s
  else
    let d := s.dev.setPort pt { s.dev.port pt with linkUp := false }
    match (d.port pt).out with
    | [] => .next { s with dev := d }
    | o :: _ =>
      let r := d.portRecord pt o.addr
      .next ({ s with dev := r.1 }.failAll pt r.2 false)

/-! ### Slots (R417, R418) -/

/-- Whether the steward is running (R30, R508). -/
def Dev.stewardUp (d : Dev) : Bool := d.fld R.STW_STATUS_STATE == 1

/-- A Slot Control write reaches the expanders (R417, R418): slot power stays off while a power fault stands. -/
def Dev.applySlot (d : Dev) (pt : Nat) (v : BitVec 16) : Dev :=
  let x := d.port pt
  let on := !natBit v.toNat 10 && !natBit x.slotStatus.toNat 1
  (d.setPort pt { x with
    slotCtl := v
    slotWait := none
    powered := on }).slotEvent pt 4

/-- SLOT_CONTROL_WRITE (R417): while the steward is absent the write waits. -/
def execSlotControlWrite (pt : Nat) (v : BitVec 16) (s : State) : Host.Outcome State Fault Refusal :=
  onDev (portOk pt) s fun d =>
    if d.phase == .drain then d
    else if d.stewardUp then d.applySlot pt v
    else d.setPort pt { d.port pt with slotWait := some v }

/-- The slot's inputs as sampled, mirrored into Slot Status (R417). -/
def Dev.mirrorSlot (d : Dev) (pt : Nat) (i : SlotInputs) : Dev :=
  let x := d.port pt
  let old := natBit x.slotStatus.toNat 6
  let now := i.present || x.partner
  let st := if now then x.slotStatus ||| 64 else x.slotStatus &&& ~~~ 64
  let d := d.setPort pt { x with
    slot := i
    slotStatus := st }
  let d := if i.attention && !x.slot.attention then d.slotEvent pt 0 else d
  if old != now then d.slotEvent pt 3 else d

/-- SLOT_SAMPLE (R417, R418): the steward samples the expander; in the cushion slot events are ignored (R421). -/
def execSlotSample (pt : Nat) (i : SlotInputs) (s : State) : Host.Outcome State Fault Refusal :=
  if !portOk pt then .fault .noSuchUnit
  else if s.dev.phase == .drain || !s.dev.stewardUp || !s.dev.portThere pt then .next s
  else
    let old := (s.dev.port pt).slot
    let d := match (s.dev.port pt).slotWait with
      | some v => s.dev.applySlot pt v
      | none => s.dev
    let d := d.mirrorSlot pt i
    if i.powerFault && !old.powerFault then
      let d := d.slotEvent pt 1
      .next ({ s with dev := d.setPort pt { d.port pt with powered := false } }.contain pt)
    else .next { s with dev := d }

/-! ### Inbound requests (R411 to R414) -/

/-- Whether a port receives an inbound request: its link is up, it is not contained, and the socket runs (R295,
R419). -/
def Dev.receives (d : Dev) (pt : Nat) : Bool :=
  d.phase == .running && d.portThere pt && !d.contained pt

/-- The port answers an inbound non-posted request. -/
def Dev.answer (d : Dev) (pt status : Nat) (bytes : List Byte) (poison : Bool) : Dev :=
  d.setPort pt { d.port pt with answer := some (status, bytes, poison) }

/-- The record of an inbound request to a window or ECAM region (R411). -/
def Dev.peerRecord (d : Dev) (pt pa : Nat) : Dev :=
  d.log { source := 0x0B, inst := pt, cls := 5, address := pa }

/-- What a DMA read has gathered: the bytes, whether a line was poisoned, whether it was refused. -/
structure DmaGot where
  bytes : List Byte
  poison : Bool
  refused : Bool
  dev : Dev
  deriving DecidableEq, Repr

/-- A unit's coherent read of part of a line (R236): a line homed in another socket is a free value. -/
def Dev.ioRead (d : Dev) (pa n key : Nat) : Got × List Byte :=
  let g := pa / 64
  let q : Got := if d.homedHere g then d.snapshot g key
    else
      let f := d.drawLine
      ⟨f.1, false, 3, f.2⟩
  (q, takeBytes q.line (pa % 64) n)

/-- The bytes of one page of a DMA read (R347, R414). -/
def Dev.dmaReadPage (pt rid : Nat) (r : DmaGot) (p : Nat × Nat) : DmaGot :=
  if r.refused then r
  else
    match r.dev.ioTo rid p.1 false with
    | .refused d | .unclaimed d => { r with refused := true, dev := d }
    | .window pa d => { r with refused := true, dev := d.peerRecord pt pa }
    | .mem pa key _ d =>
      (lineParts pa p.2).foldl (fun r q =>
        let x := r.dev.ioRead q.1 q.2 key
        { r with
          bytes := r.bytes ++ x.2
          poison := r.poison || x.1.poison
          dev := x.1.dev }) { r with dev := d }

/-- The parts of a request by 4 KiB pages. -/
def pageParts (a n : Nat) : List (Nat × Nat) := parts 4096 (n / 4096 + 2) a n

/-- DMA_READ (R190, R414). -/
def execDmaRead (q : DmaReq) (len : Nat) (s : State) : Host.Outcome State Fault Refusal :=
  onData (dmaOk q) s fun d =>
    if !d.receives q.port then d
    else if q.pasidOrAts then (d.ioDeny q.rid.toNat false q.addr.toNat).answer q.port 1 [] false
    else
      let r := (pageParts q.addr.toNat len).foldl (fun r p => Dev.dmaReadPage q.port q.rid.toNat r p)
        ⟨[], false, false, d⟩
      if r.refused then r.dev.answer q.port 1 [] false else r.dev.answer q.port 0 r.bytes r.poison

/-- The bytes of one page of a DMA write (R412): each line is a Stash. -/
def State.dmaWritePage (s : State) (q : DmaReq) (bytes : List Byte) (target : BitVec 16) (poison : Bool)
    (p : Nat × Nat) : State :=
  match s.dev.ioTo q.rid.toNat p.1 true with
  | .refused d | .unclaimed d => { s with dev := d }
  | .window pa d => { s with dev := d.peerRecord q.port pa }
  | .mem pa key _ d =>
    (lineParts pa p.2).foldl (fun s r =>
      s.ioStash (r.1 / 64) (r.1 % 64) ((bytes.drop (p.1 - q.addr.toNat + (r.1 - pa))).take r.2) key target poison)
      { s with dev := d }

/-- DMA_WRITE (R190, R412, R415, R470): a write into the message window is an interrupt message; without TH it is a
Stash to home. -/
def execDmaWrite (q : DmaReq) (bytes : List Byte) (th : Option (BitVec 16)) (poisoned : Bool) (s : State) :
    Host.Outcome State Fault Refusal :=
  if !dmaOk q then .fault .noSuchUnit
  else if !s.dev.clocksOk then .fault .outsideClockRelations
  else if !s.dev.receives q.port then .next s
  else if s.dev.inMsgWindow q.addr then
    .next { s with dev := s.dev.irMessage q.rid q.addr bytes.length (BitVec.ofNat 32 (leNat bytes)) }
  else if q.pasidOrAts then .next { s with dev := s.dev.ioDeny q.rid.toNat true q.addr.toNat }
  else
    .next ((pageParts q.addr.toNat bytes.length).foldl
      (fun s p => s.dmaWritePage q bytes (th.getD 0x8000) poisoned p) s)

/-- ATOMICOP (R413): 32- or 64-bit FetchAdd, Swap or CAS, aligned; anything else is an Unsupported Request. -/
def execAtomicop (q : DmaReq) (op : AtomicOp) (size : Nat) (operand expected : Word) (s : State) :
    Host.Outcome State Fault Refusal :=
  onData (dmaOk q) s fun d =>
    let ur (d : Dev) : Dev := d.answer q.port 1 [] false
    if !d.receives q.port then d
    else if q.pasidOrAts then ur (d.ioDeny q.rid.toNat true q.addr.toNat)
    else if !(size == 4 || size == 8) || q.addr.toNat % size != 0
        || !(op == .add || op == .swap || op == .cas) then ur d
    else
      match d.ioTo q.rid.toNat q.addr.toNat false with
      | .refused d | .unclaimed d => ur d
      | .window pa d => ur (d.peerRecord q.port pa)
      | .mem _ _ _ d =>
        match d.ioTo q.rid.toNat q.addr.toNat true with
        | .mem pa key _ d =>
          if d.homedHere (pa / 64) then
            let r := d.homeRmw pa size key (fun old => atomicNew op size old operand expected) none
            r.dev.answer q.port 0 (leBytes size r.old) r.poison
          else
            let f := d.drawWord
            f.2.answer q.port 0 (leBytes size f.1.toNat) false
        | .window _ d | .refused d | .unclaimed d => ur d

/-! ### Link retirement (R422) and the reference clock (R423) -/

/-- A candidate link retires its failing lane, or loses a speed step (R422, R342): it retrains. Without a working lane
the port is contained (R343). -/
def State.retirePort (s : State) (pt : Nat) : State :=
  let d := s.dev
  let x := d.port pt
  let d := d.setFld (kpReg R.KPORT_STATUS_CANDIDATE pt) 0
  let u := d.unitAt 2 pt
  let d := d.setUnit 2 pt { u with candidate := false }
  match x.candidateLane with
  | some i =>
    let f := kpReg R.KPORT_STATUS_LANES_RETIRED pt
    let m := d.fld f
    let d := d.setFld f (if natBit m i then m else m + 2 ^ i)
    let d := (d.addRepair (retiredUnit d 2 pt i) 0x0B).log
      { source := 0x0B, inst := pt, cls := 4, action := 3, bucket := u.bucket, location := i }
    let d := d.setPort pt { d.port pt with
      candidateLane := none
      linkUp := false }
    let lanes := d.portLanes pt
    if (List.range lanes.2).all fun k => natBit (d.fld f) (lanes.1 + k) then { s with dev := d }.contain pt
    else { s with dev := d }
  | none =>
    let d := (d.addRepair (retiredUnit d 2 pt (32 + (x.speed - 1))) 0x0B).log
      { source := 0x0B, inst := pt, cls := 4, action := 3, bucket := u.bucket }
    { s with dev := d.setPort pt { d.port pt with
      speed := Nat.max 1 (x.speed - 1)
      linkUp := false } }

/-- A write of `KPORT_RETIRE` (R422, R424). -/
def State.kportRetireWrite (s : State) (pt : Nat) (v : Word) : State :=
  if bitOf v 0 && s.dev.flag (kpReg R.KPORT_STATUS_CANDIDATE pt) then s.retirePort pt else s

/-- KPORT_RETIRE_GO (R422). -/
def execKportRetireGo (req : Requester) (pt : Nat) (v : Word) (s : State) : Host.Outcome State Fault Refusal :=
  if reqOk req && portOk pt then .next (s.kportRetireWrite pt v) else .fault .noSuchUnit

/-- Whether a spread change of controller n takes effect (R423): every port of it is down, or the output is off. -/
def Dev.sscFree (d : Dev) (n : Nat) : Bool :=
  !d.flag (kpReg R.KPORT_CTL_REFCLK_EN (4 * n)) ||
    (List.range 4).all fun p => !(d.port (4 * n + p)).linkUp

/-- The output of controller n follows its register, or the change is held (R423). -/
def Dev.sscApply (d : Dev) (n : Nat) : Dev :=
  let pt := 4 * n
  let x := d.port pt
  let depth := Nat.min 10 (d.fld (kpReg R.KPORT_CTL_SSC_DEPTH pt))
  let rate := Nat.min 6 (d.fld (kpReg R.KPORT_CTL_SSC_RATE pt))
  if x.sscDepth == depth && x.sscRate == rate then d.setFld (kpReg R.KPORT_STATUS_SSC_PENDING pt) 0
  else if d.sscFree n then
    (d.setPort pt { x with sscDepth := depth, sscRate := rate }).setFld (kpReg R.KPORT_STATUS_SSC_PENDING pt) 0
  else d.setFld (kpReg R.KPORT_STATUS_SSC_PENDING pt) 1

/-- SSC_APPLY (R423). -/
def execSscApply (n : Nat) (s : State) : Host.Outcome State Fault Refusal :=
  onDev (decide (n < 20)) s fun d => d.sscApply n

/-! ### Configuration space of a port (R407, R408, R424) -/

/-- A doubleword of a port's configuration space as it reads (log entry 14). -/
def Dev.portCfgRead (d : Dev) (pt k : Nat) : BitVec 32 :=
  let x := d.port pt
  if !d.portThere pt then BitVec.allOnes 32
  else if k == 0 then 0x52801F9E
  else if k == 2 then 0x06040000
  else if k == 3 then
    (if (List.range 4).any fun p => p != pt % 4 && d.portThere (pt / 4 * 4 + p) then 0x00810000 else 0x00010000)
  else if k == 0xD then 0x50
  else if k == 0x14 then (x.dword 0x14 &&& 0x10000) ||| 0x00807005
  else if k == 0x1C then 0x01420010
  else if k == 0x22 then BitVec.ofNat 32 (x.slotCtl.toNat + x.slotStatus.toNat * 2 ^ 16)
  else if k == 0x80 then 0x9001001D
  else if k == 0x82 then BitVec.ofNat 32 (bnat x.dpcStatus)
  else if k == 0x240 then 0x0001000B
  else if k == 0x241 then 0x01800001
  else if k == 0x242 || k == 0x243 || k == 0x245 then
    (d.reg (0x200000000 + 0x1000 * pt + 4 * k)).setWidth 32
  else if k == 0x244 then 0
  else x.dword k

/-- A write of the bytes of a doubleword of a port's configuration space (log entry 14): the fields of port 0 alone are
reserved elsewhere (R424). -/
def State.portCfgWrite (s : State) (pt k : Nat) (mask v : BitVec 32) : State :=
  let d := s.dev
  let x := d.port pt
  let merged (old : BitVec 32) : BitVec 32 := (old &&& ~~~ mask) ||| (v &&& mask)
  if !d.portThere pt then s
  else if k == 0x22 then
    let clear := BitVec.ofNat 16 (((v &&& mask).toNat / 65536) &&& 0x11F)
    let d := d.setPort pt { x with slotStatus := x.slotStatus &&& ~~~ clear }
    if mask.toNat % 65536 != 0 then
      let c := BitVec.ofNat 16 (merged (x.slotCtl.setWidth 32)).toNat
      { s with dev := if d.stewardUp then d.applySlot pt c else d.setPort pt { d.port pt with slotWait := some c } }
    else { s with dev := d }
  else if k == 0x81 then
    let s := { s with dev := d.setPort pt (x.setDword k (merged (x.dword k) &&& ~~~ 0x400000)) }
    if dwF (v &&& mask) 22 1 == 1 then s.contain pt else s
  else if k == 0x82 then
    if dwF (v &&& mask) 0 1 == 1 then { s with dev := d.dpcRelease pt x.partner } else s
  else if k == 0x242 then
    let off := R.KPORT_CTL_BIFURCATE.reg + 0x1000 * pt
    let w := merged ((d.reg off).setWidth 32)
    let w := if pt % 4 == 0 then w else w &&& 8
    { s with dev := (d.writeReg off (w.setWidth 64)).sscApply (pt / 4) }
  else if k == 0x244 then s.kportRetireWrite pt ((v &&& mask).setWidth 64)
  else if k == 0x245 then
    { s with dev := d.writeReg (R.KPORT_COUNT_LOST.reg + 0x1000 * pt) ((v &&& mask).setWidth 64) }
  else if k == 0 || k == 2 || k == 3 || k == 0xD || k == 0x1C || k == 0x80 || k == 0x240 || k == 0x241 || k == 0x243 then s
  else { s with dev := d.setPort pt (x.setDword k (merged (x.dword k))) }

end Sys2Proof.Machine
end

