-- ==== Sys2Proof/Machine/SelfTest.lean ====
section
/-!
DEFINITION. Self-test, injection and repair (R363 to R380): arming an injection, the sliced test and its findings, the
repair record, and the retirement of cache and directory ways.
-/

namespace Sys2Proof.Machine

open Sys2Proof

/-! ### Injection (R364, R368) -/

/-- The number of protected words in a group's largest write (R368). -/
def groupWords (g : Nat) : Nat :=
  if g == 1 then 16
  else if g == 3 || g == 5 || g == 7 || g == 0x10 || g == 0x11 || g == 0x12 || g == 0x16 then 8
  else if g == 0xC then 4 else 1

/-- Whether a group has sets and ways (R363). -/
def groupSets (g : Nat) : Bool := (1 ≤ g && g ≤ 0xB)

/-- Whether an instance of a group exists and is powered (R363, R368). -/
def Dev.instanceOk (d : Dev) (g i : Nat) : Bool :=
  if (1 ≤ g && g ≤ 6) || (0xA ≤ g && g ≤ 0xE) then
    let st := d.coreState i
    i < 288 && st != 0 && st != 2 && st != 4
  else if g == 7 || g == 8 || g == 9 || g == 0x11 then decide (i < 144)
  else if g == 0xF || g == 0x10 then
    let st := d.fld (mcReg R.MC_STATUS_STATE i)
    i < 16 && st != 0 && st != 5 && st != 6
  else if g == 0x12 then decide (i < 8)
  else if g == 0x13 || g == 0x14 then decide (i < 2)
  else if g == 0x15 then i == 0 else i == 1

/-- Whether a mask is one that the checker of a group is guaranteed to correct or detect (R368 policy 1). -/
def Dev.maskBounded (d : Dev) (g i : Nat) : Bool :=
  let f : Flip := ⟨g, i, 0, 0, d.reg (injReg R.INJ_FLIP_MASK g).reg,
    BitVec.ofNat 16 (d.fld (injReg R.INJ_FLIP_CHK_MASK g)), true⟩
  let wd := weight 64 f.mask.toNat
  let wc := weight 8 f.chk.toNat
  if g == 0x10 then
    let x8 := d.flag (mcReg R.MC_CFG_X8 i)
    let devs := (((nibbles f).map (deviceOf x8)).map fun h => h.1).eraseDups.length
    decide (devs ≤ if x8 then 1 else 2)
  else if g == 1 then decide (weight 32 f.mask.toNat + wc % 2 ≤ 1)
  else if g == 2 || g == 4 || g == 6 || g == 8 || g == 0xA || g == 0xB || g == 0xE || g == 0x14 then
    decide (wd + f.chk.toNat % 2 ≤ 1)
  else decide (wd + wc ≤ 2)

/-- Whether an arming is refused (R368). -/
def Dev.armRefused (d : Dev) (g : Nat) : Bool :=
  let i := d.fld (injReg R.INJ_SEL_INSTANCE g)
  let m := d.fld (injReg R.INJ_SEL_MATCH g)
  let p := d.fld R.SELFTEST_CTL_INJ_POLICY
  !d.instanceOk g i || decide (groupWords g ≤ d.fld (injReg R.INJ_SEL_WORD g))
    || m == 3 || (m == 2 && !groupSets g)
    || (d.locked && (p == 0
        || (!(p == 2 && d.flag R.SE_STATUS_DEBUG) && (g == 0x13 || !d.maskBounded g i))))

/-- A write of `INJ_ARM` of a group (R368, R380). -/
def Dev.injArmWrite (d : Dev) (g : Nat) (v : Word) : Dev :=
  let d := d.writeReg (injReg R.INJ_ARM_ARM g).reg v
  if bitOf v 0 && d.armRefused g then
    (d.setFld (injReg R.INJ_ARM_ARM g) 0).setFld (injReg R.INJ_ARM_REFUSED g) 1
  else d

/-- INJECTION_ARM (R368): a write of `INJ_ARM` of group grp. -/
def execInjectionArm (req : Requester) (grp : Nat) (v : Word) (s : State) : Host.Outcome State Fault Refusal :=
  onDev (reqOk req && decide (1 ≤ grp) && decide (grp ≤ 22)) s fun d => d.injArmWrite grp v

/-! ### The repair record (R376 to R379) -/

/-- The spares of a kind taken in a sub-array (R374). -/
def Dev.sparesUsed (d : Dev) (typ grp inst sub : Nat) : Nat :=
  (d.repairs.filter fun r => r.typ == typ && r.group == grp && r.inst == inst && r.sub == sub).length

/-- Whether an instance of a group is smaller than 32 KiB, and so has 2 spare rows in all (R363, R374). -/
def smallGroup (g : Nat) : Bool :=
  g == 0xA || g == 0xB || g == 0xC || g == 0xD || g == 0xE || g == 0xF || g == 0x11

/-- The spare rows of a sub-array. -/
def spareRows (g : Nat) : Nat := if smallGroup g then 2 else 4

/-- The SOURCE of an array group (R345, R363). -/
def groupSource (g : Nat) : Nat :=
  if g == 1 || g == 2 then 4 else if g == 3 || g == 4 then 5 else if g == 5 || g == 6 then 6
  else if g == 7 || g == 8 then 7 else if g == 9 then 8 else if g == 0xF || g == 0x10 then 1
  else if g == 0x11 then 9 else if g == 0x12 then 2 else if g == 0x13 then 0xF else if g == 0x14 then 0xD
  else if g == 0x15 then 0x15 else if g == 0x16 then 0xE else 0x13

/-! ### Retirement of ways and slices (R198, R199, R242, R343) -/

/-- The tiles whose slice keeps a usable way. -/
def Dev.usableSlices (d : Dev) : List Nat :=
  (List.range 144).filter fun t => d.fld (R.LLC_CTL_RETIRED.at (0x10000 * t)) != 4095

/-- The lines of a hash index that the LLC holds. -/
def Dev.llcOfIndex (d : Dev) (i : Nat) : List Nat :=
  (d.llc.filter fun kv => kv.2.isSome && hashIndex kv.1 == i).map fun kv => kv.1

/-- Hash index i moves to a tile (R199): dirty lines are written back, the others invalidated, the entry rewritten. -/
def Dev.moveIndex (d : Dev) (i t : Nat) : Dev :=
  let d := d.setFld (R.SLICE_MAP_MOVING.at (8 * i)) 1
  let d := (d.llcOfIndex i).foldl (fun d g =>
    let d := (d.llcEvict g).setDir g { d.dir g with llcd := false, llcway := 0 }
    if (d.dir g).st == .uncached && (d.txn g).isNone then d.closeTxn g else d) d
  (d.setFld (R.SLICE_MAP_TILE.at (8 * i)) t).setFld (R.SLICE_MAP_MOVING.at (8 * i)) 0

/-- The indices of tiles without a usable way go, in ascending order, to the tiles that have one (R198, R343). -/
def Dev.remapSlices (d : Dev) : Dev :=
  let good := d.usableSlices
  let bad := (List.range 144).filter fun t => !good.contains t
  (List.range bad.length).foldl (fun d k =>
    match bad[k]?, good[k % good.length]? with
    | some i, some t => if d.fld (R.SLICE_MAP_TILE.at (8 * i)) == t then d else d.moveIndex i t
    | _, _ => d) d

/-- An LLC way is retired (R343): emptied, out of use; a slice without ways gives up its indices. -/
def Dev.retireLlcWay (d : Dev) (t w : Nat) : Dev :=
  let d := (d.flushWay t w).setFld (llcCtl t w) 0
  let d := ((d.setFld (llcCtl t (24 + w)) 0).setFld (llcCtl t (36 + w)) 1)
  let u := d.unitAt 5 (12 * t + w)
  let d := d.setUnit 5 (12 * t + w) { u with retired := true, candidate := false }
  let d := (d.addRepair (retiredUnit d 5 t w) 7).log
    { source := 7, inst := t, cls := 4, action := 3, bucket := u.bucket, location := 7 + w * 2 ^ 24 }
  if d.fld (R.LLC_CTL_RETIRED.at (0x10000 * t)) == 4095 then d.remapSlices else d

/-- A directory register of slice t. -/
def dirReg (f : Field) (t : Nat) : Field := f.at (0x10000 * t)

/-- The lines of slice t that stand in a way of the directory. -/
def Dev.dirWayLines (d : Dev) (t w : Nat) : List Nat :=
  (d.dirs.filter fun kv => hashIndex kv.1 == t && kv.2.way == w && kv.2.valid).map fun kv => kv.1

/-- A line leaves the directory (R242): every copy here is written back and invalidated. -/
def Dev.purgeLine (d : Dev) (g : Nat) : Dev :=
  let d := (d.holders g).foldl (fun d c => d.flushLine c g) d
  let d := (d.llcEvict g).setDir g { ownseq := (d.dir g).ownseq }
  d

/-- A directory way is retired, unless fewer than 4 would stay usable: then it stays in service and its uncorrectable
words are purged, with a persistent correctable record (R343). -/
def Dev.retireDirWay (d : Dev) (t w : Nat) : Dev :=
  let n := d.fld (dirReg R.DIR_STATUS_USABLE t)
  let inst := 8 * t + w
  let u := d.unitAt 6 inst
  if n ≤ 4 then
    (d.setUnit 6 inst { u with candidate := false }).log { source := 8, inst := t, cls := 1, action := 7, bucket := u.bucket }
  else
    let d := (d.dirWayLines t w).foldl (fun d g => d.purgeLine g) d
    let d := d.setFld (dirReg R.DIR_STATUS_USABLE t) (n - 1)
    let d := d.setFld ⟨(dirReg R.DIR_STATUS_RETIRED t).reg, (dirReg R.DIR_STATUS_RETIRED t).lo + w, 1⟩ 1
    let d := d.setUnit 6 inst { u with retired := true, candidate := false }
    (d.addRepair (retiredUnit d 6 t w) 8).log
      { source := 8, inst := t, cls := 4, action := 3, bucket := u.bucket, location := 9 + w * 2 ^ 24 }

/-! ### Findings of a sliced test (R374) -/

/-- Whether a group's fault counts against its core (R343, R374). -/
def coreGroup (g : Nat) : Bool := (1 ≤ g && g ≤ 6) || (0xA ≤ g && g ≤ 0xE)

/-- Whether an array can disable a way or an entry of its own (R343). -/
def disablesEntry (g : Nat) : Bool := g == 0xA || g == 0xB || g == 0xE || g == 0x14

/-- No spare is left in a sub-array (R343, R374). -/
def Dev.noSpare (d : Dev) (g i sub : Nat) : Dev :=
  let d := d.log { source := groupSource g, inst := i, cls := 4, action := 7, location := g }
  if 1 ≤ g && g ≤ 6 then d.candidate 4 i 1 0
  else if g == 7 || g == 8 then d.retireLlcWay i (sub / 8 % 12)
  else if g == 9 then d.retireDirWay i (sub / 8 % 8)
  else if disablesEntry g then d
  else d.log { source := groupSource g, inst := i, cls := 3, location := g }

/-- Maps a spare row or column (R374, R376), with its records. -/
def Dev.mapSpare (d : Dev) (typ g i sub loc : Nat) : Dev :=
  let n := d.sparesUsed typ g i sub
  if (if typ == 1 then spareRows g else 1) ≤ n then d.noSpare g i sub
  else
    (d.addRepair ⟨typ, 7, g, i, sub, loc, n, false, false, d.frame⟩ (groupSource g)).log
      { source := groupSource g, inst := i, cls := 4, action := 3, location := g + loc * 256 }

/-- What hardware does with a finding (R374). -/
def Dev.repairFinding (d : Dev) (f : SliceFinding) : Dev :=
  match f with
  | .clean => d
  | .row g i sub row => d.mapSpare 1 g i sub row
  | .column g i sub col => d.mapSpare 2 g i sub col
  | .checker g i sub =>
    let retired (d : Dev) := d.log { source := groupSource g, inst := i, cls := 4, action := 3, location := g }
    if coreGroup g then (retired d).candidate 4 i 1 0
    else if g == 7 || g == 8 then d.retireLlcWay i (sub / 8 % 12)
    else if g == 9 then d.retireDirWay i (sub / 8 % 8)
    else d.log { source := groupSource g, inst := i, cls := 3, location := g }

/-! ### The test engines (R371 to R375) -/

/-- A register of test engine e. -/
def sliceReg' (f : Field) (e : Nat) : Field := f.at (0x40 * e)

def Dev.engine (d : Dev) (e : Nat) : Engine := SMap.get (fun _ => {}) d.engines e
def Dev.setEngine (d : Dev) (e : Nat) (x : Engine) : Dev :=
  { d with engines := SMap.set (fun _ => {}) d.engines e x }

/-- The slices of an engine (R373). -/
def sliceTotal (e : Nat) : Nat := if e < 4 then 85864 else if e == 4 then 5144 else 7176

/-- Whether this frame is engine e's slot (R371). -/
def Dev.sliceSlot (d : Dev) (e : Nat) : Bool :=
  let p := Nat.max 16 (d.fld (sliceReg' R.SLICE_CTL_PERIOD e))
  d.frame.toNat % p == e * (p / 6)

/-- A slice that falls due at a tick (R371, R375): in assisted mode DUE is set and an event raised. -/
def Dev.sliceTick (d : Dev) (e : Nat) : Dev :=
  if d.flag (sliceReg' R.SLICE_CTL_EN e) && d.phase == .running && d.sliceSlot e then
    let d := d.setEngine e { d.engine e with owed := true }
    if d.duty 8 && !d.flag (sliceReg' R.SLICE_STATUS_DUE e) then
      (d.setFld (sliceReg' R.SLICE_STATUS_DUE e) 1).dutyEvent
    else d
  else d

/-- The rotation goes on (R373); a pass ends at the last slice. -/
def Dev.sliceNext (d : Dev) (e : Nat) : Dev :=
  let p := d.fld (sliceReg' R.SLICE_STATUS_POSITION e) + 1
  if p < sliceTotal e then d.setFld (sliceReg' R.SLICE_STATUS_POSITION e) p
  else
    let len := Nat.min (d.frame.toNat - (d.engine e).start.toNat) (2 ^ 31 - 1)
    let d := (d.setFld (sliceReg' R.SLICE_STATUS_POSITION e) 0).setFld (sliceReg' R.SLICE_STATUS_LAST_PASS e) len
    (d.setFld (sliceReg' R.SLICE_STATUS_PASS_DONE e) 1).setEngine e { d.engine e with start := d.frame }

/-- `SLICE_FAIL` holds a finding (R375). -/
def Dev.showFinding (d : Dev) (e : Nat) (f : SliceFinding) : Dev :=
  let off := (sliceReg' R.SLICE_FAIL_GROUP e).reg
  let w (g i loc col : Nat) : Word :=
    word (g % 256 + i % 65536 * 2 ^ 8 + loc % 65536 * 2 ^ 24 + col * 2 ^ 40 + 2 ^ 41)
  let d := d.setEngine e { d.engine e with held := f }
  match f with
  | .clean => d.setReg off 0
  | .row g i _ r => (d.setReg off (w g i r 0)).dutyEvent
  | .column g i _ c => (d.setReg off (w g i c 1)).dutyEvent
  | .checker g i _ => (d.setReg off (w g i 0 0)).dutyEvent

/-- SLICE_TEST (R372, R374, R375): engine e runs a slice; in assisted mode only one that software released, and its
finding is held for software. -/
def execSliceTest (e : Nat) (finding : SliceFinding) (s : State) : Host.Outcome State Fault Refusal :=
  onData (decide (e < 6)) s fun d =>
    let x := d.engine e
    if !d.flag (sliceReg' R.SLICE_CTL_EN e) || d.phase != .running then d
    else if d.duty 8 then
      match x.go with
      | none => d
      | some k =>
        let p := d.fld (sliceReg' R.SLICE_STATUS_POSITION e)
        let d := d.setEngine e { x with go := none, owed := false, misses := 0 }
        let d := d.setFld (sliceReg' R.SLICE_STATUS_DUE e) 0
        let d := if k == p then d.sliceNext e else d
        if finding == .clean then d else d.showFinding e finding
    else
      ((d.setEngine e { x with owed := false, misses := 0 }).sliceNext e).repairFinding finding

/-- A write of `SLICE_GO` of engine e (R375). -/
def Dev.sliceGoWrite (d : Dev) (e : Nat) (v : Word) : Dev :=
  let x := d.engine e
  let k := getF v 0 24
  let due := d.flag (sliceReg' R.SLICE_STATUS_DUE e)
  let p := d.fld (sliceReg' R.SLICE_STATUS_POSITION e)
  let d := if bitOf v 24 && d.duty 8 && (due || k != 0xFFFFFF) then
      d.setEngine e { x with go := some (if k == 0xFFFFFF then p else k) }
    else d
  if d.flag (sliceReg' R.SLICE_FAIL_VALID e) && (bitOf v 25 || bitOf v 26) then
    let f := (d.engine e).held
    let d := d.showFinding e .clean
    if bitOf v 25 then d.repairFinding f else d
  else d

/-- SLICE_GO (R375): a write of `SLICE_GO`. -/
def execSliceGo (req : Requester) (e : Nat) (v : Word) (s : State) : Host.Outcome State Fault Refusal :=
  onDev (reqOk req && decide (e < 6)) s fun d => d.sliceGoWrite e v

/-- SLICE_REPAIR (R375): a write of `SLICE_GO`. -/
def execSliceRepair (req : Requester) (e : Nat) (v : Word) (s : State) : Host.Outcome State Fault Refusal :=
  onDev (reqOk req && decide (e < 6)) s fun d => d.sliceGoWrite e v

/-- SLICE_SKIP (R375): a write of `SLICE_GO`. -/
def execSliceSkip (req : Requester) (e : Nat) (v : Word) (s : State) : Host.Outcome State Fault Refusal :=
  onDev (reqOk req && decide (e < 6)) s fun d => d.sliceGoWrite e v

/-! ### The repair window (R377, R380) -/

/-- The bits of a repair-record entry, without its check. -/
def Repair.bits (r : Repair) : Nat :=
  r.typ % 16 + r.kind % 16 * 2 ^ 4 + r.group % 256 * 2 ^ 8 + r.inst % 65536 * 2 ^ 16 + r.sub % 65536 * 2 ^ 32
    + r.loc % 65536 * 2 ^ 48 + r.spare % 256 * 2 ^ 64 + bnat r.fused * 2 ^ 72 + bnat r.fuseBad * 2 ^ 73
    + r.frame.toNat * 2 ^ 128

end Sys2Proof.Machine
end

