-- ==== Sys2Proof/Machine/Mailbox.lean ====
section
/-!
DEFINITION. The three mailboxes of the data plane (R29, R406, R442, R508): the SE's, the steward's and the Ledger
Engine's PF mailbox: claims, writes, and how a command is served and completes (R400, R540).
-/

namespace Sys2Proof.Machine

open Sys2Proof

/-- A data-plane mailbox. -/
inductive Box
  | se | stw | pf
  deriving DecidableEq, Repr

/-- The offsets of a mailbox's claim, command and status registers; the PF mailbox has no claim. -/
def Box.claimOff : Box → Nat
  | .se => R.MB_CLAIM_HELD.reg
  | .stw | .pf => R.SMB_CLAIM_HELD.reg
def Box.cmdOff : Box → Nat
  | .se => R.MB_CMD_CODE.reg
  | .stw => R.SMB_CMD_CODE.reg
  | .pf => R.MBX_CMD_CODE.reg
def Box.statusOff : Box → Nat
  | .se => R.MB_STATUS_RESULT.reg
  | .stw => R.SMB_STATUS_RESULT.reg
  | .pf => R.MBX_STATUS_RESULT.reg

/-- A field of a mailbox's claim, command or status register: the three have one layout (R442, R508). -/
def Box.claim (b : Box) (f : Field) : Field := { f with reg := b.claimOff }
def Box.cmd (b : Box) (f : Field) : Field := { f with reg := b.cmdOff }
def Box.status (b : Box) (f : Field) : Field := { f with reg := b.statusOff }

/-- A mailbox's buffer and claim. -/
def Dev.box (d : Dev) : Box → Mailbox
  | .se => d.seBox
  | .stw => d.stwBox
  | .pf => d.pfBox

def Dev.setBox (d : Dev) (b : Box) (m : Mailbox) : Dev :=
  match b with
  | .se => { d with seBox := m }
  | .stw => { d with stwBox := m }
  | .pf => { d with pfBox := m }

/-- Whether a requester is a strand at H (R406). -/
def State.atH (s : State) (r : Requester) : Bool :=
  match r with
  | .strand g => (s.strand g).pl == 2
  | .other => false

/-- A mailbox of the firmware that `stw` names. -/
def boxOf (stw : Bool) : Box := if stw then .stw else .se

/-- A read of a claim register (R406): by a strand at H it claims a free channel. -/
def State.claimBox (s : State) (b : Box) (r : Requester) : State :=
  if s.atH r && (s.dev.box b).claimer.isNone then
    let d := s.dev.setBox b { s.dev.box b with claimer := some r }
    let d := d.setFld (b.claim R.MB_CLAIM_HELD) 1
    { s with dev := d.setFld (b.claim R.MB_CLAIM_OWNER) (d.requesterId r) }
  else s

/-- The channel becomes free. -/
def Dev.freeBox (d : Dev) (b : Box) : Dev :=
  let d := d.setBox b { d.box b with claimer := none }
  (d.setFld (b.claim R.MB_CLAIM_HELD) 0).setFld (b.claim R.MB_CLAIM_OWNER) 0

/-- A write that R406 ignores. -/
def Dev.rejectBox (d : Dev) (b : Box) : Dev := d.setFld (b.status R.MB_STATUS_REJECTED) 1

/-- Whether a requester holds a channel's claim. -/
def Dev.holdsBox (d : Dev) (b : Box) (r : Requester) : Bool := (d.box b).claimer == some r

/-- A write of a claim register (R406): the holder releases the channel. -/
def State.claimWrite (s : State) (b : Box) (r : Requester) (v : Word) : State :=
  if !(s.atH r && s.dev.holdsBox b r) then { s with dev := s.dev.rejectBox b }
  else if bitOf v 14 then { s with dev := s.dev.freeBox b }
  else s

/-- MB_CLAIM (R406): a read of a claim register. -/
def execMbClaim (req : Requester) (stw : Bool) (s : State) : Host.Outcome State Fault Refusal :=
  if reqOk req then .next (s.claimBox (boxOf stw) req) else .fault .noSuchUnit

/-- MB_RELEASE (R406): a write of a claim register. -/
def execMbRelease (req : Requester) (stw : Bool) (v : Word) (s : State) : Host.Outcome State Fault Refusal :=
  if reqOk req then .next (s.claimWrite (boxOf stw) req v) else .fault .noSuchUnit

/-- MB_CLAIM_LAPSE (R406): 100 ms without an access of the holder. -/
def execMbClaimLapse (stw : Bool) (s : State) : Host.Outcome State Fault Refusal :=
  onDev true s fun d => d.freeBox (boxOf stw)

/-! ### Serving a command -/

/-- Whether a command with a code is in progress in a mailbox. -/
def Dev.boxWaits (d : Dev) (b : Box) (code : Nat) : Bool :=
  d.flag (b.status R.MB_STATUS_BUSY) && d.fld (b.cmd R.MB_CMD_CODE) == code

/-- The request in a mailbox's buffer. -/
def Dev.boxRequest (d : Dev) (b : Box) : List Byte :=
  (List.range (d.fld (b.cmd R.MB_CMD_LENGTH))).map fun i => SMap.get (fun _ => 0) (d.box b).buf i

/-- A buffer that holds bytes. -/
def bufOf (bs : List Byte) : SMap Byte :=
  (List.range bs.length).foldl (fun m i => SMap.set (fun _ => 0) m i ((bs[i]?).getD 0)) []

/-- The socket event line that a mailbox's completion raises (R479). -/
def Dev.boxEvent (d : Dev) : Box → Dev
  | .se => d.routeEvent 3
  | .stw => d.routeEvent 2
  | .pf => d

/-- A command completes (R406): its status, and the response in place of the request; any status but OK has no
response. -/
def Dev.boxDone (d : Dev) (b : Box) (status : Nat) (resp : List Byte) : Dev :=
  let d := d.setBox b { d.box b with buf := bufOf resp }
  let d := (d.setFld (b.status R.MB_STATUS_RESULT) status).setFld (b.status R.MB_STATUS_RLENGTH) resp.length
  let d := (d.setFld (b.status R.MB_STATUS_BUSY) 0).setFld (b.status R.MB_STATUS_QUEUED) 0
  d.boxEvent b

/-- The status codes (R400). -/
abbrev stOk : Nat := 0
abbrev stBusy : Nat := 1
abbrev stUnavailable : Nat := 2
abbrev stBadCommand : Nat := 3
abbrev stBadState : Nat := 4
abbrev stBadPage : Nat := 5
abbrev stNoSlot : Nat := 6
abbrev stNoDomain : Nat := 7
abbrev stDenied : Nat := 8
abbrev stLocked : Nat := 9
abbrev stVerifyFailed : Nat := 0xA

/-- What a command gives: its status, its response, and the device after it. -/
structure Reply where
  status : Nat
  resp : List Byte
  dev : Dev
  deriving DecidableEq, Repr

/-- A refused command: no effect. -/
def Dev.refuse (d : Dev) (status : Nat) : Reply := ⟨status, [], d⟩

/-- A command done with an empty response. -/
def Dev.done (d : Dev) : Reply := ⟨stOk, [], d⟩

/-- Serves the command of a mailbox that waits with a code; during an update of the server it stays queued (R30). -/
def Dev.serve (d : Dev) (b : Box) (code : Nat) (up : Bool) (f : List Byte → Dev → Reply) : Dev :=
  if !d.boxWaits b code then d
  else if !up then d.setFld (b.status R.MB_STATUS_QUEUED) 1
  else
    let r := f (d.boxRequest b) d
    r.dev.boxDone b r.status r.resp

/-- Serves a command of the SE's data-plane mailbox; a halted SE answers UNAVAILABLE (R30, R400). -/
def Dev.serveSe (d : Dev) (b : Box) (code : Nat) (f : List Byte → Dev → Reply) : Dev :=
  let st := d.fld R.SE_STATUS_STATE
  d.serve b code (st == 1 || st == 3) fun q d => if st == 3 then d.refuse stUnavailable else f q d

/-- Serves a command of a channel of the steward (R508): the management channel answers at once. -/
def Dev.serveStw (d : Dev) (ch : Channel) (code : Nat) (f : List Byte → Dev → Reply) : Dev :=
  let up := d.fld R.STW_STATUS_STATE == 1
  match ch with
  | .mailbox => d.serve .stw code up f
  | .pfMailbox => d.serve .pf 0x70 up f
  | .mctp =>
    if up then
      let r := f [] d
      { r.dev with
        fw := { r.dev.fw with
          response := r.resp
          result := r.status } }
    else d

/-- The codes that a mailbox knows (R406, R442, R509). -/
def Box.knows (b : Box) (code : Nat) : Bool :=
  match b with
  | .se => [0x20, 0x21, 0x30, 0x31, 0x40, 0x41, 0x50, 0x60, 0x61].contains code
  | .stw => [0x01, 0x10, 0x11, 0x12, 0x20, 0x21, 0x30, 0x31, 0x40, 0x41, 0x42, 0x43].contains code
  | .pf => code == 0x50 || code == 0x70

/-- A write of a command register takes effect (R406, R442): GO starts the command; an unknown code, or a request
beyond the buffer, completes with BAD_COMMAND; while a command is in progress GO does nothing. -/
def Dev.cmdWrite (d : Dev) (b : Box) (v : Word) : Dev :=
  if d.flag (b.status R.MB_STATUS_BUSY) then d
  else
    let d := (d.setFld (b.cmd R.MB_CMD_CODE) (getF v 0 8)).setFld (b.cmd R.MB_CMD_LENGTH) (getF v 8 13)
    if !bitOf v 21 then d
    else
      let d := d.setFld (b.status R.MB_STATUS_BUSY) 1
      if !b.knows (getF v 0 8) || 4096 < getF v 8 13 then d.boxDone b stBadCommand [] else d

/-- A write into a claimed mailbox's block by a requester (R406): only the holder's writes take effect. -/
def State.boxWrite (s : State) (b : Box) (r : Requester) (f : Dev → Dev) : State :=
  if s.atH r && s.dev.holdsBox b r then { s with dev := f s.dev } else { s with dev := s.dev.rejectBox b }

/-- Eight bytes written into a mailbox's buffer. -/
def Dev.bufWrite (d : Dev) (b : Box) (off : Nat) (v : Word) : Dev :=
  let m := d.box b
  let buf := (List.range 8).foldl
    (fun x i => SMap.set (fun _ => 0) x (off + i) ((leBytes 8 v.toNat)[i]?.getD 0)) m.buf
  d.setBox b { m with buf := buf }

/-- Eight bytes of a mailbox's buffer. -/
def Dev.bufRead (d : Dev) (b : Box) (off : Nat) : Word :=
  word (leNat ((List.range 8).map fun i => SMap.get (fun _ => 0) (d.box b).buf (off + i)))

/-- SMB_QUEUE_TIMEOUT (R508): a command queued for 20 ms at the steward completes with UNAVAILABLE. -/
def execSmbQueueTimeout (s : State) : Host.Outcome State Fault Refusal :=
  onDev true s fun d =>
    if d.flag (Box.stw.status R.MB_STATUS_QUEUED) then d.boxDone .stw stUnavailable [] else d

end Sys2Proof.Machine
end

