-- ==== Sys2Proof/Machine/Security.lean ====
section
/-!
DEFINITION. The security engine (R381 to R406): key slots, the SE mailbox commands, the fuse session (R379), the
debug lock, attestation (R387), and what takes a page away from a party (R396). Cryptography is uninterpreted (log
entry 6): a key is an identity, a digest and a signature are opaque functions.
-/

namespace Sys2Proof.Machine

open Sys2Proof

/-! ### Key slots (R389, R391) -/

/-- The number of slots that are not empty. -/
def Dev.keyCount (d : Dev) : Nat :=
  (d.slots.filter fun kv => kv.2.cls != 0).length + (if d.slots.any fun kv => kv.1 == 0 then 0 else 1)

/-- The number of domains. -/
def Dev.domainCount (d : Dev) : Nat := (d.domains.filter fun kv => kv.2.isSome).length

/-- SE_STATUS shows the slots and domains (R406). -/
def Dev.showSe (d : Dev) : Dev :=
  (d.setFld R.SE_STATUS_KEYS d.keyCount).setFld R.SE_STATUS_DOMAINS d.domainCount

/-- A slot takes a fresh key of a class. -/
def Dev.freshKey (d : Dev) (slot cls dom : Nat) : Dev :=
  { d.setSlot slot ⟨cls, d.nextKey, dom⟩ with nextKey := d.nextKey + 1 }.showSe

/-- A slot is emptied. -/
def Dev.clearSlot (d : Dev) (slot : Nat) : Dev := (d.setSlot slot ⟨0, 0, 0⟩).showSe

/-- The lowest empty slot (R397). -/
def Dev.freeSlot (d : Dev) : Option Nat := (List.range 65536).find? fun k => (d.slot k).cls == 0

/-- KEY_GENERATE (R389, R406, R540). -/
def execKeyGenerate (s : State) : Host.Outcome State Fault Refusal :=
  onDev true s fun d => d.serveSe .se 0x20 fun q d =>
    let x := leNat q
    let slot := x % 65536
    let cls := x / 65536 % 256
    if d.fw.randomBad then d.refuse stUnavailable
    else if q.length != 8 || x / 2 ^ 24 != 0 || !(cls == 1 || cls == 2) then d.refuse stBadCommand
    else if (d.slot slot).cls != 0 then d.refuse stBadState
    else (d.freshKey slot cls 0).done

/-- KEY_CLEAR (R389, R406, R540): slot 0 cannot be cleared. -/
def execKeyClear (s : State) : Host.Outcome State Fault Refusal :=
  onDev true s fun d => d.serveSe .se 0x21 fun q d =>
    let x := leNat q
    let slot := x % 65536
    let cls := (d.slot slot).cls
    if q.length != 8 || x / 2 ^ 16 != 0 then d.refuse stBadCommand
    else if !(cls == 1 || cls == 2) then d.refuse stBadState
    else if slot == 0 then d.refuse stNoSlot
    else (d.clearSlot slot).done

/-! ### Versions and fuses (R379, R385) -/

/-- The running image of a component. -/
def Dev.running (d : Dev) (c : Nat) : ImageId := SMap.get (fun _ => {}) d.fw.running c

/-- The fused security version of a component (R385). -/
def Dev.fusedSvn (d : Dev) (c : Nat) : Nat := SMap.get (fun _ => 0) d.fw.svn c

/-- The components of R382. -/
def components : List Nat := [1, 2, 3, 4, 5]

/-- ROLLBACK_COMMIT (R385): every counter rises to the SVN that runs; none is lowered. -/
def execRollbackCommit (s : State) : Host.Outcome State Fault Refusal :=
  onDev true s fun d => d.serveSe .se 0x30 fun _ d =>
    let svn := components.foldl
      (fun m c => SMap.set (fun _ => 0) m c (Nat.max (d.fusedSvn c) (d.running c).svn)) d.fw.svn
    { d with fw := { d.fw with svn := svn } }.done

/-- The 16-bit indices of a request. -/
def indices : List Byte → List Nat
  | a :: b :: bs => leNat [a, b] :: indices bs
  | _ => []

/-- Whether a rail is outside its limits, as its brown-out flag tells (R379). -/
def Dev.railsBad (d : Dev) : Bool := (List.range 10).any fun r => d.flag (R.RAIL_BROWNOUT.at (8 * r))

/-- Burns the i-th soft entry that a session names (R379): a failed burn sets FUSE_BAD and takes the next entry; with
none left the entry stays soft. -/
def Dev.burn (d : Dev) (i : Nat) (bad : Bool) : Dev :=
  match d.repairs[i]? with
  | none => d
  | some r =>
    let free := d.fld R.REPAIR_STATUS_FUSE_FREE
    let need := if bad then 2 else 1
    let ok := need ≤ free
    let r' := { r with
      fuseBad := r.fuseBad || bad
      fused := ok }
    let d := { d with
      repairs := d.repairs.set i r'
      fw := { d.fw with fuses := if ok then d.fw.fuses ++ [r'] else d.fw.fuses } }
    d.setFld R.REPAIR_STATUS_FUSE_FREE (free - Nat.min need free)

/-- FUSE_SESSION (R379, R406): up to 64 soft entries; the entries named and not soft, a drain, and a rail outside its
limits refuse it. -/
def execFuseSession (bad : BitVec 64) (s : State) : Host.Outcome State Fault Refusal :=
  onDev true s fun d => d.serveSe .se 0x31 fun q d =>
    let is := indices q
    if q.length % 2 != 0 || 128 < q.length then d.refuse stBadCommand
    else if d.phase == .drain || d.railsBad || d.fld R.REPAIR_STATUS_FUSE_FREE < is.length
      || is.any fun i => (match d.repairs[i]? with
        | none => true
        | some r => r.fused || !(1 ≤ r.typ && r.typ ≤ 3)) then d.refuse stBadState
    else ((List.range is.length).foldl (fun d k => d.burn ((is[k]?).getD 0) (natBit bad.toNat k)) d).done

/-! ### Pages that change hands (R393, R396) -/

/-- The lines of a page. -/
def pageLines (page : Nat) : List Nat := (List.range 64).map fun i => 64 * page + i

/-- A line leaves every cache (R390, R396): dirty data goes to memory. -/
def Dev.expel (d : Dev) (g : Nat) : Dev :=
  if !d.homedHere g then d
  else
    let r := d.gather g 0
    if r.dirty then r.dev.homeWrite g r.key r.line r.poison false none else r.dev

/-- Every cached translation of the socket is removed (R396 items 2 and 3): `TINV.H.ALL` with `TSYNC`, and I/O
`INV_ALL`. -/
def Dev.dropTranslations (d : Dev) : Dev := { d with
  tlb := []
  iotlb := []
  dtcache := []
  tinvs := [] }

/-- What a command does that takes pages away from any party (R396). -/
def Dev.takeAway (d : Dev) (pages : List Nat) : Dev :=
  ((pages.flatMap pageLines).foldl (fun d g => d.expel g) d).dropTranslations

/-- A page's entry of the POT is set (R393). -/
def Dev.setPot (d : Dev) (page : Nat) (p : Pot) : Dev :=
  { d with pot := SMap.set (fun _ => ⟨0, 0, 0, 0⟩) d.pot page p }

/-- A page is zeroed under a KEYID (R395). -/
def Dev.zeroPage (d : Dev) (page keyid : Nat) : Dev :=
  (pageLines page).foldl
    (fun d g => if d.homedHere g then d.homeWrite g keyid 0 false false none else d) d

/-- The pages of a domain in some states. -/
def Dev.pagesOf (d : Dev) (dom : Nat) (states : List Nat) : List Nat :=
  (d.pot.filter fun kv => kv.2.dom == dom && states.contains kv.2.st).map fun kv => kv.1

/-- DESTROY's effect (R395): the domain's slots are cleared, its pages become DEAD, its state areas HOST, its ID is
free. -/
def Dev.destroyDomain (d : Dev) (dom : Nat) : Dev :=
  match d.domain dom with
  | none => d
  | some m =>
    let pages := d.pagesOf dom [1, 2]
    let d := d.takeAway pages
    let d := pages.foldl (fun d p => d.setPot p ⟨3, dom, 0, 0⟩) d
    let d := (List.range m.vcpus.length).foldl (fun d i => d.setPot (m.areas + i) ⟨0, 0, 0, 0⟩) d
    let d := d.clearSlot m.key3
    let d := match m.key4 with
      | some k => d.clearSlot k
      | none => d
    (d.setDomain dom none).showSe

/-- The engine forgets the last sealed exits from the domains that end (R399): an ID that is used again names another
domain. -/
def State.forgetExits (s : State) (p : Nat → Bool) : State :=
  { s with
    strands := SMap.filterMap (fun _ => Strand.reset)
      (fun _ x => some { x with lastExit := x.lastExit.filter fun e => !p e.1 }) s.strands }

/-! ### The debug lock (R405) -/

/-- 32 random bytes of the SE's source (R381). -/
def Dev.random32 (d : Dev) : List Byte × Dev :=
  let a := d.drawRandom
  let b := a.2.drawRandom
  let c := b.2.drawRandom
  let e := c.2.drawRandom
  ([a.1, b.1, c.1, e.1].flatMap fun w => leBytes 8 w.toNat, e.2)

/-- DEBUG_NONCE (R405). -/
def execDebugNonce (s : State) : Host.Outcome State Fault Refusal :=
  onDev true s fun d => d.serveSe .se 0x40 fun _ d =>
    if d.fw.randomBad then d.refuse stUnavailable
    else
      let n := d.random32
      ⟨stOk, n.1, { n.2 with fw := { n.2.fw with nonce := some n.1 } }⟩

/-- DEBUG_UNLOCK (R405): refused while any strand runs sealed, and for a token that does not verify, as one without a
nonce; else every domain is destroyed and debug is unlocked until the next cold reset. -/
def execDebugUnlock (tokenOk : Bool) (s : State) : Host.Outcome State Fault Refusal :=
  let sealedAny := s.strands.any fun kv => kv.2.sealedB
  let unlocks := s.dev.boxWaits .se 0x41 && s.dev.fld R.SE_STATUS_STATE == 1 && !sealedAny && tokenOk
    && s.dev.fw.nonce.isSome
  onDev true (if unlocks then s.forgetExits fun _ => true else s) fun d => d.serveSe .se 0x41 fun _ d =>
    if sealedAny then d.refuse stBadState
    else if !tokenOk || d.fw.nonce.isNone then d.refuse stVerifyFailed
    else
      let d := (d.domains.map fun kv => kv.1).foldl (fun d i => d.destroyDomain i) d
      let d := (d.slots.filter fun kv => kv.2.cls == 3 || kv.2.cls == 4).foldl (fun d kv => d.clearSlot kv.1) d
      (d.setFld R.SE_STATUS_DEBUG 1).done

/-! ### Links and PCI Express IDE (R404) -/

/-- LINK_SECRET_GEN (R404): before boot-lock; the SE copies the secret to every socket over the chain. -/
def execLinkSecretGen (s : State) : Host.Outcome State Fault Refusal :=
  onDev true s fun d => d.serveSe .se 0x60 fun _ d =>
    if d.fw.randomBad then d.refuse stUnavailable
    else if d.locked then d.refuse stLocked
    else
      let n := d.random32
      let d := { n.2 with fw := { n.2.fw with linkSecret := some n.1 } }.setFld R.SE_STATUS_LINK_SECRET 1
      (d.chainSend 0x40 []).done

/-- IDE_KEY_SET (R404): a port, a stream and its key set; a port has four selective streams and its link stream. -/
def execIdeKeySet (s : State) : Host.Outcome State Fault Refusal :=
  onDev true s fun d => d.serveSe .se 0x61 fun q d =>
    let port := ((q[0]?).getD 0).toNat
    let stream := ((q[1]?).getD 0).toNat
    if q.length < 3 || 80 ≤ port || 5 ≤ stream then d.refuse stBadCommand
    else
      { d with
        fw := { d.fw with ideKeys := SMap.set (fun _ => []) d.fw.ideKeys (8 * port + stream) (q.drop 2) } }.done

/-! ### Attestation (R387) -/

/-- A channel's place in the record of SPDM connections. -/
def chanKey : Channel → Nat
  | .mailbox => 0
  | .mctp => 1
  | .pfMailbox => 2

/-- An SPDM message: version 1.3, a code, two parameters, and the content (log entry 13). -/
def spdmMsg (code p1 p2 : Nat) (content : List Byte) : List Byte :=
  [0x13, BitVec.ofNat 8 code, BitVec.ofNat 8 p1, BitVec.ofNat 8 p2] ++ content

/-- The SPDM ERROR response: 0x07 is UnsupportedRequest, 0x01 InvalidRequest. -/
def spdmError (e : Nat) : List Byte := spdmMsg 0x7F e 0 []

/-- Serves an SPDM request of a channel (R387, R406, R442). -/
def Dev.serveSpdm (d : Dev) (ch : Channel) (f : Dev → List Byte × Dev) : Dev :=
  let reply (d : Dev) : Reply :=
    let r := f d
    ⟨stOk, r.1, r.2⟩
  match ch with
  | .mailbox => d.serveSe .se 0x50 fun _ d => reply d
  | .pfMailbox => d.serveSe .pf 0x50 fun _ d => reply d
  | .mctp =>
    let st := d.fld R.SE_STATUS_STATE
    if st == 1 then
      let r := f d
      { r.2 with
        fw := { r.2.fw with
          response := r.1
          result := stOk } }
    else if st == 3 then
      { d with
        fw := { d.fw with
          response := []
          result := stUnavailable } }
    else d

/-- Whether a channel's requester has been turned away at NEGOTIATE_ALGORITHMS. -/
def Dev.turnedAway (d : Dev) (ch : Channel) : Bool := SMap.get (fun _ => 0) d.fw.spdm (chanKey ch) == 3

/-- An SPDM request other than GET_VERSION. -/
def Dev.spdmRequest (d : Dev) (ch : Channel) (f : Dev → List Byte) : Dev :=
  d.serveSpdm ch fun d => (if d.turnedAway ch then spdmError 7 else f d, d)

def Dev.setSpdm (d : Dev) (ch : Channel) (x : Nat) : Dev :=
  { d with fw := { d.fw with spdm := SMap.set (fun _ => 0) d.fw.spdm (chanKey ch) x } }

/-- GET_VERSION (R387): version 1.3 only. -/
def execGetVersion (ch : Channel) (s : State) : Host.Outcome State Fault Refusal :=
  onDev true s fun d => d.serveSpdm ch fun d => (spdmMsg 0x04 0 0 [0x13], d)

/-- GET_CAPABILITIES (R387). -/
def execGetCapabilities (ch : Channel) (s : State) : Host.Outcome State Fault Refusal :=
  onDev true s fun d => d.spdmRequest ch fun _ => spdmMsg 0x61 0 0 []

/-- NEGOTIATE_ALGORITHMS (R387): ML-DSA-87 and SHA3-512 only. -/
def execNegotiateAlgorithms (ch : Channel) (offersBoth : Bool) (s : State) : Host.Outcome State Fault Refusal :=
  onDev true s fun d => d.serveSpdm ch fun d =>
    if d.turnedAway ch then (spdmError 7, d)
    else if offersBoth then (spdmMsg 0x63 0 0 [], d.setSpdm ch 2)
    else (spdmError 7, d.setSpdm ch 3)

/-- What identifies the images that run. -/
def Dev.runningGens (d : Dev) : List Nat := components.map fun c => (d.running c).gen

/-- The certificate chain of slot 0 (R387). -/
def Dev.chainBytes (d : Dev) : List Byte := Config.certificates d.runningGens

/-- The bytes of a line. -/
def lineBytes (l : Line) : List Byte := takeBytes l 0 64

/-- GET_DIGESTS (R387): the digest of slot 0's chain. -/
def execGetDigests (ch : Channel) (s : State) : Host.Outcome State Fault Refusal :=
  onDev true s fun d => d.spdmRequest ch fun d =>
    spdmMsg 0x01 0 1 (lineBytes (Config.sha3 d.chainBytes))

/-- GET_CERTIFICATE (R387): slot 0 only. -/
def execGetCertificate (ch : Channel) (slot : Nat) (s : State) : Host.Outcome State Fault Refusal :=
  onDev true s fun d => d.spdmRequest ch fun d =>
    if slot == 0 then spdmMsg 0x02 0 0 d.chainBytes else spdmError 1

/-- A digest of the image that a component runs (R386). -/
def Dev.measure (d : Dev) (c : Nat) : Line := Config.sporeDigest c (d.running c).gen

/-- The content of a measurement block (R387): 1 to 5 are M1 to M5; 6 is LOCK, DUTY, the debug state and the fused
SVNs. -/
def Dev.measureBlock (d : Dev) (b : Nat) : List Byte :=
  if b == 6 then
    leBytes 8 (d.reg R.LOCK_BOOT_LOCK.reg).toNat ++ leBytes 8 (d.reg R.DUTY_FUNC.reg).toNat
      ++ [BitVec.ofNat 8 (d.fld R.SE_STATUS_DEBUG)] ++ components.map fun c => BitVec.ofNat 8 (d.fusedSvn c)
  else lineBytes (d.measure b)

/-- CHALLENGE (R387): signed with the alias key. -/
def execChallenge (ch : Channel) (slot : Nat) (nonce : Word) (s : State) : Host.Outcome State Fault Refusal :=
  onDev true s fun d => d.spdmRequest ch fun d =>
    if slot == 0 then
      let body := lineBytes (Config.sha3 d.chainBytes) ++ leBytes 8 nonce.toNat
      spdmMsg 0x03 0 1 (body ++ lineBytes (Config.sign body))
    else spdmError 1

/-- GET_MEASUREMENTS (R387): signed on request. -/
def execGetMeasurements (ch : Channel) (block : Nat) (signed : Bool) (s : State) :
    Host.Outcome State Fault Refusal :=
  onDev true s fun d => d.spdmRequest ch fun d =>
    if 1 ≤ block && block ≤ 6 then
      let body := BitVec.ofNat 8 block :: d.measureBlock block
      spdmMsg 0x60 1 0 (body ++ if signed then lineBytes (Config.sign body) else [])
    else spdmError 1

/-! ### The engine's state (R30, R381) -/

/-- SE_HALT (R30): outside an update; a command in progress completes with UNAVAILABLE. -/
def execSeHalt (s : State) : Host.Outcome State Fault Refusal :=
  onDev true s fun d =>
    let st := d.fld R.SE_STATUS_STATE
    if st == 2 || st == 3 then d
    else
      let d := (d.setFld R.SE_STATUS_STATE 3).log { source := 0x0F, cls := 3 }
      if d.flag (Box.se.status R.MB_STATUS_BUSY) then d.boxDone .se stUnavailable [] else d

/-- RANDOM_HEALTH_TEST (R381). -/
def execRandomHealthTest (failing : Bool) (s : State) : Host.Outcome State Fault Refusal :=
  onDev true s fun d => { d with fw := { d.fw with randomBad := failing } }

end Sys2Proof.Machine
end

