-- ==== Sys2Proof/Machine/Firmware.lean ====
section
/-!
DEFINITION. The steward and firmware update (R506 to R527): MCTP, the management commands, the configuration store,
staging a sorus, its distribution and activation over the socket chain, and the overwrite.
-/

namespace Sys2Proof.Machine

open Sys2Proof

/-! ### MCTP control on the management port (R506) -/

/-- Whether the management port answers: the steward runs, or the SE's ROM in fiddlehead drives it (R523). -/
def Dev.portAnswers (d : Dev) : Bool := d.fld R.STW_STATUS_STATE == 1 || d.phase == .booting

/-- A response on the management port. -/
def Dev.respond (d : Dev) (bs : List Byte) : Dev :=
  { d with
    fw := { d.fw with
      response := bs
      result := stOk } }

/-- ENTDAA (R506): the dynamic address that the BMC assigns. -/
def execEntdaa (addr : BitVec 7) (s : State) : Host.Outcome State Fault Refusal :=
  onDev true s fun d => if d.portAnswers then { d with fw := { d.fw with i3cAddr := some addr } } else d

/-- SETDASA (R506): after enumeration, for the static address 0x30 + socket ID. -/
def execSetdasa (static addr : BitVec 7) (s : State) : Host.Outcome State Fault Refusal :=
  onDev true s fun d =>
    if d.portAnswers && d.chain.enumerated && static.toNat == 0x30 + d.self then
      { d with fw := { d.fw with i3cAddr := some addr } }
    else d

/-- SET_ENDPOINT_ID (R506). -/
def execSetEndpointId (eid : Byte) (s : State) : Host.Outcome State Fault Refusal :=
  onDev true s fun d =>
    if d.portAnswers then { d with fw := { d.fw with eid := eid } }.respond [eid] else d

/-- GET_ENDPOINT_ID (R506). -/
def execGetEndpointId (s : State) : Host.Outcome State Fault Refusal :=
  onDev true s fun d => if d.portAnswers then d.respond [d.fw.eid] else d

/-- GET_MCTP_VERSION_SUPPORT (R506): version 1.3. -/
def execGetMctpVersionSupport (s : State) : Host.Outcome State Fault Refusal :=
  onDev true s fun d => if d.portAnswers then d.respond [1, 3] else d

/-- GET_MESSAGE_TYPE_SUPPORT (R506): control, SPDM and vendor-defined PCI messages. -/
def execGetMessageTypeSupport (s : State) : Host.Outcome State Fault Refusal :=
  onDev true s fun d => if d.portAnswers then d.respond [0, 5, 0x7E] else d

/-- EVENT_MESSAGE_TIMEOUT (R507): the oldest vendor message is not taken within 100 ms, and dropped. -/
def execEventMessageTimeout (s : State) : Host.Outcome State Fault Refusal :=
  onDev true s fun d => { d with fw := { d.fw with msgs := d.fw.msgs.tail } }

/-! ### Management commands (R509 to R512) -/

/-- Serves a management command on a channel (R509): the PF mailbox carries chunks alone; in fiddlehead only some are
known (R523). -/
def Dev.manage (d : Dev) (ch : Channel) (code : Nat) (f : Dev → Reply) : Dev :=
  if ch == .pfMailbox && code != 0x40 then d
  else
    let g (d : Dev) : Reply :=
      if d.phase == .booting && !(code == 0x01 || code == 0x40 || code == 0x42) then d.refuse stBadCommand else f d
    match ch with
    | .pfMailbox => d.serve .pf 0x70 d.portAnswers fun _ d => g d
    | .mailbox => d.serve .stw code d.portAnswers fun _ d => g d
    | .mctp =>
      if d.portAnswers then
        let r := g d
        { r.dev with
          fw := { r.dev.fw with
            response := r.resp
            result := r.status } }
      else d

/-- An image's version and SVN, as bytes. -/
def ImageId.bytes (i : ImageId) : List Byte := leBytes 8 i.ver.toNat ++ [BitVec.ofNat 8 i.svn]

/-- The previous set's image of a component. -/
def Dev.previous (d : Dev) (c : Nat) : ImageId := SMap.get (fun _ => {}) d.fw.previous c

/-- The bytes of `UPD_STATUS`. -/
def Dev.updBytes (d : Dev) : List Byte := leBytes 8 (d.reg R.UPD_STATUS_PHASE.reg).toNat

/-- GET_INFO (R509). -/
def execGetInfo (ch : Channel) (s : State) : Host.Outcome State Fault Refusal :=
  onDev true s fun d => d.manage ch 0x01 fun d =>
    ⟨stOk, leBytes 2 (d.fld R.IDENT_PART) ++ leBytes 1 (d.fld R.IDENT_STEPPING) ++ leBytes 1 d.self
      ++ components.flatMap (fun c => (d.running c).bytes)
      ++ components.flatMap (fun c => (d.previous c).bytes)
      ++ leBytes 2 (d.fld R.STW_STATUS_SCHEMA) ++ d.updBytes, d⟩

/-- The configuration items (R512). -/
def cfgKeys : List Nat := [0x0100, 0x0101, 0x0200, 0x0300, 0x0400, 0x0401, 0x0600]

/-- The default value of an item (R512). -/
def cfgDefault (key : Nat) : List Byte :=
  if key == 0x0100 || key == 0x0401 then [0] else if key == 0x0101 then [48]
  else if key == 0x0400 then leBytes 4 10000 else []

/-- The items in effect: none of a store whose schema is newer than the firmware's (R511). -/
def Dev.cfgNow (d : Dev) : SMap (List Byte) := if d.fw.schema < d.fw.cfgSchema then [] else d.fw.cfg

/-- An item's value: its stored one, or its default. -/
def Dev.cfgItem (d : Dev) (key : Nat) : List Byte :=
  let v := SMap.get (fun _ => []) d.cfgNow key
  if v.isEmpty then cfgDefault key else v

/-- The frames from the last READY to activation (R512). -/
def Dev.updLead (d : Dev) : Nat := leNat (d.cfgItem 0x0400)

/-- CFG_READ (R509). -/
def execCfgRead (ch : Channel) (key : Nat) (s : State) : Host.Outcome State Fault Refusal :=
  onDev true s fun d => d.manage ch 0x10 fun d =>
    if cfgKeys.contains key then ⟨stOk, d.cfgItem key, d⟩ else d.refuse stBadCommand

/-- The store is written at the firmware's schema, with the next GEN (R510, R511). -/
def Dev.cfgStore (d : Dev) (m : SMap (List Byte)) : Dev :=
  { d with
    fw := { d.fw with
      cfg := m
      cfgGen := d.fw.cfgGen + 1
      cfgSchema := d.fw.schema } }

/-- CFG_WRITE (R509, R510): the locked snapshot never, the update policy not after boot-lock nor over MCTP. -/
def execCfgWrite (ch : Channel) (key : Nat) (value : List Byte) (s : State) : Host.Outcome State Fault Refusal :=
  onDev true s fun d => d.manage ch 0x11 fun d =>
    if !cfgKeys.contains key then d.refuse stBadCommand
    else if key == 0x0200 || (key == 0x0401 && (d.locked || ch == .mctp)) then d.refuse stLocked
    else if 4088 < value.length
      || (key == 0x0400 && !(10000 ≤ leNat value && leNat value ≤ 10000000)) then d.refuse stBadCommand
    else (d.cfgStore (SMap.set (fun _ => []) d.cfgNow key value)).done

/-- CFG_DEFAULTS (R509, R511): the locked snapshot is discarded with the rest. -/
def execCfgDefaults (ch : Channel) (s : State) : Host.Outcome State Fault Refusal :=
  onDev true s fun d => d.manage ch 0x12 fun d =>
    if ch == .mctp && d.locked then d.refuse stLocked
    else
      let d := d.cfgStore []
      { d with fw := { d.fw with snapshot := none } }.done

/-- The CRC-32C of R345 over bytes: initial value all ones, final inversion. -/
def crc32c (bs : List Byte) : Nat :=
  let step (c : Nat) (b : Byte) : Nat :=
    (List.range 8).foldl (fun c _ => if c % 2 == 1 then (c / 2) ^^^ 0x82F63B78 else c / 2) (c ^^^ b.toNat)
  (bs.foldl step 0xFFFFFFFF) ^^^ 0xFFFFFFFF

/-- The first 56 bytes of an error record (R345). -/
def Record.body (r : Record) : List Byte :=
  leBytes 8 (r.source % 256 + r.inst % 65536 * 2 ^ 8 + r.cls % 8 * 2 ^ 24 + r.action % 32 * 2 ^ 27
      + r.requester % 4096 * 2 ^ 32)
    ++ leBytes 8 r.address ++ leBytes 8 r.syndrome ++ leBytes 8 r.frame.toNat
    ++ leBytes 8 (r.count % 2 ^ 32 + r.bucket % 256 * 2 ^ 32) ++ leBytes 8 r.location ++ leBytes 8 r.rseq

/-- An error record as its 64 bytes (R345). -/
def Record.bytes (r : Record) : List Byte := r.body ++ leBytes 8 (crc32c r.body)

/-- The bytes of the ring's record i; an index never written reads 0. -/
def Dev.recordBytes (d : Dev) (i : Nat) : List Byte :=
  match d.ringAt i with
  | some r => r.bytes
  | none => leBytes 64 0

/-- ERR_READ (R509): 1 to 63 records. -/
def execErrRead (ch : Channel) (first count : Nat) (s : State) : Host.Outcome State Fault Refusal :=
  onDev true s fun d => d.manage ch 0x20 fun d =>
    if count == 0 || 63 < count || 1024 ≤ first then d.refuse stBadCommand
    else ⟨stOk, (List.range count).flatMap fun i => d.recordBytes ((first + i) % 1024), d⟩

/-- TLM_READ (R509): 1 to 31 entries. -/
def execTlmRead (ch : Channel) (first : Word) (count : Nat) (s : State) : Host.Outcome State Fault Refusal :=
  onDev true s fun d => d.manage ch 0x21 fun d =>
    if count == 0 || 31 < count then d.refuse stBadCommand
    else
      ⟨stOk, (List.range count).flatMap fun i =>
        SMap.get (fun _ => leBytes 128 0) d.fw.tlm ((first.toNat + i) % 4096), d⟩

/-- REPAIR_CLEAR (R378, R509): a soft entry is marked cleared. -/
def execRepairClear (ch : Channel) (i : Nat) (s : State) : Host.Outcome State Fault Refusal :=
  onDev true s fun d => d.manage ch 0x31 fun d =>
    match d.repairs[i]? with
    | none => d.refuse (if i < 16384 then stBadState else stBadCommand)
    | some r =>
      if r.fused then d.refuse stBadState
      else { d with repairs := d.repairs.set i { r with typ := 4 } }.showRepairs.done

/-! ### The sorus (R513, R514) -/

/-- The n-byte number at an offset of a sorus. -/
def sorusNum (st : List Byte) (off n : Nat) : Nat := leNat ((st.drop off).take n)

/-- An entry of a manifest. -/
structure SorusEntry where
  component : Nat
  svn : Nat
  sockets : Nat
  ver : Nat
  off : Nat
  len : Nat
  deriving DecidableEq, Repr

/-- The entries that a manifest uses. -/
def sorusEntries (st : List Byte) : List SorusEntry :=
  (List.range (Nat.min 5 (sorusNum st 6 1))).map fun i =>
    let o := 0x20 + 0x60 * i
    ⟨sorusNum st o 2, sorusNum st (o + 2) 1, sorusNum st (o + 3) 1, sorusNum st (o + 8) 8,
      sorusNum st (o + 0x10) 8, sorusNum st (o + 0x18) 8⟩

/-- The format of a manifest (R513, R514 item 1). -/
def sorusFormat (st : List Byte) : Bool :=
  let es := sorusEntries st
  let cs := es.map fun e => e.component
  sorusNum st 0 4 == 0x534F5231 && sorusNum st 4 2 == 1 && 1 ≤ sorusNum st 6 1 && sorusNum st 6 1 ≤ 5
    && cs.eraseDups.length == cs.length
    && es.all fun e => 1 ≤ e.component && e.component ≤ 5 && e.off % 4096 == 0 && e.off + e.len ≤ st.length

/-- The first failing check of R514 as an abort reason (R518): `v` is what the digests and signatures give. -/
def Dev.sorusVerdict (d : Dev) (v : Nat) : Nat :=
  let st := d.fw.staged
  if !sorusFormat st then 4
  else if v != 0 && v != 3 then v
  else if v == 3 || (sorusEntries st).any fun e => e.svn < d.fusedSvn e.component then 3 else 0

/-- The sockets that a sorus targets and that are present. -/
def Dev.targets (d : Dev) : Nat :=
  (sorusEntries d.fw.staged).foldl (fun m e => m ||| e.sockets) 0 &&& d.fld R.CHAIN_STATUS_PRESENT

/-- The entries of the staged sorus that name this socket. -/
def Dev.ownEntries (d : Dev) : List SorusEntry :=
  (sorusEntries d.fw.staged).filter fun e => natBit e.sockets d.self

/-- The staged image of a component (R513). -/
def Dev.stagedImage (d : Dev) (c : Nat) : Option ImageId :=
  (d.ownEntries.find? fun e => e.component == c).map fun e =>
    ⟨e.svn, word e.ver, (d.running c).gen + 1⟩

/-- Whether this socket's steward is the head's. -/
def Dev.isHead (d : Dev) : Bool := d.flag R.IDENT_CHAIN_HEAD

/-! ### Update messages (R451, R516) -/

/-- The subtypes of UPDATE_CTL (log entry 13). -/
abbrev updReady : Nat := 0
abbrev updAbort : Nat := 1
abbrev updArm : Nat := 2
abbrev updArmed : Nat := 3
abbrev updConfirm : Nat := 4
abbrev updActivated : Nat := 5
abbrev updNotActivated : Nat := 6

/-- Sends UPDATE_CTL (R516): subtype, frame, SORUS_ID, reason. -/
def Dev.updSend (d : Dev) (sub : Nat) (frame : Word) (reason : Nat) : Dev :=
  d.chainSend 0x20
    (BitVec.ofNat 8 sub :: (leBytes 8 frame.toNat ++ leBytes 8 d.fw.sorusId.toNat ++ [BitVec.ofNat 8 reason]))

/-- The update ends in an abort (R518): the head tells every socket. -/
def Dev.abortAll (d : Dev) (reason : Nat) : Dev :=
  if d.mayAbort then
    let d := d.abortUpdate reason
    if d.isHead then d.updSend updAbort 0 reason else d
  else d

/-- The head holds every READY (R516 phase 5): it chooses A and sends ARM; its own socket is armed. -/
def Dev.armAll (d : Dev) : Dev :=
  let a := d.frame + word d.updLead
  let d := { d with
    fw := { d.fw with
      armA := some a
      armedMask := 2 ^ d.self
      confirmed := false } }
  ((d.updPhase 5).setReg R.UPD_FRAME_FRAME.reg a).updSend updArm a 0

/-- READY of a socket reaches the head (R516). -/
def Dev.readyFrom (d : Dev) (src : Nat) : Dev :=
  if d.isHead && (d.fld R.UPD_STATUS_PHASE == 3 || d.fld R.UPD_STATUS_PHASE == 4) then
    let m := d.fld R.UPD_STATUS_READY ||| 2 ^ src
    let d := d.setFld R.UPD_STATUS_READY m
    if m &&& d.targets == d.targets then d.armAll else d
  else d

/-- This socket prepares (R516 phase 4): its running images go to the previous-images area, and it is ready. -/
def Dev.prepare (d : Dev) : Dev :=
  let d := { d with fw := { d.fw with previous := d.fw.running } }.updPhase 4
  if d.isHead then d.readyFrom d.self else d.updSend updReady 0 0

/-- What an update in progress starts from. -/
def Dev.freshUpdate (d : Dev) : Dev :=
  let d := (d.setFld R.UPD_STATUS_READY 0).setFld R.UPD_STATUS_ACTIVATED 0
  let d := (d.setFld R.UPD_STATUS_REASON 0).setReg R.UPD_FRAME_FRAME.reg 0
  { d with
    fw := { d.fw with
      sorusId := word (sorusNum d.fw.staged 8 8)
      ready := none
      armA := none
      confirmed := false
      aborted := false
      armedMask := 0
      notActivated := 0
      reasons := []
      switched := false
      overwritten := []
      rewrites := [] } }

/-- The head starts an update of what it has staged (R516 phases 2 to 4): the sorus goes to the other sockets as
SORUS_DATA, and the head prepares. `v` is what the digests and signatures give. -/
def Dev.startUpdate (d : Dev) (v : Nat) : Dev :=
  let d := d.freshUpdate.updPhase 2
  if d.flag R.CHAIN_STATUS_MSG_DOWN then d.abortAll 6
  else
    match d.sorusVerdict v with
    | 0 =>
      let d := d.updPhase 3
      if d.fld R.CHAIN_STATUS_PRESENT == 2 ^ d.self then d.prepare
      else (d.chainSend 0x21 (leBytes 8 d.fw.sorusId.toNat)).prepare
    | r => d.abortAll r

/-- Whether an update is under way (R509, R515). -/
def Dev.updBusy (d : Dev) : Bool := 2 ≤ d.fld R.UPD_STATUS_PHASE && d.fld R.UPD_STATUS_PHASE ≤ 6

/-- A non-head steward relays a request to the head as STEWARD_MSG (R515). -/
def Dev.relay (d : Dev) (payload : List Byte) : Dev := d.chainSend 0x41 payload

/-! ### Fiddlehead (R523, R524) -/

/-- The ROM formats a new system partition (R524): what the old one held is lost, slot 0 has a new key. -/
def Dev.formatPartition (d : Dev) : Dev :=
  let d := d.cfgStore []
  let d := { d with
    fw := { d.fw with
      snapshot := none
      partBad := false }
    ring := []
    reports := []
    images := []
    drainSeq := 0
    chans := SMap.filterMap (fun _ => {}) (fun _ c => some { c with coeff := 0 }) d.chans
    repairs := d.fw.fuses
    slots := [] }
  let d := ((d.setReg R.ERR_HEAD_INDEX.reg 0).setReg R.ERR_TAIL_INDEX.reg 0).setFld R.CUSHION_STATUS_DRAINS 0
  { d.setSlot 0 ⟨2, d.nextKey, 0⟩ with nextKey := d.nextKey + 1 }.showRepairs

/-- The ROM installs the spores of the staged sorus for this socket (R523). -/
def Dev.installStaged (d : Dev) : Dev :=
  { d with
    fw := { d.fw with
      running := d.ownEntries.foldl (fun m e =>
        SMap.set (fun _ => {}) m e.component ⟨e.svn, word e.ver, (d.running e.component).gen + 1⟩) d.fw.running } }

/-- In fiddlehead's third stage a whole sorus that passes R514 is installed; with the partition unreadable only under
REBUILD (R523, R524). The boot then goes on with its POWER_UP. -/
def Dev.fiddle (d : Dev) (st : List Byte) : Dev :=
  if d.phase != .booting || d.sorusVerdict (Config.sorusCheck st) != 0 || (d.fw.partBad && !d.fw.rebuild) then d
  else if d.fw.partBad then d.formatPartition.installStaged
  else d.installStaged

/-- A chunk at the head (R515), or in fiddlehead (R523). -/
def Dev.stageChunk (d : Dev) (off total : Nat) (last start rebuild : Bool) (bytes : List Byte) : Reply :=
  if d.updBusy then d.refuse stBusy
  else if bytes.isEmpty || 4064 < bytes.length || 2 ^ 28 < total || total < off + bytes.length then
    d.refuse stBadCommand
  else if off != 0 && off != d.fw.staged.length then d.refuse stBadState
  else
    let st := (if off == 0 then [] else d.fw.staged) ++ bytes
    let d := { d with
      fw := { d.fw with
        staged := st
        stagedTotal := total
        stagedLast := last
        rebuild := rebuild } }.updPhase 1
    let d := if d.phase == .booting then (if last then d.fiddle st else d)
      else if last && start then d.startUpdate (Config.sorusCheck st) else d
    ⟨stOk, leBytes 8 st.length, d⟩

/-- SORUS_CHUNK (R515): at the head the chunk is staged; another socket's steward relays it, and its command waits for
the head's answer. -/
def execSorusChunk (ch : Channel) (off total : Nat) (last start rebuild : Bool) (bytes : List Byte) (s : State) :
    Host.Outcome State Fault Refusal :=
  onDev true s fun d =>
    if d.isHead || d.phase == .booting then d.manage ch 0x40 fun d => d.stageChunk off total last start rebuild bytes
    else d.relay (leBytes 8 off)

/-- UPDATE_START (R509, R516). -/
def execUpdateStart (ch : Channel) (verdict : BitVec 8) (s : State) : Host.Outcome State Fault Refusal :=
  onDev true s fun d =>
    if d.isHead then
      d.manage ch 0x41 fun d =>
        if d.updBusy then d.refuse stBusy
        else if d.fw.staged.isEmpty then d.refuse stBadState
        else (d.startUpdate verdict.toNat).done
    else d.relay [0x41]

/-- UPDATE_STATUS (R509). -/
def execUpdateStatus (ch : Channel) (s : State) : Host.Outcome State Fault Refusal :=
  onDev true s fun d => d.manage ch 0x42 fun d =>
    ⟨stOk, d.updBytes ++ leBytes 8 (d.reg R.UPD_FRAME_FRAME.reg).toNat
      ++ (List.range 8).map fun k => BitVec.ofNat 8 (SMap.get (fun _ => 0) d.fw.reasons k), d⟩

/-- UPDATE_ABORT (R509, R518): refused from A - 16 on, and without an update. -/
def execUpdateAbort (ch : Channel) (s : State) : Host.Outcome State Fault Refusal :=
  onDev true s fun d =>
    if d.isHead then
      d.manage ch 0x43 fun d => if d.mayAbort then (d.abortAll 8).done else d.refuse stBadState
    else d.relay [0x43]

/-- UPDATE_DEADLINE (R518): the deadline of phase 4 or 5 passes at the head with an answer missing. -/
def execUpdateDeadline (s : State) : Host.Outcome State Fault Refusal :=
  onDev true s fun d =>
    let f := d.frame.toNat
    let p := d.fld R.UPD_STATUS_PHASE
    if !d.isHead then d
    else if p == 3 || p == 4 then
      if d.fld R.UPD_STATUS_READY &&& d.targets == d.targets then d else d.abortAll 5
    else
      match d.fw.armA with
      | none => d
      | some a =>
        if p == 5 && ((a.toNat ≤ f + 1000 && d.fw.armedMask &&& d.targets != d.targets)
          || (a.toNat ≤ f + 500 && !d.fw.confirmed)) then d.abortAll 5
        else d

/-- CONFIRM_SEND (R516, R518): at A - 1,000 the head sends CONFIRM, or aborts when an ARMED is missing. -/
def execConfirmSend (s : State) : Host.Outcome State Fault Refusal :=
  onDev true s fun d =>
    match d.fw.armA with
    | none => d
    | some a =>
      if !d.isHead || d.fld R.UPD_STATUS_PHASE != 5 || d.frame.toNat + 1000 < a.toNat then d
      else if d.fw.armedMask &&& d.targets == d.targets then d.updSend updConfirm a 0
      else d.abortAll 5

/-! ### Arriving update messages -/

/-- READY (R516): at the head. -/
def execReady (m : UpdMsg) (s : State) : Host.Outcome State Fault Refusal :=
  onDev (decide (m.src < 8)) s fun d => if m.sorusId == d.fw.sorusId then d.readyFrom m.src else d

/-- ABORT (R518): every socket enters phase 8; at the head it is a socket's report, which the head passes on. -/
def execAbort (m : UpdMsg) (s : State) : Host.Outcome State Fault Refusal :=
  onDev (decide (m.src < 8)) s fun d =>
    if m.sorusId == d.fw.sorusId || m.sorusId == 0 then
      let d := { d with
        fw := { d.fw with reasons := SMap.set (fun _ => 0) d.fw.reasons m.src m.reason.toNat } }
      if m.src == d.self then d else d.abortAll m.reason.toNat
    else d

/-- ARM (R516): a socket that prepared is armed for A, and answers. -/
def execArm (m : UpdMsg) (s : State) : Host.Outcome State Fault Refusal :=
  onDev (decide (m.src < 8)) s fun d =>
    if d.isHead || !d.mayAbort || m.sorusId != d.fw.sorusId then d
    else
      let d := { d with
        fw := { d.fw with
          armA := some m.frame
          confirmed := false } }.updPhase 5
      (d.setReg R.UPD_FRAME_FRAME.reg m.frame).updSend updArmed m.frame 0

/-- ARMED (R516): at the head. -/
def execArmed (m : UpdMsg) (s : State) : Host.Outcome State Fault Refusal :=
  onDev (decide (m.src < 8)) s fun d =>
    if d.isHead && d.fld R.UPD_STATUS_PHASE == 5 && m.sorusId == d.fw.sorusId then
      { d with fw := { d.fw with armedMask := d.fw.armedMask ||| 2 ^ m.src } }
    else d

/-- CONFIRM (R517, R518): held until A; back at the head it must have returned by A - 500. -/
def execConfirm (m : UpdMsg) (s : State) : Host.Outcome State Fault Refusal :=
  onDev (decide (m.src < 8)) s fun d =>
    match d.fw.armA with
    | none => d
    | some a =>
      if m.sorusId != d.fw.sorusId || d.fw.aborted then d
      else if d.isHead && a.toNat < d.frame.toNat + 500 then d.abortAll 5
      else { d with fw := { d.fw with confirmed := true } }

/-- Whether the head knows what every targeted socket did. -/
def Dev.settleUpdate (d : Dev) : Dev :=
  if d.isHead && d.fld R.UPD_STATUS_ACTIVATED &&& d.targets == d.targets then d.updPhase 7 else d

/-- ACTIVATED (R519): at the head. -/
def execActivated (m : UpdMsg) (s : State) : Host.Outcome State Fault Refusal :=
  onDev (decide (m.src < 8)) s fun d =>
    if d.isHead && m.sorusId == d.fw.sorusId then
      { d.setFld R.UPD_STATUS_ACTIVATED (d.fld R.UPD_STATUS_ACTIVATED ||| 2 ^ m.src) with
        fw := { d.fw with
          notActivated := if natBit d.fw.notActivated m.src then d.fw.notActivated - 2 ^ m.src
            else d.fw.notActivated } }.settleUpdate
    else d

/-- NOT_ACTIVATED (R519): the head records the mismatch and schedules a new activation for that socket. -/
def execNotActivated (m : UpdMsg) (s : State) : Host.Outcome State Fault Refusal :=
  onDev (decide (m.src < 8)) s fun d =>
    if d.isHead && m.sorusId == d.fw.sorusId then
      let d := { d with fw := { d.fw with notActivated := d.fw.notActivated ||| 2 ^ m.src } }
      let d := d.log { source := 0x10, inst := m.src, cls := 5 }
      if d.fld R.UPD_STATUS_PHASE == 8 then d else d.armAll
    else d

/-- SORUS_DATA (R516): a socket stages its copy; when it is whole it is checked, and READY or ABORT is sent. -/
def execSorusData (off total : Nat) (bytes : List Byte) (s : State) : Host.Outcome State Fault Refusal :=
  onDev true s fun d =>
    if (d.isHead && d.phase != .booting) || (off != 0 && off != d.fw.staged.length) then d
    else
      let st := (if off == 0 then [] else d.fw.staged) ++ bytes
      let d := { d with
        fw := { d.fw with
          staged := st
          stagedTotal := total
          stagedLast := st.length == total } }
      let d := if off == 0 && d.phase != .booting then d.updPhase 3 else d
      if st.length != total then d
      else if d.phase == .booting then d.fiddle st
      else
        let d := d.freshUpdate
        match d.sorusVerdict (Config.sorusCheck st) with
        | 0 => d.prepare
        | r => (d.abortUpdate r).updSend updAbort 0 r

/-- STEWARD_MSG (R451, R515): the head's answer completes a relayed command, with its first byte as the status; other
payloads are opaque. -/
def execStewardMsg (src : Nat) (payload : List Byte) (s : State) : Host.Outcome State Fault Refusal :=
  onDev (decide (src < 8)) s fun d =>
    if d.isHead || src == d.self then d
    else
      let st := ((payload.head?).getD 0).toNat
      if d.boxWaits .stw 0x40 || d.boxWaits .stw 0x41 || d.boxWaits .stw 0x43 then d.boxDone .stw st payload.tail
      else if d.boxWaits .pf 0x70 then d.boxDone .pf st payload.tail
      else
        { d with
          fw := { d.fw with
            response := payload.tail
            result := st } }

/-- SE_MSG (R404, R451): opaque; the link secret arrives so from the socket that generated it. -/
def execSeMsg (src : Nat) (payload : List Byte) (s : State) : Host.Outcome State Fault Refusal :=
  onDev (decide (src < 8)) s fun d =>
    if src == d.self || payload.isEmpty || d.locked then d
    else { d with fw := { d.fw with linkSecret := some payload } }.setFld R.SE_STATUS_LINK_SECRET 1

/-! ### Activation and overwrite (R517, R519, R520) -/

/-- ACTIVATION_SWITCH (R517): at the tick that opens frame A, with CONFIRM held and no abort. -/
def execActivationSwitch (s : State) : Host.Outcome State Fault Refusal :=
  onDev true s fun d =>
    match d.fw.armA with
    | none => d
    | some a =>
      if d.frame.toNat < a.toNat || d.fw.switched then d
      else if d.fw.confirmed && !d.fw.aborted && d.phase == .running then
        { d with fw := { d.fw with switched := true } }.updPhase 6
      else { d with fw := { d.fw with armA := none } }.updSend updNotActivated a 0

/-- The order of the overwrite (R520). -/
def overwriteOrder : List Nat := [5, 4, 3, 1, 2]

/-- The units of a component's overwrite: the owner's image area; 16 memory, 20 port, 8 link and 8 stack controllers;
the cores; for the SE and the steward, the start (0) and the completion (1) of the whole. -/
def overwriteUnits (c : Nat) : Nat := if c == 5 then 1 else if c == 4 then 52 else if c == 3 then 288 else 2

/-- Whether a unit need not be overwritten now: a core that is off, in deep park or in TRANSIT loads its image
later. -/
def Dev.unitLater (d : Dev) (c u : Nat) : Bool :=
  c == 3 && (d.fld (corePwr u) == 0 || d.fld (corePwr u) == 3 || d.coreState u == 5)

/-- Whether a component's overwrite is complete. -/
def Dev.overwritten (d : Dev) (c : Nat) : Bool :=
  (d.stagedImage c).isNone ||
    (List.range (overwriteUnits c)).all fun u => d.fw.overwritten.contains (c, u) || d.unitLater c u

/-- Whether the components before one in the order are complete. -/
def Dev.overwriteTurn (d : Dev) (c : Nat) : Bool :=
  (overwriteOrder.takeWhile fun x => x != c).all fun x => d.overwritten x

/-- A component's new image runs when all its units hold it. -/
def Dev.imageRuns (d : Dev) (c : Nat) : Dev :=
  match d.stagedImage c with
  | none => d
  | some i =>
    let sch := if c == 2 then sorusNum d.fw.staged 0x10 2 else d.fw.schema
    { d with
      fw := { d.fw with
        running := SMap.set (fun _ => {}) d.fw.running c i
        schema := sch } }

/-- A unit stays bad after three rewrites (R520): a core becomes a candidate, the SE or the steward halts, a channel
becomes a candidate; another controller is recorded. -/
def Dev.overwriteFails (d : Dev) (c u : Nat) : Dev :=
  if c == 3 then d.candidate 4 u 1 0
  else if c == 1 then (d.setFld R.SE_STATUS_STATE 3).log { source := 0x0F, cls := 3 }
  else if c == 2 then d.setFld R.STW_STATUS_STATE 3
  else if c == 4 && u < 16 then d.candidate 0 u 1 0
  else d.log { source := 0x10, inst := u, cls := 2 }

/-- Every listed component is overwritten: the socket reports ACTIVATED (R516 phase 7, R519). -/
def Dev.reportActivated (d : Dev) : Dev :=
  if d.fld R.UPD_STATUS_PHASE == 6 && overwriteOrder.all fun c => d.overwritten c then
    let d := d.updSend updActivated (d.fw.armA.getD 0) 0
    if d.isHead then
      (d.setFld R.UPD_STATUS_ACTIVATED (d.fld R.UPD_STATUS_ACTIVATED ||| 2 ^ d.self)).settleUpdate
    else d.updPhase 7
  else d

/-- FIRMWARE_OVERWRITE (R520): the loader overwrites one unit; a bad image is rewritten up to three times. -/
def execFirmwareOverwrite (component unit : Nat) (ok : Bool) (s : State) : Host.Outcome State Fault Refusal :=
  onDev (decide (1 ≤ component && component ≤ 5 && unit < 288)) s fun d =>
    let k := component * 512 + unit
    let tries := SMap.get (fun _ => 0) d.fw.rewrites k
    if !d.fw.switched || d.phase == .drain || (d.stagedImage component).isNone || !d.overwriteTurn component
      || overwriteUnits component ≤ unit || d.fw.overwritten.contains (component, unit) then d
    else if !ok && tries < 3 then
      { d with fw := { d.fw with rewrites := SMap.set (fun _ => 0) d.fw.rewrites k (tries + 1) } }
    else
      let d := { d with fw := { d.fw with overwritten := d.fw.overwritten ++ [(component, unit)] } }
      let d := if component == 1 then d.setFld R.SE_STATUS_STATE (if unit == 0 then 2 else 1)
        else if component == 2 then d.setFld R.STW_STATUS_STATE (if unit == 0 then 2 else 1)
        else d
      let d := if ok then d else d.overwriteFails component unit
      let d := if d.overwritten component then d.imageRuns component else d
      d.reportActivated

end Sys2Proof.Machine
end

