-- ==== Sys2Proof/Machine/Links.lean ====
section
/-!
DEFINITION. The Frahal links (R456 to R465): flits and their replay, training, routes, the retirement of lanes and
links, and the link maps that the sockets exchange.
-/

namespace Sys2Proof.Machine

open Sys2Proof

/-- A register of link n. -/
def flReg (f : Field) (n : Nat) : Field := f.at (0x40000 * n)

/-- The links of a socket. -/
def linkOk (n : Nat) : Bool := decide (n < 8)

/-- Whether link n is in service: active, or an idle spare (R459, R465). -/
def Dev.linkIn (d : Dev) (n : Nat) : Bool :=
  d.fld (flReg R.FL_STATUS_STATE n) == 3 || d.fld (flReg R.FL_STATUS_STATE n) == 4

/-- This socket's link entries, as LINK_MAP carries them (R458). -/
def Dev.ownLinks (d : Dev) : List LinkEntry :=
  (List.range 8).map fun n =>
    ⟨d.fld (flReg R.FL_STATUS_PEER_SOCKET n), d.fld (flReg R.FL_STATUS_PEER_LINK n), d.linkIn n,
      d.flag (flReg R.FL_CTL_SPARE n)⟩

/-- The link entries of socket s that this socket holds. -/
def Dev.linksOf (d : Dev) (s : Nat) : List LinkEntry :=
  if s == d.self then d.ownLinks else SMap.get (fun _ => []) d.chain.maps s

/-- Whether the bundle (s, p) holds a link in service. -/
def Dev.bundle (d : Dev) (s p : Nat) : Bool := (d.linksOf s).any fun e => e.inService && e.peer == p

/-- The mask of this socket's links to a peer that a predicate selects. -/
def Dev.linkMask (d : Dev) (p : Nat) (f : LinkEntry → Bool) : Nat :=
  ((List.range 8).filter fun n =>
    match d.ownLinks[n]? with
    | some e => e.inService && e.peer == p && f e
    | none => false).foldl (fun m n => m + 2 ^ n) 0

/-- The route to socket p (R459): links, intermediate socket, kind. -/
def Dev.routeTo (d : Dev) (p : Nat) : Nat × Nat × Nat :=
  if p == d.self || !natBit (d.fld R.CHAIN_STATUS_PRESENT) p then (0, 0, 0)
  else if d.linkMask p (fun e => !e.spare) != 0 then (d.linkMask p fun e => !e.spare, 0, 1)
  else if d.linkMask p (fun e => e.spare) != 0 then (d.linkMask p fun e => e.spare, 0, 1)
  else
    match (List.range 8).find? fun m => m != p && m != d.self && d.bundle d.self m && d.bundle m p with
    | some m => (0, m, 2)
    | none => (0, 0, 3)

/-- Every route is computed again (R459, R460): a spare that carries a bundle is active, else idle. -/
def Dev.reroute (d : Dev) : Dev :=
  let d := (List.range 8).foldl (fun d p =>
    let r := d.routeTo p
    let d := d.setFld (R.ROUTE_LINKS.at (8 * p)) r.1
    (d.setFld (R.ROUTE_VIA.at (8 * p)) r.2.1).setFld (R.ROUTE_KIND.at (8 * p)) r.2.2) d
  (List.range 8).foldl (fun d n =>
    if d.linkIn n && d.flag (flReg R.FL_CTL_SPARE n) then
      let used := natBit (d.fld (R.ROUTE_LINKS.at (8 * d.fld (flReg R.FL_STATUS_PEER_SOCKET n)))) n
      d.setFld (flReg R.FL_STATUS_STATE n) (if used then 3 else 4)
    else d) d

/-- The bytes of LINK_MAP: four bits of each link's entry. -/
def mapBytes (es : List LinkEntry) : List Byte :=
  es.map fun e => BitVec.ofNat 8 (e.peer % 8 + e.peerLink % 8 * 8 + bnat e.inService * 64 + bnat e.spare * 128)

/-- A change of a link's state is flooded and the routes computed again (R460). -/
def Dev.linkChanged (d : Dev) : Dev := (d.chainSend 0x30 (mapBytes d.ownLinks)).reroute

/-- LINK_MAP (R458): the map of a socket. -/
def execLinkMap (src : Nat) (links : List LinkEntry) (s : State) : Host.Outcome State Fault Refusal :=
  onDev (decide (src < 8)) s fun d =>
    if src == d.self then d
    else
      { d with
        chain := { d.chain with maps := SMap.set (fun _ => []) d.chain.maps src (links.take 8) } }.reroute

/-- MAP_EXCHANGE (R408, R451): a socket's ECAM base and map digest at boot-lock; the device does not compare maps
(R34). -/
def execMapExchange (src : Nat) (ecamBase digest : Word) (s : State) : Host.Outcome State Fault Refusal :=
  onDev (decide (src < 8)) s fun d =>
    { d with
      chain := { d.chain with
        mapBase := SMap.set (fun _ => 0) d.chain.mapBase src ecamBase
        mapDigest := SMap.set (fun _ => 0) d.chain.mapDigest src digest } }

/-! ### Retirement (R461) -/

/-- The lanes of link n that are retired. -/
def Dev.lanesRetired (d : Dev) (n : Nat) : Nat := d.fld (flReg R.FL_STATUS_LANES_RETIRED n)

/-- The link leaves service for good (R461): `syn` is the record's syndrome. -/
def Dev.retireLink (d : Dev) (n syn : Nat) : Dev :=
  if d.fld (flReg R.FL_STATUS_STATE n) == 6 then d
  else
    let d := (d.setFld (flReg R.FL_STATUS_STATE n) 6).setFld (flReg R.FL_STATUS_WIDTH n) 0
    let d := (d.setFld (flReg R.FL_STATUS_CANDIDATE n) 0).setLink n {}
    let d := (d.addRepair (retiredUnit d 1 n 24) 0xA).log
      { source := 0xA, inst := n, cls := 4, action := 3, syndrome := syn }
    d.linkChanged

/-- Lane i of link n is retired (R461): the link retrains without it, or is retired below 20 lanes. -/
def Dev.retireLane (d : Dev) (n i : Nat) : Dev :=
  let u := d.unitAt 1 (24 * n + i)
  if u.retired then d
  else
    let d := d.setUnit 1 (24 * n + i) { u with retired := true, candidate := false }
    let d := d.setFld ⟨(flReg R.FL_STATUS_LANES_RETIRED n).reg, R.FL_STATUS_LANES_RETIRED.lo + i, 1⟩ 1
    let d := (d.addRepair (retiredUnit d 1 n i) 0xA).log
      { source := 0xA, inst := n, cls := 4, action := 3, bucket := u.bucket, location := i }
    if weight 24 (d.lanesRetired n) ≤ 4 then
      let d := if d.linkIn n then d.setFld (flReg R.FL_STATUS_STATE n) 5 else d
      (d.setFld (flReg R.FL_STATUS_WIDTH n) 0).linkChanged
    else d.retireLink n 0

/-- A lane's fault is confirmed (R339, R461): it is retired, or waits for software under LINKRETIRE. -/
def Dev.laneFault (d : Dev) (n i : Nat) : Dev :=
  if d.duty 6 then
    let d := d.setLink n { d.link n with candidateLane := some i }
    (d.setFld (flReg R.FL_STATUS_CANDIDATE n) 1).dutyEvent
  else d.retireLane n i

/-- A write of FL_RETIRE of link n (R461, R465). -/
def Dev.flRetireWrite (d : Dev) (n : Nat) (v : Word) : Dev :=
  match (d.link n).candidateLane with
  | none => d
  | some i =>
    if bitOf v 0 then
      let d := d.setLink n { d.link n with candidateLane := none }
      (d.setFld (flReg R.FL_STATUS_CANDIDATE n) 0).retireLane n i
    else d

/-- FL_RETIRE_GO (R461): a write of FL_RETIRE. -/
def execFlRetireGo (req : Requester) (n : Nat) (v : Word) (s : State) : Host.Outcome State Fault Refusal :=
  onDev (reqOk req && linkOk n) s fun d => d.flRetireWrite n v

/-- LINK_BLOCK_LOCK_LOSS (R461): the link is retired at once, without a test. -/
def execLinkBlockLockLoss (n : Nat) (s : State) : Host.Outcome State Fault Refusal :=
  onDev (linkOk n) s fun d => if d.linkIn n then d.retireLink n 0 else d

/-! ### Flits (R457) -/

/-- FLIT_RECEIVE (R457): a bad CRC is a retry of the lane that failed, and after three replays a candidacy; a bad tag
is replayed, and the third in a row retires the link. -/
def execFlitReceive (n : Nat) (crcOk tagOk : Bool) (lane fecCorrected : Nat) (s : State) :
    Host.Outcome State Fault Refusal :=
  onData (linkOk n && decide (lane < 24)) s fun d =>
    if !d.linkIn n then d
    else
      let d := d.addSat (flReg R.FL_COUNT_FEC_CORRECTED n) fecCorrected
      let k := d.link n
      if !crcOk then
        let failed := if k.failed.contains lane then k.failed else lane :: k.failed
        let d := d.addSat (flReg R.FL_COUNT_REPLAYS n) 1
        let d := d.transient 1 (24 * n + lane) { source := 0xA, inst := n, cls := 0, location := lane }
        if 3 ≤ k.replayRun then
          failed.foldl (fun d i => d.candidate 1 (24 * n + i) 1 0)
            (d.setLink n { k with replayRun := 0, failed := [] })
        else d.setLink n { k with replayRun := k.replayRun + 1, failed := failed }
      else if !tagOk then
        let d := d.addSat (flReg R.FL_COUNT_REPLAYS n) 1
        if 2 ≤ k.tagRun then d.retireLink n 1 else d.setLink n { k with tagRun := k.tagRun + 1 }
      else d.setLink n { k with flits := k.flits + 1, replayRun := 0, failed := [], tagRun := 0 }

/-- LINK_REKEY (R404): the keys of an active link are renewed. -/
def execLinkRekey (n : Nat) (s : State) : Host.Outcome State Fault Refusal :=
  onDev (linkOk n) s fun d =>
    if d.linkIn n then
      (d.setLink n { d.link n with flits := 0 }).addWrap (flReg R.FL_CRYPTO_REKEYS n) 1
    else d

/-- LINK_TRAINING (R458, R404): what the training of an enabled link ends in; a retired link stays out. -/
def execLinkTraining (n : Nat) (o : LinkOutcome) (s : State) : Host.Outcome State Fault Refusal :=
  onDev (linkOk n) s fun d =>
    if !d.flag (flReg R.FL_CTL_EN n) || d.fld (flReg R.FL_STATUS_STATE n) == 6 then d
    else
      let st (x : Nat) (d : Dev) : Dev := d.setFld (flReg R.FL_STATUS_STATE n) x
      match o with
      | .active peer peerLink width confidential =>
        let d := st (if d.flag (flReg R.FL_CTL_SPARE n) then 4 else 3) d
        let d := (d.setFld (flReg R.FL_STATUS_PEER_SOCKET n) peer).setFld (flReg R.FL_STATUS_PEER_LINK n) peerLink
        let d := d.setFld (flReg R.FL_STATUS_WIDTH n) (Nat.min width (24 - weight 24 (d.lanesRetired n)))
        let d := (d.setFld (flReg R.FL_CRYPTO_REKEYS n) 0).setFld (flReg R.FL_CRYPTO_AUTH_OK n) 1
        (d.setFld (flReg R.FL_CRYPTO_CONFIDENTIAL n) (bnat confidential)).linkChanged
      | .ownSocket => (st 0 d).log { source := 0xA, inst := n, cls := 5 }
      | .authFailed =>
        ((st 7 d).setFld (flReg R.FL_CRYPTO_AUTH_OK n) 0).log { source := 0xA, inst := n, cls := 5 }
      | .noPeer => st 0 d

end Sys2Proof.Machine
end

