-- ==== Sys2Proof/Machine/Chain.lean ====
section
/-!
DEFINITION. The socket chain (R443 to R455) and the shared tick (R248, R254 to R256): enumeration, the ping pass,
messages and their return, breaks, tick loss and resynchronisation.
-/

namespace Sys2Proof.Machine

open Sys2Proof

/-- An error record of the chain (R345): SOURCE 0x11, class event. -/
def Dev.chainRecord (d : Dev) : Dev := d.log { source := 0x11, cls := 5 }

/-- The board's wiring exceeds R444. -/
def Dev.wiring (d : Dev) : Dev := (d.setFld R.CHAIN_STATUS_WIRING 1).chainRecord

/-! ### Enumeration and the ping pass (R446, R447) -/

/-- ENUM (R446): a token reaches this socket. At the head it gives the number of sockets; another takes an ID and
passes the token on, or stays unaddressed. IDs do not change once the ring is enumerated (R455). -/
def execEnum (v : Nat) (overflow : Bool) (s : State) : Host.Outcome State Fault Refusal :=
  onDev (decide (v < 8)) s fun d =>
    if d.chain.enumerated then d
    else if d.isHead then
      let d := d.setFld R.CHAIN_STATUS_PRESENT (2 ^ (v + 1) - 1)
      let d := if overflow then d.setFld R.CHAIN_STATUS_OVERFLOW 1 else d
      { d with
        chain := { d.chain with
          enumerated := true
          pinging := true } }
    else if v < 7 && !overflow then
      let d := d.setFld R.IDENT_SOCKET_ID (v + 1)
      let d := d.setFld R.CHAIN_STATUS_PRESENT (2 ^ (v + 2) - 1)
      { d with chain := { d.chain with enumerated := true } }.chainSend 0x01 [BitVec.ofNat 8 (v + 1), 0]
    else
      let d := (d.setFld R.CHAIN_STATUS_UNADDRESSED 1).setFld R.CHAIN_STATUS_OVERFLOW 1
      d.chainRecord.chainSend 0x01 [BitVec.ofNat 8 v, 1]

/-- ENUM_RETRY (R454): the head starts enumeration again. -/
def execEnumRetry (s : State) : Host.Outcome State Fault Refusal :=
  onDev true s fun d =>
    if d.isHead && !d.chain.enumerated then (d.setFld R.IDENT_SOCKET_ID 0).chainSend 0x01 [0, 0] else d

/-- PING (R447): the upstream socket pings; this one drives ECHO back after 200 ns. -/
def execPing (s : State) : Host.Outcome State Fault Refusal :=
  onDev true s fun d => { d with chain := { d.chain with echo := true } }

/-- ECHO (R447): the socket that pinged has the round trip, in 1.25 ns units, and sends h and its own D downstream. -/
def execEcho (roundTrip : Nat) (s : State) : Host.Outcome State Fault Refusal :=
  onDev true s fun d =>
    if !d.chain.pinging then d
    else
      let h := (roundTrip - 160 + 1) / 2
      let d := { d with chain := { d.chain with pinging := false } }
      d.chainSend 0x02 (leBytes 2 h ++ leBytes 2 (d.fld R.TICK_CTL_DELAY))

/-- DELAY (R447, R248): this socket's inbound hop and its D; at the head, whose D stays 0, the pass is over and COMP
is announced. A hop beyond 150 ns, or a ring beyond 1,100 ns, is a wiring fault (R444). -/
def execDelay (h dUp : Nat) (s : State) : Host.Outcome State Fault Refusal :=
  onDev (decide (h < 1024 && dUp < 65536)) s fun d =>
    let d := { d with
      chain := { d.chain with
        echo := false
        pinging := !d.isHead } }.setFld R.CHAIN_STATUS_HOP h
    let d := if 120 < h || (d.isHead && 880 < dUp + h) then d.wiring else d
    if d.isHead then
      let c := dUp + 32
      (d.setFld R.TICK_CTL_COMP c).chainSend 0x03 (leBytes 2 c)
    else
      let d := d.setFld R.TICK_CTL_DELAY (dUp + h)
      if d.phase == .running then { d with chain := { d.chain with resync := 1 } } else d

/-- COMP (R248). -/
def execComp (c : Nat) (s : State) : Host.Outcome State Fault Refusal :=
  onDev (decide (c < 65536)) s fun d => d.setFld R.TICK_CTL_COMP c

/-- FRAME_START (R246, R446): the first tick after it carries this number. -/
def execFrameStart (f : Word) (s : State) : Host.Outcome State Fault Refusal :=
  onDev true s fun d => { d with chain := { d.chain with nextFrame := some f } }

/-! ### Messages (R449, R453, R455) -/

/-- A message is given up (R449). -/
def Dev.dropMessage (d : Dev) : Dev :=
  let d := { d with
    chain := { d.chain with
      sent := d.chain.sent.tail
      retries := 0 } }
  (d.addSat R.CHAIN_STATUS_MSG_ERRORS 1).chainRecord

/-- CHAIN_MESSAGE_RETURN (R449): the oldest message returns; error-marked it is sent again, and dropped after three
resends. -/
def execChainMessageReturn (ok : Bool) (s : State) : Host.Outcome State Fault Refusal :=
  onDev true s fun d =>
    if d.chain.sent.isEmpty then d
    else if ok then
      { d with
        chain := { d.chain with
          sent := d.chain.sent.tail
          retries := 0 } }
    else if 3 ≤ d.chain.retries then d.dropMessage
    else { d with chain := { d.chain with retries := d.chain.retries + 1 } }

/-- A tick loss is declared (R254). -/
def Dev.tickLost (d : Dev) : Dev :=
  let d := (d.setFld R.TICK_STATUS_SOURCE 1).addSat R.TICK_STATUS_LOSSES 1
  let d := d.setReg R.TICK_LOST_AT_NUMBER.reg d.frame
  let d := { d with chain := { d.chain with resync := 0 } }
  (d.tickEvent R.TICK_EVENT_LOST).chainRecord

/-- CHAIN_BREAK (R452): the inbound hop is broken; the head is on its local tick from then. An update not yet
activated is aborted (R453). -/
def execChainBreak (s : State) : Host.Outcome State Fault Refusal :=
  onDev true s fun d =>
    if !d.chain.enumerated || d.flag R.CHAIN_STATUS_IN_LOST then d
    else
      let d := if d.isHead then d.abortAll 6 else d.abortUpdate 6
      let d := (d.setFld R.CHAIN_STATUS_IN_LOST 1).setFld R.CHAIN_STATUS_MSG_DOWN 1
      let d := (d.addSat R.CHAIN_STATUS_BREAKS 1).chainRecord
      if d.isHead then (d.setFld R.CHAIN_STATUS_RING_OK 0).tickLost else d

/-- CHECK (R455): the ring is closed again; a socket that holds an ID answers. -/
def execCheck (mask : BitVec 8) (s : State) : Host.Outcome State Fault Refusal :=
  onDev true s fun d =>
    if d.isHead || !natBit mask.toNat d.self then d
    else
      let d := (d.setFld R.CHAIN_STATUS_IN_LOST 0).setFld R.CHAIN_STATUS_MSG_DOWN 0
      d.chainSend 0x07 [BitVec.ofNat 8 (2 ^ d.self)]

/-! ### Resynchronisation (R256) -/

/-- The head has every report: it announces the highest plus 1,024. -/
def Dev.announceResync (d : Dev) : Dev :=
  let p := d.fld R.CHAIN_STATUS_PRESENT
  if d.chain.reports &&& p == p then
    let n := d.chain.maxReport + 1024
    { d with
      chain := { d.chain with
        resync := 2
        nextFrame := some n } }.chainSend 0x06 (leBytes 8 n.toNat)
  else d

/-- A resynchronisation begins (R256): the head starts a ping pass (R447) and counts its own number; another socket
slews to the chain pulse and reports its number. -/
def Dev.startResync (d : Dev) : Dev :=
  if d.isHead then
    { d with
      chain := { d.chain with
        resync := 1
        pinging := true
        reports := 2 ^ d.self
        maxReport := d.frame } }.announceResync
  else
    let d := (d.setFld R.TICK_STATUS_SOURCE 2).chainSend 0x05 (leBytes 8 d.frame.toNat)
    { d with chain := { d.chain with resync := 1 } }

/-- RESYNC_START (R256): after 64 good pulses on the local tick, or when the head has started one; the whole ring must
be closed (R453). -/
def execResyncStart (s : State) : Host.Outcome State Fault Refusal :=
  onDev true s fun d =>
    if d.flag R.CHAIN_STATUS_MSG_DOWN || d.chain.resync == 2 then d
    else if (d.fld R.TICK_STATUS_SOURCE == 1 && d.flag R.TICK_CTL_RESYNC_AUTO && 64 ≤ d.chain.good)
      || (!d.isHead && d.chain.resync == 1 && d.fld R.TICK_STATUS_SOURCE != 2) then d.startResync
    else d

/-- A write of TICK_CTL (R259). -/
def Dev.tickCtlWrite (d : Dev) (v : Word) : Dev :=
  let d := d.writeReg R.TICK_CTL_COMP.reg v
  if bitOf v 33 && d.isHead && !d.flag R.CHAIN_STATUS_MSG_DOWN then d.startResync else d

/-- RESYNC_REQ (R256): a write of TICK_CTL. -/
def execResyncReq (req : Requester) (v : Word) (s : State) : Host.Outcome State Fault Refusal :=
  onDev (reqOk req) s fun d => d.tickCtlWrite v

/-- RESYNC_REPORT (R256 step 2): at the head. -/
def execResyncReport (src : Nat) (f : Word) (s : State) : Host.Outcome State Fault Refusal :=
  onDev (decide (src < 8)) s fun d =>
    if !d.isHead || d.chain.resync != 1 then d
    else
      { d with
        chain := { d.chain with
          reports := d.chain.reports ||| 2 ^ src
          maxReport := if d.chain.maxReport.toNat < f.toNat then f else d.chain.maxReport } }.announceResync

/-- RESYNC_SET (R256 step 3): the number that the next tick takes. -/
def execResyncSet (n : Word) (s : State) : Host.Outcome State Fault Refusal :=
  onDev true s fun d =>
    if d.isHead then d
    else
      { d with
        chain := { d.chain with
          resync := 2
          nextFrame := some n } }

/-- RESYNC_TIMEOUT (R256): a socket that has not aligned within 1,000 frames stays on its local tick. -/
def execResyncTimeout (s : State) : Host.Outcome State Fault Refusal :=
  onDev true s fun d =>
    if d.fld R.TICK_STATUS_SOURCE == 2 then
      { d.setFld R.TICK_STATUS_SOURCE 1 with chain := { d.chain with resync := 0 } }.chainRecord
    else d

/-- RING_CLOSE_CHECK (R455): the head's tick has returned for 64 frames; its CHECK finds every ID, and no new socket,
or the ring stays down. -/
def execRingCloseCheck (answers : BitVec 8) (newSocket : Bool) (s : State) : Host.Outcome State Fault Refusal :=
  onDev true s fun d =>
    if !d.isHead || !d.flag R.CHAIN_STATUS_MSG_DOWN || d.chain.good < 64 then d
    else
      let p := d.fld R.CHAIN_STATUS_PRESENT
      if (answers.toNat ||| 2 ^ d.self) &&& p != p then d.chainRecord
      else if newSocket then d
      else
        let d := (d.setFld R.CHAIN_STATUS_MSG_DOWN 0).setFld R.CHAIN_STATUS_IN_LOST 0
        (d.setFld R.CHAIN_STATUS_RING_OK 1).startResync

/-! ### The chain's tick (R254) -/

/-- The size of a signed offset in 1.25 ns units. -/
def offsetSize (o : BitVec 16) : Nat := o.toInt.natAbs

/-- CHAIN_TICK_PULSE (R254): within 40 ns the pulse is good, and beyond 15 ns it is skewed; else it is a miss. -/
def execChainTickPulse (off : Option (BitVec 16)) (s : State) : Host.Outcome State Fault Refusal :=
  onDev true s fun d =>
    let miss (d : Dev) : Dev :=
      { d with
        chain := { d.chain with
          good := 0
          misses := d.chain.misses + 1 } }
    match off with
    | none => miss d
    | some o =>
      let d := d.setFld R.TICK_STATUS_OFFSET o.toNat
      if 32 < offsetSize o then miss d
      else
        let d := { d with
          chain := { d.chain with
            good := d.chain.good + 1
            misses := 0 } }
        let d := if d.isHead && !d.flag R.CHAIN_STATUS_MSG_DOWN then d.setFld R.CHAIN_STATUS_RING_OK 1 else d
        if 12 < offsetSize o && d.fld R.TICK_STATUS_SOURCE == 0 then d.tickEvent R.TICK_EVENT_SKEW else d

/-- TICK_LOSS (R254): the pulses of three frames are missed. -/
def execTickLoss (s : State) : Host.Outcome State Fault Refusal :=
  onDev true s fun d =>
    if 3 ≤ d.chain.misses && d.fld R.TICK_STATUS_SOURCE != 1 then d.tickLost else d

end Sys2Proof.Machine
end

