-- ==== Sys2Proof/Machine/Vector.lean ====
section
/-!
DEFINITION. The vector instructions but VGATHER (R101 to R106): lanes of 8 << W bits.
-/

namespace Sys2Proof.Machine

open Sys2Proof

/-- The lane width of a code W (R101). -/
def laneW (w : BitVec 2) : Nat := 8 * 2 ^ w.toNat

/-- The number of lanes (R101). -/
def lanesOf (w : BitVec 2) : Nat := 256 / laneW w

/-- Lane i of a register (R101). -/
def lane (w : BitVec 2) (v : VWord) (i : Nat) : Nat := v.toNat / 2 ^ (laneW w * i) % 2 ^ laneW w

/-- A lane as a signed number. -/
def laneS (w : BitVec 2) (v : VWord) (i : Nat) : Int :=
  let x := lane w v i
  if x < 2 ^ (laneW w - 1) then x else (x : Int) - 2 ^ laneW w

/-- The register whose lanes are given, each modulo 2^w (R101). -/
def ofLanes (w : BitVec 2) (f : Nat → Nat) : VWord :=
  BitVec.ofNat 256
    ((List.range (lanesOf w)).foldl (fun acc i => acc + f i % 2 ^ laneW w * 2 ^ (laneW w * i)) 0)

/-- A mask of lanes (R103). -/
def laneMask (w : BitVec 2) (p : Nat → Bool) : Word :=
  word ((List.range (lanesOf w)).foldl (fun acc i => acc + bnat (p i) * 2 ^ i) 0)

/-- The lanes that a mask selects, packed toward lane 0 (R103). -/
def packLanes (w : BitVec 2) (a : VWord) (m : Word) : VWord :=
  let picked := ((List.range (lanesOf w)).filter fun i => bitOf m i).map fun i => lane w a i
  ofLanes w fun j => (picked[j]?).getD 0

/-- A left rotation of a 64-bit number. -/
def rotl64 (x k : Nat) : Nat := x * 2 ^ k % 2 ^ 64 + x / 2 ^ (64 - k)

/-- The lane mix of R106. -/
def mixLane (a b : Nat) : Nat :=
  let x := a ^^^ rotl64 b 23
  let x := x * 0x9E3779B97F4A7C15 % 2 ^ 64
  let x := x ^^^ (x / 2 ^ 31)
  let x := x * 0xA3B195E61F4CD82B % 2 ^ 64
  x ^^^ (x / 2 ^ 29)

/-- One bit of a reflected CRC (R105). -/
def crcBit (P c : Nat) : Nat := if c % 2 == 1 then (c / 2) ^^^ P else c / 2

/-- The running CRC over the first k bytes of a register (R105). -/
def crcBytes (P : Nat) (v : VWord) (k c : Nat) : Nat :=
  (List.range k).foldl
    (fun c i => (List.range 8).foldl (fun c _ => crcBit P c) (c ^^^ (v.toNat / 256 ^ i % 256))) c

/-- A CRC step (R105): W must be 0; a long operation. -/
def vcrc (g : Nat) (w : BitVec 2) (d a b : Reg) (s : State) (f : Word → VWord → Word) :
    Host.Outcome State Fault Refusal :=
  runInsn g s (fun _ => { legal := w == 0, vec := true, regs := [.n d, .n a, .v b] }) fun s =>
    let x := s.strand g
    .ok (s.long g (.n d) ((f (x.getN a) (x.getV b)).setWidth 256) .value)

/-- VADD (R102). -/
def execVadd (g : Nat) (w : BitVec 2) (d a b : Reg) (s : State) :
    Host.Outcome State Fault Refusal :=
  execVVV g s d a b true fun _ x y => ofLanes w fun i => lane w x i + lane w y i

/-- VSUB (R102). -/
def execVsub (g : Nat) (w : BitVec 2) (d a b : Reg) (s : State) :
    Host.Outcome State Fault Refusal :=
  execVVV g s d a b true fun _ x y => ofLanes w fun i => lane w x i + 2 ^ laneW w - lane w y i

/-- VAND (R102): W has no effect. -/
def execVand (g : Nat) (_ : BitVec 2) (d a b : Reg) (s : State) :
    Host.Outcome State Fault Refusal :=
  execVVV g s d a b true fun _ x y => x &&& y

/-- VOR (R102): W has no effect. -/
def execVor (g : Nat) (_ : BitVec 2) (d a b : Reg) (s : State) :
    Host.Outcome State Fault Refusal :=
  execVVV g s d a b true fun _ x y => x ||| y

/-- VXOR (R102): W has no effect. -/
def execVxor (g : Nat) (_ : BitVec 2) (d a b : Reg) (s : State) :
    Host.Outcome State Fault Refusal :=
  execVVV g s d a b true fun _ x y => x ^^^ y

/-- VANDN (R102): W has no effect. -/
def execVandn (g : Nat) (_ : BitVec 2) (d a b : Reg) (s : State) :
    Host.Outcome State Fault Refusal :=
  execVVV g s d a b true fun _ x y => x &&& ~~~y

/-- VMIN (R102). -/
def execVmin (g : Nat) (w : BitVec 2) (d a b : Reg) (s : State) :
    Host.Outcome State Fault Refusal :=
  execVVV g s d a b true fun _ x y => ofLanes w fun i => if laneS w x i ≤ laneS w y i then lane w x i else lane w y i

/-- VMAX (R102). -/
def execVmax (g : Nat) (w : BitVec 2) (d a b : Reg) (s : State) :
    Host.Outcome State Fault Refusal :=
  execVVV g s d a b true fun _ x y => ofLanes w fun i => if laneS w x i ≤ laneS w y i then lane w y i else lane w x i

/-- VMINU (R102). -/
def execVminu (g : Nat) (w : BitVec 2) (d a b : Reg) (s : State) :
    Host.Outcome State Fault Refusal :=
  execVVV g s d a b true fun _ x y => ofLanes w fun i => Nat.min (lane w x i) (lane w y i)

/-- VMAXU (R102). -/
def execVmaxu (g : Nat) (w : BitVec 2) (d a b : Reg) (s : State) :
    Host.Outcome State Fault Refusal :=
  execVVV g s d a b true fun _ x y => ofLanes w fun i => Nat.max (lane w x i) (lane w y i)

/-- VSHL (R102): the amount is b modulo w. -/
def execVshl (g : Nat) (w : BitVec 2) (d a b : Reg) (s : State) :
    Host.Outcome State Fault Refusal :=
  execVVN g s d a b true fun _ x y =>
    let k := y.toNat % laneW w
    ofLanes w fun i => lane w x i * 2 ^ k

/-- VSHR (R102): the amount is b modulo w. -/
def execVshr (g : Nat) (w : BitVec 2) (d a b : Reg) (s : State) :
    Host.Outcome State Fault Refusal :=
  execVVN g s d a b true fun _ x y =>
    let k := y.toNat % laneW w
    ofLanes w fun i => lane w x i / 2 ^ k

/-- VSAR (R102): the amount is b modulo w. -/
def execVsar (g : Nat) (w : BitVec 2) (d a b : Reg) (s : State) :
    Host.Outcome State Fault Refusal :=
  execVVN g s d a b true fun _ x y =>
    let k := y.toNat % laneW w
    ofLanes w fun i => ((laneS w x i / 2 ^ k) % 2 ^ laneW w).toNat

/-- VSPLAT (R102): b must be 0. -/
def execVsplat (g : Nat) (w : BitVec 2) (d a b : Reg) (s : State) :
    Host.Outcome State Fault Refusal :=
  execVN g s d a (b == 0) fun _ x => ofLanes w fun _ => x.toNat

/-- VEXT (R102): b is a lane index, an encoding fault from L on. -/
def execVext (g : Nat) (w : BitVec 2) (d a b : Reg) (s : State) :
    Host.Outcome State Fault Refusal :=
  execNV g s d a (decide (b.toNat < lanesOf w)) fun x => word (lane w x b.toNat)

/-- VINS (R102): b is a lane index, an encoding fault from L on. -/
def execVins (g : Nat) (w : BitVec 2) (d a b : Reg) (s : State) :
    Host.Outcome State Fault Refusal :=
  execVN g s d a (decide (b.toNat < lanesOf w)) fun old x =>
    ofLanes w fun i => if i == b.toNat then x.toNat else lane w old i

/-- VCMPEQ (R102, R103). -/
def execVcmpeq (g : Nat) (w : BitVec 2) (d a b : Reg) (s : State) :
    Host.Outcome State Fault Refusal :=
  execNVV g s d a b true fun x y => laneMask w fun i => lane w x i == lane w y i

/-- VCMPLT (R102, R103). -/
def execVcmplt (g : Nat) (w : BitVec 2) (d a b : Reg) (s : State) :
    Host.Outcome State Fault Refusal :=
  execNVV g s d a b true fun x y => laneMask w fun i => decide (laneS w x i < laneS w y i)

/-- VCMPLTU (R102, R103). -/
def execVcmpltu (g : Nat) (w : BitVec 2) (d a b : Reg) (s : State) :
    Host.Outcome State Fault Refusal :=
  execNVV g s d a b true fun x y => laneMask w fun i => decide (lane w x i < lane w y i)

/-- VSEL (R102, R103). -/
def execVsel (g : Nat) (w : BitVec 2) (d a b : Reg) (s : State) :
    Host.Outcome State Fault Refusal :=
  execVVN g s d a b true fun old x m => ofLanes w fun i => if bitOf m i then lane w x i else lane w old i

/-- VCOMPRESS (R103). -/
def execVcompress (g : Nat) (w : BitVec 2) (d a b : Reg) (s : State) :
    Host.Outcome State Fault Refusal :=
  execVVN g s d a b true fun _ x m => packLanes w x m

/-- VCRC32C (R105): over the first k + 1 bytes of b. -/
def execVcrc32c (g : Nat) (w : BitVec 2) (k : BitVec 5) (d a b : Reg) (s : State) :
    Host.Outcome State Fault Refusal :=
  vcrc g w d a b s fun x y => word (crcBytes 0x82F63B78 y (k.toNat + 1) (x.toNat % 2 ^ 32))

/-- VCRC64 (R105): over the first k + 1 bytes of b. -/
def execVcrc64 (g : Nat) (w : BitVec 2) (k : BitVec 5) (d a b : Reg) (s : State) :
    Host.Outcome State Fault Refusal :=
  vcrc g w d a b s fun x y => word (crcBytes 0xC96C5795D7870F42 y (k.toNat + 1) x.toNat)

/-- VHMIX (R106): W must be 3; a long operation. -/
def execVhmix (g : Nat) (w : BitVec 2) (d a b : Reg) (s : State) :
    Host.Outcome State Fault Refusal :=
  execVVVLong g s d a b (w == 3) fun x y =>
    ofLanes 3 fun i => mixLane (lane 3 x i) (lane 3 y i)

/-- VHFOLD (R106): W must be 3 and b 0; a long operation. -/
def execVhfold (g : Nat) (w : BitVec 2) (d a b : Reg) (s : State) :
    Host.Outcome State Fault Refusal :=
  runInsn g s (fun _ => { legal := w == 3 && b == 0, vec := true, regs := [.n d, .v a] }) fun s =>
    let x := (s.strand g).getV a
    let f := lane 3 x 0 ^^^ rotl64 (lane 3 x 1) 16 ^^^ rotl64 (lane 3 x 2) 32 ^^^ rotl64 (lane 3 x 3) 48
    .ok (s.long g (.n d) (BitVec.ofNat 256 f) .value)

end Sys2Proof.Machine
end

