-- ==== Sys2Proof/Machine/Ledger.lean ====
section
/-!
DEFINITION. The Ledger Engine (R425 to R442): functions, queue pairs, descriptors and their operations, completions, log
streams, quiesce, dirty-page logging, and the stop in a drain.
-/

namespace Sys2Proof.Machine

open Sys2Proof

/-! ### Registers of functions, pairs and streams (R429, R430) -/

/-- A register of pair q's queue page. -/
def qReg (f : Field) (q : Nat) : Field := f.at (0x100 * q)

/-- The status register of function f. -/
def fnReg (f : Field) (k : Nat) : Field := f.at (8 * k)

/-- A register of stream t. -/
def streamReg (f : Field) (t : Nat) : Field := f.at (0x20 * t)

def queueOk (q : Nat) : Bool := decide (q < 8192)
def streamOk (t : Nat) : Bool := decide (t < 4096)
def funcOk (f : Nat) : Bool := decide (f < 2048)

/-- The function that a pair is given to (R428). -/
def Dev.qOwner (d : Dev) (q : Nat) : Nat := d.fld (R.QP_ASSIGN_FUNC.at (8 * q)) % 2048

/-- The requester ID of a function (R425). -/
def fnRid (f : Nat) : Nat := if f == 0 then 0 else 0x0100 + f - 1

/-- Whether a function exists and neither quiesces nor is in D3hot (R437, R438). -/
def Dev.fnOn (d : Dev) (f : Nat) : Bool :=
  let x := d.func f
  (f == 0 || x.exposed) && !x.quiescing && !x.d3

/-- Whether a function may issue DMA (R427). -/
def Dev.fnDma (d : Dev) (f : Nat) : Bool := d.fnOn f && (d.func f).bme

/-- The pairs of a function that the engine keeps something of. -/
def Dev.pairsOf (d : Dev) (f : Nat) : List Nat :=
  (d.queues.map fun kv => kv.1).filter fun q => d.qOwner q == f

/-- `STATUS` and `FN_STATUS` of a function (R438). -/
def Dev.showFn (d : Dev) (f : Nat) : Dev :=
  let x := d.func f
  let wants := x.wantBme || x.wantVf || (d.pairsOf f).any fun q => (d.queue q).pendingEn
  let d := d.setFld (fnReg R.FN_STATUS_ENABLED f) (bnat (d.fnDma f))
  (d.setFld (fnReg R.FN_STATUS_QUIESCING f) (bnat x.quiescing)).setFld (fnReg R.FN_STATUS_PENDING_ENABLE f) (bnat wants)

/-- The entries of a submission ring, and of a completion ring (R430). -/
def Dev.sqSize (d : Dev) (q : Nat) : Nat := 64 * 2 ^ Nat.min 10 (d.fld (qReg R.SQ_BASE_SIZE q))
def Dev.cqSize (d : Dev) (q : Nat) : Nat := 64 * 2 ^ Nat.min 10 (d.fld (qReg R.CQ_BASE_SIZE q))

/-- `Q_STATUS` follows what is in flight (R430). -/
def Dev.showQueue (d : Dev) (q : Nat) : Dev :=
  let n := (d.queue q).inflight.length
  (d.setFld (qReg R.Q_STATUS_INFLIGHT q) n).setFld (qReg R.Q_STATUS_IDLE q) (bnat (n == 0))

/-- A pair halts with an error code (R430). -/
def Dev.queueErr (d : Dev) (q e : Nat) : Dev := d.setFld (qReg R.Q_STATUS_ERR q) e

/-! ### Descriptors (R432, R433) -/

/-- Doubleword i of a descriptor. -/
def Desc.w (x : Desc) (i : Nat) : Word := word (leNat ((x.raw.drop (8 * i)).take 8))

def Desc.op (x : Desc) : Nat := getF (x.w 0) 0 8
def Desc.fence (x : Desc) : Bool := bitOf (x.w 0) 8
def Desc.intr (x : Desc) : Bool := bitOf (x.w 0) 9
def Desc.opflag (x : Desc) (i : Nat) : Bool := bitOf (x.w 0) (10 + i)
def Desc.stream (x : Desc) : Nat := getF (x.w 0) 16 12
def Desc.tag (x : Desc) : Nat := getF (x.w 0) 32 32
def Desc.src (x : Desc) : Nat := (x.w 1).toNat
def Desc.dst (x : Desc) : Nat := (x.w 2).toNat
def Desc.len (x : Desc) : Nat := getF (x.w 3) 0 32
def Desc.arg0 (x : Desc) : Word := x.w 4
def Desc.arg1 (x : Desc) : Word := x.w 5

/-- The data unit of ENCRYPT. -/
def Desc.xtsUnit (x : Desc) : Nat := if x.opflag 1 then 4096 else 512

/-- Whether a descriptor is well formed (R433): else it completes with BAD_DESC. -/
def Desc.wellFormed (x : Desc) : Bool :=
  1 ≤ x.op && x.op ≤ 7 && getF (x.w 0) 28 4 == 0 && getF (x.w 3) 32 32 == 0 && x.w 6 == 0 && x.w 7 == 0 &&
    x.len != 0 && (x.op != 3 || decide (x.len ≤ 65536)) && (x.op != 5 || x.len % x.xtsUnit == 0)

/-- The codes of STATUS (R435). -/
abbrev leOk : Nat := 0
abbrev leAddress : Nat := 1
abbrev leTranslation : Nat := 2
abbrev lePoison : Nat := 3
abbrev lePort : Nat := 4
abbrev leDiffer : Nat := 5
abbrev leStreamFull : Nat := 6
abbrev leBadDesc : Nat := 7
abbrev leStopped : Nat := 8
abbrev leNotPeat : Nat := 9

/-! ### The engine's reads and writes -/

/-- What the engine has read: bytes before the first failure, and its status. -/
structure LedGot where
  bytes : List Byte
  status : Nat
  dev : Dev
  deriving DecidableEq, Repr

/-- A window of a port that the engine reaches (R411, R416, R419): the port's status, or nothing claims it. -/
def Dev.ledWindow (d : Dev) (pa : Nat) : Nat × Dev :=
  match d.windowPort pa with
  | none => (leAddress, (d.unclaimed pa 0xFFF).1)
  | some pt =>
    if d.contained pt then (lePort, d.addSat (kpReg R.KPORT_COUNT_LOST pt) 1) else (leOk, d)

/-- Reads one part of a line for a function (R433): a device's bytes are free values. -/
def ledReadPart (rid : Nat) (r : LedGot) (p : Nat × Nat) : LedGot :=
  if r.status != leOk then r
  else
    match r.dev.ioTo rid p.1 false with
    | .refused d => { r with status := leTranslation, dev := d }
    | .unclaimed d => { r with status := leAddress, dev := d }
    | .window pa d =>
      let w := d.ledWindow pa
      let f := w.2.drawLine
      if w.1 == leOk then { r with bytes := r.bytes ++ takeBytes f.1 0 p.2, dev := f.2 }
      else { r with status := w.1, dev := w.2 }
    | .mem pa key _ d =>
      let x := d.ioRead pa p.2 key
      if x.1.poison then { r with status := lePoison, dev := x.1.dev }
      else { r with bytes := r.bytes ++ x.2, dev := x.1.dev }

/-- Reads n bytes for a function. -/
def Dev.ledRead (d : Dev) (rid addr n : Nat) : LedGot :=
  (lineParts addr n).foldl (ledReadPart rid) ⟨[], leOk, d⟩

/-- The dirty-page log of VF v (R439): its registers. -/
def dlReg (f : Field) (v : Nat) : Field := f.at (0x40 * (v - 1))

/-- The entries of a VF's log ring. -/
def Dev.dlSize (d : Dev) (v : Nat) : Nat := 512 * 2 ^ Nat.min 12 (d.fld (dlReg R.DLOG_RING_SIZE v))

/-- Whether a VF's log ring is full: its next index would meet the head. -/
def Dev.dlFull (d : Dev) (v : Nat) : Bool :=
  let n := d.dlSize v
  (d.fld (dlReg R.DLOG_RING_TAIL_INDEX v) + 1) % n == d.fld (dlReg R.DLOG_RING_HEAD_INDEX v) % n

/-- A page of a VF enters the bitmap (R439). -/
def Dev.logBit (d : Dev) (v page : Nat) : Dev :=
  let gen := d.fld (dlReg R.DLOG_GEN_GEN_ACK v)
  let f := if gen % 2 == 0 then R.DLOG_MAP0_ADDR else R.DLOG_MAP1_ADDR
  if d.fld (dlReg R.DLOG_CTL_GIB v) * 2 ^ 18 ≤ page then d.setFld (dlReg R.DLOG_CTL_OVERFLOW v) 1
  else
    let a := d.fld (dlReg f v) * 4096 + page / 64 * 8
    (d.farWord a fun x => x ||| 2 ^ (page % 64)).2

/-- A page of a VF enters the ring (R439). -/
def Dev.logEntry (d : Dev) (v page : Nat) : Dev :=
  let t := d.fld (dlReg R.DLOG_RING_TAIL_INDEX v)
  let a := d.fld (dlReg R.DLOG_RING_ADDR v) * 4096 + 8 * t
  let e := page * 4096 + d.fld (dlReg R.DLOG_GEN_GEN_ACK v) % 4096
  (d.farWord a fun _ => e).2.setFld (dlReg R.DLOG_RING_TAIL_INDEX v) ((t + 1) % d.dlSize v)

/-- Logs a page that the engine writes for a function (R439): none when the write must wait for ring space. -/
def Dev.logPage (d : Dev) (f ipa : Nat) : Option Dev :=
  if f == 0 || !d.flag (dlReg R.DLOG_CTL_EN f) then some d
  else if !d.duty 1 then some (d.logBit f (ipa / 4096))
  else if !d.dlFull f then some (d.logEntry f (ipa / 4096))
  else if d.flag (dlReg R.DLOG_CTL_FULL_STALL f) && d.phase == .running then none
  else some (d.setFld (dlReg R.DLOG_CTL_OVERFLOW f) 1)

/-- The tag of the engine's direct Peat writes: the pair, beyond the strands. -/
def ledStrand (q : Nat) : Nat := 2 ^ 20 + q

/-- Marks the line just sent to a stack's intake as a direct write, with its tag (R271, R276). -/
def Dev.tagDirect (d : Dev) (g : Nat) (tag : Nat × Nat) : Dev :=
  let n := stackOf g
  let k := d.stack n
  match k.waitQ.reverse with
  | [] => d
  | e :: es =>
    if e.g != g then d
    else
      let e' := { e with
        direct := tag :: e.direct
        credit := some d.frame }
      let d := d.setStack n { k with waitQ := (e' :: es).reverse }
      { d with directPw := d.directPw ++ [⟨tag.1, tag.2, g, d.frame⟩] }

/-- Marks the line just sent to a stack's intake as a write of a descriptor, at an offset into it (R434). -/
def Dev.tagIntake (d : Dev) (g q sq off : Nat) : Dev := d.tagDirect g (ledStrand q, sq * 2 ^ 32 + off)

/-- Whether the engine may write a Peat line now: its stack's share has a credit left (R273, R434); a stack of another
socket grants outside the model; in the drain none is needed. -/
def Dev.ledCredit (d : Dev) (g : Nat) : Bool :=
  !d.homedHere g || d.phase == .drain || (d.stack (stackOf g)).ledgerLeft != 0

/-- Draws a credit of the Ledger share. -/
def Dev.drawLedCredit (d : Dev) (g : Nat) : Dev :=
  let k := d.stack (stackOf g)
  if d.homedHere g then d.setStack (stackOf g) { k with ledgerLeft := k.ledgerLeft - 1 } else d

/-- What a write of part of a line has come to. -/
inductive LedPut
  | ok (s : State)
  | fail (status : Nat) (s : State)
  | wait (s : State)
  deriving DecidableEq, Repr

/-- Who writes: the function, the pair, the descriptor's sequence and the offset into it; where its lines go; the range that
the descriptor reads. -/
structure LedBy where
  fn : Nat
  q : Nat
  sq : Nat
  off : Nat
  target : BitVec 16
  src : Option (Nat × Nat)
  deriving DecidableEq, Repr

/-- Writes bytes within one line for a function (R427, R433, R434, R439). -/
def State.ledWrite (s : State) (b : LedBy) (addr : Nat) (bs : List Byte) : LedPut :=
  match s.dev.ioTo (fnRid b.fn) addr true with
  | .refused d => .fail leTranslation { s with dev := d }
  | .unclaimed d => .fail leAddress { s with dev := d }
  | .window pa d =>
    let w := d.ledWindow pa
    if w.1 == leOk then .ok { s with dev := w.2 } else .fail w.1 { s with dev := w.2 }
  | .mem pa key ipa d =>
    let g := pa / 64
    if isPeat g && !d.ledCredit g then .wait { s with dev := d }
    else
      match d.logPage b.fn ipa with
      | none => .wait { s with dev := d.setFld (dlReg R.DLOG_CTL_STALLED b.fn) 1 }
      | some d =>
        let d := if isPeat g then d.drawLedCredit g else d
        let s := { s with dev := d }.ioStash g (pa % 64) bs key b.target false
        .ok (if isPeat g && s.dev.homedHere g then { s with dev := s.dev.tagIntake g b.q b.sq b.off } else s)

/-! ### Running a descriptor (R431, R433) -/

/-- How far an operation has come. -/
structure Run where
  s : State
  bytes : Nat
  status : Nat
  waits : Bool
  deriving DecidableEq, Repr

/-- What a part of a write brings (R431): a byte whose place the descriptor's own source overlaps is a free value. -/
def Dev.overlapped (d : Dev) (b : LedBy) (a : Nat) (bs : List Byte) : List Byte × Dev :=
  match b.src with
  | none => (bs, d)
  | some (lo, n) =>
    if a < lo + n && lo < a + bs.length then
      let f := d.drawLine
      (bs.zipIdx.map fun p => if lo ≤ a + p.2 && a + p.2 < lo + n then lineByte f.1 p.2 else p.1, f.2)
    else (bs, d)

/-- Writes a list of bytes from an address on, part by part, from what is done already; it stops at the first failure or
wait. -/
def runWrite (b : LedBy) (addr : Nat) (bs : List Byte) (r : Run) : Run :=
  (lineParts addr bs.length).foldl (fun r p =>
    if r.status != leOk || r.waits then r
    else
      let v := r.s.dev.overlapped b p.1 ((bs.drop (p.1 - addr)).take p.2)
      match { r.s with dev := v.2 }.ledWrite { b with off := r.bytes } p.1 v.1 with
      | .ok s => { r with s := s, bytes := r.bytes + p.2 }
      | .fail e s => { r with s := s, status := e }
      | .wait s => { r with s := s, waits := true }) r

/-- One part of a copy: its source is read, then its destination written (R433). -/
def copyPart (b : LedBy) (x : Desc) (r : Run) (p : Nat × Nat) : Run :=
  if r.status != leOk || r.waits then r
  else
    let got := r.s.dev.ledRead (fnRid b.fn) (x.src + (p.1 - x.dst)) p.2
    let s := { r.s with dev := got.dev }
    let w := runWrite b p.1 got.bytes { r with s := s }
    if w.status != leOk || w.waits then w else { w with status := got.status }

/-- COPY and STASHCOPY, from the bytes done so far. -/
def runCopy (b : LedBy) (x : Desc) (r : Run) : Run :=
  (lineParts (x.dst + r.bytes) (x.len - r.bytes)).foldl (copyPart b x) r

/-- FILL (R433): byte j of DST is ARG0.byte[j mod 8]. -/
def runFill (b : LedBy) (x : Desc) (r : Run) : Run :=
  let n := r.bytes
  runWrite b (x.dst + n)
    ((List.range (x.len - n)).map fun i => BitVec.ofNat 8 (x.arg0.toNat / 256 ^ ((n + i) % 8))) r

/-- The CRC-64 of bytes from a start value (R105, R433). -/
def crc64 (start : Nat) (bs : List Byte) : Nat :=
  bs.foldl (fun c b => (List.range 8).foldl (fun c _ => crcBit 0xC96C5795D7870F42 c) (c ^^^ b.toNat)) start

/-- One data unit of ENCRYPT (R433): read, transformed, written; only whole units count. -/
def xtsUnit (b : LedBy) (x : Desc) (key : List Byte) (r : Run) (k : Nat) : Run :=
  if r.status != leOk || r.waits then r
  else
    let n := x.xtsUnit
    let got := r.s.dev.ledRead (fnRid b.fn) (x.src + k * n) n
    let s := { r.s with dev := got.dev }
    if got.status != leOk then { r with s := s, status := got.status }
    else
      let tweak := (x.arg1.toNat + k) % 2 ^ 128
      let out := Config.xts key tweak (x.opflag 0) got.bytes
      let bs := (List.range n).map fun i => (out[i]?).getD 0
      let w := runWrite b (x.dst + k * n) bs { r with s := s }
      if w.status != leOk || w.waits then { w with bytes := r.bytes } else w

/-- ENCRYPT, from the units done so far. -/
def runEncrypt (b : LedBy) (x : Desc) (r : Run) : Run :=
  let k := r.s.dev.ledRead (fnRid b.fn) x.arg0.toNat 64
  let s := { r.s with dev := k.dev }
  if k.status != leOk then { r with s := s, status := k.status }
  else
    let n := x.xtsUnit
    (((List.range (x.len / n)).drop (r.bytes / n)).foldl (xtsUnit b x k.bytes)) { r with s := s }

/-- The physical granularity of a stream: its region's size (R436). -/
def Dev.streamSize (d : Dev) (t : Nat) : Nat :=
  let l := d.fld (streamReg R.STREAM_CTL_LOG2SIZE t)
  2 ^ (if 12 ≤ l && l ≤ 36 then l else 12)

/-- The address of a stream's byte (R436). -/
def Dev.streamAddr (d : Dev) (t off : Nat) : Nat :=
  d.fld (streamReg R.STREAM_BASE_ADDR t) * 4096 + off % d.streamSize t

/-- One part of an APPEND (R436): its bytes at their place in the region, which must lie in this socket's Peat user
window. -/
def appendPart (b : LedBy) (x : Desc) (r : Run) (p : Nat × Nat) : Run :=
  if r.status != leOk || r.waits then r
  else
    let got := r.s.dev.ledRead (fnRid b.fn) (x.src + r.bytes) p.2
    let s := { r.s with dev := got.dev }
    if got.status != leOk then { r with s := s, status := got.status }
    else
      match s.dev.ioTo (fnRid b.fn) p.1 true with
      | .refused d => { r with s := { s with dev := d }, status := leTranslation }
      | .unclaimed d => { r with s := { s with dev := d }, status := leNotPeat }
      | .window _ d => { r with s := { s with dev := d }, status := leNotPeat }
      | .mem pa _ _ d =>
        let s := { s with dev := d }
        if isPeat (pa / 64) && d.homedHere (pa / 64) then runWrite b p.1 got.bytes { r with s := s }
        else { r with s := s, status := leNotPeat }

/-- APPEND, from the bytes done so far: a range that passes the region's end goes on at its start. -/
def runAppend (b : LedBy) (x : Desc) (r : Run) : Run :=
  let d := r.s.dev
  let from' := x.resv + r.bytes
  let size := d.streamSize x.stream
  let n := x.len - r.bytes
  let first := Nat.min n (size - from' % size)
  let ps := lineParts (d.streamAddr x.stream from') first ++ lineParts (d.streamAddr x.stream 0) (n - first)
  ps.foldl (appendPart b x) r

/-- Replaces the descriptor with a sequence in a pair's list. -/
def Dev.setDesc (d : Dev) (q sq : Nat) (f : Desc → Desc) : Dev :=
  let x := d.queue q
  d.setQueue q { x with inflight := x.inflight.map fun e => if e.sq == sq then f e else e }

/-- The descriptor with a sequence of a pair. -/
def Dev.desc (d : Dev) (q sq : Nat) : Option Desc := (d.queue q).inflight.find? fun e => e.sq == sq

/-- Whether a descriptor may start or go on (R427, R431, R437): every earlier one of its queue has started, with FENCE
every earlier one has completed; its function may issue DMA; the engine runs. -/
def Dev.mayRun (d : Dev) (q : Nat) (x : Desc) : Bool :=
  let before := (d.queue q).inflight.takeWhile fun e => e.sq != x.sq
  !x.done && (before.all fun e => e.started || e.done) && (!x.fence || before.isEmpty) && d.fnDma (d.qOwner q)
    && (d.phase == .running || d.phase == .drain)

/-- Runs the descriptor with a sequence when it has this operation (R433): its progress is kept while it waits. -/
def State.runDesc (s : State) (q sq op : Nat) (target : Desc → BitVec 16) (f : LedBy → Desc → Run → Run)
    (result : Desc → Run → Nat) : State :=
  match s.dev.desc q sq with
  | none => s
  | some x =>
    if x.op != op || !s.dev.mayRun q x then s
    else
      let b : LedBy := ⟨s.dev.qOwner q, q, sq, 0, target x, if x.op == 2 then none else some (x.src, x.len)⟩
      let r := f b x ⟨s, x.bytes, leOk, false⟩
      let x' (e : Desc) : Desc := { e with
        started := true
        done := !r.waits
        status := r.status
        bytes := r.bytes
        result := word (if r.waits then 0 else result x r) }
      { r.s with dev := r.s.dev.setDesc q sq x' }

/-- A data-plane command of the engine (R489). -/
def onLedger (ok : Bool) (f : State → State) (s : State) : Host.Outcome State Fault Refusal :=
  if !ok then .fault .noSuchUnit
  else if s.dev.clocksOk then .next (f s) else .fault .outsideClockRelations

/-- HOME = 1 (R433). -/
def homeTarget (_ : Desc) : BitVec 16 := 0x8000

/-- COPY (R433). -/
def execCopy (q sq : Nat) (s : State) : Host.Outcome State Fault Refusal :=
  onLedger (queueOk q) (fun s => s.runDesc q sq 1 homeTarget runCopy fun _ _ => 0) s

/-- FILL (R433). -/
def execFill (q sq : Nat) (s : State) : Host.Outcome State Fault Refusal :=
  onLedger (queueOk q) (fun s => s.runDesc q sq 2 homeTarget runFill fun _ _ => 0) s

/-- APPEND (R436). -/
def execAppend (q sq : Nat) (s : State) : Host.Outcome State Fault Refusal :=
  onLedger (queueOk q) (fun s => s.runDesc q sq 3 homeTarget runAppend fun x _ => x.resv) s

/-- The outcome of DIGEST: with OPFLAGS[0] the digest is written to DST, and BYTES_DONE counts the source (R433). -/
def runDigest (b : LedBy) (x : Desc) (r : Run) : Run :=
  let got := r.s.dev.ledRead (fnRid b.fn) x.src x.len
  let s := { r.s with dev := got.dev }
  if got.status != leOk then ⟨s, got.bytes.length, got.status, false⟩
  else if x.opflag 0 then
    let w := runWrite b x.dst (takeBytes (Config.sha3 got.bytes) 0 64) ⟨s, 0, leOk, false⟩
    { w with bytes := if w.waits then 0 else x.len }
  else ⟨s, x.len, leOk, false⟩

/-- The CRC-64 that DIGEST gives: of the source as it stands. -/
def digestResult (x : Desc) (rid : Nat) (d : Dev) : Nat :=
  if x.opflag 0 then 0 else crc64 x.arg0.toNat (d.ledRead rid x.src x.len).bytes

/-- DIGEST (R433). -/
def execDigest (q sq : Nat) (s : State) : Host.Outcome State Fault Refusal :=
  onLedger (queueOk q) (fun t => t.runDesc q sq 4 homeTarget runDigest
    fun x r => if r.status == leOk then digestResult x (fnRid (t.dev.qOwner q)) t.dev else 0) s

/-- ENCRYPT (R433). -/
def execEncrypt (q sq : Nat) (s : State) : Host.Outcome State Fault Refusal :=
  onLedger (queueOk q) (fun s => s.runDesc q sq 5 homeTarget runEncrypt fun _ _ => 0) s

/-- The offset of the first byte in which two lists differ, or their common length. -/
def firstDiff : List Byte → List Byte → Nat
  | a :: as, b :: bs => if a == b then firstDiff as bs + 1 else 0
  | _, _ => 0

/-- COMPARE (R433): the bytes compared end with the first that differs. -/
def runCompare (b : LedBy) (x : Desc) (r : Run) : Run :=
  let p := r.s.dev.ledRead (fnRid b.fn) x.src x.len
  let q := p.dev.ledRead (fnRid b.fn) x.dst x.len
  let s := { r.s with dev := q.dev }
  let n := Nat.min p.bytes.length q.bytes.length
  let k := firstDiff p.bytes q.bytes
  if k < n then ⟨s, k + 1, leDiffer, false⟩
  else ⟨s, n, if p.status != leOk then p.status else q.status, false⟩

/-- COMPARE (R433). -/
def execCompare (q sq : Nat) (s : State) : Host.Outcome State Fault Refusal :=
  onLedger (queueOk q) (fun s => s.runDesc q sq 6 homeTarget runCompare
    fun x r => if r.status == leDiffer then r.bytes - 1 else x.len) s

/-- STASHCOPY (R433): each destination line goes to the target ARG0 names. -/
def execStashcopy (q sq : Nat) (s : State) : Host.Outcome State Fault Refusal :=
  onLedger (queueOk q) (fun s => s.runDesc q sq 7 (fun x => x.arg0.setWidth 16) runCopy fun _ _ => 0) s

/-! ### Queues (R428, R430, R431) -/

/-- SQ_DOORBELL (R431, R438): a write of `SQ_TAIL`. -/
def Dev.sqDoorbell (d : Dev) (q : Nat) (v : Word) : Dev :=
  let f := d.qOwner q
  if (d.func f).quiescing then d.addSat (fnReg R.FN_STATUS_DROPPED f) 1
  else if !d.fnOn f then d
  else if d.flag (qReg R.Q_CTL_EN q) && d.sqSize q ≤ getF v 0 16 then d.queueErr q 1
  else d.setFld (qReg R.SQ_TAIL_INDEX q) (getF v 0 16)

/-- SQ_DOORBELL (R431). -/
def execSqDoorbell (q : Nat) (v : Word) (s : State) : Host.Outcome State Fault Refusal :=
  onDev (queueOk q) s fun d => d.sqDoorbell q v

/-- The descriptors in flight in the engine. -/
def Dev.inFlight (d : Dev) : Nat := d.queues.foldl (fun n kv => n + kv.2.inflight.length) 0

/-- Whether a pair fetches (R298, R427, R430, R431). -/
def Dev.mayFetch (d : Dev) (q : Nat) : Bool :=
  let x := d.queue q
  d.phase == .running && d.flag (qReg R.Q_CTL_EN q) && !d.flag (qReg R.Q_CTL_PAUSE q)
    && d.fld (qReg R.Q_STATUS_ERR q) == 0 && d.fnDma (d.qOwner q)
    && x.head % d.sqSize q != d.fld (qReg R.SQ_TAIL_INDEX q) && decide (x.inflight.length < 256)
    && decide (d.inFlight < 1024)

/-- An APPEND as fetched (R436): it reserves its range, or is done with the status that refuses it. -/
def Dev.reserve (d : Dev) (q : Nat) (x : Desc) : Desc × Dev :=
  let t := x.stream
  let st := d.stream t
  let stop (e : Nat) : Desc × Dev := ({ x with started := true, done := true, status := e }, d)
  if !d.flag (streamReg R.STREAM_CTL_EN t) || st.closing || d.fld (streamReg R.STREAM_CTL_OWNER t) != d.qOwner q then
    stop leBadDesc
  else if d.streamSize t < st.resv - d.fld (streamReg R.STREAM_HEAD_OFFSET t) + x.len then stop leStreamFull
  else
    ({ x with resv := st.resv },
      d.setStream t { st with
        resv := st.resv + x.len
        ranges := st.ranges ++ [(q, x.sq, st.resv, x.len, false)] })

/-- A descriptor as fetched (R433, R436). -/
def Dev.admitDesc (d : Dev) (q : Nat) (x : Desc) : Desc × Dev :=
  if !x.wellFormed then ({ x with started := true, done := true, status := leBadDesc }, d)
  else if x.op == 3 then d.reserve q x
  else (x, d)

/-- DESCRIPTOR_FETCH (R431, R435): the next descriptor of a pair. -/
def Dev.fetchDesc (d : Dev) (q : Nat) : Dev :=
  if !d.mayFetch q then d
  else
    let x := d.queue q
    let a := d.fld (qReg R.SQ_BASE_ADDR q) * 4096 + 64 * (x.head % d.sqSize q)
    let got := d.ledRead (fnRid (d.qOwner q)) a 64
    if got.status != leOk then got.dev.queueErr q 2
    else
      let r := got.dev.admitDesc q { sq := x.seqn, raw := got.bytes }
      (r.2.setQueue q { x with
        head := (x.head + 1) % d.sqSize q
        seqn := (x.seqn + 1) % 2 ^ 32
        inflight := x.inflight ++ [r.1] }).showQueue q

/-- DESCRIPTOR_FETCH (R431). -/
def execDescriptorFetch (q : Nat) (s : State) : Host.Outcome State Fault Refusal :=
  onData (queueOk q) s fun d => d.fetchDesc q

/-- A pair is enabled (R430): its sequence, its ring positions and its phase start anew. -/
def Dev.startQueue (d : Dev) (q : Nat) : Dev :=
  let d := (d.setFld (qReg R.SQ_TAIL_INDEX q) 0).setFld (qReg R.CQ_HEAD_INDEX q) 0
  ((d.setFld (qReg R.Q_CTL_EN q) 1).setQueue q { d.queue q with
    tail := 0
    head := 0
    seqn := 0
    written := 0
    pendingEn := false }).showQueue q

/-- A write of `Q_CTL` (R430, R438): an enable during a quiesce waits; clearing EN clears ERR. -/
def Dev.queueCtl (d : Dev) (q : Nat) (v : Word) : Dev :=
  let was := d.flag (qReg R.Q_CTL_EN q)
  let f := d.qOwner q
  let d := d.writeReg (qReg R.Q_CTL_EN q).reg v
  if bitOf v 0 && !was then
    if (d.func f).quiescing then
      ((d.setFld (qReg R.Q_CTL_EN q) 0).setQueue q { d.queue q with pendingEn := true }).showFn f
    else d.startQueue q
  else if !bitOf v 0 then (d.queueErr q 0).setQueue q { d.queue q with pendingEn := false }
  else d

/-- QUEUE_ENABLE (R430). -/
def execQueueEnable (q : Nat) (v : Word) (s : State) : Host.Outcome State Fault Refusal :=
  onDev (queueOk q) s fun d => d.queueCtl q v

/-- Whether another pair holds a function's slot (R428). -/
def Dev.slotHeld (d : Dev) (q f j : Nat) : Bool :=
  f != 0 && d.regs.any fun kv =>
    0x100010000 ≤ kv.1 && kv.1 < 0x100020000 && kv.1 != 0x100010000 + 8 * q && getF kv.2 0 12 == f
      && getF kv.2 12 8 == j

/-- A write of `QP_ASSIGN[q]` (R428): ignored, and ASSIGN_REFUSED set, unless the pair is disabled and idle and the VF
slot is one that exists and is free. -/
def Dev.qpAssign (d : Dev) (q : Nat) (v : Word) : Dev :=
  let f := getF v 0 12
  let j := getF v 12 8
  let bad := d.flag (qReg R.Q_CTL_EN q) || !(d.queue q).inflight.isEmpty || (f != 0 && 224 ≤ j) || 2048 ≤ f
    || d.slotHeld q f j
  if bad then d.setFld (qReg R.Q_STATUS_ASSIGN_REFUSED q) 1
  else (d.setFld (R.QP_ASSIGN_FUNC.at (8 * q)) f).setFld (R.QP_ASSIGN_SLOT.at (8 * q)) j

/-- QP_ASSIGN (R428). -/
def execQpAssign (q : Nat) (v : Word) (s : State) : Host.Outcome State Fault Refusal :=
  onDev (queueOk q) s fun d => d.qpAssign q v

/-! ### Completions (R434, R435) -/

/-- The offset of the first byte of a descriptor that is not durable yet; none when every Peat write was accepted. -/
def Dev.owedFrom (d : Dev) (q sq : Nat) : Option Nat :=
  ((d.directPw.filter fun w => w.strand == ledStrand q && w.seq / 2 ^ 32 == sq).map fun w => w.seq % 2 ^ 32).foldl
    (fun m o => match m with
      | none => some o
      | some k => some (Nat.min k o)) none

/-- Whether every byte reserved before a descriptor's range is settled (R436). -/
def Dev.firstInStream (d : Dev) (q : Nat) (x : Desc) : Bool :=
  match (d.stream x.stream).ranges with
  | [] => true
  | r :: rs => (r.1 == q && r.2.1 == x.sq) || !((r :: rs).any fun e => e.1 == q && e.2.1 == x.sq)

/-- The MSI-X doublewords of a function: an entry is masked until written (R429; log entry 14). -/
def msixDefault (k : Nat) : Word := if k % 2 == 1 then word (2 ^ 32) else 0

/-- The MSI-X entries of a function. -/
def Dev.msixWord (d : Dev) (f k : Nat) : Word := SMap.get msixDefault d.msix (f * 8192 + k)

/-- The key of a pending bit of a function's MSI-X entry. -/
def pbaKey (f e : Nat) : Nat := 2 ^ 30 + 2 * (f * 2048 + e)

/-- Writes an MSI-X entry of a function (R435): while it is masked or MSI-X is off its pending bit is set. -/
def State.msixSend (s : State) (f e : Nat) : State :=
  let a := s.dev.msixWord f (2 * e)
  let w := s.dev.msixWord f (2 * e + 1)
  let ctl := SMap.get (fun _ => 0) (s.dev.func f).cfg 0x24
  if dwF ctl 31 1 == 0 || dwF ctl 30 1 == 1 || bitOf w 32 then
    { s with dev := { s.dev with msix := SMap.set msixDefault s.dev.msix (pbaKey f e) 1 } }
  else if s.dev.inMsgWindow a then
    { s with dev := s.dev.irMessage (BitVec.ofNat 16 (fnRid f)) a 4 (BitVec.ofNat 32 (getF w 0 32)) }
  else
    match s.ledWrite ⟨f, 0, 0, 0, 0x8000, none⟩ a.toNat (leBytes 4 (getF w 0 32)) with
    | .ok s | .fail _ s | .wait s => s

/-- The completion entry of a descriptor (R435). -/
def completionBytes (x : Desc) (phase : Bool) (sqHead : Nat) : List Byte :=
  leBytes 8 (x.sq % 2 ^ 32 + x.status * 2 ^ 32 + x.op % 16 * 2 ^ 40 + bnat phase * 2 ^ 63) ++ leBytes 8 x.bytes
    ++ leBytes 8 x.result.toNat ++ leBytes 8 (x.tag + sqHead * 2 ^ 32)

/-- A stream's range is settled: TAIL takes its end, and a disable that waited completes (R436). -/
def Dev.settleRange (d : Dev) (q : Nat) (x : Desc) : Dev :=
  let t := x.stream
  let st := d.stream t
  if !(st.ranges.any fun e => e.1 == q && e.2.1 == x.sq) then d
  else
    let rest := st.ranges.filter fun e => !(e.1 == q && e.2.1 == x.sq)
    let d := d.setFld (streamReg R.STREAM_TAIL_OFFSET t) (x.resv + x.len)
    if st.closing && rest.isEmpty then
      (d.setFld (streamReg R.STREAM_CTL_EN t) 0).setStream t { st with ranges := rest, closing := false }
    else d.setStream t { st with ranges := rest }

/-- The drain report's entry of a descriptor that completes in the drain (R303, R441). -/
def Dev.reportDesc (d : Dev) (q : Nat) (x : Desc) (finished : Bool) (status bytes : Nat) : Dev :=
  match d.drain with
  | none => d
  | some r =>
    let l := r.report.ledger.map fun e =>
      if e.pair == q && e.sq == x.sq then
        { e with
          finished := finished
          status := status
          bytes := bytes }
      else e
    { d with drain := some { r with report := { r.report with ledger := l } } }

/-- Whether a descriptor's completion may be written now (R427, R434 to R436). -/
def Dev.mayComplete (d : Dev) (q : Nat) (x : Desc) : Bool :=
  let n := d.cqSize q
  x.done && (d.owedFrom q x.sq).isNone && (x.op != 3 || d.firstInStream q x) && d.fnDma (d.qOwner q)
    && ((d.queue q).written + 1) % n != d.fld (qReg R.CQ_HEAD_INDEX q) % n
    && (d.phase == .running || d.phase == .drain) && d.fld (qReg R.Q_STATUS_ERR q) != 3

/-- The entry of the owner's MSI-X table that a pair's VECTOR names (R425, R430). -/
def Dev.qVector (d : Dev) (q : Nat) : Nat :=
  let e := d.fld (qReg R.Q_CTL_VECTOR q)
  if (if d.qOwner q == 0 then 2048 else 224) ≤ e then 0 else e

/-- The completion of a descriptor is written (R435). -/
def State.complete (s : State) (q : Nat) (x : Desc) : State :=
  let d := s.dev
  let n := d.cqSize q
  let k := (d.queue q).written
  let bs := completionBytes x (k / n % 2 == 0) (d.queue q).head
  let f := d.qOwner q
  match s.ledWrite ⟨f, q, x.sq, 0, 0x8000, none⟩ (d.fld (qReg R.CQ_BASE_ADDR q) * 4096 + 32 * (k % n)) bs with
  | .wait s => s
  | .fail _ s => { s with dev := s.dev.queueErr q 3 }
  | .ok s =>
    let d := s.dev
    let y := d.queue q
    let d := (d.setQueue q { y with
      written := k + 1
      inflight := y.inflight.filter fun e => e.sq != x.sq }).showQueue q
    let d := if x.op == 3 then d.settleRange q x else d
    let s := { s with dev := d.reportDesc q x true x.status x.bytes }
    if x.intr then s.msixSend f (s.dev.qVector q) else s

/-- COMPLETION_WRITE (R435). -/
def execCompletionWrite (q sq : Nat) (s : State) : Host.Outcome State Fault Refusal :=
  onLedger (queueOk q) (fun s =>
    match s.dev.desc q sq with
    | none => s
    | some x => if s.dev.mayComplete q x then s.complete q x else s) s

/-! ### Streams (R436) -/

/-- A write of `STREAM_CTL[t]` (R436): enabling starts at HEAD; disabling lets what is reserved finish. -/
def Dev.streamCtl (d : Dev) (t : Nat) (v : Word) : Dev :=
  let st := d.stream t
  if d.flag (streamReg R.STREAM_CTL_EN t) then
    if bitOf v 0 then d
    else if st.ranges.isEmpty then d.setFld (streamReg R.STREAM_CTL_EN t) 0
    else d.setStream t { st with closing := true }
  else
    let d := d.writeReg (streamReg R.STREAM_CTL_EN t).reg v
    if bitOf v 0 then
      let h := d.reg (streamReg R.STREAM_HEAD_OFFSET t).reg
      (d.setReg (streamReg R.STREAM_TAIL_OFFSET t).reg h).setStream t { resv := h.toNat }
    else d

/-- STREAM_ENABLE (R436). -/
def execStreamEnable (st : Nat) (v : Word) (s : State) : Host.Outcome State Fault Refusal :=
  onDev (streamOk st) s fun d => d.streamCtl st v

/-- STREAM_DISABLE (R436). -/
def execStreamDisable (st : Nat) (v : Word) (s : State) : Host.Outcome State Fault Refusal :=
  onDev (streamOk st) s fun d => d.streamCtl st v

/-! ### Function-level reset and quiesce (R437, R438) -/

/-- The queue page of a pair returns to its Cold values (R430, R437). -/
def Dev.coldQueue (d : Dev) (q : Nat) : Dev :=
  let base := R.SQ_BASE_SIZE.reg + 0x100 * q
  ((List.range 6).foldl (fun d i => d.setReg (base + 8 * i) (coldValue (base + 8 * i))) d).setQueue q {}

/-- The streams of a function take TAIL as their reservation point (R437 step 4). -/
def Dev.cutStreams (d : Dev) (f : Nat) : Dev :=
  let mine := (d.streams.map fun kv => kv.1).filter fun t => d.fld (streamReg R.STREAM_CTL_OWNER t) == f
  mine.foldl (fun d t =>
    let st := d.stream t
    let d := if st.closing then d.setFld (streamReg R.STREAM_CTL_EN t) 0 else d
    d.setStream t { resv := d.fld (streamReg R.STREAM_TAIL_OFFSET t) }) d

/-- The pairs of a function whose queue pages hold something. -/
def Dev.pagesOfFn (d : Dev) (f : Nat) : List Nat :=
  ((d.regs.filter fun kv => 0x101000000 ≤ kv.1 && kv.1 < 0x101200000).map fun kv =>
    (kv.1 - 0x101000000) / 256).eraseDups.filter fun q => d.qOwner q == f

/-- A quiesce of a function (R437): nothing of it is fetched, its descriptors are discarded without a completion, its
streams are cut and its registers return to Cold; it lasts until its completion is commanded. -/
def Dev.startQuiesce (d : Dev) (f : Nat) : Dev :=
  let d := (d.pairsOf f ++ d.pagesOfFn f).eraseDups.foldl (fun d q => d.coldQueue q) d
  let d := d.cutStreams f
  let d := d.setFld (fnReg R.FN_STATUS_DROPPED f) 0
  (d.setFunc f { d.func f with quiescing := true }).showFn f

/-- The registers of a function other than its queues return to Cold in an FLR (R426, R437). -/
def Dev.coldFunc (d : Dev) (f : Nat) : Dev :=
  let x := d.func f
  let d := { d with
    msix := SMap.filterMap msixDefault (fun k v =>
      if k / 8192 == f && k < 2 ^ 30 || 2 ^ 30 ≤ k && (k - 2 ^ 30) / 4096 == f then none else some v) d.msix }
  d.setFunc f { x with
    bme := false
    mse := false
    d3 := false
    cfg := [] }

/-- The VFs that are exposed. -/
def Dev.exposedVfs (d : Dev) : List Nat :=
  (d.funcs.filter fun kv => kv.1 != 0 && kv.2.exposed).map fun kv => kv.1

/-- VF Enable written 0 (R437): every VF quiesces. -/
def Dev.hideVfs (d : Dev) : Dev :=
  d.exposedVfs.foldl (fun d v =>
    (d.setFunc v { d.func v with exposed := false, wantVf := false, bme := false }).startQuiesce v) d

/-- VF Enable written 1 (R438): the VFs up to NumVFs, each at once or after its quiesce. -/
def Dev.showVfs (d : Dev) (numVfs : Nat) : Dev :=
  (List.range numVfs).foldl (fun d i =>
    let v := i + 1
    let x := d.func v
    (d.setFunc v (if x.quiescing then { x with wantVf := true } else { x with exposed := true })).showFn v) d

/-- An FLR of a function (R437): the PF's also takes its VFs away. -/
def Dev.flr (d : Dev) (f : Nat) : Dev :=
  let d := if f == 0 then d.hideVfs else d
  (d.coldFunc f).startQuiesce f

/-- FLR (R437). -/
def execFlr (f : Nat) (s : State) : Host.Outcome State Fault Refusal := onDev (funcOk f) s fun d => d.flr f

/-- Entry to D3hot (R437): it clears Bus Master Enable. -/
def Dev.enterD3 (d : Dev) (f : Nat) : Dev :=
  (d.setFunc f { d.func f with d3 := true, bme := false }).startQuiesce f

/-- D3HOT_ENTRY (R437). -/
def execD3hotEntry (f : Nat) (s : State) : Host.Outcome State Fault Refusal :=
  onDev (funcOk f) s fun d => d.enterD3 f

/-- VF Enable and NumVFs are written (R437, R438). -/
def Dev.vfEnable (d : Dev) (on : Bool) (n : Nat) : Dev := if on then d.showVfs n else d.hideVfs

/-- VF_ENABLE (R437, R438). -/
def execVfEnable (on : Bool) (numVfs : Nat) (s : State) : Host.Outcome State Fault Refusal :=
  onDev (decide (numVfs < 2048)) s fun d => d.vfEnable on numVfs

/-- Bus Master Enable is written (R427, R438). -/
def Dev.setBme (d : Dev) (f : Nat) (on : Bool) : Dev :=
  let x := d.func f
  (d.setFunc f (if on && x.quiescing then { x with wantBme := true } else { x with bme := on, wantBme := false })).showFn f

/-- BUS_MASTER_ENABLE (R427). -/
def execBusMasterEnable (f : Nat) (on : Bool) (s : State) : Host.Outcome State Fault Refusal :=
  onDev (funcOk f) s fun d => d.setBme f on

/-- A quiesce completes: what waits for it is enabled (R438). -/
def Dev.quiesceDone (d : Dev) (f : Nat) : Dev :=
  let x := d.func f
  if !x.quiescing then d
  else
    let d := d.setFunc f { x with
      quiescing := false
      exposed := x.exposed || x.wantVf
      bme := x.bme || x.wantBme
      wantVf := false
      wantBme := false }
    let waits := (d.pairsOf f).filter fun q => (d.queue q).pendingEn
    (waits.foldl (fun d q => d.startQueue q) d).showFn f

/-- QUIESCE_COMPLETE (R438). -/
def execQuiesceComplete (f : Nat) (s : State) : Host.Outcome State Fault Refusal :=
  onDev (funcOk f) s fun d => d.quiesceDone f

/-! ### Dirty-page logging (R439, R440) -/

/-- A write of `DLOG_GEN[v]` (R440): GEN + 1 opens a round; any other value is ignored. -/
def Dev.dlogGenWrite (d : Dev) (v : Nat) (x : Word) : Dev :=
  let g := d.fld (dlReg R.DLOG_GEN_GEN v)
  if getF x 0 32 == (g + 1) % 2 ^ 32 then d.setFld (dlReg R.DLOG_GEN_GEN v) (g + 1) else d

def vfOk (v : Nat) : Bool := decide (1 ≤ v) && decide (v < 2048)

/-- DLOG_GEN (R440). -/
def execDlogGen (v : Nat) (x : Word) (s : State) : Host.Outcome State Fault Refusal :=
  onDev (vfOk v) s fun d => d.dlogGenWrite v x

/-- DLOG_GEN_ACK (R440): every write of the old generation has been logged. -/
def execDlogGenAck (v : Nat) (s : State) : Host.Outcome State Fault Refusal :=
  onDev (vfOk v) s fun d => d.setFld (dlReg R.DLOG_GEN_GEN_ACK v) (d.fld (dlReg R.DLOG_GEN_GEN v))

/-- A write of `DLOG_RING_HEAD[v]` (R439): ring space ends a stall. -/
def Dev.dlogHeadWrite (d : Dev) (v : Nat) (x : Word) : Dev :=
  let d := d.setFld (dlReg R.DLOG_RING_HEAD_INDEX v) (getF x 0 22)
  if d.dlFull v then d else d.setFld (dlReg R.DLOG_CTL_STALLED v) 0

/-- DLOG_RING_HEAD_WRITE (R439). -/
def execDlogRingHeadWrite (v : Nat) (x : Word) (s : State) : Host.Outcome State Fault Refusal :=
  onDev (vfOk v) s fun d => d.dlogHeadWrite v x

/-! ### The stop in a drain (R298, R441) -/

/-- The bytes of a stopped descriptor: of an APPEND, those that are durable (R298). -/
def Dev.doneBytes (d : Dev) (q : Nat) (x : Desc) : Nat :=
  if x.op == 3 then Nat.min x.bytes ((d.owedFrom q x.sq).getD x.bytes) else x.bytes

/-- One descriptor stops: it is listed with STOPPED. -/
def Dev.stopDesc (d : Dev) (q : Nat) (x : Desc) : Dev :=
  let n := d.doneBytes q x
  let d := if x.op == 3 && d.firstInStream q x && !(d.stream x.stream).ranges.isEmpty then
      d.setFld (streamReg R.STREAM_TAIL_OFFSET x.stream) (x.resv + n)
    else d
  d.reportDesc q x false leStopped n

/-- LEDGER_DRAIN_STOP (R298): 1 ms after cushion entry the engine stops every descriptor that still runs. -/
def execLedgerDrainStop (s : State) : Host.Outcome State Fault Refusal :=
  onDev true s fun d =>
    if d.drain.isNone then d
    else
      let all := d.queues.flatMap fun kv => kv.2.inflight.map fun x => (kv.1, x)
      let d := all.foldl (fun d e => d.stopDesc e.1 e.2) d
      let d := { d with
        queues := SMap.filterMap (fun _ => {}) (fun _ x => some { x with inflight := [] }) d.queues
        streams := SMap.filterMap (fun _ => {}) (fun _ x => some { x with ranges := [] }) d.streams }
      d.phaseDone 4

/-! ### Configuration space of the functions (R425, R426) -/

/-- The vendor and device IDs of a function. -/
def fnIdent (f : Nat) : BitVec 32 := if f == 0 then 0x52881F9E else 0x52891F9E

/-- A doubleword of a function's configuration space as it reads (R426; log entry 14). -/
def Dev.fnCfgRead (d : Dev) (f k : Nat) : BitVec 32 :=
  let x := d.func f
  let c := SMap.get (fun _ => 0) x.cfg k
  if k == 0 then fnIdent f
  else if k == 1 then (c &&& 0x0000FFF9) ||| BitVec.ofNat 32 (4 * bnat x.bme + 2 * bnat x.mse) ||| 0x00100000
  else if k == 2 then 0x08800000
  else if k == 3 then 0
  else if k == 4 then (if f == 0 then (c &&& 0xFC000000) ||| 0xC else 0)
  else if k == 5 then (if f == 0 then c else 0)
  else if 6 ≤ k && k ≤ 9 then 0
  else if k == 0xD then 0x40
  else if k == 0x10 then 0x00035001
  else if k == 0x11 then BitVec.ofNat 32 (3 * bnat x.d3)
  else if k == 0x14 then 0x00929010
  else if k == 0x15 then 0x10000002
  else if k == 0x24 then (c &&& 0xC0000000) ||| (if f == 0 then 0x07FF0011 else 0x00DF0011)
  else if k == 0x25 then (if f == 0 then 0x03000000 else 0x0000F000)
  else if k == 0x26 then (if f == 0 then 0x03008000 else 0x0000FE00)
  else if f != 0 then (if 0x40 ≤ k then 0 else c)
  else if k == 0x40 then 0x20010010
  else if k == 0x42 then c &&& 0x19
  else if k == 0x43 then 0x07FF07FF
  else if k == 0x45 then 0x00010100
  else if k == 0x46 then 0x52890000
  else if k == 0x47 || k == 0x48 then 1
  else if k == 0x49 then (c &&& 0xFFFF0000) ||| 0xC
  else if 0x4B ≤ k && k ≤ 0x4E then 0
  else if k == 0x80 then 0x0001000B
  else if k == 0x81 then 0x00C00002
  else if k == 0x82 then BitVec.ofNat 32 (d.self * 2 ^ 16) ||| ((d.reg R.ENGINE_E.reg).setWidth 16).setWidth 32
  else c

/-- A write of a function's configuration space (R426, R427, R437, R438; log entry 14). -/
def Dev.fnCfgWrite (d : Dev) (f k : Nat) (mask v : BitVec 32) : Dev :=
  let x := d.func f
  let c := SMap.get (fun _ => 0) x.cfg k
  let w := (c &&& ~~~ mask) ||| (v &&& mask)
  let d1 := d.setFunc f { x with cfg := SMap.set (fun _ => 0) x.cfg k w }
  if k == 1 then
    let d2 := if mask.toNat % 256 == 0 then d1 else d1.setFunc f { d1.func f with mse := dwF w 1 1 == 1 }
    if mask.toNat % 256 == 0 then d2 else d2.setBme f (dwF w 2 1 == 1)
  else if k == 0x11 then
    if mask.toNat % 256 == 0 then d
    else if dwF v 0 2 == 3 then (if x.d3 then d else d.enterD3 f)
    else if x.d3 && dwF v 0 2 == 0 then d.flr f
    else d
  else if k == 0x16 then if dwF (v &&& mask) 15 1 == 1 then d.flr f else d1
  else if k == 0x42 && f == 0 then
    if dwF w 0 1 == dwF c 0 1 then d1
    else d1.vfEnable (dwF w 0 1 == 1) (dwF (SMap.get (fun _ => 0) x.cfg 0x44) 0 16 % 2048)
  else d1

end Sys2Proof.Machine
end

