-- ==== Sys2Proof/Machine/Retire.lean ====
section
/-!
DEFINITION. The confirmation tests of permanent candidates (R338, R339) and what each kind's outcome does (R336, R343).
-/

namespace Sys2Proof.Machine

open Sys2Proof

/-- The number of unit instances of a kind (R336); of PCI Express links 80 times the number of lanes and one, of rows any. -/
def kindCount (kind : Nat) : Nat :=
  if kind == 0 then 16 else if kind == 1 then 192 else if kind == 2 then 80 * 17 else if kind == 3 then 264
  else if kind == 4 then 288 else if kind == 5 then 1728 else if kind == 6 then 1152
  else if kind == 7 then 65536 else 0

/-- Whether an instance is under test: a candidate, or of a kind whose candidacies arise outside the commands. -/
def Dev.underTest (d : Dev) (kind inst : Nat) : Bool :=
  let u := d.unitAt kind inst
  decide (inst < kindCount kind) && !u.retired && (u.candidate || kind == 2 || kind == 3 || kind == 7)

/-- A fault is not confirmed (R339): the bucket is 0 and the unit stays in service. -/
def Dev.clearCandidate (d : Dev) (kind inst : Nat) : Dev :=
  (d.setUnit kind inst { d.unitAt kind inst with bucket := 0, candidate := false }).log
    { source := kindSource kind, inst := inst, cls := 1, action := 2 }

/-- A confirmed PCI Express link (R422): inst is the port, plus 80 times one more than the failing controller lane where
the test identifies one. -/
def State.portFault (s : State) (inst : Nat) : State :=
  let pt := inst % 80
  let d := s.dev.setPort pt { s.dev.port pt with candidateLane := if inst < 80 then none else some (inst / 80 - 1) }
  if d.duty 6 then { s with dev := (d.setFld (kpReg R.KPORT_STATUS_CANDIDATE pt) 1).dutyEvent }
  else { s with dev := d }.retirePort pt

/-- A confirmed SRAM row is replaced by a spare (R336, R377). -/
def Dev.rowFault (d : Dev) (inst : Nat) : Dev :=
  let u := d.unitAt 7 inst
  let d := d.setUnit 7 inst { u with retired := true, candidate := false }
  (d.addRepair (retiredUnit d 7 inst 0) 0x13).log
    { source := 0x13, inst := inst, cls := 4, action := 3, bucket := u.bucket }

/-- A unit whose fault is confirmed is retired and replaced, or waits for software under its duty bit (R336, R339): a
mesh link when the routes are recomputed (R344), a core by its transplant (R353). -/
def State.confirmed (s : State) (kind inst : Nat) (permanent : Bool) : State :=
  let onDevice (f : Dev → Dev) : State := { s with dev := f s.dev }
  if kind == 0 then onDevice fun d => d.retireChannel inst permanent
  else if kind == 1 then onDevice fun d => d.laneFault (inst / 24) (inst % 24)
  else if kind == 2 then s.portFault inst
  else if kind == 5 then onDevice fun d => d.retireLlcWay (inst / 12) (inst % 12)
  else if kind == 6 then onDevice fun d => d.retireDirWay (inst / 8) (inst % 8)
  else if kind == 7 then onDevice fun d => if d.duty 8 then d.dutyEvent else d.rowFault inst
  else s

/-- CONFIRMATION_TEST (R339): a unit's third candidacy within 2^30 frames is confirmed without a test. -/
def execConfirmationTest (kind inst : Nat) (o : TestOutcome) (s : State) : Host.Outcome State Fault Refusal :=
  if !s.dev.underTest kind inst then .next s
  else if o == .notConfirmed && !s.dev.thirdCandidacy kind inst then
    .next { s with dev := s.dev.clearCandidate kind inst }
  else .next (s.confirmed kind inst (o == .confirmedPermanent))

end Sys2Proof.Machine
end

