-- ==== Sys2Proof/Machine/Clocks.lean ====
section
/-!
DEFINITION. Clocks and power (R484 to R497, R537): the reference clock, PLL settling, tile ratios and their rails,
throttling, deep park, and the thermal trip.
-/

namespace Sys2Proof.Machine

open Sys2Proof

/-! ### The reference clock (R485) -/

/-- REFCLK_LOSS (R485): counted, recorded as uncontained; the socket enters the cushion as for a brown-out. -/
def execRefclkLoss (s : State) : Host.Outcome State Fault Refusal :=
  if !s.dev.flag R.CLK_STATUS_REFCLK_OK then .next s
  else
    let d := (s.dev.setFld R.CLK_STATUS_REFCLK_OK 0).addSat R.CLK_STATUS_REFCLK_LOSSES 1
    .next ({ s with dev := d.log { source := 0x11, cls := 3 } }.enterCushion 4)

/-- REFCLK_RETURN (R485). -/
def execRefclkReturn (s : State) : Host.Outcome State Fault Refusal :=
  onDev true s fun d => d.setFld R.CLK_STATUS_REFCLK_OK 1

/-! ### Tile ratios (R487, R490, R494) -/

/-- A register of tile t's clock. -/
def tileClk (f : Field) (t : Nat) : Field := f.at (8 * t)

/-- A register of PLL p. -/
def pllReg (f : Field) (p : Nat) : Field := f.at (8 * p)

/-- The ratio that tile t's PLL is set to. -/
def Dev.clkAt (d : Dev) (t : Nat) : Nat := SMap.get (fun _ => 60) d.clkTarget t

def Dev.setClk (d : Dev) (t x : Nat) : Dev := { d with clkTarget := SMap.set (fun _ => 60) d.clkTarget t x }

/-- The frond of tile t. -/
def tileFrond (t : Nat) : Nat := bnat (decide (6 ≤ t % 12)) + 2 * bnat (decide (6 ≤ t / 12))

/-- A tile that runs a strand (R495). -/
def Dev.tileRuns (d : Dev) (t : Nat) : Bool := d.fld (corePwr (2 * t)) == 1 || d.fld (corePwr (2 * t + 1)) == 1

/-- The highest ratio, current or target, among the running tiles of a frond beside tile t, which `VDD_CORE` follows
(R494). -/
def Dev.frondRatio (d : Dev) (t : Nat) : Nat :=
  ((List.range 144).filter fun u => u != t && tileFrond u == tileFrond t && d.tileRuns u).foldl
    (fun m u => Nat.max m (Nat.max (d.clkAt u) (d.fld (tileClk R.TILE_CLK_CURRENT u))))
    (d.fld (tileClk R.TILE_CLK_CURRENT t))

/-- PLL p starts, or changes its ratio: it counts its settling anew (R487). -/
def Dev.pllStart (d : Dev) (p : Nat) : Dev :=
  (d.setFld (pllReg R.PLL_STATUS_SETTLED p) 0).addSat (pllReg R.PLL_STATUS_STARTS p) 1

/-- Tile t is retuned (R490): it runs on the bypass clock; a raise that needs more core voltage waits for it (R494). -/
def Dev.retune (d : Dev) (t x : Nat) : Dev :=
  let wait := decide (d.frondRatio t < x)
  let d := (d.setFld (tileClk R.TILE_CLK_SETTLING t) 1).setClk t x
  let d := { d with vidWait := d.vidWait.filter fun u => u != t }
  if wait then { d with vidWait := d.vidWait ++ [t] } else d.pllStart t

/-- A ratio within the limits of tile t (R490, R505). -/
def Dev.clampRatio (d : Dev) (t x : Nat) : Nat := Nat.min (d.fld (tileClk R.TILE_CLK_MAX t)) (Nat.max 16 x)

/-- A write of `TILE_CLK[t]` (R490, R505): it replaces the target, also of a throttled tile. -/
def Dev.tileClkWrite (d : Dev) (t : Nat) (v : Word) : Dev :=
  let x := d.clampRatio t (getF v 0 7)
  let d := d.setFld (tileClk R.TILE_CLK_PINNED t) (getF v 22 1)
  let d := (d.setFld (tileClk R.TILE_CLK_RATIO t) x).setFld (tileClk R.TILE_CLK_THROTTLED t) 0
  d.retune t x

/-- TILE_RATIO_WRITE (R490): a write of `TILE_CLK[t]`. -/
def execTileRatioWrite (req : Requester) (t : Nat) (v : Word) (s : State) : Host.Outcome State Fault Refusal :=
  onDev (reqOk req && decide (t < 144)) s fun d => d.tileClkWrite t v

/-- PLL_SETTLE (R487): only while REFCLK is present, and once the PLL has started; a tile's cores switch to it. -/
def execPllSettle (p : Nat) (s : State) : Host.Outcome State Fault Refusal :=
  onDev (decide (p < 197)) s fun d =>
    if !d.flag R.CLK_STATUS_REFCLK_OK || d.vidWait.contains p then d
    else
      let d := d.setFld (pllReg R.PLL_STATUS_SETTLED p) 1
      if p < 144 && d.flag (tileClk R.TILE_CLK_SETTLING p) then
        (d.setFld (tileClk R.TILE_CLK_CURRENT p) (d.clkAt p)).setFld (tileClk R.TILE_CLK_SETTLING p) 0
      else d

/-- The tiles of a frond that wait for its rail. -/
def Dev.vidTiles (d : Dev) (f : Nat) : List Nat := d.vidWait.filter fun t => tileFrond t == f

/-- VID_ACK (R494): the regulator of frond f reports its new voltage; the raises that waited go on. -/
def execVidAck (f mv : Nat) (s : State) : Host.Outcome State Fault Refusal :=
  onDev (decide (f < 4)) s fun d =>
    let ts := d.vidTiles f
    let d := (d.setFld (R.RAIL_MV.at (8 * f)) mv).setFld (R.RAIL_TARGET_MV.at (8 * f)) mv
    let d := { d with vidWait := d.vidWait.filter fun t => tileFrond t != f }
    ts.foldl (fun d t => d.pllStart t) d

/-- VID_TIMEOUT (R494): the raises that waited are abandoned; the tiles keep their old ratio. -/
def execVidTimeout (f : Nat) (s : State) : Host.Outcome State Fault Refusal :=
  onDev (decide (f < 4)) s fun d =>
    let ts := d.vidTiles f
    if ts.isEmpty then d
    else
      let d := { d with vidWait := d.vidWait.filter fun t => tileFrond t != f }
      let d := ts.foldl (fun d t =>
        let x := d.fld (tileClk R.TILE_CLK_CURRENT t)
        ((d.setFld (tileClk R.TILE_CLK_RATIO t) x).setFld (tileClk R.TILE_CLK_SETTLING t) 0).setClk t x) d
      d.log { source := 0x12, inst := f, cls := 5 }

/-! ### Throttling (R491) -/

/-- Tile t goes one step down, not below 0.80 GHz. -/
def Dev.stepDown (d : Dev) (t : Nat) : Dev :=
  let x := d.clkAt t
  if x ≤ 16 then d else (d.retune t (x - 1)).setFld (tileClk R.TILE_CLK_THROTTLED t) 1

/-- A throttled tile goes one step up, to the ratio that software set. -/
def Dev.stepUp (d : Dev) (t : Nat) : Dev :=
  let r := d.fld (tileClk R.TILE_CLK_RATIO t)
  if !d.flag (tileClk R.TILE_CLK_THROTTLED t) then d
  else
    let x := Nat.min r (d.clkAt t + 1)
    (d.retune t x).setFld (tileClk R.TILE_CLK_THROTTLED t) (bnat (decide (x < r)))

/-- The throttle temperature and the power limit in effect (R505). -/
def Dev.tjLimit (d : Dev) : Nat := Nat.min 105 (d.fld R.PWR_CTL_TJ_THROTTLE)
def Dev.wattLimit (d : Dev) : Nat := Nat.min 1050 (d.fld R.PWR_CTL_LIMIT_W)

/-- POWER_THROTTLE (R491): one frame's step on the running tiles: down while the measured power exceeds the limit, up
again once it is below 97 % of it; a tile that its temperature holds down stays. -/
def execPowerThrottle (watts : Nat) (s : State) : Host.Outcome State Fault Refusal :=
  onDev true s fun d =>
    let ts := (List.range 144).filter fun t => d.tileRuns t && !d.flag (tileClk R.TILE_CLK_PINNED t)
    if d.wattLimit < watts then ts.foldl (fun d t => d.stepDown t) d
    else if 100 * watts < 97 * d.wattLimit then
      (ts.filter fun t => d.fld (tileClk R.TILE_CLK_TEMP t) + 2 ≤ d.tjLimit).foldl (fun d t => d.stepUp t) d
    else d

/-- THERMAL_THROTTLE (R491): a tile above the limit goes a step down, and on until it is 2 °C below. -/
def execThermalThrottle (t temp : Nat) (s : State) : Host.Outcome State Fault Refusal :=
  onDev (decide (t < 144)) s fun d =>
    let d := d.setFld (tileClk R.TILE_CLK_TEMP t) temp
    if d.tjLimit < temp || (d.flag (tileClk R.TILE_CLK_THROTTLED t) && d.tjLimit < temp + 2) then d.stepDown t else d

/-! ### Deep park (R495, R496) -/

/-- Whether core c may enter deep park: it serves a logical core whose strands are all parked. -/
def State.mayDeepPark (s : State) (c : Nat) : Bool :=
  let l := s.dev.fld (R.CORE_STATE_LOGICAL.at (8 * c))
  s.dev.flag R.PWR_CTL_DEEP_EN && s.dev.phase == .running && s.dev.coreState c == 1 && s.dev.fld (corePwr c) == 2
    && (s.strand (2 * l)).parked && ((s.dev.pm l).active || (s.strand (2 * l + 1)).parked)

/-- DEEP_PARK_ENTRY (R496): the L1s are merged into the L2 and invalidated; BTB and return stacks start empty. -/
def execDeepParkEntry (c : Nat) (s : State) : Host.Outcome State Fault Refusal :=
  if !coreOk c then .fault .noSuchUnit
  else if !s.mayDeepPark c then .next s
  else
    let l := s.dev.fld (R.CORE_STATE_LOGICAL.at (8 * c))
    let d := (((s.dev.clearL1 c true).clearL1 c false).flushBtb c).setFld (corePwr c) 3
    let s := { s with dev := d }
    let s := s.setStrand (2 * l) { s.strand (2 * l) with ras := [] }
    .next (s.setStrand (2 * l + 1) { s.strand (2 * l + 1) with ras := [] })

/-! ### Temperature (R537) -/

/-- THERMTRIP (R537): the pin is asserted until `PWRGOOD` falls. -/
def execThermtrip (s : State) : Host.Outcome State Fault Refusal :=
  onDev true s fun d => { d with thermtrip := true }

/-- A drain that power or the clocks leave unfinished (R302): its report stays incomplete. -/
def Dev.tearDrain (d : Dev) : Dev :=
  match d.drain with
  | none => d
  | some r =>
    { d with
      reports := SMap.set (fun _ => {}) d.reports (r.report.seqn % 2) r.report
      drain := none }

/-- OVERTEMP_CLOCK_STOP (R537): every clock but the always-on one stops; a drain that runs is torn. -/
def execOvertempClockStop (s : State) : Host.Outcome State Fault Refusal :=
  onDev true s fun d => { d.tearDrain with phase := .stopped }

end Sys2Proof.Machine
end

