-- ==== Sys2Proof/Machine/Reset.lean ====
section
/-!
DEFINITION. Reset, boot and resume (R13, R16, R24, R306 to R311, R498 to R504, R510, R511, R522, R523, R534, R535).
A kind of restart is numbered as RESET_INFO.KIND: 0 to 2 cold, 3 socket warm, 4 retained resume, 5 peat-only resume.
What a boot finds outside the socket comes with the command (`PowerUpIn`).
-/

namespace Sys2Proof.Machine

open Sys2Proof

/-! ### Registers (R13) -/

/-- Whether a field keeps its value: one that a source outside the registers holds, or, over a warm reset, one that its
table keeps. -/
def FieldSpec.keeps (f : FieldSpec) (warm : Bool) : Bool := f.src || (warm && f.kept)

/-- A register's word after a restart. -/
def restartWord (warm : Bool) (off : Nat) (w : Word) : Word :=
  match regAt off with
  | none => coldValue off
  | some r => r.fields.foldl (fun acc f => if f.keeps warm then f.fld.put acc (f.fld.get w) else acc) (coldValue off)

/-- The register space after a restart. -/
def restartRegs (warm : Bool) (m : SMap Word) : SMap Word :=
  SMap.filterMap coldValue (fun off w => some (restartWord warm off w)) m

/-! ### The pre-reset flush (R499) -/

/-- A retired store to memory of this socket leaves its store buffer. -/
def Dev.flushStore (d : Dev) (e : SbEntry) : Dev :=
  if (d.claim e.pa).normal && d.homedHere (e.pa / 64) && !e.sent then
    d.homeStore (e.pa / 64) (e.pa % 64) e.bytes e.key false none
  else d

/-- Every intake is drained to media. -/
def Dev.drainIntakes (d : Dev) : Dev :=
  (List.range 8).foldl (fun d n =>
    let k := d.stack n
    let d := (k.accepted ++ k.waitQ).foldl (fun d e => d.mediaWrite n e) d
    (d.setStack n { d.stack n with accepted := [], waitQ := [] }).showIntake n) d

/-- The dirty Peat lines that the L2s hold and that their writebacks carry, written toward the intakes. -/
def Dev.flushPeat (d : Dev) : Dev :=
  let own := d.l2.filter fun kv => isPeat (kv.1 / 512) && kv.2.st == .modified && d.homedHere (kv.1 / 512)
  let d := own.foldl (fun d kv => d.homeWrite (kv.1 / 512) kv.2.key kv.2.data kv.2.poison false none) d
  d.net.foldl (fun d m => match m.body with
    | .wbm _ _ l p => if isPeat m.g && d.homedHere m.g then
        d.homeWrite m.g (match m.src with
          | some (.core c) => (match d.ghost c m.g with
            | some h => h.key
            | none => (d.line c m.g).key)
          | _ => 0) l p false none
      else d
    | _ => d) d

/-- The pre-reset flush of a running socket (R499): dirty DRAM lines are discarded with the caches. -/
def State.preFlush (s : State) : State :=
  let d := (s.strands.flatMap fun kv => kv.2.sb).foldl (fun d e => d.flushStore e) s.dev
  { s with dev := d.flushPeat.drainIntakes }

/-! ### What a restart forgets -/

/-- DRAM is lost (R309, R501): its lines, their marks; initialisation is pending. -/
def Dev.loseDram (d : Dev) : Dev :=
  { d with
    dram := []
    poisoned := SMap.filterMap (fun _ => false) (fun g v => if isPeat g then some v else none) d.poisoned
    keyOf := SMap.filterMap (fun _ => 1) (fun g v => if isPeat g then some v else none) d.keyOf
    bad := SMap.filterMap (fun _ => false) (fun g v => if isPeat g then some v else none) d.bad
    initPending := true
    initDone := []
    slots := SMap.filterMap slotDefault (fun _ k => if k.cls == 2 then some k else none) d.slots
    domains := []
    pot := [] }

/-- Caches, directories, transactions, trackers and translation caches start empty; a stack keeps what it accepted. -/
def Dev.loseCaches (d : Dev) : Dev :=
  { d with
    pmode := []
    tlb := []
    btb := []
    tinvs := []
    iotlb := []
    dtcache := []
    l2 := []
    llc := []
    dirs := []
    turns := 0
    unclean := []
    ghosts := []
    mshrs := []
    txns := []
    homeQ := []
    wbOut := []
    net := []
    trackers := []
    pstacks := SMap.filterMap (fun _ => {}) (fun _ k => some ({
      accepted := k.accepted
      bucket := k.bucket
      buckets := k.buckets } : Stack)) d.pstacks
    failedPw := []
    directPw := []
    unreadable := 0
    flips := []
    irt := [] }

/-- The units of the socket that are neither memory nor caches start anew. -/
def Dev.loseUnits (d : Dev) : Dev :=
  { d with
    evHeld := 0
    engines := []
    drain := none
    retainEn := false
    seBox := {}
    stwBox := {}
    pfBox := {}
    ports := []
    queues := []
    streams := []
    funcs := []
    msix := []
    links := []
    vidWait := []
    clkTarget := []
    bindCls := []
    faultN := false
    chans := SMap.filterMap (fun _ => {}) (fun _ c => some ({
      coeff := c.coeff
      trained := c.trained
      canary := c.canary } : Chan)) d.chans }

/-- What a cold boot or a resume forgets beyond a warm reset: buckets (R337), the chain, the steward's and the SE's
volatile state. -/
def Dev.loseSystem (d : Dev) : Dev :=
  { d with
    units := []
    xplant := []
    chain := {}
    fw := { d.fw with
      ready := none
      armA := none
      confirmed := false
      aborted := false
      armedMask := 0
      notActivated := 0
      reasons := []
      switched := false
      overwritten := []
      rewrites := []
      i3cAddr := none
      eid := 0
      msgs := []
      randomBad := false
      nonce := none
      linkSecret := none
      ideKeys := []
      spdm := []
      response := []
      result := 0 } }

/-- The telemetry ring starts empty (R525). -/
def Dev.loseTelemetry (d : Dev) : Dev := { d with fw := { d.fw with tlm := [], sample := none } }

/-! ### The repair record applied (R333, R342, R376) -/

/-- The key of a retired unit's bookkeeping. -/
def unitKey (kind inst sub : Nat) : Nat :=
  kind * 65536 + (if kind == 1 then 24 * inst + sub else if kind == 5 then 12 * inst + sub
    else if kind == 6 then 8 * inst + sub else if kind == 2 then inst + 80 * (sub + 1) else inst)

/-- One entry of the record: a retired unit keeps its retired state, a cleared one returns to service. -/
def Dev.applyRepair (d : Dev) (r : Repair) : Dev :=
  let on := r.typ == 3
  if !(on || r.typ == 4) then d
  else
    let k := unitKey r.kind r.inst r.sub
    let u := SMap.get (fun _ => {}) d.units k
    let d := { d with units := SMap.set (fun _ => {}) d.units k { u with retired := on } }
    if r.kind == 1 && r.sub < 24 then
      let f := R.FL_STATUS_LANES_RETIRED.at (0x40000 * r.inst)
      d.setFld ⟨f.reg, f.lo + r.sub, 1⟩ (bnat on)
    else if r.kind == 2 && r.sub < 16 then
      let f := R.KPORT_STATUS_LANES_RETIRED.at (0x1000 * r.inst)
      d.setFld ⟨f.reg, f.lo + r.sub, 1⟩ (bnat on)
    else if r.kind == 3 then { d with routes := SMap.set (fun _ => false) d.routes r.inst on }
    else if r.kind == 5 then d.setFld (llcCtl r.inst (36 + r.sub)) (bnat on)
    else if r.kind == 6 then
      let f := dirReg R.DIR_STATUS_RETIRED r.inst
      let d := d.setFld ⟨f.reg, f.lo + r.sub, 1⟩ (bnat on)
      d.setFld (dirReg R.DIR_STATUS_USABLE r.inst) (8 - weight 8 (d.fld (dirReg R.DIR_STATUS_RETIRED r.inst)))
    else d

/-- Whether the record holds a channel as retired. -/
def Dev.channelRetired (d : Dev) (n : Nat) : Bool := (d.unitAt 0 n).retired

/-- The state of a retiring slot after a restart (R330, R333): an evacuation with nothing left to move is complete; a
cold boot ends a fence, and forgets a retirement whose record was cleared. -/
def Dev.restartRetire (d : Dev) (cold retained : Bool) : Dev :=
  let st := d.fld R.MEM_IL_RET_STATE
  if st == 1 && !retained then d.setFld R.MEM_IL_RET_STATE 2
  else if cold && (st == 3 || (st == 2 && d.evac.isNone && !(List.range 16).any fun n => d.channelRetired n)) then
    { (d.setFld R.MEM_IL_RET_STATE 0).setFld R.MEM_IL_RET_SLOT 0 with fenced := none }
  else d

/-- The record is applied at every restart, and the mesh stops that its links cut off are lost (R344). -/
def Dev.applyRepairs (d : Dev) : Dev :=
  let d := d.repairs.foldl (fun d r => d.applyRepair r) d
  { d with lostStops := (List.range 144).filter fun t => !d.joined 5 t }

/-! ### The maps that the SE builds (R24, R25, R198, R503) -/

/-- The field spares among the good cores (R24). -/
def spareCores (good : List Nat) : List Nat :=
  let total := good.length - 256
  let each := (List.range 4).flatMap fun f => ((good.filter fun c => frondOf c == f).reverse).take (total / 4)
  each ++ ((good.filter fun c => !each.contains c).reverse).take (total - each.length)

/-- The spares to keep warm (R25): in different fronds where possible, the highest core of each first. -/
def warmFirst (spares : List Nat) (n : Nat) : List Nat :=
  let of (f : Nat) : List Nat := (spares.filter fun c => frondOf c == f).foldl (fun l c => if l.any fun x => c < x then l ++ [c] else c :: l) []
  ((List.range 16).flatMap fun r => List.filterMap (fun f => (of f)[r]?) [3, 2, 1, 0]).take n

/-- Builds `CORE_MAP`, `CORE_STATE`, `CORE_COUNT` and the power states from the cores that are bad (R23, R24). -/
def Dev.buildCores (d : Dev) (bad : Nat) : Dev :=
  let good := (List.range 288).filter fun c => !natBit bad c && !(d.unitAt 4 c).retired
  let spares := spareCores good
  let serv := good.filter fun c => !spares.contains c
  let warm := warmFirst spares (d.fld R.CORE_COUNT_WARM_TARGET)
  let state (c : Nat) : Nat :=
    if serv.contains c then 1 + 8 * serv.idxOf c else if warm.contains c then 3 else if spares.contains c then 2
    else if (d.unitAt 4 c).retired then 4 else 0
  let pwr (c : Nat) : Nat :=
    if serv.head? == some c then 1 else if serv.contains c || warm.contains c then 2 else 0
  let d := (List.range 288).foldl (fun d c =>
    (d.setReg (R.CORE_STATE_STATE.reg + 8 * c) (word (state c))).setFld (corePwr c) (pwr c)) d
  let d := (List.range 256).foldl (fun d l =>
    d.setReg (R.CORE_MAP_PHYS.reg + 8 * l) (word (match serv[l]? with
      | some c => c + 2 ^ 15
      | none => 0))) d
  let d := (d.setFld R.CORE_COUNT_GOOD good.length).setFld R.CORE_COUNT_SERVICE serv.length
  d.setFld R.CORE_COUNT_SPARE spares.length

/-- Builds `SLICE_MAP` (R198). -/
def Dev.buildSlices (d : Dev) : Dev :=
  ((List.range 144).foldl (fun d i => d.setReg (R.SLICE_MAP_TILE.reg + 8 * i) (word i)) d).remapSlices

/-- The address-map registers (R41, R334). -/
def mapRegs : List Nat :=
  [R.MEM_IL_WAYS.reg, R.ECAM_BASE_EN.reg] ++
    (List.range 8).flatMap (fun i => [R.HOME_BASE_EN.reg + 8 * i, R.HOME_LIMIT_ADDR.reg + 8 * i,
      R.IOWIN_BASE_EN.reg + 8 * i, R.IOWIN_LIMIT_ADDR.reg + 8 * i]) ++
    (List.range 16).map fun k => R.CH_MAP_MC.reg + 8 * k

/-- Loads the lockable fields of a register from a stored word; the others keep. -/
def Dev.loadLockable (d : Dev) (off : Nat) (v : Word) : Dev :=
  match regAt off with
  | none => d
  | some r =>
    d.setReg off (r.fields.foldl
      (fun w f => if f.acc == .rwl then f.fld.put w (f.fld.get v) else w) (d.reg off))

/-- The default map (R503): no reserve, W by the channels that trained, U below the capacity, the home ranges in
ascending socket order; the sockets are taken to be alike (log entry 15). -/
def Dev.defaultMap (d : Dev) : Dev :=
  let chs := (List.range 16).filter fun n => d.fld (R.MC_STATUS_STATE.at (0x40000 * n)) == 2
  let lg := if 16 ≤ chs.length then 4 else if 8 ≤ chs.length then 3 else if 4 ≤ chs.length then 2
    else if 2 ≤ chs.length then 1 else 0
  let u := d.fld (R.MC_CFG_CAP_GIB.at (0x40000 * (chs.head?).getD 0)) - 1
  let d := ((d.setFld R.MEM_IL_WAYS lg).setFld R.MEM_IL_RESERVE_EN 0).setFld R.MEM_IL_U_GIB u
  let d := (List.range 16).foldl (fun d k =>
    d.setReg (R.CH_MAP_MC.reg + 8 * k) (word (match (chs.take (2 ^ lg))[k]? with
      | some n => n + 16
      | none => 0))) d
  let d := d.setReg R.ECAM_BASE_EN.reg 0
  let size := u * 2 ^ lg
  let present := (List.range 8).filter fun i => natBit (d.fld R.CHAIN_STATUS_PRESENT) i
  (List.range 8).foldl (fun d i =>
    let d := (d.setReg (R.IOWIN_BASE_EN.reg + 8 * i) 0).setReg (R.IOWIN_LIMIT_ADDR.reg + 8 * i) 0
    if present.contains i then
      let b := present.idxOf i * size
      (d.setReg (R.HOME_BASE_EN.reg + 8 * i) (word (1 + b * 2 ^ 30))).setReg (R.HOME_LIMIT_ADDR.reg + 8 * i)
        (word ((b + size - 1) * 2 ^ 30))
    else (d.setReg (R.HOME_BASE_EN.reg + 8 * i) 0).setReg (R.HOME_LIMIT_ADDR.reg + 8 * i) 0) d

/-- The provisional map (R503, R511): as boot firmware last wrote it before boot-lock, or the default map. -/
def Dev.provisionalMap (d : Dev) : Dev :=
  match d.fw.snapshot with
  | some m =>
    if d.fw.schema < d.fw.cfgSchema then d.defaultMap
    else mapRegs.foldl (fun d off => d.loadLockable off (SMap.get coldValue m off)) d
  | none => d.defaultMap

/-- The base of the boot image (R503): the highest 2 MiB-aligned region of the socket's own home range. -/
def Dev.bootBase (d : Dev) : Nat := (d.fld (R.HOME_LIMIT_ADDR.at (8 * d.self)) + 1) * 2 ^ 30 - 2 ^ 21

/-! ### The configuration store at a start (R488, R505, R510, R511) -/

/-- The steward compares the store's schema with its own (R511). -/
def Dev.checkSchema (d : Dev) : Dev :=
  let d := d.setFld R.STW_STATUS_SCHEMA d.fw.schema
  if d.fw.cfgSchema == d.fw.schema then d.setFld R.STW_STATUS_CFG_DEFAULTED 0
  else
    let d := if d.fw.cfgSchema < d.fw.schema then
        let e := d.cfgStore []
        { e with fw := { e.fw with snapshot := none } }
      else d
    (d.setFld R.STW_STATUS_CFG_DEFAULTED 1).log { source := 0x10, cls := 5 }

/-- The clock plan and the mesh ratio take effect (R488, R505). -/
def Dev.applyClocks (d : Dev) (cold : Bool) : Dev :=
  let m := Nat.min 48 (Nat.max 24 (leNat (d.cfgItem 0x0101)))
  let d := d.setFld R.CLK_STATUS_MESH m
  if cold then d.setFld R.CLK_STATUS_PLAN_STD (bnat (leNat (d.cfgItem 0x0100) == 0)) else d

/-! ### The restart -/

/-- Whether a logical core is withdrawn (R357): an image is held for one of its strands. -/
def Dev.anyWithdrawn (d : Dev) : Bool :=
  d.images.any fun kv => match kv.2 with
    | some i => i.withdrawn && !d.coreThere (kv.1 / 2)
    | none => false

/-- The images after a restart (R358): a withdrawal has ended; only a retained resume leaves its images to be restored. -/
def Dev.endWithdrawal (d : Dev) (retained : Bool) : Dev :=
  { d with
    images := SMap.filterMap (fun _ => none)
      (fun _ i => some (i.map fun x : Image => { x with
        withdrawn := false
        restored := x.restored || (x.withdrawn && !retained) })) d.images }

/-- The results of the start-up self-test (R369, R380): every instance passes, or the test is skipped. -/
def Dev.showSelfTest (d : Dev) (skipped : Bool) : Dev :=
  let value (off : Nat) : Word := if skipped then 0 else coldValue off
  let d := (d.setReg R.SELFTEST_STATUS_DONE.reg (value R.SELFTEST_STATUS_DONE.reg)).setFld R.SELFTEST_STATUS_SKIPPED
    (bnat skipped)
  (List.range 22).foldl (fun d g => d.setReg (R.GROUP_RESULT_PASSED.reg + 8 * g)
    (value (R.GROUP_RESULT_PASSED.reg + 8 * g))) d

/-- The device after a restart of a kind, up to the release of its boot strand. -/
def Dev.restart (d : Dev) (kind : Nat) (p : PowerUpIn) : Dev :=
  let warm := kind == 3
  let cold := decide (kind < 3)
  let retained := kind == 4
  let d := { d with regs := restartRegs warm d.regs }
  let d := if retained then d else d.loseDram
  let d := (d.loseCaches.loseUnits).loseTelemetry
  let d := if warm then d else d.loseSystem
  let withdrawn := d.anyWithdrawn
  let d := d.endWithdrawal retained
  let d := (List.range 8).foldl (fun d n => d.showIntake n) d
  -- the chain (R446, R500, R501)
  let d := if warm then d.setFld R.CHAIN_STATUS_COHERENT (2 ^ d.self)
    else
      let d := (d.setFld R.IDENT_SOCKET_ID p.socketId).setFld R.IDENT_CHAIN_HEAD (bnat p.head)
      let d := (d.setFld R.CHAIN_STATUS_PRESENT p.present.toNat).setFld R.CHAIN_STATUS_COHERENT p.coherent.toNat
      (d.setFld R.SE_STATUS_LINK_SECRET 0).setReg R.FRAME_NUMBER.reg (if cold then 0 else p.startFrame)
  -- the steward and the SE (R504, R511)
  let d := ((d.setFld R.STW_STATUS_STATE 1).setFld R.SE_STATUS_STATE 1).checkSchema
  let d := d.applyClocks cold
  let d := d.setFld R.CUSHION_STATUS_PWRFAIL 0
  -- self-test and repairs (R369, R376); a warm reset finds nothing new
  let d := if warm then d else d.showSelfTest retained
  let d := (d.applyRepairs).restartRetire cold retained
  let d := if warm then (if withdrawn then { d.buildCores p.badCores.toNat with xplant := [] } else d)
    else (d.buildCores p.badCores.toNat).buildSlices
  -- memory (R322, R333)
  let d := if warm then d else
    (List.range 16).foldl (fun d n =>
      let d := d.setFld (R.MC_STATUS_STATE.at (0x40000 * n))
        (if d.channelRetired n then 5 else if natBit p.trained.toNat n then 2 else 6)
      d.setChan n { d.chan n with trained := natBit p.trained.toNat n }) d
  let d := d.provisionalMap
  let d := if retained then d
    else d.setReg R.BOOT_VECTOR_ADDR.reg (word d.bootBase)
  let d := if warm then d else d.setReg R.STRAND_VECTOR_ADDR.reg (d.reg R.BOOT_VECTOR_ADDR.reg)
  { d.setFld R.RESET_INFO_KIND kind with phase := .running }

/-- Strand 0 of logical core 0 starts at H, with every other strand parked (R308, R503). -/
def State.release (s : State) (vector : Word) : State :=
  { s with strands := if s.dev.coreThere 0 then [(0, { Strand.reset with pc := align4 vector, parked := false })] else [] }

/-- A cold or socket warm reset (R498 to R503): the flush of a running socket, and the boot. -/
def State.coldOrWarm (s : State) (kind : Nat) (p : PowerUpIn) : State :=
  let run := s.dev.phase == .running
  let s := if run then s.preFlush else s
  let d := (s.dev.restart kind p).setFld R.RESET_INFO_FLUSHED (bnat (run && kind != 0))
  let d := if kind == 3 then d else d.setReg R.RESUME_INFO_PATH.reg 0
  { s with dev := d }.release (d.reg R.BOOT_VECTOR_ADDR.reg)

/-- What a reset without a power cycle meets: the straps and the outside as they were (log entry 15). -/
def Dev.sameInputs (d : Dev) : PowerUpIn where
  cold := true
  railsOk := true
  testTied := true
  head := d.flag R.IDENT_CHAIN_HEAD
  bootSrc := 0
  socketId := d.self
  present := BitVec.ofNat 8 (d.fld R.CHAIN_STATUS_PRESENT)
  imagesOk := true
  partitionOk := true
  othersRetained := false
  mismatch := false
  canaryOk := 0
  trained := BitVec.ofNat 16 (((List.range 16).filter fun n =>
    d.fld (R.MC_STATUS_STATE.at (0x40000 * n)) != 6).foldl (fun m n => m + 2 ^ n) 0)
  startFrame := 0
  badCores := BitVec.ofNat 288 (((List.range 288).filter fun c => d.coreState c == 0).foldl (fun m c => m + 2 ^ c) 0)
  coherent := BitVec.ofNat 8 (d.fld R.CHAIN_STATUS_PRESENT)

/-- A cold reset of this socket alone (R500): in a system of several sockets it leaves the chain and waits in
enumeration. -/
def State.coldAlone (s : State) : State :=
  let d := s.dev
  if d.fld R.CHAIN_STATUS_PRESENT == 2 ^ d.self then s.coldOrWarm 2 d.sameInputs
  else
    let t := s.coldOrWarm 2 { d.sameInputs with present := BitVec.ofNat 8 (2 ^ d.self), coherent := BitVec.ofNat 8 (2 ^ d.self) }
    { t with
      strands := []
      dev := { t.dev with
        phase := .booting
        chain := { t.dev.chain with enumerated := false } } }

/-! ### Resume (R306 to R311) -/

/-- The newest report (R302). -/
def Dev.newestReport (d : Dev) : Report := SMap.get (fun _ => {}) d.reports (d.drainSeq % 2)

/-- The SEQ of the last complete report; 0 when none is left. -/
def Dev.lastComplete (d : Dev) : Nat :=
  (List.range 2).foldl (fun m k =>
    let r := SMap.get (fun _ => {}) d.reports k
    if r.complete then Nat.max m r.seqn else m) 0

/-- Whether the newest report is torn (R301). -/
def Dev.newestTorn (d : Dev) : Bool :=
  let r := d.newestReport
  r.seqn == d.drainSeq && !r.complete && d.drainSeq == d.lastComplete + 1

/-- Whether the newest report allows a retained resume as far as this socket sees (R306, R333). -/
def Dev.mayRetain (d : Dev) (p : PowerUpIn) : Bool :=
  let r := d.newestReport
  d.drainSeq != 0 && r.seqn == d.drainSeq && r.complete && !r.consumed && natBit r.phases 6 && natBit r.phases 7
    && d.flag R.CUSHION_STATUS_RETAIN_HELD && p.othersRetained && !p.mismatch
    && (List.range 16).all fun n => natBit p.canaryOk.toNat n || d.channelRetired n
      || !natBit r.canaryWritten n

/-- `RESUME_INFO` of a resume (R312). -/
def Dev.showResume (d : Dev) (retained valid torn : Bool) (p : PowerUpIn) : Dev :=
  let held := retained && d.images.any fun kv => kv.2.isSome
  d.setReg R.RESUME_INFO_PATH.reg (word ((if retained then 1 else 2) + 4 * bnat valid + 8 * bnat torn
    + 16 * bnat retained + 32 * bnat p.mismatch + 64 * p.canaryOk.toNat + 2 ^ 22 * bnat held
    + 2 ^ 23 * (d.drainSeq % 2)))

/-- A resume (R307, R308): retained, or peat-only; the report used is consumed at release. -/
def State.resume (s : State) (p : PowerUpIn) : State :=
  let d := s.dev
  let r := d.newestReport
  let retained := d.mayRetain p
  let valid := d.drainSeq != 0 && r.seqn == d.drainSeq && r.complete && !r.consumed
  let torn := d.newestTorn
  let d := d.restart (if retained then 4 else 5) p
  let d := d.showResume retained valid torn p
  let d := d.setFld R.CUSHION_CTL_RETAIN_ARM (bnat (valid && natBit r.phases 6))
  let d := if valid || torn then d.setReg R.EPOCH_CLOSED_EPOCH.reg r.lastClosed else d
  let d := if valid then { d with reports := SMap.set (fun _ => {}) d.reports (r.seqn % 2) { r with consumed := true } }
    else d
  { s with dev := d }.release (d.reg R.RESUME_VECTOR_ADDR.reg)

/-! ### Fiddlehead (R522, R523, R534) -/

/-- A stage of fiddlehead writes a record (R522). -/
def Dev.stageRecord (d : Dev) (stage : Nat) : Dev := d.log { source := 0x0F, cls := 5, syndrome := stage }

/-- Whether the staged copy repairs every component that fails (R523): what an overwrite left unfinished, or all. -/
def Dev.stagedRepairs (d : Dev) : Bool :=
  !d.fw.staged.isEmpty && d.sorusVerdict (Config.sorusCheck d.fw.staged) == 0
    && (d.fw.switched || components.all fun c => d.ownEntries.any fun e => e.component == c)

/-- The images are recovered (R523 stages 1 and 2); none when the third stage waits for a sorus. -/
def Dev.recover (d : Dev) : Option Dev :=
  if d.stagedRepairs then some ((d.stageRecord 1).installStaged.setFld R.STW_STATUS_PREVIOUS_SET 0)
  else if !d.fw.previous.isEmpty then
    let d := d.stageRecord 2
    some ({ d with fw := { d.fw with running := d.fw.previous } }.setFld R.STW_STATUS_PREVIOUS_SET 1)
  else none

/-- The device waits in fiddlehead's third stage, or in enumeration: no strand is released. -/
def State.waitBoot (s : State) (p : PowerUpIn) : State :=
  let d := s.dev
  let d := { d with
    phase := .booting
    chain := { d.chain with enumerated := p.present != 0 } }
  let d := if p.socketId < 8 then d.setFld R.IDENT_SOCKET_ID p.socketId
    else ((d.setFld R.CHAIN_STATUS_UNADDRESSED 1).setFld R.CHAIN_STATUS_OVERFLOW 1).log { source := 0x11, cls := 5 }
  let d := d.setFld R.IDENT_CHAIN_HEAD (bnat p.head)
  { s with
    strands := []
    dev := d.setReg R.FRAME_NUMBER.reg 0 }

/-- The path of a power-up (R306), once the images verify. -/
def State.startPath (s : State) (p : PowerUpIn) : State :=
  if p.cold then s.coldOrWarm 0 p else s.resume p

/-- `PWRGOOD` has risen and `PWRFAIL_N` has been high for 1 ms: the device leaves reset (R306, R493, R533, R535). -/
def State.powerOn (s : State) (p : PowerUpIn) : State :=
  let d := s.dev.tearDrain
  if !p.railsOk || !p.testTied then
    { s with
      strands := []
      dev := { d with
        phase := .off
        faultN := true
        badStart := d.badStart || !p.railsOk } }
  else
    -- the steward records the rail of an earlier start (R493)
    let d := if d.badStart then { d with badStart := false }.log { source := 0x12, cls := 5 } else d
    if !p.partitionOk || p.bootSrc == 1 then
      { s with
        dev := (if p.partitionOk then d.stageRecord 3 else { d with fw := { d.fw with partBad := true } }) }.waitBoot p
    else if p.present == 0 || 8 ≤ p.socketId then { s with dev := d }.waitBoot p
    else if p.imagesOk then { s with dev := d }.startPath p
    else
      match d.recover with
      | some d => { s with dev := d }.startPath p
      | none => { s with dev := d.stageRecord 3 }.waitBoot p

/-- POWER_UP (R306): `PWRGOOD` rises; while `PWRFAIL_N` is low the device stays in reset (R535). -/
def execPowerUp (p : PowerUpIn) (s : State) : Host.Outcome State Fault Refusal :=
  if s.dev.phase == .running then .next s
  else if s.dev.flag R.CUSHION_STATUS_PWRFAIL && s.dev.phase == .off then .next s
  else .next (s.powerOn p)

/-- PWRFAIL_N_RISE (R311, R535): during a drain it completes; after one, with the power still present, the device
resumes without a power cycle, or takes the cold reset of a pin that is still low; at power-up the device leaves
reset. -/
def execPwrfailNRise (p : PowerUpIn) (s : State) : Host.Outcome State Fault Refusal :=
  let s := { s with dev := s.dev.setFld R.CUSHION_STATUS_PWRFAIL 0 }
  match s.dev.phase with
  | .drained => if p.cold then .next (s.coldOrWarm 1 p) else .next (s.powerOn p)
  | .off => .next (s.powerOn p)
  | _ => .next s

/-! ### Resets by pin, register and steward (R498 to R502) -/

/-- COLD_RESET_PIN (R498, R500, R535): applied to every socket of the system at once; ignored during the drain and
while the power is off. -/
def execColdResetPin (s : State) : Host.Outcome State Fault Refusal :=
  match s.dev.phase with
  | .off | .drain => .next s
  | _ => .next (s.coldOrWarm 1 s.dev.sameInputs)

/-- A socket warm reset (R501). -/
def State.warm (s : State) : State := s.coldOrWarm 3 s.dev.sameInputs

/-- Why a strand reset is refused (R502), as RESET_CTL.RESULT; 0 when it is not. -/
def State.strandResetResult (s : State) (id : Nat) : Nat :=
  if id / 512 != s.dev.self || !s.dev.coreThere (id % 512 / 2) then 1
  else if id % 2 == 1 && (s.dev.pm (id % 512 / 2)).active then 2 else 0

/-- Strand g restarts at `STRAND_VECTOR`, unparked, at its Cold state (R50, R502): a sealed strand leaves its domain
first; a strand whose core is in TRANSIT starts once the transplant completes. -/
def State.restartStrand (s : State) (g : Nat) : State :=
  let x := s.strand g
  let s := if x.sealedB then s.sealedExit g x.pc none else s
  let s := s.resetStrand g
  let d := s.dev.addSat R.RESET_INFO_STRAND_RESETS 1
  let d := { d with
    tinvs := d.tinvs.filter fun t => t.1 != g
    ports := SMap.filterMap (fun _ => {})
      (fun _ pt => some { pt with out := pt.out.filter fun o => o.g != g }) d.ports }
  let s := { s with dev := d }
  let s := s.setStrand g { s.strand g with
    pc := align4 (s.dev.reg R.STRAND_VECTOR_ADDR.reg)
    halted := x.halted }
  s.wake g

/-- A write of `RESET_CTL` (R498, R502, R505): accepted from strands at H alone. -/
def State.resetCtlWrite (s : State) (req : Requester) (v : Word) : State :=
  let result (s : State) (r : Nat) : State := { s with dev := s.dev.setFld R.RESET_CTL_RESULT r }
  let atH := match req with
    | .strand g => (s.strand g).pl == 2
    | .other => false
  let keyed := getF v 16 8 == 0xC3
  if !atH then result s 4
  else if (bitOf v 13 || bitOf v 14) && !keyed then result s 3
  else if bitOf v 14 then s.coldAlone
  else if bitOf v 13 then s.warm
  else if bitOf v 12 then
    match s.strandResetResult (getF v 0 12) with
    | 0 => (result s 0).restartStrand (getF v 0 9)
    | r => result s r
  else s

/-- COLD_RESET (R498): a write of `RESET_CTL`. -/
def execColdReset (req : Requester) (v : Word) (s : State) : Host.Outcome State Fault Refusal :=
  if reqOk req then .next (s.resetCtlWrite req v) else .fault .noSuchUnit

/-- WARM_RESET (R498, R501): a write of `RESET_CTL`. -/
def execWarmReset (req : Requester) (v : Word) (s : State) : Host.Outcome State Fault Refusal :=
  if reqOk req then .next (s.resetCtlWrite req v) else .fault .noSuchUnit

/-- STRAND_RESET (R502): a write of `RESET_CTL`. -/
def execStrandReset (req : Requester) (v : Word) (s : State) : Host.Outcome State Fault Refusal :=
  if reqOk req then .next (s.resetCtlWrite req v) else .fault .noSuchUnit

/-- RESET (R509): the steward's command; DENIED for a wrong key. Its cold reset is system-wide. The served command
marks the device by its phase for the reset that follows. -/
def execReset (ch : Channel) (kind key : Nat) (s : State) : Host.Outcome State Fault Refusal :=
  let d := s.dev.manage ch 0x30 fun d =>
    if key != 0xC3 then d.refuse stDenied
    else if 2 ≤ kind then d.refuse stBadCommand
    else { d with phase := .stopped }.done
  if d.phase == .stopped && s.dev.phase != .stopped then
    let s := { s with dev := { d with phase := s.dev.phase } }
    .next (if kind == 0 then s.coldOrWarm 2 s.dev.sameInputs else s.warm)
  else .next { s with dev := d }

end Sys2Proof.Machine
end

