-- ==== Sys2Proof/Machine/Tick.lean ====
section
/-!
DEFINITION. The internal tick and the frame tasks (R246, R250 to R253, R256, R525, R526).
-/

namespace Sys2Proof.Machine

open Sys2Proof

/-! ### Telemetry (R525, R526) -/

/-- n bytes of a free value: a measurement that the spec does not state. -/
def freeBytes (l : Line) (off n : Nat) : List Byte := takeBytes l off n

/-- The telemetry entry of this frame (R526): rail and package power are measurements, free values. -/
def Dev.telemetry (d : Dev) : List Byte × Dev :=
  let m := d.drawLine
  let d := m.2
  let f := d.frame.toNat
  let group := f % 9
  let ps := f % 8
  let throttled := (List.range 144).any fun t => d.flag (tileClk R.TILE_CLK_THROTTLED t)
  let cand := (d.units.filter fun kv => kv.2.candidate).length
  let retired := (d.repairs.filter fun r => r.typ == 3).length
  let life := (d.lifeWord ps).toNat
  let bs := leBytes 8 f ++ freeBytes m.1 0 20 ++ freeBytes m.1 20 2
    ++ leBytes 2 (group + 16 * ps + 128 * bnat throttled)
    ++ ((List.range 16).map fun i => BitVec.ofNat 8 (d.fld (tileClk R.TILE_CLK_TEMP (16 * group + i))))
    ++ leBytes 4 (d.fld R.ERR_HEAD_TOTAL) ++ leBytes 2 cand ++ leBytes 2 retired
    ++ ((List.range 8).flatMap fun n => leBytes 2 (d.stack n).acceptedNow)
    ++ leBytes 8 (life % 2 ^ 29) ++ leBytes 8 (d.fld (psReg R.GOV_STATUS_WINDOW ps))
    ++ leBytes 8 (d.fld R.TLM_GAPS_GAPS) ++ leBytes 24 0
  (bs ++ leBytes 8 (crc32c bs), d)

/-- The sample of a tick (R525): the steward writes it as entry FRAME mod 4,096, or, while it is away, counts a gap. -/
def Dev.sampleTick (d : Dev) : Dev :=
  if d.fld R.STW_STATUS_STATE != 1 then d.addSat R.TLM_GAPS_GAPS 1
  else
    let e := d.telemetry
    let i := e.2.frame.toNat % 4096
    let d := e.2
    { d with
      fw := { d.fw with
        sample := some (SMap.get (fun _ => leBytes 128 0) d.fw.tlm i)
        tlm := SMap.set (fun _ => leBytes 128 0) d.fw.tlm i e.1 } }.setReg R.TLM_HEAD_FRAME.reg d.frame

/-! ### The tick (R246, R251, R256) -/

/-- The frame number at a tick: the announced one, or one more; a resynchronisation completes (R246, R256). -/
def Dev.advanceFrame (d : Dev) : Dev :=
  match d.chain.nextFrame with
  | none => d.setReg R.FRAME_NUMBER.reg (d.frame + 1)
  | some n =>
    let jump := d.frame + 1 != n
    let rs := d.chain.resync == 2
    let d := { d with
      chain := { d.chain with
        nextFrame := none
        resync := if rs then 0 else d.chain.resync } }
    let d := d.setReg R.FRAME_NUMBER.reg n
    if rs then
      let d := (d.setFld R.TICK_STATUS_SOURCE 0).tickEvent R.TICK_EVENT_RESYNCED
      if jump then d.tickEvent R.TICK_EVENT_JUMP else d
    else d

/-- The tasks that a tick opens, in the order of R251: epoch close and persist sweep, credit refill, telemetry, pauses
and slices that fall due. -/
def Dev.frameTasks (d : Dev) : Dev :=
  let d := (d.trackers.map fun kv => kv.1).foldl (fun d c => d.closeBank c) d
  let d := (List.range 16).foldl (fun d n => d.mcTick n) d
  let d := d.sampleTick
  let d := (List.range 8).foldl (fun d n => d.stackTick n) d
  (List.range 6).foldl (fun d e => d.sliceTick e) d

/-- An event line that stays high is delivered again at a tick (R479). -/
def Dev.linesAgain (d : Dev) : Dev :=
  let d := if d.lineHigh 0 then d.routeEvent 0 else d
  if d.lineHigh 1 then d.routeEvent 1 else d

/-- FRAME_TICK (R246): the frame number advances from enumeration on while the always-on clock runs; frame tasks run
while the socket does, and during a drain only the epoch close (R295). -/
def execFrameTick (s : State) : Host.Outcome State Fault Refusal :=
  onDev true s fun d =>
    match d.phase with
    | .off | .booting | .drained => d
    | .running => d.advanceFrame.frameTasks.linesAgain
    | .drain => (d.trackers.map fun kv => kv.1).foldl (fun d c => d.closeBank c) d.advanceFrame
    | .stopped => d.advanceFrame

/-! ### Abandonment (R253) -/

/-- A task's misses in a row after one more; the 64th writes a record for its unit. -/
def Dev.missRecord (d : Dev) (misses source inst : Nat) : Dev :=
  if misses % 64 == 0 then d.log { source := 0x12, inst := inst, cls := 5, syndrome := source } else d

/-- TASK_ABANDON (R253): of a task that is due; it is counted and retried in the next frame in which it fits. -/
def execTaskAbandon (task : FrameTask) (s : State) : Host.Outcome State Fault Refusal :=
  onDev (taskOk task) s fun d =>
    match task with
    | .retrain n =>
      let c := d.chan n
      if !(c.owed || d.pauseSlot n) then d
      else
        let d := d.setChan n { c with owed := true, misses := c.misses + 1 }
        ((d.addSat R.TASK_ABANDON_RETRAIN 1).missRecord (c.misses + 1) 1 n).tickEvent R.TICK_EVENT_TASK_MISS
    | .sliceTest e =>
      let x := d.engine e
      if !x.owed then d
      else
        let d := d.setEngine e { x with misses := x.misses + 1 }
        ((d.addSat R.TASK_ABANDON_SLICETEST 1).missRecord (x.misses + 1) 0x13 e).tickEvent R.TICK_EVENT_TASK_MISS
    | .telemetry =>
      match d.fw.sample with
      | none => d
      | some old =>
        let i := d.frame.toNat % 4096
        let d := { d with
          fw := { d.fw with
            sample := none
            tlm := SMap.set (fun _ => leBytes 128 0) d.fw.tlm i old } }
        let d := d.setReg R.TLM_HEAD_FRAME.reg (if d.frame == 0 then 0 else d.frame - 1)
        (d.addSat R.TLM_GAPS_GAPS 1).tickEvent R.TICK_EVENT_TASK_MISS

end Sys2Proof.Machine
end

