-- ==== Sys2Proof/Machine/RegRead.lean ====
section
/-!
DEFINITION. What a read of the socket register space gives (R11, R35): registers whose value is computed when it is
read (R23, R218, R244, R287, R289), the mailboxes' claims and buffers (R406, R442, R508), and the read-only windows over
the error ring, the strand images, the drain report, telemetry and the repair record (R301 to R304, R345, R377, R526).
-/

namespace Sys2Proof.Machine

open Sys2Proof

/-- Eight bytes of a list from an offset, as a word. -/
def bytesWord (bs : List Byte) (off : Nat) : Word := word (leNat ((bs.drop off).take 8))

/-! ### Strand images (R304) -/

/-- A bank of an image: `EPC`, `CAUSE`, `FADDR`, `FIPA`, `FSYN`, `VBASE`, `SCRATCH0` to `SCRATCH3`. -/
def Bank.words (b : Bank) : List Word :=
  [b.epc, b.cause, b.faddr, b.fipa, b.fsyn, b.vbase, b.s0, b.s1, b.s2, b.s3]

/-- Word k of the image of a global strand ID, without its digest (R304). -/
def Image.bodyWord (i : Image) (id k : Nat) : Word :=
  let x := i.strand
  if k == 0 then x.pc
  else if k < 32 then x.getN (BitVec.ofNat 5 k)
  else if k < 160 then
    word ((x.getV (BitVec.ofNat 5 ((k - 32) / 4))).toNat / 2 ^ (64 * ((k - 32) % 4)))
  else if k < 170 then
    ([x.status, x.hstatus, x.tcfg, x.ttb1, x.ttb2, x.asid, x.vmid, x.cycles, x.timecmp, pmodeWord i.pmode i.parked][k - 160]?).getD 0
  else if k < 180 then (x.bankH.words[k - 170]?).getD 0
  else if k < 190 then (x.bankS.words[k - 180]?).getD 0
  else if k == 190 then word (1 + 2 * bnat i.sealedX + 4 * bnat i.parked + 8 * bnat i.waiting)
  else if k == 191 then word (id + 4096 * i.phys)
  else 0

/-- Word k of an image: the last 64 bytes are the digest of the others. -/
def Image.word (i : Image) (id k : Nat) : Word :=
  if k < 248 then i.bodyWord id k
  else
    let body := (List.range 248).flatMap fun j => leBytes 8 (i.bodyWord id j).toNat
    bytesWord (takeBytes (Config.sha3 body) 0 64) (8 * (k - 248))

/-- `IMAGE_WINDOW` (R312): the image that `STRAND_RESTORE.ID` names. -/
def Dev.imageWindow (d : Dev) (off : Nat) : Word :=
  let id := d.fld R.STRAND_RESTORE_ID
  if id / 512 != d.self then 0
  else
    match d.image (id % 512) with
    | none => 0
    | some i => i.word id (off / 8)

/-! ### Drain reports (R302, R303) -/

/-- The 8-byte words of a Ledger list entry. -/
def LedgerItem.words (x : LedgerItem) : List Word :=
  [word (x.pair + 2 ^ 16 * bnat x.finished + 2 ^ 17 * x.op + 2 ^ 32 * x.sq), word x.bytes, word x.status, 0]

/-- The word of a line list entry. -/
def LineItem.word (x : LineItem) : Word :=
  Sys2Proof.word (bnat x.durable + 2 * bnat x.prev + 4 * bnat x.remote + 8 * bnat x.poisoned + 16 * x.reason + 64 * x.g)

/-- The words of a strand index entry. -/
def Report.indexWords (r : Report) (g : Nat) : List Word :=
  match r.images.find? fun i => i.1 == g with
  | none => [word (r.sock * 512 + g), 0]
  | some (_, i) =>
    [word (r.sock * 512 + g + 2 ^ 12 + 2 ^ 13 * bnat i.sealedX + 2 ^ 14 * bnat i.parked
        + 2 ^ 15 * bnat (i.carried || i.withdrawn) + 2 ^ 16 * i.phys), i.frame]

/-- Word k of a report's header, without its digest (R302). -/
def Report.headWord (r : Report) (k : Nat) : Word :=
  if k == 0 then word (1 + 2 ^ 16 * r.sock + 2 ^ 19 * r.present)
  else if k == 1 then word r.seqn
  else if k == 2 then word r.cause
  else if k == 3 || k == 6 then r.startFrame
  else if k == 4 then r.endFrame
  else if k == 5 then r.lastClosed
  else if k == 7 then word r.phases
  else if k == 8 then word (r.dramDone + 2 ^ 16 * r.selfRefresh + 2 ^ 32 * r.canaryWritten)
  else if k == 9 then word (r.images.length + 2 ^ 10 * r.strands + 2 ^ 20 * r.ledger.length)
  else if k == 10 then word (r.lines.length + 2 ^ 32 * (r.lines.filter fun x => !x.durable).length)
  else if k < 17 then SMap.get (fun _ => 0) r.phaseEnd (k - 11)
  else if k == 17 then word (r.errFirst + 2 ^ 16 * r.errCount)
  else if k < 34 then SMap.get (fun _ => 0) r.canary (k - 18)
  else 0

/-- What the digest of a report covers: the header before it and the three lists (R302). -/
def Report.digested (r : Report) : List Byte :=
  ((List.range 504).map r.headWord ++ (List.range 512).flatMap r.indexWords ++ r.ledger.flatMap LedgerItem.words
    ++ r.lines.map LineItem.word).flatMap fun w => leBytes 8 w.toNat

/-- The word at an offset of a report's slot (R302, R303). -/
def Report.wordAt (r : Report) (off : Nat) : Word :=
  if off < 0xFC0 then r.headWord (off / 8)
  else if off < 0x1000 then
    if r.complete then bytesWord (takeBytes (Config.sha3 r.digested) 0 64) (off - 0xFC0) else 0
  else if off < 0x3000 then ((r.indexWords ((off - 0x1000) / 16))[(off - 0x1000) / 8 % 2]?).getD 0
  else if off < 0xB000 then
    match r.ledger[(off - 0x3000) / 32]? with
    | none => 0
    | some x => (x.words[(off - 0x3000) / 8 % 4]?).getD 0
  else
    match r.lines[(off - 0xB000) / 8]? with
    | none => 0
    | some x => x.word

/-- `REPORT_WINDOW` (R312): the report in use; 0 when there is none. -/
def Dev.reportWindow (d : Dev) (off : Nat) : Word :=
  let r := SMap.get (fun _ => ({} : Report)) d.reports (d.fld R.RESUME_INFO_SLOT)
  if d.fld R.RESUME_INFO_PATH == 0 || r.seqn == 0 then 0 else r.wordAt off

/-! ### The repair record and telemetry (R377, R526) -/

/-- The first 24 bytes of a repair entry. -/
def Repair.body (r : Repair) : List Byte :=
  leBytes 8 (r.typ % 16 + 2 ^ 4 * (r.kind % 16) + 2 ^ 8 * (r.group % 256) + 2 ^ 16 * (r.inst % 65536)
      + 2 ^ 32 * (r.sub % 65536) + 2 ^ 48 * (r.loc % 65536))
    ++ leBytes 8 (r.spare % 256 + 2 ^ 8 * bnat r.fused + 2 ^ 9 * bnat r.fuseBad) ++ leBytes 8 r.frame.toNat

/-- `REPAIR_WINDOW` (R377, R380): 16,384 entries of 32 bytes. -/
def Dev.repairWindow (d : Dev) (off : Nat) : Word :=
  match d.repairs[off / 32]? with
  | none => 0
  | some r => bytesWord (r.body ++ leBytes 8 (crc32c r.body)) (off % 32)

/-- `TLM_WINDOW` (R525, R526): 4,096 entries of 128 bytes. -/
def Dev.tlmWindow (d : Dev) (off : Nat) : Word :=
  bytesWord (SMap.get (fun _ => []) d.fw.tlm (off / 128)) (off % 128)

/-! ### Computed registers -/

/-- A pointer of a directory entry (R218, R219). -/
def ptrCode : Agent → Nat
  | .core c => c
  | .socket s => 512 + s
  | _ => 0

/-- The state code of a directory entry (R218). -/
def DirState.code : DirState → Nat
  | .uncached => 0
  | .pointer => 1
  | .broadcast => 2
  | .owned => 3

/-- Word 0 of a directory entry (R218). -/
def Dir.word0 (e : Dir) : Word :=
  let ptr (i : Nat) : Nat := ((e.ptrs[i]?).map ptrCode).getD 0
  word (e.st.code + 4 * bnat e.remote + 8 * e.lead + 2 ^ 5 * ptr 0 + 2 ^ 15 * ptr 1 + 2 ^ 25 * ptr 2
    + 2 ^ 35 * bnat e.llcd + 2 ^ 36 * e.llcway + 2 ^ 40 * bnat e.held + 2 ^ 41 * bnat e.proxy + 2 ^ 42 * e.ownseq.toNat)

/-- `DIR_DIAG_W0` and `DIR_DIAG_W1` of slice i (R243, R244): the entry of the selected set and way, before boot-lock. -/
def Dev.dirDiag (d : Dev) (i k : Nat) : Word :=
  let set := d.fld (R.DIR_DIAG_SEL_SET.at (0x10000 * i))
  let way := d.fld (R.DIR_DIAG_SEL_WAY.at (0x10000 * i))
  if d.locked then 0
  else
    match d.dirs.find? fun kv => kv.2.valid && hashIndex kv.1 == i && dirSet kv.1 == set && kv.2.way == way with
    | none => 0
    | some (g, e) => if k == 0 then e.word0 else word (g / 2 ^ 14 % 2 ^ 32 + 2 ^ 32)

/-- `PTRACK` of a core (R289). -/
def Dev.ptrackWord (d : Dev) (c : Nat) : Word :=
  word ((d.tracker c).openB.length % 128 + 128 * ((d.tracker c).closing.length % 128))

/-- The element of a register of an array: its index in a one-dimensional array. -/
def elem (base stride off : Nat) : Nat := (off - base) / stride

/-- The value of a defined register as a read finds it, before its WO fields are masked. -/
def Dev.liveWord (d : Dev) (base off : Nat) : Word :=
  if base == R.PTRACK_OPEN.reg then
    d.ptrackWord (2 * elem base 0x10000 off + (off - base) % 0x10000 / 0x800)
  else if base == R.DIR_DIAG_W0_WORD.reg then d.dirDiag (elem base 0x10000 off) 0
  else if base == R.DIR_DIAG_W1_WORD.reg then d.dirDiag (elem base 0x10000 off) 1
  else if base == R.WEAR_SUMMARY_MAX.reg then d.wearSummary (elem base 0x40000 off)
  else if base == R.LIFE_YEARS.reg then d.lifeWord (elem base 0x40000 off)
  else if base == R.WEAR_DATA_COUNT.reg then d.wearData (elem base 0x40000 off)
  else if base == R.STRAND_CTL_THRESH.reg then
    putF (d.reg off) 4 1 (bnat (d.coreThere (elem base 0x100 off / 2)))
  else if base == R.LE_STATUS_ENABLED.reg then d.reg R.FN_STATUS_ENABLED.reg
  else d.reg off

/-- What a requester reads of a mailbox's claim register (R406). -/
def State.claimWord (s : State) (b : Box) (r : Requester) : Word :=
  putF (s.dev.reg b.claimOff) 1 1 (bnat (s.atH r && s.dev.holdsBox b r))

/-- What a requester reads of a mailbox's buffer (R406): others than the holder read 0. -/
def State.bufWord (s : State) (b : Box) (r : Requester) (off : Nat) : Word :=
  if s.atH r && s.dev.holdsBox b r then s.dev.bufRead b off else 0

/-- What a read of one of the windows gives (R301, R312, R361, R380, R406, R508). -/
def State.windowWord (s : State) (r : Requester) (off : Nat) : Word :=
  if off < 0x20000 then bytesWord (s.dev.recordBytes ((off - 0x10000) / 64)) (off % 64)
  else if off < 0x80000 then s.dev.imageWindow (off - 0x7F800)
  else if off < 0x100000 then s.dev.reportWindow (off - 0x80000)
  else if off < 0x102000 then s.bufWord .stw r (off - 0x101000)
  else if off < 0x200000 then s.dev.tlmWindow (off - 0x180000)
  else if off < 0x202000 then s.bufWord .se r (off - 0x201000)
  else s.dev.repairWindow (off - 0x7080000)

/-- A read of the register space of this socket by a requester (R11, R35, R36, R406): the value, and what the read
does. -/
def State.regRead (s : State) (r : Requester) (off : Nat) : Word × State :=
  if off == Box.se.claimOff || off == Box.stw.claimOff then
    let b := boxOf (off == Box.stw.claimOff)
    let s := s.claimBox b r
    (s.claimWord b r, s)
  else if inWindow off then (s.windowWord r off, s)
  else
    match regAt off with
    | some e => (readWord e (s.dev.liveWord e.base off), s)
    | none => (0, { s with dev := s.dev.hole r off false })

end Sys2Proof.Machine
end

