-- ==== Sys2Proof/Machine/RegWrite.lean ====
section
/-!
DEFINITION. A write of the socket register space (R11, R12, R14, R35): boot-lock (R38, R393, R408), the registers that
act when they are written, each by the operation of its own family, and every other by its access codes. The Ledger
Engine's BAR registers (R427 to R430, R442) and the Kymin registers of the ports (R424) take part under their offsets.
-/

namespace Sys2Proof.Machine

open Sys2Proof

/-! ### Boot-lock (R38) -/

/-- Whether a register has an RWL field. -/
def lockable (off : Nat) : Bool :=
  match regAt off with
  | none => false
  | some r => r.fields.any fun f => f.acc == .rwl

/-- The lockable registers as they stand: the locked snapshot that the steward stores (R510). -/
def Dev.lockedSnapshot (d : Dev) : SMap Word :=
  SMap.filterMap coldValue (fun off w => if lockable off then some w else none) d.regs

/-- Whether the POT lies inside the socket's home range (R393). -/
def Dev.potFits (d : Dev) : Bool :=
  let lo := d.fld (R.HOME_BASE_ADDR.at (8 * d.self)) * 2 ^ 30
  decide (lo ≤ d.potBase) && decide (d.potBase + d.homeGib * 2 ^ 21 ≤ lo + d.homeGib * 2 ^ 30)

/-- The digest of the address map that a MAP_EXCHANGE carries (R408; log entry 6). -/
def Dev.mapDigest (d : Dev) : Word :=
  bytesWord (takeBytes (Config.sha3 (mapRegs.flatMap fun off => leBytes 8 (d.reg off).toNat)) 0 64) 0

/-- A write of `SOC.LOCK` (R38): boot-lock ends the table's use when it does not fit (R393), the steward stores the
locked snapshot (R510), and the sockets exchange their ECAM bases (R408). -/
def Dev.lockWrite (d : Dev) (v : Word) : Dev :=
  if d.locked || !bitOf v 0 then d
  else
    let d := if d.potFits then d else d.setFld R.POT_BASE_EN 0
    let d := d.setFld R.LOCK_BOOT_LOCK 1
    let d := { d with fw := { d.fw with snapshot := some d.lockedSnapshot } }
    d.chainSend 0x31 (leBytes 8 (d.reg R.ECAM_BASE_EN.reg).toNat ++ leBytes 8 d.mapDigest.toNat)

/-- BOOT_LOCK (R38): a write of `SOC.LOCK`. -/
def execBootLock (req : Requester) (v : Word) (s : State) : Host.Outcome State Fault Refusal :=
  onDev (reqOk req) s fun d => d.lockWrite v

/-! ### Registers that act (one operation each) -/

/-- A write of `CLK_CTL` (R488, R505): the mesh ratio is stored and takes effect at the next restart. -/
def Dev.clkCtlWrite (d : Dev) (v : Word) : Dev :=
  if d.locked then d
  else
    let d := d.writeReg R.CLK_CTL_MESH_RATIO.reg v
    d.cfgStore (SMap.set (fun _ => []) d.cfgNow 0x0101 [BitVec.ofNat 8 (getF v 0 6)])

/-- A write of `ERR_STATUS` (R352, R361): `FAULT_N` follows FAULT. -/
def Dev.errStatusWrite (d : Dev) (v : Word) : Dev :=
  let d := d.writeReg R.ERR_STATUS_FAULT.reg v
  { d with faultN := d.flag R.ERR_STATUS_FAULT }

/-- A write of `FL_CTL` of link n (R459, R465): a link that is disabled goes down, and a change is announced. -/
def Dev.flCtlWrite (d : Dev) (n : Nat) (v : Word) : Dev :=
  let old := d.reg (flReg R.FL_CTL_EN n).reg
  let d := d.writeReg (flReg R.FL_CTL_EN n).reg v
  if d.reg (flReg R.FL_CTL_EN n).reg == old then d
  else if !d.flag (flReg R.FL_CTL_EN n) && d.fld (flReg R.FL_STATUS_STATE n) != 6 then
    ((d.setFld (flReg R.FL_STATUS_STATE n) 0).setFld (flReg R.FL_STATUS_WIDTH n) 0).linkChanged
  else d.linkChanged

/-- A write of `CQ_HEAD` of a pair (R430): beyond the ring it halts an enabled queue. -/
def Dev.cqHeadWrite (d : Dev) (q : Nat) (v : Word) : Dev :=
  if d.flag (qReg R.Q_CTL_EN q) && d.cqSize q ≤ getF v 0 16 then d.queueErr q 1
  else d.setFld (qReg R.CQ_HEAD_INDEX q) (getF v 0 16)

/-- A write of the registers of a mailbox that its claim does not guard (R406): strands at H alone. -/
def State.boxStatusWrite (s : State) (b : Box) (r : Requester) (off : Nat) (v : Word) : State :=
  if s.atH r then { s with dev := s.dev.writeReg off v } else { s with dev := s.dev.rejectBox b }

/-- Writes the phases that `DRAIN_STEP.GO` starts (R360). -/
def State.drainStepWrite (s : State) (v : Word) : State :=
  (List.range 3).foldl (fun s b => if bitOf v b then s.startPhase b else s) s

/-- The strand whose refill block an offset lies in (R181): by the physical core, as it serves now. -/
def Dev.refillOwner (d : Dev) (off : Nat) : Nat :=
  let c := 2 * ((off - 0x400D000) / 0x10000) + (off - 0x400D000) % 0x10000 / 0x800
  2 * d.fld (R.CORE_STATE_LOGICAL.at (8 * c)) + (off - 0x400D000) % 0x800 / 0x100

/-- A write of a refill register (R181): only the strand it belongs to may write it. -/
def State.refillWrite (s : State) (req : Requester) (base off : Nat) (v : Word) : State :=
  let i := s.dev.refillOwner off
  if base == R.REFILL_CTL_GO.reg then s.refillCtlWrite req i v
  else if req == .strand i then { s with dev := s.dev.writeReg off v }
  else s

/-- A write of a register of the SOC block that acts; none when no such register has this base. -/
def State.socWrite (s : State) (req : Requester) (base off : Nat) (v : Word) : Option State :=
  let dev (d : Dev) : Option State := some { s with dev := d }
  let d := s.dev
  if base == R.LOCK_BOOT_LOCK.reg then dev (d.lockWrite v)
  else if base == R.TICK_CTL_COMP.reg then dev (d.tickCtlWrite v)
  else if base == R.RESUME_INFO_PATH.reg then dev (d.resumeInfoWrite v)
  else if base == R.STRAND_RESTORE_ID.reg then some (s.restoreWrite req v)
  else if base == R.DRAIN_TEST_KEY.reg then some (s.drainTestWrite v)
  else if base == R.IOIQ_BASE_EN.reg then dev (d.ioqBaseWrite v)
  else if base == R.IOIQ_TAIL_INDEX.reg then dev (d.writeReg off v).ioqIdle
  else if base == R.EVAC_CTL_RATE.reg then dev (d.evacWrite v)
  else if base == R.ERR_STATUS_FAULT.reg then dev (d.errStatusWrite v)
  else if base == R.ERR_TAIL_INDEX.reg then dev (d.errTailWrite v)
  else if base == R.XPLANT_CTL_TARGET.reg then some (s.xplantWrite v)
  else if base == R.DRAIN_STEP_GO.reg then some (s.drainStepWrite v)
  else none

/-- A write of a register of a unit beside the SOC block that acts. -/
def State.unitWrite (s : State) (req : Requester) (base off : Nat) (v : Word) : Option State :=
  let dev (d : Dev) : Option State := some { s with dev := d }
  let d := s.dev
  let mc := (off - 0x1000000) / 0x40000
  let tile := (off - 0x4000000) / 0x10000
  let strand := (off - 0x6010000) / 0x100
  if base == R.SCRUB_CTL_EN.reg then dev (d.scrubWrite mc v)
  else if base == R.RETRAIN_CTL_PERIOD.reg then dev (d.retrainWrite mc v)
  else if base == R.ROWGUARD_EVENT_ROW.reg then dev (d.rowguardWrite mc v)
  else if base == R.FL_CTL_EN.reg then dev (d.flCtlWrite ((off - 0x2000000) / 0x40000) v)
  else if base == R.FL_RETIRE_GO.reg then dev (d.flRetireWrite ((off - 0x2000000) / 0x40000) v)
  else if base == R.CORE_CACHE_CTL_L1I_EN.reg then
    dev (d.cacheCtlWrite tile (.core ((off - base) % 0x10000 / 0x100)) v)
  else if base == R.LLC_CTL_WAY_EN.reg then dev (d.cacheCtlWrite tile .llc v)
  else if base == R.REFILL_VA_ADDR.reg || base == R.REFILL_ENTRY_ENTRY.reg || base == R.REFILL_CTL_GO.reg then
    some (s.refillWrite req base off v)
  else if base == R.IR_SEND_TARGET.reg then some (s.irSendWrite v)
  else if base == R.IR_INV_INDEX.reg then dev (d.irInvWrite v)
  else if base == R.BIND_EN.reg then dev (d.bindWrite strand v)
  else if base == R.SLICE_GO_SLICE.reg then dev (d.sliceGoWrite ((off - base) / 0x40) v)
  else if base == R.INJ_ARM_ARM.reg then dev (d.injArmWrite ((off - 0x7010000) / 0x100) v)
  else if base == R.DLOG_GEN_GEN.reg then dev (d.dlogGenWrite ((off - 0x8010000) / 0x40) v)
  else if base == R.DLOG_RING_HEAD_INDEX.reg then dev (d.dlogHeadWrite ((off - 0x8010000) / 0x40) v)
  else if base == R.CLK_CTL_MESH_RATIO.reg then dev (d.clkCtlWrite v)
  else if base == R.RESET_CTL_STRAND_ID.reg then some (s.resetCtlWrite req v)
  else if base == R.TILE_CLK_RATIO.reg then dev (d.tileClkWrite ((off - base) / 8) v)
  else none

/-- A write of a register of a mailbox (R406, R508). -/
def State.mailWrite (s : State) (req : Requester) (base off : Nat) (v : Word) : Option State :=
  if base == R.MB_CLAIM_HELD.reg then some (s.claimWrite .se req v)
  else if base == R.SMB_CLAIM_HELD.reg then some (s.claimWrite .stw req v)
  else if base == R.MB_CMD_CODE.reg then some (s.boxWrite .se req fun d => d.cmdWrite .se v)
  else if base == R.SMB_CMD_CODE.reg then some (s.boxWrite .stw req fun d => d.cmdWrite .stw v)
  else if base == R.MB_STATUS_RESULT.reg then some (s.boxStatusWrite .se req off v)
  else if base == R.SMB_STATUS_RESULT.reg then some (s.boxStatusWrite .stw req off v)
  else none

/-- A write of one of the Ledger Engine's BAR registers (R428 to R430, R436, R442). -/
def Dev.barWrite (d : Dev) (base off : Nat) (v : Word) : Option Dev :=
  let q := (off - 0x101000000) / 0x100
  let t := (off - 0x100020000) / 0x20
  if base == R.LE_STATUS_ENABLED.reg then some (d.writeReg R.FN_STATUS_ENABLED.reg v)
  else if base == R.QP_ASSIGN_FUNC.reg then some (d.qpAssign ((off - base) / 8) v)
  else if base == R.STREAM_BASE_ADDR.reg then
    some (if d.flag (streamReg R.STREAM_CTL_EN t) then d else d.writeReg off v)
  else if base == R.STREAM_CTL_EN.reg then some (d.streamCtl t v)
  else if base == R.MBX_CMD_CODE.reg then some (d.cmdWrite .pf v)
  else if base == R.SQ_TAIL_INDEX.reg then some (d.sqDoorbell q v)
  else if base == R.CQ_HEAD_INDEX.reg then some (d.cqHeadWrite q v)
  else if base == R.Q_CTL_EN.reg then some (d.queueCtl q v)
  else none

/-- A write of a defined register (R11): by the operation of its family, else by its access codes. -/
def State.definedWrite (s : State) (req : Requester) (base off : Nat) (v : Word) : State :=
  match s.socWrite req base off v with
  | some t => t
  | none =>
    match s.unitWrite req base off v with
    | some t => t
    | none =>
      match s.mailWrite req base off v with
      | some t => t
      | none =>
        match s.dev.barWrite base off v with
        | some d => { s with dev := d }
        | none => { s with dev := s.dev.writeReg off v }

/-- A write of one of the windows: the mailbox buffers take it from the holder (R406, R508); the rest are read-only. -/
def State.windowWrite (s : State) (req : Requester) (off : Nat) (v : Word) : State :=
  if 0x101000 ≤ off && off < 0x102000 then s.boxWrite .stw req fun d => d.bufWrite .stw (off - 0x101000) v
  else if 0x201000 ≤ off && off < 0x202000 then s.boxWrite .se req fun d => d.bufWrite .se (off - 0x201000) v
  else s

/-- A write of the register space of this socket by a requester (R11, R14, R35). -/
def State.regWrite (s : State) (req : Requester) (off : Nat) (v : Word) : State :=
  if inWindow off then s.windowWrite req off v
  else
    match regAt off with
    | some r => s.definedWrite req r.base off v
    | none => if off < 2 ^ 28 then { s with dev := s.dev.hole req off true } else s

/-- REGISTER_WRITE (R11): an aligned write of a register of the socket, of the Ledger Engine's BAR or of a port. -/
def execRegisterWrite (req : Requester) (off : Nat) (v : Word) (s : State) : Host.Outcome State Fault Refusal :=
  if !(reqOk req && decide (off < 2 ^ 34)) then .fault .noSuchUnit
  else if 0x200000000 ≤ off then
    let k := off % 0x1000
    if off < 0x200050000 && (k == 0x908 || k == 0x90C || k == 0x910 || k == 0x914) then
      .next (s.portCfgWrite ((off - 0x200000000) / 0x1000) (k / 4) (BitVec.allOnes 32) (v.setWidth 32))
    else .next s
  else if off % 8 != 0 then .next s
  else .next (s.regWrite req off v)

end Sys2Proof.Machine
end

