-- ==== Sys2Proof/Machine/Device.lean ====
section
/-!
DEFINITION. What a strand reaches through the PCI Express windows and the ECAM (R407, R408, R411, R416, R419): the Ledger
Engine's BARs (R425 to R430), configuration space, and requests to what lies below a root port.
-/

namespace Sys2Proof.Machine

open Sys2Proof

/-! ### The Ledger Engine's BARs (R426, R427, R429, R430) -/

/-- A doubleword of the PF's configuration space as stored. -/
def Dev.pfDword (d : Dev) (k : Nat) : Nat := (SMap.get (fun _ => 0) (d.func 0).cfg k).toNat

/-- The function and the offset into its BAR0 that an address names. -/
def Dev.ledgerAt (d : Dev) (pa : Nat) : Option (Nat × Nat) :=
  let pf := d.pfDword 4 / 2 ^ 26 * 2 ^ 26 + d.pfDword 5 * 2 ^ 32
  let vf := d.pfDword 0x49 / 2 ^ 16 * 2 ^ 16 + d.pfDword 0x4A * 2 ^ 32
  let v := (pa - vf) / 65536 + 1
  if decide (pf ≤ pa) && decide (pa < pf + 2 ^ 26) then some (0, pa - pf)
  else if decide (vf ≤ pa) && decide (v ≤ d.pfDword 0x44 % 65536) && decide (v < 2048) && (d.func v).exposed then
    some (v, (pa - vf) % 65536)
  else none

/-- Whether a function answers at its BAR (R427): Memory Space Enable, for a VF that of the SR-IOV capability, and not
D3hot. -/
def Dev.barOn (d : Dev) (f : Nat) : Bool :=
  !(d.func f).d3 && (if f == 0 then (d.func 0).mse else natBit (d.pfDword 0x42) 3)

/-- The pair that a queue page of a function drives (R428). -/
def Dev.pagePair (d : Dev) (f off : Nat) : Option Nat :=
  if f == 0 then
    let q := (off - 0x1000000) / 0x100
    if decide (0x1000000 ≤ off) && decide (q < 8192) && d.qOwner q == 0 then some q else none
  else if decide (0x1000 ≤ off) && decide (off < 0xF000) then
    (d.pairsOf f).find? fun q => d.fld (R.QP_ASSIGN_SLOT.at (8 * q)) == (off - 0x1000) / 0x100
  else none

/-- Where a function's MSI-X table and PBA begin, and how many entries it has (R425, R429). -/
def msixAt (f : Nat) : Nat × Nat × Nat := if f == 0 then (0x3000000, 0x3008000, 2048) else (0xF000, 0xFE00, 224)

/-- The 64 pending bits of a function from entry 64j on. -/
def Dev.pbaWord (d : Dev) (f j : Nat) : Word :=
  word (((List.range 64).filter fun i =>
    SMap.get msixDefault d.msix (pbaKey f (64 * j + i)) != 0).foldl (fun w i => w + 2 ^ i) 0)

/-- The register behind an aligned offset of a function's BAR, by its place in the model's register map. -/
def Dev.barReg (d : Dev) (f off : Nat) : Option Nat :=
  let inPage := if f == 0 then 0x1000000 ≤ off && off < 0x1200000 else 0x1000 ≤ off && off < 0xF000
  if inPage then (d.pagePair f off).map fun q => 0x101000000 + 0x100 * q + off % 0x100
  else if f == 0 then some (0x100000000 + off)
  else if off == 0 then some (fnReg R.FN_STATUS_ENABLED f).reg
  else none

/-- An aligned doubleword of a function's BAR as it reads (R429, R430, R442): what is not listed reads 0. -/
def Dev.barWord (d : Dev) (f off : Nat) : Word :=
  let t := msixAt f
  if decide (t.1 ≤ off) && decide (off < t.1 + 16 * t.2.2) then d.msixWord f ((off - t.1) / 8)
  else if decide (t.2.1 ≤ off) && decide (off < t.2.1 + t.2.2 / 8 + 4) then d.pbaWord f ((off - t.2.1) / 8)
  else if f == 0 && decide (0x51000 ≤ off) && decide (off < 0x52000) then d.bufRead .pf (off - 0x51000)
  else
    match d.barReg f off with
    | none => 0
    | some o =>
      match regAt o with
      | some e => readWord e (d.liveWord e.base o)
      | none => 0

/-- Bytes of a function's BAR (R427). -/
def Dev.barBytes (d : Dev) (f off n : Nat) : List Byte :=
  (List.range n).map fun i =>
    if d.barOn f then lineByte ((d.barWord f ((off + i) / 8 * 8)).setWidth 512) ((off + i) % 8) else 0xFF

/-- A doubleword with bytes written at an offset. -/
def wordPut (w : Word) (off : Nat) (bs : List Byte) : Word := (putBytes (w.setWidth 512) off bs).setWidth 64

/-- Whether a register has fields that a written 1 clears: a partial write leaves its other bytes alone. -/
def clearsOnOne (o : Nat) : Bool :=
  match regAt o with
  | none => false
  | some e => e.fields.any fun f => f.acc == .rw1c || f.acc == .rw1cf

/-- A write of an MSI-X entry (R429; log entry 14): an entry that is unmasked sends what was pending. -/
def State.msixWrite (s : State) (f k : Nat) (w : Word) : State :=
  let e := k / 2
  let pending := SMap.get msixDefault s.dev.msix (pbaKey f e) != 0
  let s := { s with dev := { s.dev with msix := SMap.set msixDefault s.dev.msix (f * 8192 + k) w } }
  if pending && !bitOf (s.dev.msixWord f (2 * e + 1)) 32 then
    { s with dev := { s.dev with msix := SMap.set msixDefault s.dev.msix (pbaKey f e) 0 } }.msixSend f e
  else s

/-- A write of bytes of an aligned doubleword of a function's BAR (R429, R430, R442). -/
def State.barPut (s : State) (req : Requester) (f off k : Nat) (bs : List Byte) : State :=
  let d := s.dev
  let t := msixAt f
  if decide (t.1 ≤ off) && decide (off < t.1 + 16 * t.2.2) then
    s.msixWrite f ((off - t.1) / 8) (wordPut (d.msixWord f ((off - t.1) / 8)) k bs)
  else if f == 0 && decide (0x51000 ≤ off) && decide (off < 0x52000) then
    { s with dev := d.bufWrite .pf (off - 0x51000) (wordPut (d.bufRead .pf (off - 0x51000)) k bs) }
  else
    match d.barReg f off with
    | none => s
    | some o =>
      if (regAt o).isNone then s
      else s.regWrite req o (wordPut (if clearsOnOne o then 0 else d.reg o) k bs)

/-- A write of bytes of a function's BAR (R427). -/
def State.barStore (s : State) (req : Requester) (f off : Nat) (bs : List Byte) : State :=
  if !s.dev.barOn f then s
  else
    (parts 8 6 off bs.length).foldl
      (fun s p => s.barPut req f (p.1 / 8 * 8) (p.1 % 8) ((bs.drop (p.1 - off)).take p.2)) s

/-! ### Configuration space (R407, R408) -/

/-- What an ECAM offset names: a function of the engine, a port, a device below a port, or nothing. -/
inductive CfgTo
  | func (f : Nat)
  | port (pt : Nat)
  | below (pt : Nat)
  | none
  deriving DecidableEq, Repr

/-- What an ECAM offset names (R407, R408, R425). -/
def Dev.cfgTo (d : Dev) (o : Nat) : CfgTo :=
  let bus := o / 2 ^ 20 % 256
  let dev := o / 2 ^ 15 % 32
  let fn := o / 2 ^ 12 % 8
  let v := (bus - 1) * 256 + 8 * dev + fn + 1
  if bus == 0 then
    if dev == 0 && fn == 0 then .func 0
    else if 1 ≤ dev && dev ≤ 20 && fn < 4 then .port (4 * (dev - 1) + fn)
    else .none
  else if decide (bus ≤ 8) && decide (v < 2048) && (d.func v).exposed then .func v
  else
    match d.busPort bus with
    | some pt => .below pt
    | none => .none

/-- A doubleword of configuration space of this socket's own functions. -/
def Dev.cfgDword (d : Dev) (o : Nat) : BitVec 32 :=
  match d.cfgTo o with
  | .func f => d.fnCfgRead f (o / 4 % 1024)
  | .port pt => d.portCfgRead pt (o / 4 % 1024)
  | _ => BitVec.allOnes 32

/-- Bytes of configuration space. -/
def Dev.cfgBytes (d : Dev) (o n : Nat) : List Byte :=
  (List.range n).map fun i => BitVec.ofNat 8 ((d.cfgDword ((o + i) / 4 * 4)).toNat / 256 ^ ((o + i) % 4))

/-- A write of bytes within a doubleword of configuration space. -/
def State.cfgPut (s : State) (o : Nat) (bs : List Byte) : State :=
  let k := o / 4 % 1024
  let v := BitVec.ofNat 32 (leNat bs * 256 ^ (o % 4))
  let mask := BitVec.ofNat 32 ((2 ^ (8 * bs.length) - 1) * 256 ^ (o % 4))
  match s.dev.cfgTo o with
  | .func f => { s with dev := s.dev.fnCfgWrite f k mask v }
  | .port pt => s.portCfgWrite pt k mask v
  | _ => s

/-- A write of configuration space: one request a doubleword, lower address first (R408). -/
def State.cfgStore (s : State) (o : Nat) (bs : List Byte) : State :=
  (parts 4 10 o bs.length).foldl (fun s p => s.cfgPut p.1 ((bs.drop (p.1 - o)).take p.2)) s

/-! ### Loads and stores of a strand -/

/-- What a Device load meets: bytes at once; all ones, counted by a contained port or a link that is down; a port that must
be asked; a bus error with its record; nothing that claims the address. -/
inductive DevGot
  | bytes (bs : List Byte) (s : State)
  | ask (pt : Nat)
  | busError (record : Nat) (s : State)
  | unclaimed
  deriving DecidableEq, Repr

/-- All ones. -/
def onesBytes (n : Nat) : List Byte := List.replicate n 0xFF

/-- An access to a contained port's window (R419): it is counted, and lost or a bus error. -/
def Dev.lostAt (d : Dev) (pt : Nat) : Dev := d.addSat (kpReg R.KPORT_COUNT_LOST pt) 1

/-- A load of n bytes from a window or the ECAM by strand g (R408, R411, R416, R419); of another socket's, a free value. -/
def State.windowLoad (s : State) (pa n : Nat) (c : Claim) : DevGot :=
  let d := s.dev
  match c with
  | .ecam =>
    match d.cfgTo (pa % 2 ^ 28) with
    | .below pt => if (d.port pt).linkUp then .ask pt else .bytes (onesBytes n) s
    | _ => .bytes (d.cfgBytes (pa % 2 ^ 28) n) s
  | .window sk =>
    if sk != d.self then
      let f := d.drawLine
      .bytes (takeBytes f.1 0 n) { s with dev := f.2 }
    else
      match d.ledgerAt pa with
      | some (f, off) => .bytes (d.barBytes f off n) s
      | none =>
        match d.windowPort pa with
        | none => .unclaimed
        | some pt =>
          if d.contained pt then
            let s' := { s with dev := d.lostAt pt }
            if d.flag (kpReg R.KPORT_CTL_BUSERR_EN pt) then .busError (d.port pt).record s' else .bytes (onesBytes n) s'
          else .ask pt
  | _ => .unclaimed

/-- The bus error of a store to a contained port that has `BUSERR_EN` set (R419), and the store that nothing claims
(R33): checked before the store retires. -/
def State.windowStoreCheck (s : State) (pa : Nat) (c : Claim) : Option (Option Nat) :=
  let d := s.dev
  match c with
  | .window sk =>
    if sk != d.self || (d.ledgerAt pa).isSome then none
    else
      match d.windowPort pa with
      | none => some none
      | some pt =>
        if d.contained pt && d.flag (kpReg R.KPORT_CTL_BUSERR_EN pt) then some (some (d.port pt).record) else none
  | _ => none

/-- A Device store leaves the store buffer (R112, R116): its target accepts it. A store below a port waits at the port
while its link is down; what another socket or a device receives leaves the model. -/
def State.windowStore (s : State) (req : Requester) (pa : Nat) (bs : List Byte) (c : Claim) : State :=
  let d := s.dev
  match c with
  | .ecam => s.cfgStore (pa % 2 ^ 28) bs
  | .window sk =>
    if sk != d.self then s
    else
      match d.ledgerAt pa with
      | some (f, off) => s.barStore req f off bs
      | none =>
        match d.windowPort pa with
        | none => s
        | some pt =>
          let x := d.port pt
          if d.contained pt then { s with dev := d.lostAt pt }
          else if x.linkUp then s
          else { s with dev := d.setPort pt { x with posted := x.posted ++ [(pa, bs)] } }
  | _ => s

end Sys2Proof.Machine
end

