-- ==== Sys2Proof/Machine/Access.lean ====
section
/-!
DEFINITION. What every memory instruction shares: the parts of an access and their translation (R107, R110), the
exceptions of an access in the order of R64, what a load reads (R108, R109, R152), how a store enters the store buffer
(R143), and how its entries leave it (R143, R265 to R279).
-/

namespace Sys2Proof.Machine

open Sys2Proof

/-! ### The parts of an access (R110) -/

/-- An access that crosses a 64-byte line is split into two halves (R110). -/
def halves (va : Word) (n : Nat) : List (Word × Nat) :=
  let o := va.toNat % 64
  if o + n ≤ 64 then [(va, n)] else [(va, 64 - o), (va + word (64 - o), n - (64 - o))]

/-- What the translation of a part gives. -/
inductive Half
  | ok (a : Access)
  | bad (e : Exc)
  deriving DecidableEq, Repr

/-- A part of an access: its address, its size and its translation. -/
structure Part where
  va : Word
  n : Nat
  got : Half
  deriving DecidableEq, Repr

/-- A part that translates. -/
structure Piece where
  va : Word
  n : Nat
  a : Access
  deriving DecidableEq, Repr

/-- Translates parts in order, with the device that the walks leave. -/
def tryParts (g : Nat) (x : Strand) (k : AccKind) : List (Word × Nat) → Dev → List Part × Dev
  | [], d => ([], d)
  | p :: ps, d =>
    match d.xlate g x p.1 k with
    | .ok a d =>
      let r := tryParts g x k ps d
      (⟨p.1, p.2, .ok a⟩ :: r.1, r.2)
    | .exc e d =>
      let r := tryParts g x k ps d
      (⟨p.1, p.2, .bad e⟩ :: r.1, r.2)

/-- The parts that translate. -/
def pieces (ps : List Part) : List Piece :=
  ps.filterMap fun p => match p.got with
    | .ok a => some ⟨p.va, p.n, a⟩
    | .bad _ => none

/-- What an instruction asks of memory types beyond R110: a load or store; an atomic (R119); a gathered element (R104);
PSTNT (R123); a hint or maintenance of a line (R121, R122, R126). -/
inductive TypeRule
  | plain
  | atomic
  | gather
  | pstnt
  | line
  deriving DecidableEq, Repr

/-- Misaligned by the memory type (R14, R110): a Device access not aligned to its size, and a register access that is not
eight aligned bytes. -/
def badAlign (va : Word) (n : Nat) (a : Access) (rule : TypeRule) : Bool :=
  rule == .plain &&
    ((inRegSpace a.pa && (n != 8 || va.toNat % 8 != 0)) || (a.mt == 3 && va.toNat % n != 0))

/-- The KIND 6 fault of a part (R104, R110, R119, R123, R170). -/
def typeFault (d : Dev) (x : Strand) (k : AccKind) (p : Piece) (n : Nat) (rule : TypeRule) : Option Exc :=
  let a := p.a
  let own : TFault := ⟨a.lvl, a.stage, 0, 6, some a.ipa⟩
  let space := regSpaceFault (x.pl != 2 && bitOf x.tcfg 3) a
  let fault (t : TFault) : Option Exc := some (faultExc k p.va t)
  if inRegSpace a.pa && a.mt != 3 && rule != .line then fault space
  else
    match rule with
    | .line => none
    | .plain => if a.mt == 3 && n == 32 then fault own else none
    | .gather => if a.mt == 3 then fault own else none
    | .atomic =>
      if a.mt == 3 then fault own
      else match d.claim a.pa with
        | .window _ | .ecam => fault own
        | _ => none
    | .pstnt => if a.mt != 0 then fault own else none

/-- The first fault of a list of checks. -/
def firstExc (l : List (Option Exc)) : Option Exc := (l.filterMap id).head?

/-- The translation or type fault of a part. -/
def partFault (d : Dev) (x : Strand) (k : AccKind) (n : Nat) (rule : TypeRule) (p : Part) : Option Exc :=
  match p.got with
  | .bad e => some e
  | .ok a => typeFault d x k ⟨p.va, p.n, a⟩ n rule

/-- What the checks of an access that precede its data find, in the order of R64: misaligned; a translation or type fault,
the first half first; a sealed-domain violation. -/
def accessFault (d : Dev) (x : Strand) (va : Word) (n : Nat) (k : AccKind) (rule : TypeRule) (ps : List Part) :
    Option Exc :=
  let qs := pieces ps
  if qs.any fun p => badAlign va n p.a rule then some { code := 4, faddr := some va }
  else
    (firstExc (ps.map (partFault d x k n rule))).or
      (firstExc (qs.map fun p => d.guard x p.va p.a k))

/-- Checks an access of strand g: its pieces, or the exception; with the device that the walks leave. -/
def State.access (s : State) (g : Nat) (va : Word) (n : Nat) (k : AccKind) (rule : TypeRule) :
    (Option Exc × List Piece) × Dev :=
  let x := s.strand g
  let r := tryParts g x k (halves va n) s.dev
  ((accessFault r.2 x va n k rule r.1, pieces r.1), r.2)

/-- A bus error at an address that nothing claims (R33). -/
def Dev.busError (d : Dev) (g : Nat) (va : Word) (pa : Nat) : Flow :=
  let r := d.unclaimed pa (d.globalId g)
  .exc { code := 9, faddr := some va, syn := .idx r.2 } r.1

/-- The data error of a line whose poison strand g consumes (R347). -/
def Dev.dataError (d : Dev) (g : Nat) (va : Word) (line src : Nat) : Flow :=
  let r := d.consumed (d.phys (g / 2)) (d.globalId g) line
  .exc { code := 8, faddr := some va, syn := .err src r.2 } r.1

/-! ### The store buffer (R143, R152) -/

/-- Whether an entry overlaps n bytes at a physical address. -/
def SbEntry.overlaps (e : SbEntry) (pa n : Nat) : Bool := decide (e.pa < pa + n) && decide (pa < e.pa + e.bytes.length)

/-- Whether an entry holds every byte of a range. -/
def SbEntry.holds (e : SbEntry) (pa n : Nat) : Bool := decide (e.pa ≤ pa) && decide (pa + n ≤ e.pa + e.bytes.length)

/-- An entry that a load may take its bytes from: a store to Normal memory. -/
def SbEntry.forwards (e : SbEntry) : Bool :=
  match e.kind with
  | .normal _ => true
  | _ => false

/-- A Device store. -/
def SbEntry.isDevice (e : SbEntry) : Bool := e.kind == .device

/-- What a load finds in its own strand's store buffer (R152). -/
inductive SbLook
  | none
  | forward (bs : List Byte)
  | wait
  deriving DecidableEq, Repr

/-- Compares a range with the older stores of its strand: the youngest that overlaps decides. -/
def sbLook (sb : List SbEntry) (pa n : Nat) : SbLook :=
  match sb.reverse.find? fun e => e.overlaps pa n with
  | .none => .none
  | some e => if e.forwards && e.holds pa n then .forward ((e.bytes.drop (pa - e.pa)).take n) else .wait

/-- The sequence number up to which a PSYNC in flight covers earlier writes (R125). -/
def Strand.psyncAt (x : Strand) : Option Nat :=
  (x.longOps.filterMap fun o => match o.kind with
    | .psync n _ => some n
    | _ => Option.none).head?

/-- Whether a PSYNC of the strand is in flight (R125). -/
def Strand.psyncing (x : Strand) : Bool := x.psyncAt.isSome

/-- The entries that a strand's store buffer may hold (R141, R143). -/
def State.sbRoom (s : State) (g : Nat) : Nat :=
  if (s.dev.pm (g / 2)).active then 16
  else if (s.strand (2 * (g / 2))).parked || (s.strand (2 * (g / 2) + 1)).parked then 128 else 64

/-- Whether a strand's store buffer takes n more entries. -/
def State.sbTakes (s : State) (g n : Nat) : Bool := decide ((s.strand g).sb.length + n ≤ s.sbRoom g)

/-- An entry enters strand g's store buffer. -/
def State.sbPush (s : State) (g : Nat) (kind : SbKind) (pa key : Nat) (bs : List Byte) (rel : Bool) : State :=
  let x := s.strand g
  s.setStrand g { x with
    sb := x.sb ++ [⟨pa, bs, key, kind, x.seq, false, false, rel⟩]
    seq := x.seq + 1 }

/-! ### Reading Normal memory (R107, R112, R115) -/

/-- A line as core c reads it for an access of a memory type (R112): NC and WC accesses bypass every cache. -/
def Dev.readLine (d : Dev) (c g key mt : Nat) (words : List Nat) : Got :=
  if mt == 0 then
    let q := (d.checkLine c g words).coreRead c g key
    { q with dev := q.dev.demand c g key false }
  else if d.homedHere g then d.homeRead g key
  else
    let f := d.drawLine
    ⟨f.1, false, 3, f.2⟩

/-- The words of a line that a range touches. -/
def wordsOf (pa n : Nat) : List Nat := (List.range 8).filter fun i => decide (8 * i < pa % 64 + n) && decide (pa % 64 < 8 * i + 8)

/-- What a load's pieces bring: the bytes; the first piece that must wait; the first poisoned one. -/
structure Read where
  bytes : List Byte
  wait : Bool
  forwarded : Bool
  poison : Option (Word × Nat × Nat)
  dev : Dev
  deriving DecidableEq, Repr

/-- Reads a piece in Normal memory, or from the strand's own store buffer (R152). -/
def Read.piece (c : Nat) (sb : List SbEntry) (r : Read) (p : Piece) : Read :=
  match sbLook sb p.a.pa p.n with
  | .wait => { r with wait := true }
  | .forward bs => { r with
      bytes := r.bytes ++ bs
      forwarded := true }
  | .none =>
    let q := r.dev.readLine c (p.a.pa / 64) p.a.key p.a.mt (wordsOf p.a.pa p.n)
    { r with
      bytes := r.bytes ++ takeBytes q.line (p.a.pa % 64) p.n
      poison := r.poison.or (if q.poison then some (p.va, p.a.pa / 64, q.src) else none)
      dev := q.dev }

/-- The value of a load at its destination (R108). -/
def loadValue (n : Nat) (signed : Bool) (bs : List Byte) : VWord :=
  if n == 32 then BitVec.ofNat 256 (leNat bs) else portValue 0 n signed (word (leNat bs))

/-- A load of a Device address, or of one that nothing Normal claims (R110, R112, R116): it waits behind the strand's
Device stores and a PSYNC in flight. -/
def State.deviceLoad (s : State) (g : Nat) (va : Word) (n : Nat) (signed : Bool) (dst : RegRef) (p : Piece) : Flow :=
  let x := s.strand g
  let c := s.dev.claim p.a.pa
  let done (bs : List Byte) (s : State) : Flow :=
    .ok (s.setStrand g ((s.strand g).setRef dst (loadValue n signed bs)))
  if (x.sb.any fun e => e.isDevice || e.overlaps p.a.pa n) || x.psyncing then .hold s
  else
    match c with
    | .regs sk off =>
      if sk == s.dev.self then
        let r := s.regRead (.strand g) off
        done (leBytes 8 r.1.toNat) r.2
      else
        let w := s.dev.drawWord
        done (leBytes 8 w.1.toNat) { s with dev := w.2 }
    | c =>
      match s.windowLoad p.a.pa n c with
      | .bytes bs s => done bs s
      | .ask pt =>
        let d := s.dev
        let y := d.port pt
        let d := d.setPort pt { y with out := y.out ++ [⟨g, p.a.pa, n⟩] }
        .go ({ s with dev := d }.setStrand g { x with portLoad := some ⟨pt, dst, va, n, signed⟩ })
      | .busError r s => .exc { code := 9, faddr := some va, syn := .idx r } s.dev
      | .unclaimed => s.dev.busError g va p.a.pa

/-- A claim of a unit that is no memory. -/
def Claim.unit : Claim → Bool
  | .window _ | .ecam | .regs _ _ => true
  | _ => false

/-- The pieces in Normal memory are read; then, in the order of R64, poison and an address that nothing claims. -/
def State.memoryLoad (s : State) (g n : Nat) (signed : Bool) (dst : RegRef) (ps : List Piece) : Flow :=
  let x := s.strand g
  let mem := ps.filter fun p => (s.dev.claim p.a.pa).normal
  let r := mem.foldl (Read.piece (s.dev.phys (g / 2)) x.sb) ⟨[], false, false, none, s.dev⟩
  if r.wait then .hold (s.count g 0x20)
  else
    match r.poison, ps.find? fun p => !(s.dev.claim p.a.pa).normal with
    | some (a, line, src), _ => r.dev.dataError g a line src
    | none, some p => r.dev.busError g p.va p.a.pa
    | none, none =>
      let s := { s with dev := r.dev }
      let s := if r.forwarded then s.count g 0x21 else s
      let s := if 2 ≤ ps.length then s.count g 0x22 else s
      .ok (s.setStrand g ((s.strand g).setRef dst (loadValue n signed r.bytes)))

/-- The data phase of a load whose checks have passed: one of memory typed Device keeps its order too (R112). -/
def State.loadData (s : State) (g : Nat) (va : Word) (n : Nat) (signed : Bool) (dst : RegRef) (ps : List Piece) : Flow :=
  let x := s.strand g
  match ps.find? fun p => (s.dev.claim p.a.pa).unit with
  | some p => s.deviceLoad g va n signed dst p
  | none =>
    if (ps.any fun p => p.a.mt == 3) && ((x.sb.any SbEntry.isDevice) || x.psyncing) then .hold s
    else s.memoryLoad g n signed dst ps

/-- A load of n bytes (R107 to R110). -/
def State.load (s : State) (g : Nat) (va : Word) (n : Nat) (signed : Bool) (dst : RegRef) : Flow :=
  let r := s.access g va n .load .plain
  match r.1.1 with
  | some e => .exc e r.2
  | none => { s with dev := r.2 }.loadData g va n signed dst r.1.2

/-! ### Stores (R108 to R110, R143) -/

/-- What a store's piece meets before it retires (R33, R419): nothing, or a bus error. -/
def State.storeFault (s : State) (g : Nat) (p : Piece) : Option Flow :=
  match s.dev.claim p.a.pa with
  | .none => some (s.dev.busError g p.va p.a.pa)
  | c =>
    match s.windowStoreCheck p.a.pa c with
    | none => none
    | some none => some (s.dev.busError g p.va p.a.pa)
    | some (some r) => some (.exc { code := 9, faddr := some p.va, syn := .idx r } (s.dev.lostAt ((s.dev.windowPort p.a.pa).getD 0)))

/-- The kind of entry that a store's piece takes (R112). -/
def Dev.storeKind (d : Dev) (a : Access) : SbKind :=
  if a.mt == 3 || !(d.claim a.pa).normal then .device else .normal (a.mt == 0)

/-- The pieces of a store enter the store buffer. -/
def State.sbPieces (s : State) (g : Nat) (bs : List Byte) (rel : Bool) : List Piece → State
  | [] => s
  | p :: ps => (s.sbPush g (s.dev.storeKind p.a) p.a.pa p.a.key (bs.take p.n) rel).sbPieces g (bs.drop p.n) rel ps

/-- A store of bytes whose pieces have passed their checks: it retires into the store buffer, or waits for room. -/
def State.storeData (s : State) (g : Nat) (bs : List Byte) (rel : Bool) (ps : List Piece) : Flow :=
  match (ps.filterMap fun p => s.storeFault g p).head? with
  | some f => f
  | none =>
    if !s.sbTakes g ps.length then .hold s
    else
      let s := if 2 ≤ ps.length then s.count g 0x22 else s
      .ok (s.sbPieces g bs rel ps)

/-- A store of bytes (R107 to R110). -/
def State.store (s : State) (g : Nat) (va : Word) (bs : List Byte) (rel : Bool) : Flow :=
  let r := s.access g va bs.length .store .plain
  match r.1.1 with
  | some e => .exc e r.2
  | none => { s with dev := r.2 }.storeData g bs rel r.1.2

/-! ### Entries leave (R143, R265, R267, R279) -/

/-- The oldest entry leaves strand g's store buffer. -/
def State.sbPop (s : State) (g : Nat) : State :=
  let x := s.strand g
  s.setStrand g { x with sb := x.sb.tail }

/-- The oldest entry is changed in place. -/
def State.sbHead (s : State) (g : Nat) (f : SbEntry → SbEntry) : State :=
  let x := s.strand g
  match x.sb with
  | [] => s
  | e :: es => s.setStrand g { x with sb := f e :: es }

/-- The oldest entry waits for a tracker entry or a credit: counted once (R274, R289). -/
def State.sbWait (s : State) (g : Nat) (e : SbEntry) : State :=
  if e.held then s
  else
    let d := s.dev.addSat (tileAt R.PHELD_COUNT (s.dev.phys (g / 2)) 0x800) 1
    { s with dev := d }.sbHead g fun e => { e with held := true }

/-- A line that core c holds in E or M takes bytes (R143, R216): it is in M, and a poisoned one is good again once every
byte of it has been written there (R348). -/
def Dev.writeLine (d : Dev) (c pa : Nat) (bs : List Byte) : Dev :=
  let g := pa / 64
  let d := d.checkLine c g (wordsOf pa bs.length)
  let l := d.line c g
  let m := (if l.st == .modified then l.stored else 0) ||| byteMask (pa % 64) bs.length
  let d := d.arrayWrite 3 c (64 * g) none (wordsOf pa bs.length)
  let d := d.setLine c g { l with
    st := .modified
    data := putBytes l.data (pa % 64) bs
    stored := m
    poison := l.poison && m != fullMask }
  d.markL1 c g false

/-- Whether core c's L2 holds a line in E or M. -/
def Dev.ownsLine (d : Dev) (c g : Nat) : Bool :=
  (d.line c g).st == .modified || (d.line c g).st == .exclusive

/-- Core c asks for a line it means to write (R230). -/
def Dev.askToOwn (d : Dev) (c g key : Nat) : Dev :=
  d.requestLine c g key (if (d.line c g).st == .invalid then .rdx false else .upg)

/-- Whether a direct write may go to a Peat line's stack (R272): core c has a credit; none is needed of another socket's
stack, nor in the drain (R295). -/
def Dev.mayDirect (d : Dev) (c g : Nat) : Bool :=
  !d.homedHere g || d.phase == .drain || d.creditLeft c (stackOf g) != 0

/-- Draws the credit of a direct write. -/
def Dev.payDirect (d : Dev) (c g : Nat) : Dev :=
  if d.homedHere g && d.phase != .drain then d.drawCredit c (stackOf g) else d

/-- Bytes go to a Peat line's intake around the caches, urgent (R265, R276, R280), tagged by strand and sequence; one stack of another
socket takes them outside the model. -/
def Dev.directWrite (d : Dev) (pa key : Nat) (bs : List Byte) (tag : Nat × Nat) : Dev :=
  let g := pa / 64
  let k := d.slot key
  if !d.homedHere g then d
  else if k.cls == 0 then
    d.log { source := 0x0F, cls := 2, action := 0, address := 64 * g, inst := key }
  else
    let d := { d with keyOf := SMap.set (fun _ => 1) d.keyOf g k.key }
    (d.toIntake ⟨g, putBytes 0 (pa % 64) bs, byteMask (pa % 64) bs.length, false, key, true, none, none, []⟩).tagDirect
      g tag

/-- Bytes are written to memory around the caches (R112): read, merged, written. -/
def Dev.bypassWrite (d : Dev) (pa key : Nat) (bs : List Byte) : Dev :=
  let g := pa / 64
  if !d.homedHere g then d
  else
    let q := d.homeRead g key
    q.dev.homeWrite g key (putBytes q.line (pa % 64) bs) (q.poison && decide (bs.length < 64)) false none

/-- Whether a direct write of a strand is not yet accepted. -/
def Dev.directOpen (d : Dev) (tag : Nat × Nat) : Bool := d.directPw.any fun w => w.strand == tag.1 && w.seq == tag.2

/-- A Peat store around the caches: sent once, then it leaves when the intake accepts it (R143, R276). -/
def State.leaveDirect (s : State) (g : Nat) (e : SbEntry) (send : Dev → Dev) : State :=
  let c := s.dev.phys (g / 2)
  if e.sent then (if s.dev.directOpen (g, e.seq) then s else s.sbPop g)
  else if !s.dev.mayDirect c (e.pa / 64) then s.sbWait g e
  else
    let s := { s with dev := send (s.dev.payDirect c (e.pa / 64)) }
    if s.dev.directOpen (g, e.seq) then s.sbHead g fun e => { e with sent := true } else s.sbPop g

/-- A cacheable store leaves into its core's line, once it owns it (R143); a Peat line needs its place in the tracker
(R267). With the L2 disabled it is performed at the home (R204). -/
def State.leaveWb (s : State) (g : Nat) (e : SbEntry) : State :=
  let d := s.dev
  let c := d.phys (g / 2)
  let line := e.pa / 64
  if !d.l2On c then
    if isPeat line && d.homedHere line then
      s.leaveDirect g e fun d => (d.homeStore line (e.pa % 64) e.bytes e.key false none).tagDirect line (g, e.seq)
    else if d.homedHere line then { s with dev := d.homeStore line (e.pa % 64) e.bytes e.key false none }.sbPop g
    else s.sbPop g
  else if d.ownsLine c line then
    if isPeat line then
      match d.trackStore c (g % 2) line with
      | none => s.sbWait g e
      | some d => { s with dev := d.writeLine c e.pa e.bytes }.sbPop g
    else { s with dev := d.writeLine c e.pa e.bytes }.sbPop g
  else { s with dev := d.askToOwn c line e.key }

/-- A store that bypasses the caches leaves (R112, R143). -/
def State.leaveBypass (s : State) (g : Nat) (e : SbEntry) : State :=
  if isPeat (e.pa / 64) then s.leaveDirect g e fun d => d.directWrite e.pa e.key e.bytes (g, e.seq)
  else { s with dev := s.dev.bypassWrite e.pa e.key e.bytes }.sbPop g

/-- A Device store leaves: the register block, the port or the memory that owns its address accepts it (R112, R116). -/
def State.leaveDevice (s : State) (g : Nat) (e : SbEntry) : State :=
  match s.dev.claim e.pa with
  | .dram _ | .peat _ => s.leaveBypass g e
  | .regs sk off =>
    let t := s.sbPop g
    if sk == s.dev.self then t.regWrite (.strand g) off (word (leNat e.bytes)) else t
  | .none => s.sbPop g
  | c => (s.sbPop g).windowStore (.strand g) e.pa e.bytes c

/-- A STASH leaves (R121, R235): the core's own copy goes with the request; it waits while the core has a request for the
line under way. -/
def State.leaveStash (s : State) (g : Nat) (e : SbEntry) (target : BitVec 16) : State :=
  let d := s.dev
  let c := d.phys (g / 2)
  let line := e.pa / 64
  if (d.mshr c line).isSome || (d.ghost c line).isSome then s
  else
    let d := d.checkLine c line allWords
    let l := d.line c line
    let dirty := l.st == LineState.modified
    let d := d.dropLine c line
    let d := if dirty then d.trackSent c line else d
    let d := d.requestLine c line e.key (.stash target (if dirty then fullMask else 0) (if dirty then l.data else 0))
    { s with dev := d }.sbPop g

/-- A PSTNT to Peat leaves once its intake has accepted it (R143, R279). -/
def State.leavePstnt (s : State) (g : Nat) (e : SbEntry) : State :=
  if e.sent && !s.dev.directOpen (g, e.seq) then s.sbPop g else s

/-- Whether a PSYNC in flight holds an entry back (R125). -/
def Strand.heldBack (x : Strand) (e : SbEntry) : Bool :=
  match x.psyncAt with
  | some n => decide (n ≤ e.seq)
  | none => false

/-- STORE_BUFFER_ENTRY_LEAVE (R143): the oldest entry of strand g leaves, or stays while its line, its tracker place, its
intake or a PSYNC holds it. -/
def execStoreBufferEntryLeave (g : Nat) (s : State) : Host.Outcome State Fault Refusal :=
  if !strandOk g then .fault .noSuchUnit
  else if !s.dev.clocksOk then .fault .outsideClockRelations
  else
    let x := s.strand g
    match x.sb with
    | [] => .next s
    | e :: _ =>
      if x.heldBack e then .next s
      else
        match e.kind with
        | .normal true => .next (s.leaveWb g e)
        | .normal false => .next (s.leaveBypass g e)
        | .device => .next (s.leaveDevice g e)
        | .stash t => .next (s.leaveStash g e t)
        | .pstnt => .next (s.leavePstnt g e)

end Sys2Proof.Machine
end

