-- ==== Sys2Proof/Machine/Atomics.lean ====
section
/-!
DEFINITION. LDA and STA (R117) and the atomics (R118 to R120).
-/

namespace Sys2Proof.Machine

open Sys2Proof

/-- The size in bytes of a Z field (R113). -/
def zBytes (z : BitVec 2) : Nat := 2 ^ z.toNat

/-- Whether the O and F fields hold 0, as they must outside the atomics (R113, R114). -/
def memPlain (e : MemEnc) : Bool := e.o == 0 && e.f == 0

/-- LDA (R115, R117): an acquire load; it is performed after the strand's earlier releases. -/
def execLda (g : Nat) (z : BitVec 2) (e : MemEnc) (s : State) : Host.Outcome State Fault Refusal :=
  runInsn g s (fun _ => { legal := memPlain e && e.b == 0, regs := [.n e.d, .n e.a] }) fun s =>
    let x := s.strand g
    if x.sb.any fun b => b.rel then .hold s else s.load g (x.getN e.a) (zBytes z) false (.n e.d)

/-- STA (R115, R117): a release store, after every earlier store. -/
def execSta (g : Nat) (z : BitVec 2) (e : MemEnc) (s : State) : Host.Outcome State Fault Refusal :=
  runInsn g s (fun _ => { legal := memPlain e && e.d == 0, regs := [.n e.a, .n e.b] }) fun s =>
    let x := s.strand g
    match s.store g (x.getN e.a) (leBytes (zBytes z) (x.getN e.b).toNat) true with
    | .ok t => if x.sb.isEmpty then .ok t else .hold s
    | f => f

/-! ### Atomics (R118 to R120) -/

/-- The parts of an atomic on an address: its operation, size, operand and expected value. -/
structure AtomicAt where
  op : AtomicOp
  n : Nat
  operand : Word
  expected : Word
  deriving DecidableEq, Repr

/-- The value that an atomic writes, of the value it finds (R118). -/
def AtomicAt.new (t : AtomicAt) (old : Nat) : Option Nat := atomicNew t.op t.n old t.operand t.expected

/-- A near atomic on a line that core c owns in E or M (R120): a Peat line needs its place in the tracker when the atomic
writes (R267). -/
def State.atomicNear (s : State) (g : Nat) (t : AtomicAt) (d : Reg) (p : Piece) : Flow :=
  let c := s.dev.phys (g / 2)
  let line := p.a.pa / 64
  let dv := s.dev.checkLine c line (wordsOf p.a.pa t.n)
  let l := dv.line c line
  if l.poison then dv.dataError g p.va line 1
  else
    let old := leNat (takeBytes l.data (p.a.pa % 64) t.n)
    match t.new old with
    | none => .ok ({ s with dev := dv }.setN g d (word old))
    | some x =>
      let tracked := if isPeat line then dv.trackStore c (g % 2) line else some dv
      match tracked with
      | none => .hold s
      | some dv => .ok ({ s with dev := dv.writeLine c p.a.pa (leBytes t.n x) }.setN g d (word old))

/-- A far atomic, a long operation (R89, R120): the home performs it. On a Peat line it draws a credit, and completes when
the intake has accepted the line; in another socket its value is a free one. -/
def State.atomicFar (s : State) (g : Nat) (t : AtomicAt) (d : Reg) (p : Piece) : Flow :=
  let c := s.dev.phys (g / 2)
  let pa := p.a.pa
  let line := pa / 64
  let x := s.strand g
  if !s.dev.homedHere line then
    let w := s.dev.drawWord
    .ok ({ s with dev := w.2 }.long g (.n d) ((word (w.1.toNat % 2 ^ (8 * t.n))).setWidth 256) .value)
  else if isPeat line && !s.dev.mayDirect c line then .hold s
  else
    let r := s.dev.homeRmw pa t.n p.a.key t.new none
    if r.poison then r.dev.dataError g p.va line r.src
    else
      let value := (word r.old).setWidth 256
      if isPeat line && (t.new r.old).isSome then
        let dv := (r.dev.payDirect c line).tagDirect line (g, x.seq)
        let s := { s with dev := dv }.setStrand g { x with seq := x.seq + 1 }
        .ok (s.long g (.n d) value (.far line x.seq))
      else .ok ({ s with dev := r.dev }.long g (.n d) value .value)

/-- Whether an atomic is performed far (R120, R204): asked for, to NC or WC memory, or with the L2 disabled. -/
def State.isFar (s : State) (g : Nat) (f : BitVec 1) (p : Piece) : Bool :=
  f == 1 || p.a.mt != 0 || !s.dev.l2On (s.dev.phys (g / 2))

/-- The data phase of an atomic whose checks have passed: it waits for the strand's earlier stores and a PSYNC in flight,
and, near, for its line. -/
def State.atomicData (s : State) (g : Nat) (f : BitVec 1) (t : AtomicAt) (d : Reg) (p : Piece) : Flow :=
  let c := s.dev.phys (g / 2)
  let line := p.a.pa / 64
  let x := s.strand g
  if s.dev.claim p.a.pa == .none then s.dev.busError g p.va p.a.pa
  else if !x.sb.isEmpty || x.psyncing then .hold s
  else if s.isFar g f p then s.atomicFar g t d p
  else if s.dev.ownsLine c line then s.atomicNear g t d p
  else .hold { s with dev := s.dev.askToOwn c line p.a.key }

/-- An atomic (R118, R119): its alignment is checked first, then its rights and type. -/
def State.atomic (s : State) (g : Nat) (op : AtomicOp) (n : Nat) (e : MemEnc) : Flow :=
  let x := s.strand g
  let va := x.getN e.a
  if va.toNat % n != 0 then .exc { code := 4, faddr := some va } s.dev
  else
    let r := s.access g va n .atomic .atomic
    match r.1.1, r.1.2 with
    | some f, _ => .exc f r.2
    | none, p :: _ =>
      { s with dev := r.2 }.atomicData g e.f ⟨op, n, x.getN e.b, x.getN e.d⟩ e.d p
    | none, [] => .hold s

/-- The shared form of the atomics: Z is 2 or 3 (R118). -/
def runAtomic (g : Nat) (op : AtomicOp) (z : BitVec 2) (e : MemEnc) (s : State) : Host.Outcome State Fault Refusal :=
  runInsn g s (fun _ => { legal := z == 2 || z == 3, regs := [.n e.d, .n e.a, .n e.b] }) fun s =>
    s.atomic g op (zBytes z) e

/-- AADD (R118). -/
def execAadd (g : Nat) (z : BitVec 2) (e : MemEnc) (s : State) : Host.Outcome State Fault Refusal :=
  runAtomic g .add z e s

/-- ASWAP (R118). -/
def execAswap (g : Nat) (z : BitVec 2) (e : MemEnc) (s : State) : Host.Outcome State Fault Refusal :=
  runAtomic g .swap z e s

/-- ACAS (R118): d holds the expected value. -/
def execAcas (g : Nat) (z : BitVec 2) (e : MemEnc) (s : State) : Host.Outcome State Fault Refusal :=
  runAtomic g .cas z e s

/-- AAND (R118). -/
def execAand (g : Nat) (z : BitVec 2) (e : MemEnc) (s : State) : Host.Outcome State Fault Refusal :=
  runAtomic g .and z e s

/-- AOR (R118). -/
def execAor (g : Nat) (z : BitVec 2) (e : MemEnc) (s : State) : Host.Outcome State Fault Refusal :=
  runAtomic g .or z e s

/-- AMIN (R118). -/
def execAmin (g : Nat) (z : BitVec 2) (e : MemEnc) (s : State) : Host.Outcome State Fault Refusal :=
  runAtomic g .min z e s

/-- AMAX (R118). -/
def execAmax (g : Nat) (z : BitVec 2) (e : MemEnc) (s : State) : Host.Outcome State Fault Refusal :=
  runAtomic g .max z e s

/-- AMINU (R118). -/
def execAminu (g : Nat) (z : BitVec 2) (e : MemEnc) (s : State) : Host.Outcome State Fault Refusal :=
  runAtomic g .minu z e s

/-- AMAXU (R118). -/
def execAmaxu (g : Nat) (z : BitVec 2) (e : MemEnc) (s : State) : Host.Outcome State Fault Refusal :=
  runAtomic g .maxu z e s

end Sys2Proof.Machine
end

