-- ==== Sys2Proof/Machine/Branch.lean ====
section
/-!
DEFINITION. Branches, jumps and calls (R94 to R97), with their delay slots (R72), the events they count
(R160) and what they leave in the branch target buffer and the return-address stack (R148, R149).
-/

namespace Sys2Proof.Machine

open Sys2Proof

/-- A transfer at PC of strand g (R72): `execSlot` when its slot executes, else the slot is annulled and
counts as retired (R160). The link register is written at once, and again undone if the slot raises (R74). -/
def State.transfer (s : State) (g : Nat) (execSlot taken : Bool) (target : Word) (link : Option Reg)
    (ras : List Word) : State :=
  let s := s.count g 1
  let x := s.strand g
  let next := if taken then target else x.pc + 8
  let old := link.map fun r => (r, x.getN r)
  let y := match link with
    | none => x
    | some r => x.setN r (x.pc + 8)
  if execSlot then
    s.setStrand g { y.step 1 with pc := x.pc + 4, slot := some ⟨x.pc, next, old, taken, x.ras⟩, ras := ras }
  else
    let s := (s.setStrand g { y.step 2 with pc := next, ras := ras }).count g 1
    if taken then s.btbLearn g x.pc target else s

/-- A push on the return-address stack of 32 entries; whether it overwrites the oldest (R149). -/
def rasPush (ras : List Word) (a : Word) : List Word × Bool := ((a :: ras).take 32, decide (32 ≤ ras.length))

/-- The Full pipeline is in effect (R60, R137). -/
def State.fullMode (s : State) (g : Nat) : Bool := !(s.dev.pm (g / 2)).active

/-- Counts a taken direct transfer that the BTB does not supply in Full mode (R160). -/
def State.countDirect (s : State) (g : Nat) (target : Word) (usesBtb : Bool) : State :=
  if s.fullMode g && !(usesBtb && s.btbLook g (s.strand g).pc == some target) then s.count g 0x12 else s

/-- A conditional branch (R72, R94, R95): A annuls the slot of a branch not taken; H is only a hint (R97). -/
def condBranch (g : Nat) (A H : Bool) (rs : List RegRef) (disp : Int) (cond : Strand → Bool) (s : State) :
    Host.Outcome State Fault Refusal :=
  runInsn g s (fun _ => { transfer := true, regs := rs }) fun s =>
    let x := s.strand g
    let taken := cond x
    let target := x.pc + BitVec.ofInt 64 (disp * 4)
    let s := if taken != H then s.count g 0x10 else s
    let s := if taken then s.countDirect g target H else s
    .go (s.transfer g (!A || taken) taken target none x.ras)

/-- An unconditional direct transfer (R72, R95): A annuls its slot. -/
def directJump (g : Nat) (A : Bool) (disp : BitVec 25) (link : Option Reg) (s : State) :
    Host.Outcome State Fault Refusal :=
  runInsn g s (fun _ => { transfer := true, regs := (link.map RegRef.n).toList }) fun s =>
    let x := s.strand g
    let target := x.pc + BitVec.ofInt 64 (disp.toInt * 4)
    let s := s.countDirect g target true
    let p := if link.isSome then rasPush x.ras (x.pc + 8) else (x.ras, false)
    let s := if p.2 then s.count g 0x13 else s
    .go (s.transfer g (!A) true target link p.1)

/-- A register jump (R72, R95): the fields that must be 0, the target read before the link is written (R96). A
call pushes and a return pops the return-address stack (R149). -/
def regJump (g : Nat) (A : Bool) (legal : Bool) (a : Reg) (link : Option Reg) (ret : Bool) (s : State) :
    Host.Outcome State Fault Refusal :=
  runInsn g s (fun _ => { legal := legal, transfer := true, regs := .n a :: (link.map RegRef.n).toList })
    fun s =>
      let x := s.strand g
      let target := align4 (x.getN a)
      let seen := match s.btbLook g x.pc with
        | some t => some t
        | none => if ret then x.ras.head? else none
      let s := if seen == some target then s else s.count g 0x11
      let p := if link.isSome then rasPush x.ras (x.pc + 8)
        else (if ret then x.ras.tail else x.ras, false)
      let s := if p.2 then s.count g 0x13 else s
      .go (s.transfer g (!A) true target link p.1)

/-- BEQ (R94, R95). -/
def execBeq (g : Nat) (A H : Bool) (a : Reg) (disp : BitVec 16) (s : State) : Host.Outcome State Fault Refusal :=
  condBranch g A H [.n a] disp.toInt (fun x => condEq (x.getN a)) s

/-- BNE (R94, R95). -/
def execBne (g : Nat) (A H : Bool) (a : Reg) (disp : BitVec 16) (s : State) : Host.Outcome State Fault Refusal :=
  condBranch g A H [.n a] disp.toInt (fun x => condNe (x.getN a)) s

/-- BLT (R94, R95). -/
def execBlt (g : Nat) (A H : Bool) (a : Reg) (disp : BitVec 16) (s : State) : Host.Outcome State Fault Refusal :=
  condBranch g A H [.n a] disp.toInt (fun x => condLt (x.getN a)) s

/-- BGE (R94, R95). -/
def execBge (g : Nat) (A H : Bool) (a : Reg) (disp : BitVec 16) (s : State) : Host.Outcome State Fault Refusal :=
  condBranch g A H [.n a] disp.toInt (fun x => condGe (x.getN a)) s

/-- BLE (R94, R95). -/
def execBle (g : Nat) (A H : Bool) (a : Reg) (disp : BitVec 16) (s : State) : Host.Outcome State Fault Refusal :=
  condBranch g A H [.n a] disp.toInt (fun x => condLe (x.getN a)) s

/-- BGT (R94, R95). -/
def execBgt (g : Nat) (A H : Bool) (a : Reg) (disp : BitVec 16) (s : State) : Host.Outcome State Fault Refusal :=
  condBranch g A H [.n a] disp.toInt (fun x => condGt (x.getN a)) s

/-- BCEQ (R94, R95). -/
def execBceq (g : Nat) (A H : Bool) (a b : Reg) (disp : BitVec 11) (s : State) : Host.Outcome State Fault Refusal :=
  condBranch g A H [.n a, .n b] disp.toInt (fun x => x.getN a == x.getN b) s

/-- BCNE (R94, R95). -/
def execBcne (g : Nat) (A H : Bool) (a b : Reg) (disp : BitVec 11) (s : State) : Host.Outcome State Fault Refusal :=
  condBranch g A H [.n a, .n b] disp.toInt (fun x => x.getN a != x.getN b) s

/-- BCLT (R94, R95). -/
def execBclt (g : Nat) (A H : Bool) (a b : Reg) (disp : BitVec 11) (s : State) : Host.Outcome State Fault Refusal :=
  condBranch g A H [.n a, .n b] disp.toInt (fun x => ltS (x.getN a) (x.getN b)) s

/-- BCGE (R94, R95). -/
def execBcge (g : Nat) (A H : Bool) (a b : Reg) (disp : BitVec 11) (s : State) : Host.Outcome State Fault Refusal :=
  condBranch g A H [.n a, .n b] disp.toInt (fun x => !ltS (x.getN a) (x.getN b)) s

/-- BCLTU (R94, R95). -/
def execBcltu (g : Nat) (A H : Bool) (a b : Reg) (disp : BitVec 11) (s : State) : Host.Outcome State Fault Refusal :=
  condBranch g A H [.n a, .n b] disp.toInt (fun x => ltU (x.getN a) (x.getN b)) s

/-- BCGEU (R94, R95). -/
def execBcgeu (g : Nat) (A H : Bool) (a b : Reg) (disp : BitVec 11) (s : State) : Host.Outcome State Fault Refusal :=
  condBranch g A H [.n a, .n b] disp.toInt (fun x => !ltU (x.getN a) (x.getN b)) s

/-- J (R95). -/
def execJ (g : Nat) (A : Bool) (disp : BitVec 25) (s : State) : Host.Outcome State Fault Refusal :=
  directJump g A disp none s

/-- CALL (R48, R95): n31 receives the address of the branch + 8. -/
def execCall (g : Nat) (A : Bool) (disp : BitVec 25) (s : State) : Host.Outcome State Fault Refusal :=
  directJump g A disp (some 31) s

/-- JR (R95): d and b must be 0. -/
def execJr (g : Nat) (A : Bool) (z : BitVec 8) (d a b : Reg) (s : State) : Host.Outcome State Fault Refusal :=
  regJump g A (z == 0 && d == 0 && b == 0) a none false s

/-- CALLR (R95, R96): d receives the address of the branch + 8; b must be 0. -/
def execCallr (g : Nat) (A : Bool) (z : BitVec 8) (d a b : Reg) (s : State) : Host.Outcome State Fault Refusal :=
  regJump g A (z == 0 && b == 0) a (some d) false s

/-- RET (R95): d and b must be 0. -/
def execRet (g : Nat) (A : Bool) (z : BitVec 8) (d a b : Reg) (s : State) : Host.Outcome State Fault Refusal :=
  regJump g A (z == 0 && d == 0 && b == 0) a none true s

end Sys2Proof.Machine
end

