-- ==== Sys2Proof/Machine/Float.lean ====
section
/-!
DEFINITION. Scalar floating point (R98 to R100): IEEE 754 binary64 computed exactly and rounded once to nearest,
ties to even. A finite value is a sign, a magnitude and a power of two.
-/

namespace Sys2Proof.Machine

open Sys2Proof

/-- A decoded value. -/
inductive FVal
  | nan
  | inf (s : Bool)
  | fin (s : Bool) (m : Nat) (e : Int)
  deriving DecidableEq, Repr

/-- A binary format: its precision with the hidden bit, the width of its exponent field. -/
structure FFmt where
  p : Nat
  w : Nat
  deriving DecidableEq, Repr

/-- binary64 and binary32. -/
def fmtD : FFmt := ⟨53, 11⟩
def fmtS : FFmt := ⟨24, 8⟩

/-- The exponent of the last bit of a subnormal. -/
def FFmt.emin (f : FFmt) : Int := 3 - (f.p : Int) - 2 ^ (f.w - 1)

/-- The magnitude bits of infinity. -/
def FFmt.infBits (f : FFmt) : Nat := (2 ^ f.w - 1) * 2 ^ (f.p - 1)

/-- The position of the sign bit. -/
def FFmt.signPos (f : FFmt) : Nat := f.p + f.w - 1

/-- Decodes a value of a format. -/
def FFmt.decode (f : FFmt) (bits : Nat) : FVal :=
  let s := natBit bits f.signPos
  let mag := bits % 2 ^ f.signPos
  if f.infBits < mag then .nan
  else if mag == f.infBits then .inf s
  else
    let ex := mag / 2 ^ (f.p - 1)
    let fr := mag % 2 ^ (f.p - 1)
    if ex == 0 then .fin s fr f.emin else .fin s (fr + 2 ^ (f.p - 1)) (f.emin + (ex : Int) - 1)

/-- The bits of a sign and a magnitude. -/
def FFmt.signed (f : FFmt) (s : Bool) (mag : Nat) : Nat := bnat s * 2 ^ f.signPos + mag

/-- The canonical quiet NaN (R98, R100). -/
def FFmt.canonNan (f : FFmt) : Nat := f.infBits + 2 ^ (f.p - 2)

/-- The magnitude bits of m × 2^e, plus a little when `sticky`, rounded to nearest, ties to even; overflow gives
infinity (R98). -/
def FFmt.roundMag (f : FFmt) (m : Nat) (e : Int) (sticky : Bool) : Nat :=
  if m == 0 then 0
  else
    let e' := max f.emin (e + (Nat.log2 m : Int) + 1 - f.p)
    let sh := (e' - e).toNat
    let q0 := if e' ≤ e then m * 2 ^ (e - e').toNat else m / 2 ^ sh
    let r := if e' ≤ e then 0 else m % 2 ^ sh
    let half := 2 ^ (sh - 1)
    let up := !decide (e' ≤ e) && (decide (half < r) || (r == half && (sticky || q0 % 2 == 1)))
    let q := if up then q0 + 1 else q0
    let bits :=
      if q < 2 ^ (f.p - 1) then q
      else (e' - f.emin + 1).toNat * 2 ^ (f.p - 1) + (q - 2 ^ (f.p - 1))
    Nat.min bits f.infBits

/-- The bits of a rounded value of a format. -/
def FFmt.encode (f : FFmt) (v : FVal) (sticky : Bool) : Nat :=
  match v with
  | .nan => f.canonNan
  | .inf s => f.signed s f.infBits
  | .fin s m e => f.signed s (f.roundMag m e sticky)

/-- A binary64 result. -/
def encD (v : FVal) : Word := word (fmtD.encode v false)

/-- A binary64 operand. -/
def decD (w : Word) : FVal := fmtD.decode w.toNat

/-- The exact sum of two finite values; a sum of zero is +0 unless both are −0 (R98). -/
def finAdd (s : Bool) (m : Nat) (e : Int) (s' : Bool) (m' : Nat) (e' : Int) : FVal :=
  let lo := min e e'
  let x : Int := m * 2 ^ (e - lo).toNat
  let y : Int := m' * 2 ^ (e' - lo).toNat
  let z := (if s then -x else x) + (if s' then -y else y)
  if z == 0 then .fin (s && s') 0 lo else .fin (decide (z < 0)) z.natAbs lo

/-- a + b. -/
def FVal.add (a b : FVal) : FVal :=
  match a, b with
  | .nan, _ | _, .nan => .nan
  | .inf s, .inf t => if s == t then .inf s else .nan
  | .inf s, _ | _, .inf s => .inf s
  | .fin s m e, .fin t n k => finAdd s m e t n k

/-- −a. -/
def FVal.neg (a : FVal) : FVal :=
  match a with
  | .nan => .nan
  | .inf s => .inf (!s)
  | .fin s m e => .fin (!s) m e

/-- The exact product a × b: infinity × 0 is NaN (R98). -/
def FVal.mul (a b : FVal) : FVal :=
  match a, b with
  | .nan, _ | _, .nan => .nan
  | .inf s, .inf t => .inf (s != t)
  | .inf s, .fin t m _ | .fin t m _, .inf s => if m == 0 then .nan else .inf (s != t)
  | .fin s m e, .fin t n k => .fin (s != t) (m * n) (e + k)

/-- a ÷ b, with 120 more bits than the quotient needs, and whether a remainder is left (R98). -/
def FVal.div (a b : FVal) : FVal × Bool :=
  match a, b with
  | .nan, _ | _, .nan => (.nan, false)
  | .inf _, .inf _ => (.nan, false)
  | .inf s, .fin t _ _ => (.inf (s != t), false)
  | .fin s _ _, .inf t => (.fin (s != t) 0 0, false)
  | .fin s m e, .fin t n k =>
    if n == 0 then (if m == 0 then .nan else .inf (s != t), false)
    else (.fin (s != t) (m * 2 ^ 120 / n) (e - k - 120), m * 2 ^ 120 % n != 0)

/-- The integer square root, bit by bit from bit b − 1 down. -/
def isqrt (n : Nat) : Nat → Nat → Nat
  | 0, r => r
  | b + 1, r => isqrt n b (if (r + 2 ^ b) * (r + 2 ^ b) ≤ n then r + 2 ^ b else r)

/-- √a: the root of a negative number is NaN, that of −0 is −0 (R98). -/
def FVal.sqrt (a : FVal) : FVal × Bool :=
  match a with
  | .nan => (.nan, false)
  | .inf s => (if s then .nan else .inf false, false)
  | .fin s m e =>
    if m == 0 then (.fin s 0 e, false)
    else if s then (.nan, false)
    else
      let odd := decide (e % 2 ≠ 0)
      let n := m * 2 ^ (if odd then 121 else 120)
      let r := isqrt n 90 0
      (.fin false r ((if odd then e - 1 else e) / 2 - 60), r * r != n)

/-- The order of binary64 values that are no NaN: −0 below +0 when `zeros` (R98). -/
def orderKey (zeros : Bool) (w : Word) : Int :=
  let mag : Nat := w.toNat % 2 ^ 63
  if bitOf w 63 then -(mag : Int) - (if zeros then 1 else 0) else mag

/-- Whether a binary64 value is a NaN. -/
def isNan (w : Word) : Bool := decD w == .nan

/-- FMIN and FMAX: `less` picks the first when it is below the second (R98). -/
def fPick (wantLess : Bool) (a b : Word) : Word :=
  if isNan a && isNan b then word fmtD.canonNan
  else if isNan a then b
  else if isNan b then a
  else if decide (orderKey true a < orderKey true b) == wantLess then a else b

/-- A comparison: 0 when either is a NaN; the zeros compare equal (R98). -/
def fCmp (p : Int → Int → Bool) (a b : Word) : Word :=
  boolWord (!isNan a && !isNan b && p (orderKey false a) (orderKey false b))

/-- The integer that a value truncates to, within bounds (R100). -/
def truncTo (lo hi : Int) (w : Word) : Int :=
  match decD w with
  | .nan => 0
  | .inf s => if s then lo else hi
  | .fin s m e =>
    let t : Nat := if 0 ≤ e then m * 2 ^ e.toNat else m / 2 ^ (-e).toNat
    max lo (min hi (if s then -(t : Int) else t))

/-- FADD (R98, R99). -/
def execFadd (g : Nat) (d a b : Reg) (s : State) : Host.Outcome State Fault Refusal :=
  execFFF g s d a b false fun _ x y => encD ((decD x).add (decD y))

/-- FSUB (R98, R99). -/
def execFsub (g : Nat) (d a b : Reg) (s : State) : Host.Outcome State Fault Refusal :=
  execFFF g s d a b false fun _ x y => encD ((decD x).add (decD y).neg)

/-- FMUL (R98, R99). -/
def execFmul (g : Nat) (d a b : Reg) (s : State) : Host.Outcome State Fault Refusal :=
  execFFF g s d a b false fun _ x y => encD ((decD x).mul (decD y))

/-- FDIV (R98, R99): a long operation. -/
def execFdiv (g : Nat) (d a b : Reg) (s : State) : Host.Outcome State Fault Refusal :=
  execVVVLong g s d a b true fun x y =>
    let q := (decD (x.setWidth 64)).div (decD (y.setWidth 64))
    BitVec.ofNat 256 (fmtD.encode q.1 q.2)

/-- FSQRT (R98, R99): a long operation; b must be 0. -/
def execFsqrt (g : Nat) (d a b : Reg) (s : State) : Host.Outcome State Fault Refusal :=
  execVVVLong g s d a 0 (b == 0) fun x _ =>
    let q := (decD (x.setWidth 64)).sqrt
    BitVec.ofNat 256 (fmtD.encode q.1 q.2)

/-- FMA (R98, R99): one rounding. -/
def execFma (g : Nat) (d a b : Reg) (s : State) : Host.Outcome State Fault Refusal :=
  execFFF g s d a b false fun z x y => encD (((decD x).mul (decD y)).add (decD z))

/-- FMIN (R98, R99). -/
def execFmin (g : Nat) (d a b : Reg) (s : State) : Host.Outcome State Fault Refusal :=
  execFFF g s d a b false fun _ x y => fPick true x y

/-- FMAX (R98, R99). -/
def execFmax (g : Nat) (d a b : Reg) (s : State) : Host.Outcome State Fault Refusal :=
  execFFF g s d a b false fun _ x y => fPick false x y

/-- FABS (R98, R99): b must be 0. -/
def execFabs (g : Nat) (d a b : Reg) (s : State) : Host.Outcome State Fault Refusal :=
  execFFF g s d a b true fun _ x _ => putF x 63 1 0

/-- FNEG (R98, R99): b must be 0. -/
def execFneg (g : Nat) (d a b : Reg) (s : State) : Host.Outcome State Fault Refusal :=
  execFFF g s d a b true fun _ x _ => x ^^^ word (2 ^ 63)

/-- FEQ (R98, R99). -/
def execFeq (g : Nat) (d a b : Reg) (s : State) : Host.Outcome State Fault Refusal :=
  execNVV g s d a b true fun x y =>
    fCmp (fun x y => decide (x = y)) (x.setWidth 64) (y.setWidth 64)

/-- FLT (R98, R99). -/
def execFlt (g : Nat) (d a b : Reg) (s : State) : Host.Outcome State Fault Refusal :=
  execNVV g s d a b true fun x y =>
    fCmp (fun x y => decide (x < y)) (x.setWidth 64) (y.setWidth 64)

/-- FLE (R98, R99). -/
def execFle (g : Nat) (d a b : Reg) (s : State) : Host.Outcome State Fault Refusal :=
  execNVV g s d a b true fun x y =>
    fCmp (fun x y => decide (x ≤ y)) (x.setWidth 64) (y.setWidth 64)

/-- FCVT.L.D (R100): b must be 0. -/
def execFcvtLD (g : Nat) (d a b : Reg) (s : State) : Host.Outcome State Fault Refusal :=
  execNV g s d a (b == 0) fun x => BitVec.ofInt 64 (truncTo (-2 ^ 63) (2 ^ 63 - 1) (x.setWidth 64))

/-- FCVT.LU.D (R100): b must be 0. -/
def execFcvtLuD (g : Nat) (d a b : Reg) (s : State) : Host.Outcome State Fault Refusal :=
  execNV g s d a (b == 0) fun x => BitVec.ofInt 64 (truncTo 0 (2 ^ 64 - 1) (x.setWidth 64))

/-- FCVT.D.L (R100): b must be 0. -/
def execFcvtDL (g : Nat) (d a b : Reg) (s : State) : Host.Outcome State Fault Refusal :=
  execVN g s d a (b == 0) fun _ x =>
    (encD (.fin (decide (x.toInt < 0)) x.toInt.natAbs 0)).setWidth 256

/-- FCVT.D.LU (R100): b must be 0. -/
def execFcvtDLu (g : Nat) (d a b : Reg) (s : State) : Host.Outcome State Fault Refusal :=
  execVN g s d a (b == 0) fun _ x => (encD (.fin false x.toNat 0)).setWidth 256

/-- FCVT.S.D (R100): b must be 0. -/
def execFcvtSD (g : Nat) (d a b : Reg) (s : State) : Host.Outcome State Fault Refusal :=
  execVVV g s d a 0 (b == 0) fun _ x _ =>
    BitVec.ofNat 256 (fmtS.encode (decD (x.setWidth 64)) false)

/-- FCVT.D.S (R100): b must be 0. -/
def execFcvtDS (g : Nat) (d a b : Reg) (s : State) : Host.Outcome State Fault Refusal :=
  execVVV g s d a 0 (b == 0) fun _ x _ =>
    (encD (fmtS.decode (x.toNat % 2 ^ 32))).setWidth 256

/-- FMV.N (R99): b must be 0. -/
def execFmvN (g : Nat) (d a b : Reg) (s : State) : Host.Outcome State Fault Refusal :=
  execNV g s d a (b == 0) fun x => x.setWidth 64

/-- FMV.V (R99): b must be 0. -/
def execFmvV (g : Nat) (d a b : Reg) (s : State) : Host.Outcome State Fault Refusal :=
  execVN g s d a (b == 0) fun _ x => x.setWidth 256

end Sys2Proof.Machine
end

