-- ==== Sys2Proof/Machine/Integer.lean ====
section
/-!
DEFINITION. The integer register and immediate operations, multiply and divide (R90 to R93).
-/

namespace Sys2Proof.Machine

open Sys2Proof

/-- A shift count b[5:0] (R90). -/
def shiftCount (b : Word) : Nat := b.toNat % 64

/-- a rotated right by n < 64 (R90). -/
def rotR (a : Word) (n : Nat) : Word := word (a.toNat / 2 ^ n + a.toNat % 2 ^ n * 2 ^ (64 - n))

/-- a rotated left by n ≤ 64 (R106). -/
def rotL (a : Word) (n : Nat) : Word := rotR a ((64 - n) % 64)

/-- a shifted right with sign fill (R90). -/
def sarN (a : Word) (n : Nat) : Word := BitVec.ofInt 64 (a.toInt / 2 ^ n)

/-- The low n bits of a, sign-extended (R84). -/
def sxN (n : Nat) (a : Word) : Word := BitVec.ofInt 64 (Int.bmod (a.toNat % 2 ^ n) (2 ^ n))

/-- A signed 16-bit immediate (R84). -/
def sx16 (i : BitVec 16) : Word := BitVec.ofInt 64 i.toInt

/-- An unsigned 16-bit immediate (R84). -/
def zx16 (i : BitVec 16) : Word := word i.toNat

/-- The number of leading zeros among the low n bits (R90). -/
def clzN : Nat → Nat → Nat
  | 0, _ => 0
  | n + 1, x => if natBit x n then 0 else 1 + clzN n x

/-- The number of trailing zeros among n bits (R90). -/
def ctzN : Nat → Nat → Nat
  | 0, _ => 0
  | n + 1, x => if x % 2 == 1 then 0 else 1 + ctzN n (x / 2)

/-- The number of 1 bits among the low n bits (R90). -/
def popN : Nat → Nat → Nat
  | 0, _ => 0
  | n + 1, x => x % 2 + popN n (x / 2)

/-- The bytes of a in reverse order (R90). -/
def bswap (a : Word) : Word := word (leNat (leBytes 8 a.toNat).reverse)

/-- The signed quotient, rounded toward zero, with the cases of R93. -/
def divS (a b : Word) : Word :=
  if b == 0 then BitVec.allOnes 64 else BitVec.ofInt 64 (Int.tdiv a.toInt b.toInt)

/-- The signed remainder (R92, R93). -/
def remS (a b : Word) : Word :=
  if b == 0 then a else BitVec.ofInt 64 (Int.tmod a.toInt b.toInt)

/-- The unsigned quotient (R92, R93). -/
def divU (a b : Word) : Word := if b == 0 then BitVec.allOnes 64 else word (a.toNat / b.toNat)

/-- The unsigned remainder (R92, R93). -/
def remU (a b : Word) : Word := if b == 0 then a else word (a.toNat % b.toNat)

/-- Halfword k of d replaced (R91). -/
def hins (d : Word) (k : Nat) (imm : BitVec 16) : Word := putF d (16 * k) 16 imm.toNat

/-- ADD (R90). -/
def execAdd (g : Nat) (d a b : Reg) (s : State) : Host.Outcome State Fault Refusal :=
  execNNN g s d a b false fun a b => a + b

/-- SUB (R90). -/
def execSub (g : Nat) (d a b : Reg) (s : State) : Host.Outcome State Fault Refusal :=
  execNNN g s d a b false fun a b => a - b

/-- AND (R90). -/
def execAnd (g : Nat) (d a b : Reg) (s : State) : Host.Outcome State Fault Refusal :=
  execNNN g s d a b false fun a b => a &&& b

/-- OR (R90). -/
def execOr (g : Nat) (d a b : Reg) (s : State) : Host.Outcome State Fault Refusal :=
  execNNN g s d a b false fun a b => a ||| b

/-- XOR (R90). -/
def execXor (g : Nat) (d a b : Reg) (s : State) : Host.Outcome State Fault Refusal :=
  execNNN g s d a b false fun a b => a ^^^ b

/-- ANDN (R90). -/
def execAndn (g : Nat) (d a b : Reg) (s : State) : Host.Outcome State Fault Refusal :=
  execNNN g s d a b false fun a b => a &&& ~~~ b

/-- SHL (R90). -/
def execShl (g : Nat) (d a b : Reg) (s : State) : Host.Outcome State Fault Refusal :=
  execNNN g s d a b false fun a b => word (a.toNat * 2 ^ shiftCount b)

/-- SHR (R90). -/
def execShr (g : Nat) (d a b : Reg) (s : State) : Host.Outcome State Fault Refusal :=
  execNNN g s d a b false fun a b => word (a.toNat / 2 ^ shiftCount b)

/-- SAR (R90). -/
def execSar (g : Nat) (d a b : Reg) (s : State) : Host.Outcome State Fault Refusal :=
  execNNN g s d a b false fun a b => sarN a (shiftCount b)

/-- ROR (R90). -/
def execRor (g : Nat) (d a b : Reg) (s : State) : Host.Outcome State Fault Refusal :=
  execNNN g s d a b false fun a b => rotR a (shiftCount b)

/-- SLT (R90). -/
def execSlt (g : Nat) (d a b : Reg) (s : State) : Host.Outcome State Fault Refusal :=
  execNNN g s d a b false fun a b => boolWord (ltS a b)

/-- SLTU (R90). -/
def execSltu (g : Nat) (d a b : Reg) (s : State) : Host.Outcome State Fault Refusal :=
  execNNN g s d a b false fun a b => boolWord (ltU a b)

/-- SEQ (R90). -/
def execSeq (g : Nat) (d a b : Reg) (s : State) : Host.Outcome State Fault Refusal :=
  execNNN g s d a b false fun a b => boolWord (a == b)

/-- MIN (R90). -/
def execMin (g : Nat) (d a b : Reg) (s : State) : Host.Outcome State Fault Refusal :=
  execNNN g s d a b false fun a b => if ltS a b then a else b

/-- MAX (R90). -/
def execMax (g : Nat) (d a b : Reg) (s : State) : Host.Outcome State Fault Refusal :=
  execNNN g s d a b false fun a b => if ltS a b then b else a

/-- MINU (R90). -/
def execMinu (g : Nat) (d a b : Reg) (s : State) : Host.Outcome State Fault Refusal :=
  execNNN g s d a b false fun a b => if ltU a b then a else b

/-- MAXU (R90). -/
def execMaxu (g : Nat) (d a b : Reg) (s : State) : Host.Outcome State Fault Refusal :=
  execNNN g s d a b false fun a b => if ltU a b then b else a

/-- CLZ (R90). -/
def execClz (g : Nat) (d a b : Reg) (s : State) : Host.Outcome State Fault Refusal :=
  execNNN g s d a b true fun a _ => word (clzN 64 a.toNat)

/-- CTZ (R90). -/
def execCtz (g : Nat) (d a b : Reg) (s : State) : Host.Outcome State Fault Refusal :=
  execNNN g s d a b true fun a _ => word (ctzN 64 a.toNat)

/-- POPC (R90). -/
def execPopc (g : Nat) (d a b : Reg) (s : State) : Host.Outcome State Fault Refusal :=
  execNNN g s d a b true fun a _ => word (popN 64 a.toNat)

/-- BSWAP (R90). -/
def execBswap (g : Nat) (d a b : Reg) (s : State) : Host.Outcome State Fault Refusal :=
  execNNN g s d a b true fun a _ => Sys2Proof.Machine.bswap a

/-- ADDW (R90). -/
def execAddw (g : Nat) (d a b : Reg) (s : State) : Host.Outcome State Fault Refusal :=
  execNNN g s d a b false fun a b => sxN 32 (a + b)

/-- SUBW (R90). -/
def execSubw (g : Nat) (d a b : Reg) (s : State) : Host.Outcome State Fault Refusal :=
  execNNN g s d a b false fun a b => sxN 32 (a - b)

/-- SEXTB (R90). -/
def execSextb (g : Nat) (d a b : Reg) (s : State) : Host.Outcome State Fault Refusal :=
  execNNN g s d a b true fun a _ => sxN 8 a

/-- SEXTH (R90). -/
def execSexth (g : Nat) (d a b : Reg) (s : State) : Host.Outcome State Fault Refusal :=
  execNNN g s d a b true fun a _ => sxN 16 a

/-- SEXTW (R90). -/
def execSextw (g : Nat) (d a b : Reg) (s : State) : Host.Outcome State Fault Refusal :=
  execNNN g s d a b true fun a _ => sxN 32 a

/-- ZEXTW (R90). -/
def execZextw (g : Nat) (d a b : Reg) (s : State) : Host.Outcome State Fault Refusal :=
  execNNN g s d a b true fun a _ => word (a.toNat % 2 ^ 32)

/-- ADDI (R91). -/
def execAddi (g : Nat) (d a : Reg) (imm : BitVec 16) (s : State) : Host.Outcome State Fault Refusal :=
  execNNI g s d a true fun a => a + sx16 imm

/-- ANDI (R91). -/
def execAndi (g : Nat) (d a : Reg) (imm : BitVec 16) (s : State) : Host.Outcome State Fault Refusal :=
  execNNI g s d a true fun a => a &&& zx16 imm

/-- ORI (R91). -/
def execOri (g : Nat) (d a : Reg) (imm : BitVec 16) (s : State) : Host.Outcome State Fault Refusal :=
  execNNI g s d a true fun a => a ||| zx16 imm

/-- XORI (R91). -/
def execXori (g : Nat) (d a : Reg) (imm : BitVec 16) (s : State) : Host.Outcome State Fault Refusal :=
  execNNI g s d a true fun a => a ^^^ zx16 imm

/-- SLTI (R91). -/
def execSlti (g : Nat) (d a : Reg) (imm : BitVec 16) (s : State) : Host.Outcome State Fault Refusal :=
  execNNI g s d a true fun a => boolWord (ltS a (sx16 imm))

/-- SLTIU (R91). -/
def execSltiu (g : Nat) (d a : Reg) (imm : BitVec 16) (s : State) : Host.Outcome State Fault Refusal :=
  execNNI g s d a true fun a => boolWord (ltU a (zx16 imm))

/-- SHLI (R91): imm16[15:8] must be 0. -/
def execShli (g : Nat) (d a : Reg) (hi : BitVec 8) (sh : BitVec 6) (s : State) : Host.Outcome State Fault Refusal :=
  execNNI g s d a (hi == 0) fun a => word (a.toNat * 2 ^ sh.toNat)

/-- SHRI (R91): imm16[15:8] must be 0. -/
def execShri (g : Nat) (d a : Reg) (hi : BitVec 8) (sh : BitVec 6) (s : State) : Host.Outcome State Fault Refusal :=
  execNNI g s d a (hi == 0) fun a => word (a.toNat / 2 ^ sh.toNat)

/-- SARI (R91): imm16[15:8] must be 0. -/
def execSari (g : Nat) (d a : Reg) (hi : BitVec 8) (sh : BitVec 6) (s : State) : Host.Outcome State Fault Refusal :=
  execNNI g s d a (hi == 0) fun a => sarN a sh.toNat

/-- RORI (R91): imm16[15:8] must be 0. -/
def execRori (g : Nat) (d a : Reg) (hi : BitVec 8) (sh : BitVec 6) (s : State) : Host.Outcome State Fault Refusal :=
  execNNI g s d a (hi == 0) fun a => rotR a sh.toNat

/-- LUI (R91): a must be 0. -/
def execLui (g : Nat) (d a : Reg) (imm : BitVec 16) (s : State) : Host.Outcome State Fault Refusal :=
  execNNI g s d 0 (a == 0) fun _ => word ((sx16 imm).toNat * 2 ^ 16)

/-- HINS (R91): a[1:0] is the position, and a[4:2] must be 0. -/
def execHins (g : Nat) (d a : Reg) (imm : BitVec 16) (s : State) : Host.Outcome State Fault Refusal :=
  execNNI g s d d (a.toNat < 4) fun x => hins x (a.toNat % 4) imm

/-- APC (R91): a must be 0; in a slot it uses the slot's own address. -/
def execApc (g : Nat) (d a : Reg) (imm : BitVec 16) (s : State) : Host.Outcome State Fault Refusal :=
  runInsn g s (fun _ => { legal := a == 0, regs := [.n d] }) fun s =>
    .ok (s.setN g d ((s.strand g).pc + word ((sx16 imm).toNat * 2 ^ 12)))

/-- MUL (R92). -/
def execMul (g : Nat) (d a b : Reg) (s : State) : Host.Outcome State Fault Refusal :=
  execNNN g s d a b false fun a b => a * b

/-- MULH (R92). -/
def execMulh (g : Nat) (d a b : Reg) (s : State) : Host.Outcome State Fault Refusal :=
  execNNN g s d a b false fun a b => BitVec.ofInt 64 (a.toInt * b.toInt / 2 ^ 64)

/-- MULHU (R92). -/
def execMulhu (g : Nat) (d a b : Reg) (s : State) : Host.Outcome State Fault Refusal :=
  execNNN g s d a b false fun a b => word (a.toNat * b.toNat / 2 ^ 64)

/-- MULW (R92). -/
def execMulw (g : Nat) (d a b : Reg) (s : State) : Host.Outcome State Fault Refusal :=
  execNNN g s d a b false fun a b => sxN 32 (a * b)

/-- DIV (R92, R93): a long operation. -/
def execDiv (g : Nat) (d a b : Reg) (s : State) : Host.Outcome State Fault Refusal :=
  execNNNLong g s d a b divS

/-- DIVU (R92, R93): a long operation. -/
def execDivu (g : Nat) (d a b : Reg) (s : State) : Host.Outcome State Fault Refusal :=
  execNNNLong g s d a b divU

/-- REM (R92, R93): a long operation. -/
def execRem (g : Nat) (d a b : Reg) (s : State) : Host.Outcome State Fault Refusal :=
  execNNNLong g s d a b remS

/-- REMU (R92, R93): a long operation. -/
def execRemu (g : Nat) (d a b : Reg) (s : State) : Host.Outcome State Fault Refusal :=
  execNNNLong g s d a b remU

end Sys2Proof.Machine
end

