-- ==== Sys2Proof/Machine/LoadStore.lean ====
section
/-!
DEFINITION. The loads and stores of format M (R107 to R111) and VGATHER (R104).
-/

namespace Sys2Proof.Machine

open Sys2Proof

/-- The access address of format M (R107). -/
def Strand.mAddr (x : Strand) (base : Reg) (imm : BitVec 16) : Word := x.getN base + imm.signExtend 64

/-- A load of n bytes into a general register (R108). -/
def loadN (g n : Nat) (signed : Bool) (t base : Reg) (imm : BitVec 16) (s : State) :
    Host.Outcome State Fault Refusal :=
  runInsn g s (fun _ => { regs := [.n t, .n base] }) fun s =>
    s.load g ((s.strand g).mAddr base imm) n signed (.n t)

/-- A load of n bytes into a v register (R49, R108). -/
def loadV (g n : Nat) (t base : Reg) (imm : BitVec 16) (s : State) : Host.Outcome State Fault Refusal :=
  runInsn g s (fun _ => { vec := true, regs := [.v t, .n base] }) fun s =>
    s.load g ((s.strand g).mAddr base imm) n false (.v t)

/-- A store of the low n bytes of a general register (R108). -/
def storeN (g n : Nat) (t base : Reg) (imm : BitVec 16) (s : State) : Host.Outcome State Fault Refusal :=
  runInsn g s (fun _ => { regs := [.n t, .n base] }) fun s =>
    let x := s.strand g
    s.store g (x.mAddr base imm) (leBytes n (x.getN t).toNat) false

/-- A store of the low n bytes of a v register (R108). -/
def storeV (g n : Nat) (t base : Reg) (imm : BitVec 16) (s : State) : Host.Outcome State Fault Refusal :=
  runInsn g s (fun _ => { vec := true, regs := [.v t, .n base] }) fun s =>
    let x := s.strand g
    s.store g (x.mAddr base imm) (leBytes n (x.getV t).toNat) false

/-- LB (R108). -/
def execLb (g : Nat) (t base : Reg) (imm : BitVec 16) (s : State) : Host.Outcome State Fault Refusal :=
  loadN g 1 true t base imm s

/-- LBU (R108). -/
def execLbu (g : Nat) (t base : Reg) (imm : BitVec 16) (s : State) : Host.Outcome State Fault Refusal :=
  loadN g 1 false t base imm s

/-- LH (R108). -/
def execLh (g : Nat) (t base : Reg) (imm : BitVec 16) (s : State) : Host.Outcome State Fault Refusal :=
  loadN g 2 true t base imm s

/-- LHU (R108). -/
def execLhu (g : Nat) (t base : Reg) (imm : BitVec 16) (s : State) : Host.Outcome State Fault Refusal :=
  loadN g 2 false t base imm s

/-- LW (R108). -/
def execLw (g : Nat) (t base : Reg) (imm : BitVec 16) (s : State) : Host.Outcome State Fault Refusal :=
  loadN g 4 true t base imm s

/-- LWU (R108). -/
def execLwu (g : Nat) (t base : Reg) (imm : BitVec 16) (s : State) : Host.Outcome State Fault Refusal :=
  loadN g 4 false t base imm s

/-- LD (R108). -/
def execLd (g : Nat) (t base : Reg) (imm : BitVec 16) (s : State) : Host.Outcome State Fault Refusal :=
  loadN g 8 false t base imm s

/-- LDF (R49, R108). -/
def execLdf (g : Nat) (t base : Reg) (imm : BitVec 16) (s : State) : Host.Outcome State Fault Refusal :=
  loadV g 8 t base imm s

/-- LDV (R108). -/
def execLdv (g : Nat) (t base : Reg) (imm : BitVec 16) (s : State) : Host.Outcome State Fault Refusal :=
  loadV g 32 t base imm s

/-- SB (R108). -/
def execSb (g : Nat) (t base : Reg) (imm : BitVec 16) (s : State) : Host.Outcome State Fault Refusal :=
  storeN g 1 t base imm s

/-- SH (R108). -/
def execSh (g : Nat) (t base : Reg) (imm : BitVec 16) (s : State) : Host.Outcome State Fault Refusal :=
  storeN g 2 t base imm s

/-- SW (R108). -/
def execSw (g : Nat) (t base : Reg) (imm : BitVec 16) (s : State) : Host.Outcome State Fault Refusal :=
  storeN g 4 t base imm s

/-- SD (R108). -/
def execSd (g : Nat) (t base : Reg) (imm : BitVec 16) (s : State) : Host.Outcome State Fault Refusal :=
  storeN g 8 t base imm s

/-- STF (R108). -/
def execStf (g : Nat) (t base : Reg) (imm : BitVec 16) (s : State) : Host.Outcome State Fault Refusal :=
  storeV g 8 t base imm s

/-- STV (R108). -/
def execStv (g : Nat) (t base : Reg) (imm : BitVec 16) (s : State) : Host.Outcome State Fault Refusal :=
  storeV g 32 t base imm s

/-! ### VGATHER (R104) -/

/-- The element addresses of a gather: 8 elements of 32 bits when W = 2, 4 of 64 bits when W = 3. -/
def gatherAddrs (w : BitVec 2) (a : Word) (b : VWord) : List (Word × Nat) :=
  (List.range (lanesOf w)).map fun i =>
    (BitVec.ofInt 64 ((a.toNat : Int) + laneS w b i * (laneW w / 8)), laneW w / 8)

/-- The first bus error or data error among the elements: every data error comes first (R64). -/
def State.gatherUnclaimed (s : State) (ps : List Piece) : Option Piece :=
  ps.find? fun p => s.dev.claim p.a.pa == .none

/-- The elements' data as one v register. -/
def gatherValue (bs : List Byte) : VWord := BitVec.ofNat 256 (leNat bs)

/-- Reads the elements that have passed their checks and writes d. -/
def State.gatherData (s : State) (g : Nat) (d : Reg) (ps : List Piece) : Flow :=
  let x := s.strand g
  let mem := ps.filter fun p => s.dev.claim p.a.pa != .none
  let r := mem.foldl (Read.piece (s.dev.phys (g / 2)) x.sb) ⟨[], false, false, none, s.dev⟩
  if r.wait then .hold (s.count g 0x20)
  else
    match r.poison, s.gatherUnclaimed ps with
    | some (a, line, src), _ => r.dev.dataError g a line src
    | none, some p => r.dev.busError g p.va p.a.pa
    | none, none =>
      let s := { s with dev := r.dev }
      let s := if r.forwarded then s.count g 0x21 else s
      .ok (s.setV g d (gatherValue r.bytes))

/-- VGATHER (R104): every element is checked before d is written; a misaligned one is reported first. -/
def execVgather (g : Nat) (w : BitVec 2) (d a b : Reg) (s : State) : Host.Outcome State Fault Refusal :=
  runInsn g s (fun _ => { legal := w == 2 || w == 3, vec := true, regs := [.v d, .n a, .v b] }) fun s =>
    let x := s.strand g
    let es := gatherAddrs w (x.getN a) (x.getV b)
    match es.find? fun p => p.1.toNat % p.2 != 0 with
    | some p => .exc { code := 4, faddr := some p.1 } s.dev
    | none =>
      let r := tryParts g x .load es s.dev
      match accessFault r.2 x (x.getN a) (laneW w / 8) .load .gather r.1 with
      | some e => .exc e r.2
      | none => { s with dev := r.2 }.gatherData g d (pieces r.1)

end Sys2Proof.Machine
end

