-- ==== Sys2Proof/Machine/MemSys.lean ====
section
/-!
DEFINITION. The rest of the memory-system group (R113, R114): fences and CODESYNC (R115, R127), write hints (R121),
persistence (R122 to R125, R276, R279), cache maintenance (R126, R128), translation invalidation (R129, R130, R185 to
R188) and BTBFLUSH (R131).
-/

namespace Sys2Proof.Machine

open Sys2Proof

/-- Whether a word's d, a and b fields hold 0 where its sub-operation shows "0" (R114). -/
def memZeros (e : MemEnc) (d a b : Bool) : Bool :=
  (!d || e.d == 0) && (!a || e.a == 0) && (!b || e.b == 0)

/-- The legality of a word with Z = 0 and no O or F (R113, R114). -/
def memLegal (e : MemEnc) (z : BitVec 2) (d a b : Bool) : Bool := z == 0 && memPlain e && memZeros e d a b

/-! ### Fences (R115, R117, R127) -/

/-- FENCE_LL (R115): loads are performed as they retire, so there is nothing to wait for. -/
def execFenceLl (g : Nat) (e : MemEnc) (s : State) : Host.Outcome State Fault Refusal :=
  runInsn g s (fun _ => { legal := memPlain e && memZeros e true true true }) fun s => .ok s

/-- FENCE_SS (R115): stores leave the buffer in program order (R143), so there is nothing to wait for. -/
def execFenceSs (g : Nat) (e : MemEnc) (s : State) : Host.Outcome State Fault Refusal :=
  runInsn g s (fun _ => { legal := memPlain e && memZeros e true true true }) fun s => .ok s

/-- FENCE_ALL (R115, R117): it holds issue until the store buffer is empty. -/
def execFenceAll (g : Nat) (e : MemEnc) (s : State) : Host.Outcome State Fault Refusal :=
  runInsn g s (fun _ => { legal := memPlain e && memZeros e true true true }) fun s =>
    if (s.strand g).sb.isEmpty then .ok s else .hold s

/-- CODESYNC (R127): later fetches see every earlier store of the strand. -/
def execCodesync (g : Nat) (z : BitVec 2) (e : MemEnc) (s : State) : Host.Outcome State Fault Refusal :=
  runInsn g s (fun _ => { legal := memLegal e z true true true }) fun s =>
    if (s.strand g).sb.isEmpty then .ok s else .hold s

/-! ### Write hints and cache maintenance -/

/-- The line of an access that a hint or maintenance names, in WB memory; none elsewhere. -/
def wbLine (d : Dev) (ps : List Piece) : Option Piece :=
  ps.head?.filter fun p => p.a.mt == 0 && (d.claim p.a.pa).normal

/-- STASH (R121): a hint that is dropped, and counted, when it may not be translated; else it takes a store-buffer entry. -/
def State.stash (s : State) (g : Nat) (va : Word) (target : BitVec 16) : Flow :=
  let r := s.access g va 1 .load .line
  match r.1.1 with
  | some _ =>
    .ok { s with dev := r.2.addSat (R.HINT_DROP_COUNT.at (0x10000 * (s.dev.phys (g / 2) / 2))) 1 }
  | none =>
    let s := { s with dev := r.2 }
    match wbLine s.dev r.1.2 with
    | none => .ok s
    | some p => if s.sbTakes g 1 then .ok (s.sbPush g (.stash target) p.a.pa p.a.key [] false) else .hold s

/-- STASH (R121). -/
def execStash (g : Nat) (z : BitVec 2) (e : MemEnc) (s : State) : Host.Outcome State Fault Refusal :=
  runInsn g s (fun _ => { legal := memLegal e z true false false, regs := [.n e.a, .n e.b] }) fun s =>
    let x := s.strand g
    s.stash g (x.getN e.a) ((x.getN e.b).setWidth 16)

/-- CFLUSH of a WB line (R126, R237): sent once the strand's earlier stores are performed. -/
def State.cflush (s : State) (g : Nat) (p : Piece) : Flow :=
  let c := s.dev.phys (g / 2)
  let line := p.a.pa / 64
  let x := s.strand g
  if !x.sb.isEmpty || x.psyncing || (s.dev.mshr c line).isSome || (s.dev.ghost c line).isSome then .hold s
  else .ok { s with dev := s.dev.requestLine c line p.a.key (.rdx true) }

/-- Maintenance of the line that an address names (R122, R126): nothing outside WB memory. -/
def State.lineOp (s : State) (g : Nat) (va : Word) (f : State → Piece → Flow) : Flow :=
  let r := s.access g va 1 .load .line
  match r.1.1 with
  | some e => .exc e r.2
  | none =>
    let s := { s with dev := r.2 }
    match wbLine s.dev r.1.2 with
    | none => .ok s
    | some p => f s p

/-- CFLUSH (R126). -/
def execCflush (g : Nat) (z : BitVec 2) (e : MemEnc) (s : State) : Host.Outcome State Fault Refusal :=
  runInsn g s (fun _ => { legal := memLegal e z true false true, regs := [.n e.a] }) fun s =>
    s.lineOp g ((s.strand g).getN e.a) fun s p => s.cflush g p

/-- CINV_ALL (R128), a long operation. -/
def execCinvAll (g : Nat) (z : BitVec 2) (e : MemEnc) (s : State) : Host.Outcome State Fault Refusal :=
  runInsn g s (fun x => { legal := memLegal e z false false true, allowed := x.pl == 2, regs := [.n e.d, .n e.a] }) fun s =>
    let r := s.dev.cinvAll (s.dev.phys (g / 2)) ((s.strand g).getN e.a)
    .ok ({ s with dev := r.2 }.long g (.n e.d) (r.1.setWidth 256) .value)

/-! ### Persistence (R122 to R125, R276, R279) -/

/-- A PWB of strand j's core puts the strand's bit on the line's tracker entries, whose release a PSYNC then waits for. -/
def Tracker.claimLine (t : Tracker) (j g : Nat) : Tracker :=
  let mark (e : Track) : Track :=
    if e.g == g then { e with
      s0 := e.s0 || j == 0
      s1 := e.s1 || j == 1 }
    else e
  { t with
    openB := t.openB.map mark
    closing := t.closing.map mark }

/-- PWB of a WB line (R122, R237): a line held in M is written back; another request goes to the home, and for a Peat
line a PSYNC waits for its answer. It waits behind the strand's own stores to the line and a PSYNC in flight. -/
def State.pwb (s : State) (g : Nat) (p : Piece) : Flow :=
  let d := s.dev
  let c := d.phys (g / 2)
  let line := p.a.pa / 64
  let x := s.strand g
  if x.psyncing || (x.sb.any fun e => e.overlaps (64 * line) 64) then .hold s
  else if (d.line c line).st == .modified then
    if !d.wbCredit c line then .hold s
    else
      let d := if isPeat line then d.setTracker c ((d.tracker c).claimLine (g % 2) line) else d
      .ok { s with dev := d.writeBack c line }
  else if (d.mshr c line).isSome || (d.ghost c line).isSome then .hold s
  else
    let d := d.requestLine c line p.a.key (.rds false true)
    if isPeat line then
      let d := { d with directPw := d.directPw ++ [⟨g, x.seq, line, d.frame⟩] }
      .ok ({ s with dev := d }.setStrand g { x with seq := x.seq + 1 })
    else .ok { s with dev := d }

/-- PWB (R122). -/
def execPwb (g : Nat) (z : BitVec 2) (e : MemEnc) (s : State) : Host.Outcome State Fault Refusal :=
  runInsn g s (fun _ => { legal := memLegal e z true false true, regs := [.n e.a] }) fun s =>
    s.lineOp g ((s.strand g).getN e.a) fun s p => s.pwb g p

/-- A tracker entry carries strand j's bit. -/
def Track.has (t : Track) (j : Nat) : Bool := if j == 0 then t.s0 else t.s1

/-- The cores whose trackers hold writes of a strand: the one that serves it, and the sources of transplants to that one
(R354). -/
def Dev.trackCores (d : Dev) (g : Nat) : List Nat :=
  let c := d.phys (g / 2)
  c :: (d.xplant.filter fun x => x.target == c).map fun x => x.source

/-- PSYNC sends the open entries of its strand whose line is in M (R276 item 2). -/
def Dev.psyncSend (d : Dev) (g : Nat) : Dev :=
  (d.trackCores g).foldl (fun d c =>
    ((d.tracker c).openB.filter fun e => e.has (g % 2) && e.dirty).foldl (fun d e => d.writeBack c e.g) d) d

/-- Whether every persistent write of strand g before a sequence number is durable (R276 items 1 and 3). -/
def State.psyncDone (s : State) (g upTo : Nat) : Bool :=
  let x := s.strand g
  let d := s.dev
  !(x.sb.any fun e => decide (e.seq < upTo) && isPeat (e.pa / 64) && !e.bytes.isEmpty)
    && ((d.trackCores g).all fun c =>
      !((d.tracker c).closing.any fun e => e.has (g % 2))
        && !((d.tracker c).openB.any fun e => e.has (g % 2) && (e.dirty || e.owed != 0)))
    && !(d.directPw.any fun w => w.strand == g && decide (w.seq < upTo))

/-- PSYNC (R124), a long operation: it learns of a write of its strand that failed before it (R282). -/
def execPsync (g : Nat) (z : BitVec 2) (e : MemEnc) (s : State) : Host.Outcome State Fault Refusal :=
  runInsn g s (fun _ => { legal := memLegal e z false true true, regs := [.n e.d] }) fun s =>
    if (s.strand g).psyncing then .hold s
    else
      let d := s.dev.psyncSend g
      let failed := d.failedPw.contains g
      let d := { d with failedPw := d.failedPw.filter fun y => y != g }
      .ok ({ s with dev := d }.long g (.n e.d) 0 (.psync (s.strand g).seq failed))

/-- PSTNT of bytes at an address aligned to their number (R123). -/
def State.pstnt (s : State) (g : Nat) (va : Word) (bs : List Byte) : Flow :=
  if va.toNat % bs.length != 0 then .exc { code := 4, faddr := some va } s.dev
  else
    let r := s.access g va bs.length .store .pstnt
    match r.1.1, r.1.2 with
    | some e, _ => .exc e r.2
    | none, [] => .hold s
    | none, p :: _ =>
      let s := { s with dev := r.2 }
      match s.storeFault g p with
      | some f => f
      | none =>
        if !s.sbTakes g 1 then .hold s
        else
          let kind := if isPeat (p.a.pa / 64) then .pstnt else s.dev.storeKind p.a
          .ok (s.sbPush g kind p.a.pa p.a.key bs false)

/-- PSTNT_D (R123). -/
def execPstntD (g : Nat) (e : MemEnc) (s : State) : Host.Outcome State Fault Refusal :=
  runInsn g s (fun _ => { legal := memPlain e && e.d == 0, regs := [.n e.a, .n e.b] }) fun s =>
    let x := s.strand g
    s.pstnt g (x.getN e.a) (leBytes 8 (x.getN e.b).toNat)

/-- PSTNT_V (R123). -/
def execPstntV (g : Nat) (e : MemEnc) (s : State) : Host.Outcome State Fault Refusal :=
  runInsn g s (fun _ => { legal := memPlain e && e.d == 0, vec := true, regs := [.n e.a, .v e.b] }) fun s =>
    let x := s.strand g
    s.pstnt g (x.getN e.a) (leBytes 32 (x.getV e.b).toNat)

/-- The PSTNTs at the head of the store buffer that travel in one request (R279): the first and the next one, to the same
line. -/
def combined : List SbEntry → List SbEntry
  | e :: f :: _ => if f.kind == .pstnt && f.pa / 64 == e.pa / 64 && f.key == e.key then [e, f] else [e]
  | l => l.take 1

/-- The merged line of a PSTNT request goes to its intake (R235 steps 1 and 2, R279): every cached copy is invalidated, and
a dirty one is merged under the new bytes. -/
def Dev.sendPstnt (d : Dev) (g : Nat) (es : List SbEntry) : Dev :=
  match es with
  | [] => d
  | e :: _ =>
    let line := e.pa / 64
    let put (l : Line) : Line := es.foldl (fun l x => putBytes l (x.pa % 64) x.bytes) l
    let mask := es.foldl (fun m x => m ||| byteMask (x.pa % 64) x.bytes.length) 0
    let k := d.slot e.key
    if !d.homedHere line then d
    else if k.cls == 0 then d.log { source := 0x0F, cls := 2, action := 0, address := 64 * line, inst := e.key }
    else
      let r := d.gather line e.key
      let d := { r.dev with keyOf := SMap.set (fun _ => 1) r.dev.keyOf line k.key }
      let d := if r.dirty then
          d.toIntake ⟨line, put r.line, fullMask, r.poison && mask != fullMask, e.key, true, formerAgent r.former, none, []⟩
        else d.toIntake ⟨line, put 0, mask, false, e.key, true, none, none, []⟩
      es.foldl (fun d x => d.tagDirect line (g, x.seq)) d

/-- The entries at the head of a store buffer marked as sent. -/
def markSent : Nat → List SbEntry → List SbEntry
  | 0, es => es
  | _, [] => []
  | n + 1, e :: es => { e with sent := true } :: markSent n es

/-- PSTNT_SEND (R279): the PSTNT at the head of strand g's store buffer is sent, with a credit (R272), once no transaction
holds its line. -/
def execPstntSend (g : Nat) (s : State) : Host.Outcome State Fault Refusal :=
  if !strandOk g then .fault .noSuchUnit
  else if !s.dev.clocksOk then .fault .outsideClockRelations
  else
    let x := s.strand g
    let c := s.dev.phys (g / 2)
    match x.sb with
    | [] => .next s
    | e :: _ =>
      if e.kind != .pstnt || e.sent || x.heldBack e || s.dev.lineBusy (e.pa / 64) then .next s
      else if !s.dev.mayDirect c (e.pa / 64) then .next (s.sbWait g e)
      else
        let es := (combined x.sb).filter fun f => !x.heldBack f
        let d := (s.dev.payDirect c (e.pa / 64)).sendPstnt g es
        .next ({ s with dev := d }.setStrand g { x with sb := markSent es.length x.sb })

/-! ### Translation invalidation (R129, R130, R185 to R188) -/

/-- Whether a TINV removes a cached translation (R129). -/
def TinvOp.removes (o : TinvOp) (t : TlbEntry) : Bool :=
  match o with
  | .va page a0 m anyAsid leaf =>
    (match t with
      | .s1 _ v _ _ _ _ => v == m && t.onS1Path (4096 * page) && (anyAsid || t.inAsid a0)
      | .p1 _ v _ _ _ => !leaf && v == m && t.onS1Path (4096 * page)
      | _ => false)
  | .asid a0 m =>
    (match t with
      | .s1 a v _ _ e _ => v == m && a == a0 && !bitOf e 5
      | .p1 a v _ _ _ => v == m && a == a0
      | _ => false)
  | .all m =>
    (match t with
      | .s1 _ v _ _ _ _ => v == m
      | .p1 _ v _ _ _ => v == m
      | _ => false)
  | .ipa page m leaf =>
    (match t with
      | .s1 _ v _ lvl e _ => v == m && 4096 * page / pageSize lvl == entryAddr e / pageSize lvl
      | .s2 v _ _ _ _ => v == m && t.onS2Path (4096 * page)
      | .p2 v _ _ _ => !leaf && v == m && t.onS2Path (4096 * page)
      | _ => false)
  | .vmid m => t.vmidOf == m
  | .hAll => true

/-- A TINV takes effect in every core of the socket (R186). -/
def Dev.tinvApply (d : Dev) (o : TinvOp) : Dev :=
  { d with tlb := SMap.filterMap (fun _ => []) (fun _ ts => some (ts.filter fun t => !o.removes t)) d.tlb }

/-- The TINVs of strand g take effect. -/
def Dev.tinvFinish (d : Dev) (g : Nat) : Dev :=
  let d' := (d.tinvs.filter fun t => t.1 == g).foldl (fun d t => d.tinvApply t.2) d
  { d' with tinvs := d.tinvs.filter fun t => t.1 != g }

/-- The TINVs of a core that are outstanding (R186). -/
def Dev.tinvsOf (d : Dev) (l : Nat) : List (Nat × TinvOp) := d.tinvs.filter fun t => t.1 / 2 == l

/-- The first TINV of a logical core removed from a list. -/
def dropTinv (l : Nat) : List (Nat × TinvOp) → List (Nat × TinvOp)
  | [] => []
  | t :: ts => if t.1 / 2 == l then ts else t :: dropTinv l ts

/-- A TINV is issued (R129, R186): a ninth of its core waits until the oldest completes, which follows the strand's earlier
stores (R185). -/
def State.tinv (s : State) (g : Nat) (o : TinvOp) : Flow :=
  let d := s.dev
  match d.tinvsOf (g / 2) with
  | t :: ts =>
    if ts.length < 7 then .ok { s with dev := { d with tinvs := d.tinvs ++ [(g, o)] } }
    else if !(s.strand t.1).sb.isEmpty then .hold s
    else
      let d := d.tinvApply t.2
      .ok { s with dev := { d with tinvs := dropTinv (g / 2) d.tinvs ++ [(g, o)] } }
  | [] => .ok { s with dev := { d with tinvs := d.tinvs ++ [(g, o)] } }

/-- The VMID that a TINV acts on (R129): at S the strand's own. -/
def Strand.tinvVmid (x : Strand) (tags : Word) : Nat := if x.pl == 2 then getF tags 16 16 else x.vmid.toNat

/-- The shared form of the TINVs. -/
def runTinv (g : Nat) (legal : Bool) (lvl : Nat) (regs : List RegRef) (s : State) (f : Strand → TinvOp) :
    Host.Outcome State Fault Refusal :=
  runInsn g s (fun x => { legal := legal, allowed := decide (lvl ≤ x.pl), regs := regs }) fun s =>
    s.tinv g (f (s.strand g))

/-- TINV_VA (R129). -/
def execTinvVa (g : Nat) (z : BitVec 2) (e : MemEnc) (s : State) : Host.Outcome State Fault Refusal :=
  runTinv g (memLegal e z true false false) 1 [.n e.a, .n e.b] s fun x =>
    let t := x.getN e.b
    .va ((x.getN e.a).toNat / 4096) (getF t 0 16) (x.tinvVmid t) (bitOf t 32) (bitOf t 33)

/-- TINV_ASID (R129). -/
def execTinvAsid (g : Nat) (z : BitVec 2) (e : MemEnc) (s : State) : Host.Outcome State Fault Refusal :=
  runTinv g (memLegal e z true false true) 1 [.n e.a] s fun x =>
    .asid (getF (x.getN e.a) 0 16) (x.tinvVmid (x.getN e.a))

/-- TINV_ALL (R129). -/
def execTinvAll (g : Nat) (z : BitVec 2) (e : MemEnc) (s : State) : Host.Outcome State Fault Refusal :=
  runTinv g (memLegal e z true false true) 1 [.n e.a] s fun x => .all (x.tinvVmid (x.getN e.a))

/-- TINV_IPA (R129). -/
def execTinvIpa (g : Nat) (z : BitVec 2) (e : MemEnc) (s : State) : Host.Outcome State Fault Refusal :=
  runTinv g (memLegal e z true false false) 2 [.n e.a, .n e.b] s fun x =>
    let t := x.getN e.b
    .ipa ((x.getN e.a).toNat / 4096) (getF t 16 16) (bitOf t 33)

/-- TINV_VMID (R129). -/
def execTinvVmid (g : Nat) (z : BitVec 2) (e : MemEnc) (s : State) : Host.Outcome State Fault Refusal :=
  runTinv g (memLegal e z true false true) 2 [.n e.a] s fun x => .vmid (getF (x.getN e.a) 16 16)

/-- TINV_H_ALL (R129). -/
def execTinvHAll (g : Nat) (z : BitVec 2) (e : MemEnc) (s : State) : Host.Outcome State Fault Refusal :=
  runTinv g (memLegal e z true true true) 2 [] s fun _ => .hAll

/-- TSYNC (R130): the strand waits for its TINVs; an interrupt abandons the wait. -/
def execTsync (g : Nat) (z : BitVec 2) (e : MemEnc) (s : State) : Host.Outcome State Fault Refusal :=
  runInsn g s (fun x => { legal := memLegal e z true true true, allowed := decide (1 ≤ x.pl) }) fun s =>
    .go (s.setStrand g { s.strand g with tsync := true })

/-- TSYNC_COMPLETE (R130, R187): every earlier TINV of the strand has taken effect, and no access of the socket is in
flight. -/
def execTsyncComplete (g : Nat) (s : State) : Host.Outcome State Fault Refusal :=
  if !strandOk g then .fault .noSuchUnit
  else if !s.dev.clocksOk then .fault .outsideClockRelations
  else
    let x := s.strand g
    if x.tsync && !x.halted && s.strands.all fun kv => kv.2.sb.isEmpty && kv.2.portLoad.isNone then
      .next (({ s with dev := s.dev.tinvFinish g }.setStrand g { x with tsync := false }).retire g)
    else .next s

/-- BTBFLUSH (R131): the core's BTB and both return-address stacks are emptied. -/
def execBtbflush (g : Nat) (z : BitVec 2) (e : MemEnc) (s : State) : Host.Outcome State Fault Refusal :=
  runInsn g s (fun x => { legal := memLegal e z true true true, allowed := decide (1 ≤ x.pl) }) fun s =>
    let a := 2 * (g / 2)
    let s := { s with dev := s.dev.flushBtb (s.dev.phys (g / 2)) }
    let s := s.setStrand a { s.strand a with ras := [] }
    .ok (s.setStrand (a + 1) { s.strand (a + 1) with ras := [] })

end Sys2Proof.Machine
end

