-- ==== Sys2Proof/Machine/System.lean ====
section
/-!
DEFINITION. The system group (R54 to R62, R68, R132 to R134), the closing of a mode shadow (R80) and of a core's mode
drain (R138), the completion of long operations (R89, R151), and the words that are no instruction (R87).
-/

namespace Sys2Proof.Machine

open Sys2Proof

/-! ### System registers (R54 to R62) -/

/-- Whether a level may name a number (R54, R55): below H every number with bit 11 set counts as listed. -/
def srNamed (pl : Nat) (sr : BitVec 12) : Bool := srListed sr || (decide (2048 ≤ sr.toNat) && pl != 2)

/-- CYCLES counts on by a number of core clock cycles that the model leaves free (R55, log entry 5). -/
def State.runCycles (s : State) (g : Nat) : State :=
  let f := s.dev.drawWord
  let x := s.strand g
  { s with dev := f.2 }.setStrand g { x with cycles := x.cycles + f.1 }

/-- MFSR (R54, R79). -/
def execMfsr (g : Nat) (e : SysEnc) (s : State) : Host.Outcome State Fault Refusal :=
  runInsn g s (fun x => {
    legal := srNamed x.pl e.sysreg && e.a == 0
    allowed := decide (srReadLevel e.sysreg ≤ x.pl)
    regs := [.n e.d] }) fun s =>
    let s := if e.sysreg == 0x020 then s.runCycles g else s
    .ok (s.setN g e.d (srRead s g e.sysreg))

/-- PMODE at the moment an MTSR to it executes (R61): Steady is refused while strand 1 is not parked. -/
def Pmode.ask (p : Pmode) (steady parked : Bool) : Pmode :=
  if steady && !p.active then
    (if parked then { p with accepted := true } else { p with refused := true })
  else if !steady && p.active then { p with accepted := true }
  else p

/-- An MTSR to PMODE executes (R61); a refusal is counted (R160). -/
def State.askMode (s : State) (g : Nat) (v : Word) : State :=
  let p := s.dev.pm (g / 2)
  let parked := (s.strand (2 * (g / 2) + 1)).parked
  let s := if bitOf v 0 && !p.active && !parked then s.count g 0x61 else s
  { s with dev := s.dev.setPm (g / 2) (p.ask (bitOf v 0) parked) }

/-- MTSR (R54, R76, R77): a mode-bearing write opens a shadow, any other takes effect at once. -/
def execMtsr (g : Nat) (e : SysEnc) (s : State) : Host.Outcome State Fault Refusal :=
  runInsn g s (fun x => {
    legal := srNamed x.pl e.sysreg && e.d == 0
    allowed := decide (srWriteLevel x e.sysreg ≤ x.pl)
    modeWrite := modeBearing e.sysreg
    regs := [.n e.a] }) fun s =>
    let x := s.strand g
    let v := x.getN e.a
    if modeBearing e.sysreg then
      let s := if e.sysreg == 0x010 then s.askMode g v else s
      let t := s.retire g
      .go (t.setStrand g { t.strand g with shadow := some ⟨e.sysreg, v, x.pl, 0⟩ })
    else .ok (s.setStrand g (x.srWrite e.sysreg v x.pl))

/-- SHADOW_CLOSE (R80): at the end of the fifth position. -/
def execShadowClose (g : Nat) (s : State) : Host.Outcome State Fault Refusal :=
  if !strandOk g then .fault .noSuchUnit
  else if (s.strand g).shadowDue then .next (s.closeShadow g)
  else .next s

/-- The logical core that physical core c serves (R42). -/
def Dev.logicalOf (d : Dev) (c : Nat) : Nat := d.fld (R.CORE_STATE_LOGICAL.at (8 * c))

/-- Whether a core's mode drain may end (R138). -/
def State.drained (s : State) (l : Nat) : Bool :=
  let x := s.strand (2 * l)
  (s.dev.pm l).draining && x.longOps.isEmpty && x.portLoad.isNone && x.sb.isEmpty && (s.strand (2 * l + 1)).sb.isEmpty

/-- The new mode takes effect (R138, R139): a wake of strand 1 that the core held is acted on in Full mode. -/
def State.endModeDrain (s : State) (l : Nat) : State :=
  let p := s.dev.pm l
  let s := s.count (2 * l) 0x60
  let p' := { p with
    active := p.mode
    draining := false
    wake := p.wake && p.mode }
  let s := { s with dev := s.dev.setPm l p' }
  if p.wake && !p.mode then s.wake (2 * l + 1) else s

/-- MODE_DRAIN_COMPLETE (R138). -/
def execModeDrainComplete (c : Nat) (s : State) : Host.Outcome State Fault Refusal :=
  if !coreOk c then .fault .noSuchUnit
  else if s.dev.coreState c == 1 && s.drained (s.dev.logicalOf c) then .next (s.endModeDrain (s.dev.logicalOf c))
  else .next s

/-! ### Long operations (R89, R120, R124, R151) -/

/-- A list without its k-th element. -/
def dropAt {α : Type} : Nat → List α → List α
  | _, [] => []
  | 0, _ :: l => l
  | k + 1, x :: l => x :: dropAt k l

/-- The k-th long operation of strand g writes its result. -/
def State.finishLong (s : State) (g k : Nat) (dst : RegRef) (val : VWord) : State :=
  let x := s.strand g
  s.setStrand g ({ x with longOps := dropAt k x.longOps }.setRef dst val)

/-- What PSYNC reports (R124): the frame number, or all ones when a write of its strand failed. -/
def psyncResult (d : Dev) (failed : Bool) : VWord := (if failed then word (2 ^ 64 - 1) else d.frame).setWidth 256

/-- LONG_OP_COMPLETE (R89): a far atomic waits for the acceptance of its Peat line (R120), a PSYNC for the durability of
its strand's writes (R124, R276). -/
def execLongOpComplete (g k : Nat) (s : State) : Host.Outcome State Fault Refusal :=
  if !strandOk g then .fault .noSuchUnit
  else
    match (s.strand g).longOps[k]? with
    | none => .next s
    | some o =>
      match o.kind with
      | .value => .next (s.finishLong g k o.dst o.val)
      | .far _ seq => if s.dev.directOpen (g, seq) then .next s else .next (s.finishLong g k o.dst o.val)
      | .psync upTo failed =>
        let s := { s with dev := s.dev.psyncSend g }
        if s.psyncDone g upTo then
          let bad := failed || s.dev.failedPw.contains g
          let d := { s.dev with failedPw := s.dev.failedPw.filter fun y => y != g }
          .next ({ s with dev := d }.finishLong g k o.dst (psyncResult d bad))
        else .next s

/-! ### Calls, returns, waits (R68, R75, R132 to R134) -/

/-- An instruction of the system group whose d and a fields are 0. -/
def sysZeros (e : SysEnc) : Bool := e.d == 0 && e.a == 0

/-- Whether an ERET is one that the security engine refuses (R399). -/
def State.eretRefused (s : State) (g : Nat) : Bool :=
  let x := s.strand g
  x.pl == 2 && x.hpsealed && !s.dev.mayResume x

/-- ERET (R68). -/
def execEret (g : Nat) (e : SysEnc) (s : State) : Host.Outcome State Fault Refusal :=
  runInsn g s (fun x => { legal := sysZeros e && e.sysreg == 0, transfer := true, allowed := decide (1 ≤ x.pl) }) fun s =>
    if s.eretRefused g then .go (s.eret g) else .go ((s.count g 1).eret g)

/-- SYS (R132): the device ignores its sysreg field. -/
def execSys (g : Nat) (e : SysEnc) (s : State) : Host.Outcome State Fault Refusal :=
  runInsn g s (fun _ => { legal := sysZeros e, transfer := true }) fun s => .exc { code := 0x0A } s.dev

/-- HCALL (R132). -/
def execHcall (g : Nat) (e : SysEnc) (s : State) : Host.Outcome State Fault Refusal :=
  runInsn g s (fun x => { legal := sysZeros e, transfer := true, allowed := decide (1 ≤ x.pl) }) fun s =>
    .exc { code := 0x0B } s.dev

/-- BRK (R75, R132). -/
def execBrk (g : Nat) (e : SysEnc) (s : State) : Host.Outcome State Fault Refusal :=
  runInsn g s (fun _ => { legal := sysZeros e }) fun s => .exc { code := 0x0C } s.dev

/-- A core whose strands all wait or are parked is Idle (R495). -/
def State.settleCore (s : State) (g : Nat) : State :=
  let rests (x : Strand) : Bool := x.parked || x.waiting.isSome
  if rests (s.strand (2 * (g / 2))) && rests (s.strand (2 * (g / 2) + 1)) then
    { s with dev := s.dev.setFld (corePwr (s.dev.phys (g / 2))) 2 }
  else s

/-- WAIT (R133): the strand is suspended; d is written when it wakes. -/
def execWait (g : Nat) (e : SysEnc) (s : State) : Host.Outcome State Fault Refusal :=
  runInsn g s (fun x => {
    legal := e.sysreg == 0
    transfer := true
    allowed := decide (1 ≤ x.pl)
    regs := [.n e.d, .n e.a] }) fun s =>
    let x := s.strand g
    .go ((s.setStrand g { x with waiting := some ⟨e.d, x.getN e.a⟩ }).settleCore g)

/-- Why a waiting strand wakes (R133). -/
def State.wakeReason (s : State) (g : Nat) (limit : Word) : Word :=
  if !(s.strand g).lost.isEmpty || (s.topVector g true).isSome then 0
  else if limit != 0 && decide (limit.toNat ≤ s.dev.frame.toNat) then 1
  else 2

/-- WAIT_WAKE (R133): reason 2 is a wake without cause. -/
def execWaitWake (g : Nat) (s : State) : Host.Outcome State Fault Refusal :=
  if !strandOk g then .fault .noSuchUnit
  else
    let x := s.strand g
    match x.waiting with
    | none => .next s
    | some w =>
      if x.halted || !(s.dev.phase == .running || s.dev.phase == .drain) || !s.dev.coreThere (g / 2) then .next s
      else
        let y := { x with waiting := none }.setN w.d (s.wakeReason g w.limit)
        let s' := { s with dev := s.dev.setFld (corePwr (s.dev.phys (g / 2))) 1 }
        .next ((s'.setStrand g y).retire g)

/-- PARK (R134): inside a sealed domain it raises a sealed-domain violation. -/
def execPark (g : Nat) (e : SysEnc) (s : State) : Host.Outcome State Fault Refusal :=
  runInsn g s (fun x => { legal := sysZeros e && e.sysreg == 0, transfer := true, allowed := decide (1 ≤ x.pl) }) fun s =>
    if (s.strand g).sealedB then .exc { code := 0x0D } s.dev
    else
      let t := s.retire g
      .go ((t.setStrand g { t.strand g with parked := true }).settleCore g)

/-! ### Words that are no instruction (R85 to R87) -/

/-- The function codes of op 0x01 (R90). -/
def intFns : List Nat :=
  [0, 1, 2, 3, 4, 5, 8, 9, 0xA, 0xB, 0x10, 0x11, 0x12, 0x13, 0x14, 0x15, 0x16, 0x18, 0x19, 0x1A, 0x1B, 0x20, 0x21, 0x28,
    0x29, 0x2A, 0x2B]

/-- The function codes of op 0x28 (R99). -/
def floatFns : List Nat :=
  [0, 1, 2, 3, 4, 5, 8, 9, 0xA, 0xB, 0x10, 0x11, 0x12, 0x18, 0x19, 0x1A, 0x1B, 0x1C, 0x1D, 0x20, 0x21]

/-- The operation codes of op 0x29 (R102). -/
def vopListed (v : Nat) : Bool :=
  decide (v ≤ 0xC) || (0x10 ≤ v && v ≤ 0x12) || (0x18 ≤ v && v ≤ 0x1A) || v == 0x1C || v == 0x1D || v == 0x20
    || (0x40 ≤ v && v ≤ 0x81)

/-- The sub-operations of op 0x1F (R114). -/
def subListed (v : Nat) : Bool :=
  v == 0 || v == 1 || (8 ≤ v && v ≤ 0x10) || v == 0x18 || v == 0x19 || (0x20 ≤ v && v ≤ 0x22) || (0x28 ≤ v && v ≤ 0x2A)
    || (0x30 ≤ v && v ≤ 0x35) || v == 0x38 || v == 0x3C

/-- Whether a word's major opcode and its function, condition or kind code are assigned (R86, R90 to R95, R99, R102,
R114, R132, R135). -/
def assignedWord (w : BitVec 32) : Bool :=
  let op := w.toNat / 2 ^ 26
  let fn := w.toNat % 2 ^ 11
  if op == 0x01 then intFns.contains fn
  else if op == 0x02 then [0, 1, 2, 4, 8, 9, 0xA, 0xB].contains fn
  else if op == 0x1F then subListed (fn % 64)
  else if op == 0x20 || op == 0x21 then decide (w.toNat / 2 ^ 21 % 8 < 6)
  else if op == 0x24 then decide (fn % 4 < 3)
  else if op == 0x28 then floatFns.contains fn
  else if op == 0x29 then vopListed (fn % 512)
  else if op == 0x30 then decide (w.toNat % 16 < 8)
  else if op == 0x31 then w.toNat % 16 == 0
  else (4 ≤ op && op ≤ 0xD) || (0x10 ≤ op && op ≤ 0x1E) || op == 0x22 || op == 0x23

/-- ILLEGAL_INSTRUCTION (R87): a word that is no instruction; any other word is one of the rows above (log entry 2). -/
def execIllegalInstruction (g : Nat) (w : BitVec 32) (s : State) : Host.Outcome State Fault Refusal :=
  runInsn g s (fun _ => { legal := assignedWord w }) fun s => .hold s

end Sys2Proof.Machine
end

