-- ==== Sys2Proof/Machine/Sealed.lean ====
section
/-!
DEFINITION. `SECALL` (R135, R136) and the sealed-domain commands (R392 to R401, R540): the command block, the order of
the statuses, and each command's effect. A digest, a signature and a derived key are uninterpreted (log entry 6).
-/

namespace Sys2Proof.Machine

open Sys2Proof

/-! ### The command block (R395) -/

/-- A command block. -/
structure Block where
  code : Nat
  flags : Nat
  dom : Nat
  arg0 : Word
  arg1 : Word
  arg2 : Word
  deriving DecidableEq, Repr

/-- The command block that a line holds. -/
def blockOf (l : Line) : Block where
  code := getF (lineWord l 0) 0 8
  flags := getF (lineWord l 0) 8 8
  dom := getF (lineWord l 8) 0 12
  arg0 := lineWord l 0x10
  arg1 := lineWord l 0x18
  arg2 := lineWord l 0x20

/-- What the engine answers: a status with no effect; done, with the results that the command gives; the strand has
entered or left a domain; a line of a named page is in a transaction, so that the strand waits. -/
inductive SeRes
  | refuse (status : Nat)
  | done (r0 r1 : Option Word) (t : State)
  | moved (s : State)
  | wait
  deriving DecidableEq, Repr

/-- A SECALL word (R135): its function, its sysreg field, and that it stands in no executed slot; at H, or sealed at S. -/
def secallInsn (fn : BitVec 4) (e : SysEnc) (x : Strand) : Insn where
  legal := fn == 0 && e.sysreg == 0 && x.slot.isNone
  allowed := x.pl == 2 || (x.pl == 1 && x.sealedB)
  regs := [.n e.d, .n e.a]

/-- A translation fault of the block is raised as a load fault (R135). -/
def asLoad (e : Exc) : Exc := if e.code == 7 then { e with code := 6 } else e

/-- The result that the spec gives, or a free word (log entry 5). -/
def Dev.resultWord (d : Dev) : Option Word → Word × Dev
  | some w => (w, d)
  | none => d.drawWord

/-- The engine writes RESULT0 and RESULT1 through the caller's translation (R135). -/
def Dev.writeResults (d : Dev) (p : Piece) (r0 r1 : Word) : Dev :=
  if d.homedHere (p.a.pa / 64) then
    d.homeStore (p.a.pa / 64) 0x30 (leBytes 8 r0.toNat ++ leBytes 8 r1.toNat) p.a.key false none
  else d

/-- The status word (R395). -/
def statusWord (status : Nat) (r0 : Word) : Word := word (status % 256 + getF r0 0 56 * 256)

/-- The engine's answer at strand g. -/
def State.answer (s : State) (g : Nat) (r : Reg) (p : Piece) : SeRes → Flow
  | .refuse st =>
    let f := s.dev.drawWord
    .ok ({ s with dev := f.2 }.setN g r (statusWord st f.1))
  | .done a b t =>
    let r0 := t.dev.resultWord a
    let r1 := r0.2.resultWord b
    .ok ({ t with dev := r1.2.writeResults p r0.1 r1.1 }.setN g r (statusWord stOk r0.1))
  | .moved t => .go t
  | .wait => .hold s

/-- The checks of a SECALL and the reading of its block (R64, R135): aligned, translated for a load and a store, the
caller's own, claimed by memory, and not poisoned. It follows the strand's earlier stores. -/
def State.secallBlock (s : State) (g : Nat) (va : Word) (f : State → Piece → Block → Flow) : Flow :=
  if va.toNat % 64 != 0 then .exc { code := 4, faddr := some va } s.dev
  else
    let r := s.access g va 64 .load .line
    let w := { s with dev := r.2 }.access g va 64 .store .line
    match r.1.1.or w.1.1, w.1.2 with
    | some e, _ => .exc (asLoad e) w.2
    | none, [] => .hold s
    | none, p :: _ =>
      let s := { s with dev := w.2 }
      if !(s.dev.claim p.a.pa).normal then s.dev.busError g va p.a.pa
      else if !(s.strand g).sb.isEmpty || (s.strand g).psyncing || s.dev.lineBusy (p.a.pa / 64) then .hold s
      else
        let q := s.dev.readLine (s.dev.phys (g / 2)) (p.a.pa / 64) p.a.key p.a.mt (List.range 8)
        if q.poison then q.dev.dataError g va (p.a.pa / 64) q.src
        else f { s with dev := q.dev } p (blockOf q.line)

/-- Whether the engine accepts a command now (R30, R136, R401). -/
def Dev.seTakes (d : Dev) : Bool :=
  (d.fld R.SE_STATUS_STATE == 1 || d.fld R.SE_STATUS_STATE == 3) && d.phase == .running

/-- The first status that applies before the command's own (R540): BUSY, UNAVAILABLE, BAD_COMMAND of an unknown code, LOCKED,
BAD_STATE without a table, and BAD_COMMAND of a caller that may not use it. -/
def State.seGate (s : State) (g code : Nat) (inside random : Bool) : Option Nat :=
  let d := s.dev
  if !d.seTakes then some stBusy
  else if d.fld R.SE_STATUS_STATE == 3 || (random && d.fw.randomBad) then some stUnavailable
  else if code == 0 || 0x0D < code then some stBadCommand
  else if !d.locked then some stLocked
  else if !d.flag R.POT_BASE_EN then some stBadState
  else if inside != (s.strand g).sealedB then some stBadCommand
  else none

/-- A SECALL whose command block holds a command with a code, from H or from inside a domain. A block that holds another
known code is another row's (log entry 2). -/
def runSecall (g : Nat) (fn : BitVec 4) (e : SysEnc) (code : Nat) (inside random : Bool) (s : State)
    (f : State → Block → SeRes) : Host.Outcome State Fault Refusal :=
  runInsn g s (secallInsn fn e) fun s =>
    s.secallBlock g ((s.strand g).getN e.a) fun s p b =>
      if b.code != code && 1 ≤ b.code && b.code ≤ 0x0D then .hold s
      else
        match s.seGate g b.code inside random with
        | some st => s.answer g e.d p (.refuse st)
        | none => s.answer g e.d p (f s b)

/-- SECALL_BUSY (R136): the engine cannot accept the command within 20 µs. -/
def execSecallBusy (g : Nat) (fn : BitVec 4) (e : SysEnc) (s : State) : Host.Outcome State Fault Refusal :=
  runInsn g s (secallInsn fn e) fun s =>
    s.secallBlock g ((s.strand g).getN e.a) fun s p _ => s.answer g e.d p (.refuse stBusy)

/-! ### Pages (R392, R393) -/

/-- n pages from an address. -/
def pageRun (pa : Word) (n : Nat) : List Nat := (List.range n).map fun i => pa.toNat / 4096 + i

/-- Whether an address starts n pages of DRAM, all in a state (R400). -/
def Dev.pagesIn (d : Dev) (pa : Word) (n st : Nat) : Bool :=
  pa.toNat % 4096 == 0 && (pageRun pa n).all fun p =>
    (match d.claim (4096 * p) with
      | .dram _ => true
      | _ => false) && (d.potOf (4096 * p)).st == st

/-- Whether a line of a page is in a transaction. -/
def Dev.pagesBusy (d : Dev) (pages : List Nat) : Bool := (pages.flatMap pageLines).any fun g => d.lineBusy g

/-- The page that a domain holds in a state at an intermediate page (R393). -/
def Dev.pageAt (d : Dev) (dom st ipa : Nat) : Option Nat :=
  (d.pot.find? fun kv => kv.2.st == st && kv.2.dom == dom && kv.2.ipa == ipa).map fun kv => kv.1

/-- The domain that strand g runs inside, with its record. -/
def State.ownDomain (s : State) (g : Nat) : Option (Nat × Domain) :=
  match (s.strand g).inside with
  | none => none
  | some (dom, _) => (s.dev.domain dom).map fun m => (dom, m)

/-! ### Building (R395 to R397) -/

/-- The ASCII bytes of "create" and "zero" (R396). -/
def createBytes : List Byte := [0x63, 0x72, 0x65, 0x61, 0x74, 0x65]
def zeroBytes : List Byte := [0x7A, 0x65, 0x72, 0x6F]

/-- The measurement of a domain at CREATE (R396). -/
def measureStart (count pc : Word) : Line :=
  Config.sha3 (createBytes ++ leBytes 8 count.toNat ++ leBytes 8 pc.toNat)

/-- The measurement extended by a page (R396): at an intermediate page, with its rights and its digest or "zero". -/
def measureNext (m : Line) (ipa rights : Nat) (what : List Byte) : Line :=
  Config.sha3 (lineBytes m ++ leBytes 8 (4096 * ipa) ++ [BitVec.ofNat 8 rights] ++ what)

/-- A vCPU that has not run (R398): at S, the S copies at their Cold values. -/
def Vcpu.fresh (pc : Word) : Vcpu where
  st := { Strand.reset with
    pc := align4 pc
    status := 0 }
  running := false
  exitD := none
  exits := 0
  inImage := false

/-- A free domain ID, any of them (log entry 5). -/
def Dev.freeDomain (d : Dev) : Option Nat × Dev :=
  let f := d.drawWord
  (((List.range 4095).map fun i => 1 + (f.1.toNat + i) % 4095).find? fun i => (f.2.domain i).isNone, f.2)

/-- CREATE's effect (R395). -/
def Dev.createDomain (d : Dev) (dom slot : Nat) (b : Block) : Dev :=
  let n := b.arg0.toNat
  let pages := pageRun b.arg1 n
  let d := pages.foldl (fun d p => d.setPot p ⟨4, 0, 0, 0⟩) (d.takeAway pages)
  let m : Domain := {
    built := false
    vcpus := List.replicate n (Vcpu.fresh b.arg2)
    areas := b.arg1.toNat / 4096
    key3 := slot
    key4 := none
    measure := measureStart b.arg0 b.arg2
    shared := 0 }
  ((d.freshKey slot 3 dom).setDomain dom (some m)).showSe

/-- CREATE (R395). -/
def execCreate (g : Nat) (fn : BitVec 4) (e : SysEnc) (s : State) : Host.Outcome State Fault Refusal :=
  runSecall g fn e 0x01 false true s fun s b =>
    let d := s.dev
    let n := b.arg0.toNat
    if d.flag R.SE_STATUS_DEBUG then .refuse stDenied
    else if n == 0 || 512 < n then .refuse stBadCommand
    else if !d.pagesIn b.arg1 n 0 then .refuse stBadPage
    else if d.pagesBusy (pageRun b.arg1 n) then .wait
    else
      match d.freeSlot, d.freeDomain with
      | none, _ => .refuse stNoSlot
      | some _, (none, _) => .refuse stNoDomain
      | some k, (some i, d) => .done (some (word i)) (some (word k)) { s with dev := d.createDomain i k b }

/-- A page's plaintext as the engine reads it under a KEYID: its lines, with their poison. -/
def Dev.pageRead (d : Dev) (page keyid : Nat) : List (Line × Bool) × Dev :=
  (pageLines page).foldl (fun (r : List (Line × Bool) × Dev) g =>
    let q := r.2.coreRead 511 g keyid
    (r.1 ++ [(q.line, q.poison)], q.dev)) ([], d)

/-- Writes lines to memory under a KEYID. -/
def Dev.linesWrite (d : Dev) (keyid : Nat) : List (Nat × Line × Bool) → Dev
  | [] => d
  | (g, l, poison) :: ls =>
    (if d.homedHere g then d.homeWrite g keyid l poison false none else d).linesWrite keyid ls

/-- ADD_PAGE's effect (R395, R396). -/
def Dev.addPage (d : Dev) (dom : Nat) (m : Domain) (b : Block) : Dev :=
  let page := b.arg0.toNat / 4096
  let ipa := getF b.arg2 12 40
  let rights := getF b.arg2 0 3
  let r := d.pageRead (b.arg1.toNat / 4096) 0
  let d := (r.2.takeAway [page]).linesWrite m.key3 ((pageLines page).zip r.1)
  let digest := lineBytes (Config.sha3 (r.1.flatMap fun l => lineBytes l.1))
  (d.setPot page ⟨1, dom, ipa, rights⟩).setDomain dom (some { m with measure := measureNext m.measure ipa rights digest })

/-- ADD_PAGE (R395). -/
def execAddPage (g : Nat) (fn : BitVec 4) (e : SysEnc) (s : State) : Host.Outcome State Fault Refusal :=
  runSecall g fn e 0x02 false false s fun s b =>
    let d := s.dev
    match d.domain b.dom with
    | none => .refuse stBadState
    | some m =>
      if m.built then .refuse stBadState
      else if !d.pagesIn b.arg0 1 0 || !d.pagesIn b.arg1 1 0 then .refuse stBadPage
      else if d.pagesBusy [b.arg0.toNat / 4096, b.arg1.toNat / 4096] then .wait
      else .done none none { s with dev := d.addPage b.dom m b }

/-- ADD_ZERO's effect on the i-th page (R395): in BUILDING it becomes DOMAIN, in SEALED PENDING. -/
def Dev.addZeroPage (d : Dev) (dom : Nat) (m : Domain) (b : Block) (i : Nat) : Dev :=
  let page := b.arg0.toNat / 4096 + i
  (d.zeroPage page m.key3).setPot page ⟨if m.built then 2 else 1, dom, (getF b.arg2 12 40 + i) % 2 ^ 40, getF b.arg2 0 3⟩

/-- The measurement after ADD_ZERO (R396): once per page, in ascending intermediate address. -/
def zeroMeasure (m : Line) (b : Block) (n : Nat) : Line :=
  (List.range n).foldl (fun x i => measureNext x ((getF b.arg2 12 40 + i) % 2 ^ 40) (getF b.arg2 0 3) zeroBytes) m

/-- ADD_ZERO's effect (R395, R396). -/
def Dev.addZero (d : Dev) (dom : Nat) (m : Domain) (b : Block) : Dev :=
  let n := b.arg1.toNat
  let d := (List.range n).foldl (fun d i => d.addZeroPage dom m b i) (d.takeAway (pageRun b.arg0 n))
  if m.built then d else d.setDomain dom (some { m with measure := zeroMeasure m.measure b n })

/-- A page count outside 1 to 256 (R400). -/
def badCount (w : Word) : Bool := w.toNat == 0 || decide (256 < w.toNat)

/-- ADD_ZERO (R395). -/
def execAddZero (g : Nat) (fn : BitVec 4) (e : SysEnc) (s : State) : Host.Outcome State Fault Refusal :=
  runSecall g fn e 0x03 false false s fun s b =>
    let d := s.dev
    if badCount b.arg1 then .refuse stBadCommand
    else
      match d.domain b.dom with
      | none => .refuse stBadState
      | some m =>
        if !d.pagesIn b.arg0 b.arg1.toNat 0 then .refuse stBadPage
        else if d.pagesBusy (pageRun b.arg0 b.arg1.toNat) then .wait
        else .done none none { s with dev := d.addZero b.dom m b }

/-- The identity of a class-4 key (R397): that of its measurement and label, above every generated one (log entry 9). -/
def sealingKey (measure : Line) (label : Word) : Nat := 2 ^ 64 + (measure.toNat * 2 ^ 64 + label.toNat)

/-- SEAL (R395, R397). -/
def execSealDomain (g : Nat) (fn : BitVec 4) (e : SysEnc) (s : State) : Host.Outcome State Fault Refusal :=
  runSecall g fn e 0x04 false false s fun s b =>
    let d := s.dev
    match d.domain b.dom with
    | none => .refuse stBadState
    | some m =>
      if m.built then .refuse stBadState
      else if b.flags % 2 == 0 then .done none none { s with dev := d.setDomain b.dom (some { m with built := true }) }
      else
        match d.freeSlot with
        | none => .refuse stNoSlot
        | some k =>
          let m' := { m with
            built := true
            key4 := some k }
          let d := d.setSlot k ⟨4, sealingKey m.measure b.arg0, b.dom⟩
          .done none (some (word k)) { s with dev := (d.setDomain b.dom (some m')).showSe }

/-! ### Inside (R395, R398) -/

/-- ENTER's effect (R136, R398): the SECALL retires and the strand goes on at S inside the domain. -/
def State.enterDomain (s : State) (g dom i : Nat) : State :=
  let s := s.count g 1
  let x := (s.strand g).step 1
  (s.setStrand g { x with status := putF x.status 0 2 1 }).enterVcpu g dom i

/-- ENTER (R395, R398). -/
def execEnter (g : Nat) (fn : BitVec 4) (e : SysEnc) (s : State) : Host.Outcome State Fault Refusal :=
  runSecall g fn e 0x05 false false s fun s b =>
    match s.dev.domain b.dom with
    | none => .refuse stBadState
    | some m =>
      match m.vcpus[b.arg0.toNat]? with
      | none => .refuse stBadCommand
      | some v =>
        if !m.built || v.running || v.inImage then .refuse stBadState
        else .moved (s.enterDomain g b.dom b.arg0.toNat)

/-- ACCEPT (R395): a PENDING page of the strand's own domain becomes DOMAIN. -/
def execAccept (g : Nat) (fn : BitVec 4) (e : SysEnc) (s : State) : Host.Outcome State Fault Refusal :=
  runSecall g fn e 0x06 true false s fun s b =>
    match s.ownDomain g with
    | none => .refuse stBadState
    | some (dom, _) =>
      if b.arg0.toNat % 4096 != 0 then .refuse stBadPage
      else
        match s.dev.pageAt dom 2 (b.arg0.toNat / 4096) with
        | none => .refuse stBadPage
        | some p => .done none none { s with dev := s.dev.setPot p { s.dev.potOf (4096 * p) with st := 1 } }

/-- RELEASE's effect (R395, R396). -/
def Dev.releasePage (d : Dev) (p : Nat) : Dev := ((d.takeAway [p]).zeroPage p 0).setPot p ⟨0, 0, 0, 0⟩

/-- RELEASE (R395). -/
def execRelease (g : Nat) (fn : BitVec 4) (e : SysEnc) (s : State) : Host.Outcome State Fault Refusal :=
  runSecall g fn e 0x07 true false s fun s b =>
    match s.ownDomain g with
    | none => .refuse stBadState
    | some (dom, _) =>
      if b.arg0.toNat % 4096 != 0 then .refuse stBadPage
      else
        match s.dev.pageAt dom 1 (b.arg0.toNat / 4096) with
        | none => .refuse stBadPage
        | some p => if s.dev.pagesBusy [p] then .wait else .done none none { s with dev := s.dev.releasePage p }

/-- The physical line of an intermediate line in a domain's DOMAIN pages. -/
def Dev.domainLine (d : Dev) (dom iline : Nat) : Option Nat :=
  (d.pageAt dom 1 (iline / 64)).map fun p => 64 * p + iline % 64

/-- The bytes of lines under a KEYID, with the device that the reads leave. -/
def Dev.linesRead (d : Dev) (keyid : Nat) : List Nat → List Byte × Dev
  | [] => ([], d)
  | g :: gs =>
    let q := d.coreRead 511 g keyid
    let r := q.dev.linesRead keyid gs
    (lineBytes q.line ++ r.1, r.2)

/-- The i-th line of a report (R395), a function of the measurement and the caller's data (log entry 6). -/
def reportLine (m : Line) (bytes : List Byte) (i : Nat) : Line :=
  Config.sign (lineBytes m ++ bytes ++ [BitVec.ofNat 8 i])

/-- The report is written into its buffer, under the domain's key. -/
def Dev.writeReport (d : Dev) (m : Domain) (bytes : List Byte) (buf : List Nat) : Dev :=
  (List.range buf.length).foldl (fun d i =>
    let g := buf[i]?.getD 0
    if d.homedHere g then d.homeStore g 0 (lineBytes (reportLine m.measure bytes i)) m.key3 false none else d) d

/-- REPORT (R395): the caller's 64 bytes and the buffer lie in DOMAIN pages of the domain. -/
def execReport (g : Nat) (fn : BitVec 4) (e : SysEnc) (s : State) : Host.Outcome State Fault Refusal :=
  runSecall g fn e 0x08 true false s fun s b =>
    match s.ownDomain g with
    | none => .refuse stBadState
    | some (dom, m) =>
      let a := b.arg0.toNat
      let src := if a % 64 == 0 then [a / 64] else [a / 64, a / 64 + 1]
      let buf := (List.range 128).map fun i => b.arg1.toNat / 64 + i
      let srcL := src.filterMap (s.dev.domainLine dom)
      let bufL := buf.filterMap (s.dev.domainLine dom)
      if b.arg1.toNat % 4096 != 0 || srcL.length != src.length || bufL.length != 128 then .refuse stBadPage
      else if (srcL ++ bufL).any fun l => s.dev.lineBusy l then .wait
      else
        let r := s.dev.linesRead m.key3 srcL
        .done none none { s with dev := r.2.writeReport m ((r.1.drop (a % 64)).take 64) bufL }

/-- SHARE_REGS (R395): bits [31:1] of ARG0. -/
def execShareRegs (g : Nat) (fn : BitVec 4) (e : SysEnc) (s : State) : Host.Outcome State Fault Refusal :=
  runSecall g fn e 0x09 true false s fun s b =>
    match s.ownDomain g with
    | none => .refuse stBadState
    | some (dom, m) =>
      let m' := { m with shared := BitVec.ofNat 32 (2 * getF b.arg0 1 31) }
      .done none none { s with dev := s.dev.setDomain dom (some m') }

/-- EXIT's effect (R70, R395, R398): a sealed exit to H with code 0x0B; the vCPU goes on after the SECALL. -/
def State.exitDomain (s : State) (g : Nat) (d : Reg) : State :=
  let x := s.strand g
  s.enter g 2 .exception (x.pc + 4) (excCause 0x0B x.position) false none none .none (some d)

/-- EXIT (R395). -/
def execExit (g : Nat) (fn : BitVec 4) (e : SysEnc) (s : State) : Host.Outcome State Fault Refusal :=
  runSecall g fn e 0x0A true false s fun s _ =>
    if !(s.strand g).longOps.isEmpty then .wait else .moved (s.exitDomain g e.d)

/-! ### The end of a domain (R395, R396) -/

/-- DESTROY (R395). -/
def execDestroy (g : Nat) (fn : BitVec 4) (e : SysEnc) (s : State) : Host.Outcome State Fault Refusal :=
  runSecall g fn e 0x0B false false s fun s b =>
    let d := s.dev
    match d.domain b.dom with
    | none => .refuse stBadState
    | some m =>
      if m.vcpus.any fun v => v.running then .refuse stBadState
      else if d.pagesBusy (d.pagesOf b.dom [1, 2]) then .wait
      else .done none none ({ s with dev := d.destroyDomain b.dom }.forgetExits fun i => i == b.dom)

/-- RECLAIM's effect (R395). -/
def Dev.reclaimPages (d : Dev) (pages : List Nat) : Dev :=
  pages.foldl (fun d p => (d.zeroPage p 0).setPot p ⟨0, 0, 0, 0⟩) (d.takeAway pages)

/-- RECLAIM (R395). -/
def execReclaim (g : Nat) (fn : BitVec 4) (e : SysEnc) (s : State) : Host.Outcome State Fault Refusal :=
  runSecall g fn e 0x0C false false s fun s b =>
    let d := s.dev
    if badCount b.arg1 then .refuse stBadCommand
    else if !d.pagesIn b.arg0 b.arg1.toNat 3 then .refuse stBadPage
    else if d.pagesBusy (pageRun b.arg0 b.arg1.toNat) then .wait
    else .done none none { s with dev := d.reclaimPages (pageRun b.arg0 b.arg1.toNat) }

/-- QUERY's answer (R395). -/
def Dev.queryWord (d : Dev) (dom : Nat) : Word :=
  match d.domain dom with
  | none => 0
  | some m =>
    word ((if m.built then 2 else 1) + m.vcpus.length * 2 ^ 8
      + Nat.min (d.pagesOf dom [1, 2]).length (2 ^ 32 - 1) * 2 ^ 24)

/-- QUERY (R395). -/
def execQuery (g : Nat) (fn : BitVec 4) (e : SysEnc) (s : State) : Host.Outcome State Fault Refusal :=
  runSecall g fn e 0x0D false false s fun s b => .done (some (s.dev.queryWord b.dom)) none s

end Sys2Proof.Machine
end

