-- ==== Sys2Proof/Machine/Dispatch.lean ====
section
/-!
DEFINITION. The effect of each command on everything but the queue: one arm per constructor of Instr,
each a direct call of the command's meaning.
-/

namespace Sys2Proof.Machine

open Sys2Proof

def exec (i : Instr) (s : State) : Host.Outcome State Fault Refusal :=
  match i with
  | .registerWrite req off v => Sys2Proof.Machine.execRegisterWrite req off v s
  | .undefinedOffsetAccess req off write => Sys2Proof.Machine.execUndefinedOffsetAccess req off write s
  | .bootLock req v => Sys2Proof.Machine.execBootLock req v s
  | .warmSpare c => Sys2Proof.Machine.execWarmSpare c s
  | .stewardWatchdogRestart => Sys2Proof.Machine.execStewardWatchdogRestart s
  | .interruptEntry g => Sys2Proof.Machine.execInterruptEntry g s
  | .shadowClose g => Sys2Proof.Machine.execShadowClose g s
  | .timecmpReached g => Sys2Proof.Machine.execTimecmpReached g s
  | .longOpComplete g k => Sys2Proof.Machine.execLongOpComplete g k s
  | .modeDrainComplete c => Sys2Proof.Machine.execModeDrainComplete c s
  | .add g d a b => Sys2Proof.Machine.execAdd g d a b s
  | .sub g d a b => Sys2Proof.Machine.execSub g d a b s
  | .and g d a b => Sys2Proof.Machine.execAnd g d a b s
  | .or g d a b => Sys2Proof.Machine.execOr g d a b s
  | .xor g d a b => Sys2Proof.Machine.execXor g d a b s
  | .andn g d a b => Sys2Proof.Machine.execAndn g d a b s
  | .shl g d a b => Sys2Proof.Machine.execShl g d a b s
  | .shr g d a b => Sys2Proof.Machine.execShr g d a b s
  | .sar g d a b => Sys2Proof.Machine.execSar g d a b s
  | .ror g d a b => Sys2Proof.Machine.execRor g d a b s
  | .slt g d a b => Sys2Proof.Machine.execSlt g d a b s
  | .sltu g d a b => Sys2Proof.Machine.execSltu g d a b s
  | .seq g d a b => Sys2Proof.Machine.execSeq g d a b s
  | .min g d a b => Sys2Proof.Machine.execMin g d a b s
  | .max g d a b => Sys2Proof.Machine.execMax g d a b s
  | .minu g d a b => Sys2Proof.Machine.execMinu g d a b s
  | .maxu g d a b => Sys2Proof.Machine.execMaxu g d a b s
  | .clz g d a b => Sys2Proof.Machine.execClz g d a b s
  | .ctz g d a b => Sys2Proof.Machine.execCtz g d a b s
  | .popc g d a b => Sys2Proof.Machine.execPopc g d a b s
  | .bswap g d a b => Sys2Proof.Machine.execBswap g d a b s
  | .addw g d a b => Sys2Proof.Machine.execAddw g d a b s
  | .subw g d a b => Sys2Proof.Machine.execSubw g d a b s
  | .sextb g d a b => Sys2Proof.Machine.execSextb g d a b s
  | .sexth g d a b => Sys2Proof.Machine.execSexth g d a b s
  | .sextw g d a b => Sys2Proof.Machine.execSextw g d a b s
  | .zextw g d a b => Sys2Proof.Machine.execZextw g d a b s
  | .addi g d a imm => Sys2Proof.Machine.execAddi g d a imm s
  | .andi g d a imm => Sys2Proof.Machine.execAndi g d a imm s
  | .ori g d a imm => Sys2Proof.Machine.execOri g d a imm s
  | .xori g d a imm => Sys2Proof.Machine.execXori g d a imm s
  | .slti g d a imm => Sys2Proof.Machine.execSlti g d a imm s
  | .sltiu g d a imm => Sys2Proof.Machine.execSltiu g d a imm s
  | .shli g d a hi sh => Sys2Proof.Machine.execShli g d a hi sh s
  | .shri g d a hi sh => Sys2Proof.Machine.execShri g d a hi sh s
  | .sari g d a hi sh => Sys2Proof.Machine.execSari g d a hi sh s
  | .rori g d a hi sh => Sys2Proof.Machine.execRori g d a hi sh s
  | .lui g d a imm => Sys2Proof.Machine.execLui g d a imm s
  | .hins g d a imm => Sys2Proof.Machine.execHins g d a imm s
  | .apc g d a imm => Sys2Proof.Machine.execApc g d a imm s
  | .mul g d a b => Sys2Proof.Machine.execMul g d a b s
  | .mulh g d a b => Sys2Proof.Machine.execMulh g d a b s
  | .mulhu g d a b => Sys2Proof.Machine.execMulhu g d a b s
  | .mulw g d a b => Sys2Proof.Machine.execMulw g d a b s
  | .div g d a b => Sys2Proof.Machine.execDiv g d a b s
  | .divu g d a b => Sys2Proof.Machine.execDivu g d a b s
  | .rem g d a b => Sys2Proof.Machine.execRem g d a b s
  | .remu g d a b => Sys2Proof.Machine.execRemu g d a b s
  | .beq g A H a disp => Sys2Proof.Machine.execBeq g A H a disp s
  | .bne g A H a disp => Sys2Proof.Machine.execBne g A H a disp s
  | .blt g A H a disp => Sys2Proof.Machine.execBlt g A H a disp s
  | .bge g A H a disp => Sys2Proof.Machine.execBge g A H a disp s
  | .ble g A H a disp => Sys2Proof.Machine.execBle g A H a disp s
  | .bgt g A H a disp => Sys2Proof.Machine.execBgt g A H a disp s
  | .bceq g A H a b disp => Sys2Proof.Machine.execBceq g A H a b disp s
  | .bcne g A H a b disp => Sys2Proof.Machine.execBcne g A H a b disp s
  | .bclt g A H a b disp => Sys2Proof.Machine.execBclt g A H a b disp s
  | .bcge g A H a b disp => Sys2Proof.Machine.execBcge g A H a b disp s
  | .bcltu g A H a b disp => Sys2Proof.Machine.execBcltu g A H a b disp s
  | .bcgeu g A H a b disp => Sys2Proof.Machine.execBcgeu g A H a b disp s
  | .j g A disp => Sys2Proof.Machine.execJ g A disp s
  | .call g A disp => Sys2Proof.Machine.execCall g A disp s
  | .jr g A z d a b => Sys2Proof.Machine.execJr g A z d a b s
  | .callr g A z d a b => Sys2Proof.Machine.execCallr g A z d a b s
  | .ret g A z d a b => Sys2Proof.Machine.execRet g A z d a b s
  | .fadd g d a b => Sys2Proof.Machine.execFadd g d a b s
  | .fsub g d a b => Sys2Proof.Machine.execFsub g d a b s
  | .fmul g d a b => Sys2Proof.Machine.execFmul g d a b s
  | .fdiv g d a b => Sys2Proof.Machine.execFdiv g d a b s
  | .fsqrt g d a b => Sys2Proof.Machine.execFsqrt g d a b s
  | .fma g d a b => Sys2Proof.Machine.execFma g d a b s
  | .fmin g d a b => Sys2Proof.Machine.execFmin g d a b s
  | .fmax g d a b => Sys2Proof.Machine.execFmax g d a b s
  | .fabs g d a b => Sys2Proof.Machine.execFabs g d a b s
  | .fneg g d a b => Sys2Proof.Machine.execFneg g d a b s
  | .feq g d a b => Sys2Proof.Machine.execFeq g d a b s
  | .flt g d a b => Sys2Proof.Machine.execFlt g d a b s
  | .fle g d a b => Sys2Proof.Machine.execFle g d a b s
  | .fcvtLD g d a b => Sys2Proof.Machine.execFcvtLD g d a b s
  | .fcvtLuD g d a b => Sys2Proof.Machine.execFcvtLuD g d a b s
  | .fcvtDL g d a b => Sys2Proof.Machine.execFcvtDL g d a b s
  | .fcvtDLu g d a b => Sys2Proof.Machine.execFcvtDLu g d a b s
  | .fcvtSD g d a b => Sys2Proof.Machine.execFcvtSD g d a b s
  | .fcvtDS g d a b => Sys2Proof.Machine.execFcvtDS g d a b s
  | .fmvN g d a b => Sys2Proof.Machine.execFmvN g d a b s
  | .fmvV g d a b => Sys2Proof.Machine.execFmvV g d a b s
  | .vadd g w d a b => Sys2Proof.Machine.execVadd g w d a b s
  | .vsub g w d a b => Sys2Proof.Machine.execVsub g w d a b s
  | .vand g w d a b => Sys2Proof.Machine.execVand g w d a b s
  | .vor g w d a b => Sys2Proof.Machine.execVor g w d a b s
  | .vxor g w d a b => Sys2Proof.Machine.execVxor g w d a b s
  | .vandn g w d a b => Sys2Proof.Machine.execVandn g w d a b s
  | .vmin g w d a b => Sys2Proof.Machine.execVmin g w d a b s
  | .vmax g w d a b => Sys2Proof.Machine.execVmax g w d a b s
  | .vminu g w d a b => Sys2Proof.Machine.execVminu g w d a b s
  | .vmaxu g w d a b => Sys2Proof.Machine.execVmaxu g w d a b s
  | .vshl g w d a b => Sys2Proof.Machine.execVshl g w d a b s
  | .vshr g w d a b => Sys2Proof.Machine.execVshr g w d a b s
  | .vsar g w d a b => Sys2Proof.Machine.execVsar g w d a b s
  | .vsplat g w d a b => Sys2Proof.Machine.execVsplat g w d a b s
  | .vext g w d a b => Sys2Proof.Machine.execVext g w d a b s
  | .vins g w d a b => Sys2Proof.Machine.execVins g w d a b s
  | .vcmpeq g w d a b => Sys2Proof.Machine.execVcmpeq g w d a b s
  | .vcmplt g w d a b => Sys2Proof.Machine.execVcmplt g w d a b s
  | .vcmpltu g w d a b => Sys2Proof.Machine.execVcmpltu g w d a b s
  | .vsel g w d a b => Sys2Proof.Machine.execVsel g w d a b s
  | .vcompress g w d a b => Sys2Proof.Machine.execVcompress g w d a b s
  | .vgather g w d a b => Sys2Proof.Machine.execVgather g w d a b s
  | .vcrc32c g w k d a b => Sys2Proof.Machine.execVcrc32c g w k d a b s
  | .vcrc64 g w k d a b => Sys2Proof.Machine.execVcrc64 g w k d a b s
  | .vhmix g w d a b => Sys2Proof.Machine.execVhmix g w d a b s
  | .vhfold g w d a b => Sys2Proof.Machine.execVhfold g w d a b s
  | .lb g t base imm => Sys2Proof.Machine.execLb g t base imm s
  | .lbu g t base imm => Sys2Proof.Machine.execLbu g t base imm s
  | .lh g t base imm => Sys2Proof.Machine.execLh g t base imm s
  | .lhu g t base imm => Sys2Proof.Machine.execLhu g t base imm s
  | .lw g t base imm => Sys2Proof.Machine.execLw g t base imm s
  | .lwu g t base imm => Sys2Proof.Machine.execLwu g t base imm s
  | .ld g t base imm => Sys2Proof.Machine.execLd g t base imm s
  | .ldf g t base imm => Sys2Proof.Machine.execLdf g t base imm s
  | .ldv g t base imm => Sys2Proof.Machine.execLdv g t base imm s
  | .sb g t base imm => Sys2Proof.Machine.execSb g t base imm s
  | .sh g t base imm => Sys2Proof.Machine.execSh g t base imm s
  | .sw g t base imm => Sys2Proof.Machine.execSw g t base imm s
  | .sd g t base imm => Sys2Proof.Machine.execSd g t base imm s
  | .stf g t base imm => Sys2Proof.Machine.execStf g t base imm s
  | .stv g t base imm => Sys2Proof.Machine.execStv g t base imm s
  | .storeBufferEntryLeave g => Sys2Proof.Machine.execStoreBufferEntryLeave g s
  | .lda g z e => Sys2Proof.Machine.execLda g z e s
  | .sta g z e => Sys2Proof.Machine.execSta g z e s
  | .aadd g z e => Sys2Proof.Machine.execAadd g z e s
  | .aswap g z e => Sys2Proof.Machine.execAswap g z e s
  | .acas g z e => Sys2Proof.Machine.execAcas g z e s
  | .aand g z e => Sys2Proof.Machine.execAand g z e s
  | .aor g z e => Sys2Proof.Machine.execAor g z e s
  | .amin g z e => Sys2Proof.Machine.execAmin g z e s
  | .amax g z e => Sys2Proof.Machine.execAmax g z e s
  | .aminu g z e => Sys2Proof.Machine.execAminu g z e s
  | .amaxu g z e => Sys2Proof.Machine.execAmaxu g z e s
  | .fenceLl g e => Sys2Proof.Machine.execFenceLl g e s
  | .fenceSs g e => Sys2Proof.Machine.execFenceSs g e s
  | .fenceAll g e => Sys2Proof.Machine.execFenceAll g e s
  | .codesync g z e => Sys2Proof.Machine.execCodesync g z e s
  | .stash g z e => Sys2Proof.Machine.execStash g z e s
  | .cflush g z e => Sys2Proof.Machine.execCflush g z e s
  | .cinvAll g z e => Sys2Proof.Machine.execCinvAll g z e s
  | .pwb g z e => Sys2Proof.Machine.execPwb g z e s
  | .psync g z e => Sys2Proof.Machine.execPsync g z e s
  | .pstntD g e => Sys2Proof.Machine.execPstntD g e s
  | .pstntV g e => Sys2Proof.Machine.execPstntV g e s
  | .pstntSend g => Sys2Proof.Machine.execPstntSend g s
  | .tinvVa g z e => Sys2Proof.Machine.execTinvVa g z e s
  | .tinvAsid g z e => Sys2Proof.Machine.execTinvAsid g z e s
  | .tinvAll g z e => Sys2Proof.Machine.execTinvAll g z e s
  | .tinvIpa g z e => Sys2Proof.Machine.execTinvIpa g z e s
  | .tinvVmid g z e => Sys2Proof.Machine.execTinvVmid g z e s
  | .tinvHAll g z e => Sys2Proof.Machine.execTinvHAll g z e s
  | .tsync g z e => Sys2Proof.Machine.execTsync g z e s
  | .tsyncComplete g => Sys2Proof.Machine.execTsyncComplete g s
  | .btbflush g z e => Sys2Proof.Machine.execBtbflush g z e s
  | .mfsr g e => Sys2Proof.Machine.execMfsr g e s
  | .mtsr g e => Sys2Proof.Machine.execMtsr g e s
  | .eret g e => Sys2Proof.Machine.execEret g e s
  | .sys g e => Sys2Proof.Machine.execSys g e s
  | .hcall g e => Sys2Proof.Machine.execHcall g e s
  | .brk g e => Sys2Proof.Machine.execBrk g e s
  | .wait g e => Sys2Proof.Machine.execWait g e s
  | .waitWake g => Sys2Proof.Machine.execWaitWake g s
  | .park g e => Sys2Proof.Machine.execPark g e s
  | .secallBusy g fn e => Sys2Proof.Machine.execSecallBusy g fn e s
  | .create g fn e => Sys2Proof.Machine.execCreate g fn e s
  | .addPage g fn e => Sys2Proof.Machine.execAddPage g fn e s
  | .addZero g fn e => Sys2Proof.Machine.execAddZero g fn e s
  | .sealDomain g fn e => Sys2Proof.Machine.execSealDomain g fn e s
  | .enter g fn e => Sys2Proof.Machine.execEnter g fn e s
  | .accept g fn e => Sys2Proof.Machine.execAccept g fn e s
  | .release g fn e => Sys2Proof.Machine.execRelease g fn e s
  | .report g fn e => Sys2Proof.Machine.execReport g fn e s
  | .shareRegs g fn e => Sys2Proof.Machine.execShareRegs g fn e s
  | .exit g fn e => Sys2Proof.Machine.execExit g fn e s
  | .destroy g fn e => Sys2Proof.Machine.execDestroy g fn e s
  | .reclaim g fn e => Sys2Proof.Machine.execReclaim g fn e s
  | .query g fn e => Sys2Proof.Machine.execQuery g fn e s
  | .refillInstall req idx v => Sys2Proof.Machine.execRefillInstall req idx v s
  | .ioiqEnable req v => Sys2Proof.Machine.execIoiqEnable req v s
  | .invDt => Sys2Proof.Machine.execInvDt s
  | .invRid => Sys2Proof.Machine.execInvRid s
  | .invVa => Sys2Proof.Machine.execInvVa s
  | .invIpa => Sys2Proof.Machine.execInvIpa s
  | .invVmid => Sys2Proof.Machine.execInvVmid s
  | .invAll => Sys2Proof.Machine.execInvAll s
  | .ioiqWait => Sys2Proof.Machine.execIoiqWait s
  | .cacheEnable req t u v => Sys2Proof.Machine.execCacheEnable req t u v s
  | .cacheDisable req t u v => Sys2Proof.Machine.execCacheDisable req t u v s
  | .disableComplete t x => Sys2Proof.Machine.execDisableComplete t x s
  | .rds g src u m => Sys2Proof.Machine.execRds g src u m s
  | .rdx g src m => Sys2Proof.Machine.execRdx g src m s
  | .upg g src => Sys2Proof.Machine.execUpg g src s
  | .stashRequest g src target mask bytes => Sys2Proof.Machine.execStashRequest g src target mask bytes s
  | .farAtomicRequest g src op dbl off operand expected => Sys2Proof.Machine.execFarAtomicRequest g src op dbl off operand expected s
  | .wbm g src seq k bytes poison => Sys2Proof.Machine.execWbm g src seq k bytes poison s
  | .evc g src bytes poison => Sys2Proof.Machine.execEvc g src bytes poison s
  | .fwds c g requester u m => Sys2Proof.Machine.execFwds c g requester u m s
  | .fwdx c g requester rcl => Sys2Proof.Machine.execFwdx c g requester rcl s
  | .inv c g => Sys2Proof.Machine.execInv c g s
  | .ackFwd g src ghost d => Sys2Proof.Machine.execAckFwd g src ghost d s
  | .ackInv g src => Sys2Proof.Machine.execAckInv g src s
  | .ackGrant c g st seq => Sys2Proof.Machine.execAckGrant c g st seq s
  | .ackWb c g p => Sys2Proof.Machine.execAckWb c g p s
  | .ackDone g src => Sys2Proof.Machine.execAckDone g src s
  | .ackHint g src => Sys2Proof.Machine.execAckHint g src s
  | .absent g src => Sys2Proof.Machine.execAbsent g src s
  | .data dst src g bytes d p t => Sys2Proof.Machine.execData dst src g bytes d p t s
  | .retry c g => Sys2Proof.Machine.execRetry c g s
  | .requestResend c g => Sys2Proof.Machine.execRequestResend c g s
  | .forwardTimeout g dst => Sys2Proof.Machine.execForwardTimeout g dst s
  | .socketRemoval d => Sys2Proof.Machine.execSocketRemoval d s
  | .frameTick => Sys2Proof.Machine.execFrameTick s
  | .chainTickPulse off => Sys2Proof.Machine.execChainTickPulse off s
  | .tickLoss => Sys2Proof.Machine.execTickLoss s
  | .resyncStart => Sys2Proof.Machine.execResyncStart s
  | .resyncReq req v => Sys2Proof.Machine.execResyncReq req v s
  | .resyncTimeout => Sys2Proof.Machine.execResyncTimeout s
  | .taskAbandon task => Sys2Proof.Machine.execTaskAbandon task s
  | .creditRequest n c prio => Sys2Proof.Machine.execCreditRequest n c prio s
  | .intakeAccept n => Sys2Proof.Machine.execIntakeAccept n s
  | .intakeMediaWrite n => Sys2Proof.Machine.execIntakeMediaWrite n s
  | .epochClosed => Sys2Proof.Machine.execEpochClosed s
  | .persistWriteFailed n g => Sys2Proof.Machine.execPersistWriteFailed n g s
  | .wearMove n granule => Sys2Proof.Machine.execWearMove n granule s
  | .wearMoveSwitch n => Sys2Proof.Machine.execWearMoveSwitch n s
  | .governorMinute n => Sys2Proof.Machine.execGovernorMinute n s
  | .pwrfail => Sys2Proof.Machine.execPwrfail s
  | .powerFail => Sys2Proof.Machine.execPowerFail s
  | .brownout r => Sys2Proof.Machine.execBrownout r s
  | .drainTest req v => Sys2Proof.Machine.execDrainTest req v s
  | .strandHalt g => Sys2Proof.Machine.execStrandHalt g s
  | .peatDone src => Sys2Proof.Machine.execPeatDone src s
  | .dramDone src => Sys2Proof.Machine.execDramDone src s
  | .p2Deadline => Sys2Proof.Machine.execP2Deadline s
  | .canaryWrite n => Sys2Proof.Machine.execCanaryWrite n s
  | .retainAssert => Sys2Proof.Machine.execRetainAssert s
  | .retainHeldClear => Sys2Proof.Machine.execRetainHeldClear s
  | .ledgerDrainStop => Sys2Proof.Machine.execLedgerDrainStop s
  | .drainReportWrite => Sys2Proof.Machine.execDrainReportWrite s
  | .drainComplete => Sys2Proof.Machine.execDrainComplete s
  | .powerUp p => Sys2Proof.Machine.execPowerUp p s
  | .strandRestore req v => Sys2Proof.Machine.execStrandRestore req v s
  | .imagesRelease req v => Sys2Proof.Machine.execImagesRelease req v s
  | .blockInit b => Sys2Proof.Machine.execBlockInit b s
  | .pwrgoodFall => Sys2Proof.Machine.execPwrgoodFall s
  | .memoryRead g group keyid chk => Sys2Proof.Machine.execMemoryRead g group keyid chk s
  | .memoryWrite g group keyid bytes poison => Sys2Proof.Machine.execMemoryWrite g group keyid bytes poison s
  | .refresh n => Sys2Proof.Machine.execRefresh n s
  | .retrainingPause n => Sys2Proof.Machine.execRetrainingPause n s
  | .dimmThermalRead n temp => Sys2Proof.Machine.execDimmThermalRead n temp s
  | .coefficientStore n coeff => Sys2Proof.Machine.execCoefficientStore n coeff s
  | .retrainGo req n v => Sys2Proof.Machine.execRetrainGo req n v s
  | .neighbourRefresh n bank row => Sys2Proof.Machine.execNeighbourRefresh n bank row s
  | .rowguardTableClear n => Sys2Proof.Machine.execRowguardTableClear n s
  | .rowguardRelease req n v => Sys2Proof.Machine.execRowguardRelease req n v s
  | .patrolScrub n chk => Sys2Proof.Machine.execPatrolScrub n chk s
  | .scrubRewrite req n v => Sys2Proof.Machine.execScrubRewrite req n v s
  | .scrubSkip req n v => Sys2Proof.Machine.execScrubSkip req n v s
  | .evacStart req v => Sys2Proof.Machine.execEvacStart req v s
  | .evacSwitch => Sys2Proof.Machine.execEvacSwitch s
  | .evacBackgroundMove chk => Sys2Proof.Machine.execEvacBackgroundMove chk s
  | .evacComplete => Sys2Proof.Machine.execEvacComplete s
  | .channelRetire => Sys2Proof.Machine.execChannelRetire s
  | .bucketDecay => Sys2Proof.Machine.execBucketDecay s
  | .confirmationTest kind inst o => Sys2Proof.Machine.execConfirmationTest kind inst o s
  | .routeRecompute l => Sys2Proof.Machine.execRouteRecompute l s
  | .errEventTimeout => Sys2Proof.Machine.execErrEventTimeout s
  | .coreTransplant c unreadable => Sys2Proof.Machine.execCoreTransplant c unreadable s
  | .sourceCoreTest c faulty => Sys2Proof.Machine.execSourceCoreTest c faulty s
  | .xplantGo req v => Sys2Proof.Machine.execXplantGo req v s
  | .p2Go => Sys2Proof.Machine.execP2Go s
  | .p3Go => Sys2Proof.Machine.execP3Go s
  | .p4Go => Sys2Proof.Machine.execP4Go s
  | .drainStepTimeout phase => Sys2Proof.Machine.execDrainStepTimeout phase s
  | .errTailWrite req v => Sys2Proof.Machine.execErrTailWrite req v s
  | .injectionArm req grp v => Sys2Proof.Machine.execInjectionArm req grp v s
  | .sliceTest e finding => Sys2Proof.Machine.execSliceTest e finding s
  | .sliceGo req e v => Sys2Proof.Machine.execSliceGo req e v s
  | .sliceRepair req e v => Sys2Proof.Machine.execSliceRepair req e v s
  | .sliceSkip req e v => Sys2Proof.Machine.execSliceSkip req e v s
  | .mbClaim req stw => Sys2Proof.Machine.execMbClaim req stw s
  | .mbRelease req stw v => Sys2Proof.Machine.execMbRelease req stw v s
  | .mbClaimLapse stw => Sys2Proof.Machine.execMbClaimLapse stw s
  | .keyGenerate => Sys2Proof.Machine.execKeyGenerate s
  | .keyClear => Sys2Proof.Machine.execKeyClear s
  | .rollbackCommit => Sys2Proof.Machine.execRollbackCommit s
  | .fuseSession bad => Sys2Proof.Machine.execFuseSession bad s
  | .debugNonce => Sys2Proof.Machine.execDebugNonce s
  | .debugUnlock tokenOk => Sys2Proof.Machine.execDebugUnlock tokenOk s
  | .linkSecretGen => Sys2Proof.Machine.execLinkSecretGen s
  | .ideKeySet => Sys2Proof.Machine.execIdeKeySet s
  | .getVersion ch => Sys2Proof.Machine.execGetVersion ch s
  | .getCapabilities ch => Sys2Proof.Machine.execGetCapabilities ch s
  | .negotiateAlgorithms ch offersBoth => Sys2Proof.Machine.execNegotiateAlgorithms ch offersBoth s
  | .getDigests ch => Sys2Proof.Machine.execGetDigests ch s
  | .getCertificate ch slot => Sys2Proof.Machine.execGetCertificate ch slot s
  | .challenge ch slot nonce => Sys2Proof.Machine.execChallenge ch slot nonce s
  | .getMeasurements ch block signed => Sys2Proof.Machine.execGetMeasurements ch block signed s
  | .linkRekey n => Sys2Proof.Machine.execLinkRekey n s
  | .dmaRead q len => Sys2Proof.Machine.execDmaRead q len s
  | .dmaWrite q bytes th poisoned => Sys2Proof.Machine.execDmaWrite q bytes th poisoned s
  | .atomicop q op size operand expected => Sys2Proof.Machine.execAtomicop q op size operand expected s
  | .completionTimeout pt => Sys2Proof.Machine.execCompletionTimeout pt s
  | .surpriseDown pt => Sys2Proof.Machine.execSurpriseDown pt s
  | .dpcTrigger pt => Sys2Proof.Machine.execDpcTrigger pt s
  | .dpcRelease pt partner => Sys2Proof.Machine.execDpcRelease pt partner s
  | .slotSample pt idx => Sys2Proof.Machine.execSlotSample pt idx s
  | .slotControlWrite pt v => Sys2Proof.Machine.execSlotControlWrite pt v s
  | .kportRetireGo req pt v => Sys2Proof.Machine.execKportRetireGo req pt v s
  | .sscApply n => Sys2Proof.Machine.execSscApply n s
  | .portIdle pt => Sys2Proof.Machine.execPortIdle pt s
  | .sqDoorbell q v => Sys2Proof.Machine.execSqDoorbell q v s
  | .descriptorFetch q => Sys2Proof.Machine.execDescriptorFetch q s
  | .copy q sq => Sys2Proof.Machine.execCopy q sq s
  | .fill q sq => Sys2Proof.Machine.execFill q sq s
  | .append q sq => Sys2Proof.Machine.execAppend q sq s
  | .digest q sq => Sys2Proof.Machine.execDigest q sq s
  | .encrypt q sq => Sys2Proof.Machine.execEncrypt q sq s
  | .compare q sq => Sys2Proof.Machine.execCompare q sq s
  | .stashcopy q sq => Sys2Proof.Machine.execStashcopy q sq s
  | .completionWrite q sq => Sys2Proof.Machine.execCompletionWrite q sq s
  | .queueEnable q v => Sys2Proof.Machine.execQueueEnable q v s
  | .qpAssign q v => Sys2Proof.Machine.execQpAssign q v s
  | .streamEnable st v => Sys2Proof.Machine.execStreamEnable st v s
  | .streamDisable st v => Sys2Proof.Machine.execStreamDisable st v s
  | .flr f => Sys2Proof.Machine.execFlr f s
  | .d3hotEntry f => Sys2Proof.Machine.execD3hotEntry f s
  | .vfEnable on numVfs => Sys2Proof.Machine.execVfEnable on numVfs s
  | .busMasterEnable f on => Sys2Proof.Machine.execBusMasterEnable f on s
  | .quiesceComplete f => Sys2Proof.Machine.execQuiesceComplete f s
  | .dlogGen v x => Sys2Proof.Machine.execDlogGen v x s
  | .dlogGenAck v => Sys2Proof.Machine.execDlogGenAck v s
  | .dlogRingHeadWrite v x => Sys2Proof.Machine.execDlogRingHeadWrite v x s
  | .enum v overflow => Sys2Proof.Machine.execEnum v overflow s
  | .enumRetry => Sys2Proof.Machine.execEnumRetry s
  | .ping => Sys2Proof.Machine.execPing s
  | .echo roundTrip => Sys2Proof.Machine.execEcho roundTrip s
  | .delay h dUp => Sys2Proof.Machine.execDelay h dUp s
  | .comp c => Sys2Proof.Machine.execComp c s
  | .frameStart f => Sys2Proof.Machine.execFrameStart f s
  | .resyncReport src f => Sys2Proof.Machine.execResyncReport src f s
  | .resyncSet n => Sys2Proof.Machine.execResyncSet n s
  | .check mask => Sys2Proof.Machine.execCheck mask s
  | .ringCloseCheck answers newSocket => Sys2Proof.Machine.execRingCloseCheck answers newSocket s
  | .chainMessageReturn ok => Sys2Proof.Machine.execChainMessageReturn ok s
  | .chainBreak => Sys2Proof.Machine.execChainBreak s
  | .ready m => Sys2Proof.Machine.execReady m s
  | .abort m => Sys2Proof.Machine.execAbort m s
  | .arm m => Sys2Proof.Machine.execArm m s
  | .armed m => Sys2Proof.Machine.execArmed m s
  | .confirm m => Sys2Proof.Machine.execConfirm m s
  | .activated m => Sys2Proof.Machine.execActivated m s
  | .notActivated m => Sys2Proof.Machine.execNotActivated m s
  | .sorusData off total bytes => Sys2Proof.Machine.execSorusData off total bytes s
  | .linkMap src links => Sys2Proof.Machine.execLinkMap src links s
  | .mapExchange src ecamBase digest => Sys2Proof.Machine.execMapExchange src ecamBase digest s
  | .seMsg src payload => Sys2Proof.Machine.execSeMsg src payload s
  | .stewardMsg src payload => Sys2Proof.Machine.execStewardMsg src payload s
  | .flitReceive n crcOk tagOk lane fecCorrected => Sys2Proof.Machine.execFlitReceive n crcOk tagOk lane fecCorrected s
  | .linkTraining n o => Sys2Proof.Machine.execLinkTraining n o s
  | .linkBlockLockLoss n => Sys2Proof.Machine.execLinkBlockLockLoss n s
  | .flRetireGo req n v => Sys2Proof.Machine.execFlRetireGo req n v s
  | .interruptMessage rid addr size x => Sys2Proof.Machine.execInterruptMessage rid addr size x s
  | .irSend req v => Sys2Proof.Machine.execIrSend req v s
  | .irWake req v => Sys2Proof.Machine.execIrWake req v s
  | .irInv req v => Sys2Proof.Machine.execIrInv req v s
  | .bind req idx v => Sys2Proof.Machine.execBind req idx v s
  | .unbind req idx v => Sys2Proof.Machine.execUnbind req idx v s
  | .socketEvent e => Sys2Proof.Machine.execSocketEvent e s
  | .refclkLoss => Sys2Proof.Machine.execRefclkLoss s
  | .pllSettle p => Sys2Proof.Machine.execPllSettle p s
  | .tileRatioWrite req t v => Sys2Proof.Machine.execTileRatioWrite req t v s
  | .vidAck f mv => Sys2Proof.Machine.execVidAck f mv s
  | .vidTimeout f => Sys2Proof.Machine.execVidTimeout f s
  | .powerThrottle watts => Sys2Proof.Machine.execPowerThrottle watts s
  | .thermalThrottle t temp => Sys2Proof.Machine.execThermalThrottle t temp s
  | .deepParkEntry c => Sys2Proof.Machine.execDeepParkEntry c s
  | .coldResetPin => Sys2Proof.Machine.execColdResetPin s
  | .coldReset req v => Sys2Proof.Machine.execColdReset req v s
  | .warmReset req v => Sys2Proof.Machine.execWarmReset req v s
  | .strandReset req v => Sys2Proof.Machine.execStrandReset req v s
  | .thermtrip => Sys2Proof.Machine.execThermtrip s
  | .overtempClockStop => Sys2Proof.Machine.execOvertempClockStop s
  | .entdaa addr => Sys2Proof.Machine.execEntdaa addr s
  | .setdasa static addr => Sys2Proof.Machine.execSetdasa static addr s
  | .setEndpointId eid => Sys2Proof.Machine.execSetEndpointId eid s
  | .getEndpointId => Sys2Proof.Machine.execGetEndpointId s
  | .getMctpVersionSupport => Sys2Proof.Machine.execGetMctpVersionSupport s
  | .getMessageTypeSupport => Sys2Proof.Machine.execGetMessageTypeSupport s
  | .eventMessageTimeout => Sys2Proof.Machine.execEventMessageTimeout s
  | .smbQueueTimeout => Sys2Proof.Machine.execSmbQueueTimeout s
  | .getInfo ch => Sys2Proof.Machine.execGetInfo ch s
  | .cfgRead ch key => Sys2Proof.Machine.execCfgRead ch key s
  | .cfgWrite ch key value => Sys2Proof.Machine.execCfgWrite ch key value s
  | .cfgDefaults ch => Sys2Proof.Machine.execCfgDefaults ch s
  | .errRead ch first count => Sys2Proof.Machine.execErrRead ch first count s
  | .tlmRead ch first count => Sys2Proof.Machine.execTlmRead ch first count s
  | .reset ch kind key => Sys2Proof.Machine.execReset ch kind key s
  | .repairClear ch idx => Sys2Proof.Machine.execRepairClear ch idx s
  | .sorusChunk ch off total last start rebuild bytes => Sys2Proof.Machine.execSorusChunk ch off total last start rebuild bytes s
  | .updateStart ch verdict => Sys2Proof.Machine.execUpdateStart ch verdict s
  | .updateStatus ch => Sys2Proof.Machine.execUpdateStatus ch s
  | .updateAbort ch => Sys2Proof.Machine.execUpdateAbort ch s
  | .updateDeadline => Sys2Proof.Machine.execUpdateDeadline s
  | .confirmSend => Sys2Proof.Machine.execConfirmSend s
  | .activationSwitch => Sys2Proof.Machine.execActivationSwitch s
  | .firmwareOverwrite component unit ok => Sys2Proof.Machine.execFirmwareOverwrite component unit ok s
  | .illegalInstruction g w => Sys2Proof.Machine.execIllegalInstruction g w s
  | .pwrfailNRise p => Sys2Proof.Machine.execPwrfailNRise p s
  | .refclkReturn => Sys2Proof.Machine.execRefclkReturn s
  | .pcieLinkUp pt => Sys2Proof.Machine.execPcieLinkUp pt s
  | .portCompletion pt x => Sys2Proof.Machine.execPortCompletion pt x s
  | .seHalt => Sys2Proof.Machine.execSeHalt s
  | .randomHealthTest failing => Sys2Proof.Machine.execRandomHealthTest failing s
  | .stewardAcknowledge => Sys2Proof.Machine.execStewardAcknowledge s

end Sys2Proof.Machine
end

