-- ==== Sys2Proof/Safety.lean ====
section
/-!
DEFINITION. What a safe run of the block is, and the terms in which the claims speak of commands: the strand that is
ready to execute an instruction, the state in which it executes it, and what a command gives.
-/

namespace Sys2Proof

open Machine

/-- A command is safe in a state when it neither faults nor is refused there. -/
def Safe (c : Instr) (s : State) : Prop := ∃ t, exec c s = .next t

/-- The step runs to a next state. -/
def StepSafe (s : State) : Prop := ∃ t, step s = .next t

/-- The command gives exactly this next state. -/
def Gives (c : Instr) (s t : State) : Prop := exec c s = .next t

/-- The command gives a next state of which a property holds. -/
def GivesSome (c : Instr) (s : State) (P : State → Prop) : Prop := ∃ t, exec c s = .next t ∧ P t

/-- The command changes the device alone, into this one. -/
def Makes (c : Instr) (s : State) (d : Dev) : Prop := exec c s = .next { s with dev := d }

/-- The command changes the device alone, into one of which a property holds. -/
def MakesSome (c : Instr) (s : State) (P : Dev → Prop) : Prop := ∃ d, Makes c s d ∧ P d

/-- The device that a fetch leaves. -/
def fetchDev : FetchR → Dev
  | .ok d => d
  | .exc _ d => d

/-- The fetch brings the word. -/
def fetchOk : FetchR → Bool
  | .ok _ => true
  | .exc _ _ => false

/-- The state of strand g's next instruction boundary: a mode shadow whose five positions are over is closed (R80). -/
def settled (s : State) (g : Nat) : State := if (s.strand g).shadowDue then s.closeShadow g else s

/-- The state in which strand g executes the instruction at its PC, which it has fetched. -/
def begun (s : State) (g : Nat) : State := { settled s g with dev := fetchDev ((settled s g).fetch g) }

/-- Whether an instruction passes the checks of R64 that precede its execution, and no long operation in flight writes a
register that it names. -/
def passes (x : Strand) (n : Insn) : Bool :=
  n.legal && !(n.transfer && x.slot.isSome) && n.allowed && !(n.modeWrite && x.shadow.isSome) && !(n.vec && !x.vec)
    && !x.waitsFor n.regs

/-- Strand g is ready to execute an instruction: the socket keeps its clock relations (R489); the strand is neither parked,
waiting, halted nor held; the word at its PC is fetched without an exception; the instruction passes its checks. -/
def ready (s : State) (g : Nat) (n : Insn) : Bool :=
  strandOk g && s.dev.clocksOk && s.mayIssue g && !((settled s g).dev.pm (g / 2)).draining
    && fetchOk ((settled s g).fetch g) && passes ((settled s g).strand g) n

/-- The device but for its register space: what a change of registers alone leaves. -/
def bare (d : Dev) : Dev := { d with regs := [] }

/-- The device but for its register space and its branch target buffers. -/
def bareOfBtb (d : Dev) : Dev :=
  { d with
    regs := []
    btb := [] }

/-- Where a strand goes on when its instruction retires (R72, R77): the next instruction, or, after an executed slot,
where its transfer leads. -/
def retired (x : Strand) : Strand :=
  match x.slot with
  | none => { x.step 1 with pc := x.pc + 4 }
  | some sl => { x.step 1 with
    pc := sl.next
    slot := none }

/-- The registers that the performance monitors count in (R160). -/
def isCounter (off : Nat) : Prop := ∃ c i, i < 8 ∧ off = ((tileAt R.PMC_COUNT c 0x800).at (8 * i)).reg

/-- Two devices that agree but for what the performance monitors count and what the branch target buffers hold. -/
def sameBut (d e : Dev) : Prop := bareOfBtb d = bareOfBtb e ∧ ∀ off, ¬isCounter off → d.reg off = e.reg off

/-- The command retires with strand g as x: every other strand keeps its state; of the device it leaves d, but for what the
performance monitors count and what retirement teaches the branch target buffer. -/
def retires (c : Instr) (s : State) (g : Nat) (x : Strand) (d : Dev) : Prop :=
  GivesSome c s fun t =>
    t.strand g = retired x ∧ (∀ k, k ≠ g → t.strand k = (begun s g).strand k) ∧ sameBut t.dev d

/-- What the pieces of an access bring as strand g of s reads them, when every piece lies in Normal memory and the read
neither waits nor meets poison. `r` are the access's checked pieces, with the device that its walks leave. -/
def readPieces (s : State) (g : Nat) (r : List Piece × Dev) : Option Read :=
  let q := r.1.foldl (Read.piece (r.2.phys (g / 2)) (s.strand g).sb) ⟨[], false, false, none, r.2⟩
  if (r.1.all fun p => (r.2.claim p.a.pa).normal && p.a.mt != 3) && !q.wait && q.poison.isNone then some q else none

/-- What a load of n bytes brings: its checks find no exception. -/
def loadRead (s : State) (g n : Nat) (va : Word) : Option Read :=
  let r := s.access g va n .load .plain
  if r.1.1.isNone then readPieces s g (r.1.2, r.2) else none

/-- The store-buffer entries of a store's pieces, in order, from a sequence number on (R143): a Device store where the
memory type or the address's owner makes it one (R112). -/
def entriesOf (d : Dev) (rel : Bool) : Nat → List Byte → List Piece → List SbEntry
  | _, _, [] => []
  | n, bs, p :: ps =>
    ⟨p.a.pa, bs.take p.n, p.a.key, if p.a.mt = 3 then .device else .normal (p.a.mt == 0), n, false, false, rel⟩
      :: entriesOf d rel (n + 1) (bs.drop p.n) ps

/-- The pieces of a store to Normal memory whose checks find no exception and for which the store buffer has room. -/
def storePieces (s : State) (g : Nat) (va : Word) (n : Nat) : Option (List Piece × Dev) :=
  let r := s.access g va n .store .plain
  if r.1.1.isNone && (r.1.2.all fun p => (r.2.claim p.a.pa).normal) && ({ s with dev := r.2 } : State).sbTakes g r.1.2.length
  then some (r.1.2, r.2) else none

end Sys2Proof
end

