-- ==== Sys2Proof/Certificates/Slice0/Obligations.lean ====
section
/-!
DEFINITION. The statements for the provers. `ready s g n` says that strand g can execute an instruction of the form n
now, `begun s g` is the state in which it executes it, `Gives` and `GivesSome` what a command gives, `Makes` that it changes
the device alone.
-/

open Sys2Proof Sys2Proof.Machine

/-! ### The block (R11, R16 and the step) -/

/-- A step runs the command at the front of the queue on the state that holds the queue's rest. -/
def Obligations.StepRunsTheFrontCommand : Prop :=
  ∀ (s : State) (c : Instr) (rest : List Instr),
    step { s with pending := c :: rest } = exec c { s with pending := rest }

/-! ### Integer operations (R90 to R93) -/

/-- R48: n0 reads 0 and a write to it changes nothing; CALL writes n31 with the address of the branch plus 8. -/
def Obligations.ZeroRegisterAndLink : Prop :=
  (∀ (x : Strand) (w : Word), x.getN 0 = 0 ∧ x.setN 0 w = x) ∧
  (∀ (x : Strand) (r : Reg) (w : Word), r ≠ 0 → (x.setN r w).getN r = w ∧ ∀ k, k ≠ r → (x.setN r w).getN k = x.getN k) ∧
  ∀ (s : State) (g : Nat) (A : Bool) (disp : BitVec 25), ready s g { transfer := true, regs := [.n 31] } = true →
    GivesSome (.call g A disp) s fun t =>
      (t.strand g).getN 31 = ((begun s g).strand g).pc + 8 ∧
      ∀ k, k ≠ 31 → (t.strand g).getN k = ((begun s g).strand g).getN k

/-- R90: the result of each integer register operation; the strand goes on at the next instruction. -/
def Sys2Proof.integerRegisterResults : Prop :=
  ∀ (s : State) (g : Nat) (d a b : Reg), ready s g { regs := [.n d, .n a, .n b] } = true →
    let u := (begun s g).strand g
    let x := u.getN a
    let y := u.getN b
    let k := y.toNat % 64
    let put (v : Word) : State := ((begun s g).setN g d v).retire g
    let flag (p : Bool) : State := put (if p then 1 else 0)
    Gives (.add g d a b) s (put (x + y)) ∧ Gives (.sub g d a b) s (put (x - y)) ∧
    Gives (.and g d a b) s (put (x &&& y)) ∧ Gives (.or g d a b) s (put (x ||| y)) ∧
    Gives (.xor g d a b) s (put (x ^^^ y)) ∧ Gives (.andn g d a b) s (put (x &&& ~~~y)) ∧
    Gives (.shl g d a b) s (put (x <<< k)) ∧ Gives (.shr g d a b) s (put (x >>> k)) ∧
    Gives (.sar g d a b) s (put (x.sshiftRight k)) ∧ Gives (.ror g d a b) s (put (x.rotateRight k)) ∧
    Gives (.slt g d a b) s (flag (x.slt y)) ∧ Gives (.sltu g d a b) s (flag (x.ult y)) ∧
    Gives (.seq g d a b) s (flag (x == y)) ∧
    Gives (.min g d a b) s (put (if x.slt y then x else y)) ∧ Gives (.max g d a b) s (put (if x.slt y then y else x)) ∧
    Gives (.minu g d a b) s (put (if x.ult y then x else y)) ∧ Gives (.maxu g d a b) s (put (if x.ult y then y else x)) ∧
    Gives (.addw g d a b) s (put (((x + y).setWidth 32).signExtend 64)) ∧
    Gives (.subw g d a b) s (put (((x - y).setWidth 32).signExtend 64)) ∧
    (b = 0 →
      Gives (.clz g d a b) s (put (BitVec.ofNat 64 (((List.range 64).map fun i => x.getMsbD i).idxOf true))) ∧
      Gives (.ctz g d a b) s (put (BitVec.ofNat 64 (((List.range 64).map fun i => x.getLsbD i).idxOf true))) ∧
      Gives (.popc g d a b) s (put (BitVec.ofNat 64 ((List.range 64).countP fun i => x.getLsbD i))) ∧
      Gives (.bswap g d a b) s
        (put (x.extractLsb' 0 8 ++ x.extractLsb' 8 8 ++ x.extractLsb' 16 8 ++ x.extractLsb' 24 8 ++ x.extractLsb' 32 8
          ++ x.extractLsb' 40 8 ++ x.extractLsb' 48 8 ++ x.extractLsb' 56 8)) ∧
      Gives (.sextb g d a b) s (put ((x.setWidth 8).signExtend 64)) ∧
      Gives (.sexth g d a b) s (put ((x.setWidth 16).signExtend 64)) ∧
      Gives (.sextw g d a b) s (put ((x.setWidth 32).signExtend 64)) ∧
      Gives (.zextw g d a b) s (put ((x.setWidth 32).setWidth 64)))

/-- R91: the result of each immediate operation. LUI and APC read no register, HINS reads and writes d. -/
def Sys2Proof.immediateResults : Prop :=
  ∀ (s : State) (g : Nat) (d a : Reg) (imm : BitVec 16) (sh : BitVec 6),
    let u := (begun s g).strand g
    let x := u.getN a
    let sx := imm.signExtend 64
    let zx := imm.setWidth 64
    let put (v : Word) : State := ((begun s g).setN g d v).retire g
    (ready s g { regs := [.n d, .n a] } = true →
      Gives (.addi g d a imm) s (put (x + sx)) ∧ Gives (.andi g d a imm) s (put (x &&& zx)) ∧
      Gives (.ori g d a imm) s (put (x ||| zx)) ∧ Gives (.xori g d a imm) s (put (x ^^^ zx)) ∧
      Gives (.slti g d a imm) s (put (if x.slt sx then 1 else 0)) ∧
      Gives (.sltiu g d a imm) s (put (if x.ult zx then 1 else 0)) ∧
      Gives (.shli g d a 0 sh) s (put (x <<< sh.toNat)) ∧ Gives (.shri g d a 0 sh) s (put (x >>> sh.toNat)) ∧
      Gives (.sari g d a 0 sh) s (put (x.sshiftRight sh.toNat)) ∧ Gives (.rori g d a 0 sh) s (put (x.rotateRight sh.toNat))) ∧
    (ready s g { regs := [.n d, .n 0] } = true → Gives (.lui g d 0 imm) s (put (sx <<< 16))) ∧
    (ready s g { regs := [.n d] } = true → Gives (.apc g d 0 imm) s (put (u.pc + sx <<< 12))) ∧
    (ready s g { regs := [.n d, .n d] } = true → a.toNat < 4 →
      Gives (.hins g d a imm) s
        (put ((u.getN d &&& ~~~(BitVec.ofNat 64 (0xFFFF * 2 ^ (16 * a.toNat)))) ||| (zx <<< (16 * a.toNat)))))

/-- R92, R93: the multiplications, and the divisions, which are long operations whose result waits to be written. -/
def Sys2Proof.multiplyDivideResults : Prop :=
  ∀ (s : State) (g : Nat) (d a b : Reg), ready s g { regs := [.n d, .n a, .n b] } = true →
    let u := (begun s g).strand g
    let x := u.getN a
    let y := u.getN b
    let put (v : Word) : State := ((begun s g).setN g d v).retire g
    let long (v : Word) : State := ((begun s g).long g (.n d) (v.setWidth 256) .value).retire g
    Gives (.mul g d a b) s (put (x * y)) ∧
    Gives (.mulh g d a b) s (put ((x.signExtend 128 * y.signExtend 128).extractLsb' 64 64)) ∧
    Gives (.mulhu g d a b) s (put ((x.setWidth 128 * y.setWidth 128).extractLsb' 64 64)) ∧
    Gives (.mulw g d a b) s (put (((x * y).setWidth 32).signExtend 64)) ∧
    Gives (.div g d a b) s (long (if y = 0 then BitVec.allOnes 64 else x.sdiv y)) ∧
    Gives (.divu g d a b) s (long (if y = 0 then BitVec.allOnes 64 else x / y)) ∧
    Gives (.rem g d a b) s (long (if y = 0 then x else x.srem y)) ∧
    Gives (.remu g d a b) s (long (if y = 0 then x else x % y))

/-! ### Branches, jumps and calls (R72, R94 to R97) -/

/-- The outcome of a conditional branch of strand g, but for what the performance monitors count: `taken` is its outcome,
`disp` its displacement in words. -/
def Sys2Proof.branchOutcome (c : Instr) (s : State) (g : Nat) (A taken : Bool) (disp : Int) : Prop :=
  let u := (begun s g).strand g
  let target := u.pc + BitVec.ofInt 64 (disp * 4)
  GivesSome c s fun t =>
    let y := t.strand g
    y.n = u.n ∧ y.v = u.v ∧ y.ras = u.ras ∧
    (if !A || taken then y.pc = u.pc + 4 ∧ y.slot = some ⟨u.pc, if taken then target else u.pc + 8, none, taken, u.ras⟩
     else y.pc = u.pc + 8 ∧ y.slot = none) ∧
    (∀ k, k ≠ g → t.strand k = (begun s g).strand k)

/-- R72, R94, R95: each conditional branch is decided by its condition; its slot executes unless A annuls that of a branch
not taken; the hint H changes none of it (R97). -/
def Sys2Proof.conditionalBranches : Prop :=
  ∀ (s : State) (g : Nat) (A H : Bool) (a b : Reg),
    let u := (begun s g).strand g
    let x := u.getN a
    let y := u.getN b
    (∀ disp : BitVec 16, ready s g { transfer := true, regs := [.n a] } = true →
      branchOutcome (.beq g A H a disp) s g A (x == 0) disp.toInt ∧
      branchOutcome (.bne g A H a disp) s g A (x != 0) disp.toInt ∧
      branchOutcome (.blt g A H a disp) s g A (x.slt 0) disp.toInt ∧
      branchOutcome (.bge g A H a disp) s g A (!x.slt 0) disp.toInt ∧
      branchOutcome (.ble g A H a disp) s g A (x.sle 0) disp.toInt ∧
      branchOutcome (.bgt g A H a disp) s g A (!x.sle 0) disp.toInt) ∧
    (∀ disp : BitVec 11, ready s g { transfer := true, regs := [.n a, .n b] } = true →
      branchOutcome (.bceq g A H a b disp) s g A (x == y) disp.toInt ∧
      branchOutcome (.bcne g A H a b disp) s g A (x != y) disp.toInt ∧
      branchOutcome (.bclt g A H a b disp) s g A (x.slt y) disp.toInt ∧
      branchOutcome (.bcge g A H a b disp) s g A (!x.slt y) disp.toInt ∧
      branchOutcome (.bcltu g A H a b disp) s g A (x.ult y) disp.toInt ∧
      branchOutcome (.bcgeu g A H a b disp) s g A (!x.ult y) disp.toInt)

/-- The outcome of an unconditional transfer of strand g to a target: with A its slot is annulled; a link register receives
the transfer's address plus 8, and a link of an executed slot is remembered for an exception in that slot (R74). -/
def Sys2Proof.jumpOutcome (c : Instr) (s : State) (g : Nat) (A : Bool) (target : Word) (link : Option Reg) (ras : List Word) : Prop :=
  let u := (begun s g).strand g
  GivesSome c s fun t =>
    let y := t.strand g
    (∀ r, y.getN r = if link = some r ∧ r ≠ 0 then u.pc + 8 else u.getN r) ∧ y.v = u.v ∧ y.ras = ras ∧
    (if A then y.pc = target ∧ y.slot = none
     else y.pc = u.pc + 4 ∧ y.slot = some ⟨u.pc, target, link.map fun r => (r, u.getN r), true, u.ras⟩) ∧
    (∀ k, k ≠ g → t.strand k = (begun s g).strand k)

/-- R72, R95, R96, R149: the jumps and calls; the fields that must be 0 are 0. A call pushes the return-address stack of
32 entries and RET pops it. -/
def Sys2Proof.jumpsAndCalls : Prop :=
  ∀ (s : State) (g : Nat) (A : Bool) (disp : BitVec 25) (d a : Reg),
    let u := (begun s g).strand g
    let direct := u.pc + BitVec.ofInt 64 (disp.toInt * 4)
    let back := ((u.pc + 8) :: u.ras).take 32
    let reg := u.getN a &&& ~~~3#64
    (ready s g { transfer := true } = true → jumpOutcome (.j g A disp) s g A direct none u.ras) ∧
    (ready s g { transfer := true, regs := [.n 31] } = true → jumpOutcome (.call g A disp) s g A direct (some 31) back) ∧
    (ready s g { transfer := true, regs := [.n a] } = true →
      jumpOutcome (.jr g A 0 0 a 0) s g A reg none u.ras ∧ jumpOutcome (.ret g A 0 0 a 0) s g A reg none u.ras.tail) ∧
    (ready s g { transfer := true, regs := [.n a, .n d] } = true →
      jumpOutcome (.callr g A 0 d a 0) s g A reg (some d) back)

/-- What every integer instruction writes: register forms, immediate forms, products and quotients. -/
def Obligations.IntegerResults : Prop := integerRegisterResults ∧ immediateResults ∧ multiplyDivideResults

/-- Conditional branches, jumps, calls and returns, with their slots and the return stack. -/
def Obligations.BranchesAndJumps : Prop := conditionalBranches ∧ jumpsAndCalls

/-! ### Floating point and vectors (R49, R98 to R106) -/

/-- R98 to R100: each scalar floating-point operation, on the binary64 values of bits [63:0]: computed exactly and rounded
once (`encD`), the quotient and the root as long operations; a scalar result clears bits [255:64] (R49). -/
def Obligations.FloatingPointResults : Prop :=
  ∀ (s : State) (g : Nat) (d a b : Reg),
    let u := (begun s g).strand g
    let x : Word := u.getD a
    let y : Word := u.getD b
    let put (v : Word) : State := ((begun s g).setV g d (v.setWidth 256)).retire g
    let num (v : Word) : State := ((begun s g).setN g d v).retire g
    let long (v : FVal × Bool) : State :=
      ((begun s g).long g (.v d) (BitVec.ofNat 256 (fmtD.encode v.1 v.2)) .value).retire g
    (ready s g { vec := true, regs := [.v d, .v a, .v b] } = true →
      Gives (.fadd g d a b) s (put (encD ((decD x).add (decD y)))) ∧
      Gives (.fsub g d a b) s (put (encD ((decD x).add (decD y).neg))) ∧
      Gives (.fmul g d a b) s (put (encD ((decD x).mul (decD y)))) ∧
      Gives (.fma g d a b) s (put (encD (((decD x).mul (decD y)).add (decD (u.getD d))))) ∧
      Gives (.fmin g d a b) s (put (fPick true x y)) ∧ Gives (.fmax g d a b) s (put (fPick false x y)) ∧
      Gives (.fdiv g d a b) s (long ((decD x).div (decD y))) ∧
      (b = 0 → Gives (.fabs g d a b) s (put (x &&& ~~~(1#64 <<< 63))) ∧ Gives (.fneg g d a b) s (put (x ^^^ 1#64 <<< 63)))) ∧
    (ready s g { vec := true, regs := [.v d, .v a, .v 0] } = true →
      Gives (.fsqrt g d a 0) s (long (decD x).sqrt) ∧
      Gives (.fcvtSD g d a 0) s (put (word (fmtS.encode (decD x) false))) ∧
      Gives (.fcvtDS g d a 0) s (put (encD (fmtS.decode (x.toNat % 2 ^ 32))))) ∧
    (ready s g { vec := true, regs := [.n d, .v a, .v b] } = true →
      let order (p : Bool) : State := num (if !isNan x && !isNan y && p then 1 else 0)
      Gives (.feq g d a b) s (order (decide (orderKey false x = orderKey false y))) ∧
      Gives (.flt g d a b) s (order (decide (orderKey false x < orderKey false y))) ∧
      Gives (.fle g d a b) s (order (decide (orderKey false x ≤ orderKey false y)))) ∧
    (ready s g { vec := true, regs := [.n d, .v a] } = true →
      Gives (.fcvtLD g d a 0) s (num (BitVec.ofInt 64 (truncTo (-2 ^ 63) (2 ^ 63 - 1) x))) ∧
      Gives (.fcvtLuD g d a 0) s (num (BitVec.ofInt 64 (truncTo 0 (2 ^ 64 - 1) x))) ∧
      Gives (.fmvN g d a 0) s (num x)) ∧
    (ready s g { vec := true, regs := [.v d, .n a] } = true →
      Gives (.fcvtDL g d a 0) s (put (encD (.fin ((u.getN a).msb) (u.getN a).toInt.natAbs 0))) ∧
      Gives (.fcvtDLu g d a 0) s (put (encD (.fin false (u.getN a).toNat 0))) ∧
      Gives (.fmvV g d a 0) s (put (u.getN a)))

/-- The lanes that a command leaves in a v register of strand g. -/
def Sys2Proof.lanesGive (c : Instr) (s : State) (g : Nat) (w : BitVec 2) (d : Reg) (f : Nat → Nat) : Prop :=
  GivesSome c s fun t => ∀ i, i < lanesOf w → lane w ((t.strand g).getV d) i = f i % 2 ^ laneW w

/-- The bits that a comparison leaves in a general register: bit i for lane i, the others 0 (R103). -/
def Sys2Proof.maskGives (c : Instr) (s : State) (g : Nat) (w : BitVec 2) (d : Reg) (p : Nat → Bool) : Prop :=
  GivesSome c s fun t =>
    d ≠ 0 → ∀ i, i < 64 → ((t.strand g).getN d).getLsbD i = (decide (i < lanesOf w) && p i)

/-- R101 to R103: every lane of each lane-wise vector operation; arithmetic is modulo the lane width and nothing carries
between lanes. -/
def Obligations.VectorLaneResults : Prop :=
  ∀ (s : State) (g : Nat) (w : BitVec 2) (d a b : Reg),
    let u := (begun s g).strand g
    let x := lane w (u.getV a)
    let y := lane w (u.getV b)
    let old := lane w (u.getV d)
    let xs := laneS w (u.getV a)
    let ys := laneS w (u.getV b)
    let m := u.getN b
    let k := m.toNat % laneW w
    (ready s g { vec := true, regs := [.v d, .v a, .v b] } = true →
      lanesGive (.vadd g w d a b) s g w d (fun i => x i + y i) ∧
      lanesGive (.vsub g w d a b) s g w d (fun i => x i + 2 ^ laneW w - y i) ∧
      lanesGive (.vand g w d a b) s g w d (fun i => x i &&& y i) ∧
      lanesGive (.vor g w d a b) s g w d (fun i => x i ||| y i) ∧
      lanesGive (.vxor g w d a b) s g w d (fun i => x i ^^^ y i) ∧
      lanesGive (.vandn g w d a b) s g w d (fun i => x i &&& (2 ^ laneW w - 1 - y i)) ∧
      lanesGive (.vmin g w d a b) s g w d (fun i => if xs i ≤ ys i then x i else y i) ∧
      lanesGive (.vmax g w d a b) s g w d (fun i => if xs i ≤ ys i then y i else x i) ∧
      lanesGive (.vminu g w d a b) s g w d (fun i => if x i ≤ y i then x i else y i) ∧
      lanesGive (.vmaxu g w d a b) s g w d (fun i => if x i ≤ y i then y i else x i)) ∧
    (ready s g { vec := true, regs := [.v d, .v a, .n b] } = true →
      lanesGive (.vshl g w d a b) s g w d (fun i => x i * 2 ^ k) ∧
      lanesGive (.vshr g w d a b) s g w d (fun i => x i / 2 ^ k) ∧
      lanesGive (.vsar g w d a b) s g w d (fun i => ((xs i / 2 ^ k) % 2 ^ laneW w).toNat) ∧
      lanesGive (.vsel g w d a b) s g w d (fun i => if m.getLsbD i then x i else old i) ∧
      lanesGive (.vcompress g w d a b) s g w d (fun j =>
        ((((List.range (lanesOf w)).filter fun i => m.getLsbD i).map x)[j]?).getD 0)) ∧
    (ready s g { vec := true, regs := [.v d, .n a] } = true →
      lanesGive (.vsplat g w d a 0) s g w d (fun _ => (u.getN a).toNat) ∧
      (b.toNat < lanesOf w →
        lanesGive (.vins g w d a b) s g w d (fun i => if i = b.toNat then (u.getN a).toNat else old i))) ∧
    (ready s g { vec := true, regs := [.n d, .v a] } = true → b.toNat < lanesOf w →
      Gives (.vext g w d a b) s (((begun s g).setN g d (BitVec.ofNat 64 (x b.toNat))).retire g)) ∧
    (ready s g { vec := true, regs := [.n d, .v a, .v b] } = true →
      maskGives (.vcmpeq g w d a b) s g w d (fun i => x i == y i) ∧
      maskGives (.vcmplt g w d a b) s g w d (fun i => decide (xs i < ys i)) ∧
      maskGives (.vcmpltu g w d a b) s g w d (fun i => decide (x i < y i)))

/-- R105, R106: the CRC and hash steps are long operations; their results are the CRC over the first bytes of b, the lane-wise
mix, and the fold of four lanes. -/
def Sys2Proof.crcAndHashSteps : Prop :=
  ∀ (s : State) (g : Nat) (k : BitVec 5) (d a b : Reg),
    let u := (begun s g).strand g
    let x := lane 3 (u.getV a)
    let y := lane 3 (u.getV b)
    let long (dst : RegRef) (v : VWord) : State := ((begun s g).long g dst v .value).retire g
    (ready s g { vec := true, regs := [.n d, .n a, .v b] } = true →
      Gives (.vcrc32c g 0 k d a b) s
        (long (.n d) (BitVec.ofNat 256 (crcBytes 0x82F63B78 (u.getV b) (k.toNat + 1) ((u.getN a).toNat % 2 ^ 32) % 2 ^ 64))) ∧
      Gives (.vcrc64 g 0 k d a b) s
        (long (.n d) (BitVec.ofNat 256 (crcBytes 0xC96C5795D7870F42 (u.getV b) (k.toNat + 1) (u.getN a).toNat % 2 ^ 64)))) ∧
    (ready s g { vec := true, regs := [.v d, .v a, .v b] } = true →
      GivesSome (.vhmix g 3 d a b) s fun t =>
        ∃ v : VWord, t = long (.v d) v ∧ ∀ i, i < 4 → lane 3 v i = mixLane (x i) (y i)) ∧
    (ready s g { vec := true, regs := [.n d, .v a] } = true →
      Gives (.vhfold g 3 d a 0) s
        (long (.n d) (BitVec.ofNat 256 (x 0 ^^^ rotl64 (x 1) 16 ^^^ rotl64 (x 2) 32 ^^^ rotl64 (x 3) 48))))

/-- R89, R120, R151: a long operation in flight that waits for nothing but its time, or a far atomic whose Peat line has been
accepted, writes its result into its destination and is in flight no more; nothing else of its strand changes. -/
def Sys2Proof.longOperationCompletes : Prop :=
  ∀ (s : State) (g k : Nat) (o : LongOp), g < 512 → (s.strand g).longOps[k]? = some o →
    (o.kind = .value ∨ ∃ line seq, o.kind = .far line seq ∧ s.dev.directOpen (g, seq) = false) →
    let x := s.strand g
    Gives (.longOpComplete g k) s (s.setStrand g ({ x with longOps := x.longOps.eraseIdx k }.setRef o.dst o.val))

/-- The CRC and hash steps, and the retirement of what runs beside the strand. -/
def Obligations.HashStepsAndLongOperations : Prop := crcAndHashSteps ∧ longOperationCompletes

/-! ### Loads, stores and atomics (R107 to R120, R143, R152) -/

/-- R107, R108: each load writes its destination with the bytes at its access address, little-endian, sign- or
zero-extended; a load into n0 discards its result (R109). -/
def Sys2Proof.loadResults : Prop :=
  ∀ (s : State) (g : Nat) (t b : Reg) (imm : BitVec 16) (q : Read),
    let u := (begun s g).strand g
    let va := u.getN b + imm.signExtend 64
    let v := leNat q.bytes
    (ready s g { regs := [.n t, .n b] } = true →
      (loadRead (begun s g) g 1 va = some q →
        retires (.lb g t b imm) s g (u.setN t ((BitVec.ofNat 8 v).signExtend 64)) q.dev ∧
        retires (.lbu g t b imm) s g (u.setN t ((BitVec.ofNat 8 v).setWidth 64)) q.dev) ∧
      (loadRead (begun s g) g 2 va = some q →
        retires (.lh g t b imm) s g (u.setN t ((BitVec.ofNat 16 v).signExtend 64)) q.dev ∧
        retires (.lhu g t b imm) s g (u.setN t ((BitVec.ofNat 16 v).setWidth 64)) q.dev) ∧
      (loadRead (begun s g) g 4 va = some q →
        retires (.lw g t b imm) s g (u.setN t ((BitVec.ofNat 32 v).signExtend 64)) q.dev ∧
        retires (.lwu g t b imm) s g (u.setN t ((BitVec.ofNat 32 v).setWidth 64)) q.dev) ∧
      (loadRead (begun s g) g 8 va = some q →
        retires (.ld g t b imm) s g (u.setN t (BitVec.ofNat 64 v)) q.dev)) ∧
    (ready s g { vec := true, regs := [.v t, .n b] } = true →
      (loadRead (begun s g) g 8 va = some q →
        retires (.ldf g t b imm) s g (u.setV t ((BitVec.ofNat 64 v).setWidth 256)) q.dev) ∧
      (loadRead (begun s g) g 32 va = some q →
        retires (.ldv g t b imm) s g (u.setV t (BitVec.ofNat 256 v)) q.dev))

/-- R152, R195, R216: where a piece's bytes come from. The youngest older store of the strand that overlaps it, when it is a
store to Normal memory that holds all of it; without one, for WB memory and with no injected error standing, the line
that the core's enabled L2 holds, and nothing but the L1's marks changes. -/
def Sys2Proof.loadSources : Prop :=
  ∀ (c : Nat) (sb : List SbEntry) (r : Read) (p : Piece),
    (∀ (old young : List SbEntry) (e : SbEntry), sb = old ++ e :: young →
      (∀ f ∈ young, f.overlaps p.a.pa p.n = false) → e.overlaps p.a.pa p.n = true →
      let q := Read.piece c sb r p
      if e.forwards = true ∧ e.holds p.a.pa p.n = true then
        q.bytes = r.bytes ++ (e.bytes.drop (p.a.pa - e.pa)).take p.n ∧ q.wait = r.wait ∧ q.dev = r.dev
      else q.wait = true ∧ q.dev = r.dev) ∧
    ((∀ e ∈ sb, e.overlaps p.a.pa p.n = false) → p.a.mt = 0 → r.dev.flips = [] → r.dev.unclean = [] → r.dev.l2On c = true →
      let l := r.dev.line c (p.a.pa / 64)
      l.st ≠ .invalid →
      let q := Read.piece c sb r p
      q.bytes = r.bytes ++ takeBytes l.data (p.a.pa % 64) p.n ∧ q.wait = r.wait ∧
      (l.poison = false → q.poison = r.poison) ∧ (l.poison = true → q.poison.isSome = true) ∧
      (∀ k g, (q.dev.line k g).data = (r.dev.line k g).data ∧ (q.dev.line k g).st = (r.dev.line k g).st) ∧
      q.dev.dram = r.dev.dram ∧ q.dev.peat = r.dev.peat ∧ q.dev.llc = r.dev.llc ∧ q.dev.net = r.dev.net)

/-- A store of bytes retires into the store buffer (R143); no byte of memory changes before its entries leave. -/
def Sys2Proof.storeOutcome (c : Instr) (s : State) (g : Nat) (va : Word) (bs : List Byte) (rel : Bool) : Prop :=
  ∀ r, storePieces (begun s g) g va bs.length = some r →
    let u := (begun s g).strand g
    retires c s g { u with
      sb := u.sb ++ entriesOf r.2 rel u.seq bs r.1
      seq := u.seq + r.1.length } r.2

/-- R107, R108, R143: each store puts the low bytes of its source into the strand's store buffer, one entry for each half
when it is split (R110). -/
def Sys2Proof.storeResults : Prop :=
  ∀ (s : State) (g : Nat) (t b : Reg) (imm : BitVec 16),
    let u := (begun s g).strand g
    let va := u.getN b + imm.signExtend 64
    (ready s g { regs := [.n t, .n b] } = true →
      storeOutcome (.sb g t b imm) s g va (leBytes 1 (u.getN t).toNat) false ∧
      storeOutcome (.sh g t b imm) s g va (leBytes 2 (u.getN t).toNat) false ∧
      storeOutcome (.sw g t b imm) s g va (leBytes 4 (u.getN t).toNat) false ∧
      storeOutcome (.sd g t b imm) s g va (leBytes 8 (u.getN t).toNat) false) ∧
    (ready s g { vec := true, regs := [.v t, .n b] } = true →
      storeOutcome (.stf g t b imm) s g va (leBytes 8 (u.getV t).toNat) false ∧
      storeOutcome (.stv g t b imm) s g va (leBytes 32 (u.getV t).toNat) false)

/-- R143, R216: the oldest entry of a strand's store buffer, a store to WB memory whose line its core owns, writes exactly
its bytes of that line, which is then in M, and leaves the buffer; the data of every other line of every L2, DRAM, the
Peat media, every LLC slice and every other strand keep what they hold. A Peat line needs its place in the tracker. -/
def Sys2Proof.storeEntryWritesItsBytes : Prop :=
  ∀ (s : State) (g : Nat) (e : SbEntry) (rest : List SbEntry),
    let u := s.strand g
    let d := s.dev
    let c := d.phys (g / 2)
    let a := e.pa / 64
    g < 512 → d.clocksOk = true → u.sb = e :: rest → u.heldBack e = false → e.kind = .normal true → d.flips = [] →
    d.l2On c = true → d.ownsLine c a = true → (isPeat a = true → (d.trackStore c (g % 2) a).isSome = true) →
    e.pa % 64 + e.bytes.length ≤ 64 →
    GivesSome (.storeBufferEntryLeave g) s fun t =>
      t.strand g = { u with sb := rest } ∧ (∀ k, k ≠ g → t.strand k = s.strand k) ∧
      (t.dev.line c a).st = .modified ∧
      (∀ i, i < 64 → lineByte (t.dev.line c a).data i =
        if e.pa % 64 ≤ i ∧ i < e.pa % 64 + e.bytes.length then (e.bytes[i - e.pa % 64]?).getD 0
        else lineByte (d.line c a).data i) ∧
      (∀ k b, k < 512 → (k, b) ≠ (c, a) →
        (t.dev.line k b).data = (d.line k b).data ∧ (t.dev.line k b).st = (d.line k b).st) ∧
      t.dev.dram = d.dram ∧ t.dev.peat = d.peat ∧ t.dev.llc = d.llc ∧ t.dev.net = d.net

/-- R104: a gather whose elements are aligned and pass their checks writes d with them, element 0 lowest: 8 elements of 4
bytes when W is 2, 4 of 8 bytes when W is 3. -/
def Sys2Proof.gatherResults : Prop :=
  ∀ (s : State) (g : Nat) (w : BitVec 2) (d a b : Reg) (q : Read), w = 2 ∨ w = 3 →
    ready s g { vec := true, regs := [.v d, .n a, .v b] } = true →
    let u := (begun s g).strand g
    let n := laneW w / 8
    let va (i : Nat) : Word := u.getN a + BitVec.ofInt 64 (laneS w (u.getV b) i * n)
    let es := (List.range (lanesOf w)).map fun i => (va i, n)
    let r := tryParts g u .load es (begun s g).dev
    (∀ i, i < lanesOf w → (va i).toNat % n = 0) →
    accessFault r.2 u (u.getN a) n .load .gather r.1 = none →
    readPieces (begun s g) g (pieces r.1, r.2) = some q →
    retires (.vgather g w d a b) s g (u.setV d (BitVec.ofNat 256 (leNat q.bytes))) q.dev

/-- R115, R117: LDA, with no earlier release of its strand waiting, reads as a load does and zero-extends; STA, every earlier
store having been performed, stores as a store does. -/
def Sys2Proof.acquireReleaseResults : Prop :=
  ∀ (s : State) (g : Nat) (z : BitVec 2) (d a b : Reg) (q : Read),
    let u := (begun s g).strand g
    let n := 2 ^ z.toNat
    (ready s g { regs := [.n d, .n a] } = true → (∀ e ∈ u.sb, e.rel = false) →
      loadRead (begun s g) g n (u.getN a) = some q →
      retires (.lda g z ⟨0, 0, d, a, 0⟩) s g (u.setN d ((BitVec.ofNat (8 * n) (leNat q.bytes)).setWidth 64)) q.dev) ∧
    (ready s g { regs := [.n a, .n b] } = true → u.sb = [] →
      storeOutcome (.sta g z ⟨0, 0, 0, a, b⟩) s g (u.getN a) (leBytes n (u.getN b).toNat) true)

/-- The atomics and the value that each writes of the old value, its operand and d, at a width in bits (R118). -/
def Sys2Proof.atomicForms (w : Nat) : List ((Nat → BitVec 2 → MemEnc → Instr) × (BitVec w → BitVec w → BitVec w → Option (BitVec w))) :=
  [(.aadd, fun old b _ => some (old + b)), (.aswap, fun _ b _ => some b), (.acas, fun old b d => if old = d then some b else none),
   (.aand, fun old b _ => some (old &&& b)), (.aor, fun old b _ => some (old ||| b)),
   (.amin, fun old b _ => some (if old.sle b then old else b)), (.amax, fun old b _ => some (if old.sle b then b else old)),
   (.aminu, fun old b _ => some (if old.ule b then old else b)), (.amaxu, fun old b _ => some (if old.ule b then b else old))]

/-- What a near atomic on a piece needs (R120): an address that Normal memory claims, WB, in a line that the strand's core
owns and that is not poisoned; the strand's store buffer empty, no PSYNC in flight, no injected error standing. -/
def Sys2Proof.nearReady (s : State) (g : Nat) (p : Piece) (d : Dev) : Bool :=
  let c := d.phys (g / 2)
  let x := s.strand g
  (d.claim p.a.pa).normal && x.sb.isEmpty && !x.psyncing && p.a.mt == 0 && d.l2On c && d.ownsLine c (p.a.pa / 64)
    && !(d.line c (p.a.pa / 64)).poison && d.flips.isEmpty

/-- R118 to R120: a near atomic on 4 or 8 aligned bytes of a line its core owns reads the old value, zero-extended, into d
and writes the new one into the line, in one step; a failed ACAS writes nothing. A write to a Peat line needs its place
in the tracker (R267). -/
def Sys2Proof.nearAtomicResults : Prop :=
  ∀ (s : State) (g : Nat) (z o : BitVec 2) (d a b : Reg) (p : Piece) (dv : Dev), z = 2 ∨ z = 3 →
    ready s g { regs := [.n d, .n a, .n b] } = true →
    let u := (begun s g).strand g
    let n := 2 ^ z.toNat
    let c := dv.phys (g / 2)
    let line := p.a.pa / 64
    (u.getN a).toNat % n = 0 → (begun s g).access g (u.getN a) n .atomic .atomic = ((none, [p]), dv) →
    nearReady (begun s g) g p dv = true →
    let old : BitVec (8 * n) := BitVec.ofNat (8 * n) (leNat (takeBytes (dv.line c line).data (p.a.pa % 64) n))
    let dt := if isPeat line then dv.trackStore c (g % 2) line else some dv
    ∀ f ∈ atomicForms (8 * n),
      let new := f.2 old ((u.getN b).setWidth (8 * n)) ((u.getN d).setWidth (8 * n))
      let dn := match new with
        | none => some dv
        | some x => dt.map fun dt => dt.writeLine c p.a.pa (leBytes n x.toNat)
      ∀ dn', dn = some dn' → retires (f.1 g z ⟨o, 0, d, a, b⟩) s g (u.setN d (old.setWidth 64)) dn'

/-- What loads and gathers write, and where the bytes of each piece come from. -/
def Obligations.LoadsBringTheirBytes : Prop := loadResults ∧ gatherResults ∧ loadSources

/-- What stores put into the store buffer, and what its oldest entry writes when it leaves. -/
def Obligations.StoresReachTheirBytes : Prop := storeResults ∧ storeEntryWritesItsBytes

/-- Acquire loads, release stores, and atomics on a line that the core owns. -/
def Obligations.AtomicsAndOrderedAccesses : Prop := acquireReleaseResults ∧ nearAtomicResults

/-! ### System registers, exceptions and modes (R54 to R81, R132 to R139) -/

/-- What MFSR reads at S and H, by register number (R54, R55, R56 to R62); CYCLES apart. -/
def Sys2Proof.sysReads (s : State) (g : Nat) : List (BitVec 12 × Word) :=
  let x := s.strand g
  let own := if x.pl = 2 then x.bankH else x.bankS
  [(0x000, x.status), (0x001, own.epc), (0x002, own.cause), (0x003, own.faddr), (0x004, own.fipa), (0x005, own.fsyn),
   (0x006, own.vbase), (0x008, own.s0), (0x009, own.s1), (0x00A, own.s2), (0x00B, own.s3), (0x011, x.tcfg), (0x012, x.ttb1),
   (0x014, x.asid), (0x021, s.dev.reg R.FRAME_NUMBER.reg), (0x022, x.timecmp),
   (0x010, BitVec.ofNat 64 ((if (s.dev.pm (g / 2)).mode then 1 else 0) + (if (s.dev.pm (g / 2)).active then 2 else 0)
     + (if (s.dev.pm (g / 2)).refused then 4 else 0) + if (s.strand (g / 2 * 2 + 1)).parked then 8 else 0))]

/-- What MFSR reads at H alone: the registers of H and the S copies, which read 0 while HPSEALED is 1 (R55). -/
def Sys2Proof.hostReads (s : State) (g : Nat) : List (BitVec 12 × Word) :=
  let x := s.strand g
  let sc (w : Word) : Word := if x.hstatus.getLsbD 38 then 0 else w
  [(0x013, x.ttb2), (0x015, x.vmid), (0x030, x.hstatus), (0x801, sc x.bankS.epc), (0x802, sc x.bankS.cause),
   (0x803, sc x.bankS.faddr), (0x804, sc x.bankS.fipa), (0x805, sc x.bankS.fsyn), (0x806, sc x.bankS.vbase),
   (0x808, sc x.bankS.s0), (0x809, sc x.bankS.s1), (0x80A, sc x.bankS.s2), (0x80B, sc x.bankS.s3)]

/-- R54, R55: MFSR writes d with the register that its number names at the strand's level. FRAMENO is read at U too; CYCLES
has counted on by a number of clock cycles that the model leaves free (log entry 5). -/
def Sys2Proof.systemRegisterReads : Prop :=
  ∀ (s : State) (g : Nat) (d : Reg), ready s g { regs := [.n d] } = true →
    let b := begun s g
    let u := b.strand g
    (u.pl = 1 ∨ u.pl = 2 → ∀ p ∈ sysReads b g, Gives (.mfsr g ⟨d, 0, p.1⟩) s ((b.setN g d p.2).retire g)) ∧
    (u.pl = 2 → ∀ p ∈ hostReads b g, Gives (.mfsr g ⟨d, 0, p.1⟩) s ((b.setN g d p.2).retire g)) ∧
    Gives (.mfsr g ⟨d, 0, 0x021⟩) s ((b.setN g d (b.dev.reg R.FRAME_NUMBER.reg)).retire g) ∧
    (∃ k : Word, retires (.mfsr g ⟨d, 0, 0x020⟩) s g
      ({ u with cycles := u.cycles + k }.setN d (u.cycles + k)) { b.dev with free := b.dev.free + 1 })

/-- What a write of a system register leaves, by number, at a level: the strand's registers under their field maps
(R54 to R62, R538). -/
def Sys2Proof.sysWrites (x : Strand) (v : Word) : List (BitVec 12 × Strand) :=
  let own := if x.pl = 2 then x.bankH else x.bankS
  let put (b : Bank) : Strand := if x.pl = 2 then { x with bankH := b } else { x with bankS := b }
  [(0x001, put { own with epc := v &&& ~~~3#64 }), (0x002, put { own with cause := v &&& 0x8000000003FFFFFF#64 }),
   (0x003, put { own with faddr := v }), (0x004, put { own with fipa := v }), (0x005, put { own with fsyn := v &&& 0x3FFF1FF#64 }),
   (0x008, put { own with s0 := v }), (0x009, put { own with s1 := v }), (0x00A, put { own with s2 := v }),
   (0x00B, put { own with s3 := v }), (0x021, x), (0x022, { x with timecmp := v })]

/-- What the closing of a shadow over a mode-bearing register leaves of the strand (R56, R62, R76, R80, R538). -/
def Sys2Proof.modeWrites (x : Strand) (v : Word) (lvl : Nat) : List (BitVec 12 × Strand) :=
  let keepIf (p : Bool) (m : Word) : Word := if p then (v &&& m) ||| (x.status &&& ~~~m) else x.status
  let ppl : Bool := v.extractLsb' 4 2 < 2
  [(0x000, { x with status := (v &&& 0x6CC#64) ||| (x.status &&& ~~~0x6FC#64) ||| ((keepIf ppl 0x30#64) &&& 0x30#64) }),
   (0x006, if lvl = 2 then { x with bankH := { x.bankH with vbase := v &&& ~~~0xFFF#64 } }
     else { x with bankS := { x.bankS with vbase := v &&& ~~~0xFFF#64 } }),
   (0x011, { x with tcfg := if lvl = 2 then v &&& 0x3F#64 else (v &&& 7#64) ||| (x.tcfg &&& ~~~7#64) }),
   (0x012, { x with ttb1 := v &&& 0xFFFFFFFFFF000#64 }), (0x013, { x with ttb2 := v &&& 0xFFFFFFFFFF000#64 }),
   (0x014, { x with asid := v &&& 0xFFFF#64 }), (0x015, { x with vmid := v &&& 0xFFFF#64 })]

/-- What a write of a register that only H writes leaves, or of an S copy while HPSEALED is 0 (R55, R57). -/
def Sys2Proof.hostWrites (x : Strand) (v : Word) : List (BitVec 12 × Strand) :=
  let put (b : Bank) : Strand := { x with bankS := b }
  let b := x.bankS
  let hppl : Bool := v.extractLsb' 34 2 ≠ 3
  [(0x020, { x with cycles := v }),
   (0x030, { x with hstatus := (v &&& 0xB3FFFD97FE#64) ||| (x.hstatus &&& ~~~0xBFFFFFFFFF#64)
     ||| ((if hppl then v else x.hstatus) &&& 0xC00000000#64) }),
   (0x801, put { b with epc := v &&& ~~~3#64 }), (0x802, put { b with cause := v &&& 0x8000000003FFFFFF#64 }),
   (0x803, put { b with faddr := v }), (0x804, put { b with fipa := v }), (0x805, put { b with fsyn := v &&& 0x3FFF1FF#64 }),
   (0x808, put { b with s0 := v }), (0x809, put { b with s1 := v }), (0x80A, put { b with s2 := v }),
   (0x80B, put { b with s3 := v })]

/-- The command retires and opens a mode shadow over a register, with nothing else of its strand changed (R77). -/
def Sys2Proof.opensShadow (c : Instr) (s : State) (g : Nat) (sr : BitVec 12) (v : Word) : Prop :=
  let u := (begun s g).strand g
  GivesSome c s fun t =>
    t.strand g = { retired u with shadow := some ⟨sr, v, u.pl, 0⟩ } ∧
    (∀ k, k ≠ g → t.strand k = (begun s g).strand k) ∧ sameBut t.dev (begun s g).dev

/-- R54, R77: an MTSR to a register that bears no mode takes effect at once; one to a mode-bearing register changes nothing
of it but opens a shadow at position 0. -/
def Sys2Proof.systemRegisterWrites : Prop :=
  ∀ (s : State) (g : Nat) (a : Reg),
    let b := begun s g
    let u := b.strand g
    let v := u.getN a
    (ready s g { regs := [.n a] } = true → u.pl = 1 ∨ u.pl = 2 →
      (∀ p ∈ sysWrites u v, Gives (.mtsr g ⟨0, a, p.1⟩) s ((b.setStrand g p.2).retire g)) ∧
      (u.pl = 2 → u.hpsealed = false →
        ∀ p ∈ hostWrites u v, Gives (.mtsr g ⟨0, a, p.1⟩) s ((b.setStrand g p.2).retire g))) ∧
    (ready s g { modeWrite := true, regs := [.n a] } = true → u.pl = 1 ∨ u.pl = 2 →
      ∀ sr ∈ [0x000#12, 0x006#12, 0x011#12, 0x012#12, 0x014#12],
        opensShadow (.mtsr g ⟨0, a, sr⟩) s g sr v) ∧
    (ready s g { modeWrite := true, regs := [.n a] } = true → u.pl = 2 →
      ∀ sr ∈ [0x013#12, 0x015#12, 0x806#12], opensShadow (.mtsr g ⟨0, a, sr⟩) s g sr v)

/-- R80: a shadow closes at the end of its fifth position, and the pending write then takes effect under the register's
field map. -/
def Sys2Proof.shadowCloses : Prop :=
  ∀ (s : State) (g : Nat) (v : Word) (lvl : Nat), g < 512 →
    let x := s.strand g
    (∀ p ∈ modeWrites x v lvl, x.shadow = some ⟨p.1, v, lvl, 5⟩ →
      Gives (.shadowClose g) s (s.setStrand g { p.2 with shadow := none })) ∧
    (x.shadow = some ⟨0x806, v, lvl, 5⟩ → x.hpsealed = false →
      Gives (.shadowClose g) s (s.setStrand g { x with
        bankS := { x.bankS with vbase := v &&& ~~~0xFFF#64 }
        shadow := none })) ∧
    (x.shadow = some ⟨0x010, v, lvl, 5⟩ →
      let p := s.dev.pm (g / 2)
      GivesSome (.shadowClose g) s fun t =>
        t.strand g = { x with shadow := none } ∧
        t.dev.pm (g / 2) = { p with
          mode := if p.accepted then v.getLsbD 0 else p.mode
          refused := p.refused && (!v.getLsbD 2 || (v.getLsbD 0 && !p.active && !p.accepted))
          draining := p.draining || p.accepted
          accepted := false })

/-- R61: an MTSR to PMODE that asks for Steady while strand 1 is not parked is refused, and REFUSED is set at that moment;
one that asks for a change while strand 1 is parked, or for Full while Steady is in effect, is accepted. All open a
shadow. -/
def Sys2Proof.modeRequests : Prop :=
  ∀ (s : State) (g : Nat) (a : Reg), ready s g { modeWrite := true, regs := [.n a] } = true →
    let b := begun s g
    let u := b.strand g
    let v := u.getN a
    let p := b.dev.pm (g / 2)
    let parked := (b.strand (g / 2 * 2 + 1)).parked
    u.pl = 2 ∨ (u.pl = 1 ∧ u.hstatus.getLsbD 39 = false) →
    GivesSome (.mtsr g ⟨0, a, 0x010⟩) s fun t =>
      t.strand g = { retired u with shadow := some ⟨0x010, v, u.pl, 0⟩ } ∧
      t.dev.pm (g / 2) =
        (if v.getLsbD 0 = true ∧ p.active = false then
          (if parked then { p with accepted := true } else { p with refused := true })
        else if v.getLsbD 0 = false ∧ p.active = true then { p with accepted := true } else p)

/-- R66, R67: entry to a level other than as a sealed exit. After an open shadow has closed, EPC, CAUSE and the saved fields
of the level are written, IE is cleared, PL is the level, and the PC is the level's VBASE with the vector's offset; the
general and v registers and every other strand keep their values. -/
def Sys2Proof.exceptionEntry : Prop :=
  ∀ (s : State) (g lvl : Nat) (kind : EntryKind) (epc cause : Word) (inSlot : Bool) (fa fi : Option Word) (syn : Syn),
    let x := (s.closeShadow g).strand g
    lvl = 1 ∨ lvl = 2 → ¬(x.sealedB = true ∧ lvl = 2) →
    let t := s.enter g lvl kind epc cause inSlot fa fi syn none
    let y := t.strand g
    let old := if lvl = 2 then x.bankH else x.bankS
    let new := if lvl = 2 then y.bankH else y.bankS
    let saved : Nat := if x.ie then 1 else 0
    new.epc = epc &&& ~~~3#64 ∧ new.cause = cause ∧ new.vbase = old.vbase ∧
    (∀ w, fa = some w → new.faddr = w) ∧ (fa = none → new.faddr = old.faddr) ∧
    y.pl = lvl ∧ y.ie = false ∧ y.slot = none ∧ y.shadow = none ∧ y.n = x.n ∧ y.v = x.v ∧
    (lvl = 1 → getF y.status 3 4 = saved + 2 * x.pl + (if inSlot then 8 else 0) ∧ y.hstatus = x.hstatus) ∧
    (lvl = 2 → getF y.hstatus 34 5 = x.pl + 4 * saved + (if inSlot then 8 else 0) + (if x.sealedB then 16 else 0)) ∧
    y.pc = old.vbase + (match kind with
      | .lost => 0x200
      | .interrupt => if x.pl = lvl then 0x100 else 0x180
      | .exception => if x.pl = lvl then 0 else 0x80) ∧
    (∀ k, k ≠ g → t.strand k = s.strand k)

/-- R70, R399: an entry to H of a strand that runs inside vCPU i of a domain is a sealed exit: the strand keeps only what R70
lists, the vCPU receives the rest, and the entry goes to the vector at 0x280. That the register file is canonical is part
of the invariant of `StrandsStayWellFormed`. -/
def Sys2Proof.sealedExitEntry : Prop :=
  ∀ (s : State) (g dom i : Nat) (m : Domain) (w : Vcpu) (epc cause : Word) (inSlot : Bool) (syn : Syn),
    let x := s.strand g
    SMap.wf (fun _ => 0) x.n = true → x.shadow = none → x.sealedB = true → x.pl < 2 → x.inside = some (dom, i) → s.dev.domain dom = some m →
    m.vcpus[i]? = some w →
    let t := s.enter g 2 .exception epc cause inSlot none none syn none
    let y := t.strand g
    y.pc = x.bankH.vbase + 0x280 ∧ y.pl = 2 ∧ y.ie = false ∧ y.sealedB = false ∧ y.hpsealed = true ∧ y.v = [] ∧
    (∀ r : Reg, y.getN r = if r ≠ 0 ∧ m.shared.getLsbD r.toNat then x.getN r else 0) ∧
    y.bankS = {} ∧ y.ttb1 = 0 ∧ y.asid = 0 ∧ y.timecmp = 0 ∧ y.ttb2 = x.ttb2 ∧ y.vmid = x.vmid ∧ y.cycles = x.cycles ∧
    y.inside = none ∧
    ∃ m' w', t.dev.domain dom = some m' ∧ m'.vcpus[i]? = some w' ∧ w'.running = false ∧ w'.exits = w.exits + 1 ∧
      w'.st.v = x.v ∧ w'.st.bankS = x.bankS ∧ w'.st.pc = epc ∧ w'.st.asid = x.asid ∧ w'.st.ttb1 = x.ttb1 ∧
      (∀ r : Reg, m.shared.getLsbD r.toNat = false → w'.st.getN r = x.getN r)

/-- R63, R65, R74, R80: where an exception of the instruction at the PC goes. To H from H, for a hypervisor call, a sealed-domain
violation and a stage-2 fault, and for any cause whose EDELEG bit is 0; EPC is the instruction, or the branch for one in
an executed slot, whose link register gets its old value back. -/
def Sys2Proof.raiseChoosesLevelAndReturnAddress : Prop :=
  ∀ (s : State) (g : Nat) (e : Exc), e.syn = .none → s.dev.duty 10 = true ∨ e.code ≠ 8 →
    let x := s.strand g
    let lvl := if x.pl = 2 ∨ e.code = 0x0B ∨ e.code = 0x0D ∨ e.code = 0x11 ∨ x.hstatus.getLsbD e.code = false then 2 else 1
    let cause := word (e.code + match x.shadow with
      | none => 0
      | some sh => 2 ^ 22 + (sh.pos + 1) * 2 ^ 23)
    (x.slot = none → s.raise g e = s.enter g lvl .exception x.pc cause false e.faddr e.fipa .none none) ∧
    (∀ sl, x.slot = some sl → sl.link = none →
      s.raise g e = (s.setStrand g { x with ras := sl.ras }).enter g lvl .exception sl.branch cause true e.faddr e.fipa .none none) ∧
    (∀ sl r v, x.slot = some sl → sl.link = some (r, v) →
      s.raise g e = (s.setStrand g ({ x with ras := sl.ras }.setN r v)).enter g lvl .exception sl.branch cause true e.faddr e.fipa .none none)

/-- R75, R87, R132: with no long operation in flight, SYS, HCALL above U and BRK raise their exceptions, whatever their sysreg
field holds, and a word that is no instruction raises illegal instruction. -/
def Sys2Proof.softwareExceptions : Prop :=
  ∀ (s : State) (g : Nat) (n : BitVec 12) (w : BitVec 32),
    let b := begun s g
    (b.strand g).longOps = [] →
    (ready s g { transfer := true } = true →
      Gives (.sys g ⟨0, 0, n⟩) s (b.raise g { code := 0x0A }) ∧
      ((b.strand g).pl = 1 ∨ (b.strand g).pl = 2 → Gives (.hcall g ⟨0, 0, n⟩) s (b.raise g { code := 0x0B }))) ∧
    (ready s g {} = true →
      Gives (.brk g ⟨0, 0, n⟩) s (b.raise g { code := 0x0C }) ∧
      (w.toNat / 2 ^ 26 ∈ [0x00, 0x03, 0x0E, 0x0F, 0x25, 0x26, 0x27, 0x2A, 0x2F, 0x32, 0x3F] →
        Gives (.illegalInstruction g w) s (b.raise g { code := 0x01 })))

/-- R64: of several causes the first is raised: a fetch fault before illegal instruction, that before slot violation, that
before privileged instruction, that before shadow violation; a v register without VEC before the address is looked at. -/
def Sys2Proof.firstCauseIsRaised : Prop :=
  ∀ (s : State) (g : Nat), g < 512 → s.dev.clocksOk = true → s.mayIssue g = true →
    let z := settled s g
    let x := z.strand g
    (z.dev.pm (g / 2)).draining = false → x.longOps = [] →
    (∀ e d, z.fetch g = .exc e d →
      ∀ c ∈ [Instr.eret g ⟨1, 0, 0⟩, .mtsr g ⟨0, 0, 0⟩, .ldv g 0 0 0, .sys g ⟨0, 0, 0⟩],
        exec c s = .next ({ z with dev := d }.raise g e)) ∧
    (fetchOk (z.fetch g) = true →
      let b := begun s g
      Gives (.eret g ⟨1, 0, 0⟩) s (b.raise g { code := 0x01 }) ∧
      (x.slot.isSome = true → Gives (.eret g ⟨0, 0, 0⟩) s (b.raise g { code := 0x03, faddr := some x.pc })) ∧
      (x.slot = none → x.pl = 0 → Gives (.eret g ⟨0, 0, 0⟩) s (b.raise g { code := 0x02 })) ∧
      (x.pl = 0 → Gives (.mtsr g ⟨0, 0, 0⟩) s (b.raise g { code := 0x02 })) ∧
      (x.pl = 1 ∨ x.pl = 2 → x.shadow.isSome = true → Gives (.mtsr g ⟨0, 0, 0⟩) s (b.raise g { code := 0x10 })) ∧
      (x.vec = false → ∀ t base imm, Gives (.ldv g t base imm) s (b.raise g { code := 0x0F })))

/-- R68: ERET with no open shadow and no return into a sealed domain: the PC is EPC of the level, and PL and IE are what that
level saved. -/
def Obligations.ExceptionReturn : Prop :=
  ∀ (s : State) (g : Nat), ready s g { transfer := true } = true →
    let u := (begun s g).strand g
    u.shadow = none →
    (u.pl = 1 → GivesSome (.eret g ⟨0, 0, 0⟩) s fun t =>
      let y := t.strand g
      y.pc = u.bankS.epc ∧ y.pl = getF u.status 4 2 ∧ y.ie = u.status.getLsbD 3 ∧ y.n = u.n ∧ y.v = u.v ∧
      y.bankS = u.bankS ∧ y.bankH = u.bankH ∧ y.hstatus = u.hstatus ∧ sameBut t.dev (begun s g).dev) ∧
    (u.pl = 2 → u.hpsealed = false → GivesSome (.eret g ⟨0, 0, 0⟩) s fun t =>
      let y := t.strand g
      y.pc = u.bankH.epc ∧ y.pl = getF u.hstatus 34 2 ∧ y.ie = u.hstatus.getLsbD 36 ∧ y.n = u.n ∧ y.v = u.v ∧
      y.bankS = u.bankS ∧ y.bankH = u.bankH ∧ y.hstatus = u.hstatus ∧ sameBut t.dev (begun s g).dev)

/-- R133, R134, R138, R139: WAIT suspends a strand and PARK stops it; a wake of a waiting strand writes d with its reason and the
strand goes on; a mode drain that is over puts the new mode into effect, and a wake of strand 1 that the core held is
acted on in Full mode. -/
def Sys2Proof.waitingAndModes : Prop :=
  ∀ (s : State) (g : Nat) (d a : Reg),
    let b := begun s g
    let u := b.strand g
    (ready s g { transfer := true, regs := [.n d, .n a] } = true → u.pl = 1 ∨ u.pl = 2 →
      GivesSome (.wait g ⟨d, a, 0⟩) s fun t =>
        t.strand g = { u with waiting := some ⟨d, u.getN a⟩ } ∧ (∀ k, k ≠ g → t.strand k = b.strand k)) ∧
    (ready s g { transfer := true } = true → u.pl = 1 ∨ u.pl = 2 → u.sealedB = false →
      GivesSome (.park g ⟨0, 0, 0⟩) s fun t =>
        t.strand g = { retired u with parked := true } ∧ (∀ k, k ≠ g → t.strand k = b.strand k)) ∧
    (g < 512 → ∀ lim, (s.strand g).waiting = some ⟨d, lim⟩ → (s.strand g).halted = false → s.dev.phase = .running →
      s.dev.coreThere (g / 2) = true →
      GivesSome (.waitWake g) s fun t =>
        ∃ reason : Word, t.strand g = retired ({ s.strand g with waiting := none }.setN d reason) ∧
          ((s.topVector g true).isSome = true → reason = 0) ∧
          ((s.strand g).lost = [] → s.topVector g true = none →
            reason = if lim ≠ 0 ∧ lim.toNat ≤ s.dev.frame.toNat then 1 else 2)) ∧
    (∀ c, c < 288 → s.dev.coreState c = 1 →
      let l := s.dev.logicalOf c
      let p := s.dev.pm l
      p.draining = true → p.accepted = false → (s.strand (2 * l)).longOps = [] → (s.strand (2 * l)).portLoad = none →
      (s.strand (2 * l)).sb = [] → (s.strand (2 * l + 1)).sb = [] →
      GivesSome (.modeDrainComplete c) s fun t =>
        (t.dev.pm l).active = p.mode ∧ (t.dev.pm l).draining = false ∧ (t.dev.pm l).mode = p.mode ∧
        (t.strand (2 * l + 1)).parked = ((s.strand (2 * l + 1)).parked && !(p.wake && !p.mode)))

/-- MFSR and MTSR: what each register gives and takes, and which level may. -/
def Obligations.SystemRegistersMove : Prop := systemRegisterReads ∧ systemRegisterWrites

/-- The mode shadow, mode requests, and a strand that waits. -/
def Obligations.ShadowsAndModes : Prop := shadowCloses ∧ modeRequests ∧ waitingAndModes

/-- Entries, and the sealed exits among them. -/
def Obligations.ExceptionEntries : Prop := exceptionEntry ∧ sealedExitEntry

/-- Where an exception goes, the instructions that raise one, and which cause comes first. -/
def Obligations.ExceptionsAreRaised : Prop := raiseChoosesLevelAndReturnAddress ∧ softwareExceptions ∧ firstCauseIsRaised

/-! ### The memory-system group (R113 to R131, R185 to R188, R276, R279) -/

/-- The one WB piece of the line that an address names, for a hint or maintenance whose checks find no exception, with the
device that its walk leaves (R121, R122, R126). -/
def Sys2Proof.linePiece (s : State) (g : Nat) (va : Word) : Option (Piece × Dev) :=
  let r := s.access g va 1 .load .line
  match r.1.1, r.1.2 with
  | none, p :: _ => if p.a.mt == 0 && (r.2.claim p.a.pa).normal then some (p, r.2) else none
  | _, _ => none

/-- R115, R117, R127: FENCE.LL and FENCE.SS retire; FENCE.ALL and CODESYNC retire once the strand's store buffer is empty,
and until then they hold issue. None of them changes a register or memory. -/
def Sys2Proof.fencesOrderAccesses : Prop :=
  ∀ (s : State) (g : Nat), ready s g {} = true →
    let b := begun s g
    let u := b.strand g
    retires (.fenceLl g ⟨0, 0, 0, 0, 0⟩) s g u b.dev ∧ retires (.fenceSs g ⟨0, 0, 0, 0, 0⟩) s g u b.dev ∧
    (u.sb = [] → retires (.fenceAll g ⟨0, 0, 0, 0, 0⟩) s g u b.dev ∧ retires (.codesync g 0 ⟨0, 0, 0, 0, 0⟩) s g u b.dev) ∧
    (u.sb ≠ [] → Gives (.fenceAll g ⟨0, 0, 0, 0, 0⟩) s b ∧ Gives (.codesync g 0 ⟨0, 0, 0, 0, 0⟩) s b)

/-- R121, R126: STASH of a WB line takes a store-buffer entry that names its target, and a STASH that may not be translated is
counted and dropped; CFLUSH, the strand's stores having been performed, asks the line's home to recall every copy. -/
def Sys2Proof.hintsAndFlushes : Prop :=
  ∀ (s : State) (g : Nat) (a b : Reg),
    let z := begun s g
    let u := z.strand g
    (ready s g { regs := [.n a, .n b] } = true →
      (∀ p d, linePiece z g (u.getN a) = some (p, d) → ({ z with dev := d } : State).sbTakes g 1 = true →
        retires (.stash g 0 ⟨0, 0, 0, a, b⟩) s g { u with
          sb := u.sb ++ [⟨p.a.pa, [], p.a.key, .stash ((u.getN b).setWidth 16), u.seq, false, false, false⟩]
          seq := u.seq + 1 } d) ∧
      (∀ e d ps, z.access g (u.getN a) 1 .load .line = ((some e, ps), d) →
        let f := R.HINT_DROP_COUNT.at (0x10000 * (z.dev.phys (g / 2) / 2))
        retires (.stash g 0 ⟨0, 0, 0, a, b⟩) s g u (d.setFld f (min (d.fld f + 1) (2 ^ f.width - 1))))) ∧
    (ready s g { regs := [.n a] } = true → ∀ p d, linePiece z g (u.getN a) = some (p, d) → u.sb = [] → u.psyncing = false →
      let c := d.phys (g / 2)
      let line := p.a.pa / 64
      d.mshr c line = none → d.ghost c line = none →
      retires (.cflush g 0 ⟨0, 0, 0, a, 0⟩) s g u
        ((d.setMshr c line (some ⟨.rdx true, p.a.key, none, none, 0, false⟩)).send
          ⟨line, some (.core c), none, .request (.rdx true)⟩))

/-- R128: CINV.ALL at H changes nothing and reports all ones for an invalid target or tile, and 0 for an array of its own core
that is enabled; a disabled L2 loses every line without write-back and reports 1; of an LLC slice the mask of the ways
that are disabled. It is a long operation. -/
def Sys2Proof.cinvAllInvalidatesDisabledArrays : Prop :=
  ∀ (s : State) (g : Nat) (d a : Reg), ready s g { regs := [.n d, .n a] } = true → ((begun s g).strand g).pl = 2 →
    let b := begun s g
    let u := b.strand g
    let c := b.dev.phys (g / 2)
    let v := u.getN a
    let k := (v.extractLsb' 0 3).toNat
    let tile := (v.extractLsb' 8 8).toNat
    let ends (r : Word) (P : Dev → Prop) : Prop :=
      GivesSome (.cinvAll g 0 ⟨0, 0, d, a, 0⟩) s fun t =>
        t.strand g = retired { u with longOps := u.longOps ++ [⟨.n d, r.setWidth 256, .value⟩] } ∧ P t.dev
    (4 ≤ k ∨ (k = 3 ∧ 144 ≤ tile) → ends (BitVec.allOnes 64) fun e => sameBut e b.dev) ∧
    (k < 3 → (b.dev.flag (coreCtl c k) = true ∨ b.dev.flag (coreCtl c (11 + k)) = true) →
      ends 0 fun e => sameBut e b.dev) ∧
    (k = 2 → b.dev.flag (coreCtl c 2) = false → b.dev.flag (coreCtl c 13) = false → c < 512 →
      ends 1 fun e => (∀ line, (e.line c line).st = .invalid) ∧ e.dram = b.dev.dram ∧ e.peat = b.dev.peat ∧ e.net = b.dev.net) ∧
    (k = 3 → tile < 144 →
      ∃ m : Word, (∀ w, m.getLsbD w = (decide (w < 12) && v.getLsbD (16 + w) && !b.dev.flag (llcCtl tile w)
          && !b.dev.flag (llcCtl tile (24 + w)))) ∧
        ends m fun e => e.dram = b.dev.dram ∧ e.peat = b.dev.peat ∧ e.net = b.dev.net)

/-- R122, R237: PWB of a WB line that the core holds in M sends it home as a WbM with flag K and keeps it in E; of another
line it sends the request to the home, for whose answer a PSYNC waits when the line is in Peat. -/
def Sys2Proof.persistWriteBack : Prop :=
  ∀ (s : State) (g : Nat) (a : Reg) (p : Piece) (d : Dev), ready s g { regs := [.n a] } = true →
    let z := begun s g
    let u := z.strand g
    linePiece z g (u.getN a) = some (p, d) →
    let c := d.phys (g / 2)
    let line := p.a.pa / 64
    let l := d.line c line
    u.psyncing = false → (∀ e ∈ u.sb, e.overlaps (64 * line) 64 = false) →
    (l.st = .modified → d.wbCredit c line = true → d.flips = [] →
      GivesSome (.pwb g 0 ⟨0, 0, 0, a, 0⟩) s fun t =>
        t.strand g = retired u ∧ t.dev.line c line = { l with st := .exclusive, stored := 0 } ∧
        t.dev.net = d.net ++ [⟨line, some (.core c), none, .wbm l.seq true l.data l.poison⟩] ∧
        t.dev.wbUsed c line = d.wbUsed c line + 1 ∧ t.dev.directPw = d.directPw) ∧
    (l.st ≠ .modified → d.mshr c line = none → d.ghost c line = none →
      let sent := (d.setMshr c line (some ⟨.rds false true, p.a.key, none, none, 0, false⟩)).send
        ⟨line, some (.core c), none, .request (.rds false true)⟩
      (isPeat line = false → retires (.pwb g 0 ⟨0, 0, 0, a, 0⟩) s g u sent) ∧
      (isPeat line = true → retires (.pwb g 0 ⟨0, 0, 0, a, 0⟩) s g { u with seq := u.seq + 1 }
        { sent with directPw := d.directPw ++ [⟨g, u.seq, line, d.frame⟩] }))

/-- R123, R143: PSTNT puts its bytes into the store buffer: to a Peat address as an entry of its own kind, to a WB address outside
the Peat windows as SD or STV does. -/
def Sys2Proof.pstntResults : Prop :=
  ∀ (s : State) (g : Nat) (a b : Reg) (p : Piece) (d : Dev),
    let z := begun s g
    let u := z.strand g
    let va := u.getN a
    let enters (c : Instr) (bs : List Byte) : Prop :=
      va.toNat % bs.length = 0 → z.access g va bs.length .store .pstnt = ((none, [p]), d) → (d.claim p.a.pa).normal = true →
      p.a.mt = 0 → ({ z with dev := d } : State).sbTakes g 1 = true →
      retires c s g { u with
        sb := u.sb ++ [⟨p.a.pa, bs, p.a.key, if isPeat (p.a.pa / 64) then .pstnt else .normal true, u.seq, false, false, false⟩]
        seq := u.seq + 1 } d
    (ready s g { regs := [.n a, .n b] } = true → enters (.pstntD g ⟨0, 0, 0, a, b⟩) (leBytes 8 (u.getN b).toNat)) ∧
    (ready s g { vec := true, regs := [.n a, .v b] } = true → enters (.pstntV g ⟨0, 0, 0, a, b⟩) (leBytes 32 (u.getV b).toNat))

/-- R124, R276, R282: PSYNC begins a long operation; when every earlier persistent write of its strand is durable it
completes with the frame number, or with all ones when one of them failed, and until then it does not complete. -/
def Sys2Proof.psyncCompletes : Prop :=
  ∀ (s : State) (g : Nat) (d : Reg),
    (ready s g { regs := [.n d] } = true → ((begun s g).strand g).psyncing = false →
      let u := (begun s g).strand g
      GivesSome (.psync g 0 ⟨0, 0, d, 0, 0⟩) s fun t => ∃ failed : Bool,
        t.strand g = retired { u with longOps := u.longOps ++ [⟨.n d, 0, .psync u.seq failed⟩] } ∧
        (failed = true → g ∈ (begun s g).dev.failedPw)) ∧
    (g < 512 → ∀ upTo failed, (s.strand g).longOps = [⟨.n d, 0, .psync upTo failed⟩] →
      let x := s.strand g
      let z : State := { s with dev := s.dev.psyncSend g }
      (z.psyncDone g upTo = true →
        GivesSome (.longOpComplete g 0) s fun t =>
          t.strand g = { x with longOps := [] }.setN d
            (if failed = true ∨ g ∈ z.dev.failedPw then BitVec.allOnes 64 else z.dev.frame)) ∧
      (z.psyncDone g upTo = false → Gives (.longOpComplete g 0) s z) ∧
      (z.psyncDone g upTo = true →
        (∀ w ∈ z.dev.directPw, w.strand = g → upTo ≤ w.seq) ∧
        (∀ e ∈ x.sb, e.seq < upTo → isPeat (e.pa / 64) = true → e.bytes = [])))

/-- R272, R279: the PSTNT at the head of a strand's store buffer, alone in its line and with a credit, is sent to its stack's intake: no
core holds the line any more, the intake receives its bytes, and the entry stays until they are accepted. -/
def Sys2Proof.pstntSendReachesTheIntake : Prop :=
  ∀ (s : State) (g : Nat) (e : SbEntry),
    let x := s.strand g
    let d := s.dev
    let line := e.pa / 64
    let paid := d.payDirect (d.phys (g / 2)) line
    let n := stackOf line
    g < 512 → d.clocksOk = true → x.sb = [e] → e.kind = .pstnt → e.sent = false → x.heldBack e = false →
    d.lineBusy line = false → d.mayDirect (d.phys (g / 2)) line = true → d.homedHere line = true → (d.slot e.key).cls ≠ 0 →
    (paid.gather line e.key).dirty = false →
    GivesSome (.pstntSend g) s fun t =>
      t.strand g = { x with sb := [{ e with sent := true }] } ∧
      (∃ i, (t.dev.stack n).waitQ = ((paid.gather line e.key).dev.stack n).waitQ ++ [i] ∧ i.g = line ∧ i.urgent = true ∧
        i.data = putBytes 0 (e.pa % 64) e.bytes ∧ i.mask = byteMask (e.pa % 64) e.bytes.length ∧
        i.direct = [(g, e.seq)]) ∧
      t.dev.llcGet line = none

/-- R129, R186: with fewer than eight of its core outstanding, a TINV is issued and does not wait; what it will remove is given
by its operands, at S under the strand's own VMID. TSYNC waits. -/
def Sys2Proof.tinvIssue : Prop :=
  ∀ (s : State) (g : Nat) (a b : Reg),
    let z := begun s g
    let u := z.strand g
    let x := u.getN a
    let tag := u.getN b
    let m (w : Word) : Nat := if u.pl = 2 then getF w 16 16 else u.vmid.toNat
    let issues (c : Instr) (o : TinvOp) : Prop := retires c s g u { z.dev with tinvs := z.dev.tinvs ++ [(g, o)] }
    (z.dev.tinvs.filter fun t => t.1 / 2 == g / 2).length < 8 →
    (ready s g { regs := [.n a, .n b] } = true →
      (u.pl = 1 ∨ u.pl = 2 → issues (.tinvVa g 0 ⟨0, 0, 0, a, b⟩)
        (.va (x.toNat / 4096) (getF tag 0 16) (m tag) (tag.getLsbD 32) (tag.getLsbD 33))) ∧
      (u.pl = 2 → issues (.tinvIpa g 0 ⟨0, 0, 0, a, b⟩) (.ipa (x.toNat / 4096) (getF tag 16 16) (tag.getLsbD 33)))) ∧
    (ready s g { regs := [.n a] } = true →
      (u.pl = 1 ∨ u.pl = 2 → issues (.tinvAsid g 0 ⟨0, 0, 0, a, 0⟩) (.asid (getF x 0 16) (m x)) ∧
        issues (.tinvAll g 0 ⟨0, 0, 0, a, 0⟩) (.all (m x))) ∧
      (u.pl = 2 → issues (.tinvVmid g 0 ⟨0, 0, 0, a, 0⟩) (.vmid (getF x 16 16)))) ∧
    (ready s g {} = true →
      (u.pl = 2 → issues (.tinvHAll g 0 ⟨0, 0, 0, 0, 0⟩) .hAll) ∧
      (u.pl = 1 ∨ u.pl = 2 → Gives (.tsync g 0 ⟨0, 0, 0, 0, 0⟩) s (z.setStrand g { u with tsync := true })))

/-- R130, R187: a TSYNC completes once no store or port load of the socket is in flight; every TINV of its strand has then taken
effect in every core, and it retires. -/
def Sys2Proof.tsyncCompletes : Prop :=
  ∀ (s : State) (g : Nat), g < 512 → s.dev.clocksOk = true →
    let x := s.strand g
    x.tsync = true → x.halted = false → (∀ p ∈ s.strands, p.2.sb = [] ∧ p.2.portLoad = none) →
    GivesSome (.tsyncComplete g) s fun t =>
      t.strand g = retired { x with tsync := false } ∧
      (∀ p ∈ t.dev.tinvs, p.1 ≠ g) ∧ (∀ p ∈ s.dev.tinvs, p.1 ≠ g → p ∈ t.dev.tinvs) ∧
      (∀ o, (g, o) ∈ s.dev.tinvs → ∀ c, ∀ e ∈ SMap.get (fun _ => []) t.dev.tlb c, o.removes e = false) ∧
      t.dev.dram = s.dev.dram ∧ t.dev.l2 = s.dev.l2

/-- R129: what a TINV removes: of TINV.VA and TINV.ASID no entry of another VMID, of TINV.VMID every entry of that VMID and no
other, of TINV.H.ALL everything. -/
def Sys2Proof.tinvRemovesWithinItsVmid : Prop :=
  ∀ (page a0 m lvl va : Nat) (any leaf : Bool) (e : Word) (pin : Option (Nat × Nat)) (a v : Nat) (t : TlbEntry),
    (v ≠ m → (TinvOp.va page a0 m any leaf).removes (.s1 a v va lvl e pin) = false ∧
      (TinvOp.asid a0 m).removes (.s1 a v va lvl e pin) = false ∧ (TinvOp.all m).removes (.s1 a v va lvl e pin) = false ∧
      (TinvOp.ipa page m leaf).removes (.s2 v va lvl e pin) = false ∧ (TinvOp.vmid m).removes (.s1 a v va lvl e pin) = false) ∧
    (TinvOp.all m).removes (.s1 a m va lvl e pin) = true ∧
    (TinvOp.asid a0 m).removes (.s1 a m va lvl e pin) = (decide (a = a0) && !e.getLsbD 5) ∧
    (TinvOp.vmid m).removes (.s1 a m va lvl e pin) = true ∧ (TinvOp.vmid m).removes (.s2 m va lvl e pin) = true ∧
    (TinvOp.va page a0 m any true).removes (.p1 a m va lvl e) = false ∧ TinvOp.hAll.removes t = true

/-- R131: BTBFLUSH empties the core's branch target buffer and both strands' return-address stacks, and changes nothing else. -/
def Sys2Proof.btbFlush : Prop :=
  ∀ (s : State) (g : Nat), ready s g {} = true →
    let z := begun s g
    let u := z.strand g
    let other := if g % 2 = 0 then g + 1 else g - 1
    u.pl = 1 ∨ u.pl = 2 → u.slot = none →
    GivesSome (.btbflush g 0 ⟨0, 0, 0, 0, 0⟩) s fun t =>
      t.strand g = retired { u with ras := [] } ∧ t.strand other = { z.strand other with ras := [] } ∧
      (∀ k, k ≠ g → k ≠ other → t.strand k = z.strand k) ∧
      (∀ k, k / 1024 = z.dev.phys (g / 2) → SMap.get (fun _ => []) t.dev.btb k = []) ∧
      bareOfBtb t.dev = bareOfBtb z.dev

/-- Fences, hints and flushes of lines. -/
def Obligations.FencesAndHints : Prop := fencesOrderAccesses ∧ hintsAndFlushes

/-- CINVALL, PWB and BTBFLUSH. -/
def Obligations.ArraysPersistAndBtb : Prop := cinvAllInvalidatesDisabledArrays ∧ persistWriteBack ∧ btbFlush

/-- PSTNT, its way to the intake, and PSYNC. -/
def Obligations.PersistentStores : Prop := pstntResults ∧ psyncCompletes ∧ pstntSendReachesTheIntake

/-- TINV and TSYNC. -/
def Obligations.TranslationInvalidates : Prop := tinvIssue ∧ tsyncCompletes ∧ tinvRemovesWithinItsVmid

/-! ### Coherence (R215 to R241) -/

/-- The requests of R222 with the commands that bring them to a line's home. -/
def Sys2Proof.requests (g : Nat) (src : Agent) : List (Instr × Req) :=
  [(.rds g src false false, .rds false false), (.rds g src true false, .rds true false), (.rds g src false true, .rds false true),
   (.rdx g src false, .rdx false), (.rdx g src true, .rdx true), (.upg g src, .upg)]

/-- Nothing stands in the way of a request for a line: no transaction on it is open, its slice's queue is empty, its set admits
it (R225, R226, R228). -/
def Sys2Proof.admits (d : Dev) (g : Nat) : Prop :=
  d.txn g = none ∧ d.sliceQ g = [] ∧ d.admission g = .yes ∧ (d.homeOf g).isSome = true

/-- The messages in flight once the first copy of a message has arrived. -/
def Sys2Proof.without (d : Dev) (p : Msg → Bool) : List Msg := (d.arrive p).net

/-- R225, R230, R231: a request that is admitted for a line which others hold opens the line's one transaction and holds its
entry: it sends Inv to the sharers and the forward to the holder that the request needs, and waits for their answers. -/
def Sys2Proof.requestsForwardToHolders : Prop :=
  ∀ (s : State) (g : Nat) (src h : Agent), lineOk g = true → agentOk src = true → s.dev.clocksOk = true →
    let d := s.dev
    let e := d.dir g
    admits d g → h ≠ src →
    let opens (c : Instr) (r : Req) (invs : List Agent) (f : MsgBody) : Prop :=
      GivesSome c s fun t =>
        t.dev.txn g = some ⟨.request src r, invs, some h, false, false, false, none, d.reqKey g src, .gather⟩ ∧
        (t.dev.dir g).held = true ∧ (t.dev.dir g).st = e.st ∧ (t.dev.dir g).ptrs = e.ptrs ∧
        t.dev.net = without d (isRequest g src r) ++ invs.map (fun a => ⟨g, none, some a, .inv⟩) ++ [⟨g, none, some h, f⟩]
    (e.st = .owned → e.ptrs = [h] →
      opens (.rds g src false false) (.rds false false) [] (.fwds src false false) ∧
      opens (.rds g src true false) (.rds true false) [] (.fwds src true false) ∧
      opens (.rds g src false true) (.rds false true) [] (.fwds src false true) ∧
      opens (.rdx g src false) (.rdx false) [] (.fwdx src false) ∧
      opens (.rdx g src true) (.rdx true) [] (.fwdx src true) ∧
      opens (.upg g src) .upg [] (.fwdx src false) ∧
      (∀ target mask bytes, opens (.stashRequest g src target mask bytes) (.stash target mask bytes) [] (.fwdx src true)) ∧
      (∀ op dbl off v w, off + (if dbl then 8 else 4) ≤ 64 →
        opens (.farAtomicRequest g src op dbl off v w) (.atomic op dbl off v w) [] (.fwdx src true))) ∧
    (∀ o, e.st = .pointer → e.ptrs = [o, h] → e.lead = 1 → o ≠ src → o ≠ h →
      opens (.rds g src false false) (.rds false false) [] (.fwds src false false) ∧
      opens (.rdx g src false) (.rdx false) [o] (.fwdx src false) ∧
      opens (.upg g src) .upg [o] (.fwdx src false))

/-- R231, R235 to R237: a request that is admitted for a line homed here which no cache and no LLC slice holds is granted at
once. RdS and RdX send the line from memory and grant E, the entry then Owned by the requester under a new OWNSEQ; RdS with
flag U sends the line and records nobody; PWB and CFLUSH are granted with nothing sent; a far atomic answers with the line
as it was and closes. -/
def Sys2Proof.requestsForUncachedLines : Prop :=
  ∀ (s : State) (g : Nat) (src : Agent), lineOk g = true → agentOk src = true → s.dev.clocksOk = true →
    let d := s.dev
    let e := d.dir g
    admits d g → d.homedHere g = true → e.st = .uncached → e.llcd = false → d.llcGet g = none →
    let seq := e.ownseq + 1
    (∀ c r, (c, r) ∈ [(Instr.rds g src false false, Req.rds false false), (.rdx g src false, .rdx false), (.upg g src, .upg)] →
      GivesSome c s fun t =>
        (t.dev.dir g).st = .owned ∧ (t.dev.dir g).ptrs = [src] ∧ (t.dev.dir g).ownseq = seq ∧
        (t.dev.dir g).held = true ∧ (∃ x, t.dev.txn g = some x ∧ x.stage = .granted) ∧
        (∃ l p, t.dev.net = without d (isRequest g src r) ++
          [⟨g, none, some src, .data l false p false⟩, ⟨g, none, some src, .ack (.grant .exclusive seq)⟩])) ∧
    (GivesSome (.rds g src true false) s fun t =>
      t.dev.txn g = none ∧ (t.dev.dir g).st = .uncached ∧ (t.dev.dir g).ptrs = [] ∧
      (∃ l p, t.dev.net = without d (isRequest g src (.rds true false)) ++ [⟨g, none, some src, .data l false p false⟩])) ∧
    (∀ c r, (c, r) ∈ [(Instr.rds g src false true, Req.rds false true), (.rdx g src true, .rdx true)] →
      GivesSome c s fun t =>
        (t.dev.dir g).st = .uncached ∧ (t.dev.dir g).ptrs = e.ptrs.filter (fun _ => r = .rds false true) ∧
        (∃ x, t.dev.txn g = some x ∧ x.stage = .granted) ∧
        t.dev.net = without d (isRequest g src r) ++ [⟨g, none, some src, .ack (.grant .invalid e.ownseq)⟩]) ∧
    (∀ op dbl off v w, off + (if dbl then 8 else 4) ≤ 64 →
      GivesSome (.farAtomicRequest g src op dbl off v w) s fun t =>
        t.dev.txn g = none ∧
        (∃ l p, t.dev.net = without d (isRequest g src (.atomic op dbl off v w)) ++ [⟨g, none, some src, .data l false p false⟩]))

/-- R226: a request that may not be admitted waits in its slice's queue while the queue has a slot, and is answered Retry when
all 64 are taken. -/
def Sys2Proof.requestsQueueOrRetry : Prop :=
  ∀ (s : State) (g : Nat) (src : Agent), lineOk g = true → agentOk src = true → s.dev.clocksOk = true →
    let d := s.dev
    let n := R.DIR_RETRIES_COUNT.at (0x10000 * hashIndex g)
    (d.txn g).isSome = true → (d.homeOf g).isSome = true → (∀ c m, src = .core c → d.mshr c g = some m → m.starved = false) →
    ∀ p ∈ requests g src,
      ((d.sliceQ g).length < 56 → GivesSome p.1 s fun t =>
        t.dev.sliceQ g = d.sliceQ g ++ [⟨g, src, p.2, d.reqKey g src, false⟩] ∧ t.dev.txn g = d.txn g ∧
        t.dev.net = without d (isRequest g src p.2)) ∧
      (64 ≤ (d.sliceQ g).length → (∀ q ∈ d.sliceQ g, q.starved = false) → GivesSome p.1 s fun t =>
        t.dev.sliceQ g = d.sliceQ g ∧ t.dev.txn g = d.txn g ∧
        t.dev.fld n = min (d.fld n + 1) (2 ^ n.width - 1) ∧
        t.dev.net = without d (isRequest g src p.2) ++ [⟨g, none, some src, .retry⟩])

/-- R227, R233, R234: a writeback that its line's home accepts. A WbM that the entry's owner sent under its OWNSEQ leaves the entry
Uncached, or with flag K leaves the owner in E; one that is not accepted is counted and changes no entry; a recorded
sharer's EvC removes its pointer. Each is answered Ack WB, which returns the credit and frees the ghost. -/
def Sys2Proof.writebacks : Prop :=
  ∀ (s : State) (c g : Nat) (seq : BitVec 8) (bytes : Line) (poison : Bool), lineOk g = true → c < 288 →
    s.dev.clocksOk = true →
    let d := s.dev
    let e := d.dir g
    let src := Agent.core c
    let n := R.DIR_WB_DISCARDED_COUNT.at (0x10000 * hashIndex g)
    let ack : Msg := ⟨g, none, some src, .ack (.wb false)⟩
    (d.txn g = none → d.sliceQ g = [] → d.flips = [] → d.homedHere g = true →
      (e.st = .owned → e.ptrs = [src] → e.ownseq = seq →
        ((d.line c g).st = .invalid → GivesSome (.wbm g src seq false bytes poison) s fun t =>
          (t.dev.dir g).st = .uncached ∧ (t.dev.dir g).ptrs = [] ∧ ack ∈ t.dev.net) ∧
        ((d.line c g).st = .exclusive → GivesSome (.wbm g src seq true bytes poison) s fun t =>
          (t.dev.dir g).st = .owned ∧ (t.dev.dir g).ptrs = [src] ∧ (t.dev.line c g).st = .exclusive ∧ ack ∈ t.dev.net)) ∧
      (e.st = .owned → e.ownseq ≠ seq → (d.line c g).st = .invalid → ∀ k,
        GivesSome (.wbm g src seq k bytes poison) s fun t =>
          t.dev.dir g = e ∧ t.dev.dram = d.dram ∧ t.dev.llc = d.llc ∧ t.dev.pstacks = d.pstacks ∧
          t.dev.fld n = min (d.fld n + 1) (2 ^ n.width - 1) ∧ ack ∈ t.dev.net) ∧
      (∀ o, e.st = .pointer → e.ptrs = [o, src] → o ≠ src → (d.line c g).st = .invalid →
        GivesSome (.evc g src bytes poison) s fun t =>
          (t.dev.dir g).st = .pointer ∧ (t.dev.dir g).ptrs = [o] ∧ ack ∈ t.dev.net)) ∧
    (d.mshrs = [] → (d.tracker c).closing = [] →
      GivesSome (.ackWb c g false) s fun t =>
        t.dev.ghost c g = none ∧ t.dev.wbUsed c g = d.wbUsed c g - 1 ∧ t.dev.net = without d (fun m => toCore c g m && m.body == .ack (.wb false)))

/-- R232: how a holder answers the home. FwdS: a holder in M becomes S and sends the line, dirty, to the requester and to the home;
one in E or L becomes S and sends it clean. FwdX: any holder becomes I and sends the line to the requester, a dirty Peat
line to the home as well. Inv: a holder becomes I. A core that holds neither line nor ghost answers Absent. -/
def Sys2Proof.holdersAnswerForwards : Prop :=
  ∀ (s : State) (c g : Nat) (req : Agent), c < 288 → lineOk g = true → agentOk req = true → s.dev.clocksOk = true →
    s.dev.flips = [] →
    let d := s.dev
    let l := d.line c g
    let me := some (Agent.core c)
    let say (b : MsgBody) : Msg := ⟨g, me, none, b⟩
    let give (a : Option Agent) (dirty : Bool) : Msg := ⟨g, me, a, .data l.data dirty l.poison false⟩
    let out (c' : Instr) (f : MsgBody) (line : CLine) (ms : List Msg) : Prop :=
      GivesSome c' s fun t => t.dev.line c g = line ∧ t.dev.net = without d (fun m => toCore c g m && m.body == f) ++ ms
    (l.st = .modified →
      out (.fwds c g req false false) (.fwds req false false) { l with st := .shared, stored := 0 }
        [give (some req) true, give none true, say (.ack (.fwd false true))] ∧
      out (.fwdx c g req false) (.fwdx req false) CLine.none
        ([give (some req) true] ++ (if isPeat g then [give none true] else []) ++ [say (.ack (.fwd false (isPeat g)))])) ∧
    (l.st = .exclusive ∨ l.st = .lead →
      out (.fwds c g req false false) (.fwds req false false) { l with st := .shared, stored := 0 }
        [give (some req) false, say (.ack (.fwd false false))]) ∧
    (l.st = .exclusive ∨ l.st = .lead ∨ l.st = .shared →
      out (.fwds c g req true false) (.fwds req true false) l [give (some req) false, say (.ack (.fwd false false))] ∧
      out (.fwdx c g req false) (.fwdx req false) CLine.none [give (some req) false, say (.ack (.fwd false false))]) ∧
    (l.st ≠ .invalid → out (.inv c g) .inv CLine.none [say (.ack .inv)]) ∧
    (l.st = .invalid → d.ghost c g = none → d.l2Lost c g = false →
      out (.fwds c g req false false) (.fwds req false false) l [say .absent] ∧
      out (.fwdx c g req false) (.fwdx req false) l [say .absent] ∧ out (.inv c g) .inv l [say .absent])

/-- R222, R223, R231, R234: what an answer does to a transaction that still waits for others: it is taken off what is awaited, or
its data is kept; Absent is counted and makes the home source the line; Ack DONE of its requester closes a transaction
whose grant was sent. -/
def Sys2Proof.answersReachTheHome : Prop :=
  ∀ (s : State) (g : Nat) (a b : Agent) (t : Txn), lineOk g = true → agentOk a = true → s.dev.clocksOk = true →
    s.dev.txn g = some t →
    let d := s.dev
    let n := R.DIR_ABSENT_COUNT.at (0x10000 * hashIndex g)
    let becomes (c : Instr) (t' : Txn) (P : Dev → Prop) : Prop :=
      GivesSome c s fun z => z.dev.txn g = some t' ∧ P z.dev
    (t.stage = .gather → t.invs = [a, b] → becomes (.ackInv g a) { t with invs := [b] } fun e => e.dir g = d.dir g) ∧
    (t.stage = .gather → t.invs = [b] → t.fwd = some a → ∀ gh dd,
      becomes (.ackFwd g a gh dd) { t with fwd := none, served := true, ghost := gh, want := dd } fun e => e.dir g = d.dir g) ∧
    (t.stage = .gather → t.invs = [b] → ∀ bytes dirty p,
      becomes (.data none a g bytes dirty p false) { t with data := some (bytes, dirty, p) } fun e => e.dir g = d.dir g) ∧
    (t.stage = .gather → t.invs = [a, b] → t.fwd ≠ some a →
      becomes (.absent g a) { t with invs := [b] } fun e => e.fld n = min (d.fld n + 1) (2 ^ n.width - 1)) ∧
    (t.stage = .gather → t.invs = [b] → b ≠ a → t.fwd = some a → (d.dir g).st = .pointer → (d.dir g).ptrs = [b, a] →
      becomes (.absent g a) { t with fwd := none } fun e => (e.dir g).ptrs = [b]) ∧
    (∀ r, t.kind = .request a r → t.stage = .granted → d.sliceQ g = [] →
      GivesSome (.ackDone g a) s fun z => z.dev.txn g = none ∧ (z.dev.dir g).held = false ∧ (z.dev.dir g).ptrs =
        (if (d.dir g).st = .uncached ∧ (d.dir g).llcd = false then [] else (d.dir g).ptrs)) ∧
    (∀ c rq target mask bytes, a = .core c → t.stage = .target c → t.kind = .request rq (.stash target mask bytes) →
      GivesSome (.ackHint g a) s fun z =>
        (z.dev.dir g).st = .owned ∧ (z.dev.dir g).ptrs = [a] ∧ (z.dev.dir g).ownseq = (d.dir g).ownseq + 1 ∧
        ⟨g, none, some rq, .ack (.grant .invalid ((d.dir g).ownseq + 1))⟩ ∈ z.dev.net)

/-- R226, R230, R231: a core whose request has its data installs the line in the granted state when the grant comes, under the
grant's OWNSEQ, and sends Ack DONE; the request is then closed. Data that comes before the grant waits with the request.
After STARVE_AFTER Retries a request is starved; it is sent again. -/
def Sys2Proof.grantsReachTheCore : Prop :=
  ∀ (s : State) (c g : Nat) (st : LineState) (seq : BitVec 8) (m : Mshr), c < 288 → lineOk g = true → s.dev.clocksOk = true →
    s.dev.mshr c g = some m →
    let d := s.dev
    (∀ l p dirty, m.data = some (l, p, dirty) → st ≠ .invalid → (d.l2Set c g).length < 16 →
      (∀ u, m.req ≠ .rds u true) →
      GivesSome (.ackGrant c g st seq) s fun t =>
        t.dev.line c g = ⟨st, l, p, m.key, false, false, 0, seq⟩ ∧ t.dev.mshr c g = none ∧
        t.dev.net = without d (fun x => toCore c g x && x.body == .ack (.grant st seq)) ++ [⟨g, some (.core c), none, .ack .done⟩]) ∧
    (m.grant = none → ∀ src bytes dirty p, agentOk src = true →
      GivesSome (.data (some (.core c)) src g bytes dirty p false) s fun t =>
        t.dev.mshr c g = some { m with data := some (bytes, p, dirty) } ∧ t.dev.l2 = d.l2) ∧
    (GivesSome (.retry c g) s fun t =>
      t.dev.mshr c g = some { m with
        retries := m.retries + 1
        starved := m.starved || decide (max 1 (d.fld (R.DIR_CTL_STARVE_AFTER.at (0x10000 * hashIndex g))) ≤ m.retries + 1) }) ∧
    (m.retries ≠ 0 → m.grant = none → (∀ x ∈ d.net, isRequest g (.core c) m.req x = false) →
      Makes (.requestResend c g) s (d.send ⟨g, some (.core c), none, .request m.req⟩))

/-- R240, R241: a forward to another socket that stays unanswered is closed: the socket's pointer goes, a line that it owned is
poisoned in its home; a removed socket is coherent no more. -/
def Sys2Proof.socketsAreRemoved : Prop :=
  ∀ (s : State) (g k : Nat), lineOk g = true → k < 8 → s.dev.clocksOk = true →
    let d := s.dev
    (d.txn g = none → d.sliceQ g = [] → (d.dir g).st = .owned → (d.dir g).ptrs = [.socket k] →
      GivesSome (.forwardTimeout g (.socket k)) s fun t =>
        (t.dev.dir g).st = .uncached ∧ (t.dev.dir g).ptrs = [] ∧ t.dev.isPoisoned g = true) ∧
    (k ≠ d.self → GivesSome (.socketRemoval k) s fun t =>
      natBit (t.dev.fld R.CHAIN_STATUS_COHERENT) k = false)

/-- Requests at a home, for lines that are held and for lines that are not. -/
def Obligations.HomeRequests : Prop := requestsForwardToHolders ∧ requestsForUncachedLines

/-- Requests that wait at a home, and sockets that are removed. -/
def Obligations.WaitingRequestsAndLostSockets : Prop := requestsQueueOrRetry ∧ socketsAreRemoved

/-- Writebacks, and what a holder answers. -/
def Obligations.WritebacksAndForwards : Prop := writebacks ∧ holdersAnswerForwards

/-- Answers at the home, and grants at the core. -/
def Obligations.AnswersAndGrants : Prop := answersReachTheHome ∧ grantsReachTheCore

/-! ### Cache arrays, refill and the invalidation queue (R181, R182, R193, R201 to R203) -/

/-- R201, R203, R205: an enable of an array that is CLEAN takes effect and clears CLEAN; of one that is not, after boot-lock it is
refused and REFUSED is set, and before it is enabled; clearing an enable starts a disable, DISABLE_BUSY; a disable that
completes clears DISABLE_BUSY, sets CLEAN and leaves the array empty. -/
def Obligations.CacheArraysEnableAndDisable : Prop :=
  ∀ (s : State) (req : Requester) (t k w : Nat), reqOk req = true → t < 144 → k < 2 → w < 12 →
    let d := s.dev
    let c := 2 * t + k
    let core (b : Nat) : Bool := d.flag (coreCtl c b)
    let way (b : Nat) : Bool := d.flag (llcCtl t b)
    (core 0 = false → core 1 = false → core 2 = false → core 11 = false → core 12 = false → core 13 = false →
      GivesSome (.cacheEnable req t (.core k) 4) s fun z =>
        let e := z.dev
        let ok := core 10 || !d.locked
        e.flag (coreCtl c 2) = ok ∧ (core 10 = true → e.flag (coreCtl c 10) = false) ∧ (ok = false → e.flag (coreCtl c 14) = true)) ∧
    (core 0 = false → core 1 = false → core 2 = true → core 11 = false → core 12 = false → core 13 = false →
      GivesSome (.cacheDisable req t (.core k) 0) s fun z =>
        z.dev.flag (coreCtl c 2) = false ∧ z.dev.flag (coreCtl c 13) = true ∧ z.dev.l2 = d.l2) ∧
    (way w = false → way (24 + w) = false → way (36 + w) = false → ∀ v : Word, v.getLsbD w = true →
      GivesSome (.cacheEnable req t .llc v) s fun z => z.dev.flag (llcCtl t w) = (way (12 + w) || !d.locked)) ∧
    (way w = true → way (24 + w) = false → ∀ v : Word, v.getLsbD w = false →
      GivesSome (.cacheDisable req t .llc v) s fun z =>
        z.dev.flag (llcCtl t w) = false ∧ z.dev.flag (llcCtl t (24 + w)) = true) ∧
    (core 11 = true → GivesSome (.disableComplete t (.l1i k)) s fun z =>
      z.dev.flag (coreCtl c 11) = false ∧ z.dev.flag (coreCtl c 8) = true ∧
      (∀ g, (z.dev.line c g).st ≠ .invalid → (z.dev.line c g).l1i = false)) ∧
    (core 12 = true → GivesSome (.disableComplete t (.l1d k)) s fun z =>
      z.dev.flag (coreCtl c 12) = false ∧ z.dev.flag (coreCtl c 9) = true ∧
      (∀ g, (z.dev.line c g).st ≠ .invalid → (z.dev.line c g).l1d = false)) ∧
    (core 13 = true → d.linesOf c = [] → core 11 = false → core 12 = false → d.coreQuiet c = true →
      GivesSome (.disableComplete t (.l2 k)) s fun z =>
        z.dev.flag (coreCtl c 13) = false ∧ z.dev.flag (coreCtl c 10) = true) ∧
    (way (24 + w) = true → d.llc = [] → GivesSome (.disableComplete t (.way w)) s fun z =>
      z.dev.flag (llcCtl t (24 + w)) = false ∧ z.dev.flag (llcCtl t (12 + w)) = true)

/-- R181, R182: an install by the strand itself with GO: at S a stage-2 entry is refused with 1, level 3 with 3, an entry that is no leaf with 2;
else RESULT is 0 and the entry is the newest of the core's translation caches, tagged with the strand's ASID and VMID. -/
def Sys2Proof.refillInstallsLeaves : Prop :=
  ∀ (s : State) (i : Nat) (v : Word), i < 512 →
    let d := s.dev
    let x := s.strand i
    let c := d.phys (i / 2)
    let blk (f : Field) : Field := f.at (0x10000 * (c / 2) + 0x800 * (c % 2) + 0x100 * (i % 2))
    let stage := (v.extractLsb' 1 1).toNat
    let level := (v.extractLsb' 2 2).toNat
    let e := d.reg (blk R.REFILL_ENTRY_ENTRY).reg
    let page := (d.reg (blk R.REFILL_VA_ADDR).reg).toNat / pageSize level
    let code := if stage = 1 ∧ x.pl ≠ 2 then 1 else if level = 3 then 3 else if decodeEntry e level = .leaf then 0 else 2
    (v.getLsbD 0 = true → GivesSome (.refillInstall (.strand i) i v) s fun t =>
      t.dev.fld (blk R.REFILL_STATUS_RESULT) = code ∧
      (code = 0 → v.getLsbD 4 = false → stage = 0 →
        ∃ rest, t.dev.tlbOf c = .s1 x.asid.toNat x.vmid.toNat page level e none :: rest) ∧
      (code = 0 → v.getLsbD 4 = false → stage = 1 → ∃ rest, t.dev.tlbOf c = .s2 x.vmid.toNat page level e none :: rest) ∧
      (code ≠ 0 → t.dev.tlbOf c = d.tlbOf c)) ∧
    (∀ j, j ≠ i → j < 512 → Gives (.refillInstall (.strand j) i v) s s)

/-- A command of the invalidation queue completes when the queue runs and the command at HEAD is this one: its effect, and HEAD goes on. -/
def Sys2Proof.ioqCompletes (c : Instr) (s : State) (op : Nat) (f : Word → Word → Dev → Dev) : Prop :=
  ∀ w0 w1 d', s.dev.ioqRuns = true → s.dev.ioqCommand = ((w0, w1), d') → ioqValid w0 w1 = true → (w0.extractLsb' 0 8).toNat = op →
    Makes c s (f w0 w1 d').ioqAdvance

/-- R193: the commands of the invalidation queue: which entries of the I/O TLB, or of the cached device table, each drops; WAIT
writes its value to memory. An invalid command sets ERR. IOIQ_BASE: setting EN from 0 sets HEAD to 0, and while EN is 1
nothing but EN changes. -/
def Sys2Proof.invalidationQueue : Prop :=
  ∀ (s : State),
    let drop (p : Word → Word → Nat × TlbEntry → Bool) (w0 w1 : Word) (d : Dev) : Dev :=
      { d with iotlb := d.iotlb.filter fun t => !p w0 w1 t }
    let rid (w : Word) : Nat := (w.extractLsb' 8 16).toNat
    let vm (w : Word) : Nat := (w.extractLsb' 24 16).toNat
    ioqCompletes .invDt s 1 (fun w0 _ d => { d with dtcache := d.dtcache.filter fun e => e.rid != rid w0 }) ∧
    ioqCompletes .invRid s 2 (drop fun w0 _ t => t.1 == rid w0) ∧
    ioqCompletes .invVa s 3 (drop fun w0 w1 t => t.1 == rid w0 && t.2.inAsid (w0.extractLsb' 40 16).toNat && t.2.onS1Path w1.toNat) ∧
    ioqCompletes .invIpa s 4 (drop fun w0 w1 t => t.2.vmidOf == vm w0 && t.2.onS2Path w1.toNat) ∧
    ioqCompletes .invVmid s 5 (drop fun w0 _ t => t.2.vmidOf == vm w0) ∧
    ioqCompletes .invAll s 6 (fun _ _ d => { d with
      iotlb := []
      dtcache := [] }) ∧
    ioqCompletes .ioiqWait s 0x10 (fun w0 w1 d =>
      if d.homedHere (w1.toNat / 64) then
        d.homeStore (w1.toNat / 64) (w1.toNat % 64) (leBytes 8 (w0.extractLsb' 32 32).toNat) 0 false none
      else d) ∧
    (∀ w0 w1 d', s.dev.ioqRuns = true → s.dev.ioqCommand = ((w0, w1), d') → ioqValid w0 w1 = false →
      ∀ c ∈ [Instr.invDt, .invRid, .invVa, .invIpa, .invVmid, .invAll, .ioiqWait], Makes c s (d'.setFld R.IOIQ_HEAD_ERR 1)) ∧
    (∀ req v, reqOk req = true →
      (s.dev.flag R.IOIQ_BASE_EN = false → v.getLsbD 0 = true → GivesSome (.ioiqEnable req v) s fun t =>
        t.dev.flag R.IOIQ_BASE_EN = true ∧ t.dev.fld R.IOIQ_HEAD_INDEX = 0) ∧
      (s.dev.flag R.IOIQ_BASE_EN = true →
        Makes (.ioiqEnable req v) s (s.dev.setFld R.IOIQ_BASE_EN (v.extractLsb' 0 1).toNat)))

/-! ### Persistence (R262 to R289) -/

/-- R272 to R274: a core that asks a stack for a credit and holds none receives a block of up to 8 lines of what is left, for
this frame; with nothing left it is refused, and the refusal is counted; while lines are left, a core that was refused
before comes first. -/
def Sys2Proof.persistCredits : Prop :=
  ∀ (s : State) (n c : Nat) (prio : Bool), n < 8 → c < 288 → s.dev.clocksOk = true →
    let d := s.dev
    let left := d.fld (psReg R.PERSIST_STATUS_LEFT n)
    let f := psReg R.PERSIST_STATUS_REFUSALS n
    d.creditLeft c n = 0 → (prio = true → c ∈ (d.stack n).refusals) →
    (d.creditBehind c n = true → Gives (.creditRequest n c prio) s s) ∧
    (d.creditBehind c n = false →
    (0 < left → GivesSome (.creditRequest n c prio) s fun t =>
      t.dev.creditLeft c n = min 8 left ∧ t.dev.fld (psReg R.PERSIST_STATUS_LEFT n) = left - min 8 left ∧
      c ∉ (t.dev.stack n).refusals) ∧
    (left = 0 → GivesSome (.creditRequest n c prio) s fun t =>
      t.dev.creditLeft c n = 0 ∧ t.dev.fld f = min (d.fld f + 1) (2 ^ f.width - 1) ∧ c ∈ (t.dev.stack n).refusals))

/-- R265, R270, R271: a line that waits at a stack is accepted, oldest first, while there is room: it is durable, a holder that waits is
told with Ack WB and flag P, and the direct writes that it carries are acknowledged. The oldest accepted line is written to
the media: exactly the bytes of its mask. A frame's epoch is closed once no closing entry and no direct write of it remains. -/
def Sys2Proof.intakeAcceptsAndWrites : Prop :=
  ∀ (s : State) (n : Nat), n < 8 → s.dev.clocksOk = true →
    let d := s.dev
    let k := d.stack n
    (∀ e, k.waitQ = [e] → d.flag (psReg R.PS_STATUS_MOUNTED n) = true → (∀ o ∈ k.accepted, o.g ≠ e.g) → k.accepted.length < 65536 →
      d.txn e.g = none → d.sliceQ e.g = [] →
      GivesSome (.intakeAccept n) s fun t =>
        (t.dev.stack n).waitQ = [] ∧ (t.dev.stack n).accepted = k.accepted ++ [e] ∧
        (∀ w ∈ t.dev.directPw, (w.strand, w.seq) ∉ e.direct) ∧
        (∀ a, e.ack = some a → t.dev.net = d.net ++ [⟨e.g, none, some a, .ack (.wb true)⟩]) ∧
        (e.ack = none → t.dev.net = d.net)) ∧
    (∀ e es, k.accepted = e :: es → d.flips = [] → GivesSome (.intakeMediaWrite n) s fun t =>
      (t.dev.stack n).accepted = es ∧
      (∀ i, i < 64 → t.dev.peatByte (64 * e.g + i) =
        if e.mask.getLsbD i then lineByte e.data i else d.peatByte (64 * e.g + i)) ∧
      (∀ a, (a < 64 * e.g ∨ 64 * e.g + 64 ≤ a) → t.dev.peatByte a = d.peatByte a) ∧
      t.dev.isPoisoned e.g = (e.poison || (d.isPoisoned e.g && e.mask != BitVec.allOnes 64)) ∧ t.dev.dram = d.dram) ∧
    (d.phase = .running → d.frame ≠ 0 → (∀ c, c < 288 → (d.tracker c).closing = []) →
      (∀ w ∈ d.directPw, d.frame.toNat ≤ w.frame.toNat) →
      Makes .epochClosed s (d.setReg R.EPOCH_CLOSED_EPOCH.reg (d.frame - 1)))

/-- R282: a persistent write that cannot be made durable leaves its stack's queue, its tracker entries are released and no
direct write of its line remains; every strand that had one learns of it, by its PSYNC in flight or its next one. -/
def Sys2Proof.failedPersistentWrites : Prop :=
  ∀ (s : State) (n g i : Nat) (e : Intake), n < 8 → lineOk g = true → i < 512 → s.dev.clocksOk = true →
    let d := s.dev
    d.drain = none → d.homedHere g = true → stackOf g = n → (d.stack n).waitQ = [e] → e.g = g → d.txn g = none →
    GivesSome (.persistWriteFailed n g) s fun t =>
      (t.dev.stack n).waitQ = [] ∧ (∀ w ∈ t.dev.directPw, w.line ≠ g) ∧ (∀ j, ∀ x ∈ (t.strand j).sb, j < 512 → ¬(x.sent = true ∧ x.pa / 64 = g)) ∧
      (i ∈ d.waitersOn g →
        (∀ o ∈ (t.strand i).longOps, ∀ up f, o.kind = .psync up f → f = true) ∧
        ((s.strand i).longOps = [] → i ∈ t.dev.failedPw))

/-- R283 to R285: a granule that leads the least-worn spare by DELTA starts to move to it, one move at a time; when the copy is
complete the map switches and the old granule is a spare. The governor's minute closes a bucket, and with EN 0 the limit
stays 16 GB/s. -/
def Sys2Proof.wearAndGovernor : Prop :=
  ∀ (s : State) (n a b : Nat), n < 8 → a < 131072 → b < 131072 → a ≠ b → s.dev.clocksOk = true →
    let d := s.dev
    let k := d.stack n
    let x := d.granule n a
    (k.move = none → d.leastSpare n = some b → x.use ≠ 3 → x.retired = false →
      (d.granule n b).wear / 524288 + max 1 (d.fld (psReg R.WL_CTL_DELTA n)) ≤ x.wear / 524288 →
      GivesSome (.wearMove n a) s fun t =>
        (t.dev.stack n).move = some (a, b) ∧ t.dev.flag (psReg R.PS_STATUS_MOVE_BUSY n) = true ∧ t.dev.wear = d.wear) ∧
    (k.move = some (a, b) → GivesSome (.wearMoveSwitch n) s fun t =>
      (t.dev.stack n).move = none ∧ t.dev.flag (psReg R.PS_STATUS_MOVE_BUSY n) = false ∧
      (t.dev.granule n b).use = x.use ∧ (t.dev.granule n b).logical = x.logical ∧
      (t.dev.granule n b).wear = (d.granule n b).wear + 524288 ∧ (t.dev.granule n a).use = 3 ∧
      (t.dev.granule n a).retired = decide (2 * 10 ^ 8 ≤ x.wear / 524288)) ∧
    (GivesSome (.governorMinute n) s fun t =>
      (t.dev.stack n).bucket = 0 ∧ (t.dev.stack n).buckets = (k.bucket :: k.buckets).take 1440 ∧
      (d.flag (psReg R.GOV_CTL_EN n) = false →
        t.dev.fld (psReg R.GOV_STATUS_LIMIT n) = 1600 ∧ t.dev.flag (psReg R.GOV_STATUS_LIMITED n) = false))

/-! ### The tick and the socket chain (R246 to R260, R443 to R455) -/

/-- R246, R253, R256: a tick adds 1 to the frame number, or takes the announced one; without power or before enumeration is over the number
stands. A task that is due and abandoned is counted, its misses grow, and TICK_EVENT.TASK_MISS is set. -/
def Sys2Proof.framesAdvance : Prop :=
  ∀ (s : State),
    let d := s.dev
    (d.phase = .stopped → d.chain.nextFrame = none → Makes .frameTick s (d.setReg R.FRAME_NUMBER.reg (d.frame + 1))) ∧
    (d.phase = .stopped → ∀ n, d.chain.nextFrame = some n → d.chain.resync ≠ 2 → GivesSome .frameTick s fun t =>
      t.dev.frame = n ∧ t.dev.chain.nextFrame = none) ∧
    (d.phase = .running → GivesSome .frameTick s fun t =>
      t.dev.frame = (match d.chain.nextFrame with
        | none => d.frame + 1
        | some n => n) ∧ t.dev.phase = .running) ∧
    (d.phase = .off ∨ d.phase = .booting ∨ d.phase = .drained → Gives .frameTick s s) ∧
    (∀ n, n < 16 → (d.chan n).owed = true → GivesSome (.taskAbandon (.retrain n)) s fun t =>
      (t.dev.chan n).misses = (d.chan n).misses + 1 ∧ (t.dev.chan n).owed = true ∧
      t.dev.fld R.TICK_EVENT_TASK_MISS = 1)

/-- A message is added to those that the socket has sent on the chain, unless messages are down (R449, R453). -/
def Sys2Proof.chainSent (d : Dev) (typ : Nat) (bs : List Byte) : List (Nat × List Byte) :=
  if d.flag R.CHAIN_STATUS_MSG_DOWN then d.chain.sent else d.chain.sent ++ [(typ, bs)]

/-- R446, R447, R248: enumeration. A token of value v below 7 gives the ID v + 1 and goes on as v + 1; value 7 or an overflow
mark gives none; at the head it ends the enumeration with the PRESENT mask. A ping is echoed; the echo gives the hop; DELAY
adds it to the upstream D; the head announces COMP, 40 ns more than the largest D. -/
def Sys2Proof.chainEnumeration : Prop :=
  ∀ (s : State),
    let d := s.dev
    let head := d.flag R.IDENT_CHAIN_HEAD
    (∀ v ov, v < 8 → d.chain.enumerated = false → head = true → GivesSome (.enum v ov) s fun t =>
      t.dev.fld R.CHAIN_STATUS_PRESENT = 2 ^ (v + 1) - 1 ∧ t.dev.chain.enumerated = true ∧
      (ov = true → t.dev.flag R.CHAIN_STATUS_OVERFLOW = true)) ∧
    (∀ v, v < 7 → d.chain.enumerated = false → head = false → GivesSome (.enum v false) s fun t =>
      t.dev.self = v + 1 ∧ t.dev.chain.enumerated = true ∧ t.dev.chain.sent = chainSent d 1 [BitVec.ofNat 8 (v + 1), 0]) ∧
    (∀ v ov, v < 8 → v = 7 ∨ ov = true → d.chain.enumerated = false → head = false → GivesSome (.enum v ov) s fun t =>
      t.dev.flag R.CHAIN_STATUS_UNADDRESSED = true ∧ t.dev.flag R.CHAIN_STATUS_OVERFLOW = true ∧ t.dev.self = d.self ∧
      t.dev.chain.enumerated = false) ∧
    (head = true → d.chain.enumerated = false → GivesSome .enumRetry s fun t =>
      t.dev.self = 0 ∧ t.dev.chain.sent = chainSent d 1 [0, 0]) ∧
    (GivesSome .ping s fun t => t.dev.chain = { d.chain with echo := true }) ∧
    (∀ r, d.chain.pinging = true → GivesSome (.echo r) s fun t => t.dev.chain.pinging = false ∧
      t.dev.chain.sent = chainSent d 2 (leBytes 2 ((r - 160 + 1) / 2) ++ leBytes 2 (d.fld R.TICK_CTL_DELAY))) ∧
    (∀ h up, h < 1024 → up + h < 65536 → head = false → GivesSome (.delay h up) s fun t =>
      t.dev.fld R.CHAIN_STATUS_HOP = h ∧ t.dev.fld R.TICK_CTL_DELAY = up + h) ∧
    (∀ h up, h ≤ 120 → up + h ≤ 880 → head = true → GivesSome (.delay h up) s fun t =>
      t.dev.fld R.CHAIN_STATUS_HOP = h ∧ t.dev.fld R.TICK_CTL_COMP = up + 32 ∧
      t.dev.chain.sent = chainSent d 3 (leBytes 2 (up + 32))) ∧
    (∀ c, c < 65536 → Makes (.comp c) s (d.setFld R.TICK_CTL_COMP c)) ∧
    (∀ f, GivesSome (.frameStart f) s fun t => t.dev.chain = { d.chain with nextFrame := some f })

/-- R449, R452, R454, R455: a message that returns well is done, one that returns marked is sent again up to three times and then dropped and
counted. A chain break sets IN_LOST and MSG_DOWN and counts; at the head it is a tick loss too. A CHECK that names this
socket, or at the head a closed ring of 64 good ticks in which every ID answers, clears them. -/
def Sys2Proof.chainMessagesAndBreaks : Prop :=
  ∀ (s : State),
    let d := s.dev
    let head := d.flag R.IDENT_CHAIN_HEAD
    let e := R.CHAIN_STATUS_MSG_ERRORS
    let b := R.CHAIN_STATUS_BREAKS
    (∀ m ms, d.chain.sent = m :: ms →
      (GivesSome (.chainMessageReturn true) s fun t => t.dev.chain.sent = ms ∧ t.dev.chain.retries = 0) ∧
      (d.chain.retries < 3 → GivesSome (.chainMessageReturn false) s fun t =>
        t.dev.chain.sent = m :: ms ∧ t.dev.chain.retries = d.chain.retries + 1) ∧
      (3 ≤ d.chain.retries → GivesSome (.chainMessageReturn false) s fun t =>
        t.dev.chain.sent = ms ∧ t.dev.fld e = min (d.fld e + 1) (2 ^ e.width - 1))) ∧
    (d.chain.enumerated = true → d.flag R.CHAIN_STATUS_IN_LOST = false → GivesSome .chainBreak s fun t =>
      t.dev.flag R.CHAIN_STATUS_IN_LOST = true ∧ t.dev.flag R.CHAIN_STATUS_MSG_DOWN = true ∧
      t.dev.fld b = min (d.fld b + 1) (2 ^ b.width - 1) ∧
      (head = true → t.dev.flag R.CHAIN_STATUS_RING_OK = false ∧ t.dev.fld R.TICK_STATUS_SOURCE = 1)) ∧
    (∀ mask : BitVec 8, head = false → mask.getLsbD d.self = true → GivesSome (.check mask) s fun t =>
      t.dev.flag R.CHAIN_STATUS_IN_LOST = false ∧ t.dev.flag R.CHAIN_STATUS_MSG_DOWN = false) ∧
    (∀ ans : BitVec 8, head = true → d.flag R.CHAIN_STATUS_MSG_DOWN = true → 64 ≤ d.chain.good →
      (ans.toNat ||| 2 ^ d.self) &&& d.fld R.CHAIN_STATUS_PRESENT = d.fld R.CHAIN_STATUS_PRESENT →
      GivesSome (.ringCloseCheck ans false) s fun t =>
        t.dev.flag R.CHAIN_STATUS_MSG_DOWN = false ∧ t.dev.flag R.CHAIN_STATUS_IN_LOST = false ∧
        t.dev.flag R.CHAIN_STATUS_RING_OK = true)

/-- R254, R256: a pulse within 40 ns is good, and beyond 15 ns skewed; a missing one, or one further off, is a miss; the third miss in a
row is a tick loss, from which the socket runs on its local tick. Resynchronisation: a socket that aligns reports its frame
number; the head chooses the highest plus 1,024; every other socket takes that number at its next tick; one that does not align
stays on its local tick. -/
def Sys2Proof.tickLossAndResynchronisation : Prop :=
  ∀ (s : State),
    let d := s.dev
    let head := d.flag R.IDENT_CHAIN_HEAD
    let l := R.TICK_STATUS_LOSSES
    (∀ o : BitVec 16, o.toInt.natAbs ≤ 32 → GivesSome (.chainTickPulse (some o)) s fun t =>
      t.dev.fld R.TICK_STATUS_OFFSET = o.toNat ∧ t.dev.chain.misses = 0 ∧ t.dev.chain.good = d.chain.good + 1 ∧
      (12 < o.toInt.natAbs → d.fld R.TICK_STATUS_SOURCE = 0 → t.dev.fld R.TICK_EVENT_SKEW = 1)) ∧
    (∀ off : Option (BitVec 16), (∀ o, off = some o → 32 < o.toInt.natAbs) → GivesSome (.chainTickPulse off) s fun t =>
      t.dev.chain.misses = d.chain.misses + 1 ∧ t.dev.chain.good = 0) ∧
    (3 ≤ d.chain.misses → d.fld R.TICK_STATUS_SOURCE ≠ 1 → GivesSome .tickLoss s fun t =>
      t.dev.fld R.TICK_STATUS_SOURCE = 1 ∧ t.dev.reg R.TICK_LOST_AT_NUMBER.reg = d.frame ∧
      t.dev.fld l = min (d.fld l + 1) (2 ^ l.width - 1) ∧ t.dev.fld R.TICK_EVENT_LOST = 1) ∧
    (head = false → d.flag R.CHAIN_STATUS_MSG_DOWN = false → d.chain.resync = 1 → d.fld R.TICK_STATUS_SOURCE = 1 →
      GivesSome .resyncStart s fun t =>
        t.dev.fld R.TICK_STATUS_SOURCE = 2 ∧ t.dev.chain.sent = d.chain.sent ++ [(5, leBytes 8 d.frame.toNat)]) ∧
    (∀ req v, reqOk req = true → head = true → d.flag R.CHAIN_STATUS_MSG_DOWN = false → v.getLsbD 33 = true →
      d.fld R.CHAIN_STATUS_PRESENT = 2 ^ d.self → GivesSome (.resyncReq req v) s fun t =>
        t.dev.chain.nextFrame = some (d.frame + 1024) ∧ t.dev.chain.resync = 2) ∧
    (∀ src f, src < 8 → head = true → d.chain.resync = 1 →
      (d.chain.reports ||| 2 ^ src) &&& d.fld R.CHAIN_STATUS_PRESENT = d.fld R.CHAIN_STATUS_PRESENT →
      GivesSome (.resyncReport src f) s fun t =>
        t.dev.chain.nextFrame = some ((if d.chain.maxReport.toNat < f.toNat then f else d.chain.maxReport) + 1024)) ∧
    (∀ n, head = false → GivesSome (.resyncSet n) s fun t =>
      t.dev.chain.nextFrame = some n ∧ t.dev.chain.resync = 2) ∧
    (d.fld R.TICK_STATUS_SOURCE = 2 → GivesSome .resyncTimeout s fun t =>
      t.dev.fld R.TICK_STATUS_SOURCE = 1 ∧ t.dev.chain.resync = 0)

/-- Software refills, and the commands of the I/O invalidation queue. -/
def Obligations.RefillsAndInvalidations : Prop := refillInstallsLeaves ∧ invalidationQueue

/-- Credits, the intake and the writes to the media; writes that fail, wear moves and the write governor. -/
def Obligations.PersistenceDomain : Prop :=
  persistCredits ∧ intakeAcceptsAndWrites ∧ failedPersistentWrites ∧ wearAndGovernor

/-- Frames, and the loss and return of the tick. -/
def Obligations.TicksAndFrames : Prop := framesAdvance ∧ tickLossAndResynchronisation

/-- The enumeration of the chain, its messages and its breaks. -/
def Obligations.ChainMessages : Prop := chainEnumeration ∧ chainMessagesAndBreaks

/-! ### The register space (R11, R12, R35, R38) and the router (R466 to R483) -/

/-- The registers whose write may raise an event line (R260, R362). -/
def Sys2Proof.eventRegs : List Nat :=
  [R.TICK_EVENT_LOST.reg, R.TICK_EVENT_EN_BITS.reg, R.ERR_EVENT_RECORD.reg, R.ERR_EVENT_EN_BITS.reg]

/-- A register of the model's map, at an offset of the socket's register space or of the Ledger Engine's BAR, that acts on
nothing but itself when it is written: no family has an operation for it. -/
def Sys2Proof.plainReg (s : State) (req : Requester) (off : Nat) (v : Word) (r : RegSpec) : Prop :=
  regAt off = some r ∧ off < 2 ^ 33 ∧ off % 8 = 0 ∧ inWindow off = false ∧ s.socWrite req r.base off v = none ∧
  s.unitWrite req r.base off v = none ∧ s.mailWrite req r.base off v = none ∧ s.dev.barWrite r.base off v = none

/-- R12 with R11's access codes: what each bit of a register takes from a write and gives to a read. A bit that no field covers is never
written and reads 0. Every register of the map has fields that do not overlap. A write of a register that acts on nothing else
leaves exactly that word; one of an offset that is not a multiple of 8 does nothing. -/
def Obligations.RegistersFollowTheirAccessCodes : Prop :=
  (∀ r ∈ regTable, ∀ (locked : Bool) (old v : Word) (b : Nat), b < 64 →
    (∀ f ∈ r.fields, f.fld.lo ≤ b → b < f.fld.lo + f.fld.width →
      (writeWord locked r old v).getLsbD b = (match f.acc with
        | .ro | .wo => old.getLsbD b
        | .rw | .rws => v.getLsbD b
        | .rwl => if locked then old.getLsbD b else v.getLsbD b
        | .rw1c => old.getLsbD b && !v.getLsbD b
        | .rw1cf => old.getLsbD b && decide (f.fld.get v = 0)) ∧
      (readWord r old).getLsbD b = (f.acc != .wo && old.getLsbD b)) ∧
    ((∀ f ∈ r.fields, ¬(f.fld.lo ≤ b ∧ b < f.fld.lo + f.fld.width)) →
      (writeWord locked r old v).getLsbD b = old.getLsbD b ∧ (readWord r old).getLsbD b = false)) ∧
  (∀ (s : State) (req : Requester) (off : Nat) (v : Word) (r : RegSpec), reqOk req = true → plainReg s req off v r →
    off ∉ eventRegs → Makes (.registerWrite req off v) s (s.dev.setReg off (writeWord s.dev.locked r (s.dev.reg off) v))) ∧
  (∀ (s : State) (req : Requester) (off : Nat) (v : Word), reqOk req = true → off < 2 ^ 33 → off % 8 ≠ 0 →
    Gives (.registerWrite req off v) s s)

/-- R35: an access to an offset that no block defines changes nothing but `SOC.HOLE`, which the first one loads. -/
def Sys2Proof.undefinedOffsetsAreRecordedOnce : Prop :=
  ∀ (s : State) (req : Requester) (off : Nat) (w : Bool), reqOk req = true → off < 2 ^ 28 → off % 8 = 0 → definedOff off = false →
    (s.dev.flag R.HOLE_VALID = true → Gives (.undefinedOffsetAccess req off w) s s) ∧
    (s.dev.flag R.HOLE_VALID = false → MakesSome (.undefinedOffsetAccess req off w) s fun d =>
      d.flag R.HOLE_VALID = true ∧ d.fld R.HOLE_OFFSET = off ∧ d.fld R.HOLE_WRITE = (if w then 1 else 0) ∧
      d.fld R.HOLE_REQUESTER = (match req with
        | .strand g => 512 * s.dev.self + g
        | .other => 0xFFF) ∧
      (∀ x, x ≠ R.HOLE_OFFSET.reg → d.reg x = s.dev.reg x)) ∧
    (∀ v, ∃ d, Makes (.registerWrite req off v) s d ∧ Makes (.undefinedOffsetAccess req off true) s d)

/-- R38: boot-lock: the write of 1 sets BOOT_LOCK; a partition table that does not fit is switched off; the steward stores the lockable registers
as they then stand (R510). Once locked, nothing of it happens again. -/
def Sys2Proof.bootLock : Prop :=
  ∀ (s : State) (req : Requester) (v : Word), reqOk req = true →
    (s.dev.locked = true ∨ v.getLsbD 0 = false → Gives (.bootLock req v) s s) ∧
    (s.dev.locked = false → v.getLsbD 0 = true → MakesSome (.bootLock req v) s fun d =>
      d.locked = true ∧ d.flag R.POT_BASE_EN = (s.dev.flag R.POT_BASE_EN && s.dev.potFits) ∧
      d.fw.snapshot = some d.lockedSnapshot ∧
      (∀ x, x ≠ R.LOCK_BOOT_LOCK.reg → x ≠ R.POT_BASE_EN.reg → d.reg x = s.dev.reg x) ∧ d.dram = s.dev.dram ∧ d.peat = s.dev.peat)

/-- R23, R25: a cold spare becomes warm while fewer than WARM_TARGET are: idle, with no line and no translation. R30: a
restart of the steward is counted and shown. -/
def Sys2Proof.sparesWarmAndTheStewardRestarts : Prop :=
  ∀ (s : State),
    let d := s.dev
    let f := R.STW_STATUS_RESTARTS
    (∀ c, c < 288 →
      (d.coreState c = 2 → d.warmSpares < d.fld R.CORE_COUNT_WARM_TARGET → MakesSome (.warmSpare c) s fun e =>
        e.coreState c = 3 ∧ e.fld (R.CORE_PWR_STATE.at (8 * c)) = 2 ∧ e.linesOf c = [] ∧ e.tlbOf c = [] ∧
        (∀ k, k ≠ c → k < 288 → e.coreState k = d.coreState k ∧ e.tlbOf k = d.tlbOf k)) ∧
      (d.coreState c ≠ 2 ∨ d.fld R.CORE_COUNT_WARM_TARGET ≤ d.warmSpares → Gives (.warmSpare c) s s)) ∧
    MakesSome .stewardWatchdogRestart s fun e =>
      e.fld R.STW_STATUS_STATE = 1 ∧ e.fld f = min (d.fld f + 1) (2 ^ f.width - 1) ∧ e.dram = d.dram ∧ e.peat = d.peat

/-- Whether vector v of strand g is pending: its bit, or for vector 1,023 the timer's condition (R257, R468). -/
def Sys2Proof.pendingAt (s : State) (g v : Nat) : Bool :=
  if v = 1023 then (s.strand g).te && (s.strand g).timecmp.toNat ≤ s.dev.frame.toNat
  else (s.dev.reg (R.PEND_BITS.reg + 0x100 * g + 8 * (v / 64))).getLsbD (v % 64)

/-- The level that R65 gives an interrupt of class k: S where HSTATUS delegates the class, else H. -/
def Sys2Proof.classLevel (x : Strand) (k : Nat) : Nat := if x.hstatus.getLsbD (18 + k) then 1 else 2

/-- Takeable, as R467 defines it: the class is not below THRESH, and its level is above the strand's, or is the strand's with IE set. -/
def Sys2Proof.canTake (s : State) (g v : Nat) : Prop :=
  let x := s.strand g
  let l := classLevel x (v / 64)
  0 < v ∧ v < 1024 ∧ pendingAt s g v = true ∧ s.dev.fld (R.STRAND_CTL_THRESH.at (0x100 * g)) ≤ v / 64 ∧
    (x.pl < l ∨ (x.pl = l ∧ x.ie = true))

/-- R467, R468: at a boundary the strand takes the highest takeable vector: its pending bit is cleared and the entry follows R66 with CAUSE
naming the vector and its class; the timer's vector clears nothing. A strand lost that waits comes first (R351). With
nothing takeable nothing happens. -/
def Obligations.InterruptsAreTakenHighestFirst : Prop :=
  ∀ (s : State) (g : Nat), g < 512 → s.dev.clocksOk = true → s.atBoundary g = true → (s.strand g).shadow = none →
    let x := s.strand g
    let cause (v : Nat) : Word := BitVec.ofNat 64 (2 ^ 63 + 2 ^ 18 * (v / 64) + 2 ^ 8 * v)
    (x.lost = [] → (∀ v, ¬canTake s g v) → Gives (.interruptEntry g) s s) ∧
    (∀ v, x.lost = [] → canTake s g v → (∀ w, v < w → ¬canTake s g w) →
      let s1 := s.setStrand g { x with tsync := false }
      let off := R.PEND_BITS.reg + 0x100 * g + 8 * (v / 64)
      let d1 := if v = 1023 then s1.dev else s1.dev.setReg off (s1.dev.reg off &&& ~~~(1#64 <<< (v % 64)))
      Gives (.interruptEntry g) s
        (({ s1 with dev := d1 } : State).enter g (classLevel x (v / 64)) .interrupt x.pc (cause v) false none none .none none)) ∧
    (∀ r rest, x.lost = r :: rest →
      Gives (.interruptEntry g) s
        ((s.setStrand g { x with
          tsync := false
          lost := rest }).enter g 2 .lost x.pc 0x11#64 false none none (.idx r) none)) ∧
    Gives (.timecmpReached g) s s

/-- R474: direct delivery. Vector 0 and vector 1,023 are never sent (R483): such a vector is counted as invalid. -/
def Sys2Proof.deliveryRules (d : Dev) : Prop :=
  ∀ (t v : Nat), t < 4096 → v < 1024 →
    let e := d.deliver t v
    let off := R.PEND_BITS.reg + 0x100 * (t % 512) + 8 * (v / 64)
    let a := R.IR_DROP_ABSENT
    let i := R.IR_DROP_INVALID
    (v = 0 ∨ v = 1023 → e.fld i = min (d.fld i + 1) (2 ^ 32 - 1) ∧ e.fld a = d.fld a) ∧
    (v ≠ 0 → v ≠ 1023 → t / 512 = d.self → d.coreThere (t % 512 / 2) = true →
      e.reg off = d.reg off ||| (1#64 <<< (v % 64)) ∧ ∀ x, x ≠ off → e.reg x = d.reg x) ∧
    (v ≠ 0 → v ≠ 1023 → (if t / 512 = d.self then d.coreThere (t % 512 / 2) = false
        else (d.fld R.CHAIN_STATUS_COHERENT).testBit (t / 512) = false) →
      e.fld a = min (d.fld a + 1) (2 ^ 32 - 1) ∧ e.fld i = d.fld i)

/-- R470 to R475, R479: interrupt messages and their remapping, sends, wakes and socket events. Direct delivery follows R474. A
message outside the window is none; with IRT_BASE.EN 0 it is discarded. Given the entry that its index names (R473), a message is discarded when the entry is not
valid, the requester ID does not match or the vector is 0 or 1,023, and else, for a direct entry, delivered to its TARGET. -/
def Sys2Proof.interruptDelivery : Prop :=
  ∀ (s : State),
    let d := s.dev
    deliveryRules d ∧
    (∀ req (v : Word), reqOk req = true → v.getLsbD 22 = false →
      Makes (.irSend req v) s (d.deliver (v.extractLsb' 0 12).toNat (v.extractLsb' 12 10).toNat)) ∧
    (∀ req (v : Word), reqOk req = true → v.getLsbD 22 = true →
      let g := (v.extractLsb' 0 9).toNat
      (v.extractLsb' 9 3).toNat = d.self → d.coreThere (g / 2) = true →
      (g % 2 = 1 → (d.pm (g / 2)).holdsWake = false) → GivesSome (.irWake req v) s fun t =>
        t.strand g = { s.strand g with parked := false } ∧ ∀ k, k ≠ g → t.strand k = s.strand k) ∧
    (∀ req (v : Word), reqOk req = true →
      (v.getLsbD 16 = true → Makes (.irInv req v) s { d with irt := [] }) ∧
      (v.getLsbD 16 = false → MakesSome (.irInv req v) s fun e =>
        e.irt = d.irt.filter fun x => x.idx != (v.extractLsb' 0 16).toNat)) ∧
    (∀ rid addr n x, d.clocksOk = true →
      let idx := x.toNat % 65536
      let bad := R.IR_DROP_INVALID
      (d.inMsgWindow addr = false → Gives (.interruptMessage rid addr n x) s s) ∧
      (d.inMsgWindow addr = true → d.flag R.IR_IRT_BASE_EN = false → MakesSome (.interruptMessage rid addr n x) s fun e =>
        min (d.fld bad + 1) (2 ^ 32 - 1) ≤ e.fld bad ∧
        (d.flag R.IR_FAULT_VALID = false → e.flag R.IR_FAULT_VALID = true ∧ e.fld R.IR_FAULT_RID = rid.toNat ∧
          e.fld R.IR_FAULT_INDEX = idx)) ∧
      (d.inMsgWindow addr = true → d.flag R.IR_IRT_BASE_EN = true → idx < d.irtSize → n = 4 → addr.toNat % 4 = 0 →
        ∀ w0 w1 d', d.irtEntry idx = ((w0, w1), d') →
          let vec := (w0.extractLsb' 2 10).toNat
          let other := (w0.extractLsb' 24 16 ^^^ rid) &&& w0.extractLsb' 40 16 ≠ 0#16
          (w0.getLsbD 0 = false ∨ other ∨ vec = 0 ∨ vec = 1023 → MakesSome (.interruptMessage rid addr n x) s fun e =>
            min (d'.fld bad + 1) (2 ^ 32 - 1) ≤ e.fld bad) ∧
          (w0.getLsbD 0 = true → ¬other → vec ≠ 0 → vec ≠ 1023 → w0.getLsbD 1 = false →
            Makes (.interruptMessage rid addr n x) s (d'.deliver (w0.extractLsb' 12 12).toNat vec)))) ∧
    (∀ e, e < 8 →
      (e < 2 → d.lineHigh e = true → d.flag (R.IR_EVROUTE_EN.at (8 * e)) = true → Makes (.socketEvent e) s
        (d.deliver (d.fld (R.IR_EVROUTE_TARGET.at (8 * e))) (d.fld (R.IR_EVROUTE_VECTOR.at (8 * e))))) ∧
      (e < 2 → d.lineHigh e = false → Gives (.socketEvent e) s s) ∧
      (2 ≤ e → e < 4 → d.flag (R.IR_EVROUTE_EN.at (8 * e)) = true → Makes (.socketEvent e) s
        (d.deliver (d.fld (R.IR_EVROUTE_TARGET.at (8 * e))) (d.fld (R.IR_EVROUTE_VECTOR.at (8 * e))))) ∧
      (4 ≤ e → Gives (.socketEvent e) s s))

/-- R478: a bind of a strand that is bound, or to a block that is bound, is refused; a bind takes the classes of BIND_CLASS; an unbind with
no pending vector clears the block's bound bit and EN and keeps the address written; an unbind of a strand that is not bound writes the address alone. -/
def Sys2Proof.bindAndUnbind : Prop :=
  ∀ (s : State) (req : Requester) (i : Nat) (v : Word), reqOk req = true → i < 512 → v.getLsbD 1 = false →
    let d := s.dev
    let en := R.BIND_EN.at (0x100 * i)
    let refused := R.BIND_REFUSED.at (0x100 * i)
    let addr := R.BIND_ADDR.at (0x100 * i)
    let named := (v.extractLsb' 8 44).toNat
    (v.getLsbD 0 = true → d.flag en = true → Makes (.bind req i v) s (d.setFld refused 1)) ∧
    (v.getLsbD 0 = true → d.flag en = false → ∀ head d', d.farWord (256 * named) (fun x => x) = (head, d') →
      (head % 2 = 1 → Makes (.bind req i v) s (d'.setFld refused 1)) ∧
      (head % 2 = 0 → MakesSome (.bind req i v) s fun e => e.flag en = true ∧ e.fld addr = named ∧
        SMap.get (fun _ => 0) e.bindCls i = d.fld (R.BIND_CLASS_CLASSES.at (0x100 * i)))) ∧
    (v.getLsbD 0 = false → d.flag en = false → Makes (.unbind req i v) s (d.setFld addr named)) ∧
    (v.getLsbD 0 = false → d.flag en = true → (∀ k, k < 16 → d.reg (R.PEND_BITS.reg + 0x100 * i + 8 * k) = 0) →
      let d' := (d.farWord (256 * d.fld addr) fun x => x / 2 * 2).2
      Makes (.unbind req i v) s
        ({ d'.setFld en 0 with bindCls := SMap.set (fun _ => 0) d'.bindCls i 0 }.setFld addr named))

/-- Undefined offsets, the boot lock, warm spares, and the steward's restart. -/
def Obligations.LocksAndSpares : Prop := undefinedOffsetsAreRecordedOnce ∧ bootLock ∧ sparesWarmAndTheStewardRestarts

/-- Interrupts on their way to strands and blocks, and their binding. -/
def Obligations.InterruptsAreDelivered : Prop := interruptDelivery ∧ bindAndUnbind

/-! ### The security engine: sealed domains and its mailboxes (R379 to R406, R508, R540) -/

/-- The SECALL at strand g reads its command block b, in piece p of the caller's memory, and u is the state in which the
engine meets the command (R135). -/
def Sys2Proof.secallReads (s : State) (g : Nat) (e : SysEnc) (u : State) (p : Piece) (b : Block) : Prop :=
  ready s g (secallInsn 0 e ((begun s g).strand g)) = true ∧
  ∀ f, (begun s g).secallBlock g (((begun s g).strand g).getN e.a) f = f u p b

/-- None of the statuses of R540 that precede the command's own applies: the engine runs, the socket is locked, the partition
table is on, and the caller stands on the side that may give the command. -/
def Sys2Proof.engineOpen (u : State) (g : Nat) (inside : Bool) : Prop :=
  u.dev.fld R.SE_STATUS_STATE = 1 ∧ u.dev.phase = .running ∧ u.dev.locked = true ∧ u.dev.flag R.POT_BASE_EN = true ∧
  (u.strand g).sealedB = inside

/-- The SECALL retires with a status other than OK: nothing else has changed (R540); the upper bits of d are not stated. -/
def Sys2Proof.secallRefused (c : Instr) (s : State) (g : Nat) (e : SysEnc) (u : State) (st : Nat) : Prop :=
  ∃ r0 : Word, Gives c s
    ((({ u with dev := { u.dev with free := u.dev.free + 1 } } : State).setN g e.d
      (BitVec.ofNat 64 (st + 256 * (r0.toNat % 2 ^ 56)))).retire g)

/-- The SECALL retires with OK in state t, of which Q holds: RESULT0 and RESULT1 go to the block and RESULT0 to d (R395). A result that the
spec does not give is a free word. -/
def Sys2Proof.secallDone (c : Instr) (s : State) (g : Nat) (e : SysEnc) (p : Piece) (a b : Option Word) (Q : State → Prop) : Prop :=
  ∃ (t : State) (k : Nat) (r0 r1 : Word), Q t ∧ (∀ w, a = some w → r0 = w) ∧ (∀ w, b = some w → r1 = w) ∧
    Gives c s ((({ t with dev := ({ t.dev with free := k } : Dev).writeResults p r0 r1 } : State).setN g e.d
      (BitVec.ofNat 64 (256 * (r0.toNat % 2 ^ 56)))).retire g)

/-- A page's entry of the partition table: state (0 HOST, 1 DOMAIN, 2 PENDING, 3 DEAD, 4 SYSTEM), domain, intermediate page, rights. -/
def Sys2Proof.potEntry (d : Dev) (page : Nat) : Pot := SMap.get (fun _ => ⟨0, 0, 0, 0⟩) d.pot page

/-- R395 to R397, R540: CREATE, ADD_PAGE, ADD_ZERO and SEAL: when each is accepted, what becomes of the domain's record, of the
pages' entries and of the key slots; the measurement as R396 builds it; and the statuses of the refusals. -/
def Obligations.SealedDomainsAreBuilt : Prop :=
  ∀ (s : State) (g : Nat) (e : SysEnc) (u : State) (p : Piece) (b : Block), secallReads s g e u p b →
    let d := u.dev
    let n := b.arg0.toNat
    let ipa := (b.arg2.extractLsb' 12 40).toNat
    let rights := (b.arg2.extractLsb' 0 3).toNat
    secallRefused (.secallBusy g 0 e) s g e u 1 ∧
    (engineOpen u g false → d.fw.randomBad = false →
      (b.code = 1 → d.flag R.SE_STATUS_DEBUG = true → secallRefused (.create g 0 e) s g e u 8) ∧
      (b.code = 1 → d.flag R.SE_STATUS_DEBUG = false → n = 0 ∨ 512 < n → secallRefused (.create g 0 e) s g e u 3) ∧
      (b.code = 1 → d.flag R.SE_STATUS_DEBUG = false → 1 ≤ n → n ≤ 512 → d.pagesIn b.arg1 n 0 = true →
        d.pagesBusy (pageRun b.arg1 n) = false → ∀ k i d', d.freeSlot = some k → d.freeDomain = (some i, d') →
        secallDone (.create g 0 e) s g e p (some (BitVec.ofNat 64 i)) (some (BitVec.ofNat 64 k)) fun t =>
          t.strands = u.strands ∧ (t.dev.slot k).cls = 3 ∧ (t.dev.slot k).dom = i ∧
          (∀ j, j < n → potEntry t.dev (b.arg1.toNat / 4096 + j) = ⟨4, 0, 0, 0⟩) ∧
          ∃ m, t.dev.domain i = some m ∧ m.built = false ∧ m.vcpus.length = n ∧ m.key3 = k ∧ m.key4 = none ∧
            m.measure = Config.sha3 ([0x63, 0x72, 0x65, 0x61, 0x74, 0x65] ++ leBytes 8 n ++ leBytes 8 b.arg2.toNat))) ∧
    (engineOpen u g false →
      (b.code = 2 → d.domain b.dom = none → secallRefused (.addPage g 0 e) s g e u 4) ∧
      (∀ m, d.domain b.dom = some m →
        (b.code = 2 → m.built = true → secallRefused (.addPage g 0 e) s g e u 4) ∧
        (b.code = 2 → m.built = false → d.pagesIn b.arg0 1 0 = true → d.pagesIn b.arg1 1 0 = true →
          d.pagesBusy [b.arg0.toNat / 4096, b.arg1.toNat / 4096] = false →
          secallDone (.addPage g 0 e) s g e p none none fun t =>
            t.strands = u.strands ∧ potEntry t.dev (b.arg0.toNat / 4096) = ⟨1, b.dom, ipa, rights⟩ ∧
            ∃ page : List Byte, t.dev.domain b.dom = some { m with
              measure := Config.sha3 (lineBytes m.measure ++ leBytes 8 (4096 * ipa) ++ [BitVec.ofNat 8 rights]
                ++ lineBytes (Config.sha3 page)) }) ∧
        (b.code = 3 → 1 ≤ b.arg1.toNat → b.arg1.toNat ≤ 256 → d.pagesIn b.arg0 b.arg1.toNat 0 = true →
          d.pagesBusy (pageRun b.arg0 b.arg1.toNat) = false →
          secallDone (.addZero g 0 e) s g e p none none fun t =>
            t.strands = u.strands ∧
            (∀ j, j < b.arg1.toNat → potEntry t.dev (b.arg0.toNat / 4096 + j) =
              ⟨if m.built then 2 else 1, b.dom, (ipa + j) % 2 ^ 40, rights⟩) ∧
            (m.built = false → b.arg1 = 1 → t.dev.domain b.dom = some { m with
              measure := Config.sha3 (lineBytes m.measure ++ leBytes 8 (4096 * ipa) ++ [BitVec.ofNat 8 rights]
                ++ [0x7A, 0x65, 0x72, 0x6F]) })) ∧
        (b.code = 4 → m.built = true → secallRefused (.sealDomain g 0 e) s g e u 4) ∧
        (b.code = 4 → m.built = false → b.flags % 2 = 0 → secallDone (.sealDomain g 0 e) s g e p none none fun t =>
          t = { u with dev := d.setDomain b.dom (some { m with built := true }) }) ∧
        (b.code = 4 → m.built = false → b.flags % 2 = 1 → ∀ k, d.freeSlot = some k →
          secallDone (.sealDomain g 0 e) s g e p none (some (BitVec.ofNat 64 k)) fun t =>
            t.strands = u.strands ∧ (t.dev.slot k).cls = 4 ∧ (t.dev.slot k).dom = b.dom ∧
            t.dev.domain b.dom = some { m with
              built := true
              key4 := some k })))

/-- R395, R398: ENTER continues at S at the vCPU's saved PC with SEALED set and a cleared d if it waits at an EXIT; EXIT is the sealed exit with
code 0x0B, from which the vCPU goes on after its SECALL; ACCEPT, RELEASE, SHARE_REGS and REPORT act on the caller's own domain. -/
def Sys2Proof.sealedDomainsRun : Prop :=
  ∀ (s : State) (g : Nat) (e : SysEnc) (u : State) (p : Piece) (b : Block), secallReads s g e u p b →
    let d := u.dev
    let x := u.strand g
    (engineOpen u g false → b.code = 5 → ∀ m v, d.domain b.dom = some m → m.vcpus[b.arg0.toNat]? = some v →
      (m.built = false ∨ v.running = true ∨ v.inImage = true → secallRefused (.enter g 0 e) s g e u 4) ∧
      (m.built = true → v.running = false → v.inImage = false → v.st.status.extractLsb' 0 2 = 0#2 →
        GivesSome (.enter g 0 e) s fun t =>
          let y := t.strand g
          y.pl = 1 ∧ y.sealedB = true ∧ y.pc = v.st.pc &&& ~~~3#64 ∧ y.inside = some (b.dom, b.arg0.toNat) ∧ y.v = v.st.v ∧
          y.bankH = x.bankH.masked ∧ (SMap.wf (fun _ => 0) x.n = true → ∀ r, v.exitD = some r → y.getN r = 0) ∧
          (t.dev.domain b.dom).map (fun q => q.vcpus[b.arg0.toNat]?.map fun w => w.running) = some (some true) ∧
          ∀ k, k ≠ g → t.strand k = u.strand k)) ∧
    (engineOpen u g true → b.code = 10 → x.longOps = [] →
      Gives (.exit g 0 e) s (u.enter g 2 .exception (x.pc + 4) (excCause 0x0B x.position) false none none .none (some e.d))) ∧
    (engineOpen u g true → ∀ dom m, u.ownDomain g = some (dom, m) →
      (b.code = 6 → b.arg0.toNat % 4096 = 0 → ∀ page, d.pageAt dom 2 (b.arg0.toNat / 4096) = some page →
        secallDone (.accept g 0 e) s g e p none none fun t =>
          t = { u with dev := d.setPot page { d.potOf (4096 * page) with st := 1 } }) ∧
      (b.code = 6 → b.arg0.toNat % 4096 = 0 → d.pageAt dom 2 (b.arg0.toNat / 4096) = none →
        secallRefused (.accept g 0 e) s g e u 5) ∧
      (b.code = 7 → b.arg0.toNat % 4096 = 0 → ∀ page, d.pageAt dom 1 (b.arg0.toNat / 4096) = some page →
        d.pagesBusy [page] = false → secallDone (.release g 0 e) s g e p none none fun t =>
          t.strands = u.strands ∧ potEntry t.dev page = ⟨0, 0, 0, 0⟩) ∧
      (b.code = 8 → b.arg1.toNat % 4096 ≠ 0 → secallRefused (.report g 0 e) s g e u 5) ∧
      (b.code = 8 → b.arg0.toNat % 64 = 0 → b.arg1.toNat % 4096 = 0 → ∀ l bufL, d.domainLine dom (b.arg0.toNat / 64) = some l →
        ((List.range 128).map fun i => b.arg1.toNat / 64 + i).filterMap (d.domainLine dom) = bufL → bufL.length = 128 →
        (∀ k ∈ l :: bufL, d.lineBusy k = false) →
        secallDone (.report g 0 e) s g e p none none fun t => t.strands = u.strands) ∧
      (b.code = 9 → secallDone (.shareRegs g 0 e) s g e p none none fun t =>
        t = { u with dev := d.setDomain dom (some { m with shared := BitVec.ofNat 32 (2 * (b.arg0.extractLsb' 1 31).toNat) }) }))

/-- R395: DESTROY frees the ID and the slots, makes the pages DEAD and the state areas HOST, and is refused while a vCPU runs; RECLAIM makes
DEAD pages HOST; QUERY answers 0 for no domain, else its state, its vCPUs and its pages. -/
def Sys2Proof.sealedDomainsEnd : Prop :=
  ∀ (s : State) (g : Nat) (e : SysEnc) (u : State) (p : Piece) (b : Block), secallReads s g e u p b → engineOpen u g false →
    let d := u.dev
    (b.code = 11 → d.domain b.dom = none → secallRefused (.destroy g 0 e) s g e u 4) ∧
    (b.code = 11 → ∀ m, d.domain b.dom = some m →
      ((∃ v ∈ m.vcpus, v.running = true) → secallRefused (.destroy g 0 e) s g e u 4) ∧
      ((∀ v ∈ m.vcpus, v.running = false) → d.pagesBusy (d.pagesOf b.dom [1, 2]) = false →
        secallDone (.destroy g 0 e) s g e p none none fun t =>
          t.dev.domain b.dom = none ∧ (t.dev.slot m.key3).cls = 0 ∧ (∀ k, m.key4 = some k → (t.dev.slot k).cls = 0) ∧
          (∀ j, j < m.vcpus.length → potEntry t.dev (m.areas + j) = ⟨0, 0, 0, 0⟩) ∧
          (∀ page ∈ d.pagesOf b.dom [1, 2], (∀ j, j < m.vcpus.length → page ≠ m.areas + j) →
            potEntry t.dev page = ⟨3, b.dom, 0, 0⟩) ∧
          ∀ k n, (t.strand k).lastExit ≠ some (b.dom, n))) ∧
    (b.code = 12 → 1 ≤ b.arg1.toNat → b.arg1.toNat ≤ 256 → d.pagesIn b.arg0 b.arg1.toNat 3 = true →
      d.pagesBusy (pageRun b.arg0 b.arg1.toNat) = false → secallDone (.reclaim g 0 e) s g e p none none fun t =>
        t.strands = u.strands ∧ ∀ j, j < b.arg1.toNat → potEntry t.dev (b.arg0.toNat / 4096 + j) = ⟨0, 0, 0, 0⟩) ∧
    (b.code = 13 → d.domain b.dom = none → secallDone (.query g 0 e) s g e p (some 0) none fun t => t = u) ∧
    (b.code = 13 → ∀ m, d.domain b.dom = some m →
      secallDone (.query g 0 e) s g e p (some (BitVec.ofNat 64 ((if m.built then 2 else 1) + 256 * m.vcpus.length
        + 2 ^ 24 * min (d.pagesOf b.dom [1, 2]).length (2 ^ 32 - 1)))) none fun t => t = u)

/-- Sealed domains run, share and end. -/
def Obligations.SealedDomainsRunAndEnd : Prop := sealedDomainsRun ∧ sealedDomainsEnd

/-- R406, R508: how a mailbox command completes: RESULT and RLENGTH are written, the response takes the request's place, BUSY and QUEUED
clear, and the claim stands. -/
def Sys2Proof.completionRules (d : Dev) (b : Box) (st : Nat) (resp : List Byte) : Prop :=
  let e := d.boxDone b st resp
  e.fld (b.status R.MB_STATUS_RESULT) = st ∧ e.fld (b.status R.MB_STATUS_RLENGTH) = resp.length % 2 ^ 13 ∧
  e.flag (b.status R.MB_STATUS_BUSY) = false ∧ e.flag (b.status R.MB_STATUS_QUEUED) = false ∧
  (e.box b).claimer = (d.box b).claimer ∧
  (∀ i, SMap.get (fun _ => 0) (e.box b).buf i = (resp[i]?).getD 0) ∧ e.dram = d.dram ∧ e.peat = d.peat

/-- R406, R508: the mailboxes of the security engine and the steward: a read of the claim register by a strand at H claims a free channel; the holder
releases it by RELEASE, and another requester's write sets REJECTED; a claim lapses; a command queued too long at the steward
completes with UNAVAILABLE; what a completion does. -/
def Sys2Proof.mailboxProtocol : Prop :=
  ∀ (s : State) (stw : Bool) (req : Requester), reqOk req = true →
    let d := s.dev
    let b : Box := if stw then .stw else .se
    (∀ st resp, st < 256 → completionRules d b st resp) ∧
    (∀ g, req = .strand g → (s.strand g).pl = 2 → (d.box b).claimer = none → MakesSome (.mbClaim req stw) s fun e =>
      (e.box b).claimer = some req ∧ e.flag (b.claim R.MB_CLAIM_HELD) = true ∧
      e.fld (b.claim R.MB_CLAIM_OWNER) = 512 * d.self + g ∧ (e.box b).buf = (d.box b).buf) ∧
    (s.atH req = false ∨ (d.box b).claimer ≠ none → Gives (.mbClaim req stw) s s) ∧
    (∀ v, s.atH req = true → (d.box b).claimer = some req → v.getLsbD 14 = true → MakesSome (.mbRelease req stw v) s fun e =>
      (e.box b).claimer = none ∧ e.flag (b.claim R.MB_CLAIM_HELD) = false) ∧
    (∀ v, s.atH req = false ∨ (d.box b).claimer ≠ some req →
      Makes (.mbRelease req stw v) s (d.setFld (b.status R.MB_STATUS_REJECTED) 1)) ∧
    (MakesSome (.mbClaimLapse stw) s fun e =>
      (e.box b).claimer = none ∧ e.flag (b.claim R.MB_CLAIM_HELD) = false ∧ (e.box b).buf = (d.box b).buf) ∧
    (d.flag R.SMB_STATUS_QUEUED = true → Makes .smbQueueTimeout s (d.boxDone .stw 2 [])) ∧
    (d.flag R.SMB_STATUS_QUEUED = false → Gives .smbQueueTimeout s s)

/-- The commands of the engine's data-plane mailbox with their codes (R406). -/
def Sys2Proof.engineCommand (c : Instr) (code : Nat) : Prop :=
  (c = .keyGenerate ∧ code = 0x20) ∨ (c = .keyClear ∧ code = 0x21) ∨ (c = .rollbackCommit ∧ code = 0x30)
    ∨ (∃ bad, c = .fuseSession bad ∧ code = 0x31) ∨ (c = .debugNonce ∧ code = 0x40)
    ∨ (∃ ok, c = .debugUnlock ok ∧ code = 0x41) ∨ (c = .linkSecretGen ∧ code = 0x60) ∨ (c = .ideKeySet ∧ code = 0x61)

/-- R30, R379, R385, R389, R404 to R406: the commands of the engine's mailbox. One that does not wait does nothing; a halted
engine answers UNAVAILABLE; during an update the command stays queued. What each does, and which status refuses it. -/
def Sys2Proof.engineMailboxCommands : Prop :=
  ∀ (s : State),
    let d := s.dev
    let q := d.boxRequest .se
    let x := leNat q
    let waits (c : Nat) : Prop := d.boxWaits .se c = true ∧ d.fld R.SE_STATUS_STATE = 1
    (∀ c k, engineCommand c k →
      (d.boxWaits .se k = false → Gives c s s) ∧
      (d.boxWaits .se k = true → d.fld R.SE_STATUS_STATE = 3 → Makes c s (d.boxDone .se 2 [])) ∧
      (d.boxWaits .se k = true → d.fld R.SE_STATUS_STATE ≠ 1 → d.fld R.SE_STATUS_STATE ≠ 3 →
        Makes c s (d.setFld R.MB_STATUS_QUEUED 1))) ∧
    (waits 0x20 → d.fw.randomBad = false → q.length = 8 → x < 2 ^ 24 → x / 65536 = 1 ∨ x / 65536 = 2 →
      ((d.slot (x % 65536)).cls ≠ 0 → Makes .keyGenerate s (d.boxDone .se 4 [])) ∧
      ((d.slot (x % 65536)).cls = 0 → MakesSome .keyGenerate s fun e =>
        e.slot (x % 65536) = ⟨x / 65536, d.nextKey, 0⟩ ∧ e.nextKey = d.nextKey + 1 ∧ e.fld R.MB_STATUS_RESULT = 0 ∧
        ∀ k, k ≠ x % 65536 → e.slot k = d.slot k)) ∧
    (waits 0x20 → d.fw.randomBad = true → Makes .keyGenerate s (d.boxDone .se 2 [])) ∧
    (waits 0x21 → q.length = 8 → x < 65536 →
      ((d.slot x).cls ≠ 1 → (d.slot x).cls ≠ 2 → Makes .keyClear s (d.boxDone .se 4 [])) ∧
      (x = 0 → (d.slot 0).cls = 2 → Makes .keyClear s (d.boxDone .se 6 [])) ∧
      (x ≠ 0 → (d.slot x).cls = 1 ∨ (d.slot x).cls = 2 → MakesSome .keyClear s fun e =>
        (e.slot x).cls = 0 ∧ e.fld R.MB_STATUS_RESULT = 0 ∧ ∀ k, k ≠ x → e.slot k = d.slot k)) ∧
    (waits 0x30 → MakesSome .rollbackCommit s fun e => e.fld R.MB_STATUS_RESULT = 0 ∧
      ∀ c, e.fusedSvn c = if 1 ≤ c ∧ c ≤ 5 then max (d.fusedSvn c) (d.running c).svn else d.fusedSvn c) ∧
    (waits 0x31 → ∀ i r (bad : BitVec 64), q = leBytes 2 i → i < 65536 → d.repairs[i]? = some r → r.fused = false →
      1 ≤ r.typ → r.typ ≤ 3 → d.phase ≠ .drain → d.railsBad = false →
      (bad.getLsbD 0 = false → 1 ≤ d.fld R.REPAIR_STATUS_FUSE_FREE → MakesSome (.fuseSession bad) s fun e =>
        e.repairs[i]? = some { r with fused := true } ∧
        e.fld R.REPAIR_STATUS_FUSE_FREE = d.fld R.REPAIR_STATUS_FUSE_FREE - 1 ∧ e.fld R.MB_STATUS_RESULT = 0) ∧
      (bad.getLsbD 0 = true → 2 ≤ d.fld R.REPAIR_STATUS_FUSE_FREE → MakesSome (.fuseSession bad) s fun e =>
        e.repairs[i]? = some { r with
          fuseBad := true
          fused := true } ∧
        e.fld R.REPAIR_STATUS_FUSE_FREE = d.fld R.REPAIR_STATUS_FUSE_FREE - 2)) ∧
    (waits 0x31 → d.phase = .drain → q.length = 2 → ∀ bad, Makes (.fuseSession bad) s (d.boxDone .se 4 [])) ∧
    (waits 0x40 → d.fw.randomBad = false → MakesSome .debugNonce s fun e =>
      ∃ bs : List Byte, bs.length = 32 ∧ e.fw.nonce = some bs ∧ ∀ i, SMap.get (fun _ => 0) e.seBox.buf i = (bs[i]?).getD 0) ∧
    (waits 0x41 → (∃ g, (s.strand g).sealedB = true) → ∀ ok, Makes (.debugUnlock ok) s (d.boxDone .se 4 [])) ∧
    (waits 0x41 → (s.strands.any fun kv => kv.2.sealedB) = false →
      Makes (.debugUnlock false) s (d.boxDone .se 0xA []) ∧
      (d.fw.nonce.isSome = true → GivesSome (.debugUnlock true) s fun t =>
        t.dev.flag R.SE_STATUS_DEBUG = true ∧ (∀ i, t.dev.domain i = none) ∧
        (∀ k, k ≠ 0 → (t.dev.slot k).cls ≠ 3 ∧ (t.dev.slot k).cls ≠ 4))) ∧
    (waits 0x60 → d.fw.randomBad = false →
      (d.locked = true → Makes .linkSecretGen s (d.boxDone .se 9 [])) ∧
      (d.locked = false → MakesSome .linkSecretGen s fun e =>
        e.flag R.SE_STATUS_LINK_SECRET = true ∧ ∃ bs : List Byte, bs.length = 32 ∧ e.fw.linkSecret = some bs)) ∧
    (waits 0x61 → ∀ port stream ks, q = port :: stream :: ks → ks ≠ [] →
      (port.toNat < 80 → stream.toNat < 5 → MakesSome .ideKeySet s fun e =>
        SMap.get (fun _ => []) e.fw.ideKeys (8 * port.toNat + stream.toNat) = ks ∧ e.fld R.MB_STATUS_RESULT = 0) ∧
      (80 ≤ port.toNat ∨ 5 ≤ stream.toNat → Makes .ideKeySet s (d.boxDone .se 3 [])))

/-- The engine answers an SPDM request of a channel with a message, in device d' (R387, R406, R442). -/
def Sys2Proof.spdmAnswers (c : Instr) (s : State) (ch : Channel) (resp : List Byte) (d' : Dev) : Prop :=
  match ch with
  | .mailbox => s.dev.boxWaits .se 0x50 = true → Makes c s (d'.boxDone .se 0 resp)
  | .pfMailbox => s.dev.boxWaits .pf 0x50 = true → Makes c s (d'.boxDone .pf 0 resp)
  | .mctp => Makes c s { d' with fw := { d'.fw with
      response := resp
      result := 0 } }

/-- R387: attestation: a requester that does not offer ML-DSA-87 and SHA3-512 is turned away, and from then on at every request but GET_VERSION;
slot 0 alone has certificates; measurement blocks 1 to 6, signed on request. The message codes are DSP0274's (log entry 13). -/
def Sys2Proof.attestation : Prop :=
  ∀ (s : State) (ch : Channel), s.dev.fld R.SE_STATUS_STATE = 1 →
    let d := s.dev
    let unsupported : List Byte := [0x13, 0x7F, 7, 0]
    let invalid : List Byte := [0x13, 0x7F, 1, 0]
    let chain := Config.certificates d.runningGens
    let away := d.turnedAway ch
    spdmAnswers (.getVersion ch) s ch [0x13, 0x04, 0, 0, 0x13] d ∧
    (∀ both nonce slot block sig, away = true →
      spdmAnswers (.getCapabilities ch) s ch unsupported d ∧ spdmAnswers (.negotiateAlgorithms ch both) s ch unsupported d ∧
      spdmAnswers (.getDigests ch) s ch unsupported d ∧ spdmAnswers (.getCertificate ch slot) s ch unsupported d ∧
      spdmAnswers (.challenge ch slot nonce) s ch unsupported d ∧
      spdmAnswers (.getMeasurements ch block sig) s ch unsupported d) ∧
    (away = false →
      spdmAnswers (.getCapabilities ch) s ch [0x13, 0x61, 0, 0] d ∧
      spdmAnswers (.negotiateAlgorithms ch true) s ch [0x13, 0x63, 0, 0] (d.setSpdm ch 2) ∧
      spdmAnswers (.negotiateAlgorithms ch false) s ch unsupported (d.setSpdm ch 3) ∧
      (d.setSpdm ch 2).turnedAway ch = false ∧ (d.setSpdm ch 3).turnedAway ch = true ∧
      spdmAnswers (.getDigests ch) s ch ([0x13, 0x01, 0, 1] ++ lineBytes (Config.sha3 chain)) d ∧
      spdmAnswers (.getCertificate ch 0) s ch ([0x13, 0x02, 0, 0] ++ chain) d ∧
      (∀ k, k ≠ 0 → spdmAnswers (.getCertificate ch k) s ch invalid d) ∧
      (∀ nonce, let body := lineBytes (Config.sha3 chain) ++ leBytes 8 nonce.toNat
        spdmAnswers (.challenge ch 0 nonce) s ch ([0x13, 0x03, 0, 1] ++ body ++ lineBytes (Config.sign body)) d) ∧
      (∀ k nonce, k ≠ 0 → spdmAnswers (.challenge ch k nonce) s ch invalid d) ∧
      (∀ k, 1 ≤ k → k ≤ 5 → spdmAnswers (.getMeasurements ch k false) s ch
        ([0x13, 0x60, 1, 0] ++ BitVec.ofNat 8 k :: lineBytes (Config.sporeDigest k (d.running k).gen)) d) ∧
      (∀ sig, let body : List Byte := 6 :: (leBytes 8 (d.reg R.LOCK_BOOT_LOCK.reg).toNat ++ leBytes 8 (d.reg R.DUTY_FUNC.reg).toNat
          ++ BitVec.ofNat 8 (d.fld R.SE_STATUS_DEBUG) :: [1, 2, 3, 4, 5].map fun c => BitVec.ofNat 8 (d.fusedSvn c))
        spdmAnswers (.getMeasurements ch 6 sig) s ch
          ([0x13, 0x60, 1, 0] ++ body ++ if sig then lineBytes (Config.sign body) else []) d) ∧
      (∀ k sig, k = 0 ∨ 6 < k → spdmAnswers (.getMeasurements ch k sig) s ch invalid d))

/-- R30, R381: a halt of the engine outside an update is shown, and a command in progress completes with UNAVAILABLE; a
failing health test of the random source is held until one passes. -/
def Sys2Proof.engineHaltAndHealth : Prop :=
  ∀ (s : State),
    let d := s.dev
    let st := d.fld R.SE_STATUS_STATE
    (st = 2 ∨ st = 3 → Gives .seHalt s s) ∧
    (st ≠ 2 → st ≠ 3 → MakesSome .seHalt s fun e =>
      e.fld R.SE_STATUS_STATE = 3 ∧ e.flag R.MB_STATUS_BUSY = false ∧ e.slots = d.slots ∧ e.domains = d.domains ∧
      (d.flag R.MB_STATUS_BUSY = true → e.fld R.MB_STATUS_RESULT = 2)) ∧
    (∀ failing, Makes (.randomHealthTest failing) s { d with fw := { d.fw with randomBad := failing } })

/-- The mailboxes and the commands of the security engine's. -/
def Obligations.Mailboxes : Prop := mailboxProtocol ∧ engineMailboxCommands

/-- Attestation, and the engine's halt and health. -/
def Obligations.AttestationAndEngineHealth : Prop := attestation ∧ engineHaltAndHealth

/-! ### The cushion (R290 to R312, R358, R360) -/

/-- The socket has entered the cushion from device d, for a cause (R290, R293, R302, R303): the drain has begun, counted and numbered, its report has its
header, P0 is done, P4 is due, and every strand is as it was. Unless the cause is a POWER_FAIL, that run is sent on the
chain. -/
def Sys2Proof.entered (s t : State) (d : Dev) (cause : Nat) : Prop :=
  let f := R.CUSHION_STATUS_DRAINS
  t.strands = s.strands ∧ t.dev.phase = .drain ∧ t.dev.drainSeq = d.drainSeq + 1 ∧
  t.dev.fld f = min (d.fld f + 1) (2 ^ f.width - 1) ∧ (cause ≠ 2 → t.dev.chain.failRun = true) ∧
  ∃ r, t.dev.drain = some r ∧ r.report.seqn = d.drainSeq + 1 ∧ r.report.cause = cause ∧ r.report.startFrame = d.frame ∧
    r.report.present = d.fld R.CHAIN_STATUS_PRESENT ∧ r.report.lastClosed = d.reg R.EPOCH_CLOSED_EPOCH.reg ∧
    r.report.phases.testBit 0 = true ∧ r.report.phases.testBit 6 = d.flag R.CUSHION_CTL_RETAIN_ARM ∧ r.due.testBit 2 = true

/-- R290, R293, R312, R450, R535: what enters the cushion: PWRFAIL_N, the relayed POWER_FAIL, a brown-out with BROWNOUT_EN set, DRAIN_TEST with its key
and GO, a fall of PWRGOOD while the socket runs; when it does not run they do not. -/
def Sys2Proof.cushionEntry : Prop :=
  ∀ (s : State),
    let d := s.dev
    let p := d.setFld R.CUSHION_STATUS_PWRFAIL 1
    (d.phase = .running →
      (GivesSome .pwrfail s fun t => entered s t d 1 ∧ t.dev.flag R.CUSHION_STATUS_PWRFAIL = true) ∧
      (GivesSome .powerFail s fun t => entered s t d 2) ∧
      (∀ req (v : Word), reqOk req = true → v.extractLsb' 0 9 = 0x15A#9 → GivesSome (.drainTest req v) s fun t => entered s t d 8) ∧
      (GivesSome .pwrgoodFall s fun t => entered s t d 1) ∧
      (∀ r, r < 10 → d.flag R.CUSHION_CTL_BROWNOUT_EN = true →
        GivesSome (.brownout r) s fun t => entered s t d (4 + 2 ^ (4 + r)))) ∧
    (d.phase ≠ .running → Makes .pwrfail s p ∧ Gives .powerFail s s ∧
      ∀ req v, reqOk req = true → Gives (.drainTest req v) s s) ∧
    (∀ req (v : Word), reqOk req = true → v.extractLsb' 0 9 ≠ 0x15A#9 → Gives (.drainTest req v) s s) ∧
    (∀ r, r < 10 → d.flag R.CUSHION_CTL_BROWNOUT_EN = false →
      Makes (.brownout r) s ((d.setFld (R.RAIL_BROWNOUT.at (8 * r)) 1).setFld R.CUSHION_STATUS_BROWNOUT 1)) ∧
    (d.phase = .drain → Makes .pwrgoodFall s { d with thermtrip := false }) ∧
    (d.phase ≠ .running → d.phase ≠ .drain → Makes .pwrgoodFall s { d with
      thermtrip := false
      phase := .off
      faultN := false })

/-- R294, R296, R360: P1 and P2: a strand at its boundary halts and its image is saved; a step that is due is started by GO or after its
time; a line not acknowledged by the deadline is listed with reason 1; P2 of this socket completes once every line is
settled, and every socket's completion is noted. -/
def Sys2Proof.drainHaltsAndWritesBack : Prop :=
  ∀ (s : State),
    let d := s.dev
    (d.drain = none → (∀ g, g < 512 → Gives (.strandHalt g) s s) ∧ Gives .p2Deadline s s ∧ (∀ k, k < 8 → Gives (.peatDone k) s s) ∧
      Gives .p2Go s s ∧ Gives .p3Go s s ∧ Gives .p4Go s s ∧ ∀ k, 2 ≤ k → k ≤ 4 → Gives (.drainStepTimeout k) s s) ∧
    (∀ r, d.drain = some r →
      (∀ g, g < 512 → d.coreThere (g / 2) = true → (s.strand g).halted = false → s.mayHalt g = true →
        let x := s.strand g
        GivesSome (.strandHalt g) s fun t =>
          (t.strand g).halted = true ∧ (∀ k, k ≠ g → t.strand k = s.strand k) ∧
          (d.imageKept g = true → (t.dev.image g).map (fun i => i.strand) = (d.image g).map fun i => i.strand) ∧
          (d.imageKept g = false → x.sealedB = false → x.shadow = none → ∃ i, t.dev.image g = some i ∧ i.strand.pc = x.pc ∧ i.strand.n = x.n ∧
            i.strand.v = x.v ∧ i.strand.status = x.status ∧ i.parked = x.parked ∧ i.waiting = x.waiting.isSome ∧
            i.restored = false ∧ i.withdrawn = false)) ∧
      (∀ b c, (b = 0 ∧ (c = .p2Go ∨ c = .drainStepTimeout 2)) ∨ (b = 1 ∧ (c = .p3Go ∨ c = .drainStepTimeout 3)) ∨
          (b = 2 ∧ (c = .p4Go ∨ c = .drainStepTimeout 4)) →
        (r.due.testBit b = true → r.started.testBit b = false → GivesSome c s fun t =>
          t.strands = s.strands ∧ t.dev.drain.map (fun q => q.started) = some (r.started + 2 ^ b)) ∧
        (r.due.testBit b = false ∨ r.started.testBit b = true → Gives c s s)) ∧
      (∀ k, k < 8 → k ≠ d.self → Makes (.peatDone k) s { d with drain := some { r with peatDone := r.peatDone ||| 2 ^ k } }) ∧
      (r.started.testBit 0 = true → r.peatDone.testBit d.self = false → s.peatSettled false = true →
        MakesSome (.peatDone d.self) s fun e =>
          e.drain.map (fun q => q.peatDone) = some (r.peatDone ||| 2 ^ d.self) ∧
          e.drain.map (fun q => q.report.phases.testBit 2) = some true ∧ e.chain.sent = chainSent d 0x10 []) ∧
      (r.peatDone.testBit d.self = true → GivesSome .p2Deadline s fun t =>
        t.strands = s.strands ∧ t.dev.drain = some { r with report := { r.report with
          lines := r.report.lines.map fun x => if x.reason = 0 ∧ s.peatPending x.g = true then { x with reason := 1 } else x } }))

/-- R292, R297, R299, R302, R303: P3 to P5: each live channel writes its canary and enters self-refresh; with all of them there
and RETAIN_ARM set, RETAIN_EN is asserted; the report is written, completed and kept in the slot of its number, and the
clocks stop. -/
def Sys2Proof.drainReportsAndStops : Prop :=
  ∀ (s : State),
    let d := s.dev
    (d.drain = none → (∀ k, k < 8 → Gives (.dramDone k) s s) ∧ (∀ n, n < 16 → Gives (.canaryWrite n) s s) ∧ Gives .retainAssert s s ∧
      Gives .drainReportWrite s s ∧ Gives .drainComplete s s) ∧
    Makes .retainHeldClear s (d.setFld R.CUSHION_STATUS_RETAIN_HELD 0) ∧
    (∀ r, d.drain = some r →
      (∀ k, k < 8 → k ≠ d.self → Makes (.dramDone k) s { d with drain := some { r with dramDone := r.dramDone ||| 2 ^ k } }) ∧
      (r.started.testBit 1 = true → r.dramDone.testBit d.self = false → s.allHalted = true → r.report.phases.testBit 6 = true →
        d.dramWriteBack.dramDirty = false →
        GivesSome (.dramDone d.self) s fun t => t.strands = s.strands ∧
          t.dev.drain.map (fun q => q.dramDone) = some (r.dramDone ||| 2 ^ d.self)) ∧
      (∀ n, n < 16 → r.started.testBit 1 = true → r.report.phases.testBit 6 = true → d.mcLive n = true →
        MakesSome (.canaryWrite n) s fun e =>
          e.fld (mcReg R.MC_STATUS_STATE n) = 3 ∧ ∃ q w, e.drain = some q ∧
            (e.chan n).canary = some (BitVec.ofNat 64 r.report.seqn, d.self, n, w) ∧
            SMap.get (fun _ => 0) q.report.canary n = w ∧ q.report.canaryWritten = r.report.canaryWritten ||| 2 ^ n ∧
            q.report.selfRefresh = r.report.selfRefresh ||| 2 ^ n) ∧
      (d.flag R.CUSHION_CTL_RETAIN_ARM = true → (∀ n ∈ d.liveChannels, r.report.selfRefresh.testBit n = true) →
        r.report.phases.testBit 7 = false → MakesSome .retainAssert s fun e =>
          e.retainEn = true ∧ e.flag R.CUSHION_STATUS_RETAIN_HELD = true ∧
          e.drain.map (fun q => q.report.phases.testBit 7) = some true) ∧
      (d.flag R.CUSHION_CTL_RETAIN_ARM = false → Gives .retainAssert s s) ∧
      (GivesSome .drainReportWrite s fun t => t.strands = s.strands ∧ ∃ q, t.dev.drain = some q ∧
        q.report.phases.testBit 5 = true ∧ q.report.images = s.savedImages ∧
        q.report.lines.map (fun x => x.g) = r.report.lines.map (fun x => x.g) ∧
        ∀ x ∈ q.report.lines, x.durable = true → s.peatPending x.g = false) ∧
      (r.report.phases.testBit 5 = true → MakesSome .drainComplete s fun e =>
        e.phase = .drained ∧ e.drain = none ∧ SMap.get (fun _ => {}) e.reports (r.report.seqn % 2) = { r.report with
          endFrame := d.frame
          complete := true }) ∧
      (r.report.phases.testBit 5 = false → Gives .drainComplete s s))

/-- R310, R312, R358: a write of STRAND_RESTORE with GO: the results in the order in which they apply, and the restored strand; a
release of the images; and R309: the zeroing of a block not yet initialised. -/
def Sys2Proof.imagesAreRestoredOnce : Prop :=
  ∀ (s : State) (req : Requester) (v : Word), reqOk req = true →
    let d := s.dev
    let g := (v.extractLsb' 0 9).toNat
    let here : Prop := (v.extractLsb' 9 3).toNat = d.self
    let fails (n : Nat) : Prop := MakesSome (.strandRestore req v) s fun e =>
      e.fld R.STRAND_RESTORE_RESULT = n ∧ e.images = d.images
    let go : Prop := v.getLsbD 12 = true
    (¬go → MakesSome (.strandRestore req v) s fun e => e.images = d.images ∧ e.pmode = d.pmode) ∧
    (go → ¬here → fails 7) ∧ (go → here → d.locked = false → fails 6) ∧
    (go → here → d.locked = true → d.image g = none → fails 2) ∧
    (go → here → d.locked = true → ∀ i, d.image g = some i →
      (i.withdrawn = false → d.coreThere (g / 2) = true → d.fld R.RESUME_INFO_PATH ≠ 1 → fails 5) ∧
      (d.fld R.RESUME_INFO_PATH = 1 ∨ i.withdrawn = true → d.coreThere (g / 2) = true →
        (i.restored = true → fails 4) ∧
        (i.restored = false → (s.strand g).parked = false → req ≠ .strand g → fails 1) ∧
        (i.restored = false → (s.strand g).parked = true ∨ req = .strand g → GivesSome (.strandRestore req v) s fun t =>
          t.dev.fld R.STRAND_RESTORE_RESULT = 0 ∧ t.dev.image g = some { i with restored := true } ∧
          t.dev.pm (g / 2) = i.pmode ∧
          t.strand g = { i.strand.masked with
            parked := i.parked
            sb := (s.strand g).sb
            seq := (s.strand g).seq
            longOps := []
            halted := false } ∧
          ∀ k, k ≠ g → t.strand k = s.strand k))) ∧
    (v.getLsbD 22 = true → MakesSome (.imagesRelease req v) s fun e =>
      e.flag R.RESUME_INFO_IMAGES_HELD = false ∧ ∀ k i, e.image k = some i → i.withdrawn = false) ∧
    (∀ b, b < 2 ^ 26 → d.initPending = true → d.homeOf (b * 2 ^ 14) = some d.self → MakesSome (.blockInit b) s fun e =>
      SMap.get (fun _ => false) e.initDone b = true ∧ e.dram = d.dram ∧ e.regs = d.regs)

/-- Cushion entry, the halt of strands and the write-back of lines. -/
def Obligations.DrainBegins : Prop := cushionEntry ∧ drainHaltsAndWritesBack

/-- The drain's reports and end, and the restore of images. -/
def Obligations.DrainEndsAndImagesReturn : Prop := drainReportsAndStops ∧ imagesAreRestoredOnce

/-! ### Reset, boot and resume (R306 to R311, R498 to R504, R534, R535) -/

/-- The socket runs after a restart of a kind (RESET_INFO.KIND): its caches, translation caches and messages are gone; the boot
strand starts at H at a vector and every other strand is at its Cold state, parked. -/
def Sys2Proof.booted (t : State) (kind : Nat) (vec : Word) : Prop :=
  t.dev.phase = .running ∧ t.dev.fld R.RESET_INFO_KIND = kind ∧ t.dev.l2 = [] ∧ t.dev.tlb = [] ∧ t.dev.mshrs = [] ∧ t.dev.net = [] ∧
  (t.dev.coreThere 0 = true → t.strand 0 = { Strand.reset with
    pc := vec &&& ~~~3#64
    parked := false }) ∧
  ∀ g, g ≠ 0 → t.strand g = Strand.reset

/-- R498 to R502, R509: the resets by pin, by RESET_CTL and by the steward: who may write RESET_CTL, the key, the results; a cold or warm reset boots from
BOOT_VECTOR with DRAM lost; a strand reset puts one strand at its Cold state at STRAND_VECTOR and touches no other. -/
def Sys2Proof.resets : Prop :=
  ∀ (s : State),
    let d := s.dev
    let boots (c : Instr) (kind : Nat) : Prop := GivesSome c s fun t =>
      booted t kind (t.dev.reg R.BOOT_VECTOR_ADDR.reg) ∧ t.dev.dram = [] ∧ (kind < 3 → t.dev.frame = 0) ∧
      t.dev.fld R.RESET_INFO_FLUSHED = (if d.phase = .running ∧ kind ≠ 0 then 1 else 0)
    (d.phase = .off ∨ d.phase = .drain → Gives .coldResetPin s s) ∧
    (d.phase ≠ .off → d.phase ≠ .drain → boots .coldResetPin 1) ∧
    (∀ req (v : Word), reqOk req = true →
      let atH : Prop := ∃ g, req = .strand g ∧ (s.strand g).pl = 2
      let keyed : Prop := v.extractLsb' 16 8 = 0xC3#8
      let every (P : Instr → Prop) : Prop := P (.coldReset req v) ∧ P (.warmReset req v) ∧ P (.strandReset req v)
      (¬atH → every fun c => Makes c s (d.setFld R.RESET_CTL_RESULT 4)) ∧
      (atH → v.getLsbD 13 = true ∨ v.getLsbD 14 = true → ¬keyed → every fun c => Makes c s (d.setFld R.RESET_CTL_RESULT 3)) ∧
      (atH → keyed → v.getLsbD 14 = true → d.fld R.CHAIN_STATUS_PRESENT = 2 ^ d.self → boots (.coldReset req v) 2) ∧
      (atH → keyed → v.getLsbD 14 = true → d.fld R.CHAIN_STATUS_PRESENT ≠ 2 ^ d.self → GivesSome (.coldReset req v) s fun t =>
        t.dev.phase = .booting ∧ t.dev.chain.enumerated = false ∧ t.strands = []) ∧
      (atH → keyed → v.getLsbD 14 = false → v.getLsbD 13 = true → boots (.warmReset req v) 3) ∧
      (atH → v.extractLsb' 12 3 = 1#3 →
        let g := (v.extractLsb' 0 9).toNat
        let there : Prop := (v.extractLsb' 9 3).toNat = d.self ∧ d.coreThere (g / 2) = true
        let p := d.pm (g / 2)
        (¬there → Makes (.strandReset req v) s (d.setFld R.RESET_CTL_RESULT 1)) ∧
        (there → g % 2 = 1 → p.active = true → Makes (.strandReset req v) s (d.setFld R.RESET_CTL_RESULT 2)) ∧
        (there → (g % 2 = 1 → p.active = false ∧ p.holdsWake = false) → (s.strand g).sealedB = false →
          GivesSome (.strandReset req v) s fun t =>
            t.dev.fld R.RESET_CTL_RESULT = 0 ∧ t.dev.dram = d.dram ∧ t.dev.peat = d.peat ∧ t.dev.l2 = d.l2 ∧
            (∀ k, k ≠ g → t.strand k = s.strand k) ∧
            t.strand g = { Strand.reset with
              pc := t.dev.reg R.STRAND_VECTOR_ADDR.reg &&& ~~~3#64
              sb := (s.strand g).sb
              seq := (s.strand g).seq
              halted := (s.strand g).halted
              parked := false }))) ∧
    (d.portAnswers = true → d.phase ≠ .booting → d.phase ≠ .stopped →
      boots (.reset .mctp 0 0xC3) 2 ∧ boots (.reset .mctp 1 0xC3) 3 ∧
      ∀ kind key, key ≠ 0xC3 → GivesSome (.reset .mctp kind key) s fun t =>
        t.dev.fw.result = 8 ∧ t.strands = s.strands ∧ t.dev.phase = d.phase ∧ t.dev.regs = d.regs)

/-- What lets a power-up go straight to its path (R306, R493, R522, R533, R534). -/
def Sys2Proof.goodStart (d : Dev) (p : PowerUpIn) : Prop :=
  p.railsOk = true ∧ p.testTied = true ∧ p.partitionOk = true ∧ p.bootSrc ≠ 1 ∧ p.present ≠ 0 ∧ p.socketId < 8 ∧ p.imagesOk = true ∧
  d.badStart = false ∧ d.drain = none

/-- R306 to R308, R311, R493, R535: power-up: with PWRFAIL_N low the device stays in reset; with a rail wrong it does not start and asserts
FAULT_N; a cold boot starts at frame 0 at BOOT_VECTOR with DRAM lost; a resume starts at RESUME_VECTOR at the agreed frame, retained
where the newest report and every check allow it, else peat-only; Peat media stand. PWRFAIL_N's rise does the same
without a power cycle once a drain is over. -/
def Sys2Proof.powerUpAndResume : Prop :=
  ∀ (s : State) (p : PowerUpIn),
    let d := s.dev
    let path (c : Instr) (e : Dev) : Prop :=
      (p.cold = false → e.mayRetain p = true → GivesSome c s fun t =>
        booted t 4 (t.dev.reg R.RESUME_VECTOR_ADDR.reg) ∧ t.dev.frame = p.startFrame ∧ t.dev.fld R.RESUME_INFO_PATH = 1 ∧
        t.dev.dram = d.dram ∧ t.dev.peat = d.peat ∧ t.dev.self = p.socketId) ∧
      (p.cold = false → e.mayRetain p = false → GivesSome c s fun t =>
        booted t 5 (t.dev.reg R.RESUME_VECTOR_ADDR.reg) ∧ t.dev.frame = p.startFrame ∧ t.dev.fld R.RESUME_INFO_PATH = 2 ∧
        t.dev.dram = [] ∧ t.dev.peat = d.peat ∧ t.dev.self = p.socketId)
    let low := d.setFld R.CUSHION_STATUS_PWRFAIL 0
    (d.phase = .running ∨ (d.phase = .off ∧ d.flag R.CUSHION_STATUS_PWRFAIL = true) → Gives (.powerUp p) s s) ∧
    (d.phase = .off → d.flag R.CUSHION_STATUS_PWRFAIL = false →
      (p.railsOk = false ∨ p.testTied = false → GivesSome (.powerUp p) s fun t =>
        t.dev.phase = .off ∧ t.dev.faultN = true ∧ t.strands = [] ∧ t.dev.peat = d.peat) ∧
      (goodStart d p →
        path (.powerUp p) d ∧
        (p.cold = true → GivesSome (.powerUp p) s fun t =>
          booted t 0 (t.dev.reg R.BOOT_VECTOR_ADDR.reg) ∧ t.dev.frame = 0 ∧ t.dev.dram = [] ∧ t.dev.peat = d.peat ∧
          t.dev.self = p.socketId))) ∧
    (d.phase = .drained → goodStart d p → path (.pwrfailNRise p) low ∧
      (p.cold = true → GivesSome (.pwrfailNRise p) s fun t => booted t 1 (t.dev.reg R.BOOT_VECTOR_ADDR.reg) ∧ t.dev.dram = [])) ∧
    (d.phase = .drain ∨ d.phase = .running ∨ d.phase = .stopped ∨ d.phase = .booting → Makes (.pwrfailNRise p) s low)

/-! ### Clocks and power (R485 to R497, R537) -/

/-- R485, R537: the loss of the reference clock is counted once and enters the cushion as a brown-out does; its return is shown; a
thermal trip asserts its pin; the stop of the clocks tears a drain that runs. R496: a core all of whose strands are
parked enters deep park with empty return stacks. -/
def Sys2Proof.clockLossAndDeepPark : Prop :=
  ∀ (s : State),
    let d := s.dev
    let f := R.CLK_STATUS_REFCLK_LOSSES
    (d.flag R.CLK_STATUS_REFCLK_OK = false → Gives .refclkLoss s s) ∧
    (d.flag R.CLK_STATUS_REFCLK_OK = true → d.phase = .running → GivesSome .refclkLoss s fun t =>
      entered s t d 4 ∧ t.dev.flag R.CLK_STATUS_REFCLK_OK = false ∧ t.dev.fld f = min (d.fld f + 1) (2 ^ f.width - 1)) ∧
    Makes .refclkReturn s (d.setFld R.CLK_STATUS_REFCLK_OK 1) ∧
    Makes .thermtrip s { d with thermtrip := true } ∧
    (MakesSome .overtempClockStop s fun e => e.phase = .stopped ∧ e.drain = none ∧ e.dram = d.dram ∧ e.peat = d.peat) ∧
    (∀ c, c < 288 →
      let l := d.fld (R.CORE_STATE_LOGICAL.at (8 * c))
      (s.mayDeepPark c = false → Gives (.deepParkEntry c) s s) ∧
      (s.mayDeepPark c = true → GivesSome (.deepParkEntry c) s fun t =>
        t.dev.fld (R.CORE_PWR_STATE.at (8 * c)) = 3 ∧ t.strand (2 * l) = { s.strand (2 * l) with ras := [] } ∧
        t.strand (2 * l + 1) = { s.strand (2 * l + 1) with ras := [] } ∧
        (∀ g, (t.dev.line c g).st ≠ .invalid → (t.dev.line c g).l1i = false ∧ (t.dev.line c g).l1d = false) ∧
        ∀ k, k ≠ 2 * l → k ≠ 2 * l + 1 → t.strand k = s.strand k))

/-- R487, R490, R491, R494: tile ratios: a write clamps the ratio, ends a throttle and retunes the tile, which waits for its
rail when no running tile of the frond needs as much; a settled PLL gives the tile its ratio; the regulator's answer lets the waiting tiles go on, its
silence gives them back their old ratio; and the throttles step tiles down. -/
def Sys2Proof.tileClocks : Prop :=
  ∀ (s : State),
    let d := s.dev
    let clk (f : Field) (t : Nat) : Field := f.at (8 * t)
    (∀ req t (v : Word), reqOk req = true → t < 144 → MakesSome (.tileRatioWrite req t v) s fun e =>
      let x := min (d.fld (clk R.TILE_CLK_MAX t)) (max 16 (v.extractLsb' 0 7).toNat)
      e.fld (clk R.TILE_CLK_RATIO t) = x ∧ e.clkAt t = x ∧ e.fld (clk R.TILE_CLK_SETTLING t) = 1 ∧
      e.fld (clk R.TILE_CLK_THROTTLED t) = 0 ∧ e.flag (clk R.TILE_CLK_PINNED t) = v.getLsbD 22 ∧
      e.vidWait.contains t = decide (d.frondRatio t < x) ∧
      (x ≤ d.frondRatio t → e.fld (clk R.PLL_STATUS_SETTLED t) = 0) ∧
      ∀ u, u < 144 → u ≠ t → e.clkAt u = d.clkAt u ∧ e.reg (clk R.TILE_CLK_RATIO u).reg = d.reg (clk R.TILE_CLK_RATIO u).reg) ∧
    (∀ p, p < 197 →
      (d.flag R.CLK_STATUS_REFCLK_OK = false ∨ d.vidWait.contains p = true → Gives (.pllSettle p) s s) ∧
      (d.flag R.CLK_STATUS_REFCLK_OK = true → d.vidWait.contains p = false → MakesSome (.pllSettle p) s fun e =>
        e.fld (clk R.PLL_STATUS_SETTLED p) = 1 ∧
        (p < 144 → d.flag (clk R.TILE_CLK_SETTLING p) = true →
          e.fld (clk R.TILE_CLK_CURRENT p) = d.clkAt p % 128 ∧ e.flag (clk R.TILE_CLK_SETTLING p) = false))) ∧
    (∀ f mv, f < 4 → mv < 4096 → (∀ t ∈ d.vidWait, t < 144) →
      (MakesSome (.vidAck f mv) s fun e =>
        e.fld (R.RAIL_MV.at (8 * f)) = mv ∧ e.vidWait = d.vidWait.filter (fun t => tileFrond t != f) ∧
        ∀ t ∈ d.vidTiles f, e.fld (clk R.PLL_STATUS_SETTLED t) = 0) ∧
      (d.vidTiles f = [] → Gives (.vidTimeout f) s s) ∧
      (d.vidTiles f ≠ [] → MakesSome (.vidTimeout f) s fun e =>
        e.vidWait = d.vidWait.filter (fun t => tileFrond t != f) ∧
        ∀ t ∈ d.vidTiles f, e.fld (clk R.TILE_CLK_RATIO t) = d.fld (clk R.TILE_CLK_CURRENT t) ∧
          e.clkAt t = d.fld (clk R.TILE_CLK_CURRENT t) ∧ e.flag (clk R.TILE_CLK_SETTLING t) = false)) ∧
    (∀ w, d.wattLimit < w → MakesSome (.powerThrottle w) s fun e => ∀ t, t < 144 →
      (d.tileRuns t = true → d.flag (clk R.TILE_CLK_PINNED t) = false → 16 < d.clkAt t →
        e.clkAt t = d.clkAt t - 1 ∧ e.flag (clk R.TILE_CLK_THROTTLED t) = true) ∧
      (d.tileRuns t = false ∨ d.flag (clk R.TILE_CLK_PINNED t) = true ∨ d.clkAt t ≤ 16 → e.clkAt t = d.clkAt t)) ∧
    (∀ w, w ≤ d.wattLimit → 97 * d.wattLimit ≤ 100 * w → Gives (.powerThrottle w) s s) ∧
    (∀ t c, t < 144 → c < 256 → d.tjLimit < c → 16 < d.clkAt t → MakesSome (.thermalThrottle t c) s fun e =>
      e.clkAt t = d.clkAt t - 1 ∧ e.flag (clk R.TILE_CLK_THROTTLED t) = true ∧ e.fld (clk R.TILE_CLK_TEMP t) = c)

/-- Resets, power-up and resume. -/
def Obligations.ResetsAndPowerUp : Prop := resets ∧ powerUpAndResume

/-- Clocks, their loss, deep park and tile clocks. -/
def Obligations.ClocksAndPower : Prop := clockLossAndDeepPark ∧ tileClocks

/-! ### Errors, retirement and transplant (R336 to R362) -/

/-- R337, R339, R344, R346, R350, R361: ERR_TAIL moves up to the unread records and no further; the events held for the steward are
set at its acknowledgement or after 1 ms; buckets decay every 65,536 frames; a retired mesh link leaves the routes and the
stops it cuts off are lost; a fault that a test does not confirm clears its unit; a confirmed SRAM row is replaced. -/
def Obligations.ErrorsEventsAndTests : Prop :=
  ∀ (s : State),
    let d := s.dev
    let dist (n : Nat) : Nat :=
      let x := (n + 1024 - d.fld R.ERR_TAIL_INDEX) % 1024
      if x = 0 ∧ d.flag R.ERR_HEAD_FULL = true then 1024 else x
    (∀ req (v : Word), reqOk req = true →
      let n := (v.extractLsb' 0 10).toNat
      (dist n = 0 ∨ d.unread < dist n → Gives (.errTailWrite req v) s s) ∧
      (0 < dist n → dist n ≤ d.unread → MakesSome (.errTailWrite req v) s fun e =>
        e.fld R.ERR_TAIL_INDEX = n ∧ e.flag R.ERR_HEAD_FULL = false ∧ e.ring = d.ring ∧
        ((d.flag R.ERR_HEAD_FULL = true → d.fld R.ERR_HEAD_INDEX = d.fld R.ERR_TAIL_INDEX) → e.unread = d.unread - dist n))) ∧
    (∀ c, c = .errEventTimeout ∨ c = .stewardAcknowledge →
      (d.evHeld = 0 → Gives c s s) ∧
      (d.evHeld ≠ 0 → MakesSome c s fun e => e.evHeld = 0 ∧
        e.reg R.ERR_EVENT_RECORD.reg = d.reg R.ERR_EVENT_RECORD.reg ||| BitVec.ofNat 64 d.evHeld)) ∧
    (d.frame.toNat % 65536 ≠ 0 → Gives .bucketDecay s s) ∧
    (d.frame.toNat % 65536 = 0 → SMap.wf (fun _ => ({} : ErrUnit)) d.units = true → MakesSome .bucketDecay s fun e =>
      ∀ k i, e.unitAt k i = { d.unitAt k i with bucket := (d.unitAt k i).bucket - 1 }) ∧
    (∀ l, l < 264 →
      (SMap.get (fun _ => false) d.routes l = true → Gives (.routeRecompute l) s s) ∧
      (SMap.get (fun _ => false) d.routes l = false → MakesSome (.routeRecompute l) s fun e =>
        SMap.get (fun _ => false) e.routes l = true ∧ (e.unitAt 3 l).retired = true ∧
        ∀ t, t < 144 → e.joined 5 t = false → t ∈ e.lostStops)) ∧
    (∀ kind inst o,
      (d.underTest kind inst = false → Gives (.confirmationTest kind inst o) s s) ∧
      (d.underTest kind inst = true → d.thirdCandidacy kind inst = false →
        MakesSome (.confirmationTest kind inst .notConfirmed) s fun e =>
          (e.unitAt kind inst).bucket = 0 ∧ (e.unitAt kind inst).candidate = false ∧
          (e.unitAt kind inst).retired = (d.unitAt kind inst).retired) ∧
      (kind = 3 ∨ kind = 4 → o ≠ .notConfirmed → Gives (.confirmationTest kind inst o) s s) ∧
      (kind = 7 → d.underTest 7 inst = true → o ≠ .notConfirmed → d.duty 8 = false → d.repairs.length < 16384 →
        MakesSome (.confirmationTest 7 inst o) s fun e =>
          (e.unitAt 7 inst).retired = true ∧
          e.repairs = d.repairs ++ [⟨3, 7, 0, inst, 0, 0, 0, false, false, d.frame⟩]))

/-- Core c serves a logical core, and both its strands stand where they may halt. -/
def Sys2Proof.mayMove (s : State) (c : Nat) : Bool :=
  let l := s.dev.fld (R.CORE_STATE_LOGICAL.at (8 * c))
  s.dev.servesCore c && s.mayHalt (2 * l) && s.mayHalt (2 * l + 1)

/-- Core c's logical core has moved to core t: t is in service for it and the strands go on, with their registers and an empty return stack. -/
def Sys2Proof.moved (s z : State) (c t : Nat) : Prop :=
  let l := s.dev.fld (R.CORE_STATE_LOGICAL.at (8 * c))
  z.dev.phys l = t ∧ z.dev.coreState t = 1 ∧ z.dev.coreState c = 5 ∧ z.dev.fld (R.CORE_STATE_LOGICAL.at (8 * t)) = l ∧
  z.dev.flag R.XPLANT_STATUS_CANDIDATE = false ∧ z.dev.fld R.XPLANT_STATUS_RESULT = 0 ∧
  ∀ j, j < 2 →
    let x := z.strand (2 * l + j)
    x.halted = false ∧ x.ras = [] ∧ x.n = (s.strand (2 * l + j)).n ∧ x.v = (s.strand (2 * l + j)).v

/-- R353 to R357, R362: a candidate core's strands halt at their boundaries and move to a warm spare, or wait for software under
CORESPARE; GO moves them to the target that software names, and refuses one that is no spare; with no spare the logical
core is withdrawn. The source core, once clean, is retired, at its third candidacy without regard to its test, or becomes a
warm spare. -/
def Obligations.CoresAreTransplanted : Prop :=
  ∀ (s : State) (c : Nat), c < 288 →
    let d := s.dev
    let l := d.fld (R.CORE_STATE_LOGICAL.at (8 * c))
    (d.clocksOk = true → l < 256 →
      (mayMove s c = false → ∀ u, Gives (.coreTransplant c u) s s) ∧
      (mayMove s c = true → d.duty 5 = true → ∀ u, GivesSome (.coreTransplant c u) s fun z =>
        z.dev.fld R.XPLANT_STATUS_SOURCE = c ∧ z.dev.flag R.XPLANT_STATUS_CANDIDATE = true ∧ z.dev.unreadable = u.toNat ∧
        (z.strand (2 * l)).halted = true ∧ (z.strand (2 * l + 1)).halted = true) ∧
      (mayMove s c = true → d.duty 5 = false → ∀ t, t < 288 → d.pickSpare c 3 = some t → GivesSome (.coreTransplant c 0) s fun z => moved s z c t) ∧
      (mayMove s c = true → d.duty 5 = false → d.pickSpare c 3 = none → d.pickSpare c 2 = none →
        GivesSome (.coreTransplant c 0) s fun z =>
          z.dev.coreThere l = false ∧ z.dev.coreState c = 5 ∧ z.dev.fld R.XPLANT_STATUS_RESULT = 3)) ∧
    (∀ req (v : Word), reqOk req = true →
      let t := (v.extractLsb' 0 9).toNat
      let spare : Bool := t < 288 && (d.coreState t == 3 || d.coreState t == 2)
      (v.getLsbD 10 = false ∨ d.duty 5 = false ∨ d.flag R.XPLANT_STATUS_CANDIDATE = false →
        Makes (.xplantGo req v) s (d.writeReg R.XPLANT_CTL_TARGET.reg v)) ∧
      (v.getLsbD 9 = false → v.getLsbD 10 = true → d.duty 5 = true → d.flag R.XPLANT_STATUS_CANDIDATE = true →
        (spare = false → MakesSome (.xplantGo req v) s fun e => e.fld R.XPLANT_STATUS_RESULT = 1) ∧
        (spare = true → d.fld R.XPLANT_STATUS_SOURCE = c → d.unreadable = 0 → d.coreState c = 5 → l < 256 →
          GivesSome (.xplantGo req v) s fun z => moved s z c t))) ∧
    (∀ bad, ((d.xplant.any fun x => x.source == c) = false ∨ d.sourceClean c = false → Gives (.sourceCoreTest c bad) s s) ∧
      ((d.xplant.any fun x => x.source == c) = true → d.sourceClean c = true → MakesSome (.sourceCoreTest c bad) s fun e =>
        let out := bad || d.thirdCandidacy 4 c
        e.coreState c = (if out then 4 else 3) ∧ e.fld (R.CORE_PWR_STATE.at (8 * c)) = (if out then 0 else 2) ∧
        (e.unitAt 4 c).candidate = false ∧ (out = true → (e.unitAt 4 c).retired = true) ∧
        ∀ x ∈ e.xplant, x.source ≠ c))

/-! ### Self-test and injection (R364 to R375) -/

/-- R368, R371 to R375: an arming is refused where R368 refuses it, and shown; an engine that is enabled runs the slice it stands at and goes on,
unless software holds it; a finding is repaired, or shown and held until software lets it be repaired or skipped. -/
def Obligations.SelfTestAndInjection : Prop :=
  ∀ (s : State) (req : Requester), reqOk req = true →
    let d := s.dev
    (∀ g (v : Word), 1 ≤ g → g ≤ 22 → MakesSome (.injectionArm req g v) s fun e =>
      e.flag (injReg R.INJ_ARM_ARM g) = (v.getLsbD 0 && !d.armRefused g) ∧
      (v.getLsbD 0 = true → d.armRefused g = true → e.flag (injReg R.INJ_ARM_REFUSED g) = true) ∧
      ∀ k, 1 ≤ k → k ≤ 22 → k ≠ g → e.reg (injReg R.INJ_ARM_ARM k).reg = d.reg (injReg R.INJ_ARM_ARM k).reg) ∧
    (∀ k, k < 6 →
      let on := d.flag (R.SLICE_CTL_EN.at (0x40 * k))
      let pos := R.SLICE_STATUS_POSITION.at (0x40 * k)
      let fail := R.SLICE_FAIL_VALID.at (0x40 * k)
      (d.clocksOk = true →
        (∀ f, on = false ∨ d.phase ≠ .running → Gives (.sliceTest k f) s s) ∧
        (∀ f, d.duty 8 = true → (d.engine k).go = none → Gives (.sliceTest k f) s s) ∧
        (on = true → d.phase = .running → d.duty 8 = false → MakesSome (.sliceTest k .clean) s fun e =>
          e.fld pos = (if d.fld pos + 1 < sliceTotal k then d.fld pos + 1 else 0) ∧
          (sliceTotal k ≤ d.fld pos + 1 → e.flag (R.SLICE_STATUS_PASS_DONE.at (0x40 * k)) = true) ∧ e.repairs = d.repairs) ∧
        (on = true → d.phase = .running → d.duty 8 = false → ∀ g i sub row, d.repairs.length < 16384 →
          d.sparesUsed 1 g i sub < spareRows g → MakesSome (.sliceTest k (.row g i sub row)) s fun e =>
            e.repairs = d.repairs ++ [⟨1, 7, g, i, sub, row, d.sparesUsed 1 g i sub, false, false, d.frame⟩]) ∧
        (on = true → d.phase = .running → d.duty 8 = true → ∀ g i sub row n, (d.engine k).go = some n →
          g < 256 → i < 65536 → row < 65536 → MakesSome (.sliceTest k (.row g i sub row)) s fun e =>
            (e.engine k).held = .row g i sub row ∧ (e.engine k).go = none ∧ e.flag fail = true ∧
            e.fld (R.SLICE_FAIL_GROUP.at (0x40 * k)) = g ∧ e.fld (R.SLICE_FAIL_INSTANCE.at (0x40 * k)) = i ∧
            e.fld (R.SLICE_FAIL_ROW.at (0x40 * k)) = row ∧ e.repairs = d.repairs)) ∧
      (∀ (v : Word), v.extractLsb' 25 2 = 0#2 → v.getLsbD 24 = true → d.duty 8 = true →
        let n := (v.extractLsb' 0 24).toNat
        (n ≠ 0xFFFFFF → MakesSome (.sliceGo req k v) s fun e => (e.engine k).go = some n) ∧
        (n = 0xFFFFFF → d.flag (R.SLICE_STATUS_DUE.at (0x40 * k)) = true → MakesSome (.sliceGo req k v) s fun e =>
          (e.engine k).go = some (d.fld pos))) ∧
      (∀ (v : Word) g i sub row, v.extractLsb' 24 3 = 2#3 → d.flag fail = true → (d.engine k).held = .row g i sub row →
        d.repairs.length < 16384 → d.sparesUsed 1 g i sub < spareRows g → MakesSome (.sliceRepair req k v) s fun e =>
          (e.engine k).held = .clean ∧ e.flag fail = false ∧
          e.repairs = d.repairs ++ [⟨1, 7, g, i, sub, row, d.sparesUsed 1 g i sub, false, false, d.frame⟩]) ∧
      (∀ (v : Word), v.extractLsb' 24 3 = 4#3 → d.flag fail = true → MakesSome (.sliceSkip req k v) s fun e =>
        (e.engine k).held = .clean ∧ e.flag fail = false ∧ e.repairs = d.repairs) ∧
      (d.flag fail = false → ∀ (v : Word), v.getLsbD 24 = false →
        Gives (.sliceRepair req k v) s s ∧ Gives (.sliceSkip req k v) s s))

/-! ### Memory channels (R313 to R335) -/

/-- R326: a port with its regulator off, or during the cushion, takes every request; one with credit pays; one without counts that
it starved once a frame, and takes the request only if it conserves work. -/
def Sys2Proof.regulatorRules (d : Dev) : Prop :=
  ∀ n group, n < 16 → group < 16 →
    let p := d.fld ⟨(R.GROUP_PORT_PORTS.at (0x40000 * n)).reg, 4 * group, 4⟩
    let cfg := SMap.get (fun _ => 0) (d.chan n).ports p
    let cr := R.PORT_STATUS_CREDITS.at (0x40000 * n + 8 * p)
    let st := R.PORT_STATUS_STARVED.at (0x40000 * n + 8 * p)
    (cfg.getLsbD 28 = false ∨ d.phase = .drain → d.acceptReq n group = (true, d)) ∧
    (cfg.getLsbD 28 = true → d.phase ≠ .drain → 0 < d.fld cr →
      d.acceptReq n group = (true, d.setFld cr (d.fld cr - 1))) ∧
    (cfg.getLsbD 28 = true → d.phase ≠ .drain → d.fld cr = 0 → (d.acceptReq n group).1 = cfg.getLsbD 27 ∧
      (p ∈ (d.chan n).starved → (d.acceptReq n group).2 = d) ∧
      (p ∉ (d.chan n).starved → (d.acceptReq n group).2.fld st = min (d.fld st + 1) (2 ^ 32 - 1)))

/-- R316, R320, R326, R328: reads and writes of a line of this socket's DRAM that the regulator takes, outside a fence and an evacuation: a clean
read changes nothing; a corrected one is counted; an uncorrectable one is counted and the line stays bad until a write; a
write makes every byte of the line and its poison what it says, under its key, and no other byte. -/
def Sys2Proof.channelReadsAndWrites : Prop :=
  ∀ (s : State) (g group key : Nat), lineOk g = true → group < 16 → key < 65536 → s.dev.clocksOk = true →
    let d := s.dev
    let n := d.slotMc (d.place g).1
    let bad (e : Dev) : Bool := SMap.get (fun _ => false) e.bad g
    regulatorRules d ∧
    (d.dramHere g = false → (∀ chk, Gives (.memoryRead g group key chk) s s) ∧ ∀ bs p, Gives (.memoryWrite g group key bs p) s s) ∧
    (d.dramHere g = true → ∀ e0, d.acceptReq n group = (false, e0) →
      (∀ chk, Makes (.memoryRead g group key chk) s e0) ∧ ∀ bs p, Makes (.memoryWrite g group key bs p) s e0) ∧
    (d.dramHere g = true → n < 16 → ∀ e0, d.acceptReq n group = (true, e0) → e0.isFenced g = false →
      e0.unmoved (e0.slotGranule g).1 (e0.slotGranule g).2 = false →
      let ce := R.ERR_COUNT_CE_COUNT.at (0x40000 * n)
      let ue := R.ERR_COUNT_UE_COUNT.at (0x40000 * n)
      (Makes (.memoryRead g group key .clean) s (e0.setBad g false)) ∧
      (MakesSome (.memoryRead g group key .correctable) s fun e =>
        e.fld ce = min (d.fld ce + 1) (2 ^ 32 - 1) ∧ bad e = false ∧ e.dram = d.dram) ∧
      (MakesSome (.memoryRead g group key .uncorrectable) s fun e =>
        e.fld ue = min (d.fld ue + 1) (2 ^ 16 - 1) ∧ bad e = true ∧ e.dram = d.dram) ∧
      ((d.slot key).cls ≠ 0 → ∀ bs p, MakesSome (.memoryWrite g group key bs p) s fun e =>
        (∀ i, i < 64 → e.dramByte (64 * g + i) = lineByte bs i) ∧
        (∀ a, a < 64 * g ∨ 64 * g + 64 ≤ a → e.dramByte a = d.dramByte a) ∧ e.isPoisoned g = p ∧ bad e = false ∧
        e.keyId g = (d.slot key).key ∧ e.peat = d.peat))

/-- R321 to R325, R335: refresh, retraining pauses in their slots and under software, the DIMM's temperature, the stored coefficients, and
the row-disturbance guard: an activate counts its row; at the threshold the neighbours are refreshed, or the row is held for
software, whose RELEASE refreshes the oldest one held; the tables are cleared at their tick. -/
def Sys2Proof.channelMaintenance : Prop :=
  ∀ (s : State) (n : Nat) (req : Requester), n < 16 → reqOk req = true →
    let d := s.dev
    let c := d.chan n
    let live := d.mcLive n
    let at' (f : Field) : Field := f.at (0x40000 * n)
    let pauses := at' R.RETRAIN_STATUS_PAUSES
    (d.clocksOk = true →
      (live = true → Makes (.refresh n) s (d.setChan n { c with refreshes := c.refreshes + 1 })) ∧
      (live = false → Gives (.refresh n) s s ∧ Gives (.retrainingPause n) s s) ∧
      (live = true → d.phase = .running → d.pauseSlot n = true ∨ c.owed = true → d.duty 2 = false ∨ c.pauseSlot = true →
        MakesSome (.retrainingPause n) s fun e =>
          e.fld pauses = min (d.fld pauses + 1) (2 ^ 32 - 1) ∧ e.flag (at' R.RETRAIN_STATUS_DUE) = false ∧
          e.chan n = { c with
            temp := d.fld (at' R.MC_STATUS_TEMP)
            extraPause := false
            pauseSlot := false
            owed := false
            misses := 0 }) ∧
      (∀ bank row, bank < 512 → row < 2 ^ 18 → live = true → (bank, row) ∉ c.heldRow →
        let es := activate row (c.bankRows bank)
        (rowCount row es < d.guardThreshold n → Makes (.neighbourRefresh n bank row) s (d.setBankRows n bank es)) ∧
        (d.guardThreshold n ≤ rowCount row es → d.duty 3 = false →
          Makes (.neighbourRefresh n bank row) s ((d.setBankRows n bank es).setBankRows n bank (refreshed row es))) ∧
        (d.guardThreshold n ≤ rowCount row es → d.duty 3 = true → c.heldRow.length ≤ 8 →
          MakesSome (.neighbourRefresh n bank row) s fun e => (e.chan n).heldRow = c.heldRow ++ [(bank, row)] ∧
            e.flag (at' R.ROWGUARD_EVENT_VALID) = true ∧
            (c.heldRow = [] → e.fld (at' R.ROWGUARD_EVENT_ROW) = row)) ∧
        (d.guardThreshold n ≤ rowCount row es → d.duty 3 = true → 8 < c.heldRow.length →
          MakesSome (.neighbourRefresh n bank row) s fun e => e.flag (at' R.ROWGUARD_EVENT_MISSED) = true ∧
            (e.chan n).bankRows bank = refreshed row es))) ∧
    (∀ row k es, rowCount row es = k → 0 < k → k < 65535 → rowCount row (activate row es) = k + 1) ∧
    (∀ row es, (∀ x ∈ es, x.row ≠ row) → es.length < 24 → rowCount row (activate row es) = 1) ∧
    (∀ t, t < 256 → MakesSome (.dimmThermalRead n t) s fun e =>
      e.fld (at' R.MC_STATUS_TEMP) = t ∧
      (e.chan n).extraPause = (c.extraPause || decide (c.temp + 3 ≤ t) || decide (t + 3 ≤ c.temp))) ∧
    (∀ w, Makes (.coefficientStore n w) s (d.setChan n { c with coeff := w })) ∧
    (∀ (v : Word), v.getLsbD 16 = true → d.duty 2 = true → d.flag (at' R.RETRAIN_STATUS_DUE) = true →
      MakesSome (.retrainGo req n v) s fun e => (e.chan n).pauseSlot = true ∧ e.fld (at' R.RETRAIN_CTL_PERIOD) =
        (if d.locked then d.fld (at' R.RETRAIN_CTL_PERIOD) else (v.extractLsb' 0 16).toNat)) ∧
    (d.frame.toNat % 32000 = 2000 * n → Makes (.rowguardTableClear n) s (d.setChan n { c with rows := [] })) ∧
    (d.frame.toNat % 32000 ≠ 2000 * n → Gives (.rowguardTableClear n) s s) ∧
    (∀ (v : Word) bank row rest, v.getLsbD 28 = true → c.heldRow = (bank, row) :: rest →
      MakesSome (.rowguardRelease req n v) s fun e =>
        (e.chan n).heldRow = rest ∧ (e.chan n).bankRows bank = refreshed row (c.bankRows bank) ∧
        e.flag (at' R.ROWGUARD_EVENT_VALID) = !rest.isEmpty)

/-- R329: the patrol: it stands while it is off, waits or is not taken; a clean line lets it go on, and its pass ends at the last
line; in assisted mode it stops at a bad line and shows it, until REWRITE or SKIP. -/
def Sys2Proof.patrolScrub : Prop :=
  ∀ (s : State) (n : Nat) (req : Requester), n < 16 → reqOk req = true →
    let d := s.dev
    let at' (f : Field) : Field := f.at (0x40000 * n)
    let on : Bool := d.mcLive n && d.flag (at' R.SCRUB_CTL_EN) && !d.flag (at' R.SCRUB_STATUS_WAITING)
    let p := (d.chan n).patrol
    let next := if p + 1 < d.fld (at' R.MC_CFG_CAP_GIB) * 2 ^ 24 - 64 then p + 1 else 0
    (d.clocksOk = true →
      (∀ chk, on = false → Gives (.patrolScrub n chk) s s) ∧
      (∀ e0, on = true → d.acceptReq n 15 = (false, e0) → ∀ chk, Makes (.patrolScrub n chk) s e0) ∧
      (∀ e0, on = true → d.acceptReq n 15 = (true, e0) →
        (MakesSome (.patrolScrub n .clean) s fun e => (e.chan n).patrol = next ∧ e.dram = d.dram ∧
          (next = 0 → e.flag (at' R.SCRUB_STATUS_PASS_DONE) = true)) ∧
        (d.duty 7 = false → MakesSome (.patrolScrub n .correctable) s fun e => (e.chan n).patrol = next ∧ e.dram = d.dram) ∧
        (d.duty 7 = true → p < 2 ^ 34 → MakesSome (.patrolScrub n .uncorrectable) s fun e =>
          e.flag (at' R.SCRUB_STATUS_WAITING) = true ∧ e.flag (at' R.SCRUB_STATUS_UE) = true ∧
          e.fld (at' R.SCRUB_STATUS_ADDR) = 64 * p ∧ (e.chan n).patrol = p))) ∧
    (d.flag (at' R.SCRUB_STATUS_WAITING) = true → ∀ (v : Word),
      (v.getLsbD 17 = true → MakesSome (.scrubRewrite req n v) s fun e =>
        e.flag (at' R.SCRUB_STATUS_WAITING) = false ∧ (e.chan n).patrol = next ∧
        (∀ g, d.lineAtLocal n (64 * p) = some g →
          e.isPoisoned g = (d.isPoisoned g || d.flag (at' R.SCRUB_STATUS_UE)))) ∧
      (v.getLsbD 17 = false → v.getLsbD 18 = true → MakesSome (.scrubSkip req n v) s fun e =>
        e.flag (at' R.SCRUB_STATUS_WAITING) = false ∧ (e.chan n).patrol = next ∧ e.poisoned = d.poisoned))

/-- R330 to R334: the evacuation of a channel: START begins it for the candidate slot; the switch sends the slot's accesses to the
survivors; granules move in ascending order; when all have moved the survivors stop consulting their maps and the source
is retired. -/
def Sys2Proof.channelEvacuation : Prop :=
  ∀ (s : State),
    let d := s.dev
    let ret := R.MEM_IL_RET_STATE
    (∀ req (v : Word), reqOk req = true → v.getLsbD 20 = true → d.duty 4 = true → d.flag R.EVAC_STATUS_CANDIDATE = true →
      d.mayEvacuate = true → MakesSome (.evacStart req v) s fun e =>
        let k := d.fld R.EVAC_STATUS_CAND_SLOT
        e.evac = some ⟨k, d.fenced == some k, 0, []⟩ ∧ e.fenced = none ∧ e.fld ret = 0) ∧
    (d.evac = none → Gives .evacSwitch s s ∧ (d.clocksOk = true → ∀ cs, Gives (.evacBackgroundMove cs) s s) ∧ Gives .evacComplete s s ∧
      Gives .channelRetire s s) ∧
    (∀ e0, d.evac = some e0 → d.phase = .running →
      let n := d.slotMc e0.slot
      let q := skipMoved e0.moved e0.moved.length e0.next
      (d.fld ret = 0 → e0.slot < 16 → n < 16 → MakesSome .evacSwitch s fun e =>
        e.fld ret = 1 ∧ e.fld R.MEM_IL_RET_SLOT = e0.slot ∧ e.fld (R.MC_STATUS_STATE.at (0x40000 * n)) = 4 ∧
        e.flag R.EVAC_STATUS_BUSY = true ∧ e.evac = d.evac) ∧
      (d.clocksOk = true → d.fld ret = 1 → d.flag R.EVAC_CTL_PAUSE = false → q < d.granules → ∀ cs,
        MakesSome (.evacBackgroundMove cs) s fun e =>
          e.evac = some { e0 with
            next := q + 1
            moved := e0.moved.filter fun x => decide (q < x) } ∧ e.dram = d.dram) ∧
      (d.clocksOk = true → d.flag R.EVAC_CTL_PAUSE = true → ∀ cs, Gives (.evacBackgroundMove cs) s s) ∧
      (d.fld ret = 1 → d.granules ≤ q → MakesSome .evacComplete s fun e =>
        e.fld ret = 2 ∧ e.flag R.EVAC_STATUS_BUSY = false ∧ e.evac = d.evac) ∧
      (d.fld ret = 1 → q < d.granules → Gives .evacComplete s s) ∧
      (d.fld ret = 2 → n < 16 → MakesSome .channelRetire s fun e =>
        e.evac = none ∧ e.fld (R.MC_STATUS_STATE.at (0x40000 * n)) = 5 ∧ (e.unitAt 0 n).retired = true))

/-! ### Frahal links (R404, R408, R457 to R461) -/

/-- R404, R408, R451, R457 to R461: what the training of an enabled link ends in, rekeying, good and bad flits, the loss of block lock, a
lane's retirement under software, and the maps of the other sockets with the routes that follow from them. -/
def Obligations.FrahalLinks : Prop :=
  ∀ (s : State) (n : Nat), n < 8 →
    let d := s.dev
    let k := d.link n
    let at' (f : Field) : Field := f.at (0x40000 * n)
    let st := at' R.FL_STATUS_STATE
    let up := d.linkIn n
    (∀ o, d.flag (at' R.FL_CTL_EN) = false ∨ d.fld st = 6 → Gives (.linkTraining n o) s s) ∧
    (d.flag (at' R.FL_CTL_EN) = true → d.fld st ≠ 6 →
      (∀ peer pl w conf, peer < 8 → pl < 8 → w < 32 → d.flag (at' R.FL_CTL_SPARE) = false →
        MakesSome (.linkTraining n (.active peer pl w conf)) s fun e =>
          e.fld st = 3 ∧ e.fld (at' R.FL_STATUS_PEER_SOCKET) = peer ∧ e.fld (at' R.FL_STATUS_PEER_LINK) = pl ∧
          e.fld (at' R.FL_STATUS_WIDTH) = min w (24 - weight 24 (d.lanesRetired n)) ∧
          e.flag (at' R.FL_CRYPTO_AUTH_OK) = true ∧ e.flag (at' R.FL_CRYPTO_CONFIDENTIAL) = conf) ∧
      (MakesSome (.linkTraining n .ownSocket) s fun e => e.fld st = 0) ∧
      (MakesSome (.linkTraining n .authFailed) s fun e => e.fld st = 7 ∧ e.flag (at' R.FL_CRYPTO_AUTH_OK) = false) ∧
      Makes (.linkTraining n .noPeer) s (d.setFld st 0)) ∧
    (up = false → Gives (.linkRekey n) s s ∧ Gives (.linkBlockLockLoss n) s s) ∧
    (up = true → (MakesSome (.linkRekey n) s fun e => (e.link n).flits = 0 ∧
        e.fld (at' R.FL_CRYPTO_REKEYS) = (d.fld (at' R.FL_CRYPTO_REKEYS) + 1) % 2 ^ 32) ∧
      MakesSome (.linkBlockLockLoss n) s fun e => e.fld st = 6 ∧ e.fld (at' R.FL_STATUS_WIDTH) = 0) ∧
    (d.clocksOk = true → ∀ lane fec, lane < 24 →
      let rep := at' R.FL_COUNT_REPLAYS
      (up = false → ∀ a b, Gives (.flitReceive n a b lane fec) s s) ∧
      (up = true → (MakesSome (.flitReceive n true true lane fec) s fun e =>
          e.link n = { k with
            flits := k.flits + 1
            replayRun := 0
            failed := []
            tagRun := 0 } ∧
          e.fld (at' R.FL_COUNT_FEC_CORRECTED) = min (d.fld (at' R.FL_COUNT_FEC_CORRECTED) + fec) (2 ^ 32 - 1)) ∧
        (∀ tag, k.replayRun < 3 → MakesSome (.flitReceive n false tag lane fec) s fun e =>
          (e.link n).replayRun = k.replayRun + 1 ∧ lane ∈ (e.link n).failed ∧
          e.fld rep = min (d.fld rep + 1) (2 ^ 32 - 1)) ∧
        (k.tagRun < 2 → MakesSome (.flitReceive n true false lane fec) s fun e =>
          (e.link n).tagRun = k.tagRun + 1 ∧ e.fld rep = min (d.fld rep + 1) (2 ^ 32 - 1)) ∧
        (2 ≤ k.tagRun → MakesSome (.flitReceive n true false lane fec) s fun e => e.fld st = 6))) ∧
    (∀ req (v : Word), reqOk req = true →
      (k.candidateLane = none ∨ v.getLsbD 0 = false → Gives (.flRetireGo req n v) s s) ∧
      (∀ i, k.candidateLane = some i → i < 24 → (d.unitAt 1 (24 * n + i)).retired = false → v.getLsbD 0 = true →
        MakesSome (.flRetireGo req n v) s fun e =>
          (e.lanesRetired n).testBit i = true ∧ (e.unitAt 1 (24 * n + i)).retired = true ∧
          (5 ≤ weight 24 (e.lanesRetired n) → e.fld st = 6))) ∧
    (∀ src ls, src < 8 →
      (src = d.self → Gives (.linkMap src ls) s s) ∧
      (src ≠ d.self → MakesSome (.linkMap src ls) s fun e =>
        e.linksOf src = ls.take 8 ∧ ∀ p, p < 8 → e.fld (R.ROUTE_LINKS.at (8 * p)) = (e.routeTo p).1 ∧
          e.fld (R.ROUTE_VIA.at (8 * p)) = (e.routeTo p).2.1 ∧ e.fld (R.ROUTE_KIND.at (8 * p)) = (e.routeTo p).2.2) ∧
      (∀ a b, MakesSome (.mapExchange src a b) s fun e => e.regs = d.regs ∧
        SMap.get (fun _ => 0) e.chain.mapBase src = a ∧ SMap.get (fun _ => 0) e.chain.mapDigest src = b))

/-- Reads, writes and maintenance of memory channels. -/
def Obligations.ChannelsServe : Prop := channelReadsAndWrites ∧ channelMaintenance

/-- The patrol scrub and the evacuation of a channel. -/
def Obligations.PatrolAndEvacuation : Prop := patrolScrub ∧ channelEvacuation

/-! ### Root ports (R407 to R424) -/

/-- What a load of n bytes, 1 to 8, brings from eight bytes: its low n bytes, sign- or zero-extended. -/
def Sys2Proof.portWord (n : Nat) (signed : Bool) (v : Word) : Word :=
  let k := v.toNat % 2 ^ (8 * n)
  if signed && 2 ^ (8 * n - 1) ≤ k then BitVec.ofInt 64 ((k : Int) - 2 ^ (8 * n)) else BitVec.ofNat 64 k

/-- The command completes the load of strand g that waits at a port: it retires with these eight bytes. -/
def Sys2Proof.loadEnds (c : Instr) (s : State) (g : Nat) (v : Word) (P : State → Prop) : Prop :=
  ∀ p r, (s.strand g).portLoad = some p → p.dst = .n r → p.size = 1 ∨ p.size = 2 ∨ p.size = 4 ∨ p.size = 8 →
    GivesSome c s fun t =>
      t.strand g = retired ({ s.strand g with portLoad := none }.setN r (portWord p.size p.signed v)) ∧
      (∀ k, k ≠ g → t.strand k = s.strand k) ∧ P t

/-- The command ends the load of strand g that waits at a port with bus error (R349): at the level that takes it, CAUSE, EPC
and FADDR say which instruction and address. -/
def Sys2Proof.busErrorEnds (c : Instr) (s : State) (g : Nat) : Prop :=
  let x := s.strand g
  ∀ p, x.portLoad = some p → x.slot = none → x.shadow = none → x.sealedB = false →
    GivesSome c s fun t =>
      let y := t.strand g
      let b := if x.pl = 2 ∨ x.hstatus.getLsbD 9 = false then y.bankH else y.bankS
      y.portLoad = none ∧ b.cause = 9 ∧ b.epc = x.pc &&& ~~~3#64 ∧ b.faddr = p.addr ∧ ∀ k, k ≠ g → t.strand k = s.strand k

/-- R416, R421: the completion of a port's oldest outbound load is its value; a timeout gives it all ones, or bus error with `BUSERR_EN`;
in the cushion an idle link gives all ones whatever `BUSERR_EN` says. -/
def Sys2Proof.outboundLoadsEnd : Prop :=
  ∀ (s : State) (pt : Nat), pt < 80 →
    let x := s.dev.port pt
    let rest (os : List Outbound) (t : State) : Prop := (t.dev.port pt).out = os
    (x.out = [] → (∀ v, Gives (.portCompletion pt v) s s) ∧ Gives (.completionTimeout pt) s s) ∧
    (∀ o os v, x.out = o :: os → loadEnds (.portCompletion pt v) s o.g v (rest os)) ∧
    (∀ o os, x.out = o :: os → s.dev.flag (kpReg R.KPORT_CTL_BUSERR_EN pt) = false →
      loadEnds (.completionTimeout pt) s o.g (BitVec.allOnes 64) (rest os)) ∧
    (∀ o os, x.out = o :: os → s.dev.flag (kpReg R.KPORT_CTL_BUSERR_EN pt) = true → busErrorEnds (.completionTimeout pt) s o.g) ∧
    (s.dev.phase ≠ .drain → Gives (.portIdle pt) s s) ∧
    (s.dev.phase = .drain →
      (x.out = [] → Makes (.portIdle pt) s (s.dev.setPort pt { x with linkUp := false })) ∧
      (∀ o, x.out = [o] → loadEnds (.portIdle pt) s o.g (BitVec.allOnes 64) fun t =>
        (t.dev.port pt).out = [] ∧ (t.dev.port pt).linkUp = false))

/-- R419, R420: what makes a port contained leaves its link down, nothing waiting and nothing posted; a contained port stays so;
the release ends containment; a link trains only outside containment, with the division that its controller's register
names, and what waited is sent. -/
def Sys2Proof.portContainment : Prop :=
  ∀ (s : State) (pt : Nat), pt < 80 →
    let d := s.dev
    let con := kpReg R.KPORT_STATUS_CONTAINED pt
    let held (t : State) : Prop :=
      t.dev.flag con = true ∧ (t.dev.port pt).linkUp = false ∧ (t.dev.port pt).dpcStatus = true ∧
      (t.dev.port pt).out = [] ∧ (t.dev.port pt).posted = []
    (d.portThere pt = false → Gives (.dpcTrigger pt) s s ∧ Gives (.surpriseDown pt) s s) ∧
    (d.portThere pt = true → d.flag con = true → Gives (.dpcTrigger pt) s s) ∧
    (d.portThere pt = true → d.flag con = false → GivesSome (.dpcTrigger pt) s held ∧
      (d.phase ≠ .drain → GivesSome (.surpriseDown pt) s fun t => held t ∧ (t.dev.port pt).partner = false) ∧
      ∀ o, (d.port pt).out = [o] →
        (d.flag (kpReg R.KPORT_CTL_BUSERR_EN pt) = false → loadEnds (.dpcTrigger pt) s o.g (BitVec.allOnes 64) held) ∧
        (d.flag (kpReg R.KPORT_CTL_BUSERR_EN pt) = true → busErrorEnds (.dpcTrigger pt) s o.g)) ∧
    (∀ b, (d.flag con = false → Gives (.dpcRelease pt b) s s) ∧
      (d.flag con = true → MakesSome (.dpcRelease pt b) s fun e =>
        e.flag con = false ∧ e.port pt = { d.port pt with dpcStatus := false, partner := b })) ∧
    (d.phase ≠ .running → Gives (.pcieLinkUp pt) s s) ∧
    (d.phase = .running → d.flag con = false → (d.trainPort pt).portThere pt = true → (d.port pt).linkUp = false →
      MakesSome (.pcieLinkUp pt) s fun e =>
        let b := pt / 4 * 4
        (e.port pt).linkUp = true ∧ (e.port pt).partner = true ∧ (e.port pt).posted = [] ∧
        (e.port pt).slotStatus.getLsbD 8 = true ∧
        ((∀ i, i < 4 → (d.port (b + i)).linkUp = false) →
          (e.port b).bifurcation = d.fld (kpReg R.KPORT_CTL_BIFURCATE b)) ∧
        ∀ k, k ≠ pt → k ≠ b → e.port k = d.port k)

/-- R417, R418, R422, R423: a Slot Control write is applied by a running steward, and waits for an absent one; a slot sample shows in Slot
Status, and a power fault takes the slot's power and contains the port; `KPORT_RETIRE.GO` retires the failing lane of a
candidate, or a speed step; a change of spread is applied only while no link of the controller is up or its output is off. -/
def Sys2Proof.slotsLanesAndSpread : Prop :=
  ∀ (s : State) (pt : Nat), pt < 80 →
    let d := s.dev
    let x := d.port pt
    (∀ v, (d.phase = .drain → Gives (.slotControlWrite pt v) s s) ∧
      (d.phase ≠ .drain → d.stewardUp = false →
        Makes (.slotControlWrite pt v) s (d.setPort pt { x with slotWait := some v })) ∧
      (d.phase ≠ .drain → d.stewardUp = true → MakesSome (.slotControlWrite pt v) s fun e =>
        (e.port pt).slotCtl = v ∧ (e.port pt).slotWait = none ∧ (e.port pt).slotStatus = x.slotStatus ||| 16 ∧
        (e.port pt).powered = (!v.getLsbD 10 && !x.slotStatus.getLsbD 1))) ∧
    (∀ i, (d.phase = .drain ∨ d.stewardUp = false ∨ d.portThere pt = false → Gives (.slotSample pt i) s s) ∧
      (d.phase ≠ .drain → d.stewardUp = true → d.portThere pt = true → x.slotWait = none →
        (i.powerFault = false ∨ x.slot.powerFault = true → MakesSome (.slotSample pt i) s fun e =>
          let st := (e.port pt).slotStatus
          (e.port pt).slot = i ∧ (e.port pt).powered = x.powered ∧
          st.getLsbD 6 = (i.present || x.partner) ∧
          st.getLsbD 0 = (x.slotStatus.getLsbD 0 || (i.attention && !x.slot.attention)) ∧
          st.getLsbD 3 = (x.slotStatus.getLsbD 3 || x.slotStatus.getLsbD 6 != (i.present || x.partner)) ∧
          st.getLsbD 1 = x.slotStatus.getLsbD 1) ∧
        (i.powerFault = true → x.slot.powerFault = false → GivesSome (.slotSample pt i) s fun t =>
          (t.dev.port pt).slotStatus.getLsbD 1 = true ∧ (t.dev.port pt).powered = false ∧
          t.dev.flag (kpReg R.KPORT_STATUS_CONTAINED pt) = true))) ∧
    (∀ req (v : Word), reqOk req = true →
      let cand := kpReg R.KPORT_STATUS_CANDIDATE pt
      let gone := kpReg R.KPORT_STATUS_LANES_RETIRED pt
      (v.getLsbD 0 = false ∨ d.flag cand = false → Gives (.kportRetireGo req pt v) s s) ∧
      (v.getLsbD 0 = true → d.flag cand = true →
        (x.candidateLane = none → MakesSome (.kportRetireGo req pt v) s fun e =>
          e.flag cand = false ∧ (e.port pt).linkUp = false ∧ (e.port pt).speed = max 1 (x.speed - 1)) ∧
        (∀ i, x.candidateLane = some i → i < 16 → GivesSome (.kportRetireGo req pt v) s fun t =>
          t.dev.flag cand = false ∧ (t.dev.port pt).linkUp = false ∧ (t.dev.port pt).candidateLane = none ∧
          ∀ j, natBit (t.dev.fld gone) j = (decide (j = i) || natBit (d.fld gone) j)))) ∧
    (∀ n, n < 20 → pt = 4 * n →
      let depth := min 10 (d.fld (kpReg R.KPORT_CTL_SSC_DEPTH pt))
      let rate := min 6 (d.fld (kpReg R.KPORT_CTL_SSC_RATE pt))
      let free := d.flag (kpReg R.KPORT_CTL_REFCLK_EN pt) = false ∨ ∀ p, p < 4 → (d.port (pt + p)).linkUp = false
      MakesSome (.sscApply n) s fun e =>
        ((free ∨ (x.sscDepth = depth ∧ x.sscRate = rate)) →
          (e.port pt).sscDepth = depth ∧ (e.port pt).sscRate = rate ∧ e.flag (kpReg R.KPORT_STATUS_SSC_PENDING pt) = false) ∧
        (¬free → ¬(x.sscDepth = depth ∧ x.sscRate = rate) →
          e.port pt = x ∧ e.flag (kpReg R.KPORT_STATUS_SSC_PENDING pt) = true))

/-- R190, R411 to R415: inbound requests of a port that receives. A read within one line answers the line's bytes as they stand; a
request that translation refuses, that nothing claims, or that leads to a window or an ECAM region is answered with Unsupported
Request, the last with a record; a write is a Stash to its steering tag's target or home, or a message to the interrupt
router; an AtomicOp answers the old value and writes the new one at the home. -/
def Obligations.InboundRequests : Prop :=
  ∀ (s : State) (q : DmaReq), q.port < 80 → s.dev.clocksOk = true →
    let d := s.dev
    let rid := q.rid.toNat
    let a := q.addr.toNat
    let ur (e : Dev) : Dev := e.answer q.port 1 [] false
    let peer (e : Dev) (pa : Nat) : Dev := e.log { source := 0x0B, inst := q.port, cls := 5, address := pa }
    (d.receives q.port = false → ∀ n bs th p op z v w,
      Gives (.dmaRead q n) s s ∧ Gives (.dmaWrite q bs th p) s s ∧ Gives (.atomicop q op z v w) s s) ∧
    (d.receives q.port = true → q.pasidOrAts = true → ∀ n, Makes (.dmaRead q n) s (ur (d.ioDeny rid false a))) ∧
    (d.receives q.port = true → q.pasidOrAts = false →
      (∀ n, 0 < n → a % 4096 + n ≤ 4096 →
        (∀ e, d.ioTo rid a false = .refused e ∨ d.ioTo rid a false = .unclaimed e → Makes (.dmaRead q n) s (ur e)) ∧
        (∀ e pa, d.ioTo rid a false = .window pa e → Makes (.dmaRead q n) s (ur (peer e pa))) ∧
        (∀ e pa key ipa, d.ioTo rid a false = .mem pa key ipa e → pa % 64 + n ≤ 64 → e.homedHere (pa / 64) = true →
          let r := e.snapshot (pa / 64) key
          Makes (.dmaRead q n) s (r.dev.answer q.port 0 (takeBytes r.line (pa % 64) n) r.poison))) ∧
      (∀ bs th poison, d.inMsgWindow q.addr = true → Makes (.dmaWrite q bs th poison) s
        (d.irMessage q.rid q.addr bs.length (BitVec.ofNat 32 (leNat bs)))) ∧
      (∀ bs th poison, d.inMsgWindow q.addr = false → bs ≠ [] → a % 4096 + bs.length ≤ 4096 →
        (∀ e, d.ioTo rid a true = .refused e ∨ d.ioTo rid a true = .unclaimed e → Makes (.dmaWrite q bs th poison) s e) ∧
        (∀ e pa, d.ioTo rid a true = .window pa e → Makes (.dmaWrite q bs th poison) s (peer e pa)) ∧
        (∀ e pa key ipa, d.ioTo rid a true = .mem pa key ipa e → pa % 64 + bs.length ≤ 64 →
          Gives (.dmaWrite q bs th poison) s
            (({ s with dev := e } : State).ioStash (pa / 64) (pa % 64) bs key (th.getD 0x8000) poison))) ∧
      (∀ op z v w, z ≠ 4 ∧ z ≠ 8 ∨ a % z ≠ 0 ∨ op ≠ .add ∧ op ≠ .swap ∧ op ≠ .cas →
        Makes (.atomicop q op z v w) s (ur d)) ∧
      (∀ z v w pa0 k0 i0 e0 pa key ipa e, z = 4 ∨ z = 8 → a % z = 0 → d.ioTo rid a false = .mem pa0 k0 i0 e0 →
        e0.ioTo rid a true = .mem pa key ipa e → e.homedHere (pa / 64) = true →
        let r := e.snapshot (pa / 64) key
        let old := leNat (takeBytes r.line (pa % 64) z)
        let put (x : Nat) : Dev :=
          (r.dev.homeStore (pa / 64) (pa % 64) (leBytes z x) key false none).answer q.port 0 (leBytes z old) r.poison
        Makes (.atomicop q .add z v w) s (put ((old + v.toNat % 2 ^ (8 * z)) % 2 ^ (8 * z))) ∧
        Makes (.atomicop q .swap z v w) s (put (v.toNat % 2 ^ (8 * z))) ∧
        (old = w.toNat % 2 ^ (8 * z) → Makes (.atomicop q .cas z v w) s (put (v.toNat % 2 ^ (8 * z)))) ∧
        (old ≠ w.toNat % 2 ^ (8 * z) →
          Makes (.atomicop q .cas z v w) s (r.dev.answer q.port 0 (leBytes z old) r.poison))))

/-- Outbound loads, containment, slots, lanes and spread of the root ports. -/
def Obligations.RootPorts : Prop := outboundLoadsEnd ∧ portContainment ∧ slotsLanesAndSpread

/-! ### The Ledger Engine (R425 to R442) -/

/-- R434, R435, R439: what the engine's writes of part of a line do, by where the address leads: a refused or unclaimed address and a
contained port's window fail; a Peat line waits for a credit of the engine's share; a write for a VF that logs is entered
in the bitmap or the ring before it, or waits for ring space; the bytes go to the line as a Stash. -/
def Sys2Proof.engineWrites : Prop :=
  ∀ (s : State) (b : LedBy) (a : Nat) (bs : List Byte),
    let d := s.dev
    let way := d.ioTo (fnRid b.fn) a true
    (∀ e, way = .refused e → s.ledWrite b a bs = .fail 2 { s with dev := e }) ∧
    (∀ e, way = .unclaimed e → s.ledWrite b a bs = .fail 1 { s with dev := e }) ∧
    (∀ e pa pt, way = .window pa e → e.windowPort pa = some pt → e.contained pt = true →
      s.ledWrite b a bs = .fail 4 { s with dev := e.addSat (kpReg R.KPORT_COUNT_LOST pt) 1 }) ∧
    (∀ e pa key ipa, way = .mem pa key ipa e →
      let peat := isPeat (pa / 64)
      let ring := e.flag (dlReg R.DLOG_CTL_EN b.fn) = true ∧ e.duty 1 = true
      (peat = true → e.homedHere (pa / 64) = true → e.phase ≠ .drain → (e.stack (stackOf (pa / 64))).ledgerLeft = 0 →
        s.ledWrite b a bs = .wait { s with dev := e }) ∧
      (peat = false → b.fn = 0 ∨ e.flag (dlReg R.DLOG_CTL_EN b.fn) = false →
        s.ledWrite b a bs = .ok (({ s with dev := e } : State).ioStash (pa / 64) (pa % 64) bs key b.target false)) ∧
      (peat = false → b.fn ≠ 0 → e.flag (dlReg R.DLOG_CTL_EN b.fn) = true → e.duty 1 = false →
        e.fld (dlReg R.DLOG_CTL_GIB b.fn) * 2 ^ 18 ≤ ipa / 4096 →
        s.ledWrite b a bs = .ok (({ s with dev := e.setFld (dlReg R.DLOG_CTL_OVERFLOW b.fn) 1 } : State).ioStash (pa / 64)
          (pa % 64) bs key b.target false)) ∧
      (peat = false → b.fn ≠ 0 → e.flag (dlReg R.DLOG_CTL_EN b.fn) = true → e.duty 1 = false →
        ipa / 4096 < e.fld (dlReg R.DLOG_CTL_GIB b.fn) * 2 ^ 18 →
        let map := if e.fld (dlReg R.DLOG_GEN_GEN_ACK b.fn) % 2 = 0 then R.DLOG_MAP0_ADDR else R.DLOG_MAP1_ADDR
        let logged := e.farWord (e.fld (dlReg map b.fn) * 4096 + ipa / 4096 / 64 * 8) fun w => w ||| 2 ^ (ipa / 4096 % 64)
        s.ledWrite b a bs = .ok (({ s with dev := logged.2 } : State).ioStash (pa / 64) (pa % 64) bs key b.target false)) ∧
      (peat = false → b.fn ≠ 0 → ring → e.dlFull b.fn = false →
        let t := dlReg R.DLOG_RING_TAIL_INDEX b.fn
        let logged := e.farWord (e.fld (dlReg R.DLOG_RING_ADDR b.fn) * 4096 + 8 * e.fld t) fun _ =>
          ipa / 4096 * 4096 + e.fld (dlReg R.DLOG_GEN_GEN_ACK b.fn) % 4096
        s.ledWrite b a bs = .ok (({ s with dev := logged.2.setFld t ((e.fld t + 1) % e.dlSize b.fn) } : State).ioStash
          (pa / 64) (pa % 64) bs key b.target false)) ∧
      (peat = false → b.fn ≠ 0 → ring → e.dlFull b.fn = true → e.flag (dlReg R.DLOG_CTL_FULL_STALL b.fn) = true →
        e.phase = .running →
        s.ledWrite b a bs = .wait { s with dev := e.setFld (dlReg R.DLOG_CTL_STALLED b.fn) 1 }))

/-- The command ends the descriptor with sequence sq of pair q in this state, with a status, the bytes done and a result. -/
def Sys2Proof.descEnds (c : Instr) (s u : State) (q sq status bytes : Nat) (result : Word) : Prop :=
  Gives c s { u with dev := u.dev.setDesc q sq fun x => { x with
    started := true
    done := true
    status := status
    bytes := bytes
    result := result } }

/-- R431, R433, R436: a descriptor that may run, whose source is read: COPY, STASHCOPY, FILL and APPEND write the bytes of a line's part at their
destination, DIGEST gives the CRC-64 of the source, ENCRYPT writes a data unit's transform, COMPARE tells where the
sources differ. A failed read or write ends the descriptor with its status. -/
def Obligations.DescriptorsRun : Prop :=
  engineWrites ∧
  ∀ (s : State) (q sq : Nat) (x : Desc), q < 8192 → s.dev.clocksOk = true → s.dev.desc q sq = some x →
    s.dev.mayRun q x = true → x.bytes = 0 → 0 < x.len →
    let rid := fnRid (s.dev.qOwner q)
    let got := s.dev.ledRead rid x.src x.len
    let u : State := { s with dev := got.dev }
    let range := some (x.src, x.len)
    let b (target : BitVec 16) (src : Option (Nat × Nat)) : LedBy := ⟨s.dev.qOwner q, q, sq, 0, target, src⟩
    let apart (a : Nat) : Prop := a + x.len ≤ x.src ∨ x.src + x.len ≤ a
    (∀ op target, (op = 1 ∧ target = 0x8000) ∨ (op = 7 ∧ target = x.arg0.setWidth 16) → x.op = op → x.dst % 64 + x.len ≤ 64 →
      let c : Instr := if op = 1 then .copy q sq else .stashcopy q sq
      (got.status ≠ 0 → got.bytes = [] → descEnds c s u q sq got.status 0 0) ∧
      (got.status = 0 → got.bytes.length = x.len → apart x.dst →
        (∀ z, u.ledWrite (b target range) x.dst got.bytes = .ok z → descEnds c s z q sq 0 x.len 0) ∧
        (∀ e z, e ≠ 0 → u.ledWrite (b target range) x.dst got.bytes = .fail e z → descEnds c s z q sq e 0 0))) ∧
    (x.op = 2 → x.dst % 64 + x.len ≤ 64 →
      let bs : List Byte := (List.range x.len).map fun i => BitVec.ofNat 8 (x.arg0.toNat / 256 ^ (i % 8))
      (∀ z, s.ledWrite (b 0x8000 none) x.dst bs = .ok z → descEnds (.fill q sq) s z q sq 0 x.len 0) ∧
      (∀ e z, e ≠ 0 → s.ledWrite (b 0x8000 none) x.dst bs = .fail e z → descEnds (.fill q sq) s z q sq e 0 0)) ∧
    (x.op = 3 → got.status = 0 → got.bytes.length = x.len →
      let size := s.dev.streamSize x.stream
      let a := s.dev.streamAddr x.stream x.resv
      x.resv % size + x.len ≤ size → a % 64 + x.len ≤ 64 → apart a → ∀ e pa key ipa, got.dev.ioTo rid a true = .mem pa key ipa e →
        (isPeat (pa / 64) = true → e.homedHere (pa / 64) = true → ∀ z,
          ({ s with dev := e } : State).ledWrite (b 0x8000 range) a got.bytes = .ok z →
            descEnds (.append q sq) s z q sq 0 x.len (BitVec.ofNat 64 x.resv)) ∧
        (isPeat (pa / 64) = false ∨ e.homedHere (pa / 64) = false →
          descEnds (.append q sq) s { s with dev := e } q sq 9 0 (BitVec.ofNat 64 x.resv))) ∧
    (x.op = 4 →
      (got.status ≠ 0 → descEnds (.digest q sq) s u q sq got.status got.bytes.length 0) ∧
      (got.status = 0 → x.opflag 0 = false →
        descEnds (.digest q sq) s u q sq 0 x.len (BitVec.ofNat 64 (crc64 x.arg0.toNat got.bytes)))) ∧
    (x.op = 5 → x.opflag 1 = false → x.len = 512 →
      let k := s.dev.ledRead rid x.arg0.toNat 64
      let p := k.dev.ledRead rid x.src 512
      let out := Config.xts k.bytes (x.arg1.toNat % 2 ^ 128) (x.opflag 0) p.bytes
      (k.status ≠ 0 → descEnds (.encrypt q sq) s { s with dev := k.dev } q sq k.status 0 0) ∧
      (k.status = 0 → p.status ≠ 0 → descEnds (.encrypt q sq) s { s with dev := p.dev } q sq p.status 0 0) ∧
      (k.status = 0 → p.status = 0 → ∀ z,
        runWrite (b 0x8000 range) x.dst ((List.range 512).map fun i => (out[i]?).getD 0) ⟨{ s with dev := p.dev }, 0, 0, false⟩ =
          ⟨z, 512, 0, false⟩ → descEnds (.encrypt q sq) s z q sq 0 512 0)) ∧
    (x.op = 6 →
      let p := got.dev.ledRead rid x.dst x.len
      let z : State := { s with dev := p.dev }
      got.status = 0 → p.status = 0 → got.bytes.length = x.len → p.bytes.length = x.len →
      (got.bytes = p.bytes → descEnds (.compare q sq) s z q sq 0 x.len (BitVec.ofNat 64 x.len)) ∧
      (∀ k, k < x.len → got.bytes.take k = p.bytes.take k → got.bytes[k]? ≠ p.bytes[k]? →
        descEnds (.compare q sq) s z q sq 5 (k + 1) (BitVec.ofNat 64 k)))

/-- R427, R428, R430, R431, R438: a doorbell moves SQ_TAIL, is counted during a quiesce and is an error past the ring; a pair that may fetch takes the
descriptor at its head, with the next sequence; enabling a pair starts its rings anew or waits for the quiesce; a pair is
assigned only while it is disabled and idle and the slot is free. -/
def Obligations.QueuePairs : Prop :=
  ∀ (s : State) (q : Nat), q < 8192 →
    let d := s.dev
    let f := d.qOwner q
    let x := d.queue q
    let en := qReg R.Q_CTL_EN q
    let tail := qReg R.SQ_TAIL_INDEX q
    (∀ (v : Word), let n := (v.extractLsb' 0 16).toNat
      ((d.func f).quiescing = true →
        Makes (.sqDoorbell q v) s (d.addSat (fnReg R.FN_STATUS_DROPPED f) 1)) ∧
      (d.fnOn f = true → d.flag en = true → d.sqSize q ≤ n → MakesSome (.sqDoorbell q v) s fun e =>
        e.fld (qReg R.Q_STATUS_ERR q) = 1 ∧ e.reg tail.reg = d.reg tail.reg) ∧
      (d.fnOn f = true → d.flag en = false ∨ n < d.sqSize q → MakesSome (.sqDoorbell q v) s fun e => e.fld tail = n)) ∧
    (d.clocksOk = true →
      (d.mayFetch q = false → Gives (.descriptorFetch q) s s) ∧
      (d.mayFetch q = true →
        let got := d.ledRead (fnRid f) (d.fld (qReg R.SQ_BASE_ADDR q) * 4096 + 64 * (x.head % d.sqSize q)) 64
        let e0 : Desc := { sq := x.seqn, raw := got.bytes }
        let takes (y : Desc) (P : Dev → Prop) : Prop := MakesSome (.descriptorFetch q) s fun e =>
          e.queue q = { x with
            head := (x.head + 1) % d.sqSize q
            seqn := (x.seqn + 1) % 2 ^ 32
            inflight := x.inflight ++ [y] } ∧
          e.fld (qReg R.Q_STATUS_INFLIGHT q) = x.inflight.length + 1 ∧ P e
        (got.status ≠ 0 → MakesSome (.descriptorFetch q) s fun e =>
          e.fld (qReg R.Q_STATUS_ERR q) = 2 ∧ e.queue q = got.dev.queue q) ∧
        (got.status = 0 → got.dev.queue q = x →
          (e0.wellFormed = false → takes { e0 with started := true, done := true, status := 7 } fun _ => True) ∧
          (e0.wellFormed = true → e0.op ≠ 3 → takes e0 fun _ => True) ∧
          (e0.wellFormed = true → e0.op = 3 →
            let t := e0.stream
            let st := got.dev.stream t
            let okS : Bool := got.dev.flag (streamReg R.STREAM_CTL_EN t) && !st.closing &&
              got.dev.fld (streamReg R.STREAM_CTL_OWNER t) == f
            let full : Bool := got.dev.streamSize t < st.resv - got.dev.fld (streamReg R.STREAM_HEAD_OFFSET t) + e0.len
            (got.dev.qOwner q = f → okS = false → takes { e0 with started := true, done := true, status := 7 } fun _ => True) ∧
            (got.dev.qOwner q = f → okS = true → full = true →
              takes { e0 with started := true, done := true, status := 6 } fun _ => True) ∧
            (got.dev.qOwner q = f → okS = true → full = false → takes { e0 with resv := st.resv } fun e =>
              (e.stream t).resv = st.resv + e0.len ∧
              (e.stream t).ranges = st.ranges ++ [(q, x.seqn, st.resv, e0.len, false)]))))) ∧
    (∀ (v : Word),
      (v.getLsbD 0 = true → d.flag en = false → (d.func f).quiescing = false → MakesSome (.queueEnable q v) s fun e =>
        e.flag en = true ∧ e.fld tail = 0 ∧ e.fld (qReg R.CQ_HEAD_INDEX q) = 0 ∧ e.queue q = { inflight := x.inflight }) ∧
      (v.getLsbD 0 = true → d.flag en = false → (d.func f).quiescing = true → MakesSome (.queueEnable q v) s fun e =>
        e.flag en = false ∧ (e.queue q).pendingEn = true) ∧
      (v.getLsbD 0 = false → MakesSome (.queueEnable q v) s fun e =>
        e.flag en = false ∧ e.fld (qReg R.Q_STATUS_ERR q) = 0 ∧ e.queue q = { x with pendingEn := false })) ∧
    (∀ (v : Word),
      let fn := (v.extractLsb' 0 12).toNat
      let j := (v.extractLsb' 12 8).toNat
      let bad : Bool := d.flag en || !x.inflight.isEmpty || (fn != 0 && 224 ≤ j) || 2048 ≤ fn || d.slotHeld q fn j
      MakesSome (.qpAssign q v) s fun e =>
        (bad = true → e.flag (qReg R.Q_STATUS_ASSIGN_REFUSED q) = true ∧ e.qOwner q = f) ∧
        (bad = false → e.qOwner q = fn ∧ e.fld (R.QP_ASSIGN_SLOT.at (8 * q)) = j))

/-- R434 to R436: a completion is written once its writes are durable and there is room: its 32 bytes carry the descriptor's fields; the
descriptor leaves the queue, an APPEND advances its stream's TAIL. Enabling a stream starts it at HEAD; a disable waits for
what is reserved. -/
def Sys2Proof.completionsAndStreams : Prop :=
  (∀ (x : Desc) (phase : Bool) (h : Nat), x.sq < 2 ^ 32 → x.status < 256 → x.bytes < 2 ^ 64 → x.op < 16 → h < 65536 →
    let bs := completionBytes x phase h
    let w (k : Nat) : Nat := leNat ((bs.drop (8 * k)).take 8)
    bs.length = 32 ∧ w 0 % 2 ^ 32 = x.sq ∧ w 0 / 2 ^ 32 % 256 = x.status ∧ w 0 / 2 ^ 40 % 16 = x.op ∧
    w 0 / 2 ^ 44 = (if phase then 2 ^ 19 else 0) ∧ w 1 = x.bytes ∧ w 2 = x.result.toNat ∧ w 3 = x.tag + h * 2 ^ 32) ∧
  (∀ (s : State) (q sq : Nat) (x : Desc), q < 8192 → s.dev.clocksOk = true → s.dev.desc q sq = some x →
    let d := s.dev
    let y := d.queue q
    let n := d.cqSize q
    let bs := completionBytes x (y.written / n % 2 == 0) y.head
    let w := s.ledWrite ⟨d.qOwner q, q, x.sq, 0, 0x8000, none⟩ (d.fld (qReg R.CQ_BASE_ADDR q) * 4096 + 32 * (y.written % n)) bs
    (d.mayComplete q x = false → Gives (.completionWrite q sq) s s) ∧
    (d.mayComplete q x = true →
      (∀ z, w = .wait z → Gives (.completionWrite q sq) s z) ∧
      (∀ e z, w = .fail e z → Gives (.completionWrite q sq) s { z with dev := z.dev.queueErr q 3 }) ∧
      (∀ z, w = .ok z → GivesSome (.completionWrite q sq) s fun t =>
        (t.dev.queue q).written = y.written + 1 ∧
        (t.dev.queue q).inflight = (z.dev.queue q).inflight.filter (fun e => e.sq != x.sq) ∧
        (x.op = 3 → ((z.dev.stream x.stream).ranges.any fun e => e.1 == q && e.2.1 == x.sq) = true →
          t.dev.fld (streamReg R.STREAM_TAIL_OFFSET x.stream) = (x.resv + x.len) % 2 ^ 64 ∧
          ∀ e ∈ (t.dev.stream x.stream).ranges, ¬(e.1 = q ∧ e.2.1 = x.sq))))) ∧
  (∀ (s : State) (t : Nat) (v : Word), t < 4096 →
    let d := s.dev
    let en := streamReg R.STREAM_CTL_EN t
    let st := d.stream t
    let h := d.reg (streamReg R.STREAM_HEAD_OFFSET t).reg
    ∀ c, c = Instr.streamEnable t v ∨ c = Instr.streamDisable t v →
      (d.flag en = false → v.getLsbD 0 = true → MakesSome c s fun e =>
        e.flag en = true ∧ e.reg (streamReg R.STREAM_TAIL_OFFSET t).reg = h ∧ e.stream t = { resv := h.toNat }) ∧
      (d.flag en = true → v.getLsbD 0 = true → Gives c s s) ∧
      (d.flag en = true → v.getLsbD 0 = false → st.ranges = [] → MakesSome c s fun e =>
        e.flag en = false ∧ e.stream t = st) ∧
      (d.flag en = true → v.getLsbD 0 = false → st.ranges ≠ [] → MakesSome c s fun e =>
        e.flag en = true ∧ e.stream t = { st with closing := true }))

/-- R427, R437, R438, R441: a function that is reset, enters D3hot or loses VF Enable quiesces: its descriptors are discarded and its
streams cut; what is enabled meanwhile waits for the quiesce's end. In a drain the engine stops every descriptor. -/
def Sys2Proof.functionsQuiesce : Prop :=
  ∀ (s : State),
    let d := s.dev
    (∀ f, f < 2048 →
      let x := d.func f
      let stopped (e : Dev) : Prop :=
        (e.func f).quiescing = true ∧ (e.func f).bme = false ∧ e.fld (fnReg R.FN_STATUS_DROPPED f) = 0 ∧
        (∀ q, q < 8192 → d.qOwner q = f → (e.queue q).inflight = []) ∧
        ∀ t st, t < 4096 → (t, st) ∈ d.streams → d.fld (streamReg R.STREAM_CTL_OWNER t) = f →
          (e.stream t).resv = d.fld (streamReg R.STREAM_TAIL_OFFSET t) ∧ (e.stream t).ranges = []
      MakesSome (.flr f) s (fun e => stopped e ∧ (e.func f).cfg = [] ∧ (e.func f).mse = false ∧ (e.func f).d3 = false) ∧
      MakesSome (.d3hotEntry f) s (fun e => stopped e ∧ (e.func f).d3 = true) ∧
      (∀ on, MakesSome (.busMasterEnable f on) s fun e =>
        (on = true ∧ x.quiescing = true → (e.func f).wantBme = true ∧ (e.func f).bme = x.bme) ∧
        (on = false ∨ x.quiescing = false → (e.func f).bme = on ∧ (e.func f).wantBme = false)) ∧
      (x.quiescing = false → Gives (.quiesceComplete f) s s) ∧
      (x.quiescing = true → MakesSome (.quiesceComplete f) s fun e =>
        (e.func f).quiescing = false ∧ (e.func f).bme = (x.bme || x.wantBme) ∧ (e.func f).exposed = (x.exposed || x.wantVf) ∧
        ∀ q, q < 8192 → d.qOwner q = f → (d.queue q).pendingEn = true →
          e.flag (qReg R.Q_CTL_EN q) = true ∧ (e.queue q).pendingEn = false)) ∧
    (∀ n, n < 2048 → MakesSome (.vfEnable true n) s fun e => ∀ v, 1 ≤ v → v ≤ n →
      ((d.func v).quiescing = true → (e.func v).wantVf = true ∧ (e.func v).exposed = (d.func v).exposed) ∧
      ((d.func v).quiescing = false → (e.func v).exposed = true)) ∧
    (∀ n, n < 2048 → MakesSome (.vfEnable false n) s fun e => ∀ v, v ≠ 0 → (d.func v).exposed = true →
      (e.func v).exposed = false ∧ (e.func v).quiescing = true) ∧
    (d.drain = none → Gives .ledgerDrainStop s s) ∧
    (d.drain ≠ none → MakesSome .ledgerDrainStop s fun e =>
      (∀ q, (e.queue q).inflight = []) ∧ (∀ t, (e.stream t).ranges = []) ∧
      ∀ r, e.drain = some r → natBit r.report.phases 4 = true)

/-- R439, R440: only GEN + 1 opens a logging round; the engine acknowledges it; ring space ends a stall. -/
def Sys2Proof.loggingRounds : Prop :=
  ∀ (s : State) (v : Nat), 1 ≤ v → v < 2048 →
    let d := s.dev
    let gen := dlReg R.DLOG_GEN_GEN v
    let head := dlReg R.DLOG_RING_HEAD_INDEX v
    (∀ (x : Word), (x.toNat % 2 ^ 32 = (d.fld gen + 1) % 2 ^ 32 → MakesSome (.dlogGen v x) s fun e =>
        e.fld gen = x.toNat % 2 ^ 32 ∧ e.fld (dlReg R.DLOG_GEN_GEN_ACK v) = d.fld (dlReg R.DLOG_GEN_GEN_ACK v)) ∧
      (x.toNat % 2 ^ 32 ≠ (d.fld gen + 1) % 2 ^ 32 → Gives (.dlogGen v x) s s)) ∧
    MakesSome (.dlogGenAck v) s (fun e => e.fld (dlReg R.DLOG_GEN_GEN_ACK v) = d.fld gen ∧ e.fld gen = d.fld gen) ∧
    (∀ (x : Word), MakesSome (.dlogRingHeadWrite v x) s fun e => e.fld head = x.toNat % 2 ^ 22 ∧
      (e.fld (dlReg R.DLOG_RING_TAIL_INDEX v) = d.fld (dlReg R.DLOG_RING_TAIL_INDEX v)) ∧
      ((d.setFld head (x.toNat % 2 ^ 22)).dlFull v = false → e.flag (dlReg R.DLOG_CTL_STALLED v) = false))

/-- Completions, streams, quiesces and dirty-page logging. -/
def Obligations.CompletionsFunctionsAndLogs : Prop := completionsAndStreams ∧ functionsQuiesce ∧ loggingRounds

/-! ### The steward and firmware update (R506 to R527) -/

/-- Whether a management command is served now on its channel (R506, R508, R509, R523): in fiddlehead only three are known. -/
def Sys2Proof.mayManage (d : Dev) (ch : Channel) (code : Nat) : Bool :=
  d.portAnswers && (d.phase != .booting || code == 0x01 || code == 0x40 || code == 0x42) &&
    match ch with
    | .mctp => true
    | .mailbox => d.boxWaits .stw code
    | .pfMailbox => code == 0x40 && d.boxWaits .pf 0x70

/-- The device when a management command completes on its channel with a status and a response. -/
def Sys2Proof.managed (ch : Channel) (status : Nat) (resp : List Byte) (e : Dev) : Dev :=
  match ch with
  | .mctp => { e with fw := { e.fw with
      response := resp
      result := status } }
  | .mailbox => e.boxDone .stw status resp
  | .pfMailbox => e.boxDone .pf status resp

/-- The command, where it is served, completes with a status and a response and leaves this device. -/
def Sys2Proof.answers (c : Instr) (s : State) (ch : Channel) (code status : Nat) (resp : List Byte) (e : Dev) : Prop :=
  mayManage s.dev ch code = true → Makes c s (managed ch status resp e)

/-- R30, R508, R509, R523: a command that its mailbox does not hold has no effect; one that the steward cannot serve yet stays
queued; in fiddlehead an unknown one is a bad command. -/
def Sys2Proof.unservedRules (c : Channel → Instr) (s : State) (code : Nat) : Prop :=
  (s.dev.boxWaits .stw code = false → Gives (c .mailbox) s s) ∧
  (s.dev.portAnswers = false → s.dev.boxWaits .stw code = true →
    Makes (c .mailbox) s (s.dev.setFld R.SMB_STATUS_QUEUED 1)) ∧
  (s.dev.portAnswers = false → Gives (c .mctp) s s) ∧
  (s.dev.phase = .booting → code ≠ 0x01 → code ≠ 0x40 → code ≠ 0x42 → Makes (c .mctp) s (managed .mctp 3 [] s.dev))

/-- R506 to R512: the management port takes its addresses and answers the control commands; the reading commands answer their bytes and
change nothing; a configuration item is written but for the locked snapshot and a locked policy; a soft repair entry is
marked cleared. -/
def Obligations.ManagementCommands : Prop :=
  ∀ (s : State) (ch : Channel),
    let d := s.dev
    let tells (c : Instr) (bs : List Byte) : Prop := Makes c s { d with fw := { d.fw with
      response := bs
      result := 0 } }
    let item (k : Nat) : List Byte := d.cfgItem k
    let version (i : ImageId) : List Byte := leBytes 8 i.ver.toNat ++ [BitVec.ofNat 8 i.svn]
    (d.portAnswers = false → ∀ a b, Gives (.entdaa a) s s ∧ Gives (.setdasa b a) s s) ∧
    (d.portAnswers = true →
      (∀ a, Makes (.entdaa a) s { d with fw := { d.fw with i3cAddr := some a } }) ∧
      (∀ a (b : BitVec 7), (d.chain.enumerated = true → b.toNat = 0x30 + d.self →
          Makes (.setdasa b a) s { d with fw := { d.fw with i3cAddr := some a } }) ∧
        (d.chain.enumerated = false ∨ b.toNat ≠ 0x30 + d.self → Gives (.setdasa b a) s s)) ∧
      (∀ e, MakesSome (.setEndpointId e) s fun z => z.fw.eid = e ∧ z.fw.response = [e] ∧ z.fw.result = 0) ∧
      tells .getEndpointId [d.fw.eid] ∧ tells .getMctpVersionSupport [1, 3] ∧ tells .getMessageTypeSupport [0, 5, 0x7E]) ∧
    Makes .eventMessageTimeout s { d with fw := { d.fw with msgs := d.fw.msgs.tail } } ∧
    unservedRules (fun x => .getInfo x) s 0x01 ∧ unservedRules (fun x => .cfgDefaults x) s 0x12 ∧
    answers (.getInfo ch) s ch 0x01 0 (leBytes 2 (d.fld R.IDENT_PART) ++ leBytes 1 (d.fld R.IDENT_STEPPING) ++ leBytes 1 d.self
      ++ [1, 2, 3, 4, 5].flatMap (fun c => version (d.running c)) ++ [1, 2, 3, 4, 5].flatMap (fun c => version (d.previous c))
      ++ leBytes 2 (d.fld R.STW_STATUS_SCHEMA) ++ leBytes 8 (d.reg R.UPD_STATUS_PHASE.reg).toNat) d ∧
    (∀ k, (k ∈ cfgKeys → answers (.cfgRead ch k) s ch 0x10 0 (item k) d) ∧
      (k ∉ cfgKeys → answers (.cfgRead ch k) s ch 0x10 3 [] d)) ∧
    (∀ k v, unservedRules (fun x => .cfgRead x k) s 0x10 ∧ unservedRules (fun x => .cfgWrite x k v) s 0x11 ∧
      (k ∉ cfgKeys → answers (.cfgWrite ch k v) s ch 0x11 3 [] d) ∧
      (k = 0x0200 ∨ k = 0x0401 ∧ (d.locked = true ∨ ch = .mctp) → answers (.cfgWrite ch k v) s ch 0x11 9 [] d) ∧
      (k ∈ cfgKeys → k ≠ 0x0200 → k ≠ 0x0401 ∨ (d.locked = false ∧ ch ≠ .mctp) → k ≠ 0x0400 ∨ 10000 ≤ leNat v ∧ leNat v ≤ 10000000 → v.length ≤ 4088 →
        answers (.cfgWrite ch k v) s ch 0x11 0 [] { d with fw := { d.fw with
          cfg := SMap.set (fun _ => []) d.cfgNow k v
          cfgGen := d.fw.cfgGen + 1
          cfgSchema := d.fw.schema } })) ∧
    (ch = .mctp → d.locked = true → answers (.cfgDefaults ch) s ch 0x12 9 [] d) ∧
    (ch ≠ .mctp ∨ d.locked = false → answers (.cfgDefaults ch) s ch 0x12 0 [] { d with fw := { d.fw with
      cfg := []
      cfgGen := d.fw.cfgGen + 1
      cfgSchema := d.fw.schema
      snapshot := none } }) ∧
    (∀ first n, (1 ≤ n → n ≤ 63 → first < 1024 → answers (.errRead ch first n) s ch 0x20 0
        ((List.range n).flatMap fun i => d.recordBytes ((first + i) % 1024)) d) ∧
      (n = 0 ∨ 63 < n ∨ 1024 ≤ first → answers (.errRead ch first n) s ch 0x20 3 [] d)) ∧
    (∀ (first : Word) n, (1 ≤ n → n ≤ 31 → answers (.tlmRead ch first n) s ch 0x21 0
        ((List.range n).flatMap fun i => SMap.get (fun _ => leBytes 128 0) d.fw.tlm ((first.toNat + i) % 4096)) d) ∧
      (n = 0 ∨ 31 < n → answers (.tlmRead ch first n) s ch 0x21 3 [] d)) ∧
    (∀ i, (∀ r, d.repairs[i]? = some r → r.fused = false → answers (.repairClear ch i) s ch 0x31 0 []
          { d with repairs := d.repairs.set i { r with typ := 4 } }.showRepairs) ∧
      (∀ r, d.repairs[i]? = some r → r.fused = true → answers (.repairClear ch i) s ch 0x31 4 [] d)) ∧
    answers (.updateStatus ch) s ch 0x42 0 (leBytes 8 (d.reg R.UPD_STATUS_PHASE.reg).toNat ++ leBytes 8 (d.reg R.UPD_FRAME_FRAME.reg).toNat
      ++ (List.range 8).map fun k => BitVec.ofNat 8 (SMap.get (fun _ => 0) d.fw.reasons k)) d

/-- The update is aborted for a reason (R518): PHASE is 8, the reason is shown, and nothing stays armed. -/
def Sys2Proof.updateAborted (reason : Nat) (e : Dev) : Prop :=
  e.fld R.UPD_STATUS_PHASE = 8 ∧ e.fld R.UPD_STATUS_REASON = reason ∧ e.fw.aborted = true ∧ e.fw.confirmed = false ∧
  e.fw.armA = none

/-- The update message that a head or socket sends last (R516): its subtype and its frame. -/
def Sys2Proof.sentLast (sub : Nat) (frame : Word) (d e : Dev) : Prop :=
  d.flag R.CHAIN_STATUS_MSG_DOWN = false → ∃ bs, e.chain.sent.getLast? = some (0x20, BitVec.ofNat 8 sub :: (leBytes 8 frame.toNat ++ bs))

/-- R514 to R516, R523: a chunk is staged in order at the head, and refused where it is busy, too long or out of place; elsewhere it is
relayed. A start of a good sorus distributes it and prepares, and a bad one aborts with the check that fails; a socket
that has its whole copy checks it and answers READY or ABORT. -/
def Sys2Proof.sorusIsStaged : Prop :=
  ∀ (s : State) (ch : Channel),
    let d := s.dev
    (∀ off total last start rb bytes,
      let put := (if off = 0 then [] else d.fw.staged) ++ bytes
      let bad : Prop := bytes = [] ∨ 4064 < bytes.length ∨ 2 ^ 28 < total ∨ total < off + bytes.length
      (d.isHead = false → d.phase ≠ .booting → Makes (.sorusChunk ch off total last start rb bytes) s (d.chainSend 0x41 (leBytes 8 off))) ∧
      (d.isHead = true ∨ d.phase = .booting →
        (d.updBusy = true → answers (.sorusChunk ch off total last start rb bytes) s ch 0x40 1 [] d) ∧
        (d.updBusy = false → bad → answers (.sorusChunk ch off total last start rb bytes) s ch 0x40 3 [] d) ∧
        (d.updBusy = false → ¬bad → off ≠ 0 → off ≠ d.fw.staged.length →
          answers (.sorusChunk ch off total last start rb bytes) s ch 0x40 4 [] d) ∧
        (d.updBusy = false → ¬bad → off = 0 ∨ off = d.fw.staged.length → last = false ∨ (start = false ∧ d.phase ≠ .booting) →
          answers (.sorusChunk ch off total last start rb bytes) s ch 0x40 0 (leBytes 8 put.length)
            ({ d with fw := { d.fw with
              staged := put
              stagedTotal := total
              stagedLast := last
              rebuild := rb } }.updPhase 1)))) ∧
    (∀ x, (d.isHead = false → Makes (.updateStart ch x) s (d.chainSend 0x41 [0x41])) ∧
      (d.isHead = true → d.updBusy = true → answers (.updateStart ch x) s ch 0x41 1 [] d) ∧
      (d.isHead = true → d.updBusy = false → d.fw.staged = [] → answers (.updateStart ch x) s ch 0x41 4 [] d) ∧
      (d.isHead = true → d.updBusy = false → d.fw.staged ≠ [] → d.flag R.CHAIN_STATUS_MSG_DOWN = false →
        mayManage d ch 0x41 = true → MakesSome (.updateStart ch x) s fun e =>
          (d.sorusVerdict x.toNat ≠ 0 → d.sorusVerdict x.toNat < 256 → updateAborted (d.sorusVerdict x.toNat) e) ∧
          (d.sorusVerdict x.toNat = 0 → e.fw.previous = d.fw.running ∧ e.fw.staged = d.fw.staged ∧
            (e.fld R.UPD_STATUS_PHASE = 4 ∨ e.fld R.UPD_STATUS_PHASE = 5)))) ∧
    (d.isHead = false → Makes (.updateAbort ch) s (d.chainSend 0x41 [0x43])) ∧
    (d.isHead = true → d.mayAbort = false → answers (.updateAbort ch) s ch 0x43 4 [] d) ∧
    (d.isHead = true → d.mayAbort = true → mayManage d ch 0x43 = true →
      MakesSome (.updateAbort ch) s fun e => updateAborted 8 e ∧ sentLast updAbort 0 d e) ∧
    (∀ off total bytes,
      (d.isHead = true ∧ d.phase ≠ .booting ∨ off ≠ 0 ∧ off ≠ d.fw.staged.length → Gives (.sorusData off total bytes) s s) ∧
      (d.isHead = false → d.phase ≠ .booting → off = d.fw.staged.length → off ≠ 0 → off + bytes.length ≠ total →
        Makes (.sorusData off total bytes) s { d with fw := { d.fw with
          staged := d.fw.staged ++ bytes
          stagedTotal := total
          stagedLast := false } }) ∧
      (d.isHead = false → d.phase ≠ .booting → off = 0 → bytes.length = total → MakesSome (.sorusData off total bytes) s fun e =>
        let r := { d with fw := { d.fw with staged := bytes } }.sorusVerdict (Config.sorusCheck bytes)
        e.fw.staged = bytes ∧
        (r = 0 → e.fld R.UPD_STATUS_PHASE = 4 ∧ e.fw.previous = d.fw.running ∧ sentLast updReady 0 d e) ∧
        (r ≠ 0 → r < 256 → updateAborted r e ∧ sentLast updAbort 0 d e)))

/-- R516 to R519: an update's messages. The head collects the READYs and arms every socket at one frame, collects the ARMEDs,
confirms, and aborts where one is missing; a socket that is armed answers; an abort before A - 16 ends the update; a socket
that did not activate is recorded and armed anew. -/
def Sys2Proof.updateMessages : Prop :=
  ∀ (s : State) (m : UpdMsg), m.src < 8 →
    let d := s.dev
    let mine := m.sorusId = d.fw.sorusId
    let phase := d.fld R.UPD_STATUS_PHASE
    let all (mask : Nat) : Prop := mask &&& d.targets = d.targets
    (¬mine → Gives (.ready m) s s ∧ Gives (.arm m) s s ∧ Gives (.armed m) s s ∧ Gives (.activated m) s s ∧ Gives (.notActivated m) s s) ∧
    (mine → d.isHead = true → phase = 3 ∨ phase = 4 →
      let mask := d.fld R.UPD_STATUS_READY ||| 2 ^ m.src
      (¬all mask → Makes (.ready m) s (d.setFld R.UPD_STATUS_READY mask)) ∧
      (all mask → MakesSome (.ready m) s fun e =>
        let a := d.frame + BitVec.ofNat 64 d.updLead
        e.fld R.UPD_STATUS_PHASE = 5 ∧ e.fw.armA = some a ∧ e.reg R.UPD_FRAME_FRAME.reg = a ∧ e.fw.confirmed = false ∧
        e.fw.armedMask = 2 ^ d.self ∧ sentLast updArm a d e)) ∧
    (mine → d.isHead = false → d.mayAbort = true → MakesSome (.arm m) s fun e =>
      e.fld R.UPD_STATUS_PHASE = 5 ∧ e.fw.armA = some m.frame ∧ e.fw.confirmed = false ∧ sentLast updArmed m.frame d e) ∧
    (mine → d.isHead = true → phase = 5 →
      Makes (.armed m) s { d with fw := { d.fw with armedMask := d.fw.armedMask ||| 2 ^ m.src } }) ∧
    (mine → ∀ a, d.fw.armA = some a → d.fw.aborted = false →
      (d.isHead = false ∨ d.frame.toNat + 500 ≤ a.toNat →
        Makes (.confirm m) s { d with fw := { d.fw with confirmed := true } }) ∧
      (d.isHead = true → a.toNat < d.frame.toNat + 500 → d.mayAbort = true → MakesSome (.confirm m) s (updateAborted 5))) ∧
    (mine → m.src ≠ d.self → d.mayAbort = true → MakesSome (.abort m) s fun e =>
      updateAborted m.reason.toNat e ∧ (d.isHead = true → sentLast updAbort 0 d e)) ∧
    (mine → d.isHead = true → MakesSome (.activated m) s fun e =>
      natBit (e.fld R.UPD_STATUS_ACTIVATED) m.src = true ∧ natBit e.fw.notActivated m.src = false ∧
      (all (d.fld R.UPD_STATUS_ACTIVATED ||| 2 ^ m.src) → e.fld R.UPD_STATUS_PHASE = 7)) ∧
    (mine → d.isHead = true → MakesSome (.notActivated m) s fun e =>
      natBit e.fw.notActivated m.src = true ∧ (phase ≠ 8 → e.fld R.UPD_STATUS_PHASE = 5 ∧ e.fw.armA.isSome = true)) ∧
    (d.isHead = false → Gives .updateDeadline s s ∧ Gives .confirmSend s s) ∧
    (d.isHead = true → phase = 3 ∨ phase = 4 →
      (all (d.fld R.UPD_STATUS_READY) → Gives .updateDeadline s s) ∧
      (¬all (d.fld R.UPD_STATUS_READY) → d.mayAbort = true → MakesSome .updateDeadline s (updateAborted 5))) ∧
    (d.isHead = true → phase = 5 → ∀ a, d.fw.armA = some a →
      (d.frame.toNat + 1000 < a.toNat → Gives .confirmSend s s) ∧
      (a.toNat ≤ d.frame.toNat + 1000 → all d.fw.armedMask → Makes .confirmSend s (d.updSend updConfirm a 0)) ∧
      (a.toNat ≤ d.frame.toNat + 1000 → ¬all d.fw.armedMask → d.mayAbort = true →
        MakesSome .confirmSend s (updateAborted 5) ∧ MakesSome .updateDeadline s (updateAborted 5)) ∧
      (a.toNat ≤ d.frame.toNat + 500 → d.fw.confirmed = false → d.mayAbort = true → MakesSome .updateDeadline s (updateAborted 5)))

/-- R517, R519, R520, R404, R451, R515: at frame A a socket that holds CONFIRM activates, and any other disarms and says so; the loader overwrites each unit
in the order of the components, a bad image up to three more times; the last unit makes the new image run. A link secret arrives before
boot-lock alone; the head's answer completes a relayed command. -/
def Obligations.ActivationAndOverwrite : Prop :=
  ∀ (s : State),
    let d := s.dev
    (d.fw.armA = none → Gives .activationSwitch s s) ∧
    (∀ a, d.fw.armA = some a →
      (d.frame.toNat < a.toNat ∨ d.fw.switched = true → Gives .activationSwitch s s) ∧
      (a.toNat ≤ d.frame.toNat → d.fw.switched = false →
        (d.fw.confirmed = true → d.fw.aborted = false → d.phase = .running → MakesSome .activationSwitch s fun e =>
          e.fld R.UPD_STATUS_PHASE = 6 ∧ e.fw.switched = true ∧ e.fw.armA = some a ∧ e.fw.running = d.fw.running) ∧
        (d.fw.confirmed = false ∨ d.fw.aborted = true ∨ d.phase ≠ .running → MakesSome .activationSwitch s fun e =>
          e.fw.switched = false ∧ e.fw.armA = none ∧ e.fw.running = d.fw.running ∧ sentLast updNotActivated a d e))) ∧
    (∀ c u ok, 1 ≤ c → c ≤ 5 → u < 288 →
      let k := c * 512 + u
      let tries := SMap.get (fun _ => 0) d.fw.rewrites k
      (d.fw.switched = false ∨ d.phase = .drain ∨ d.stagedImage c = none ∨ d.overwriteTurn c = false ∨ overwriteUnits c ≤ u
          ∨ (c, u) ∈ d.fw.overwritten → Gives (.firmwareOverwrite c u ok) s s) ∧
      (d.fw.switched = true → d.phase ≠ .drain → d.overwriteTurn c = true → u < overwriteUnits c → (c, u) ∉ d.fw.overwritten →
        ∀ i, d.stagedImage c = some i →
          (tries < 3 → Makes (.firmwareOverwrite c u false) s
            { d with fw := { d.fw with rewrites := SMap.set (fun _ => 0) d.fw.rewrites k (tries + 1) } }) ∧
          MakesSome (.firmwareOverwrite c u true) s fun e =>
            (c, u) ∈ e.fw.overwritten ∧ (∀ x ∈ d.fw.overwritten, x ∈ e.fw.overwritten) ∧
            ((∀ w, w < overwriteUnits c → w ≠ u → (c, w) ∈ d.fw.overwritten) →
              SMap.get (fun _ => {}) e.fw.running c = i) ∧
            ∀ x, x ≠ c → SMap.get (fun _ => {}) e.fw.running x = SMap.get (fun _ => {}) d.fw.running x)) ∧
    (∀ src bs, src < 8 →
      (src = d.self ∨ bs = [] ∨ d.locked = true → Gives (.seMsg src bs) s s) ∧
      (src ≠ d.self → bs ≠ [] → d.locked = false → MakesSome (.seMsg src bs) s fun e =>
        e.fw.linkSecret = some bs ∧ e.flag R.SE_STATUS_LINK_SECRET = true) ∧
      (d.isHead = true ∨ src = d.self → Gives (.stewardMsg src bs) s s) ∧
      (d.isHead = false → src ≠ d.self → ∀ b rest, bs = b :: rest →
        d.boxWaits .stw 0x40 = true ∨ d.boxWaits .stw 0x41 = true ∨ d.boxWaits .stw 0x43 = true →
          Makes (.stewardMsg src bs) s (d.boxDone .stw b.toNat rest)))

/-- Staging a sorus, and the messages of its update. -/
def Obligations.SorusUpdates : Prop := sorusIsStaged ∧ updateMessages

/-! ### The whole machine -/

/-- A strand as its registers' field maps allow (R47, R48, R56, R57, R67, R72): PL, PPL and HPPL name levels that exist; reserved fields
read 0; the PC, EPC and a transfer's addresses are those of instructions, VBASE that of a page; the general registers are
in canonical form, without n0. -/
def Sys2Proof.strandFits (x : Strand) : Prop :=
  getF x.status 0 2 < 3 ∧ getF x.status 4 2 < 2 ∧ getF x.status 11 53 = 0 ∧
  getF x.hstatus 34 2 < 3 ∧ getF x.hstatus 40 24 = 0 ∧ x.hstatus &&& 0x26801 = 0 ∧
  x.pc.toNat % 4 = 0 ∧ x.bankS.epc.toNat % 4 = 0 ∧ x.bankH.epc.toNat % 4 = 0 ∧
  x.bankS.vbase.toNat % 4096 = 0 ∧ x.bankH.vbase.toNat % 4096 = 0 ∧
  (∀ sl, x.slot = some sl → sl.branch.toNat % 4 = 0 ∧ sl.next.toNat % 4 = 0) ∧
  SMap.wfFrom (fun _ => 0) 1 x.n = true

/-- Every strand is well formed, and the socket's strands are listed in canonical form. -/
def Sys2Proof.strandsOk (s : State) : Prop :=
  SMap.wf (fun _ => Strand.reset) s.strands = true ∧ ∀ g, strandFits (s.strand g)

/-- DRAM, the Peat media and the register space are in canonical form. -/
def Sys2Proof.memoryOk (s : State) : Prop :=
  Memory.wf s.dev.dram = true ∧ Memory.wf s.dev.peat = true ∧ SMap.wf coldValue s.dev.regs = true

/-- Nothing that a program or a sender asks for stops the machine: a command that names units of the socket is carried out, or
held, in every state whose clocks keep the relations that the design assumes (R489); one that names a unit the socket
does not have stops with `noSuchUnit`. (That the machine stops there is the model's choice, log entry 2.) -/
def Obligations.WellFormedCommandsComplete : Prop :=
  ∀ (c : Instr) (s : State),
    (c.wf = true → s.dev.clocksOk = true → ∃ t, exec c s = .next t) ∧
    (c.wf = false → exec c s = .fault .noSuchUnit)

/-- Every step keeps every strand well formed, whatever command it runs. -/
def Obligations.StrandsStayWellFormed : Prop :=
  ∀ s t : State, strandsOk s → step s = .next t → strandsOk t

/-- Every step keeps the memories and the register space in canonical form. -/
def Obligations.MemoryStaysCanonical : Prop :=
  ∀ s t : State, memoryOk s → step s = .next t → memoryOk t

/-- The state after reset has both invariants. -/
def Obligations.ResetMeetsTheInvariants : Prop := strandsOk State.reset ∧ memoryOk State.reset

/-- R50, R503: after reset no command waits; strand 0 alone is not parked and stands at H at the address in BOOT_VECTOR; every strand's
general and vector registers read 0, and its system registers are cold. -/
def Obligations.ResetState : Prop :=
  let s := State.reset
  s.pending = [] ∧ s.dev.phase = .running ∧
  (∀ g, (s.strand g).parked = (g != 0) ∧ (s.strand g).pc = BitVec.ofNat 64 (s.dev.fld R.BOOT_VECTOR_ADDR * 4) ∧
    (s.strand g).pl = 2 ∧ (s.strand g).ie = false ∧ (s.strand g).sealedB = false ∧ (s.strand g).hstatus = 0 ∧
    (s.strand g).tcfg = 0 ∧ (s.strand g).ttb1 = 0 ∧ (s.strand g).ttb2 = 0 ∧ (s.strand g).asid = 0 ∧ (s.strand g).vmid = 0 ∧
    (s.strand g).cycles = 0 ∧ (s.strand g).timecmp = 0 ∧ (s.strand g).bankS = {} ∧ (s.strand g).bankH = {} ∧
    ∀ r : Reg, (s.strand g).getN r = 0 ∧ (s.strand g).getV r = 0) ∧
  (∀ c, c < 288 → s.dev.l2On c = false) ∧ (∀ off, s.dev.reg off = coldValue off)

/-- Whatever a command does, it leaves the queue as it is: `step` alone takes commands from it. -/
def Sys2Proof.commandsLeaveTheQueue : Prop :=
  ∀ (c : Instr) (s t : State), exec c s = .next t → t.pending = s.pending

/-- Commands that change registers and records of the device alone. -/
def Sys2Proof.recordsOnly (c : Instr) : Prop :=
  (∃ r v, c = .errTailWrite r v) ∨ c = .bucketDecay ∨ (∃ r k v, c = .sliceGo r k v) ∨ (∃ q v, c = .sqDoorbell q v)
    ∨ (∃ q v, c = .qpAssign q v) ∨ (∃ q v, c = .queueEnable q v) ∨ (∃ t v, c = .streamEnable t v) ∨ (∃ t v, c = .streamDisable t v)
    ∨ (∃ f b, c = .busMasterEnable f b) ∨ (∃ f, c = .flr f) ∨ (∃ f, c = .d3hotEntry f) ∨ (∃ b n, c = .vfEnable b n)
    ∨ (∃ f, c = .quiesceComplete f) ∨ (∃ v x, c = .dlogGen v x) ∨ (∃ v, c = .dlogGenAck v) ∨ (∃ v x, c = .dlogRingHeadWrite v x)
    ∨ (∃ n, c = .sscApply n) ∨ (∃ p b, c = .dpcRelease p b) ∨ (∃ a, c = .entdaa a) ∨ (∃ b a, c = .setdasa b a)
    ∨ (∃ e, c = .setEndpointId e) ∨ c = .eventMessageTimeout ∨ (∃ m, c = .armed m) ∨ c = .activationSwitch
    ∨ (∃ r b, c = .mbClaim r b) ∨ (∃ r b v, c = .mbRelease r b v) ∨ (∃ b, c = .mbClaimLapse b)

/-- The frame of the commands that change registers and records alone: every strand, every byte of memory, every cached line
and every message keeps what it was. -/
def Sys2Proof.recordCommandsLeaveStrandsAndMemory : Prop :=
  ∀ (c : Instr) (s t : State), recordsOnly c → exec c s = .next t →
    t.strands = s.strands ∧ t.dev.dram = s.dev.dram ∧ t.dev.peat = s.dev.peat ∧ t.dev.l2 = s.dev.l2 ∧ t.dev.llc = s.dev.llc ∧
    t.dev.net = s.dev.net

/-- What commands leave alone: the queue, and, for those that change records, every strand and all memory. -/
def Obligations.FramesOfCommands : Prop := commandsLeaveTheQueue ∧ recordCommandsLeaveStrandsAndMemory
end

