-- ==== Sys2Proof/Laws/SMap.lean ====
section
/-!
SUPPORT. The laws of sparse data: a read after a write to the same key gives the value, a write leaves
every other key alone, and a write keeps the canonical form.
-/

namespace Sys2Proof.Laws

open Sys2Proof.Machine

variable {β : Type}

theorem smap_get_erase_same (d : Nat → β) (m : SMap β) (k : Nat) :
    SMap.get d (SMap.erase m k) k = d k := by
  induction m with
  | nil => rfl
  | cons p m ih =>
    obtain ⟨j, w⟩ := p
    by_cases h : j = k
    · simp [SMap.erase, h, ih]
    · have h' : ¬ k = j := fun e => h e.symm
      simp [SMap.erase, SMap.get, h, h', ih]

theorem smap_get_erase_other (d : Nat → β) (m : SMap β) (k i : Nat) (hi : i ≠ k) :
    SMap.get d (SMap.erase m k) i = SMap.get d m i := by
  induction m with
  | nil => rfl
  | cons p m ih =>
    obtain ⟨j, w⟩ := p
    by_cases h : j = k
    · have h' : ¬ i = j := fun e => hi (e.trans h)
      simp [SMap.erase, SMap.get, h, ih, hi]
    · simp [SMap.erase, SMap.get, h, ih]

theorem smap_get_insert_same (d : Nat → β) (m : SMap β) (k : Nat) (v : β) :
    SMap.get d (SMap.insert m k v) k = v := by
  induction m with
  | nil => simp [SMap.insert, SMap.get]
  | cons p m ih =>
    obtain ⟨j, w⟩ := p
    unfold SMap.insert
    split
    · simp [SMap.get]
    · split
      · simp [SMap.get]
      · rename_i h1 h2
        simp [SMap.get, h2, ih]

theorem smap_get_insert_other (d : Nat → β) (m : SMap β) (k i : Nat) (v : β) (hi : i ≠ k) :
    SMap.get d (SMap.insert m k v) i = SMap.get d m i := by
  induction m with
  | nil => simp [SMap.insert, SMap.get, hi]
  | cons p m ih =>
    obtain ⟨j, w⟩ := p
    unfold SMap.insert
    split
    · simp [SMap.get, hi]
    · split
      · rename_i h1 h2
        have h' : ¬ i = j := fun e => hi (e.trans h2.symm)
        simp [SMap.get, hi, h']
      · simp [SMap.get, ih]

variable [DecidableEq β] (d : Nat → β)

/-- A read after a write to the same key gives the value written. -/
@[simp] theorem smap_get_set_same (m : SMap β) (k : Nat) (v : β) :
    SMap.get d (SMap.set d m k v) k = v := by
  unfold SMap.set
  split
  · rename_i h
    rw [smap_get_erase_same, h]
  · exact smap_get_insert_same d m k v

/-- A write leaves every other key alone. -/
theorem smap_get_set_other (m : SMap β) (k i : Nat) (v : β) (hi : i ≠ k) :
    SMap.get d (SMap.set d m k v) i = SMap.get d m i := by
  unfold SMap.set
  split
  · exact smap_get_erase_other d m k i hi
  · exact smap_get_insert_other d m k i v hi

theorem smap_wfFrom_mono {m : SMap β} {b c : Nat} (h : SMap.wfFrom d b m = true) (hc : c ≤ b) :
    SMap.wfFrom d c m = true := by
  cases m with
  | nil => rfl
  | cons p m =>
    obtain ⟨j, v⟩ := p
    simp only [SMap.wfFrom, Bool.and_eq_true, decide_eq_true_eq] at h ⊢
    exact ⟨⟨by omega, h.1.2⟩, h.2⟩

theorem smap_erase_wfFrom {m : SMap β} {b k : Nat} (h : SMap.wfFrom d b m = true) :
    SMap.wfFrom d b (SMap.erase m k) = true := by
  induction m generalizing b with
  | nil => rfl
  | cons p m ih =>
    obtain ⟨j, w⟩ := p
    simp only [SMap.wfFrom, Bool.and_eq_true, decide_eq_true_eq] at h
    unfold SMap.erase
    split
    · exact smap_wfFrom_mono d (ih h.2) (by omega)
    · simp only [SMap.wfFrom, Bool.and_eq_true, decide_eq_true_eq]
      exact ⟨h.1, ih h.2⟩

theorem smap_insert_wfFrom {m : SMap β} {b k : Nat} (v : β) (h : SMap.wfFrom d b m = true)
    (hk : b ≤ k) (hv : v ≠ d k) : SMap.wfFrom d b (SMap.insert m k v) = true := by
  induction m generalizing b with
  | nil => simp [SMap.insert, SMap.wfFrom, hk, hv]
  | cons p m ih =>
    obtain ⟨j, w⟩ := p
    have h' := h
    simp only [SMap.wfFrom, Bool.and_eq_true, decide_eq_true_eq] at h'
    unfold SMap.insert
    split
    · simp only [SMap.wfFrom, Bool.and_eq_true, decide_eq_true_eq]
      exact ⟨⟨hk, hv⟩, ⟨by omega, h'.1.2⟩, h'.2⟩
    · split
      · rename_i h1 h2
        simp only [SMap.wfFrom, Bool.and_eq_true, decide_eq_true_eq]
        exact ⟨⟨hk, hv⟩, by subst h2; exact h'.2⟩
      · simp only [SMap.wfFrom, Bool.and_eq_true, decide_eq_true_eq]
        exact ⟨h'.1, ih h'.2 (by omega)⟩

/-- A write keeps the canonical form. -/
theorem smap_set_wf {m : SMap β} (k : Nat) (v : β) (h : SMap.wf d m = true) :
    SMap.wf d (SMap.set d m k v) = true := by
  unfold SMap.set
  split
  · exact smap_erase_wfFrom d h
  · rename_i hv
    exact smap_insert_wfFrom d v h (Nat.zero_le k) hv

/-- Replacing the listed values keeps the canonical form. -/
theorem smap_filterMap_wfFrom (f : Nat → β → Option β) {m : SMap β} {b : Nat} (h : SMap.wfFrom d b m = true) :
    SMap.wfFrom d b (SMap.filterMap d f m) = true := by
  induction m generalizing b with
  | nil => rfl
  | cons kv m ih =>
    obtain ⟨j, v⟩ := kv
    simp only [SMap.wfFrom, Bool.and_eq_true, decide_eq_true_eq] at h
    have hm := smap_wfFrom_mono d (ih h.2) (show b ≤ j + 1 by omega)
    unfold SMap.filterMap
    split
    · exact hm
    · split
      · exact hm
      · rename_i hw
        simp only [SMap.wfFrom, Bool.and_eq_true, decide_eq_true_eq]
        exact ⟨⟨h.1.1, hw⟩, ih h.2⟩

theorem smap_filterMap_wf (f : Nat → β → Option β) {m : SMap β} (h : SMap.wf d m = true) :
    SMap.wf d (SMap.filterMap d f m) = true := smap_filterMap_wfFrom d f h

end Sys2Proof.Laws
end

