-- ==== Sys2Proof/Laws/State.lean ====
section
/-!
SUPPORT. The laws of the state's updates: what each named operation leaves in each part of the state. A read of a strand
after a write of a strand; the registers of a strand after a write of a register; the parts of the device after a write
of one of its parts.
-/

namespace Sys2Proof.Laws

open Sys2Proof Sys2Proof.Machine

/-! ### Strands (R47, R482) -/

@[simp] theorem strand_setStrand_same (s : State) (g : Nat) (x : Strand) : (s.setStrand g x).strand g = x :=
  smap_get_set_same _ _ _ _

theorem strand_setStrand_other (s : State) (g k : Nat) (x : Strand) (h : k ≠ g) :
    (s.setStrand g x).strand k = s.strand k := smap_get_set_other _ _ _ _ _ h

@[simp] theorem setStrand_dev (s : State) (g : Nat) (x : Strand) : (s.setStrand g x).dev = s.dev := rfl
@[simp] theorem setStrand_pending (s : State) (g : Nat) (x : Strand) : (s.setStrand g x).pending = s.pending := rfl
@[simp] theorem strand_dev (s : State) (d : Dev) (g : Nat) : ({ s with dev := d } : State).strand g = s.strand g := rfl
@[simp] theorem strand_pending (s : State) (q : List Instr) (g : Nat) :
    ({ s with pending := q } : State).strand g = s.strand g := rfl

@[simp] theorem count_strand (s : State) (g ev k : Nat) : (s.count g ev).strand k = s.strand k := rfl
@[simp] theorem count_strands (s : State) (g ev : Nat) : (s.count g ev).strands = s.strands := rfl
@[simp] theorem count_pending (s : State) (g ev : Nat) : (s.count g ev).pending = s.pending := rfl

theorem btbLearn_strands (s : State) (g : Nat) (pc t : Word) : (s.btbLearn g pc t).strands = s.strands := by
  unfold State.btbLearn
  split <;> rfl

@[simp] theorem btbLearn_strand (s : State) (g : Nat) (pc t : Word) (k : Nat) :
    (s.btbLearn g pc t).strand k = s.strand k := by
  unfold State.strand
  rw [btbLearn_strands]

@[simp] theorem setN_strand (s : State) (g : Nat) (r : Reg) (v : Word) : (s.setN g r v).strand g = (s.strand g).setN r v := by
  simp [State.setN]

theorem setN_strand_other (s : State) (g k : Nat) (r : Reg) (v : Word) (h : k ≠ g) :
    (s.setN g r v).strand k = s.strand k := strand_setStrand_other _ _ _ _ h

@[simp] theorem setN_dev (s : State) (g : Nat) (r : Reg) (v : Word) : (s.setN g r v).dev = s.dev := rfl
@[simp] theorem setV_strand (s : State) (g : Nat) (r : Reg) (v : VWord) : (s.setV g r v).strand g = (s.strand g).setV r v := by
  simp [State.setV]
@[simp] theorem setV_dev (s : State) (g : Nat) (r : Reg) (v : VWord) : (s.setV g r v).dev = s.dev := rfl
@[simp] theorem long_dev (s : State) (g : Nat) (dst : RegRef) (v : VWord) (k : LongKind) : (s.long g dst v k).dev = s.dev :=
  rfl

/-! ### The registers of a strand (R48, R49) -/

@[simp] theorem getN_setN_same (x : Strand) (r : Reg) (v : Word) (h : r ≠ 0) : (x.setN r v).getN r = v := by
  unfold Strand.setN Strand.getN
  rw [if_neg h, if_neg h]
  exact smap_get_set_same _ _ _ _

@[simp] theorem getN_zero (x : Strand) : x.getN 0 = 0 := rfl

@[simp] theorem setN_zero (x : Strand) (v : Word) : x.setN 0 v = x := rfl

theorem getN_setN_other (x : Strand) (r q : Reg) (v : Word) (h : q ≠ r) : (x.setN r v).getN q = x.getN q := by
  unfold Strand.setN
  split
  · rfl
  · unfold Strand.getN
    split
    · rfl
    · exact smap_get_set_other _ _ _ _ _ fun e => h (BitVec.eq_of_toNat_eq e)

@[simp] theorem getV_setV_same (x : Strand) (r : Reg) (v : VWord) : (x.setV r v).getV r = v := smap_get_set_same _ _ _ _

theorem getV_setV_other (x : Strand) (r q : Reg) (v : VWord) (h : q ≠ r) : (x.setV r v).getV q = x.getV q :=
  smap_get_set_other _ _ _ _ _ fun e => h (BitVec.eq_of_toNat_eq e)

@[simp] theorem setV_n (x : Strand) (r : Reg) (v : VWord) : (x.setV r v).n = x.n := rfl
@[simp] theorem setV_pc (x : Strand) (r : Reg) (v : VWord) : (x.setV r v).pc = x.pc := rfl

theorem setN_keeps (x : Strand) (r : Reg) (v : Word) : x.setN r v = { x with n := (x.setN r v).n } := by
  unfold Strand.setN
  split <;> rfl

@[simp] theorem setN_pc (x : Strand) (r : Reg) (v : Word) : (x.setN r v).pc = x.pc := by rw [setN_keeps]
@[simp] theorem setN_v (x : Strand) (r : Reg) (v : Word) : (x.setN r v).v = x.v := by rw [setN_keeps]
@[simp] theorem setN_status (x : Strand) (r : Reg) (v : Word) : (x.setN r v).status = x.status := by rw [setN_keeps]
@[simp] theorem setN_hstatus (x : Strand) (r : Reg) (v : Word) : (x.setN r v).hstatus = x.hstatus := by rw [setN_keeps]
@[simp] theorem setN_bankS (x : Strand) (r : Reg) (v : Word) : (x.setN r v).bankS = x.bankS := by rw [setN_keeps]
@[simp] theorem setN_bankH (x : Strand) (r : Reg) (v : Word) : (x.setN r v).bankH = x.bankH := by rw [setN_keeps]
@[simp] theorem setN_slot (x : Strand) (r : Reg) (v : Word) : (x.setN r v).slot = x.slot := by rw [setN_keeps]
@[simp] theorem setN_shadow (x : Strand) (r : Reg) (v : Word) : (x.setN r v).shadow = x.shadow := by rw [setN_keeps]
@[simp] theorem setN_sb (x : Strand) (r : Reg) (v : Word) : (x.setN r v).sb = x.sb := by rw [setN_keeps]
@[simp] theorem setN_longOps (x : Strand) (r : Reg) (v : Word) : (x.setN r v).longOps = x.longOps := by rw [setN_keeps]
@[simp] theorem setN_ras (x : Strand) (r : Reg) (v : Word) : (x.setN r v).ras = x.ras := by rw [setN_keeps]

theorem step_keeps (x : Strand) (k : Nat) : x.step k = { x with shadow := (x.step k).shadow } := by
  obtain ⟨sh, h⟩ : ∃ sh, x.shadow = sh := ⟨_, rfl⟩
  cases sh with
  | none =>
    have e : x.step k = x := by
      unfold Strand.step
      rw [h]
    rw [e]
  | some sh => simp [Strand.step, h]

@[simp] theorem step_pc (x : Strand) (k : Nat) : (x.step k).pc = x.pc := by rw [step_keeps]
@[simp] theorem step_n (x : Strand) (k : Nat) : (x.step k).n = x.n := by rw [step_keeps]
@[simp] theorem step_v (x : Strand) (k : Nat) : (x.step k).v = x.v := by rw [step_keeps]
@[simp] theorem step_status (x : Strand) (k : Nat) : (x.step k).status = x.status := by rw [step_keeps]
@[simp] theorem step_hstatus (x : Strand) (k : Nat) : (x.step k).hstatus = x.hstatus := by rw [step_keeps]
@[simp] theorem step_bankS (x : Strand) (k : Nat) : (x.step k).bankS = x.bankS := by rw [step_keeps]
@[simp] theorem step_bankH (x : Strand) (k : Nat) : (x.step k).bankH = x.bankH := by rw [step_keeps]
@[simp] theorem step_slot (x : Strand) (k : Nat) : (x.step k).slot = x.slot := by rw [step_keeps]
@[simp] theorem step_ras (x : Strand) (k : Nat) : (x.step k).ras = x.ras := by rw [step_keeps]
@[simp] theorem step_longOps (x : Strand) (k : Nat) : (x.step k).longOps = x.longOps := by rw [step_keeps]
@[simp] theorem step_sb (x : Strand) (k : Nat) : (x.step k).sb = x.sb := by rw [step_keeps]

/-! ### The register space -/

@[simp] theorem reg_setReg_same (d : Dev) (off : Nat) (v : Word) : (d.setReg off v).reg off = v := smap_get_set_same _ _ _ _

theorem reg_setReg_other (d : Dev) (off k : Nat) (v : Word) (h : k ≠ off) : (d.setReg off v).reg k = d.reg k :=
  smap_get_set_other _ _ _ _ _ h

@[simp] theorem bare_setReg (d : Dev) (off : Nat) (v : Word) : bare (d.setReg off v) = bare d := rfl
@[simp] theorem bare_setFld (d : Dev) (f : Field) (x : Nat) : bare (d.setFld f x) = bare d := rfl
@[simp] theorem bare_addWrap (d : Dev) (f : Field) (n : Nat) : bare (d.addWrap f n) = bare d := rfl
@[simp] theorem bare_addSat (d : Dev) (f : Field) (n : Nat) : bare (d.addSat f n) = bare d := rfl

/-- A fold of operations that change the registers alone changes the registers alone. -/
theorem bare_foldl {α : Type} (f : Dev → α → Dev) (hf : ∀ d a, bare (f d a) = bare d) (l : List α) (d : Dev) :
    bare (l.foldl f d) = bare d := by
  induction l generalizing d with
  | nil => rfl
  | cons a l ih => rw [List.foldl_cons, ih, hf]

theorem bare_countOne (d : Dev) (c g lvl ev i : Nat) : bare (d.countOne c g lvl ev i) = bare d := by
  unfold Dev.countOne
  dsimp only
  split
  · exact bare_addWrap _ _ _
  · rfl

/-- Counting an event changes the performance monitors alone (R160). -/
@[simp] theorem bare_count (d : Dev) (g : Nat) (x : Strand) (ev : Nat) : bare (d.count g x ev) = bare d := by
  unfold Dev.count
  split
  · rfl
  · exact bare_foldl _ (fun d i => bare_countOne d _ _ _ _ i) _ _

end Sys2Proof.Laws
end

