-- ==== Sys2Proof/Laws/Ready.lean ====
section
/-!
SUPPORT. The laws of issue and retirement: a ready strand runs its instruction in `begun`, and what `runInsn` answers.
-/

namespace Sys2Proof.Laws

open Sys2Proof Sys2Proof.Machine

/-- A ready strand issues its instruction (R64). -/
theorem issue_of_ready {s : State} {g : Nat} {i : Strand → Insn} (h : ready s g (i ((settled s g).strand g)) = true) :
    s.issue g i = .run (begun s g) := by
  simp only [ready, passes, Bool.and_eq_true, Bool.not_eq_true'] at h
  obtain ⟨⟨⟨⟨⟨-, -⟩, hm⟩, hd⟩, hf⟩, ⟨⟨⟨⟨hl, ht⟩, ha⟩, hw⟩, hv⟩, hr⟩ := h
  unfold State.issue
  rw [show (if (s.strand g).shadowDue then s.closeShadow g else s) = settled s g from rfl]
  simp only [hm, hd, Bool.not_true, Bool.false_eq_true, ↓reduceIte]
  unfold begun
  cases hq : (settled s g).fetch g with
  | exc e d => simp [hq, fetchOk] at hf
  | ok d =>
    simp only [fetchDev]
    simp [hl, ht, ha, hw, hv, hr]

/-- A ready strand whose instruction retires. -/
theorem runInsn_ok {s t : State} {g : Nat} {i : Strand → Insn} {body : State → Flow}
    (h : ready s g (i ((settled s g).strand g)) = true) (hb : body (begun s g) = .ok t) :
    runInsn g s i body = .next (t.retire g) := by
  have hi := issue_of_ready h
  simp only [ready, Bool.and_eq_true] at h
  simp [runInsn, h.1.1.1.1.1, h.1.1.1.1.2, hi, hb]

/-- A ready strand whose instruction sets the PC itself. -/
theorem runInsn_go {s t : State} {g : Nat} {i : Strand → Insn} {body : State → Flow}
    (h : ready s g (i ((settled s g).strand g)) = true) (hb : body (begun s g) = .go t) :
    runInsn g s i body = .next t := by
  have hi := issue_of_ready h
  simp only [ready, Bool.and_eq_true] at h
  simp [runInsn, h.1.1.1.1.1, h.1.1.1.1.2, hi, hb]

/-- A ready strand whose instruction raises, with no long operation in flight. -/
theorem runInsn_exc {s : State} {g : Nat} {i : Strand → Insn} {body : State → Flow} {e : Exc} {d : Dev}
    (h : ready s g (i ((settled s g).strand g)) = true) (hb : body (begun s g) = .exc e d)
    (hl : ((begun s g).strand g).longOps = []) :
    runInsn g s i body = .next ({ begun s g with dev := d }.raise g e) := by
  have hi := issue_of_ready h
  simp only [ready, Bool.and_eq_true] at h
  simp [runInsn, h.1.1.1.1.1, h.1.1.1.1.2, hi, hb, hl]

/-- The strands of the state in which an instruction executes: those of the settled one. -/
@[simp] theorem begun_strand (s : State) (g k : Nat) : (begun s g).strand k = (settled s g).strand k := rfl

/-- Without a shadow that is due, the boundary changes nothing. -/
theorem settled_of_not_due {s : State} {g : Nat} (h : (s.strand g).shadowDue = false) : settled s g = s := by
  simp [settled, h]

/-! ### Retirement (R72, R77, R160) -/

/-- What retirement leaves of its strand. -/
theorem retire_strand (s : State) (g : Nat) : (s.retire g).strand g = retired (s.strand g) := by
  obtain ⟨sl, h⟩ : ∃ sl, (s.strand g).slot = sl := ⟨_, rfl⟩
  unfold State.retire retired
  cases sl with
  | none => simp [h]
  | some sl =>
    simp only [count_strand, step_slot, h]
    split <;> simp

theorem retire_strand_other (s : State) (g k : Nat) (hk : k ≠ g) : (s.retire g).strand k = s.strand k := by
  obtain ⟨sl, h⟩ : ∃ sl, (s.strand g).slot = sl := ⟨_, rfl⟩
  unfold State.retire
  cases sl with
  | none => simp [h, strand_setStrand_other _ _ _ _ hk]
  | some sl =>
    simp only [count_strand, step_slot, h]
    split <;> simp [strand_setStrand_other _ _ _ _ hk]

theorem bareOfBtb_of_bare {d e : Dev} (h : bare d = bare e) : bareOfBtb d = bareOfBtb e :=
  congrArg (fun d : Dev => { d with btb := [] }) h

theorem bareOfBtb_btbLearn (s : State) (g : Nat) (pc t : Word) : bareOfBtb (s.btbLearn g pc t).dev = bareOfBtb s.dev := by
  unfold State.btbLearn
  split <;> rfl

/-- Retirement changes the performance monitors and the BTB alone of the device (R148, R160). -/
theorem retire_dev (s : State) (g : Nat) : bareOfBtb (s.retire g).dev = bareOfBtb s.dev := by
  have h : bareOfBtb (s.count g 1).dev = bareOfBtb s.dev := bareOfBtb_of_bare (bare_count _ _ _ _)
  obtain ⟨sl, hs⟩ : ∃ sl, (s.strand g).slot = sl := ⟨_, rfl⟩
  unfold State.retire
  cases sl with
  | none =>
    simp only [count_strand, step_slot, hs, setStrand_dev]
    exact h
  | some sl =>
    simp only [count_strand, step_slot, hs]
    split
    · rw [bareOfBtb_btbLearn, setStrand_dev]
      exact h
    · exact h

/-- Without a transfer's slot retirement changes the performance monitors alone of the device. -/
theorem retire_dev_of_no_slot (s : State) (g : Nat) (hs : (s.strand g).slot = none) : bare (s.retire g).dev = bare s.dev := by
  unfold State.retire
  simp only [count_strand, step_slot, hs, setStrand_dev]
  exact bare_count _ _ _ _

/-! ### What the performance monitors change (R160) -/

theorem sameBut_refl (d : Dev) : sameBut d d := ⟨rfl, fun _ _ => rfl⟩

theorem sameBut_trans {a b c : Dev} (h : sameBut a b) (k : sameBut b c) : sameBut a c :=
  ⟨h.1.trans k.1, fun off n => (h.2 off n).trans (k.2 off n)⟩

theorem sameBut_countOne (d : Dev) (c g lvl ev i : Nat) (hi : i < 8) : sameBut (d.countOne c g lvl ev i) d := by
  refine ⟨bareOfBtb_of_bare (bare_countOne d c g lvl ev i), fun off n => ?_⟩
  unfold Dev.countOne
  dsimp only
  split
  · exact reg_setReg_other _ _ _ _ fun e => n ⟨c, i, hi, e⟩
  · rfl

theorem sameBut_foldl {α : Type} (f : Dev → α → Dev) (l : List α) (hf : ∀ d, ∀ a ∈ l, sameBut (f d a) d) (d : Dev) :
    sameBut (l.foldl f d) d := by
  induction l generalizing d with
  | nil => exact sameBut_refl d
  | cons a l ih =>
    rw [List.foldl_cons]
    exact sameBut_trans (ih (fun d b hb => hf d b (List.mem_cons_of_mem a hb)) _) (hf d a List.mem_cons_self)

/-- Counting an event changes the counters alone. -/
theorem sameBut_count (d : Dev) (g : Nat) (x : Strand) (ev : Nat) : sameBut (d.count g x ev) d := by
  unfold Dev.count
  split
  · exact sameBut_refl d
  · exact sameBut_foldl _ _ (fun d i hi => sameBut_countOne d _ _ _ _ i (List.mem_range.mp hi)) d

theorem sameBut_btbLearn (s : State) (g : Nat) (pc t : Word) : sameBut (s.btbLearn g pc t).dev s.dev := by
  refine ⟨bareOfBtb_btbLearn s g pc t, fun off _ => ?_⟩
  unfold State.btbLearn
  split <;> rfl

/-- Retirement changes the counters and the branch target buffers alone of the device. -/
theorem sameBut_retire (s : State) (g : Nat) : sameBut (s.retire g).dev s.dev := by
  have h : sameBut (s.count g 1).dev s.dev := sameBut_count _ _ _ _
  obtain ⟨sl, hs⟩ : ∃ sl, (s.strand g).slot = sl := ⟨_, rfl⟩
  unfold State.retire
  cases sl with
  | none =>
    simp only [count_strand, step_slot, hs, setStrand_dev]
    exact h
  | some sl =>
    simp only [count_strand, step_slot, hs]
    split
    · exact sameBut_trans (sameBut_btbLearn _ _ _ _) h
    · exact h

/-- A ready strand whose instruction's execution ends in t retires with t's strand. -/
theorem retires_of_ok {c : Instr} {s t : State} {g : Nat} {i : Strand → Insn} {body : State → Flow} {x : Strand} {d : Dev}
    (hc : exec c s = runInsn g s i body) (h : ready s g (i ((settled s g).strand g)) = true)
    (hb : body (begun s g) = .ok t) (hx : t.strand g = x) (ho : ∀ k, k ≠ g → t.strand k = (begun s g).strand k)
    (hd : sameBut t.dev d) : retires c s g x d :=
  ⟨t.retire g, hc.trans (runInsn_ok h hb), by rw [retire_strand, hx],
    fun k hk => by rw [retire_strand_other _ _ _ hk, ho k hk], sameBut_trans (sameBut_retire t g) hd⟩

end Sys2Proof.Laws
end

