-- ==== Sys2Proof/Laws/Access.lean ====
section
/-!
SUPPORT. What a load and a store of Normal memory do, once (R107 to R110, R143).
-/

namespace Sys2Proof.Laws

open Sys2Proof Sys2Proof.Machine

theorem ite_count_strand (p : Prop) [Decidable p] (s : State) (g ev k : Nat) :
    (if p then s.count g ev else s).strand k = s.strand k := by
  split <;> rfl

theorem ite_count_dev (p : Prop) [Decidable p] (s : State) (g ev : Nat) :
    sameBut (if p then s.count g ev else s).dev s.dev := by
  split
  · exact sameBut_count _ _ _ _
  · exact sameBut_refl _

/-- A strand's update behind two events that may be counted. -/
theorem two_counts (s : State) (p q : Prop) [Decidable p] [Decidable q] (g e1 e2 : Nat) (f : Strand → Strand) :
    let w := if p then s.count g e1 else s
    let w := if q then w.count g e2 else w
    let t := w.setStrand g (f (w.strand g))
    t.strand g = f (s.strand g) ∧ (∀ k, k ≠ g → t.strand k = s.strand k) ∧ sameBut t.dev s.dev := by
  intro w0 w t
  have h : ∀ k, w.strand k = s.strand k := fun k => (ite_count_strand _ _ _ _ _).trans (ite_count_strand _ _ _ _ _)
  exact ⟨(strand_setStrand_same _ _ _).trans (congrArg f (h g)), fun k hk => (strand_setStrand_other _ _ _ _ hk).trans (h k),
    sameBut_trans (ite_count_dev _ _ _ _) (ite_count_dev _ _ _ _)⟩

/-- A load whose checks pass and whose pieces are read writes its destination alone. -/
theorem load_ok {s : State} {g n : Nat} {va : Word} {q : Read} (sg : Bool) (dst : RegRef)
    (h : loadRead s g n va = some q) :
    ∃ t, s.load g va n sg dst = .ok t ∧ t.strand g = (s.strand g).setRef dst (loadValue n sg q.bytes) ∧
      (∀ k, k ≠ g → t.strand k = s.strand k) ∧ sameBut t.dev q.dev := by
  unfold loadRead readPieces at h
  unfold State.load State.loadData State.memoryLoad
  generalize hr : s.access g va n .load .plain = r at *
  obtain ⟨⟨e, ps⟩, d⟩ := r
  cases e with
  | some e => simp at h
  | none =>
    simp only [Option.isNone_none, ↓reduceIte] at h
    split at h
    · rename_i hc
      simp only [Bool.and_eq_true, Bool.not_eq_true', List.all_eq_true, bne_iff_ne, ne_eq] at hc
      obtain ⟨⟨hp, hw⟩, hq⟩ := hc
      cases h
      have h1 : ps.find? (fun p => (d.claim p.a.pa).unit) = none := by
        rw [List.find?_eq_none]
        intro p m
        have := (hp p m).1
        cases hcl : d.claim p.a.pa <;> simp_all [Claim.unit, Claim.normal]
      have h2 : ps.find? (fun p => !(d.claim p.a.pa).normal) = none := by
        rw [List.find?_eq_none]
        intro p m
        simp [(hp p m).1]
      have h3 : ps.any (fun p => p.a.mt == 3) = false := by
        rw [List.any_eq_false]
        intro p m
        simp [(hp p m).2]
      have h4 : ps.filter (fun p => (d.claim p.a.pa).normal) = ps := by
        rw [List.filter_eq_self]
        intro p m
        exact (hp p m).1
      simp only [h1, h2, h3, h4, Bool.false_and, Bool.false_eq_true, ↓reduceIte]
      generalize hf : List.foldl (Read.piece (d.phys (g / 2)) (s.strand g).sb) ⟨[], false, false, none, d⟩ ps = f at *
      have hf' : List.foldl (Read.piece (d.phys (g / 2)) (({ s with dev := d } : State).strand g).sb)
          ⟨[], false, false, none, d⟩ ps = f := hf
      simp only [hf', hw, Bool.false_eq_true, ↓reduceIte, Option.isNone_iff_eq_none.mp hq]
      exact ⟨_, rfl, two_counts { s with dev := f.dev } _ _ g 0x21 0x22 fun x => x.setRef dst (loadValue n sg f.bytes)⟩
    · cases h

/-- The pieces of a store enter the store buffer in order, and nothing else changes. -/
theorem sbPieces_ok (g : Nat) (rel : Bool) : ∀ (ps : List Piece) (s : State) (bs : List Byte),
    (∀ p ∈ ps, (s.dev.claim p.a.pa).normal = true) →
    let t := s.sbPieces g bs rel ps
    t.dev = s.dev ∧ (∀ k, k ≠ g → t.strand k = s.strand k) ∧
    t.strand g = { s.strand g with
      sb := (s.strand g).sb ++ entriesOf s.dev rel (s.strand g).seq bs ps
      seq := (s.strand g).seq + ps.length } := by
  intro ps
  induction ps with
  | nil => intro s bs _; simp [State.sbPieces, entriesOf]
  | cons p ps ih =>
    intro s bs h
    have hp := h p List.mem_cons_self
    simp only [State.sbPieces]
    generalize hs : s.sbPush g (s.dev.storeKind p.a) p.a.pa p.a.key (bs.take p.n) rel = s1
    have hd : s1.dev = s.dev := by rw [← hs]; rfl
    have := ih s1 (bs.drop p.n) (fun q m => by rw [hd]; exact h q (List.mem_cons_of_mem _ m))
    obtain ⟨a1, a2, a3⟩ := this
    refine ⟨a1.trans hd, fun k hk => (a2 k hk).trans ?_, a3.trans ?_⟩
    · rw [← hs]; exact strand_setStrand_other _ _ _ _ hk
    · have e : s1.strand g = { s.strand g with
          sb := (s.strand g).sb ++ [⟨p.a.pa, bs.take p.n, p.a.key, s.dev.storeKind p.a, (s.strand g).seq, false, false, rel⟩]
          seq := (s.strand g).seq + 1 } := by
        rw [← hs]; exact strand_setStrand_same _ _ _
      rw [e, hd]
      simp only [entriesOf, List.append_assoc, List.cons_append, List.nil_append, List.length_cons]
      have k : s.dev.storeKind p.a = if p.a.mt = 3 then SbKind.device else .normal (p.a.mt == 0) := by
        simp [Dev.storeKind, hp]
      rw [k]
      congr 1
      omega

end Sys2Proof.Laws
end

