-- ==== Sys2Proof/Laws/Fields.lean ====
section
/-!
SUPPORT. Fields of words and of the register space: a field that is written reads as it was written, and every other field
of the word, and every other register, keeps its value.
-/

namespace Sys2Proof.Laws

open Sys2Proof Sys2Proof.Machine

/-- The word that putF gives, as a number: it never wraps. -/
theorem putF_toNat (w : Word) (lo width x : Nat) (h : lo + width ≤ 64) :
    (putF w lo width x).toNat =
      w.toNat % 2 ^ lo + x % 2 ^ width * 2 ^ lo + w.toNat / 2 ^ (lo + width) * 2 ^ (lo + width) := by
  have hw : w.toNat < 2 ^ 64 := w.isLt
  have e : 2 ^ (lo + width) * 2 ^ (64 - (lo + width)) = 2 ^ 64 := by rw [← Nat.pow_add]; congr 1; omega
  have hc : w.toNat / 2 ^ (lo + width) + 1 ≤ 2 ^ (64 - (lo + width)) := by
    refine Nat.div_lt_of_lt_mul ?_
    rw [e]; exact hw
  have ha : w.toNat % 2 ^ lo < 2 ^ lo := Nat.mod_lt _ (Nat.two_pow_pos _)
  have hx : x % 2 ^ width + 1 ≤ 2 ^ width := Nat.mod_lt _ (Nat.two_pow_pos _)
  have h1 : x % 2 ^ width * 2 ^ lo + 2 ^ lo ≤ 2 ^ (lo + width) := by
    have := Nat.mul_le_mul_right (2 ^ lo) hx
    rw [Nat.add_mul, Nat.one_mul, ← Nat.pow_add, Nat.add_comm width lo] at this
    exact this
  have h2 : w.toNat / 2 ^ (lo + width) * 2 ^ (lo + width) + 2 ^ (lo + width) ≤ 2 ^ 64 := by
    have := Nat.mul_le_mul_right (2 ^ (lo + width)) hc
    rw [Nat.add_mul, Nat.one_mul, Nat.mul_comm (2 ^ (64 - (lo + width))), e] at this
    exact this
  unfold putF word
  rw [BitVec.toNat_ofNat, Nat.mod_eq_of_lt (by omega)]

/-- Bits below a split of a sum. -/
theorem low_of_split (a b k n : Nat) (hn : n ≤ k) : (a + b * 2 ^ k) % 2 ^ n = a % 2 ^ n := by
  obtain ⟨m, rfl⟩ := Nat.exists_eq_add_of_le hn
  rw [Nat.pow_add, Nat.mul_comm (2 ^ n), ← Nat.mul_assoc, Nat.add_mul_mod_self_right]

/-- A field that is written reads as the value written, cut to its width. -/
theorem getF_putF_same (w : Word) (lo width x : Nat) (h : lo + width ≤ 64) :
    getF (putF w lo width x) lo width = x % 2 ^ width := by
  have hp : 0 < 2 ^ lo := Nat.two_pow_pos _
  have ha : w.toNat % 2 ^ lo < 2 ^ lo := Nat.mod_lt _ hp
  unfold getF
  rw [putF_toNat w lo width x h]
  rw [show w.toNat % 2 ^ lo + x % 2 ^ width * 2 ^ lo + w.toNat / 2 ^ (lo + width) * 2 ^ (lo + width)
      = w.toNat % 2 ^ lo + (x % 2 ^ width + w.toNat / 2 ^ (lo + width) * 2 ^ width) * 2 ^ lo by rw [Nat.pow_add]; ring]
  rw [Nat.add_mul_div_right _ _ hp, Nat.div_eq_of_lt ha, Nat.zero_add, Nat.add_mul_mod_self_right, Nat.mod_mod]

/-- A field below the one that is written keeps its value. -/
theorem getF_putF_below (w : Word) (lo width x l n : Nat) (h : lo + width ≤ 64) (hl : l + n ≤ lo) :
    getF (putF w lo width x) l n = getF w l n := by
  have cut (v : Nat) : v / 2 ^ l % 2 ^ n = v % 2 ^ (l + n) / 2 ^ l := by
    rw [Nat.pow_add, Nat.mod_mul_right_div_self]
  unfold getF
  rw [cut, cut, putF_toNat w lo width x h, Nat.add_assoc]
  rw [show x % 2 ^ width * 2 ^ lo + w.toNat / 2 ^ (lo + width) * 2 ^ (lo + width)
      = (x % 2 ^ width + w.toNat / 2 ^ (lo + width) * 2 ^ width) * 2 ^ lo by rw [Nat.pow_add]; ring]
  rw [low_of_split _ _ _ _ hl, Nat.mod_mod_of_dvd _ (Nat.pow_dvd_pow 2 hl)]

/-- A field above the one that is written keeps its value. -/
theorem getF_putF_above (w : Word) (lo width x l n : Nat) (h : lo + width ≤ 64) (hl : lo + width ≤ l) :
    getF (putF w lo width x) l n = getF w l n := by
  have ha : w.toNat % 2 ^ lo < 2 ^ lo := Nat.mod_lt _ (Nat.two_pow_pos _)
  have hx : x % 2 ^ width + 1 ≤ 2 ^ width := Nat.mod_lt _ (Nat.two_pow_pos _)
  have h1 : x % 2 ^ width * 2 ^ lo + 2 ^ lo ≤ 2 ^ (lo + width) := by
    have := Nat.mul_le_mul_right (2 ^ lo) hx
    rw [Nat.add_mul, Nat.one_mul, ← Nat.pow_add, Nat.add_comm width lo] at this
    exact this
  have cut (v : Nat) : v / 2 ^ l = v / 2 ^ (lo + width) / 2 ^ (l - (lo + width)) := by
    rw [Nat.div_div_eq_div_mul, ← Nat.pow_add]; congr 2; omega
  unfold getF
  have h3 : w.toNat % 2 ^ lo + x % 2 ^ width * 2 ^ lo < 2 ^ (lo + width) := by omega
  rw [cut, cut w.toNat, putF_toNat w lo width x h, Nat.add_mul_div_right _ _ (Nat.two_pow_pos _), Nat.div_eq_of_lt h3,
    Nat.zero_add]

/-- A field of the register space reads as it was written. -/
theorem fld_setFld_same (d : Dev) (f : Field) (x : Nat) (h : f.lo + f.width ≤ 64) :
    (d.setFld f x).fld f = x % 2 ^ f.width := by
  unfold Dev.fld Dev.setFld Field.get Field.put
  rw [reg_setReg_same, getF_putF_same _ _ _ _ h]

/-- A field of another register keeps its value. -/
theorem fld_setFld_reg (d : Dev) (f k : Field) (x : Nat) (h : k.reg ≠ f.reg) : (d.setFld f x).fld k = d.fld k := by
  unfold Dev.fld Dev.setFld
  rw [reg_setReg_other _ _ _ _ h]

/-- Another field of the same register keeps its value. -/
theorem fld_setFld_apart (d : Dev) (f k : Field) (x : Nat) (h : f.lo + f.width ≤ 64)
    (hk : k.lo + k.width ≤ f.lo ∨ f.lo + f.width ≤ k.lo) : (d.setFld f x).fld k = d.fld k := by
  by_cases hr : k.reg = f.reg
  · unfold Dev.fld Dev.setFld Field.get Field.put
    rw [hr, reg_setReg_same]
    rcases hk with hk | hk
    · exact getF_putF_below _ _ _ _ _ _ h hk
    · exact getF_putF_above _ _ _ _ _ _ h hk
  · exact fld_setFld_reg _ _ _ _ hr

/-- A register word other than the written one keeps its value. -/
theorem reg_setFld_other (d : Dev) (f : Field) (x off : Nat) (h : off ≠ f.reg) : (d.setFld f x).reg off = d.reg off :=
  reg_setReg_other _ _ _ _ h

/-- A saturating counter adds, up to all ones. -/
theorem fld_addSat (d : Dev) (f : Field) (n : Nat) (h : f.lo + f.width ≤ 64) :
    (d.addSat f n).fld f = min (d.fld f + n) (2 ^ f.width - 1) := by
  unfold Dev.addSat
  rw [fld_setFld_same _ _ _ h]
  exact Nat.mod_eq_of_lt (Nat.lt_of_le_of_lt (Nat.min_le_right _ _) (Nat.sub_lt (Nat.two_pow_pos _) Nat.one_pos))

/-- A change of the register space keeps it canonical. -/
theorem setReg_wf (d : Dev) (off : Nat) (v : Word) (h : SMap.wf coldValue d.regs = true) :
    SMap.wf coldValue (d.setReg off v).regs = true := smap_set_wf _ _ _ h

theorem setFld_wf (d : Dev) (f : Field) (x : Nat) (h : SMap.wf coldValue d.regs = true) :
    SMap.wf coldValue (d.setFld f x).regs = true := setReg_wf _ _ _ h

end Sys2Proof.Laws
end

