-- ==== Sys2Proof/Laws/Memory.lean ====
section
/-!
SUPPORT. Memory: every write keeps the canonical form, gives the byte that it writes, and leaves every other byte alone.
-/

namespace Sys2Proof.Laws

open Sys2Proof Sys2Proof.Machine

/-- A fold of byte writes keeps the canonical form. -/
theorem write_foldl_wf (p : Nat → Bool) (a : Nat) (l : Line) (is : List Nat) (m : SMap Byte) (h : Memory.wf m = true) :
    Memory.wf (is.foldl (fun m i => if p i then SMap.set (fun _ => 0) m (a + i) (lineByte l i) else m) m) = true := by
  induction is generalizing m with
  | nil => exact h
  | cons i is ih =>
    rw [List.foldl_cons]
    refine ih _ ?_
    split
    · exact smap_set_wf _ _ _ h
    · exact h

/-- Every write of a line's bytes keeps the canonical form of the memory. -/
theorem writeBytes_wf (m : SMap Byte) (a : Nat) (l : Line) (mask : BitVec 64) (h : Memory.wf m = true) :
    Memory.wf (writeBytes m a l mask) = true := write_foldl_wf _ _ _ _ _ h

/-- What a fold of byte writes leaves at an address. -/
theorem write_foldl_get (p : Nat → Bool) (a : Nat) (l : Line) (k : Nat) (is : List Nat) (m : SMap Byte) :
    SMap.get (fun _ => 0) (is.foldl (fun m i => if p i then SMap.set (fun _ => 0) m (a + i) (lineByte l i) else m) m) k =
      if a ≤ k ∧ k - a ∈ is ∧ p (k - a) = true then lineByte l (k - a) else SMap.get (fun _ => 0) m k := by
  induction is generalizing m with
  | nil => simp
  | cons i is ih =>
    rw [List.foldl_cons, ih]
    by_cases hk : a ≤ k ∧ k - a ∈ is ∧ p (k - a) = true
    · rw [if_pos hk, if_pos ⟨hk.1, List.mem_cons_of_mem _ hk.2.1, hk.2.2⟩]
    · rw [if_neg hk]
      by_cases hi : a + i = k
      · subst hi
        simp only [Nat.add_sub_cancel_left] at hk ⊢
        by_cases hp : p i = true
        · simp [hp]
        · simp [hp]
      · have hne : ¬(a ≤ k ∧ k - a = i) := fun h => hi (by omega)
        have : (a ≤ k ∧ k - a ∈ i :: is ∧ p (k - a) = true) ↔ False := by
          simp only [List.mem_cons, iff_false]
          rintro ⟨h1, h2 | h2, h3⟩
          · exact hne ⟨h1, h2⟩
          · exact hk ⟨h1, h2, h3⟩
        rw [if_neg this.mp]
        split
        · exact smap_get_set_other _ _ _ _ _ (Ne.symm hi)
        · rfl

/-- The bytes that the mask selects take the line's; every other byte of the memory keeps its value. -/
theorem get_writeBytes (m : SMap Byte) (a : Nat) (l : Line) (mask : BitVec 64) (k : Nat) :
    SMap.get (fun _ => 0) (writeBytes m a l mask) k =
      if a ≤ k ∧ k < a + 64 ∧ natBit mask.toNat (k - a) = true then lineByte l (k - a) else SMap.get (fun _ => 0) m k := by
  unfold writeBytes
  rw [write_foldl_get]
  simp only [List.mem_range]
  congr 1
  apply propext
  constructor
  · rintro ⟨h1, h2, h3⟩
    exact ⟨h1, by omega, h3⟩
  · rintro ⟨h1, h2, h3⟩
    exact ⟨h1, by omega, h3⟩

end Sys2Proof.Laws
end

