-- ==== Sys2Proof/Laws/Outcome.lean ====
section
/-!
SUPPORT. What the shapes that the meanings share can answer: a command on the device alone, a message, a command of the
Ledger Engine, an instruction of a strand; and what a step does with the command that it takes.
-/

namespace Sys2Proof.Laws

open Sys2Proof Sys2Proof.Machine

/-- A command on the device changes the device alone. -/
theorem onDev_next {ok : Bool} {s t : State} {f : Dev → Dev} (h : onDev ok s f = .next t) :
    ok = true ∧ t = { s with dev := f s.dev } := by
  unfold onDev at h
  split at h
  · rename_i hk
    exact ⟨hk, by injection h with h; exact h.symm⟩
  · cases h

/-- So does a command of the data plane, while the clock relations hold. -/
theorem onData_next {ok : Bool} {s t : State} {f : Dev → Dev} (h : onData ok s f = .next t) :
    ok = true ∧ s.dev.clocksOk = true ∧ t = { s with dev := f s.dev } := by
  unfold onData at h
  split at h
  · cases h
  · rename_i hk
    split at h
    · rename_i hc
      exact ⟨by simpa using hk, hc, by injection h with h; exact h.symm⟩
    · cases h

/-- A message is taken from those in flight, and then handled. -/
theorem onMessage_next {ok : Bool} {p : Msg → Bool} {f : State → State} {s t : State} (h : onMessage ok p f s = .next t) :
    ok = true ∧ s.dev.clocksOk = true ∧ t = f { s with dev := s.dev.arrive p } := by
  unfold onMessage at h
  split at h
  · cases h
  · rename_i hk
    split at h
    · cases h
    · rename_i hc
      exact ⟨by simpa using hk, by simpa using hc, by injection h with h; exact h.symm⟩

/-- A command of the Ledger Engine's data plane. -/
theorem onLedger_next {ok : Bool} {f : State → State} {s t : State} (h : onLedger ok f s = .next t) :
    ok = true ∧ s.dev.clocksOk = true ∧ t = f s := by
  unfold onLedger at h
  split at h
  · cases h
  · rename_i hk
    split at h
    · rename_i hc
      exact ⟨by simpa using hk, hc, by injection h with h; exact h.symm⟩
    · cases h

/-- The state that an instruction of strand g leaves its boundary in, and what its checks can come to. -/
theorem issue_cases (s : State) (g : Nat) (i : Strand → Insn) :
    (∃ r, s.issue g i = .held r ∧ (r = s ∨ r = settled s g)) ∨
    (∃ d e, s.issue g i = .exc { settled s g with dev := d } e) ∨
    (∃ d, s.issue g i = .run { settled s g with dev := d }) := by
  obtain ⟨r, hr⟩ : ∃ r, s.issue g i = r := ⟨_, rfl⟩
  rw [hr]
  unfold State.issue at hr
  rw [show (if (s.strand g).shadowDue then s.closeShadow g else s) = settled s g from rfl] at hr
  dsimp only at hr
  repeat' split at hr
  all_goals subst hr
  all_goals first
    | exact .inl ⟨_, rfl, .inl rfl⟩
    | exact .inl ⟨_, rfl, .inr rfl⟩
    | exact .inr (.inl ⟨_, _, rfl⟩)
    | exact .inr (.inr ⟨_, rfl⟩)

/-- Everything that an instruction of a strand can answer: it is held, it raises, or its body goes on from the state of its
boundary with the device that its fetch leaves. -/
theorem runInsn_cases {g : Nat} {s t : State} {i : Strand → Insn} {body : State → Flow} (h : runInsn g s i body = .next t) :
    (t = s ∨ t = settled s g) ∨
    (∃ d e, t = ({ settled s g with dev := d } : State).raise g e) ∨
    ∃ d, let u : State := { settled s g with dev := d }
      (∃ w, body u = .ok w ∧ t = w.retire g) ∨ body u = .go t ∨ body u = .hold t ∨ (∃ e k, body u = .exc e k ∧ t = u) := by
  unfold runInsn at h
  split at h
  · cases h
  split at h
  · cases h
  rcases issue_cases s g i with ⟨r, hi, hr⟩ | ⟨d, e, hi⟩ | ⟨d, hi⟩
  · rw [hi] at h
    injection h with h
    subst h
    exact .inl hr
  · rw [hi] at h
    injection h with h
    exact .inr (.inl ⟨d, e, h.symm⟩)
  · rw [hi] at h
    dsimp only at h
    split at h
    · rename_i w hb
      injection h with h
      exact .inr (.inr ⟨d, .inl ⟨w, hb, h.symm⟩⟩)
    · rename_i w hb
      injection h with h
      exact .inr (.inr ⟨d, .inr (.inl (h ▸ hb))⟩)
    · rename_i w hb
      injection h with h
      exact .inr (.inr ⟨d, .inr (.inr (.inl (h ▸ hb)))⟩)
    · rename_i e k hb
      split at h
      · injection h with h
        exact .inr (.inl ⟨k, e, h.symm⟩)
      · injection h with h
        exact .inr (.inr ⟨d, .inr (.inr (.inr ⟨e, k, hb, h.symm⟩))⟩)

/-- A step idles on an empty queue, and else runs its front. -/
theorem step_cases {s t : State} (h : step s = .next t) :
    (s.pending = [] ∧ t = s) ∨ ∃ c rest, s.pending = c :: rest ∧ exec c { s with pending := rest } = .next t := by
  unfold step at h
  split at h
  · rename_i hp
    injection h with h
    exact .inl ⟨hp, h.symm⟩
  · rename_i c rest hp
    exact .inr ⟨c, rest, hp, h⟩

end Sys2Proof.Laws
end

