-- ==== Sys2Proof/Tests/Slice0.lean ====
section
/-!
SUPPORT. The smoke test of `Instr.wf`, the witnesses of the statements' hypotheses, and small tests of single commands
against the spec.
-/

open Sys2Proof Sys2Proof.Machine

namespace Sys2Proof.Tests

/-! ### Small states -/

/-- The state after reset with strand 0 changed. -/
def onS (f : Strand → Strand) : State := State.reset.setStrand 0 (f (State.reset.strand 0))

/-- The state after reset with the device changed. -/
def onD (f : Dev → Dev) : State := { State.reset with dev := f Dev.reset }

/-- The state after reset with both changed. -/
def onSD (f : Strand → Strand) (g : Dev → Dev) : State := { onS f with dev := g Dev.reset }

/-- A strand at H with the vector unit enabled and registers n1 to n3 set. -/
def busy (x : Strand) : Strand :=
  { x with
    status := 0x202
    n := [(1, 5), (2, 0xFFFFFFFFFFFFFFFF), (3, 64)]
    v := [(1, 0x3FF0000000000000), (2, 7)] }

/-! ### Witnesses: strands -/

/-- Strand 0 at H with VEC set; n1 is a DRAM address. -/
abbrev sH : State := onS busy

/-- The same strand at S and at U. -/
def sS : State := onS fun x => { busy x with status := 0x201 }
def sU : State := onS fun x => { busy x with status := 0x200 }

theorem witness_ZeroRegisterAndLink : (1 : Reg) ≠ 0 ∧ (31 : Reg) ≠ 0 ∧ ready sH 0 { transfer := true, regs := [.n 31] } = true := by
  decide

theorem witness_IntegerResults :
    ready sH 0 { regs := [.n 31, .n 1, .n 0] } = true ∧ ready sH 0 { regs := [.n 31, .n 1] } = true ∧
    ready sH 0 { regs := [.n 3, .n 0] } = true ∧ ready sH 0 { regs := [.n 3] } = true ∧
    ready sH 0 { regs := [.n 3, .n 3] } = true ∧ (0 : Reg).toNat < 4 ∧ (3 : Reg).toNat < 4 := by decide

theorem witness_BranchesAndJumps :
    ready sH 0 { transfer := true, regs := [.n 1] } = true ∧ ready sH 0 { transfer := true, regs := [.n 1, .n 2] } = true ∧
    ready sH 0 { transfer := true } = true ∧ ready sH 0 { transfer := true, regs := [.n 31] } = true := by decide

theorem witness_FloatingPointResults :
    ready sH 0 { vec := true, regs := [.v 1, .v 1, .v 2] } = true ∧ ready sH 0 { vec := true, regs := [.v 1, .v 2, .v 0] } = true ∧
    ready sH 0 { vec := true, regs := [.n 1, .v 1, .v 2] } = true ∧ ready sH 0 { vec := true, regs := [.n 1, .v 1] } = true ∧
    ready sH 0 { vec := true, regs := [.v 31, .n 1] } = true := by decide

/-- The lane index at its bounds: lane 31 of bytes, lane 3 of doublewords. -/
theorem witness_VectorLaneResults :
    ready sH 0 { vec := true, regs := [.v 1, .v 1, .v 2] } = true ∧ ready sH 0 { vec := true, regs := [.v 1, .v 2, .n 3] } = true ∧
    ready sH 0 { vec := true, regs := [.v 1, .n 3] } = true ∧ ready sH 0 { vec := true, regs := [.n 3, .v 1] } = true ∧
    ready sH 0 { vec := true, regs := [.n 3, .v 1, .v 2] } = true ∧ (31 : Reg).toNat < lanesOf 0 ∧ (3 : Reg).toNat < lanesOf 3 := by
  decide

/-- A division in flight, and a far atomic that no direct write of its line holds back. -/
def sLong : State := onS fun x => { busy x with longOps := [⟨.n 3, 9, .value⟩, ⟨.n 4, 8, .far 5 0⟩] }

theorem witness_HashStepsAndLongOperations :
    ready sH 0 { vec := true, regs := [.n 3, .n 1, .v 1] } = true ∧ ready sH 0 { vec := true, regs := [.v 3, .v 1, .v 2] } = true ∧
    ready sH 0 { vec := true, regs := [.n 3, .v 1] } = true ∧
    (sLong.strand 0).longOps[0]? = some ⟨.n 3, 9, .value⟩ ∧ (sLong.strand 0).longOps[1]? = some ⟨.n 4, 8, .far 5 0⟩ ∧
    sLong.dev.directOpen (0, 0) = false := by decide

/-- n1 is the DRAM address 0x1000, n2 one that crosses a line. -/
def busyM (x : Strand) : Strand := { busy x with n := [(1, 0x1000), (2, 0x103E), (3, 64)] }

def sM : State := onS busyM

/-- A device in which core 0's L2 is enabled and holds a line in a state. -/
def holding (st : LineState) (g : Nat) (d : Dev) : Dev :=
  (d.setFld (coreCtl 0 2) 1).setLine 0 g ⟨st, 0x1122334455667788, false, 0, false, false, 0, 3⟩

/-- A read that has brought nothing yet, and a piece of 4 bytes of line 64. -/
def read0 : Read := ⟨[], false, false, none, holding .exclusive 64 Dev.reset⟩

def sbWord (pa n : Nat) : SbEntry := ⟨pa, leBytes n 0x55667788, 0, .normal true, 0, false, false, false⟩

def piece64 : Option Piece := (sM.access 0 0x1000 4 .load .plain).1.2.head?

theorem witness_LoadsBringTheirBytes :
    ready sM 0 { regs := [.n 3, .n 1] } = true ∧ ready sM 0 { vec := true, regs := [.v 3, .n 1] } = true ∧
    (loadRead (begun sM 0) 0 1 0x1000).isSome = true ∧ (loadRead (begun sM 0) 0 2 0x1000).isSome = true ∧
    (loadRead (begun sM 0) 0 4 0x103E).isSome = true ∧ (loadRead (begun sM 0) 0 8 0x1000).isSome = true ∧
    (loadRead (begun sM 0) 0 32 0x1000).isSome = true := by decide

/-- A store that holds the piece, one that overlaps it and does not, and none: the L2 holds the line. -/
theorem witness_loadSources :
    piece64.map (fun p => (p.a.pa, p.n, p.a.mt)) = some (0x1000, 4, 0) ∧
    (sbWord 0x1000 4).overlaps 0x1000 4 = true ∧ (sbWord 0x1000 4).forwards = true ∧ (sbWord 0x1000 4).holds 0x1000 4 = true ∧
    (sbWord 0x1002 4).overlaps 0x1000 4 = true ∧ (sbWord 0x1002 4).holds 0x1000 4 = false ∧
    (sbWord 0x1004 4).overlaps 0x1000 4 = false ∧
    read0.dev.flips = [] ∧ read0.dev.unclean = [] ∧ read0.dev.l2On 0 = true ∧ (read0.dev.line 0 64).st ≠ .invalid := by decide

/-- Gathers of 8 words and of 4 doublewords from 0x1000 on. -/
def sGather : State := onS fun x => { busyM x with v := [(1, 0x1), (2, 7)] }

theorem witness_gather (w : BitVec 2) (hw : w = 2 ∨ w = 3) :
    ready sGather 0 { vec := true, regs := [.v 3, .n 1, .v 1] } = true ∧
    (let u := (begun sGather 0).strand 0
     let n := laneW w / 8
     let va (i : Nat) : Word := u.getN 1 + BitVec.ofInt 64 (laneS w (u.getV 1) i * n)
     let r := tryParts 0 u .load ((List.range (lanesOf w)).map fun i => (va i, n)) (begun sGather 0).dev
     (∀ i, i < lanesOf w → (va i).toNat % n = 0) ∧ accessFault r.2 u (u.getN 1) n .load .gather r.1 = none ∧
     (readPieces (begun sGather 0) 0 (pieces r.1, r.2)).isSome = true) := by
  rcases hw with rfl | rfl <;> decide

/-- A store at the last bytes of a line that core 0 owns, in DRAM and in Peat. -/
def sLeave (pa : Nat) : State :=
  onSD (fun x => { busyM x with sb := [sbWord pa 4] }) fun d =>
    (holding .modified (pa / 64) d).setTracker 0 { openB := [⟨pa / 64, true, false, 0, true, 0⟩] }

theorem witness_StoresReachTheirBytes :
    ready sM 0 { regs := [.n 3, .n 1] } = true ∧ ready sM 0 { vec := true, regs := [.v 3, .n 1] } = true ∧
    (storePieces (begun sM 0) 0 0x1000 1).isSome = true ∧ (storePieces (begun sM 0) 0 0x1000 2).isSome = true ∧
    (storePieces (begun sM 0) 0 0x103E 4).isSome = true ∧ (storePieces (begun sM 0) 0 0x1000 8).isSome = true ∧
    (storePieces (begun sM 0) 0 0x1000 32).isSome = true := by decide

theorem witness_storeEntry (pa : Nat) (h : pa = 0x103C ∨ pa = 2 ^ 51) :
    let s := sLeave pa
    let c := s.dev.phys 0
    s.dev.clocksOk = true ∧ (s.strand 0).sb = [sbWord pa 4] ∧ (s.strand 0).heldBack (sbWord pa 4) = false ∧
    s.dev.flips = [] ∧ s.dev.l2On c = true ∧ s.dev.ownsLine c (pa / 64) = true ∧
    (isPeat (pa / 64) = true → (s.dev.trackStore c 0 (pa / 64)).isSome = true) ∧ pa % 64 + 4 ≤ 64 := by
  rcases h with rfl | rfl <;> decide

/-- A strand whose core owns line 64. -/
def sNear : State := onSD busyM (holding .modified 64)

theorem witness_AtomicsAndOrderedAccesses (z : BitVec 2) (hz : z = 2 ∨ z = 3) :
    ready sNear 0 { regs := [.n 3, .n 1] } = true ∧ ((begun sNear 0).strand 0).sb = [] ∧
    (loadRead (begun sNear 0) 0 (2 ^ z.toNat) 0x1000).isSome = true ∧
    (storePieces (begun sNear 0) 0 0x1000 (2 ^ z.toNat)).isSome = true ∧
    ready sNear 0 { regs := [.n 3, .n 1, .n 2] } = true ∧
    ∃ p dv, (begun sNear 0).access 0 0x1000 (2 ^ z.toNat) .atomic .atomic = ((none, [p]), dv) ∧
      nearReady (begun sNear 0) 0 p dv = true := by
  rcases hz with rfl | rfl <;> refine ⟨by decide, by decide, by decide, by decide, by decide, _, _, rfl, by decide⟩

/-! ### Witnesses: system registers, modes, exceptions -/

theorem witness_SystemRegistersMove :
    ready sH 0 { regs := [.n 3] } = true ∧ ready sS 0 { regs := [.n 3] } = true ∧ ((begun sS 0).strand 0).pl = 1 ∧
    ((begun sH 0).strand 0).pl = 2 ∧ ready sU 0 { regs := [.n 3] } = true ∧ ready sH 0 { modeWrite := true, regs := [.n 1] } = true ∧
    ready sS 0 { modeWrite := true, regs := [.n 1] } = true ∧ ((begun sH 0).strand 0).hpsealed = false := by decide

/-- A strand whose shadow over a register has reached its fifth position. -/
def sShadow (sr : BitVec 12) : State := onS fun x => { busy x with shadow := some ⟨sr, 0x1001, 2, 5⟩ }

theorem witness_shadowCloses :
    (∀ sr ∈ [0x000#12, 0x006, 0x011, 0x012, 0x013, 0x014, 0x015, 0x806, 0x010], ((sShadow sr).strand 0).shadow = some ⟨sr, 0x1001, 2, 5⟩) ∧
    (modeWrites ((sShadow 0).strand 0) 0x1001 2).map (fun p => p.1) = [0x000, 0x006, 0x011, 0x012, 0x013, 0x014, 0x015] ∧
    ((sShadow 0x806).strand 0).hpsealed = false := by decide

/-- Mode requests: Steady with strand 1 parked, Steady with strand 1 running, and Full while Steady is in effect. -/
def sFull (parked1 active : Bool) : State :=
  ({ onSD busy (fun d => d.setPm 0 { mode := active, active := active }) with pending := [] } : State).setStrand 1
    { Strand.reset with parked := parked1 }

theorem witness_modeRequests :
    (∀ p a, ready (sFull p a) 0 { modeWrite := true, regs := [.n 1] } = true ∧
      ((begun (sFull p a) 0).strand 0).pl = 2 ∧ ((begun (sFull p a) 0).strand 1).parked = p ∧
      ((begun (sFull p a) 0).dev.pm 0).active = a) ∧
    ready sS 0 { modeWrite := true, regs := [.n 1] } = true ∧ ((begun sS 0).strand 0).hstatus.getLsbD 39 = false := by decide

/-- Strand 0 in WAIT, with or without a frame limit: its timer is due, or S is to take every class. -/
def sWait (limit : Word) (timer : Bool) : State :=
  onS fun x => { busy x with
    status := if timer then 0x602 else 0x202
    hstatus := if timer then 0 else 0x3FFFC0000
    waiting := some ⟨3, limit⟩ }

theorem takeLevel_none (x : Strand) (h : x.hstatus = 0x3FFFC0000) (p : x.pl = 2) (k : Nat) (hk : k < 16) :
    takeLevel x k true = none := by
  have e := (by decide : ∀ k, k < 16 → bitOf (0x3FFFC0000#64) (18 + k) = true) k hk
  simp [takeLevel, h, p, e]

theorem nothing_takeable (l : Word) : (sWait l false).topVector 0 true = none := by
  unfold State.topVector
  rw [List.find?_eq_none]
  intro v hv
  have hv : v < 1024 := by simpa using hv
  simp [State.takeable, takeLevel_none ((sWait l false).strand 0) rfl (by show getF 0x202#64 0 2 = 2; decide) (v / 64) (by omega)]

theorem timer_takeable : ((sWait 0 true).topVector 0 true).isSome = true := by
  unfold State.topVector
  rw [List.find?_isSome]
  exact ⟨1023, by simp, by decide⟩

/-- Core 0 in a mode drain, with a wake of strand 1 held. -/
def sDrainMode (mode : Bool) : State := onSD busy fun d => d.setPm 0 { mode := mode, active := !mode, draining := true, wake := true }

theorem witness_waitingAndModes :
    ready sH 0 { transfer := true, regs := [.n 3, .n 1] } = true ∧ ((begun sH 0).strand 0).pl = 2 ∧
    ready sS 0 { transfer := true } = true ∧ ((begun sS 0).strand 0).pl = 1 ∧ ((begun sS 0).strand 0).sealedB = false := by decide

theorem witness_wakes (l : Word) (b : Bool) : let s := sWait l b
    (s.strand 0).waiting = some ⟨3, l⟩ ∧ (s.strand 0).halted = false ∧ s.dev.phase = .running ∧ s.dev.coreThere 0 = true ∧
    (s.strand 0).lost = [] := ⟨rfl, rfl, rfl, by show Dev.reset.coreThere 0 = true; decide, rfl⟩

theorem witness_modeDrains (m : Bool) : let s := sDrainMode m
    s.dev.coreState 0 = 1 ∧ s.dev.logicalOf 0 = 0 ∧ (s.dev.pm 0).draining = true ∧ (s.dev.pm 0).accepted = false ∧
    (s.strand 0).longOps = [] ∧ (s.strand 0).portLoad = none ∧ (s.strand 0).sb = [] ∧ (s.strand 1).sb = [] := by
  cases m <;> exact ⟨by decide, by decide, by decide, by decide, by decide, by decide, by decide, by decide⟩

/-- A strand of vCPU 0 of domain 1, at S. -/
def sInside : State :=
  onSD (fun x => { busy x with status := 0x301, inside := some (1, 0) }) fun d =>
    d.setDomain 1 (some ⟨true, [⟨Strand.reset, true, none, 0, false⟩], 0x100, 5, none, 0, 0x6⟩)

theorem witness_ExceptionEntries :
    ((sS.closeShadow 0).strand 0).sealedB = false ∧ ((sInside.closeShadow 0).strand 0).sealedB = true ∧
    (let x := sInside.strand 0
     SMap.wf (fun _ => 0) x.n = true ∧ x.shadow = none ∧ x.sealedB = true ∧ x.pl < 2 ∧ x.inside = some (1, 0) ∧
     (sInside.dev.domain 1).isSome = true ∧ ((sInside.dev.domain 1).bind fun m => m.vcpus[0]?).isSome = true) := by decide

/-- A strand at S in the executed slot of a transfer, with and without a link. -/
def sSlot (link : Option (Reg × Word)) : State :=
  onS fun x => { busy x with
    status := 0x201
    slot := some ⟨x.pc, 0x2000, link, true, []⟩ }

theorem witness_ExceptionsAreRaised :
    ({ code := 1 } : Exc).syn = .none ∧ (1 ≠ 8) ∧ sS.dev.duty 10 = false ∧ (sS.strand 0).slot = none ∧
    ((sSlot none).strand 0).slot = some ⟨(sS.strand 0).pc, 0x2000, none, true, []⟩ ∧
    ((sSlot (some (31, 7))).strand 0).slot = some ⟨(sS.strand 0).pc, 0x2000, some (31, 7), true, []⟩ ∧
    ((begun sS 0).strand 0).longOps = [] ∧ ready sS 0 { transfer := true } = true ∧ ((begun sS 0).strand 0).pl = 1 ∧
    ready sS 0 {} = true ∧ (0xFC000000#32).toNat / 2 ^ 26 = 0x3F ∧ (0x3FFFFFF#32).toNat / 2 ^ 26 = 0x00 := by decide

/-- A strand at an address that nothing claims. -/
def sAway : State := onS fun x => { busy x with pc := 0x7000000000000 }

theorem witness_firstCause :
    sAway.mayIssue 0 = true ∧ fetchOk ((settled sAway 0).fetch 0) = false ∧
    (∀ s ∈ [sS, sU, sH, sSlot none, onS fun x => { busy x with shadow := some ⟨0, 1, 2, 0⟩ }],
      s.mayIssue 0 = true ∧ s.dev.clocksOk = true ∧ ((settled s 0).dev.pm 0).draining = false ∧ ((settled s 0).strand 0).longOps = [] ∧
      fetchOk ((settled s 0).fetch 0) = true) ∧
    ((settled (sSlot none) 0).strand 0).slot.isSome = true ∧ ((settled sU 0).strand 0).pl = 0 ∧ ((settled sU 0).strand 0).slot = none ∧
    ((settled (onS fun x => { busy x with shadow := some ⟨0, 1, 2, 0⟩ }) 0).strand 0).shadow.isSome = true ∧
    ((settled State.reset 0).strand 0).vec = false ∧ State.reset.mayIssue 0 = true ∧
    fetchOk ((settled State.reset 0).fetch 0) = true := by decide

theorem witness_ExceptionReturn :
    ready sS 0 { transfer := true } = true ∧ ((begun sS 0).strand 0).shadow = none ∧ ((begun sS 0).strand 0).pl = 1 ∧
    ready sH 0 { transfer := true } = true ∧ ((begun sH 0).strand 0).shadow = none ∧ ((begun sH 0).strand 0).pl = 2 ∧
    ((begun sH 0).strand 0).hpsealed = false := by decide

/-! ### Witnesses: the memory-system group -/

/-- A strand whose store buffer is not empty. -/
def sSb : State := onS fun x => { busyM x with sb := [sbWord 0x2000 4] }

/-- n1 lies outside the physical address space. -/
def sFar : State := onS fun x => { busy x with status := 0x201, n := [(1, 0x7FFFFFFFFFFFF000), (3, 64)] }

theorem witness_FencesAndHints :
    ready sM 0 {} = true ∧ ((begun sM 0).strand 0).sb = [] ∧ ready sSb 0 {} = true ∧ ((begun sSb 0).strand 0).sb ≠ [] ∧
    ready sM 0 { regs := [.n 1, .n 3] } = true ∧ ready sM 0 { regs := [.n 1] } = true ∧
    (match linePiece (begun sM 0) 0 0x1000 with
     | some (p, d) => ({ begun sM 0 with dev := d } : State).sbTakes 0 1 && (d.mshr (d.phys 0) (p.a.pa / 64)).isNone
         && (d.ghost (d.phys 0) (p.a.pa / 64)).isNone && !((begun sM 0).strand 0).psyncing
     | none => false) = true ∧
    ready sFar 0 { regs := [.n 1, .n 3] } = true ∧
    ((begun sFar 0).access 0 0x7FFFFFFFFFFFF000 1 .load .line).1.1.isSome = true := by decide

/-- n1 names a target and a tile for CINV.ALL; the device's L2 of core 0 is enabled or not. -/
def sCinv (a : Word) (on : Bool) : State :=
  onSD (fun x => { busy x with n := [(1, a)] }) fun d => if on then d.setFld (coreCtl 0 2) 1 else d

/-- Targets 4 and 7, tiles 144 and 143, an enabled and a disabled L2, ways 0 to 11 of a slice. -/
theorem witness_cinvAll :
    (∀ p ∈ [(0x0004, false), (0x0007, false), (0x9003, false), (0x0002, true), (0x0002, false), (0xFFF8F03, false)],
      ready (sCinv (BitVec.ofNat 64 p.1) p.2) 0 { regs := [.n 3, .n 1] } = true) ∧
    ((begun (sCinv 2 false) 0).strand 0).pl = 2 ∧
    ((0x9003#64).extractLsb' 8 8).toNat = 144 ∧ ((0xFFF8F03#64).extractLsb' 8 8).toNat = 143 ∧
    (begun (sCinv 2 true) 0).dev.flag (coreCtl 0 2) = true ∧ (begun (sCinv 2 false) 0).dev.phys 0 = 0 ∧
    (begun (sCinv 2 false) 0).dev.flag (coreCtl 0 2) = false ∧ (begun (sCinv 2 false) 0).dev.flag (coreCtl 0 13) = false := by
  decide

/-- PWB of a line in M, of one in E, and of a Peat line. -/
def sPwb (st : LineState) (pa : Nat) : State :=
  onSD (fun x => { busy x with n := [(1, BitVec.ofNat 64 pa)] }) (holding st (pa / 64))

theorem witness_ArraysPersistAndBtb :
    (∀ p ∈ [(LineState.modified, 0x1000), (.exclusive, 0x1000), (.exclusive, 2 ^ 51)],
      let s := sPwb p.1 p.2
      ready s 0 { regs := [.n 1] } = true ∧
      (match linePiece (begun s 0) 0 (BitVec.ofNat 64 p.2) with
       | some (q, d) => let c := d.phys 0
         let line := q.a.pa / 64
         (d.line c line).st == p.1 && d.wbCredit c line && d.flips.isEmpty && (d.mshr c line).isNone && (d.ghost c line).isNone
       | none => false) = true) ∧
    (((begun (sPwb .modified 0x1000) 0).strand 0).psyncing = false) ∧ ((begun (sPwb .modified 0x1000) 0).strand 0).sb = [] ∧
    isPeat (2 ^ 51 / 64) = true ∧ isPeat 64 = false ∧
    ready sS 0 {} = true ∧ ((begun sS 0).strand 0).pl = 1 ∧ ((begun sS 0).strand 0).slot = none := by decide

/-- PSTNT of 8 and 32 bytes, to Peat and to DRAM. -/
def sPst (pa : Nat) : State := onS fun x => { busy x with n := [(1, BitVec.ofNat 64 pa), (3, 64)] }

theorem witness_pstnt :
    ∀ pa ∈ [2 ^ 51, 0x1000], ∀ n ∈ [8, 32],
      ready (sPst pa) 0 { regs := [.n 1, .n 3] } = true ∧ ready (sPst pa) 0 { vec := true, regs := [.n 1, .v 1] } = true ∧ pa % n = 0 ∧
      (match (begun (sPst pa) 0).access 0 (BitVec.ofNat 64 pa) n .store .pstnt with
       | ((none, [p]), d) => (d.claim p.a.pa).normal && p.a.mt == 0 && ({ begun (sPst pa) 0 with dev := d } : State).sbTakes 0 1
       | _ => false) = true := by decide

/-- A PSYNC in flight, with and without a store to Peat before it. -/
def sPsync (done failed : Bool) : State :=
  onSD (fun x => { busy x with
      longOps := [⟨.n 3, 0, .psync 4 failed⟩]
      sb := if done then [] else [sbWord (2 ^ 51) 4] })
    fun d => { d with failedPw := [0] }

theorem witness_PersistentStores :
    ready sM 0 { regs := [.n 3] } = true ∧ ((begun sM 0).strand 0).psyncing = false ∧
    (∀ a b, let s := sPsync a b
      (s.strand 0).longOps = [⟨.n 3, 0, .psync 4 b⟩] ∧ ({ s with dev := s.dev.psyncSend 0 } : State).psyncDone 0 4 = a) := by decide

/-- A PSTNT at the head of its store buffer, alone in its line, with a credit of its stack. -/
def sSend : State :=
  onSD (fun x => { busy x with sb := [⟨2 ^ 51 + 56, leBytes 8 7, 0, .pstnt, 3, false, false, false⟩] })
    fun d => d.setTracker 0 { blocks := [(0, 8, d.frame)] }

theorem witness_pstntSend :
    let e : SbEntry := ⟨2 ^ 51 + 56, leBytes 8 7, 0, .pstnt, 3, false, false, false⟩
    let line := e.pa / 64
    let d := sSend.dev
    d.clocksOk = true ∧ (sSend.strand 0).sb = [e] ∧ (sSend.strand 0).heldBack e = false ∧ d.lineBusy line = false ∧
    d.mayDirect (d.phys 0) line = true ∧ d.homedHere line = true ∧ (d.slot e.key).cls ≠ 0 ∧
    ((d.payDirect (d.phys 0) line).gather line e.key).dirty = false := by decide

/-- Strand 0 waits in TSYNC. -/
def sTsync : State := onSD (fun x => { busy x with tsync := true }) fun d => { d with tinvs := [(0, .hAll), (1, .all 0)] }

theorem witness_TranslationInvalidates :
    ((begun sH 0).dev.tinvs.filter fun t => t.1 / 2 == 0).length < 8 ∧ ready sH 0 { regs := [.n 1, .n 3] } = true ∧
    ready sH 0 { regs := [.n 1] } = true ∧ ready sH 0 {} = true ∧ ((begun sH 0).strand 0).pl = 2 ∧
    ready sS 0 { regs := [.n 1, .n 3] } = true ∧ ((begun sS 0).strand 0).pl = 1 ∧
    sTsync.dev.clocksOk = true ∧ (sTsync.strand 0).tsync = true ∧ (sTsync.strand 0).halted = false ∧
    (∀ p ∈ sTsync.strands, p.2.sb = [] ∧ p.2.portLoad = none) := by decide

/-! ### Witnesses: coherence -/

/-- Line 64 with a directory entry. -/
def withDir (e : Dir) (d : Dev) : Dev := d.setDir 64 e

theorem witness_HomeRequests :
    lineOk 64 = true ∧ lineOk (2 ^ 46 - 1) = true ∧ agentOk (.core 287) = true ∧ agentOk (.socket 7) = true ∧
    (let d := withDir { st := .owned, ptrs := [.core 0] } Dev.reset
     d.clocksOk = true ∧ d.txn 64 = none ∧ d.sliceQ 64 = [] ∧ d.admission 64 = .yes ∧ (d.homeOf 64).isSome = true ∧ Agent.core 0 ≠ .core 1 ∧
     (d.dir 64).st = .owned ∧ (d.dir 64).ptrs = [.core 0]) ∧
    (let d := withDir { st := .pointer, ptrs := [.core 2, .core 0], lead := 1 } Dev.reset
     d.admission 64 = .yes ∧ (d.dir 64).st = .pointer ∧ (d.dir 64).ptrs = [.core 2, .core 0] ∧ (d.dir 64).lead = 1 ∧
     Agent.core 2 ≠ .core 1 ∧ Agent.core 2 ≠ .core 0) ∧
    (let d := Dev.reset
     d.txn 64 = none ∧ d.sliceQ 64 = [] ∧ d.admission 64 = .yes ∧ d.homedHere 64 = true ∧ (d.dir 64).st = .uncached ∧
     (d.dir 64).llcd = false ∧ d.llcGet 64 = none) ∧
    56 + (if true then 8 else 4) ≤ 64 ∧ 60 + (if false then 8 else 4) ≤ 64 := by decide

/-- A transaction on line 64 that waits for answers. -/
def txn0 (invs : List Agent) (fwd : Option Agent) (stage : TxnStage) : Txn :=
  ⟨.request (.core 1) (.rdx false), invs, fwd, false, false, false, none, 0, stage⟩

/-- The slice of line 64 with n requests in its queue. -/
def queued (n : Nat) (d : Dev) : Dev :=
  d.setSliceQ 64 (List.replicate n ⟨64, .core 3, .upg, 0, false⟩)

theorem witness_WaitingRequestsAndLostSockets :
    (∀ n ∈ [55, 64], let d := queued n (Dev.reset.setTxn 64 (some (txn0 [] none .gather)))
      (d.txn 64).isSome = true ∧ (d.homeOf 64).isSome = true ∧ d.mshr 1 64 = none ∧ (d.sliceQ 64).length = n) ∧
    (∀ q ∈ (queued 64 Dev.reset).sliceQ 64, q.starved = false) ∧
    (let d := withDir { st := .owned, ptrs := [.socket 7] } Dev.reset
     d.txn 64 = none ∧ d.sliceQ 64 = [] ∧ (d.dir 64).st = .owned ∧ (d.dir 64).ptrs = [.socket 7] ∧ 7 ≠ d.self) := by decide

theorem witness_WritebacksAndForwards :
    (let d := withDir { st := .owned, ptrs := [.core 0], ownseq := 3 } Dev.reset
     d.txn 64 = none ∧ d.sliceQ 64 = [] ∧ d.flips = [] ∧ d.homedHere 64 = true ∧ (d.dir 64).ownseq = 3 ∧ (d.dir 64).ownseq ≠ 4 ∧
     (d.line 0 64).st = .invalid ∧ d.mshrs = [] ∧ (d.tracker 0).closing = []) ∧
    (let d := withDir { st := .owned, ptrs := [.core 0], ownseq := 3 } (holding .exclusive 64 Dev.reset)
     (d.line 0 64).st = .exclusive ∧ (d.dir 64).st = .owned) ∧
    (let d := withDir { st := .pointer, ptrs := [.core 2, .core 0] } Dev.reset
     (d.dir 64).st = .pointer ∧ (d.dir 64).ptrs = [.core 2, .core 0] ∧ Agent.core 2 ≠ .core 0 ∧ (d.line 0 64).st = .invalid) ∧
    (∀ st ∈ [LineState.modified, .exclusive, .lead, .shared], ((holding st 64 Dev.reset).line 0 64).st = st) ∧
    Dev.reset.ghost 0 64 = none ∧ Dev.reset.l2Lost 0 64 = false ∧ (Dev.reset.line 0 64).st = .invalid := by decide

/-- Core 0's request for line 64, with its data or without. -/
def asking (m : Mshr) (d : Dev) : Dev := d.setMshr 0 64 (some m)

theorem witness_transactions (t : Txn) (m : Mshr) :
    (Dev.reset.setTxn 64 (some t)).txn 64 = some t ∧ (asking m Dev.reset).mshr 0 64 = some m := ⟨rfl, rfl⟩

theorem witness_AnswersAndGrants :
    (txn0 [.core 0, .core 2] none .gather).fwd ≠ some (.core 0) ∧
    (let d := (withDir { st := .pointer, ptrs := [.core 2, .core 0] } Dev.reset).setTxn 64 (some (txn0 [.core 2] (some (.core 0)) .gather))
     (d.dir 64).st = .pointer ∧ (d.dir 64).ptrs = [.core 2, .core 0] ∧ Agent.core 2 ≠ .core 0) ∧
    Dev.reset.sliceQ 64 = [] ∧ (Dev.reset.l2Set 0 64).length < 16 ∧ LineState.exclusive ≠ .invalid ∧ Dev.reset.net = [] := by
  decide

/-! ### Witnesses: arrays, refills, the invalidation queue, persistence -/

theorem witness_CacheArraysEnableAndDisable :
    (∀ t ∈ [0, 143], ∀ k ∈ [0, 1], ∀ b ∈ [0, 1, 2, 11, 12, 13], Dev.reset.flag (coreCtl (2 * t + k) b) = false) ∧
    (let d := Dev.reset.setFld (coreCtl 0 2) 1
     d.flag (coreCtl 0 0) = false ∧ d.flag (coreCtl 0 1) = false ∧ d.flag (coreCtl 0 2) = true ∧ d.flag (coreCtl 0 11) = false ∧
     d.flag (coreCtl 0 12) = false ∧ d.flag (coreCtl 0 13) = false) ∧
    (∀ w ∈ [0, 11], (Dev.reset.setFld (llcCtl 0 w) 0).flag (llcCtl 0 w) = false ∧ Dev.reset.flag (llcCtl 0 (24 + w)) = false ∧
      Dev.reset.flag (llcCtl 0 (36 + w)) = false ∧ (0x801#64).getLsbD w = true ∧
      (Dev.reset.setFld (llcCtl 0 w) 1).flag (llcCtl 0 w) = true ∧ (0x7FE#64).getLsbD w = false) ∧
    (∀ b ∈ [11, 12, 13], (Dev.reset.setFld (coreCtl 0 b) 1).flag (coreCtl 0 b) = true) ∧
    (let d := Dev.reset.setFld (coreCtl 0 13) 1
     d.linesOf 0 = [] ∧ d.flag (coreCtl 0 11) = false ∧ d.flag (coreCtl 0 12) = false ∧ d.coreQuiet 0 = true) ∧
    (Dev.reset.setFld (llcCtl 0 35) 1).flag (llcCtl 0 35) = true ∧ Dev.reset.llc = [] := by decide

theorem witness_RefillsAndInvalidations :
    (0x1#64).getLsbD 0 = true ∧ 511 < 512 ∧ (0 : Nat) ≠ 511 ∧ (0x1#64).getLsbD 4 = false ∧ ((0x1#64).extractLsb' 1 1).toNat = 0 ∧
    ((0x3#64).extractLsb' 1 1).toNat = 1 ∧ ((0xD#64).extractLsb' 2 2).toNat = 3 := by decide

/-- The invalidation queue runs, with a command of an OP at its head. -/
def ioq (op : Byte) : Dev :=
  ({ Dev.reset with dram := [(0, op)], initPending := false }.setFld R.IOIQ_BASE_EN 1).setFld R.IOIQ_TAIL_INDEX 1

theorem witness_invalidationQueue :
    (∀ op ∈ [1, 2, 3, 4, 5, 6, 0x10], (ioq op).ioqRuns = true ∧ (ioq op).ioqCommand.1 = (op.setWidth 64, 0) ∧
      ioqValid (op.setWidth 64) 0 = true ∧ ((op.setWidth 64).extractLsb' 0 8).toNat = op.toNat) ∧
    (∀ op ∈ [0, 7], (ioq op).ioqRuns = true ∧ (ioq op).ioqCommand.1 = (op.setWidth 64, 0) ∧ ioqValid (op.setWidth 64) 0 = false) ∧
    Dev.reset.flag R.IOIQ_BASE_EN = false ∧ (ioq 1).flag R.IOIQ_BASE_EN = true := by decide +kernel

/-- The Peat line of stack 0, waiting at its intake or accepted. -/
def intake0 : Intake := ⟨2 ^ 45, 9, 0xFF, false, 0, false, some (.core 0), none, [(0, 3)]⟩

def atStack (k : Stack) : Dev := Dev.reset.setStack 0 k

theorem witness_intake (q : List Intake) :
    ((atStack { waitQ := [intake0] }).stack 0).waitQ = [intake0] ∧
    ((atStack { accepted := intake0 :: q }).stack 0).accepted = intake0 :: q := ⟨rfl, rfl⟩

theorem witness_PersistenceDomain :
    (let d := Dev.reset.setFld (psReg R.PERSIST_STATUS_LEFT 7) 1
     d.clocksOk = true ∧ d.creditLeft 287 7 = 0 ∧ 0 < d.fld (psReg R.PERSIST_STATUS_LEFT 7) ∧ d.creditBehind 287 7 = false ∧
     (d.setStack 7 { refusals := [0] }).creditBehind 287 7 = true) ∧
    (let d := Dev.reset.setFld (psReg R.PERSIST_STATUS_LEFT 7) 0
     d.fld (psReg R.PERSIST_STATUS_LEFT 7) = 0 ∧ d.creditLeft 287 7 = 0 ∧ d.creditBehind 287 7 = false) ∧
    287 ∈ (((Dev.reset.setStack 7 { refusals := [287] }).stack 7).refusals) ∧
    (let d := (atStack { waitQ := [intake0] }).setFld (psReg R.PS_STATUS_MOUNTED 0) 1
     d.clocksOk = true ∧ d.flag (psReg R.PS_STATUS_MOUNTED 0) = true ∧ (d.stack 0).accepted = [] ∧
     d.txn intake0.g = none ∧ d.sliceQ intake0.g = []) ∧
    Dev.reset.flips = [] ∧
    (let d := Dev.reset.setReg R.FRAME_NUMBER.reg 1
     d.phase = .running ∧ d.frame ≠ 0 ∧ d.trackers = [] ∧ d.directPw = []) ∧
    (let d := atStack { waitQ := [intake0] }
     d.drain = none ∧ d.homedHere (2 ^ 45) = true ∧ lineOk (2 ^ 45) = true ∧ stackOf (2 ^ 45) = 0 ∧ d.txn (2 ^ 45) = none) := by
  decide

/-- Strand 511 has a direct write of the line in flight. -/
theorem witness_failedWrites :
    511 ∈ ({ atStack { waitQ := [intake0] } with directPw := [⟨511, 3, 2 ^ 45, 0⟩] } : Dev).waitersOn (2 ^ 45) := by
  unfold Dev.waitersOn
  rw [List.mem_filter]
  exact ⟨by simp [allStrands], by decide⟩

theorem witness_wearAndGovernor :
    (let d := (Dev.reset.setGranule 0 5 ⟨0, 5, false, 524288 * 2 ^ 40⟩)
     (d.stack 0).move = none ∧ (d.granule 0 5).use ≠ 3 ∧ (d.granule 0 5).retired = false ∧
     (d.granule 0 127232).wear / 524288 + max 1 (d.fld (psReg R.WL_CTL_DELTA 0)) ≤ (d.granule 0 5).wear / 524288) ∧
    ((atStack { move := some (5, 127232) }).stack 0).move = some (5, 127232) ∧
    (Dev.reset.setFld (psReg R.GOV_CTL_EN 0) 0).flag (psReg R.GOV_CTL_EN 0) = false ∧ 5 ≠ 127232 ∧ 131071 < 131072 := by decide

/-! ### Witnesses: the tick, the chain, registers, interrupts -/

/-- The socket is the head of its chain, or is not. -/
def headed (b : Bool) : Dev := Dev.reset.setFld R.IDENT_CHAIN_HEAD (if b then 1 else 0)

theorem witness_TicksAndFrames :
    (∀ p ∈ [Phase.stopped, .running, .off, .booting, .drained], ({ Dev.reset with phase := p } : Dev).phase = p) ∧
    Dev.reset.chain.nextFrame = none ∧ ({ Dev.reset.chain with nextFrame := some 9 } : Chain).resync ≠ 2 ∧
    ((Dev.reset.setChan 15 { owed := true }).chan 15).owed = true ∧
    (32#16).toInt.natAbs ≤ 32 ∧ (65504#16).toInt.natAbs ≤ 32 ∧ 12 < (13#16).toInt.natAbs ∧ 32 < (33#16).toInt.natAbs ∧
    32 < (32768#16).toInt.natAbs ∧ Dev.reset.fld R.TICK_STATUS_SOURCE ≠ 1 ∧
    (∀ n ∈ [0, 1, 2], (Dev.reset.setFld R.TICK_STATUS_SOURCE n).fld R.TICK_STATUS_SOURCE = n) ∧
    (headed false).flag R.IDENT_CHAIN_HEAD = false ∧ (headed true).flag R.IDENT_CHAIN_HEAD = true ∧
    (headed true).flag R.CHAIN_STATUS_MSG_DOWN = false ∧ (0x200000000#64).getLsbD 33 = true ∧
    (headed true).fld R.CHAIN_STATUS_PRESENT = 2 ^ (headed true).self ∧
    (0 ||| 2 ^ 0) &&& (headed true).fld R.CHAIN_STATUS_PRESENT = (headed true).fld R.CHAIN_STATUS_PRESENT := by decide

theorem witness_ChainMessages :
    ({} : Chain).enumerated = true ∧ (0 : Nat) < 3 ∧ 7 < 8 ∧ 1023 < 1024 ∧ 64512 + 1023 < 65536 ∧ 120 ≤ 120 ∧ 760 + 120 ≤ 880 ∧
    (headed true).flag R.CHAIN_STATUS_IN_LOST = false ∧ (0x01#8).getLsbD (headed false).self = true ∧
    ((headed true).setFld R.CHAIN_STATUS_MSG_DOWN 1).flag R.CHAIN_STATUS_MSG_DOWN = true ∧
    ((0x01#8).toNat ||| 2 ^ (headed true).self) &&& (headed true).fld R.CHAIN_STATUS_PRESENT =
      (headed true).fld R.CHAIN_STATUS_PRESENT := by decide

/-- The first register of the map, CHIP_ID's block, acts on nothing but itself. -/
theorem witness_RegistersFollowTheirAccessCodes :
    reqOk (.strand 511) = true ∧ (2 ^ 33 - 1) % 8 ≠ 0 ∧ 0x28 ∉ eventRegs ∧
    (match regAt 0x28 with
     | some r => let s := State.reset
       !inWindow 0x28 && (s.socWrite .other r.base 0x28 5).isNone && (s.unitWrite .other r.base 0x28 5).isNone
         && (s.mailWrite .other r.base 0x28 5).isNone && (s.dev.barWrite r.base 0x28 5).isNone
         && r.fields.any fun f => decide (f.fld.lo ≤ 27) && decide (27 < f.fld.lo + f.fld.width)
     | none => false) = true := by decide

theorem witness_LocksAndSpares :
    definedOff 0x78 = false ∧ (2 ^ 28 - 8) % 8 = 0 ∧ Dev.reset.flag R.HOLE_VALID = false ∧
    (Dev.reset.setFld R.HOLE_VALID 1).flag R.HOLE_VALID = true ∧ Dev.reset.locked = false ∧
    (Dev.reset.setFld R.LOCK_BOOT_LOCK 1).locked = true ∧ (1#64).getLsbD 0 = true ∧
    Dev.reset.coreState 286 = 2 ∧ Dev.reset.coreState 0 ≠ 2 := by decide

/-- With WARM_TARGET at its largest value, 7, there are fewer warm spares than that. -/
theorem witness_warmSpares :
    let d := Dev.reset.setFld R.CORE_COUNT_WARM_TARGET 7
    (List.range 288).countP (fun c => d.coreState c == 3) < d.fld R.CORE_COUNT_WARM_TARGET := by decide +kernel

/-- Strand 0 at a boundary, at H with interrupts off; with the timer due; with vector 1,022 pending; with a strand lost. -/
def sInt (status : Word) (lost : List Nat) (d : Dev) : State :=
  onSD (fun x => { busy x with
    status := status
    lost := lost }) fun _ => d

theorem witness_InterruptsAreTakenHighestFirst :
    Dev.reset.clocksOk = true ∧ (sInt 0x202 [] Dev.reset).atBoundary 0 = true ∧ (sInt 0x606 [] Dev.reset).atBoundary 0 = true ∧
    (sInt 0x206 [] (Dev.reset.deliver 0 1022)).atBoundary 0 = true ∧ (sInt 0x202 [4] Dev.reset).atBoundary 0 = true ∧
    ((sInt 0x202 [4] Dev.reset).strand 0).lost = [4] ∧ ((sInt 0x202 [4] Dev.reset).strand 0).shadow = none := by decide

theorem witness_noInterrupt (v : Nat) : ¬canTake (sInt 0x202 [] Dev.reset) 0 v := by
  rintro ⟨-, -, -, -, h⟩
  have hl : classLevel ((sInt 0x202 [] Dev.reset).strand 0) (v / 64) = 2 := by
    have hh : ((sInt 0x202 [] Dev.reset).strand 0).hstatus = 0 := rfl
    unfold classLevel
    rw [hh]
    simp
  have hp : ((sInt 0x202 [] Dev.reset).strand 0).pl = 2 := by decide
  have hi : ((sInt 0x202 [] Dev.reset).strand 0).ie = false := by decide
  rw [hl, hp, hi] at h
  simp at h

theorem witness_timerInterrupt :
    canTake (sInt 0x606 [] Dev.reset) 0 1023 ∧ ∀ w, 1023 < w → ¬canTake (sInt 0x606 [] Dev.reset) 0 w := by
  constructor
  · unfold canTake
    decide
  · rintro w hw ⟨-, h, -⟩
    omega

theorem witness_vectorInterrupt :
    canTake (sInt 0x206 [] (Dev.reset.deliver 0 1022)) 0 1022 ∧
    ∀ w, 1022 < w → ¬canTake (sInt 0x206 [] (Dev.reset.deliver 0 1022)) 0 w := by
  constructor
  · unfold canTake
    decide
  · rintro w hw ⟨-, h, hp, -⟩
    obtain rfl : w = 1023 := by omega
    revert hp
    decide

/-- The router's table is at address 0, with one entry. -/
def irt0 (bytes : SMap Byte) : Dev :=
  (({ Dev.reset with
      dram := bytes
      initPending := false }.setFld R.IR_MSG_BASE_EN 1).setFld R.IR_IRT_BASE_EN 1)

theorem witness_InterruptsAreDelivered :
    4095 < 4096 ∧ 511 / 512 = Dev.reset.self ∧ Dev.reset.coreThere 255 = true ∧
    ((Dev.reset.setFld (R.CORE_MAP_PRESENT.at 2040) 0).coreThere (511 % 512 / 2) = false) ∧
    (Dev.reset.fld R.CHAIN_STATUS_COHERENT).testBit (4095 / 512) = false ∧
    (0x0#64).getLsbD 22 = false ∧ (0x400001#64).getLsbD 22 = true ∧ ((0x400001#64).extractLsb' 9 3).toNat = Dev.reset.self ∧
    (Dev.reset.pm 0).holdsWake = false ∧ (0x10000#64).getLsbD 16 = true ∧
    Dev.reset.inMsgWindow 0 = false ∧ (Dev.reset.setFld R.IR_MSG_BASE_EN 1).inMsgWindow 0 = true ∧
    (Dev.reset.setFld R.IR_MSG_BASE_EN 1).flag R.IR_IRT_BASE_EN = false ∧ (irt0 []).inMsgWindow 0 = true ∧
    (irt0 []).flag R.IR_IRT_BASE_EN = true ∧ 0 < (irt0 []).irtSize ∧
    (∀ e ∈ [0, 2], (Dev.reset.setFld (R.IR_EVROUTE_EN.at (8 * e)) 1).flag (R.IR_EVROUTE_EN.at (8 * e)) = true) ∧
    ((Dev.reset.setFld R.TICK_EVENT_LOST 1).setFld R.TICK_EVENT_EN_BITS 1).lineHigh 0 = true ∧ Dev.reset.lineHigh 1 = false := by
  decide

/-- An entry that is not valid, and one for vector 5 of strand 0 from any requester. -/
theorem witness_irtEntries :
    (irt0 []).irtEntry 0 = ((0, 0), ((irt0 []).irtEntry 0).2) ∧
    ((irt0 [(0, 0x15)]).irtEntry 0).1 = (0x15, 0) ∧
    ((0x15#64).getLsbD 0 = true ∧ ((0x15#64).extractLsb' 24 16 ^^^ 7#16) &&& (0x15#64).extractLsb' 40 16 = 0#16 ∧
      ((0x15#64).extractLsb' 2 10).toNat = 5 ∧ (0x15#64).getLsbD 1 = false) := by decide +kernel

theorem witness_bind :
    (1#64).getLsbD 1 = false ∧ (0#64).getLsbD 0 = false ∧ Dev.reset.flag (R.BIND_EN.at (0x100 * 511)) = false ∧
    (Dev.reset.setFld (R.BIND_EN.at (0x100 * 511)) 1).flag (R.BIND_EN.at (0x100 * 511)) = true ∧
    (∀ k, k < 16 → (Dev.reset.setFld (R.BIND_EN.at (0x100 * 511)) 1).reg (R.PEND_BITS.reg + 0x100 * 511 + 8 * k) = 0) := by
  decide

/-- The bound mark of a block of memory is 0, or 1. -/
theorem witness_boundBlocks :
    (Dev.reset.farWord 256 (fun x => x)).1 = 0 ∧
    ({ Dev.reset with
        dram := [(256, 1)]
        initPending := false }.farWord 256 (fun x => x)).1 = 1 := by decide +kernel

/-! ### Witnesses: the security engine -/

/-- The state, piece and command block with which the engine meets the SECALL at strand g. -/
def blockAt (s : State) (g : Nat) (va : Word) : Option (State × Piece × Block) :=
  if va.toNat % 64 != 0 then none
  else
    let r := s.access g va 64 .load .line
    let w := { s with dev := r.2 }.access g va 64 .store .line
    match r.1.1.or w.1.1, w.1.2 with
    | some _, _ => none
    | none, [] => none
    | none, p :: _ =>
      let s := { s with dev := w.2 }
      if !(s.dev.claim p.a.pa).normal then none
      else if !(s.strand g).sb.isEmpty || (s.strand g).psyncing || s.dev.lineBusy (p.a.pa / 64) then none
      else
        let q := s.dev.readLine (s.dev.phys (g / 2)) (p.a.pa / 64) p.a.key p.a.mt (List.range 8)
        if q.poison then none else some ({ s with dev := q.dev }, p, blockOf q.line)

theorem blockAt_spec {s : State} {g : Nat} {va : Word} {u : State} {p : Piece} {b : Block} (h : blockAt s g va = some (u, p, b))
    (f : State → Piece → Block → Flow) : s.secallBlock g va f = f u p b := by
  unfold blockAt at h
  unfold State.secallBlock
  split at h
  · cases h
  · rename_i h1
    rw [if_neg h1]
    dsimp only at h ⊢
    split at h
    · cases h
    · cases h
    · rename_i h2 h3
      try rw [h2, h3]
      try dsimp only
      split at h
      · cases h
      · rename_i h4
        rw [if_neg h4]
        split at h
        · cases h
        · rename_i h5
          rw [if_neg h5]
          split at h
          · cases h
          · rename_i h6
            rw [if_neg h6]
            injection h with h
            injection h with h7 h8
            injection h8 with h8 h9
            subst h7 h8 h9
            rfl

/-- What a witness for a SECALL shows: the strand is ready, and the block that the engine reads has a property. -/
def meets (s : State) (P : State → Block → Bool) : Bool :=
  ready s 0 (secallInsn 0 ⟨3, 1, 0⟩ ((begun s 0).strand 0)) &&
    match blockAt (begun s 0) 0 (((begun s 0).strand 0).getN 1) with
    | some (u, _, b) => P u b
    | none => false

theorem meets_spec {s : State} {P : State → Block → Bool} (h : meets s P = true) :
    ∃ u p b, secallReads s 0 ⟨3, 1, 0⟩ u p b ∧ P u b = true := by
  unfold meets at h
  rw [Bool.and_eq_true] at h
  obtain ⟨h1, h2⟩ := h
  split at h2
  · rename_i u p b hb
    exact ⟨u, p, b, ⟨h1, fun f => blockAt_spec hb f⟩, h2⟩
  · cases h2

/-- A command block of a code, a domain and three arguments, in memory at 0x1000. -/
def blockBytes (code flags dom : Nat) (a0 a1 a2 : Nat) : SMap Byte :=
  let bs := leBytes 1 code ++ leBytes 1 flags ++ leBytes 6 0 ++ leBytes 8 dom ++ leBytes 8 a0 ++ leBytes 8 a1 ++ leBytes 8 a2
  ((List.range 40).zip bs).filterMap fun x => if x.2 = 0 then none else some (0x1000 + x.1, x.2)

/-- Strand 0 at H, or sealed at S inside domain 1 (with a pinned stage-2 entry of page 1 under KEYID 5), gives the command in the block at 0x1000 to an engine that takes commands. -/
def secall (inside : Bool) (bytes : SMap Byte) (f : Dev → Dev) : State :=
  onSD (fun x => { busy x with
      n := [(1, 0x1000)]
      pc := if inside then 0x1100 else x.pc
      tcfg := if inside then 8 else 0
      status := if inside then 0x301 else 0x202
      inside := if inside then some (1, 0) else none })
    fun d => f (((({ d with
      dram := bytes
      initPending := false }.setTlb 0 [.s2 0 1 0 0x100000000014CF (some (0, 0))]).setFld R.LOCK_BOOT_LOCK 1).setFld
        R.POT_BASE_EN 1).setFld R.POT_BASE_BASE 0x40000)

/-- The conditions of `engineOpen`. -/
def openB (u : State) (inside : Bool) : Bool :=
  u.dev.fld R.SE_STATUS_STATE == 1 && u.dev.phase == .running && u.dev.locked && u.dev.flag R.POT_BASE_EN
    && (u.strand 0).sealedB == inside

/-- Domain 1, built or not, with one vCPU that runs or not. -/
def dom1 (built running : Bool) (d : Dev) : Dev :=
  d.setDomain 1 (some ⟨built, [⟨{ Strand.reset with status := 0 }, running, some 4, 0, false⟩], 0x80, 5, some 6, 0, 0x6⟩)

theorem witness_engineOpen (u : State) (inside : Bool) (h : openB u inside = true) : engineOpen u 0 inside := by
  simp only [openB, Bool.and_eq_true, beq_iff_eq] at h
  exact ⟨h.1.1.1.1, h.1.1.1.2, h.1.1.2, h.1.2, h.2⟩

theorem witness_CREATE_counts :
    (∀ n ∈ [1, 512], meets (secall false (blockBytes 1 0 0 n 0x2000 0) id) (fun u b => openB u false && b.code == 1 &&
      !u.dev.fw.randomBad && !u.dev.flag R.SE_STATUS_DEBUG && u.dev.pagesIn b.arg1 b.arg0.toNat 0
      && !u.dev.pagesBusy (pageRun b.arg1 b.arg0.toNat) && b.arg0.toNat == n) = true) ∧
    (∀ n ∈ [0, 513], meets (secall false (blockBytes 1 0 0 n 0x2000 0) id) (fun u b => openB u false && b.code == 1 &&
      !u.dev.flag R.SE_STATUS_DEBUG && b.arg0.toNat == n) = true) ∧
    meets (secall false (blockBytes 1 0 0 1 0x2000 0) fun d => d.setFld R.SE_STATUS_DEBUG 1)
      (fun u b => openB u false && b.code == 1 && u.dev.flag R.SE_STATUS_DEBUG) = true := by decide +kernel

/-- There is a free key slot and a free domain ID. -/
theorem witness_CREATE_free : Dev.reset.freeSlot.isSome = true ∧ Dev.reset.freeDomain.1.isSome = true := by
  constructor
  · unfold Dev.freeSlot
    rw [List.find?_isSome]
    exact ⟨1, by simp, by decide⟩
  · unfold Dev.freeDomain
    rw [List.find?_isSome]
    refine ⟨1 + (Dev.reset.drawWord.1.toNat + 0) % 4095, List.mem_map.mpr ⟨0, by simp, rfl⟩, rfl⟩

theorem witness_SealedDomainsAreBuilt :
    meets (secall false (blockBytes 2 0 1 0x2000 0x3000 7) id)
      (fun u b => openB u false && b.code == 2 && (u.dev.domain b.dom).isNone) = true ∧
    (∀ built, meets (secall false (blockBytes 2 0 1 0x2000 0x3000 7) (dom1 built false))
      (fun u b => openB u false && b.code == 2 && (u.dev.domain b.dom).any (fun m => m.built == built)
        && u.dev.pagesIn b.arg0 1 0 && u.dev.pagesIn b.arg1 1 0
        && !u.dev.pagesBusy [b.arg0.toNat / 4096, b.arg1.toNat / 4096]) = true) ∧
    (∀ built, ∀ n ∈ [1, 256], meets (secall false (blockBytes 3 0 1 0x2000 n 7) (dom1 built false))
      (fun u b => openB u false && b.code == 3 && (u.dev.domain b.dom).any (fun m => m.built == built) && b.arg1.toNat == n
        && u.dev.pagesIn b.arg0 b.arg1.toNat 0 && !u.dev.pagesBusy (pageRun b.arg0 b.arg1.toNat)) = true) ∧
    (∀ built, ∀ flags ∈ [0, 1], meets (secall false (blockBytes 4 flags 1 0 0 0) (dom1 built false))
      (fun u b => openB u false && b.code == 4 && (u.dev.domain b.dom).any (fun m => m.built == built)
        && b.flags % 2 == flags) = true) := by decide +kernel

/-- Pages of domain 1: page 1 holds the command block and the code, page 2 is another, DOMAIN or PENDING, page 3 a third; slot
5 holds the domain's key. -/
def ownPages (st : Nat) (d : Dev) : Dev :=
  { d with
    pot := [(1, ⟨1, 1, 1, 7⟩), (2, ⟨st, 1, 2, 7⟩), (3, ⟨1, 1, 3, 7⟩)]
    slots := [(5, ⟨3, 1, 1⟩)] }

theorem witness_Sealed_ENTER :
    (∀ built running, meets (secall false (blockBytes 5 0 1 0 0 0) (dom1 built running))
      (fun u b => openB u false && b.code == 5 && (u.dev.domain b.dom).any (fun m => m.built == built &&
        (m.vcpus[b.arg0.toNat]?).any fun v => v.running == running && !v.inImage && v.st.status.extractLsb' 0 2 == 0#2)) = true) := by decide +kernel

theorem witness_Sealed_EXIT :
    meets (secall true (blockBytes 10 0 0 0 0 0) fun d => ownPages 1 (dom1 true true d))
      (fun u b => openB u true && b.code == 10 && (u.strand 0).longOps.isEmpty) = true := by decide +kernel

theorem witness_Sealed_TAKE :
    (∀ st ∈ [1, 2], meets (secall true (blockBytes 6 0 0 0x2000 0 0) fun d => ownPages st (dom1 true true d))
      (fun u b => openB u true && (u.ownDomain 0).any (fun q => q.1 == 1) && b.code == 6 && b.arg0.toNat % 4096 == 0
        && (u.dev.pageAt 1 2 (b.arg0.toNat / 4096)).isSome == (st == 2)) = true) := by decide +kernel

theorem witness_Sealed_GIVE :
    meets (secall true (blockBytes 7 0 0 0x2000 0 0) fun d => ownPages 1 (dom1 true true d))
      (fun u b => openB u true && (u.ownDomain 0).any (fun q => q.1 == 1) && b.code == 7 && b.arg0.toNat % 4096 == 0
        && (u.dev.pageAt 1 1 (b.arg0.toNat / 4096)).any fun page => !u.dev.pagesBusy [page]) = true := by decide +kernel

theorem witness_Sealed_REPORT_refused :
    meets (secall true (blockBytes 8 0 0 0x1000 0x800 0) fun d => ownPages 1 (dom1 true true d))
      (fun u b => openB u true && (u.ownDomain 0).isSome && b.code == 8 && b.arg1.toNat % 4096 != 0) = true := by decide +kernel

theorem witness_Sealed_SEALKEY :
    meets (secall true (blockBytes 9 0 0 0xFFFFFFFF 0 0) fun d => ownPages 1 (dom1 true true d))
      (fun u b => openB u true && (u.ownDomain 0).isSome && b.code == 9) = true := by decide +kernel

theorem witness_Sealed_RESUME_none :
    meets (secall false (blockBytes 11 0 1 0 0 0) id) (fun u b => openB u false && b.code == 11 && (u.dev.domain b.dom).isNone) = true := by decide +kernel

theorem witness_Sealed_DESTROY :
    (∀ running, meets (secall false (blockBytes 11 0 1 0 0 0) (dom1 true running))
      (fun u b => openB u false && b.code == 11 && (u.dev.domain b.dom).any (fun m => m.vcpus.any fun v => v.running == running)
        && !u.dev.pagesBusy (u.dev.pagesOf b.dom [1, 2])) = true) := by decide +kernel

theorem witness_Sealed_RECLAIM :
    meets (secall false (blockBytes 12 0 0 0x2000 1 0) fun d => { d with pot := [(2, ⟨3, 1, 0, 0⟩)] })
      (fun u b => openB u false && b.code == 12 && u.dev.pagesIn b.arg0 b.arg1.toNat 3
        && !u.dev.pagesBusy (pageRun b.arg0 b.arg1.toNat)) = true := by decide +kernel

theorem witness_Sealed_DEBUG_none :
    meets (secall false (blockBytes 13 0 1 0 0 0) id) (fun u b => openB u false && b.code == 13 && (u.dev.domain b.dom).isNone) = true := by decide +kernel

theorem witness_Sealed_DEBUG :
    meets (secall false (blockBytes 13 0 1 0 0 0) (dom1 true true))
      (fun u b => openB u false && b.code == 13 && (u.dev.domain b.dom).isSome) = true := by decide +kernel

/-- REPORT into the domain's own page 2 and the page after it. -/
theorem witness_REPORT :
    meets (secall true (blockBytes 8 0 0 0x1000 0x2000 0) fun d => ownPages 1 (dom1 true true d))
      (fun u b => openB u true && (u.ownDomain 0).any (fun q => q.1 == 1) && b.code == 8 && b.arg0.toNat % 64 == 0
        && b.arg1.toNat % 4096 == 0 && (u.dev.domainLine 1 (b.arg0.toNat / 64)).isSome
        && (((List.range 128).map fun i => b.arg1.toNat / 64 + i).filterMap (u.dev.domainLine 1)).length == 128
        && u.dev.txns.isEmpty) = true := by decide +kernel

/-! ### Witnesses: mailboxes and attestation -/

/-- A request of a code waits in a mailbox of an engine in a state. -/
def boxed (code : Nat) (q : List Byte) (st : Nat) : Dev :=
  ((((State.reset.dev.setBox .se { State.reset.dev.seBox with buf := bufOf q }).setFld R.MB_STATUS_BUSY 1).setFld R.MB_CMD_CODE
    code).setFld R.MB_CMD_LENGTH q.length).setFld R.SE_STATUS_STATE st

/-- The command waits, and the engine takes commands. -/
def waitsFor (d : Dev) (code : Nat) : Bool := d.boxWaits .se code && d.fld R.SE_STATUS_STATE == 1

theorem witness_mailboxProtocol :
    reqOk (.strand 511) = true ∧ reqOk .other = true ∧ ((onS busy).strand 0).pl = 2 ∧
    (∀ b ∈ [Box.se, .stw], ((onS busy).dev.box b).claimer = none) ∧ (onS busy).atH .other = false ∧ (onS busy).atH (.strand 0) = true ∧
    ((Dev.reset.setBox .stw { Dev.reset.stwBox with claimer := some (.strand 0) }).box .stw).claimer = some (.strand 0) ∧
    (0x4000#64).getLsbD 14 = true ∧ (Dev.reset.setFld R.SMB_STATUS_QUEUED 1).flag R.SMB_STATUS_QUEUED = true ∧
    Dev.reset.flag R.SMB_STATUS_QUEUED = false ∧ (255 : Nat) < 256 := by decide

theorem witness_engineMailbox :
    Dev.reset.boxWaits .se 0x20 = false ∧
    (∀ k ∈ [0x20, 0x21, 0x30, 0x31, 0x40, 0x41, 0x60, 0x61],
      (boxed k [] 3).boxWaits .se k = true ∧ (boxed k [] 3).fld R.SE_STATUS_STATE = 3 ∧
      (boxed k [] 2).boxWaits .se k = true ∧ (boxed k [] 2).fld R.SE_STATUS_STATE = 2 ∧ waitsFor (boxed k [] 1) k = true) ∧
    engineCommand .keyGenerate 0x20 := by
  refine ⟨by decide, by decide, .inl ⟨rfl, rfl⟩⟩

/-- KEY_GENERATE and KEY_CLEAR of slots 0, 5 and 65,535. -/
theorem witness_KEY_GENERATE :
    (∀ x ∈ [0x10000 + 5, 0x20000 + 65535], let d := boxed 0x20 (leBytes 8 x) 1
      waitsFor d 0x20 = true ∧ d.fw.randomBad = false ∧ (d.boxRequest .se).length = 8 ∧ leNat (d.boxRequest .se) = x ∧ x < 2 ^ 24 ∧
      (x / 65536 = 1 ∨ x / 65536 = 2) ∧ (d.slot (x % 65536)).cls = 0 ∧
      ((d.setSlot (x % 65536) ⟨1, 1, 0⟩).slot (x % 65536)).cls ≠ 0) ∧
    (let d := { boxed 0x20 [] 1 with fw := { Dev.reset.fw with randomBad := true } }
     waitsFor d 0x20 = true ∧ d.fw.randomBad = true) := by decide

theorem witness_KEY_CLEAR :
    (∀ x ∈ [0, 5], let d := boxed 0x21 (leBytes 8 x) 1
      waitsFor d 0x21 = true ∧ (d.boxRequest .se).length = 8 ∧ leNat (d.boxRequest .se) = x ∧
      ((d.setSlot x ⟨1, 1, 0⟩).slot x).cls = 1 ∧ ((d.setSlot x ⟨2, 1, 0⟩).slot x).cls = 2) ∧
    ((boxed 0x21 (leBytes 8 5) 1).slot 5).cls = 0 := by decide

/-- A soft entry of the first place of the repair list, and fuse spares. -/
def softRepair (free : Nat) (d : Dev) : Dev :=
  { d with repairs := [⟨1, 0, 0, 0, 0, 0, 0, false, false, 0⟩] }.setFld R.REPAIR_STATUS_FUSE_FREE free

theorem witness_FUSE_SESSION :
    (∀ n ∈ [1, 2], let d := softRepair n (boxed 0x31 (leBytes 2 0) 1)
      waitsFor d 0x31 = true ∧ d.boxRequest .se = leBytes 2 0 ∧ (d.repairs[0]?).isSome = true ∧
      d.repairs[0]?.all (fun r => !r.fused && decide (1 ≤ r.typ) && decide (r.typ ≤ 3)) = true ∧ d.phase ≠ .drain ∧
      d.railsBad = false ∧ d.fld R.REPAIR_STATUS_FUSE_FREE = n) ∧
    (0#64).getLsbD 0 = false ∧ (1#64).getLsbD 0 = true ∧
    (let d := { boxed 0x31 (leBytes 2 0) 1 with phase := .drain }
     waitsFor d 0x31 = true ∧ d.phase = .drain ∧ (d.boxRequest .se).length = 2) := by decide

theorem witness_DEBUG_UNLOCK :
    (let d := boxed 0x41 [] 1
     let s := onSD (fun x => { x with status := 0x301 }) fun _ => d
     waitsFor s.dev 0x41 = true ∧ (s.strand 0).sealedB = true) ∧
    (let s := onD fun _ => { boxed 0x41 [] 1 with fw := { Dev.reset.fw with nonce := some (leBytes 32 7) } }
     waitsFor s.dev 0x41 = true ∧ (s.strands.any fun kv => kv.2.sealedB) = false ∧ s.dev.fw.nonce.isSome = true) := by decide

theorem witness_LINK_SECRET_IDE_KEYS :
    (let d := boxed 0x60 [] 1
     waitsFor d 0x60 = true ∧ d.fw.randomBad = false ∧ d.locked = false ∧ (d.setFld R.LOCK_BOOT_LOCK 1).locked = true
       ∧ waitsFor (d.setFld R.LOCK_BOOT_LOCK 1) 0x60 = true) ∧
    (∀ q ∈ [[79#8, 4#8, 1#8], [80#8, 0#8, 1#8], [0#8, 5#8, 1#8]], let d := boxed 0x61 q 1
      waitsFor d 0x61 = true ∧ d.boxRequest .se = q) := by decide

theorem witness_attestation :
    Dev.reset.fld R.SE_STATUS_STATE = 1 ∧ (boxed 0x50 [] 1).boxWaits .se 0x50 = true ∧
    (∀ ch ∈ [Channel.mailbox, .mctp, .pfMailbox], Dev.reset.turnedAway ch = false ∧
      (Dev.reset.setSpdm ch 3).turnedAway ch = true) ∧
    (1 : Nat) ≤ 5 ∧ (0 = 0 ∨ 6 < (0 : Nat)) ∧ (7 = 0 ∨ 6 < (7 : Nat)) := by decide

theorem witness_engineHaltAndHealth :
    (∀ st ∈ [0, 1, 2, 3], (Dev.reset.setFld R.SE_STATUS_STATE st).fld R.SE_STATUS_STATE = st) ∧
    (boxed 0x20 [] 1).flag R.MB_STATUS_BUSY = true ∧ (boxed 0x20 [] 1).fld R.SE_STATUS_STATE = 1 := by decide

/-! ### Witnesses: the cushion, resets, clocks -/

theorem witness_cushionEntry :
    Dev.reset.phase = .running ∧ reqOk .other = true ∧ (0x15A#64).extractLsb' 0 9 = 0x15A#9 ∧ (0x15B#64).extractLsb' 0 9 ≠ 0x15A#9 ∧
    9 < 10 ∧ (Dev.reset.setFld R.CUSHION_CTL_BROWNOUT_EN 1).flag R.CUSHION_CTL_BROWNOUT_EN = true ∧
    (Dev.reset.setFld R.CUSHION_CTL_BROWNOUT_EN 0).flag R.CUSHION_CTL_BROWNOUT_EN = false ∧ ({ Dev.reset with phase := .off } : Dev).phase ≠ .drain := by decide

/-- Strands of a drain: every one has halted. -/
def haltedAll : SMap Strand := (List.range 512).map fun g => (g, { Strand.reset with halted := true })

/-- A drain with a report of some phases, and steps due and started. -/
def drained (phases due started : Nat) (d : Dev) : Dev :=
  { d with
    phase := .drain
    drainSeq := 3
    drain := some { report := { seqn := 3, phases := phases, lines := [⟨64, true, false, false, false, 0⟩] }
                    due := due
                    started := started } }

/-- The same, with every strand halted or as after reset. -/
def inDrain (phases due started : Nat) (halted : Bool) : State :=
  { State.reset with
    strands := if halted then haltedAll else []
    dev := drained phases due started Dev.reset }

theorem haltedAll_strand (d : Dev) (g : Nat) (h : g < 512) :
    (State.strand { State.reset with
      strands := haltedAll
      dev := d } g).halted = true := by
  have key : ∀ l : List Nat, g ∈ l →
      SMap.get (fun _ => Strand.reset) (l.map fun g => (g, { Strand.reset with halted := true })) g = { Strand.reset with halted := true } := by
    intro l
    induction l with
    | nil => simp
    | cons a l ih =>
      intro hm
      rw [List.map_cons, SMap.get]
      split
      · rfl
      · rename_i hne
        exact ih ((List.mem_cons.mp hm).resolve_left hne)
  unfold State.strand haltedAll
  dsimp only
  rw [key _ (List.mem_range.mpr h)]

/-- With every strand halted, every core has halted. -/
theorem haltedAll_all (d : Dev) :
    State.allHalted { State.reset with
      strands := haltedAll
      dev := d } = true := by
  unfold State.allHalted State.coreHalted
  rw [List.all_eq_true]
  intro l hl
  have hl := List.mem_range.mp hl
  rw [haltedAll_strand d _ (by omega), haltedAll_strand d _ (by omega)]
  simp

theorem witness_strandHalt :
    (∀ g ∈ [0, 511], let s := inDrain 0 0 0 false
      s.dev.coreThere (g / 2) = true ∧ (s.strand g).halted = false ∧ s.mayHalt g = true ∧ s.dev.imageKept g = false ∧
      (s.strand g).sealedB = false ∧ (s.strand g).shadow = none) ∧
    (let d := (inDrain 0 0 0 false).dev.setImage 0 (some ⟨Strand.reset, Dev.reset.pm 0, false, true, false, 0, 0, false, false, true⟩)
     (d.setFld R.RESUME_INFO_IMAGES_HELD 1).imageKept 0 = true) := by decide

theorem witness_drainSteps :
    (∀ b ∈ [0, 1, 2], (7 : Nat).testBit b = true ∧ (0 : Nat).testBit b = false) ∧ 7 ≠ Dev.reset.self ∧
    Dev.reset.drain = none := by decide

theorem witness_peatDone :
    let s := inDrain 0 1 1 true
    (∃ r, s.dev.drain = some r ∧ r.started.testBit 0 = true ∧ r.peatDone.testBit s.dev.self = false) ∧
    s.peatSettled false = true := by
  have h : (inDrain 0 1 1 true).allHalted = true := haltedAll_all _
  refine ⟨⟨_, rfl, by decide, by decide⟩, ?_⟩
  unfold State.peatSettled
  rw [h]
  decide +kernel

theorem witness_p2Deadline :
    (let d := (inDrain 0 1 1 false).dev
     ({ d with drain := d.drain.map fun r => { r with peatDone := 1 } } : Dev).drain.any fun r =>
       r.peatDone.testBit d.self) = true := by decide

/-- RETAIN_ARM is set in the report (bit 6): channels 0 to 15 are live, and all are in self-refresh or none is. -/
theorem witness_drainReports :
    (inDrain 64 2 2 true).allHalted = true ∧
    ((drained 64 2 2 Dev.reset).drain.any fun r => r.started.testBit 1 && !r.dramDone.testBit Dev.reset.self
      && r.report.phases.testBit 6 && !r.report.phases.testBit 5) = true ∧
    (drained 64 2 2 Dev.reset).dramWriteBack.dramDirty = false ∧
    (∀ n ∈ [0, 15], ((drained 64 2 2 Dev.reset).setFld (mcReg R.MC_STATUS_STATE n) 2).mcLive n = true) ∧
    (let d := (drained 64 2 2 Dev.reset).setFld R.CUSHION_CTL_RETAIN_ARM 1
     let d : Dev := { d with drain := d.drain.map fun r => { r with report := { r.report with selfRefresh := 65535 } } }
     d.flag R.CUSHION_CTL_RETAIN_ARM = true ∧ (d.drain.any fun r =>
       (d.liveChannels.all fun n => r.report.selfRefresh.testBit n) && !r.report.phases.testBit 7) = true) ∧
    Dev.reset.flag R.CUSHION_CTL_RETAIN_ARM = false ∧ ((drained 32 0 0 Dev.reset).drain.any fun r => r.report.phases.testBit 5) = true := by
  refine ⟨haltedAll_all _, ?_⟩
  decide +kernel

/-- Strand g's image, as a retained resume keeps it; software holds the lock. -/
def kept (g path : Nat) (restored withdrawn : Bool) : Dev :=
  ((Dev.reset.setImage g (some ⟨Strand.reset, Dev.reset.pm 0, false, false, false, 0, 0, restored, false, withdrawn⟩)).setFld
    R.LOCK_BOOT_LOCK 1).setFld R.RESUME_INFO_PATH path

theorem witness_imagesAreRestoredOnce :
    (0x11FF#64).getLsbD 12 = true ∧ ((0x11FF#64).extractLsb' 0 9).toNat = 511 ∧ ((0x11FF#64).extractLsb' 9 3).toNat = Dev.reset.self ∧
    ((0x1E00#64).extractLsb' 9 3).toNat ≠ Dev.reset.self ∧ (0x0#64).getLsbD 12 = false ∧ Dev.reset.locked = false ∧
    (Dev.reset.setFld R.LOCK_BOOT_LOCK 1).locked = true ∧ (Dev.reset.setFld R.LOCK_BOOT_LOCK 1).image 511 = none ∧
    (∀ path ∈ [0, 1, 2], ∀ restored withdrawn, let d := kept 511 path restored withdrawn
      d.locked = true ∧ d.coreThere 255 = true ∧ d.fld R.RESUME_INFO_PATH = path ∧
      (d.image 511).map (fun i => (i.restored, i.withdrawn)) = some (restored, withdrawn)) ∧
    (State.reset.strand 511).parked = true ∧ (State.reset.strand 0).parked = false ∧
    (0x400000#64).getLsbD 22 = true := by decide

theorem witness_blockInit :
    2 ^ 26 - 1 < 2 ^ 26 ∧ Dev.reset.initPending = true ∧ Dev.reset.homeOf (0 * 2 ^ 14) = some Dev.reset.self := by decide +kernel

theorem witness_resets :
    Dev.reset.phase ≠ .off ∧ (sH.strand 0).pl = 2 ∧ (sU.strand 0).pl ≠ 2 ∧ (0xC34000#64).extractLsb' 16 8 = 0xC3#8 ∧
    (0xC34000#64).getLsbD 14 = true ∧ (0xC32000#64).getLsbD 13 = true ∧ (0xC32000#64).getLsbD 14 = false ∧
    (0x6000#64).extractLsb' 16 8 ≠ 0xC3#8 ∧ sH.dev.fld R.CHAIN_STATUS_PRESENT = 2 ^ sH.dev.self ∧
    (sH.dev.setFld R.CHAIN_STATUS_PRESENT 3).fld R.CHAIN_STATUS_PRESENT ≠ 2 ^ sH.dev.self ∧
    ((0x1E00#64).extractLsb' 9 3).toNat ≠ sH.dev.self ∧
    ((sH.dev.setPm 0 { sH.dev.pm 0 with active := true }).pm (1 / 2)).active = true ∧
    sH.dev.portAnswers = true ∧ sH.dev.phase ≠ .booting ∧ sH.dev.phase ≠ .stopped := by decide

/-- Resets of strands 0, 1 and 511. -/
theorem witness_strandReset :
    (0x11FF#64).extractLsb' 12 3 = 1#3 ∧ ((0x11FF#64).extractLsb' 9 3).toNat = Dev.reset.self ∧
    ((0x11FF#64).extractLsb' 0 9).toNat = 511 ∧
    Dev.reset.coreThere 0 = true ∧ Dev.reset.coreThere 255 = true ∧ (State.reset.strand 511).sealedB = false ∧
    (State.reset.strand 1).sealedB = false ∧ (Dev.reset.pm 255).active = false ∧ (Dev.reset.pm 255).holdsWake = false ∧
    (Dev.reset.pm 0).active = false ∧ (Dev.reset.pm 0).holdsWake = false := by decide

/-- A power-up whose rails and images are good, in a system of one socket. -/
def goodPower (cold : Bool) : PowerUpIn :=
  ⟨cold, true, true, true, 0, 0, 1, true, true, true, false, 0xFFFF, 0xFFFF, 8, 0, 1⟩

/-- The device is off, or drained, with a drain report that allows a retained resume, or with none. -/
def slept (phase : Phase) (report : Bool) : Dev :=
  ({ Dev.reset with
      phase := phase
      drainSeq := if report then 1 else 0
      reports := if report then [(1, { seqn := 1, phases := 192, complete := true })] else [] }).setFld
    R.CUSHION_STATUS_RETAIN_HELD 1

theorem witness_powerUpAndResume :
    (∀ cold, goodStart Dev.reset (goodPower cold)) ∧
    (∀ phase ∈ [Phase.off, .drained], ∀ report, let d := slept phase report
      d.phase = phase ∧ d.flag R.CUSHION_STATUS_PWRFAIL = false ∧ d.drain = none ∧ d.badStart = false ∧
      d.mayRetain (goodPower false) = report ∧ (goodPower false).cold = false ∧
      (d.setFld R.CUSHION_STATUS_PWRFAIL 0).mayRetain (goodPower false) = report) ∧
    ({ goodPower true with railsOk := false } : PowerUpIn).railsOk = false ∧
    ((slept .off false).setFld R.CUSHION_STATUS_PWRFAIL 1).flag R.CUSHION_STATUS_PWRFAIL = true := by
  refine ⟨?_, by decide +kernel, by decide, by decide⟩
  intro cold
  unfold goodStart
  revert cold
  decide

/-- Core 3 of the last logical core idles with both its strands parked. -/
theorem witness_clockLossAndDeepPark :
    Dev.reset.flag R.CLK_STATUS_REFCLK_OK = true ∧ Dev.reset.phase = .running ∧
    (Dev.reset.setFld R.CLK_STATUS_REFCLK_OK 0).flag R.CLK_STATUS_REFCLK_OK = false ∧
    State.reset.mayDeepPark 287 = false ∧
    (onD fun d => (d.setFld R.PWR_CTL_DEEP_EN 1).setFld (R.CORE_PWR_STATE.at (8 * 255)) 2).mayDeepPark 255 = true := by decide

theorem witness_tileClocks :
    let clk (f : Field) (t : Nat) : Field := f.at (8 * t)
    Dev.reset.flag R.CLK_STATUS_REFCLK_OK = true ∧ Dev.reset.vidWait.contains 196 = false ∧
    (Dev.reset.setFld (clk R.TILE_CLK_SETTLING 143) 1).flag (clk R.TILE_CLK_SETTLING 143) = true ∧
    (let d := { Dev.reset with vidWait := [143] }
     (∀ t ∈ d.vidWait, t < 144) ∧ d.vidTiles 3 = [143] ∧ d.vidTiles 0 = [] ∧ d.vidWait.contains 143 = true) ∧
    Dev.reset.wattLimit < 1051 ∧ Dev.reset.tileRuns 0 = true ∧ Dev.reset.flag (clk R.TILE_CLK_PINNED 0) = false ∧
    16 < Dev.reset.clkAt 0 ∧ Dev.reset.wattLimit ≤ Dev.reset.wattLimit ∧ 97 * Dev.reset.wattLimit ≤ 100 * Dev.reset.wattLimit ∧
    Dev.reset.tjLimit < 255 ∧ 255 < 256 ∧ 16 < Dev.reset.clkAt 143 := by decide


/-! ### Witnesses: errors, transplant, self-test -/

/-- A duty of software's, bit n. -/
def dutyOn (n : Nat) (d : Dev) : Dev := d.setFld R.DUTY_FUNC (2 ^ n)

/-- A log of some records: head, tail and FULL. -/
def logged (h t full : Nat) : Dev :=
  ((Dev.reset.setFld R.ERR_HEAD_INDEX h).setFld R.ERR_TAIL_INDEX t).setFld R.ERR_HEAD_FULL full

theorem witness_errTail :
    ((0x3FF#64).extractLsb' 0 10).toNat = 1023 ∧ (logged 0 1023 0).unread = 1 ∧ (logged 5 5 1).unread = 1024 ∧
    (logged 5 5 1).flag R.ERR_HEAD_FULL = true ∧ (logged 5 5 1).fld R.ERR_HEAD_INDEX = (logged 5 5 1).fld R.ERR_TAIL_INDEX ∧
    (0 < (3 + 1024 - (logged 4 1 0).fld R.ERR_TAIL_INDEX) % 1024 ∧
      (3 + 1024 - (logged 4 1 0).fld R.ERR_TAIL_INDEX) % 1024 ≤ (logged 4 1 0).unread) ∧
    (logged 4 1 0).unread < (5 + 1024 - (logged 4 1 0).fld R.ERR_TAIL_INDEX) % 1024 := by decide

theorem witness_eventsBucketsRoutes :
    Dev.reset.evHeld = 0 ∧ ({ Dev.reset with evHeld := 1 } : Dev).evHeld ≠ 0 ∧ Dev.reset.frame.toNat % 65536 = 0 ∧
    SMap.wf (fun _ => ({} : ErrUnit)) Dev.reset.units = true ∧
    SMap.wf (fun _ => ({} : ErrUnit)) (Dev.reset.setUnit 7 3 { bucket := 9 }).units = true ∧
    263 < 264 ∧ SMap.get (fun _ => false) Dev.reset.routes 263 = false ∧
    SMap.get (fun _ => false) ({ Dev.reset with routes := [(263, true)] } : Dev).routes 263 = true := by decide

theorem witness_confirmationTest :
    (let d := Dev.reset.setUnit 4 0 { candidate := true }
     d.underTest 4 0 = true ∧ d.thirdCandidacy 4 0 = false ∧ Dev.reset.underTest 4 0 = false) ∧
    Dev.reset.underTest 7 0 = true ∧ Dev.reset.thirdCandidacy 7 0 = false ∧ Dev.reset.duty 8 = false ∧
    (dutyOn 8 Dev.reset).duty 8 = true ∧ Dev.reset.repairs.length < 16384 := by decide

/-- Physical core 287, which is a spare of a kind. -/
def spared (st : Nat) (d : Dev) : Dev := d.setFld (R.CORE_STATE_STATE.at (8 * 287)) st

theorem witness_mayMove :
    (let s := onSD (fun x => { x with parked := true }) fun d => d
     s.dev.fld (R.CORE_STATE_LOGICAL.at 0) = 0 ∧ mayMove s 0 = true ∧ s.dev.clocksOk = true ∧ s.dev.duty 5 = false) ∧
    mayMove State.reset 287 = false ∧ (dutyOn 5 Dev.reset).duty 5 = true := by decide

/-- Every core is in service. -/
def allServe : Dev :=
  { Dev.reset with regs := (List.range 288).map fun c => ((R.CORE_STATE_STATE.at (8 * c)).reg, 1) }

theorem allServe_state (c : Nat) (h : c < 288) : allServe.coreState c = 1 := by
  have key : ∀ l : List Nat, c ∈ l →
      SMap.get (β := Word) coldValue (l.map fun c => ((R.CORE_STATE_STATE.at (8 * c)).reg, 1)) (R.CORE_STATE_STATE.at (8 * c)).reg = 1 := by
    intro l
    induction l with
    | nil => simp
    | cons a l ih =>
      intro hm
      rw [List.map_cons, SMap.get]
      split
      · rfl
      · rename_i hne
        refine ih ((List.mem_cons.mp hm).resolve_left fun h => hne (by rw [h]))
  unfold Dev.coreState Dev.fld Dev.reg allServe
  dsimp only
  rw [key _ (List.mem_range.mpr h)]
  simp [Field.get, Field.at, R.CORE_STATE_STATE, getF]

theorem witness_noSpare (st : Nat) (h : st ≠ 1) : allServe.pickSpare 0 st = none := by
  have go : ∀ l : List Nat, (∀ x ∈ l, x < 288) →
      l.foldl (fun (best : Option Nat) x =>
        if allServe.coreState x != st then best
        else
          match best with
          | none => some x
          | some b =>
            if (if frondOf x == frondOf 0 then 0 else 100) + coreDist 0 x < (if frondOf b == frondOf 0 then 0 else 100) + coreDist 0 b
            then some x else best) none = none := by
    intro l
    induction l with
    | nil => intro _; rfl
    | cons a l ih =>
      intro hl
      rw [List.foldl_cons, allServe_state a (hl a (List.mem_cons_self ..)), if_pos (by simp [Ne.symm h])]
      exact ih fun x hx => hl x (List.mem_cons_of_mem _ hx)
  unfold Dev.pickSpare
  dsimp only
  exact go (List.range 288) fun x hx => List.mem_range.mp hx

/-- Core 287 is the one warm spare. -/
theorem witness_warmSpare : (spared 3 allServe).pickSpare 0 3 = some 287 := by decide +kernel

theorem witness_xplantGo :
    (0x51F#64).getLsbD 9 = false ∧ (0x51F#64).getLsbD 10 = true ∧ ((0x51F#64).extractLsb' 0 9).toNat = 287 ∧
    (spared 3 Dev.reset).coreState 287 = 3 ∧ Dev.reset.coreState 0 = 1 ∧
    (let d := (dutyOn 5 (Dev.reset.setFld R.XPLANT_STATUS_CANDIDATE 1)).setFld (R.CORE_STATE_STATE.at 0) 5
     d.duty 5 = true ∧ d.flag R.XPLANT_STATUS_CANDIDATE = true ∧ d.fld R.XPLANT_STATUS_SOURCE = 0 ∧ d.unreadable = 0 ∧
     d.coreState 0 = 5 ∧ d.fld (R.CORE_STATE_LOGICAL.at 0) < 256) := by decide

theorem witness_sourceCoreTest :
    (let d := { Dev.reset with xplant := [⟨287, 0⟩] }
     (d.xplant.any fun x => x.source == 287) = true ∧ d.sourceClean 287 = true) ∧
    (Dev.reset.xplant.any fun x => x.source == 287) = false := by decide

/-- Groups 1 and 22 of the injection registers: an arming that is taken, and one refused by the lock. -/
theorem witness_injectionArm :
    reqOk (.strand 0) = true ∧ (1#64).getLsbD 0 = true ∧
    Dev.reset.armRefused 1 = false ∧ ((Dev.reset.setFld R.LOCK_BOOT_LOCK 1).setFld R.SELFTEST_CTL_INJ_POLICY 0).armRefused 1 = true ∧
    (Dev.reset.setFld (injReg R.INJ_SEL_INSTANCE 22) 1).armRefused 22 = false ∧ Dev.reset.armRefused 22 = true := by decide

/-- Engine k is on, and software holds the slices or does not. -/
def slicing (k : Nat) (duty : Bool) (go : Option Nat) : Dev :=
  let d := (Dev.reset.setFld (R.SLICE_CTL_EN.at (0x40 * k)) 1).setEngine k { go := go }
  if duty then dutyOn 8 d else d

theorem witness_sliceTest :
    (∀ k ∈ [0, 5], let d := slicing k false none
      d.flag (R.SLICE_CTL_EN.at (0x40 * k)) = true ∧ d.phase = .running ∧ d.duty 8 = false ∧ d.clocksOk = true ∧
      d.repairs.length < 16384) ∧
    (∀ k ∈ [0, 5], let d := slicing k true (some 7)
      d.flag (R.SLICE_CTL_EN.at (0x40 * k)) = true ∧ d.duty 8 = true ∧ (d.engine k).go = some 7) ∧
    ((slicing 5 true none).engine 5).go = none ∧ Dev.reset.sparesUsed 1 3 2 0 < spareRows 3 ∧
    ((slicing 0 false none).setFld (R.SLICE_STATUS_POSITION.at 0) 85863).fld (R.SLICE_STATUS_POSITION.at 0) + 1 = sliceTotal 0 := by
  decide +kernel

theorem witness_sliceCommands :
    (0x1FFFFFF#64).extractLsb' 25 2 = 0#2 ∧ (0x1FFFFFF#64).getLsbD 24 = true ∧
    ((0x1FFFFFF#64).extractLsb' 0 24).toNat = 0xFFFFFF ∧ ((0x1000005#64).extractLsb' 0 24).toNat ≠ 0xFFFFFF ∧
    ((Dev.reset.setFld (R.SLICE_STATUS_DUE.at 0x140) 1).flag (R.SLICE_STATUS_DUE.at (0x40 * 5)) = true) ∧
    (0x2000000#64).extractLsb' 24 3 = 2#3 ∧ (0x4000000#64).extractLsb' 24 3 = 4#3 ∧ (0x2000000#64).getLsbD 24 = false ∧
    (let d := (Dev.reset.setFld (R.SLICE_FAIL_VALID.at 0x140) 1).setEngine 5 { held := .row 3 2 0 9 }
     d.flag (R.SLICE_FAIL_VALID.at (0x40 * 5)) = true ∧ (d.engine 5).held = .row 3 2 0 9) ∧
    Dev.reset.flag (R.SLICE_FAIL_VALID.at 0) = false := by decide

/-! ### Witnesses: Frahal links, memory channels -/

/-- Link n is enabled, in a state. -/
def linked (n st : Nat) (d : Dev) : Dev := (d.setFld (flReg R.FL_CTL_EN n) 1).setFld (flReg R.FL_STATUS_STATE n) st

theorem witness_FrahalLinks :
    (∀ n ∈ [0, 7], let d := linked n 2 Dev.reset
      d.flag (R.FL_CTL_EN.at (0x40000 * n)) = true ∧ d.fld (R.FL_STATUS_STATE.at (0x40000 * n)) ≠ 6 ∧
      d.flag (R.FL_CTL_SPARE.at (0x40000 * n)) = false ∧ d.linkIn n = false ∧ (linked n 3 Dev.reset).linkIn n = true) ∧
    (linked 7 6 Dev.reset).fld (R.FL_STATUS_STATE.at (0x40000 * 7)) = 6 ∧ (linked 0 3 Dev.reset).clocksOk = true ∧ 23 < 24 ∧
    ((linked 0 3 Dev.reset).link 0).replayRun < 3 ∧ ((linked 0 3 Dev.reset).link 0).tagRun < 2 ∧
    2 ≤ (((linked 0 3 Dev.reset).setLink 0 { tagRun := 2 }).link 0).tagRun ∧
    (∀ i ∈ [0, 23], let d := (linked 7 3 Dev.reset).setLink 7 { candidateLane := some i }
      (d.link 7).candidateLane = some i ∧ (d.unitAt 1 (24 * 7 + i)).retired = false) ∧
    ((linked 0 3 Dev.reset).link 0).candidateLane = none ∧ (1#64).getLsbD 0 = true ∧ 7 ≠ Dev.reset.self := by decide

/-- Port 0 of channel 0 regulates, with credits or none, and takes all or not. -/
def regulated (cr work : Nat) : Dev :=
  (Dev.reset.setChan 0 { ports := [(Dev.reset.fld R.GROUP_PORT_PORTS % 16, word (2 ^ 28 + 2 ^ 27 * work))] }).setFld
    (R.PORT_STATUS_CREDITS.at (8 * (Dev.reset.fld R.GROUP_PORT_PORTS % 16))) cr

theorem witness_regulatorRules :
    (∀ cr ∈ [0, 1], ∀ work ∈ [0, 1], let d := regulated cr work
      let p := d.fld ⟨R.GROUP_PORT_PORTS.reg, 0, 4⟩
      (SMap.get (fun _ => 0) (d.chan 0).ports p).getLsbD 28 = true ∧ d.phase ≠ .drain ∧
      d.fld (R.PORT_STATUS_CREDITS.at (8 * p)) = cr ∧ p ∉ (d.chan 0).starved) ∧
    (SMap.get (fun _ => 0) (Dev.reset.chan 0).ports (Dev.reset.fld ⟨R.GROUP_PORT_PORTS.reg, 0, 4⟩)).getLsbD 28 = false := by
  decide

theorem witness_channelReadsAndWrites :
    lineOk 64 = true ∧ 15 < 16 ∧ 65535 < 65536 ∧ Dev.reset.clocksOk = true ∧ Dev.reset.dramHere 64 = true ∧
    Dev.reset.slotMc (Dev.reset.place 64).1 < 16 ∧ Dev.reset.dramHere (2 ^ 45) = false ∧
    Dev.reset.acceptReq (Dev.reset.slotMc (Dev.reset.place 64).1) 15 = (true, Dev.reset) ∧ Dev.reset.isFenced 64 = false ∧
    Dev.reset.unmoved (Dev.reset.slotGranule 64).1 (Dev.reset.slotGranule 64).2 = false ∧ (Dev.reset.slot 0).cls ≠ 0 ∧
    ((regulated 0 0).acceptReq 0 0).1 = false := by decide +kernel

/-- Channel n is live. -/
def live (n : Nat) (d : Dev) : Dev := d.setFld (mcReg R.MC_STATUS_STATE n) 2

theorem witness_channelMaintenance :
    (∀ n ∈ [0, 15], (live n Dev.reset).mcLive n = true ∧ (live n Dev.reset).clocksOk = true ∧
      ((live n Dev.reset).setFld (mcReg R.MC_STATUS_STATE n) 5).mcLive n = false) ∧
    (live 0 Dev.reset).phase = .running ∧ (live 0 Dev.reset).pauseSlot 0 = true ∧ (live 0 Dev.reset).duty 2 = false ∧
    (((dutyOn 2 (live 15 Dev.reset)).setChan 15 { owed := true, pauseSlot := true }).chan 15).owed = true ∧
    (2, 9) ∉ ((live 0 Dev.reset).chan 0).heldRow ∧
    rowCount 9 (activate 9 []) < Dev.reset.guardThreshold 0 ∧
    (let d := (dutyOn 3 (live 0 Dev.reset)).setBankRows 0 2 [⟨9, 65535⟩]
     d.guardThreshold 0 ≤ rowCount 9 (activate 9 ((d.chan 0).bankRows 2)) ∧ d.duty 3 = true ∧ (d.chan 0).heldRow.length ≤ 8 ∧
     (live 0 Dev.reset).duty 3 = false) ∧
    8 < (((live 0 Dev.reset).setChan 0 { heldRow := (List.range 9).map fun k => (0, k) }).chan 0).heldRow.length ∧
    rowCount 9 [⟨9, 65534⟩] = 65534 ∧ (0x10000#64).getLsbD 16 = true ∧
    (let d := dutyOn 2 (Dev.reset.setFld (R.RETRAIN_STATUS_DUE.at (0x40000 * 15)) 1)
     d.duty 2 = true ∧ d.flag (R.RETRAIN_STATUS_DUE.at (0x40000 * 15)) = true) ∧
    Dev.reset.frame.toNat % 32000 = 2000 * 0 ∧ Dev.reset.frame.toNat % 32000 ≠ 2000 * 15 ∧ (0x10000000#64).getLsbD 28 = true ∧
    ((Dev.reset.setChan 15 { heldRow := [(511, 262143)] }).chan 15).heldRow = (511, 262143) :: [] := by decide

/-- The patrol of channel n runs, or waits at a line it found bad. -/
def patrolling (n waits : Nat) : Dev :=
  ((live n Dev.reset).setFld (mcReg R.SCRUB_CTL_EN n) 1).setFld (mcReg R.SCRUB_STATUS_WAITING n) waits

theorem witness_patrolScrub :
    (∀ n ∈ [0, 15], let d := patrolling n 0
      (d.mcLive n && d.flag (R.SCRUB_CTL_EN.at (0x40000 * n)) && !d.flag (R.SCRUB_STATUS_WAITING.at (0x40000 * n))) = true ∧
      (d.acceptReq n 15).1 = true ∧ d.duty 7 = false ∧ (dutyOn 7 d).duty 7 = true ∧ (d.chan n).patrol < 2 ^ 34 ∧
      (patrolling n 1).flag (R.SCRUB_STATUS_WAITING.at (0x40000 * n)) = true) ∧
    (0x20000#64).getLsbD 17 = true ∧ (0x40000#64).getLsbD 17 = false ∧ (0x40000#64).getLsbD 18 = true := by decide

/-- An evacuation of slot 0 stands at a stage of the retirement. -/
def evacuating (st next : Nat) : Dev :=
  { (Dev.reset.setFld R.MEM_IL_RET_STATE st) with evac := some ⟨0, false, next, [next]⟩ }

theorem witness_channelEvacuation :
    (let d := (dutyOn 4 (Dev.reset.setFld R.EVAC_STATUS_CANDIDATE 1)).setFld R.MEM_IL_RESERVE_EN 1
     d.duty 4 = true ∧ d.flag R.EVAC_STATUS_CANDIDATE = true ∧ d.mayEvacuate = true) ∧ (0x100000#64).getLsbD 20 = true ∧
    Dev.reset.evac = none ∧
    (∀ st ∈ [0, 1, 2], (evacuating st 0).fld R.MEM_IL_RET_STATE = st ∧ (evacuating st 0).phase = .running ∧
      (evacuating st 0).slotMc 0 < 16 ∧ (evacuating st 0).clocksOk = true ∧ (evacuating st 0).flag R.EVAC_CTL_PAUSE = false) ∧
    skipMoved [5] 1 5 = 6 ∧ 6 < (evacuating 1 5).granules ∧ (evacuating 1 5).granules ≤ skipMoved [2 ^ 40] 1 (2 ^ 40) ∧
    ((evacuating 1 5).setFld R.EVAC_CTL_PAUSE 1).flag R.EVAC_CTL_PAUSE = true := by decide

/-! ### Witnesses: root ports, inbound requests, the Ledger Engine -/

/-- A strand whose load waits at a port, whose oldest outbound request it is. -/
def portLoads (pt : Nat) (os : List Outbound) (f : Dev → Dev) : State :=
  onSD (fun x => { busy x with portLoad := some ⟨pt, .n 3, 0xC0000000000000, 4, true⟩ })
    fun d => f (d.setPort pt { d.port pt with out := os })

theorem witness_outboundLoads :
    (∀ pt ∈ [0, 79], (Dev.reset.port pt).out = [] ∧
      (let s := portLoads pt [⟨0, 0xC0000000000000, 4⟩] id
       (s.dev.port pt).out = [⟨0, 0xC0000000000000, 4⟩] ∧ (s.strand 0).portLoad = some ⟨pt, .n 3, 0xC0000000000000, 4, true⟩ ∧
       (s.strand 0).slot = none ∧ (s.strand 0).shadow = none ∧ (s.strand 0).sealedB = false ∧
       s.dev.flag (kpReg R.KPORT_CTL_BUSERR_EN pt) = false) ∧
      (Dev.reset.setFld (kpReg R.KPORT_CTL_BUSERR_EN pt) 1).flag (kpReg R.KPORT_CTL_BUSERR_EN pt) = true) ∧
    (portLoads 0 [⟨0, 0xC0000000000000, 4⟩] fun d => { d with phase := .drain }).dev.phase = .drain := by decide

theorem witness_portContainment :
    Dev.reset.portThere 0 = true ∧ Dev.reset.portThere 79 = false ∧ Dev.reset.flag (kpReg R.KPORT_STATUS_CONTAINED 0) = false ∧
    (Dev.reset.setFld (kpReg R.KPORT_STATUS_CONTAINED 76) 1).flag (kpReg R.KPORT_STATUS_CONTAINED 76) = true ∧
    (Dev.reset.trainPort 76).portThere 76 = true ∧ (Dev.reset.port 76).linkUp = false ∧ Dev.reset.phase = .running := by decide

theorem witness_slotsLanesAndSpread :
    Dev.reset.stewardUp = true ∧ (Dev.reset.setFld R.STW_STATUS_STATE 2).stewardUp = false ∧ Dev.reset.portThere 76 = true ∧
    (Dev.reset.port 76).slotWait = none ∧ (Dev.reset.port 76).slot.powerFault = false ∧ (1#64).getLsbD 0 = true ∧
    (let d := (Dev.reset.setFld (kpReg R.KPORT_STATUS_CANDIDATE 76) 1).setPort 76 { candidateLane := some 15 }
     d.flag (kpReg R.KPORT_STATUS_CANDIDATE 76) = true ∧ (d.port 76).candidateLane = some 15) ∧
    (Dev.reset.port 76).candidateLane = none ∧ 76 = 4 * 19 ∧
    (Dev.reset.setPort 79 { linkUp := true }).port 79 = { linkUp := true } ∧
    (Dev.reset.setFld (kpReg R.KPORT_CTL_REFCLK_EN 76) 1).flag (kpReg R.KPORT_CTL_REFCLK_EN 76) = true ∧
    (Dev.reset.setFld (kpReg R.KPORT_CTL_REFCLK_EN 76) 0).flag (kpReg R.KPORT_CTL_REFCLK_EN 76) = false := by decide

/-- Where a request leads: memory 0, a window 1, nowhere 2, refused 3. -/
def kindOf : IoTo → Nat
  | .mem _ _ _ _ => 0
  | .window _ _ => 1
  | .unclaimed _ => 2
  | .refused _ => 3

theorem kindOf_spec (w : IoTo) :
    (kindOf w = 0 → ∃ pa key ipa e, w = .mem pa key ipa e) ∧ (kindOf w = 1 → ∃ pa e, w = .window pa e) ∧
    (kindOf w = 2 → ∃ e, w = .unclaimed e) ∧ (kindOf w = 3 → ∃ e, w = .refused e) := by
  cases w <;> simp [kindOf]

/-- Memory is initialised, with byte 0x1000 set; port 0's prefetchable window lies at 0xC000000000000, in the socket's window. -/
def mapped (d : Dev) : Dev :=
  ((({ d with
      dram := [(0x1000, 1)]
      initPending := false }.setFld R.IOWIN_BASE_EN 1).setFld R.IOWIN_BASE_ADDR (0xC000000000000 / 2 ^ 30)).setFld R.IOWIN_LIMIT_ADDR
    (0xC000000000000 / 2 ^ 30)).setPort 0 { cfg := [(1, 2), (10, 0xC0000), (11, 0xC0000)] }

/-- A device's request leads to memory, a window, nowhere, or is refused. -/
theorem witness_ioTo :
    ∀ write, kindOf ((mapped Dev.reset).ioTo 8 0x1000 write) = 0 ∧ kindOf ((mapped Dev.reset).ioTo 8 0x8000000000000 write) = 0 ∧
      kindOf ((mapped Dev.reset).ioTo 8 0xC000000000000 write) = 1 ∧ kindOf ((mapped Dev.reset).ioTo 8 (2 ^ 47) write) = 2 ∧
      kindOf ((mapped Dev.reset).ioTo 8 0xFE00000000000 write) = 3 := by decide

theorem witness_InboundRequests :
    Dev.reset.receives 76 = true ∧ Dev.reset.receives 79 = false ∧ (mapped Dev.reset).receives 0 = true ∧
    (mapped Dev.reset).clocksOk = true ∧ (0x1000 % 4096 + 64 ≤ 4096) ∧ 4095 % 4096 + 1 ≤ 4096 ∧
    (mapped Dev.reset).homedHere (0x1000 / 64) = true ∧ (0x103F : Nat) % 64 + 1 ≤ 64 ∧
    (Dev.reset.setFld R.IR_MSG_BASE_EN 1).inMsgWindow 0 = true ∧ Dev.reset.inMsgWindow 0x1000 = false ∧ 0x1000 % 4 = 0 := by
  decide

theorem witness_atomicop :
    (match (mapped Dev.reset).ioTo 8 0x1000 false with
     | .mem _ _ _ e =>
       (match e.ioTo 8 0x1000 true with
        | .mem pa key _ e => e.homedHere (pa / 64) && leNat (takeBytes (e.snapshot (pa / 64) key).line (pa % 64) 4) == 1
        | _ => false)
     | _ => false) = true := by decide +kernel

/-- Where a write of the engine leads, and what it comes to: 0 done, 1 waits, 2 fails. -/
def putOf : LedPut → Nat
  | .ok _ => 0
  | .wait _ => 1
  | .fail _ _ => 2

/-- VF 1 logs writes in the bitmap, or in the ring under software's duty. -/
def logs (ring : Bool) (f : Dev → Dev) : State :=
  onD fun d => f ((mapped (if ring then dutyOn 1 d else d)).setFld (dlReg R.DLOG_CTL_EN 1) 1)

theorem witness_engineWrites :
    kindOf ((mapped Dev.reset).ioTo (fnRid 0) 0x8000000000000 true) = 0 ∧
    (mapped Dev.reset).homedHere (0x8000000000000 / 64) = true ∧
    ((mapped Dev.reset).stack (stackOf (0x8000000000000 / 64))).ledgerLeft = 0 ∧
    (mapped Dev.reset).windowPort 0xC000000000000 = some 0 ∧
    ((mapped Dev.reset).setFld (kpReg R.KPORT_STATUS_CONTAINED 0) 1).contained 0 = true ∧
    (logs false id).dev.flag (dlReg R.DLOG_CTL_EN 1) = true ∧ (logs false id).dev.duty 1 = false ∧
    (logs false id).dev.fld (dlReg R.DLOG_CTL_GIB 1) * 2 ^ 18 ≤ 0x1000 / 4096 ∧
    0x1000 / 4096 < (logs false fun d => d.setFld (dlReg R.DLOG_CTL_GIB 1) 1).dev.fld (dlReg R.DLOG_CTL_GIB 1) * 2 ^ 18 ∧
    (logs true id).dev.duty 1 = true ∧ (logs true id).dev.dlFull 1 = false ∧
    (let d := (logs true fun d => (d.setFld (dlReg R.DLOG_RING_TAIL_INDEX 1) 511).setFld (dlReg R.DLOG_CTL_FULL_STALL 1) 1).dev
     d.dlFull 1 = true ∧ d.flag (dlReg R.DLOG_CTL_FULL_STALL 1) = true ∧ d.phase = .running) := by decide

/-- A descriptor: its operation, source, destination, length and two arguments. -/
def descOf (op src dst len arg0 arg1 : Nat) : Desc :=
  { sq := 9
    raw := leBytes 8 op ++ leBytes 8 src ++ leBytes 8 dst ++ leBytes 8 len ++ leBytes 8 arg0 ++ leBytes 8 arg1 ++ leBytes 16 0 }

/-- Pair 0, of the PF, holds the descriptor in flight. -/
def running (x : Desc) (f : Dev → Dev) : State :=
  onD fun d => f (((mapped d).setFunc 0 { bme := true }).setQueue 0 { inflight := [x] })

/-- The premises that a descriptor may run, and a property of the state. -/
def mayBe (x : Desc) (f : Dev → Dev) (P : State → Bool) : Bool :=
  let s := running x f
  s.dev.clocksOk && decide (s.dev.desc 0 9 = some x) && s.dev.mayRun 0 x && x.bytes == 0 && decide (0 < x.len) && P s

theorem witness_COPY_FILL :
    (∀ op ∈ [1, 7], mayBe (descOf op 0x1000 0x2030 16 0x8000 0) id (fun s =>
      let x := descOf op 0x1000 0x2030 16 0x8000 0
      let got := s.dev.ledRead 0 0x1000 16
      x.op == op && x.dst % 64 + x.len == 64 && got.status == 0 && got.bytes.length == 16 &&
        putOf ({ s with dev := got.dev }.ledWrite ⟨0, 0, 9, 0, 0x8000, some (0x1000, 16)⟩ 0x2030 got.bytes) == 0) = true) ∧
    (mayBe (descOf 1 (2 ^ 47) 0x2030 16 0 0) id fun s =>
      let got := s.dev.ledRead 0 (2 ^ 47) 16
      got.status == 1 && got.bytes.isEmpty) = true ∧
    (mayBe (descOf 1 0x1000 (2 ^ 47) 16 0 0) id fun s =>
      let got := s.dev.ledRead 0 0x1000 16
      got.status == 0 && putOf ({ s with dev := got.dev }.ledWrite ⟨0, 0, 9, 0, 0x8000, some (0x1000, 16)⟩ (2 ^ 47) got.bytes) == 2) =
        true ∧
    (∀ a ∈ [0x2000, 2 ^ 47], (mayBe (descOf 2 0 a 8 0x1122 0) id fun s =>
      putOf (s.ledWrite ⟨0, 0, 9, 0, 0x8000, none⟩ a (leBytes 8 0x1122)) == if a == 0x2000 then 0 else 2) = true) := by
  decide +kernel

/-- A stream's region in Peat, with a credit of the engine's share, or in DRAM. -/
def appends (base : Nat) (d : Dev) : Dev :=
  let n := stackOf (0x8000000000000 / 64)
  (d.setFld (streamReg R.STREAM_BASE_ADDR 0) (base / 4096)).setStack n { d.stack n with ledgerLeft := 1 }

theorem witness_APPEND :
    (∀ base ∈ [0x8000000000000, 0x4000], (mayBe (descOf 3 0x1000 0 16 0 0) (appends base) fun s =>
      let got := s.dev.ledRead 0 0x1000 16
      let a := s.dev.streamAddr 0 0
      got.status == 0 && got.bytes.length == 16 && 16 ≤ s.dev.streamSize 0 && a == base && match got.dev.ioTo 0 a true with
        | .mem pa _ _ e => isPeat (pa / 64) == decide (base != 0x4000) && e.homedHere (pa / 64) && (base == 0x4000 ||
            putOf ({ s with dev := e }.ledWrite ⟨0, 0, 9, 0, 0x8000, some (0x1000, 16)⟩ a got.bytes) == 0)
        | _ => false) = true) := by decide +kernel

theorem witness_DIGEST_ENCRYPT :
    (mayBe (descOf 4 0x1000 0 16 0 0) id fun s => (s.dev.ledRead 0 0x1000 16).status == 0 && !(descOf 4 0x1000 0 16 0 0).opflag 0) = true ∧
    (mayBe (descOf 4 (2 ^ 47) 0 16 0 0) id fun s => (s.dev.ledRead 0 (2 ^ 47) 16).status != 0) = true ∧
    (mayBe (descOf 5 0x4000 0x6000 512 (2 ^ 47) 0) id fun s =>
      (descOf 5 0x4000 0x6000 512 (2 ^ 47) 0).opflag 1 == false && (s.dev.ledRead 0 (2 ^ 47) 64).status != 0) = true ∧
    (mayBe (descOf 5 (2 ^ 47) 0x6000 512 0x1000 0) id fun s =>
      let k := s.dev.ledRead 0 0x1000 64
      k.status == 0 && (k.dev.ledRead 0 (2 ^ 47) 512).status != 0) = true ∧
    (mayBe (descOf 5 0x4000 0x6000 512 0x1000 0) id fun s =>
      let k := s.dev.ledRead 0 0x1000 64
      k.status == 0 && (k.dev.ledRead 0 0x4000 512).status == 0) = true := by decide +kernel

/-- The write of ENCRYPT's result into memory. -/
def encrypted : Run :=
  let s := running (descOf 5 0x4000 0x6000 512 0x1000 0) id
  let k := s.dev.ledRead 0 0x1000 64
  let p := k.dev.ledRead 0 0x4000 512
  runWrite ⟨0, 0, 9, 0, 0x8000, some (0x4000, 512)⟩ 0x6000
    ((List.range 512).map fun i => ((Config.xts k.bytes 0 false p.bytes)[i]?).getD 0) ⟨{ s with dev := p.dev }, 0, 0, false⟩

theorem witness_ENCRYPT_writes : ∃ z, encrypted = ⟨z, 512, 0, false⟩ := by
  have h : encrypted.bytes = 512 ∧ encrypted.status = 0 ∧ encrypted.waits = false := by decide +kernel
  obtain ⟨h1, h2, h3⟩ := h
  refine ⟨encrypted.s, ?_⟩
  rw [← h1, ← h2, ← h3]

theorem witness_COMPARE :
    (mayBe (descOf 6 0x1000 0x2000 16 0 0) id fun s =>
      let got := s.dev.ledRead 0 0x1000 16
      let p := got.dev.ledRead 0 0x2000 16
      got.status == 0 && p.status == 0 && got.bytes.length == 16 && p.bytes.length == 16 && got.bytes[0]? != p.bytes[0]?) = true ∧
    (mayBe (descOf 6 0x3000 0x2000 16 0 0) id fun s =>
      let got := s.dev.ledRead 0 0x3000 16
      let p := got.dev.ledRead 0 0x2000 16
      got.status == 0 && p.status == 0 && got.bytes == p.bytes && got.bytes.length == 16) = true := by decide +kernel

/-! ### Witnesses: queue pairs, completions, functions, logs -/

/-- Pair 0 is enabled, its function on, and its ring holds the descriptor at its head. -/
def ringed (x : Desc) (f : Dev → Dev) : State :=
  onD fun d => f ((({ (mapped d) with
    dram := ((List.range 64).zip x.raw).filterMap fun p : Nat × Byte => if p.2 = 0 then none else some (0x1000 + p.1, p.2) }.setFunc 0
      { bme := true }).setFld (qReg R.Q_CTL_EN 0) 1).setFld (qReg R.SQ_BASE_ADDR 0) 1 |>.setFld (qReg R.SQ_TAIL_INDEX 0) 3)

/-- The premises of a fetch of pair 0, and a property of what it reads. -/
def fetches (x : Desc) (f : Dev → Dev) (P : LedGot → Bool) : Bool :=
  let s := ringed x f
  s.dev.clocksOk && s.dev.mayFetch 0 &&
    P (s.dev.ledRead (fnRid (s.dev.qOwner 0)) (s.dev.fld (qReg R.SQ_BASE_ADDR 0) * 4096) 64)

theorem witness_sqDoorbell :
    ((0xFFFF#64).extractLsb' 0 16).toNat = 65535 ∧ ((Dev.reset.setFunc 0 { quiescing := true }).func 0).quiescing = true ∧
    (ringed (descOf 1 0 0 1 0 0) id).dev.fnOn 0 = true ∧ (ringed (descOf 1 0 0 1 0 0) id).dev.flag (qReg R.Q_CTL_EN 0) = true ∧
    (ringed (descOf 1 0 0 1 0 0) id).dev.sqSize 0 ≤ 65535 ∧ 63 < (ringed (descOf 1 0 0 1 0 0) id).dev.sqSize 0 ∧
    Dev.reset.flag (qReg R.Q_CTL_EN 8191) = false := by decide

theorem witness_descriptorFetch :
    Dev.reset.mayFetch 0 = false ∧
    fetches (descOf 1 0 0 1 0 0) (fun d => d.setFld (qReg R.SQ_BASE_ADDR 0) (2 ^ 35)) (fun g => g.status != 0) = true ∧
    (∀ op ∈ [0, 2, 3], fetches (descOf op 0 0 1 0 0) id (fun g => g.status == 0 && decide (g.dev.queue 0 = {}) &&
      decide (Desc.op { sq := 0, raw := g.bytes } = op) && Desc.wellFormed { sq := 0, raw := g.bytes } == (op != 0) &&
      g.dev.qOwner 0 == 0) = true) ∧
    (∀ en ∈ [0, 1], ∀ resv ∈ [0, 4096],
      fetches (descOf 3 0 0 1 0 0) (fun d => (d.setFld (streamReg R.STREAM_CTL_EN 0) en).setStream 0 { resv := resv })
      (fun g => g.dev.flag (streamReg R.STREAM_CTL_EN 0) == (en == 1) && g.dev.fld (streamReg R.STREAM_CTL_OWNER 0) == 0 &&
        (g.dev.streamSize 0 < (g.dev.stream 0).resv - g.dev.fld (streamReg R.STREAM_HEAD_OFFSET 0) + 1) == (resv == 4096)) = true) := by
  decide +kernel

theorem witness_queueEnable :
    (1#64).getLsbD 0 = true ∧ (0#64).getLsbD 0 = false ∧ Dev.reset.flag (qReg R.Q_CTL_EN 8191) = false ∧
    (Dev.reset.func (Dev.reset.qOwner 8191)).quiescing = false ∧
    ((Dev.reset.setFunc 0 { quiescing := true }).func (Dev.reset.qOwner 8191)).quiescing = true := by decide

theorem witness_qpAssign :
    (let d := Dev.reset
     (d.flag (qReg R.Q_CTL_EN 0) || !(d.queue 0).inflight.isEmpty || ((0xDF7FF#64).extractLsb' 0 12 != 0#12 && 224 ≤ 223)
       || 2048 ≤ 2047 || d.slotHeld 0 2047 223) = false) ∧
    ((0xDF7FF#64).extractLsb' 0 12).toNat = 2047 ∧ ((0xDF7FF#64).extractLsb' 12 8).toNat = 223 ∧
    (ringed (descOf 1 0 0 1 0 0) id).dev.flag (qReg R.Q_CTL_EN 0) = true := by decide +kernel

theorem witness_completionBytes :
    let x := { descOf 1 0 0 1 0 0 with sq := 2 ^ 32 - 1, status := 9, bytes := 2 ^ 64 - 1 }
    x.sq < 2 ^ 32 ∧ x.status < 256 ∧ x.bytes < 2 ^ 64 ∧ x.op < 16 ∧ 65535 < 65536 := by decide

/-- A descriptor of pair 0 that has run. -/
def ran (op base : Nat) (f : Dev → Dev) : State :=
  running { descOf op 0x1000 0 16 0 0 with started := true, done := true } fun d =>
    f (d.setFld (qReg R.CQ_BASE_ADDR 0) base)

def ranDesc (op : Nat) : Desc := { descOf op 0x1000 0 16 0 0 with started := true, done := true }

/-- The completion leads to memory, to nowhere, or to Peat without a credit. -/
theorem witness_completionWrite :
    (∀ b ∈ [2, 2 ^ 35, 2 ^ 39], let s := ran 1 b id
      s.dev.clocksOk = true ∧ s.dev.desc 0 9 = some (ranDesc 1) ∧ s.dev.mayComplete 0 (ranDesc 1) = true ∧
      putOf (s.ledWrite ⟨s.dev.qOwner 0, 0, 9, 0, 0x8000, none⟩ (s.dev.fld (qReg R.CQ_BASE_ADDR 0) * 4096)
        (completionBytes (ranDesc 1) true 0)) = if b = 2 then 0 else if b = 2 ^ 39 then 1 else 2) ∧
    (let s := ran 3 2 fun d => d.setStream 0 { resv := 16, ranges := [(0, 9, 0, 16, true)] }
     s.dev.desc 0 9 = some (ranDesc 3) ∧ s.dev.mayComplete 0 (ranDesc 3) = true ∧
     ((s.dev.stream 0).ranges.any fun e => e.1 == 0 && e.2.1 == 9) = true) ∧
    (let s := running (descOf 1 0x1000 0 16 0 0) id
     s.dev.desc 0 9 = some (descOf 1 0x1000 0 16 0 0) ∧ s.dev.mayComplete 0 (descOf 1 0x1000 0 16 0 0) = false) := by
  decide +kernel

theorem witness_streams :
    Dev.reset.flag (streamReg R.STREAM_CTL_EN 4095) = false ∧
    (Dev.reset.setFld (streamReg R.STREAM_CTL_EN 4095) 1).flag (streamReg R.STREAM_CTL_EN 4095) = true ∧
    (1#64).getLsbD 0 = true ∧ (0#64).getLsbD 0 = false ∧ (Dev.reset.stream 4095).ranges = [] ∧
    ((Dev.reset.setStream 4095 { ranges := [(0, 0, 0, 1, false)] }).stream 4095).ranges ≠ [] := by decide

theorem witness_functionsQuiesce :
    (∀ f ∈ [0, 2047], (Dev.reset.func f).quiescing = false ∧ ((Dev.reset.setFunc f { quiescing := true }).func f).quiescing = true) ∧
    (let d := (Dev.reset.setFunc 2047 { quiescing := true, wantBme := true }).setQueue 3 { pendingEn := true }
     let d := d.setFld (R.QP_ASSIGN_FUNC.at (8 * 3)) 2047
     d.qOwner 3 = 2047 ∧ (d.queue 3).pendingEn = true ∧ (d.func 2047).wantBme = true) ∧
    (let d := Dev.reset.setStream 4095 { resv := 5 }
     (4095, { resv := 5 }) ∈ d.streams ∧ d.fld (streamReg R.STREAM_CTL_OWNER 4095) = 0) ∧
    ((Dev.reset.setFunc 1 { exposed := true }).func 1).exposed = true ∧ (drained 0 0 0 Dev.reset).drain ≠ none := by decide

theorem witness_loggingRounds :
    (1#64).toNat % 2 ^ 32 = (Dev.reset.fld (dlReg R.DLOG_GEN_GEN 2047) + 1) % 2 ^ 32 ∧
    (2#64).toNat % 2 ^ 32 ≠ (Dev.reset.fld (dlReg R.DLOG_GEN_GEN 1) + 1) % 2 ^ 32 ∧
    (Dev.reset.setFld (dlReg R.DLOG_RING_HEAD_INDEX 1) 0).dlFull 1 = false := by decide

/-! ### Witnesses: the steward and firmware update -/

/-- A command waits in the steward's mailbox. -/
def stwBoxed (code : Nat) (d : Dev) : Dev := (d.setFld R.SMB_STATUS_BUSY 1).setFld R.SMB_CMD_CODE code

theorem witness_mayManage :
    (∀ code ∈ [0x01, 0x10, 0x11, 0x12, 0x20, 0x21, 0x31, 0x40, 0x41, 0x42, 0x43],
      mayManage Dev.reset .mctp code = true ∧ mayManage (stwBoxed code Dev.reset) .mailbox code = true) ∧
    (∀ code ∈ [0x01, 0x40, 0x42], mayManage { Dev.reset with phase := .booting } .mctp code = true) ∧
    Dev.reset.boxWaits .stw 0x01 = false ∧ Dev.reset.portAnswers = true ∧
    (let d := stwBoxed 0x12 (Dev.reset.setFld R.STW_STATUS_STATE 2)
     d.portAnswers = false ∧ d.boxWaits .stw 0x12 = true) ∧
    ({ Dev.reset with phase := .booting } : Dev).phase = .booting := by decide

theorem witness_ManagementCommands :
    Dev.reset.chain.enumerated = true ∧ (0x30#7).toNat = 0x30 + Dev.reset.self ∧ (0x31#7).toNat ≠ 0x30 + Dev.reset.self ∧
    0x0600 ∈ cfgKeys ∧ 0x0601 ∉ cfgKeys ∧ Dev.reset.locked = false ∧ (Dev.reset.setFld R.LOCK_BOOT_LOCK 1).locked = true ∧
    10000 ≤ leNat (leBytes 4 10000) ∧ leNat (leBytes 4 10000000) ≤ 10000000 ∧ (leBytes 4 10000).length ≤ 4088 ∧
    (let d := softRepair 0 Dev.reset
     (d.repairs[0]?.any fun r => !r.fused) = true) := by decide

/-- A sorus of one entry: a component, an image of 64 bytes for socket 0. -/
def sorusOf (c : Nat) : List Byte :=
  leBytes 4 0x534F5231 ++ leBytes 2 1 ++ leBytes 26 1 ++ leBytes 2 c ++ leBytes 1 7 ++ leBytes 5 1 ++ leBytes 8 2 ++ leBytes 8 0
    ++ leBytes 8 64 ++ leBytes 64 0

/-- The head, or another socket, stands at a phase of an update of that sorus. -/
def updating (head : Bool) (phase : Nat) (c : Nat) : Dev :=
  ({ (headed head) with fw := { Dev.reset.fw with staged := sorusOf c } }).setFld R.UPD_STATUS_PHASE phase

theorem witness_sorusIsStaged :
    (headed false).isHead = false ∧ (headed true).isHead = true ∧ (headed true).updBusy = false ∧ (updating true 2 5).updBusy = true ∧
    ([0#8] ≠ [] ∧ ¬4064 < [0#8].length ∧ ¬2 ^ 28 < 2 ^ 28 ∧ ¬2 ^ 28 < 0 + [0#8].length) ∧
    (updating true 0 5).fw.staged.length ≠ 7 ∧ (updating true 0 5).fw.staged ≠ [] ∧ (headed true).fw.staged = [] ∧
    (headed true).flag R.CHAIN_STATUS_MSG_DOWN = false ∧ mayManage (headed true) .mctp 0x41 = true ∧
    (updating true 0 5).sorusVerdict 0 = 0 ∧ (updating true 0 5).sorusVerdict 3 = 3 ∧ (updating true 0 9).sorusVerdict 0 = 4 ∧
    (updating true 5 5).mayAbort = true ∧ (headed true).mayAbort = false ∧ (headed false).phase ≠ .booting := by decide +kernel

/-- The update's frame is set, and the frame is 0. -/
def armedFor (a : Nat) (confirmed : Bool) (d : Dev) : Dev :=
  { d with fw := { d.fw with
      armA := some (word a)
      confirmed := confirmed } }

theorem witness_updateMessages :
    (0 : Word) = (headed true).fw.sorusId ∧ (1 : Word) ≠ (headed true).fw.sorusId ∧
    (∀ p ∈ [3, 4, 5], (updating true p 5).fld R.UPD_STATUS_PHASE = p) ∧ (updating true 3 5).targets = 1 ∧
    ((updating true 3 5).fld R.UPD_STATUS_READY ||| 2 ^ 1) &&& (updating true 3 5).targets ≠ (updating true 3 5).targets ∧
    ((updating true 3 5).fld R.UPD_STATUS_READY ||| 2 ^ 0) &&& (updating true 3 5).targets = (updating true 3 5).targets ∧
    (updating false 4 5).isHead = false ∧ (updating false 4 5).mayAbort = true ∧
    (∀ a ∈ [500, 499, 17], (armedFor a false (updating true 5 5)).fw.armA = some (word a) ∧
      (armedFor a false (updating true 5 5)).fw.aborted = false ∧ (armedFor a false (updating true 5 5)).mayAbort = true) ∧
    (armedFor 17 false (updating true 5 5)).frame.toNat + 500 ≤ (word 500).toNat ∧
    (word 499).toNat < (armedFor 17 false (updating true 5 5)).frame.toNat + 500 ∧ 1 ≠ (headed true).self ∧
    (headed true).fw.armedMask &&& (updating true 5 5).targets ≠ (updating true 5 5).targets := by decide

theorem witness_ActivationAndOverwrite :
    (headed true).fw.armA = none ∧ (∀ b, (armedFor 0 b (updating true 5 5)).fw.armA = some 0 ∧
      (armedFor 0 b (updating true 5 5)).fw.confirmed = b ∧ (armedFor 0 b (updating true 5 5)).fw.switched = false ∧
      (armedFor 0 b (updating true 5 5)).fw.aborted = false ∧ (armedFor 0 b (updating true 5 5)).phase = .running) ∧
    (armedFor 1 true (updating true 5 5)).frame.toNat < (word 1).toNat ∧
    (∀ c ∈ [1, 2, 3, 4, 5], let d := updating true 6 c
      let d := { d with fw := { d.fw with
        switched := true
        overwritten := (overwriteOrder.takeWhile fun x => x != c).flatMap fun x =>
          (List.range (overwriteUnits x)).map fun u => (x, u) } }
      d.fw.switched = true ∧ d.phase ≠ .drain ∧ (d.stagedImage c).isSome = true ∧ 0 < overwriteUnits c ∧ (c, 0) ∉ d.fw.overwritten) ∧
    (headed false).locked = false ∧ 7 ≠ (headed false).self ∧ (stwBoxed 0x43 (headed false)).boxWaits .stw 0x43 = true := by
  decide +kernel

/-- The first component to be overwritten has its turn. -/
theorem witness_overwriteTurn : overwriteOrder.head?.any (fun c => (headed true).overwriteTurn c) = true := by decide

/-! ### Witnesses: the whole machine -/

theorem witness_WellFormedCommandsComplete :
    (Instr.add 511 1 2 3).wf = true ∧ State.reset.dev.clocksOk = true ∧ (Instr.add 512 1 2 3).wf = false := by decide

/-- The invariants at reset: the registers' values and the memories. -/
theorem witness_memoryOk : memoryOk State.reset := by
  unfold memoryOk
  decide

theorem witness_strandsOk : strandsOk State.reset := by
  refine ⟨rfl, fun g => ?_⟩
  have h : State.reset.strand g = Strand.reset ∨ State.reset.strand g = State.reset.strand 0 := by
    rcases Nat.eq_zero_or_pos g with rfl | hg
    · exact .inr rfl
    · left
      unfold State.strand State.reset
      dsimp only
      rw [SMap.get, if_neg (by omega), SMap.get]
  rcases h with h | h <;> rw [h] <;>
    refine ⟨by decide, by decide, by decide, by decide, by decide, by decide, by decide, by decide, by decide, by decide, by decide,
      (fun sl h => by cases h), by decide⟩

/-- Each command that changes records alone answers a next state. -/
theorem witness_FramesOfCommands :
    recordsOnly .bucketDecay ∧ (∃ t, exec .bucketDecay State.reset = .next t) ∧ recordsOnly (.entdaa 9) ∧
    (∃ t, exec (.entdaa 9) State.reset = .next t) := by
  refine ⟨.inr (.inl rfl), ⟨_, rfl⟩, ?_, ⟨_, rfl⟩⟩
  unfold recordsOnly
  simp

/-! ### Smoke test: an ill-formed command for each check of `Instr.wf` -/

theorem test_illFormed_requesters_and_cores :
    ((Instr.registerWrite (.strand 512) 0 0).wf || (Instr.registerWrite .other (2 ^ 34) 0).wf
      || (Instr.undefinedOffsetAccess .other (2 ^ 28) true).wf || (Instr.warmSpare 288).wf || (Instr.add 512 1 2 3).wf
      || (Instr.refillInstall .other 512 0).wf || (Instr.mbClaim (.strand 512) true).wf || (Instr.bind .other 512 0).wf
      || (Instr.cacheEnable .other 144 .llc 0).wf || (Instr.cacheEnable .other 0 (.core 2) 0).wf
      || (Instr.disableComplete 144 (.way 0)).wf || (Instr.disableComplete 0 (.way 12)).wf
      || (Instr.disableComplete 0 (.l1i 2)).wf) = false := by decide

theorem test_illFormed_messages :
    ((Instr.rds (2 ^ 46) .ledger false false).wf || (Instr.rds 0 (.core 288) false false).wf
      || (Instr.rdx 0 (.socket 8) false).wf || (Instr.rdx 0 (.io 2) false).wf || (Instr.fwds 288 0 .ledger false false).wf
      || (Instr.farAtomicRequest 0 .ledger .add true 57 0 0).wf || (Instr.farAtomicRequest 0 .ledger .add false 61 0 0).wf
      || (Instr.data (some (.core 288)) .ledger 0 0 false false false).wf || (Instr.socketRemoval 8).wf
      || (Instr.taskAbandon (.retrain 16)).wf || (Instr.taskAbandon (.sliceTest 6)).wf || (Instr.creditRequest 8 0 true).wf
      || (Instr.wearMove 0 131072).wf || (Instr.brownout 10).wf || (Instr.peatDone 8).wf || (Instr.canaryWrite 16).wf
      || (Instr.blockInit (2 ^ 26)).wf) = false := by decide

theorem test_illFormed_channels_and_tests :
    ((Instr.memoryRead 0 16 0 .clean).wf || (Instr.memoryRead 0 0 65536 .clean).wf || (Instr.neighbourRefresh 16 0 0).wf
      || (Instr.neighbourRefresh 0 512 0).wf || (Instr.neighbourRefresh 0 0 (2 ^ 18)).wf || (Instr.routeRecompute 264).wf
      || (Instr.drainStepTimeout 1).wf || (Instr.drainStepTimeout 5).wf || (Instr.injectionArm .other 0 0).wf
      || (Instr.injectionArm .other 23 0).wf || (Instr.sliceTest 6 .clean).wf || (Instr.linkRekey 8).wf) = false := by decide

theorem test_illFormed_ports_and_functions :
    ((Instr.dmaRead ⟨80, 0, 0, false⟩ 64).wf || (Instr.completionTimeout 80).wf || (Instr.sscApply 20).wf || (Instr.fill 8192 0).wf
      || (Instr.streamEnable 4096 0).wf || (Instr.flr 2048).wf || (Instr.vfEnable true 2048).wf || (Instr.dlogGen 0 0).wf
      || (Instr.dlogGen 2048 0).wf || (Instr.enum 8 false).wf || (Instr.delay 1024 0).wf || (Instr.delay 0 65536).wf
      || (Instr.comp 65536).wf || (Instr.ready ⟨8, 0, 0, 0⟩).wf || (Instr.linkMap 8 []).wf || (Instr.flitReceive 0 true true 24 0).wf
      || (Instr.socketEvent 8).wf || (Instr.pllSettle 197).wf || (Instr.tileRatioWrite .other 144 0).wf || (Instr.vidAck 4 0).wf
      || (Instr.thermalThrottle 144 0).wf || (Instr.firmwareOverwrite 0 0 true).wf || (Instr.firmwareOverwrite 6 0 true).wf
      || (Instr.firmwareOverwrite 1 288 true).wf) = false := by decide

/-- An ill-formed command stops; it does nothing. -/
theorem test_illFormed_stops : exec (.add 512 1 2 3) State.reset = .fault .noSuchUnit := rfl

/-- No word spells a command: no row of the table has bits. -/
theorem test_no_word_spells_a_command : decodeTableWord 32 0x04642800 = none ∧ State.reset.withFetchWord 32 5 = State.reset :=
  ⟨rfl, rfl⟩

/-! ### Small tests of single commands against the spec -/

/-- The next state of a command, and reset's where it stops. -/
def after (c : Instr) (s : State) : State :=
  match exec c s with
  | .next t => t
  | _ => State.reset

/-- Strand 0 at H with VEC set, at an address, with registers. -/
def at0 (pc : Word) (n : SMap Word) (v : SMap VWord) : State :=
  onS fun x => { busy x with
    pc := pc
    n := n
    v := v }

/-- Chapter 3's scan: v7 holds 10, 55, 3, 70, 42, 8, 91 and 60. -/
def scan : VWord := 0x3C0000005B000000080000002A0000004600000003000000370000000A

/-- The worked example of chapter 3: step 1, every lane of v1 is 40. -/
theorem test_VSPLAT_scan :
    ((after (.vsplat 0 2 1 9 0) (at0 0x1000 [(9, 40)] [])).strand 0).getV 1 =
      0x2800000028000000280000002800000028000000280000002800000028#256 := by decide

/-- Step 2: the lanes above 40 are 1, 3, 4, 6 and 7. -/
theorem test_VCMPLT_scan :
    ((after (.vcmplt 0 2 12 1 7) (at0 0x1000 [] [(1, 0x2800000028000000280000002800000028000000280000002800000028),
      (7, scan)])).strand 0).getN 12 = 0xDA := by decide

/-- Step 3: they are packed as 55, 70, 42, 91 and 60. -/
theorem test_VCOMPRESS_scan :
    ((after (.vcompress 0 2 2 7 12) (at0 0x1000 [(12, 0xDA)] [(7, scan)])).strand 0).getV 2 =
      0x3C0000005B0000002A0000004600000037#256 := by decide

/-- Step 4: five lanes are kept. -/
theorem test_POPC_scan : ((after (.popc 0 13 12 0) (at0 0x1000 [(12, 0xDA)] [])).strand 0).getN 13 = 5 := by decide

/-- Chapter 3's key check: VCRC32C of the 9 bytes "123456789" (vop 0x48, k = 8) delivers 0x1CF96D7C, the complement of the convention's check value. -/
theorem test_VCRC32C_check_value :
    let s := after (.vcrc32c 0 0 8 5 5 3) (at0 0x1000 [(5, 0xFFFFFFFF)] [(3, 0x393837363534333231)])
    ((s.strand 0).longOps.map fun o => o.val) = [0x1CF96D7C] ∧
    ((after (.longOpComplete 0 0) s).strand 0).getN 5 ^^^ 0xFFFFFFFF = 0xE3069283 := by decide +kernel

/-- Chapter 2's CALL at 0x4FFC to 0x6100: n31 gets 0x5004, the slot is at 0x5000, and it goes on at 0x6100. -/
theorem test_CALL_links_past_its_slot :
    let x := (after (.call 0 false 0x441) (at0 0x4FFC [] [])).strand 0
    x.getN 31 = 0x5004 ∧ x.pc = 0x5000 ∧ (x.slot.map fun sl => (sl.branch, sl.next)) = some (0x4FFC, 0x6100) := by decide

/-- Chapter 3's BCLTU back 12 bytes: with A = 1 and the branch not taken, the slot is annulled. -/
theorem test_BCLTU_annuls_its_slot :
    let x := (after (.bcltu 0 true true 4 9 0x7FD) (at0 0x2000 [(4, 9), (9, 9)] [])).strand 0
    let y := (after (.bcltu 0 true true 4 9 0x7FD) (at0 0x2000 [(4, 8), (9, 9)] [])).strand 0
    x.pc = 0x2008 ∧ x.slot = none ∧ y.pc = 0x2004 ∧ (y.slot.map fun sl => sl.next) = some 0x1FF4 := by decide

/-- R93: a division by zero gives all ones, and the most negative number divided by -1 itself. -/
theorem test_DIV_corners :
    ((after (.div 0 3 1 2) (at0 0 [(1, 7)] [])).strand 0).longOps.map (fun o => o.val) = [0xFFFFFFFFFFFFFFFF] ∧
    ((after (.div 0 3 1 2) (at0 0 [(1, 0x8000000000000000), (2, 0xFFFFFFFFFFFFFFFF)] [])).strand 0).longOps.map (fun o => o.val) =
      [0x8000000000000000] := by decide

/-- R48: a write of n0 is discarded, and n0 reads 0. -/
theorem test_n0_reads_zero : ((after (.addi 0 0 0 7) (at0 0 [] [])).strand 0).getN 0 = 0 := by decide

/-- Chapter 7: line X is homed at hash index 51, in LLC set 3,067. -/
theorem test_line_X_home : hashIndex (0x031088467ABC / 64) = 51 ∧ llcSet (0x031088467ABC / 64) = 3067 ∧
    l2SetOf (0x031088467ABC / 64) = 490 := by decide

/-- Chapter 12: line X lies in slot 11 at channel-local address 0x31088467BC. -/
theorem test_line_X_channel : Dev.reset.interleave 0x031088467ABC = (11, 0x31088467BC) := by decide

/-- Chapter 10: offset 0x1234567C40 of a Peat window lies on stack PS6, in the granule of u = 0x2468ACC40. -/
theorem test_peat_window_stack : stackOf ((0x8000000000000 + 0x1234567C40) / 64) = 6 := by decide

/-- Chapter 9: the head of the four-socket chain hears 172 - 0 units and sets COMP to 204. -/
theorem test_DELAY_head_sets_COMP :
    (after (.delay 0 172) (onD fun _ => headed true)).dev.fld R.TICK_CTL_COMP = 204 := by decide

/-- Chapter 17: the append of 320 bytes reserves from 0x2FFF80 to 0x3000C0, and lies at 0xFFF80 of its region. -/
theorem test_APPEND_wraps :
    let x := { descOf 3 0x1000 0 320 0 0 with resv := 0x2FFF80 }
    let d := Dev.reset.setFld (streamReg R.STREAM_CTL_LOG2SIZE 0) 20
    d.streamSize 0 = 0x100000 ∧ x.resv % d.streamSize 0 = 0xFFF80 ∧ x.resv + x.len = 0x3000C0 := by decide

/-- R345's CRC-32C is the convention's: its check value. -/
theorem test_crc32c_check_value : crc32c [0x31, 0x32, 0x33, 0x34, 0x35, 0x36, 0x37, 0x38, 0x39] = 0xE3069283 := by decide +kernel

/-- Chapter 2's fault in the slot of a call, where the fetch of the slot fails: cause 5, FADDR is the slot's address, EPC the
CALL's, SLOT is 1, and n31 keeps its value. -/
theorem test_fault_in_the_slot_of_a_call :
    let s := onSD (fun x => { x with
        pc := 0x5000
        slot := some ⟨0x4FFC, 0x6100, some (31, 5), true, []⟩
        n := [(9, 0x7000), (31, 0x5004)]
        status := 0x204
        hstatus := 0x60
        tcfg := 1
        ttb1 := 0x40000 }) fun d => { d with
        dram := []
        initPending := false }
    let x := (after (.ld 0 8 9 0) s).strand 0
    x.bankS.epc = 0x4FFC ∧ getF x.bankS.cause 0 8 = 5 ∧ x.bankS.faddr = 0x5000 ∧ x.pl = 1 ∧ bitOf x.status 3 = true ∧
    bitOf x.status 6 = true ∧ x.getN 31 = 5 := by
  decide +kernel

end Sys2Proof.Tests
end

