-- ==== Sys2Proof/Proofs/ZeroRegister.lean ====
section
/-!
PROOFS. n0 and the link register of CALL (R48): what a transfer leaves in the general registers of its strand, and the
transfer in which a direct jump ends.
-/

namespace Sys2Proof.Proofs

open Sys2Proof Sys2Proof.Machine Sys2Proof.Laws

/-- The general registers lie in one part of the strand. -/
theorem getN_congr {x y : Strand} (h : x.n = y.n) (k : Reg) : x.getN k = y.getN k := by
  unfold Strand.getN
  rw [h]

/-- A transfer that links writes its link register alone, whether its slot executes or is annulled (R72, R95). -/
theorem transfer_link_getN (s : State) (g : Nat) (execSlot taken : Bool) (target : Word) (r : Reg) (ras : List Word)
    (k : Reg) :
    ((s.transfer g execSlot taken target (some r) ras).strand g).getN k =
      ((s.strand g).setN r ((s.strand g).pc + 8)).getN k := by
  apply getN_congr
  unfold State.transfer
  cases execSlot with
  | true => simp
  | false => cases taken <;> simp

theorem countDirect_strand (s : State) (g : Nat) (target : Word) (usesBtb : Bool) (k : Nat) :
    (s.countDirect g target usesBtb).strand k = s.strand k :=
  ite_count_strand _ _ _ _ _

/-- A ready direct jump that links ends in its transfer; the events that it counts before leave the strands alone (R160). -/
theorem directJump_link_next {s : State} {g : Nat} {A : Bool} {disp : BitVec 25} {r : Reg}
    (h : ready s g { transfer := true, regs := [.n r] } = true) :
    ∃ (u : State) (target : Word) (ras : List Word),
      directJump g A disp (some r) s = .next (u.transfer g (!A) true target (some r) ras) ∧
      u.strand g = (begun s g).strand g :=
  ⟨_, _, _, runInsn_go h rfl, (ite_count_strand _ _ _ _ _).trans (countDirect_strand _ _ _ _ _)⟩

/-- Settles O2: the laws of `getN` and `setN`, and the link that the CALL's transfer writes (R48). -/
theorem zeroRegisterAndLink : Obligations.ZeroRegisterAndLink := by
  refine ⟨fun x w => ⟨getN_zero x, setN_zero x w⟩,
    fun x r w hr => ⟨getN_setN_same x r w hr, fun k hk => getN_setN_other x r k w hk⟩, fun s g A disp h => ?_⟩
  obtain ⟨u, target, ras, hnext, hu⟩ := directJump_link_next (A := A) (disp := disp) h
  refine ⟨_, hnext, ?_, fun k hk => ?_⟩
  · rw [transfer_link_getN, hu, getN_setN_same _ _ _ (by decide)]
  · rw [transfer_link_getN, hu, getN_setN_other _ _ _ _ hk]

end Sys2Proof.Proofs
end

