-- ==== Sys2Proof/Proofs/VectorResults.lean ====
section
/-!
PROOFS. Vector results (R101 to R106): the lanes and masks of a register, what each lane-wise instruction writes by its
operand form, what the CRC and hash steps set in flight, and how the result of a long operation is written (R89, R151).
-/

namespace Sys2Proof.Proofs

open Sys2Proof Sys2Proof.Machine Sys2Proof.Laws

/-! ### Numbers built from their digits -/

theorem foldl_eq_ofDigits (B : Nat) (f : Nat → Nat) (n : Nat) :
    (List.range n).foldl (fun acc i => acc + f i * B ^ i) 0 = Nat.ofDigits B ((List.range n).map f) := by
  induction n with
  | zero => rfl
  | succ n ih => simp [List.range_succ, ih, Nat.ofDigits_append, Nat.mul_comm]

theorem ofDigits_map_range_lt {B : Nat} (hB : 1 < B) {f : Nat → Nat} (hf : ∀ i, f i < B) (n : Nat) :
    Nat.ofDigits B ((List.range n).map f) < B ^ n := by
  simpa using Nat.ofDigits_lt_base_pow_length hB (l := (List.range n).map f) (by simpa using fun i _ => hf i)

/-- The digits of a number are those that it is built from. -/
theorem ofDigits_map_range_digit {B : Nat} {f : Nat → Nat} (hf : ∀ i, f i < B) {n i : Nat} (hi : i < n) :
    Nat.ofDigits B ((List.range n).map f) / B ^ i % B = f i := by
  have hlen : i < ((List.range n).map f).length := by simpa using hi
  rw [Nat.ofDigits_div_pow_eq_ofDigits_drop i (Nat.zero_lt_of_lt (hf 0)) _ (by simpa using fun i _ => hf i),
    List.drop_eq_getElem_cons hlen, Nat.ofDigits_cons, Nat.add_mul_mod_self_left]
  simpa using Nat.mod_eq_of_lt (hf i)

/-! ### Lanes (R101) -/

theorem laneW_pos (w : BitVec 2) : 0 < laneW w := by simp [laneW]

theorem laneW_mul_lanesOf (w : BitVec 2) : laneW w * lanesOf w = 256 := by
  revert w
  decide

theorem lane_lt (w : BitVec 2) (v : VWord) (i : Nat) : lane w v i < 2 ^ laneW w := Nat.mod_lt _ (Nat.two_pow_pos _)

@[simp] theorem lane_mod (w : BitVec 2) (v : VWord) (i : Nat) : lane w v i % 2 ^ laneW w = lane w v i :=
  Nat.mod_eq_of_lt (lane_lt w v i)

/-- A register that is built from lanes has them, each modulo the lane width. -/
@[simp] theorem lane_ofLanes (w : BitVec 2) (f : Nat → Nat) {i : Nat} (hi : i < lanesOf w) :
    lane w (ofLanes w f) i = f i % 2 ^ laneW w := by
  have hf : ∀ i, f i % 2 ^ laneW w < 2 ^ laneW w := fun i => Nat.mod_lt _ (Nat.two_pow_pos _)
  have hlt := ofDigits_map_range_lt (Nat.one_lt_two_pow (laneW_pos w).ne') hf (lanesOf w)
  rw [← Nat.pow_mul, laneW_mul_lanesOf] at hlt
  simp only [lane, ofLanes, Nat.pow_mul, foldl_eq_ofDigits, BitVec.toNat_ofNat]
  rw [Nat.mod_eq_of_lt hlt, ofDigits_map_range_digit hf hi]

theorem testBit_lane (w : BitVec 2) (v : VWord) (i k : Nat) :
    (lane w v i).testBit k = (decide (k < laneW w) && v.getLsbD (laneW w * i + k)) := by
  rw [lane, Nat.testBit_mod_two_pow, Nat.testBit_div_two_pow, BitVec.testBit_toNat, Nat.add_comm]

theorem lane_and (w : BitVec 2) (x y : VWord) (i : Nat) : lane w (x &&& y) i = lane w x i &&& lane w y i :=
  Nat.eq_of_testBit_eq fun k => by
    simp only [testBit_lane, Nat.testBit_and, BitVec.getLsbD_and]
    cases decide (k < laneW w) <;> rfl

theorem lane_or (w : BitVec 2) (x y : VWord) (i : Nat) : lane w (x ||| y) i = lane w x i ||| lane w y i :=
  Nat.eq_of_testBit_eq fun k => by
    simp only [testBit_lane, Nat.testBit_or, BitVec.getLsbD_or, Bool.and_or_distrib_left]

theorem lane_xor (w : BitVec 2) (x y : VWord) (i : Nat) : lane w (x ^^^ y) i = lane w x i ^^^ lane w y i :=
  Nat.eq_of_testBit_eq fun k => by
    simp only [testBit_lane, Nat.testBit_xor, BitVec.getLsbD_xor, Bool.and_xor_distrib_left]

/-- The bits of a lane lie in the register. -/
theorem lane_bit_lt {w : BitVec 2} {i k : Nat} (hi : i < lanesOf w) (hk : k < laneW w) : laneW w * i + k < 256 :=
  calc laneW w * i + k < laneW w * (i + 1) := by rw [Nat.mul_succ]; omega
    _ ≤ laneW w * lanesOf w := Nat.mul_le_mul_left _ hi
    _ = 256 := laneW_mul_lanesOf w

theorem lane_not {w : BitVec 2} {i : Nat} (hi : i < lanesOf w) (x : VWord) :
    lane w (~~~x) i = 2 ^ laneW w - 1 - lane w x i := by
  refine Nat.eq_of_testBit_eq fun k => ?_
  rw [Nat.sub_sub, Nat.add_comm 1, Nat.testBit_two_pow_sub_succ (lane_lt w x i), testBit_lane, testBit_lane]
  by_cases hk : k < laneW w
  · simp [hk, lane_bit_lt hi hk]
  · simp [hk]

/-! ### Masks (R103) -/

theorem bitOf_eq_getLsbD (m : Word) (i : Nat) : bitOf m i = m.getLsbD i := by
  rw [← BitVec.testBit_toNat, Nat.testBit_eq_decide_div_mod_eq, bitOf, beq_eq_decide]

/-- A mask has the bits that it is built from, and 0 above the lanes. -/
theorem getLsbD_laneMask (w : BitVec 2) (p : Nat → Bool) {i : Nat} (hi : i < 64) :
    (laneMask w p).getLsbD i = (decide (i < lanesOf w) && p i) := by
  have hp : ∀ i, bnat (p i) < 2 := fun i => by unfold bnat; split <;> decide
  have hlt := ofDigits_map_range_lt Nat.one_lt_two hp (lanesOf w)
  simp only [laneMask, word, foldl_eq_ofDigits, BitVec.getLsbD_ofNat, hi, decide_true, Bool.true_and]
  by_cases hl : i < lanesOf w
  · rw [Nat.testBit_eq_decide_div_mod_eq, ofDigits_map_range_digit hp hl]
    cases hb : p i <;> simp [hl, bnat]
  · rw [Nat.testBit_lt_two_pow (hlt.trans_le (Nat.pow_le_pow_right Nat.two_pos (Nat.le_of_not_lt hl)))]
    simp [hl]

/-! ### What retirement leaves in the registers -/

theorem retired_n (x : Strand) : (retired x).n = x.n := by
  unfold retired
  split <;> exact step_n x 1

theorem retired_v (x : Strand) : (retired x).v = x.v := by
  unfold retired
  split <;> exact step_v x 1

theorem retire_setV_getV (s : State) (g : Nat) (d : Reg) (v : VWord) : (((s.setV g d v).retire g).strand g).getV d = v := by
  unfold Strand.getV
  rw [retire_strand, retired_v, setV_strand]
  exact getV_setV_same _ _ _

theorem retire_setN_getN (s : State) (g : Nat) {d : Reg} (v : Word) (hd : d ≠ 0) :
    (((s.setN g d v).retire g).strand g).getN d = v := by
  rw [retire_strand, getN_congr (retired_n _), setN_strand, getN_setN_same _ _ _ hd]

/-! ### The operand forms -/

/-- An instruction that retires with v written to register d leaves the lanes of v. -/
theorem lanesGive_of_exec {c : Instr} {s t : State} {g : Nat} {w : BitVec 2} {d : Reg} {v : VWord} {f : Nat → Nat}
    (hc : exec c s = .next ((t.setV g d v).retire g)) (hv : ∀ i, i < lanesOf w → lane w v i = f i % 2 ^ laneW w) :
    lanesGive c s g w d f :=
  ⟨_, hc, fun i hi => by rw [retire_setV_getV, hv i hi]⟩

section
variable {c : Instr} {s : State} {g : Nat} {w : BitVec 2} {d a b : Reg} {f : Nat → Nat}

theorem lanesGive_of_execVVV {F : VWord → VWord → VWord → VWord} (hc : exec c s = execVVV g s d a b true F)
    (h : ready s g { vec := true, regs := [.v d, .v a, .v b] } = true)
    (hv : let u := (begun s g).strand g
      ∀ i, i < lanesOf w → lane w (F (u.getV d) (u.getV a) (u.getV b)) i = f i % 2 ^ laneW w) : lanesGive c s g w d f :=
  lanesGive_of_exec (hc.trans (runInsn_ok h rfl)) hv

theorem lanesGive_of_execVVN {F : VWord → VWord → Word → VWord} (hc : exec c s = execVVN g s d a b true F)
    (h : ready s g { vec := true, regs := [.v d, .v a, .n b] } = true)
    (hv : let u := (begun s g).strand g
      ∀ i, i < lanesOf w → lane w (F (u.getV d) (u.getV a) (u.getN b)) i = f i % 2 ^ laneW w) : lanesGive c s g w d f :=
  lanesGive_of_exec (hc.trans (runInsn_ok h rfl)) hv

theorem lanesGive_of_execVN {legal : Bool} {F : VWord → Word → VWord} (hc : exec c s = execVN g s d a legal F)
    (hl : legal = true) (h : ready s g { vec := true, regs := [.v d, .n a] } = true)
    (hv : let u := (begun s g).strand g
      ∀ i, i < lanesOf w → lane w (F (u.getV d) (u.getN a)) i = f i % 2 ^ laneW w) : lanesGive c s g w d f := by
  subst hl
  exact lanesGive_of_exec (hc.trans (runInsn_ok h rfl)) hv

theorem maskGives_of_execNVV {F : VWord → VWord → Word} {p : Nat → Bool} (hc : exec c s = execNVV g s d a b true F)
    (h : ready s g { vec := true, regs := [.n d, .v a, .v b] } = true)
    (hm : F (((begun s g).strand g).getV a) (((begun s g).strand g).getV b) = laneMask w p) : maskGives c s g w d p :=
  ⟨_, hc.trans (runInsn_ok h rfl), fun hd i hi => by rw [retire_setN_getN _ _ _ hd, hm, getLsbD_laneMask w p hi]⟩

theorem gives_of_execNV {legal : Bool} {F : VWord → Word} {v : Word} (hc : exec c s = execNV g s d a legal F)
    (hl : legal = true) (h : ready s g { vec := true, regs := [.n d, .v a] } = true)
    (hv : F (((begun s g).strand g).getV a) = v) : Gives c s (((begun s g).setN g d v).retire g) := by
  subst hl hv
  exact hc.trans (runInsn_ok h rfl)

end

/-- Settles O6: each instruction by its operand form; what is built from lanes has them, the bitwise operations act within
the lanes, whatever W is, and a mask has the bits that it is built from. -/
theorem vectorLaneResults : Obligations.VectorLaneResults := by
  intro s g w d a b
  have built (f : Nat → Nat) : ∀ i, i < lanesOf w → lane w (ofLanes w f) i = f i % 2 ^ laneW w := fun _ => lane_ofLanes w f
  refine ⟨fun h => ⟨?vadd, ?vsub, ?vand, ?vor, ?vxor, ?vandn, ?vmin, ?vmax, ?vminu, ?vmaxu⟩,
    fun h => ⟨?vshl, ?vshr, ?vsar, ?vsel, ?vcompress⟩, fun h => ⟨?vsplat, fun hb => ?vins⟩, fun h hb => ?vext,
    fun h => ⟨?vcmpeq, ?vcmplt, ?vcmpltu⟩⟩
  case vadd => exact lanesGive_of_execVVV (execVadd.eq_def ..) h (built _)
  case vsub => exact lanesGive_of_execVVV (execVsub.eq_def ..) h (built _)
  case vand => exact lanesGive_of_execVVV (execVand.eq_def g w ..) h fun i _ => by rw [← lane_and, lane_mod]
  case vor => exact lanesGive_of_execVVV (execVor.eq_def g w ..) h fun i _ => by rw [← lane_or, lane_mod]
  case vxor => exact lanesGive_of_execVVV (execVxor.eq_def g w ..) h fun i _ => by rw [← lane_xor, lane_mod]
  case vandn =>
    exact lanesGive_of_execVVV (execVandn.eq_def g w ..) h fun i hi => by rw [← lane_not hi, ← lane_and, lane_mod]
  case vmin => exact lanesGive_of_execVVV (execVmin.eq_def ..) h (built _)
  case vmax => exact lanesGive_of_execVVV (execVmax.eq_def ..) h (built _)
  case vminu => exact lanesGive_of_execVVV (execVminu.eq_def ..) h (built _)
  case vmaxu => exact lanesGive_of_execVVV (execVmaxu.eq_def ..) h (built _)
  case vshl => exact lanesGive_of_execVVN (execVshl.eq_def ..) h (built _)
  case vshr => exact lanesGive_of_execVVN (execVshr.eq_def ..) h (built _)
  case vsar => exact lanesGive_of_execVVN (execVsar.eq_def ..) h (built _)
  case vsel =>
    simp only [← bitOf_eq_getLsbD]
    exact lanesGive_of_execVVN (execVsel.eq_def ..) h (built _)
  case vcompress =>
    simp only [← bitOf_eq_getLsbD]
    exact lanesGive_of_execVVN (execVcompress.eq_def ..) h (built _)
  case vsplat => exact lanesGive_of_execVN (execVsplat.eq_def ..) rfl h (built _)
  case vins =>
    refine lanesGive_of_execVN (execVins.eq_def ..) (decide_eq_true hb) h fun i hi => ?_
    simp only [lane_ofLanes w _ hi, beq_iff_eq]
  case vext => exact gives_of_execNV (execVext.eq_def ..) (decide_eq_true hb) h rfl
  case vcmpeq => exact maskGives_of_execNVV (execVcmpeq.eq_def ..) h rfl
  case vcmplt => exact maskGives_of_execNVV (execVcmplt.eq_def ..) h rfl
  case vcmpltu => exact maskGives_of_execNVV (execVcmpltu.eq_def ..) h rfl

/-! ### The CRC and hash steps -/

theorem setWidth_word (n : Nat) : (word n).setWidth 256 = BitVec.ofNat 256 (n % 2 ^ 64) :=
  BitVec.eq_of_toNat_eq (by simp [word])

/-- The lane mix ends in the exclusive or of two 64-bit numbers (R106). -/
theorem mixLane_lt (a b : Nat) : mixLane a b < 2 ^ 64 := by
  have hx (n : Nat) : n % 2 ^ 64 < 2 ^ 64 := Nat.mod_lt _ (Nat.two_pow_pos 64)
  exact Nat.xor_lt_two_pow (hx _) ((Nat.div_le_self _ _).trans_lt (hx _))

theorem gives_of_vcrc {c : Instr} {s : State} {g : Nat} {d a b : Reg} {F : Word → VWord → Word} {n : Nat}
    (hc : exec c s = vcrc g 0 d a b s F) (h : ready s g { vec := true, regs := [.n d, .n a, .v b] } = true)
    (hn : F (((begun s g).strand g).getN a) (((begun s g).strand g).getV b) = word n) :
    Gives c s (((begun s g).long g (.n d) (BitVec.ofNat 256 (n % 2 ^ 64)) .value).retire g) := by
  rw [← setWidth_word, ← hn]
  exact hc.trans (runInsn_ok h rfl)

theorem crcAndHashSteps_hold : crcAndHashSteps := by
  intro s g k d a b
  refine ⟨fun h => ⟨?vcrc32c, ?vcrc64⟩, fun h => ?vhmix, fun h => ?vhfold⟩
  case vcrc32c => exact gives_of_vcrc (execVcrc32c.eq_def ..) h rfl
  case vcrc64 => exact gives_of_vcrc (execVcrc64.eq_def ..) h rfl
  case vhmix =>
    have hc : exec (.vhmix g 3 d a b) s = _ := execVhmix.eq_def ..
    refine ⟨_, hc.trans (runInsn_ok h rfl), _, rfl, fun i hi => ?_⟩
    exact (lane_ofLanes 3 _ hi).trans (Nat.mod_eq_of_lt (mixLane_lt _ _))
  case vhfold =>
    have hc : exec (.vhfold g 3 d a 0) s = _ := execVhfold.eq_def ..
    exact hc.trans (runInsn_ok h rfl)

/-! ### The retirement of a long operation -/

theorem dropAt_eq_eraseIdx {α : Type} (k : Nat) (l : List α) : dropAt k l = l.eraseIdx k := by
  induction l generalizing k with
  | nil => simp [dropAt]
  | cons x l ih =>
    cases k with
    | zero => rfl
    | succ k => simp [dropAt, ih]

/-- LONG_OP_COMPLETE writes the result of an operation that waits for nothing more. -/
theorem longOpComplete_finishes {s : State} {g k : Nat} {o : LongOp} (hg : g < 512)
    (ho : (s.strand g).longOps[k]? = some o)
    (hk : o.kind = .value ∨ ∃ line seq, o.kind = .far line seq ∧ s.dev.directOpen (g, seq) = false) :
    execLongOpComplete g k s = .next (s.finishLong g k o.dst o.val) := by
  rcases hk with hk | ⟨line, seq, hk, hd⟩
  · simp [execLongOpComplete, hg, ho, hk]
  · simp [execLongOpComplete, hg, ho, hk, hd]

theorem longOperationCompletes_holds : longOperationCompletes := by
  intro s g k o hg ho hk
  have hc : exec (.longOpComplete g k) s = _ := longOpComplete_finishes hg ho hk
  rw [State.finishLong, dropAt_eq_eraseIdx] at hc
  exact hc

/-- Settles O7: the steps set in flight what R105 and R106 compute, and a completion writes what waits. -/
theorem hashStepsAndLongOperations : Obligations.HashStepsAndLongOperations :=
  ⟨crcAndHashSteps_hold, longOperationCompletes_holds⟩

end Sys2Proof.Proofs
end

