-- ==== Sys2Proof/Proofs/ResetAndStep.lean ====
section
/-!
PROOFS. The step of the block and the state after reset (R50, R503).
-/

namespace Sys2Proof.Proofs

open Sys2Proof Sys2Proof.Machine Sys2Proof.Laws

/-- Settles O1: `step` takes the front command and runs it on the state that holds the queue's rest. -/
theorem stepRunsTheFrontCommand : Obligations.StepRunsTheFrontCommand := fun _ _ _ => rfl

/-! ### The strands after reset -/

/-- The boot strand: at its Cold values, and not parked (R503). -/
theorem reset_strand_zero : State.reset.strand 0 = { Strand.reset with parked := false } := rfl

/-- Every other strand is at its Cold values (R50). -/
theorem reset_strand_other {g : Nat} (hg : g ≠ 0) : State.reset.strand g = Strand.reset := by
  simp [State.strand, State.reset, SMap.get, hg]

/-- Every strand after reset is the Cold strand, with strand 0 alone not parked. -/
theorem reset_strand (g : Nat) : State.reset.strand g = { Strand.reset with parked := g != 0 } := by
  by_cases hg : g = 0
  · subst hg; rfl
  · rw [reset_strand_other hg, bne_iff_ne.mpr hg]; rfl

/-- The address that every strand's PC has after reset: the field of BOOT_VECTOR counts words (R503). -/
theorem bootPc_eq : bootPc = BitVec.ofNat 64 (Dev.reset.fld R.BOOT_VECTOR_ADDR * 4) := by decide +kernel

theorem coldStrand_fits : strandFits Strand.reset := by
  have hpc : bootPc.toNat % 4 = 0 := by decide +kernel
  have hslot : ∀ sl, Strand.reset.slot = some sl → sl.branch.toNat % 4 = 0 ∧ sl.next.toNat % 4 = 0 := by
    intro sl h
    cases h
  exact ⟨by decide, by decide, by decide, by decide, by decide, by decide, hpc, by decide, by decide, by decide, by decide,
    hslot, rfl⟩

/-- Whether a strand is parked is no part of its form. -/
theorem reset_strand_fits (g : Nat) : strandFits (State.reset.strand g) := by
  rw [reset_strand]
  exact coldStrand_fits

theorem reset_strands_wf : SMap.wf (fun _ => Strand.reset) State.reset.strands = true := by
  have h : ({ Strand.reset with parked := false } : Strand) ≠ Strand.reset := fun e => absurd (congrArg Strand.parked e) (by decide)
  simp [State.reset, SMap.wf, SMap.wfFrom, h]

/-- Settles O58: the boot strand is listed because it is not parked; memories and the register space list nothing. -/
theorem resetMeetsTheInvariants : Obligations.ResetMeetsTheInvariants :=
  ⟨⟨reset_strands_wf, reset_strand_fits⟩, rfl, rfl, rfl⟩

/-- No core's L2 is enabled after reset (R201, R503): the enable's Cold value is 0. -/
theorem reset_l2_off {c : Nat} (hc : c < 288) : Dev.reset.l2On c = false := by
  have h : ∀ c : Fin 288, Dev.reset.l2On c = false := by decide +kernel
  exact h ⟨c, hc⟩

/-- Settles O59: every strand is the Cold strand but for strand 0, which is not parked. -/
theorem resetState : Obligations.ResetState := by
  refine ⟨rfl, rfl, fun g => ?_, fun c hc => reset_l2_off hc, fun off => rfl⟩
  rw [reset_strand]
  have hpl : Strand.reset.pl = 2 := by decide
  have hie : Strand.reset.ie = false := by decide
  have hsealed : Strand.reset.sealedB = false := by decide
  exact ⟨rfl, bootPc_eq, hpl, hie, hsealed, rfl, rfl, rfl, rfl, rfl, rfl, rfl, rfl, rfl, rfl,
    fun r => ⟨by unfold Strand.getN; split <;> rfl, rfl⟩⟩

end Sys2Proof.Proofs
end

