-- ==== Sys2Proof/Proofs/IntegerResults.lean ====
section
/-!
PROOFS. Integer results (R90 to R93): the model's arithmetic on words as the operations of bit vectors, and what each
operand form gives.
-/

namespace Sys2Proof.Proofs

open Sys2Proof Sys2Proof.Machine Sys2Proof.Laws

/-! ### Words as bit vectors -/

theorem word_toNat (x : Word) : word x.toNat = x := (BitVec.ofNat_toNat 64 x).trans (BitVec.setWidth_eq x)

theorem word_mul_two_pow (x : Word) (n : Nat) : word (x.toNat * 2 ^ n) = x <<< n :=
  BitVec.eq_of_toNat_eq (by simp [word, Nat.shiftLeft_eq])

theorem word_div_two_pow (x : Word) (n : Nat) : word (x.toNat / 2 ^ n) = x >>> n :=
  BitVec.eq_of_toNat_eq (by
    simp only [word, BitVec.toNat_ofNat, BitVec.toNat_ushiftRight, Nat.shiftRight_eq_div_pow]
    exact Nat.mod_eq_of_lt (Nat.lt_of_le_of_lt (Nat.div_le_self _ _) x.isLt))

theorem sarN_eq (x : Word) (n : Nat) : sarN x n = x.sshiftRight n := by
  rw [sarN, BitVec.sshiftRight, Int.shiftRight_eq_div_pow]
  rfl

theorem rotR_eq (x : Word) {n : Nat} (hn : n < 64) : rotR x n = x.rotateRight n := by
  have hsplit : 2 ^ n * 2 ^ (64 - n) = 2 ^ 64 := by rw [← Nat.pow_add]; congr 1; omega
  have hhigh : x.toNat <<< (64 - n) % 2 ^ 64 = 2 ^ (64 - n) * (x.toNat % 2 ^ n) := by
    rw [Nat.shiftLeft_eq, ← hsplit, Nat.mul_mod_mul_right, Nat.mul_comm]
  have hlow : x.toNat / 2 ^ n < 2 ^ (64 - n) := Nat.div_lt_of_lt_mul (by rw [hsplit]; exact x.isLt)
  have hsum : x.toNat / 2 ^ n + x.toNat % 2 ^ n * 2 ^ (64 - n) < 2 ^ 64 := by
    have hm := Nat.mul_le_mul_right (2 ^ (64 - n)) (Nat.mod_lt x.toNat (Nat.two_pow_pos n))
    rw [hsplit, Nat.succ_mul] at hm
    omega
  refine BitVec.eq_of_toNat_eq ?_
  rw [BitVec.toNat_rotateRight, Nat.mod_eq_of_lt hn, hhigh, Nat.shiftRight_eq_div_pow, Nat.or_comm,
    ← Nat.two_pow_add_eq_or_of_lt hlow, rotR, word, BitVec.toNat_ofNat, Nat.mod_eq_of_lt hsum]
  ring

/-- A number's low n bits, read as a signed number, are the sign extension of its low n bits. -/
theorem sxN_eq (n : Nat) (x : Word) : sxN n x = (x.setWidth n).signExtend 64 := by
  rw [sxN, BitVec.signExtend, BitVec.toInt_eq_toNat_bmod, BitVec.toNat_setWidth]
  simp

theorem sx16_eq (i : BitVec 16) : sx16 i = i.signExtend 64 := rfl

theorem zx16_eq (i : BitVec 16) : zx16 i = i.setWidth 64 := BitVec.ofNat_toNat 64 i

theorem low32_eq (x : Word) : word (x.toNat % 2 ^ 32) = (x.setWidth 32).setWidth 64 := BitVec.eq_of_toNat_eq (by simp [word])

/-- The bits of a word whose field is replaced. -/
theorem getLsbD_putF (w : Word) {lo width : Nat} (x i : Nat) (h : lo + width ≤ 64) :
    (putF w lo width x).getLsbD i = if lo ≤ i ∧ i < lo + width then x.testBit (i - lo) else w.getLsbD i := by
  have hx : x % 2 ^ width < 2 ^ width := Nat.mod_lt _ (Nat.two_pow_pos _)
  have hw : w.toNat % 2 ^ lo < 2 ^ lo := Nat.mod_lt _ (Nat.two_pow_pos _)
  have hform : (putF w lo width x).toNat =
      2 ^ lo * (2 ^ width * (w.toNat / 2 ^ (lo + width)) + x % 2 ^ width) + w.toNat % 2 ^ lo := by
    rw [putF_toNat w lo width x h, Nat.pow_add]
    ring
  rw [← BitVec.testBit_toNat, ← BitVec.testBit_toNat, hform, Nat.testBit_two_pow_mul_add _ hw, Nat.testBit_two_pow_mul_add _ hx,
    Nat.testBit_mod_two_pow, Nat.testBit_mod_two_pow, Nat.testBit_div_two_pow]
  by_cases hlo : i < lo
  · simp [hlo, Nat.not_le.mpr hlo]
  · have hle : lo ≤ i := Nat.le_of_not_lt hlo
    by_cases hin : i < lo + width
    · have hd : i - lo < width := by omega
      simp [hlo, hle, hin, hd]
    · have hd : ¬ i - lo < width := by omega
      have hs : lo + width + (i - lo - width) = i := by omega
      simp [hlo, hle, hin, hd, Nat.add_comm, hs]

/-! ### Counting bits (R90) -/

theorem natBit_eq_testBit (n i : Nat) : natBit n i = n.testBit i := by
  rw [natBit, Nat.testBit_eq_decide_div_mod_eq, beq_eq_decide]

theorem natBit_getLsbD (x : Word) (i : Nat) : natBit x.toNat i = x.getLsbD i := natBit_eq_testBit _ _

theorem natBit_half (n i : Nat) : natBit (n / 2) i = natBit n (i + 1) := by
  rw [natBit_eq_testBit, natBit_eq_testBit, Nat.testBit_succ]

theorem clzN_eq (n x : Nat) : clzN n x = ((List.range n).map fun i => natBit x (n - 1 - i)).idxOf true := by
  induction n with
  | zero => rfl
  | succ n ih =>
    rw [List.range_succ_eq_map, List.map_cons, List.map_map, List.idxOf_cons, clzN, ih]
    have htail : ((fun i => natBit x (n + 1 - 1 - i)) ∘ Nat.succ) = fun i => natBit x (n - 1 - i) :=
      funext fun i => congrArg (natBit x) (by simp only [Nat.succ_eq_add_one]; omega)
    rw [htail, Nat.add_comm 1]
    cases h : natBit x n <;> simp [h]

theorem ctzN_eq (n x : Nat) : ctzN n x = ((List.range n).map fun i => natBit x i).idxOf true := by
  induction n generalizing x with
  | zero => rfl
  | succ n ih =>
    rw [List.range_succ_eq_map, List.map_cons, List.map_map, List.idxOf_cons, ctzN, ih]
    have htail : ((fun i => natBit x i) ∘ Nat.succ) = fun i => natBit (x / 2) i := funext fun i => (natBit_half x i).symm
    have hhead : natBit x 0 = (x % 2 == 1) := by simp [natBit]
    rw [htail, hhead, Nat.add_comm 1]
    cases x % 2 == 1 <;> simp

theorem popN_eq (n x : Nat) : popN n x = (List.range n).countP fun i => natBit x i := by
  induction n generalizing x with
  | zero => rfl
  | succ n ih =>
    rw [List.range_succ_eq_map, List.countP_cons, List.countP_map, popN, ih]
    have htail : ((fun i => natBit x i) ∘ Nat.succ) = fun i => natBit (x / 2) i := funext fun i => (natBit_half x i).symm
    have hhead : natBit x 0 = (x % 2 == 1) := by simp [natBit]
    rw [htail, hhead, Nat.add_comm]
    rcases Nat.mod_two_eq_zero_or_one x with h | h <;> simp [h]

theorem leadingZeros_eq (x : Word) :
    word (clzN 64 x.toNat) = BitVec.ofNat 64 (((List.range 64).map fun i => x.getMsbD i).idxOf true) := by
  rw [clzN_eq]
  congr 2
  refine List.map_congr_left fun i hi => ?_
  rw [natBit_getLsbD, BitVec.getMsbD_eq_getLsbD, decide_eq_true (List.mem_range.mp hi), Bool.true_and]

theorem trailingZeros_eq (x : Word) :
    word (ctzN 64 x.toNat) = BitVec.ofNat 64 (((List.range 64).map fun i => x.getLsbD i).idxOf true) := by
  simp only [ctzN_eq, natBit_getLsbD]

theorem popCount_eq (x : Word) : word (popN 64 x.toNat) = BitVec.ofNat 64 ((List.range 64).countP fun i => x.getLsbD i) := by
  simp only [popN_eq, natBit_getLsbD]

/-- A byte below a number is the number's bits with the byte appended. -/
theorem ofNat_byte_add (m k : Nat) (b : Byte) : BitVec.ofNat (m + 8) (b.toNat + 256 * k) = BitVec.ofNat m k ++ b := by
  refine BitVec.eq_of_toNat_eq ?_
  rw [BitVec.toNat_append, ← Nat.shiftLeft_add_eq_or_of_lt b.isLt, Nat.shiftLeft_eq, BitVec.toNat_ofNat, BitVec.toNat_ofNat,
    Nat.pow_add, Nat.mul_comm (k % 2 ^ m), Nat.mul_comm (2 ^ m), show (256 : Nat) = 2 ^ 8 from rfl]
  have hb : b.toNat < 2 ^ 8 := b.isLt
  rw [Nat.mod_mul, Nat.add_mul_mod_self_left, Nat.mod_eq_of_lt hb, Nat.add_mul_div_left _ _ (Nat.two_pow_pos 8),
    Nat.div_eq_of_lt hb, Nat.zero_add, Nat.add_comm]

/-- Byte i of a word. -/
theorem ofNat_div_eq_extract (x : Word) (i : Nat) : BitVec.ofNat 8 (x.toNat / 2 ^ i) = x.extractLsb' i 8 :=
  BitVec.eq_of_toNat_eq (by simp [Nat.shiftRight_eq_div_pow])

/-- The bytes of a word in reverse order (R90). -/
theorem bswap_eq (x : Word) : bswap x = x.extractLsb' 0 8 ++ x.extractLsb' 8 8 ++ x.extractLsb' 16 8 ++ x.extractLsb' 24 8
    ++ x.extractLsb' 32 8 ++ x.extractLsb' 40 8 ++ x.extractLsb' 48 8 ++ x.extractLsb' 56 8 := by
  have hlow : BitVec.ofNat 8 (x.toNat % 256) = x.setWidth 8 := BitVec.eq_of_toNat_eq (by simp)
  simp only [bswap, leBytes, leNat, word, List.reverse_cons, List.reverse_nil, List.nil_append, List.cons_append,
    Nat.div_div_eq_div_mul]
  rw [ofNat_byte_add 56, ofNat_byte_add 48, ofNat_byte_add 40, ofNat_byte_add 32, ofNat_byte_add 24, ofNat_byte_add 16,
    ofNat_byte_add 8]
  simp [← ofNat_div_eq_extract, hlow]

/-! ### Products and quotients (R92, R93) -/

/-- The high word of the signed product. -/
theorem mulHigh_signed (x y : Word) :
    BitVec.ofInt 64 (x.toInt * y.toInt / 2 ^ 64) = (x.signExtend 128 * y.signExtend 128).extractLsb' 64 64 := by
  have h : x.signExtend 128 * y.signExtend 128 = BitVec.ofInt 128 (x.toInt * y.toInt) := (BitVec.ofInt_mul ..).symm
  rw [h]
  generalize x.toInt * y.toInt = z
  refine BitVec.eq_of_toNat_eq ?_
  simp only [BitVec.toNat_ofInt, BitVec.extractLsb'_toNat, Nat.shiftRight_eq_div_pow]
  omega

/-- The high word of the unsigned product. -/
theorem mulHigh_unsigned (x y : Word) :
    word (x.toNat * y.toNat / 2 ^ 64) = (x.setWidth 128 * y.setWidth 128).extractLsb' 64 64 := by
  have hlt : x.toNat * y.toNat < 2 ^ 64 * 2 ^ 64 := Nat.mul_lt_mul'' x.isLt y.isLt
  refine BitVec.eq_of_toNat_eq ?_
  simp only [word, BitVec.toNat_ofNat, BitVec.extractLsb'_toNat, Nat.shiftRight_eq_div_pow, BitVec.toNat_mul,
    BitVec.toNat_setWidth]
  rw [Nat.mod_eq_of_lt (a := x.toNat) (by omega), Nat.mod_eq_of_lt (a := y.toNat) (by omega), Nat.mod_eq_of_lt (b := 2 ^ 128) hlt]

theorem divS_eq (x y : Word) : divS x y = if y = 0 then BitVec.allOnes 64 else x.sdiv y := by
  simp only [divS, beq_iff_eq]
  congr 1
  refine BitVec.eq_of_toInt_eq ?_
  rw [BitVec.toInt_ofInt, BitVec.toInt_sdiv]

theorem remS_eq (x y : Word) : remS x y = if y = 0 then x else x.srem y := by
  simp only [remS, beq_iff_eq]
  congr 1
  rw [← BitVec.toInt_srem, BitVec.ofInt_toInt]

theorem divU_eq (x y : Word) : divU x y = if y = 0 then BitVec.allOnes 64 else x / y := by
  simp only [divU, beq_iff_eq]
  congr 1
  rw [← BitVec.toNat_udiv, word_toNat]

theorem remU_eq (x y : Word) : remU x y = if y = 0 then x else x % y := by
  simp only [remU, beq_iff_eq]
  congr 1
  rw [← BitVec.toNat_umod, word_toNat]

/-- Halfword k of a word replaced (R91). -/
theorem hins_eq (x : Word) {k : Nat} (hk : k < 4) (i : BitVec 16) :
    hins x k i = (x &&& ~~~(BitVec.ofNat 64 (0xFFFF * 2 ^ (16 * k)))) ||| (i.setWidth 64 <<< (16 * k)) := by
  have hones (j : Nat) : Nat.testBit 0xFFFF j = decide (j < 16) := Nat.testBit_two_pow_sub_one 16 j
  refine BitVec.eq_of_getLsbD_eq fun j hj => ?_
  rw [hins, getLsbD_putF x _ _ (by omega)]
  simp only [BitVec.getLsbD_or, BitVec.getLsbD_and, BitVec.getLsbD_not, BitVec.getLsbD_ofNat, BitVec.getLsbD_shiftLeft,
    BitVec.getLsbD_setWidth, Nat.testBit_mul_two_pow, hones, hj, decide_true, Bool.true_and, BitVec.testBit_toNat]
  by_cases hlo : 16 * k ≤ j
  · by_cases hin : j < 16 * k + 16
    · have hd : j - 16 * k < 16 := by omega
      simp [hlo, hin, hd, Nat.not_lt.mpr hlo]
      omega
    · have hd : ¬ j - 16 * k < 16 := by omega
      simp [hlo, hin, hd, BitVec.getLsbD_of_ge i _ (Nat.le_of_not_lt hd)]
  · simp [hlo, Nat.lt_of_not_le hlo]

/-! ### The operand forms -/

section
variable {c : Instr} {s : State} {g : Nat} {d a b : Reg} {legal zb : Bool} {v : Word}

theorem gives_of_execNNN {F : Word → Word → Word} (hc : exec c s = execNNN g s d a b zb F) (hz : (!zb || b == 0) = true)
    (h : ready s g { regs := [.n d, .n a, .n b] } = true)
    (hv : F (((begun s g).strand g).getN a) (((begun s g).strand g).getN b) = v) :
    Gives c s (((begun s g).setN g d v).retire g) := by
  subst hv
  exact hc.trans (runInsn_ok (i := fun _ => { legal := !zb || b == 0, regs := [.n d, .n a, .n b] }) (by rw [hz]; exact h) rfl)

theorem gives_of_execNNNLong {F : Word → Word → Word} (hc : exec c s = execNNNLong g s d a b F)
    (h : ready s g { regs := [.n d, .n a, .n b] } = true)
    (hv : F (((begun s g).strand g).getN a) (((begun s g).strand g).getN b) = v) :
    Gives c s (((begun s g).long g (.n d) (v.setWidth 256) .value).retire g) := by
  subst hv
  exact hc.trans (runInsn_ok h rfl)

theorem gives_of_execNNI {F : Word → Word} (hc : exec c s = execNNI g s d a legal F) (hl : legal = true)
    (h : ready s g { regs := [.n d, .n a] } = true) (hv : F (((begun s g).strand g).getN a) = v) :
    Gives c s (((begun s g).setN g d v).retire g) := by
  subst hl hv
  exact hc.trans (runInsn_ok h rfl)

end

theorem integerRegisterResults_hold : integerRegisterResults := by
  intro s g d a b h
  have hb0 : ∀ x : Word, x.toNat % 64 < 64 := fun x => Nat.mod_lt _ (by decide)
  refine ⟨?add, ?sub, ?and, ?or, ?xor, ?andn, ?shl, ?shr, ?sar, ?ror, ?slt, ?sltu, ?seq, ?min, ?max, ?minu, ?maxu, ?addw,
    ?subw, fun hb => ⟨?clz, ?ctz, ?popc, ?bswap, ?sextb, ?sexth, ?sextw, ?zextw⟩⟩
  case add => exact gives_of_execNNN (execAdd.eq_def ..) rfl h rfl
  case sub => exact gives_of_execNNN (execSub.eq_def ..) rfl h rfl
  case and => exact gives_of_execNNN (execAnd.eq_def ..) rfl h rfl
  case or => exact gives_of_execNNN (execOr.eq_def ..) rfl h rfl
  case xor => exact gives_of_execNNN (execXor.eq_def ..) rfl h rfl
  case andn => exact gives_of_execNNN (execAndn.eq_def ..) rfl h rfl
  case shl => exact gives_of_execNNN (execShl.eq_def ..) rfl h (word_mul_two_pow _ _)
  case shr => exact gives_of_execNNN (execShr.eq_def ..) rfl h (word_div_two_pow _ _)
  case sar => exact gives_of_execNNN (execSar.eq_def ..) rfl h (sarN_eq _ _)
  case ror => exact gives_of_execNNN (execRor.eq_def ..) rfl h (rotR_eq _ (hb0 _))
  case slt => exact gives_of_execNNN (execSlt.eq_def ..) rfl h rfl
  case sltu => exact gives_of_execNNN (execSltu.eq_def ..) rfl h rfl
  case seq => exact gives_of_execNNN (execSeq.eq_def ..) rfl h rfl
  case min => exact gives_of_execNNN (execMin.eq_def ..) rfl h rfl
  case max => exact gives_of_execNNN (execMax.eq_def ..) rfl h rfl
  case minu => exact gives_of_execNNN (execMinu.eq_def ..) rfl h rfl
  case maxu => exact gives_of_execNNN (execMaxu.eq_def ..) rfl h rfl
  case addw => exact gives_of_execNNN (execAddw.eq_def ..) rfl h (sxN_eq 32 _)
  case subw => exact gives_of_execNNN (execSubw.eq_def ..) rfl h (sxN_eq 32 _)
  case clz => exact gives_of_execNNN (execClz.eq_def ..) (by simp [hb]) h (leadingZeros_eq _)
  case ctz => exact gives_of_execNNN (execCtz.eq_def ..) (by simp [hb]) h (trailingZeros_eq _)
  case popc => exact gives_of_execNNN (execPopc.eq_def ..) (by simp [hb]) h (popCount_eq _)
  case bswap => exact gives_of_execNNN (execBswap.eq_def ..) (by simp [hb]) h (bswap_eq _)
  case sextb => exact gives_of_execNNN (execSextb.eq_def ..) (by simp [hb]) h (sxN_eq 8 _)
  case sexth => exact gives_of_execNNN (execSexth.eq_def ..) (by simp [hb]) h (sxN_eq 16 _)
  case sextw => exact gives_of_execNNN (execSextw.eq_def ..) (by simp [hb]) h (sxN_eq 32 _)
  case zextw => exact gives_of_execNNN (execZextw.eq_def ..) (by simp [hb]) h (low32_eq _)

theorem immediateResults_hold : immediateResults := by
  intro s g d a imm sh
  refine ⟨fun h => ⟨?addi, ?andi, ?ori, ?xori, ?slti, ?sltiu, ?shli, ?shri, ?sari, ?rori⟩, fun h => ?lui, fun h => ?apc,
    fun h ha => ?hins⟩
  case addi => exact gives_of_execNNI (execAddi.eq_def ..) rfl h rfl
  case andi => exact gives_of_execNNI (execAndi.eq_def ..) rfl h (congrArg (_ &&& ·) (zx16_eq imm))
  case ori => exact gives_of_execNNI (execOri.eq_def ..) rfl h (congrArg (_ ||| ·) (zx16_eq imm))
  case xori => exact gives_of_execNNI (execXori.eq_def ..) rfl h (congrArg (_ ^^^ ·) (zx16_eq imm))
  case slti => exact gives_of_execNNI (execSlti.eq_def ..) rfl h rfl
  case sltiu => exact gives_of_execNNI (execSltiu.eq_def ..) rfl h (by rw [← zx16_eq]; rfl)
  case shli => exact gives_of_execNNI (execShli.eq_def ..) rfl h (word_mul_two_pow _ _)
  case shri => exact gives_of_execNNI (execShri.eq_def ..) rfl h (word_div_two_pow _ _)
  case sari => exact gives_of_execNNI (execSari.eq_def ..) rfl h (sarN_eq _ _)
  case rori => exact gives_of_execNNI (execRori.eq_def ..) rfl h (rotR_eq _ sh.isLt)
  case lui => exact gives_of_execNNI (execLui.eq_def ..) rfl h (word_mul_two_pow _ _)
  case apc =>
    have hv : word ((sx16 imm).toNat * 2 ^ 12) = imm.signExtend 64 <<< 12 := word_mul_two_pow _ _
    have hc : exec (.apc g d 0 imm) s = _ := execApc.eq_def ..
    rw [← hv]
    exact hc.trans (runInsn_ok h rfl)
  case hins =>
    refine gives_of_execNNI (execHins.eq_def ..) (decide_eq_true ha) h ?_
    rw [Nat.mod_eq_of_lt ha]
    exact hins_eq _ ha imm

theorem multiplyDivideResults_hold : multiplyDivideResults := by
  intro s g d a b h
  refine ⟨?mul, ?mulh, ?mulhu, ?mulw, ?div, ?divu, ?rem, ?remu⟩
  case mul => exact gives_of_execNNN (execMul.eq_def ..) rfl h rfl
  case mulh => exact gives_of_execNNN (execMulh.eq_def ..) rfl h (mulHigh_signed _ _)
  case mulhu => exact gives_of_execNNN (execMulhu.eq_def ..) rfl h (mulHigh_unsigned _ _)
  case mulw => exact gives_of_execNNN (execMulw.eq_def ..) rfl h (sxN_eq 32 _)
  case div => exact gives_of_execNNNLong (execDiv.eq_def ..) h (divS_eq _ _)
  case divu => exact gives_of_execNNNLong (execDivu.eq_def ..) h (divU_eq _ _)
  case rem => exact gives_of_execNNNLong (execRem.eq_def ..) h (remS_eq _ _)
  case remu => exact gives_of_execNNNLong (execRemu.eq_def ..) h (remU_eq _ _)

/-- Settles O3: each instruction by its operand form, and the model's arithmetic as that of bit vectors. -/
theorem integerResults : Obligations.IntegerResults :=
  ⟨integerRegisterResults_hold, immediateResults_hold, multiplyDivideResults_hold⟩

end Sys2Proof.Proofs
end

