-- ==== Sys2Proof/Proofs/Transfers.lean ====
section
/-!
PROOFS. Branches, jumps and calls (R72, R94 to R97, R149): what a transfer leaves in its strand and in the others, and the
transfer in which each form ends.
-/

namespace Sys2Proof.Proofs

open Sys2Proof Sys2Proof.Machine Sys2Proof.Laws

/-! ### What a transfer leaves -/

/-- The strand after a transfer at its PC: the link register is written, and the slot executes or is annulled (R72). -/
def transferred (x : Strand) (execSlot taken : Bool) (target : Word) (link : Option Reg) (ras : List Word) : Strand :=
  let next := if taken then target else x.pc + 8
  let y := link.elim x fun r => x.setN r (x.pc + 8)
  if execSlot then
    { y.step 1 with
      pc := x.pc + 4
      slot := some ⟨x.pc, next, link.map fun r => (r, x.getN r), taken, x.ras⟩
      ras := ras }
  else
    { y.step 2 with
      pc := next
      ras := ras }

theorem transfer_strand (s : State) (g : Nat) (execSlot taken : Bool) (target : Word) (link : Option Reg) (ras : List Word) :
    (s.transfer g execSlot taken target link ras).strand g = transferred (s.strand g) execSlot taken target link ras := by
  unfold State.transfer transferred
  cases execSlot with
  | true => cases link <;> simp
  | false => cases link <;> cases taken <;> simp

theorem transfer_strand_other (s : State) (g k : Nat) (execSlot taken : Bool) (target : Word) (link : Option Reg)
    (ras : List Word) (hk : k ≠ g) : (s.transfer g execSlot taken target link ras).strand k = s.strand k := by
  unfold State.transfer
  cases execSlot with
  | true => simp [strand_setStrand_other _ _ _ _ hk]
  | false => cases taken <;> simp [strand_setStrand_other _ _ _ _ hk]

section
variable (x : Strand) (execSlot taken : Bool) (target : Word) (link : Option Reg) (ras : List Word)

theorem transferred_ras : (transferred x execSlot taken target link ras).ras = ras := by
  unfold transferred
  cases execSlot <;> rfl

theorem transferred_v : (transferred x execSlot taken target link ras).v = x.v := by
  unfold transferred
  cases execSlot <;> cases link <;> simp

theorem transferred_n : (transferred x execSlot taken target link ras).n = (link.elim x fun r => x.setN r (x.pc + 8)).n := by
  unfold transferred
  cases execSlot <;> simp

/-- An executed slot follows the transfer, and remembers it. -/
theorem transferred_slot : (transferred x true taken target link ras).pc = x.pc + 4 ∧
    (transferred x true taken target link ras).slot =
      some ⟨x.pc, if taken then target else x.pc + 8, link.map fun r => (r, x.getN r), taken, x.ras⟩ := ⟨rfl, rfl⟩

/-- An annulled slot is passed over; the transfer class never stands in a slot. -/
theorem transferred_annulled (hs : x.slot = none) :
    (transferred x false taken target link ras).pc = (if taken then target else x.pc + 8) ∧
    (transferred x false taken target link ras).slot = none := by
  refine ⟨rfl, ?_⟩
  cases link <;> simp [transferred, hs]

end

/-! ### Conditional branches (R94, R95) -/

theorem ready_slot_none {s : State} {g : Nat} {rs : List RegRef} (h : ready s g { transfer := true, regs := rs } = true) :
    ((begun s g).strand g).slot = none := by
  simp only [ready, passes, Bool.and_eq_true, Bool.not_eq_true'] at h
  obtain ⟨-, ⟨⟨⟨⟨-, hslot⟩, -⟩, -⟩, -⟩, -⟩ := h
  simpa using hslot

/-- A transfer from a state that keeps the strands of `begun` has the outcome of a conditional branch. -/
theorem branchOutcome_of_transfer {c : Instr} {s u : State} {g : Nat} {A taken : Bool} {disp : Int}
    (hc : exec c s = .next (u.transfer g (!A || taken) taken
      (((begun s g).strand g).pc + BitVec.ofInt 64 (disp * 4)) none ((begun s g).strand g).ras))
    (hu : ∀ k, u.strand k = (begun s g).strand k) (hs : ((begun s g).strand g).slot = none) :
    branchOutcome c s g A taken disp := by
  refine ⟨_, hc, ?_, ?_, ?_, ?_, fun k hk => ?_⟩
  · rw [transfer_strand, transferred_n, hu]; rfl
  · rw [transfer_strand, transferred_v, hu]
  · rw [transfer_strand, transferred_ras]
  · rw [transfer_strand, hu]
    cases A with
    | false => exact transferred_slot ..
    | true =>
      cases taken with
      | true => exact transferred_slot ..
      | false => exact transferred_annulled _ _ _ _ _ hs
  · rw [transfer_strand_other _ _ _ _ _ _ _ _ hk, hu]

/-- A conditional branch ends in its transfer; the events that it counts before leave the strands alone (R160). -/
theorem branchOutcome_of_condBranch {c : Instr} {s : State} {g : Nat} {A H taken : Bool} {rs : List RegRef} {disp : Int}
    {cond : Strand → Bool} (hc : exec c s = condBranch g A H rs disp cond s)
    (h : ready s g { transfer := true, regs := rs } = true) (hcond : cond ((begun s g).strand g) = taken) :
    branchOutcome c s g A taken disp := by
  subst hcond
  refine branchOutcome_of_transfer (hc.trans (runInsn_go h rfl)) (fun k => ?_) (ready_slot_none h)
  split
  · exact (countDirect_strand _ _ _ _ _).trans (ite_count_strand _ _ _ _ _)
  · exact ite_count_strand _ _ _ _ _

theorem condLe_eq (x : Word) : condLe x = x.sle 0 := rfl

theorem condGt_eq (x : Word) : condGt x = !x.sle 0 := by
  simp [condGt, BitVec.sle, ← decide_not]

theorem condGe_eq (x : Word) : condGe x = !x.slt 0 := by
  simp [condGe, BitVec.slt, ← decide_not]

theorem conditionalBranches_hold : conditionalBranches := by
  intro s g A H a b
  refine ⟨fun disp h => ⟨?beq, ?bne, ?blt, ?bge, ?ble, ?bgt⟩, fun disp h => ⟨?bceq, ?bcne, ?bclt, ?bcge, ?bcltu, ?bcgeu⟩⟩
  case beq => exact branchOutcome_of_condBranch (execBeq.eq_def ..) h rfl
  case bne => exact branchOutcome_of_condBranch (execBne.eq_def ..) h rfl
  case blt => exact branchOutcome_of_condBranch (execBlt.eq_def ..) h rfl
  case bge => exact branchOutcome_of_condBranch (execBge.eq_def ..) h (condGe_eq _)
  case ble => exact branchOutcome_of_condBranch (execBle.eq_def ..) h (condLe_eq _)
  case bgt => exact branchOutcome_of_condBranch (execBgt.eq_def ..) h (condGt_eq _)
  case bceq => exact branchOutcome_of_condBranch (execBceq.eq_def ..) h rfl
  case bcne => exact branchOutcome_of_condBranch (execBcne.eq_def ..) h rfl
  case bclt => exact branchOutcome_of_condBranch (execBclt.eq_def ..) h rfl
  case bcge => exact branchOutcome_of_condBranch (execBcge.eq_def ..) h rfl
  case bcltu => exact branchOutcome_of_condBranch (execBcltu.eq_def ..) h rfl
  case bcgeu => exact branchOutcome_of_condBranch (execBcgeu.eq_def ..) h rfl

/-! ### Jumps, calls and returns (R95, R96, R149) -/

/-- A taken transfer from a state that keeps the strands of `begun` has the outcome of a jump. -/
theorem jumpOutcome_of_transfer {c : Instr} {s u : State} {g : Nat} {A : Bool} {target : Word} {link : Option Reg}
    {ras : List Word} (hc : exec c s = .next (u.transfer g (!A) true target link ras))
    (hu : ∀ k, u.strand k = (begun s g).strand k) (hs : ((begun s g).strand g).slot = none) :
    jumpOutcome c s g A target link ras := by
  refine ⟨_, hc, fun r => ?_, ?_, ?_, ?_, fun k hk => ?_⟩
  · rw [transfer_strand, hu, getN_congr (transferred_n ..)]
    cases link with
    | none => simp
    | some q =>
      by_cases hr : q = r
      · subst hr
        by_cases h0 : q = 0
        · subst h0; rfl
        · rw [if_pos ⟨rfl, h0⟩]; exact getN_setN_same _ _ _ h0
      · simp [hr, getN_setN_other _ _ _ _ (Ne.symm hr)]
  · rw [transfer_strand, transferred_v, hu]
  · rw [transfer_strand, transferred_ras]
  · rw [transfer_strand, hu]
    cases A with
    | false => exact transferred_slot ..
    | true => exact transferred_annulled _ _ _ _ _ hs
  · rw [transfer_strand_other _ _ _ _ _ _ _ _ hk, hu]

theorem jumpOutcome_of_directJump {c : Instr} {s : State} {g : Nat} {A : Bool} {disp : BitVec 25} {link : Option Reg}
    (hc : exec c s = directJump g A disp link s)
    (h : ready s g { transfer := true, regs := (link.map RegRef.n).toList } = true) :
    let u := (begun s g).strand g
    jumpOutcome c s g A (u.pc + BitVec.ofInt 64 (disp.toInt * 4)) link
      (if link.isSome then ((u.pc + 8) :: u.ras).take 32 else u.ras) := by
  have hgo := hc.trans (runInsn_go h rfl)
  have hras : (if link.isSome then rasPush ((begun s g).strand g).ras (((begun s g).strand g).pc + 8)
      else (((begun s g).strand g).ras, false)).1 =
        if link.isSome then ((((begun s g).strand g).pc + 8) :: ((begun s g).strand g).ras).take 32
        else ((begun s g).strand g).ras := by
    split <;> rfl
  rw [hras] at hgo
  exact jumpOutcome_of_transfer hgo (fun k => (ite_count_strand _ _ _ _ _).trans (countDirect_strand _ _ _ _ _))
    (ready_slot_none h)

theorem ite_not_count_strand (p : Prop) [Decidable p] (s : State) (g ev k : Nat) :
    (if p then s else s.count g ev).strand k = s.strand k := by
  split <;> rfl

theorem align4_eq (w : Word) : align4 w = w &&& ~~~3#64 := by
  refine BitVec.eq_of_getLsbD_eq fun j hj => ?_
  have h3 : (3#64).getLsbD j = decide (j < 2) := by
    rw [BitVec.getLsbD_ofNat, decide_eq_true hj, Bool.true_and]
    exact Nat.testBit_two_pow_sub_one 2 j
  rw [align4, getLsbD_putF w 0 j (by decide), BitVec.getLsbD_and, BitVec.getLsbD_not, h3, decide_eq_true hj]
  by_cases h : j < 2 <;> simp [h]

theorem jumpOutcome_of_regJump {c : Instr} {s : State} {g : Nat} {A legal ret : Bool} {a : Reg} {link : Option Reg}
    (hc : exec c s = regJump g A legal a link ret s) (hl : legal = true)
    (h : ready s g { transfer := true, regs := .n a :: (link.map RegRef.n).toList } = true) :
    let u := (begun s g).strand g
    jumpOutcome c s g A (u.getN a &&& ~~~3#64) link
      (if link.isSome then ((u.pc + 8) :: u.ras).take 32 else if ret then u.ras.tail else u.ras) := by
  subst hl
  have hgo := hc.trans (runInsn_go h rfl)
  have hras : (if link.isSome then rasPush ((begun s g).strand g).ras (((begun s g).strand g).pc + 8)
      else (if ret then ((begun s g).strand g).ras.tail else ((begun s g).strand g).ras, false)).1 =
        if link.isSome then ((((begun s g).strand g).pc + 8) :: ((begun s g).strand g).ras).take 32
        else if ret then ((begun s g).strand g).ras.tail else ((begun s g).strand g).ras := by
    split <;> rfl
  rw [hras, align4_eq] at hgo
  refine jumpOutcome_of_transfer hgo (fun k => (ite_count_strand _ _ _ _ _).trans (ite_not_count_strand _ _ _ _ _))
    (ready_slot_none h)

theorem jumpsAndCalls_hold : jumpsAndCalls := by
  intro s g A disp d a
  refine ⟨fun h => ?j, fun h => ?call, fun h => ⟨?jr, ?ret⟩, fun h => ?callr⟩
  case j => exact jumpOutcome_of_directJump (link := none) (execJ.eq_def ..) h
  case call => exact jumpOutcome_of_directJump (link := some 31) (execCall.eq_def ..) h
  case jr => exact jumpOutcome_of_regJump (link := none) (ret := false) (execJr.eq_def ..) rfl h
  case ret => exact jumpOutcome_of_regJump (link := none) (ret := true) (execRet.eq_def ..) rfl h
  case callr => exact jumpOutcome_of_regJump (link := some d) (ret := false) (execCallr.eq_def ..) rfl h

/-- Settles O4: every branch, jump, call and return ends in one transfer, of which `transferred` says what it leaves. -/
theorem branchesAndJumps : Obligations.BranchesAndJumps := ⟨conditionalBranches_hold, jumpsAndCalls_hold⟩

end Sys2Proof.Proofs
end

