-- ==== Sys2Proof/Proofs/FloatingPoint.lean ====
section
/-!
PROOFS. Scalar floating-point results (R98 to R100) by their operand forms: a scalar result clears the bits above it (R49).
-/

namespace Sys2Proof.Proofs

open Sys2Proof Sys2Proof.Machine Sys2Proof.Laws

section
variable {c : Instr} {s : State} {g : Nat} {d a b : Reg} {legal : Bool} {w : VWord}

theorem gives_of_execVVV {F : VWord → VWord → VWord → VWord} (hc : exec c s = execVVV g s d a b legal F)
    (hl : legal = true) (h : ready s g { vec := true, regs := [.v d, .v a, .v b] } = true)
    (hv : let u := (begun s g).strand g
      F (u.getV d) (u.getV a) (u.getV b) = w) : Gives c s (((begun s g).setV g d w).retire g) := by
  subst hl hv
  exact hc.trans (runInsn_ok h rfl)

theorem gives_of_execFFF {zb : Bool} {F : Word → Word → Word → Word} {v : Word} (hc : exec c s = execFFF g s d a b zb F)
    (hz : (!zb || b == 0) = true) (h : ready s g { vec := true, regs := [.v d, .v a, .v b] } = true)
    (hv : let u := (begun s g).strand g
      F (u.getD d) (u.getD a) (u.getD b) = v) : Gives c s (((begun s g).setV g d (v.setWidth 256)).retire g) :=
  gives_of_execVVV hc hz h (congrArg (BitVec.setWidth 256) hv)

theorem gives_of_execVVVLong {F : VWord → VWord → VWord} (hc : exec c s = execVVVLong g s d a b legal F)
    (hl : legal = true) (h : ready s g { vec := true, regs := [.v d, .v a, .v b] } = true)
    (hv : let u := (begun s g).strand g
      F (u.getV a) (u.getV b) = w) : Gives c s (((begun s g).long g (.v d) w .value).retire g) := by
  subst hl hv
  exact hc.trans (runInsn_ok h rfl)

theorem gives_of_execNVV {F : VWord → VWord → Word} {v : Word} (hc : exec c s = execNVV g s d a b legal F)
    (hl : legal = true) (h : ready s g { vec := true, regs := [.n d, .v a, .v b] } = true)
    (hv : let u := (begun s g).strand g
      F (u.getV a) (u.getV b) = v) : Gives c s (((begun s g).setN g d v).retire g) := by
  subst hl hv
  exact hc.trans (runInsn_ok h rfl)

theorem gives_of_execVN {F : VWord → Word → VWord} (hc : exec c s = execVN g s d a legal F)
    (hl : legal = true) (h : ready s g { vec := true, regs := [.v d, .n a] } = true)
    (hv : let u := (begun s g).strand g
      F (u.getV d) (u.getN a) = w) : Gives c s (((begun s g).setV g d w).retire g) := by
  subst hl hv
  exact hc.trans (runInsn_ok h rfl)

end

/-- Clearing the sign bit (R99). -/
theorem clearSign_eq (x : Word) : putF x 63 1 0 = x &&& ~~~(1#64 <<< 63) := by
  refine BitVec.eq_of_getLsbD_eq fun j hj => ?_
  have hone : (1#64 <<< 63).getLsbD j = decide (j = 63) := by
    rw [BitVec.getLsbD_shiftLeft, BitVec.getLsbD_one, Bool.eq_iff_iff]
    simp
    omega
  rw [getLsbD_putF x 0 j (by decide), BitVec.getLsbD_and, BitVec.getLsbD_not, hone, decide_eq_true hj, Bool.true_and]
  by_cases h : j = 63
  · simp [h]
  · rw [if_neg (by omega)]
    simp [h]

/-- A number that a double encodes in 256 bits is its 64-bit word widened. -/
theorem ofNat_eq_setWidth_word {n : Nat} (hn : n < 2 ^ 64) : BitVec.ofNat 256 n = (word n).setWidth 256 := by
  rw [setWidth_word, Nat.mod_eq_of_lt hn]

theorem roundMag_le (f : FFmt) (m : Nat) (e : Int) (st : Bool) : f.roundMag m e st ≤ f.infBits := by
  unfold FFmt.roundMag
  split
  · exact Nat.zero_le _
  · exact Nat.min_le_right _ _

theorem encode_binary32_lt (v : FVal) (st : Bool) : fmtS.encode v st < 2 ^ 64 := by
  have hsign (s : Bool) {m : Nat} (hm : m ≤ fmtS.infBits) : fmtS.signed s m < 2 ^ 64 := by
    have hinf : fmtS.infBits = 2139095040 := rfl
    have hpos : fmtS.signPos = 31 := rfl
    have hs : bnat s ≤ 1 := by cases s <;> decide
    unfold FFmt.signed
    rw [hpos]
    omega
  cases v with
  | nan => exact (by decide : fmtS.canonNan < 2 ^ 64)
  | inf s => exact hsign s (Nat.le_refl _)
  | fin s m e => exact hsign s (roundMag_le ..)

theorem signedInt_eq (x : Word) : FVal.fin (decide (x.toInt < 0)) x.toInt.natAbs 0 = .fin x.msb x.toInt.natAbs 0 := by
  rw [BitVec.msb_eq_toInt]

theorem decD_setWidth_low32 (x : VWord) : x.toNat % 2 ^ 32 = (x.setWidth 64 : Word).toNat % 2 ^ 32 := by
  rw [BitVec.toNat_setWidth]
  omega

/-- Settles O5: each instruction by its operand form; the model computes on the same decoded values and rounds once. -/
theorem floatingPointResults : Obligations.FloatingPointResults := by
  intro s g d a b
  refine ⟨fun h => ⟨?fadd, ?fsub, ?fmul, ?fma, ?fmin, ?fmax, ?fdiv, fun hb => ⟨?fabs, ?fneg⟩⟩,
    fun h => ⟨?fsqrt, ?fcvtSD, ?fcvtDS⟩, fun h => ⟨?feq, ?flt, ?fle⟩, fun h => ⟨?fcvtLD, ?fcvtLuD, ?fmvN⟩,
    fun h => ⟨?fcvtDL, ?fcvtDLu, ?fmvV⟩⟩
  case fadd => exact gives_of_execFFF (execFadd.eq_def ..) rfl h rfl
  case fsub => exact gives_of_execFFF (execFsub.eq_def ..) rfl h rfl
  case fmul => exact gives_of_execFFF (execFmul.eq_def ..) rfl h rfl
  case fma => exact gives_of_execFFF (execFma.eq_def ..) rfl h rfl
  case fmin => exact gives_of_execFFF (execFmin.eq_def ..) rfl h rfl
  case fmax => exact gives_of_execFFF (execFmax.eq_def ..) rfl h rfl
  case fdiv => exact gives_of_execVVVLong (execFdiv.eq_def ..) rfl h rfl
  case fabs => exact gives_of_execFFF (execFabs.eq_def ..) (by simp [hb]) h (clearSign_eq _)
  case fneg => exact gives_of_execFFF (execFneg.eq_def ..) (by simp [hb]) h rfl
  case fsqrt => exact gives_of_execVVVLong (execFsqrt.eq_def ..) rfl h rfl
  case fcvtSD => exact gives_of_execVVV (execFcvtSD.eq_def ..) rfl h (ofNat_eq_setWidth_word (encode_binary32_lt _ _))
  case fcvtDS =>
    refine gives_of_execVVV (execFcvtDS.eq_def ..) rfl h ?_
    simp only [decD_setWidth_low32]
    rfl
  case feq => exact gives_of_execNVV (execFeq.eq_def ..) rfl h rfl
  case flt => exact gives_of_execNVV (execFlt.eq_def ..) rfl h rfl
  case fle => exact gives_of_execNVV (execFle.eq_def ..) rfl h rfl
  case fcvtLD => exact gives_of_execNV (execFcvtLD.eq_def ..) rfl h rfl
  case fcvtLuD => exact gives_of_execNV (execFcvtLuD.eq_def ..) rfl h rfl
  case fmvN => exact gives_of_execNV (execFmvN.eq_def ..) rfl h rfl
  case fcvtDL =>
    refine gives_of_execVN (execFcvtDL.eq_def ..) rfl h ?_
    simp only [signedInt_eq]
  case fcvtDLu => exact gives_of_execVN (execFcvtDLu.eq_def ..) rfl h rfl
  case fmvV => exact gives_of_execVN (execFmvV.eq_def ..) rfl h rfl

end Sys2Proof.Proofs
end

