-- ==== Sys2Proof/Proofs/WordFields.lean ====
section
/-!
PROOFS. Fields of words as masks: a field replaced, read and tested by the bits that a mask selects (R54 to R62).
-/

namespace Sys2Proof.Proofs

open Sys2Proof Sys2Proof.Machine Sys2Proof.Laws

/-- A word that takes the bits of a mask from one word and the others from another. -/
def blend (m v w : Word) : Word := (v &&& m) ||| (w &&& ~~~m)

/-- The mask of a field. -/
def fieldMask (lo width : Nat) : Word := BitVec.ofNat 64 ((2 ^ width - 1) * 2 ^ lo)

theorem getLsbD_fieldMask (lo width : Nat) {j : Nat} (hj : j < 64) :
    (fieldMask lo width).getLsbD j = decide (lo ≤ j ∧ j < lo + width) := by
  rw [fieldMask, BitVec.getLsbD_ofNat, decide_eq_true hj, Bool.true_and, Nat.testBit_mul_two_pow, Nat.testBit_two_pow_sub_one,
    ← Bool.decide_and]
  congr 1
  apply propext
  constructor <;> rintro ⟨h1, h2⟩ <;> exact ⟨h1, by omega⟩

theorem getLsbD_blend (m v w : Word) {j : Nat} (hj : j < 64) :
    (blend m v w).getLsbD j = if m.getLsbD j then v.getLsbD j else w.getLsbD j := by
  rw [blend, BitVec.getLsbD_or, BitVec.getLsbD_and, BitVec.getLsbD_and, BitVec.getLsbD_not, decide_eq_true hj]
  cases m.getLsbD j <;> simp

/-- A field that takes another word's field takes that word's bits. -/
theorem putF_getF (w v : Word) {lo width : Nat} (h : lo + width ≤ 64) :
    putF w lo width (getF v lo width) = blend (fieldMask lo width) v w := by
  refine BitVec.eq_of_getLsbD_eq fun j hj => ?_
  rw [getLsbD_putF w _ j h, getLsbD_blend _ _ _ hj, getLsbD_fieldMask _ _ hj, getF, Nat.testBit_mod_two_pow,
    Nat.testBit_div_two_pow, BitVec.testBit_toNat]
  by_cases hc : lo ≤ j ∧ j < lo + width
  · rw [if_pos hc, if_pos (decide_eq_true hc), Nat.sub_add_cancel hc.1, decide_eq_true (by omega), Bool.true_and]
  · rw [if_neg hc, if_neg (by simpa using hc)]

/-- A field that is cleared. -/
theorem putF_zero (w : Word) {lo width : Nat} (h : lo + width ≤ 64) : putF w lo width 0 = w &&& ~~~fieldMask lo width := by
  refine BitVec.eq_of_getLsbD_eq fun j hj => ?_
  rw [getLsbD_putF w _ j h, BitVec.getLsbD_and, BitVec.getLsbD_not, getLsbD_fieldMask _ _ hj, decide_eq_true hj]
  by_cases hc : lo ≤ j ∧ j < lo + width <;> simp [hc]

/-- The low bits of a word. -/
theorem word_getF_low (v : Word) (width : Nat) : word (getF v 0 width) = v &&& fieldMask 0 width := by
  refine BitVec.eq_of_getLsbD_eq fun j hj => ?_
  rw [word, BitVec.getLsbD_ofNat, BitVec.getLsbD_and, getLsbD_fieldMask _ _ hj, getF, Nat.testBit_mod_two_pow,
    Nat.testBit_div_two_pow, BitVec.testBit_toNat, decide_eq_true hj]
  simp [Bool.and_comm]

theorem blend_blend (m n v w : Word) : blend m v (blend n v w) = blend (m ||| n) v w := by
  refine BitVec.eq_of_getLsbD_eq fun j hj => ?_
  simp only [getLsbD_blend _ _ _ hj, BitVec.getLsbD_or]
  cases m.getLsbD j <;> simp

theorem blend_zero (m v : Word) : blend m v 0 = v &&& m := by simp [blend]

/-- Two parts of a word that take their bits from masks without a bit in common. -/
theorem blend_split {m n v w x : Word} (h : m &&& n = 0) :
    (v &&& m) ||| (w &&& ~~~(m ||| n)) ||| (x &&& n) = blend m v (blend n x w) := by
  refine BitVec.eq_of_getLsbD_eq fun j hj => ?_
  have hmn : (m.getLsbD j && n.getLsbD j) = false := by rw [← BitVec.getLsbD_and, h]; simp
  simp only [getLsbD_blend _ _ _ hj, BitVec.getLsbD_or, BitVec.getLsbD_and, BitVec.getLsbD_not, hj, decide_true, Bool.true_and]
  cases hm : m.getLsbD j <;> cases hn : n.getLsbD j <;> simp_all

theorem blend_self (m w : Word) : blend m w w = w := by
  refine BitVec.eq_of_getLsbD_eq fun j hj => ?_
  rw [getLsbD_blend _ _ _ hj, ite_self]

theorem blend_idem (m v w : Word) : blend m (blend m v w) w = blend m v w := by
  refine BitVec.eq_of_getLsbD_eq fun j hj => ?_
  simp only [getLsbD_blend _ _ _ hj]
  cases m.getLsbD j <;> simp

/-- A field below its mask's bits: what it takes is masked first. -/
theorem blend_and (m n v w : Word) : blend m (v &&& n) w = (v &&& (m &&& n)) ||| (w &&& ~~~m) := by
  rw [blend, BitVec.and_assoc, BitVec.and_comm n m]

/-- A field's value as that of the bits extracted. -/
theorem getF_eq_extract (w : Word) (lo width : Nat) : getF w lo width = (w.extractLsb' lo width).toNat := by
  rw [getF, BitVec.extractLsb'_toNat, Nat.shiftRight_eq_div_pow]

/-! ### STATUS and HSTATUS (R56, R57) -/

theorem statusWrite_eq (old v : Word) :
    statusWrite old v = blend (if getF v 4 2 < 2 then 0x6FC#64 else 0x6CC#64) v old := by
  unfold statusWrite
  dsimp only
  split
  · rw [putF_getF _ _ (by decide), putF_getF _ _ (by decide), putF_getF _ _ (by decide), putF_getF _ _ (by decide),
      blend_blend, blend_blend, blend_blend]
    rfl
  · rw [putF_getF _ _ (by decide), putF_getF _ _ (by decide), putF_getF _ _ (by decide), blend_blend, blend_blend]
    rfl

theorem hstatusWrite_eq (old v : Word) :
    hstatusWrite old v = blend (if getF v 34 2 < 3 then 0xBFFFFC0000#64 else 0xB3FFFC0000#64) v
      (blend 0x3FFFF#64 (v &&& 0x197FE#64) old) := by
  unfold hstatusWrite
  dsimp only
  split
  · rw [putF_getF _ _ (by decide), putF_getF _ _ (by decide), putF_getF _ _ (by decide), putF_getF _ _ (by decide),
      putF_getF _ _ (by decide), blend_blend, blend_blend, blend_blend]
    rfl
  · rw [putF_getF _ _ (by decide), putF_getF _ _ (by decide), putF_getF _ _ (by decide), putF_getF _ _ (by decide),
      blend_blend, blend_blend]
    rfl

end Sys2Proof.Proofs
end

