-- ==== Sys2Proof/Proofs/Keeping.lean ====
section
/-!
PROOFS. What a command keeps: the queue, the canonical form of the memories and of the register space, and the field maps
of the strands. `DevKeeps d₀ d` says that the device d is canonical if d₀ is; each operation of the device has one rule,
from the device that it starts from to the device that it leaves, so that a proof reads as the operations that follow
one another.
-/

namespace Sys2Proof.Proofs

open Sys2Proof Sys2Proof.Machine Sys2Proof.Laws

/-- DRAM, the Peat media and the register space of a device are in canonical form. -/
structure DevOk (d : Dev) : Prop where
  dram : Memory.wf d.dram = true
  peat : Memory.wf d.peat = true
  regs : SMap.wf coldValue d.regs = true

/-- The device d is canonical if the device d₀ is. -/
def DevKeeps (d₀ d : Dev) : Prop := DevOk d₀ → DevOk d

variable {d₀ d e : Dev}

theorem DevKeeps.refl (d : Dev) : DevKeeps d d := id

theorem DevKeeps.trans (h : DevKeeps d₀ d) (k : DevKeeps d e) : DevKeeps d₀ e := fun o => k (h o)

/-- Of a device's parts the memories and the register space matter. -/
theorem DevKeeps.parts (h : DevKeeps d₀ d) (hd : Memory.wf d.dram = true → Memory.wf e.dram = true)
    (hp : Memory.wf d.peat = true → Memory.wf e.peat = true)
    (hr : SMap.wf coldValue d.regs = true → SMap.wf coldValue e.regs = true) : DevKeeps d₀ e :=
  fun o => ⟨hd (h o).dram, hp (h o).peat, hr (h o).regs⟩

/-- Every other part may change. -/
theorem DevKeeps.rest
    {a0 a1 a3 a6 a7 a8 a9 a10 a11 a12 a13 a14 a15 a16 a17 a18 a19 a20 a21 a22 a23 a24 a25 a26 a27 a28 a29 a30 a31 a32
     a33 a34 a35 a36 a37 a38 a39 a40 a41 a42 a43 a44 a45 a46 a47 a48 a49 a50 a51 a52 a53 a54 a55 a56 a57 a58 a59 a60
     a61 a62 a63 a64 a65 a66 a67 a68 a69 a70 a71}
    (h : DevKeeps d₀ d) :
    DevKeeps d₀ ⟨a0, a1, d.regs, a3, d.dram, d.peat, a6, a7, a8, a9, a10, a11, a12, a13, a14, a15, a16, a17, a18, a19, a20, a21,
      a22, a23, a24, a25, a26, a27, a28, a29, a30, a31, a32, a33, a34, a35, a36, a37, a38, a39, a40, a41, a42, a43,
      a44, a45, a46, a47, a48, a49, a50, a51, a52, a53, a54, a55, a56, a57, a58, a59, a60, a61, a62, a63, a64, a65,
      a66, a67, a68, a69, a70, a71⟩ :=
  fun o => ⟨(h o).dram, (h o).peat, (h o).regs⟩

theorem DevKeeps.ite {c : Prop} [Decidable c] (h : DevKeeps d₀ d) (k : DevKeeps d₀ e) :
    DevKeeps d₀ (if c then d else e) := by
  split
  · exact h
  · exact k

/-- A fold of operations that keep a device. -/
theorem DevKeeps.foldl {α : Type} {f : Dev → α → Dev} {l : List α} (h : DevKeeps d₀ d)
    (hf : ∀ d a, DevKeeps d₀ d → DevKeeps d₀ (f d a)) : DevKeeps d₀ (l.foldl f d) := by
  induction l generalizing d with
  | nil => exact h
  | cons a l ih => exact ih (hf _ _ h)

/-- A fold that carries other results along with the device. -/
theorem DevKeeps.foldlBy {α σ : Type} (π : σ → Dev) {f : σ → α → σ} {l : List α} {s : σ} (h : DevKeeps d₀ (π s))
    (hf : ∀ s a, DevKeeps d₀ (π s) → DevKeeps d₀ (π (f s a))) : DevKeeps d₀ (π (l.foldl f s)) := by
  induction l generalizing s with
  | nil => exact h
  | cons a l ih => exact ih (hf _ _ h)

end Sys2Proof.Proofs
end

