-- ==== Sys2Proof/Proofs/Frames.lean ====
section
/-!
PROOFS. What the operations of the memory system, of the interrupt router and of the engine's writes keep, whatever it is: a
`Frame` is a property of devices that stands under every change of the parts that these operations change. Each operation has one
rule, from the device that it starts from to the device that it leaves.
-/

namespace Sys2Proof.Proofs

open Sys2Proof Sys2Proof.Machine Sys2Proof.Laws

/-- A register that is neither a stream's nor the status of a root port. -/
def freeReg (off : Nat) : Bool := (off < 0x100020000 || 0x100040000 ≤ off) && off % 0x1000 != 0x90C

/-- A property of devices that stands while the queues, streams and ports, the registers that are not `freeReg` and the canonical form of
the memories stand. -/
structure Frame where
  keeps : Dev → Prop
  reg : ∀ {d : Dev} {off : Nat} (v : Word), freeReg off = true → keeps d → keeps (d.setReg off v)
  rest : ∀ {d e : Dev}, e.regs = d.regs → e.queues = d.queues → e.streams = d.streams → e.ports = d.ports →
    (Memory.wf d.dram = true → Memory.wf e.dram = true) → (Memory.wf d.peat = true → Memory.wf e.peat = true) → keeps d → keeps e

/-- The property holds of the device. -/
def Kept (F : Frame) (d : Dev) : Prop := F.keeps d

variable {F : Frame} {d e : Dev}

theorem Kept.memory (h : Kept F d) (hr : e.regs = d.regs) (hq : e.queues = d.queues) (hs : e.streams = d.streams) (hp : e.ports = d.ports)
    (hd : Memory.wf d.dram = true → Memory.wf e.dram = true) (hpt : Memory.wf d.peat = true → Memory.wf e.peat = true) : Kept F e :=
  F.rest hr hq hs hp hd hpt h

/-- Every other part may change. -/
theorem Kept.rest
    {a0 a1 a3 a6 a7 a8 a9 a10 a11 a12 a13 a14 a15 a16 a17 a18 a19 a20 a21 a22 a23 a24 a25 a26 a27 a28 a29 a30 a31
     a32 a33 a34 a35 a36 a37 a38 a39 a40 a41 a42 a43 a44 a45 a46 a47 a48 a49 a50 a51 a52 a53 a54 a55 a56 a60 a61
     a62 a63 a64 a65 a66 a67 a68 a69 a70 a71}
    (h : Kept F d) :
    Kept F ⟨a0, a1, d.regs, a3, d.dram, d.peat, a6, a7, a8, a9, a10, a11, a12, a13, a14, a15, a16, a17, a18, a19, a20, a21,
      a22, a23, a24, a25, a26, a27, a28, a29, a30, a31, a32, a33, a34, a35, a36, a37, a38, a39, a40, a41, a42, a43,
      a44, a45, a46, a47, a48, a49, a50, a51, a52, a53, a54, a55, a56, d.ports, d.queues, d.streams, a60, a61, a62,
      a63, a64, a65, a66, a67, a68, a69, a70, a71⟩ :=
  h.memory rfl rfl rfl rfl id id

theorem Kept.ite {c : Prop} [Decidable c] (h : Kept F d) (k : Kept F e) : Kept F (if c then d else e) := by
  split
  · exact h
  · exact k

/-- A fold of operations that keep a device. -/
theorem Kept.foldl {α : Type} {f : Dev → α → Dev} {l : List α} (h : Kept F d) (hf : ∀ d a, Kept F d → Kept F (f d a)) :
    Kept F (l.foldl f d) := by
  induction l generalizing d with
  | nil => exact h
  | cons a l ih => exact ih (hf _ _ h)

/-! ### Registers, records and draws -/

theorem freeReg_of (off : Nat) (h : (off < 0x100020000 ∨ 0x100040000 ≤ off) ∧ off % 0x1000 ≠ 0x90C) : freeReg off = true := by
  unfold freeReg
  rw [Bool.and_eq_true, Bool.or_eq_true, bne_iff_ne, decide_eq_true_iff, decide_eq_true_iff]
  exact h

theorem freeReg_at {f : Field} {n k : Nat} (h8 : n % 8 = 0) (hk : n < k)
    (h : (f.reg % 8 == 0 && (f.reg + k ≤ 0x100020000 || 0x100040000 ≤ f.reg)) = true) : freeReg (f.at n).reg = true := by
  have hr : (f.at n).reg = f.reg + n := rfl
  rw [Bool.and_eq_true, Bool.or_eq_true, beq_iff_eq, decide_eq_true_iff, decide_eq_true_iff] at h
  refine freeReg_of _ ?_
  rw [hr]
  omega

theorem Kept.setReg {off v} (h : Kept F d) (ok : freeReg off = true := by decide) : Kept F (d.setReg off v) := F.reg v ok h

theorem Kept.setFld {f x} (h : Kept F d) (ok : freeReg f.reg = true := by decide) : Kept F (d.setFld f x) := F.reg _ ok h

theorem Kept.addSat {f n} (h : Kept F d) (ok : freeReg f.reg = true := by decide) : Kept F (d.addSat f n) := F.reg _ ok h

theorem Kept.addWrap {f n} (h : Kept F d) (ok : freeReg f.reg = true := by decide) : Kept F (d.addWrap f n) := F.reg _ ok h

theorem Kept.drawWord (h : Kept F d) : Kept F (d.drawWord).2 := h.rest

theorem Kept.drawBool (h : Kept F d) : Kept F (d.drawBool).2 := h.rest

theorem Kept.drawLine (h : Kept F d) : Kept F (d.drawLine).2 := h.rest

theorem Kept.setStack {n x} (h : Kept F d) : Kept F (d.setStack n x) := h.rest

theorem Kept.setTracker {c x} (h : Kept F d) : Kept F (d.setTracker c x) := h.rest

theorem Kept.setIoTlb {rid l} (h : Kept F d) : Kept F (d.setIoTlb rid l) := h.rest

theorem Kept.setPend {i v} (hi : i < 512) (hv : v < 1024) (h : Kept F d) : Kept F (d.setPend i v) :=
  F.reg _ (freeReg_of _ (by
    rw [show R.PEND_BITS.reg = 0x6010000 from rfl]
    omega)) h

theorem Kept.deliver {target v} (h : Kept F d) : Kept F (d.deliver target v) :=
  Kept.ite h.addSat (Kept.ite (Kept.ite h h.addSat) (Kept.ite (h.setPend (Nat.mod_lt _ (by decide)) (Nat.mod_lt _ (by decide))) h.addSat))

theorem Kept.routeEvent {e'} (h : Kept F d) : Kept F (d.routeEvent e') := Kept.ite h.deliver h

theorem Kept.rise {old} (h : Kept F d) : Kept F (Dev.rise old d) :=
  Kept.ite (Kept.ite h.routeEvent h).routeEvent (Kept.ite h.routeEvent h)

theorem Kept.errEventNow {bits} (h : Kept F d) : Kept F (d.errEventNow bits) := h.setReg.rise

theorem Kept.errEvent {bits} (h : Kept F d) : Kept F (d.errEvent bits) :=
  Kept.ite h.errEventNow (h.rest)

theorem Kept.faultIf {b} (h : Kept F d) : Kept F (d.faultIf b) := Kept.ite (h.setFld.rest) h

theorem Kept.bmcEvent {kind n} (h : Kept F d) : Kept F (d.bmcEvent kind n) := Kept.ite h (h.rest)

theorem Kept.appendRecord {r} (h : Kept F d) : Kept F (d.appendRecord r) :=
  (Kept.ite (Kept.ite (h.rest).setFld.addSat (h.rest)).setFld.addWrap.setFld.bmcEvent (Kept.ite
      (h.rest).setFld.addSat (h.rest)).setFld.addWrap.setFld).faultIf.errEvent

theorem Kept.record {r} (h : Kept F d) : Kept F (d.record r).1 := by
  unfold Dev.record
  dsimp only
  split
  · split
    · exact h.rest
    · exact h
  · exact h.appendRecord

theorem Kept.log {r} (h : Kept F d) : Kept F (d.log r) := h.record

theorem phys_lt (d : Dev) (l : Nat) : d.phys l < 512 := Nat.mod_lt _ (Nat.two_pow_pos _)

theorem Kept.countOne {c g lvl ev i} (hc : c < 512) (hi : i < 8) (h : Kept F d) : Kept F (d.countOne c g lvl ev i) :=
  Kept.ite (h.addWrap (freeReg_of _ (by
    rw [show ((tileAt R.PMC_COUNT c 0x800).at (8 * i)).reg = 0x400C040 + (0x10000 * (c / 2) + 0x800 * (c % 2)) + 8 * i from rfl]
    omega))) h

theorem Kept.count {g x ev} (h : Kept F d) : Kept F (d.count g x ev) := by
  unfold Dev.count
  split
  · exact h
  · have hc := phys_lt d (g / 2)
    generalize d.phys (g / 2) = c at hc
    have all (l : List Nat) (hl : ∀ i ∈ l, i < 8) {d : Dev} (h : Kept F d) :
        Kept F (l.foldl (fun d i => d.countOne c g x.pl ev i) d) := by
      induction l generalizing d with
      | nil => exact h
      | cons i l ih => exact ih (fun j hj => hl j (List.mem_cons_of_mem _ hj)) (h.countOne hc (hl i List.mem_cons_self))
    exact all _ (fun i hi => List.mem_range.1 hi) h

/-! ### Injected errors, lines and homes -/

theorem Kept.unflip {grp inst loc words} (h : Kept F d) : Kept F (d.unflip grp inst loc words) :=
  h.rest

theorem freeReg_inj {f : Field} {grp : Nat} (hg : grp < 0x100) (h : (f.reg % 8 == 0 && f.reg + 0x10000 ≤ 0x100020000) = true) :
    freeReg (injReg f grp).reg = true := by
  refine freeReg_at (f := f) (n := 0x100 * (grp - 1)) (k := 0x10000) (by omega) (by omega) ?_
  rw [Bool.and_eq_true] at h ⊢
  exact ⟨h.1, by rw [h.2, Bool.true_or]⟩

theorem Kept.arrayWrite {grp inst loc setWay words} (h : Kept F d) (hg : grp < 0x100 := by decide) :
    Kept F (d.arrayWrite grp inst loc setWay words) :=
  Kept.ite ((((Kept.ite h h.unflip).setFld (freeReg_inj hg (by decide))).setFld (freeReg_inj hg (by decide))).setFld
    (freeReg_inj hg (by decide)) |>.rest) (Kept.ite h h.unflip)

theorem Kept.unclaimed {pa requester} (h : Kept F d) : Kept F (d.unclaimed pa requester).1 := h.record

theorem mcOfLine_lt (d : Dev) (g : Nat) : d.mcOfLine g < 16 := Nat.mod_lt _ (Nat.two_pow_pos _)

theorem Kept.dramReport {g ue} (h : Kept F d) : Kept F (d.dramReport g ue) := by
  have hn := mcOfLine_lt d g
  have ok {f : Field} (hf : (f.reg % 8 == 0 && f.reg + 0x400000 ≤ 0x100020000) = true) : freeReg (f.at (0x40000 * d.mcOfLine g)).reg = true := by
    refine freeReg_at (k := 0x400000) (by omega) (by omega) ?_
    rw [Bool.and_eq_true] at hf ⊢
    exact ⟨hf.1, by rw [hf.2, Bool.true_or]⟩
  have one : Kept F (if ue then d.addSat (R.ERR_COUNT_UE_COUNT.at (0x40000 * d.mcOfLine g)) 1
      else d.addSat (R.ERR_COUNT_CE_COUNT.at (0x40000 * d.mcOfLine g)) 1) :=
    Kept.ite (h.addSat (ok (by decide))) (h.addSat (ok (by decide)))
  exact (Kept.ite (one.setFld (ok (by decide))) one).log

theorem Kept.homeRead {g keyid} (h : Kept F d) : Kept F (d.homeRead g keyid).dev := by
  unfold Dev.homeRead
  dsimp only
  split
  · exact h.log
  · split
    · exact h.log
    · split
      · exact h
      · split
        · exact h
        · split
          · split
            · exact h
            · exact h.drawLine
          · split
            · exact h.dramReport
            · exact h.dramReport.drawLine
          · exact h.dramReport
          · split
            · exact h.drawBool.dramReport
            · exact h.drawBool.drawLine

theorem Kept.toIntake {e'} (h : Kept F d) : Kept F (d.toIntake e') := h.setStack

theorem Kept.homeWrite {g keyid l poison urgent ack} (h : Kept F d) :
    Kept F (d.homeWrite g keyid l poison urgent ack) := by
  unfold Dev.homeWrite
  dsimp only
  split
  · exact h.log
  split
  · exact h.log
  have k : Kept F { d with
      keyOf := SMap.set (fun _ => 1) d.keyOf g (d.slot keyid).key
      bad := SMap.set (fun _ => false) d.bad g false } := h.rest
  generalize ({ d with
      keyOf := SMap.set (fun _ => 1) d.keyOf g (d.slot keyid).key
      bad := SMap.set (fun _ => false) d.bad g false } : Dev) = d at k ⊢
  split
  · exact k.toIntake
  · have ka : Kept F (d.arrayWrite 0x10 (d.mcOfLine g) (64 * g) none allWords) := k.arrayWrite
    exact ka.memory rfl rfl rfl rfl (fun o => writeBytes_wf _ (64 * g) l fullMask o) id

theorem Kept.llcDrop {g} (h : Kept F d) : Kept F (d.llcDrop g) := h.rest

theorem Kept.checkLlc {g} (h : Kept F d) : Kept F (d.checkLlc g) := by
  unfold Dev.checkLlc
  dsimp only
  split
  · exact h
  · split
    · exact h
    · split
      · exact h
      · exact h.unflip.log
      · exact Kept.ite (h.rest).unflip.log h.llcDrop.unflip.log
      · exact h.drawLine.unflip.rest

theorem Kept.llcEvict {g} (h : Kept F d) : Kept F (d.llcEvict g) := by
  unfold Dev.llcEvict
  dsimp only
  split
  · exact h.checkLlc
  · exact Kept.ite h.checkLlc.llcDrop.homeWrite h.checkLlc.llcDrop

theorem Kept.llcPut {g l dirty poison key} (h : Kept F d) : Kept F (d.llcPut g l dirty poison key) := by
  unfold Dev.llcPut
  dsimp only
  split
  · exact Kept.ite h.llcDrop.homeWrite h.llcDrop
  · split
    · exact h.arrayWrite.rest
    · split
      · exact h.arrayWrite.rest
      · split
        · exact h.llcEvict.arrayWrite.rest
        · exact h.arrayWrite.rest

theorem Kept.setLine {c g x} (h : Kept F d) : Kept F (d.setLine c g x) := h.rest

theorem Kept.dropLine {c g} (h : Kept F d) : Kept F (d.dropLine c g) := h.setLine

theorem Kept.checkArray {grp c g words} (h : Kept F d) : Kept F (d.checkArray grp c g words) := by
  unfold Dev.checkArray
  dsimp only
  split
  · exact h
  · split
    · exact h
    · exact h.unflip.log
    · exact Kept.ite h.setLine.unflip.log h.unflip.log
    · exact h.drawLine.unflip.setLine

theorem Kept.checkLine {c g words} (h : Kept F d) : Kept F (d.checkLine c g words) :=
  Kept.ite h h.checkArray.checkArray

theorem Kept.fillLine {c g x} (h : Kept F d) : Kept F (d.fillLine c g x) := h.arrayWrite.setLine

theorem Kept.setGhost {c g x} (h : Kept F d) : Kept F (d.setGhost c g x) := h.rest

theorem Kept.setDir {g x} (h : Kept F d) : Kept F (d.setDir g x) := h.rest

theorem Kept.send {m} (h : Kept F d) : Kept F (d.send m) := h.rest

theorem Kept.trackSent {c g} (h : Kept F d) : Kept F (d.trackSent c g) := Kept.ite h.setTracker h

theorem Kept.snapshot {g keyid} (h : Kept F d) : Kept F (d.snapshot g keyid).dev := by
  unfold Dev.snapshot
  dsimp only
  split
  · split
    · exact h.checkLine
    · exact h.checkLlc
  · split
    · split
      · exact h.checkLine
      · exact h.checkLlc
    · split
      · split
        · exact h.checkLine
        · exact h.checkLlc
      · split
        · split
          · exact h.checkLine.drawLine
          · split
            · exact h.checkLine
            · exact h.checkLine.homeRead
        · split
          · exact h.checkLlc.drawLine
          · split
            · exact h.checkLlc
            · exact h.checkLlc.homeRead

theorem Kept.invalidateAll {g} (h : Kept F d) : Kept F (d.invalidateAll g) := by
  unfold Dev.invalidateAll
  dsimp only
  split
  · exact (h.foldl fun _ _ k => k.dropLine).setGhost
  · exact h.foldl fun _ _ k => k.dropLine

theorem Kept.gather {g keyid} (h : Kept F d) : Kept F (d.gather g keyid).dev := by
  unfold Dev.gather
  dsimp only
  split
  · split
    · split
      · exact (Kept.ite h.snapshot.invalidateAll.llcDrop.trackSent h.snapshot.invalidateAll.llcDrop).setDir
      · exact h.snapshot.invalidateAll.llcDrop.setDir
    · split
      · exact (Kept.ite h.snapshot.invalidateAll.llcDrop.trackSent h.snapshot.invalidateAll.llcDrop).setDir
      · exact h.snapshot.invalidateAll.llcDrop.setDir
  · split
    · exact (Kept.ite h.snapshot.invalidateAll.llcDrop.trackSent h.snapshot.invalidateAll.llcDrop).setDir
    · exact h.snapshot.invalidateAll.llcDrop.setDir
  · split
    · exact (Kept.ite h.snapshot.invalidateAll.llcDrop.trackSent h.snapshot.invalidateAll.llcDrop).setDir
    · exact h.snapshot.invalidateAll.llcDrop.setDir
  · split
    · exact (Kept.ite h.snapshot.invalidateAll.llcDrop.trackSent h.snapshot.invalidateAll.llcDrop).setDir
    · exact h.snapshot.invalidateAll.llcDrop.setDir

theorem Kept.leaveHome {g l dirty poison key urgent ack} (h : Kept F d) :
    Kept F (d.leaveHome g l dirty poison key urgent ack) := by
  unfold Dev.leaveHome
  dsimp only
  split
  · exact h.homeWrite.llcPut
  · split
    · exact Kept.ite h.llcPut.setDir h.llcPut
    · exact h.llcPut

theorem Kept.poke {g off bs keyid urgent ack} (h : Kept F d) : Kept F (d.poke g off bs keyid urgent ack) := by
  have put (d : Dev) (h : Kept F d) : Kept F (if isPeat g then
      d.toIntake ⟨g, putBytes 0 off bs, byteMask off bs.length, false, keyid, urgent, ack, none, []⟩
    else { d with dram := writeBytes d.dram (64 * g) (putBytes 0 off bs) (byteMask off bs.length) }) :=
    Kept.ite h.toIntake (h.memory rfl rfl rfl rfl (writeBytes_wf _ _ _ _) id)
  unfold Dev.poke
  dsimp only
  refine put _ ?_
  split
  · exact h.rest
  · exact h.rest

theorem Kept.homeStore {g off bs keyid urgent ack} (h : Kept F d) :
    Kept F (d.homeStore g off bs keyid urgent ack) := Kept.ite h.poke h.gather.leaveHome

theorem Kept.homeRmw {pa n keyid f ack} (h : Kept F d) : Kept F (d.homeRmw pa n keyid f ack).dev := by
  unfold Dev.homeRmw
  dsimp only
  split
  · exact h.snapshot
  · exact h.snapshot.homeStore

theorem Kept.farWord {pa f} (h : Kept F d) : Kept F (d.farWord pa f).2 := by
  unfold Dev.farWord
  dsimp only
  split
  · exact h.homeRmw
  · exact h.drawWord

/-! ### Address translation -/

theorem Kept.consumed {c requester g} (h : Kept F d) : Kept F (d.consumed c requester g).1 := h.record

theorem Kept.currentFor {c g keyid} (h : Kept F d) : Kept F (d.currentFor c g keyid).dev := by
  unfold Dev.currentFor
  dsimp only
  split
  · exact h
  · split
    · exact h.snapshot
    · split
      · exact h
      · split
        · exact h
        · exact h
        · exact h.drawLine

theorem Kept.coreRead {c g keyid} (h : Kept F d) : Kept F (d.coreRead c g keyid).dev := by
  unfold Dev.coreRead
  dsimp only
  split
  · split
    · exact h.drawBool.drawLine
    · exact h.drawBool.currentFor
  · exact h.currentFor

theorem Kept.flagEntry {pa keyid e'} (h : Kept F d) : Kept F (d.flagEntry pa keyid e') :=
  Kept.ite h.homeStore h

theorem Kept.find {w : WS} {p r} (h : Kept F w.dev) (e : w.find p = r) : Kept F r.2.dev := by
  subst e
  unfold WS.find
  dsimp only
  split
  · exact h
  · split
    · exact h
    · split
      · exact h.drawBool
      · exact h.drawBool

theorem Kept.fill {t p} {w : WS} (h : Kept F w.dev) : Kept F (WS.fill w t p).dev := h

/-- What a walk leaves is kept. -/
@[reducible] def WalkHolds (F : Frame) : WalkR → Prop
  | .leaf _ _ _ w => Kept F w.dev
  | .fault _ w => Kept F w.dev

/-- What the search for a stage-1 table leaves is kept. -/
@[reducible] def TableHolds (F : Frame) : TableR → Prop
  | .ok _ _ _ w => Kept F w.dev
  | .fault _ w => Kept F w.dev

/-- What a stage-1 walk leaves is kept. -/
@[reducible] def S1Holds (F : Frame) : S1R → Prop
  | .walked _ w => Kept F w.dev
  | .fault _ w => Kept F w.dev

/-- What one read of a stage-1 walk leaves is kept. -/
@[reducible] def S1StepHolds (F : Frame) : S1Step → Prop
  | .pointer _ w => Kept F w.dev
  | .done r => S1Holds F r

/-- What stage 1 leaves is kept. -/
@[reducible] def Stage1Holds (F : Frame) : Stage1 → Prop
  | .ok _ _ _ w => Kept F w.dev
  | .fault _ w => Kept F w.dev

/-- What a translation leaves is kept. -/
@[reducible] def TransHolds (F : Frame) : Trans → Prop
  | .ok _ w => Kept F w.dev
  | .fault _ w => Kept F w.dev

/-- What the translation of a DMA address leaves is kept. -/
@[reducible] def IoRHolds (F : Frame) : IoR → Prop
  | .ok _ _ _ d => Kept F d
  | .refused d => Kept F d

/-- What the search for the target of a DMA access leaves is kept. -/
@[reducible] def IoToHolds (F : Frame) : IoTo → Prop
  | .mem _ _ _ d => Kept F d
  | .window _ d => Kept F d
  | .unclaimed d => Kept F d
  | .refused d => Kept F d

/-- The stage-2 entry that a level's walk takes, cached or read, with what the search leaves. -/
def s2Got (r : Regime) (c requester ipa lvl table : Nat) (w : WS) : Option Word × WS :=
  match w.find fun t => t.isP2 r ipa lvl with
  | (some t, w) => (some t.word.1, w)
  | (none, w) =>
    let q := w.dev.coreRead c ((table + 8 * tableIndex ipa lvl true) / 64) 0
    if q.poison then
      (none, ⟨(q.dev.consumed c requester ((table + 8 * tableIndex ipa lvl true) / 64)).1, w.tlb⟩)
    else (some (lineWord q.line ((table + 8 * tableIndex ipa lvl true) % 64)), ⟨q.dev, w.tlb⟩)

theorem s2Got_keeps {r c q ipa lvl table} {w : WS} {y} (h : Kept F w.dev)
    (e : s2Got r c q ipa lvl table w = y) : Kept F y.2.dev := by
  subst e
  unfold s2Got
  split
  · rename_i e
    exact h.find e
  · rename_i e
    dsimp only
    split
    · exact (h.find e).coreRead.consumed
    · exact (h.find e).coreRead

theorem Kept.s2From {r c q ipa s1w lvl table} {w : WS} {x} (h : Kept F w.dev)
    (e : s2From r c q ipa s1w lvl table w = x) : WalkHolds F x := by
  subst e
  induction lvl generalizing table w with
  | zero =>
    unfold Machine.s2From
    dsimp only
    split
    · exact h
    split
    · rename_i e
      exact s2Got_keeps h e
    · rename_i e
      split
      · exact s2Got_keeps h e
      · exact s2Got_keeps h e
      · exact s2Got_keeps h e
      · rename_i hl _
        cases hl
  | succ l ih =>
    unfold Machine.s2From
    dsimp only
    split
    · exact h
    split
    · rename_i e
      exact s2Got_keeps h e
    · rename_i e
      split
      · exact s2Got_keeps h e
      · exact s2Got_keeps h e
      · rename_i hl _
        cases hl
      · rename_i hl _
        cases hl
        exact ih (Kept.fill (s2Got_keeps h e))

theorem Kept.s2Leaf {r c q ipa s1w} {w : WS} {x} (h : Kept F w.dev)
    (e : s2Leaf r c q ipa s1w w = x) : WalkHolds F x := by
  subst e
  unfold Machine.s2Leaf
  generalize (if r.ipa52 then 4 else 3) = root
  generalize (if r.ipa52 then 2 ^ 52 else 2 ^ 48) = size
  dsimp only
  split
  · exact h
  split
  · rename_i e
    exact h.find e
  · rename_i e
    split
    · exact h.find e
    · exact (h.find e).s2From rfl

theorem Kept.s2Use {r c q ipa s1w st} {w : WS} {x} (h : Kept F w.dev)
    (e : s2Use r c q ipa s1w st w = x) : WalkHolds F x := by
  subst e
  unfold Machine.s2Use
  dsimp only
  split
  · rename_i e
    exact (h.s2Leaf e :)
  · rename_i e
    split
    · split
      · rename_i e'
        exact ((h.s2Leaf e).s2From e' :)
      · rename_i e'
        split
        · split
          · split
            · exact ((h.s2Leaf e).s2From e').flagEntry.fill
            · exact ((h.s2Leaf e).s2From e' :)
          · exact ((h.s2Leaf e).s2From e' :)
        · split
          · exact ((h.s2Leaf e).s2From e').fill
          · exact ((h.s2Leaf e).s2From e' :)
    · split
      · split
        · exact (h.s2Leaf e :)
        · exact (h.s2Leaf e :)
      · exact (h.s2Leaf e :)
  · rename_i e
    split
    · split
      · split
        · exact (h.s2Leaf e).flagEntry.fill
        · exact (h.s2Leaf e :)
      · exact (h.s2Leaf e :)
    · split
      · exact (h.s2Leaf e).fill
      · exact (h.s2Leaf e :)

theorem Kept.s1Table {r c q table lvl} {w : WS} {x} (h : Kept F w.dev)
    (e : s1Table r c q table lvl w = x) : TableHolds F x := by
  subst e
  unfold Machine.s1Table
  dsimp only
  split
  · split
    · exact h
    · exact h
  · split
    · rename_i _ _ _ _ e0
      exact h.s2Use e0
    · rename_i _ _ _ _ _ _ e0
      split
      · exact h.s2Use e0
      · split
        · exact h.s2Use e0
        · exact h.s2Use e0

theorem Kept.s1Read {r c q va lvl table} {w : WS} {x} (h : Kept F w.dev)
    (e : s1Read r c q va lvl table w = x) : S1StepHolds F x := by
  subst e
  unfold Machine.s1Read
  dsimp only
  split
  · rename_i _ _ _ e0
    exact h.s1Table e0
  · rename_i _ _ _ _ _ e0
    split
    · exact (h.s1Table e0).coreRead.consumed
    · split
      · exact (h.s1Table e0).coreRead
      · exact (h.s1Table e0).coreRead
      · exact (h.s1Table e0).coreRead.fill

theorem Kept.s1From {r c q va lvl table} {w : WS} {x} (h : Kept F w.dev)
    (e : s1From r c q va lvl table w = x) : S1Holds F x := by
  subst e
  induction lvl generalizing table w with
  | zero =>
    unfold Machine.s1From
    split
    · rename_i e
      exact h.s1Read e
    · rename_i e
      exact h.s1Read e
  | succ l ih =>
    unfold Machine.s1From
    split
    · rename_i e
      exact ih (h.find e)
    · rename_i e
      split
      · rename_i e'
        exact (h.find e).s1Read e'
      · rename_i e'
        exact ih ((h.find e).s1Read e')

theorem Kept.s1Flag {r va k l} {w : WS} {x} (h : Kept F w.dev)
    (e : s1Flag r va k l w = x) : Stage1Holds F x := by
  subst e
  unfold Machine.s1Flag
  dsimp only
  split
  · split
    · split
      · split
        · exact h
        · exact h.flagEntry.fill
      · exact h.flagEntry.fill
    · exact h
  · exact h.fill

theorem Kept.stage1 {r c q va k} {w : WS} {x} (h : Kept F w.dev)
    (e : stage1 r c q va k w = x) : Stage1Holds F x := by
  subst e
  unfold Machine.stage1
  generalize (if r.va57 then 4 else 3) = root
  generalize (if r.va57 then va / 2 ^ 56 else va / 2 ^ 47) = top
  generalize (if r.va57 then 2 ^ 8 - 1 else 2 ^ 17 - 1) = ones
  dsimp only
  split
  · exact h
  split
  · exact h
  split
  · rename_i e
    split
    · exact h.find e
    split
    · split
      · exact h.find e
      split
      · rename_i e'
        exact (h.find e).s1From e'
      · rename_i e'
        split
        · exact (h.find e).s1From e'
        · exact ((h.find e).s1From e').s1Flag rfl
    · exact h.find e
  · rename_i e
    split
    · exact h.find e
    split
    · rename_i e'
      exact (h.find e).s1From e'
    · rename_i e'
      split
      · exact (h.find e).s1From e'
      · exact ((h.find e).s1From e').s1Flag rfl

theorem Kept.typeCheck {r k a} {w : WS} {x} (h : Kept F w.dev)
    (e : typeCheck r k a w = x) : TransHolds F x := by
  subst e
  unfold Machine.typeCheck
  split
  · exact h
  · split
    · exact h
    · exact h

theorem Kept.translate {r c q va k} {w : WS} {x} (h : Kept F w.dev)
    (e : translate r c q va k w = x) : TransHolds F x := by
  subst e
  unfold Machine.translate
  split
  · rename_i e
    exact h.stage1 e
  · rename_i e
    split
    · split
      · exact h.stage1 e
      · exact (h.stage1 e).typeCheck rfl
    · split
      · rename_i e'
        exact (h.stage1 e).s2Use e'
      · rename_i e'
        split
        · exact (h.stage1 e).s2Use e'
        · exact ((h.stage1 e).s2Use e').typeCheck rfl

/-! ### Stashes -/

theorem Kept.toHome {c g b} (h : Kept F d) : Kept F (d.toHome c g b) := h.send

theorem Kept.setWbUsed {c g n} (h : Kept F d) : Kept F (d.setWbUsed c g n) := h.rest

theorem Kept.evict {e} {c g} (h : Kept F d) (k : d.evict c g = some e) :
    Kept F e := by
  unfold Dev.evict at k
  dsimp only at k
  split at k
  · cases k
    exact h.checkLine
  split at k
  · cases k
  split at k
  · split at k
    · cases k
    · cases k
      exact h.checkLine.dropLine.setGhost.setWbUsed.trackSent.toHome
  · cases k
    exact h.checkLine.dropLine.setWbUsed.toHome

theorem Kept.stashRoom {e} {c g} (h : Kept F d) (k : d.stashRoom c g = some e) :
    Kept F e := by
  unfold Dev.stashRoom at k
  split at k
  · cases k
  split at k
  · cases k
    exact h
  split at k
  · cases k
  · exact h.evict k

theorem freeReg_tile {f : Field} {c : Nat} (hc : c < 512) (h : (f.reg % 8 == 0 && f.reg + 0x1000000 ≤ 0x100020000) = true) :
    freeReg (f.at (0x10000 * (c / 2))).reg = true := by
  refine freeReg_at (k := 0x1000000) (by omega) (by omega) ?_
  rw [Bool.and_eq_true] at h ⊢
  exact ⟨h.1, by rw [h.2, Bool.true_or]⟩

theorem stashCore_lt {s : State} {g c : Nat} {target : BitVec 16} (h : s.stashCore g target = some c) : c < 512 := by
  unfold State.stashCore at h
  dsimp only at h
  split at h
  · cases h
  split at h
  · cases h
  split at h
  · cases h
  · cases h
    exact phys_lt _ _

theorem Kept.putStash {c g l dirty p key} (hc : c < 512) (h : Kept F d) : Kept F (d.putStash c g l dirty p key) :=
  h.fillLine.addSat (freeReg_tile hc (by decide))

theorem Kept.keepDirty {g key l p ack} (h : Kept F d) : Kept F (d.keepDirty g key l p ack) := by
  unfold Dev.keepDirty
  dsimp only
  split
  · exact h
  · split
    · exact h.homeWrite.llcPut
    · split
      · exact Kept.ite h.llcPut.setDir h.llcPut
      · exact h.llcPut

theorem Kept.keepClean {g key l p} (h : Kept F d) : Kept F (d.keepClean g key l p) :=
  Kept.ite h.llcPut h

theorem Kept.ownBy {g a} (h : Kept F d) : Kept F (d.ownBy g a) := h.setDir

theorem Kept.noSharers {g} (h : Kept F d) : Kept F (d.noSharers g) := h.setDir

theorem Kept.stashHome {g key l dirty p} (h : Kept F d) : Kept F (d.stashHome g key l dirty p) :=
  Kept.ite h.noSharers.keepDirty h.noSharers.keepClean

theorem Kept.countHomeStash {target} (h : Kept F d) : Kept F (d.countHomeStash target) :=
  Kept.ite h (h.addSat (freeReg_tile (phys_lt _ _) (by decide)))

/-! ### The interrupt router and the I/O translation -/

theorem Kept.irDiscard {rid index reason} (h : Kept F d) : Kept F (d.irDiscard rid index reason) :=
  (Kept.ite h.addSat h.addSat.setFld.setFld.setFld.setFld).log

theorem Kept.irtEntry {index} (h : Kept F d) : Kept F (d.irtEntry index).2 := by
  unfold Dev.irtEntry
  dsimp only
  split
  · exact h.coreRead.rest
  · split
    · exact h.drawBool.coreRead.rest
    · exact h.drawBool

theorem Kept.alert {block k' head} (h : Kept F d) : Kept F (d.alert block k' head) :=
  Kept.ite (Kept.ite h.farWord h.farWord.deliver) h

theorem Kept.collect {block v head} (h : Kept F d) : Kept F (d.collect block v head) :=
  h.farWord.farWord.alert

theorem Kept.guestMessage {block v} (hv : v < 1024) (h : Kept F d) : Kept F (d.guestMessage block v) :=
  Kept.ite (Kept.ite h.farWord.deliver (Kept.ite (h.farWord.setPend (Nat.mod_lt _ (by decide)) hv) h.farWord.collect)) h.farWord.collect

theorem Kept.irMessage {rid addr size x} (h : Kept F d) : Kept F (d.irMessage rid addr size x) :=
  Kept.ite h.irDiscard (Kept.ite h.irDiscard (Kept.ite h.irtEntry.irDiscard
      (Kept.ite h.irtEntry.irDiscard (Kept.ite h.irtEntry.irDiscard (Kept.ite
      (Kept.ite (h.irtEntry.guestMessage (Nat.mod_lt _ (Nat.two_pow_pos _))) h.irtEntry.irDiscard) h.irtEntry.deliver)))))

theorem Kept.ioFault {rid kind level stage write addr} (h : Kept F d) :
    Kept F (d.ioFault rid kind level stage write addr) :=
  (Kept.ite h.addSat h.addSat.setFld.setFld.setFld.setFld.setFld.setFld.setReg).log

theorem Kept.ioDeny {rid write addr} (h : Kept F d) : Kept F (d.ioDeny rid write addr) :=
  h.drawWord.ioFault

theorem Kept.dtEntry {rid} (h : Kept F d) : Kept F (d.dtEntry rid).2 := by
  unfold Dev.dtEntry
  dsimp only
  split
  · exact h.coreRead.rest
  · split
    · exact h.drawBool.coreRead.rest
    · exact h.drawBool

theorem Kept.ioXlate {rid addr write r} (h : Kept F d) (e : d.ioXlate rid addr write = r) :
    IoRHolds F r := by
  subst e
  unfold Dev.ioXlate
  dsimp only
  split
  · split
    · exact h.ioDeny
    · split
      · exact h.ioFault
      · exact h
  · split
    · exact h.dtEntry.ioDeny
    · split
      · rename_i _ _ _ _ _ e0
        exact (h.dtEntry.translate e0).setIoTlb
      · rename_i _ _ _ _ _ e0
        exact (h.dtEntry.translate e0).ioFault

theorem Kept.ioTo {rid addr write r} (h : Kept F d) (e : d.ioTo rid addr write = r) :
    IoToHolds F r := by
  subst e
  unfold Dev.ioTo
  split
  · rename_i _ _ e0
    exact h.ioXlate e0
  · rename_i _ _ _ _ _ e0
    split
    · split
      · exact h.ioXlate e0
      · exact (h.ioXlate e0).ioDeny
    · split
      · exact h.ioXlate e0
      · exact (h.ioXlate e0).ioDeny
    · exact h.ioXlate e0
    · exact h.ioXlate e0
    · exact (h.ioXlate e0).ioFault
    · exact (h.ioXlate e0).unclaimed

/-! ### The engine's writes -/

theorem Kept.ledWindow {pa} (h : Kept F d) : Kept F (d.ledWindow pa).2 := by
  unfold Dev.ledWindow
  split
  · exact h.unclaimed
  · split
    · refine h.addSat (freeReg_of _ ?_)
      rw [show (kpReg R.KPORT_COUNT_LOST _).reg = 0x200000914 + 0x1000 * _ from rfl]
      omega
    · exact h

theorem freeReg_log {f : Field} {v : Nat} (hv : v < 2048) (h : (f.reg % 8 == 0 && f.reg + 0x20000 ≤ 0x100020000) = true) :
    freeReg (dlReg f v).reg = true := by
  refine freeReg_at (f := f) (n := 0x40 * (v - 1)) (k := 0x20000) (by omega) (by omega) ?_
  rw [Bool.and_eq_true] at h ⊢
  exact ⟨h.1, by rw [h.2, Bool.true_or]⟩

theorem Kept.logBit {v page} (hv : v < 2048) (h : Kept F d) : Kept F (d.logBit v page) :=
  Kept.ite (h.setFld (freeReg_log hv (by decide))) h.farWord

theorem Kept.logEntry {v page} (hv : v < 2048) (h : Kept F d) : Kept F (d.logEntry v page) :=
  h.farWord.setFld (freeReg_log hv (by decide))

theorem Kept.logPage {e} {f ipa} (hf : f < 2048) (h : Kept F d) (k : d.logPage f ipa = some e) : Kept F e := by
  unfold Dev.logPage at k
  split at k
  · cases k
    exact h
  split at k
  · cases k
    exact h.logBit hf
  split at k
  · cases k
    exact h.logEntry hf
  split at k
  · cases k
  · cases k
    exact h.setFld (freeReg_log hf (by decide))

theorem Kept.tagDirect {g tag} (h : Kept F d) : Kept F (d.tagDirect g tag) := by
  unfold Dev.tagDirect
  dsimp only
  split
  · exact h
  · exact Kept.ite h (h.setStack.rest)

theorem Kept.tagIntake {g q sq off} (h : Kept F d) : Kept F (d.tagIntake g q sq off) := h.tagDirect

theorem Kept.drawLedCredit {g} (h : Kept F d) : Kept F (d.drawLedCredit g) := Kept.ite h.setStack h

variable {s : State}

theorem Kept.ioStash {g off bs key target poison} (h : Kept F s.dev) : Kept F (s.ioStash g off bs key target poison).dev := by
  unfold State.ioStash
  dsimp only
  split
  · exact h
  split
  · exact Kept.ite h.poke.rest h.poke
  · have k : Kept F (if isPeat g then (s.dev.gather g key).dev.homeWrite g key (putBytes (s.dev.gather g key).line off bs)
        (poison || ((s.dev.gather g key).poison && decide (bs.length < 64))) false (formerAgent (s.dev.gather g key).former)
        else (s.dev.gather g key).dev) := Kept.ite h.gather.homeWrite h.gather
    split
    · exact k.stashHome.countHomeStash
    · rename_i hc
      split
      · exact k.stashHome.countHomeStash
      · rename_i hr
        exact ((k.stashRoom hr).putStash (stashCore_lt hc)).ownBy

/-- What a write of the engine leaves is kept. -/
@[reducible] def PutHolds (F : Frame) : LedPut → Prop
  | .ok s => Kept F s.dev
  | .fail _ s => Kept F s.dev
  | .wait s => Kept F s.dev

theorem Kept.ledWrite {b addr bs} (hb : b.fn < 2048) (h : Kept F s.dev) {y} (e : s.ledWrite b addr bs = y) : PutHolds F y := by
  subst e
  unfold State.ledWrite
  dsimp only
  split
  · rename_i e6
    exact h.ioTo e6
  · rename_i e6
    exact h.ioTo e6
  · rename_i e6
    split
    · exact (h.ioTo e6).ledWindow
    · exact (h.ioTo e6).ledWindow
  · rename_i pa key ipa d e6
    split
    · exact h.ioTo e6
    · split
      · exact (h.ioTo e6).setFld (freeReg_log hb (by decide))
      · rename_i d' e8
        have k : Kept F (if isPeat (pa / 64) then d'.drawLedCredit (pa / 64) else d') :=
          Kept.ite ((h.ioTo e6).logPage hb e8).drawLedCredit ((h.ioTo e6).logPage hb e8)
        generalize (if isPeat (pa / 64) then d'.drawLedCredit (pa / 64) else d') = z at k
        have k' : Kept F (({ s with dev := z } : State).ioStash (pa / 64) (pa % 64) bs key b.target false).dev := Kept.ioStash k
        generalize ({ s with dev := z } : State).ioStash (pa / 64) (pa % 64) bs key b.target false = u at k'
        unfold PutHolds
        dsimp only
        split
        · exact k'.tagIntake
        · exact k'

theorem Kept.msixSend {f e} (hf : f < 2048) (h : Kept F s.dev) : Kept F (s.msixSend f e).dev := by
  unfold State.msixSend
  dsimp only
  split
  · exact h.rest
  split
  · exact h.irMessage
  split
  · rename_i e6
    exact Kept.ledWrite (b := ⟨f, 0, 0, 0, 0x8000, none⟩) hf h e6
  · rename_i e6
    exact Kept.ledWrite (b := ⟨f, 0, 0, 0, 0x8000, none⟩) hf h e6
  · rename_i e6
    exact Kept.ledWrite (b := ⟨f, 0, 0, 0, 0x8000, none⟩) hf h e6

end Sys2Proof.Proofs
end

