-- ==== Sys2Proof/Proofs/DeviceKeeps.lean ====
section
/-!
PROOFS. What the operations on the device keep: one rule for each operation, in the order of the model
    (`DevKeeps`). This part:
registers, lines, translation, coherence and caches.
-/

namespace Sys2Proof.Proofs

open Sys2Proof Sys2Proof.Machine Sys2Proof.Laws

/-- That a device keeps its memories and registers canonical is a frame. -/
def memFrame (d₀ : Dev) : Frame where
  keeps := DevKeeps d₀
  reg _ _ h := h.parts id id fun k => smap_set_wf _ _ _ k
  rest hr _ _ _ hd hp h := h.parts hd hp fun k => by
    rw [hr]
    exact k

variable {d₀ d : Dev}

/-! ### Registers, records and draws -/

theorem DevKeeps.setReg {off v} (h : DevKeeps d₀ d) : DevKeeps d₀ (d.setReg off v) :=
  h.parts id id fun k => smap_set_wf _ _ _ k

theorem DevKeeps.setFld {f x} (h : DevKeeps d₀ d) : DevKeeps d₀ (d.setFld f x) := h.setReg

theorem DevKeeps.addSat {f n} (h : DevKeeps d₀ d) : DevKeeps d₀ (d.addSat f n) := h.setFld

theorem DevKeeps.addWrap {f n} (h : DevKeeps d₀ d) : DevKeeps d₀ (d.addWrap f n) := h.setFld

theorem DevKeeps.drawWord (h : DevKeeps d₀ d) : DevKeeps d₀ (d.drawWord).2 := h.rest

theorem DevKeeps.drawBool (h : DevKeeps d₀ d) : DevKeeps d₀ (d.drawBool).2 := h.rest

theorem DevKeeps.drawLine (h : DevKeeps d₀ d) : DevKeeps d₀ (d.drawLine).2 := h.rest

theorem DevKeeps.drawRandom (h : DevKeeps d₀ d) : DevKeeps d₀ (d.drawRandom).2 := h.rest

theorem DevKeeps.setPm {l x} (h : DevKeeps d₀ d) : DevKeeps d₀ (d.setPm l x) := h.rest

theorem DevKeeps.setChan {n x} (h : DevKeeps d₀ d) : DevKeeps d₀ (d.setChan n x) := h.rest

theorem DevKeeps.setStack {n x} (h : DevKeeps d₀ d) : DevKeeps d₀ (d.setStack n x) := h.rest

theorem DevKeeps.setTracker {c x} (h : DevKeeps d₀ d) : DevKeeps d₀ (d.setTracker c x) := h.rest

theorem DevKeeps.setUnit {kind inst x} (h : DevKeeps d₀ d) : DevKeeps d₀ (d.setUnit kind inst x) := h.rest

theorem DevKeeps.setPort {p x} (h : DevKeeps d₀ d) : DevKeeps d₀ (d.setPort p x) := h.rest

theorem DevKeeps.setQueue {q x} (h : DevKeeps d₀ d) : DevKeeps d₀ (d.setQueue q x) := h.rest

theorem DevKeeps.setStream {t x} (h : DevKeeps d₀ d) : DevKeeps d₀ (d.setStream t x) := h.rest

theorem DevKeeps.setFunc {f x} (h : DevKeeps d₀ d) : DevKeeps d₀ (d.setFunc f x) := h.rest

theorem DevKeeps.setLink {n x} (h : DevKeeps d₀ d) : DevKeeps d₀ (d.setLink n x) := h.rest

theorem DevKeeps.setSlot {k' x} (h : DevKeeps d₀ d) : DevKeeps d₀ (d.setSlot k' x) := h.rest

theorem DevKeeps.setDomain {i x} (h : DevKeeps d₀ d) : DevKeeps d₀ (d.setDomain i x) := h.rest

theorem DevKeeps.setGranule {n k' x} (h : DevKeeps d₀ d) : DevKeeps d₀ (d.setGranule n k' x) := h.rest

theorem DevKeeps.setImage {g x} (h : DevKeeps d₀ d) : DevKeeps d₀ (d.setImage g x) := h.rest

theorem DevKeeps.setCoreState {c x} (h : DevKeeps d₀ d) : DevKeeps d₀ (d.setCoreState c x) := h.setFld

theorem DevKeeps.setPend {i v} (h : DevKeeps d₀ d) : DevKeeps d₀ (d.setPend i v) := h.setReg

theorem DevKeeps.clearPend {i v} (h : DevKeeps d₀ d) : DevKeeps d₀ (d.clearPend i v) := h.setReg

theorem DevKeeps.deliver {target v} (h : DevKeeps d₀ d) : DevKeeps d₀ (d.deliver target v) :=
  DevKeeps.ite h.addSat (DevKeeps.ite (DevKeeps.ite h h.addSat) (DevKeeps.ite h.setPend h.addSat))

theorem DevKeeps.routeEvent {e'} (h : DevKeeps d₀ d) : DevKeeps d₀ (d.routeEvent e') := DevKeeps.ite h.deliver h

theorem DevKeeps.rise {old} (h : DevKeeps d₀ d) : DevKeeps d₀ (Dev.rise old d) :=
  DevKeeps.ite (DevKeeps.ite h.routeEvent h).routeEvent (DevKeeps.ite h.routeEvent h)

theorem DevKeeps.tickEvent {f} (h : DevKeeps d₀ d) : DevKeeps d₀ (d.tickEvent f) := h.setFld.rise

theorem DevKeeps.errEventNow {bits} (h : DevKeeps d₀ d) : DevKeeps d₀ (d.errEventNow bits) := h.setReg.rise

theorem DevKeeps.dutyEvent (h : DevKeeps d₀ d) : DevKeeps d₀ d.dutyEvent := h.errEventNow

theorem DevKeeps.errEvent {bits} (h : DevKeeps d₀ d) : DevKeeps d₀ (d.errEvent bits) :=
  DevKeeps.ite h.errEventNow (h.rest)

theorem DevKeeps.faultIf {b} (h : DevKeeps d₀ d) : DevKeeps d₀ (d.faultIf b) := DevKeeps.ite (h.setFld.rest) h

theorem DevKeeps.bmcEvent {kind n} (h : DevKeeps d₀ d) : DevKeeps d₀ (d.bmcEvent kind n) := DevKeeps.ite h (h.rest)

theorem DevKeeps.appendRecord {r} (h : DevKeeps d₀ d) : DevKeeps d₀ (d.appendRecord r) := Kept.appendRecord (F := memFrame d₀) h

theorem DevKeeps.record {r} (h : DevKeeps d₀ d) : DevKeeps d₀ (d.record r).1 := Kept.record (F := memFrame d₀) h

theorem DevKeeps.log {r} (h : DevKeeps d₀ d) : DevKeeps d₀ (d.log r) := h.record

theorem DevKeeps.candidate {kind inst cls address} (h : DevKeeps d₀ d) :
    DevKeeps d₀ (d.candidate kind inst cls address) := DevKeeps.ite h h.setUnit.log

theorem DevKeeps.transient {kind inst r} (h : DevKeeps d₀ d) : DevKeeps d₀ (d.transient kind inst r) :=
  DevKeeps.ite h.setUnit.log.candidate h.setUnit.log

theorem DevKeeps.countOne {c g lvl ev i} (h : DevKeeps d₀ d) : DevKeeps d₀ (d.countOne c g lvl ev i) :=
  DevKeeps.ite h.addWrap h

theorem DevKeeps.count {g x ev} (h : DevKeeps d₀ d) : DevKeeps d₀ (d.count g x ev) :=
  DevKeeps.ite h (h.foldl fun _ _ k => k.countOne)

theorem DevKeeps.flushBtb {c} (h : DevKeeps d₀ d) : DevKeeps d₀ (d.flushBtb c) := h.rest

/-! ### Injected errors -/

theorem DevKeeps.unflip {grp inst loc words} (h : DevKeeps d₀ d) : DevKeeps d₀ (d.unflip grp inst loc words) :=
  h.rest

theorem DevKeeps.arrayWrite {grp inst loc setWay words} (h : DevKeeps d₀ d) :
    DevKeeps d₀ (d.arrayWrite grp inst loc setWay words) :=
  DevKeeps.ite ((DevKeeps.ite h h.unflip).setFld.setFld.setFld.rest) (DevKeeps.ite h h.unflip)

/-! ### Lines, messages and the homes of lines -/

theorem DevKeeps.unclaimed {pa requester} (h : DevKeeps d₀ d) : DevKeeps d₀ (d.unclaimed pa requester).1 := h.record

theorem DevKeeps.dramReport {g ue} (h : DevKeeps d₀ d) : DevKeeps d₀ (d.dramReport g ue) :=
  (DevKeeps.ite (DevKeeps.ite h.addSat h.addSat).setFld (DevKeeps.ite h.addSat h.addSat)).log

theorem DevKeeps.homeRead {g keyid} (h : DevKeeps d₀ d) : DevKeeps d₀ (d.homeRead g keyid).dev := Kept.homeRead (F := memFrame d₀) h

theorem DevKeeps.toIntake {e'} (h : DevKeeps d₀ d) : DevKeeps d₀ (d.toIntake e') := h.setStack

theorem DevKeeps.homeWrite {g keyid l poison urgent ack} (h : DevKeeps d₀ d) :
    DevKeeps d₀ (d.homeWrite g keyid l poison urgent ack) := Kept.homeWrite (F := memFrame d₀) h

theorem DevKeeps.llcDrop {g} (h : DevKeeps d₀ d) : DevKeeps d₀ (d.llcDrop g) := h.rest

theorem DevKeeps.checkLlc {g} (h : DevKeeps d₀ d) : DevKeeps d₀ (d.checkLlc g) := Kept.checkLlc (F := memFrame d₀) h

theorem DevKeeps.llcEvict {g} (h : DevKeeps d₀ d) : DevKeeps d₀ (d.llcEvict g) := Kept.llcEvict (F := memFrame d₀) h

theorem DevKeeps.llcPut {g l dirty poison key} (h : DevKeeps d₀ d) : DevKeeps d₀ (d.llcPut g l dirty poison key) := Kept.llcPut (F := memFrame d₀) h

theorem DevKeeps.setLine {c g x} (h : DevKeeps d₀ d) : DevKeeps d₀ (d.setLine c g x) := h.rest

theorem DevKeeps.dropLine {c g} (h : DevKeeps d₀ d) : DevKeeps d₀ (d.dropLine c g) := h.setLine

theorem DevKeeps.checkArray {grp c g words} (h : DevKeeps d₀ d) : DevKeeps d₀ (d.checkArray grp c g words) := Kept.checkArray (F := memFrame d₀) h

theorem DevKeeps.checkLine {c g words} (h : DevKeeps d₀ d) : DevKeeps d₀ (d.checkLine c g words) :=
  DevKeeps.ite h h.checkArray.checkArray

theorem DevKeeps.fillLine {c g x} (h : DevKeeps d₀ d) : DevKeeps d₀ (d.fillLine c g x) := h.arrayWrite.setLine

theorem DevKeeps.setGhost {c g x} (h : DevKeeps d₀ d) : DevKeeps d₀ (d.setGhost c g x) := h.rest

theorem DevKeeps.setDir {g x} (h : DevKeeps d₀ d) : DevKeeps d₀ (d.setDir g x) := h.rest

theorem DevKeeps.setTxn {g x} (h : DevKeeps d₀ d) : DevKeeps d₀ (d.setTxn g x) := h.rest

theorem DevKeeps.setMshr {c g x} (h : DevKeeps d₀ d) : DevKeeps d₀ (d.setMshr c g x) := h.rest

theorem DevKeeps.send {m} (h : DevKeeps d₀ d) : DevKeeps d₀ (d.send m) := h.rest

theorem DevKeeps.arrive {p} (h : DevKeeps d₀ d) : DevKeeps d₀ (d.arrive p) := h.rest

theorem DevKeeps.trackSent {c g} (h : DevKeeps d₀ d) : DevKeeps d₀ (d.trackSent c g) := DevKeeps.ite h.setTracker h

theorem DevKeeps.snapshot {g keyid} (h : DevKeeps d₀ d) : DevKeeps d₀ (d.snapshot g keyid).dev := Kept.snapshot (F := memFrame d₀) h

theorem DevKeeps.invalidateAll {g} (h : DevKeeps d₀ d) : DevKeeps d₀ (d.invalidateAll g) := Kept.invalidateAll (F := memFrame d₀) h

theorem DevKeeps.gather {g keyid} (h : DevKeeps d₀ d) : DevKeeps d₀ (d.gather g keyid).dev := Kept.gather (F := memFrame d₀) h

theorem DevKeeps.leaveHome {g l dirty poison key urgent ack} (h : DevKeeps d₀ d) :
    DevKeeps d₀ (d.leaveHome g l dirty poison key urgent ack) := Kept.leaveHome (F := memFrame d₀) h

theorem DevKeeps.poke {g off bs keyid urgent ack} (h : DevKeeps d₀ d) : DevKeeps d₀
    (d.poke g off bs keyid urgent ack) := Kept.poke (F := memFrame d₀) h

theorem DevKeeps.homeStore {g off bs keyid urgent ack} (h : DevKeeps d₀ d) :
    DevKeeps d₀ (d.homeStore g off bs keyid urgent ack) := DevKeeps.ite h.poke h.gather.leaveHome

theorem DevKeeps.homeRmw {pa n keyid f ack} (h : DevKeeps d₀ d) : DevKeeps d₀ (d.homeRmw pa n keyid f ack).dev := Kept.homeRmw (F := memFrame d₀) h

theorem DevKeeps.farWord {pa f} (h : DevKeeps d₀ d) : DevKeeps d₀ (d.farWord pa f).2 := Kept.farWord (F := memFrame d₀) h

/-! ### Address translation -/

theorem DevKeeps.consumed {c requester g} (h : DevKeeps d₀ d) : DevKeeps d₀ (d.consumed c requester g).1 := h.record

theorem DevKeeps.currentFor {c g keyid} (h : DevKeeps d₀ d) : DevKeeps d₀ (d.currentFor c g keyid).dev := Kept.currentFor (F := memFrame d₀) h

theorem DevKeeps.coreRead {c g keyid} (h : DevKeeps d₀ d) : DevKeeps d₀ (d.coreRead c g keyid).dev := Kept.coreRead (F := memFrame d₀) h

theorem DevKeeps.flagEntry {pa keyid e'} (h : DevKeeps d₀ d) : DevKeeps d₀ (d.flagEntry pa keyid e') :=
  DevKeeps.ite h.homeStore h

/-- What a translation leaves is kept. -/
@[reducible] def TransKept (d₀ : Dev) : Trans → Prop
  | .ok _ w => DevKeeps d₀ w.dev
  | .fault _ w => DevKeeps d₀ w.dev

/-- What the translation of a strand's access leaves is kept. -/
@[reducible] def XRKept (d₀ : Dev) : XR → Prop
  | .ok _ d => DevKeeps d₀ d
  | .exc _ d => DevKeeps d₀ d

/-- What the search for the target of a DMA access leaves is kept. -/
@[reducible] def IoToKept (d₀ : Dev) : IoTo → Prop
  | .mem _ _ _ d => DevKeeps d₀ d
  | .window _ d => DevKeeps d₀ d
  | .unclaimed d => DevKeeps d₀ d
  | .refused d => DevKeeps d₀ d

theorem DevKeeps.translate {r c q va k} {w : WS} {x} (h : DevKeeps d₀ w.dev)
    (e : translate r c q va k w = x) : TransKept d₀ x := by
  have kept := Kept.translate (F := memFrame d₀) h e
  cases x <;> exact kept

theorem DevKeeps.setTlb {c t} (h : DevKeeps d₀ d) : DevKeeps d₀ (d.setTlb c t) := h.rest

theorem DevKeeps.xlate {g y va k r} (h : DevKeeps d₀ d) (e : d.xlate g y va k = r) : XRKept d₀ r := by
  subst e
  unfold Dev.xlate
  dsimp only
  split
  · split
    · exact h
    · exact h
  · split
    · rename_i _ _ _ _ e0
      exact (h.translate e0).setTlb
    · rename_i _ _ _ _ e0
      exact h.translate e0

/-! ### The register space -/

theorem DevKeeps.writeReg {off v} (h : DevKeeps d₀ d) : DevKeeps d₀ (d.writeReg off v) := by
  unfold Dev.writeReg
  split
  · exact h
  · exact h.setReg.rise

theorem DevKeeps.hole {r off write} (h : DevKeeps d₀ d) : DevKeeps d₀ (d.hole r off write) :=
  DevKeeps.ite h h.setFld.setFld.setFld.setFld

theorem DevKeeps.emptyCore {c} (h : DevKeeps d₀ d) : DevKeeps d₀ (d.emptyCore c) := (h.rest).setTlb

theorem DevKeeps.showRepairs (h : DevKeeps d₀ d) : DevKeeps d₀ d.showRepairs := h.setFld.setFld

theorem DevKeeps.addRepair {r source} (h : DevKeeps d₀ d) : DevKeeps d₀ (d.addRepair r source) :=
  DevKeeps.ite (h.rest).showRepairs h.log

/-! ### Coherence -/

theorem DevKeeps.toHome {c g b} (h : DevKeeps d₀ d) : DevKeeps d₀ (d.toHome c g b) := h.send

theorem DevKeeps.requestLine {c g keyid r} (h : DevKeeps d₀ d) : DevKeeps d₀ (d.requestLine c g keyid r) :=
  DevKeeps.ite h h.setMshr.toHome

theorem DevKeeps.setWbUsed {c g n} (h : DevKeeps d₀ d) : DevKeeps d₀ (d.setWbUsed c g n) := h.rest

theorem DevKeeps.writeBack {c g} (h : DevKeeps d₀ d) : DevKeeps d₀ (d.writeBack c g) :=
  DevKeeps.ite h.checkLine.setLine.setWbUsed.trackSent.toHome h.checkLine

theorem DevKeeps.evict {e} {c g} (h : DevKeeps d₀ d) (k : d.evict c g = some e) :
    DevKeeps d₀ e := Kept.evict (F := memFrame d₀) h k

theorem DevKeeps.makeRoom {e} {c g} (h : DevKeeps d₀ d) (k : d.makeRoom c g = some e) :
    DevKeeps d₀ e := by
  unfold Dev.makeRoom at k
  split at k
  · cases k
    exact h
  split at k
  · cases k
  · exact h.evict k

theorem DevKeeps.completeRequest {c g} (h : DevKeeps d₀ d) : DevKeeps d₀ (d.completeRequest c g) := by
  unfold Dev.completeRequest
  dsimp only
  split
  · exact h
  · split
    · exact h
    · split
      · exact h.setMshr.toHome
      · split
        · split
          · rename_i _ _ _ _ _ _ _ _ _ _ _ _ _ _ e0
            exact h
          · rename_i _ _ _ _ _ _ _ _ _ _ _ _ _ _ _ e0
            exact (h.makeRoom e0).fillLine.setMshr.toHome
        · exact DevKeeps.ite h.setLine.setMshr.toHome h

theorem DevKeeps.retryFills {c} (h : DevKeeps d₀ d) : DevKeeps d₀ (d.retryFills c) :=
  h.foldl fun _ _ k => k.completeRequest

theorem DevKeeps.answerFwdS {c g req u m} (h : DevKeeps d₀ d) : DevKeeps d₀ (d.answerFwdS c g req u m) := by
  unfold Dev.answerFwdS
  dsimp only
  split
  · split
    · exact h.checkLine.setLine.trackSent.send.toHome
    · split
      · exact h.checkLine.send.toHome
      · exact DevKeeps.ite h.checkLine.toHome h.checkLine.toHome
  · split
    · exact DevKeeps.ite h.checkLine.send.toHome h.checkLine.setLine.trackSent.send.send.toHome
    · split
      · exact (DevKeeps.ite h.checkLine h.checkLine.setLine).send.toHome
      · split
        · exact DevKeeps.ite h.checkLine.send.toHome h.checkLine.send.send.toHome
        · exact DevKeeps.ite h.checkLine.send.toHome h.checkLine.toHome

theorem DevKeeps.answerFwdX {c g req rcl} (h : DevKeeps d₀ d) : DevKeeps d₀ (d.answerFwdX c g req rcl) := by
  unfold Dev.answerFwdX
  dsimp only
  split
  · exact (DevKeeps.ite (DevKeeps.ite (DevKeeps.ite h.checkLine.dropLine.trackSent h.checkLine.dropLine)
        (DevKeeps.ite h.checkLine.dropLine.trackSent h.checkLine.dropLine).send).send (DevKeeps.ite
        (DevKeeps.ite h.checkLine.dropLine.trackSent h.checkLine.dropLine)
        (DevKeeps.ite h.checkLine.dropLine.trackSent h.checkLine.dropLine).send)).toHome
  · split
    · exact (DevKeeps.ite (DevKeeps.ite h.checkLine h.checkLine.send).send
          (DevKeeps.ite h.checkLine h.checkLine.send)).toHome
    · exact DevKeeps.ite (DevKeeps.ite h.checkLine.send.toHome
          (DevKeeps.ite h.checkLine h.checkLine.send).toHome) h.checkLine.toHome

theorem DevKeeps.answerInv {c g} (h : DevKeeps d₀ d) : DevKeeps d₀ (d.answerInv c g) :=
  DevKeeps.ite h.dropLine.toHome (DevKeeps.ite h.toHome h.toHome)

theorem DevKeeps.stashRoom {e} {c g} (h : DevKeeps d₀ d) (k : d.stashRoom c g = some e) :
    DevKeeps d₀ e := Kept.stashRoom (F := memFrame d₀) h k

theorem DevKeeps.putStash {c g l dirty p key} (h : DevKeeps d₀ d) : DevKeeps d₀ (d.putStash c g l dirty p key) :=
  h.fillLine.addSat

theorem DevKeeps.takeStash {c g l dirty p key} (h : DevKeeps d₀ d) : DevKeeps d₀ (d.takeStash c g l dirty p key) := by
  unfold Dev.takeStash
  split
  · rename_i _ _ e0
    exact (h.stashRoom e0).putStash.toHome
  · rename_i _ e0
    exact h.toHome

theorem DevKeeps.dataAtCore {c g l dirty p t} (h : DevKeeps d₀ d) : DevKeeps d₀ (d.dataAtCore c g l dirty p t) := by
  unfold Dev.dataAtCore
  split
  · exact h.takeStash
  · split
    · exact h
    · exact h.setMshr.completeRequest

theorem DevKeeps.grantAtCore {c g st seq} (h : DevKeeps d₀ d) : DevKeeps d₀ (d.grantAtCore c g st seq) := by
  unfold Dev.grantAtCore
  dsimp only
  split
  · exact h
  · split
    · exact (h.rest).setMshr.completeRequest
    · exact h.setMshr.completeRequest

theorem DevKeeps.sweep {c} (h : DevKeeps d₀ d) : DevKeeps d₀ (d.sweep c) :=
  (h.foldl fun _ _ k => (DevKeeps.ite k.writeBack k)).setTracker

theorem DevKeeps.wbAckAtCore {c g p} (h : DevKeeps d₀ d) : DevKeeps d₀ (d.wbAckAtCore c g p) :=
  DevKeeps.ite h.setTracker h.setWbUsed.setGhost.sweep.retryFills

theorem DevKeeps.markL1 {c g instr} (h : DevKeeps d₀ d) : DevKeeps d₀ (d.markL1 c g instr) := by
  unfold Dev.markL1
  dsimp only
  split
  · exact h
  · split
    · exact h.setLine
    · exact (DevKeeps.ite h h.setLine).setLine

theorem DevKeeps.demand {c g keyid instr} (h : DevKeeps d₀ d) : DevKeeps d₀ (d.demand c g keyid instr) :=
  DevKeeps.ite h (DevKeeps.ite h.markL1 h.requestLine)

theorem DevKeeps.holdEntry {g} (h : DevKeeps d₀ d) : DevKeeps d₀ (d.holdEntry g) := (h.rest).setDir

theorem DevKeeps.showSlice {g} (h : DevKeeps d₀ d) : DevKeeps d₀ (d.showSlice g) := h.setFld.setFld

theorem DevKeeps.source {g key} (h : DevKeeps d₀ d) : DevKeeps d₀ (d.source g key).dev := by
  unfold Dev.source
  dsimp only
  split
  · exact h.homeRead
  · exact h.drawLine

theorem DevKeeps.sink {g key l p urgent ack} (h : DevKeeps d₀ d) : DevKeeps d₀ (d.sink g key l p urgent ack) :=
  DevKeeps.ite h.homeWrite h

theorem DevKeeps.keepDirty {g key l p ack} (h : DevKeeps d₀ d) : DevKeeps d₀ (d.keepDirty g key l p ack) := Kept.keepDirty (F := memFrame d₀) h

theorem DevKeeps.keepClean {g key l p} (h : DevKeeps d₀ d) : DevKeeps d₀ (d.keepClean g key l p) :=
  DevKeeps.ite h.llcPut h

theorem DevKeeps.clearLlc {g} (h : DevKeeps d₀ d) : DevKeeps d₀ (d.clearLlc g) := h.llcDrop.setDir

theorem DevKeeps.homeCopy {g key} (h : DevKeeps d₀ d) : DevKeeps d₀ (d.homeCopy g key).1.dev := by
  unfold Dev.homeCopy
  split
  · exact h
  · split
    · exact h
    · exact h.source

theorem DevKeeps.openTxn {g key k' req invs fwd} (h : DevKeeps d₀ d) : DevKeeps d₀
    (d.openTxn g key k' req invs fwd) := by
  unfold Dev.openTxn
  dsimp only
  split
  · exact (DevKeeps.ite h.holdEntry.addSat h.holdEntry).setTxn.foldl fun _ _ k => k.send
  · exact ((DevKeeps.ite h.holdEntry.addSat h.holdEntry).setTxn.foldl fun _ _ k => k.send).send
  · exact ((DevKeeps.ite h.holdEntry.addSat h.holdEntry).setTxn.foldl fun _ _ k => k.send).send

theorem DevKeeps.grant {g src st} (h : DevKeeps d₀ d) : DevKeeps d₀ (d.grant g src st) := by
  unfold Dev.grant
  dsimp only
  split
  · exact h.setTxn.send
  · exact h.send

theorem DevKeeps.sendData {g src l dirty p t} (h : DevKeeps d₀ d) : DevKeeps d₀ (d.sendData g src l dirty p t) :=
  h.send

theorem DevKeeps.ownBy {g a} (h : DevKeeps d₀ d) : DevKeeps d₀ (d.ownBy g a) := h.setDir

theorem DevKeeps.noSharers {g} (h : DevKeeps d₀ d) : DevKeeps d₀ (d.noSharers g) := h.setDir

theorem DevKeeps.addSharer {g a} (h : DevKeeps d₀ d) : DevKeeps d₀ (d.addSharer g a).2 := by
  unfold Dev.addSharer
  dsimp only
  split
  · exact h.setDir
  · split
    · split
      · exact h.setDir
      · exact h.setDir
    · split
      · exact h.setDir
      · exact h.setDir

theorem DevKeeps.dropPtr {g a} (h : DevKeeps d₀ d) : DevKeeps d₀ (d.dropPtr g a) :=
  DevKeeps.ite h (DevKeeps.ite h.noSharers h.setDir)

theorem DevKeeps.gathered {g t} (h : DevKeeps d₀ d) : DevKeeps d₀ (d.gathered g t).2.2.2 := by
  unfold Dev.gathered
  dsimp only
  split
  · split
    · exact h
    · exact h
  · exact h.homeCopy

theorem DevKeeps.awaitIntake {g wait src} (h : DevKeeps d₀ d) : DevKeeps d₀ (d.awaitIntake g wait src) := by
  unfold Dev.awaitIntake
  split
  · split
    · exact h.setTxn
    · exact h
  · exact h.grant

theorem DevKeeps.stashHome {g key l dirty p} (h : DevKeeps d₀ d) : DevKeeps d₀ (d.stashHome g key l dirty p) :=
  DevKeeps.ite h.noSharers.keepDirty h.noSharers.keepClean

theorem DevKeeps.countHomeStash {target} (h : DevKeeps d₀ d) : DevKeeps d₀ (d.countHomeStash target) :=
  DevKeeps.ite h h.addSat

theorem DevKeeps.closeTxn {g} (h : DevKeeps d₀ d) : DevKeeps d₀ (d.closeTxn g) :=
  DevKeeps.ite h.setTxn.setDir h.setTxn.setDir

theorem DevKeeps.setSliceQ {g q} (h : DevKeeps d₀ d) : DevKeeps d₀ (d.setSliceQ g q) := h.rest

theorem DevKeeps.wbmAt {e} {g src seq k' l p key} (h : DevKeeps d₀ d) (k : d.wbmAt g src seq k' l p key = some e) :
    DevKeeps d₀ e := by
  unfold Dev.wbmAt at k
  dsimp only at k
  split at k
  · cases k
  split at k
  · split at k
    · cases k
      exact h.sink.send
    · cases k
      exact h.noSharers.keepDirty.closeTxn.send
  · cases k
    exact h.addSat.send

theorem DevKeeps.evcAt {e} {g src l p key} (h : DevKeeps d₀ d) (k : d.evcAt g src l p key = some e) :
    DevKeeps d₀ e := by
  unfold Dev.evcAt at k
  dsimp only at k
  split at k
  · cases k
  split at k
  · cases k
    exact h.send
  · cases k
    have hp : DevKeeps d₀ (if ((d.dropPtr g src).dir g).st == .uncached then (d.dropPtr g src).keepClean g key l p
        else d.dropPtr g src) := DevKeeps.ite h.dropPtr.keepClean h.dropPtr
    exact (DevKeeps.ite hp.closeTxn hp).send

theorem DevKeeps.dropHomed {sk} (h : DevKeeps d₀ d) : DevKeeps d₀ (d.dropHomed sk) := h.rest

theorem DevKeeps.makeWriteback {g src k'} (h : DevKeeps d₀ d) : DevKeeps d₀ (d.makeWriteback g src k') := by
  unfold Dev.makeWriteback
  split
  · split
    · exact h
    · split
      · exact h.writeBack
      · cases e : d.evict _ g with
        | none => exact h
        | some x => exact h.evict e
  · exact h

/-! ### Caches -/

theorem DevKeeps.setUnclean {k' b} (h : DevKeeps d₀ d) : DevKeeps d₀ (d.setUnclean k' b) := h.rest

theorem DevKeeps.flushLine {c g} (h : DevKeeps d₀ d) : DevKeeps d₀ (d.flushLine c g) :=
  DevKeeps.ite h.checkLine (DevKeeps.ite h.checkLine.dropLine.trackSent.noSharers.keepDirty.closeTxn
      (DevKeeps.ite h.checkLine.dropLine.dropPtr.keepClean.closeTxn h.checkLine.dropLine.dropPtr))

theorem DevKeeps.flushCore {c} (h : DevKeeps d₀ d) : DevKeeps d₀ (d.flushCore c) := h.foldl fun _ _ k => k.flushLine

theorem DevKeeps.clearL1 {c i} (h : DevKeeps d₀ d) : DevKeeps d₀ (d.clearL1 c i) := h.foldl fun _ _ k => k.setLine

theorem DevKeeps.clearLost {c} (h : DevKeeps d₀ d) : DevKeeps d₀ (d.clearLost c) := h.foldl fun _ _ k => k.setReg

theorem DevKeeps.flushWay {t w} (h : DevKeeps d₀ d) : DevKeeps d₀ (d.flushWay t w) :=
  h.foldl fun _ _ k => (DevKeeps.ite k.llcEvict.setDir.closeTxn k.llcEvict.setDir)

theorem DevKeeps.coreEnable {c x on} (h : DevKeeps d₀ d) : DevKeeps d₀ (d.coreEnable c x on) :=
  DevKeeps.ite h (DevKeeps.ite h (DevKeeps.ite (DevKeeps.ite h.setFld (DevKeeps.ite h.setFld.setFld
      (DevKeeps.ite h.setFld h.setFld.setUnclean))) h.setFld.setFld))

theorem DevKeeps.coreCtlWrite {c v} (h : DevKeeps d₀ d) : DevKeeps d₀ (d.coreCtlWrite c v) :=
  DevKeeps.ite (DevKeeps.ite (DevKeeps.ite (DevKeeps.ite h.setFld h).setFld.setFld.coreEnable
      (DevKeeps.ite h.setFld h).setFld.setFld).coreEnable.coreEnable.setFld (DevKeeps.ite
      (DevKeeps.ite h.setFld h).setFld.setFld.coreEnable
      (DevKeeps.ite h.setFld h).setFld.setFld).coreEnable.coreEnable) (DevKeeps.ite (DevKeeps.ite
      (DevKeeps.ite h.setFld h).setFld.setFld.coreEnable
      (DevKeeps.ite h.setFld h).setFld.setFld).coreEnable.coreEnable.setFld (DevKeeps.ite
      (DevKeeps.ite h.setFld h).setFld.setFld.coreEnable
      (DevKeeps.ite h.setFld h).setFld.setFld).coreEnable.coreEnable).coreEnable

theorem DevKeeps.wayEnable {t w on} (h : DevKeeps d₀ d) : DevKeeps d₀ (d.wayEnable t w on) :=
  DevKeeps.ite h (DevKeeps.ite (DevKeeps.ite h (DevKeeps.ite h.setFld.setFld
      (DevKeeps.ite h.setFld h.setFld.setUnclean))) h.setFld.setFld)

theorem DevKeeps.llcCtlWrite {t v} (h : DevKeeps d₀ d) : DevKeeps d₀ (d.llcCtlWrite t v) :=
  (DevKeeps.ite h.setFld h).foldl fun _ _ k => k.wayEnable

theorem DevKeeps.cacheCtlWrite {t u v} (h : DevKeeps d₀ d) : DevKeeps d₀ (d.cacheCtlWrite t u v) := by
  unfold Dev.cacheCtlWrite
  split
  · exact h.coreCtlWrite
  · exact h.llcCtlWrite

theorem DevKeeps.coreDisabled {c x} (h : DevKeeps d₀ d) : DevKeeps d₀ (d.coreDisabled c x) :=
  (DevKeeps.ite h.flushCore.clearLost h.clearL1).setFld.setFld.setUnclean

theorem DevKeeps.cinvCore {c x} (h : DevKeeps d₀ d) : DevKeeps d₀ (d.cinvCore c x).2 := by
  unfold Dev.cinvCore
  dsimp only
  split
  · exact h
  · exact (DevKeeps.ite (h.clearLost.rest) h.clearL1).setFld.setUnclean

theorem DevKeeps.cinvWays {t mask} (h : DevKeeps d₀ d) : DevKeeps d₀ (d.cinvWays t mask).2 :=
  h.foldl fun _ _ k => k.setFld.setUnclean

theorem DevKeeps.cinvAll {c spec} (h : DevKeeps d₀ d) : DevKeeps d₀ (d.cinvAll c spec).2 := by
  unfold Dev.cinvAll
  dsimp only
  split
  · exact h.cinvCore
  · split
    · exact h.cinvWays
    · exact h

end Sys2Proof.Proofs
end

