-- ==== Sys2Proof/Proofs/DeviceKeepsUnits.lean ====
section
/-!
PROOFS. What the operations on the device keep, continued: channels, interrupts, persistence, errors, the cushion,
    ports, self-test,
mailboxes and the security engine.
-/

namespace Sys2Proof.Proofs

open Sys2Proof Sys2Proof.Machine Sys2Proof.Laws

variable {d₀ d : Dev}

/-! ### Memory channels -/

theorem DevKeeps.acceptReq {n group} (h : DevKeeps d₀ d) : DevKeeps d₀ (d.acceptReq n group).2 := by
  unfold Dev.acceptReq
  dsimp only
  split
  · exact h
  · split
    · exact h.setFld
    · exact DevKeeps.ite h h.setChan.addSat

theorem DevKeeps.refillPorts {n} (h : DevKeeps d₀ d) : DevKeeps d₀ (d.refillPorts n) :=
  h.setChan.foldl fun _ _ k => k.setFld

theorem DevKeeps.noteRow {n loc} (h : DevKeeps d₀ d) : DevKeeps d₀ (d.noteRow n loc) :=
  DevKeeps.ite h.setChan.setUnit h.setChan

theorem DevKeeps.checkRead {n a g chk} (h : DevKeeps d₀ d) : DevKeeps d₀ (d.checkRead n a g chk) := by
  unfold Dev.checkRead
  dsimp only
  split
  · exact h
  · exact DevKeeps.ite (DevKeeps.ite h.addSat.setFld h.addSat).noteRow.log.candidate
        (DevKeeps.ite h.addSat.setFld h.addSat).noteRow.log
  · exact h.addSat.noteRow.log.candidate

theorem DevKeeps.setBad {g b} (h : DevKeeps d₀ d) : DevKeeps d₀ (d.setBad g b) := h.rest

theorem DevKeeps.poisonLine {g} (h : DevKeeps d₀ d) : DevKeeps d₀ (d.poisonLine g) := h.setBad.rest

theorem DevKeeps.moveLine {n g chk} (h : DevKeeps d₀ d) : DevKeeps d₀ (d.moveLine n g chk) :=
  DevKeeps.ite (DevKeeps.ite h.checkRead.poisonLine.addSat.log h.checkRead.poisonLine.addSat) h.checkRead

theorem DevKeeps.moveGranule {slot q chks} (h : DevKeeps d₀ d) : DevKeeps d₀ (d.moveGranule slot q chks) :=
  (h.foldl fun _ _ k => k.moveLine).addWrap

theorem DevKeeps.demandMove {g chk} (h : DevKeeps d₀ d) : DevKeeps d₀ (d.demandMove g chk) := by
  unfold Dev.demandMove
  dsimp only
  split
  · exact h
  · exact DevKeeps.ite (h.moveGranule.rest) h

theorem DevKeeps.pauseDue {n} (h : DevKeeps d₀ d) : DevKeeps d₀ (d.pauseDue n) := DevKeeps.ite h.setFld.dutyEvent h

theorem DevKeeps.pause {n} (h : DevKeeps d₀ d) : DevKeeps d₀ (d.pause n) := h.addSat.setFld.setChan

theorem DevKeeps.retrainWrite {n v} (h : DevKeeps d₀ d) : DevKeeps d₀ (d.retrainWrite n v) :=
  DevKeeps.ite h.writeReg.setChan h.writeReg

theorem DevKeeps.setBankRows {n bank es} (h : DevKeeps d₀ d) : DevKeeps d₀ (d.setBankRows n bank es) := h.setChan

theorem DevKeeps.showHeldRows {n} (h : DevKeeps d₀ d) : DevKeeps d₀ (d.showHeldRows n) := by
  unfold Dev.showHeldRows
  dsimp only
  split
  · exact h.setReg
  · exact h.setReg

theorem DevKeeps.rowguardWrite {n v} (h : DevKeeps d₀ d) : DevKeeps d₀ (d.rowguardWrite n v) := by
  unfold Dev.rowguardWrite
  dsimp only
  split
  · exact DevKeeps.ite h.writeReg.setBankRows.setChan.showHeldRows
        h.writeReg.setBankRows.setChan.showHeldRows.dutyEvent
  · exact h.writeReg

theorem DevKeeps.patrolNext {n} (h : DevKeeps d₀ d) : DevKeeps d₀ (d.patrolNext n) :=
  DevKeeps.ite h.setChan h.setChan.setFld

theorem DevKeeps.scrubLine {n ue} (h : DevKeeps d₀ d) : DevKeeps d₀ (d.scrubLine n ue) := by
  unfold Dev.scrubLine
  split
  · exact h
  · exact DevKeeps.ite h.poisonLine h.setBad

theorem DevKeeps.scrubWrite {n v} (h : DevKeeps d₀ d) : DevKeeps d₀ (d.scrubWrite n v) :=
  DevKeeps.ite (DevKeeps.ite h.writeReg.scrubLine h.writeReg).setFld.setFld.patrolNext h.writeReg

theorem DevKeeps.fence {slot n} (h : DevKeeps d₀ d) : DevKeeps d₀ (d.fence slot n) :=
  (DevKeeps.ite (h.rest).setFld.setFld (h.rest)).log

theorem DevKeeps.beginEvac {slot urgent} (h : DevKeeps d₀ d) : DevKeeps d₀ (d.beginEvac slot urgent) :=
  (DevKeeps.ite h.setFld h).rest

theorem DevKeeps.retireChannel {n permanent} (h : DevKeeps d₀ d) : DevKeeps d₀ (d.retireChannel n permanent) := by
  unfold Dev.retireChannel
  dsimp only
  split
  · exact h
  · exact DevKeeps.ite (DevKeeps.ite (DevKeeps.ite h.setFld.setFld.fence h.setFld.setFld).dutyEvent h.beginEvac)
        (DevKeeps.ite h.setFld.fence h.setFld.log)

theorem DevKeeps.evacWrite {v} (h : DevKeeps d₀ d) : DevKeeps d₀ (d.evacWrite v) :=
  DevKeeps.ite h.writeReg.beginEvac h.writeReg

theorem DevKeeps.mcTick {n} (h : DevKeeps d₀ d) : DevKeeps d₀ (d.mcTick n) :=
  DevKeeps.ite h.refillPorts.pauseDue.setChan h.refillPorts.pauseDue

/-! ### Interrupts -/

theorem DevKeeps.irDiscard {rid index reason} (h : DevKeeps d₀ d) : DevKeeps d₀ (d.irDiscard rid index reason) :=
  (DevKeeps.ite h.addSat h.addSat.setFld.setFld.setFld.setFld).log

theorem DevKeeps.irtEntry {index} (h : DevKeeps d₀ d) : DevKeeps d₀ (d.irtEntry index).2 := Kept.irtEntry (F := memFrame d₀) h

theorem DevKeeps.alert {block k' head} (h : DevKeeps d₀ d) : DevKeeps d₀ (d.alert block k' head) :=
  DevKeeps.ite (DevKeeps.ite h.farWord h.farWord.deliver) h

theorem DevKeeps.collect {block v head} (h : DevKeeps d₀ d) : DevKeeps d₀ (d.collect block v head) :=
  h.farWord.farWord.alert

theorem DevKeeps.guestMessage {block v} (h : DevKeeps d₀ d) : DevKeeps d₀ (d.guestMessage block v) :=
  DevKeeps.ite (DevKeeps.ite h.farWord.deliver (DevKeeps.ite h.farWord.setPend h.farWord.collect)) h.farWord.collect

theorem DevKeeps.irMessage {rid addr size x} (h : DevKeeps d₀ d) : DevKeeps d₀ (d.irMessage rid addr size x) := Kept.irMessage (F := memFrame d₀) h

theorem DevKeeps.bindClass {i block k'} (h : DevKeeps d₀ d) : DevKeeps d₀ (d.bindClass i block k') :=
  h.farWord.setReg

theorem DevKeeps.bindStrand {i block} (h : DevKeeps d₀ d) : DevKeeps d₀ (d.bindStrand i block) :=
  DevKeeps.ite h.setFld (DevKeeps.ite h.farWord.setFld ((h.farWord.farWord.farWord.foldl
      fun _ _ k => k.bindClass).rest).setFld.setFld)

theorem DevKeeps.unbindClass {i block k'} (h : DevKeeps d₀ d) : DevKeeps d₀ (d.unbindClass i block k') :=
  h.setReg.farWord.farWord

theorem DevKeeps.unbindStrand {i} (h : DevKeeps d₀ d) : DevKeeps d₀ (d.unbindStrand i) := by
  unfold Dev.unbindStrand
  dsimp only
  split
  · exact h
  · split
    · exact (h.farWord.foldl fun _ _ k => k.unbindClass).setFld.rest
    · exact ((h.farWord.foldl fun _ _ k => k.unbindClass).setFld.rest).alert

theorem DevKeeps.bindWrite {i v} (h : DevKeeps d₀ d) : DevKeeps d₀ (d.bindWrite i v) :=
  DevKeeps.ite (DevKeeps.ite h.setFld h).bindStrand (DevKeeps.ite h.setFld h).unbindStrand.setFld

theorem DevKeeps.irInvWrite {v} (h : DevKeeps d₀ d) : DevKeeps d₀ (d.irInvWrite v) := DevKeeps.ite (h.rest) (h.rest)

/-! ### Persistence -/

theorem DevKeeps.stackTick {n} (h : DevKeeps d₀ d) : DevKeeps d₀ (d.stackTick n) :=
  DevKeeps.ite h h.setFld.setFld.setStack

theorem DevKeeps.drawCredit {c n} (h : DevKeeps d₀ d) : DevKeeps d₀ (d.drawCredit c n) := h.setTracker

theorem DevKeeps.trackStore {e} {c j g} (h : DevKeeps d₀ d) (k : d.trackStore c j g = some e) :
    DevKeeps d₀ e := by
  unfold Dev.trackStore at k
  dsimp only at k
  split at k
  · cases k
    exact h.setTracker
  split at k
  · cases k
    exact h.setTracker
  split at k
  · cases k
  split at k
  · cases k
  · cases k
    exact (DevKeeps.ite h.drawCredit h).setTracker

theorem DevKeeps.closeBank {c} (h : DevKeeps d₀ d) : DevKeeps d₀ (d.closeBank c) := DevKeeps.ite h h.setTracker.sweep

theorem DevKeeps.showIntake {n} (h : DevKeeps d₀ d) : DevKeeps d₀ (d.showIntake n) := h.setFld

theorem DevKeeps.wearOut {n k' bytes} (h : DevKeeps d₀ d) : DevKeeps d₀ (d.wearOut n k' bytes) :=
  h.setGranule.addWrap.setStack

theorem DevKeeps.checkIntake {n g} (h : DevKeeps d₀ d) : DevKeeps d₀ (d.checkIntake n g) :=
  DevKeeps.ite h h.unflip.log

theorem DevKeeps.mediaWrite {n e'} (h : DevKeeps d₀ d) : DevKeeps d₀ (d.mediaWrite n e') := by
  have k : DevKeeps d₀ (d.checkIntake n e'.g) := h.checkIntake
  refine DevKeeps.wearOut (k.parts id (writeBytes_wf _ _ _ _) id)

theorem DevKeeps.showSpares {n} (h : DevKeeps d₀ d) : DevKeeps d₀ (d.showSpares n) := h.setFld

theorem DevKeeps.drainFail {g reason} (h : DevKeeps d₀ d) : DevKeeps d₀ (d.drainFail g reason) := by
  unfold Dev.drainFail
  dsimp only
  split
  · exact h
  · exact h.rest

/-! ### Errors -/

theorem DevKeeps.errTailWrite {v} (h : DevKeeps d₀ d) : DevKeeps d₀ (d.errTailWrite v) :=
  DevKeeps.ite h.setFld.setFld h

theorem DevKeeps.releaseEvents (h : DevKeeps d₀ d) : DevKeeps d₀ d.releaseEvents :=
  DevKeeps.ite h (h.rest).errEventNow

theorem DevKeeps.loseStop {t} (h : DevKeeps d₀ d) : DevKeeps d₀ (d.loseStop t) := (h.rest).log.candidate.candidate

theorem DevKeeps.setInImage {x b} (h : DevKeeps d₀ d) : DevKeeps d₀ (d.setInImage x b) := by
  unfold Dev.setInImage
  split
  · exact h
  · split
    · exact h
    · exact h.setDomain

theorem DevKeeps.copyCoreRegs {a b} (h : DevKeeps d₀ d) : DevKeeps d₀ (d.copyCoreRegs a b) :=
  (h.foldl fun _ _ k => k.setReg).setReg.setReg

theorem DevKeeps.sendOpen {c} (h : DevKeeps d₀ d) : DevKeeps d₀ (d.sendOpen c) :=
  h.foldl fun _ _ k => (DevKeeps.ite k.writeBack k)

theorem DevKeeps.disableSource {c} (h : DevKeeps d₀ d) : DevKeeps d₀ (d.disableSource c) :=
  h.coreEnable.coreEnable.coreEnable

theorem DevKeeps.addSpares {up down} (h : DevKeeps d₀ d) : DevKeeps d₀ (d.addSpares up down) := h.setFld

/-! ### The cushion -/

theorem DevKeeps.chainSend {typ payload} (h : DevKeeps d₀ d) : DevKeeps d₀ (d.chainSend typ payload) := h.rest

theorem DevKeeps.sendPowerFail (h : DevKeeps d₀ d) : DevKeeps d₀ d.sendPowerFail := h.rest

theorem DevKeeps.updPhase {p} (h : DevKeeps d₀ d) : DevKeeps d₀ (d.updPhase p) := DevKeeps.ite h h.setFld.bmcEvent

theorem DevKeeps.abortUpdate {reason} (h : DevKeeps d₀ d) : DevKeeps d₀ (d.abortUpdate reason) :=
  DevKeeps.ite (h.rest).updPhase.setFld h

theorem DevKeeps.wakeDeep (h : DevKeeps d₀ d) : DevKeeps d₀ d.wakeDeep :=
  h.foldl fun _ _ k => (DevKeeps.ite k.setFld.addSat k)

theorem DevKeeps.phaseDone {p} (h : DevKeeps d₀ d) : DevKeeps d₀ (d.phaseDone p) := by
  unfold Dev.phaseDone
  dsimp only
  split
  · exact h
  · exact DevKeeps.ite h (h.rest)

theorem DevKeeps.showDue (h : DevKeeps d₀ d) : DevKeeps d₀ d.showDue := by
  unfold Dev.showDue
  split
  · exact h.setFld
  · exact h.setFld

theorem DevKeeps.drainDue {bit} (h : DevKeeps d₀ d) : DevKeeps d₀ (d.drainDue bit) := by
  unfold Dev.drainDue
  dsimp only
  split
  · exact h
  · exact DevKeeps.ite h (DevKeeps.ite (h.rest).showDue.dutyEvent (h.rest).showDue)

theorem DevKeeps.abandonMoves (h : DevKeeps d₀ d) : DevKeeps d₀ d.abandonMoves :=
  h.foldl fun _ _ k => k.setStack.setFld

theorem DevKeeps.endQuiesces (h : DevKeeps d₀ d) : DevKeeps d₀ d.endQuiesces := h.foldl fun _ _ k => k.setFunc.setFld

theorem DevKeeps.dramWriteBack (h : DevKeeps d₀ d) : DevKeeps d₀ d.dramWriteBack :=
  (h.foldl fun _ _ k => (k.foldl fun _ _ k => (DevKeeps.ite k (DevKeeps.ite k.writeBack
      (DevKeeps.ite k k.flushLine))))).foldl fun _ _ k => (DevKeeps.ite k k.llcEvict)

theorem DevKeeps.resumeInfoWrite {v} (h : DevKeeps d₀ d) : DevKeeps d₀ (d.resumeInfoWrite v) :=
  DevKeeps.ite (h.writeReg.rest) h.writeReg

/-! ### The I/O MMU -/

theorem DevKeeps.installLeaf {i x stage level slot pin a e'} (h : DevKeeps d₀ d) :
    DevKeeps d₀ (d.installLeaf i x stage level slot pin a e') := h.setTlb

theorem DevKeeps.ioFault {rid kind level stage write addr} (h : DevKeeps d₀ d) :
    DevKeeps d₀ (d.ioFault rid kind level stage write addr) :=
  (DevKeeps.ite h.addSat h.addSat.setFld.setFld.setFld.setFld.setFld.setFld.setReg).log

theorem DevKeeps.ioDeny {rid write addr} (h : DevKeeps d₀ d) : DevKeeps d₀ (d.ioDeny rid write addr) :=
  h.drawWord.ioFault

theorem DevKeeps.ioTo {rid addr write r} (h : DevKeeps d₀ d) (e : d.ioTo rid addr write = r) :
    IoToKept d₀ r := by
  have kept := Kept.ioTo (F := memFrame d₀) h e
  cases r <;> exact kept

theorem DevKeeps.ioqIdle (h : DevKeeps d₀ d) : DevKeeps d₀ d.ioqIdle := h.setFld

theorem DevKeeps.ioqAdvance (h : DevKeeps d₀ d) : DevKeeps d₀ d.ioqAdvance := h.setFld.ioqIdle

theorem DevKeeps.ioqCommand (h : DevKeeps d₀ d) : DevKeeps d₀ (d.ioqCommand).2 := h.coreRead

theorem DevKeeps.ioqRun {op f} (h : DevKeeps d₀ d) (hf : ∀ v w d, DevKeeps d₀ d → DevKeeps d₀ (f v w d)) :
    DevKeeps d₀ (d.ioqRun op f) :=
  DevKeeps.ite h (DevKeeps.ite h.ioqCommand.setFld (DevKeeps.ite h (hf _ _ _ h.ioqCommand).ioqAdvance))

theorem DevKeeps.ioDrop {p} (h : DevKeeps d₀ d) : DevKeeps d₀ (d.ioDrop p) := h.rest

theorem DevKeeps.ioqBaseWrite {v} (h : DevKeeps d₀ d) : DevKeeps d₀ (d.ioqBaseWrite v) :=
  DevKeeps.ite h.setFld (DevKeeps.ite h.writeReg.setFld.ioqIdle h.writeReg.ioqIdle)

/-! ### Root ports -/

theorem DevKeeps.portMsi {pt} (h : DevKeeps d₀ d) : DevKeeps d₀ (d.portMsi pt) :=
  DevKeeps.ite h (DevKeeps.ite h.irMessage h)

theorem DevKeeps.slotEvent {pt bit} (h : DevKeeps d₀ d) : DevKeeps d₀ (d.slotEvent pt bit) :=
  DevKeeps.ite h.setPort.portMsi h.setPort

theorem DevKeeps.portRecord {pt address} (h : DevKeeps d₀ d) : DevKeeps d₀ (d.portRecord pt address).1 := h.record

theorem DevKeeps.dpcRelease {pt partner} (h : DevKeeps d₀ d) : DevKeeps d₀ (d.dpcRelease pt partner) :=
  DevKeeps.ite h h.setFld.setPort

theorem DevKeeps.trainPort {pt} (h : DevKeeps d₀ d) : DevKeeps d₀ (d.trainPort pt) := DevKeeps.ite h h.setPort

theorem DevKeeps.applySlot {pt v} (h : DevKeeps d₀ d) : DevKeeps d₀ (d.applySlot pt v) := h.setPort.slotEvent

theorem DevKeeps.mirrorSlot {pt i} (h : DevKeeps d₀ d) : DevKeeps d₀ (d.mirrorSlot pt i) :=
  DevKeeps.ite (DevKeeps.ite h.setPort.slotEvent h.setPort).slotEvent (DevKeeps.ite h.setPort.slotEvent h.setPort)

theorem DevKeeps.answer {pt status bytes poison} (h : DevKeeps d₀ d) : DevKeeps d₀
    (d.answer pt status bytes poison) :=
  h.setPort

theorem DevKeeps.peerRecord {pt pa} (h : DevKeeps d₀ d) : DevKeeps d₀ (d.peerRecord pt pa) := h.log

theorem DevKeeps.ioRead {pa n key} (h : DevKeeps d₀ d) : DevKeeps d₀ (d.ioRead pa n key).1.dev := by
  unfold Dev.ioRead
  dsimp only
  split
  · exact h.snapshot
  · exact h.drawLine

theorem DevKeeps.dmaReadPage {pt rid p} {r} (h : DevKeeps d₀ r.dev) : DevKeeps d₀
    (Dev.dmaReadPage pt rid r p).dev := by
  unfold Dev.dmaReadPage
  split
  · exact h
  split
  · rename_i e
    exact h.ioTo e
  · rename_i e
    exact h.ioTo e
  · rename_i e
    exact (h.ioTo e).peerRecord
  · rename_i e
    exact DevKeeps.foldlBy DmaGot.dev (h.ioTo e) fun _ _ k => k.ioRead

theorem DevKeeps.sscApply {n} (h : DevKeeps d₀ d) : DevKeeps d₀ (d.sscApply n) :=
  DevKeeps.ite h.setFld (DevKeeps.ite h.setPort.setFld h.setFld)

/-! ### Self-test -/

theorem DevKeeps.injArmWrite {g v} (h : DevKeeps d₀ d) : DevKeeps d₀ (d.injArmWrite g v) :=
  DevKeeps.ite h.writeReg.setFld.setFld h.writeReg

theorem DevKeeps.moveIndex {i t} (h : DevKeeps d₀ d) : DevKeeps d₀ (d.moveIndex i t) :=
  (h.setFld.foldl fun _ _ k => (DevKeeps.ite k.llcEvict.setDir.closeTxn k.llcEvict.setDir)).setFld.setFld

theorem DevKeeps.remapSlices (h : DevKeeps d₀ d) : DevKeeps d₀ d.remapSlices := by
  unfold Dev.remapSlices
  refine h.foldl fun _ _ k => ?_
  split
  · exact DevKeeps.ite k k.moveIndex
  · exact k

theorem DevKeeps.retireLlcWay {t w} (h : DevKeeps d₀ d) : DevKeeps d₀ (d.retireLlcWay t w) :=
  DevKeeps.ite h.flushWay.setFld.setFld.setFld.setUnit.addRepair.log.remapSlices
      h.flushWay.setFld.setFld.setFld.setUnit.addRepair.log

theorem DevKeeps.purgeLine {g} (h : DevKeeps d₀ d) : DevKeeps d₀ (d.purgeLine g) :=
  (h.foldl fun _ _ k => k.flushLine).llcEvict.setDir

theorem DevKeeps.retireDirWay {t w} (h : DevKeeps d₀ d) : DevKeeps d₀ (d.retireDirWay t w) :=
  DevKeeps.ite h.setUnit.log (h.foldl fun _ _ k => k.purgeLine).setFld.setFld.setUnit.addRepair.log

theorem DevKeeps.noSpare {g i sub} (h : DevKeeps d₀ d) : DevKeeps d₀ (d.noSpare g i sub) :=
  DevKeeps.ite h.log.candidate (DevKeeps.ite h.log.retireLlcWay (DevKeeps.ite h.log.retireDirWay
      (DevKeeps.ite h.log h.log.log)))

theorem DevKeeps.mapSpare {typ g i sub loc} (h : DevKeeps d₀ d) : DevKeeps d₀ (d.mapSpare typ g i sub loc) :=
  DevKeeps.ite h.noSpare h.addRepair.log

theorem DevKeeps.repairFinding {f} (h : DevKeeps d₀ d) : DevKeeps d₀ (d.repairFinding f) := by
  unfold Dev.repairFinding
  dsimp only
  split
  · exact h
  · exact h.mapSpare
  · exact h.mapSpare
  · exact DevKeeps.ite h.log.candidate (DevKeeps.ite h.retireLlcWay (DevKeeps.ite h.retireDirWay h.log))

theorem DevKeeps.setEngine {e' x} (h : DevKeeps d₀ d) : DevKeeps d₀ (d.setEngine e' x) := h.rest

theorem DevKeeps.sliceTick {e'} (h : DevKeeps d₀ d) : DevKeeps d₀ (d.sliceTick e') :=
  DevKeeps.ite (DevKeeps.ite h.setEngine.setFld.dutyEvent h.setEngine) h

theorem DevKeeps.sliceNext {e'} (h : DevKeeps d₀ d) : DevKeeps d₀ (d.sliceNext e') :=
  DevKeeps.ite h.setFld h.setFld.setFld.setFld.setEngine

theorem DevKeeps.showFinding {e' f} (h : DevKeeps d₀ d) : DevKeeps d₀ (d.showFinding e' f) := by
  unfold Dev.showFinding
  dsimp only
  split
  · exact h.setEngine.setReg
  · exact h.setEngine.setReg.dutyEvent
  · exact h.setEngine.setReg.dutyEvent
  · exact h.setEngine.setReg.dutyEvent

theorem DevKeeps.sliceGoWrite {e' v} (h : DevKeeps d₀ d) : DevKeeps d₀ (d.sliceGoWrite e' v) :=
  DevKeeps.ite (DevKeeps.ite (DevKeeps.ite h.setEngine h).showFinding.repairFinding
      (DevKeeps.ite h.setEngine h).showFinding) (DevKeeps.ite h.setEngine h)

/-! ### Mailboxes -/

theorem DevKeeps.setBox {b m} (h : DevKeeps d₀ d) : DevKeeps d₀ (d.setBox b m) := by
  unfold Dev.setBox
  split
  · exact h.rest
  · exact h.rest
  · exact h.rest

theorem DevKeeps.freeBox {b} (h : DevKeeps d₀ d) : DevKeeps d₀ (d.freeBox b) := h.setBox.setFld.setFld

theorem DevKeeps.rejectBox {b} (h : DevKeeps d₀ d) : DevKeeps d₀ (d.rejectBox b) := h.setFld

theorem DevKeeps.boxEvent {a} (h : DevKeeps d₀ d) : DevKeeps d₀ (d.boxEvent a) := by
  unfold Dev.boxEvent
  split
  · exact h.routeEvent
  · exact h.routeEvent
  · exact h

theorem DevKeeps.boxDone {b status resp} (h : DevKeeps d₀ d) : DevKeeps d₀ (d.boxDone b status resp) :=
  h.setBox.setFld.setFld.setFld.setFld.boxEvent

theorem DevKeeps.refuse {status} (h : DevKeeps d₀ d) : DevKeeps d₀ (d.refuse status).dev := h

theorem DevKeeps.done (h : DevKeeps d₀ d) : DevKeeps d₀ (d.done).dev := h

theorem DevKeeps.serve {b code up f} (h : DevKeeps d₀ d)
    (hf : ∀ q d, DevKeeps d₀ d → DevKeeps d₀ (f q d).dev) : DevKeeps d₀ (d.serve b code up f) :=
  DevKeeps.ite h (DevKeeps.ite h.setFld (hf _ _ h).boxDone)

theorem DevKeeps.serveSe {b code f} (h : DevKeeps d₀ d)
    (hf : ∀ q d, DevKeeps d₀ d → DevKeeps d₀ (f q d).dev) : DevKeeps d₀ (d.serveSe b code f) := by
  unfold Dev.serveSe
  refine h.serve fun q d k => ?_
  split
  · exact k
  · exact hf q d k

theorem DevKeeps.cmdWrite {b v} (h : DevKeeps d₀ d) : DevKeeps d₀ (d.cmdWrite b v) :=
  DevKeeps.ite h (DevKeeps.ite h.setFld.setFld (DevKeeps.ite h.setFld.setFld.setFld.boxDone h.setFld.setFld.setFld))

theorem DevKeeps.bufWrite {b off v} (h : DevKeeps d₀ d) : DevKeeps d₀ (d.bufWrite b off v) := h.setBox

/-! ### The security engine -/

theorem DevKeeps.showSe (h : DevKeeps d₀ d) : DevKeeps d₀ d.showSe := h.setFld.setFld

theorem DevKeeps.freshKey {slot cls dom} (h : DevKeeps d₀ d) : DevKeeps d₀ (d.freshKey slot cls dom) :=
  (h.setSlot.rest).showSe

theorem DevKeeps.clearSlot {slot} (h : DevKeeps d₀ d) : DevKeeps d₀ (d.clearSlot slot) := h.setSlot.showSe

theorem DevKeeps.burn {i bad} (h : DevKeeps d₀ d) : DevKeeps d₀ (d.burn i bad) := by
  unfold Dev.burn
  dsimp only
  split
  · exact h
  · exact (h.rest).setFld

theorem DevKeeps.expel {g} (h : DevKeeps d₀ d) : DevKeeps d₀ (d.expel g) :=
  DevKeeps.ite h (DevKeeps.ite h.gather.homeWrite h.gather)

theorem DevKeeps.dropTranslations (h : DevKeeps d₀ d) : DevKeeps d₀ d.dropTranslations := h.rest

theorem DevKeeps.takeAway {pages} (h : DevKeeps d₀ d) : DevKeeps d₀ (d.takeAway pages) :=
  (h.foldl fun _ _ k => k.expel).dropTranslations

theorem DevKeeps.setPot {page p} (h : DevKeeps d₀ d) : DevKeeps d₀ (d.setPot page p) := h.rest

theorem DevKeeps.zeroPage {page keyid} (h : DevKeeps d₀ d) : DevKeeps d₀ (d.zeroPage page keyid) :=
  h.foldl fun _ _ k => (DevKeeps.ite k.homeWrite k)

theorem DevKeeps.destroyDomain {dom} (h : DevKeeps d₀ d) : DevKeeps d₀ (d.destroyDomain dom) := by
  unfold Dev.destroyDomain
  dsimp only
  split
  · exact h
  · split
    · exact ((h.takeAway.foldl fun _ _ k => k.setPot).foldl
          fun _ _ k => k.setPot).clearSlot.clearSlot.setDomain.showSe
    · exact ((h.takeAway.foldl fun _ _ k => k.setPot).foldl fun _ _ k => k.setPot).clearSlot.setDomain.showSe

theorem DevKeeps.random32 (h : DevKeeps d₀ d) : DevKeeps d₀ (d.random32).2 :=
  h.drawRandom.drawRandom.drawRandom.drawRandom

theorem DevKeeps.serveSpdm {ch f} (h : DevKeeps d₀ d) (hf : ∀ d, DevKeeps d₀ d → DevKeeps d₀ (f d).2) :
    DevKeeps d₀ (d.serveSpdm ch f) := by
  unfold Dev.serveSpdm
  cases ch with
  | mailbox =>
    refine h.serveSe ?_
    exact fun _ d k => hf d k
  | pfMailbox =>
    refine h.serveSe ?_
    exact fun _ d k => hf d k
  | mctp => exact DevKeeps.ite (hf _ h).rest (DevKeeps.ite h.rest h)

theorem DevKeeps.spdmRequest {ch f} (h : DevKeeps d₀ d) : DevKeeps d₀ (d.spdmRequest ch f) :=
  h.serveSpdm fun _ k => k

theorem DevKeeps.setSpdm {ch x} (h : DevKeeps d₀ d) : DevKeeps d₀ (d.setSpdm ch x) := h.rest

end Sys2Proof.Proofs
end

