-- ==== Sys2Proof/Proofs/DeviceKeepsEngines.lean ====
section
/-!
PROOFS. What the operations on the device keep, concluded: firmware, links, the chain, the Ledger Engine, resets,
    the tick, and what
instructions do to the device.
-/

namespace Sys2Proof.Proofs

open Sys2Proof Sys2Proof.Machine Sys2Proof.Laws

variable {d₀ d : Dev}

/-! ### Firmware -/

theorem DevKeeps.respond {bs} (h : DevKeeps d₀ d) : DevKeeps d₀ (d.respond bs) := h.rest

theorem DevKeeps.manage {ch code f} (h : DevKeeps d₀ d) (hf : ∀ d, DevKeeps d₀ d → DevKeeps d₀ (f d).dev) :
    DevKeeps d₀ (d.manage ch code f) := by
  have hg : ∀ d, DevKeeps d₀ d → DevKeeps d₀
      (if d.phase == .booting && !(code == 0x01 || code == 0x40 || code == 0x42) then d.refuse stBadCommand else f
          d).dev := by
    intro d k
    split
    · exact k
    · exact hf d k
  refine DevKeeps.ite h ?_
  cases ch with
  | pfMailbox => exact h.serve fun _ d k => hg d k
  | mailbox => exact h.serve fun _ d k => hg d k
  | mctp => exact DevKeeps.ite (hg d h).rest h

theorem DevKeeps.cfgStore {m} (h : DevKeeps d₀ d) : DevKeeps d₀ (d.cfgStore m) := h.rest

theorem DevKeeps.updSend {sub frame reason} (h : DevKeeps d₀ d) : DevKeeps d₀ (d.updSend sub frame reason) :=
  h.chainSend

theorem DevKeeps.abortAll {reason} (h : DevKeeps d₀ d) : DevKeeps d₀ (d.abortAll reason) :=
  DevKeeps.ite (DevKeeps.ite h.abortUpdate.updSend h.abortUpdate) h

theorem DevKeeps.armAll (h : DevKeeps d₀ d) : DevKeeps d₀ d.armAll := (h.rest).updPhase.setReg.updSend

theorem DevKeeps.readyFrom {src} (h : DevKeeps d₀ d) : DevKeeps d₀ (d.readyFrom src) :=
  DevKeeps.ite (DevKeeps.ite h.setFld.armAll h.setFld) h

theorem DevKeeps.prepare (h : DevKeeps d₀ d) : DevKeeps d₀ d.prepare :=
  DevKeeps.ite (h.rest).updPhase.readyFrom (h.rest).updPhase.updSend

theorem DevKeeps.freshUpdate (h : DevKeeps d₀ d) : DevKeeps d₀ d.freshUpdate := h.setFld.setFld.setFld.setReg.rest

theorem DevKeeps.startUpdate {v} (h : DevKeeps d₀ d) : DevKeeps d₀ (d.startUpdate v) := by
  have k : DevKeeps d₀ (d.freshUpdate.updPhase 2) := h.freshUpdate.updPhase
  unfold Dev.startUpdate
  refine DevKeeps.ite k.abortAll ?_
  split
  · exact DevKeeps.ite k.updPhase.prepare k.updPhase.chainSend.prepare
  · exact k.abortAll

theorem DevKeeps.relay {payload} (h : DevKeeps d₀ d) : DevKeeps d₀ (d.relay payload) := h.chainSend

theorem DevKeeps.formatPartition (h : DevKeeps d₀ d) : DevKeeps d₀ d.formatPartition :=
  ((h.cfgStore.rest).setReg.setReg.setFld.setSlot.rest).showRepairs

theorem DevKeeps.installStaged (h : DevKeeps d₀ d) : DevKeeps d₀ d.installStaged := h.rest

theorem DevKeeps.fiddle {st} (h : DevKeeps d₀ d) : DevKeeps d₀ (d.fiddle st) :=
  DevKeeps.ite h (DevKeeps.ite h.formatPartition.installStaged h.installStaged)

theorem DevKeeps.stageChunk {off total last start rebuild bytes} (h : DevKeeps d₀ d) :
    DevKeeps d₀ (d.stageChunk off total last start rebuild bytes).dev := by
  unfold Dev.stageChunk
  dsimp only
  split
  · exact h.refuse
  · split
    · exact h.refuse
    · split
      · exact h.refuse
      · exact DevKeeps.ite (DevKeeps.ite (h.rest).updPhase.fiddle (h.rest).updPhase) (DevKeeps.ite
            (h.rest).updPhase.startUpdate (h.rest).updPhase)

theorem DevKeeps.settleUpdate (h : DevKeeps d₀ d) : DevKeeps d₀ d.settleUpdate := DevKeeps.ite h.updPhase h

theorem DevKeeps.imageRuns {c} (h : DevKeeps d₀ d) : DevKeeps d₀ (d.imageRuns c) := by
  unfold Dev.imageRuns
  dsimp only
  split
  · exact h
  · exact h.rest

theorem DevKeeps.overwriteFails {c u} (h : DevKeeps d₀ d) : DevKeeps d₀ (d.overwriteFails c u) :=
  DevKeeps.ite h.candidate (DevKeeps.ite h.setFld.log (DevKeeps.ite h.setFld (DevKeeps.ite h.candidate h.log)))

theorem DevKeeps.reportActivated (h : DevKeeps d₀ d) : DevKeeps d₀ d.reportActivated :=
  DevKeeps.ite (DevKeeps.ite h.updSend.setFld.settleUpdate h.updSend.updPhase) h

/-! ### Frahal links -/

theorem DevKeeps.reroute (h : DevKeeps d₀ d) : DevKeeps d₀ d.reroute :=
  (h.foldl fun _ _ k => k.setFld.setFld.setFld).foldl fun _ _ k => (DevKeeps.ite k.setFld k)

theorem DevKeeps.linkChanged (h : DevKeeps d₀ d) : DevKeeps d₀ d.linkChanged := h.chainSend.reroute

theorem DevKeeps.retireLink {n syn} (h : DevKeeps d₀ d) : DevKeeps d₀ (d.retireLink n syn) :=
  DevKeeps.ite h h.setFld.setFld.setFld.setLink.addRepair.log.linkChanged

theorem DevKeeps.retireLane {n i} (h : DevKeeps d₀ d) : DevKeeps d₀ (d.retireLane n i) :=
  DevKeeps.ite h (DevKeeps.ite (DevKeeps.ite h.setUnit.setFld.addRepair.log.setFld
      h.setUnit.setFld.addRepair.log).setFld.linkChanged h.setUnit.setFld.addRepair.log.retireLink)

theorem DevKeeps.laneFault {n i} (h : DevKeeps d₀ d) : DevKeeps d₀ (d.laneFault n i) :=
  DevKeeps.ite h.setLink.setFld.dutyEvent h.retireLane

theorem DevKeeps.flRetireWrite {n v} (h : DevKeeps d₀ d) : DevKeeps d₀ (d.flRetireWrite n v) := by
  unfold Dev.flRetireWrite
  dsimp only
  split
  · exact h
  · exact DevKeeps.ite h.setLink.setFld.retireLane h

/-! ### The chain -/

theorem DevKeeps.chainRecord (h : DevKeeps d₀ d) : DevKeeps d₀ d.chainRecord := h.log

theorem DevKeeps.wiring (h : DevKeeps d₀ d) : DevKeeps d₀ d.wiring := h.setFld.chainRecord

theorem DevKeeps.dropMessage (h : DevKeeps d₀ d) : DevKeeps d₀ d.dropMessage := (h.rest).addSat.chainRecord

theorem DevKeeps.tickLost (h : DevKeeps d₀ d) : DevKeeps d₀ d.tickLost :=
  (h.setFld.addSat.setReg.rest).tickEvent.chainRecord

theorem DevKeeps.announceResync (h : DevKeeps d₀ d) : DevKeeps d₀ d.announceResync :=
  DevKeeps.ite (h.rest).chainSend h

theorem DevKeeps.startResync (h : DevKeeps d₀ d) : DevKeeps d₀ d.startResync :=
  DevKeeps.ite (h.rest).announceResync (h.setFld.chainSend.rest)

theorem DevKeeps.tickCtlWrite {v} (h : DevKeeps d₀ d) : DevKeeps d₀ (d.tickCtlWrite v) :=
  DevKeeps.ite h.writeReg.startResync h.writeReg

/-! ### The Ledger Engine -/

theorem DevKeeps.showFn {f} (h : DevKeeps d₀ d) : DevKeeps d₀ (d.showFn f) := h.setFld.setFld.setFld

theorem DevKeeps.showQueue {q} (h : DevKeeps d₀ d) : DevKeeps d₀ (d.showQueue q) := h.setFld.setFld

theorem DevKeeps.queueErr {q e'} (h : DevKeeps d₀ d) : DevKeeps d₀ (d.queueErr q e') := h.setFld

theorem DevKeeps.ledWindow {pa} (h : DevKeeps d₀ d) : DevKeeps d₀ (d.ledWindow pa).2 := Kept.ledWindow (F := memFrame d₀) h

theorem DevKeeps.ledReadPart {rid p} {r} (h : DevKeeps d₀ r.dev) : DevKeeps d₀ (ledReadPart rid r p).dev := by
  unfold Machine.ledReadPart
  split
  · exact h
  split
  · rename_i e
    exact h.ioTo e
  · rename_i e
    exact h.ioTo e
  · rename_i e
    dsimp only
    split
    · exact (h.ioTo e).ledWindow.drawLine
    · exact (h.ioTo e).ledWindow
  · rename_i e
    dsimp only
    split
    · exact (h.ioTo e).ioRead
    · exact (h.ioTo e).ioRead

theorem DevKeeps.ledRead {rid addr n} (h : DevKeeps d₀ d) : DevKeeps d₀ (d.ledRead rid addr n).dev :=
  DevKeeps.foldlBy LedGot.dev h fun _ _ k => k.ledReadPart

theorem DevKeeps.logBit {v page} (h : DevKeeps d₀ d) : DevKeeps d₀ (d.logBit v page) :=
  DevKeeps.ite h.setFld h.farWord

theorem DevKeeps.logEntry {v page} (h : DevKeeps d₀ d) : DevKeeps d₀ (d.logEntry v page) := h.farWord.setFld

theorem DevKeeps.logPage {e} {f ipa} (h : DevKeeps d₀ d) (k : d.logPage f ipa = some e) :
    DevKeeps d₀ e := by
  unfold Dev.logPage at k
  split at k
  · cases k
    exact h
  split at k
  · cases k
    exact h.logBit
  split at k
  · cases k
    exact h.logEntry
  split at k
  · cases k
  · cases k
    exact h.setFld

theorem DevKeeps.tagDirect {g tag} (h : DevKeeps d₀ d) : DevKeeps d₀ (d.tagDirect g tag) := Kept.tagDirect (F := memFrame d₀) h

theorem DevKeeps.tagIntake {g q sq off} (h : DevKeeps d₀ d) : DevKeeps d₀ (d.tagIntake g q sq off) := h.tagDirect

theorem DevKeeps.drawLedCredit {g} (h : DevKeeps d₀ d) : DevKeeps d₀ (d.drawLedCredit g) := DevKeeps.ite h.setStack h

theorem DevKeeps.overlapped {b a bs} (h : DevKeeps d₀ d) : DevKeeps d₀ (d.overlapped b a bs).2 := by
  unfold Dev.overlapped
  dsimp only
  split
  · exact h
  · split
    · exact h.drawLine
    · exact h

theorem DevKeeps.setDesc {q sq f} (h : DevKeeps d₀ d) : DevKeeps d₀ (d.setDesc q sq f) := h.setQueue

theorem DevKeeps.sqDoorbell {q v} (h : DevKeeps d₀ d) : DevKeeps d₀ (d.sqDoorbell q v) :=
  DevKeeps.ite h.addSat (DevKeeps.ite h (DevKeeps.ite h.queueErr h.setFld))

theorem DevKeeps.reserve {q x} (h : DevKeeps d₀ d) : DevKeeps d₀ (d.reserve q x).2 := by
  unfold Dev.reserve
  dsimp only
  split
  · exact h
  · split
    · exact h
    · exact h.setStream

theorem DevKeeps.admitDesc {q x} (h : DevKeeps d₀ d) : DevKeeps d₀ (d.admitDesc q x).2 := by
  unfold Dev.admitDesc
  split
  · exact h
  · split
    · exact h.reserve
    · exact h

theorem DevKeeps.fetchDesc {q} (h : DevKeeps d₀ d) : DevKeeps d₀ (d.fetchDesc q) :=
  DevKeeps.ite h (DevKeeps.ite h.ledRead.queueErr h.ledRead.admitDesc.setQueue.showQueue)

theorem DevKeeps.startQueue {q} (h : DevKeeps d₀ d) : DevKeeps d₀ (d.startQueue q) :=
  h.setFld.setFld.setFld.setQueue.showQueue

theorem DevKeeps.queueCtl {q v} (h : DevKeeps d₀ d) : DevKeeps d₀ (d.queueCtl q v) :=
  DevKeeps.ite (DevKeeps.ite h.writeReg.setFld.setQueue.showFn h.writeReg.startQueue)
      (DevKeeps.ite h.writeReg.queueErr.setQueue h.writeReg)

theorem DevKeeps.qpAssign {q v} (h : DevKeeps d₀ d) : DevKeeps d₀ (d.qpAssign q v) :=
  DevKeeps.ite h.setFld h.setFld.setFld

theorem DevKeeps.settleRange {q x} (h : DevKeeps d₀ d) : DevKeeps d₀ (d.settleRange q x) :=
  DevKeeps.ite h (DevKeeps.ite h.setFld.setFld.setStream h.setFld.setStream)

theorem DevKeeps.reportDesc {q x finished status bytes} (h : DevKeeps d₀ d) :
    DevKeeps d₀ (d.reportDesc q x finished status bytes) := by
  unfold Dev.reportDesc
  dsimp only
  split
  · exact h
  · exact h.rest

theorem DevKeeps.streamCtl {t v} (h : DevKeeps d₀ d) : DevKeeps d₀ (d.streamCtl t v) :=
  DevKeeps.ite (DevKeeps.ite h (DevKeeps.ite h.setFld h.setStream))
      (DevKeeps.ite h.writeReg.setReg.setStream h.writeReg)

theorem DevKeeps.coldQueue {q} (h : DevKeeps d₀ d) : DevKeeps d₀ (d.coldQueue q) :=
  (h.foldl fun _ _ k => k.setReg).setQueue

theorem DevKeeps.cutStreams {f} (h : DevKeeps d₀ d) : DevKeeps d₀ (d.cutStreams f) :=
  h.foldl fun _ _ k => (DevKeeps.ite k.setFld k).setStream

theorem DevKeeps.startQuiesce {f} (h : DevKeeps d₀ d) : DevKeeps d₀ (d.startQuiesce f) :=
  (h.foldl fun _ _ k => k.coldQueue).cutStreams.setFld.setFunc.showFn

theorem DevKeeps.coldFunc {f} (h : DevKeeps d₀ d) : DevKeeps d₀ (d.coldFunc f) := (h.rest).setFunc

theorem DevKeeps.hideVfs (h : DevKeeps d₀ d) : DevKeeps d₀ d.hideVfs := h.foldl fun _ _ k => k.setFunc.startQuiesce

theorem DevKeeps.showVfs {numVfs} (h : DevKeeps d₀ d) : DevKeeps d₀ (d.showVfs numVfs) :=
  h.foldl fun _ _ k => k.setFunc.showFn

theorem DevKeeps.flr {f} (h : DevKeeps d₀ d) : DevKeeps d₀ (d.flr f) :=
  (DevKeeps.ite h.hideVfs h).coldFunc.startQuiesce

theorem DevKeeps.enterD3 {f} (h : DevKeeps d₀ d) : DevKeeps d₀ (d.enterD3 f) := h.setFunc.startQuiesce

theorem DevKeeps.vfEnable {on n} (h : DevKeeps d₀ d) : DevKeeps d₀ (d.vfEnable on n) :=
  DevKeeps.ite h.showVfs h.hideVfs

theorem DevKeeps.setBme {f on} (h : DevKeeps d₀ d) : DevKeeps d₀ (d.setBme f on) := h.setFunc.showFn

theorem DevKeeps.quiesceDone {f} (h : DevKeeps d₀ d) : DevKeeps d₀ (d.quiesceDone f) :=
  DevKeeps.ite h (h.setFunc.foldl fun _ _ k => k.startQueue).showFn

theorem DevKeeps.dlogGenWrite {v x} (h : DevKeeps d₀ d) : DevKeeps d₀ (d.dlogGenWrite v x) := DevKeeps.ite h.setFld h

theorem DevKeeps.dlogHeadWrite {v x} (h : DevKeeps d₀ d) : DevKeeps d₀ (d.dlogHeadWrite v x) :=
  DevKeeps.ite h.setFld h.setFld.setFld

theorem DevKeeps.stopDesc {q x} (h : DevKeeps d₀ d) : DevKeeps d₀ (d.stopDesc q x) :=
  (DevKeeps.ite h.setFld h).reportDesc

theorem DevKeeps.fnCfgWrite {f k' mask v} (h : DevKeeps d₀ d) : DevKeeps d₀ (d.fnCfgWrite f k' mask v) :=
  DevKeeps.ite (DevKeeps.ite (DevKeeps.ite h.setFunc h.setFunc.setFunc)
      (DevKeeps.ite h.setFunc h.setFunc.setFunc).setBme) (DevKeeps.ite (DevKeeps.ite h (DevKeeps.ite
      (DevKeeps.ite h h.enterD3) (DevKeeps.ite h.flr h))) (DevKeeps.ite (DevKeeps.ite h.flr h.setFunc)
      (DevKeeps.ite (DevKeeps.ite h.setFunc h.setFunc.vfEnable) h.setFunc)))

/-! ### Retirement -/

theorem DevKeeps.clearCandidate {kind inst} (h : DevKeeps d₀ d) : DevKeeps d₀ (d.clearCandidate kind inst) :=
  h.setUnit.log

theorem DevKeeps.rowFault {inst} (h : DevKeeps d₀ d) : DevKeeps d₀ (d.rowFault inst) := h.setUnit.addRepair.log

/-! ### Clocks -/

theorem DevKeeps.setClk {t x} (h : DevKeeps d₀ d) : DevKeeps d₀ (d.setClk t x) := h.rest

theorem DevKeeps.pllStart {p} (h : DevKeeps d₀ d) : DevKeeps d₀ (d.pllStart p) := h.setFld.addSat

theorem DevKeeps.retune {t x} (h : DevKeeps d₀ d) : DevKeeps d₀ (d.retune t x) := by
  have k : DevKeeps d₀ ((d.setFld (tileClk R.TILE_CLK_SETTLING t) 1).setClk t x) := h.setFld.setClk
  exact DevKeeps.ite k.rest k.rest.pllStart

theorem DevKeeps.tileClkWrite {t v} (h : DevKeeps d₀ d) : DevKeeps d₀ (d.tileClkWrite t v) :=
  h.setFld.setFld.setFld.retune

theorem DevKeeps.stepDown {t} (h : DevKeeps d₀ d) : DevKeeps d₀ (d.stepDown t) := DevKeeps.ite h h.retune.setFld

theorem DevKeeps.stepUp {t} (h : DevKeeps d₀ d) : DevKeeps d₀ (d.stepUp t) := DevKeeps.ite h h.retune.setFld

theorem DevKeeps.tearDrain (h : DevKeeps d₀ d) : DevKeeps d₀ d.tearDrain := by
  unfold Dev.tearDrain
  split
  · exact h
  · exact h.rest

/-! ### Resets -/

theorem DevKeeps.flushStore {e'} (h : DevKeeps d₀ d) : DevKeeps d₀ (d.flushStore e') := DevKeeps.ite h.homeStore h

theorem DevKeeps.drainIntakes (h : DevKeeps d₀ d) : DevKeeps d₀ d.drainIntakes :=
  h.foldl fun _ _ k => (k.foldl fun _ _ k => k.mediaWrite).setStack.showIntake

theorem DevKeeps.flushPeat (h : DevKeeps d₀ d) : DevKeeps d₀ d.flushPeat := by
  refine (h.foldl fun _ _ k => k.homeWrite).foldl fun _ _ k => ?_
  split
  · exact DevKeeps.ite k.homeWrite k
  · exact k

theorem DevKeeps.loseDram (h : DevKeeps d₀ d) : DevKeeps d₀ d.loseDram := h.parts (fun _ => rfl) id id

theorem DevKeeps.loseCaches (h : DevKeeps d₀ d) : DevKeeps d₀ d.loseCaches := h.rest

theorem DevKeeps.loseUnits (h : DevKeeps d₀ d) : DevKeeps d₀ d.loseUnits := h.rest

theorem DevKeeps.loseSystem (h : DevKeeps d₀ d) : DevKeeps d₀ d.loseSystem := h.rest

theorem DevKeeps.loseTelemetry (h : DevKeeps d₀ d) : DevKeeps d₀ d.loseTelemetry := h.rest

theorem DevKeeps.applyRepair {r} (h : DevKeeps d₀ d) : DevKeeps d₀ (d.applyRepair r) :=
  DevKeeps.ite h (DevKeeps.ite (h.rest).setFld (DevKeeps.ite (h.rest).setFld (DevKeeps.ite (h.rest) (DevKeeps.ite
      (h.rest).setFld (DevKeeps.ite (h.rest).setFld.setFld (h.rest))))))

theorem DevKeeps.restartRetire {cold retained} (h : DevKeeps d₀ d) : DevKeeps d₀ (d.restartRetire cold retained) :=
  DevKeeps.ite h.setFld (DevKeeps.ite (h.setFld.setFld.rest) h)

theorem DevKeeps.applyRepairs (h : DevKeeps d₀ d) : DevKeeps d₀ d.applyRepairs :=
  (h.foldl fun _ _ k => k.applyRepair).rest

theorem DevKeeps.buildCores {bad} (h : DevKeeps d₀ d) : DevKeeps d₀ (d.buildCores bad) :=
  ((h.foldl fun _ _ k => k.setReg.setFld).foldl fun _ _ k => k.setReg).setFld.setFld.setFld

theorem DevKeeps.buildSlices (h : DevKeeps d₀ d) : DevKeeps d₀ d.buildSlices :=
  (h.foldl fun _ _ k => k.setReg).remapSlices

theorem DevKeeps.loadLockable {off v} (h : DevKeeps d₀ d) : DevKeeps d₀ (d.loadLockable off v) := by
  unfold Dev.loadLockable
  split
  · exact h
  · exact h.setReg

theorem DevKeeps.defaultMap (h : DevKeeps d₀ d) : DevKeeps d₀ d.defaultMap :=
  (h.setFld.setFld.setFld.foldl fun _ _ k => k.setReg).setReg.foldl fun _ _ k =>
      (DevKeeps.ite k.setReg.setReg.setReg.setReg k.setReg.setReg.setReg.setReg)

theorem DevKeeps.provisionalMap (h : DevKeeps d₀ d) : DevKeeps d₀ d.provisionalMap := by
  unfold Dev.provisionalMap
  split
  · exact DevKeeps.ite h.defaultMap (h.foldl fun _ _ k => k.loadLockable)
  · exact h.defaultMap

theorem DevKeeps.checkSchema (h : DevKeeps d₀ d) : DevKeeps d₀ d.checkSchema :=
  DevKeeps.ite h.setFld.setFld (DevKeeps.ite (h.setFld.cfgStore.rest) h.setFld).setFld.log

theorem DevKeeps.applyClocks {cold} (h : DevKeeps d₀ d) : DevKeeps d₀ (d.applyClocks cold) :=
  DevKeeps.ite h.setFld.setFld h.setFld

theorem DevKeeps.endWithdrawal {retained} (h : DevKeeps d₀ d) : DevKeeps d₀ (d.endWithdrawal retained) := h.rest

theorem DevKeeps.showSelfTest {skipped} (h : DevKeeps d₀ d) : DevKeeps d₀ (d.showSelfTest skipped) :=
  h.setReg.setFld.foldl fun _ _ k => k.setReg

theorem DevKeeps.restart {kind p} (h : DevKeeps d₀ d) : DevKeeps d₀ (d.restart kind p) := by
  unfold Dev.restart
  extract_lets warm cold retained d1 d2 d3 d4 withdrawn d5 d6 e1 e2 d7 d8 d9 d10 d11 d12 e3 d13 d14 d15 d16 d17
  have k6 : DevKeeps d₀ d6 := by
    have k1 : DevKeeps d₀ d1 := h.parts id id fun k => smap_filterMap_wf _ _ k
    have k2 : DevKeeps d₀ d2 := DevKeeps.ite k1 k1.loseDram
    have k3 : DevKeeps d₀ d3 := k2.loseCaches.loseUnits.loseTelemetry
    have k4 : DevKeeps d₀ d4 := DevKeeps.ite k3 k3.loseSystem
    have k5 : DevKeeps d₀ d5 := k4.endWithdrawal
    exact k5.foldl fun _ _ k => k.showIntake
  clear_value d6
  have k7 : DevKeeps d₀ d7 := by
    have k : DevKeeps d₀ e2 := k6.setFld.setFld.setFld.setFld
    exact DevKeeps.ite k6.setFld k.setFld.setReg
  clear_value d7
  have k12 : DevKeeps d₀ d12 := by
    have k10 : DevKeeps d₀ d10 := k7.setFld.setFld.checkSchema.applyClocks.setFld
    have k11 : DevKeeps d₀ d11 := DevKeeps.ite k10 k10.showSelfTest
    exact k11.applyRepairs.restartRetire
  clear_value d12
  have k13 : DevKeeps d₀ d13 := by
    have k : DevKeeps d₀ e3 := k12.buildCores
    exact DevKeeps.ite (DevKeeps.ite k.rest k12) k.buildSlices
  clear_value d13
  have k15 : DevKeeps d₀ d15 := by
    have k14 : DevKeeps d₀ d14 := DevKeeps.ite k13 (k13.foldl fun _ _ k => k.setFld.setChan)
    exact k14.provisionalMap
  clear_value d15
  have k16 : DevKeeps d₀ d16 := DevKeeps.ite k15 k15.setReg
  have k17 : DevKeeps d₀ d17 := DevKeeps.ite k16 k16.setReg
  exact k17.setFld.rest

theorem DevKeeps.showResume {retained valid torn p} (h : DevKeeps d₀ d) :
    DevKeeps d₀ (d.showResume retained valid torn p) := h.setReg

theorem DevKeeps.stageRecord {stage} (h : DevKeeps d₀ d) : DevKeeps d₀ (d.stageRecord stage) := h.log

theorem DevKeeps.recover {e} (h : DevKeeps d₀ d) (k : d.recover = some e) :
    DevKeeps d₀ e := by
  unfold Dev.recover at k
  split at k
  · cases k
    exact h.stageRecord.installStaged.setFld
  split at k
  · cases k
    exact h.stageRecord.rest.setFld
  · cases k

/-! ### The frame tick -/

theorem DevKeeps.telemetry (h : DevKeeps d₀ d) : DevKeeps d₀ (d.telemetry).2 := h.drawLine

theorem DevKeeps.sampleTick (h : DevKeeps d₀ d) : DevKeeps d₀ d.sampleTick :=
  DevKeeps.ite h.addSat (h.telemetry.rest).setReg

theorem DevKeeps.advanceFrame (h : DevKeeps d₀ d) : DevKeeps d₀ d.advanceFrame := by
  unfold Dev.advanceFrame
  dsimp only
  split
  · exact h.setReg
  · exact DevKeeps.ite (DevKeeps.ite (h.rest).setReg.setFld.tickEvent.tickEvent (h.rest).setReg.setFld.tickEvent)
        (h.rest).setReg

theorem DevKeeps.frameTasks (h : DevKeeps d₀ d) : DevKeeps d₀ d.frameTasks :=
  (((h.foldl fun _ _ k => k.closeBank).foldl fun _ _ k => k.mcTick).sampleTick.foldl
      fun _ _ k => k.stackTick).foldl fun _ _ k => k.sliceTick

theorem DevKeeps.linesAgain (h : DevKeeps d₀ d) : DevKeeps d₀ d.linesAgain :=
  DevKeeps.ite (DevKeeps.ite h.routeEvent h).routeEvent (DevKeeps.ite h.routeEvent h)

theorem DevKeeps.missRecord {misses source inst} (h : DevKeeps d₀ d) : DevKeeps d₀
    (d.missRecord misses source inst) :=
  DevKeeps.ite h.log h

/-! ### Register writes -/

theorem DevKeeps.lockWrite {v} (h : DevKeeps d₀ d) : DevKeeps d₀ (d.lockWrite v) :=
  DevKeeps.ite h ((DevKeeps.ite h h.setFld).setFld.rest).chainSend

theorem DevKeeps.clkCtlWrite {v} (h : DevKeeps d₀ d) : DevKeeps d₀ (d.clkCtlWrite v) :=
  DevKeeps.ite h h.writeReg.cfgStore

theorem DevKeeps.errStatusWrite {v} (h : DevKeeps d₀ d) : DevKeeps d₀ (d.errStatusWrite v) := h.writeReg.rest

theorem DevKeeps.flCtlWrite {n v} (h : DevKeeps d₀ d) : DevKeeps d₀ (d.flCtlWrite n v) :=
  DevKeeps.ite h.writeReg (DevKeeps.ite h.writeReg.setFld.setFld.linkChanged h.writeReg.linkChanged)

theorem DevKeeps.cqHeadWrite {q v} (h : DevKeeps d₀ d) : DevKeeps d₀ (d.cqHeadWrite q v) :=
  DevKeeps.ite h.queueErr h.setFld

theorem DevKeeps.barWrite {e} {base off v} (h : DevKeeps d₀ d) (k : d.barWrite base off v = some e) :
    DevKeeps d₀ e := by
  unfold Dev.barWrite at k
  dsimp only at k
  split at k
  · cases k
    exact h.writeReg
  split at k
  · cases k
    exact h.qpAssign
  split at k
  · cases k
    exact DevKeeps.ite h h.writeReg
  split at k
  · cases k
    exact h.streamCtl
  split at k
  · cases k
    exact h.cmdWrite
  split at k
  · cases k
    exact h.sqDoorbell
  split at k
  · cases k
    exact h.cqHeadWrite
  split at k
  · cases k
    exact h.queueCtl
  · cases k

/-! ### Device accesses -/

theorem DevKeeps.lostAt {pt} (h : DevKeeps d₀ d) : DevKeeps d₀ (d.lostAt pt) := h.addSat

/-! ### Accesses -/

theorem DevKeeps.tryParts {g x k' a} (h : DevKeeps d₀ d) : DevKeeps d₀ (tryParts g x k' a d).2 := by
  induction a generalizing d with
  | nil => exact h
  | cons p ps ih =>
    unfold Machine.tryParts
    split
    · rename_i e
      exact ih (h.xlate e)
    · rename_i e
      exact ih (h.xlate e)

theorem DevKeeps.readLine {c g key mt words} (h : DevKeeps d₀ d) : DevKeeps d₀ (d.readLine c g key mt words).dev := by
  unfold Dev.readLine
  dsimp only
  split
  · exact h.checkLine.coreRead.demand
  · split
    · exact h.homeRead
    · exact h.drawLine

theorem DevKeeps.piece {c sb p} {r} (h : DevKeeps d₀ r.dev) : DevKeeps d₀ (Read.piece c sb r p).dev := by
  unfold Read.piece
  dsimp only
  split
  · exact h
  · exact h
  · exact h.readLine

theorem DevKeeps.writeLine {c pa bs} (h : DevKeeps d₀ d) : DevKeeps d₀ (d.writeLine c pa bs) :=
  h.checkLine.arrayWrite.setLine.markL1

theorem DevKeeps.askToOwn {c g key} (h : DevKeeps d₀ d) : DevKeeps d₀ (d.askToOwn c g key) := h.requestLine

theorem DevKeeps.payDirect {c g} (h : DevKeeps d₀ d) : DevKeeps d₀ (d.payDirect c g) := DevKeeps.ite h.drawCredit h

theorem DevKeeps.directWrite {pa key bs tag} (h : DevKeeps d₀ d) : DevKeeps d₀ (d.directWrite pa key bs tag) :=
  DevKeeps.ite h (DevKeeps.ite h.log (h.rest).toIntake.tagDirect)

theorem DevKeeps.bypassWrite {pa key bs} (h : DevKeeps d₀ d) : DevKeeps d₀ (d.bypassWrite pa key bs) :=
  DevKeeps.ite h h.homeRead.homeWrite

/-! ### The memory system -/

theorem DevKeeps.psyncSend {g} (h : DevKeeps d₀ d) : DevKeeps d₀ (d.psyncSend g) :=
  h.foldl fun _ _ k => (k.foldl fun _ _ k => k.writeBack)

theorem DevKeeps.sendPstnt {g es} (h : DevKeeps d₀ d) : DevKeeps d₀ (d.sendPstnt g es) := by
  unfold Dev.sendPstnt
  dsimp only
  split
  · exact h
  · exact DevKeeps.ite h (DevKeeps.ite h.log ((DevKeeps.ite (h.gather.rest).toIntake
        (h.gather.rest).toIntake).foldl fun _ _ k => k.tagDirect))

theorem DevKeeps.tinvApply {o} (h : DevKeeps d₀ d) : DevKeeps d₀ (d.tinvApply o) := h.rest

theorem DevKeeps.tinvFinish {g} (h : DevKeeps d₀ d) : DevKeeps d₀ (d.tinvFinish g) :=
  (h.foldl fun _ _ k => k.tinvApply).rest

/-! ### Sealed domains -/

theorem DevKeeps.resultWord {a} (h : DevKeeps d₀ d) : DevKeeps d₀ (d.resultWord a).2 := by
  unfold Dev.resultWord
  split
  · exact h
  · exact h.drawWord

theorem DevKeeps.writeResults {p r0 r1} (h : DevKeeps d₀ d) : DevKeeps d₀ (d.writeResults p r0 r1) :=
  DevKeeps.ite h.homeStore h

theorem DevKeeps.freeDomain (h : DevKeeps d₀ d) : DevKeeps d₀ (d.freeDomain).2 := h.drawWord

theorem DevKeeps.createDomain {dom slot b} (h : DevKeeps d₀ d) : DevKeeps d₀ (d.createDomain dom slot b) :=
  (h.takeAway.foldl fun _ _ k => k.setPot).freshKey.setDomain.showSe

theorem DevKeeps.pageRead {page keyid} (h : DevKeeps d₀ d) : DevKeeps d₀ (d.pageRead page keyid).2 :=
  DevKeeps.foldlBy (fun r : List (Line × Bool) × Dev => r.2) h fun _ _ k => k.coreRead

theorem DevKeeps.linesWrite {keyid a} (h : DevKeeps d₀ d) : DevKeeps d₀ (d.linesWrite keyid a) := by
  induction a generalizing d with
  | nil => exact h
  | cons x ls ih => exact ih (DevKeeps.ite h.homeWrite h)

theorem DevKeeps.addPage {dom m b} (h : DevKeeps d₀ d) : DevKeeps d₀ (d.addPage dom m b) :=
  h.pageRead.takeAway.linesWrite.setPot.setDomain

theorem DevKeeps.addZeroPage {dom m b i} (h : DevKeeps d₀ d) : DevKeeps d₀ (d.addZeroPage dom m b i) :=
  h.zeroPage.setPot

theorem DevKeeps.addZero {dom m b} (h : DevKeeps d₀ d) : DevKeeps d₀ (d.addZero dom m b) :=
  DevKeeps.ite (h.takeAway.foldl fun _ _ k => k.addZeroPage) (h.takeAway.foldl fun _ _ k => k.addZeroPage).setDomain

theorem DevKeeps.releasePage {p} (h : DevKeeps d₀ d) : DevKeeps d₀ (d.releasePage p) := h.takeAway.zeroPage.setPot

theorem DevKeeps.linesRead {keyid a} (h : DevKeeps d₀ d) : DevKeeps d₀ (d.linesRead keyid a).2 := by
  induction a generalizing d with
  | nil => exact h
  | cons g gs ih => exact ih h.coreRead

theorem DevKeeps.writeReport {m bytes buf} (h : DevKeeps d₀ d) : DevKeeps d₀ (d.writeReport m bytes buf) :=
  h.foldl fun _ _ k => (DevKeeps.ite k.homeStore k)

theorem DevKeeps.reclaimPages {pages} (h : DevKeeps d₀ d) : DevKeeps d₀ (d.reclaimPages pages) :=
  h.takeAway.foldl fun _ _ k => k.zeroPage.setPot

end Sys2Proof.Proofs
end

