-- ==== Sys2Proof/Proofs/StrandsFit.lean ====
section
/-!
PROOFS. What the field maps ask of a strand (R47, R48, R54 to R57, R67, R72), part by part, and the operations on a strand
that keep it.
-/

namespace Sys2Proof.Proofs

open Sys2Proof Sys2Proof.Machine Sys2Proof.Laws

/-! ### Fields under masks -/

/-- A field of a masked word is the masked field. -/
theorem getF_and (w m : Word) (lo width : Nat) : getF (w &&& m) lo width = getF w lo width &&& getF m lo width := by
  unfold getF
  rw [BitVec.toNat_and, ← Nat.shiftRight_eq_div_pow, ← Nat.shiftRight_eq_div_pow, ← Nat.shiftRight_eq_div_pow,
    Nat.shiftRight_and_distrib, Nat.and_mod_two_pow]

theorem getF_or (w m : Word) (lo width : Nat) : getF (w ||| m) lo width = getF w lo width ||| getF m lo width := by
  unfold getF
  rw [BitVec.toNat_or, ← Nat.shiftRight_eq_div_pow, ← Nat.shiftRight_eq_div_pow, ← Nat.shiftRight_eq_div_pow,
    Nat.shiftRight_or_distrib, Nat.or_mod_two_pow]

theorem getF_and_le (w m : Word) (lo width : Nat) : getF (w &&& m) lo width ≤ getF w lo width := by
  rw [getF_and]
  exact Nat.and_le_left

theorem getF_lt (w : Word) (lo width : Nat) : getF w lo width < 2 ^ width := Nat.mod_lt _ (Nat.two_pow_pos _)

/-- Part of a field that is written. -/
theorem getF_putF_inside (w : Word) {lo width x i n : Nat} (h : lo + width ≤ 64) (hi : i + n ≤ width) :
    getF (putF w lo width x) (lo + i) n = x / 2 ^ i % 2 ^ n := by
  have e := getF_putF_same w lo width x h
  unfold getF at e ⊢
  rw [Nat.pow_add, ← Nat.div_div_eq_div_mul]
  generalize (putF w lo width x).toNat / 2 ^ lo = y at e ⊢
  have cut (v : Nat) : v / 2 ^ i % 2 ^ n = v % 2 ^ width / 2 ^ i % 2 ^ n := by
    obtain ⟨k, rfl⟩ := Nat.exists_eq_add_of_le hi
    rw [Nat.pow_add, Nat.pow_add, Nat.mul_assoc, Nat.mod_mul_right_div_self, Nat.mod_mul_right_mod]
  rw [cut, e, ← cut]

/-! ### The parts of a strand -/

/-- STATUS: PL and PPL name levels that exist; its reserved bits are 0 (R56). -/
structure StatusFits (w : Word) : Prop where
  pl : getF w 0 2 < 3
  ppl : getF w 4 2 < 2
  high : getF w 11 53 = 0

/-- HSTATUS: HPPL names a level that exists; its reserved bits are 0 (R57). -/
structure HstatusFits (w : Word) : Prop where
  hppl : getF w 34 2 < 3
  high : getF w 40 24 = 0
  edeleg : w &&& 0x26801 = 0

/-- A copy of the banked registers: EPC is the address of an instruction, VBASE that of a page (R67). -/
structure BankFits (b : Bank) : Prop where
  epc : b.epc.toNat % 4 = 0
  vbase : b.vbase.toNat % 4096 = 0

/-- The addresses of a transfer (R72). -/
structure SlotFits (sl : Slot) : Prop where
  branch : sl.branch.toNat % 4 = 0
  next : sl.next.toNat % 4 = 0

/-- The general registers in canonical form, without n0 (R48). -/
def RegsFit (n : SMap Word) : Prop := SMap.wfFrom (fun _ => 0) 1 n = true

/-- A strand whose parts fit. -/
structure Fits (x : Strand) : Prop where
  status : StatusFits x.status
  hstatus : HstatusFits x.hstatus
  pc : x.pc.toNat % 4 = 0
  bankS : BankFits x.bankS
  bankH : BankFits x.bankH
  slot : ∀ sl, x.slot = some sl → SlotFits sl
  regs : RegsFit x.n

theorem fits_iff (x : Strand) : strandFits x ↔ Fits x := by
  constructor
  · rintro ⟨h1, h2, h3, h4, h5, h6, h7, h8, h9, h10, h11, h12, h13⟩
    exact ⟨⟨h1, h2, h3⟩, ⟨h4, h5, h6⟩, h7, ⟨h8, h10⟩, ⟨h9, h11⟩, fun sl e => ⟨(h12 sl e).1, (h12 sl e).2⟩, h13⟩
  · rintro ⟨⟨h1, h2, h3⟩, ⟨h4, h5, h6⟩, h7, ⟨h8, h10⟩, ⟨h9, h11⟩, h12, h13⟩
    exact ⟨h1, h2, h3, h4, h5, h6, h7, h8, h9, h10, h11, fun sl e => ⟨(h12 sl e).branch, (h12 sl e).next⟩, h13⟩

theorem fits_reset : Fits Strand.reset :=
  (fits_iff _).1 ((resetMeetsTheInvariants).1.2 1)

/-- The strand x fits if the strands of the state s₀ do. -/
def Fit (s₀ : State) (x : Strand) : Prop := strandsOk s₀ → Fits x

variable {s₀ : State} {x : Strand}

/-- The parts that no field map speaks of. -/
theorem Fit.rest {a1 a2 a3 a4 a5 a6 a7 a8 a9 a10 a11 a12 a13 a14 a15 a16 a17 a18 a19 a20 a21} (h : Fit s₀ x) :
    Fit s₀ ⟨x.pc, x.n, a1, x.status, x.hstatus, a2, a3, a4, a5, a6, a7, a8, x.bankS, x.bankH, a9, a10, a11, x.slot, a12,
      a13, a14, a15, a16, a17, a18, a19, a20, a21⟩ :=
  fun o => ⟨(h o).status, (h o).hstatus, (h o).pc, (h o).bankS, (h o).bankH, (h o).slot, (h o).regs⟩

/-- A strand that goes on at another instruction, with no slot. -/
theorem Fit.goesOn {v a1 a2 a3 a4 a5 a6 a7 a8 a9 a10 a11 a12 a13 a14 a15 a16 a17 a18 a19 a20 a21} (h : Fit s₀ x)
    (hv : strandsOk s₀ → v.toNat % 4 = 0) :
    Fit s₀ ⟨v, x.n, a1, x.status, x.hstatus, a2, a3, a4, a5, a6, a7, a8, x.bankS, x.bankH, a9, a10, a11, none, a12,
      a13, a14, a15, a16, a17, a18, a19, a20, a21⟩ :=
  fun o => ⟨(h o).status, (h o).hstatus, hv o, (h o).bankS, (h o).bankH, (fun _ e => by cases e), (h o).regs⟩

/-- A strand that goes on at another instruction. -/
theorem Fit.moves {v a1 a2 a3 a4 a5 a6 a7 a8 a9 a10 a11 a12 a13 a14 a15 a16 a17 a18 a19 a20 a21} (h : Fit s₀ x)
    (hv : strandsOk s₀ → v.toNat % 4 = 0) :
    Fit s₀ ⟨v, x.n, a1, x.status, x.hstatus, a2, a3, a4, a5, a6, a7, a8, x.bankS, x.bankH, a9, a10, a11, x.slot, a12,
      a13, a14, a15, a16, a17, a18, a19, a20, a21⟩ :=
  fun o => ⟨(h o).status, (h o).hstatus, hv o, (h o).bankS, (h o).bankH, (h o).slot, (h o).regs⟩

/-- A strand whose next instruction stands in a transfer's slot. -/
theorem Fit.inSlot {v sl a1 a2 a3 a4 a5 a6 a7 a8 a9 a10 a11 a12 a13 a14 a15 a16 a17 a18 a19 a20 a21} (h : Fit s₀ x)
    (hv : strandsOk s₀ → v.toNat % 4 = 0) (hs : strandsOk s₀ → SlotFits sl) :
    Fit s₀ ⟨v, x.n, a1, x.status, x.hstatus, a2, a3, a4, a5, a6, a7, a8, x.bankS, x.bankH, a9, a10, a11, some sl, a12,
      a13, a14, a15, a16, a17, a18, a19, a20, a21⟩ :=
  fun o => ⟨(h o).status, (h o).hstatus, hv o, (h o).bankS, (h o).bankH, fun _ e => Option.some.inj e ▸ hs o, (h o).regs⟩

theorem Fit.withStatus {w a1 a2 a3 a4 a5 a6 a7 a8 a9 a10 a11 a12 a13 a14 a15 a16 a17 a18 a19 a20 a21} (h : Fit s₀ x)
    (hw : strandsOk s₀ → StatusFits w) :
    Fit s₀ ⟨x.pc, x.n, a1, w, x.hstatus, a2, a3, a4, a5, a6, a7, a8, x.bankS, x.bankH, a9, a10, a11, x.slot, a12,
      a13, a14, a15, a16, a17, a18, a19, a20, a21⟩ :=
  fun o => ⟨hw o, (h o).hstatus, (h o).pc, (h o).bankS, (h o).bankH, (h o).slot, (h o).regs⟩

/-- A strand that goes on elsewhere at another level. -/
theorem Fit.enters {v w a1 a2 a3 a4 a5 a6 a7 a8 a9 a10 a11 a12 a13 a14 a15 a16 a17 a18 a19 a20 a21} (h : Fit s₀ x)
    (hv : strandsOk s₀ → v.toNat % 4 = 0) (hw : strandsOk s₀ → StatusFits w) :
    Fit s₀ ⟨v, x.n, a1, w, x.hstatus, a2, a3, a4, a5, a6, a7, a8, x.bankS, x.bankH, a9, a10, a11, x.slot, a12,
      a13, a14, a15, a16, a17, a18, a19, a20, a21⟩ :=
  fun o => ⟨hw o, (h o).hstatus, hv o, (h o).bankS, (h o).bankH, (h o).slot, (h o).regs⟩

theorem Fit.ite {y : Strand} {c : Prop} [Decidable c] (h : Fit s₀ x) (k : Fit s₀ y) : Fit s₀ (if c then x else y) := by
  split
  · exact h
  · exact k

theorem Fit.reset : Fit s₀ Strand.reset := fun _ => fits_reset

/-! ### Addresses -/

theorem align4_mod (w : Word) : (align4 w).toNat % 4 = 0 := by
  have h := getF_putF_same w 0 2 0 (by decide)
  simpa [getF, align4] using h

theorem page_mod (w : Word) : (putF w 0 12 0).toNat % 4096 = 0 := by
  have h := getF_putF_same w 0 12 0 (by decide)
  simpa [getF] using h

theorem add_mod_four {v w : Word} (hv : v.toNat % 4 = 0) (hw : w.toNat % 4 = 0) : (v + w).toNat % 4 = 0 := by
  rw [BitVec.toNat_add]
  omega

/-! ### Registers -/

theorem RegsFit.set {n : SMap Word} (h : RegsFit n) {k : Nat} (hk : k ≠ 0) (v : Word) :
    RegsFit (SMap.set (fun _ => 0) n k v) := by
  unfold RegsFit SMap.set
  split
  · exact smap_erase_wfFrom _ h
  · rename_i hv
    exact smap_insert_wfFrom _ v h (by omega) hv

theorem regsFit_nil : RegsFit [] := rfl

theorem RegsFit.filterMap {n : SMap Word} (h : RegsFit n) (f : Nat → Word → Option Word) :
    RegsFit (SMap.filterMap (fun _ => 0) f n) := smap_filterMap_wfFrom _ f h

theorem regsFit_canonRegs (n : SMap Word) : RegsFit (canonRegs n) := by
  unfold canonRegs
  have key : ∀ m : SMap Word, RegsFit m →
      RegsFit (n.foldl (fun m kv => if kv.1 = 0 then m else SMap.set (fun _ => 0) m kv.1 kv.2) m) := by
    induction n with
    | nil => exact fun m h => h
    | cons kv n ih =>
      intro m h
      rw [List.foldl_cons]
      refine ih _ ?_
      split
      · exact h
      · rename_i hk
        exact h.set hk _
  exact key [] regsFit_nil

theorem Fit.setN {r v} (h : Fit s₀ x) : Fit s₀ (x.setN r v) := by
  unfold Strand.setN
  split
  · exact h
  · rename_i hr
    have hk : r.toNat ≠ 0 := fun e => hr (BitVec.eq_of_toNat_eq e)
    exact fun o => ⟨(h o).status, (h o).hstatus, (h o).pc, (h o).bankS, (h o).bankH, (h o).slot, (h o).regs.set hk v⟩

theorem Fit.setV {r v} (h : Fit s₀ x) : Fit s₀ (x.setV r v) := h.rest

theorem Fit.setRef {r v} (h : Fit s₀ x) : Fit s₀ (x.setRef r v) := by
  cases r with
  | n r => exact h.setN
  | v r => exact h.setV

theorem Fit.step {k} (h : Fit s₀ x) : Fit s₀ (x.step k) := by
  rw [step_keeps]
  exact h.rest

/-! ### System registers (R54 to R59) -/

theorem StatusFits.and {w : Word} (h : StatusFits w) (m : Word) : StatusFits (w &&& m) :=
  ⟨Nat.lt_of_le_of_lt (getF_and_le _ _ _ _) h.pl, Nat.lt_of_le_of_lt (getF_and_le _ _ _ _) h.ppl,
    Nat.le_zero.1 (h.high ▸ getF_and_le w m 11 53)⟩

/-- A field of STATUS that is written, with what PL and PPL then are. -/
theorem StatusFits.put {w : Word} (h : StatusFits w) {lo width v : Nat} (hh : lo + width ≤ 11)
    (hp : getF (putF w lo width v) 0 2 < 3) (hpp : getF (putF w lo width v) 4 2 < 2) : StatusFits (putF w lo width v) :=
  ⟨hp, hpp, by rw [getF_putF_above _ _ _ _ _ _ (by omega) hh, h.high]⟩

theorem StatusFits.write {old : Word} (h : StatusFits old) (v : Word) : StatusFits (statusWrite old v) := by
  have h1 : StatusFits (putF old 2 2 (getF v 2 2)) :=
    h.put (by decide) (by rw [getF_putF_below _ _ _ _ _ _ (by decide) (by decide)]; exact h.pl)
      (by rw [getF_putF_above _ _ _ _ _ _ (by decide) (by decide)]; exact h.ppl)
  have h3 (w : Word) (k : StatusFits w) : StatusFits (putF (putF w 6 2 (getF v 6 2)) 9 2 (getF v 9 2)) := by
    have k1 : StatusFits (putF w 6 2 (getF v 6 2)) :=
      k.put (by decide) (by rw [getF_putF_below _ _ _ _ _ _ (by decide) (by decide)]; exact k.pl)
        (by rw [getF_putF_below _ _ _ _ _ _ (by decide) (by decide)]; exact k.ppl)
    exact k1.put (by decide) (by rw [getF_putF_below _ _ _ _ _ _ (by decide) (by decide)]; exact k1.pl)
      (by rw [getF_putF_below _ _ _ _ _ _ (by decide) (by decide)]; exact k1.ppl)
  unfold statusWrite
  refine h3 _ ?_
  split
  · rename_i hv
    refine h1.put (by decide) (by rw [getF_putF_below _ _ _ _ _ _ (by decide) (by decide)]; exact h1.pl) ?_
    rw [getF_putF_same _ _ _ _ (by decide)]
    omega
  · exact h1

theorem statusFits_legal (w : Word) : StatusFits (legalStatus w) := by
  have h0 : getF (w &&& word 0x7FF) 11 53 = 0 := by
    rw [getF_and, show getF (word 0x7FF) 11 53 = 0 by decide, Nat.and_zero]
  have h1 (u : Word) (k : getF u 11 53 = 0) : getF u 0 2 < 3 → StatusFits (if getF u 4 2 < 2 then u else putF u 4 2 0) := by
    intro kp
    split
    · rename_i hp
      exact ⟨kp, hp, k⟩
    · exact ⟨by rw [getF_putF_below _ _ _ _ _ _ (by decide) (by decide)]; exact kp,
        by rw [getF_putF_same _ _ _ _ (by decide)]; decide,
        by rw [getF_putF_above _ _ _ _ _ _ (by decide) (by decide), k]⟩
  unfold legalStatus
  refine h1 _ ?_ ?_
  · split
    · rw [getF_putF_above _ _ _ _ _ _ (by decide) (by decide), h0]
    · exact h0
  · split
    · rw [getF_putF_same _ _ _ _ (by decide)]
      decide
    · rename_i hn
      have := getF_lt (w &&& word 0x7FF) 0 2
      have hn : getF (w &&& word 0x7FF) 0 2 ≠ 3 := by simpa using hn
      omega

theorem and_putF_above {w m : Word} {lo width v : Nat} (h : lo + width ≤ 64) (hm : m.toNat < 2 ^ lo) :
    putF w lo width v &&& m = w &&& m := by
  refine BitVec.eq_of_getLsbD_eq fun j hj => ?_
  rw [BitVec.getLsbD_and, BitVec.getLsbD_and, getLsbD_putF _ _ _ h]
  by_cases hc : lo ≤ j ∧ j < lo + width
  · have : m.getLsbD j = false := by
      rw [← BitVec.testBit_toNat]
      exact Nat.testBit_lt_two_pow (Nat.lt_of_lt_of_le hm (Nat.pow_le_pow_right (by decide) hc.1))
    rw [this, Bool.and_false, Bool.and_false]
  · rw [if_neg hc]

/-- A field of HSTATUS above EDELEG that is written, with what HPPL then is. -/
theorem HstatusFits.put {w : Word} (h : HstatusFits w) {lo width v : Nat} (hl : 18 ≤ lo) (hh : lo + width ≤ 40)
    (hp : getF (putF w lo width v) 34 2 < 3) : HstatusFits (putF w lo width v) :=
  ⟨hp, by rw [getF_putF_above _ _ _ _ _ _ (by omega) hh, h.high], by
    rw [and_putF_above (by omega) (Nat.lt_of_lt_of_le (by decide : _ < 2 ^ 18) (Nat.pow_le_pow_right (by decide) hl)),
      h.edeleg]⟩

/-- HSTATUS after an entry: HPPL is the level that the entry came from (R66). -/
theorem HstatusFits.entered {w : Word} (h : HstatusFits w) {v : Nat} (hv : v % 4 < 3) : HstatusFits (putF w 34 5 v) :=
  h.put (by decide) (by decide) (by
    rw [show getF (putF w 34 5 v) 34 2 = v / 2 ^ 0 % 2 ^ 2 from getF_putF_inside (lo := 34) (width := 5) (i := 0) w (by decide) (by decide)]
    simpa using hv)

/-- STATUS after an entry to S: PPL is the level that the entry came from (R66). -/
theorem StatusFits.entered {w : Word} (h : StatusFits w) {v : Nat} (hv : v / 2 % 4 < 2) : StatusFits (putF w 3 4 v) :=
  h.put (by decide) (by rw [getF_putF_below _ _ _ _ _ _ (by decide) (by decide)]; exact h.pl) (by
    rw [show getF (putF w 3 4 v) 4 2 = v / 2 ^ 1 % 2 ^ 2 from getF_putF_inside (lo := 3) (width := 4) (i := 1) w (by decide) (by decide)]
    simpa using hv)

/-- STATUS with PL, IE or both written (R66, R68). -/
theorem StatusFits.level {w : Word} (h : StatusFits w) {width v : Nat} (hw : 2 ≤ width ∧ width ≤ 3) (hv : v % 4 < 3) :
    StatusFits (putF w 0 width v) :=
  h.put (by omega) (by
    rw [show getF (putF w 0 width v) 0 2 = v / 2 ^ 0 % 2 ^ 2 from getF_putF_inside (lo := 0) (i := 0) w (by omega) (by omega)]
    simpa using hv)
    (by rw [getF_putF_above _ _ _ _ _ _ (by omega) (by omega)]; exact h.ppl)

theorem StatusFits.ie {w : Word} (h : StatusFits w) {v : Nat} : StatusFits (putF w 2 1 v) :=
  h.put (by decide) (by rw [getF_putF_below _ _ _ _ _ _ (by decide) (by decide)]; exact h.pl)
    (by rw [getF_putF_above _ _ _ _ _ _ (by decide) (by decide)]; exact h.ppl)

theorem HstatusFits.write {old : Word} (h : HstatusFits old) (v : Word) : HstatusFits (hstatusWrite old v) := by
  have h1 : HstatusFits (putF old 0 18 (getF (v &&& word 0x197FE) 0 18)) := by
    refine ⟨by rw [getF_putF_above _ _ _ _ _ _ (by decide) (by decide)]; exact h.hppl,
      by rw [getF_putF_above _ _ _ _ _ _ (by decide) (by decide)]; exact h.high, ?_⟩
    rw [putF_getF _ _ (by decide)]
    refine BitVec.eq_of_getLsbD_eq fun j hj => ?_
    rw [BitVec.getLsbD_and, getLsbD_blend _ _ _ hj, BitVec.getLsbD_and]
    have hm : ∀ i : Fin 64, ((if (fieldMask 0 18).getLsbD i then (word 0x197FE).getLsbD i else true)
        && (0x26801#64).getLsbD i) = ((if (fieldMask 0 18).getLsbD i then false else true) && (0x26801#64).getLsbD i) := by
      decide
    have hz : ∀ i : Fin 64, ((if (fieldMask 0 18).getLsbD i then false else true) && (0x26801#64).getLsbD i) = false := by
      decide
    have a := hm ⟨j, hj⟩
    have b := hz ⟨j, hj⟩
    dsimp only at a b
    rw [b] at a
    cases hf : (fieldMask 0 18).getLsbD j <;> simp_all
  have h2 : HstatusFits (putF (putF old 0 18 (getF (v &&& word 0x197FE) 0 18)) 18 16 (getF v 18 16)) :=
    h1.put (by decide) (by decide) (by rw [getF_putF_above _ _ _ _ _ _ (by decide) (by decide)]; exact h1.hppl)
  have h4 (w : Word) (k : HstatusFits w) : HstatusFits (putF (putF w 36 2 (getF v 36 2)) 39 1 (getF v 39 1)) := by
    have k1 : HstatusFits (putF w 36 2 (getF v 36 2)) :=
      k.put (by decide) (by decide) (by rw [getF_putF_below _ _ _ _ _ _ (by decide) (by decide)]; exact k.hppl)
    exact k1.put (by decide) (by decide) (by rw [getF_putF_below _ _ _ _ _ _ (by decide) (by decide)]; exact k1.hppl)
  unfold hstatusWrite
  refine h4 _ ?_
  split
  · rename_i hv
    refine h2.put (by decide) (by decide) ?_
    rw [getF_putF_same _ _ _ _ (by decide)]
    omega
  · exact h2

theorem hstatusFits_legal (w : Word) : HstatusFits (legalHstatus w) := by
  have h0 : getF (w &&& word 0xFFFFFD97FE) 40 24 = 0 := by
    rw [getF_and, show getF (word 0xFFFFFD97FE) 40 24 = 0 by decide, Nat.and_zero]
  have he : w &&& word 0xFFFFFD97FE &&& 0x26801 = 0 := by
    rw [BitVec.and_assoc, show word 0xFFFFFD97FE &&& 0x26801 = 0 by decide]
    exact BitVec.and_zero
  unfold legalHstatus
  dsimp only
  split
  · exact ⟨by rw [getF_putF_same _ _ _ _ (by decide)]; decide,
      by rw [getF_putF_above _ _ _ _ _ _ (by decide) (by decide), h0], by rw [and_putF_above (by decide) (by decide), he]⟩
  · rename_i hn
    have := getF_lt (w &&& word 0xFFFFFD97FE) 34 2
    have hn : getF (w &&& word 0xFFFFFD97FE) 34 2 ≠ 3 := by simpa using hn
    exact ⟨by omega, h0, he⟩

theorem BankFits.put {b : Bank} (h : BankFits b) (k : Nat) (v : Word) : BankFits (b.put k v) := by
  unfold Bank.put
  split
  · exact ⟨align4_mod v, h.vbase⟩
  split
  · exact ⟨h.epc, h.vbase⟩
  split
  · exact ⟨h.epc, h.vbase⟩
  split
  · exact ⟨h.epc, h.vbase⟩
  split
  · exact ⟨h.epc, h.vbase⟩
  split
  · exact ⟨h.epc, page_mod v⟩
  split
  · exact ⟨h.epc, h.vbase⟩
  split
  · exact ⟨h.epc, h.vbase⟩
  split
  · exact ⟨h.epc, h.vbase⟩
  · exact ⟨h.epc, h.vbase⟩

theorem bankFits_default : BankFits {} := ⟨rfl, rfl⟩

theorem bankFits_masked (b : Bank) : BankFits b.masked := ⟨align4_mod b.epc, page_mod b.vbase⟩

theorem Fits.bank {x : Strand} (h : Fits x) (lvl : Nat) : BankFits (x.bank lvl) := by
  unfold Strand.bank
  split
  · exact h.bankH
  · exact h.bankS

theorem Fit.setBank {lvl b} (h : Fit s₀ x) (hb : strandsOk s₀ → BankFits b) : Fit s₀ (x.setBank lvl b) := by
  unfold Strand.setBank
  split
  · exact fun o => ⟨(h o).status, (h o).hstatus, (h o).pc, (h o).bankS, hb o, (h o).slot, (h o).regs⟩
  · exact fun o => ⟨(h o).status, (h o).hstatus, (h o).pc, hb o, (h o).bankH, (h o).slot, (h o).regs⟩

theorem Fit.withHstatus {w a1 a2 a3 a4 a5 a6 a7 a8 a9 a10 a11 a12 a13 a14 a15 a16 a17 a18 a19 a20 a21} (h : Fit s₀ x)
    (hw : strandsOk s₀ → HstatusFits w) :
    Fit s₀ ⟨x.pc, x.n, a1, x.status, w, a2, a3, a4, a5, a6, a7, a8, x.bankS, x.bankH, a9, a10, a11, x.slot, a12,
      a13, a14, a15, a16, a17, a18, a19, a20, a21⟩ :=
  fun o => ⟨(h o).status, hw o, (h o).pc, (h o).bankS, (h o).bankH, (h o).slot, (h o).regs⟩

theorem Fit.srWrite {sr v lvl} (h : Fit s₀ x) : Fit s₀ (x.srWrite sr v lvl) := by
  have hb : ∀ l, Fit s₀ (x.setBank l ((x.bank l).put (sr.toNat % 2048) v)) :=
    fun l => h.setBank fun o => ((h o).bank l).put _ v
  unfold Strand.srWrite
  refine Fit.ite (h.withStatus fun o => (h o).status.write v) (Fit.ite h.rest (Fit.ite h.rest (Fit.ite h.rest
    (Fit.ite h.rest (Fit.ite h.rest (Fit.ite h.rest (Fit.ite h.rest (Fit.ite (h.withHstatus fun o => (h o).hstatus.write v)
      (Fit.ite h (Fit.ite h (hb _)))))))))))

/-- What is loaded from outside is cut to the field maps (R54 to R62), whatever it was. -/
theorem Fit.masked (y : Strand) : Fit s₀ y.masked := fun _ =>
  ⟨statusFits_legal _, hstatusFits_legal _, align4_mod _, bankFits_masked _, bankFits_masked _, by
    intro sl e
    obtain ⟨sl', -, rfl⟩ := Option.map_eq_some_iff.1 e
    exact ⟨align4_mod _, align4_mod _⟩, regsFit_canonRegs _⟩

theorem Fit.clearSealed {m} (h : Fit s₀ x) : Fit s₀ (x.clearSealed m) := fun o =>
  ⟨(h o).status.and _, (h o).hstatus, (h o).pc, bankFits_default, (h o).bankH, (h o).slot, (h o).regs.filterMap _⟩

end Sys2Proof.Proofs
end

