-- ==== Sys2Proof/Proofs/StateKeeps.lean ====
section
/-!
PROOFS. What the operations on the whole state keep: the queue, the field maps of every strand, the canonical form of the
device (`Keeps`).
-/

namespace Sys2Proof.Proofs

open Sys2Proof Sys2Proof.Machine Sys2Proof.Laws

/-- From the state s₀ the state s keeps the queue; its strands are well formed, and its device is canonical, if those of s₀
are. -/
structure Keeps (s₀ s : State) : Prop where
  queue : s.pending = s₀.pending
  strands : strandsOk s₀ → strandsOk s
  dev : DevKeeps s₀.dev s.dev

variable {s₀ s t : State}

theorem Keeps.refl (s : State) : Keeps s s := ⟨rfl, id, DevKeeps.refl _⟩

theorem Keeps.trans (h : Keeps s₀ s) (k : Keeps s t) : Keeps s₀ t :=
  ⟨k.queue.trans h.queue, fun o => k.strands (h.strands o), h.dev.trans k.dev⟩

theorem Keeps.ite {c : Prop} [Decidable c] (h : Keeps s₀ s) (k : Keeps s₀ t) : Keeps s₀ (if c then s else t) := by
  split
  · exact h
  · exact k

theorem Keeps.foldl {α : Type} {f : State → α → State} {l : List α} (h : Keeps s₀ s)
    (hf : ∀ s a, Keeps s₀ s → Keeps s₀ (f s a)) : Keeps s₀ (l.foldl f s) := by
  induction l generalizing s with
  | nil => exact h
  | cons a l ih => exact ih (hf _ _ h)

/-- A fold that carries other results along with the state. -/
theorem Keeps.foldlBy {α σ : Type} (π : σ → State) {f : σ → α → σ} {l : List α} {r : σ} (h : Keeps s₀ (π r))
    (hf : ∀ r a, Keeps s₀ (π r) → Keeps s₀ (π (f r a))) : Keeps s₀ (π (l.foldl f r)) := by
  induction l generalizing r with
  | nil => exact h
  | cons a l ih => exact ih (hf _ _ h)

theorem Keeps.withDev {d : Dev} (h : Keeps s₀ s) (k : DevKeeps s₀.dev d) : Keeps s₀ ⟨s.pending, s.strands, d⟩ :=
  ⟨h.queue, h.strands, k⟩

theorem strandsOk_setStrand {x : Strand} {g : Nat} (h : strandsOk s) (hx : Fits x) : strandsOk (s.setStrand g x) := by
  refine ⟨smap_set_wf _ _ _ h.1, fun k => ?_⟩
  by_cases e : k = g
  · rw [e, strand_setStrand_same]
    exact (fits_iff x).2 hx
  · rw [strand_setStrand_other _ _ _ _ e]
    exact h.2 k

theorem Keeps.setStrand {x : Strand} {g : Nat} (h : Keeps s₀ s) (k : Fit s₀ x) : Keeps s₀ (s.setStrand g x) :=
  ⟨h.queue, fun o => strandsOk_setStrand (h.strands o) (k o), h.dev⟩

theorem Keeps.strandAt {g : Nat} (h : Keeps s₀ s) : Fit s₀ (s.strand g) := fun o => (fits_iff _).1 ((h.strands o).2 g)

/-- A restart lists no strand but strand 0, or none. -/
theorem Keeps.noStrands {d : Dev} (h : Keeps s₀ s) (k : DevKeeps s₀.dev d) : Keeps s₀ ⟨s.pending, [], d⟩ :=
  ⟨h.queue, fun _ => ⟨rfl, fun _ => (fits_iff _).2 fits_reset⟩, k⟩

/-- Strand 0 alone, at its Cold values but for its PC, runs (R503). -/
theorem Keeps.firstStrand {d : Dev} {v : Word} (h : Keeps s₀ s) (k : DevKeeps s₀.dev d) :
    Keeps s₀ ⟨s.pending, [(0, { Strand.reset with pc := align4 v, parked := false })], d⟩ := by
  refine ⟨h.queue, fun _ => ?_, k⟩
  have hne : ({ Strand.reset with pc := align4 v, parked := false } : Strand) ≠ Strand.reset := fun e => by
    have := congrArg Strand.parked e
    cases this
  refine ⟨by simp [SMap.wf, SMap.wfFrom, hne], fun g => (fits_iff _).2 ?_⟩
  change Fits (if g = 0 then _ else Strand.reset)
  split
  · exact { fits_reset with pc := align4_mod v }
  · exact fits_reset

/-- A read below the keys that a map lists. -/
theorem smap_get_below {β : Type} [DecidableEq β] (d : Nat → β) {m : SMap β} {b k : Nat} (h : SMap.wfFrom d b m = true)
    (hk : k < b) : SMap.get d m k = d k := by
  induction m generalizing b with
  | nil => rfl
  | cons p m ih =>
    obtain ⟨j, v⟩ := p
    simp only [SMap.wfFrom, Bool.and_eq_true, decide_eq_true_eq] at h
    obtain ⟨⟨hj, -⟩, hm⟩ := h
    rw [SMap.get, if_neg (by omega)]
    exact ih hm (by omega)

/-- A map whose listed values are all replaced reads as the replaced value, or as an unlisted key does. -/
theorem smap_get_map {β : Type} [DecidableEq β] (d : Nat → β) (F : β → β) {m : SMap β} {b : Nat} (k : Nat)
    (h : SMap.wfFrom d b m = true) :
    SMap.get d (SMap.filterMap d (fun _ v => some (F v)) m) k = F (SMap.get d m k) ∨
      SMap.get d (SMap.filterMap d (fun _ v => some (F v)) m) k = d k := by
  induction m generalizing b with
  | nil => exact .inr rfl
  | cons p m ih =>
    obtain ⟨j, v⟩ := p
    simp only [SMap.wfFrom, Bool.and_eq_true, decide_eq_true_eq] at h
    obtain ⟨-, hm⟩ := h
    unfold SMap.filterMap
    dsimp only
    by_cases hk : k = j
    · split
      · exact .inr (smap_get_below d (smap_filterMap_wfFrom d _ hm) (by omega))
      · exact .inl (by rw [SMap.get, if_pos hk, SMap.get, if_pos hk])
    · rw [SMap.get, if_neg hk]
      split
      · exact ih hm
      · rw [SMap.get, if_neg hk]
        exact ih hm

/-- A change of every listed strand that its field maps do not notice. -/
theorem Keeps.mapStrands {F : Strand → Strand} (h : Keeps s₀ s) (hF : ∀ x, Fits x → Fits (F x)) :
    Keeps s₀ ⟨s.pending, SMap.filterMap (fun _ => Strand.reset) (fun _ x => some (F x)) s.strands, s.dev⟩ := by
  refine ⟨h.queue, fun o => ?_, h.dev⟩
  obtain ⟨hw, hf⟩ := h.strands o
  refine ⟨smap_filterMap_wf _ _ hw, fun g => (fits_iff _).2 ?_⟩
  unfold State.strand
  rcases smap_get_map (fun _ => Strand.reset) F g hw with e | e
  · rw [e]
    exact hF _ ((fits_iff _).1 (hf g))
  · rw [e]
    exact fits_reset

/-! ### What the parts of an instruction answer -/

/-- What an instruction's execution leaves is kept. -/
@[reducible] def FlowKept (s₀ : State) : Flow → Prop
  | .ok s => Keeps s₀ s
  | .go s => Keeps s₀ s
  | .hold s => Keeps s₀ s
  | .exc _ d => DevKeeps s₀.dev d

/-- What a fetch leaves is kept. -/
@[reducible] def FetchKept (s₀ : State) : FetchR → Prop
  | .ok d => DevKeeps s₀.dev d
  | .exc _ d => DevKeeps s₀.dev d

/-- What a load from a window leaves is kept. -/
@[reducible] def DevGotKept (s₀ : State) : DevGot → Prop
  | .bytes _ s => Keeps s₀ s
  | .ask _ => True
  | .busError _ s => Keeps s₀ s
  | .unclaimed => True

/-- What a write of the Ledger Engine leaves is kept. -/
@[reducible] def LedPutKept (s₀ : State) : LedPut → Prop
  | .ok s => Keeps s₀ s
  | .fail _ s => Keeps s₀ s
  | .wait s => Keeps s₀ s

/-- What a command of the security engine leaves is kept. -/
@[reducible] def SeKept (s₀ : State) : SeRes → Prop
  | .refuse _ => True
  | .done _ _ t => Keeps s₀ t
  | .moved t => Keeps s₀ t
  | .wait => True

/-- What an optional state is, is kept. -/
@[reducible] def OptKept (s₀ : State) : Option State → Prop
  | none => True
  | some t => Keeps s₀ t

theorem OptKept.choose {c : Prop} [Decidable c] {o : Option State} (h : Keeps s₀ s) (k : OptKept s₀ o) :
    OptKept s₀ (if c then some s else o) := by
  split
  · exact h
  · exact k

end Sys2Proof.Proofs
end

