-- ==== Sys2Proof/Proofs/StateOperations.lean ====
section
/-!
PROOFS. What the operations on the whole state keep: one rule for each operation, in the order of the model (`Keeps`).
-/

namespace Sys2Proof.Proofs

open Sys2Proof Sys2Proof.Machine Sys2Proof.Laws

variable {s₀ s : State}

/-! ### Registers, records and draws -/

theorem Keeps.closeShadow {g} (h : Keeps s₀ s) : Keeps s₀ (s.closeShadow g) := by
  unfold State.closeShadow
  dsimp only
  split
  · exact h
  · exact Keeps.ite ((h.setStrand (h.strandAt.srWrite.rest)).withDev (h.setStrand
        (h.strandAt.srWrite.rest)).dev.setPm) (h.setStrand (h.strandAt.srWrite.rest))

theorem Keeps.sealedExit {g pc d'} (h : Keeps s₀ s) : Keeps s₀ (s.sealedExit g pc d') := by
  unfold State.sealedExit
  dsimp only
  split
  · exact h.setStrand h.strandAt.clearSealed
  · split
    · exact h.setStrand (h.strandAt.clearSealed.rest)
    · exact (h.withDev h.dev.setDomain.flushBtb).setStrand (h.strandAt.clearSealed.rest)

@[simp] theorem setBank_status (x : Strand) (lvl : Nat) (b : Bank) : (x.setBank lvl b).status = x.status := by
  unfold Strand.setBank
  split
  · rfl
  · rfl

theorem closeShadow_pl (s : State) (g k : Nat) : ((s.closeShadow g).strand k).pl = (s.strand k).pl := by
  have hw (x : Strand) (sr : BitVec 12) (v : Word) (lvl : Nat) : (x.srWrite sr v lvl).pl = x.pl := by
    have hs : getF (statusWrite x.status v) 0 2 = getF x.status 0 2 := by
      unfold statusWrite
      dsimp only
      split
      · rw [getF_putF_below _ _ _ _ _ _ (by decide) (by decide), getF_putF_below _ _ _ _ _ _ (by decide) (by decide),
          getF_putF_below _ _ _ _ _ _ (by decide) (by decide), getF_putF_below _ _ _ _ _ _ (by decide) (by decide)]
      · rw [getF_putF_below _ _ _ _ _ _ (by decide) (by decide), getF_putF_below _ _ _ _ _ _ (by decide) (by decide),
          getF_putF_below _ _ _ _ _ _ (by decide) (by decide)]
    unfold Strand.srWrite
    simp only [Strand.pl, apply_ite Strand.status, setBank_status, ite_self]
    split
    · exact hs
    · rfl
  unfold State.closeShadow
  dsimp only
  split
  · rfl
  · have hk (y : Strand) (hy : y.pl = (s.strand g).pl) : ((s.setStrand g y).strand k).pl = (s.strand k).pl := by
      by_cases e : k = g
      · rw [e, strand_setStrand_same, hy]
      · rw [strand_setStrand_other _ _ _ _ e]
    split
    · exact hk _ (hw _ _ _ _)
    · exact hk _ (hw _ _ _ _)

theorem vectorOffset_mod (kind : EntryKind) (a b : Bool) : (word (vectorOffset kind a b)).toNat % 4 = 0 := by
  cases kind <;> cases a <;> cases b <;> rfl

/-- An entry goes to H, or to S from S or U. -/
theorem Keeps.enter {g lvl kind epc cause slotB faddr fipa syn exitD} (h : Keeps s₀ s)
    (hl : lvl = 2 ∨ lvl = 1 ∧ (strandsOk s₀ → (s.strand g).pl < 2)) :
    Keeps s₀ (s.enter g lvl kind epc cause slotB faddr fipa syn exitD) := by
  unfold State.enter
  extract_lets s1 s2 x from0 sx b b' x1 x2 s3 s4 x3 x4 vb
  have k2 : Keeps s₀ s2 := h.closeShadow.withDev h.closeShadow.dev.count
  have fx : Fit s₀ x := k2.strandAt
  have hpl : x.pl = (s.strand g).pl := closeShadow_pl s g g
  have f1 : Fit s₀ x1 := fx.setBank fun o => ⟨align4_mod _, ((fx o).bank lvl).vbase⟩
  have hp : x1.pl = x.pl := congrArg (getF · 0 2) (setBank_status x lvl b')
  have hb (c : Bool) : bnat c < 2 := by
    cases c
    · decide
    · decide
  have f2 : Fit s₀ x2 := by
    have h1 := hb x1.ie
    have h2 := hb slotB
    have h3 := hb x1.sealedB
    change Fit s₀ (if (lvl == 2) = true then _ else _)
    split
    · refine f1.withHstatus fun o => (f1 o).hstatus.entered ?_
      have h4 : x.pl < 3 := (fx o).status.pl
      rw [hp]
      omega
    · rename_i hn
      refine f1.withStatus fun o => (f1 o).status.entered ?_
      have h4 : x.pl < 2 := by
        rcases hl with rfl | ⟨-, hl⟩
        · exact absurd rfl hn
        · exact hpl ▸ hl o
      rw [hp]
      omega
  have k4 : Keeps s₀ s4 := Keeps.ite (k2.setStrand f2).sealedExit (k2.setStrand f2)
  have f3 : Fit s₀ x3 := k4.strandAt
  have f4 : Fit s₀ x4 := fun o =>
    ⟨(f3 o).status.level (by decide) (by omega), (f3 o).hstatus, (f3 o).pc, (f3 o).bankS,
      (f3 o).bankH, (fun _ e => by cases e), (f3 o).regs⟩
  refine k4.setStrand (f4.moves fun o => add_mod_four ?_ (vectorOffset_mod _ _ _))
  have hv : vb.toNat % 4096 = 0 := ((f4 o).bank lvl).vbase
  omega

theorem excLevel_cases (d : Dev) (x : Strand) (e : Exc) : excLevel d x e = 2 ∨ excLevel d x e = 1 ∧ x.pl ≠ 2 := by
  unfold excLevel
  extract_lets stage2
  split
  · exact .inl rfl
  · rename_i hp
    have hp : x.pl ≠ 2 := by simpa using hp
    have hb : (if bitOf x.hstatus e.code = true then 1 else 2) = 2 ∨
        (if bitOf x.hstatus e.code = true then 1 else 2) = 1 := by
      split
      · exact .inr rfl
      · exact .inl rfl
    split
    · exact .inl rfl
    split
    · exact .inl rfl
    split
    · exact .inl rfl
    · exact hb.imp_right fun h => ⟨h, hp⟩

theorem setN_pl (x : Strand) (r : Reg) (v : Word) : (x.setN r v).pl = x.pl := by
  unfold Strand.setN
  split
  · rfl
  · rfl

theorem Keeps.raise {g e'} (h : Keeps s₀ s) : Keeps s₀ (s.raise g e') := by
  have hl : excLevel s.dev (s.strand g) e' = 2 ∨
      excLevel s.dev (s.strand g) e' = 1 ∧ (strandsOk s₀ → (s.strand g).pl < 2) := by
    refine (excLevel_cases s.dev (s.strand g) e').imp_right fun ⟨hl, hp⟩ => ⟨hl, fun o => ?_⟩
    have h3 : (s.strand g).pl < 3 := (h.strandAt o).status.pl
    omega
  unfold State.raise
  dsimp only
  split
  · exact h.enter hl
  · refine Keeps.enter (h.setStrand ?_) ?_
    · split
      · exact h.strandAt.rest
      · exact Fit.setN h.strandAt.rest
    · rw [strand_setStrand_same]
      split
      · exact hl
      · rw [setN_pl]
        exact hl

theorem Keeps.enterVcpu {g dom i} (h : Keeps s₀ s) : Keeps s₀ (s.enterVcpu g dom i) := by
  unfold State.enterVcpu
  dsimp only
  split
  · exact h
  · split
    · exact h
    · exact (h.withDev h.dev.setDomain.flushBtb).setStrand ((Fit.masked _).rest)

theorem Keeps.eret {g} (h : Keeps s₀ s) : Keeps s₀ (s.eret g) := by
  unfold State.eret
  extract_lets s1 x
  have k : Keeps s₀ s1 := h.closeShadow
  have fx : Fit s₀ x := k.strandAt
  split
  · split
    · split
      · exact Keeps.enterVcpu (k.setStrand (fx.withStatus fun o => ((fx o).status.level (by decide) (by
          have : getF x.hstatus 34 2 < 3 := (fx o).hstatus.hppl
          omega)).ie))
      · exact k.raise
    · exact k.setStrand (fx.enters (fun o => (fx o).bankH.epc) fun o => (fx o).status.level (by decide) (by
        have := (fx o).hstatus.hppl
        omega))
  · exact k.setStrand (fx.enters (fun o => (fx o).bankS.epc) fun o => (fx o).status.level (by decide) (by
      have := (fx o).status.ppl
      omega))

/-! ### Coherence -/

theorem Keeps.ioStash {g off bs key target poison} (h : Keeps s₀ s) : Keeps s₀
    (s.ioStash g off bs key target poison) := by
  unfold State.ioStash
  dsimp only
  split
  · exact h
  · split
    · exact h.withDev (DevKeeps.ite (h.dev.poke.rest) h.dev.poke)
    · split
      · exact h.withDev (DevKeeps.ite h.dev.gather.homeWrite h.dev.gather).stashHome.countHomeStash
      · split
        · rename_i _ _ _ _ _ _ e9
          exact h.withDev (DevKeeps.ite h.dev.gather.homeWrite h.dev.gather).stashHome.countHomeStash
        · rename_i _ _ _ _ _ _ _ e9
          exact h.withDev ((DevKeeps.ite h.dev.gather.homeWrite h.dev.gather).stashRoom e9).putStash.ownBy

theorem Keeps.stashPlace {g src target l dirty p} (h : Keeps s₀ s) : Keeps s₀
    (s.stashPlace g src target l dirty p) := by
  unfold State.stashPlace
  dsimp only
  split
  · exact h
  · split
    · exact h.withDev h.dev.noSharers.setTxn.sendData
    · exact h.withDev h.dev.stashHome.countHomeStash.grant

theorem Keeps.finishTxn {g t'} (h : Keeps s₀ s) : Keeps s₀ (s.finishTxn g t') := by
  unfold State.finishTxn
  dsimp only
  split
  · exact h.withDev (DevKeeps.ite h.dev.gathered.sink h.dev.gathered).clearLlc.noSharers.keepClean.closeTxn
  · exact Keeps.ite (h.withDev h.dev.closeTxn) (h.withDev h.dev.homeCopy.sendData.closeTxn)
  · split
    · split
      · exact h.withDev (DevKeeps.ite h.dev.keepDirty.setDir h.dev.keepDirty).addSharer.grant
      · exact h.withDev (DevKeeps.ite h.dev.setDir h.dev).addSharer.grant
    · exact Keeps.ite (h.withDev h.dev.homeCopy.sendData.ownBy.grant)
          (h.withDev h.dev.homeCopy.sendData.keepClean.addSharer.grant)
  · split
    · exact h.withDev h.dev.sink.awaitIntake
    · split
      · exact h.withDev (DevKeeps.ite h.dev.sink.llcPut.setDir h.dev).grant
      · exact h.withDev h.dev.grant
  · exact h.withDev (DevKeeps.ite h.dev.gathered.sink h.dev.gathered).clearLlc.noSharers.awaitIntake
  · split
    · split
      · exact h.withDev (DevKeeps.ite h.dev.sink h.dev).clearLlc.ownBy.grant
      · exact h.withDev h.dev.clearLlc.ownBy.grant
    · exact Keeps.ite (h.withDev h.dev.clearLlc.ownBy.grant) (h.withDev h.dev.homeCopy.sendData.clearLlc.ownBy.grant)
  · split
    · split
      · exact h.withDev (DevKeeps.ite h.dev.sink h.dev).clearLlc.ownBy.grant
      · exact h.withDev h.dev.clearLlc.ownBy.grant
    · exact Keeps.ite (h.withDev h.dev.clearLlc.ownBy.grant) (h.withDev h.dev.homeCopy.sendData.clearLlc.ownBy.grant)
  · exact Keeps.ite (h.withDev h.dev.gathered.clearLlc.noSharers.homeWrite.setTxn)
        (h.withDev h.dev.gathered.clearLlc).stashPlace
  · exact h.withDev (DevKeeps.ite h.dev.gathered.clearLlc.noSharers.keepDirty
        h.dev.gathered.clearLlc.noSharers).sendData.closeTxn

theorem Keeps.advanceTxn {g} (h : Keeps s₀ s) : Keeps s₀ (s.advanceTxn g) := by
  unfold State.advanceTxn
  split
  · exact h
  · exact Keeps.ite h.finishTxn h

theorem Keeps.openRequest {g src r key} (h : Keeps s₀ s) : Keeps s₀ (s.openRequest g src r key) :=
  (h.withDev h.dev.openTxn).advanceTxn

theorem Keeps.openRecall {v} (h : Keeps s₀ s) : Keeps s₀ (s.openRecall v) :=
  (h.withDev h.dev.addSat.openTxn).advanceTxn

theorem Keeps.tryQueued {q} (h : Keeps s₀ s) : Keeps s₀ (s.tryQueued q).1 := by
  unfold State.tryQueued
  split
  · exact h
  · split
    · exact h.openRequest
    · exact h.openRecall
    · exact h

theorem Keeps.tryQueue {a} (h : Keeps s₀ s) : Keeps s₀ (s.tryQueue a).1 := by
  induction a generalizing s with
  | nil => exact h
  | cons q qs ih => exact ih h.tryQueued

theorem Keeps.pump {g} (h : Keeps s₀ s) : Keeps s₀ (s.pump g) :=
  h.tryQueue.withDev h.tryQueue.dev.setSliceQ.showSlice

theorem Keeps.homeRequest {g src r} (h : Keeps s₀ s) : Keeps s₀ (s.homeRequest g src r) := by
  unfold State.homeRequest
  dsimp only
  split
  · exact h
  · split
    · exact h.openRequest.withDev h.openRequest.dev.showSlice
    · exact Keeps.ite (h.withDev h.dev.setSliceQ).openRecall.pump (h.withDev h.dev.addSat.send)
    · exact Keeps.ite (h.withDev h.dev.setSliceQ.showSlice) (h.withDev h.dev.addSat.send)

theorem Keeps.afterClose {g} (h : Keeps s₀ s) : Keeps s₀ (s.afterClose g) := Keeps.ite h.pump h

theorem Keeps.absentAt {g src} (h : Keeps s₀ s) : Keeps s₀ (s.absentAt g src) := by
  unfold State.absentAt
  dsimp only
  split
  · exact h.withDev h.dev.addSat.dropPtr
  · split
    · exact Keeps.ite (h.withDev h.dev.addSat.stashHome.addSat.grant) (h.withDev h.dev.addSat)
    · exact (h.withDev (DevKeeps.ite h.dev.addSat.dropPtr h.dev.addSat).setTxn).advanceTxn.afterClose

theorem Keeps.ackFwdAt {g src ghost dd} (h : Keeps s₀ s) : Keeps s₀ (s.ackFwdAt g src ghost dd) := by
  unfold State.ackFwdAt
  dsimp only
  split
  · exact h.withDev (DevKeeps.ite h.dev.addSat h.dev).dropPtr
  · exact Keeps.ite (h.withDev (DevKeeps.ite h.dev.addSat h.dev).setTxn).advanceTxn.afterClose (h.withDev
        (DevKeeps.ite h.dev.addSat h.dev))

theorem Keeps.ackInvAt {g src} (h : Keeps s₀ s) : Keeps s₀ (s.ackInvAt g src) := by
  unfold State.ackInvAt
  split
  · exact h.withDev h.dev.dropPtr
  · exact (h.withDev h.dev.setTxn).advanceTxn.afterClose

theorem Keeps.dataAtHome {g l dirty p} (h : Keeps s₀ s) : Keeps s₀ (s.dataAtHome g l dirty p) := by
  unfold State.dataAtHome
  split
  · exact h
  · exact (h.withDev h.dev.setTxn).advanceTxn.afterClose

theorem Keeps.doneAt {g src} (h : Keeps s₀ s) : Keeps s₀ (s.doneAt g src) := by
  unfold State.doneAt
  split
  · exact h
  · split
    · exact Keeps.ite (h.withDev h.dev.closeTxn).pump h
    · exact h

theorem Keeps.hintAt {g src} (h : Keeps s₀ s) : Keeps s₀ (s.hintAt g src) := by
  unfold State.hintAt
  split
  · exact h
  · split
    · exact Keeps.ite (h.withDev h.dev.ownBy.grant) h
    · exact h

theorem Keeps.intakeDone {g} (h : Keeps s₀ s) : Keeps s₀ (s.intakeDone g) := by
  unfold State.intakeDone
  split
  · exact h
  · split
    · exact h
    · split
      · exact h.stashPlace
      · exact h.withDev h.dev.grant
      · exact h

theorem Keeps.dropSocketAt {sk g} (h : Keeps s₀ s) : Keeps s₀ (s.dropSocketAt sk g) := by
  unfold State.dropSocketAt
  dsimp only
  split
  · exact h.withDev (DevKeeps.ite (h.dev.dropPtr.rest).log h.dev.dropPtr)
  · exact (h.withDev (DevKeeps.ite (h.dev.dropPtr.rest).log h.dev.dropPtr).setTxn).advanceTxn.afterClose

theorem Keeps.removeSocket {sk} (h : Keeps s₀ s) : Keeps s₀ (s.removeSocket sk) :=
  ((h.withDev h.dev.dropHomed).foldl fun _ _ k => k.dropSocketAt).withDev ((h.withDev h.dev.dropHomed).foldl
      fun _ _ k => k.dropSocketAt).dev.setFld

/-! ### Operands -/

theorem Keeps.fetch {g} (h : Keeps s₀ s) {y} (e : s.fetch g = y) : FetchKept s₀ y := by
  subst e
  unfold State.fetch
  dsimp only
  split
  · rename_i _ _ _ e6
    exact h.dev.xlate e6
  · rename_i _ _ _ e6
    split
    · exact h.dev.xlate e6
    · split
      · exact (h.dev.xlate e6).unclaimed
      · split
        · exact (h.dev.xlate e6).coreRead.consumed
        · exact (h.dev.xlate e6).coreRead.demand

theorem Keeps.btbLearn {g pc target} (h : Keeps s₀ s) : Keeps s₀ (s.btbLearn g pc target) :=
  Keeps.ite h (h.withDev (h.dev.rest))

theorem Keeps.count {g ev} (h : Keeps s₀ s) : Keeps s₀ (s.count g ev) := h.withDev h.dev.count

theorem Keeps.retire {g} (h : Keeps s₀ s) : Keeps s₀ (s.retire g) := by
  unfold State.retire
  dsimp only
  have fx : Fit s₀ (((s.count g 1).strand g).step 1) := h.count.strandAt.step
  split
  · exact h.count.setStrand (fx.moves fun o => add_mod_four (fx o).pc rfl)
  · rename_i sl hs
    split
    · exact Keeps.btbLearn (h.count.setStrand (fx.goesOn fun o => ((fx o).slot sl hs).next))
    · exact h.count.setStrand (fx.goesOn fun o => ((fx o).slot sl hs).next)

theorem Keeps.setN {g r v} (h : Keeps s₀ s) : Keeps s₀ (s.setN g r v) := h.setStrand h.strandAt.setN

theorem Keeps.setV {g r v} (h : Keeps s₀ s) : Keeps s₀ (s.setV g r v) := h.setStrand h.strandAt.setV

theorem Keeps.long {g dst val k'} (h : Keeps s₀ s) : Keeps s₀ (s.long g dst val k') := h.setStrand (h.strandAt.rest)

/-! ### Interrupts -/

theorem Keeps.wake {g} (h : Keeps s₀ s) : Keeps s₀ (s.wake g) :=
  Keeps.ite (h.withDev h.dev.setPm) (Keeps.ite h (Keeps.ite ((h.setStrand (h.strandAt.rest)).withDev (h.setStrand
      (h.strandAt.rest)).dev.setFld.addSat) ((h.setStrand (h.strandAt.rest)).withDev (h.setStrand
      (h.strandAt.rest)).dev.setFld)))

theorem Keeps.wakeId {target} (h : Keeps s₀ s) : Keeps s₀ (s.wakeId target) :=
  Keeps.ite (Keeps.ite h (h.withDev h.dev.addSat)) (Keeps.ite h.wake (h.withDev h.dev.addSat))

theorem Keeps.irSendWrite {v} (h : Keeps s₀ s) : Keeps s₀ (s.irSendWrite v) :=
  Keeps.ite h.wakeId (h.withDev h.dev.deliver)

theorem takeLevel_cases {x : Strand} {k lvl : Nat} {ie : Bool} (e : takeLevel x k ie = some lvl) :
    lvl = 2 ∨ lvl = 1 ∧ x.pl < 2 := by
  have key (l : Nat) (hl : l = 1 ∨ l = 2) (e : (if x.pl < l || (x.pl == l && ie) then some l else none) = some lvl) :
      lvl = 2 ∨ lvl = 1 ∧ x.pl < 2 := by
    obtain ⟨hc, e⟩ := Option.ite_none_right_eq_some.1 e
    have e := Option.some.inj e
    simp only [Bool.or_eq_true, decide_eq_true_eq, Bool.and_eq_true, beq_iff_eq] at hc
    omega
  refine key _ ?_ e
  split
  · exact .inl rfl
  · exact .inr rfl

theorem Keeps.takeVector {g v} (h : Keeps s₀ s) : Keeps s₀ (s.takeVector g v) := by
  unfold State.takeVector
  dsimp only
  split
  · exact h
  · rename_i lvl hl
    have hs : Keeps s₀ (s.setStrand g { s.strand g with tsync := false }) := h.setStrand h.strandAt.rest
    refine Keeps.enter (hs.withDev (DevKeeps.ite hs.dev hs.dev.clearPend)) ((takeLevel_cases hl).imp_right ?_)
    exact fun ⟨h1, h2⟩ => ⟨h1, fun _ => by
      change ((s.setStrand g _).strand g).pl < 2
      rw [strand_setStrand_same]
      exact h2⟩

theorem Keeps.takeLost {g r rest} (h : Keeps s₀ s) : Keeps s₀ (s.takeLost g r rest) := by
  unfold State.takeLost
  exact (h.setStrand h.strandAt.rest).enter (.inl rfl)

/-! ### Persistence -/

theorem Keeps.acceptLine {n e'} (h : Keeps s₀ s) : Keeps s₀ (s.acceptLine n e') := by
  unfold State.acceptLine
  dsimp only
  split
  · split
    · exact h.withDev (h.dev.arrayWrite.setStack.showIntake.rest).send
    · exact h.withDev (h.dev.arrayWrite.setStack.showIntake.rest)
  · split
    · exact (h.withDev (h.dev.arrayWrite.setStack.showIntake.rest).send).intakeDone
    · exact (h.withDev (h.dev.arrayWrite.setStack.showIntake.rest)).intakeDone

theorem Keeps.failStrand {g} (h : Keeps s₀ s) : Keeps s₀ (s.failStrand g) :=
  Keeps.ite (h.setStrand (h.strandAt.rest)) (h.withDev (h.dev.rest))

theorem Keeps.failLine {g} (h : Keeps s₀ s) : Keeps s₀ (s.failLine g) :=
  ((h.withDev (h.dev.rest).log).foldl fun _ _ k => k.failStrand).foldl fun _ _ k => (Keeps.ite (k.setStrand
      (k.strandAt.rest)) k)

/-! ### Errors -/

theorem Keeps.strandLost {lostG action} (h : Keeps s₀ s) : Keeps s₀ (s.strandLost lostG action) := by
  unfold State.strandLost
  dsimp only
  split
  · exact h.withDev h.dev.record
  · exact (h.withDev h.dev.record).setStrand ((h.withDev h.dev.record).strandAt.rest)

theorem Keeps.halt {g} (h : Keeps s₀ s) : Keeps s₀ (s.halt g) :=
  h.closeShadow.setStrand (h.closeShadow.strandAt.rest)

theorem Keeps.saveImage {g withdrawn} (h : Keeps s₀ s) : Keeps s₀ (s.saveImage g withdrawn).1 := by
  unfold State.saveImage
  dsimp only
  refine Keeps.withDev (Keeps.ite (h.halt.enter (.inl rfl)) h.halt) ?_
  have k (c : Prop) [Decidable c] (t : State) (kt : Keeps s₀ t) : Keeps s₀
      (if c then t else s.halt g) := Keeps.ite kt h.halt
  exact DevKeeps.ite (k _ _ (h.halt.enter (.inl rfl))).dev.setInImage (k _ _ (h.halt.enter (.inl rfl))).dev

theorem Keeps.resetStrand {g} (h : Keeps s₀ s) : Keeps s₀ (s.resetStrand g) := h.setStrand (Fit.reset.rest)

theorem Keeps.loseUnreadable {l bits} (h : Keeps s₀ s) : Keeps s₀ (s.loseUnreadable l bits) :=
  h.foldl fun _ _ k => (Keeps.ite k.resetStrand.strandLost k)

theorem Keeps.resumeCore {l} (h : Keeps s₀ s) : Keeps s₀ (s.resumeCore l) :=
  h.foldl fun _ _ k => (k.setStrand (k.strandAt.rest))

theorem Keeps.transplant {c t' bits} (h : Keeps s₀ s) : Keeps s₀ (s.transplant c t' bits) :=
  (h.withDev ((DevKeeps.ite h.dev.setCoreState.sendOpen
      h.dev.setCoreState.sendOpen.emptyCore).copyCoreRegs.disableSource.flushBtb.setFld.setCoreState.setFld.addSpares.setFld.rest).setFld.setFld).loseUnreadable.resumeCore

theorem Keeps.withdraw {c} (h : Keeps s₀ s) : Keeps s₀ (s.withdraw c) :=
  ((h.foldl fun _ _ k => (k.saveImage.withDev k.saveImage.dev.setImage).resetStrand).withDev ((h.foldl
      fun _ _ k => (k.saveImage.withDev
      k.saveImage.dev.setImage).resetStrand).dev.setFld.setCoreState.setFld.setFld.sendOpen.disableSource.rest)).foldl fun _ _ k => k.strandLost

theorem Keeps.transplantAny {c bits} (h : Keeps s₀ s) : Keeps s₀ (s.transplantAny c bits) := by
  unfold State.transplantAny
  dsimp only
  split
  · exact h.transplant
  · exact h.withDev (h.dev.setCoreState.rest)
  · exact h.withdraw

theorem Keeps.haltCore {l} (h : Keeps s₀ s) : Keeps s₀ (s.haltCore l) := h.halt.halt

theorem Keeps.xplantWrite {v} (h : Keeps s₀ s) : Keeps s₀ (s.xplantWrite v) :=
  Keeps.ite (Keeps.ite (h.withDev h.dev.writeReg).transplantAny (Keeps.ite (h.withDev h.dev.writeReg).transplant
      (h.withDev h.dev.writeReg.setFld))) (h.withDev h.dev.writeReg)

/-! ### The cushion -/

theorem Keeps.enterCushion {cause} (h : Keeps s₀ s) : Keeps s₀ (s.enterCushion cause) :=
  Keeps.ite h (h.withDev (DevKeeps.ite
      (h.dev.rest).addSat.setFld.setFld.abortUpdate.endQuiesces.wakeDeep.abandonMoves.phaseDone.drainDue
      (h.dev.rest).addSat.setFld.setFld.abortUpdate.endQuiesces.wakeDeep.abandonMoves.phaseDone.drainDue.sendPowerFail))

theorem Keeps.drainTestWrite {v} (h : Keeps s₀ s) : Keeps s₀ (s.drainTestWrite v) := Keeps.ite h.enterCushion h

theorem Keeps.peatWork (h : Keeps s₀ s) : Keeps s₀ s.peatWork := by
  unfold State.peatWork
  split
  · exact h
  · exact Keeps.ite (h.withDev (h.dev.foldl fun _ _ k => (DevKeeps.ite k.closeBank k))) h

theorem Keeps.startPhase {b} (h : Keeps s₀ s) : Keeps s₀ (s.startPhase b) := by
  unfold State.startPhase
  dsimp only
  split
  · exact h
  · exact Keeps.ite (h.withDev (h.dev.rest).showDue).peatWork h

theorem Keeps.peatComplete (h : Keeps s₀ s) : Keeps s₀ s.peatComplete := by
  unfold State.peatComplete
  dsimp only
  split
  · exact h
  · exact h.withDev (h.dev.phaseDone.rest).chainSend

theorem Keeps.unwithdraw {l} (h : Keeps s₀ s) {t} (e : s.unwithdraw l = some t) : Keeps s₀ t := by
  unfold State.unwithdraw at e
  dsimp only at e
  split at e
  · cases e
    exact h
  · split at e
    · cases e
    · cases e
      exact h.withDev (DevKeeps.ite h.dev h.dev.emptyCore).setFld.setFld.setCoreState.setFld.addSpares.setFld

theorem Keeps.loadImage {g i} (h : Keeps s₀ s) : Keeps s₀ (s.loadImage g i) :=
  (h.withDev (DevKeeps.ite h.dev.setPm.setInImage.setImage h.dev.setPm.setInImage.setImage.setFld)).setStrand
      ((Fit.masked _).rest)

theorem Keeps.restoreWrite {req v} (h : Keeps s₀ s) : Keeps s₀ (s.restoreWrite req v) := by
  unfold State.restoreWrite
  dsimp only
  split
  · exact h.withDev h.dev.writeReg
  · split
    · exact h.withDev h.dev.writeReg.setFld
    · exact h.withDev h.dev.writeReg.setFld
    · split
      · exact h.withDev h.dev.writeReg.setFld
      · split
        · rename_i _ _ _ _ _ _ _ _ e9
          exact h.withDev h.dev.writeReg.setFld
        · rename_i _ _ _ _ _ _ _ _ _ e9
          exact (((h.withDev h.dev.writeReg).unwithdraw e9).withDev
              ((h.withDev h.dev.writeReg).unwithdraw e9).dev.setFld).loadImage

/-! ### The I/O MMU -/

theorem Keeps.refillCtlWrite {req i v} (h : Keeps s₀ s) : Keeps s₀ (s.refillCtlWrite req i v) :=
  Keeps.ite h (Keeps.ite (h.withDev (DevKeeps.ite h.dev.setReg.setFld.installLeaf h.dev.setReg.setFld))
      (h.withDev h.dev.setReg))

/-! ### Root ports -/

theorem Keeps.loadDone {g value} (h : Keeps s₀ s) : Keeps s₀ (s.loadDone g value) := by
  unfold State.loadDone
  dsimp only
  split
  · exact h
  · exact (h.setStrand (h.strandAt.rest).setRef).retire

theorem Keeps.loadFails {g pt record busErr} (h : Keeps s₀ s) : Keeps s₀ (s.loadFails g pt record busErr) := by
  unfold State.loadFails
  dsimp only
  split
  · exact h
  · exact Keeps.ite (h.setStrand (h.strandAt.rest)).raise h.loadDone

theorem Keeps.failAll {pt record busErr} (h : Keeps s₀ s) : Keeps s₀ (s.failAll pt record busErr) :=
  (h.withDev h.dev.setPort).foldl fun _ _ k => k.loadFails

theorem Keeps.contain {pt} (h : Keeps s₀ s) : Keeps s₀ (s.contain pt) :=
  Keeps.ite h ((h.withDev h.dev.setFld.portRecord.setPort).failAll.withDev
      (h.withDev h.dev.setFld.portRecord.setPort).failAll.dev.portMsi)

theorem Keeps.dmaWritePage {q bytes target poison p} (h : Keeps s₀ s) :
    Keeps s₀ (s.dmaWritePage q bytes target poison p) := by
  unfold State.dmaWritePage
  split
  · rename_i _ _ e6
    exact h.withDev (h.dev.ioTo e6)
  · rename_i _ _ e6
    exact h.withDev (h.dev.ioTo e6)
  · rename_i _ _ _ e6
    exact h.withDev (h.dev.ioTo e6).peerRecord
  · rename_i _ _ _ _ _ e6
    exact (h.withDev (h.dev.ioTo e6)).foldl fun _ _ k => k.ioStash

theorem Keeps.retirePort {pt} (h : Keeps s₀ s) : Keeps s₀ (s.retirePort pt) := by
  unfold State.retirePort
  dsimp only
  split
  · exact Keeps.ite (h.withDev h.dev.setFld.setUnit.setFld.addRepair.log.setPort).contain
        (h.withDev h.dev.setFld.setUnit.setFld.addRepair.log.setPort)
  · exact h.withDev h.dev.setFld.setUnit.addRepair.log.setPort

theorem Keeps.kportRetireWrite {pt v} (h : Keeps s₀ s) : Keeps s₀ (s.kportRetireWrite pt v) :=
  Keeps.ite h.retirePort h

theorem Keeps.portCfgWrite {pt k' mask v} (h : Keeps s₀ s) : Keeps s₀ (s.portCfgWrite pt k' mask v) :=
  Keeps.ite h (Keeps.ite (Keeps.ite (h.withDev (DevKeeps.ite h.dev.setPort.applySlot h.dev.setPort.setPort))
      (h.withDev h.dev.setPort)) (Keeps.ite (Keeps.ite (h.withDev h.dev.setPort).contain
      (h.withDev h.dev.setPort)) (Keeps.ite (Keeps.ite (h.withDev h.dev.dpcRelease) h) (Keeps.ite
      (h.withDev h.dev.writeReg.sscApply) (Keeps.ite h.kportRetireWrite (Keeps.ite (h.withDev h.dev.writeReg)
      (Keeps.ite h (h.withDev h.dev.setPort))))))))

/-! ### Mailboxes -/

theorem Keeps.claimBox {b r} (h : Keeps s₀ s) : Keeps s₀ (s.claimBox b r) :=
  Keeps.ite (h.withDev h.dev.setBox.setFld.setFld) h

theorem Keeps.claimWrite {b r v} (h : Keeps s₀ s) : Keeps s₀ (s.claimWrite b r v) :=
  Keeps.ite (h.withDev h.dev.rejectBox) (Keeps.ite (h.withDev h.dev.freeBox) h)

/-- A mailbox write whose own effect f is kept. -/
theorem Keeps.boxWrite {b r f} (h : Keeps s₀ s) (hf : ∀ d, DevKeeps s₀.dev d → DevKeeps s₀.dev (f d)) :
    Keeps s₀ (s.boxWrite b r f) := Keeps.ite (h.withDev (hf _ h.dev)) (h.withDev h.dev.rejectBox)

/-! ### The security engine -/

theorem Keeps.forgetExits {p} (h : Keeps s₀ s) : Keeps s₀ (s.forgetExits p) :=
  h.mapStrands fun x hx =>
    ⟨hx.status, hx.hstatus, hx.pc, hx.bankS, hx.bankH, hx.slot, hx.regs⟩

/-! ### The Ledger Engine -/

theorem Keeps.ledWrite {b addr bs} (h : Keeps s₀ s) {y} (e : s.ledWrite b addr bs = y) : LedPutKept s₀ y := by
  subst e
  unfold State.ledWrite
  dsimp only
  split
  · rename_i _ _ e6
    exact h.withDev (h.dev.ioTo e6)
  · rename_i _ _ e6
    exact h.withDev (h.dev.ioTo e6)
  · rename_i _ _ _ e6
    split
    · exact h.withDev (h.dev.ioTo e6).ledWindow
    · exact h.withDev (h.dev.ioTo e6).ledWindow
  · rename_i _ _ _ _ _ e6
    split
    · exact h.withDev (h.dev.ioTo e6)
    · split
      · rename_i _ _ _ _ _ _ _ e8
        exact h.withDev (h.dev.ioTo e6).setFld
      · rename_i _ _ _ _ _ _ _ _ e8
        exact Keeps.ite ((h.withDev (DevKeeps.ite ((h.dev.ioTo e6).logPage e8).drawLedCredit
            ((h.dev.ioTo e6).logPage e8))).ioStash.withDev (h.withDev (DevKeeps.ite
            ((h.dev.ioTo e6).logPage e8).drawLedCredit ((h.dev.ioTo e6).logPage e8))).ioStash.dev.tagIntake)
            (h.withDev (DevKeeps.ite ((h.dev.ioTo e6).logPage e8).drawLedCredit ((h.dev.ioTo e6).logPage e8))).ioStash

/-- A fold over the parts of a run. -/
theorem Keeps.foldlRun {α : Type} {f : Run → α → Run} {l : List α} {r : Run} (h : Keeps s₀ r.s)
    (hf : ∀ r a, Keeps s₀ r.s → Keeps s₀ (f r a).s) : Keeps s₀ (l.foldl f r).s := h.foldlBy Run.s hf

theorem Keeps.runWrite {b addr bs} {r : Run} (h : Keeps s₀ r.s) : Keeps s₀ (runWrite b addr bs r).s := by
  refine h.foldlRun fun r a k => ?_
  dsimp only
  split
  · exact k
  · split
    · rename_i e
      exact Keeps.ledWrite (k.withDev k.dev.overlapped) e
    · rename_i e
      exact Keeps.ledWrite (k.withDev k.dev.overlapped) e
    · rename_i e
      exact Keeps.ledWrite (k.withDev k.dev.overlapped) e

theorem Keeps.copyPart {b x p} {r : Run} (h : Keeps s₀ r.s) : Keeps s₀ (copyPart b x r p).s := by
  unfold Machine.copyPart
  dsimp only
  split
  · exact h
  · split
    · exact (h.withDev h.dev.ledRead).runWrite
    · exact (h.withDev h.dev.ledRead).runWrite

theorem Keeps.runCopy {b x} {r : Run} (h : Keeps s₀ r.s) : Keeps s₀ (runCopy b x r).s :=
  h.foldlRun fun _ _ k => k.copyPart

theorem Keeps.runFill {b x} {r : Run} (h : Keeps s₀ r.s) : Keeps s₀ (runFill b x r).s := h.runWrite

theorem Keeps.xtsUnit {b x key k'} {r : Run} (h : Keeps s₀ r.s) : Keeps s₀ (xtsUnit b x key r k').s := by
  unfold Machine.xtsUnit
  dsimp only
  split
  · exact h
  · split
    · exact h.withDev h.dev.ledRead
    · split
      · exact (h.withDev h.dev.ledRead).runWrite
      · exact (h.withDev h.dev.ledRead).runWrite

theorem Keeps.runEncrypt {b x} {r : Run} (h : Keeps s₀ r.s) : Keeps s₀ (runEncrypt b x r).s := by
  unfold Machine.runEncrypt
  dsimp only
  split
  · exact h.withDev h.dev.ledRead
  · exact Keeps.foldlRun (h.withDev h.dev.ledRead) fun _ _ k => k.xtsUnit

theorem Keeps.appendPart {b x p} {r : Run} (h : Keeps s₀ r.s) : Keeps s₀ (appendPart b x r p).s := by
  unfold Machine.appendPart
  dsimp only
  split
  · exact h
  · split
    · exact h.withDev h.dev.ledRead
    · split
      · rename_i _ _ _ _ e8
        exact h.withDev (h.dev.ledRead.ioTo e8)
      · rename_i _ _ _ _ e8
        exact h.withDev (h.dev.ledRead.ioTo e8)
      · rename_i _ _ _ _ _ e8
        exact h.withDev (h.dev.ledRead.ioTo e8)
      · rename_i _ _ _ _ _ _ _ e8
        split
        · exact (h.withDev (h.dev.ledRead.ioTo e8)).runWrite
        · exact h.withDev (h.dev.ledRead.ioTo e8)

theorem Keeps.runAppend {b x} {r : Run} (h : Keeps s₀ r.s) : Keeps s₀ (runAppend b x r).s :=
  h.foldlRun fun _ _ k => k.appendPart

/-- A descriptor's run whose own effect f is kept. -/
theorem Keeps.runDesc {q sq op target f result} (h : Keeps s₀ s) (hf : ∀ b x r, Keeps s₀ r.s → Keeps s₀ (f b x r).s) :
    Keeps s₀ (s.runDesc q sq op target f result) := by
  unfold State.runDesc
  split
  · exact h
  · split
    · exact h
    · exact Keeps.withDev (hf _ _ _ h) (hf _ _ _ h).dev.setDesc

theorem Keeps.runDigest {b x} {r : Run} (h : Keeps s₀ r.s) : Keeps s₀ (runDigest b x r).s := by
  unfold Machine.runDigest
  dsimp only
  split
  · exact h.withDev h.dev.ledRead
  · split
    · exact (h.withDev h.dev.ledRead).runWrite
    · exact h.withDev h.dev.ledRead

theorem Keeps.runCompare {b x} {r : Run} (h : Keeps s₀ r.s) : Keeps s₀ (runCompare b x r).s := by
  unfold Machine.runCompare
  dsimp only
  split
  · exact h.withDev h.dev.ledRead.ledRead
  · exact h.withDev h.dev.ledRead.ledRead

theorem Keeps.msixSend {f e'} (h : Keeps s₀ s) : Keeps s₀ (s.msixSend f e') := by
  unfold State.msixSend
  dsimp only
  split
  · exact h.withDev (h.dev.rest)
  · split
    · exact h.withDev h.dev.irMessage
    · split
      · rename_i _ _ _ _ e8
        exact h.ledWrite e8
      · rename_i _ _ _ _ _ e8
        exact h.ledWrite e8
      · rename_i _ _ _ _ e8
        exact h.ledWrite e8

theorem Keeps.complete {q x} (h : Keeps s₀ s) : Keeps s₀ (s.complete q x) := by
  unfold State.complete
  dsimp only
  split
  · rename_i _ _ e6
    exact h.ledWrite e6
  · rename_i _ _ _ e6
    exact (h.ledWrite e6).withDev (h.ledWrite e6).dev.queueErr
  · rename_i _ _ e6
    exact Keeps.ite ((h.ledWrite e6).withDev (DevKeeps.ite (h.ledWrite e6).dev.setQueue.showQueue.settleRange
        (h.ledWrite e6).dev.setQueue.showQueue).reportDesc).msixSend ((h.ledWrite e6).withDev (DevKeeps.ite
        (h.ledWrite e6).dev.setQueue.showQueue.settleRange (h.ledWrite e6).dev.setQueue.showQueue).reportDesc)

/-! ### Retirement -/

theorem Keeps.portFault {inst} (h : Keeps s₀ s) : Keeps s₀ (s.portFault inst) :=
  Keeps.ite (h.withDev h.dev.setPort.setFld.dutyEvent) (h.withDev h.dev.setPort).retirePort

theorem Keeps.confirmed {kind inst permanent} (h : Keeps s₀ s) : Keeps s₀ (s.confirmed kind inst permanent) :=
  Keeps.ite (h.withDev h.dev.retireChannel) (Keeps.ite (h.withDev h.dev.laneFault) (Keeps.ite h.portFault
      (Keeps.ite (h.withDev h.dev.retireLlcWay) (Keeps.ite (h.withDev h.dev.retireDirWay) (Keeps.ite (h.withDev
      (DevKeeps.ite h.dev.dutyEvent h.dev.rowFault)) h)))))

/-! ### Resets -/

theorem Keeps.preFlush (h : Keeps s₀ s) : Keeps s₀ s.preFlush :=
  h.withDev (h.dev.foldl fun _ _ k => k.flushStore).flushPeat.drainIntakes

theorem Keeps.release {vector} (h : Keeps s₀ s) : Keeps s₀ (s.release vector) := by
  unfold State.release
  split
  · exact h.firstStrand h.dev
  · exact h.noStrands h.dev

theorem Keeps.coldOrWarm {kind p} (h : Keeps s₀ s) : Keeps s₀ (s.coldOrWarm kind p) :=
  ((Keeps.ite h.preFlush h).withDev (DevKeeps.ite (Keeps.ite h.preFlush h).dev.restart.setFld
      (Keeps.ite h.preFlush h).dev.restart.setFld.setReg)).release

theorem Keeps.coldAlone (h : Keeps s₀ s) : Keeps s₀ s.coldAlone :=
  Keeps.ite h.coldOrWarm (h.coldOrWarm.noStrands (h.coldOrWarm.dev.rest))

theorem Keeps.resume {p} (h : Keeps s₀ s) : Keeps s₀ (s.resume p) :=
  (h.withDev (DevKeeps.ite ((DevKeeps.ite h.dev.restart.showResume.setFld.setReg
      h.dev.restart.showResume.setFld).rest) (DevKeeps.ite h.dev.restart.showResume.setFld.setReg
      h.dev.restart.showResume.setFld))).release

theorem Keeps.waitBoot {p} (h : Keeps s₀ s) : Keeps s₀ (s.waitBoot p) :=
  h.noStrands (DevKeeps.ite (h.dev.rest).setFld (h.dev.rest).setFld.setFld.log).setFld.setReg

theorem Keeps.startPath {p} (h : Keeps s₀ s) : Keeps s₀ (s.startPath p) := Keeps.ite h.coldOrWarm h.resume

theorem Keeps.powerOn {p} (h : Keeps s₀ s) : Keeps s₀ (s.powerOn p) := by
  unfold State.powerOn
  dsimp only
  split
  · exact h.noStrands (h.dev.tearDrain.rest)
  · split
    · exact (h.withDev (DevKeeps.ite (DevKeeps.ite (h.dev.tearDrain.rest).log h.dev.tearDrain).stageRecord
          ((DevKeeps.ite (h.dev.tearDrain.rest).log h.dev.tearDrain).rest))).waitBoot
    · split
      · exact (h.withDev (DevKeeps.ite (h.dev.tearDrain.rest).log h.dev.tearDrain)).waitBoot
      · split
        · exact (h.withDev (DevKeeps.ite (h.dev.tearDrain.rest).log h.dev.tearDrain)).startPath
        · split
          · rename_i _ _ _ _ _ _ e10
            exact (h.withDev ((DevKeeps.ite (h.dev.tearDrain.rest).log h.dev.tearDrain).recover e10)).startPath
          · rename_i _ _ _ _ _ e10
            exact (h.withDev (DevKeeps.ite (h.dev.tearDrain.rest).log h.dev.tearDrain).stageRecord).waitBoot

theorem Keeps.warm (h : Keeps s₀ s) : Keeps s₀ s.warm := h.coldOrWarm

theorem Keeps.restartStrand {g} (h : Keeps s₀ s) : Keeps s₀ (s.restartStrand g) := by
  unfold State.restartStrand
  extract_lets x s1 s2 d d2 s3 s4
  have k1 : Keeps s₀ s1 := Keeps.ite h.sealedExit h
  have k3 : Keeps s₀ s3 := k1.resetStrand.withDev k1.resetStrand.dev.addSat.rest
  exact Keeps.wake (k3.setStrand (k3.strandAt.moves fun _ => align4_mod _))

theorem Keeps.resetCtlWrite {req v} (h : Keeps s₀ s) : Keeps s₀ (s.resetCtlWrite req v) := by
  unfold State.resetCtlWrite
  dsimp only
  split
  · split
    · exact h.withDev h.dev.setFld
    · split
      · exact h.withDev h.dev.setFld
      · split
        · exact h.coldAlone
        · split
          · exact h.warm
          · split
            · split
              · exact (h.withDev h.dev.setFld).restartStrand
              · exact h.withDev h.dev.setFld
            · exact h
  · split
    · exact h.withDev h.dev.setFld
    · split
      · exact h.withDev h.dev.setFld
      · split
        · exact h.coldAlone
        · split
          · exact h.warm
          · split
            · split
              · exact (h.withDev h.dev.setFld).restartStrand
              · exact h.withDev h.dev.setFld
            · exact h

/-! ### Register reads -/

theorem Keeps.regRead {r off} (h : Keeps s₀ s) : Keeps s₀ (s.regRead r off).2 := by
  unfold State.regRead
  dsimp only
  split
  · exact h.claimBox
  · split
    · exact h
    · split
      · exact h
      · exact h.withDev h.dev.hole

/-! ### Register writes -/

theorem Keeps.boxStatusWrite {b r off v} (h : Keeps s₀ s) : Keeps s₀ (s.boxStatusWrite b r off v) :=
  Keeps.ite (h.withDev h.dev.writeReg) (h.withDev h.dev.rejectBox)

theorem Keeps.drainStepWrite {v} (h : Keeps s₀ s) : Keeps s₀ (s.drainStepWrite v) :=
  h.foldl fun _ _ k => (Keeps.ite k.startPhase k)

theorem Keeps.refillWrite {req base off v} (h : Keeps s₀ s) : Keeps s₀ (s.refillWrite req base off v) :=
  Keeps.ite h.refillCtlWrite (Keeps.ite (h.withDev h.dev.writeReg) h)

theorem Keeps.socWrite {req base off v} (h : Keeps s₀ s) {t} (e : s.socWrite req base off v = some t)
    : Keeps s₀ t := by
  have k : OptKept s₀ (s.socWrite req base off v) := by
    have dev {d : Dev} (k : DevKeeps s₀.dev d) : Keeps s₀ { s with dev := d } := h.withDev k
    unfold State.socWrite
    exact .choose (dev h.dev.lockWrite) <| .choose (dev h.dev.tickCtlWrite) <| .choose (dev h.dev.resumeInfoWrite) <|
      .choose h.restoreWrite <| .choose h.drainTestWrite <| .choose (dev h.dev.ioqBaseWrite) <|
      .choose (dev h.dev.writeReg.ioqIdle) <| .choose (dev h.dev.evacWrite) <| .choose (dev h.dev.errStatusWrite) <|
      .choose (dev h.dev.errTailWrite) <| .choose h.xplantWrite <| .choose h.drainStepWrite trivial
  rw [e] at k
  exact k

theorem Keeps.unitWrite {req base off v} (h : Keeps s₀ s) {t} (e : s.unitWrite req base off v = some t)
    : Keeps s₀ t := by
  have k : OptKept s₀ (s.unitWrite req base off v) := by
    have dev {d : Dev} (k : DevKeeps s₀.dev d) : Keeps s₀ { s with dev := d } := h.withDev k
    unfold State.unitWrite
    exact .choose (dev h.dev.scrubWrite) <| .choose (dev h.dev.retrainWrite) <| .choose (dev h.dev.rowguardWrite) <|
      .choose (dev h.dev.flCtlWrite) <| .choose (dev h.dev.flRetireWrite) <| .choose (dev h.dev.cacheCtlWrite) <|
      .choose (dev h.dev.cacheCtlWrite) <| .choose h.refillWrite <| .choose h.irSendWrite <|
      .choose (dev h.dev.irInvWrite) <| .choose (dev h.dev.bindWrite) <| .choose (dev h.dev.sliceGoWrite) <|
      .choose (dev h.dev.injArmWrite) <| .choose (dev h.dev.dlogGenWrite) <| .choose (dev h.dev.dlogHeadWrite) <|
      .choose (dev h.dev.clkCtlWrite) <| .choose h.resetCtlWrite <| .choose (dev h.dev.tileClkWrite) trivial
  rw [e] at k
  exact k

theorem Keeps.mailWrite {req base off v} (h : Keeps s₀ s) {t} (e : s.mailWrite req base off v = some t)
    : Keeps s₀ t := by
  have k : OptKept s₀ (s.mailWrite req base off v) := by
    unfold State.mailWrite
    exact .choose h.claimWrite <| .choose h.claimWrite <| .choose (h.boxWrite fun _ k => k.cmdWrite) <|
      .choose (h.boxWrite fun _ k => k.cmdWrite) <| .choose h.boxStatusWrite <| .choose h.boxStatusWrite trivial
  rw [e] at k
  exact k

theorem Keeps.definedWrite {req base off v} (h : Keeps s₀ s) : Keeps s₀ (s.definedWrite req base off v) := by
  unfold State.definedWrite
  split
  · rename_i _ _ e6
    exact h.socWrite e6
  · rename_i _ e6
    split
    · rename_i _ _ _ e7
      exact h.unitWrite e7
    · rename_i _ _ e7
      split
      · rename_i _ _ _ _ e8
        exact h.mailWrite e8
      · rename_i _ _ _ e8
        split
        · rename_i _ _ _ _ _ e9
          exact h.withDev (h.dev.barWrite e9)
        · rename_i _ _ _ _ e9
          exact h.withDev h.dev.writeReg

theorem Keeps.windowWrite {req off v} (h : Keeps s₀ s) : Keeps s₀ (s.windowWrite req off v) :=
  Keeps.ite (h.boxWrite fun _ k => k.bufWrite) (Keeps.ite (h.boxWrite fun _ k => k.bufWrite) h)

theorem Keeps.regWrite {req off v} (h : Keeps s₀ s) : Keeps s₀ (s.regWrite req off v) := by
  unfold State.regWrite
  split
  · exact h.windowWrite
  · split
    · exact h.definedWrite
    · exact Keeps.ite (h.withDev h.dev.hole) h

/-! ### Device accesses -/

theorem Keeps.msixWrite {f k' w} (h : Keeps s₀ s) : Keeps s₀ (s.msixWrite f k' w) :=
  Keeps.ite (h.withDev (h.dev.rest)).msixSend (h.withDev (h.dev.rest))

theorem Keeps.barPut {req f off k' bs} (h : Keeps s₀ s) : Keeps s₀ (s.barPut req f off k' bs) := by
  unfold State.barPut
  dsimp only
  split
  · exact h.msixWrite
  · split
    · exact h.withDev h.dev.bufWrite
    · split
      · exact h
      · exact Keeps.ite h h.regWrite

theorem Keeps.barStore {req f off bs} (h : Keeps s₀ s) : Keeps s₀ (s.barStore req f off bs) :=
  Keeps.ite h (h.foldl fun _ _ k => k.barPut)

theorem Keeps.cfgPut {o bs} (h : Keeps s₀ s) : Keeps s₀ (s.cfgPut o bs) := by
  unfold State.cfgPut
  dsimp only
  split
  · exact h.withDev h.dev.fnCfgWrite
  · exact h.portCfgWrite
  · exact h

theorem Keeps.cfgStore {o bs} (h : Keeps s₀ s) : Keeps s₀ (s.cfgStore o bs) := h.foldl fun _ _ k => k.cfgPut

theorem DevGotKept.ite {c : Prop} [Decidable c] {x y : DevGot} (h : DevGotKept s₀ x) (k : DevGotKept s₀ y) :
    DevGotKept s₀ (if c then x else y) := by
  split
  · exact h
  · exact k

theorem Keeps.windowLoad {pa n c} (h : Keeps s₀ s) {y} (e : s.windowLoad pa n c = y) : DevGotKept s₀ y := by
  subst e
  unfold State.windowLoad
  extract_lets d
  split
  · split
    · exact DevGotKept.ite trivial h
    · exact h
  · refine DevGotKept.ite (h.withDev h.dev.drawLine) ?_
    split
    · exact h
    · split
      · trivial
      · exact DevGotKept.ite (DevGotKept.ite (h.withDev h.dev.lostAt) (h.withDev h.dev.lostAt)) trivial
  · trivial

theorem Keeps.windowStore {req pa bs c} (h : Keeps s₀ s) : Keeps s₀ (s.windowStore req pa bs c) := by
  unfold State.windowStore
  extract_lets d
  split
  · exact h.cfgStore
  · refine Keeps.ite h ?_
    split
    · exact h.barStore
    · split
      · exact h
      · exact Keeps.ite (h.withDev h.dev.lostAt) (Keeps.ite h (h.withDev h.dev.setPort))
  · exact h

/-! ### Accesses -/

theorem Keeps.access {g va n k' rule} (h : Keeps s₀ s) : DevKeeps s₀.dev (s.access g va n k' rule).2 :=
  h.dev.tryParts

theorem DevKeeps.busError {g va pa} {d} (h : DevKeeps s₀.dev d) : FlowKept s₀ (d.busError g va pa) := h.unclaimed

theorem DevKeeps.dataError {g va line src} {d} (h : DevKeeps s₀.dev d) : FlowKept s₀ (d.dataError g va line src) :=
  h.consumed

theorem Keeps.sbPush {g kind pa key bs rel} (h : Keeps s₀ s) : Keeps s₀ (s.sbPush g kind pa key bs rel) :=
  h.setStrand (h.strandAt.rest)

theorem Keeps.deviceLoad {g va n signed dst p} (h : Keeps s₀ s) : FlowKept s₀ (s.deviceLoad g va n signed dst p) := by
  unfold State.deviceLoad
  dsimp only
  split
  · exact h
  · split
    · split
      · exact h.regRead.setStrand h.regRead.strandAt.setRef
      · exact (h.withDev h.dev.drawWord).setStrand (h.withDev h.dev.drawWord).strandAt.setRef
    · split
      · rename_i _ _ _ _ _ _ e8
        exact (h.windowLoad e8).setStrand (h.windowLoad e8).strandAt.setRef
      · rename_i _ _ _ _ _ e8
        exact (h.withDev h.dev.setPort).setStrand (h.strandAt.rest)
      · rename_i _ _ _ _ _ _ e8
        exact (h.windowLoad e8).dev
      · rename_i _ _ _ _ e8
        exact h.dev.busError

theorem Keeps.memoryLoad {g n signed dst ps} (h : Keeps s₀ s) : FlowKept s₀ (s.memoryLoad g n signed dst ps) := by
  unfold State.memoryLoad
  extract_lets x mem r s1 s2 s3
  have k : DevKeeps s₀.dev r.dev := h.dev.foldlBy Read.dev fun _ _ k => k.piece
  split
  · exact h.count
  · split
    · exact k.dataError
    · exact k.busError
    · have k2 : Keeps s₀ s2 := Keeps.ite (h.withDev k).count (h.withDev k)
      have k3 : Keeps s₀ s3 := Keeps.ite k2.count k2
      exact k3.setStrand k3.strandAt.setRef

theorem Keeps.loadData {g va n signed dst ps} (h : Keeps s₀ s) : FlowKept s₀ (s.loadData g va n signed dst ps) := by
  unfold State.loadData
  dsimp only
  split
  · exact h.deviceLoad
  · split
    · exact h
    · exact h.memoryLoad

theorem Keeps.load {g va n signed dst} (h : Keeps s₀ s) : FlowKept s₀ (s.load g va n signed dst) := by
  unfold State.load
  dsimp only
  split
  · exact h.access
  · exact (h.withDev h.access).loadData

theorem Keeps.storeFault {g p} (h : Keeps s₀ s) {y} (e : s.storeFault g p = some y) : FlowKept s₀ y := by
  unfold State.storeFault at e
  split at e
  · cases e
    exact h.dev.busError
  · split at e
    · cases e
    · cases e
      exact h.dev.busError
    · cases e
      exact h.dev.lostAt

theorem Keeps.sbPieces {g bs rel a} (h : Keeps s₀ s) : Keeps s₀ (s.sbPieces g bs rel a) := by
  induction a generalizing s bs with
  | nil => exact h
  | cons p ps ih => exact ih h.sbPush

theorem Keeps.storeData {g bs rel ps} (h : Keeps s₀ s) : FlowKept s₀ (s.storeData g bs rel ps) := by
  unfold State.storeData
  split
  · rename_i f hf
    obtain ⟨p, -, e⟩ := List.mem_filterMap.1 (List.mem_of_head? hf)
    exact h.storeFault e
  · split
    · exact h
    · exact Keeps.sbPieces (Keeps.ite h.count h)

theorem Keeps.store {g va bs rel} (h : Keeps s₀ s) : FlowKept s₀ (s.store g va bs rel) := by
  unfold State.store
  dsimp only
  split
  · exact h.access
  · exact (h.withDev h.access).storeData

theorem Keeps.sbPop {g} (h : Keeps s₀ s) : Keeps s₀ (s.sbPop g) := h.setStrand (h.strandAt.rest)

theorem Keeps.sbHead {g f} (h : Keeps s₀ s) : Keeps s₀ (s.sbHead g f) := by
  unfold State.sbHead
  dsimp only
  split
  · exact h
  · exact h.setStrand (h.strandAt.rest)

theorem Keeps.sbWait {g e'} (h : Keeps s₀ s) : Keeps s₀ (s.sbWait g e') :=
  Keeps.ite h (h.withDev h.dev.addSat).sbHead

/-- A store to a Device or Peat line whose sending is kept. -/
theorem Keeps.leaveDirect {g e' send} (h : Keeps s₀ s) (hf : ∀ d, DevKeeps s₀.dev d → DevKeeps s₀.dev (send d)) :
    Keeps s₀ (s.leaveDirect g e' send) := by
  unfold State.leaveDirect
  have k : Keeps s₀ { s with dev := send (s.dev.payDirect (s.dev.phys (g / 2)) (e'.pa / 64)) } :=
    h.withDev (hf _ h.dev.payDirect)
  refine Keeps.ite (Keeps.ite h h.sbPop) (Keeps.ite h.sbWait (Keeps.ite k.sbHead k.sbPop))

theorem Keeps.leaveWb {g e'} (h : Keeps s₀ s) : Keeps s₀ (s.leaveWb g e') := by
  unfold State.leaveWb
  dsimp only
  split
  · exact Keeps.ite (h.leaveDirect fun _ k => k.homeStore.tagDirect) (Keeps.ite
        (h.withDev h.dev.homeStore).sbPop h.sbPop)
  · split
    · split
      · split
        · exact h.sbWait
        · rename_i e
          exact (h.withDev (h.dev.trackStore e).writeLine).sbPop
      · exact (h.withDev h.dev.writeLine).sbPop
    · exact h.withDev h.dev.askToOwn

theorem Keeps.leaveBypass {g e'} (h : Keeps s₀ s) : Keeps s₀ (s.leaveBypass g e') :=
  Keeps.ite (h.leaveDirect fun _ k => k.directWrite) (h.withDev h.dev.bypassWrite).sbPop

theorem Keeps.leaveDevice {g e'} (h : Keeps s₀ s) : Keeps s₀ (s.leaveDevice g e') := by
  unfold State.leaveDevice
  dsimp only
  split
  · exact h.leaveBypass
  · exact h.leaveBypass
  · exact Keeps.ite h.sbPop.regWrite h.sbPop
  · exact h.sbPop
  · exact h.sbPop.windowStore

theorem Keeps.leaveStash {g e' target} (h : Keeps s₀ s) : Keeps s₀ (s.leaveStash g e' target) :=
  Keeps.ite h (h.withDev (DevKeeps.ite h.dev.checkLine.dropLine.trackSent h.dev.checkLine.dropLine).requestLine).sbPop

theorem Keeps.leavePstnt {g e'} (h : Keeps s₀ s) : Keeps s₀ (s.leavePstnt g e') := Keeps.ite h.sbPop h

/-! ### Atomics -/

theorem Keeps.atomicNear {g t' d' p} (h : Keeps s₀ s) : FlowKept s₀ (s.atomicNear g t' d' p) := by
  unfold State.atomicNear
  extract_lets c line dv l old tracked
  have kd : DevKeeps s₀.dev dv := h.dev.checkLine
  split
  · exact kd.dataError
  · split
    · exact Keeps.setN (h.withDev kd)
    · rcases hd : tracked with _ | dv'
      · exact h
      · have kt : DevKeeps s₀.dev dv' := by
          change (if isPeat line then dv.trackStore c (g % 2) line else some dv) = some dv' at hd
          split at hd
          · exact kd.trackStore hd
          · cases hd
            exact kd
        exact Keeps.setN (h.withDev kt.writeLine)

theorem Keeps.atomicFar {g t' d' p} (h : Keeps s₀ s) : FlowKept s₀ (s.atomicFar g t' d' p) := by
  unfold State.atomicFar
  dsimp only
  split
  · exact (h.withDev h.dev.drawWord).long
  · split
    · exact h
    · split
      · exact h.dev.homeRmw.dataError
      · split
        · exact ((h.withDev h.dev.homeRmw.payDirect.tagDirect).setStrand (h.strandAt.rest)).long
        · exact (h.withDev h.dev.homeRmw).long

theorem Keeps.atomicData {g f t' d' p} (h : Keeps s₀ s) : FlowKept s₀ (s.atomicData g f t' d' p) := by
  unfold State.atomicData
  dsimp only
  split
  · exact h.dev.busError
  · split
    · exact h
    · split
      · exact h.atomicFar
      · split
        · exact h.atomicNear
        · exact h.withDev h.dev.askToOwn

theorem Keeps.atomic {g op n e'} (h : Keeps s₀ s) : FlowKept s₀ (s.atomic g op n e') := by
  unfold State.atomic
  dsimp only
  split
  · exact h.dev
  · split
    · exact h.access
    · exact (h.withDev h.access).atomicData
    · exact h

/-! ### Branches -/

/-- A transfer to an instruction's address. -/
theorem Keeps.transfer {g execSlot taken target link ras} (h : Keeps s₀ s)
    (ht : strandsOk s₀ → target.toNat % 4 = 0) : Keeps s₀ (s.transfer g execSlot taken target link ras) := by
  unfold State.transfer
  extract_lets s1 x next old y s2 s3 s4
  have fx : Fit s₀ x := h.count.strandAt
  have hn : strandsOk s₀ → next.toNat % 4 = 0 := fun o => by
    change (if taken then target else x.pc + 8).toNat % 4 = 0
    split
    · exact ht o
    · exact add_mod_four (fx o).pc rfl
  have fy : Fit s₀ y := by
    change Fit s₀ (match link with
      | none => x
      | some r => x.setN r (x.pc + 8))
    split
    · exact fx
    · exact fx.setN
  have k4 : Keeps s₀ s4 := Keeps.count (h.count.setStrand (fy.step.moves hn))
  exact Keeps.ite (h.count.setStrand (fy.step.inSlot (fun o => add_mod_four (fx o).pc rfl)
      fun o => ⟨(fx o).pc, hn o⟩))
    (Keeps.ite k4.btbLearn k4)

theorem Keeps.countDirect {g target usesBtb} (h : Keeps s₀ s) : Keeps s₀ (s.countDirect g target usesBtb) :=
  Keeps.ite h.count h

/-! ### Loads and stores -/

theorem Keeps.gatherData {g d' ps} (h : Keeps s₀ s) : FlowKept s₀ (s.gatherData g d' ps) := by
  unfold State.gatherData
  extract_lets x mem r s1 s2
  have k : DevKeeps s₀.dev r.dev := h.dev.foldlBy Read.dev fun _ _ k => k.piece
  split
  · exact h.count
  · split
    · exact k.dataError
    · exact k.busError
    · exact Keeps.setV (Keeps.ite (h.withDev k).count (h.withDev k))

/-! ### The memory system -/

theorem Keeps.stash {g va target} (h : Keeps s₀ s) : FlowKept s₀ (s.stash g va target) := by
  unfold State.stash
  dsimp only
  split
  · exact h.withDev h.access.addSat
  · split
    · exact h.withDev h.access
    · split
      · exact (h.withDev h.access).sbPush
      · exact h.withDev h.access

theorem Keeps.cflush {g p} (h : Keeps s₀ s) : FlowKept s₀ (s.cflush g p) := by
  unfold State.cflush
  dsimp only
  split
  · exact h
  · exact h.withDev h.dev.requestLine

/-- An operation on a line, whose own effect f is kept. -/
theorem Keeps.lineOp {g va f} (h : Keeps s₀ s) (hf : ∀ t p, Keeps s₀ t → FlowKept s₀ (f t p)) :
    FlowKept s₀ (s.lineOp g va f) := by
  unfold State.lineOp
  dsimp only
  split
  · exact h.access
  · split
    · exact h.withDev h.access
    · exact hf _ _ (h.withDev h.access)

theorem Keeps.pwb {g p} (h : Keeps s₀ s) : FlowKept s₀ (s.pwb g p) := by
  unfold State.pwb
  dsimp only
  split
  · exact h
  · split
    · split
      · exact h
      · exact h.withDev (DevKeeps.ite h.dev.setTracker h.dev).writeBack
    · split
      · exact h
      · split
        · exact (h.withDev (h.dev.requestLine.rest)).setStrand (h.strandAt.rest)
        · exact h.withDev h.dev.requestLine

theorem Keeps.pstnt {g va bs} (h : Keeps s₀ s) : FlowKept s₀ (s.pstnt g va bs) := by
  unfold State.pstnt
  dsimp only
  split
  · exact h.dev
  · split
    · exact h.access
    · exact h
    · split
      · rename_i hf
        exact (h.withDev h.access).storeFault hf
      · split
        · exact h.withDev h.access
        · exact Keeps.sbPush (h.withDev h.access)

theorem Keeps.tinv {g o} (h : Keeps s₀ s) : FlowKept s₀ (s.tinv g o) := by
  unfold State.tinv
  dsimp only
  split
  · split
    · exact h.withDev (h.dev.rest)
    · split
      · exact h
      · exact h.withDev (h.dev.tinvApply.rest)
  · exact h.withDev (h.dev.rest)

/-! ### System instructions -/

theorem Keeps.runCycles {g} (h : Keeps s₀ s) : Keeps s₀ (s.runCycles g) :=
  (h.withDev h.dev.drawWord).setStrand (h.strandAt.rest)

theorem Keeps.askMode {g v} (h : Keeps s₀ s) : Keeps s₀ (s.askMode g v) :=
  (Keeps.ite h.count h).withDev (Keeps.ite h.count h).dev.setPm

theorem Keeps.endModeDrain {l} (h : Keeps s₀ s) : Keeps s₀ (s.endModeDrain l) :=
  Keeps.ite (h.count.withDev h.count.dev.setPm).wake (h.count.withDev h.count.dev.setPm)

theorem Keeps.finishLong {g k' dst val} (h : Keeps s₀ s) : Keeps s₀ (s.finishLong g k' dst val) :=
  h.setStrand (h.strandAt.rest).setRef

theorem Keeps.settleCore {g} (h : Keeps s₀ s) : Keeps s₀ (s.settleCore g) := Keeps.ite (h.withDev h.dev.setFld) h

/-! ### Sealed domains -/

/-- The answer to a command of the security engine whose effect is kept. -/
theorem Keeps.answer {g r p a} (h : Keeps s₀ s) (ha : SeKept s₀ a) : FlowKept s₀ (s.answer g r p a) := by
  cases a with
  | refuse st => exact Keeps.setN (h.withDev h.dev.drawWord)
  | done a b t => exact Keeps.setN (Keeps.withDev ha ha.dev.resultWord.resultWord.writeResults)
  | moved t => exact ha
  | wait => exact h

/-- A command on a 64-byte block, whose own effect f is kept. -/
theorem Keeps.secallBlock {g va f} (h : Keeps s₀ s) (hf : ∀ t p b, Keeps s₀ t → FlowKept s₀ (f t p b)) :
    FlowKept s₀ (s.secallBlock g va f) := by
  unfold State.secallBlock
  extract_lets r w s1
  split
  · exact h.dev
  · have kw : Keeps s₀ s1 := h.withDev (Keeps.access (h.withDev h.access))
    split
    · exact kw.dev
    · exact h
    · split
      · exact kw.dev.busError
      · split
        · exact kw
        · extract_lets q
          split
          · exact DevKeeps.dataError kw.dev.readLine
          · exact hf _ _ _ (kw.withDev kw.dev.readLine)

theorem Keeps.enterDomain {g dom i} (h : Keeps s₀ s) : Keeps s₀ (s.enterDomain g dom i) := by
  have fx : Fit s₀ (((s.count g 1).strand g).step 1) := h.count.strandAt.step
  exact Keeps.enterVcpu (h.count.setStrand (fx.withStatus fun o => (fx o).status.level (by decide) (by decide)))

theorem Keeps.exitDomain {g d'} (h : Keeps s₀ s) : Keeps s₀ (s.exitDomain g d') := by
  unfold State.exitDomain
  exact h.enter (.inl rfl)

end Sys2Proof.Proofs
end

