-- ==== Sys2Proof/Proofs/CommandShapes.lean ====
section
/-!
PROOFS. The shapes that commands share, and what a command of each shape answers: a kept state (`Goes`), unless it names a
unit that the socket does not have (`Answers`).
-/

namespace Sys2Proof.Proofs

open Sys2Proof Sys2Proof.Machine Sys2Proof.Laws

variable {s₀ s t : State}

variable {o p : Host.Outcome State Fault Refusal} {ok : Bool}

/-- An outcome of a command in the state s: the next state is kept, and there is one if the clocks keep their relations. -/
structure Goes (s₀ s : State) (o : Host.Outcome State Fault Refusal) : Prop where
  kept : ∀ t, o = .next t → Keeps s₀ t
  runs : s.dev.clocksOk = true → ∃ t, o = .next t

/-- The outcome of a command that names units of the socket exactly if ok. -/
structure Answers (s₀ s : State) (o : Host.Outcome State Fault Refusal) (ok : Bool) : Prop where
  goes : ok = true → Goes s₀ s o
  stops : ok = false → o = .fault .noSuchUnit

theorem Goes.next (h : Keeps s₀ t) : Goes s₀ s (.next t) :=
  ⟨fun _ e => by cases e; exact h, fun _ => ⟨t, rfl⟩⟩

theorem Goes.ite {c : Prop} [Decidable c] (h : Goes s₀ s o) (k : Goes s₀ s p) : Goes s₀ s (if c then o else p) := by
  split
  · exact h
  · exact k

theorem Goes.clocks (h : Goes s₀ s o) : Goes s₀ s (if !s.dev.clocksOk then .fault .outsideClockRelations else o) := by
  split
  · rename_i hc
    exact ⟨(fun _ e => by cases e), fun h => by simp [h] at hc⟩
  · exact h

theorem Goes.clocked (h : Goes s₀ s o) : Goes s₀ s (if s.dev.clocksOk then o else .fault .outsideClockRelations) := by
  split
  · exact h
  · rename_i hc
    exact ⟨(fun _ e => by cases e), fun h => absurd h hc⟩

theorem Answers.guard (h : Goes s₀ s o) : Answers s₀ s (if !ok then .fault .noSuchUnit else o) ok :=
  ⟨fun e => by rw [if_neg (by simp [e])]; exact h, fun e => if_pos (by simp [e])⟩

theorem Answers.guarded (h : Goes s₀ s o) : Answers s₀ s (if ok then o else .fault .noSuchUnit) ok :=
  ⟨fun e => by rw [if_pos e]; exact h, fun e => if_neg (by simp [e])⟩

theorem Answers.guardedBy {c : Prop} [Decidable c] (h : Goes s₀ s o) :
    Answers s₀ s (if c then o else .fault .noSuchUnit) (decide c) :=
  ⟨fun e => by rw [if_pos (by simpa using e)]; exact h, fun e => if_neg (by simpa using e)⟩

theorem Answers.guardBelow {m n : Nat} (h : Goes s₀ s o) :
    Answers s₀ s (if n ≤ m then .fault .noSuchUnit else o) (decide (m < n)) :=
  ⟨fun e => by rw [if_neg (by simpa using e)]; exact h, fun e => if_pos (by simpa using e)⟩

theorem Answers.congr {ok' : Bool} (h : Answers s₀ s o ok) (e : ok = ok') : Answers s₀ s o ok' := e ▸ h

/-- A command that names no unit. -/
theorem Answers.always (h : Goes s₀ s o) : Answers s₀ s o true := ⟨fun _ => h, fun e => by cases e⟩

/-! ### The shapes that commands share -/

theorem Keeps.onDev {f} (h : Keeps s₀ s) (hf : DevKeeps s₀.dev (f s.dev)) : Answers s₀ s (onDev ok s f) ok :=
  .guarded (.next (h.withDev hf))

theorem Keeps.onData {f} (h : Keeps s₀ s) (hf : DevKeeps s₀.dev (f s.dev)) : Answers s₀ s (onData ok s f) ok :=
  .guard (.clocked (.next (h.withDev hf)))

theorem Keeps.onMessage {m f} (h : Keeps s₀ s) (hf : ∀ t, Keeps s₀ t → Keeps s₀ (f t)) :
    Answers s₀ s (onMessage ok m f s) ok :=
  .guard (.clocks (.next (hf _ (h.withDev h.dev.arrive))))

theorem Keeps.onLedger {f} (h : Keeps s₀ s) (hf : ∀ t, Keeps s₀ t → Keeps s₀ (f t)) :
    Answers s₀ s (onLedger ok f s) ok :=
  .guard (.clocked (.next (hf _ h)))

/-- Whatever the checks of an instruction answer, the state that goes with it is kept. -/
@[reducible] def IssueKept (s₀ : State) : Issue → Prop
  | .held s => Keeps s₀ s
  | .exc s _ => Keeps s₀ s
  | .run s => Keeps s₀ s

theorem IssueKept.ite {c : Prop} [Decidable c] {i j : Issue} (h : IssueKept s₀ i) (k : IssueKept s₀ j) :
    IssueKept s₀ (if c then i else j) := by
  split
  · exact h
  · exact k

theorem Keeps.issue {g i} (h : Keeps s₀ s) : IssueKept s₀ (s.issue g i) := by
  unfold State.issue
  extract_lets s1 x n
  have k : Keeps s₀ s1 := Keeps.ite h.closeShadow h
  refine IssueKept.ite h (IssueKept.ite k ?_)
  split
  · rename_i e
    exact IssueKept.ite (k.withDev (k.fetch e)) k
  · rename_i d e
    extract_lets s2 stop
    have k2 : Keeps s₀ s2 := k.withDev (k.fetch e)
    have hs (e : Exc) : IssueKept s₀ (stop e) := IssueKept.ite k2 k
    exact .ite (hs _) (.ite (hs _) (.ite (hs _) (.ite (hs _) (.ite (hs _) (.ite k k2)))))

theorem Keeps.runInsn {g i body} (h : Keeps s₀ s) (hf : ∀ t, Keeps s₀ t → FlowKept s₀ (body t)) :
    Answers s₀ s (runInsn g s i body) (strandOk g) := by
  unfold Machine.runInsn
  refine .guard (.clocks ?_)
  have ki : IssueKept s₀ (s.issue g i) := h.issue
  split
  · rename_i e
    rw [e] at ki
    exact .next ki
  · rename_i e
    rw [e] at ki
    exact .next (Keeps.raise ki)
  · rename_i s' e
    have k : Keeps s₀ s' := by
      rw [e] at ki
      exact ki
    have kb := hf s' k
    split
    · rename_i e
      rw [e] at kb
      exact .next (Keeps.retire kb)
    · rename_i e
      rw [e] at kb
      exact .next kb
    · rename_i e
      rw [e] at kb
      exact .next kb
    · rename_i e
      rw [e] at kb
      exact .ite (.next (Keeps.raise (k.withDev kb))) (.next k)

end Sys2Proof.Proofs
end

