-- ==== Sys2Proof/Proofs/CommandsKeep.lean ====
section
/-!
PROOFS. What each command answers (`Answers`), in the order of the model: the commands of the units.
-/

namespace Sys2Proof.Proofs

open Sys2Proof Sys2Proof.Machine Sys2Proof.Laws

variable {s₀ s : State}

/-! ### The register space -/

theorem Keeps.execUndefinedOffsetAccess {req off write} (h : Keeps s₀ s) :
    Answers s₀ s (execUndefinedOffsetAccess req off write s) (reqOk req && off < 2 ^ 28) :=
  h.onDev (DevKeeps.ite h.dev.hole h.dev)

theorem Keeps.execWarmSpare {c} (h : Keeps s₀ s) : Answers s₀ s (execWarmSpare c s) (coreOk c) :=
  h.onDev (DevKeeps.ite h.dev.emptyCore.setCoreState.setFld h.dev)

theorem Keeps.execStewardWatchdogRestart (h : Keeps s₀ s) : Answers s₀ s (execStewardWatchdogRestart s) true :=
  h.onDev h.dev.addSat.setFld.bmcEvent.log

/-! ### Coherence -/

theorem Keeps.execRds {g src u m} (h : Keeps s₀ s) : Answers s₀ s (execRds g src u m s) (lineOk g && agentOk src) :=
  h.onMessage fun _ k => k.homeRequest

theorem Keeps.execRdx {g src m} (h : Keeps s₀ s) : Answers s₀ s (execRdx g src m s) (lineOk g && agentOk src) :=
  h.onMessage fun _ k => k.homeRequest

theorem Keeps.execUpg {g src} (h : Keeps s₀ s) : Answers s₀ s (execUpg g src s) (lineOk g && agentOk src) :=
  h.onMessage fun _ k => k.homeRequest

theorem Keeps.execStashRequest {g src target mask bytes} (h : Keeps s₀ s) :
    Answers s₀ s (execStashRequest g src target mask bytes s) (lineOk g && agentOk src) :=
  h.onMessage fun _ k => k.homeRequest

theorem Keeps.execFarAtomicRequest {g src op dbl off operand expected} (h : Keeps s₀ s) :
    Answers s₀ s (execFarAtomicRequest g src op dbl off operand expected s) (lineOk g && agentOk src && off +
        (if dbl then 8 else 4) ≤ 64) :=
  h.onMessage fun _ k => k.homeRequest

theorem Keeps.execWbm {g src seq k bytes poison} (h : Keeps s₀ s) :
    Answers s₀ s (execWbm g src seq k bytes poison s) (lineOk g && agentOk src) := by
  unfold Machine.execWbm
  extract_lets d0 d
  have k : DevKeeps s₀.dev d := h.dev.makeWriteback.arrive
  refine .guard (.clocks ?_)
  split
  · exact .next h
  · rename_i e
    split at e
    · cases e
    · exact .next (Keeps.afterClose (h.withDev (k.wbmAt e)))

theorem Keeps.execEvc {g src bytes poison} (h : Keeps s₀ s) :
    Answers s₀ s (execEvc g src bytes poison s) (lineOk g && agentOk src) := by
  unfold Machine.execEvc
  extract_lets d0 d
  have k : DevKeeps s₀.dev d := h.dev.makeWriteback.arrive
  refine .guard (.clocks ?_)
  split
  · exact .next h
  · rename_i e
    split at e
    · cases e
    · exact .next (Keeps.afterClose (h.withDev (k.evcAt e)))

theorem Keeps.execFwds {c g requester u m} (h : Keeps s₀ s) :
    Answers s₀ s (execFwds c g requester u m s) (coreOk c && lineOk g && agentOk requester) :=
  h.onMessage fun _ k => k.withDev k.dev.answerFwdS

theorem Keeps.execFwdx {c g requester rcl} (h : Keeps s₀ s) :
    Answers s₀ s (execFwdx c g requester rcl s) (coreOk c && lineOk g && agentOk requester) :=
  h.onMessage fun _ k => k.withDev k.dev.answerFwdX

theorem Keeps.execInv {c g} (h : Keeps s₀ s) : Answers s₀ s (execInv c g s) (coreOk c && lineOk g) :=
  h.onMessage fun _ k => k.withDev k.dev.answerInv

theorem Keeps.execAckFwd {g src ghost d} (h : Keeps s₀ s) :
    Answers s₀ s (execAckFwd g src ghost d s) (lineOk g && agentOk src) := h.onMessage fun _ k => k.ackFwdAt

theorem Keeps.execAckInv {g src} (h : Keeps s₀ s) : Answers s₀ s (execAckInv g src s) (lineOk g && agentOk src) :=
  h.onMessage fun _ k => k.ackInvAt

theorem Keeps.execAckGrant {c g st seq} (h : Keeps s₀ s) :
    Answers s₀ s (execAckGrant c g st seq s) (coreOk c && lineOk g) :=
  h.onMessage fun _ k => k.withDev k.dev.grantAtCore

theorem Keeps.execAckWb {c g p} (h : Keeps s₀ s) : Answers s₀ s (execAckWb c g p s) (coreOk c && lineOk g) :=
  h.onMessage fun _ k => k.withDev k.dev.wbAckAtCore

theorem Keeps.execAckDone {g src} (h : Keeps s₀ s) : Answers s₀ s (execAckDone g src s) (lineOk g && agentOk src) :=
  h.onMessage fun _ k => k.doneAt

theorem Keeps.execAckHint {g src} (h : Keeps s₀ s) : Answers s₀ s (execAckHint g src s) (lineOk g && agentOk src) :=
  h.onMessage fun _ k => k.hintAt

theorem Keeps.execAbsent {g src} (h : Keeps s₀ s) : Answers s₀ s (execAbsent g src s) (lineOk g && agentOk src) :=
  h.onMessage fun _ k => k.absentAt

theorem Keeps.execData {dst src g bytes d p t'} (h : Keeps s₀ s) :
    Answers s₀ s (execData dst src g bytes d p t' s) ((dst.map agentOk).getD true && agentOk src && lineOk g) := by
  refine (h.onMessage fun _ k => ?_).congr (by ac_rfl)
  split
  · exact k.dataAtHome
  · exact k.withDev k.dev.dataAtCore
  · exact k

theorem Keeps.execRetry {c g} (h : Keeps s₀ s) : Answers s₀ s (execRetry c g s) (coreOk c && lineOk g) := by
  refine h.onMessage fun _ k => ?_
  split
  · exact k
  · exact k.withDev k.dev.setMshr

theorem Keeps.execRequestResend {c g} (h : Keeps s₀ s) : Answers s₀ s (execRequestResend c g s)
    (coreOk c && lineOk g) := by
  refine h.onData ?_
  split
  · exact h.dev
  · exact DevKeeps.ite h.dev h.dev.toHome

theorem Keeps.execForwardTimeout {g dst} (h : Keeps s₀ s) :
    Answers s₀ s (execForwardTimeout g dst s) (lineOk g && agentOk dst) := by
  refine h.onMessage fun _ k => ?_
  split
  · exact k.dropSocketAt
  · exact k

theorem Keeps.execSocketRemoval {d} (h : Keeps s₀ s) : Answers s₀ s (execSocketRemoval d s) (d < 8) :=
  h.onMessage fun _ k => Keeps.ite k k.removeSocket

/-! ### Caches -/

theorem Keeps.execCacheEnable {req t' u v} (h : Keeps s₀ s) :
    Answers s₀ s (execCacheEnable req t' u v s) (reqOk req && t' < 144 && unitOk u) := h.onDev h.dev.cacheCtlWrite

theorem Keeps.execCacheDisable {req t' u v} (h : Keeps s₀ s) :
    Answers s₀ s (execCacheDisable req t' u v s) (reqOk req && t' < 144 && unitOk u) := h.onDev h.dev.cacheCtlWrite

theorem Keeps.execDisableComplete {t' x} (h : Keeps s₀ s) :
    Answers s₀ s (execDisableComplete t' x s) (t' < 144 && arrayOk x) := by
  refine h.onDev ?_
  split
  · exact DevKeeps.ite h.dev.coreDisabled h.dev
  · exact DevKeeps.ite h.dev.coreDisabled h.dev
  · exact DevKeeps.ite h.dev.coreDisabled h.dev
  · exact DevKeeps.ite h.dev.flushWay.setFld.setFld.setUnclean h.dev

/-! ### Memory channels -/

theorem Keeps.execMemoryRead {g group keyid chk} (h : Keeps s₀ s) :
    Answers s₀ s (execMemoryRead g group keyid chk s) (lineOk g && group < 16 && keyid < 65536) :=
  h.onData (DevKeeps.ite h.dev (DevKeeps.ite h.dev.acceptReq (DevKeeps.ite h.dev.acceptReq.log
      (DevKeeps.ite h.dev.acceptReq.demandMove h.dev.acceptReq.checkRead.setBad))))

theorem Keeps.execMemoryWrite {g group keyid bytes poison} (h : Keeps s₀ s) :
    Answers s₀ s (execMemoryWrite g group keyid bytes poison s) (lineOk g && group < 16 && keyid < 65536) :=
  h.onData (DevKeeps.ite h.dev (DevKeeps.ite h.dev.acceptReq
      (DevKeeps.ite h.dev.acceptReq h.dev.acceptReq.demandMove).homeWrite))

theorem Keeps.execRefresh {n} (h : Keeps s₀ s) : Answers s₀ s (execRefresh n s) (n < 16) :=
  h.onData (DevKeeps.ite h.dev.setChan h.dev)

theorem Keeps.execRetrainingPause {n} (h : Keeps s₀ s) : Answers s₀ s (execRetrainingPause n s) (n < 16) :=
  h.onData (DevKeeps.ite h.dev (DevKeeps.ite (DevKeeps.ite h.dev.pause h.dev.pauseDue) h.dev.pause))

theorem Keeps.execDimmThermalRead {n temp} (h : Keeps s₀ s) : Answers s₀ s (execDimmThermalRead n temp s) (n < 16) :=
  h.onDev (DevKeeps.ite h.dev.setFld.setChan h.dev.setFld)

theorem Keeps.execCoefficientStore {n coeff} (h : Keeps s₀ s) : Answers s₀ s (execCoefficientStore n coeff s)
    (n < 16) :=
  h.onDev h.dev.setChan

theorem Keeps.execRetrainGo {req n v} (h : Keeps s₀ s) : Answers s₀ s (execRetrainGo req n v s)
    (reqOk req && n < 16) :=
  h.onDev h.dev.retrainWrite

theorem Keeps.execNeighbourRefresh {n bank row} (h : Keeps s₀ s) :
    Answers s₀ s (execNeighbourRefresh n bank row s) (n < 16 && bank < 512 && row < 2 ^ 18) :=
  h.onData (DevKeeps.ite h.dev (DevKeeps.ite h.dev.setBankRows (DevKeeps.ite h.dev.setBankRows.setBankRows
      (DevKeeps.ite (DevKeeps.ite h.dev.setBankRows.setChan.showHeldRows.dutyEvent
      h.dev.setBankRows.setChan.showHeldRows) h.dev.setBankRows.setBankRows.setFld))))

theorem Keeps.execRowguardTableClear {n} (h : Keeps s₀ s) : Answers s₀ s (execRowguardTableClear n s) (n < 16) :=
  h.onDev (DevKeeps.ite h.dev.setChan h.dev)

theorem Keeps.execRowguardRelease {req n v} (h : Keeps s₀ s) :
    Answers s₀ s (execRowguardRelease req n v s) (reqOk req && n < 16) := h.onDev h.dev.rowguardWrite

theorem Keeps.execPatrolScrub {n chk} (h : Keeps s₀ s) : Answers s₀ s (execPatrolScrub n chk s) (n < 16) :=
  h.onData (DevKeeps.ite h.dev (DevKeeps.ite h.dev.acceptReq (DevKeeps.ite h.dev.acceptReq.checkRead.patrolNext
      (DevKeeps.ite h.dev.acceptReq.checkRead.setFld.setFld.setFld.dutyEvent
      h.dev.acceptReq.checkRead.scrubLine.patrolNext))))

theorem Keeps.execScrubRewrite {req n v} (h : Keeps s₀ s) :
    Answers s₀ s (execScrubRewrite req n v s) (reqOk req && n < 16) := h.onDev h.dev.scrubWrite

theorem Keeps.execScrubSkip {req n v} (h : Keeps s₀ s) : Answers s₀ s (execScrubSkip req n v s)
    (reqOk req && n < 16) :=
  h.onDev h.dev.scrubWrite

theorem Keeps.execEvacStart {req v} (h : Keeps s₀ s) : Answers s₀ s (execEvacStart req v s) (reqOk req) :=
  h.onDev h.dev.evacWrite

theorem Keeps.execEvacSwitch (h : Keeps s₀ s) : Answers s₀ s (execEvacSwitch s) true := by
  refine h.onDev ?_
  split
  · exact h.dev
  · exact DevKeeps.ite h.dev.setFld.setFld.setFld.setFld h.dev

theorem Keeps.execEvacBackgroundMove {chks} (h : Keeps s₀ s) : Answers s₀ s (execEvacBackgroundMove chks s) true := by
  refine h.onData ?_
  split
  · exact h.dev
  · exact DevKeeps.ite (h.dev.moveGranule.rest) h.dev

theorem Keeps.execEvacComplete (h : Keeps s₀ s) : Answers s₀ s (execEvacComplete s) true := by
  refine h.onDev ?_
  split
  · exact h.dev
  · exact DevKeeps.ite h.dev.setFld.setFld h.dev

theorem Keeps.execChannelRetire (h : Keeps s₀ s) : Answers s₀ s (execChannelRetire s) true := by
  refine h.onDev ?_
  split
  · exact h.dev
  · exact DevKeeps.ite (h.dev.setFld.setUnit.log.rest).addRepair h.dev

/-! ### Operands -/

theorem Keeps.execNNN {g d a b zb f} (h : Keeps s₀ s) : Answers s₀ s (execNNN g s d a b zb f) (strandOk g) :=
  h.runInsn fun _ k => k.setN

theorem Keeps.execNNNLong {g d a b f} (h : Keeps s₀ s) : Answers s₀ s (execNNNLong g s d a b f) (strandOk g) :=
  h.runInsn fun _ k => k.long

theorem Keeps.execNNI {g d a legal f} (h : Keeps s₀ s) : Answers s₀ s (execNNI g s d a legal f) (strandOk g) :=
  h.runInsn fun _ k => k.setN

theorem Keeps.execVVV {g d a b legal f} (h : Keeps s₀ s) : Answers s₀ s (execVVV g s d a b legal f) (strandOk g) :=
  h.runInsn fun _ k => k.setV

theorem Keeps.execVVN {g d a b legal f} (h : Keeps s₀ s) : Answers s₀ s (execVVN g s d a b legal f) (strandOk g) :=
  h.runInsn fun _ k => k.setV

theorem Keeps.execVN {g d a legal f} (h : Keeps s₀ s) : Answers s₀ s (execVN g s d a legal f) (strandOk g) :=
  h.runInsn fun _ k => k.setV

theorem Keeps.execNVV {g d a b legal f} (h : Keeps s₀ s) : Answers s₀ s (execNVV g s d a b legal f) (strandOk g) :=
  h.runInsn fun _ k => k.setN

theorem Keeps.execNV {g d a legal f} (h : Keeps s₀ s) : Answers s₀ s (execNV g s d a legal f) (strandOk g) :=
  h.runInsn fun _ k => k.setN

theorem Keeps.execFFF {g d a b zb f} (h : Keeps s₀ s) : Answers s₀ s (execFFF g s d a b zb f) (strandOk g) :=
  h.execVVV

theorem Keeps.execVVVLong {g d a b legal f} (h : Keeps s₀ s) :
    Answers s₀ s (execVVVLong g s d a b legal f) (strandOk g) := h.runInsn fun _ k => k.long

/-! ### Interrupts -/

theorem Keeps.execInterruptEntry {g} (h : Keeps s₀ s) : Answers s₀ s (execInterruptEntry g s) (strandOk g) := by
  unfold Machine.execInterruptEntry
  refine .guard (.clocks ?_)
  dsimp only
  split
  · exact .next h
  · split
    · split
      · exact .next h.closeShadow
      · split
        · exact .next h.closeShadow.takeLost
        · exact .next h.closeShadow
        · exact .next h.closeShadow.takeVector
    · split
      · exact .next h
      · split
        · exact .next h.takeLost
        · exact .next h
        · exact .next h.takeVector

theorem Keeps.execTimecmpReached {g} (h : Keeps s₀ s) : Answers s₀ s (execTimecmpReached g s) (strandOk g) :=
  .guarded (.next h)

theorem Keeps.execInterruptMessage {rid addr size x} (h : Keeps s₀ s) :
    Answers s₀ s (execInterruptMessage rid addr size x s) true := h.onData (DevKeeps.ite h.dev.irMessage h.dev)

theorem Keeps.execIrSend {req v} (h : Keeps s₀ s) : Answers s₀ s (execIrSend req v s) (reqOk req) :=
  .guarded (.next h.irSendWrite)

theorem Keeps.execIrWake {req v} (h : Keeps s₀ s) : Answers s₀ s (execIrWake req v s) (reqOk req) :=
  .guarded (.next h.irSendWrite)

theorem Keeps.execIrInv {req v} (h : Keeps s₀ s) : Answers s₀ s (execIrInv req v s) (reqOk req) :=
  h.onDev h.dev.irInvWrite

theorem Keeps.execBind {req i v} (h : Keeps s₀ s) : Answers s₀ s (execBind req i v s) (reqOk req && strandOk i) :=
  h.onDev h.dev.bindWrite

theorem Keeps.execUnbind {req i v} (h : Keeps s₀ s) : Answers s₀ s (execUnbind req i v s) (reqOk req && strandOk i) :=
  h.onDev h.dev.bindWrite

theorem Keeps.execSocketEvent {e} (h : Keeps s₀ s) : Answers s₀ s (execSocketEvent e s) (e < 8) :=
  h.onDev (DevKeeps.ite h.dev.routeEvent h.dev)

/-! ### Persistence -/

theorem Keeps.execCreditRequest {n c prio} (h : Keeps s₀ s) :
    Answers s₀ s (execCreditRequest n c prio s) (n < 8 && coreOk c) :=
  h.onData (DevKeeps.ite h.dev (DevKeeps.ite h.dev.addSat.setTracker.setStack h.dev.setFld.setTracker.setStack))

theorem Keeps.execIntakeAccept {n} (h : Keeps s₀ s) : Answers s₀ s (execIntakeAccept n s) (n < 8) := by
  unfold Machine.execIntakeAccept
  refine .guard (.clocks ?_)
  dsimp only
  split
  · exact .next h
  · split
    · exact .next h.acceptLine.afterClose
    · exact .next h

theorem Keeps.execIntakeMediaWrite {n} (h : Keeps s₀ s) : Answers s₀ s (execIntakeMediaWrite n s) (n < 8) := by
  refine h.onData ?_
  split
  · exact h.dev
  · exact h.dev.mediaWrite.setStack.showIntake

theorem Keeps.execWearMove {n granule} (h : Keeps s₀ s) :
    Answers s₀ s (execWearMove n granule s) (n < 8 && granule < 131072) := by
  refine h.onData ?_
  split
  · exact DevKeeps.ite h.dev.setStack.setFld h.dev
  · exact h.dev

theorem Keeps.execWearMoveSwitch {n} (h : Keeps s₀ s) : Answers s₀ s (execWearMoveSwitch n s) (n < 8) := by
  refine h.onData ?_
  split
  · exact h.dev
  · exact h.dev.wearOut.setGranule.setGranule.setStack.setFld.showSpares

theorem Keeps.execGovernorMinute {n} (h : Keeps s₀ s) : Answers s₀ s (execGovernorMinute n s) (n < 8) :=
  h.onData h.dev.setStack.setFld.setFld.setFld

theorem Keeps.execEpochClosed (h : Keeps s₀ s) : Answers s₀ s (execEpochClosed s) true :=
  h.onData (DevKeeps.ite h.dev (DevKeeps.ite h.dev.setReg h.dev))

theorem Keeps.execPersistWriteFailed {n g} (h : Keeps s₀ s) :
    Answers s₀ s (execPersistWriteFailed n g s) (n < 8 && lineOk g) := by
  unfold Machine.execPersistWriteFailed
  refine .guard (.clocks ?_)
  dsimp only
  split
  · exact .next (h.withDev h.dev.drainFail)
  · split
    · exact .next (h.withDev h.dev.setStack).failLine.intakeDone
    · split
      · exact .next h.failLine
      · exact .next h

/-! ### Errors -/

theorem Keeps.execErrTailWrite {req v} (h : Keeps s₀ s) : Answers s₀ s (execErrTailWrite req v s) (reqOk req) :=
  h.onDev h.dev.errTailWrite

theorem Keeps.execErrEventTimeout (h : Keeps s₀ s) : Answers s₀ s (execErrEventTimeout s) true :=
  h.onDev h.dev.releaseEvents

theorem Keeps.execStewardAcknowledge (h : Keeps s₀ s) : Answers s₀ s (execStewardAcknowledge s) true :=
  h.onDev h.dev.releaseEvents

theorem Keeps.execBucketDecay (h : Keeps s₀ s) : Answers s₀ s (execBucketDecay s) true :=
  h.onDev (DevKeeps.ite (h.dev.rest) h.dev)

theorem Keeps.execRouteRecompute {l} (h : Keeps s₀ s) : Answers s₀ s (execRouteRecompute l s) (l < 264) :=
  h.onDev (DevKeeps.ite h.dev ((h.dev.rest).addRepair.setUnit.log.foldl fun _ _ k => (DevKeeps.ite k k.loseStop)))

theorem Keeps.execCoreTransplant {c unreadable} (h : Keeps s₀ s) :
    Answers s₀ s (execCoreTransplant c unreadable s) (coreOk c) := by
  unfold Machine.execCoreTransplant
  refine .guard (.clocks ?_)
  dsimp only
  split
  · exact .next h
  · split
    · exact .next ((h.withDev h.dev.candidate.setFld).haltCore.withDev
          ((h.withDev h.dev.candidate.setFld).haltCore.dev.setFld.rest).dutyEvent)
    · exact .next (h.withDev h.dev.candidate.setFld).haltCore.transplantAny

theorem Keeps.execXplantGo {req v} (h : Keeps s₀ s) : Answers s₀ s (execXplantGo req v s) (reqOk req) :=
  .guarded (.next h.xplantWrite)

theorem Keeps.execSourceCoreTest {c faulty} (h : Keeps s₀ s) : Answers s₀ s (execSourceCoreTest c faulty s)
    (coreOk c) :=
  h.onDev (DevKeeps.ite h.dev (DevKeeps.ite (h.dev.rest).setCoreState.setFld.setFld.setUnit.addRepair.log
      (h.dev.rest).emptyCore.setCoreState.setFld.addSpares.setUnit.log))

/-! ### The cushion -/

theorem Keeps.execPwrfail (h : Keeps s₀ s) : Answers s₀ s (execPwrfail s) true :=
  .always (.next (h.withDev h.dev.setFld).enterCushion)

theorem Keeps.execPowerFail (h : Keeps s₀ s) : Answers s₀ s (execPowerFail s) true := .always (.next h.enterCushion)

theorem Keeps.execBrownout {r} (h : Keeps s₀ s) : Answers s₀ s (execBrownout r s) (r < 10) :=
  .guardedBy (.next (Keeps.ite (h.withDev h.dev.setFld.setFld).enterCushion (h.withDev h.dev.setFld.setFld)))

theorem Keeps.execDrainTest {req v} (h : Keeps s₀ s) : Answers s₀ s (execDrainTest req v s) (reqOk req) :=
  .guarded (.next h.drainTestWrite)

theorem Keeps.execPwrgoodFall (h : Keeps s₀ s) : Answers s₀ s (execPwrgoodFall s) true := by
  unfold Machine.execPwrgoodFall
  refine .always ?_
  dsimp only
  split
  · exact .next (h.withDev (h.dev.rest)).enterCushion
  · exact .next (h.withDev (h.dev.rest))
  · exact .next (h.withDev (h.dev.rest))

theorem Keeps.execStrandHalt {g} (h : Keeps s₀ s) : Answers s₀ s (execStrandHalt g s) (strandOk g) := by
  unfold Machine.execStrandHalt
  refine .guard ?_
  split
  · exact .next h
  · refine .ite (.next h) ?_
    extract_lets kept r x s1 d1 img d2 s2 d3 d4 s3 s4
    have k1 : Keeps s₀ s1 := h.saveImage.setStrand h.saveImage.strandAt.rest
    have k2 : Keeps s₀ s2 := k1.withDev k1.dev.setImage
    have k3 : DevKeeps s₀.dev d3 := by
      change DevKeeps s₀.dev (match d2.drain with
        | none => d2
        | some q =>
          let rep := { q.report with lines := addLines q.report.lines s2.dirtyPeat }
          { d2 with drain := some { q with report := rep } })
      split
      · exact k2.dev
      · exact k2.dev.rest
    have k4 : Keeps s₀ s3 := k2.withDev (DevKeeps.ite k3.drainDue.drainDue k3)
    exact .next (Keeps.peatWork (Keeps.ite (k4.withDev k4.dev.phaseDone) k4))

theorem Keeps.execP2Go (h : Keeps s₀ s) : Answers s₀ s (execP2Go s) true := .always (.next h.startPhase)

theorem Keeps.execP3Go (h : Keeps s₀ s) : Answers s₀ s (execP3Go s) true := .always (.next h.startPhase)

theorem Keeps.execP4Go (h : Keeps s₀ s) : Answers s₀ s (execP4Go s) true := .always (.next h.startPhase)

theorem Keeps.execDrainStepTimeout {phase} (h : Keeps s₀ s) :
    Answers s₀ s (execDrainStepTimeout phase s) (2 ≤ phase && phase ≤ 4) := .guarded (.next h.startPhase)

theorem Keeps.execPeatDone {src} (h : Keeps s₀ s) : Answers s₀ s (execPeatDone src s) (src < 8) := by
  unfold Machine.execPeatDone
  refine .guardBelow ?_
  dsimp only
  split
  · exact .next h
  · split
    · exact .next (Keeps.ite h.peatComplete h)
    · exact .next (h.withDev (h.dev.rest))

theorem Keeps.execP2Deadline (h : Keeps s₀ s) : Answers s₀ s (execP2Deadline s) true := by
  unfold Machine.execP2Deadline
  refine .always ?_
  dsimp only
  split
  · exact .next h
  · exact .next (Keeps.ite (h.withDev (h.dev.rest)).peatComplete (h.withDev (h.dev.rest)))

theorem Keeps.execDramDone {src} (h : Keeps s₀ s) : Answers s₀ s (execDramDone src s) (src < 8) := by
  unfold Machine.execDramDone
  refine .guardBelow ?_
  dsimp only
  split
  · exact .next h
  · split
    · split
      · split
        · exact .next (h.withDev h.dev.dramWriteBack)
        · exact .next h
        · exact .next (h.withDev (h.dev.dramWriteBack.rest).chainSend)
      · exact .next h
    · exact .next (h.withDev (h.dev.rest))

theorem Keeps.execCanaryWrite {n} (h : Keeps s₀ s) : Answers s₀ s (execCanaryWrite n s) (n < 16) := by
  refine h.onDev ?_
  split
  · exact h.dev
  · exact DevKeeps.ite (DevKeeps.ite (h.dev.drawRandom.setChan.setFld.rest).phaseDone
        (h.dev.drawRandom.setChan.setFld.rest)) h.dev

theorem Keeps.execRetainAssert (h : Keeps s₀ s) : Answers s₀ s (execRetainAssert s) true := by
  refine h.onDev ?_
  split
  · exact h.dev
  · exact DevKeeps.ite (h.dev.setFld.rest) h.dev

theorem Keeps.execRetainHeldClear (h : Keeps s₀ s) : Answers s₀ s (execRetainHeldClear s) true :=
  h.onDev h.dev.setFld

theorem Keeps.execDrainReportWrite (h : Keeps s₀ s) : Answers s₀ s (execDrainReportWrite s) true := by
  unfold Machine.execDrainReportWrite
  refine .always ?_
  dsimp only
  split
  · exact .next h
  · exact .next (h.withDev (h.dev.rest).phaseDone)

theorem Keeps.execDrainComplete (h : Keeps s₀ s) : Answers s₀ s (execDrainComplete s) true := by
  refine h.onDev ?_
  split
  · exact h.dev
  · exact DevKeeps.ite (h.dev.rest) h.dev

theorem Keeps.execStrandRestore {req v} (h : Keeps s₀ s) : Answers s₀ s (execStrandRestore req v s) (reqOk req) :=
  .guarded (.next h.restoreWrite)

theorem Keeps.execImagesRelease {req v} (h : Keeps s₀ s) : Answers s₀ s (execImagesRelease req v s) (reqOk req) :=
  h.onDev h.dev.resumeInfoWrite

theorem Keeps.execBlockInit {b} (h : Keeps s₀ s) : Answers s₀ s (execBlockInit b s) (b < 2 ^ 26) :=
  h.onDev (DevKeeps.ite (h.dev.rest) h.dev)

/-! ### The I/O MMU -/

theorem Keeps.execRefillInstall {req i v} (h : Keeps s₀ s) :
    Answers s₀ s (execRefillInstall req i v s) (reqOk req && strandOk i) := .guarded (.next h.refillCtlWrite)

theorem Keeps.execIoiqEnable {req v} (h : Keeps s₀ s) : Answers s₀ s (execIoiqEnable req v s) (reqOk req) :=
  h.onDev h.dev.ioqBaseWrite

theorem Keeps.execInvDt (h : Keeps s₀ s) : Answers s₀ s (execInvDt s) true :=
  h.onDev (h.dev.ioqRun fun _ _ _ k => k.rest)

theorem Keeps.execInvRid (h : Keeps s₀ s) : Answers s₀ s (execInvRid s) true :=
  h.onDev (h.dev.ioqRun fun _ _ _ k => k.ioDrop)

theorem Keeps.execInvVa (h : Keeps s₀ s) : Answers s₀ s (execInvVa s) true :=
  h.onDev (h.dev.ioqRun fun _ _ _ k => k.ioDrop)

theorem Keeps.execInvIpa (h : Keeps s₀ s) : Answers s₀ s (execInvIpa s) true :=
  h.onDev (h.dev.ioqRun fun _ _ _ k => k.ioDrop)

theorem Keeps.execInvVmid (h : Keeps s₀ s) : Answers s₀ s (execInvVmid s) true :=
  h.onDev (h.dev.ioqRun fun _ _ _ k => k.ioDrop)

theorem Keeps.execInvAll (h : Keeps s₀ s) : Answers s₀ s (execInvAll s) true :=
  h.onDev (h.dev.ioqRun fun _ _ _ k => k.ioDrop.rest)

theorem Keeps.execIoiqWait (h : Keeps s₀ s) : Answers s₀ s (execIoiqWait s) true :=
  h.onDev (h.dev.ioqRun fun _ _ _ k => DevKeeps.ite k.homeStore k)

/-! ### Root ports -/

theorem Keeps.execCompletionTimeout {pt} (h : Keeps s₀ s) : Answers s₀ s (execCompletionTimeout pt s) (pt < 80) := by
  unfold Machine.execCompletionTimeout
  refine .guard ?_
  dsimp only
  split
  · exact .next h
  · exact .next (h.withDev h.dev.setPort.portRecord).loadFails

theorem Keeps.execPortCompletion {pt v} (h : Keeps s₀ s) : Answers s₀ s (execPortCompletion pt v s) (pt < 80) := by
  unfold Machine.execPortCompletion
  refine .guard ?_
  dsimp only
  split
  · exact .next h
  · exact .next (h.withDev h.dev.setPort.drawLine).loadDone

theorem Keeps.execSurpriseDown {pt} (h : Keeps s₀ s) : Answers s₀ s (execSurpriseDown pt s) (pt < 80) := by
  unfold Machine.execSurpriseDown
  refine .guard ?_
  dsimp only
  split
  · exact .next h
  · exact .next (h.withDev h.dev.setPort).contain

theorem Keeps.execDpcTrigger {pt} (h : Keeps s₀ s) : Answers s₀ s (execDpcTrigger pt s) (pt < 80) := by
  unfold Machine.execDpcTrigger
  refine .guard ?_
  split
  · exact .next h.contain
  · exact .next h

theorem Keeps.execDpcRelease {pt partner} (h : Keeps s₀ s) : Answers s₀ s (execDpcRelease pt partner s) (pt < 80) :=
  h.onDev h.dev.dpcRelease

theorem Keeps.execPcieLinkUp {pt} (h : Keeps s₀ s) : Answers s₀ s (execPcieLinkUp pt s) (pt < 80) :=
  h.onDev (DevKeeps.ite (DevKeeps.ite h.dev.trainPort h.dev) (DevKeeps.ite h.dev.trainPort h.dev).setPort.slotEvent)

theorem Keeps.execPortIdle {pt} (h : Keeps s₀ s) : Answers s₀ s (execPortIdle pt s) (pt < 80) := by
  unfold Machine.execPortIdle
  refine .guard ?_
  dsimp only
  split
  · exact .next h
  · split
    · exact .next (h.withDev h.dev.setPort)
    · exact .next (h.withDev h.dev.setPort.portRecord).failAll

theorem Keeps.execSlotControlWrite {pt v} (h : Keeps s₀ s) : Answers s₀ s (execSlotControlWrite pt v s) (pt < 80) :=
  h.onDev (DevKeeps.ite h.dev (DevKeeps.ite h.dev.applySlot h.dev.setPort))

theorem Keeps.execSlotSample {pt i} (h : Keeps s₀ s) : Answers s₀ s (execSlotSample pt i s) (pt < 80) := by
  unfold Machine.execSlotSample
  refine .guard (.ite (.next h) ?_)
  extract_lets old d1 d2 d3
  have k1 : DevKeeps s₀.dev d1 := by
    change DevKeeps s₀.dev (match (s.dev.port pt).slotWait with
      | some v => s.dev.applySlot pt v
      | none => s.dev)
    split
    · exact h.dev.applySlot
    · exact h.dev
  have k2 : DevKeeps s₀.dev d2 := k1.mirrorSlot
  exact .ite (.next (Keeps.contain (h.withDev k2.slotEvent.setPort))) (.next (h.withDev k2))

theorem Keeps.execDmaRead {q len} (h : Keeps s₀ s) : Answers s₀ s (execDmaRead q len s) (dmaOk q) := by
  refine h.onData (DevKeeps.ite h.dev (DevKeeps.ite h.dev.ioDeny.answer ?_))
  extract_lets r
  have k : DevKeeps s₀.dev r.dev := DevKeeps.foldlBy DmaGot.dev h.dev fun _ _ k => k.dmaReadPage
  exact DevKeeps.ite k.answer k.answer

theorem Keeps.execDmaWrite {q bytes th poisoned} (h : Keeps s₀ s) :
    Answers s₀ s (execDmaWrite q bytes th poisoned s) (dmaOk q) := by
  unfold Machine.execDmaWrite
  refine .guard (.clocks ?_)
  split
  · exact .next h
  · split
    · exact .next (h.withDev h.dev.irMessage)
    · split
      · exact .next (h.withDev h.dev.ioDeny)
      · exact .next (h.foldl fun _ _ k => k.dmaWritePage)

theorem Keeps.execAtomicop {q op size operand expected} (h : Keeps s₀ s) :
    Answers s₀ s (execAtomicop q op size operand expected s) (dmaOk q) := by
  refine h.onData ?_
  split
  · exact h.dev
  · split
    · exact h.dev.ioDeny.answer
    · split
      · exact h.dev.answer
      · split
        · rename_i _ _ _ _ _ e9
          exact (h.dev.ioTo e9).answer
        · rename_i _ _ _ _ _ e9
          exact (h.dev.ioTo e9).answer
        · rename_i _ _ _ _ _ _ e9
          exact (h.dev.ioTo e9).peerRecord.answer
        · rename_i _ _ _ _ _ _ _ _ e9
          split
          · rename_i _ _ _ _ _ _ _ _ _ _ _ _ _ e10
            exact DevKeeps.ite ((h.dev.ioTo e9).ioTo e10).homeRmw.answer ((h.dev.ioTo e9).ioTo e10).drawWord.answer
          · rename_i _ _ _ _ _ _ _ _ _ _ _ e10
            exact ((h.dev.ioTo e9).ioTo e10).answer
          · rename_i _ _ _ _ _ _ _ _ _ _ e10
            exact ((h.dev.ioTo e9).ioTo e10).answer
          · rename_i _ _ _ _ _ _ _ _ _ _ e10
            exact ((h.dev.ioTo e9).ioTo e10).answer

theorem Keeps.execKportRetireGo {req pt v} (h : Keeps s₀ s) :
    Answers s₀ s (execKportRetireGo req pt v s) (reqOk req && pt < 80) := .guarded (.next h.kportRetireWrite)

theorem Keeps.execSscApply {n} (h : Keeps s₀ s) : Answers s₀ s (execSscApply n s) (n < 20) := h.onDev h.dev.sscApply

/-! ### Self-test -/

theorem Keeps.execInjectionArm {req grp v} (h : Keeps s₀ s) :
    Answers s₀ s (execInjectionArm req grp v s) (reqOk req && 1 ≤ grp && grp ≤ 22) := h.onDev h.dev.injArmWrite

theorem Keeps.execSliceTest {e finding} (h : Keeps s₀ s) : Answers s₀ s (execSliceTest e finding s) (e < 6) := by
  refine h.onData ?_
  dsimp only
  split
  · exact h.dev
  · split
    · split
      · exact h.dev
      · exact DevKeeps.ite (DevKeeps.ite h.dev.setEngine.setFld.sliceNext h.dev.setEngine.setFld)
            (DevKeeps.ite h.dev.setEngine.setFld.sliceNext h.dev.setEngine.setFld).showFinding
    · exact h.dev.setEngine.sliceNext.repairFinding

theorem Keeps.execSliceGo {req e v} (h : Keeps s₀ s) : Answers s₀ s (execSliceGo req e v s) (reqOk req && e < 6) :=
  h.onDev h.dev.sliceGoWrite

theorem Keeps.execSliceRepair {req e v} (h : Keeps s₀ s) :
    Answers s₀ s (execSliceRepair req e v s) (reqOk req && e < 6) := h.onDev h.dev.sliceGoWrite

theorem Keeps.execSliceSkip {req e v} (h : Keeps s₀ s) : Answers s₀ s (execSliceSkip req e v s)
    (reqOk req && e < 6) :=
  h.onDev h.dev.sliceGoWrite

/-! ### Mailboxes -/

theorem Keeps.execMbClaim {req stw} (h : Keeps s₀ s) : Answers s₀ s (execMbClaim req stw s) (reqOk req) :=
  .guarded (.next h.claimBox)

theorem Keeps.execMbRelease {req stw v} (h : Keeps s₀ s) : Answers s₀ s (execMbRelease req stw v s) (reqOk req) :=
  .guarded (.next h.claimWrite)

theorem Keeps.execMbClaimLapse {stw} (h : Keeps s₀ s) : Answers s₀ s (execMbClaimLapse stw s) true :=
  h.onDev h.dev.freeBox

theorem Keeps.execSmbQueueTimeout (h : Keeps s₀ s) : Answers s₀ s (execSmbQueueTimeout s) true :=
  h.onDev (DevKeeps.ite h.dev.boxDone h.dev)

/-! ### The security engine -/

theorem Keeps.execKeyGenerate (h : Keeps s₀ s) : Answers s₀ s (execKeyGenerate s) true := by
  refine h.onDev (h.dev.serveSe fun _ _ k => ?_)
  dsimp only
  split
  · exact k.refuse
  · split
    · exact k.refuse
    · split
      · exact k.refuse
      · exact k.freshKey.done

theorem Keeps.execKeyClear (h : Keeps s₀ s) : Answers s₀ s (execKeyClear s) true := by
  refine h.onDev (h.dev.serveSe fun _ _ k => ?_)
  dsimp only
  split
  · exact k.refuse
  · split
    · exact k.refuse
    · split
      · exact k.refuse
      · exact k.clearSlot.done

theorem Keeps.execRollbackCommit (h : Keeps s₀ s) : Answers s₀ s (execRollbackCommit s) true :=
  h.onDev (h.dev.serveSe fun _ _ k => (k.rest).done)

theorem Keeps.execFuseSession {bad} (h : Keeps s₀ s) : Answers s₀ s (execFuseSession bad s) true := by
  refine h.onDev (h.dev.serveSe fun _ _ k => ?_)
  dsimp only
  split
  · exact k.refuse
  · split
    · exact k.refuse
    · exact (k.foldl fun _ _ k => k.burn).done

theorem Keeps.execDebugNonce (h : Keeps s₀ s) : Answers s₀ s (execDebugNonce s) true := by
  refine h.onDev (h.dev.serveSe fun _ _ k => ?_)
  split
  · exact k.refuse
  · exact k.random32.rest

theorem Keeps.execDebugUnlock {tokenOk} (h : Keeps s₀ s) : Answers s₀ s (execDebugUnlock tokenOk s) true := by
  unfold Machine.execDebugUnlock
  extract_lets sealedAny unlocks
  refine .always (.next ((Keeps.ite h.forgetExits h).withDev ((Keeps.ite h.forgetExits h).dev.serveSe
      fun q d k => ?_)))
  dsimp only
  split
  · exact k
  · split
    · exact k
    · exact ((k.foldl fun _ _ k => k.destroyDomain).foldl fun _ _ k => k.clearSlot).setFld

theorem Keeps.execLinkSecretGen (h : Keeps s₀ s) : Answers s₀ s (execLinkSecretGen s) true := by
  refine h.onDev (h.dev.serveSe fun _ _ k => ?_)
  split
  · exact k.refuse
  · split
    · exact k.refuse
    · exact (k.random32.rest).setFld.chainSend.done

theorem Keeps.execIdeKeySet (h : Keeps s₀ s) : Answers s₀ s (execIdeKeySet s) true := by
  refine h.onDev (h.dev.serveSe fun _ _ k => ?_)
  dsimp only
  split
  · exact k.refuse
  · exact (k.rest).done

theorem Keeps.execGetVersion {ch} (h : Keeps s₀ s) : Answers s₀ s (execGetVersion ch s) true :=
  h.onDev (h.dev.serveSpdm fun _ k => k)

theorem Keeps.execGetCapabilities {ch} (h : Keeps s₀ s) : Answers s₀ s (execGetCapabilities ch s) true :=
  h.onDev h.dev.spdmRequest

theorem Keeps.execNegotiateAlgorithms {ch offersBoth} (h : Keeps s₀ s) :
    Answers s₀ s (execNegotiateAlgorithms ch offersBoth s) true := by
  refine h.onDev (h.dev.serveSpdm fun _ k => ?_)
  split
  · exact k
  · split
    · exact k.setSpdm
    · exact k.setSpdm

theorem Keeps.execGetDigests {ch} (h : Keeps s₀ s) : Answers s₀ s (execGetDigests ch s) true :=
  h.onDev h.dev.spdmRequest

theorem Keeps.execGetCertificate {ch slot} (h : Keeps s₀ s) : Answers s₀ s (execGetCertificate ch slot s) true :=
  h.onDev h.dev.spdmRequest

theorem Keeps.execChallenge {ch slot nonce} (h : Keeps s₀ s) : Answers s₀ s (execChallenge ch slot nonce s) true :=
  h.onDev h.dev.spdmRequest

theorem Keeps.execGetMeasurements {ch block signed} (h : Keeps s₀ s) :
    Answers s₀ s (execGetMeasurements ch block signed s) true := h.onDev h.dev.spdmRequest

theorem Keeps.execSeHalt (h : Keeps s₀ s) : Answers s₀ s (execSeHalt s) true :=
  h.onDev (DevKeeps.ite h.dev (DevKeeps.ite h.dev.setFld.log.boxDone h.dev.setFld.log))

theorem Keeps.execRandomHealthTest {failing} (h : Keeps s₀ s) : Answers s₀ s (execRandomHealthTest failing s) true :=
  h.onDev h.dev.rest

/-! ### Firmware -/

theorem Keeps.execEntdaa {addr} (h : Keeps s₀ s) : Answers s₀ s (execEntdaa addr s) true :=
  h.onDev (DevKeeps.ite (h.dev.rest) h.dev)

theorem Keeps.execSetdasa {static addr} (h : Keeps s₀ s) : Answers s₀ s (execSetdasa static addr s) true :=
  h.onDev (DevKeeps.ite (h.dev.rest) h.dev)

theorem Keeps.execSetEndpointId {eid} (h : Keeps s₀ s) : Answers s₀ s (execSetEndpointId eid s) true :=
  h.onDev (DevKeeps.ite (h.dev.rest).respond h.dev)

theorem Keeps.execGetEndpointId (h : Keeps s₀ s) : Answers s₀ s (execGetEndpointId s) true :=
  h.onDev (DevKeeps.ite h.dev.respond h.dev)

theorem Keeps.execGetMctpVersionSupport (h : Keeps s₀ s) : Answers s₀ s (execGetMctpVersionSupport s) true :=
  h.onDev (DevKeeps.ite h.dev.respond h.dev)

theorem Keeps.execGetMessageTypeSupport (h : Keeps s₀ s) : Answers s₀ s (execGetMessageTypeSupport s) true :=
  h.onDev (DevKeeps.ite h.dev.respond h.dev)

theorem Keeps.execEventMessageTimeout (h : Keeps s₀ s) : Answers s₀ s (execEventMessageTimeout s) true :=
  h.onDev h.dev.rest

theorem Keeps.execGetInfo {ch} (h : Keeps s₀ s) : Answers s₀ s (execGetInfo ch s) true :=
  h.onDev (h.dev.manage fun _ k => k)

theorem Keeps.execCfgRead {ch key} (h : Keeps s₀ s) : Answers s₀ s (execCfgRead ch key s) true := by
  refine h.onDev (h.dev.manage fun _ k => ?_)
  split
  · exact k
  · exact k.refuse

theorem Keeps.execCfgWrite {ch key value} (h : Keeps s₀ s) : Answers s₀ s (execCfgWrite ch key value s) true := by
  refine h.onDev (h.dev.manage fun _ k => ?_)
  split
  · exact k.refuse
  · split
    · exact k.refuse
    · split
      · exact k.refuse
      · exact k.cfgStore.done

theorem Keeps.execCfgDefaults {ch} (h : Keeps s₀ s) : Answers s₀ s (execCfgDefaults ch s) true := by
  refine h.onDev (h.dev.manage fun _ k => ?_)
  split
  · exact k.refuse
  · exact (k.cfgStore.rest).done

theorem Keeps.execErrRead {ch first count} (h : Keeps s₀ s) : Answers s₀ s (execErrRead ch first count s) true := by
  refine h.onDev (h.dev.manage fun _ k => ?_)
  split
  · exact k.refuse
  · exact k

theorem Keeps.execTlmRead {ch first count} (h : Keeps s₀ s) : Answers s₀ s (execTlmRead ch first count s) true := by
  refine h.onDev (h.dev.manage fun _ k => ?_)
  split
  · exact k.refuse
  · exact k

theorem Keeps.execRepairClear {ch i} (h : Keeps s₀ s) : Answers s₀ s (execRepairClear ch i s) true := by
  refine h.onDev (h.dev.manage fun _ k => ?_)
  split
  · exact k.refuse
  · split
    · exact k.refuse
    · exact (k.rest).showRepairs.done

theorem Keeps.execSorusChunk {ch off total last start rebuild bytes} (h : Keeps s₀ s) :
    Answers s₀ s (execSorusChunk ch off total last start rebuild bytes s) true :=
  h.onDev (DevKeeps.ite (h.dev.manage fun _ k => k.stageChunk) h.dev.relay)

theorem Keeps.execUpdateStart {ch verdict} (h : Keeps s₀ s) : Answers s₀ s (execUpdateStart ch verdict s) true :=
  h.onDev (DevKeeps.ite (h.dev.manage fun _ k => by
  split
  · exact k
  · split
    · exact k
    · exact k.startUpdate) h.dev.relay)

theorem Keeps.execUpdateStatus {ch} (h : Keeps s₀ s) : Answers s₀ s (execUpdateStatus ch s) true :=
  h.onDev (h.dev.manage fun _ k => k)

theorem Keeps.execUpdateAbort {ch} (h : Keeps s₀ s) : Answers s₀ s (execUpdateAbort ch s) true :=
  h.onDev (DevKeeps.ite (h.dev.manage fun _ k => by
  split
  · exact k.abortAll
  · exact k) h.dev.relay)

theorem Keeps.execUpdateDeadline (h : Keeps s₀ s) : Answers s₀ s (execUpdateDeadline s) true := by
  unfold Machine.execUpdateDeadline
  refine h.onDev (DevKeeps.ite h.dev (DevKeeps.ite (DevKeeps.ite h.dev h.dev.abortAll) ?_))
  split
  · exact h.dev
  · exact DevKeeps.ite h.dev.abortAll h.dev

theorem Keeps.execConfirmSend (h : Keeps s₀ s) : Answers s₀ s (execConfirmSend s) true := by
  refine h.onDev ?_
  split
  · exact h.dev
  · exact DevKeeps.ite h.dev (DevKeeps.ite h.dev.updSend h.dev.abortAll)

theorem Keeps.execReady {m} (h : Keeps s₀ s) : Answers s₀ s (execReady m s) (m.src < 8) :=
  h.onDev (DevKeeps.ite h.dev.readyFrom h.dev)

theorem Keeps.execAbort {m} (h : Keeps s₀ s) : Answers s₀ s (execAbort m s) (m.src < 8) :=
  h.onDev (DevKeeps.ite (DevKeeps.ite (h.dev.rest) (h.dev.rest).abortAll) h.dev)

theorem Keeps.execArm {m} (h : Keeps s₀ s) : Answers s₀ s (execArm m s) (m.src < 8) :=
  h.onDev (DevKeeps.ite h.dev (h.dev.rest).updPhase.setReg.updSend)

theorem Keeps.execArmed {m} (h : Keeps s₀ s) : Answers s₀ s (execArmed m s) (m.src < 8) :=
  h.onDev (DevKeeps.ite (h.dev.rest) h.dev)

theorem Keeps.execConfirm {m} (h : Keeps s₀ s) : Answers s₀ s (execConfirm m s) (m.src < 8) := by
  refine h.onDev ?_
  split
  · exact h.dev
  · exact DevKeeps.ite h.dev (DevKeeps.ite h.dev.abortAll (h.dev.rest))

theorem Keeps.execActivated {m} (h : Keeps s₀ s) : Answers s₀ s (execActivated m s) (m.src < 8) :=
  h.onDev (DevKeeps.ite (h.dev.setFld.rest).settleUpdate h.dev)

theorem Keeps.execNotActivated {m} (h : Keeps s₀ s) : Answers s₀ s (execNotActivated m s) (m.src < 8) :=
  h.onDev (DevKeeps.ite (DevKeeps.ite (h.dev.rest).log (h.dev.rest).log.armAll) h.dev)

theorem Keeps.execSorusData {off total bytes} (h : Keeps s₀ s) : Answers s₀ s
    (execSorusData off total bytes s) true := by
  unfold Machine.execSorusData
  refine h.onDev (DevKeeps.ite h.dev ?_)
  extract_lets st fw d1 d2 d3
  have k1 : DevKeeps s₀.dev d1 := h.dev.rest
  have k2 : DevKeeps s₀.dev d2 := DevKeeps.ite k1.updPhase k1
  refine DevKeeps.ite k2 (DevKeeps.ite k2.fiddle ?_)
  split
  · exact k2.freshUpdate.prepare
  · exact k2.freshUpdate.abortUpdate.updSend

theorem Keeps.execStewardMsg {src payload} (h : Keeps s₀ s) : Answers s₀ s (execStewardMsg src payload s) (src < 8) :=
  h.onDev (DevKeeps.ite h.dev (DevKeeps.ite h.dev.boxDone (DevKeeps.ite h.dev.boxDone (h.dev.rest))))

theorem Keeps.execSeMsg {src payload} (h : Keeps s₀ s) : Answers s₀ s (execSeMsg src payload s) (src < 8) :=
  h.onDev (DevKeeps.ite h.dev (h.dev.rest).setFld)

theorem Keeps.execActivationSwitch (h : Keeps s₀ s) : Answers s₀ s (execActivationSwitch s) true := by
  refine h.onDev ?_
  split
  · exact h.dev
  · exact DevKeeps.ite h.dev (DevKeeps.ite (h.dev.rest).updPhase (h.dev.rest).updSend)

theorem Keeps.execFirmwareOverwrite {component unit ok} (h : Keeps s₀ s) :
    Answers s₀ s (execFirmwareOverwrite component unit ok s) (1 ≤ component && component ≤ 5 && unit < 288) := by
  unfold Machine.execFirmwareOverwrite
  refine (h.onDev ?_).congr (by simp)
  extract_lets k tries fw d1 d2 d3 d4
  have k1 : DevKeeps s₀.dev d1 := h.dev.rest
  have k2 : DevKeeps s₀.dev d2 := DevKeeps.ite k1.setFld (DevKeeps.ite k1.setFld k1)
  have k3 : DevKeeps s₀.dev d3 := DevKeeps.ite k2 k2.overwriteFails
  have k4 : DevKeeps s₀.dev d4 := DevKeeps.ite k3.imageRuns k3
  exact DevKeeps.ite h.dev (DevKeeps.ite h.dev.rest k4.reportActivated)

/-! ### Frahal links -/

theorem Keeps.execLinkMap {src links} (h : Keeps s₀ s) : Answers s₀ s (execLinkMap src links s) (src < 8) :=
  h.onDev (DevKeeps.ite h.dev (h.dev.rest).reroute)

theorem Keeps.execMapExchange {src ecamBase digest} (h : Keeps s₀ s) :
    Answers s₀ s (execMapExchange src ecamBase digest s) (src < 8) := h.onDev h.dev.rest

theorem Keeps.execFlRetireGo {req n v} (h : Keeps s₀ s) : Answers s₀ s (execFlRetireGo req n v s)
    (reqOk req && n < 8) :=
  h.onDev h.dev.flRetireWrite

theorem Keeps.execLinkBlockLockLoss {n} (h : Keeps s₀ s) : Answers s₀ s (execLinkBlockLockLoss n s) (n < 8) :=
  h.onDev (DevKeeps.ite h.dev.retireLink h.dev)

theorem Keeps.execFlitReceive {n crcOk tagOk lane fecCorrected} (h : Keeps s₀ s) :
    Answers s₀ s (execFlitReceive n crcOk tagOk lane fecCorrected s) (n < 8 && lane < 24) :=
  h.onData (DevKeeps.ite h.dev (DevKeeps.ite (DevKeeps.ite (h.dev.addSat.addSat.transient.setLink.foldl
      fun _ _ k => k.candidate) h.dev.addSat.addSat.transient.setLink) (DevKeeps.ite
      (DevKeeps.ite h.dev.addSat.addSat.retireLink h.dev.addSat.addSat.setLink) h.dev.addSat.setLink)))

theorem Keeps.execLinkRekey {n} (h : Keeps s₀ s) : Answers s₀ s (execLinkRekey n s) (n < 8) :=
  h.onDev (DevKeeps.ite h.dev.setLink.addWrap h.dev)

theorem Keeps.execLinkTraining {n o} (h : Keeps s₀ s) : Answers s₀ s (execLinkTraining n o s) (n < 8) := by
  refine h.onDev ?_
  split
  · exact h.dev
  · split
    · exact h.dev.setFld.setFld.setFld.setFld.setFld.setFld.setFld.linkChanged
    · exact h.dev.setFld.log
    · exact h.dev.setFld.setFld.log
    · exact h.dev.setFld

end Sys2Proof.Proofs
end

