-- ==== Sys2Proof/Proofs/InstructionsKeep.lean ====
section
/-!
PROOFS. What each command answers (`Answers`), continued: the chain, the Ledger Engine, resets, and the instructions.
-/

namespace Sys2Proof.Proofs

open Sys2Proof Sys2Proof.Machine Sys2Proof.Laws

variable {s₀ s : State}

/-! ### The chain -/

theorem Keeps.execEnum {v overflow} (h : Keeps s₀ s) : Answers s₀ s (execEnum v overflow s) (v < 8) :=
  h.onDev (DevKeeps.ite h.dev (DevKeeps.ite ((DevKeeps.ite h.dev.setFld.setFld h.dev.setFld).rest) (DevKeeps.ite
      (h.dev.setFld.setFld.rest).chainSend h.dev.setFld.setFld.chainRecord.chainSend)))

theorem Keeps.execEnumRetry (h : Keeps s₀ s) : Answers s₀ s (execEnumRetry s) true :=
  h.onDev (DevKeeps.ite h.dev.setFld.chainSend h.dev)

theorem Keeps.execPing (h : Keeps s₀ s) : Answers s₀ s (execPing s) true := h.onDev h.dev.rest

theorem Keeps.execEcho {roundTrip} (h : Keeps s₀ s) : Answers s₀ s (execEcho roundTrip s) true :=
  h.onDev (DevKeeps.ite h.dev (h.dev.rest).chainSend)

theorem Keeps.execDelay {h' dUp} (h : Keeps s₀ s) : Answers s₀ s (execDelay h' dUp s) (h' < 1024 && dUp < 65536) := by
  unfold Machine.execDelay
  refine (h.onDev ?_).congr (by simp)
  extract_lets chain d1 d2 c d3
  have k1 : DevKeeps s₀.dev d1 := DevKeeps.setFld h.dev.rest
  have k2 : DevKeeps s₀.dev d2 := DevKeeps.ite k1.wiring k1
  exact DevKeeps.ite k2.setFld.chainSend (DevKeeps.ite k2.setFld.rest k2.setFld)

theorem Keeps.execComp {c} (h : Keeps s₀ s) : Answers s₀ s (execComp c s) (c < 65536) := h.onDev h.dev.setFld

theorem Keeps.execFrameStart {f} (h : Keeps s₀ s) : Answers s₀ s (execFrameStart f s) true := h.onDev h.dev.rest

theorem Keeps.execChainMessageReturn {ok} (h : Keeps s₀ s) : Answers s₀ s (execChainMessageReturn ok s) true :=
  h.onDev (DevKeeps.ite h.dev (DevKeeps.ite (h.dev.rest) (DevKeeps.ite h.dev.dropMessage (h.dev.rest))))

theorem Keeps.execChainBreak (h : Keeps s₀ s) : Answers s₀ s (execChainBreak s) true :=
  h.onDev (DevKeeps.ite h.dev (DevKeeps.ite (DevKeeps.ite h.dev.abortAll
      h.dev.abortUpdate).setFld.setFld.addSat.chainRecord.setFld.tickLost
      (DevKeeps.ite h.dev.abortAll h.dev.abortUpdate).setFld.setFld.addSat.chainRecord))

theorem Keeps.execCheck {mask} (h : Keeps s₀ s) : Answers s₀ s (execCheck mask s) true :=
  h.onDev (DevKeeps.ite h.dev h.dev.setFld.setFld.chainSend)

theorem Keeps.execResyncStart (h : Keeps s₀ s) : Answers s₀ s (execResyncStart s) true :=
  h.onDev (DevKeeps.ite h.dev (DevKeeps.ite h.dev.startResync h.dev))

theorem Keeps.execResyncReq {req v} (h : Keeps s₀ s) : Answers s₀ s (execResyncReq req v s) (reqOk req) :=
  h.onDev h.dev.tickCtlWrite

theorem Keeps.execResyncReport {src f} (h : Keeps s₀ s) : Answers s₀ s (execResyncReport src f s) (src < 8) :=
  h.onDev (DevKeeps.ite h.dev (h.dev.rest).announceResync)

theorem Keeps.execResyncSet {n} (h : Keeps s₀ s) : Answers s₀ s (execResyncSet n s) true :=
  h.onDev (DevKeeps.ite h.dev (h.dev.rest))

theorem Keeps.execResyncTimeout (h : Keeps s₀ s) : Answers s₀ s (execResyncTimeout s) true :=
  h.onDev (DevKeeps.ite (h.dev.setFld.rest).chainRecord h.dev)

theorem Keeps.execRingCloseCheck {answers newSocket} (h : Keeps s₀ s) :
    Answers s₀ s (execRingCloseCheck answers newSocket s) true :=
  h.onDev (DevKeeps.ite h.dev (DevKeeps.ite h.dev.chainRecord
      (DevKeeps.ite h.dev h.dev.setFld.setFld.setFld.startResync)))

theorem Keeps.execChainTickPulse {off} (h : Keeps s₀ s) : Answers s₀ s (execChainTickPulse off s) true := by
  refine h.onDev ?_
  split
  · exact h.dev.rest
  · exact DevKeeps.ite (h.dev.setFld.rest) (DevKeeps.ite (DevKeeps.ite (h.dev.setFld.rest).setFld
        (h.dev.setFld.rest)).tickEvent (DevKeeps.ite (h.dev.setFld.rest).setFld (h.dev.setFld.rest)))

theorem Keeps.execTickLoss (h : Keeps s₀ s) : Answers s₀ s (execTickLoss s) true :=
  h.onDev (DevKeeps.ite h.dev.tickLost h.dev)

/-! ### Vectors -/

theorem Keeps.vcrc {g w d a b f} (h : Keeps s₀ s) : Answers s₀ s (vcrc g w d a b s f) (strandOk g) :=
  h.runInsn fun _ k => k.long

theorem Keeps.execVadd {g w d a b} (h : Keeps s₀ s) : Answers s₀ s (execVadd g w d a b s) (strandOk g) := h.execVVV

theorem Keeps.execVsub {g w d a b} (h : Keeps s₀ s) : Answers s₀ s (execVsub g w d a b s) (strandOk g) := h.execVVV

theorem Keeps.execVand {g d a b} (h : Keeps s₀ s) (w : BitVec 2) : Answers s₀ s (execVand g w d a b s) (strandOk g) :=
  h.execVVV

theorem Keeps.execVor {g d a b} (h : Keeps s₀ s) (w : BitVec 2) : Answers s₀ s (execVor g w d a b s) (strandOk g) :=
  h.execVVV

theorem Keeps.execVxor {g d a b} (h : Keeps s₀ s) (w : BitVec 2) : Answers s₀ s (execVxor g w d a b s) (strandOk g) :=
  h.execVVV

theorem Keeps.execVandn {g d a b} (h : Keeps s₀ s) (w : BitVec 2) : Answers s₀ s (execVandn g w d a b s)
    (strandOk g) :=
  h.execVVV

theorem Keeps.execVmin {g w d a b} (h : Keeps s₀ s) : Answers s₀ s (execVmin g w d a b s) (strandOk g) := h.execVVV

theorem Keeps.execVmax {g w d a b} (h : Keeps s₀ s) : Answers s₀ s (execVmax g w d a b s) (strandOk g) := h.execVVV

theorem Keeps.execVminu {g w d a b} (h : Keeps s₀ s) : Answers s₀ s (execVminu g w d a b s) (strandOk g) := h.execVVV

theorem Keeps.execVmaxu {g w d a b} (h : Keeps s₀ s) : Answers s₀ s (execVmaxu g w d a b s) (strandOk g) := h.execVVV

theorem Keeps.execVshl {g w d a b} (h : Keeps s₀ s) : Answers s₀ s (execVshl g w d a b s) (strandOk g) := h.execVVN

theorem Keeps.execVshr {g w d a b} (h : Keeps s₀ s) : Answers s₀ s (execVshr g w d a b s) (strandOk g) := h.execVVN

theorem Keeps.execVsar {g w d a b} (h : Keeps s₀ s) : Answers s₀ s (execVsar g w d a b s) (strandOk g) := h.execVVN

theorem Keeps.execVsplat {g w d a b} (h : Keeps s₀ s) : Answers s₀ s (execVsplat g w d a b s) (strandOk g) :=
  h.execVN

theorem Keeps.execVext {g w d a b} (h : Keeps s₀ s) : Answers s₀ s (execVext g w d a b s) (strandOk g) := h.execNV

theorem Keeps.execVins {g w d a b} (h : Keeps s₀ s) : Answers s₀ s (execVins g w d a b s) (strandOk g) := h.execVN

theorem Keeps.execVcmpeq {g w d a b} (h : Keeps s₀ s) : Answers s₀ s (execVcmpeq g w d a b s) (strandOk g) :=
  h.execNVV

theorem Keeps.execVcmplt {g w d a b} (h : Keeps s₀ s) : Answers s₀ s (execVcmplt g w d a b s) (strandOk g) :=
  h.execNVV

theorem Keeps.execVcmpltu {g w d a b} (h : Keeps s₀ s) : Answers s₀ s (execVcmpltu g w d a b s) (strandOk g) :=
  h.execNVV

theorem Keeps.execVsel {g w d a b} (h : Keeps s₀ s) : Answers s₀ s (execVsel g w d a b s) (strandOk g) := h.execVVN

theorem Keeps.execVcompress {g w d a b} (h : Keeps s₀ s) : Answers s₀ s (execVcompress g w d a b s) (strandOk g) :=
  h.execVVN

theorem Keeps.execVcrc32c {g w k d a b} (h : Keeps s₀ s) : Answers s₀ s (execVcrc32c g w k d a b s) (strandOk g) :=
  h.vcrc

theorem Keeps.execVcrc64 {g w k d a b} (h : Keeps s₀ s) : Answers s₀ s (execVcrc64 g w k d a b s) (strandOk g) :=
  h.vcrc

theorem Keeps.execVhmix {g w d a b} (h : Keeps s₀ s) : Answers s₀ s (execVhmix g w d a b s) (strandOk g) :=
  h.execVVVLong

theorem Keeps.execVhfold {g w d a b} (h : Keeps s₀ s) : Answers s₀ s (execVhfold g w d a b s) (strandOk g) :=
  h.runInsn fun _ k => k.long

/-! ### The Ledger Engine -/

theorem Keeps.execCopy {q sq} (h : Keeps s₀ s) : Answers s₀ s (execCopy q sq s) (q < 8192) :=
  h.onLedger fun _ k => k.runDesc fun _ _ _ k => k.runCopy

theorem Keeps.execFill {q sq} (h : Keeps s₀ s) : Answers s₀ s (execFill q sq s) (q < 8192) :=
  h.onLedger fun _ k => k.runDesc fun _ _ _ k => k.runFill

theorem Keeps.execAppend {q sq} (h : Keeps s₀ s) : Answers s₀ s (execAppend q sq s) (q < 8192) :=
  h.onLedger fun _ k => k.runDesc fun _ _ _ k => k.runAppend

theorem Keeps.execDigest {q sq} (h : Keeps s₀ s) : Answers s₀ s (execDigest q sq s) (q < 8192) :=
  h.onLedger fun _ k => k.runDesc fun _ _ _ k => k.runDigest

theorem Keeps.execEncrypt {q sq} (h : Keeps s₀ s) : Answers s₀ s (execEncrypt q sq s) (q < 8192) :=
  h.onLedger fun _ k => k.runDesc fun _ _ _ k => k.runEncrypt

theorem Keeps.execCompare {q sq} (h : Keeps s₀ s) : Answers s₀ s (execCompare q sq s) (q < 8192) :=
  h.onLedger fun _ k => k.runDesc fun _ _ _ k => k.runCompare

theorem Keeps.execStashcopy {q sq} (h : Keeps s₀ s) : Answers s₀ s (execStashcopy q sq s) (q < 8192) :=
  h.onLedger fun _ k => k.runDesc fun _ _ _ k => k.runCopy

theorem Keeps.execSqDoorbell {q v} (h : Keeps s₀ s) : Answers s₀ s (execSqDoorbell q v s) (q < 8192) :=
  h.onDev h.dev.sqDoorbell

theorem Keeps.execDescriptorFetch {q} (h : Keeps s₀ s) : Answers s₀ s (execDescriptorFetch q s) (q < 8192) :=
  h.onData h.dev.fetchDesc

theorem Keeps.execQueueEnable {q v} (h : Keeps s₀ s) : Answers s₀ s (execQueueEnable q v s) (q < 8192) :=
  h.onDev h.dev.queueCtl

theorem Keeps.execQpAssign {q v} (h : Keeps s₀ s) : Answers s₀ s (execQpAssign q v s) (q < 8192) :=
  h.onDev h.dev.qpAssign

theorem Keeps.execCompletionWrite {q sq} (h : Keeps s₀ s) : Answers s₀ s (execCompletionWrite q sq s) (q < 8192) := by
  refine h.onLedger fun _ k => ?_
  split
  · exact k
  · exact Keeps.ite k.complete k

theorem Keeps.execStreamEnable {st v} (h : Keeps s₀ s) : Answers s₀ s (execStreamEnable st v s) (st < 4096) :=
  h.onDev h.dev.streamCtl

theorem Keeps.execStreamDisable {st v} (h : Keeps s₀ s) : Answers s₀ s (execStreamDisable st v s) (st < 4096) :=
  h.onDev h.dev.streamCtl

theorem Keeps.execFlr {f} (h : Keeps s₀ s) : Answers s₀ s (execFlr f s) (f < 2048) := h.onDev h.dev.flr

theorem Keeps.execD3hotEntry {f} (h : Keeps s₀ s) : Answers s₀ s (execD3hotEntry f s) (f < 2048) :=
  h.onDev h.dev.enterD3

theorem Keeps.execVfEnable {on numVfs} (h : Keeps s₀ s) : Answers s₀ s (execVfEnable on numVfs s) (numVfs < 2048) :=
  h.onDev h.dev.vfEnable

theorem Keeps.execBusMasterEnable {f on} (h : Keeps s₀ s) : Answers s₀ s (execBusMasterEnable f on s) (f < 2048) :=
  h.onDev h.dev.setBme

theorem Keeps.execQuiesceComplete {f} (h : Keeps s₀ s) : Answers s₀ s (execQuiesceComplete f s) (f < 2048) :=
  h.onDev h.dev.quiesceDone

theorem Keeps.execDlogGen {v x} (h : Keeps s₀ s) : Answers s₀ s (execDlogGen v x s) (1 ≤ v && v < 2048) :=
  h.onDev h.dev.dlogGenWrite

theorem Keeps.execDlogGenAck {v} (h : Keeps s₀ s) : Answers s₀ s (execDlogGenAck v s) (1 ≤ v && v < 2048) :=
  h.onDev h.dev.setFld

theorem Keeps.execDlogRingHeadWrite {v x} (h : Keeps s₀ s) :
    Answers s₀ s (execDlogRingHeadWrite v x s) (1 ≤ v && v < 2048) := h.onDev h.dev.dlogHeadWrite

theorem Keeps.execLedgerDrainStop (h : Keeps s₀ s) : Answers s₀ s (execLedgerDrainStop s) true :=
  h.onDev (DevKeeps.ite h.dev ((h.dev.foldl fun _ _ k => k.stopDesc).rest).phaseDone)

/-! ### Retirement -/

theorem Keeps.execConfirmationTest {kind inst o} (h : Keeps s₀ s) :
    Answers s₀ s (execConfirmationTest kind inst o s) true := by
  unfold Machine.execConfirmationTest
  refine .always ?_
  split
  · exact .next h
  · split
    · exact .next (h.withDev h.dev.clearCandidate)
    · exact .next h.confirmed

/-! ### Clocks -/

theorem Keeps.execRefclkLoss (h : Keeps s₀ s) : Answers s₀ s (execRefclkLoss s) true := by
  unfold Machine.execRefclkLoss
  refine .always ?_
  dsimp only
  split
  · exact .next h
  · exact .next (h.withDev h.dev.setFld.addSat.log).enterCushion

theorem Keeps.execRefclkReturn (h : Keeps s₀ s) : Answers s₀ s (execRefclkReturn s) true := h.onDev h.dev.setFld

theorem Keeps.execTileRatioWrite {req t' v} (h : Keeps s₀ s) :
    Answers s₀ s (execTileRatioWrite req t' v s) (reqOk req && t' < 144) := h.onDev h.dev.tileClkWrite

theorem Keeps.execPllSettle {p} (h : Keeps s₀ s) : Answers s₀ s (execPllSettle p s) (p < 197) :=
  h.onDev (DevKeeps.ite h.dev (DevKeeps.ite h.dev.setFld.setFld.setFld h.dev.setFld))

theorem Keeps.execVidAck {f mv} (h : Keeps s₀ s) : Answers s₀ s (execVidAck f mv s) (f < 4) :=
  h.onDev (DevKeeps.foldl (h.dev.setFld.setFld).rest fun _ _ k => k.pllStart)

theorem Keeps.execVidTimeout {f} (h : Keeps s₀ s) : Answers s₀ s (execVidTimeout f s) (f < 4) :=
  h.onDev (DevKeeps.ite h.dev ((h.dev.rest).foldl fun _ _ k => k.setFld.setFld.setClk).log)

theorem Keeps.execPowerThrottle {watts} (h : Keeps s₀ s) : Answers s₀ s (execPowerThrottle watts s) true :=
  h.onDev (DevKeeps.ite (h.dev.foldl fun _ _ k => k.stepDown) (DevKeeps.ite (h.dev.foldl
      fun _ _ k => k.stepUp) h.dev))

theorem Keeps.execThermalThrottle {t' temp} (h : Keeps s₀ s) : Answers s₀ s (execThermalThrottle t' temp s)
    (t' < 144) :=
  h.onDev (DevKeeps.ite h.dev.setFld.stepDown h.dev.setFld)

theorem Keeps.execDeepParkEntry {c} (h : Keeps s₀ s) : Answers s₀ s (execDeepParkEntry c s) (coreOk c) := by
  unfold Machine.execDeepParkEntry
  refine .guard ?_
  dsimp only
  split
  · exact .next h
  · exact .next (((h.withDev h.dev.clearL1.clearL1.flushBtb.setFld).setStrand
        ((h.withDev h.dev.clearL1.clearL1.flushBtb.setFld).strandAt.rest)).setStrand
        (((h.withDev h.dev.clearL1.clearL1.flushBtb.setFld).setStrand
        ((h.withDev h.dev.clearL1.clearL1.flushBtb.setFld).strandAt.rest)).strandAt.rest))

theorem Keeps.execThermtrip (h : Keeps s₀ s) : Answers s₀ s (execThermtrip s) true := h.onDev h.dev.rest

theorem Keeps.execOvertempClockStop (h : Keeps s₀ s) : Answers s₀ s (execOvertempClockStop s) true :=
  h.onDev h.dev.tearDrain.rest

/-! ### Resets -/

theorem Keeps.execPowerUp {p} (h : Keeps s₀ s) : Answers s₀ s (execPowerUp p s) true := by
  unfold Machine.execPowerUp
  refine .always ?_
  split
  · exact .next h
  · split
    · exact .next h
    · exact .next h.powerOn

theorem Keeps.execPwrfailNRise {p} (h : Keeps s₀ s) : Answers s₀ s (execPwrfailNRise p s) true := by
  unfold Machine.execPwrfailNRise
  refine .always ?_
  dsimp only
  split
  · split
    · exact .next (h.withDev h.dev.setFld).coldOrWarm
    · exact .next (h.withDev h.dev.setFld).powerOn
  · exact .next (h.withDev h.dev.setFld).powerOn
  · exact .next (h.withDev h.dev.setFld)

theorem Keeps.execColdResetPin (h : Keeps s₀ s) : Answers s₀ s (execColdResetPin s) true := by
  unfold Machine.execColdResetPin
  refine .always ?_
  split
  · exact .next h
  · exact .next h
  · exact .next h.coldOrWarm

theorem Keeps.execColdReset {req v} (h : Keeps s₀ s) : Answers s₀ s (execColdReset req v s) (reqOk req) :=
  .guarded (.next h.resetCtlWrite)

theorem Keeps.execWarmReset {req v} (h : Keeps s₀ s) : Answers s₀ s (execWarmReset req v s) (reqOk req) :=
  .guarded (.next h.resetCtlWrite)

theorem Keeps.execStrandReset {req v} (h : Keeps s₀ s) : Answers s₀ s (execStrandReset req v s) (reqOk req) :=
  .guarded (.next h.resetCtlWrite)

theorem Keeps.execReset {ch kind key} (h : Keeps s₀ s) : Answers s₀ s (execReset ch kind key s) true := by
  unfold Machine.execReset
  extract_lets d
  have k : DevKeeps s₀.dev d := h.dev.manage fun d k => by
    split
    · exact k
    · split
      · exact k
      · exact k.rest
  exact .always (.ite (.next (Keeps.ite (h.withDev k.rest).coldOrWarm (h.withDev k.rest).warm)) (.next (h.withDev k)))

/-! ### The frame tick -/

theorem Keeps.execFrameTick (h : Keeps s₀ s) : Answers s₀ s (execFrameTick s) true := by
  refine h.onDev ?_
  split
  · exact h.dev
  · exact h.dev
  · exact h.dev
  · exact h.dev.advanceFrame.frameTasks.linesAgain
  · exact h.dev.advanceFrame.foldl fun _ _ k => k.closeBank
  · exact h.dev.advanceFrame

theorem Keeps.execTaskAbandon {task} (h : Keeps s₀ s) : Answers s₀ s (execTaskAbandon task s) (taskOk task) := by
  refine h.onDev ?_
  split
  · exact DevKeeps.ite h.dev h.dev.setChan.addSat.missRecord.tickEvent
  · exact DevKeeps.ite h.dev h.dev.setEngine.addSat.missRecord.tickEvent
  · split
    · exact h.dev
    · exact (h.dev.rest).setReg.addSat.tickEvent

/-! ### Register writes -/

theorem Keeps.execBootLock {req v} (h : Keeps s₀ s) : Answers s₀ s (execBootLock req v s) (reqOk req) :=
  h.onDev h.dev.lockWrite

theorem Keeps.execRegisterWrite {req off v} (h : Keeps s₀ s) :
    Answers s₀ s (execRegisterWrite req off v s) (reqOk req && off < 2 ^ 34) := by
  unfold Machine.execRegisterWrite
  refine .guard ?_
  dsimp only
  split
  · split
    · exact .next h.portCfgWrite
    · exact .next h
  · split
    · exact .next h
    · exact .next h.regWrite

/-! ### Accesses -/

theorem Keeps.execStoreBufferEntryLeave {g} (h : Keeps s₀ s) :
    Answers s₀ s (execStoreBufferEntryLeave g s) (strandOk g) := by
  unfold Machine.execStoreBufferEntryLeave
  refine .guard (.clocks ?_)
  dsimp only
  split
  · exact .next h
  · split
    · exact .next h
    · split
      · exact .next h.leaveWb
      · exact .next h.leaveBypass
      · exact .next h.leaveDevice
      · exact .next h.leaveStash
      · exact .next h.leavePstnt

/-! ### Atomics -/

theorem FlowKept.ite {c : Prop} [Decidable c] {f f' : Flow} (h : FlowKept s₀ f) (k : FlowKept s₀ f') :
    FlowKept s₀ (if c then f else f') := by
  split
  · exact h
  · exact k

theorem Keeps.execLda {g z e} (h : Keeps s₀ s) : Answers s₀ s (execLda g z e s) (strandOk g) :=
  h.runInsn fun _ k => FlowKept.ite k k.load

theorem Keeps.execSta {g z e} (h : Keeps s₀ s) : Answers s₀ s (execSta g z e s) (strandOk g) := by
  refine h.runInsn fun t k => ?_
  dsimp only
  have ks : FlowKept s₀ (t.store g ((t.strand g).getN e.a) (leBytes (zBytes z)
      ((t.strand g).getN e.b).toNat) true) := k.store
  split
  · rename_i he
    rw [he] at ks
    exact FlowKept.ite ks k
  · exact ks

theorem Keeps.runAtomic {g op z e} (h : Keeps s₀ s) : Answers s₀ s (runAtomic g op z e s) (strandOk g) :=
  h.runInsn fun _ k => k.atomic

theorem Keeps.execAadd {g z e} (h : Keeps s₀ s) : Answers s₀ s (execAadd g z e s) (strandOk g) := h.runAtomic

theorem Keeps.execAswap {g z e} (h : Keeps s₀ s) : Answers s₀ s (execAswap g z e s) (strandOk g) := h.runAtomic

theorem Keeps.execAcas {g z e} (h : Keeps s₀ s) : Answers s₀ s (execAcas g z e s) (strandOk g) := h.runAtomic

theorem Keeps.execAand {g z e} (h : Keeps s₀ s) : Answers s₀ s (execAand g z e s) (strandOk g) := h.runAtomic

theorem Keeps.execAor {g z e} (h : Keeps s₀ s) : Answers s₀ s (execAor g z e s) (strandOk g) := h.runAtomic

theorem Keeps.execAmin {g z e} (h : Keeps s₀ s) : Answers s₀ s (execAmin g z e s) (strandOk g) := h.runAtomic

theorem Keeps.execAmax {g z e} (h : Keeps s₀ s) : Answers s₀ s (execAmax g z e s) (strandOk g) := h.runAtomic

theorem Keeps.execAminu {g z e} (h : Keeps s₀ s) : Answers s₀ s (execAminu g z e s) (strandOk g) := h.runAtomic

theorem Keeps.execAmaxu {g z e} (h : Keeps s₀ s) : Answers s₀ s (execAmaxu g z e s) (strandOk g) := h.runAtomic

/-! ### Branches -/

/-- A displacement in words keeps an address that of an instruction. -/
theorem ofInt_mul_four_mod (i : Int) : (BitVec.ofInt 64 (i * 4)).toNat % 4 = 0 := by
  rw [BitVec.toNat_ofInt]
  omega

theorem Keeps.condBranch {g A H rs disp cond} (h : Keeps s₀ s) :
    Answers s₀ s (condBranch g A H rs disp cond s) (strandOk g) :=
  h.runInsn fun _ k => Keeps.transfer
  (Keeps.ite (Keeps.countDirect (Keeps.ite k.count k)) (Keeps.ite k.count k))
  fun o => add_mod_four (k.strandAt o).pc (ofInt_mul_four_mod _)

theorem Keeps.directJump {g A disp link} (h : Keeps s₀ s) : Answers s₀ s (directJump g A disp link s) (strandOk g) :=
  h.runInsn fun _ k => Keeps.transfer (Keeps.ite (Keeps.count k.countDirect) k.countDirect)
  fun o => add_mod_four (k.strandAt o).pc (ofInt_mul_four_mod _)

theorem Keeps.regJump {g A legal a link ret} (h : Keeps s₀ s) :
    Answers s₀ s (regJump g A legal a link ret s) (strandOk g) :=
  h.runInsn fun _ k => Keeps.transfer
  (Keeps.ite (Keeps.count (Keeps.ite k k.count)) (Keeps.ite k k.count)) fun _ => align4_mod _

theorem Keeps.execBeq {g A H a disp} (h : Keeps s₀ s) : Answers s₀ s (execBeq g A H a disp s) (strandOk g) :=
  h.condBranch

theorem Keeps.execBne {g A H a disp} (h : Keeps s₀ s) : Answers s₀ s (execBne g A H a disp s) (strandOk g) :=
  h.condBranch

theorem Keeps.execBlt {g A H a disp} (h : Keeps s₀ s) : Answers s₀ s (execBlt g A H a disp s) (strandOk g) :=
  h.condBranch

theorem Keeps.execBge {g A H a disp} (h : Keeps s₀ s) : Answers s₀ s (execBge g A H a disp s) (strandOk g) :=
  h.condBranch

theorem Keeps.execBle {g A H a disp} (h : Keeps s₀ s) : Answers s₀ s (execBle g A H a disp s) (strandOk g) :=
  h.condBranch

theorem Keeps.execBgt {g A H a disp} (h : Keeps s₀ s) : Answers s₀ s (execBgt g A H a disp s) (strandOk g) :=
  h.condBranch

theorem Keeps.execBceq {g A H a b disp} (h : Keeps s₀ s) : Answers s₀ s (execBceq g A H a b disp s) (strandOk g) :=
  h.condBranch

theorem Keeps.execBcne {g A H a b disp} (h : Keeps s₀ s) : Answers s₀ s (execBcne g A H a b disp s) (strandOk g) :=
  h.condBranch

theorem Keeps.execBclt {g A H a b disp} (h : Keeps s₀ s) : Answers s₀ s (execBclt g A H a b disp s) (strandOk g) :=
  h.condBranch

theorem Keeps.execBcge {g A H a b disp} (h : Keeps s₀ s) : Answers s₀ s (execBcge g A H a b disp s) (strandOk g) :=
  h.condBranch

theorem Keeps.execBcltu {g A H a b disp} (h : Keeps s₀ s) : Answers s₀ s (execBcltu g A H a b disp s) (strandOk g) :=
  h.condBranch

theorem Keeps.execBcgeu {g A H a b disp} (h : Keeps s₀ s) : Answers s₀ s (execBcgeu g A H a b disp s) (strandOk g) :=
  h.condBranch

theorem Keeps.execJ {g A disp} (h : Keeps s₀ s) : Answers s₀ s (execJ g A disp s) (strandOk g) := h.directJump

theorem Keeps.execCall {g A disp} (h : Keeps s₀ s) : Answers s₀ s (execCall g A disp s) (strandOk g) := h.directJump

theorem Keeps.execJr {g A z d a b} (h : Keeps s₀ s) : Answers s₀ s (execJr g A z d a b s) (strandOk g) := h.regJump

theorem Keeps.execCallr {g A z d a b} (h : Keeps s₀ s) : Answers s₀ s (execCallr g A z d a b s) (strandOk g) :=
  h.regJump

theorem Keeps.execRet {g A z d a b} (h : Keeps s₀ s) : Answers s₀ s (execRet g A z d a b s) (strandOk g) := h.regJump

/-! ### Floating point -/

theorem Keeps.execFadd {g d a b} (h : Keeps s₀ s) : Answers s₀ s (execFadd g d a b s) (strandOk g) := h.execFFF

theorem Keeps.execFsub {g d a b} (h : Keeps s₀ s) : Answers s₀ s (execFsub g d a b s) (strandOk g) := h.execFFF

theorem Keeps.execFmul {g d a b} (h : Keeps s₀ s) : Answers s₀ s (execFmul g d a b s) (strandOk g) := h.execFFF

theorem Keeps.execFdiv {g d a b} (h : Keeps s₀ s) : Answers s₀ s (execFdiv g d a b s) (strandOk g) := h.execVVVLong

theorem Keeps.execFsqrt {g d a b} (h : Keeps s₀ s) : Answers s₀ s (execFsqrt g d a b s) (strandOk g) := h.execVVVLong

theorem Keeps.execFma {g d a b} (h : Keeps s₀ s) : Answers s₀ s (execFma g d a b s) (strandOk g) := h.execFFF

theorem Keeps.execFmin {g d a b} (h : Keeps s₀ s) : Answers s₀ s (execFmin g d a b s) (strandOk g) := h.execFFF

theorem Keeps.execFmax {g d a b} (h : Keeps s₀ s) : Answers s₀ s (execFmax g d a b s) (strandOk g) := h.execFFF

theorem Keeps.execFabs {g d a b} (h : Keeps s₀ s) : Answers s₀ s (execFabs g d a b s) (strandOk g) := h.execFFF

theorem Keeps.execFneg {g d a b} (h : Keeps s₀ s) : Answers s₀ s (execFneg g d a b s) (strandOk g) := h.execFFF

theorem Keeps.execFeq {g d a b} (h : Keeps s₀ s) : Answers s₀ s (execFeq g d a b s) (strandOk g) := h.execNVV

theorem Keeps.execFlt {g d a b} (h : Keeps s₀ s) : Answers s₀ s (execFlt g d a b s) (strandOk g) := h.execNVV

theorem Keeps.execFle {g d a b} (h : Keeps s₀ s) : Answers s₀ s (execFle g d a b s) (strandOk g) := h.execNVV

theorem Keeps.execFcvtLD {g d a b} (h : Keeps s₀ s) : Answers s₀ s (execFcvtLD g d a b s) (strandOk g) := h.execNV

theorem Keeps.execFcvtLuD {g d a b} (h : Keeps s₀ s) : Answers s₀ s (execFcvtLuD g d a b s) (strandOk g) := h.execNV

theorem Keeps.execFcvtDL {g d a b} (h : Keeps s₀ s) : Answers s₀ s (execFcvtDL g d a b s) (strandOk g) := h.execVN

theorem Keeps.execFcvtDLu {g d a b} (h : Keeps s₀ s) : Answers s₀ s (execFcvtDLu g d a b s) (strandOk g) := h.execVN

theorem Keeps.execFcvtSD {g d a b} (h : Keeps s₀ s) : Answers s₀ s (execFcvtSD g d a b s) (strandOk g) := h.execVVV

theorem Keeps.execFcvtDS {g d a b} (h : Keeps s₀ s) : Answers s₀ s (execFcvtDS g d a b s) (strandOk g) := h.execVVV

theorem Keeps.execFmvN {g d a b} (h : Keeps s₀ s) : Answers s₀ s (execFmvN g d a b s) (strandOk g) := h.execNV

theorem Keeps.execFmvV {g d a b} (h : Keeps s₀ s) : Answers s₀ s (execFmvV g d a b s) (strandOk g) := h.execVN

/-! ### Integers -/

theorem Keeps.execAdd {g d a b} (h : Keeps s₀ s) : Answers s₀ s (execAdd g d a b s) (strandOk g) := h.execNNN

theorem Keeps.execSub {g d a b} (h : Keeps s₀ s) : Answers s₀ s (execSub g d a b s) (strandOk g) := h.execNNN

theorem Keeps.execAnd {g d a b} (h : Keeps s₀ s) : Answers s₀ s (execAnd g d a b s) (strandOk g) := h.execNNN

theorem Keeps.execOr {g d a b} (h : Keeps s₀ s) : Answers s₀ s (execOr g d a b s) (strandOk g) := h.execNNN

theorem Keeps.execXor {g d a b} (h : Keeps s₀ s) : Answers s₀ s (execXor g d a b s) (strandOk g) := h.execNNN

theorem Keeps.execAndn {g d a b} (h : Keeps s₀ s) : Answers s₀ s (execAndn g d a b s) (strandOk g) := h.execNNN

theorem Keeps.execShl {g d a b} (h : Keeps s₀ s) : Answers s₀ s (execShl g d a b s) (strandOk g) := h.execNNN

theorem Keeps.execShr {g d a b} (h : Keeps s₀ s) : Answers s₀ s (execShr g d a b s) (strandOk g) := h.execNNN

theorem Keeps.execSar {g d a b} (h : Keeps s₀ s) : Answers s₀ s (execSar g d a b s) (strandOk g) := h.execNNN

theorem Keeps.execRor {g d a b} (h : Keeps s₀ s) : Answers s₀ s (execRor g d a b s) (strandOk g) := h.execNNN

theorem Keeps.execSlt {g d a b} (h : Keeps s₀ s) : Answers s₀ s (execSlt g d a b s) (strandOk g) := h.execNNN

theorem Keeps.execSltu {g d a b} (h : Keeps s₀ s) : Answers s₀ s (execSltu g d a b s) (strandOk g) := h.execNNN

theorem Keeps.execSeq {g d a b} (h : Keeps s₀ s) : Answers s₀ s (execSeq g d a b s) (strandOk g) := h.execNNN

theorem Keeps.execMin {g d a b} (h : Keeps s₀ s) : Answers s₀ s (execMin g d a b s) (strandOk g) := h.execNNN

theorem Keeps.execMax {g d a b} (h : Keeps s₀ s) : Answers s₀ s (execMax g d a b s) (strandOk g) := h.execNNN

theorem Keeps.execMinu {g d a b} (h : Keeps s₀ s) : Answers s₀ s (execMinu g d a b s) (strandOk g) := h.execNNN

theorem Keeps.execMaxu {g d a b} (h : Keeps s₀ s) : Answers s₀ s (execMaxu g d a b s) (strandOk g) := h.execNNN

theorem Keeps.execClz {g d a b} (h : Keeps s₀ s) : Answers s₀ s (execClz g d a b s) (strandOk g) := h.execNNN

theorem Keeps.execCtz {g d a b} (h : Keeps s₀ s) : Answers s₀ s (execCtz g d a b s) (strandOk g) := h.execNNN

theorem Keeps.execPopc {g d a b} (h : Keeps s₀ s) : Answers s₀ s (execPopc g d a b s) (strandOk g) := h.execNNN

theorem Keeps.execBswap {g d a b} (h : Keeps s₀ s) : Answers s₀ s (execBswap g d a b s) (strandOk g) := h.execNNN

theorem Keeps.execAddw {g d a b} (h : Keeps s₀ s) : Answers s₀ s (execAddw g d a b s) (strandOk g) := h.execNNN

theorem Keeps.execSubw {g d a b} (h : Keeps s₀ s) : Answers s₀ s (execSubw g d a b s) (strandOk g) := h.execNNN

theorem Keeps.execSextb {g d a b} (h : Keeps s₀ s) : Answers s₀ s (execSextb g d a b s) (strandOk g) := h.execNNN

theorem Keeps.execSexth {g d a b} (h : Keeps s₀ s) : Answers s₀ s (execSexth g d a b s) (strandOk g) := h.execNNN

theorem Keeps.execSextw {g d a b} (h : Keeps s₀ s) : Answers s₀ s (execSextw g d a b s) (strandOk g) := h.execNNN

theorem Keeps.execZextw {g d a b} (h : Keeps s₀ s) : Answers s₀ s (execZextw g d a b s) (strandOk g) := h.execNNN

theorem Keeps.execAddi {g d a imm} (h : Keeps s₀ s) : Answers s₀ s (execAddi g d a imm s) (strandOk g) := h.execNNI

theorem Keeps.execAndi {g d a imm} (h : Keeps s₀ s) : Answers s₀ s (execAndi g d a imm s) (strandOk g) := h.execNNI

theorem Keeps.execOri {g d a imm} (h : Keeps s₀ s) : Answers s₀ s (execOri g d a imm s) (strandOk g) := h.execNNI

theorem Keeps.execXori {g d a imm} (h : Keeps s₀ s) : Answers s₀ s (execXori g d a imm s) (strandOk g) := h.execNNI

theorem Keeps.execSlti {g d a imm} (h : Keeps s₀ s) : Answers s₀ s (execSlti g d a imm s) (strandOk g) := h.execNNI

theorem Keeps.execSltiu {g d a imm} (h : Keeps s₀ s) : Answers s₀ s (execSltiu g d a imm s) (strandOk g) := h.execNNI

theorem Keeps.execShli {g d a hi sh} (h : Keeps s₀ s) : Answers s₀ s (execShli g d a hi sh s) (strandOk g) :=
  h.execNNI

theorem Keeps.execShri {g d a hi sh} (h : Keeps s₀ s) : Answers s₀ s (execShri g d a hi sh s) (strandOk g) :=
  h.execNNI

theorem Keeps.execSari {g d a hi sh} (h : Keeps s₀ s) : Answers s₀ s (execSari g d a hi sh s) (strandOk g) :=
  h.execNNI

theorem Keeps.execRori {g d a hi sh} (h : Keeps s₀ s) : Answers s₀ s (execRori g d a hi sh s) (strandOk g) :=
  h.execNNI

theorem Keeps.execLui {g d a imm} (h : Keeps s₀ s) : Answers s₀ s (execLui g d a imm s) (strandOk g) := h.execNNI

theorem Keeps.execHins {g d a imm} (h : Keeps s₀ s) : Answers s₀ s (execHins g d a imm s) (strandOk g) := h.execNNI

theorem Keeps.execApc {g d a imm} (h : Keeps s₀ s) : Answers s₀ s (execApc g d a imm s) (strandOk g) :=
  h.runInsn fun _ k => k.setN

theorem Keeps.execMul {g d a b} (h : Keeps s₀ s) : Answers s₀ s (execMul g d a b s) (strandOk g) := h.execNNN

theorem Keeps.execMulh {g d a b} (h : Keeps s₀ s) : Answers s₀ s (execMulh g d a b s) (strandOk g) := h.execNNN

theorem Keeps.execMulhu {g d a b} (h : Keeps s₀ s) : Answers s₀ s (execMulhu g d a b s) (strandOk g) := h.execNNN

theorem Keeps.execMulw {g d a b} (h : Keeps s₀ s) : Answers s₀ s (execMulw g d a b s) (strandOk g) := h.execNNN

theorem Keeps.execDiv {g d a b} (h : Keeps s₀ s) : Answers s₀ s (execDiv g d a b s) (strandOk g) := h.execNNNLong

theorem Keeps.execDivu {g d a b} (h : Keeps s₀ s) : Answers s₀ s (execDivu g d a b s) (strandOk g) := h.execNNNLong

theorem Keeps.execRem {g d a b} (h : Keeps s₀ s) : Answers s₀ s (execRem g d a b s) (strandOk g) := h.execNNNLong

theorem Keeps.execRemu {g d a b} (h : Keeps s₀ s) : Answers s₀ s (execRemu g d a b s) (strandOk g) := h.execNNNLong

/-! ### Loads and stores -/

theorem Keeps.loadN {g n signed t' base imm} (h : Keeps s₀ s) :
    Answers s₀ s (loadN g n signed t' base imm s) (strandOk g) := h.runInsn fun _ k => k.load

theorem Keeps.loadV {g n t' base imm} (h : Keeps s₀ s) : Answers s₀ s (loadV g n t' base imm s) (strandOk g) :=
  h.runInsn fun _ k => k.load

theorem Keeps.storeN {g n t' base imm} (h : Keeps s₀ s) : Answers s₀ s (storeN g n t' base imm s) (strandOk g) :=
  h.runInsn fun _ k => k.store

theorem Keeps.storeV {g n t' base imm} (h : Keeps s₀ s) : Answers s₀ s (storeV g n t' base imm s) (strandOk g) :=
  h.runInsn fun _ k => k.store

theorem Keeps.execLb {g t' base imm} (h : Keeps s₀ s) : Answers s₀ s (execLb g t' base imm s) (strandOk g) := h.loadN

theorem Keeps.execLbu {g t' base imm} (h : Keeps s₀ s) : Answers s₀ s (execLbu g t' base imm s) (strandOk g) :=
  h.loadN

theorem Keeps.execLh {g t' base imm} (h : Keeps s₀ s) : Answers s₀ s (execLh g t' base imm s) (strandOk g) := h.loadN

theorem Keeps.execLhu {g t' base imm} (h : Keeps s₀ s) : Answers s₀ s (execLhu g t' base imm s) (strandOk g) :=
  h.loadN

theorem Keeps.execLw {g t' base imm} (h : Keeps s₀ s) : Answers s₀ s (execLw g t' base imm s) (strandOk g) := h.loadN

theorem Keeps.execLwu {g t' base imm} (h : Keeps s₀ s) : Answers s₀ s (execLwu g t' base imm s) (strandOk g) :=
  h.loadN

theorem Keeps.execLd {g t' base imm} (h : Keeps s₀ s) : Answers s₀ s (execLd g t' base imm s) (strandOk g) := h.loadN

theorem Keeps.execLdf {g t' base imm} (h : Keeps s₀ s) : Answers s₀ s (execLdf g t' base imm s) (strandOk g) :=
  h.loadV

theorem Keeps.execLdv {g t' base imm} (h : Keeps s₀ s) : Answers s₀ s (execLdv g t' base imm s) (strandOk g) :=
  h.loadV

theorem Keeps.execSb {g t' base imm} (h : Keeps s₀ s) : Answers s₀ s (execSb g t' base imm s) (strandOk g) :=
  h.storeN

theorem Keeps.execSh {g t' base imm} (h : Keeps s₀ s) : Answers s₀ s (execSh g t' base imm s) (strandOk g) :=
  h.storeN

theorem Keeps.execSw {g t' base imm} (h : Keeps s₀ s) : Answers s₀ s (execSw g t' base imm s) (strandOk g) :=
  h.storeN

theorem Keeps.execSd {g t' base imm} (h : Keeps s₀ s) : Answers s₀ s (execSd g t' base imm s) (strandOk g) :=
  h.storeN

theorem Keeps.execStf {g t' base imm} (h : Keeps s₀ s) : Answers s₀ s (execStf g t' base imm s) (strandOk g) :=
  h.storeV

theorem Keeps.execStv {g t' base imm} (h : Keeps s₀ s) : Answers s₀ s (execStv g t' base imm s) (strandOk g) :=
  h.storeV

theorem Keeps.execVgather {g w d a b} (h : Keeps s₀ s) : Answers s₀ s (execVgather g w d a b s) (strandOk g) := by
  refine h.runInsn fun _ k => ?_
  dsimp only
  split
  · exact k.dev
  · split
    · exact k.dev.tryParts
    · exact (k.withDev k.dev.tryParts).gatherData

/-! ### The memory system -/

theorem Keeps.execFenceLl {g e} (h : Keeps s₀ s) : Answers s₀ s (execFenceLl g e s) (strandOk g) :=
  h.runInsn fun _ k => k

theorem Keeps.execFenceSs {g e} (h : Keeps s₀ s) : Answers s₀ s (execFenceSs g e s) (strandOk g) :=
  h.runInsn fun _ k => k

theorem Keeps.execFenceAll {g e} (h : Keeps s₀ s) : Answers s₀ s (execFenceAll g e s) (strandOk g) := by
  refine h.runInsn fun _ k => ?_
  split
  · exact k
  · exact k

theorem Keeps.execCodesync {g z e} (h : Keeps s₀ s) : Answers s₀ s (execCodesync g z e s) (strandOk g) := by
  refine h.runInsn fun _ k => ?_
  split
  · exact k
  · exact k

theorem Keeps.execStash {g z e} (h : Keeps s₀ s) : Answers s₀ s (execStash g z e s) (strandOk g) :=
  h.runInsn fun _ k => k.stash

theorem Keeps.execCflush {g z e} (h : Keeps s₀ s) : Answers s₀ s (execCflush g z e s) (strandOk g) :=
  h.runInsn fun _ k => k.lineOp fun _ _ k => k.cflush

theorem Keeps.execCinvAll {g z e} (h : Keeps s₀ s) : Answers s₀ s (execCinvAll g z e s) (strandOk g) :=
  h.runInsn fun _ k => (k.withDev k.dev.cinvAll).long

theorem Keeps.execPwb {g z e} (h : Keeps s₀ s) : Answers s₀ s (execPwb g z e s) (strandOk g) :=
  h.runInsn fun _ k => k.lineOp fun _ _ k => k.pwb

theorem Keeps.execPsync {g z e} (h : Keeps s₀ s) : Answers s₀ s (execPsync g z e s) (strandOk g) := by
  refine h.runInsn fun _ k => ?_
  split
  · exact k
  · exact (k.withDev (k.dev.psyncSend.rest)).long

theorem Keeps.execPstntD {g e} (h : Keeps s₀ s) : Answers s₀ s (execPstntD g e s) (strandOk g) :=
  h.runInsn fun _ k => k.pstnt

theorem Keeps.execPstntV {g e} (h : Keeps s₀ s) : Answers s₀ s (execPstntV g e s) (strandOk g) :=
  h.runInsn fun _ k => k.pstnt

theorem Keeps.execPstntSend {g} (h : Keeps s₀ s) : Answers s₀ s (execPstntSend g s) (strandOk g) := by
  unfold Machine.execPstntSend
  refine .guard (.clocks ?_)
  dsimp only
  split
  · exact .next h
  · split
    · exact .next h
    · split
      · exact .next h.sbWait
      · exact .next ((h.withDev h.dev.payDirect.sendPstnt).setStrand (h.strandAt.rest))

theorem Keeps.runTinv {g legal lvl regs f} (h : Keeps s₀ s) : Answers s₀ s (runTinv g legal lvl regs s f)
    (strandOk g) :=
  h.runInsn fun _ k => k.tinv

theorem Keeps.execTinvVa {g z e} (h : Keeps s₀ s) : Answers s₀ s (execTinvVa g z e s) (strandOk g) := h.runTinv

theorem Keeps.execTinvAsid {g z e} (h : Keeps s₀ s) : Answers s₀ s (execTinvAsid g z e s) (strandOk g) := h.runTinv

theorem Keeps.execTinvAll {g z e} (h : Keeps s₀ s) : Answers s₀ s (execTinvAll g z e s) (strandOk g) := h.runTinv

theorem Keeps.execTinvIpa {g z e} (h : Keeps s₀ s) : Answers s₀ s (execTinvIpa g z e s) (strandOk g) := h.runTinv

theorem Keeps.execTinvVmid {g z e} (h : Keeps s₀ s) : Answers s₀ s (execTinvVmid g z e s) (strandOk g) := h.runTinv

theorem Keeps.execTinvHAll {g z e} (h : Keeps s₀ s) : Answers s₀ s (execTinvHAll g z e s) (strandOk g) := h.runTinv

theorem Keeps.execTsync {g z e} (h : Keeps s₀ s) : Answers s₀ s (execTsync g z e s) (strandOk g) :=
  h.runInsn fun _ k => k.setStrand (k.strandAt.rest)

theorem Keeps.execTsyncComplete {g} (h : Keeps s₀ s) : Answers s₀ s (execTsyncComplete g s) (strandOk g) := by
  unfold Machine.execTsyncComplete
  refine .guard (.clocks ?_)
  dsimp only
  split
  · exact .next ((h.withDev h.dev.tinvFinish).setStrand (h.strandAt.rest)).retire
  · exact .next h

theorem Keeps.execBtbflush {g z e} (h : Keeps s₀ s) : Answers s₀ s (execBtbflush g z e s) (strandOk g) :=
  h.runInsn fun _ k => ((k.withDev k.dev.flushBtb).setStrand ((k.withDev k.dev.flushBtb).strandAt.rest)).setStrand
      (((k.withDev k.dev.flushBtb).setStrand ((k.withDev k.dev.flushBtb).strandAt.rest)).strandAt.rest)

/-! ### System instructions -/

theorem Keeps.execMfsr {g e} (h : Keeps s₀ s) : Answers s₀ s (execMfsr g e s) (strandOk g) :=
  h.runInsn fun _ k => (Keeps.ite k.runCycles k).setN

theorem Keeps.execMtsr {g e} (h : Keeps s₀ s) : Answers s₀ s (execMtsr g e s) (strandOk g) := by
  refine h.runInsn fun _ k => ?_
  split
  · exact (Keeps.ite k.askMode k).retire.setStrand ((Keeps.ite k.askMode k).retire.strandAt.rest)
  · exact k.setStrand k.strandAt.srWrite

theorem Keeps.execShadowClose {g} (h : Keeps s₀ s) : Answers s₀ s (execShadowClose g s) (strandOk g) := by
  unfold Machine.execShadowClose
  refine .guard ?_
  split
  · exact .next h.closeShadow
  · exact .next h

theorem Keeps.execModeDrainComplete {c} (h : Keeps s₀ s) : Answers s₀ s (execModeDrainComplete c s) (coreOk c) := by
  unfold Machine.execModeDrainComplete
  refine .guard ?_
  split
  · exact .next h.endModeDrain
  · exact .next h

theorem Keeps.execLongOpComplete {g k} (h : Keeps s₀ s) : Answers s₀ s (execLongOpComplete g k s) (strandOk g) := by
  unfold Machine.execLongOpComplete
  refine .guard ?_
  dsimp only
  split
  · exact .next h
  · split
    · exact .next h.finishLong
    · split
      · exact .next h
      · exact .next h.finishLong
    · split
      · exact .next (h.withDev (h.dev.psyncSend.rest)).finishLong
      · exact .next (h.withDev h.dev.psyncSend)

theorem Keeps.execEret {g e} (h : Keeps s₀ s) : Answers s₀ s (execEret g e s) (strandOk g) := by
  refine h.runInsn fun _ k => ?_
  split
  · exact k.eret
  · exact k.count.eret

theorem Keeps.execSys {g e} (h : Keeps s₀ s) : Answers s₀ s (execSys g e s) (strandOk g) :=
  h.runInsn fun _ k => k.dev

theorem Keeps.execHcall {g e} (h : Keeps s₀ s) : Answers s₀ s (execHcall g e s) (strandOk g) :=
  h.runInsn fun _ k => k.dev

theorem Keeps.execBrk {g e} (h : Keeps s₀ s) : Answers s₀ s (execBrk g e s) (strandOk g) :=
  h.runInsn fun _ k => k.dev

theorem Keeps.execWait {g e} (h : Keeps s₀ s) : Answers s₀ s (execWait g e s) (strandOk g) :=
  h.runInsn fun _ k => (k.setStrand (k.strandAt.rest)).settleCore

theorem Keeps.execWaitWake {g} (h : Keeps s₀ s) : Answers s₀ s (execWaitWake g s) (strandOk g) := by
  unfold Machine.execWaitWake
  refine .guard ?_
  dsimp only
  split
  · exact .next h
  · split
    · exact .next h
    · exact .next ((h.withDev h.dev.setFld).setStrand (h.strandAt.rest).setN).retire

theorem Keeps.execPark {g e} (h : Keeps s₀ s) : Answers s₀ s (execPark g e s) (strandOk g) := by
  refine h.runInsn fun _ k => ?_
  split
  · exact k.dev
  · exact (k.retire.setStrand (k.retire.strandAt.rest)).settleCore

theorem Keeps.execIllegalInstruction {g w} (h : Keeps s₀ s) : Answers s₀ s (execIllegalInstruction g w s)
    (strandOk g) :=
  h.runInsn fun _ k => k

/-! ### Sealed domains -/

/-- A command of the security engine whose own effect f is kept. -/
theorem Keeps.runSecall {g fn e code inside random f} (h : Keeps s₀ s) (hf : ∀ t b, Keeps s₀ t → SeKept s₀ (f t b)) :
    Answers s₀ s (runSecall g fn e code inside random s f) (strandOk g) := by
  refine h.runInsn fun _ k => k.secallBlock fun t p b k => ?_
  split
  · exact k
  · split
    · exact k.answer trivial
    · exact k.answer (hf _ _ k)

theorem Keeps.execSecallBusy {g fn e} (h : Keeps s₀ s) : Answers s₀ s (execSecallBusy g fn e s) (strandOk g) :=
  h.runInsn fun _ k => k.secallBlock fun _ _ _ k => k.answer trivial

theorem SeKept.ite {c : Prop} [Decidable c] {r r' : SeRes} (h : SeKept s₀ r) (k : SeKept s₀ r') :
    SeKept s₀ (if c then r else r') := by
  split
  · exact h
  · exact k

theorem Keeps.execCreate {g fn e} (h : Keeps s₀ s) : Answers s₀ s (execCreate g fn e s) (strandOk g) := by
  refine h.runSecall fun t b k => ?_
  dsimp only
  refine SeKept.ite trivial (SeKept.ite trivial (SeKept.ite trivial (SeKept.ite trivial ?_)))
  split
  · trivial
  · trivial
  · rename_i d _ e
    have kd : DevKeeps s₀.dev d := by
      have kf : DevKeeps s₀.dev t.dev.freeDomain.2 := k.dev.freeDomain
      rw [e] at kf
      exact kf
    exact k.withDev kd.createDomain

theorem Keeps.execAddPage {g fn e} (h : Keeps s₀ s) : Answers s₀ s (execAddPage g fn e s) (strandOk g) := by
  refine h.runSecall fun _ _ k => ?_
  dsimp only
  split
  · trivial
  · split
    · trivial
    · split
      · trivial
      · split
        · trivial
        · exact k.withDev k.dev.addPage

theorem Keeps.execAddZero {g fn e} (h : Keeps s₀ s) : Answers s₀ s (execAddZero g fn e s) (strandOk g) := by
  refine h.runSecall fun _ _ k => ?_
  dsimp only
  split
  · trivial
  · split
    · trivial
    · split
      · trivial
      · split
        · trivial
        · exact k.withDev k.dev.addZero

theorem Keeps.execSealDomain {g fn e} (h : Keeps s₀ s) : Answers s₀ s (execSealDomain g fn e s) (strandOk g) := by
  refine h.runSecall fun _ _ k => ?_
  dsimp only
  split
  · trivial
  · split
    · trivial
    · split
      · exact k.withDev k.dev.setDomain
      · split
        · trivial
        · exact k.withDev k.dev.setSlot.setDomain.showSe

theorem Keeps.execEnter {g fn e} (h : Keeps s₀ s) : Answers s₀ s (execEnter g fn e s) (strandOk g) := by
  refine h.runSecall fun _ _ k => ?_
  split
  · trivial
  · split
    · trivial
    · split
      · trivial
      · exact k.enterDomain

theorem Keeps.execAccept {g fn e} (h : Keeps s₀ s) : Answers s₀ s (execAccept g fn e s) (strandOk g) := by
  refine h.runSecall fun _ _ k => ?_
  dsimp only
  split
  · trivial
  · split
    · trivial
    · split
      · trivial
      · exact k.withDev k.dev.setPot

theorem Keeps.execRelease {g fn e} (h : Keeps s₀ s) : Answers s₀ s (execRelease g fn e s) (strandOk g) := by
  refine h.runSecall fun _ _ k => ?_
  split
  · trivial
  · split
    · trivial
    · split
      · trivial
      · split
        · trivial
        · exact k.withDev k.dev.releasePage

theorem Keeps.execReport {g fn e} (h : Keeps s₀ s) : Answers s₀ s (execReport g fn e s) (strandOk g) := by
  refine h.runSecall fun _ _ k => ?_
  dsimp only
  split
  · trivial
  · split
    · split
      · trivial
      · split
        · trivial
        · exact k.withDev k.dev.linesRead.writeReport
    · split
      · trivial
      · split
        · trivial
        · exact k.withDev k.dev.linesRead.writeReport

theorem Keeps.execShareRegs {g fn e} (h : Keeps s₀ s) : Answers s₀ s (execShareRegs g fn e s) (strandOk g) := by
  refine h.runSecall fun _ _ k => ?_
  dsimp only
  split
  · trivial
  · exact k.withDev k.dev.setDomain

theorem Keeps.execExit {g fn e} (h : Keeps s₀ s) : Answers s₀ s (execExit g fn e s) (strandOk g) := by
  refine h.runSecall fun _ _ k => ?_
  split
  · trivial
  · exact k.exitDomain

theorem Keeps.execDestroy {g fn e} (h : Keeps s₀ s) : Answers s₀ s (execDestroy g fn e s) (strandOk g) := by
  refine h.runSecall fun _ _ k => ?_
  dsimp only
  split
  · trivial
  · split
    · trivial
    · split
      · trivial
      · exact (k.withDev k.dev.destroyDomain).forgetExits

theorem Keeps.execReclaim {g fn e} (h : Keeps s₀ s) : Answers s₀ s (execReclaim g fn e s) (strandOk g) := by
  refine h.runSecall fun _ _ k => ?_
  dsimp only
  split
  · trivial
  · split
    · trivial
    · split
      · trivial
      · exact k.withDev k.dev.reclaimPages

theorem Keeps.execQuery {g fn e} (h : Keeps s₀ s) : Answers s₀ s (execQuery g fn e s) (strandOk g) :=
  h.runSecall fun _ _ k => k

end Sys2Proof.Proofs
end

