-- ==== Sys2Proof/Proofs/Dispatched.lean ====
section
/-!
PROOFS. What every command answers, by cases over the commands as the dispatcher has them.
-/

namespace Sys2Proof.Proofs

open Sys2Proof Sys2Proof.Machine Sys2Proof.Laws

variable {s₀ s : State}

/-- Whatever a command leaves is kept. -/
theorem Keeps.exec (c : Instr) (h : Keeps s₀ s) : Answers s₀ s (exec c s) c.wf := by
  cases c with
  | registerWrite => exact h.execRegisterWrite
  | undefinedOffsetAccess => exact h.execUndefinedOffsetAccess
  | bootLock => exact h.execBootLock
  | warmSpare => exact h.execWarmSpare
  | stewardWatchdogRestart => exact h.execStewardWatchdogRestart
  | interruptEntry => exact h.execInterruptEntry
  | shadowClose => exact h.execShadowClose
  | timecmpReached => exact h.execTimecmpReached
  | longOpComplete => exact h.execLongOpComplete
  | modeDrainComplete => exact h.execModeDrainComplete
  | add => exact h.execAdd
  | sub => exact h.execSub
  | and => exact h.execAnd
  | or => exact h.execOr
  | xor => exact h.execXor
  | andn => exact h.execAndn
  | shl => exact h.execShl
  | shr => exact h.execShr
  | sar => exact h.execSar
  | ror => exact h.execRor
  | slt => exact h.execSlt
  | sltu => exact h.execSltu
  | seq => exact h.execSeq
  | min => exact h.execMin
  | max => exact h.execMax
  | minu => exact h.execMinu
  | maxu => exact h.execMaxu
  | clz => exact h.execClz
  | ctz => exact h.execCtz
  | popc => exact h.execPopc
  | bswap => exact h.execBswap
  | addw => exact h.execAddw
  | subw => exact h.execSubw
  | sextb => exact h.execSextb
  | sexth => exact h.execSexth
  | sextw => exact h.execSextw
  | zextw => exact h.execZextw
  | addi => exact h.execAddi
  | andi => exact h.execAndi
  | ori => exact h.execOri
  | xori => exact h.execXori
  | slti => exact h.execSlti
  | sltiu => exact h.execSltiu
  | shli => exact h.execShli
  | shri => exact h.execShri
  | sari => exact h.execSari
  | rori => exact h.execRori
  | lui => exact h.execLui
  | hins => exact h.execHins
  | apc => exact h.execApc
  | mul => exact h.execMul
  | mulh => exact h.execMulh
  | mulhu => exact h.execMulhu
  | mulw => exact h.execMulw
  | div => exact h.execDiv
  | divu => exact h.execDivu
  | rem => exact h.execRem
  | remu => exact h.execRemu
  | beq => exact h.execBeq
  | bne => exact h.execBne
  | blt => exact h.execBlt
  | bge => exact h.execBge
  | ble => exact h.execBle
  | bgt => exact h.execBgt
  | bceq => exact h.execBceq
  | bcne => exact h.execBcne
  | bclt => exact h.execBclt
  | bcge => exact h.execBcge
  | bcltu => exact h.execBcltu
  | bcgeu => exact h.execBcgeu
  | j => exact h.execJ
  | call => exact h.execCall
  | jr => exact h.execJr
  | callr => exact h.execCallr
  | ret => exact h.execRet
  | fadd => exact h.execFadd
  | fsub => exact h.execFsub
  | fmul => exact h.execFmul
  | fdiv => exact h.execFdiv
  | fsqrt => exact h.execFsqrt
  | fma => exact h.execFma
  | fmin => exact h.execFmin
  | fmax => exact h.execFmax
  | fabs => exact h.execFabs
  | fneg => exact h.execFneg
  | feq => exact h.execFeq
  | flt => exact h.execFlt
  | fle => exact h.execFle
  | fcvtLD => exact h.execFcvtLD
  | fcvtLuD => exact h.execFcvtLuD
  | fcvtDL => exact h.execFcvtDL
  | fcvtDLu => exact h.execFcvtDLu
  | fcvtSD => exact h.execFcvtSD
  | fcvtDS => exact h.execFcvtDS
  | fmvN => exact h.execFmvN
  | fmvV => exact h.execFmvV
  | vadd => exact h.execVadd
  | vsub => exact h.execVsub
  | vand _ w => exact h.execVand w
  | vor _ w => exact h.execVor w
  | vxor _ w => exact h.execVxor w
  | vandn _ w => exact h.execVandn w
  | vmin => exact h.execVmin
  | vmax => exact h.execVmax
  | vminu => exact h.execVminu
  | vmaxu => exact h.execVmaxu
  | vshl => exact h.execVshl
  | vshr => exact h.execVshr
  | vsar => exact h.execVsar
  | vsplat => exact h.execVsplat
  | vext => exact h.execVext
  | vins => exact h.execVins
  | vcmpeq => exact h.execVcmpeq
  | vcmplt => exact h.execVcmplt
  | vcmpltu => exact h.execVcmpltu
  | vsel => exact h.execVsel
  | vcompress => exact h.execVcompress
  | vgather => exact h.execVgather
  | vcrc32c => exact h.execVcrc32c
  | vcrc64 => exact h.execVcrc64
  | vhmix => exact h.execVhmix
  | vhfold => exact h.execVhfold
  | lb => exact h.execLb
  | lbu => exact h.execLbu
  | lh => exact h.execLh
  | lhu => exact h.execLhu
  | lw => exact h.execLw
  | lwu => exact h.execLwu
  | ld => exact h.execLd
  | ldf => exact h.execLdf
  | ldv => exact h.execLdv
  | sb => exact h.execSb
  | sh => exact h.execSh
  | sw => exact h.execSw
  | sd => exact h.execSd
  | stf => exact h.execStf
  | stv => exact h.execStv
  | storeBufferEntryLeave => exact h.execStoreBufferEntryLeave
  | lda => exact h.execLda
  | sta => exact h.execSta
  | aadd => exact h.execAadd
  | aswap => exact h.execAswap
  | acas => exact h.execAcas
  | aand => exact h.execAand
  | aor => exact h.execAor
  | amin => exact h.execAmin
  | amax => exact h.execAmax
  | aminu => exact h.execAminu
  | amaxu => exact h.execAmaxu
  | fenceLl => exact h.execFenceLl
  | fenceSs => exact h.execFenceSs
  | fenceAll => exact h.execFenceAll
  | codesync => exact h.execCodesync
  | stash => exact h.execStash
  | cflush => exact h.execCflush
  | cinvAll => exact h.execCinvAll
  | pwb => exact h.execPwb
  | psync => exact h.execPsync
  | pstntD => exact h.execPstntD
  | pstntV => exact h.execPstntV
  | pstntSend => exact h.execPstntSend
  | tinvVa => exact h.execTinvVa
  | tinvAsid => exact h.execTinvAsid
  | tinvAll => exact h.execTinvAll
  | tinvIpa => exact h.execTinvIpa
  | tinvVmid => exact h.execTinvVmid
  | tinvHAll => exact h.execTinvHAll
  | tsync => exact h.execTsync
  | tsyncComplete => exact h.execTsyncComplete
  | btbflush => exact h.execBtbflush
  | mfsr => exact h.execMfsr
  | mtsr => exact h.execMtsr
  | eret => exact h.execEret
  | sys => exact h.execSys
  | hcall => exact h.execHcall
  | brk => exact h.execBrk
  | wait => exact h.execWait
  | waitWake => exact h.execWaitWake
  | park => exact h.execPark
  | secallBusy => exact h.execSecallBusy
  | create => exact h.execCreate
  | addPage => exact h.execAddPage
  | addZero => exact h.execAddZero
  | sealDomain => exact h.execSealDomain
  | enter => exact h.execEnter
  | accept => exact h.execAccept
  | release => exact h.execRelease
  | report => exact h.execReport
  | shareRegs => exact h.execShareRegs
  | exit => exact h.execExit
  | destroy => exact h.execDestroy
  | reclaim => exact h.execReclaim
  | query => exact h.execQuery
  | refillInstall => exact h.execRefillInstall
  | ioiqEnable => exact h.execIoiqEnable
  | invDt => exact h.execInvDt
  | invRid => exact h.execInvRid
  | invVa => exact h.execInvVa
  | invIpa => exact h.execInvIpa
  | invVmid => exact h.execInvVmid
  | invAll => exact h.execInvAll
  | ioiqWait => exact h.execIoiqWait
  | cacheEnable => exact h.execCacheEnable
  | cacheDisable => exact h.execCacheDisable
  | disableComplete => exact h.execDisableComplete
  | rds => exact h.execRds
  | rdx => exact h.execRdx
  | upg => exact h.execUpg
  | stashRequest => exact h.execStashRequest
  | farAtomicRequest => exact h.execFarAtomicRequest
  | wbm => exact h.execWbm
  | evc => exact h.execEvc
  | fwds => exact h.execFwds
  | fwdx => exact h.execFwdx
  | inv => exact h.execInv
  | ackFwd => exact h.execAckFwd
  | ackInv => exact h.execAckInv
  | ackGrant => exact h.execAckGrant
  | ackWb => exact h.execAckWb
  | ackDone => exact h.execAckDone
  | ackHint => exact h.execAckHint
  | absent => exact h.execAbsent
  | data => exact h.execData
  | retry => exact h.execRetry
  | requestResend => exact h.execRequestResend
  | forwardTimeout => exact h.execForwardTimeout
  | socketRemoval => exact h.execSocketRemoval
  | frameTick => exact h.execFrameTick
  | chainTickPulse => exact h.execChainTickPulse
  | tickLoss => exact h.execTickLoss
  | resyncStart => exact h.execResyncStart
  | resyncReq => exact h.execResyncReq
  | resyncTimeout => exact h.execResyncTimeout
  | taskAbandon => exact h.execTaskAbandon
  | creditRequest => exact h.execCreditRequest
  | intakeAccept => exact h.execIntakeAccept
  | intakeMediaWrite => exact h.execIntakeMediaWrite
  | epochClosed => exact h.execEpochClosed
  | persistWriteFailed => exact h.execPersistWriteFailed
  | wearMove => exact h.execWearMove
  | wearMoveSwitch => exact h.execWearMoveSwitch
  | governorMinute => exact h.execGovernorMinute
  | pwrfail => exact h.execPwrfail
  | powerFail => exact h.execPowerFail
  | brownout => exact h.execBrownout
  | drainTest => exact h.execDrainTest
  | strandHalt => exact h.execStrandHalt
  | peatDone => exact h.execPeatDone
  | dramDone => exact h.execDramDone
  | p2Deadline => exact h.execP2Deadline
  | canaryWrite => exact h.execCanaryWrite
  | retainAssert => exact h.execRetainAssert
  | retainHeldClear => exact h.execRetainHeldClear
  | ledgerDrainStop => exact h.execLedgerDrainStop
  | drainReportWrite => exact h.execDrainReportWrite
  | drainComplete => exact h.execDrainComplete
  | powerUp => exact h.execPowerUp
  | strandRestore => exact h.execStrandRestore
  | imagesRelease => exact h.execImagesRelease
  | blockInit => exact h.execBlockInit
  | pwrgoodFall => exact h.execPwrgoodFall
  | memoryRead => exact h.execMemoryRead
  | memoryWrite => exact h.execMemoryWrite
  | refresh => exact h.execRefresh
  | retrainingPause => exact h.execRetrainingPause
  | dimmThermalRead => exact h.execDimmThermalRead
  | coefficientStore => exact h.execCoefficientStore
  | retrainGo => exact h.execRetrainGo
  | neighbourRefresh => exact h.execNeighbourRefresh
  | rowguardTableClear => exact h.execRowguardTableClear
  | rowguardRelease => exact h.execRowguardRelease
  | patrolScrub => exact h.execPatrolScrub
  | scrubRewrite => exact h.execScrubRewrite
  | scrubSkip => exact h.execScrubSkip
  | evacStart => exact h.execEvacStart
  | evacSwitch => exact h.execEvacSwitch
  | evacBackgroundMove => exact h.execEvacBackgroundMove
  | evacComplete => exact h.execEvacComplete
  | channelRetire => exact h.execChannelRetire
  | bucketDecay => exact h.execBucketDecay
  | confirmationTest => exact h.execConfirmationTest
  | routeRecompute => exact h.execRouteRecompute
  | errEventTimeout => exact h.execErrEventTimeout
  | coreTransplant => exact h.execCoreTransplant
  | sourceCoreTest => exact h.execSourceCoreTest
  | xplantGo => exact h.execXplantGo
  | p2Go => exact h.execP2Go
  | p3Go => exact h.execP3Go
  | p4Go => exact h.execP4Go
  | drainStepTimeout => exact h.execDrainStepTimeout
  | errTailWrite => exact h.execErrTailWrite
  | injectionArm => exact h.execInjectionArm
  | sliceTest => exact h.execSliceTest
  | sliceGo => exact h.execSliceGo
  | sliceRepair => exact h.execSliceRepair
  | sliceSkip => exact h.execSliceSkip
  | mbClaim => exact h.execMbClaim
  | mbRelease => exact h.execMbRelease
  | mbClaimLapse => exact h.execMbClaimLapse
  | keyGenerate => exact h.execKeyGenerate
  | keyClear => exact h.execKeyClear
  | rollbackCommit => exact h.execRollbackCommit
  | fuseSession => exact h.execFuseSession
  | debugNonce => exact h.execDebugNonce
  | debugUnlock => exact h.execDebugUnlock
  | linkSecretGen => exact h.execLinkSecretGen
  | ideKeySet => exact h.execIdeKeySet
  | getVersion => exact h.execGetVersion
  | getCapabilities => exact h.execGetCapabilities
  | negotiateAlgorithms => exact h.execNegotiateAlgorithms
  | getDigests => exact h.execGetDigests
  | getCertificate => exact h.execGetCertificate
  | challenge => exact h.execChallenge
  | getMeasurements => exact h.execGetMeasurements
  | linkRekey => exact h.execLinkRekey
  | dmaRead => exact h.execDmaRead
  | dmaWrite => exact h.execDmaWrite
  | atomicop => exact h.execAtomicop
  | completionTimeout => exact h.execCompletionTimeout
  | surpriseDown => exact h.execSurpriseDown
  | dpcTrigger => exact h.execDpcTrigger
  | dpcRelease => exact h.execDpcRelease
  | slotSample => exact h.execSlotSample
  | slotControlWrite => exact h.execSlotControlWrite
  | kportRetireGo => exact h.execKportRetireGo
  | sscApply => exact h.execSscApply
  | portIdle => exact h.execPortIdle
  | sqDoorbell => exact h.execSqDoorbell
  | descriptorFetch => exact h.execDescriptorFetch
  | copy => exact h.execCopy
  | fill => exact h.execFill
  | append => exact h.execAppend
  | digest => exact h.execDigest
  | encrypt => exact h.execEncrypt
  | compare => exact h.execCompare
  | stashcopy => exact h.execStashcopy
  | completionWrite => exact h.execCompletionWrite
  | queueEnable => exact h.execQueueEnable
  | qpAssign => exact h.execQpAssign
  | streamEnable => exact h.execStreamEnable
  | streamDisable => exact h.execStreamDisable
  | flr => exact h.execFlr
  | d3hotEntry => exact h.execD3hotEntry
  | vfEnable => exact h.execVfEnable
  | busMasterEnable => exact h.execBusMasterEnable
  | quiesceComplete => exact h.execQuiesceComplete
  | dlogGen => exact h.execDlogGen
  | dlogGenAck => exact h.execDlogGenAck
  | dlogRingHeadWrite => exact h.execDlogRingHeadWrite
  | enum => exact h.execEnum
  | enumRetry => exact h.execEnumRetry
  | ping => exact h.execPing
  | echo => exact h.execEcho
  | delay => exact h.execDelay
  | comp => exact h.execComp
  | frameStart => exact h.execFrameStart
  | resyncReport => exact h.execResyncReport
  | resyncSet => exact h.execResyncSet
  | check => exact h.execCheck
  | ringCloseCheck => exact h.execRingCloseCheck
  | chainMessageReturn => exact h.execChainMessageReturn
  | chainBreak => exact h.execChainBreak
  | ready => exact h.execReady
  | abort => exact h.execAbort
  | arm => exact h.execArm
  | armed => exact h.execArmed
  | confirm => exact h.execConfirm
  | activated => exact h.execActivated
  | notActivated => exact h.execNotActivated
  | sorusData => exact h.execSorusData
  | linkMap => exact h.execLinkMap
  | mapExchange => exact h.execMapExchange
  | seMsg => exact h.execSeMsg
  | stewardMsg => exact h.execStewardMsg
  | flitReceive => exact h.execFlitReceive
  | linkTraining => exact h.execLinkTraining
  | linkBlockLockLoss => exact h.execLinkBlockLockLoss
  | flRetireGo => exact h.execFlRetireGo
  | interruptMessage => exact h.execInterruptMessage
  | irSend => exact h.execIrSend
  | irWake => exact h.execIrWake
  | irInv => exact h.execIrInv
  | bind => exact h.execBind
  | unbind => exact h.execUnbind
  | socketEvent => exact h.execSocketEvent
  | refclkLoss => exact h.execRefclkLoss
  | pllSettle => exact h.execPllSettle
  | tileRatioWrite => exact h.execTileRatioWrite
  | vidAck => exact h.execVidAck
  | vidTimeout => exact h.execVidTimeout
  | powerThrottle => exact h.execPowerThrottle
  | thermalThrottle => exact h.execThermalThrottle
  | deepParkEntry => exact h.execDeepParkEntry
  | coldResetPin => exact h.execColdResetPin
  | coldReset => exact h.execColdReset
  | warmReset => exact h.execWarmReset
  | strandReset => exact h.execStrandReset
  | thermtrip => exact h.execThermtrip
  | overtempClockStop => exact h.execOvertempClockStop
  | entdaa => exact h.execEntdaa
  | setdasa => exact h.execSetdasa
  | setEndpointId => exact h.execSetEndpointId
  | getEndpointId => exact h.execGetEndpointId
  | getMctpVersionSupport => exact h.execGetMctpVersionSupport
  | getMessageTypeSupport => exact h.execGetMessageTypeSupport
  | eventMessageTimeout => exact h.execEventMessageTimeout
  | smbQueueTimeout => exact h.execSmbQueueTimeout
  | getInfo => exact h.execGetInfo
  | cfgRead => exact h.execCfgRead
  | cfgWrite => exact h.execCfgWrite
  | cfgDefaults => exact h.execCfgDefaults
  | errRead => exact h.execErrRead
  | tlmRead => exact h.execTlmRead
  | reset => exact h.execReset
  | repairClear => exact h.execRepairClear
  | sorusChunk => exact h.execSorusChunk
  | updateStart => exact h.execUpdateStart
  | updateStatus => exact h.execUpdateStatus
  | updateAbort => exact h.execUpdateAbort
  | updateDeadline => exact h.execUpdateDeadline
  | confirmSend => exact h.execConfirmSend
  | activationSwitch => exact h.execActivationSwitch
  | firmwareOverwrite => exact h.execFirmwareOverwrite
  | illegalInstruction => exact h.execIllegalInstruction
  | pwrfailNRise => exact h.execPwrfailNRise
  | refclkReturn => exact h.execRefclkReturn
  | pcieLinkUp => exact h.execPcieLinkUp
  | portCompletion => exact h.execPortCompletion
  | seHalt => exact h.execSeHalt
  | randomHealthTest => exact h.execRandomHealthTest
  | stewardAcknowledge => exact h.execStewardAcknowledge

end Sys2Proof.Proofs
end

