-- ==== Sys2Proof/Proofs/Invariants.lean ====
section
/-!
PROOFS. The invariants of the machine (O56, O57), the completion of every command (O55), and the command that refutes the
frame of O60.
-/

namespace Sys2Proof.Proofs

open Sys2Proof Sys2Proof.Machine Sys2Proof.Laws

/-- Every command keeps the queue, the strands' field maps and the device's canonical form. -/
theorem keeps_of_exec {c : Instr} {s t : State} (e : exec c s = .next t) : Keeps s t := by
  have h : Answers s s (exec c s) c.wf := (Keeps.refl s).exec c
  cases hw : c.wf with
  | true => exact (h.goes hw).kept t e
  | false =>
    rw [h.stops hw] at e
    cases e

/-- A step keeps the strands' field maps and the device's canonical form. -/
theorem keeps_of_step {s t : State} (e : step s = .next t) : (strandsOk s → strandsOk t) ∧ DevKeeps s.dev t.dev := by
  unfold step at e
  split at e
  · cases e
    exact ⟨id, id⟩
  · have h := keeps_of_exec e
    exact ⟨h.strands, h.dev⟩

theorem memoryOk_iff (s : State) : memoryOk s ↔ DevOk s.dev :=
  ⟨fun ⟨hd, hp, hr⟩ => ⟨hd, hp, hr⟩, fun h => ⟨h.dram, h.peat, h.regs⟩⟩

/-- Settles O55: what every command answers, by cases over the commands. -/
theorem wellFormedCommandsComplete : Obligations.WellFormedCommandsComplete := by
  intro c s
  have h : Answers s s (exec c s) c.wf := (Keeps.refl s).exec c
  exact ⟨fun hw => (h.goes hw).runs, h.stops⟩

/-- Settles O56: each command keeps the field maps of every strand. -/
theorem strandsStayWellFormed : Obligations.StrandsStayWellFormed :=
  fun _ _ h e => (keeps_of_step e).1 h

/-- Settles O57: each command keeps the canonical form of the memories and of the register space. -/
theorem memoryStaysCanonical : Obligations.MemoryStaysCanonical :=
  fun s t h e => (memoryOk_iff t).2 ((keeps_of_step e).2 ((memoryOk_iff s).1 h))

/-! ### A repair of the self-test engines flushes lines (R375) -/

/-- The first half of O60 holds. -/
theorem commands_leave_the_queue : commandsLeaveTheQueue := fun _ _ _ e => (keeps_of_exec e).queue

/-- A clean line in way 0 of an LLC slice, and a finding that self-test engine 0 holds: a failing checker of that way. -/
def heldChecker : State :=
  { State.reset with
    dev := { Dev.reset with
      regs := [(0x7001010, 2#64 ^ 41)]
      engines := [(0, { held := .checker 7 0 0 })]
      llc := [(0, some ⟨0, false, false, 0, 0⟩)] } }

/-- SLICE_GO with REPAIR retires the way, which writes back and drops its lines. -/
theorem sliceGo_drops_line : ∃ t, exec (.sliceGo .other 0 (2#64 ^ 25)) heldChecker = .next t ∧ t.dev.llc = [] :=
  ⟨_, rfl, by decide⟩

/-- Refutes O60: SLICE_GO, which `recordsOnly` lists, repairs the finding that an engine holds; when that is a checker of an
LLC way, the way is retired and the line that it held leaves the slice. -/
theorem not_framesOfCommands : ¬ Obligations.FramesOfCommands := by
  rintro ⟨-, h⟩
  obtain ⟨t, e, ht⟩ := sliceGo_drops_line
  obtain ⟨-, -, -, -, hl, -⟩ := h _ _ t (.inr (.inr (.inl ⟨_, _, _, rfl⟩))) e
  rw [ht] at hl
  cases hl

end Sys2Proof.Proofs
end

