-- ==== Sys2Proof/Proofs/ExceptionReturn.lean ====
section
/-!
PROOFS. ERET (R68): what a return restores.
-/

namespace Sys2Proof.Proofs

open Sys2Proof Sys2Proof.Machine Sys2Proof.Laws

/-- Without an open shadow there is none to close. -/
theorem closeShadow_of_none {s : State} {g : Nat} (h : (s.strand g).shadow = none) : s.closeShadow g = s := by
  unfold State.closeShadow
  dsimp only
  rw [h]

/-- A return from S (R68). -/
theorem eret_from_S {s : State} {g : Nat} (hs : (s.strand g).shadow = none) (hp : (s.strand g).pl = 1) :
    s.eret g = s.setStrand g { s.strand g with
      pc := (s.strand g).bankS.epc
      status := putF (s.strand g).status 0 3 (getF (s.strand g).status 4 2 + 4 * getF (s.strand g).status 3 1) } := by
  unfold State.eret
  rw [closeShadow_of_none hs]
  dsimp only
  rw [hp, if_neg (by decide)]

/-- A return from H, but not into a sealed domain (R68). -/
theorem eret_from_H {s : State} {g : Nat} (hs : (s.strand g).shadow = none) (hp : (s.strand g).pl = 2)
    (hh : (s.strand g).hpsealed = false) :
    s.eret g = s.setStrand g { s.strand g with
      pc := (s.strand g).bankH.epc
      status := putF (s.strand g).status 0 3 (getF (s.strand g).hstatus 34 2 + 4 * getF (s.strand g).hstatus 36 1) } := by
  unfold State.eret
  rw [closeShadow_of_none hs]
  dsimp only
  rw [hp, hh, if_pos (by decide), if_neg (by decide)]

/-- PL of a STATUS whose PL and IE are written. -/
theorem getF_level (w : Word) (p i : Nat) (hp : p < 4) : getF (putF w 0 3 (p + 4 * i)) 0 2 = p := by
  rw [show getF (putF w 0 3 (p + 4 * i)) 0 2 = (p + 4 * i) / 2 ^ 0 % 2 ^ 2 from
    getF_putF_inside (lo := 0) (width := 3) (i := 0) w (by decide) (by decide)]
  omega

/-- IE of a STATUS whose PL and IE are written. -/
theorem ie_level (w : Word) (p i : Nat) (hp : p < 4) : bitOf (putF w 0 3 (p + 4 * i)) 2 = (i % 2 == 1) := by
  rw [bitOf_eq_getLsbD, getLsbD_putF w _ _ (by decide), if_pos (by decide), Nat.testBit_eq_decide_div_mod_eq, beq_eq_decide]
  exact decide_eq_decide.2 (by omega)

theorem getF_bit (w : Word) (i : Nat) : (getF w i 1 % 2 == 1) = w.getLsbD i := by
  rw [← bitOf_eq_getLsbD]
  unfold getF bitOf
  rw [Nat.pow_one, Nat.mod_mod]

theorem eret_of_ready {s t : State} {g : Nat} (h : ready s g { transfer := true } = true)
    (hp : 1 ≤ ((begun s g).strand g).pl) (hr : (begun s g).eretRefused g = false)
    (ht : ((begun s g).count g 1).eret g = t) : Gives (.eret g ⟨0, 0, 0⟩) s t := by
  refine (execEret.eq_def ..).trans (runInsn_go ?_ ?_)
  · have hp' : decide (1 ≤ ((settled s g).strand g).pl) = true := decide_eq_true hp
    dsimp only
    rw [hp']
    exact h
  · rw [if_neg (by simp [hr]), ht]

/-- Settles O11: the return's state, by the level that ERET leaves. -/
theorem exceptionReturn : Obligations.ExceptionReturn := by
  intro s g h u hs
  have hb : sameBut ((begun s g).count g 1).dev (begun s g).dev := sameBut_count _ _ _ _
  constructor
  · intro hp
    have hr : (begun s g).eretRefused g = false := by
      unfold State.eretRefused
      dsimp only
      rw [show ((begun s g).strand g).pl = 1 from hp]
      rfl
    have hl := getF_lt u.status 4 2
    refine ⟨_, eret_of_ready h (Nat.le_of_eq hp.symm) hr (eret_from_S hs hp), ?_⟩
    dsimp only
    rw [strand_setStrand_same]
    exact ⟨rfl, getF_level _ _ _ hl, (ie_level _ _ _ hl).trans (getF_bit _ _), rfl, rfl, rfl, rfl, rfl, hb⟩
  · intro hp hh
    have hr : (begun s g).eretRefused g = false := by
      unfold State.eretRefused
      dsimp only
      rw [show ((begun s g).strand g).hpsealed = false from hh]
      simp
    have hl := getF_lt u.hstatus 34 2
    refine ⟨_, eret_of_ready h (by rw [show ((begun s g).strand g).pl = 2 from hp]; decide) hr (eret_from_H hs hp hh), ?_⟩
    dsimp only
    rw [strand_setStrand_same]
    exact ⟨rfl, getF_level _ _ _ hl, (ie_level _ _ _ hl).trans (getF_bit _ _), rfl, rfl, rfl, rfl, rfl, hb⟩

end Sys2Proof.Proofs
end

