-- ==== Sys2Proof/Proofs/SystemRegisters.lean ====
section
/-!
PROOFS. MFSR and MTSR (R54 to R62, R77): what each register gives and takes.
-/

namespace Sys2Proof.Proofs

open Sys2Proof Sys2Proof.Machine Sys2Proof.Laws

/-! ### Banks and masks -/

theorem bank_eq (x : Strand) (lvl : Nat) : x.bank lvl = if lvl = 2 then x.bankH else x.bankS := by
  simp [Strand.bank]

theorem setBank_eq (x : Strand) (lvl : Nat) (b : Bank) :
    x.setBank lvl b = if lvl = 2 then { x with bankH := b } else { x with bankS := b } := by
  simp [Strand.setBank]

theorem align4_eq_and (v : Word) : align4 v = v &&& ~~~3#64 := putF_zero v (lo := 0) (width := 2) (by decide)

theorem page_eq_and (v : Word) : putF v 0 12 0 = v &&& ~~~0xFFF#64 := putF_zero v (lo := 0) (width := 12) (by decide)

/-- Bits of one word by a mask, and below them a masked word's bits by another. -/
theorem blend_blend_and {a b k v w : Word} (hab : a &&& b = 0) (hk : k &&& b = k) :
    blend a v (blend b (v &&& k) w) = blend (a ||| b) (v &&& (a ||| k)) w := by
  refine BitVec.eq_of_getLsbD_eq fun j hj => ?_
  have h1 : (a.getLsbD j && b.getLsbD j) = false := by rw [← BitVec.getLsbD_and, hab]; simp
  have h2 : (k.getLsbD j && b.getLsbD j) = k.getLsbD j := by rw [← BitVec.getLsbD_and, hk]
  simp only [getLsbD_blend _ _ _ hj, BitVec.getLsbD_or, BitVec.getLsbD_and]
  cases ha : a.getLsbD j <;> cases hb : b.getLsbD j <;> simp_all

theorem blend_and_blend {m n k v w : Word} (hmn : m &&& n = 0) :
    blend m (v &&& k) (blend n v w) = blend (m ||| n) (v &&& (k ||| n)) w := by
  refine BitVec.eq_of_getLsbD_eq fun j hj => ?_
  have h1 : (m.getLsbD j && n.getLsbD j) = false := by rw [← BitVec.getLsbD_and, hmn]; simp
  simp only [getLsbD_blend _ _ _ hj, BitVec.getLsbD_or, BitVec.getLsbD_and]
  cases hm : m.getLsbD j <;> cases hn : n.getLsbD j <;> simp_all

/-- STATUS after a write, by masks (R56). -/
theorem statusWrite_masks (old v : Word) :
    statusWrite old v = (v &&& 0x6CC#64) ||| (old &&& ~~~0x6FC#64)
      ||| ((if v.extractLsb' 4 2 < 2 then (v &&& 0x30#64) ||| (old &&& ~~~0x30#64) else old) &&& 0x30#64) := by
  have hc : v.extractLsb' 4 2 < 2 ↔ getF v 4 2 < 2 := by
    rw [getF_eq_extract]
    exact BitVec.lt_def
  rw [statusWrite_eq, show (0x6FC#64) = 0x6CC#64 ||| 0x30#64 from rfl, blend_split (by decide)]
  by_cases hp : getF v 4 2 < 2
  · rw [if_pos hp, if_pos (hc.2 hp)]
    change _ = blend _ v (blend _ (blend _ v old) old)
    rw [blend_idem, blend_blend]
  · rw [if_neg hp, if_neg fun h => hp (hc.1 h), blend_self]

/-- HSTATUS after a write, by masks (R57). -/
theorem hstatusWrite_masks (old v : Word) :
    hstatusWrite old v = (v &&& 0xB3FFFD97FE#64) ||| (old &&& ~~~0xBFFFFFFFFF#64)
      ||| ((if v.extractLsb' 34 2 ≠ 3 then v else old) &&& 0xC00000000#64) := by
  have hc : v.extractLsb' 34 2 ≠ 3 ↔ getF v 34 2 < 3 := by
    have hl := getF_lt v 34 2
    rw [getF_eq_extract] at *
    constructor
    · intro h
      have : (v.extractLsb' 34 2).toNat ≠ 3 := fun e => h (BitVec.eq_of_toNat_eq e)
      omega
    · intro h e
      rw [e] at h
      exact absurd h (by decide)
  have hm : v &&& 0xB3FFFD97FE#64 = v &&& 0xB3FFFD97FE#64 &&& 0xB3FFFFFFFF#64 := by
    rw [BitVec.and_assoc, show 0xB3FFFD97FE#64 &&& 0xB3FFFFFFFF#64 = 0xB3FFFD97FE#64 by decide]
  rw [hstatusWrite_eq, hm, show (0xBFFFFFFFFF#64) = 0xB3FFFFFFFF#64 ||| 0xC00000000#64 by decide, blend_split (by decide)]
  by_cases hp : getF v 34 2 < 3
  · rw [if_pos hp, if_pos (hc.2 hp), blend_blend_and (by decide) (by decide)]
    exact (blend_and_blend (m := 0xB3FFFFFFFF#64) (n := 0xC00000000#64) (k := 0xB3FFFD97FE#64) (by decide)).symm
  · rw [if_neg hp, if_neg fun h => hp (hc.1 h), blend_self, blend_blend_and (by decide) (by decide)]
    rfl

/-! ### MFSR (R54, R55) -/

theorem gives_mfsr {s : State} {g : Nat} {d : Reg} {sr : BitVec 12} {v : Word} (h : ready s g { regs := [.n d] } = true)
    (hn : srNamed ((begun s g).strand g).pl sr = true) (hl : srReadLevel sr ≤ ((begun s g).strand g).pl) (hc : sr ≠ 0x020#12)
    (hv : srRead (begun s g) g sr = v) : Gives (.mfsr g ⟨d, 0, sr⟩) s (((begun s g).setN g d v).retire g) := by
  refine (execMfsr.eq_def ..).trans (runInsn_ok ?_ ?_)
  · have hl' : decide (srReadLevel sr ≤ ((settled s g).strand g).pl) = true := decide_eq_true hl
    dsimp only
    rw [show srNamed ((settled s g).strand g).pl sr = true from hn, hl']
    exact h
  · dsimp only
    rw [if_neg (by simpa using hc), hv]

/-- The numbers that S reads. -/
theorem sysReads_numbers (s : State) (g : Nat) :
    ∀ p ∈ sysReads s g, srListed p.1 = true ∧ srReadLevel p.1 ≤ 1 ∧ p.1 ≠ 0x020#12 := by
  intro p hp
  have : p.1 ∈ (sysReads s g).map Prod.fst := List.mem_map_of_mem hp
  have key : ([0x000#12, 0x001, 0x002, 0x003, 0x004, 0x005, 0x006, 0x008, 0x009, 0x00A, 0x00B, 0x011, 0x012, 0x014,
      0x021, 0x022, 0x010].all fun sr => srListed sr && (srReadLevel sr).ble 1 && sr != 0x020#12) = true := rfl
  simpa [and_assoc] using List.all_eq_true.1 key _ this

/-- The numbers that H alone reads. -/
theorem hostReads_numbers (s : State) (g : Nat) :
    ∀ p ∈ hostReads s g, srListed p.1 = true ∧ srReadLevel p.1 ≤ 2 ∧ p.1 ≠ 0x020#12 := by
  intro p hp
  have : p.1 ∈ (hostReads s g).map Prod.fst := List.mem_map_of_mem hp
  have key : ([0x013#12, 0x015, 0x030, 0x801, 0x802, 0x803, 0x804, 0x805, 0x806, 0x808, 0x809, 0x80A, 0x80B].all fun sr =>
      srListed sr && (srReadLevel sr).ble 2 && sr != 0x020#12) = true := rfl
  simpa [and_assoc] using List.all_eq_true.1 key _ this

theorem pmodeWord_eq (p : Pmode) (b : Bool) :
    pmodeWord p b = BitVec.ofNat 64 ((if p.mode then 1 else 0) + (if p.active then 2 else 0) + (if p.refused then 4 else 0)
      + if b then 8 else 0) := by
  unfold pmodeWord
  cases p.mode <;> cases p.active <;> cases p.refused <;> cases b <;> rfl

theorem srRead_sysReads (s : State) (g : Nat) : ∀ p ∈ sysReads s g, srRead s g p.1 = p.2 := by
  have hb := bank_eq (s.strand g) (s.strand g).pl
  unfold sysReads
  simp only [List.forall_mem_cons, List.not_mem_nil, false_imp_iff, implies_true, and_true]
  refine ⟨rfl, congrArg Bank.epc hb, congrArg Bank.cause hb, congrArg Bank.faddr hb, congrArg Bank.fipa hb,
    congrArg Bank.fsyn hb, congrArg Bank.vbase hb, congrArg Bank.s0 hb, congrArg Bank.s1 hb, congrArg Bank.s2 hb,
    congrArg Bank.s3 hb, rfl, rfl, rfl, rfl, rfl, ?_⟩
  rw [Nat.mul_comm (g / 2) 2, ← pmodeWord_eq]
  rfl

theorem srRead_hostReads (s : State) (g : Nat) : ∀ p ∈ hostReads s g, srRead s g p.1 = p.2 := by
  unfold hostReads
  simp only [List.forall_mem_cons, List.not_mem_nil, false_imp_iff, implies_true, and_true, ← bitOf_eq_getLsbD]
  exact ⟨rfl, rfl, rfl, rfl, rfl, rfl, rfl, rfl, rfl, rfl, rfl, rfl, rfl⟩

theorem srNamed_of_listed {pl : Nat} {sr : BitVec 12} (h : srListed sr = true) : srNamed pl sr = true := by
  rw [srNamed, h, Bool.true_or]

/-- The half of O12 that reads. -/
theorem system_register_reads : systemRegisterReads := by
  intro s g d h b u
  refine ⟨fun hp p hm => ?_, fun hp p hm => ?_, ?_, ?_⟩
  · obtain ⟨hn, hl, hc⟩ := sysReads_numbers b g p hm
    have hu : u.pl = 1 ∨ u.pl = 2 := hp
    exact gives_mfsr h (srNamed_of_listed hn) (by change _ ≤ u.pl; omega) hc (srRead_sysReads b g p hm)
  · obtain ⟨hn, hl, hc⟩ := hostReads_numbers b g p hm
    have hu : u.pl = 2 := hp
    exact gives_mfsr h (srNamed_of_listed hn) (by change _ ≤ u.pl; omega) hc (srRead_hostReads b g p hm)
  · exact gives_mfsr h (srNamed_of_listed rfl) (Nat.zero_le _) (by decide) rfl
  · refine ⟨b.dev.drawWord.1, ?_⟩
    have hs : (b.runCycles g).strand g = { u with cycles := u.cycles + b.dev.drawWord.1 } := strand_setStrand_same _ _ _
    refine retires_of_ok (execMfsr.eq_def ..) (show ready s g { regs := [.n d] } = true from h) rfl ?_ ?_ (sameBut_refl _)
    · rw [← hs, show u.cycles + b.dev.drawWord.1 = ((b.runCycles g).strand g).cycles from (congrArg Strand.cycles hs).symm]
      exact strand_setStrand_same _ _ _
    · intro k hk
      exact (strand_setStrand_other _ _ _ _ hk).trans (strand_setStrand_other _ _ _ _ hk)

/-! ### MTSR (R54, R77) -/

theorem gives_mtsr {s : State} {g : Nat} {a : Reg} {sr : BitVec 12} {x : Strand} (h : ready s g { regs := [.n a] } = true)
    (hn : srListed sr = true) (hm : modeBearing sr = false)
    (hl : srWriteLevel ((begun s g).strand g) sr ≤ ((begun s g).strand g).pl)
    (hx : ((begun s g).strand g).srWrite sr (((begun s g).strand g).getN a) ((begun s g).strand g).pl = x) :
    Gives (.mtsr g ⟨0, a, sr⟩) s (((begun s g).setStrand g x).retire g) := by
  refine (execMtsr.eq_def ..).trans (runInsn_ok ?_ ?_)
  · have hl' : decide (srWriteLevel ((settled s g).strand g) sr ≤ ((settled s g).strand g).pl) = true := decide_eq_true hl
    dsimp only
    rw [srNamed_of_listed hn, hl', hm]
    exact h
  · dsimp only
    rw [hm, hx]
    rfl

/-- PMODE alone needs a level that depends on the strand (R61). -/
theorem srWriteLevel_eq_reset (x : Strand) {sr : BitVec 12} (h : sr.toNat ≠ 0x10) :
    srWriteLevel x sr = srWriteLevel Strand.reset sr := by
  unfold srWriteLevel
  simp [h]

/-- The numbers among a list that are listed, bear a mode or not as asked, are not PMODE's, and need at most a level. -/
def writable (mode : Bool) (lvl : Nat) (sr : BitVec 12) : Bool :=
  srListed sr && (modeBearing sr == mode) && sr.toNat != 0x10 && (srWriteLevel Strand.reset sr).ble lvl

theorem of_writable {mode : Bool} {lvl : Nat} {sr : BitVec 12} (h : writable mode lvl sr = true) (x : Strand) :
    srListed sr = true ∧ modeBearing sr = mode ∧ (sr == 0x010) = false ∧ srWriteLevel x sr ≤ lvl := by
  simp only [writable, Bool.and_eq_true, beq_iff_eq, bne_iff_ne, Nat.ble_eq] at h
  obtain ⟨⟨⟨hn, hm⟩, h0⟩, hl⟩ := h
  refine ⟨hn, hm, beq_eq_false_iff_ne.2 fun e => h0 (congrArg BitVec.toNat e), ?_⟩
  rw [srWriteLevel_eq_reset x h0]
  exact hl

/-- The numbers that S writes at once. -/
theorem sysWrites_numbers (x : Strand) (v : Word) :
    ∀ p ∈ sysWrites x v, srListed p.1 = true ∧ modeBearing p.1 = false ∧ srWriteLevel x p.1 ≤ 1 := by
  intro p hp
  have : p.1 ∈ (sysWrites x v).map Prod.fst := List.mem_map_of_mem hp
  have key : ([0x001#12, 0x002, 0x003, 0x004, 0x005, 0x008, 0x009, 0x00A, 0x00B, 0x021, 0x022].all (writable false 1)) = true :=
    rfl
  obtain ⟨hn, hm, -, hl⟩ := of_writable (List.all_eq_true.1 key _ this) x
  exact ⟨hn, hm, hl⟩

/-- The numbers that H alone writes at once. -/
theorem hostWrites_numbers (x : Strand) (v : Word) :
    ∀ p ∈ hostWrites x v, srListed p.1 = true ∧ modeBearing p.1 = false ∧ srWriteLevel x p.1 ≤ 2 := by
  intro p hp
  have : p.1 ∈ (hostWrites x v).map Prod.fst := List.mem_map_of_mem hp
  have key : ([0x020#12, 0x030, 0x801, 0x802, 0x803, 0x804, 0x805, 0x808, 0x809, 0x80A, 0x80B].all (writable false 2)) = true :=
    rfl
  obtain ⟨hn, hm, -, hl⟩ := of_writable (List.all_eq_true.1 key _ this) x
  exact ⟨hn, hm, hl⟩

theorem srWrite_sysWrites (x : Strand) (v : Word) : ∀ p ∈ sysWrites x v, x.srWrite p.1 v x.pl = p.2 := by
  have hb := bank_eq x x.pl
  unfold sysWrites
  simp only [List.forall_mem_cons, List.not_mem_nil, false_imp_iff, implies_true, and_true, ← align4_eq_and, ← bank_eq,
    ← setBank_eq]
  exact ⟨rfl, rfl, rfl, rfl, rfl, rfl, rfl, rfl, rfl, rfl, rfl⟩

/-- A write of an S copy at H, while HPSEALED is 0 (R55). -/
theorem srWrite_copy {x : Strand} (h : x.hpsealed = false) {sr : BitVec 12} {k : Nat} (hk : sr.toNat = 2048 + k)
    (hb : 1 ≤ k ∧ k ≤ 5 ∨ 8 ≤ k ∧ k ≤ 0xB) (v : Word) (lvl : Nat) :
    x.srWrite sr v lvl = { x with bankS := x.bankS.put k v } := by
  have hm : sr.toNat % 2048 = k := by omega
  have hne (j : Nat) (hj : j = 0 ∨ 0x10 ≤ j) : (k == j) = false := by simpa using (by omega : k ≠ j)
  have h2 : srBankLevel sr lvl = 1 := if_pos (by omega)
  unfold Strand.srWrite
  dsimp only
  rw [hm, h2, h, hne 0 (by omega), hne 0x11 (by omega), hne 0x12 (by omega), hne 0x13 (by omega), hne 0x14 (by omega),
    hne 0x15 (by omega), hne 0x20 (by omega), hne 0x22 (by omega), hne 0x30 (by omega), hne 0x10 (by omega),
    hne 0x21 (by omega), Bool.and_false]
  rfl

theorem srWrite_hostWrites (x : Strand) (v : Word) (h : x.hpsealed = false) :
    ∀ p ∈ hostWrites x v, x.srWrite p.1 v x.pl = p.2 := by
  have hc (sr : BitVec 12) (k : Nat) (hk : sr.toNat = 2048 + k) (hb : 1 ≤ k ∧ k ≤ 5 ∨ 8 ≤ k ∧ k ≤ 0xB) :=
    srWrite_copy h hk hb v x.pl
  have hs : x.srWrite 0x030#12 v x.pl = { x with hstatus := (v &&& 0xB3FFFD97FE#64) ||| (x.hstatus &&& ~~~0xBFFFFFFFFF#64)
     ||| ((if v.extractLsb' 34 2 ≠ 3 then v else x.hstatus) &&& 0xC00000000#64) } :=
    congrArg (fun w => { x with hstatus := w }) (hstatusWrite_masks x.hstatus v)
  unfold hostWrites
  simp only [List.forall_mem_cons, List.not_mem_nil, false_imp_iff, implies_true, and_true, ← align4_eq_and]
  exact ⟨rfl, by simpa using hs, hc _ 1 rfl (by decide), hc _ 2 rfl (by decide), hc _ 3 rfl (by decide), hc _ 4 rfl (by decide),
    hc _ 5 rfl (by decide), hc _ 8 rfl (by decide), hc _ 9 rfl (by decide), hc _ 10 rfl (by decide), hc _ 11 rfl (by decide)⟩

/-- An MTSR to a register that bears a mode, but PMODE. -/
theorem opensShadow_mtsr {s : State} {g : Nat} {a : Reg} {sr : BitVec 12}
    (h : ready s g { modeWrite := true, regs := [.n a] } = true) (hn : srListed sr = true) (hm : modeBearing sr = true)
    (hp : (sr == 0x010) = false) (hl : srWriteLevel ((begun s g).strand g) sr ≤ ((begun s g).strand g).pl) :
    opensShadow (.mtsr g ⟨0, a, sr⟩) s g sr (((begun s g).strand g).getN a) := by
  let t := (begun s g).retire g
  refine ⟨t.setStrand g { t.strand g with
    shadow := some ⟨sr, ((begun s g).strand g).getN a, ((begun s g).strand g).pl, 0⟩ }, ?_, ?_, fun k hk => ?_, ?_⟩
  · refine (execMtsr.eq_def ..).trans (runInsn_go ?_ ?_)
    · have hl' : decide (srWriteLevel ((settled s g).strand g) sr ≤ ((settled s g).strand g).pl) = true := decide_eq_true hl
      dsimp only
      rw [srNamed_of_listed hn, hl', hm]
      exact h
    · dsimp only
      rw [hm, hp]
      rfl
  · rw [strand_setStrand_same, retire_strand]
  · rw [strand_setStrand_other _ _ _ _ hk, retire_strand_other _ _ _ hk]
  · exact sameBut_retire _ _

/-- The half of O12 that writes. -/
theorem system_register_writes : systemRegisterWrites := by
  intro s g a b u v
  refine ⟨fun h hp => ⟨fun p hm => ?_, fun h2 hh p hm => ?_⟩, fun h hp sr hm => ?_, fun h hp sr hm => ?_⟩
  · obtain ⟨hn, hb, hl⟩ := sysWrites_numbers u v p hm
    exact gives_mtsr h hn hb (Nat.le_trans hl (hp.elim (·.ge) fun e => Nat.le_trans (by decide) e.ge)) (srWrite_sysWrites u v p hm)
  · obtain ⟨hn, hb, hl⟩ := hostWrites_numbers u v p hm
    exact gives_mtsr h hn hb (Nat.le_trans hl h2.ge) (srWrite_hostWrites u v hh p hm)
  · have key : ([0x000#12, 0x006#12, 0x011#12, 0x012#12, 0x014#12].all (writable true 1)) = true := rfl
    obtain ⟨hn, hb, hne, hl⟩ := of_writable (List.all_eq_true.1 key _ hm) u
    exact opensShadow_mtsr h hn hb hne (Nat.le_trans hl (hp.elim (·.ge) fun e => Nat.le_trans (by decide) e.ge))
  · have key : ([0x013#12, 0x015#12, 0x806#12].all (writable true 2)) = true := rfl
    obtain ⟨hn, hb, hne, hl⟩ := of_writable (List.all_eq_true.1 key _ hm) u
    exact opensShadow_mtsr h hn hb hne (Nat.le_trans hl hp.ge)

/-- Settles O12: each listed number's value, and each write's field map, by the masks above. -/
theorem systemRegistersMove : Obligations.SystemRegistersMove := ⟨system_register_reads, system_register_writes⟩

end Sys2Proof.Proofs
end

