-- ==== Sys2Proof/Proofs/ShadowsModes.lean ====
section
/-!
PROOFS. The closing of a mode shadow (R76, R80), requests of a mode (R61), WAIT, PARK and the end of a mode drain (R133,
R134, R138, R139).
-/

namespace Sys2Proof.Proofs

open Sys2Proof Sys2Proof.Machine Sys2Proof.Laws

/-! ### Shadows (R80) -/

theorem closeShadow_of_some {s : State} {g : Nat} {sr : BitVec 12} {v : Word} {lvl pos : Nat}
    (h : (s.strand g).shadow = some ⟨sr, v, lvl, pos⟩) (hp : sr.toNat % 2048 ≠ 0x10) :
    s.closeShadow g = s.setStrand g { (s.strand g).srWrite sr v lvl with shadow := none } := by
  unfold State.closeShadow
  dsimp only
  rw [h]
  exact if_neg (by simpa using hp)

theorem closeShadow_of_pmode {s : State} {g : Nat} {v : Word} {lvl pos : Nat}
    (h : (s.strand g).shadow = some ⟨0x010, v, lvl, pos⟩) :
    s.closeShadow g = { s.setStrand g { s.strand g with shadow := none } with
      dev := s.dev.setPm (g / 2) ((s.dev.pm (g / 2)).close v) } := by
  unfold State.closeShadow
  dsimp only
  rw [h]
  rfl

/-- A shadow whose five positions are over closes. -/
theorem gives_shadowClose {s t : State} {g : Nat} {sr : BitVec 12} {v : Word} {lvl : Nat} (hg : g < 512)
    (h : (s.strand g).shadow = some ⟨sr, v, lvl, 5⟩) (ht : s.closeShadow g = t) : Gives (.shadowClose g) s t := by
  have hd : (s.strand g).shadowDue = true := by
    unfold Strand.shadowDue
    rw [h]
    rfl
  have hs : strandOk g = true := decide_eq_true hg
  refine (execShadowClose.eq_def ..).trans ?_
  rw [hs, hd, ht]
  rfl

theorem asid_mask (v : Word) : word (getF v 0 16) = v &&& 0xFFFF#64 := word_getF_low v 16

theorem tcfg_masks (x : Strand) (v : Word) (lvl : Nat) :
    (if lvl == 2 then putF 0 0 6 (getF v 0 6) else putF x.tcfg 0 3 (getF v 0 3))
      = if lvl = 2 then v &&& 0x3F#64 else (v &&& 7#64) ||| (x.tcfg &&& ~~~7#64) := by
  rw [putF_getF _ _ (by decide), putF_getF _ _ (by decide), blend_zero]
  simp only [beq_iff_eq]
  rfl

/-- The write of VBASE from a shadow, at a level (R62). -/
theorem srWrite_vbase (x : Strand) (v : Word) (lvl : Nat) :
    x.srWrite 0x006 v lvl = if lvl = 2 then { x with bankH := { x.bankH with vbase := v &&& ~~~0xFFF#64 } }
      else { x with bankS := { x.bankS with vbase := v &&& ~~~0xFFF#64 } } := by
  have h : x.srWrite 0x006 v lvl = x.setBank lvl ((x.bank lvl).put 6 v) := rfl
  rw [h, setBank_eq, bank_eq, ← page_eq_and]
  split <;> rfl

theorem srWrite_modeWrites (x : Strand) (v : Word) (lvl : Nat) : ∀ p ∈ modeWrites x v lvl, x.srWrite p.1 v lvl = p.2 := by
  unfold modeWrites
  simp only [List.forall_mem_cons, List.not_mem_nil, false_imp_iff, implies_true, and_true, decide_eq_true_eq]
  exact ⟨congrArg (fun w => { x with status := w }) (statusWrite_masks x.status v), srWrite_vbase x v lvl,
    congrArg (fun w => { x with tcfg := w }) (tcfg_masks x v lvl), rfl, rfl,
    congrArg (fun w => { x with asid := w }) (asid_mask v), congrArg (fun w => { x with vmid := w }) (asid_mask v)⟩

theorem modeWrites_numbers (x : Strand) (v : Word) (lvl : Nat) : ∀ p ∈ modeWrites x v lvl, p.1.toNat % 2048 ≠ 0x10 := by
  intro p hp
  have : p.1 ∈ (modeWrites x v lvl).map Prod.fst := List.mem_map_of_mem hp
  have key : ([0x000#12, 0x006, 0x011, 0x012, 0x013, 0x014, 0x015].all fun sr => sr.toNat % 2048 != 0x10) = true := rfl
  simpa using List.all_eq_true.1 key _ this

@[simp] theorem pm_setPm (d : Dev) (l : Nat) (p : Pmode) : (d.setPm l p).pm l = p := smap_get_set_same _ _ _ _

theorem shadowCloses_holds : shadowCloses := by
  intro s g v lvl hg x
  refine ⟨fun p hp hs => ?_, fun hs hh => ?_, fun hs => ?_⟩
  · refine gives_shadowClose hg hs ?_
    rw [closeShadow_of_some hs (modeWrites_numbers x v lvl p hp), srWrite_modeWrites x v lvl p hp]
  · refine gives_shadowClose hg hs ?_
    have hw : x.srWrite 0x806 v lvl = { x with bankS := { x.bankS with vbase := v &&& ~~~0xFFF#64 } } := by
      unfold Strand.srWrite
      rw [hh, ← page_eq_and]
      rfl
    rw [closeShadow_of_some hs (by decide)]
    exact congrArg (fun y => s.setStrand g { y with shadow := none }) hw
  · refine ⟨_, gives_shadowClose hg hs (closeShadow_of_pmode hs), strand_setStrand_same _ _ _, ?_⟩
    dsimp only
    rw [pm_setPm]
    simp only [Pmode.close, bitOf_eq_getLsbD, x]

/-! ### Requests of a mode (R61) -/

@[simp] theorem count_pmode (d : Dev) (g : Nat) (x : Strand) (ev : Nat) : (d.count g x ev).pmode = d.pmode := by
  have h : (bare (d.count g x ev)).pmode = (bare d).pmode := by rw [bare_count]
  exact h

@[simp] theorem retire_pmode (s : State) (g : Nat) : (s.retire g).dev.pmode = s.dev.pmode := by
  have h : (bareOfBtb (s.retire g).dev).pmode = (bareOfBtb s.dev).pmode := by rw [retire_dev]
  exact h

theorem askMode_strand (s : State) (g : Nat) (v : Word) (k : Nat) : (s.askMode g v).strand k = s.strand k := by
  unfold State.askMode
  dsimp only
  split <;> rfl

theorem askMode_pm (s : State) (g : Nat) (v : Word) :
    (s.askMode g v).dev.pm (g / 2) = (s.dev.pm (g / 2)).ask (bitOf v 0) (s.strand (2 * (g / 2) + 1)).parked := by
  unfold State.askMode
  dsimp only
  rw [pm_setPm]

theorem srWriteLevel_pmode {x : Strand} (h : x.pl = 2 ∨ (x.pl = 1 ∧ x.hstatus.getLsbD 39 = false)) :
    srWriteLevel x 0x010 ≤ x.pl := by
  have hw : srWriteLevel x 0x010 = if bitOf x.hstatus 39 then 2 else 1 := by
    unfold srWriteLevel
    simp
  rw [hw, bitOf_eq_getLsbD]
  rcases h with h | ⟨h, hb⟩
  · rw [h]
    split <;> decide
  · rw [h, hb]
    decide

theorem modeRequests_holds : modeRequests := by
  intro s g a h b u v p parked hl
  let t := (b.askMode g v).retire g
  refine ⟨t.setStrand g { t.strand g with shadow := some ⟨0x010, v, u.pl, 0⟩ }, ?_, ?_, ?_⟩
  · refine (execMtsr.eq_def ..).trans (runInsn_go ?_ rfl)
    have hl' : decide (srWriteLevel ((settled s g).strand g) 0x010 ≤ ((settled s g).strand g).pl) = true :=
      decide_eq_true (srWriteLevel_pmode hl)
    dsimp only
    rw [srNamed_of_listed (by decide), hl']
    exact h
  · rw [strand_setStrand_same, retire_strand, askMode_strand]
  · have hp : t.dev.pm (g / 2) = (b.askMode g v).dev.pm (g / 2) :=
      congrArg (fun m => SMap.get (fun _ => ({} : Pmode)) m (g / 2)) (retire_pmode _ _)
    rw [setStrand_dev, hp, askMode_pm, Nat.mul_comm 2, bitOf_eq_getLsbD]
    unfold Pmode.ask
    simp only [Bool.and_eq_true, Bool.not_eq_true']
    rfl

/-! ### Waiting, parking and the end of a mode drain (R133, R134, R138, R139) -/

theorem settleCore_strand (s : State) (g k : Nat) : (s.settleCore g).strand k = s.strand k := by
  unfold State.settleCore
  dsimp only
  split <;> rfl

theorem gives_of_transfer {c : Instr} {s t : State} {g : Nat} {i : Strand → Insn} {body : State → Flow} {rs : List RegRef}
    (hc : exec c s = runInsn g s i body) (h : ready s g { transfer := true, regs := rs } = true)
    (hi : i ((settled s g).strand g) = { transfer := true, regs := rs })
    (hb : body (begun s g) = .go t) : Gives c s t :=
  hc.trans (runInsn_go (hi ▸ h) hb)

theorem wait_suspends {s : State} {g : Nat} {d a : Reg} (h : ready s g { transfer := true, regs := [.n d, .n a] } = true)
    (hp : 1 ≤ ((begun s g).strand g).pl) :
    GivesSome (.wait g ⟨d, a, 0⟩) s fun t =>
      t.strand g = { (begun s g).strand g with waiting := some ⟨d, ((begun s g).strand g).getN a⟩ } ∧
        (∀ k, k ≠ g → t.strand k = (begun s g).strand k) := by
  refine ⟨_, gives_of_transfer (execWait.eq_def ..) h ?_ rfl, ?_, fun k hk => ?_⟩
  · dsimp only
    rw [show decide (1 ≤ ((settled s g).strand g).pl) = true from decide_eq_true hp]
    rfl
  · rw [settleCore_strand, strand_setStrand_same]
  · rw [settleCore_strand, strand_setStrand_other _ _ _ _ hk]

theorem park_stops {s : State} {g : Nat} (h : ready s g { transfer := true } = true)
    (hp : 1 ≤ ((begun s g).strand g).pl) (hs : ((begun s g).strand g).sealedB = false) :
    GivesSome (.park g ⟨0, 0, 0⟩) s fun t =>
      t.strand g = { retired ((begun s g).strand g) with parked := true } ∧
        (∀ k, k ≠ g → t.strand k = (begun s g).strand k) := by
  let t := (begun s g).retire g
  refine ⟨(t.setStrand g { t.strand g with parked := true }).settleCore g,
    gives_of_transfer (execPark.eq_def ..) h ?_ ?_, ?_, fun k hk => ?_⟩
  · dsimp only
    rw [show decide (1 ≤ ((settled s g).strand g).pl) = true from decide_eq_true hp]
    rfl
  · exact if_neg (by rw [hs]; decide)
  · rw [settleCore_strand, strand_setStrand_same, retire_strand]
  · rw [settleCore_strand, strand_setStrand_other _ _ _ _ hk, retire_strand_other _ _ _ hk]

theorem wait_wakes {s : State} {g : Nat} {d : Reg} {lim : Word} (hg : g < 512) (hw : (s.strand g).waiting = some ⟨d, lim⟩)
    (hh : (s.strand g).halted = false) (hr : s.dev.phase = .running) (hc : s.dev.coreThere (g / 2) = true) :
    GivesSome (.waitWake g) s fun t =>
      t.strand g = retired ({ s.strand g with waiting := none }.setN d (s.wakeReason g lim)) := by
  let y := { s.strand g with waiting := none }.setN d (s.wakeReason g lim)
  let s' := { s with dev := s.dev.setFld (corePwr (s.dev.phys (g / 2))) 1 }
  refine ⟨(s'.setStrand g y).retire g, (execWaitWake.eq_def ..).trans ?_, ?_⟩
  · rw [show strandOk g = true from decide_eq_true hg]
    dsimp only
    refine (if_neg (by decide : ¬(!true) = true)).trans ?_
    rw [hw]
    refine if_neg ?_
    rw [hh, hr, hc]
    decide
  · exact (retire_strand _ _).trans (congrArg retired (strand_setStrand_same _ _ _))

theorem wakeReason_interrupt {s : State} {g : Nat} (lim : Word) (h : (s.topVector g true).isSome = true) :
    s.wakeReason g lim = 0 := by
  unfold State.wakeReason
  rw [h, Bool.or_true]
  rfl

theorem wakeReason_else {s : State} {g : Nat} (lim : Word) (hl : (s.strand g).lost = []) (h : s.topVector g true = none) :
    s.wakeReason g lim = if lim ≠ 0 ∧ lim.toNat ≤ s.dev.frame.toNat then 1 else 2 := by
  unfold State.wakeReason
  rw [hl, h]
  simp

@[simp] theorem pm_setFld (d : Dev) (f : Field) (x l : Nat) : (d.setFld f x).pm l = d.pm l := rfl

@[simp] theorem pm_addSat (d : Dev) (f : Field) (x l : Nat) : (d.addSat f x).pm l = d.pm l := rfl

/-- A wake of a strand whose core does not hold it (R134, R139). -/
theorem wake_free {s : State} {g : Nat} (h : (s.dev.pm (g / 2)).holdsWake = false) :
    ∃ d, s.wake g = (if (s.strand g).parked then { s.setStrand g { s.strand g with parked := false } with dev := d } else s) ∧
      ∀ l, d.pm l = s.dev.pm l := by
  unfold State.wake
  dsimp only
  rw [h, Bool.and_false, if_neg (by decide)]
  cases (s.strand g).parked
  · exact ⟨s.dev, rfl, fun _ => rfl⟩
  · rw [if_neg (by decide)]
    split
    · exact ⟨_, rfl, fun l => by rw [pm_addSat, pm_setFld, setStrand_dev]⟩
    · exact ⟨_, rfl, fun l => by rw [pm_setFld, setStrand_dev]⟩

theorem wake_pm {s : State} {g : Nat} (l : Nat) (h : (s.dev.pm (g / 2)).holdsWake = false) :
    (s.wake g).dev.pm l = s.dev.pm l := by
  obtain ⟨d, hw, hd⟩ := wake_free h
  rw [hw]
  split
  · exact hd l
  · rfl

theorem wake_parked {s : State} {g : Nat} (h : (s.dev.pm (g / 2)).holdsWake = false) :
    ((s.wake g).strand g).parked = false := by
  obtain ⟨d, hw, hd⟩ := wake_free h
  rw [hw]
  split
  · rw [strand_dev, strand_setStrand_same]
  · next hp => exact eq_false_of_ne_true hp

/-- The end of a mode drain of logical core l (R138, R139). -/
theorem endModeDrain_mode (s : State) (l : Nat) (ha : (s.dev.pm l).accepted = false) :
    let p := s.dev.pm l
    let t := s.endModeDrain l
    (t.dev.pm l).active = p.mode ∧ (t.dev.pm l).draining = false ∧ (t.dev.pm l).mode = p.mode ∧
      (t.strand (2 * l + 1)).parked = ((s.strand (2 * l + 1)).parked && !(p.wake && !p.mode)) := by
  intro p t
  let u : State := { s.count (2 * l) 0x60 with dev := (s.count (2 * l) 0x60).dev.setPm l { p with
    active := p.mode
    draining := false
    wake := p.wake && p.mode } }
  have ht : t = if p.wake && !p.mode then u.wake (2 * l + 1) else u := rfl
  have hu : u.dev.pm l = { p with
    active := p.mode
    draining := false
    wake := p.wake && p.mode } := pm_setPm _ _ _
  rw [ht]
  by_cases hc : (p.wake && !p.mode) = true
  · have hm : p.mode = false := by
      rw [Bool.and_eq_true] at hc
      simpa using hc.2
    have hw : (u.dev.pm ((2 * l + 1) / 2)).holdsWake = false := by
      rw [show (2 * l + 1) / 2 = l by omega, hu, Pmode.holdsWake, hm, ha]
      rfl
    rw [if_pos hc, wake_pm _ hw, wake_parked hw, hu, hc, Bool.not_true, Bool.and_false]
    exact ⟨rfl, rfl, rfl, rfl⟩
  · rw [if_neg hc, hu, eq_false_of_ne_true hc, Bool.not_false, Bool.and_true]
    exact ⟨rfl, rfl, rfl, rfl⟩

theorem waitingAndModes_holds : waitingAndModes := by
  intro s g d a b u
  refine ⟨fun h hp => wait_suspends h (by rcases hp with e | e <;> exact Nat.le_trans (by decide) e.ge),
    fun h hp hs => park_stops h (by rcases hp with e | e <;> exact Nat.le_trans (by decide) e.ge) hs,
    fun hg lim hw hh hr hc => ?_, fun c hc hs => ?_⟩
  · obtain ⟨t, ht, hx⟩ := wait_wakes hg hw hh hr hc
    exact ⟨t, ht, s.wakeReason g lim, hx, wakeReason_interrupt lim, wakeReason_else lim⟩
  · intro l p hd ha hlo hpl hb0 hb1
    refine ⟨s.endModeDrain l, (execModeDrainComplete.eq_def ..).trans ?_, endModeDrain_mode s l ha⟩
    have hdr : s.drained l = true := by
      unfold State.drained
      dsimp only
      rw [hlo, hpl, hb0, hb1, show (s.dev.pm l).draining = true from hd]
      rfl
    rw [show coreOk c = true from decide_eq_true hc, hs, show s.drained (s.dev.logicalOf c) = true from hdr]
    rfl

/-- Settles O13: shadows by their field maps, requests by `Pmode.ask`, waits and mode drains by the state they leave. -/
theorem shadowsAndModes : Obligations.ShadowsAndModes := ⟨shadowCloses_holds, modeRequests_holds, waitingAndModes_holds⟩

end Sys2Proof.Proofs
end

