-- ==== Sys2Proof/Proofs/Entries.lean ====
section
/-!
PROOFS. Exception entry (R66, R67) and sealed exits (R70, R399): what an entry leaves of the strand.
-/

namespace Sys2Proof.Proofs

open Sys2Proof Sys2Proof.Machine Sys2Proof.Laws

/-! ### Maps whose listed values are replaced -/

/-- A read of a map whose listed values are replaced or dropped by a function that keeps what an unlisted key reads as. -/
theorem smap_get_filterMap {β : Type} [DecidableEq β] (d : Nat → β) (f : Nat → β → Option β) {m : SMap β} {b : Nat} (k : Nat)
    (h : SMap.wfFrom d b m = true) (hd : (f k (d k)).getD (d k) = d k) :
    SMap.get d (SMap.filterMap d f m) k = (f k (SMap.get d m k)).getD (d k) := by
  induction m generalizing b with
  | nil => exact hd.symm
  | cons p m ih =>
    obtain ⟨j, v⟩ := p
    simp only [SMap.wfFrom, Bool.and_eq_true, decide_eq_true_eq] at h
    obtain ⟨-, hm⟩ := h
    have below : k = j → SMap.get d (SMap.filterMap d f m) k = d k := fun e =>
      smap_get_below d (smap_filterMap_wfFrom d f hm) (by omega)
    unfold SMap.filterMap
    by_cases hk : k = j
    · subst hk
      rw [SMap.get, if_pos rfl]
      cases hf : f k v with
      | none => exact below rfl
      | some w =>
        dsimp only
        split
        · next e => exact (below rfl).trans e.symm
        · rw [SMap.get, if_pos rfl]
          rfl
    · rw [SMap.get, if_neg hk, ← ih hm]
      cases hf : f j v with
      | none => rfl
      | some w =>
        dsimp only
        split
        · rfl
        · rw [SMap.get, if_neg hk]

/-! ### Entries (R66, R67) -/

/-- A level's registers after an entry to it that is no sealed exit. -/
def enteredBank (b : Bank) (epc cause : Word) (fa fi : Option Word) (syn : Syn) : Bank :=
  { b with
    epc := align4 epc
    cause := cause
    faddr := fa.getD b.faddr
    fipa := fi.getD b.fipa
    fsyn := syn.apply b.fsyn }

/-- The strand after an entry that is no sealed exit. -/
def entered (x : Strand) (lvl : Nat) (kind : EntryKind) (epc cause : Word) (inSlot : Bool) (fa fi : Option Word) (syn : Syn) :
    Strand :=
  { x with
    bankS := if lvl = 2 then x.bankS else enteredBank x.bankS epc cause fa fi syn
    bankH := if lvl = 2 then enteredBank x.bankH epc cause fa fi syn else x.bankH
    hstatus := if lvl = 2 then putF x.hstatus 34 5 (x.pl + 4 * bnat x.ie + 8 * bnat inSlot + 16 * bnat x.sealedB) else x.hstatus
    status := putF (if lvl = 2 then x.status else putF x.status 3 4 (bnat x.ie + 2 * x.pl + 8 * bnat inSlot)) 0 3 lvl
    slot := none
    pc := (if lvl = 2 then x.bankH else x.bankS).vbase + word (vectorOffset kind false (x.pl == lvl)) }

theorem closeShadow_other (s : State) {g k : Nat} (hk : k ≠ g) : (s.closeShadow g).strand k = s.strand k := by
  unfold State.closeShadow
  dsimp only
  split
  · rfl
  · split
    · rw [strand_dev, strand_setStrand_other _ _ _ _ hk]
    · rw [strand_setStrand_other _ _ _ _ hk]

theorem closeShadow_shadow (s : State) (g : Nat) : ((s.closeShadow g).strand g).shadow = none := by
  unfold State.closeShadow
  dsimp only
  split
  · assumption
  · split
    · rw [strand_dev, strand_setStrand_same]
    · rw [strand_setStrand_same]

variable {s : State} {g lvl : Nat} {kind : EntryKind} {epc cause : Word} {inSlot : Bool} {fa fi : Option Word} {syn : Syn}

theorem enter_strand (h : (((s.closeShadow g).strand g).sealedB && lvl == 2) = false) :
    (s.enter g lvl kind epc cause inSlot fa fi syn none).strand g
      = entered ((s.closeShadow g).strand g) lvl kind epc cause inSlot fa fi syn := by
  unfold State.enter
  extract_lets s1 s2 x from0 sx b b' x1 x2 s3 s4 x3 x4 vb
  have hsx : sx = false := h
  have h3 : x3 = x2 := by
    change s4.strand g = x2
    rw [show s4 = s3 from if_neg (by rw [hsx]; decide)]
    exact strand_setStrand_same _ _ _
  have hb : b' = enteredBank b epc cause fa fi syn := by
    change ({ b with
      epc := align4 epc
      cause := cause
      faddr := if sx then 0 else fa.getD b.faddr
      fipa := match fi with
        | some a => if sx then putF a 0 12 0 else a
        | none => b.fipa
      fsyn := if sx then syn.sealedApply b.fsyn else syn.apply b.fsyn } : Bank) = _
    rw [hsx]
    cases fi <;> rfl
  have hst : x1.status = x.status := setBank_status x lvl b'
  have hpl : x1.pl = x.pl := congrArg (getF · 0 2) hst
  have hie : x1.ie = x.ie := congrArg (bitOf · 2) hst
  have hse : x1.sealedB = x.sealedB := congrArg (bitOf · 8) hst
  rw [strand_setStrand_same]
  change { x4 with pc := vb + word (vectorOffset kind sx (from0 == lvl)) } = entered x lvl kind epc cause inSlot fa fi syn
  simp only [x4, vb, hsx, h3, x2, hpl, hie, hse]
  unfold entered
  by_cases hl : lvl = 2
  · have h1 : x1 = { x with bankH := enteredBank x.bankH epc cause fa fi syn } := by
      simp only [x1, setBank_eq, if_pos hl, hb, b, bank_eq]
    simp only [h1, hl, bank_eq, beq_self_eq_true, if_true]
    rfl
  · have h1 : x1 = { x with bankS := enteredBank x.bankS epc cause fa fi syn } := by
      simp only [x1, setBank_eq, if_neg hl, hb, b, bank_eq]
    simp only [h1, hl, bank_eq, beq_eq_false_iff_ne.2 hl, if_false, Bool.false_eq_true]
    rfl

theorem enter_other {exitD : Option Reg} {k : Nat} (hk : k ≠ g) :
    (s.enter g lvl kind epc cause inSlot fa fi syn exitD).strand k = s.strand k := by
  unfold State.enter
  extract_lets s1 s2 x from0 sx b b' x1 x2 s3 s4 x3 x4 vb
  have h3 : s3.strand k = s.strand k := (strand_setStrand_other _ _ _ _ hk).trans (closeShadow_other s hk)
  rw [strand_setStrand_other _ _ _ _ hk]
  change (if sx then s3.sealedExit g epc exitD else s3).strand k = _
  split
  · rw [← h3]
    unfold State.sealedExit
    dsimp only
    split
    · exact strand_setStrand_other _ _ _ _ hk
    · split
      · exact strand_setStrand_other _ _ _ _ hk
      · exact strand_setStrand_other _ _ _ _ hk
  · exact h3

theorem bnat_eq (b : Bool) : bnat b = if b then 1 else 0 := rfl

theorem vectorOffset_word (kind : EntryKind) (p q : Nat) : word (vectorOffset kind false (p == q)) = match kind with
      | .lost => 0x200
      | .interrupt => if p = q then 0x100 else 0x180
      | .exception => if p = q then 0 else 0x80 := by
  cases kind
  · unfold vectorOffset
    dsimp only
    by_cases h : p = q <;> simp [h, word]
  · unfold vectorOffset
    dsimp only
    by_cases h : p = q <;> simp [h, word]
  · rfl

theorem bnat_le (b : Bool) : bnat b ≤ 1 := by cases b <;> decide

theorem saved_lt (b c : Bool) {p : Nat} (hp : p < 4) : bnat b + 2 * p + 8 * bnat c < 2 ^ 4 := by
  have hb := bnat_le b
  have hc := bnat_le c
  omega

theorem hsaved_lt (b c e : Bool) {p : Nat} (hp : p < 4) : p + 4 * bnat b + 8 * bnat c + 16 * bnat e < 2 ^ 5 := by
  have hb := bnat_le b
  have hc := bnat_le c
  have he := bnat_le e
  omega

/-- PL and IE after an entry. -/
theorem level_entered (w : Word) (hl : lvl = 1 ∨ lvl = 2) : getF (putF w 0 3 lvl) 0 2 = lvl ∧ bitOf (putF w 0 3 lvl) 2 = false := by
  have h := getF_level w lvl 0 (by omega)
  have h' := ie_level w lvl 0 (by omega)
  exact ⟨h, h'⟩

theorem exceptionEntry_holds : exceptionEntry := by
  intro s g lvl kind epc cause inSlot fa fi syn x hl hs t y old new saved
  have hsx : (x.sealedB && lvl == 2) = false := by
    by_contra hc
    simp only [Bool.not_eq_false, Bool.and_eq_true, beq_iff_eq] at hc
    exact hs hc
  have hy : y = entered x lvl kind epc cause inSlot fa fi syn := enter_strand hsx
  have hys : y.status = putF (if lvl = 2 then x.status else
      putF x.status 3 4 (bnat x.ie + 2 * x.pl + 8 * bnat inSlot)) 0 3 lvl := by rw [hy, entered]
  have hpl : y.pl = lvl := (congrArg (getF · 0 2) hys).trans (level_entered _ hl).1
  have hie : y.ie = false := (congrArg (bitOf · 2) hys).trans (level_entered _ hl).2
  have hpc : y.pc = old.vbase + word (vectorOffset kind false (x.pl == lvl)) := by rw [hy, entered]
  have hxl : x.pl < 4 := getF_lt x.status 0 2
  have hnew : new = enteredBank old epc cause fa fi syn := by
    change (if lvl = 2 then y.bankH else y.bankS) = enteredBank (if lvl = 2 then x.bankH else x.bankS) epc cause fa fi syn
    rw [hy, entered]
    rcases hl with rfl | rfl
    · rfl
    · rfl
  have hhs : y.hstatus = if lvl = 2 then
      putF x.hstatus 34 5 (x.pl + 4 * bnat x.ie + 8 * bnat inSlot + 16 * bnat x.sealedB) else x.hstatus := by rw [hy, entered]
  rw [hnew]
  refine ⟨align4_eq_and epc, rfl, rfl, fun w e => by rw [e]; rfl, fun e => by rw [e]; rfl, hpl, hie,
    by rw [hy, entered], by rw [hy, entered]; exact closeShadow_shadow s g, by rw [hy, entered], by rw [hy, entered],
    fun e => ⟨?_, ?_⟩, fun e => ?_, ?_, fun k hk => enter_other hk⟩
  · rw [hys, e, if_neg (by decide), getF_putF_above _ _ _ _ _ _ (by decide) (by decide), getF_putF_same _ _ _ _ (by decide),
      Nat.mod_eq_of_lt (saved_lt _ _ hxl)]
    cases inSlot <;> rfl
  · rw [hhs, e, if_neg (by decide)]
  · rw [hhs, e, if_pos rfl, getF_putF_same _ _ _ _ (by decide), Nat.mod_eq_of_lt (hsaved_lt _ _ _ hxl)]
    cases inSlot <;> cases x.sealedB <;> rfl
  · exact hpc.trans (congrArg (old.vbase + ·) (vectorOffset_word kind x.pl lvl))

/-! ### Sealed exits (R70, R399) -/

theorem getN_keepShared {x y : Strand} {m : BitVec 32} (hw : SMap.wf (fun _ => 0) x.n = true) (hy : y.n = keepShared m x.n)
    (r : Reg) : y.getN r = if r ≠ 0 ∧ m.getLsbD r.toNat then x.getN r else 0 := by
  unfold Strand.getN
  by_cases hr : r = 0
  · simp [hr]
  · rw [hy, keepShared, smap_get_filterMap (b := 0) _ _ _ hw (by split <;> rfl), natBit_eq_testBit]
    rw [if_neg hr, if_neg hr]
    change _ = if r ≠ 0 ∧ m.toNat.testBit r.toNat = true then _ else _
    by_cases hm : m.toNat.testBit r.toNat = true
    · rw [if_pos hm, if_pos ⟨hr, hm⟩]
      rfl
    · rw [if_neg hm, if_neg fun h => hm h.2]
      rfl

theorem getN_dropShared {x y : Strand} {m : BitVec 32} (hw : SMap.wf (fun _ => 0) x.n = true) (hy : y.n = dropShared m x.n)
    {r : Reg} (hr : m.getLsbD r.toNat = false) : y.getN r = x.getN r := by
  have hb : natBit m.toNat r.toNat = false := by rw [natBit_eq_testBit]; exact hr
  unfold Strand.getN
  rw [hy, dropShared, smap_get_filterMap (b := 0) _ _ _ hw (by split <;> rfl), hb]
  rfl

@[simp] theorem count_domains (d : Dev) (g : Nat) (x : Strand) (ev : Nat) : (d.count g x ev).domains = d.domains := by
  have h : (bare (d.count g x ev)).domains = (bare d).domains := by rw [bare_count]
  exact h

@[simp] theorem domain_setDomain (d : Dev) (i : Nat) (x : Option Domain) : (d.setDomain i x).domain i = x :=
  smap_get_set_same _ _ _ _

/-- A sealed exit out of vCPU i of a domain. -/
theorem sealedExit_inside {s : State} {g dom i : Nat} {m : Domain} {w : Vcpu} {pc : Word} {d : Option Reg}
    (hi : (s.strand g).inside = some (dom, i)) (hm : s.dev.domain dom = some m) (hw : m.vcpus[i]? = some w) :
    let m' := m.setVcpu i fun v =>
      { v with st := sealedImage (s.strand g) m.shared pc, running := false, exitD := d, exits := v.exits + 1 }
    s.sealedExit g pc d = { s with dev := (s.dev.setDomain dom (some m')).flushBtb (s.dev.phys (g / 2)) }.setStrand g
      { (s.strand g).clearSealed m.shared with lastExit := some (dom, i, w.exits + 1) } := by
  intro m'
  have hv : m'.vcpus[i]? = some { w with
      st := sealedImage (s.strand g) m.shared pc, running := false, exitD := d, exits := w.exits + 1 } := by
    simp [m', Domain.setVcpu, hw]
  unfold State.sealedExit
  dsimp only
  rw [hi]
  dsimp only
  rw [hm]
  dsimp only
  change State.setStrand _ g { (s.strand g).clearSealed m.shared with lastExit := some (dom, i, match m'.vcpus[i]? with
    | some v => v.exits
    | none => 0) } = _
  rw [hv]

/-- What an entry to H writes into a strand's H registers before a sealed exit clears the others. -/
def enteredH (x : Strand) (epc cause : Word) (inSlot : Bool) (syn : Syn) : Strand :=
  { x with
    bankH := { x.bankH with epc := align4 epc, cause := cause, faddr := 0, fsyn := syn.sealedApply x.bankH.fsyn }
    hstatus := putF x.hstatus 34 5 (x.pl + 4 * bnat x.ie + 8 * bnat inSlot + 16 * bnat x.sealedB) }

theorem enteredH_inside (x : Strand) (epc cause : Word) (inSlot : Bool) (syn : Syn) :
    (enteredH x epc cause inSlot syn).inside = x.inside := by
  rw [enteredH]

/-- An entry to H that is a sealed exit, by its three parts: H's registers, the exit, the vector. -/
theorem enter_sealed {s : State} {g : Nat} {epc cause : Word} {inSlot : Bool} {syn : Syn}
    (hs : (s.strand g).shadow = none) (hb : (s.strand g).sealedB = true) (hp : (s.strand g).pl < 2) :
    let u := ({ s with dev := s.dev.count g (s.strand g) 0x50 }.setStrand g
      (enteredH (s.strand g) epc cause inSlot syn)).sealedExit g epc none
    s.enter g 2 .exception epc cause inSlot none none syn none = u.setStrand g { u.strand g with
      status := putF (u.strand g).status 0 3 2
      slot := none
      pc := (u.strand g).bankH.vbase + 0x280 } := by
  unfold State.enter
  rw [closeShadow_of_none hs]
  have h2 : ((s.strand g).pl == 2) = false := by simpa using Nat.ne_of_lt hp
  dsimp only
  rw [strand_dev, hb, h2]
  rfl

theorem sealedExitEntry_holds : sealedExitEntry := by
  intro s g dom i m w epc cause inSlot syn x hw hs hb hp hi hm hv t y
  let e := enteredH x epc cause inSlot syn
  let c : State := { s with dev := s.dev.count g x 0x50 }.setStrand g e
  have hce : c.strand g = e := strand_setStrand_same _ _ _
  have hci : (c.strand g).inside = some (dom, i) := by rw [hce, enteredH_inside]; exact hi
  have hcm : c.dev.domain dom = some m := by
    unfold Dev.domain
    rw [setStrand_dev, count_domains]
    exact hm
  let m' := m.setVcpu i fun v =>
    { v with st := sealedImage e m.shared epc, running := false, exitD := none, exits := v.exits + 1 }
  let u : State := { c with dev := (c.dev.setDomain dom (some m')).flushBtb (c.dev.phys (g / 2)) }.setStrand g
    { e.clearSealed m.shared with lastExit := some (dom, i, w.exits + 1) }
  have hu : c.sealedExit g epc none = u := by
    have := sealedExit_inside (pc := epc) (d := none) hci hcm hv
    rw [hce] at this
    exact this
  have hue : u.strand g = { e.clearSealed m.shared with lastExit := some (dom, i, w.exits + 1) } := strand_setStrand_same _ _ _
  have ht : t = u.setStrand g { u.strand g with
      status := putF (u.strand g).status 0 3 2
      slot := none
      pc := (u.strand g).bankH.vbase + 0x280 } := by
    rw [← hu]
    exact enter_sealed hs hb hp
  have hy : y = { x with
      n := keepShared m.shared x.n
      v := []
      bankS := {}
      bankH := { x.bankH with epc := align4 epc, cause := cause, faddr := 0, fsyn := syn.sealedApply x.bankH.fsyn }
      tcfg := putF x.tcfg 0 3 0
      ttb1 := 0
      asid := 0
      timecmp := 0
      status := putF (x.status &&& ~~~(word 0x77C)) 0 3 2
      hstatus := putF x.hstatus 34 5 (x.pl + 4 * bnat x.ie + 8 * bnat inSlot + 16 * bnat x.sealedB)
      ras := []
      inside := none
      lastExit := some (dom, i, w.exits + 1)
      slot := none
      pc := x.bankH.vbase + 0x280 } := by
    change t.strand g = _
    rw [ht, strand_setStrand_same, hue]
    simp only [Strand.clearSealed, e, enteredH]
  obtain ⟨hl, hie⟩ := level_entered (lvl := 2) (x.status &&& ~~~(word 0x77C)) (.inr rfl)
  have hys : y.status = putF (x.status &&& ~~~(word 0x77C)) 0 3 2 := by rw [hy]
  have hsb : y.sealedB = false := by
    unfold Strand.sealedB
    rw [hys, bitOf_eq_getLsbD, getLsbD_putF _ _ _ (by decide), if_neg (by decide)]
    rw [BitVec.getLsbD_and, show (~~~(word 0x77C)).getLsbD 8 = false by decide, Bool.and_false]
  have hhp : y.hpsealed = true := by
    have hh : y.hstatus = putF x.hstatus 34 5 (x.pl + 4 * bnat x.ie + 8 * bnat inSlot + 16 * bnat x.sealedB) := by
      rw [hy]
    have hx := hsaved_lt x.ie inSlot false (Nat.lt_trans hp (by decide))
    unfold Strand.hpsealed
    rw [hh, bitOf_eq_getLsbD, getLsbD_putF _ _ _ (by decide), if_pos (by decide), show x.sealedB = true from hb,
      Nat.testBit_eq_decide_div_mod_eq]
    change decide ((x.pl + 4 * bnat x.ie + 8 * bnat inSlot + 16 * 1) / 2 ^ 4 % 2 = 1) = true
    rw [show bnat false = 0 from rfl] at hx
    have hlt : x.pl + 4 * bnat x.ie + 8 * bnat inSlot < 16 := by
      have hp' : x.pl < 2 := hp
      have hb := bnat_le x.ie
      have hc := bnat_le inSlot
      omega
    exact decide_eq_true (by omega)
  have hdom : t.dev.domain dom = some m' := by
    rw [ht]
    exact domain_setDomain c.dev dom (some m')
  have hv' : m'.vcpus[i]? = some { w with
      st := sealedImage e m.shared epc, running := false, exitD := none, exits := w.exits + 1 } := by
    simp [m', Domain.setVcpu, hv]
  have he : sealedImage e m.shared epc = { Strand.reset with
      pc := epc
      n := dropShared m.shared x.n
      v := x.v
      bankS := x.bankS
      tcfg := word (getF x.tcfg 0 3)
      ttb1 := x.ttb1
      asid := x.asid
      timecmp := x.timecmp
      status := statusSaved x.status } := by
    simp only [sealedImage, e, enteredH]
  rw [he] at hv'
  refine ⟨by rw [hy], (congrArg (getF · 0 2) hys).trans hl, (congrArg (bitOf · 2) hys).trans hie, hsb, hhp, by rw [hy],
    getN_keepShared hw (by rw [hy]), by rw [hy], by rw [hy], by rw [hy], by rw [hy], by rw [hy], by rw [hy], by rw [hy],
    by rw [hy], m', _, hdom, hv', rfl, rfl, rfl, rfl, rfl, rfl, rfl, fun r hr => getN_dropShared hw rfl hr⟩

/-- Settles O14: entries by the strand that they leave, sealed exits by what the exit saves and clears. -/
theorem exceptionEntries : Obligations.ExceptionEntries := ⟨exceptionEntry_holds, sealedExitEntry_holds⟩

end Sys2Proof.Proofs
end

