-- ==== Sys2Proof/Proofs/Raised.lean ====
section
/-!
PROOFS. The exceptions that instructions raise: their level and return address (R63, R65, R74, R80), and their order (R64).
-/

namespace Sys2Proof.Proofs

open Sys2Proof Sys2Proof.Machine Sys2Proof.Laws

/-! ### Where an exception goes -/

theorem excLevel_eq {d : Dev} {x : Strand} {e : Exc} (hs : e.syn = .none) (hc : d.duty 10 = true ∨ e.code ≠ 8) :
    excLevel d x e = if x.pl = 2 ∨ e.code = 0x0B ∨ e.code = 0x0D ∨ e.code = 0x11 ∨ x.hstatus.getLsbD e.code = false then 2 else 1 := by
  have h8 : (e.code == 8 && !d.duty 10) = false := by
    rcases hc with h | h
    · rw [h, Bool.not_true, Bool.and_false]
    · rw [beq_eq_false_iff_ne.2 h, Bool.false_and]
  unfold excLevel
  rw [hs]
  dsimp only
  rw [Bool.and_false, h8, bitOf_eq_getLsbD]
  by_cases hp : x.pl = 2
  · simp [hp]
  · by_cases hk : e.code = 0x0B ∨ e.code = 0x0D ∨ e.code = 0x11
    · rcases hk with h | h | h <;> simp [h]
    · obtain ⟨h1, h2, h3⟩ := not_or.1 hk |>.imp_right not_or.1
      cases hb : x.hstatus.getLsbD e.code <;> simp [hp, h1, h2, h3]

theorem excCause_eq (x : Strand) (c : Nat) : excCause c x.position = word (c + match x.shadow with
      | none => 0
      | some sh => 2 ^ 22 + (sh.pos + 1) * 2 ^ 23) := by
  unfold excCause Strand.position
  cases x.shadow with
  | none => rfl
  | some sh =>
    dsimp only
    rw [if_neg (by simp)]

theorem raiseChoosesLevelAndReturnAddress_holds : raiseChoosesLevelAndReturnAddress := by
  intro s g e hs hc x lvl cause
  have hl : excLevel s.dev x e = lvl := excLevel_eq hs hc
  have hk : excCause e.code x.position = cause := excCause_eq x e.code
  unfold State.raise
  dsimp only
  rw [show excLevel s.dev (s.strand g) e = lvl from hl, show excCause e.code (s.strand g).position = cause from hk, hs]
  refine ⟨fun h => ?_, fun sl h hn => ?_, fun sl r v h hn => ?_⟩
  · rw [show (s.strand g).slot = none from h]
  · rw [show (s.strand g).slot = some sl from h]
    dsimp only
    rw [hn]
  · rw [show (s.strand g).slot = some sl from h]
    dsimp only
    rw [hn]

/-! ### The order of the causes (R64) -/

/-- The first of an instruction's checks that fails, with its exception. -/
def checkOf (x : Strand) (n : Insn) : Option Exc :=
  if !n.legal then some { code := 1 }
  else if n.transfer && x.slot.isSome then some { code := 3, faddr := some x.pc }
  else if !n.allowed then some { code := 2 }
  else if n.modeWrite && x.shadow.isSome then some { code := 0x10 }
  else if n.vec && !x.vec then some { code := 0x0F }
  else none

/-- A strand that stands at the boundary of its next instruction, with no long operation in flight. -/
structure Standing (s : State) (g : Nat) : Prop where
  unit : strandOk g = true
  clocks : s.dev.clocksOk = true
  issues : s.mayIssue g = true
  stays : ((settled s g).dev.pm (g / 2)).draining = false
  alone : ((settled s g).strand g).longOps = []

theorem standing_of_ready {s : State} {g : Nat} {n : Insn} (h : ready s g n = true)
    (hl : ((begun s g).strand g).longOps = []) : Standing s g ∧ fetchOk ((settled s g).fetch g) = true := by
  simp only [ready, Bool.and_eq_true, Bool.not_eq_true'] at h
  obtain ⟨⟨⟨⟨⟨hg, hc⟩, hm⟩, hd⟩, hf⟩, -⟩ := h
  exact ⟨⟨hg, hc, hm, hd, hl⟩, hf⟩

variable {s : State} {g : Nat} {i : Strand → Insn} {body : State → Flow}

theorem issue_standing (h : Standing s g) : s.issue g i = match (settled s g).fetch g with
    | .exc e d => .exc { settled s g with dev := d } e
    | .ok d => match checkOf ((settled s g).strand g) (i ((settled s g).strand g)) with
      | some e => .exc { settled s g with dev := d } e
      | none => if ((settled s g).strand g).waitsFor (i ((settled s g).strand g)).regs then .held (settled s g)
        else .run { settled s g with dev := d } := by
  have hb : (if (s.strand g).shadowDue then s.closeShadow g else s) = settled s g := rfl
  unfold State.issue
  rw [h.issues, hb]
  dsimp only
  rw [h.stays, h.alone]
  cases (settled s g).fetch g with
  | exc e d => rfl
  | ok d =>
    dsimp only [checkOf]
    cases (i ((settled s g).strand g)).legal
    · rfl
    cases (i ((settled s g).strand g)).transfer && ((settled s g).strand g).slot.isSome
    swap
    · rfl
    cases (i ((settled s g).strand g)).allowed
    · rfl
    cases (i ((settled s g).strand g)).modeWrite && ((settled s g).strand g).shadow.isSome
    swap
    · rfl
    cases (i ((settled s g).strand g)).vec && !((settled s g).strand g).vec
    · rfl
    · rfl

/-- The fetch's exception comes first. -/
theorem runInsn_fetchExc (h : Standing s g) {e : Exc} {d : Dev} (hf : (settled s g).fetch g = .exc e d) :
    runInsn g s i body = .next ({ settled s g with dev := d }.raise g e) := by
  have hi := issue_standing (i := i) h
  rw [hf] at hi
  unfold runInsn
  rw [h.unit, h.clocks, hi]
  rfl

/-- The first check that fails raises. -/
theorem runInsn_check (h : Standing s g) (hf : fetchOk ((settled s g).fetch g) = true) {e : Exc}
    (hc : checkOf ((settled s g).strand g) (i ((settled s g).strand g)) = some e) :
    runInsn g s i body = .next ((begun s g).raise g e) := by
  have hi := issue_standing (i := i) h
  cases hq : (settled s g).fetch g with
  | exc e d => rw [hq] at hf; cases hf
  | ok d =>
    rw [hq, hc] at hi
    unfold runInsn begun
    rw [h.unit, h.clocks, hi, hq]
    rfl

/-! ### Software exceptions (R75, R87, R132) -/

/-- Words whose major opcode is unassigned are no instructions (R87). -/
theorem not_assignedWord {w : BitVec 32}
    (h : w.toNat / 2 ^ 26 ∈ [0x00, 0x03, 0x0E, 0x0F, 0x25, 0x26, 0x27, 0x2A, 0x2F, 0x32, 0x3F]) : assignedWord w = false := by
  unfold assignedWord
  dsimp only
  simp only [List.mem_cons, List.not_mem_nil, or_false] at h
  rcases h with h | h | h | h | h | h | h | h | h | h | h <;> rw [h] <;> rfl

theorem softwareExceptions_holds : softwareExceptions := by
  intro s g n w b hl
  refine ⟨fun h => ⟨?_, fun hp => ?_⟩, fun h => ⟨?_, fun hw => ?_⟩⟩
  · exact (execSys.eq_def ..).trans (runInsn_exc h rfl hl)
  · refine (execHcall.eq_def ..).trans (runInsn_exc ?_ rfl hl)
    have ha : decide (1 ≤ ((settled s g).strand g).pl) = true :=
      decide_eq_true (hp.elim (·.ge) fun e => Nat.le_trans (by decide) e.ge)
    rw [ha]
    exact h
  · exact (execBrk.eq_def ..).trans (runInsn_exc h rfl hl)
  · obtain ⟨hs, hf⟩ := standing_of_ready h hl
    refine (execIllegalInstruction.eq_def ..).trans (runInsn_check hs hf ?_)
    unfold checkOf
    rw [not_assignedWord hw]
    rfl

theorem firstCauseIsRaised_holds : firstCauseIsRaised := by
  intro s g hg hc hm z x hd hl
  have hs : Standing s g := ⟨decide_eq_true hg, hc, hm, hd, hl⟩
  refine ⟨fun e d hf c hmem => ?_, fun hf => ⟨?_, fun hsl => ?_, fun hsl hp => ?_, fun hp => ?_, fun hp hsh => ?_,
    fun hv t base imm => ?_⟩⟩
  · simp only [List.mem_cons, List.not_mem_nil, or_false] at hmem
    rcases hmem with rfl | rfl | rfl | rfl
    · exact (execEret.eq_def ..).trans (runInsn_fetchExc hs hf)
    · exact (execMtsr.eq_def ..).trans (runInsn_fetchExc hs hf)
    · exact (execLdv.eq_def ..).trans ((loadV.eq_def ..).trans (runInsn_fetchExc hs hf))
    · exact (execSys.eq_def ..).trans (runInsn_fetchExc hs hf)
  · exact (execEret.eq_def ..).trans (runInsn_check hs hf rfl)
  · refine (execEret.eq_def ..).trans (runInsn_check hs hf ?_)
    unfold checkOf
    dsimp only
    rw [show ((settled s g).strand g).slot.isSome = true from hsl]
    rfl
  · refine (execEret.eq_def ..).trans (runInsn_check hs hf ?_)
    unfold checkOf
    dsimp only
    rw [show ((settled s g).strand g).slot = none from hsl, show ((settled s g).strand g).pl = 0 from hp]
    rfl
  · refine (execMtsr.eq_def ..).trans (runInsn_check hs hf ?_)
    unfold checkOf
    dsimp only
    rw [show ((settled s g).strand g).pl = 0 from hp]
    rfl
  · refine (execMtsr.eq_def ..).trans (runInsn_check hs hf ?_)
    have ha : decide (srWriteLevel ((settled s g).strand g) 0 ≤ ((settled s g).strand g).pl) = true :=
      decide_eq_true (show 1 ≤ x.pl from hp.elim (·.ge) fun e => Nat.le_trans (by decide) e.ge)
    unfold checkOf
    dsimp only
    rw [srNamed_of_listed (by decide), ha, show ((settled s g).strand g).shadow.isSome = true from hsh]
    rfl
  · refine (execLdv.eq_def ..).trans ((loadV.eq_def ..).trans (runInsn_check hs hf ?_))
    unfold checkOf
    dsimp only
    rw [show ((settled s g).strand g).vec = false from hv]
    rfl

/-- Settles O15: the level and return address by `State.raise`, the order of causes by the checks of `State.issue`. -/
theorem exceptionsAreRaised : Obligations.ExceptionsAreRaised :=
  ⟨raiseChoosesLevelAndReturnAddress_holds, softwareExceptions_holds, firstCauseIsRaised_holds⟩

end Sys2Proof.Proofs
end

