-- ==== Sys2Proof/Proofs/LineBytes.lean ====
section
/-!
PROOFS. The bytes of lines and of numbers (R9), and what a core's reads and writes of its own lines change (R143, R195, R216).
-/

namespace Sys2Proof.Proofs

open Sys2Proof Sys2Proof.Machine Sys2Proof.Laws

/-! ### What devices that agree but for their registers have in common -/

theorem of_bare {α : Type} {d e : Dev} (F : Dev → α) (hF : ∀ d, F (bare d) = F d) (h : bare d = bare e) : F d = F e := by
  rw [← hF d, h, hF]

theorem of_bareOfBtb {α : Type} {d e : Dev} (F : Dev → α) (hF : ∀ d, F (bareOfBtb d) = F d) (h : bareOfBtb d = bareOfBtb e) :
    F d = F e := by
  rw [← hF d, h, hF]

/-! ### Bytes -/

theorem leNat_eq_ofDigits (bs : List Byte) : leNat bs = Nat.ofDigits 256 (bs.map BitVec.toNat) := by
  induction bs with
  | nil => rfl
  | cons b bs ih => rw [leNat, ih, List.map_cons, Nat.ofDigits_cons]

theorem leNat_lt (bs : List Byte) : leNat bs < 256 ^ bs.length := by
  rw [leNat_eq_ofDigits]
  have h := Nat.ofDigits_lt_base_pow_length (b := 256) (l := bs.map BitVec.toNat) (by decide) (by
    intro x hx
    obtain ⟨b, -, rfl⟩ := List.mem_map.1 hx
    exact b.isLt)
  rwa [List.length_map] at h

@[simp] theorem leBytes_length (n x : Nat) : (leBytes n x).length = n := by
  induction n generalizing x with
  | zero => rfl
  | succ n ih => rw [leBytes, List.length_cons, ih]

theorem lineByte_packLine (f : Nat → Byte) {i : Nat} (hi : i < 64) : lineByte (packLine f) i = f i := by
  have hmap : ((List.range 64).map f).map BitVec.toNat = (List.range 64).map fun i => (f i).toNat := by
    rw [List.map_map]
    rfl
  have hlt := ofDigits_map_range_lt (B := 256) (by decide) (f := fun i => (f i).toNat) (fun i => (f i).isLt) 64
  have hd := ofDigits_map_range_digit (B := 256) (f := fun i => (f i).toNat) (fun i => (f i).isLt) hi
  apply BitVec.eq_of_toNat_eq
  rw [lineByte, packLine, leNat_eq_ofDigits, hmap, BitVec.toNat_ofNat, BitVec.toNat_ofNat, Nat.mod_eq_of_lt (a := Nat.ofDigits _ _)]
  · exact hd
  · exact Nat.lt_of_lt_of_eq hlt (by rw [show 256 = 2 ^ 8 from rfl, ← pow_mul])

/-- Which bytes a write of bytes into a line changes. -/
theorem lineByte_putBytes (l : Line) (off : Nat) (bs : List Byte) {i : Nat} (hi : i < 64) :
    lineByte (putBytes l off bs) i =
      if off ≤ i ∧ i < off + bs.length then (bs[i - off]?).getD 0 else lineByte l i := by
  rw [putBytes, lineByte_packLine _ hi]
  by_cases h1 : off ≤ i
  · by_cases h2 : i < off + bs.length
    · rw [if_pos h1, if_pos ⟨h1, h2⟩, List.getElem?_eq_getElem (by omega)]
      rfl
    · rw [if_pos h1, if_neg fun h => h2 h.2, List.getElem?_eq_none (by omega)]
      rfl
  · rw [if_neg h1, if_neg fun h => h1 h.1]

/-! ### A core's own lines -/

/-- Two maps of cached lines that agree but for the marks of the L1 arrays. -/
def SameLines (m n : SMap CLine) : Prop :=
  ∀ k, (SMap.get (fun _ => CLine.none) m k).data = (SMap.get (fun _ => CLine.none) n k).data ∧
    (SMap.get (fun _ => CLine.none) m k).st = (SMap.get (fun _ => CLine.none) n k).st

theorem sameLines_refl (m : SMap CLine) : SameLines m m := fun _ => ⟨rfl, rfl⟩

theorem sameLines_trans {a b c : SMap CLine} (h : SameLines a b) (k : SameLines b c) : SameLines a c :=
  fun i => ⟨(h i).1.trans (k i).1, (h i).2.trans (k i).2⟩

/-- A line's entry replaced by one with the same data and state. -/
theorem sameLines_set {m n : SMap CLine} (h : SameLines m n) (k : Nat) {x : CLine}
    (hd : x.data = (SMap.get (fun _ => CLine.none) n k).data) (hs : x.st = (SMap.get (fun _ => CLine.none) n k).st) :
    SameLines (SMap.set (fun _ => CLine.none) m k x) n := by
  intro i
  by_cases e : i = k
  · rw [e, smap_get_set_same]
    exact ⟨hd, hs⟩
  · rw [smap_get_set_other _ _ _ _ _ e]
    exact h i

@[simp] theorem putL1_data (l : CLine) (i b : Bool) : (l.putL1 i b).data = l.data := by cases i <;> rfl

@[simp] theorem putL1_st (l : CLine) (i b : Bool) : (l.putL1 i b).st = l.st := by cases i <;> rfl

/-- A line marked in an L1 array: nothing but marks changes. -/
theorem markL1_lines (d : Dev) (c g : Nat) (instr : Bool) :
    ∃ m, d.markL1 c g instr = { d with l2 := m } ∧ SameLines m d.l2 := by
  unfold Dev.markL1
  dsimp only
  split
  · exact ⟨d.l2, rfl, sameLines_refl _⟩
  · split
    · exact ⟨_, rfl, sameLines_set (sameLines_refl _) _ (putL1_data _ _ _) (putL1_st _ _ _)⟩
    · split
      · exact ⟨_, rfl, sameLines_set (sameLines_refl _) _ (putL1_data _ _ _) (putL1_st _ _ _)⟩
      · exact ⟨_, rfl, sameLines_set (sameLines_set (sameLines_refl _) _ (putL1_data _ _ _) (putL1_st _ _ _)) _
          (putL1_data _ _ _) (putL1_st _ _ _)⟩

/-- The device but for its registers and the injected errors. -/
def still (d : Dev) : Dev := { d with regs := [], flips := [] }

@[simp] theorem still_setFld (d : Dev) (f : Field) (x : Nat) : still (d.setFld f x) = still d := rfl

@[simp] theorem still_flips (d : Dev) (fs : List Flip) : still { d with flips := fs } = still d := rfl

@[simp] theorem still_unflip (d : Dev) (grp inst loc : Nat) (ws : List Nat) : still (d.unflip grp inst loc ws) = still d := rfl

theorem eq_of_still {d e : Dev} (h : still e = still d) : e = { d with regs := e.regs, flips := e.flips } := by
  have h1 : e = { still e with regs := e.regs, flips := e.flips } := rfl
  rw [h] at h1
  exact h1

theorem still_arrayWrite (d : Dev) (grp inst loc : Nat) (w : Option Nat) (ws : List Nat) :
    still (d.arrayWrite grp inst loc w ws) = still d := by
  have h : still (if d.flips.isEmpty then d else d.unflip grp inst loc ws) = still d := by
    split
    · rfl
    · rfl
  unfold Dev.arrayWrite
  dsimp only
  generalize (if d.flips.isEmpty then d else d.unflip grp inst loc ws) = e at *
  split
  · rw [still_flips, still_setFld, still_setFld, still_setFld, h]
  · exact h

/-- A write into an array changes registers and the injected errors alone. -/
theorem arrayWrite_eq (d : Dev) (grp inst loc : Nat) (w : Option Nat) (ws : List Nat) :
    ∃ rs fs, d.arrayWrite grp inst loc w ws = { d with regs := rs, flips := fs } :=
  ⟨_, _, eq_of_still (still_arrayWrite d grp inst loc w ws)⟩

theorem checkLine_of_clean {d : Dev} (h : d.flips = []) (c g : Nat) (ws : List Nat) : d.checkLine c g ws = d := by
  unfold Dev.checkLine
  rw [h]
  rfl

/-- A store of bytes into a line that the core holds (R143, R216). -/
theorem writeLine_eq {d : Dev} (h : d.flips = []) (c pa : Nat) (bs : List Byte) :
    ∃ rs fs m x, d.writeLine c pa bs = { d with regs := rs, flips := fs, l2 := m } ∧
      SameLines m (SMap.set (fun _ => CLine.none) d.l2 (pa / 64 * 512 + c) x) ∧
      x.st = .modified ∧ x.data = putBytes (d.line c (pa / 64)).data (pa % 64) bs := by
  obtain ⟨rs, fs, ha⟩ := arrayWrite_eq d 3 c (64 * (pa / 64)) none (wordsOf pa bs.length)
  unfold Dev.writeLine
  dsimp only
  rw [checkLine_of_clean h, ha]
  unfold Dev.setLine
  dsimp only
  let k := (if (d.line c (pa / 64)).st == .modified then (d.line c (pa / 64)).stored else 0) ||| byteMask (pa % 64) bs.length
  let x : CLine := { d.line c (pa / 64) with
    st := .modified
    data := putBytes (d.line c (pa / 64)).data (pa % 64) bs
    stored := k
    poison := (d.line c (pa / 64)).poison && k != fullMask }
  obtain ⟨m, hm, hs⟩ := markL1_lines { d with
    regs := rs
    flips := fs
    l2 := SMap.set (fun _ => CLine.none) d.l2 (pa / 64 * 512 + c) x } c (pa / 64) false
  exact ⟨rs, fs, m, x, hm, hs, rfl, rfl⟩

/-- A tracker takes a store: nothing but the trackers changes. -/
theorem trackStore_eq {d e : Dev} {c j g : Nat} (h : d.trackStore c j g = some e) : ∃ ts, e = { d with trackers := ts } := by
  unfold Dev.trackStore at h
  dsimp only at h
  repeat' split at h
  all_goals first
    | (injection h with h; subst h; exact ⟨_, rfl⟩)
    | cases h

end Sys2Proof.Proofs
end

