-- ==== Sys2Proof/Proofs/Loads.lean ====
section
/-!
PROOFS. Loads and gathers (R104, R107 to R109), and where their bytes come from (R152, R195, R216).
-/

namespace Sys2Proof.Proofs

open Sys2Proof Sys2Proof.Machine Sys2Proof.Laws

/-! ### The values of loads (R108) -/

theorem word_setWidth (v : Nat) {k : Nat} (hk : k ≤ 64) : (word v).setWidth k = BitVec.ofNat k v :=
  (BitVec.setWidth_ofNat_of_le hk v).trans rfl

theorem setWidth_256_64 (x : Word) : (x.setWidth 256).setWidth 64 = x := by
  rw [BitVec.setWidth_setWidth_of_le _ (by decide), BitVec.setWidth_eq]

theorem loadValue_byte (sg : Bool) (bs : List Byte) : (loadValue 1 sg bs).setWidth 64
    = if sg then (BitVec.ofNat 8 (leNat bs)).signExtend 64 else (BitVec.ofNat 8 (leNat bs)).setWidth 64 := by
  rw [← word_setWidth (leNat bs) (by decide : 8 ≤ 64)]
  cases sg
  · exact BitVec.setWidth_setWidth_of_le ((word (leNat bs)).setWidth 8) (by decide : 64 ≤ 256)
  · exact setWidth_256_64 (((word (leNat bs)).setWidth 8).signExtend 64)

theorem loadValue_half (sg : Bool) (bs : List Byte) : (loadValue 2 sg bs).setWidth 64
    = if sg then (BitVec.ofNat 16 (leNat bs)).signExtend 64 else (BitVec.ofNat 16 (leNat bs)).setWidth 64 := by
  rw [← word_setWidth (leNat bs) (by decide : 16 ≤ 64)]
  cases sg
  · exact BitVec.setWidth_setWidth_of_le ((word (leNat bs)).setWidth 16) (by decide : 64 ≤ 256)
  · exact setWidth_256_64 (((word (leNat bs)).setWidth 16).signExtend 64)

theorem loadValue_word (sg : Bool) (bs : List Byte) : (loadValue 4 sg bs).setWidth 64
    = if sg then (BitVec.ofNat 32 (leNat bs)).signExtend 64 else (BitVec.ofNat 32 (leNat bs)).setWidth 64 := by
  rw [← word_setWidth (leNat bs) (by decide : 32 ≤ 64)]
  cases sg
  · exact BitVec.setWidth_setWidth_of_le ((word (leNat bs)).setWidth 32) (by decide : 64 ≤ 256)
  · exact setWidth_256_64 (((word (leNat bs)).setWidth 32).signExtend 64)

theorem loadValue_double (sg : Bool) (bs : List Byte) : (loadValue 8 sg bs).setWidth 64 = BitVec.ofNat 64 (leNat bs) :=
  setWidth_256_64 _

section
variable {c : Instr} {s : State} {g n : Nat} {sg : Bool} {t b : Reg} {imm : BitVec 16} {q : Read}

/-- A load into a general register. -/
theorem retires_of_loadN (hc : exec c s = loadN g n sg t b imm s) (h : ready s g { regs := [.n t, .n b] } = true)
    (hr : loadRead (begun s g) g n (((begun s g).strand g).getN b + imm.signExtend 64) = some q) {v : Word}
    (hv : (loadValue n sg q.bytes).setWidth 64 = v) : retires c s g (((begun s g).strand g).setN t v) q.dev := by
  obtain ⟨u, hu, hx, ho, hd⟩ := load_ok sg (.n t) hr
  exact retires_of_ok hc h hu (hx.trans (congrArg (fun v => ((begun s g).strand g).setN t v) hv)) ho hd

/-- A load into a vector register. -/
theorem retires_of_loadV (hc : exec c s = loadV g n t b imm s) (h : ready s g { vec := true, regs := [.v t, .n b] } = true)
    (hr : loadRead (begun s g) g n (((begun s g).strand g).getN b + imm.signExtend 64) = some q) {v : VWord}
    (hv : loadValue n false q.bytes = v) : retires c s g (((begun s g).strand g).setV t v) q.dev := by
  obtain ⟨u, hu, hx, ho, hd⟩ := load_ok false (.v t) hr
  exact retires_of_ok hc h hu (hx.trans (congrArg (fun v => ((begun s g).strand g).setV t v) hv)) ho hd

end

theorem loadResults_holds : loadResults := by
  intro s g t b imm q u va v
  refine ⟨fun h => ⟨fun hr => ⟨?_, ?_⟩, fun hr => ⟨?_, ?_⟩, fun hr => ⟨?_, ?_⟩, fun hr => ?_⟩, fun h => ⟨fun hr => ?_, fun hr => ?_⟩⟩
  · exact retires_of_loadN rfl h hr (loadValue_byte true _)
  · exact retires_of_loadN rfl h hr (loadValue_byte false _)
  · exact retires_of_loadN rfl h hr (loadValue_half true _)
  · exact retires_of_loadN rfl h hr (loadValue_half false _)
  · exact retires_of_loadN rfl h hr (loadValue_word true _)
  · exact retires_of_loadN rfl h hr (loadValue_word false _)
  · exact retires_of_loadN rfl h hr (loadValue_double false _)
  · exact retires_of_loadV rfl h hr rfl
  · exact retires_of_loadV rfl h hr rfl

/-! ### Where the bytes come from (R152, R195) -/

/-- The youngest entry that overlaps decides what a piece finds in the store buffer. -/
theorem sbLook_youngest {sb old young : List SbEntry} {e : SbEntry} {pa n : Nat} (hs : sb = old ++ e :: young)
    (hy : ∀ f ∈ young, f.overlaps pa n = false) (he : e.overlaps pa n = true) :
    sbLook sb pa n = if e.forwards && e.holds pa n then .forward ((e.bytes.drop (pa - e.pa)).take n) else .wait := by
  have hf : sb.reverse.find? (fun e => e.overlaps pa n) = some e := by
    have hn : young.reverse.find? (fun e => e.overlaps pa n) = none :=
      List.find?_eq_none.2 fun f m => by simp [hy f (List.mem_reverse.1 m)]
    rw [hs, List.reverse_append, List.reverse_cons, List.append_assoc, List.find?_append, hn, Option.none_or]
    exact List.find?_cons_of_pos he
  unfold sbLook
  rw [hf]

theorem sbLook_apart {sb : List SbEntry} {pa n : Nat} (h : ∀ e ∈ sb, e.overlaps pa n = false) : sbLook sb pa n = .none := by
  have hf : sb.reverse.find? (fun e => e.overlaps pa n) = none :=
    List.find?_eq_none.2 fun f m => by simp [h f (List.mem_reverse.1 m)]
  unfold sbLook
  rw [hf]

/-- What a core reads of a line that its enabled L2 holds, with no injected error standing. -/
theorem readLine_held {d : Dev} {c g key : Nat} (ws : List Nat) (hf : d.flips = []) (hu : d.unclean = []) (ho : d.l2On c = true)
    (hl : (d.line c g).st ≠ .invalid) :
    d.readLine c g key 0 ws = ⟨(d.line c g).data, (d.line c g).poison, 1, d.markL1 c g false⟩ := by
  have hn : ((d.line c g).st != .invalid) = true := bne_iff_ne.2 hl
  have hr : d.coreRead c g key = ⟨(d.line c g).data, (d.line c g).poison, 1, d⟩ := by
    unfold Dev.coreRead Dev.arbitraryHit Dev.currentFor
    rw [hu, hn]
    rfl
  unfold Dev.readLine Dev.demand
  rw [checkLine_of_clean hf, hr]
  dsimp only
  rw [ho, hn]
  rfl

theorem piece_forward {c : Nat} {sb : List SbEntry} {r : Read} {p : Piece} {bs : List Byte}
    (h : sbLook sb p.a.pa p.n = .forward bs) :
    Read.piece c sb r p = { r with bytes := r.bytes ++ bs, forwarded := true } := by
  unfold Read.piece
  rw [h]

theorem piece_wait {c : Nat} {sb : List SbEntry} {r : Read} {p : Piece} (h : sbLook sb p.a.pa p.n = .wait) :
    Read.piece c sb r p = { r with wait := true } := by
  unfold Read.piece
  rw [h]

theorem loadSources_holds : loadSources := by
  intro c sb r p
  refine ⟨fun old young e hs hy he => ?_, fun hn hm hf hu ho => ?_⟩
  · intro q
    have hl := sbLook_youngest hs hy he
    by_cases hc : e.forwards = true ∧ e.holds p.a.pa p.n = true
    · rw [hc.1, hc.2] at hl
      have hq : q = _ := piece_forward hl
      rw [if_pos hc, hq]
      exact ⟨rfl, rfl, rfl⟩
    · have hc' : (e.forwards && e.holds p.a.pa p.n) = false := by
        simpa [Bool.and_eq_false_iff, not_and_or] using hc
      rw [hc'] at hl
      have hq : q = _ := piece_wait hl
      rw [if_neg hc, hq]
      exact ⟨rfl, rfl⟩
  · intro l hl q
    have hq : q = { r with
        bytes := r.bytes ++ takeBytes l.data (p.a.pa % 64) p.n
        poison := r.poison.or (if l.poison then some (p.va, p.a.pa / 64, 1) else none)
        dev := r.dev.markL1 c (p.a.pa / 64) false } := by
      change Read.piece c sb r p = _
      unfold Read.piece
      rw [sbLook_apart hn, hm, readLine_held _ hf hu ho hl]
    obtain ⟨m, hd, hs⟩ := markL1_lines r.dev c (p.a.pa / 64) false
    rw [hd] at hq
    rw [hq]
    refine ⟨rfl, rfl, fun h => ?_, fun h => ?_, fun k g => hs _, rfl, rfl, rfl, rfl⟩
    · rw [h]
      exact Option.or_none
    · rw [h]
      cases r.poison <;> rfl

/-! ### Gathers (R104) -/

/-- What a gather's data phase leaves, when every element lies in Normal memory and is read. -/
theorem gatherData_ok {s : State} {g : Nat} {d : Reg} {ps : List Piece} {q : Read} (h : readPieces s g (ps, s.dev) = some q) :
    ∃ t, s.gatherData g d ps = .ok t ∧ t.strand g = (s.strand g).setV d (BitVec.ofNat 256 (leNat q.bytes)) ∧
      (∀ k, k ≠ g → t.strand k = s.strand k) ∧ sameBut t.dev q.dev := by
  unfold readPieces at h
  dsimp only at h
  split at h
  · rename_i hc
    simp only [Bool.and_eq_true, Bool.not_eq_true', List.all_eq_true, bne_iff_ne, ne_eq] at hc
    obtain ⟨⟨hp, hw⟩, hq⟩ := hc
    cases h
    have hcl : ∀ p ∈ ps, s.dev.claim p.a.pa ≠ .none := fun p m e => by
      have := (hp p m).1
      rw [e] at this
      cases this
    have hfilter : ps.filter (fun p => s.dev.claim p.a.pa != .none) = ps :=
      List.filter_eq_self.2 fun p m => bne_iff_ne.2 (hcl p m)
    have hfind : s.gatherUnclaimed ps = none := List.find?_eq_none.2 fun p m => by simpa using hcl p m
    unfold State.gatherData
    dsimp only
    rw [hfilter, hw, Option.isNone_iff_eq_none.1 hq, hfind]
    refine ⟨_, rfl, ?_⟩
    have hst := fun k => ite_count_strand
      ((List.foldl (Read.piece (s.dev.phys (g / 2)) (s.strand g).sb) ⟨[], false, false, none, s.dev⟩ ps).forwarded = true)
      { s with dev := (List.foldl (Read.piece (s.dev.phys (g / 2)) (s.strand g).sb) ⟨[], false, false, none, s.dev⟩ ps).dev } g 0x21 k
    refine ⟨(setV_strand _ _ _ _).trans (by rw [hst g]; rfl), fun k hk => (strand_setStrand_other _ _ _ _ hk).trans (hst k), ?_⟩
    rw [setV_dev]
    exact ite_count_dev _ _ _ _
  · cases h

theorem gatherAddrs_eq (w : BitVec 2) (a : Word) (b : VWord) : gatherAddrs w a b = (List.range (lanesOf w)).map fun i =>
    (a + BitVec.ofInt 64 (laneS w b i * (laneW w / 8 : Nat)), laneW w / 8) := by
  unfold gatherAddrs
  refine List.map_congr_left fun i _ => ?_
  rw [BitVec.ofInt_add, BitVec.ofInt_natCast, BitVec.ofNat_toNat, BitVec.setWidth_eq]
  rfl

theorem gatherResults_holds : gatherResults := by
  intro s g w d a b q hw h u n va es r ha hf hq
  have hes : gatherAddrs w (u.getN a) (u.getV b) = es := gatherAddrs_eq w _ _
  have hfind : es.find? (fun p => p.1.toNat % p.2 != 0) = none := by
    refine List.find?_eq_none.2 fun p m => ?_
    obtain ⟨i, hi, rfl⟩ := List.mem_map.1 m
    simp [ha i (List.mem_range.1 hi)]
  have hl : (w == 2 || w == 3) = true := by rcases hw with rfl | rfl <;> rfl
  obtain ⟨t, ht, hx, ho, hd⟩ := gatherData_ok (s := { begun s g with dev := r.2 }) (d := d) hq
  refine retires_of_ok (t := t) (execVgather.eq_def ..) ?_ ?_ hx ho hd
  · rw [hl]
    exact h
  · dsimp only
    change (match (gatherAddrs w (u.getN a) (u.getV b)).find? (fun p => p.1.toNat % p.2 != 0) with
      | some p => Machine.Flow.exc { code := 4, faddr := some p.1 } (begun s g).dev
      | none => _) = _
    rw [hes, hfind]
    change (match accessFault r.2 u (u.getN a) n .load .gather r.1 with
      | some e => Machine.Flow.exc e r.2
      | none => _) = _
    rw [hf]
    exact ht

/-- Settles O8: each load by its value, each gather by its elements, each piece by where its bytes lie. -/
theorem loadsBringTheirBytes : Obligations.LoadsBringTheirBytes := ⟨loadResults_holds, gatherResults_holds, loadSources_holds⟩

end Sys2Proof.Proofs
end

