-- ==== Sys2Proof/Proofs/Stores.lean ====
section
/-!
PROOFS. Stores (R107, R108, R143): the entries that they make, and the bytes that the oldest entry writes when it leaves.
-/

namespace Sys2Proof.Proofs

open Sys2Proof Sys2Proof.Machine Sys2Proof.Laws

/-! ### Into the store buffer (R143) -/

theorem storeFault_normal {s : State} {g : Nat} {p : Piece} (h : (s.dev.claim p.a.pa).normal = true) :
    s.storeFault g p = none := by
  unfold State.storeFault State.windowStoreCheck
  cases hc : s.dev.claim p.a.pa with
  | dram k => rfl
  | peat k => rfl
  | window k => rw [hc] at h; cases h
  | ecam => rfl
  | regs k o => rfl
  | none => rw [hc] at h; cases h

/-- Two devices whose address maps are the same: the registers below those of the core tiles, and the other sockets' maps. -/
structure SameMap (d e : Dev) : Prop where
  regs : ∀ off, off < 0x4008000 → d.reg off = e.reg off
  chain : d.chain = e.chain

section
variable {d e : Dev} (h : SameMap d e)
include h

theorem SameMap.fld {f : Field} (hf : f.reg < 0x4008000) : d.fld f = e.fld f := congrArg f.get (h.regs _ hf)

theorem SameMap.rangeOf {base limit : Field} (hb : base.reg ≤ 0x1000) (hl : limit.reg ≤ 0x1000) (x : Nat) :
    d.rangeOf base limit x = e.rangeOf base limit x := by
  unfold Dev.rangeOf Dev.inRange
  refine List.find?_congr fun s m => ?_
  have hs := List.mem_range.1 m
  rw [h.regs _ (by omega), h.regs _ (by omega)]

theorem SameMap.self : d.self = e.self := h.fld (by decide)

theorem SameMap.reachable (s : Nat) : d.reachable s = e.reachable s := by
  unfold Dev.reachable
  rw [h.self, h.fld (f := R.CHAIN_STATUS_PRESENT) (by decide), h.fld (f := R.CHAIN_STATUS_COHERENT) (by decide)]

theorem SameMap.farEcam (pa : Nat) : d.farEcam pa = e.farEcam pa := by
  unfold Dev.farEcam
  rw [h.chain, h.self]
  simp only [h.reachable]

theorem SameMap.interleaved (pa : Nat) : d.interleaved (d.homeOffset pa) = e.interleaved (e.homeOffset pa) := by
  have hs : e.self < 8 := getF_lt _ _ 3
  unfold Dev.interleaved Dev.homeOffset Dev.waysLog
  rw [h.self, h.fld (f := R.MEM_IL_WAYS) (by decide), h.fld (f := R.MEM_IL_U_GIB) (by decide),
    h.fld (f := R.HOME_BASE_ADDR.at (8 * e.self)) (show 0x100 + 8 * e.self < 0x4008000 by omega)]

/-- What claims an address depends on the map alone (R32). -/
theorem SameMap.claim : d.claim = e.claim := by
  funext pa
  unfold Dev.claim Dev.flag
  rw [h.rangeOf (by decide) (by decide), h.rangeOf (by decide) (by decide), h.self, h.interleaved, h.farEcam,
    h.fld (f := R.CHAIN_STATUS_PRESENT) (by decide), h.fld (f := R.ECAM_BASE_EN) (by decide),
    h.fld (f := R.ECAM_BASE_ADDR) (by decide)]
  simp only [h.reachable]

end

theorem not_isCounter {off : Nat} (h : off < 0x4008000) : ¬isCounter off := by
  rintro ⟨c, i, -, rfl⟩
  change 0x400C040 + (0x10000 * (c / 2) + 0x800 * (c % 2)) + 8 * i < _ at h
  omega

theorem sameMap_of_sameBut {d e : Dev} (h : sameBut d e) : SameMap d e := by
  have hc : (bareOfBtb d).chain = (bareOfBtb e).chain := by rw [h.1]
  exact ⟨fun off ho => h.2 off (not_isCounter ho), hc⟩

theorem entriesOf_dev (d e : Dev) (rel : Bool) (n : Nat) (bs : List Byte) (ps : List Piece) :
    entriesOf d rel n bs ps = entriesOf e rel n bs ps := by
  induction ps generalizing n bs with
  | nil => rfl
  | cons p ps ih => rw [entriesOf, entriesOf, ih]

/-- The data phase of a store whose pieces lie in Normal memory and for which there is room. -/
theorem storeData_ok {s : State} {g : Nat} (bs : List Byte) (rel : Bool) {ps : List Piece}
    (hn : ∀ p ∈ ps, (s.dev.claim p.a.pa).normal = true) (ht : s.sbTakes g ps.length = true) :
    ∃ t, s.storeData g bs rel ps = .ok t ∧
      t.strand g = { s.strand g with
        sb := (s.strand g).sb ++ entriesOf s.dev rel (s.strand g).seq bs ps
        seq := (s.strand g).seq + ps.length } ∧
      (∀ k, k ≠ g → t.strand k = s.strand k) ∧ sameBut t.dev s.dev := by
  have hf : (ps.filterMap fun p => s.storeFault g p) = [] :=
    List.filterMap_eq_nil_iff.2 fun p m => storeFault_normal (hn p m)
  unfold State.storeData
  rw [hf, ht]
  dsimp only [List.head?_nil]
  let u := if 2 ≤ ps.length then s.count g 0x22 else s
  have hu : ∀ k, u.strand k = s.strand k := fun k => ite_count_strand _ _ _ _ _
  have hd : sameBut u.dev s.dev := ite_count_dev _ _ _ _
  have hcl := (sameMap_of_sameBut hd).claim
  obtain ⟨h1, h2, h3⟩ := sbPieces_ok g rel ps u bs fun p m => by rw [hcl]; exact hn p m
  refine ⟨_, rfl, ?_, fun k hk => (h2 k hk).trans (hu k), ?_⟩
  · rw [entriesOf_dev u.dev s.dev, hu g] at h3
    exact h3
  · change sameBut (u.sbPieces g bs rel ps).dev s.dev
    rw [h1]
    exact hd

/-- A store whose checks pass. -/
theorem store_ok {s : State} {g : Nat} {va : Word} {bs : List Byte} (rel : Bool) {r : List Piece × Dev}
    (h : storePieces s g va bs.length = some r) :
    ∃ t, s.store g va bs rel = .ok t ∧
      t.strand g = { s.strand g with
        sb := (s.strand g).sb ++ entriesOf r.2 rel (s.strand g).seq bs r.1
        seq := (s.strand g).seq + r.1.length } ∧
      (∀ k, k ≠ g → t.strand k = s.strand k) ∧ sameBut t.dev r.2 := by
  unfold storePieces at h
  unfold State.store
  generalize s.access g va bs.length .store .plain = q at *
  obtain ⟨⟨e, ps⟩, d⟩ := q
  cases e with
  | some e => simp at h
  | none =>
    dsimp only at h ⊢
    split at h
    · rename_i hc
      simp only [Option.isNone_none, Bool.true_and, Bool.and_eq_true, List.all_eq_true] at hc
      cases h
      exact storeData_ok (s := { s with dev := d }) bs rel hc.1 hc.2
    · cases h

theorem storeOutcome_of_storeN {c : Instr} {s : State} {g n : Nat} {t b : Reg} {imm : BitVec 16}
    (hc : exec c s = storeN g n t b imm s) (h : ready s g { regs := [.n t, .n b] } = true) :
    storeOutcome c s g (((begun s g).strand g).getN b + imm.signExtend 64) (leBytes n (((begun s g).strand g).getN t).toNat)
      false := by
  intro r hr
  obtain ⟨t, ht, hx, ho, hd⟩ := store_ok false hr
  exact retires_of_ok hc h ht hx ho hd

theorem storeOutcome_of_storeV {c : Instr} {s : State} {g n : Nat} {t b : Reg} {imm : BitVec 16}
    (hc : exec c s = storeV g n t b imm s) (h : ready s g { vec := true, regs := [.v t, .n b] } = true) :
    storeOutcome c s g (((begun s g).strand g).getN b + imm.signExtend 64) (leBytes n (((begun s g).strand g).getV t).toNat)
      false := by
  intro r hr
  obtain ⟨t, ht, hx, ho, hd⟩ := store_ok false hr
  exact retires_of_ok hc h ht hx ho hd

theorem storeResults_holds : storeResults := by
  intro s g t b imm u va
  refine ⟨fun h => ⟨?_, ?_, ?_, ?_⟩, fun h => ⟨?_, ?_⟩⟩
  · exact storeOutcome_of_storeN rfl h
  · exact storeOutcome_of_storeN rfl h
  · exact storeOutcome_of_storeN rfl h
  · exact storeOutcome_of_storeN rfl h
  · exact storeOutcome_of_storeV rfl h
  · exact storeOutcome_of_storeV rfl h

/-! ### Out of the store buffer (R143, R216) -/

/-- The lines that a store into core c's line writes, and those it leaves. -/
theorem line_writeLine {d e : Dev} {c pa : Nat} {bs : List Byte} {m : SMap CLine} {x : CLine} (hm : e.l2 = m)
    (hs : SameLines m (SMap.set (fun _ => CLine.none) d.l2 (pa / 64 * 512 + c) x)) :
    (e.line c (pa / 64)).st = x.st ∧ (e.line c (pa / 64)).data = x.data ∧
      ∀ k b, c < 512 → k < 512 → (k, b) ≠ (c, pa / 64) →
        (e.line k b).data = (d.line k b).data ∧ (e.line k b).st = (d.line k b).st := by
  unfold Dev.line
  rw [hm]
  refine ⟨by rw [(hs _).2, smap_get_set_same], by rw [(hs _).1, smap_get_set_same], fun k b hc hk hn => ?_⟩
  have hne : b * 512 + k ≠ pa / 64 * 512 + c := fun he => hn (Prod.ext_iff.2 ⟨by omega, by omega⟩)
  rw [(hs _).1, (hs _).2, smap_get_set_other _ _ _ _ _ hne]
  exact ⟨rfl, rfl⟩

/-- A cacheable store whose line the core owns leaves the buffer and writes the line. -/
theorem leaveWb_owned {s : State} {g : Nat} {e : SbEntry} (ho : s.dev.l2On (s.dev.phys (g / 2)) = true)
    (hw : s.dev.ownsLine (s.dev.phys (g / 2)) (e.pa / 64) = true)
    (ht : isPeat (e.pa / 64) = true → (s.dev.trackStore (s.dev.phys (g / 2)) (g % 2) (e.pa / 64)).isSome = true) :
    ∃ ts, s.leaveWb g e =
      ({ s with dev := { s.dev with trackers := ts }.writeLine (s.dev.phys (g / 2)) e.pa e.bytes } : State).sbPop g := by
  unfold State.leaveWb
  dsimp only
  rw [ho, hw]
  cases hp : isPeat (e.pa / 64) with
  | false => exact ⟨s.dev.trackers, rfl⟩
  | true =>
    obtain ⟨d, hd⟩ := Option.isSome_iff_exists.1 (ht hp)
    obtain ⟨ts, rfl⟩ := trackStore_eq hd
    rw [hd]
    exact ⟨ts, rfl⟩

theorem storeEntryWritesItsBytes_holds : storeEntryWritesItsBytes := by
  intro s g e rest u d c a hg hc hb hh hk hf hl ho ht hn
  obtain ⟨ts, hw⟩ := leaveWb_owned (e := e) hl ho ht
  obtain ⟨rs, fs, m, x, hx, hs, hst, hdt⟩ := writeLine_eq (d := { d with trackers := ts }) hf c e.pa e.bytes
  obtain ⟨h1, h2, h3⟩ := line_writeLine (d := d) (bs := e.bytes)
    (e := { d with trackers := ts, regs := rs, flips := fs, l2 := m }) rfl hs
  refine ⟨({ s with dev := { d with trackers := ts, regs := rs, flips := fs, l2 := m } } : State).sbPop g,
    (execStoreBufferEntryLeave.eq_def ..).trans ?_, ?_⟩
  · rw [show strandOk g = true from decide_eq_true hg, show s.dev.clocksOk = true from hc]
    dsimp only
    rw [show (s.strand g).sb = e :: rest from hb]
    dsimp only
    rw [show (s.strand g).heldBack e = false from hh, hk]
    exact congrArg Host.Outcome.next (hw.trans (congrArg (fun d => ({ s with dev := d } : State).sbPop g) hx))
  · refine ⟨?_, fun k hk => strand_setStrand_other _ _ _ _ hk, h1.trans hst, fun i hi => ?_, fun k b hk hn => ?_, rfl, rfl, rfl, rfl⟩
    · refine (strand_setStrand_same _ _ _).trans ?_
      rw [strand_dev, show (s.strand g).sb = e :: rest from hb]
      rfl
    · refine (congrArg (fun l => lineByte l i) (h2.trans hdt)).trans ?_
      exact lineByte_putBytes _ _ _ hi
    · exact h3 k b (phys_lt _ _) hk hn

/-- Settles O9: the entries by `State.store`, the bytes by what leaving writes into the core's line. -/
theorem storesReachTheirBytes : Obligations.StoresReachTheirBytes := ⟨storeResults_holds, storeEntryWritesItsBytes_holds⟩

end Sys2Proof.Proofs
end

