-- ==== Sys2Proof/Proofs/Atomics.lean ====
section
/-!
PROOFS. Acquire loads, release stores (R115, R117) and near atomics (R118 to R120).
-/

namespace Sys2Proof.Proofs

open Sys2Proof Sys2Proof.Machine Sys2Proof.Laws

/-! ### LDA and STA (R115, R117) -/

theorem loadValue_acquire (z : BitVec 2) (bs : List Byte) : (loadValue (zBytes z) false bs).setWidth 64
    = (BitVec.ofNat (8 * 2 ^ z.toNat) (leNat bs)).setWidth 64 := by
  have hz : z = 0 ∨ z = 1 ∨ z = 2 ∨ z = 3 := by
    have h := z.isLt
    have : z.toNat = 0 ∨ z.toNat = 1 ∨ z.toNat = 2 ∨ z.toNat = 3 := by omega
    rcases this with e | e | e | e
    · exact .inl (BitVec.eq_of_toNat_eq e)
    · exact .inr (.inl (BitVec.eq_of_toNat_eq e))
    · exact .inr (.inr (.inl (BitVec.eq_of_toNat_eq e)))
    · exact .inr (.inr (.inr (BitVec.eq_of_toNat_eq e)))
  rcases hz with rfl | rfl | rfl | rfl
  · exact loadValue_byte false bs
  · exact loadValue_half false bs
  · exact loadValue_word false bs
  · exact (loadValue_double false bs).trans (BitVec.setWidth_eq _).symm

theorem acquireReleaseResults_holds : acquireReleaseResults := by
  intro s g z d a b q u n
  refine ⟨fun h hr hq => ?_, fun h hs r hr => ?_⟩
  · obtain ⟨t, ht, hx, ho, hd⟩ := load_ok false (.n d) hq
    refine retires_of_ok (t := t) (execLda.eq_def ..) h ?_
      (hx.trans (congrArg (fun v => u.setN d v) (loadValue_acquire z q.bytes))) ho hd
    have hn : (((begun s g).strand g).sb.any fun b => b.rel) = false := List.any_eq_false.2 fun e m => by simp [hr e m]
    dsimp only
    rw [hn]
    exact ht
  · obtain ⟨t, ht, hx, ho, hd⟩ := store_ok true hr
    refine retires_of_ok (t := t) (execSta.eq_def ..) h ?_ hx ho hd
    dsimp only
    rw [show (begun s g).store g (((begun s g).strand g).getN a) (leBytes (zBytes z) (((begun s g).strand g).getN b).toNat) true
      = .ok t from ht]
    dsimp only
    rw [show ((begun s g).strand g).sb = [] from hs]
    rfl

/-! ### Near atomics (R118 to R120) -/

section
variable {n : Nat} (hn : 0 < n) (o b d : BitVec (8 * n))

/-- What an atomic writes, on numbers as on words of the access's width. -/
def writesOf (op : AtomicOp) (F : BitVec (8 * n) → BitVec (8 * n) → BitVec (8 * n) → Option (BitVec (8 * n))) : Prop :=
  ∀ (o : BitVec (8 * n)) (b d : Word), atomicNew op n o.toNat b d =
    (F o (b.setWidth (8 * n)) (d.setWidth (8 * n))).map BitVec.toNat

theorem toNat_operand (b : Word) : b.toNat % 2 ^ (8 * n) = (b.setWidth (8 * n)).toNat := (BitVec.toNat_setWidth _ _).symm

include hn in
theorem signed_eq (x : BitVec (8 * n)) :
    (if x.toNat < 2 ^ (8 * n) / 2 then (x.toNat : Int) else (x.toNat : Int) - (2 ^ (8 * n) : Nat)) = x.toInt := by
  rw [BitVec.toInt_eq_toNat_cond]
  have h2 : 2 ^ (8 * n) = 2 * 2 ^ (8 * n - 1) := by
    rw [← Nat.pow_succ']
    congr 1
    omega
  by_cases h : 2 * x.toNat < 2 ^ (8 * n)
  · rw [if_pos h, if_pos (by omega)]
  · rw [if_neg h, if_neg (by omega)]

theorem writesOf_add : writesOf (n := n) .add fun old b _ => some (old + b) := fun o b d => by
  rw [atomicNew, toNat_operand]
  exact congrArg some (BitVec.toNat_add _ _).symm

theorem writesOf_swap : writesOf (n := n) .swap fun _ b _ => some b := fun o b d => by
  rw [atomicNew, toNat_operand]
  rfl

theorem writesOf_cas : writesOf (n := n) .cas fun old b d => if old = d then some b else none := fun o b d => by
  rw [atomicNew, toNat_operand, toNat_operand]
  dsimp only
  by_cases h : o = d.setWidth (8 * n)
  · rw [if_pos (beq_iff_eq.2 (congrArg BitVec.toNat h)), if_pos h]
    rfl
  · rw [if_neg fun e => h (BitVec.eq_of_toNat_eq (beq_iff_eq.1 e)), if_neg h]
    rfl

theorem writesOf_and : writesOf (n := n) .and fun old b _ => some (old &&& b) := fun o b d => by
  rw [atomicNew, toNat_operand]
  exact congrArg some (BitVec.toNat_and _ _).symm

theorem writesOf_or : writesOf (n := n) .or fun old b _ => some (old ||| b) := fun o b d => by
  rw [atomicNew, toNat_operand]
  exact congrArg some (BitVec.toNat_or _ _).symm

include hn in
theorem writesOf_min : writesOf (n := n) .min fun old b _ => some (if old.sle b then old else b) := fun o b d => by
  rw [atomicNew, toNat_operand]
  simp only [signed_eq hn, BitVec.sle]
  by_cases h : o.toInt ≤ (b.setWidth (8 * n)).toInt
  · rw [if_pos h, if_pos (decide_eq_true h)]
    rfl
  · rw [if_neg h, if_neg (by simpa using h)]
    rfl

include hn in
theorem writesOf_max : writesOf (n := n) .max fun old b _ => some (if old.sle b then b else old) := fun o b d => by
  rw [atomicNew, toNat_operand]
  simp only [signed_eq hn, BitVec.sle]
  by_cases h : o.toInt ≤ (b.setWidth (8 * n)).toInt
  · rw [if_pos h, if_pos (decide_eq_true h)]
    rfl
  · rw [if_neg h, if_neg (by simpa using h)]
    rfl

theorem writesOf_minu : writesOf (n := n) .minu fun old b _ => some (if old.ule b then old else b) := fun o b d => by
  rw [atomicNew, toNat_operand]
  simp only [BitVec.ule_eq_decide, BitVec.le_def]
  by_cases h : o.toNat ≤ (b.setWidth (8 * n)).toNat
  · rw [if_pos (decide_eq_true h)]
    exact congrArg some (Nat.min_eq_left h)
  · rw [if_neg (by simpa using h)]
    exact congrArg some (Nat.min_eq_right (Nat.le_of_not_le h))

theorem writesOf_maxu : writesOf (n := n) .maxu fun old b _ => some (if old.ule b then b else old) := fun o b d => by
  rw [atomicNew, toNat_operand]
  simp only [BitVec.ule_eq_decide, BitVec.le_def]
  by_cases h : o.toNat ≤ (b.setWidth (8 * n)).toNat
  · rw [if_pos (decide_eq_true h)]
    exact congrArg some (Nat.max_eq_right h)
  · rw [if_neg (by simpa using h)]
    exact congrArg some (Nat.max_eq_left (Nat.le_of_not_le h))

end

/-- The data phase of a near atomic (R120). -/
theorem atomicData_near {s : State} {g : Nat} {p : Piece} {t : AtomicAt} {d : Reg} (h : nearReady s g p s.dev = true) :
    s.atomicData g 0 t d p = s.atomicNear g t d p := by
  simp only [nearReady, Bool.and_eq_true, Bool.not_eq_true', beq_iff_eq] at h
  obtain ⟨⟨⟨⟨⟨⟨⟨hn, hs⟩, hp⟩, hm⟩, hl⟩, ho⟩, -⟩, -⟩ := h
  have hc : (s.dev.claim p.a.pa == .none) = false := by
    refine beq_eq_false_iff_ne.2 fun e => ?_
    rw [e] at hn
    cases hn
  have hf : s.isFar g 0 p = false := by
    unfold State.isFar
    rw [hm, hl]
    rfl
  unfold State.atomicData
  dsimp only
  rw [hc, hs, hp, hf, ho]
  rfl

/-- What a near atomic leaves: the old value in d, and the new one, if any, in the line. -/
theorem atomicNear_ok {s : State} {g : Nat} {p : Piece} {t : AtomicAt} {d : Reg} {e : Dev}
    (h : nearReady s g p s.dev = true) :
    let c := s.dev.phys (g / 2)
    let line := p.a.pa / 64
    let old := leNat (takeBytes (s.dev.line c line).data (p.a.pa % 64) t.n)
    (match t.new old with
      | none => some s.dev
      | some x => (if isPeat line then s.dev.trackStore c (g % 2) line else some s.dev).map fun dt =>
          dt.writeLine c p.a.pa (leBytes t.n x)) = some e →
    s.atomicNear g t d p = .ok ({ s with dev := e }.setN g d (word old)) := by
  intro c line old he
  simp only [nearReady, Bool.and_eq_true, Bool.not_eq_true', beq_iff_eq, List.isEmpty_iff] at h
  obtain ⟨⟨-, hq⟩, hf⟩ := h
  unfold State.atomicNear
  dsimp only
  rw [checkLine_of_clean hf, hq]
  change (match t.new old with
    | none => Machine.Flow.ok ({ s with dev := s.dev }.setN g d (word old))
    | some x => match (if isPeat line then s.dev.trackStore c (g % 2) line else some s.dev) with
      | none => Machine.Flow.hold s
      | some dv => .ok ({ s with dev := dv.writeLine c p.a.pa (leBytes t.n x) }.setN g d (word old))) = _
  cases hx : t.new old with
  | none =>
    rw [hx] at he
    injection he with he
    subst he
    rfl
  | some x =>
    rw [hx] at he
    dsimp only at he ⊢
    cases hk : (if isPeat line then s.dev.trackStore c (g % 2) line else some s.dev) with
    | none => rw [hk] at he; cases he
    | some dt =>
      rw [hk] at he
      injection he with he
      subst he
      rfl

theorem takeBytes_length (l : Line) (off n : Nat) : (takeBytes l off n).length = n := by
  unfold takeBytes
  rw [List.length_map, List.length_range]

/-- An atomic of an operation whose result at the access's width is F. -/
theorem retires_of_atomic {c : Instr} {s : State} {g n : Nat} {op : AtomicOp} {z o : BitVec 2} {d a b : Reg} {p : Piece}
    {dv : Dev} {F : BitVec (8 * n) → BitVec (8 * n) → BitVec (8 * n) → Option (BitVec (8 * n))}
    (hc : exec c s = runAtomic g op z ⟨o, 0, d, a, b⟩ s) (hz : z = 2 ∨ z = 3) (hn : zBytes z = n) (hF : writesOf op F)
    (h : ready s g { regs := [.n d, .n a, .n b] } = true)
    (ha : (((begun s g).strand g).getN a).toNat % n = 0)
    (hp : (begun s g).access g (((begun s g).strand g).getN a) n .atomic .atomic = ((none, [p]), dv))
    (hr : nearReady (begun s g) g p dv = true) :
    let u := (begun s g).strand g
    let k := dv.phys (g / 2)
    let line := p.a.pa / 64
    let old : BitVec (8 * n) := BitVec.ofNat (8 * n) (leNat (takeBytes (dv.line k line).data (p.a.pa % 64) n))
    let dt := if isPeat line then dv.trackStore k (g % 2) line else some dv
    let dn := match F old ((u.getN b).setWidth (8 * n)) ((u.getN d).setWidth (8 * n)) with
      | none => some dv
      | some x => dt.map fun dt => dt.writeLine k p.a.pa (leBytes n x.toNat)
    ∀ dn', dn = some dn' → retires c s g (u.setN d (old.setWidth 64)) dn' := by
  intro u k line old dt dn dn' hd
  let t : AtomicAt := ⟨op, n, u.getN b, u.getN d⟩
  have hlt : leNat (takeBytes (dv.line k line).data (p.a.pa % 64) n) < 2 ^ (8 * n) := by
    have := leNat_lt (takeBytes (dv.line k line).data (p.a.pa % 64) n)
    rwa [takeBytes_length, show (256 : Nat) = 2 ^ 8 from rfl, ← pow_mul] at this
  have hold : old.toNat = leNat (takeBytes (dv.line k line).data (p.a.pa % 64) n) := Nat.mod_eq_of_lt hlt
  have hnew : t.new (leNat (takeBytes (dv.line k line).data (p.a.pa % 64) n)) =
      (F old ((u.getN b).setWidth (8 * n)) ((u.getN d).setWidth (8 * n))).map BitVec.toNat := by
    rw [← hold]
    exact hF old (u.getN b) (u.getN d)
  have hnear : ({ begun s g with dev := dv } : State).atomicNear g t d p
      = .ok ({ begun s g with dev := dn' }.setN g d (word (leNat (takeBytes (dv.line k line).data (p.a.pa % 64) n)))) := by
    refine atomicNear_ok (s := { begun s g with dev := dv }) hr ?_
    dsimp only
    rw [hnew]
    revert hd
    change (match F old ((u.getN b).setWidth (8 * n)) ((u.getN d).setWidth (8 * n)) with
      | none => some dv
      | some x => dt.map fun dt => dt.writeLine k p.a.pa (leBytes n x.toNat)) = some dn' → _
    cases F old ((u.getN b).setWidth (8 * n)) ((u.getN d).setWidth (8 * n)) with
    | none => exact id
    | some x => exact id
  have hw : word (leNat (takeBytes (dv.line k line).data (p.a.pa % 64) n)) = old.setWidth 64 :=
    BitVec.eq_of_toNat_eq (by rw [word, BitVec.toNat_ofNat, BitVec.toNat_setWidth, hold])
  refine retires_of_ok (t := ({ begun s g with dev := dn' } : State).setN g d (old.setWidth 64)) (hc.trans (runAtomic.eq_def ..)) ?_ ?_
    (setN_strand _ _ _ _) (fun j hj => setN_strand_other _ _ _ _ _ hj) (sameBut_refl _)
  · rw [show (z == 2 || z == 3) = true by rcases hz with rfl | rfl <;> rfl]
    exact h
  · unfold State.atomic
    dsimp only
    rw [hn, hp, if_neg (by rw [ha]; decide)]
    dsimp only
    rw [atomicData_near (s := { begun s g with dev := dv }) hr, ← hw]
    exact hnear

theorem nearAtomicResults_holds : nearAtomicResults := by
  intro s g z o d a b p dv hz h u n c line ha hp hr old dt
  have hn : zBytes z = n := rfl
  have h0 : 0 < n := Nat.two_pow_pos _
  unfold atomicForms
  simp only [List.forall_mem_cons, List.not_mem_nil, false_imp_iff, implies_true, and_true]
  refine ⟨?_, ?_, ?_, ?_, ?_, ?_, ?_, ?_, ?_⟩
  · exact retires_of_atomic rfl hz hn writesOf_add h ha hp hr
  · exact retires_of_atomic rfl hz hn writesOf_swap h ha hp hr
  · exact retires_of_atomic rfl hz hn writesOf_cas h ha hp hr
  · exact retires_of_atomic rfl hz hn writesOf_and h ha hp hr
  · exact retires_of_atomic rfl hz hn writesOf_or h ha hp hr
  · exact retires_of_atomic rfl hz hn (writesOf_min h0) h ha hp hr
  · exact retires_of_atomic rfl hz hn (writesOf_max h0) h ha hp hr
  · exact retires_of_atomic rfl hz hn writesOf_minu h ha hp hr
  · exact retires_of_atomic rfl hz hn writesOf_maxu h ha hp hr

/-- Settles O10: LDA as a load, STA as a store, each near atomic by what it writes at its width. -/
theorem atomicsAndOrderedAccesses : Obligations.AtomicsAndOrderedAccesses :=
  ⟨acquireReleaseResults_holds, nearAtomicResults_holds⟩

end Sys2Proof.Proofs
end

