-- ==== Sys2Proof/Proofs/FencesAndHints.lean ====
section
/-!
PROOFS. Fences (R115, R117, R127), STASH (R121) and CFLUSH (R126).
-/

namespace Sys2Proof.Proofs

open Sys2Proof Sys2Proof.Machine Sys2Proof.Laws

/-- An instruction that waits leaves the state in which it waits. -/
theorem runInsn_hold {s t : State} {g : Nat} {i : Strand → Insn} {body : State → Machine.Flow}
    (h : ready s g (i ((settled s g).strand g)) = true) (hb : body (begun s g) = .hold t) :
    runInsn g s i body = .next t := by
  have hi := issue_of_ready h
  simp only [ready, Bool.and_eq_true] at h
  obtain ⟨⟨⟨⟨⟨hg, hc⟩, -⟩, -⟩, -⟩, -⟩ := h
  unfold runInsn
  rw [hg, hc, hi]
  dsimp only
  rw [hb]
  rfl

/-- An instruction that changes nothing retires with the strand as it is. -/
theorem retires_unchanged {c : Instr} {s : State} {g : Nat} {i : Strand → Insn} {body : State → Machine.Flow}
    (hc : exec c s = runInsn g s i body) (h : ready s g (i ((settled s g).strand g)) = true)
    (hb : body (begun s g) = .ok (begun s g)) : retires c s g ((begun s g).strand g) (begun s g).dev :=
  retires_of_ok hc h hb rfl (fun _ _ => rfl) (sameBut_refl _)

theorem fencesOrderAccesses_holds : fencesOrderAccesses := by
  intro s g h b u
  refine ⟨retires_unchanged (execFenceLl.eq_def ..) h rfl, retires_unchanged (execFenceSs.eq_def ..) h rfl,
    fun hs => ?_, fun hs => ?_⟩
  · have he : ((begun s g).strand g).sb.isEmpty = true := List.isEmpty_iff.2 hs
    exact ⟨retires_unchanged (execFenceAll.eq_def ..) h (if_pos he), retires_unchanged (execCodesync.eq_def ..) h (if_pos he)⟩
  · have he : ¬((begun s g).strand g).sb.isEmpty = true := fun e => hs (List.isEmpty_iff.1 e)
    exact ⟨(execFenceAll.eq_def ..).trans (runInsn_hold h (if_neg he)),
      (execCodesync.eq_def ..).trans (runInsn_hold h (if_neg he))⟩

/-! ### Hints and maintenance of a line (R121, R122, R126) -/

/-- What the checks of a hint or maintenance give, when they find one WB piece. -/
theorem linePiece_spec {s : State} {g : Nat} {va : Word} {p : Piece} {d : Dev} (h : linePiece s g va = some (p, d)) :
    ∃ ps, s.access g va 1 .load .line = ((none, ps), d) ∧ wbLine d ps = some p := by
  unfold linePiece at h
  generalize s.access g va 1 .load .line = r at *
  obtain ⟨⟨e, ps⟩, d'⟩ := r
  dsimp only at h
  cases e with
  | some e => cases h
  | none =>
    cases ps with
    | nil => cases h
    | cons q qs =>
      dsimp only at h
      split at h
      · rename_i hc
        injection h with h
        obtain ⟨rfl, rfl⟩ := Prod.mk.injEq .. ▸ h
        refine ⟨q :: qs, rfl, ?_⟩
        unfold wbLine
        rw [List.head?_cons, Option.filter_some, if_pos hc]
      · cases h

theorem lineOp_spec {s : State} {g : Nat} {va : Word} {p : Piece} {d : Dev} (h : linePiece s g va = some (p, d))
    (f : State → Piece → Machine.Flow) : s.lineOp g va f = f { s with dev := d } p := by
  obtain ⟨ps, ha, hw⟩ := linePiece_spec h
  unfold State.lineOp
  dsimp only
  rw [ha]
  dsimp only
  rw [hw]

theorem stash_line {s : State} {g : Nat} {va : Word} {p : Piece} {d : Dev} (target : BitVec 16)
    (h : linePiece s g va = some (p, d)) (hr : ({ s with dev := d } : State).sbTakes g 1 = true) :
    s.stash g va target = .ok (({ s with dev := d } : State).sbPush g (.stash target) p.a.pa p.a.key [] false) := by
  obtain ⟨ps, ha, hw⟩ := linePiece_spec h
  unfold State.stash
  dsimp only
  rw [ha]
  dsimp only
  rw [hw]
  exact if_pos hr

theorem hintsAndFlushes_holds : hintsAndFlushes := by
  intro s g a b z u
  refine ⟨fun h => ⟨fun p d hl hr => ?_, fun e d ps ha => ?_⟩, fun h p d hl hs hp => ?_⟩
  · exact retires_of_ok (execStash.eq_def ..) h (stash_line _ hl hr) (strand_setStrand_same _ _ _)
      (fun k hk => strand_setStrand_other _ _ _ _ hk) (sameBut_refl _)
  · intro f
    refine retires_of_ok (t := { z with dev := d.addSat f 1 }) (execStash.eq_def ..) h ?_ rfl (fun k hk => rfl) (sameBut_refl _)
    unfold State.stash
    dsimp only
    rw [show (begun s g).access g (((begun s g).strand g).getN a) 1 .load .line = ((some e, ps), d) from ha]
  · intro c line hm hg
    let asked := d.setMshr c line (some ⟨.rdx true, p.a.key, none, none, 0, false⟩)
    refine retires_of_ok (t := { z with dev := asked.send ⟨line, some (.core c), none, .request (.rdx true)⟩ }) (execCflush.eq_def ..) h ?_ rfl (fun k hk => rfl) (sameBut_refl _)
    dsimp only
    rw [lineOp_spec hl]
    unfold State.cflush Dev.requestLine
    dsimp only
    rw [strand_dev, show ((begun s g).strand g).sb = [] from hs, show ((begun s g).strand g).psyncing = false from hp,
      show d.mshr (d.phys (g / 2)) (p.a.pa / 64) = none from hm, show d.ghost (d.phys (g / 2)) (p.a.pa / 64) = none from hg]
    rfl

/-- Settles O16: fences by what they wait for, hints and flushes by the one piece that they act on. -/
theorem fencesAndHints : Obligations.FencesAndHints := ⟨fencesOrderAccesses_holds, hintsAndFlushes_holds⟩

end Sys2Proof.Proofs
end

