-- ==== Sys2Proof/Proofs/CacheMaintenance.lean ====
section
/-!
PROOFS. CINV.ALL (R128), PWB (R122, R237) and BTBFLUSH (R131).
-/

namespace Sys2Proof.Proofs

open Sys2Proof Sys2Proof.Machine Sys2Proof.Laws

/-- A key whose every value is dropped reads as an unlisted one. -/
theorem smap_get_dropped {β : Type} [DecidableEq β] (d : Nat → β) (f : Nat → β → Option β) (m : SMap β) {k : Nat}
    (h : ∀ v, f k v = none) : SMap.get d (SMap.filterMap d f m) k = d k := by
  induction m with
  | nil => rfl
  | cons p m ih =>
    obtain ⟨j, v⟩ := p
    unfold SMap.filterMap
    cases hf : f j v with
    | none => exact ih
    | some w =>
      have hk : k ≠ j := fun e => by
        rw [← e, h] at hf
        cases hf
      dsimp only
      split
      · exact ih
      · rw [SMap.get, if_neg hk]
        exact ih

/-! ### CINV.ALL (R128) -/

section
variable {s : State} {g : Nat} {d a : Reg}

theorem cinvAll_gives (h : ready s g { regs := [.n d, .n a] } = true) (hp : ((begun s g).strand g).pl = 2) {r : Word} {e : Dev}
    (hr : (begun s g).dev.cinvAll ((begun s g).dev.phys (g / 2)) (((begun s g).strand g).getN a) = (r, e)) {P : Dev → Prop}
    (hP : ∀ t, sameBut t e → P t) :
    GivesSome (.cinvAll g 0 ⟨0, 0, d, a, 0⟩) s fun t =>
      t.strand g = retired { (begun s g).strand g with
        longOps := ((begun s g).strand g).longOps ++ [⟨.n d, r.setWidth 256, .value⟩] } ∧ P t.dev := by
  refine ⟨((({ begun s g with dev := e } : State).long g (.n d) (r.setWidth 256) .value).retire g),
    (execCinvAll.eq_def ..).trans (runInsn_ok ?_ ?_), ?_, hP _ ?_⟩
  · dsimp only
    rw [show ((settled s g).strand g).pl = 2 from hp]
    exact h
  · dsimp only
    rw [hr]
  · rw [retire_strand]
    exact congrArg retired (strand_setStrand_same _ _ _)
  · exact sameBut_retire _ _

theorem sameBut_l2 {d e : Dev} (h : sameBut d e) : d.l2 = e.l2 := of_bareOfBtb Dev.l2 (fun _ => rfl) h.1

theorem sameBut_memory {d e : Dev} (h : sameBut d e) : d.dram = e.dram ∧ d.peat = e.peat ∧ d.net = e.net :=
  ⟨of_bareOfBtb Dev.dram (fun _ => rfl) h.1, of_bareOfBtb Dev.peat (fun _ => rfl) h.1, of_bareOfBtb Dev.net (fun _ => rfl) h.1⟩

end

/-- The lines of a core whose L2 is dropped. -/
theorem keepL2_line (m : SMap CLine) {c : Nat} (hc : c < 512) (g : Nat) :
    SMap.get (fun _ => CLine.none) (keepL2 c m) (g * 512 + c) = CLine.none := by
  refine smap_get_dropped _ _ _ fun v => if_pos ?_
  exact beq_iff_eq.2 (by omega)

theorem bare_clearLost (d : Dev) (c : Nat) : bare (d.clearLost c) = bare d := by
  unfold Dev.clearLost
  exact bare_foldl _ (fun _ _ => bare_setReg _ _ _) _ _

theorem cinvCore_disabled {d : Dev} {c : Nat} (h0 : d.flag (coreCtl c 2) = false) (h1 : d.flag (coreCtl c 13) = false) :
    (d.cinvCore c 2).1 = true ∧ (d.cinvCore c 2).2.l2 = keepL2 c d.l2 ∧ (d.cinvCore c 2).2.dram = d.dram ∧
      (d.cinvCore c 2).2.peat = d.peat ∧ (d.cinvCore c 2).2.net = d.net := by
  have hb := bare_clearLost d c
  have hd := of_bare Dev.dram (fun _ => rfl) hb
  have hp := of_bare Dev.peat (fun _ => rfl) hb
  have hn := of_bare Dev.net (fun _ => rfl) hb
  have he : d.cinvCore c 2 = (true, (({ d.clearLost c with l2 := keepL2 c d.l2 } : Dev).setFld (coreCtl c (8 + 2)) 1).setUnclean
      (coreArrayKey c 2) false) := by
    unfold Dev.cinvCore
    dsimp only
    rw [if_neg (by rw [h0, show 11 + 2 = 13 from rfl, h1]; decide), if_pos (by decide : (2 == 2) = true)]
  rw [he]
  clear he
  generalize d.clearLost c = y at *
  have hf := bare_setFld { y with l2 := keepL2 c d.l2 } (coreCtl c (8 + 2)) 1
  generalize Dev.setFld { y with l2 := keepL2 c d.l2 } (coreCtl c (8 + 2)) 1 = w at *
  exact ⟨rfl, of_bare Dev.l2 (fun _ => rfl) hf, (of_bare Dev.dram (fun _ => rfl) hf).trans hd,
    (of_bare Dev.peat (fun _ => rfl) hf).trans hp, (of_bare Dev.net (fun _ => rfl) hf).trans hn⟩

/-- The ways that CINV.ALL invalidates, as a mask. -/
theorem cinvWays_mask (d : Dev) (t mask : Nat) {w : Nat} (hw : w < 64) :
    (word (d.cinvWays t mask).1).getLsbD w =
      (decide (w < 12) && natBit mask w && !d.flag (llcCtl t w) && !d.flag (llcCtl t (24 + w))) := by
  let q (w : Nat) : Bool := natBit mask w && !d.flag (llcCtl t w) && !d.flag (llcCtl t (24 + w))
  have hsum : (d.cinvWays t mask).1 = Nat.ofDigits 2 ((List.range 12).map fun i => bnat (q i)) := by
    rw [← foldl_eq_ofDigits]
    change ((List.range 12).filter q).foldl (fun m w => m + 2 ^ w) 0 = _
    rw [List.foldl_filter]
    refine congrArg (fun f => List.foldl f 0 (List.range 12)) (funext fun m => funext fun w => ?_)
    cases q w
    · exact (Nat.add_zero m).symm.trans (congrArg (m + ·) (Nat.zero_mul _).symm)
    · exact congrArg (m + ·) (Nat.one_mul _).symm
  have hlt : ∀ i, bnat (q i) < 2 := fun i => Nat.lt_succ_of_le (bnat_le _)
  have hb := ofDigits_map_range_lt (B := 2) (by decide) hlt 12
  rw [word, BitVec.getLsbD_ofNat, decide_eq_true hw, Bool.true_and, hsum, Nat.testBit_eq_decide_div_mod_eq]
  by_cases h12 : w < 12
  · rw [ofDigits_map_range_digit hlt h12, decide_eq_true h12, Bool.true_and]
    change decide (bnat (q w) = 1) = q w
    cases q w <;> rfl
  · have h2 : 2 ^ 12 ≤ 2 ^ w := Nat.pow_le_pow_right (by decide) (Nat.le_of_not_lt h12)
    rw [Nat.div_eq_of_lt (Nat.lt_of_lt_of_le hb h2), decide_eq_false h12]
    rfl

theorem cinvWays_memory (d : Dev) (t mask : Nat) :
    (d.cinvWays t mask).2.dram = d.dram ∧ (d.cinvWays t mask).2.peat = d.peat ∧ (d.cinvWays t mask).2.net = d.net := by
  unfold Dev.cinvWays
  dsimp only
  generalize (List.range 12).filter _ = ws
  induction ws generalizing d with
  | nil => exact ⟨rfl, rfl, rfl⟩
  | cons w ws ih =>
    rw [List.foldl_cons]
    exact ih _

theorem cinvAllInvalidatesDisabledArrays_holds : cinvAllInvalidatesDisabledArrays := by
  intro s g d a h hp b u c v k tile ends
  have hk : getF v 0 3 = k := getF_eq_extract v 0 3
  have ht : getF v 8 8 = tile := getF_eq_extract v 8 8
  have hk8 : k < 8 := hk ▸ getF_lt v 0 3
  refine ⟨fun hx => ?_, fun h3 hon => ?_, fun h2 h0 h1 hc => ?_, fun h3 htl => ?_⟩
  · refine cinvAll_gives h hp (r := BitVec.allOnes 64) (e := b.dev) ?_ fun t ht => ht
    change b.dev.cinvAll c v = _
    unfold Dev.cinvAll
    rw [hk, ht]
    dsimp only
    rw [if_neg (by omega), if_neg (by simp only [Bool.and_eq_true, beq_iff_eq, decide_eq_true_eq]; omega)]
  · refine cinvAll_gives h hp (r := 0) (e := b.dev) ?_ fun t ht => ht
    change b.dev.cinvAll c v = _
    unfold Dev.cinvAll Dev.cinvCore
    rw [hk]
    dsimp only
    rw [if_pos h3, if_pos (by simpa only [Bool.or_eq_true] using hon)]
    rfl
  · obtain ⟨hr, hl, hd, hpt, hn⟩ := cinvCore_disabled (d := b.dev) (c := c) h0 h1
    refine cinvAll_gives h hp (r := 1) (e := (b.dev.cinvCore c 2).2) (P := fun e =>
      (∀ line, (e.line c line).st = .invalid) ∧ e.dram = b.dev.dram ∧ e.peat = b.dev.peat ∧ e.net = b.dev.net) ?_ fun t ht => ?_
    · change b.dev.cinvAll c v = _
      unfold Dev.cinvAll
      rw [hk, h2]
      dsimp only
      rw [if_pos (by decide), hr]
      rfl
    · obtain ⟨md, mp, mn⟩ := sameBut_memory ht
      refine ⟨fun line => ?_, md.trans hd, mp.trans hpt, mn.trans hn⟩
      unfold Dev.line
      rw [sameBut_l2 ht, hl, keepL2_line _ hc]
      rfl
  · obtain ⟨hd, hpt, hn⟩ := cinvWays_memory b.dev tile (getF v 16 12)
    refine ⟨word (b.dev.cinvWays tile (getF v 16 12)).1, fun w => ?_, ?_⟩
    · by_cases hw : w < 64
      · have hb : natBit (getF v 16 12) w = (decide (w < 12) && v.getLsbD (16 + w)) := by
          rw [natBit_eq_testBit, getF, Nat.testBit_mod_two_pow, Nat.testBit_div_two_pow, BitVec.testBit_toNat, Nat.add_comm w]
        rw [cinvWays_mask _ _ _ hw, hb, ← Bool.and_assoc, Bool.and_self]
      · rw [BitVec.getLsbD_of_ge _ _ (Nat.le_of_not_lt hw), decide_eq_false (by omega)]
        rfl
    · refine cinvAll_gives h hp (e := (b.dev.cinvWays tile (getF v 16 12)).2)
        (P := fun e => e.dram = b.dev.dram ∧ e.peat = b.dev.peat ∧ e.net = b.dev.net) ?_ fun t ht => ?_
      · change b.dev.cinvAll c v = _
        unfold Dev.cinvAll
        rw [hk, ht, h3]
        dsimp only
        rw [if_neg (by decide), if_pos (by simpa using htl)]
      · obtain ⟨md, mp, mn⟩ := sameBut_memory ht
        exact ⟨md.trans hd, mp.trans hpt, mn.trans hn⟩

/-! ### PWB (R122, R237) -/

@[simp] theorem line_setLine (d : Dev) (c g : Nat) (x : CLine) : (d.setLine c g x).line c g = x := smap_get_set_same _ _ _ _

@[simp] theorem wbUsed_setWbUsed (d : Dev) (c g n : Nat) : (d.setWbUsed c g n).wbUsed c g = n := smap_get_set_same _ _ _ _

@[simp] theorem line_setWbUsed (d : Dev) (c g n k b : Nat) : (d.setWbUsed c g n).line k b = d.line k b := rfl

/-- A line's dirty data leaves a core: nothing but the trackers changes. -/
theorem trackSent_eq (d : Dev) (c g : Nat) : ∃ ts, d.trackSent c g = { d with trackers := ts } := by
  unfold Dev.trackSent
  split
  · exact ⟨_, rfl⟩
  · exact ⟨d.trackers, rfl⟩

/-- What a core that holds a line in M leaves when it sends it home and keeps it (R237). -/
theorem writeBack_modified {d : Dev} {c g : Nat} (hf : d.flips = []) (hm : (d.line c g).st = .modified)
    (hw : d.wbCredit c g = true) :
    let e := d.writeBack c g
    e.line c g = { d.line c g with st := .exclusive, stored := 0 } ∧
      e.net = d.net ++ [⟨g, some (.core c), none, .wbm (d.line c g).seq true (d.line c g).data (d.line c g).poison⟩] ∧
      e.wbUsed c g = d.wbUsed c g + 1 ∧ e.directPw = d.directPw := by
  intro e
  have he : e = ((((d.setLine c g { d.line c g with st := .exclusive, stored := 0 }).setWbUsed c g
      (d.wbUsed c g + 1)).trackSent c g).toHome c g (.wbm (d.line c g).seq true (d.line c g).data (d.line c g).poison)) := by
    change d.writeBack c g = _
    unfold Dev.writeBack
    rw [checkLine_of_clean hf]
    dsimp only
    rw [if_pos (by rw [hm, hw]; rfl)]
    rfl
  let w := (d.setLine c g { d.line c g with st := .exclusive, stored := 0 }).setWbUsed c g (d.wbUsed c g + 1)
  obtain ⟨ts, ht⟩ := trackSent_eq w c g
  have hl : w.line c g = { d.line c g with st := .exclusive, stored := 0 } := by rw [line_setWbUsed, line_setLine]
  have hu : w.wbUsed c g = d.wbUsed c g + 1 := wbUsed_setWbUsed _ _ _ _
  rw [he, show ((d.setLine c g { d.line c g with st := .exclusive, stored := 0 }).setWbUsed c g
    (d.wbUsed c g + 1)).trackSent c g = { w with trackers := ts } from ht]
  exact ⟨hl, rfl, hu, rfl⟩

theorem sameBut_lines {d e : Dev} (h : sameBut d e) :
    (∀ c g, d.line c g = e.line c g) ∧ d.net = e.net ∧ (∀ c g, d.wbUsed c g = e.wbUsed c g) ∧ d.directPw = e.directPw := by
  have h1 := of_bareOfBtb Dev.wbOut (fun _ => rfl) h.1
  have h2 := of_bareOfBtb Dev.directPw (fun _ => rfl) h.1
  refine ⟨fun c g => ?_, (sameBut_memory h).2.2, fun c g => ?_, h2⟩
  · unfold Dev.line
    rw [sameBut_l2 h]
  · unfold Dev.wbUsed
    rw [h1]

section
variable {s : State} {g : Nat} {p : Piece}

theorem pwb_modified (hp : (s.strand g).psyncing = false)
    (ho : ∀ e ∈ (s.strand g).sb, e.overlaps (64 * (p.a.pa / 64)) 64 = false)
    (hm : (s.dev.line (s.dev.phys (g / 2)) (p.a.pa / 64)).st = .modified)
    (hw : s.dev.wbCredit (s.dev.phys (g / 2)) (p.a.pa / 64) = true) :
    ∃ ts, s.pwb g p = .ok { s with dev := { s.dev with trackers := ts }.writeBack (s.dev.phys (g / 2)) (p.a.pa / 64) } := by
  have hn : ((s.strand g).sb.any fun e => e.overlaps (64 * (p.a.pa / 64)) 64) = false :=
    List.any_eq_false.2 fun e m => by simp [ho e m]
  unfold State.pwb
  dsimp only
  rw [hp, hn, hm, hw]
  cases isPeat (p.a.pa / 64)
  · exact ⟨s.dev.trackers, rfl⟩
  · exact ⟨_, rfl⟩

theorem pwb_other (hp : (s.strand g).psyncing = false)
    (ho : ∀ e ∈ (s.strand g).sb, e.overlaps (64 * (p.a.pa / 64)) 64 = false)
    (hm : (s.dev.line (s.dev.phys (g / 2)) (p.a.pa / 64)).st ≠ .modified)
    (hq : s.dev.mshr (s.dev.phys (g / 2)) (p.a.pa / 64) = none) (hg : s.dev.ghost (s.dev.phys (g / 2)) (p.a.pa / 64) = none) :
    let c := s.dev.phys (g / 2)
    let line := p.a.pa / 64
    let sent := (s.dev.setMshr c line (some ⟨.rds false true, p.a.key, none, none, 0, false⟩)).send
      ⟨line, some (.core c), none, .request (.rds false true)⟩
    s.pwb g p = if isPeat line then
        .ok (({ s with dev := { sent with
          directPw := s.dev.directPw ++ [⟨g, (s.strand g).seq, line, s.dev.frame⟩] } } : State).setStrand g
          { s.strand g with seq := (s.strand g).seq + 1 })
      else .ok { s with dev := sent } := by
  have hn : ((s.strand g).sb.any fun e => e.overlaps (64 * (p.a.pa / 64)) 64) = false :=
    List.any_eq_false.2 fun e m => by simp [ho e m]
  unfold State.pwb Dev.requestLine
  dsimp only
  rw [hp, hn, beq_eq_false_iff_ne.2 hm, hq, hg]
  rfl

end

theorem persistWriteBack_holds : persistWriteBack := by
  intro s g a p d h z u hl c line l hp ho
  have hbody (t : State) (ht : ({ z with dev := d } : State).pwb g p = .ok t) :
      (begun s g).lineOp g (((begun s g).strand g).getN a) (fun s p => s.pwb g p) = .ok t := (lineOp_spec hl _).trans ht
  refine ⟨fun hm hw hf => ?_, fun hm hq hg => ?_⟩
  · obtain ⟨ts, ht⟩ := pwb_modified (s := { z with dev := d }) hp ho hm hw
    obtain ⟨h1, h2, h3, h4⟩ := writeBack_modified (d := { d with trackers := ts }) (c := c) (g := line) hf hm hw
    generalize hX : ({ d with trackers := ts } : Dev).writeBack c line = e at *
    have ht' : ({ z with dev := d } : State).pwb g p = .ok { z with dev := e } := hX ▸ ht
    refine ⟨({ z with dev := e } : State).retire g, (execPwb.eq_def ..).trans (runInsn_ok h (hbody _ ht')), retire_strand _ _, ?_⟩
    obtain ⟨k1, k2, k3, k4⟩ := sameBut_lines (sameBut_retire { z with dev := e } g)
    exact ⟨(k1 c line).trans h1, k2.trans h2, (k3 c line).trans h3, k4.trans h4⟩
  · intro sent
    have hw := pwb_other (s := { z with dev := d }) hp ho hm hq hg
    refine ⟨fun hpt => ?_, fun hpt => ?_⟩
    · refine retires_of_ok (t := { z with dev := sent }) (execPwb.eq_def ..) h (hbody _ ?_) rfl (fun k hk => rfl) (sameBut_refl _)
      rw [hw]
      exact if_neg (by rw [hpt]; decide)
    · refine retires_of_ok (t := ({ z with dev := { sent with directPw := d.directPw ++ [⟨g, u.seq, line, d.frame⟩] } } : State).setStrand g
        { u with seq := u.seq + 1 }) (execPwb.eq_def ..) h (hbody _ ?_) (strand_setStrand_same _ _ _)
        (fun k hk => strand_setStrand_other _ _ _ _ hk) (sameBut_refl _)
      rw [hw]
      exact if_pos hpt

/-! ### BTBFLUSH (R131) -/

theorem btbFlush_holds : btbFlush := by
  intro s g h z u other hp hs
  let a := 2 * (g / 2)
  let w : State := { z with dev := z.dev.flushBtb (z.dev.phys (g / 2)) }
  let w1 := w.setStrand a { w.strand a with ras := [] }
  let w2 := w1.setStrand (a + 1) { w1.strand (a + 1) with ras := [] }
  have hne : a ≠ a + 1 := Nat.ne_of_lt (Nat.lt_succ_self a)
  have ha : w2.strand a = { z.strand a with ras := [] } :=
    (strand_setStrand_other _ _ _ _ hne).trans (strand_setStrand_same _ _ _)
  have hb : w2.strand (a + 1) = { z.strand (a + 1) with ras := [] } :=
    (strand_setStrand_same _ _ _).trans
      (congrArg (fun x : Strand => { x with ras := [] }) (strand_setStrand_other _ _ _ _ hne.symm))
  have hk (k : Nat) (h1 : k ≠ a) (h2 : k ≠ a + 1) : w2.strand k = z.strand k :=
    (strand_setStrand_other _ _ _ _ h2).trans (strand_setStrand_other _ _ _ _ h1)
  have hpair : w2.strand g = { z.strand g with ras := [] } ∧ w2.strand other = { z.strand other with ras := [] } ∧
      ∀ k, k ≠ g → k ≠ other → k ≠ a ∧ k ≠ a + 1 := by
    by_cases he : g % 2 = 0
    · have hg : g = a := by omega
      have hoth : other = a + 1 := by
        change (if g % 2 = 0 then g + 1 else g - 1) = _
        rw [if_pos he, ← hg]
      rw [hoth]
      refine ⟨?_, hb, fun k h1 h2 => ⟨by omega, h2⟩⟩
      rw [← hg] at ha
      exact ha
    · have hg : g = a + 1 := by omega
      have hoth : other = a := by
        change (if g % 2 = 0 then g + 1 else g - 1) = _
        rw [if_neg he]
        omega
      rw [hoth]
      refine ⟨?_, ha, fun k h1 h2 => ⟨h2, by omega⟩⟩
      rw [← hg] at hb
      exact hb
  obtain ⟨h1, h2, h3⟩ := hpair
  have hl : decide (1 ≤ ((settled s g).strand g).pl) = true :=
    decide_eq_true (show 1 ≤ u.pl by rcases hp with e | e <;> rw [e]; decide)
  have hslot : (w2.strand g).slot = none := by
    rw [h1]
    exact hs
  have hbt : (w2.retire g).dev.btb = w2.dev.btb := of_bare Dev.btb (fun _ => rfl) (retire_dev_of_no_slot w2 g hslot)
  have hgo : other ≠ g := by
    change (if g % 2 = 0 then g + 1 else g - 1) ≠ g
    split <;> omega
  refine ⟨w2.retire g, (execBtbflush.eq_def ..).trans (runInsn_ok ?_ rfl), ?_, ?_, fun k k1 k2 => ?_, fun k hk => ?_, ?_⟩
  · rw [hl]
    exact h
  · rw [retire_strand, h1]
  · rw [retire_strand_other _ _ _ hgo, h2]
  · obtain ⟨k3, k4⟩ := h3 k k1 k2
    rw [retire_strand_other _ _ _ k1, hk k k3 k4]
  · rw [hbt]
    exact smap_get_dropped _ _ _ fun v => if_pos (beq_iff_eq.2 hk)
  · rw [retire_dev]
    rfl

/-- Settles O17: CINV.ALL by the array that it names, PWB by the line's state, BTBFLUSH by what it empties. -/
theorem arraysPersistAndBtb : Obligations.ArraysPersistAndBtb :=
  ⟨cinvAllInvalidatesDisabledArrays_holds, persistWriteBack_holds, btbFlush_holds⟩

end Sys2Proof.Proofs
end

