-- ==== Sys2Proof/Proofs/Reports.lean ====
section
/-!
PROOFS. What a report changes: the error ring, the events it raises and the registers that show it, and nothing else of the
device (R344 to R351, R466); and what the home's memory changes besides (R196, R239).
-/

namespace Sys2Proof.Proofs

open Sys2Proof Sys2Proof.Machine Sys2Proof.Laws

/-! ### Interrupts and events set registers alone -/

theorem bare_ite {p : Prop} [Decidable p] {a b d : Dev} (ha : bare a = bare d) (hb : bare b = bare d) :
    bare (if p then a else b) = bare d := by
  split
  · exact ha
  · exact hb

theorem bare_deliver (d : Dev) (target v : Nat) : bare (d.deliver target v) = bare d := by
  unfold Dev.deliver
  exact bare_ite (bare_addSat _ _ _) (bare_ite (bare_ite rfl (bare_addSat _ _ _))
    (bare_ite (bare_setReg _ _ _) (bare_addSat _ _ _)))

theorem bare_routeEvent (d : Dev) (e : Nat) : bare (d.routeEvent e) = bare d := by
  unfold Dev.routeEvent
  split
  · exact bare_deliver _ _ _
  · rfl

theorem bare_rise (old d : Dev) : bare (Dev.rise old d) = bare d := by
  have h : bare (if d.lineHigh 0 && !old.lineHigh 0 then d.routeEvent 0 else d) = bare d := by
    split
    · exact bare_routeEvent _ _
    · rfl
  unfold Dev.rise
  dsimp only
  split
  · rw [bare_routeEvent, h]
  · exact h

theorem bare_errEventNow (d : Dev) (bits : Nat) : bare (d.errEventNow bits) = bare d := by
  rw [Dev.errEventNow, bare_rise, bare_setReg]

theorem bare_tickEvent (d : Dev) (f : Field) : bare (d.tickEvent f) = bare d := by
  rw [Dev.tickEvent, bare_rise, bare_setFld]

/-! ### Records -/

/-- The device but for its registers and what a report changes besides: the ring, the events held, FAULT_N and the messages to
the board. -/
def quiet (d : Dev) : Dev :=
  { d with
    regs := []
    ring := []
    evHeld := 0
    faultN := false
    fw := { d.fw with msgs := [] } }

theorem quiet_of_bare {d e : Dev} (h : bare d = bare e) : quiet d = quiet e :=
  show quiet (bare d) = quiet (bare e) from congrArg quiet h

@[simp] theorem quiet_setFld (d : Dev) (f : Field) (x : Nat) : quiet (d.setFld f x) = quiet d := rfl

@[simp] theorem quiet_addSat (d : Dev) (f : Field) (n : Nat) : quiet (d.addSat f n) = quiet d := rfl

@[simp] theorem quiet_addWrap (d : Dev) (f : Field) (n : Nat) : quiet (d.addWrap f n) = quiet d := rfl

@[simp] theorem quiet_ring (d : Dev) (r : SMap (Option Record)) : quiet { d with ring := r } = quiet d := rfl

theorem quiet_ite {p : Prop} [Decidable p] {a b d : Dev} (ha : quiet a = quiet d) (hb : quiet b = quiet d) :
    quiet (if p then a else b) = quiet d := by
  split
  · exact ha
  · exact hb

@[simp] theorem quiet_bmcEvent (d : Dev) (kind n : Nat) : quiet (d.bmcEvent kind n) = quiet d := quiet_ite rfl rfl

@[simp] theorem quiet_faultIf (d : Dev) (b : Bool) : quiet (d.faultIf b) = quiet d := quiet_ite rfl rfl

@[simp] theorem quiet_errEvent (d : Dev) (bits : Nat) : quiet (d.errEvent bits) = quiet d :=
  quiet_ite (quiet_of_bare (bare_errEventNow _ _)) rfl

theorem quiet_appendRecord (d : Dev) (r : Rep) : quiet (d.appendRecord r) = quiet d := by
  unfold Dev.appendRecord
  dsimp only
  rw [quiet_errEvent, quiet_faultIf]
  have h (e : Dev) (hd : Nat) (b : Bool) (he : quiet e = quiet d) :
      quiet (((if b = true then (e.setFld R.ERR_TAIL_INDEX (e.fld R.ERR_TAIL_INDEX + 1)).addSat R.ERR_STATUS_LOST 1
        else e).setFld R.ERR_HEAD_INDEX hd).addWrap R.ERR_HEAD_TOTAL 1) = quiet d := by
    rw [quiet_addWrap, quiet_setFld]
    exact quiet_ite ((quiet_addSat _ _ _).trans ((quiet_setFld _ _ _).trans he)) he
  exact quiet_ite ((quiet_bmcEvent _ _ _).trans ((quiet_setFld _ _ _).trans (h _ _ _ (quiet_ring _ _))))
    ((quiet_setFld _ _ _).trans (h _ _ _ (quiet_ring _ _)))

theorem quiet_record (d : Dev) (r : Rep) : quiet (d.record r).1 = quiet d := by
  unfold Dev.record
  split
  · split
    · rfl
    · rfl
  · exact quiet_appendRecord _ _

@[simp] theorem quiet_log (d : Dev) (r : Rep) : quiet (d.log r) = quiet d := quiet_record d r

theorem of_quiet {α : Type} {d e : Dev} (F : Dev → α) (hF : ∀ d, F (quiet d) = F d) (h : quiet d = quiet e) : F d = F e := by
  rw [← hF d, h, hF]

/-! ### The home's memory -/

/-- The device but for what a home's accesses to its memory and its LLC slice change. -/
def atHome (d : Dev) : Dev :=
  { quiet d with
    free := 0
    flips := []
    dram := []
    llc := []
    pstacks := []
    keyOf := []
    bad := []
    poisoned := []
    initDone := [] }

theorem atHome_of_quiet {d e : Dev} (h : quiet d = quiet e) : atHome d = atHome e :=
  show atHome (quiet d) = atHome (quiet e) from congrArg atHome h

theorem atHome_of_still {d e : Dev} (h : still d = still e) : atHome d = atHome e :=
  show atHome (still d) = atHome (still e) from congrArg atHome h

theorem of_atHome {α : Type} {d e : Dev} (F : Dev → α) (hF : ∀ d, F (atHome d) = F d) (h : atHome d = atHome e) : F d = F e := by
  rw [← hF d, h, hF]

@[simp] theorem atHome_log (d : Dev) (r : Rep) : atHome (d.log r) = atHome d := atHome_of_quiet (quiet_log d r)

@[simp] theorem atHome_arrayWrite (d : Dev) (grp inst loc : Nat) (w : Option Nat) (ws : List Nat) :
    atHome (d.arrayWrite grp inst loc w ws) = atHome d := atHome_of_still (still_arrayWrite d grp inst loc w ws)

theorem atHome_ite {p : Prop} [Decidable p] {a b d : Dev} (ha : atHome a = atHome d) (hb : atHome b = atHome d) :
    atHome (if p then a else b) = atHome d := by
  split
  · exact ha
  · exact hb

theorem atHome_homeWrite (d : Dev) (g key : Nat) (l : Line) (p u : Bool) (a : Option Agent) :
    atHome (d.homeWrite g key l p u a) = atHome d := by
  unfold Dev.homeWrite
  refine atHome_ite (atHome_log _ _) (atHome_ite (atHome_log _ _) (atHome_ite rfl ?_))
  exact atHome_arrayWrite _ _ _ _ _ _

theorem atHome_dramReport (d : Dev) (g : Nat) (ue : Bool) : atHome (d.dramReport g ue) = atHome d := by
  unfold Dev.dramReport
  dsimp only
  rw [atHome_log]
  have h (n : Nat) : quiet (if ue = true then d.addSat (R.ERR_COUNT_UE_COUNT.at n) 1 else d.addSat (R.ERR_COUNT_CE_COUNT.at n) 1)
      = quiet d := quiet_ite (quiet_addSat _ _ _) (quiet_addSat _ _ _)
  exact atHome_of_quiet (quiet_ite ((quiet_setFld _ _ _).trans (h _)) (h _))

theorem atHome_dev_ite {p : Prop} [Decidable p] {a b : Got} {d : Dev} (ha : atHome a.dev = atHome d)
    (hb : atHome b.dev = atHome d) : atHome (if p then a else b).dev = atHome d := by
  split
  · exact ha
  · exact hb

@[simp] theorem atHome_drawLine (d : Dev) : atHome d.drawLine.2 = atHome d := rfl

@[simp] theorem atHome_drawBool (d : Dev) : atHome d.drawBool.2 = atHome d := rfl

theorem atHome_homeRead (d : Dev) (g key : Nat) : atHome (d.homeRead g key).dev = atHome d := by
  unfold Dev.homeRead
  dsimp only
  refine atHome_dev_ite (atHome_log _ _) (atHome_dev_ite (atHome_log _ _) (atHome_dev_ite rfl (atHome_dev_ite rfl ?_)))
  generalize d.dramVerdict g = v
  cases v with
  | good => exact atHome_dev_ite rfl (atHome_drawLine d)
  | corrected =>
    exact atHome_dev_ite (atHome_dramReport _ _ _) ((atHome_drawLine _).trans (atHome_dramReport _ _ _))
  | uncorrectable => exact atHome_dramReport _ _ _
  | unknown =>
    exact atHome_dev_ite ((atHome_dramReport _ _ _).trans (atHome_drawBool d)) ((atHome_drawLine _).trans (atHome_drawBool d))

theorem atHome_checkLlc (d : Dev) (g : Nat) : atHome (d.checkLlc g) = atHome d := by
  unfold Dev.checkLlc
  dsimp only
  split
  · rfl
  · split
    · rfl
    · split
      · rfl
      · exact atHome_log _ _
      · split
        · exact atHome_log _ _
        · exact atHome_log _ _
      · rfl

theorem atHome_llcEvict (d : Dev) (g : Nat) : atHome (d.llcEvict g) = atHome d := by
  have h := atHome_checkLlc d g
  unfold Dev.llcEvict
  dsimp only
  split
  · exact h
  · split
    · rw [atHome_homeWrite]
      exact h
    · exact h

/-- What a way of the LLC takes. -/
theorem atHome_putWay (d : Dev) (g : Nat) (t : Nat) (w : Option Nat) (m : SMap (Option LLine)) :
    atHome { d.arrayWrite 7 t (64 * g) w allWords with llc := m } = atHome d := atHome_arrayWrite d 7 t (64 * g) w allWords

theorem atHome_llcPut (d : Dev) (g : Nat) (l : Line) (dirty p : Bool) (key : Nat) :
    atHome (d.llcPut g l dirty p key) = atHome d := by
  unfold Dev.llcPut
  dsimp only
  split
  · split
    · exact atHome_homeWrite _ _ _ _ _ _ _
    · rfl
  · split
    · exact atHome_putWay _ _ _ _ _
    · split
      · exact atHome_putWay _ _ _ _ _
      · split
        · exact (atHome_putWay _ _ _ _ _).trans (atHome_llcEvict _ _)
        · exact atHome_putWay _ _ _ _ _

theorem atHome_sink (d : Dev) (g key : Nat) (l : Line) (p u : Bool) (a : Option Agent) :
    atHome (d.sink g key l p u a) = atHome d := atHome_ite (atHome_homeWrite _ _ _ _ _ _ _) rfl

theorem atHome_keepClean (d : Dev) (g key : Nat) (l : Line) (p : Bool) : atHome (d.keepClean g key l p) = atHome d :=
  atHome_ite (atHome_llcPut _ _ _ _ _ _) rfl

/-- Dirty data kept by the home changes of a line's entry its record of the LLC's copy alone. -/
theorem keepDirty_dir (d : Dev) (g key : Nat) (l : Line) (p : Bool) (a : Option Agent) :
    ∃ b w, atHome (d.keepDirty g key l p a) = atHome d ∧ b = (d.dir g).llcd ∨
      atHome (d.keepDirty g key l p a) = atHome (d.setDir g { d.dir g with llcd := b, llcway := w }) := by
  unfold Dev.keepDirty
  dsimp only
  have h := atHome_llcPut d g l true p key
  split
  · exact ⟨_, 0, .inl ⟨rfl, rfl⟩⟩
  · split
    · exact ⟨_, 0, .inl ⟨(atHome_llcPut _ _ _ _ _ _).trans (atHome_homeWrite _ _ _ _ _ _ _), rfl⟩⟩
    · split
      · next x _ =>
        split
        · refine ⟨true, x.way, .inr ?_⟩
          generalize d.llcPut g l true p key = e at *
          have hd : e.dir g = d.dir g := of_atHome (fun z => z.dir g) (fun _ => rfl) h
          rw [hd]
          exact congrArg (fun z : Dev => z.setDir g { d.dir g with llcd := true, llcway := x.way }) h
        · exact ⟨_, 0, .inl ⟨h, rfl⟩⟩
      · exact ⟨_, 0, .inl ⟨h, rfl⟩⟩

end Sys2Proof.Proofs
end

