-- ==== Sys2Proof/Proofs/Writebacks.lean ====
section
/-!
PROOFS. Writebacks at the home (R227, R233, R234) and the answers of holders (R232).
-/

namespace Sys2Proof.Proofs

open Sys2Proof Sys2Proof.Machine Sys2Proof.Laws

/-! ### Messages and lines -/

/-- A message that reaches a unit of the socket is taken out of flight and acted on. -/
theorem onMessage_gives {ok : Bool} {p : Msg → Bool} {f : State → State} {s : State} {P : State → Prop} (hok : ok = true)
    (hc : s.dev.clocksOk = true) (hP : P (f { s with dev := s.dev.arrive p })) : ∃ t, onMessage ok p f s = .next t ∧ P t := by
  refine ⟨_, ?_, hP⟩
  unfold onMessage
  rw [hok, hc]
  rfl

@[simp] theorem dir_setDir (d : Dev) (g : Nat) (x : Dir) : (d.setDir g x).dir g = x := smap_get_set_same _ _ _ _

@[simp] theorem txn_setTxn (d : Dev) (g : Nat) (x : Option Txn) : (d.setTxn g x).txn g = x := smap_get_set_same _ _ _ _

@[simp] theorem mshr_setMshr (d : Dev) (c g : Nat) (x : Option Mshr) : (d.setMshr c g x).mshr c g = x := smap_get_set_same _ _ _ _

@[simp] theorem ghost_setGhost (d : Dev) (c g : Nat) (x : Option Ghost) : (d.setGhost c g x).ghost c g = x :=
  smap_get_set_same _ _ _ _

@[simp] theorem sliceQ_setSliceQ (d : Dev) (g : Nat) (q : List Queued) : (d.setSliceQ g q).sliceQ g = q := smap_get_set_same _ _ _ _

/-! ### The home's idle queue -/

/-- The device but for its registers and the queues of the directory slices. -/
def unqueued (d : Dev) : Dev := { bare d with homeQ := [] }

theorem of_unqueued {α : Type} {d e : Dev} (F : Dev → α) (hF : ∀ d, F (unqueued d) = F d) (h : unqueued d = unqueued e) :
    F d = F e := by
  rw [← hF d, h, hF]

theorem unqueued_of_bare {d e : Dev} (h : bare d = bare e) : unqueued d = unqueued e :=
  show unqueued (bare d) = unqueued (bare e) from congrArg unqueued h

theorem unqueued_showSlice (d : Dev) (g : Nat) : unqueued (d.showSlice g) = unqueued d := by
  refine unqueued_of_bare ?_
  unfold Dev.showSlice
  dsimp only
  rw [bare_setFld, bare_setFld]

theorem fld_showSlice (d : Dev) (g : Nat) (f : Field) (h1 : f.reg ≠ (sliceReg R.DIR_STATUS_OPEN g).reg)
    (h2 : f.reg ≠ (sliceReg R.DIR_STATUS_QUEUED g).reg) : (d.showSlice g).fld f = d.fld f := by
  unfold Dev.showSlice
  dsimp only
  rw [fld_setFld_reg _ _ _ _ h2, fld_setFld_reg _ _ _ _ h1]

theorem pump_of_empty {s : State} {g : Nat} (h : s.dev.sliceQ g = []) :
    s.pump g = { s with dev := (s.dev.setSliceQ g []).showSlice g } := by
  unfold State.pump
  dsimp only
  rw [h]
  rfl

/-- With nothing queued, what a home does at the end of a transaction shows the slice alone. -/
theorem pump_idle {s : State} {g : Nat} (h : s.dev.sliceQ g = []) :
    unqueued (s.pump g).dev = unqueued s.dev ∧
      ∀ f : Field, f.reg ≠ (sliceReg R.DIR_STATUS_OPEN g).reg → f.reg ≠ (sliceReg R.DIR_STATUS_QUEUED g).reg →
        (s.pump g).dev.fld f = s.dev.fld f := by
  rw [pump_of_empty h]
  exact ⟨unqueued_showSlice _ _, fun f h1 h2 => fld_showSlice _ _ _ h1 h2⟩

theorem afterClose_idle {s : State} {g : Nat} (h : s.dev.sliceQ g = []) :
    unqueued (s.afterClose g).dev = unqueued s.dev ∧
      ∀ f : Field, f.reg ≠ (sliceReg R.DIR_STATUS_OPEN g).reg → f.reg ≠ (sliceReg R.DIR_STATUS_QUEUED g).reg →
        (s.afterClose g).dev.fld f = s.dev.fld f := by
  unfold State.afterClose
  split
  · exact pump_idle h
  · exact ⟨rfl, fun _ _ _ => rfl⟩

theorem afterClose_open {s : State} {g : Nat} {t : Txn} (h : s.dev.txn g = some t) : s.afterClose g = s := by
  unfold State.afterClose
  rw [h]
  rfl

/-! ### Messages in flight -/

/-- The device but for the messages in flight. -/
def offNet (d : Dev) : Dev := { d with net := [] }

theorem offNet_arrive (d : Dev) (p : Msg → Bool) : offNet (d.arrive p) = offNet d := rfl

theorem of_offNet {α : Type} {d e : Dev} (F : Dev → α) (hF : ∀ d, F (offNet d) = F d) (h : offNet d = offNet e) : F d = F e := by
  rw [← hF d, h, hF]

/-! ### Entries -/

/-- The entry of a line whose transaction has closed (R225). -/
def closedDir (e : Dir) : Dir := if e.st == .uncached && !e.llcd then { ownseq := e.ownseq } else { e with held := false }

theorem closeTxn_eq (d : Dev) (g : Nat) : d.closeTxn g = (d.setTxn g none).setDir g (closedDir (d.dir g)) :=
  (apply_ite ((d.setTxn g none).setDir g) _ _ _).symm

theorem closeTxn_dir (d : Dev) (g : Nat) : (d.closeTxn g).dir g = closedDir (d.dir g) := by
  rw [closeTxn_eq, dir_setDir]

theorem closeTxn_txn (d : Dev) (g : Nat) : (d.closeTxn g).txn g = none := by
  rw [closeTxn_eq]
  exact txn_setTxn d g none

theorem closeTxn_net (d : Dev) (g : Nat) : (d.closeTxn g).net = d.net := by
  rw [closeTxn_eq]
  rfl

theorem closeTxn_sliceQ (d : Dev) (g : Nat) : (d.closeTxn g).sliceQ g = d.sliceQ g := by
  rw [closeTxn_eq]
  rfl

theorem closedDir_held (e : Dir) : (closedDir e).held = false := by
  unfold closedDir
  split <;> rfl

theorem closedDir_ptrs (e : Dir) :
    (closedDir e).ptrs = if e.st = .uncached ∧ e.llcd = false then [] else e.ptrs := by
  unfold closedDir
  cases e.llcd <;> cases e.st <;> rfl

theorem closedDir_uncached {e : Dir} (h : e.st = .uncached) : (closedDir e).st = .uncached := by
  unfold closedDir
  split
  · rfl
  · exact h

/-- An entry that loses one of two pointers keeps the other. -/
theorem dropPtr_pair {d : Dev} {g : Nat} {a b : Agent} (hst : (d.dir g).st = .pointer) (hp : (d.dir g).ptrs = [b, a]) (hab : b ≠ a) :
    ∃ lead, d.dropPtr g a = d.setDir g { d.dir g with
      ptrs := [b]
      lead := lead } := by
  unfold Dev.dropPtr
  dsimp only
  have hf : [b, a].filter (fun p => p != a) = [b] := by
    rw [List.filter_cons_of_pos (by simpa using hab), List.filter_cons_of_neg (by simp), List.filter_nil]
  have hc : ([b, a].contains a) = true := by simp
  rw [hp, hf, hc]
  exact ⟨_, rfl⟩

/-! ### Writebacks -/

section
variable {s : State} {c g : Nat}

theorem makeWriteback_invalid (hf : s.dev.flips = []) (hl : (s.dev.line c g).st = .invalid) (k : Bool) :
    s.dev.makeWriteback g (.core c) k = s.dev := by
  unfold Dev.makeWriteback
  dsimp only
  split
  · rfl
  · split
    · unfold Dev.writeBack
      dsimp only
      rw [checkLine_of_clean hf, hl]
      rfl
    · unfold Dev.evict
      dsimp only
      rw [checkLine_of_clean hf, hl]
      rfl

theorem makeWriteback_exclusive (hf : s.dev.flips = []) (hl : (s.dev.line c g).st = .exclusive) :
    s.dev.makeWriteback g (.core c) true = s.dev := by
  unfold Dev.makeWriteback
  dsimp only
  split
  · rfl
  · unfold Dev.writeBack
    dsimp only
    rw [checkLine_of_clean hf, hl]
    rfl

variable {bytes : Line} {poison : Bool} {P : State → Prop}

theorem wbm_gives {seq : BitVec 8} {k : Bool} (hg : lineOk g = true) (hcore : c < 288) (hc : s.dev.clocksOk = true)
    (h0 : s.dev.makeWriteback g (.core c) k = s.dev) (hm : (s.dev.line c g).st ≠ .modified)
    (hw : ∀ d key, offNet d = offNet s.dev → ∃ d', d.wbmAt g (.core c) seq k bytes poison key = some d' ∧
      P ({ s with dev := d' }.afterClose g)) :
    GivesSome (.wbm g (.core c) seq k bytes poison) s P := by
  obtain ⟨d', hd, hP⟩ := hw (s.dev.arrive fun m => m.g == g && m.src == some (.core c) && m.dst == none && (match m.body with
        | .wbm _ k' _ _ => k' == k
        | _ => false)) (s.dev.wbKeyId g (.core c)) (offNet_arrive _ _)
  refine ⟨_, (execWbm.eq_def ..).trans ?_, hP⟩
  have hok : (lineOk g && agentOk (.core c)) = true := by
    rw [hg]
    exact decide_eq_true hcore
  have hmiss : s.dev.wbMissing g (.core c) true = false := by
    unfold Dev.wbMissing
    dsimp only
    rw [if_pos rfl, beq_eq_false_iff_ne.2 hm]
    rfl
  rw [hok, hc]
  dsimp only
  rw [h0, hmiss]
  exact congrArg (fun o : Option Dev => (match o with
    | none => .next s
    | some d => .next ({ s with dev := d }.afterClose g) : Host.Outcome State Fault Refusal)) hd

theorem evc_gives (hg : lineOk g = true) (hcore : c < 288) (hc : s.dev.clocksOk = true)
    (h0 : s.dev.makeWriteback g (.core c) false = s.dev) (hm : (s.dev.line c g).st = .invalid)
    (hw : ∀ d key, offNet d = offNet s.dev → ∃ d', d.evcAt g (.core c) bytes poison key = some d' ∧
      P ({ s with dev := d' }.afterClose g)) :
    GivesSome (.evc g (.core c) bytes poison) s P := by
  obtain ⟨d', hd, hP⟩ := hw (s.dev.arrive fun m => m.g == g && m.src == some (.core c) && m.dst == none && (match m.body with
        | .evc _ _ => true
        | _ => false)) (s.dev.wbKeyId g (.core c)) (offNet_arrive _ _)
  refine ⟨_, (execEvc.eq_def ..).trans ?_, hP⟩
  have hok : (lineOk g && agentOk (.core c)) = true := by
    rw [hg]
    exact decide_eq_true hcore
  have hmiss : s.dev.wbMissing g (.core c) false = false := by
    unfold Dev.wbMissing
    dsimp only
    rw [hm]
    rfl
  rw [hok, hc]
  dsimp only
  rw [h0, hmiss]
  exact congrArg (fun o : Option Dev => (match o with
    | none => .next s
    | some d => .next ({ s with dev := d }.afterClose g) : Host.Outcome State Fault Refusal)) hd

end

/-- The home takes the owner's dirty line: the entry is then Uncached. -/
theorem wbmAt_owner {d : Dev} {g key : Nat} {src : Agent} {seq : BitVec 8} (l : Line) (p : Bool) (ht : d.txn g = none)
    (hq : d.sliceQ g = []) (hst : (d.dir g).st = .owned) (hp : (d.dir g).ptrs = [src]) (hs : (d.dir g).ownseq = seq) :
    ∃ e : Dev, d.wbmAt g src seq false l p key = some (e.send ⟨g, none, some src, .ack (.wb false)⟩) ∧ e.sliceQ g = [] ∧
      (e.dir g).st = .uncached ∧ (e.dir g).ptrs = [] := by
  refine ⟨_, by
    unfold Dev.wbmAt
    dsimp only
    rw [ht, hst, hp, hs, beq_self_eq_true seq, List.head?_cons, beq_self_eq_true (some src)]
    rfl, ?_⟩
  have hn : (d.noSharers g).dir g = { d.dir g with
      st := .uncached
      remote := false
      lead := 3
      ptrs := [] } := dir_setDir _ _ _
  rw [closeTxn_sliceQ, closeTxn_dir]
  generalize ha : (if isPeat g = true then some src else none) = a
  have hk : ((d.noSharers g).keepDirty g key l p a).sliceQ g = [] ∧
      (((d.noSharers g).keepDirty g key l p a).dir g).st = .uncached ∧
      (((d.noSharers g).keepDirty g key l p a).dir g).ptrs = [] := by
    have hq' : (d.noSharers g).sliceQ g = [] := hq
    have hk := keepDirty_dir (d.noSharers g) g key l p a
    rw [hn] at hk
    generalize d.noSharers g = z at *
    obtain ⟨b, w, ⟨h, -⟩ | h⟩ := hk
    · have h1 := of_atHome (fun z => z.dir g) (fun _ => rfl) h
      have h2 := of_atHome (fun z => z.sliceQ g) (fun _ => rfl) h
      exact ⟨h2.trans hq', (congrArg Dir.st (h1.trans hn)), (congrArg Dir.ptrs (h1.trans hn))⟩
    · have h1 := of_atHome (fun z => z.dir g) (fun _ => rfl) h
      have h2 := of_atHome (fun z => z.sliceQ g) (fun _ => rfl) h
      have h3 := h1.trans (dir_setDir _ _ _)
      exact ⟨h2.trans hq', congrArg Dir.st h3, congrArg Dir.ptrs h3⟩
  obtain ⟨h1, h2, h3⟩ := hk
  refine ⟨h1, closedDir_uncached h2, ?_⟩
  rw [closedDir_ptrs, h3, ite_self]

/-- A writeback under flag K leaves the owner and its entry. -/
theorem wbmAt_kept {d : Dev} {g key : Nat} {src : Agent} {seq : BitVec 8} (l : Line) (p : Bool) (ht : d.txn g = none)
    (hst : (d.dir g).st = .owned) (hp : (d.dir g).ptrs = [src]) (hs : (d.dir g).ownseq = seq) :
    ∃ e : Dev, d.wbmAt g src seq true l p key = some (e.send ⟨g, none, some src, .ack (.wb false)⟩) ∧ atHome e = atHome d :=
  ⟨_, by
    unfold Dev.wbmAt
    dsimp only
    rw [ht, hst, hp, hs, beq_self_eq_true seq, List.head?_cons, beq_self_eq_true (some src)]
    rfl, atHome_sink _ _ _ _ _ _ _⟩

/-- A writeback that is not the owner's is counted. -/
theorem wbmAt_discarded {d : Dev} {g key : Nat} {src : Agent} {seq : BitVec 8} (k : Bool) (l : Line) (p : Bool)
    (ht : d.txn g = none) (hs : (d.dir g).ownseq ≠ seq) :
    ∃ e : Dev, d.wbmAt g src seq k l p key = some (e.send ⟨g, none, some src, .ack (.wb false)⟩) ∧ bare e = bare d ∧
      e.fld (sliceReg R.DIR_WB_DISCARDED_COUNT g) =
        min (d.fld (sliceReg R.DIR_WB_DISCARDED_COUNT g) + 1) (2 ^ (sliceReg R.DIR_WB_DISCARDED_COUNT g).width - 1) := by
  refine ⟨d.addSat (sliceReg R.DIR_WB_DISCARDED_COUNT g) 1, ?_, bare_addSat _ _ _,
    fld_addSat _ _ _ (show R.DIR_WB_DISCARDED_COUNT.lo + R.DIR_WB_DISCARDED_COUNT.width ≤ 64 by decide)⟩
  unfold Dev.wbmAt
  dsimp only
  rw [ht, beq_eq_false_iff_ne.2 hs, Bool.and_false]
  rfl

/-- A sharer that evicts its clean copy leaves the entry to the other. -/
theorem evcAt_sharer {d : Dev} {g key : Nat} {src o : Agent} (l : Line) (p : Bool) (ht : d.txn g = none)
    (hst : (d.dir g).st = .pointer) (hp : (d.dir g).ptrs = [o, src]) (ho : o ≠ src) :
    ∃ lead, d.evcAt g src l p key = some ((d.setDir g { d.dir g with
      ptrs := [o]
      lead := lead }).send ⟨g, none, some src, .ack (.wb false)⟩) := by
  obtain ⟨lead, hd⟩ := dropPtr_pair hst hp ho
  refine ⟨lead, ?_⟩
  have hu : (((d.setDir g { d.dir g with
      ptrs := [o]
      lead := lead }).dir g).st == DirState.uncached) = false := by
    rw [dir_setDir]
    exact beq_eq_false_iff_ne.2 (by rw [hst]; decide)
  have hv : (d.dir g).valid = true := by
    unfold Dir.valid
    rw [hst]
    rfl
  have hc : [o, src].contains src = true := by simp
  have hcond : ((d.dir g).valid && !(((d.dir g).st == .owned || (d.dir g).st == .pointer) && (d.dir g).ptrs.contains src)) = false := by
    rw [hv, hst, hp, hc]
    rfl
  unfold Dev.evcAt
  dsimp only
  rw [ht, hcond, hd]
  generalize d.setDir g _ = e at *
  rw [hu, if_neg (by decide : ¬(none : Option Txn).isSome = true), if_neg (c := false = true) (by decide)]
  rw [if_neg (c := false = true) (by decide), hu]
  rfl

theorem sweep_idle {d : Dev} {c : Nat} (h : (d.tracker c).closing = []) :
    d.sweep c = d.setTracker c { d.tracker c with closing := [] } := by
  unfold Dev.sweep
  dsimp only
  rw [h, List.foldl_nil, h]
  rfl

theorem retryFills_idle {d : Dev} (c : Nat) (h : d.mshrs = []) : d.retryFills c = d := by
  unfold Dev.retryFills
  dsimp only
  rw [h]
  rfl

/-- The answer to a writeback returns the credit and frees the ghost. -/
theorem wbAckAtCore_idle {d : Dev} (c g : Nat) (hm : d.mshrs = []) (ht : (d.tracker c).closing = []) :
    d.wbAckAtCore c g false =
      ((d.setWbUsed c g (d.wbUsed c g - 1)).setGhost c g none).setTracker c { d.tracker c with closing := [] } := by
  unfold Dev.wbAckAtCore
  dsimp only
  rw [if_neg (by decide)]
  have hm' : ((d.setWbUsed c g (d.wbUsed c g - 1)).setGhost c g none).mshrs = [] := hm
  have ht' : ((d.setWbUsed c g (d.wbUsed c g - 1)).setGhost c g none).tracker c = d.tracker c := rfl
  generalize (d.setWbUsed c g (d.wbUsed c g - 1)).setGhost c g none = e at *
  rw [sweep_idle (ht' ▸ ht), ht']
  exact retryFills_idle c hm'

theorem wbAckAtCore_frees {d : Dev} (c g : Nat) (hm : d.mshrs = []) (ht : (d.tracker c).closing = []) :
    (d.wbAckAtCore c g false).ghost c g = none ∧ (d.wbAckAtCore c g false).wbUsed c g = d.wbUsed c g - 1 ∧
      (d.wbAckAtCore c g false).net = d.net := by
  rw [wbAckAtCore_idle c g hm ht]
  exact ⟨ghost_setGhost (d.setWbUsed c g (d.wbUsed c g - 1)) c g none, wbUsed_setWbUsed d c g (d.wbUsed c g - 1), rfl⟩

theorem discardedCount_apart (g : Nat) :
    (R.DIR_WB_DISCARDED_COUNT.at (0x10000 * hashIndex g)).reg ≠ (sliceReg R.DIR_STATUS_OPEN g).reg ∧
      (R.DIR_WB_DISCARDED_COUNT.at (0x10000 * hashIndex g)).reg ≠ (sliceReg R.DIR_STATUS_QUEUED g).reg := by
  have h (a b k : Nat) (hab : a ≠ b) : a + k ≠ b + k := by omega
  exact ⟨h _ _ _ (by decide), h _ _ _ (by decide)⟩

theorem mem_send (d : Dev) (m : Msg) : m ∈ (d.send m).net := List.mem_append_right _ (List.mem_singleton.2 rfl)

/-- What a home reads of a line to take a writeback of it. -/
theorem entry_of_offNet {d e : Dev} (h : offNet d = offNet e) (g : Nat) :
    d.txn g = e.txn g ∧ d.sliceQ g = e.sliceQ g ∧ d.dir g = e.dir g :=
  ⟨of_offNet (fun z => z.txn g) (fun _ => rfl) h, of_offNet (fun z => z.sliceQ g) (fun _ => rfl) h,
    of_offNet (fun z => z.dir g) (fun _ => rfl) h⟩

theorem writebacks_hold : writebacks := by
  intro s c g seq bytes poison hg hcore hc
  dsimp only
  refine ⟨fun ht hq hf _ => ⟨fun hst hp hs => ⟨fun hl => ?_, fun hl => ?_⟩, fun hst hs hl k => ?_, fun o hst hp ho hl => ?_⟩,
    fun hm htr => ?_⟩
  · refine wbm_gives hg hcore hc (makeWriteback_invalid hf hl _) (by rw [hl]; decide) fun d key hd => ?_
    obtain ⟨h1, h2, h3⟩ := entry_of_offNet hd g
    obtain ⟨e, he, h4, h5, h6⟩ := wbmAt_owner (d := d) (key := key) bytes poison (h1.trans ht) (h2.trans hq) (h3 ▸ hst) (h3 ▸ hp) (h3 ▸ hs)
    obtain ⟨hz, -⟩ := afterClose_idle (s := { s with dev := e.send ⟨g, none, some (.core c), .ack (.wb false)⟩ }) h4
    exact ⟨_, he, (congrArg Dir.st (of_unqueued (fun z => z.dir g) (fun _ => rfl) hz)).trans h5,
      (congrArg Dir.ptrs (of_unqueued (fun z => z.dir g) (fun _ => rfl) hz)).trans h6,
      (of_unqueued Dev.net (fun _ => rfl) hz) ▸ mem_send _ _⟩
  · refine wbm_gives hg hcore hc (makeWriteback_exclusive hf hl) (by rw [hl]; decide) fun d key hd => ?_
    obtain ⟨h1, h2, h3⟩ := entry_of_offNet hd g
    obtain ⟨e, he, h4⟩ := wbmAt_kept (d := d) (key := key) bytes poison (h1.trans ht) (h3 ▸ hst) (h3 ▸ hp) (h3 ▸ hs)
    have hdir := (of_atHome (fun z => z.dir g) (fun _ => rfl) h4).trans h3
    have hsl := (of_atHome (fun z => z.sliceQ g) (fun _ => rfl) h4).trans h2
    have hln := (of_atHome (fun z => z.line c g) (fun _ => rfl) h4).trans (of_offNet (fun z => z.line c g) (fun _ => rfl) hd)
    obtain ⟨hz, -⟩ := afterClose_idle (s := { s with dev := e.send ⟨g, none, some (.core c), .ack (.wb false)⟩ }) (hsl.trans hq)
    have hzd := (of_unqueued (fun z => z.dir g) (fun _ => rfl) hz).trans hdir
    exact ⟨_, he, (congrArg Dir.st hzd).trans hst, (congrArg Dir.ptrs hzd).trans hp,
      (congrArg CLine.st ((of_unqueued (fun z => z.line c g) (fun _ => rfl) hz).trans hln)).trans hl,
      (of_unqueued Dev.net (fun _ => rfl) hz) ▸ mem_send _ _⟩
  · refine wbm_gives hg hcore hc (makeWriteback_invalid hf hl _) (by rw [hl]; decide) fun d key hd => ?_
    obtain ⟨h1, h2, h3⟩ := entry_of_offNet hd g
    obtain ⟨e, he, hb, hcount⟩ := wbmAt_discarded (key := key) (src := .core c) k bytes poison (h1.trans ht) (h3 ▸ hs)
    have hq' := (of_bare (fun z => z.sliceQ g) (fun _ => rfl) hb).trans (h2.trans hq)
    obtain ⟨hz, hfl⟩ := afterClose_idle (s := { s with dev := e.send ⟨g, none, some (.core c), .ack (.wb false)⟩ }) hq'
    have hfld : d.fld _ = s.dev.fld _ := of_offNet (fun z => z.fld (sliceReg R.DIR_WB_DISCARDED_COUNT g)) (fun _ => rfl) hd
    rw [hfld] at hcount
    have kept {α : Type} (F : Dev → α) (h1 : ∀ d, F (unqueued d) = F d) (h2 : ∀ d m, F (d.send m) = F d)
        (h3 : ∀ d, F (bare d) = F d) (h4 : ∀ d, F (offNet d) = F d) : _ = F s.dev :=
      (of_unqueued F h1 hz).trans ((h2 _ _).trans ((of_bare F h3 hb).trans (of_offNet F h4 hd)))
    exact ⟨_, he, kept (fun z => z.dir g) (fun _ => rfl) (fun _ _ => rfl) (fun _ => rfl) (fun _ => rfl),
      kept Dev.dram (fun _ => rfl) (fun _ _ => rfl) (fun _ => rfl) (fun _ => rfl),
      kept Dev.llc (fun _ => rfl) (fun _ _ => rfl) (fun _ => rfl) (fun _ => rfl),
      kept Dev.pstacks (fun _ => rfl) (fun _ _ => rfl) (fun _ => rfl) (fun _ => rfl),
      (hfl _ (discardedCount_apart g).1 (discardedCount_apart g).2).trans hcount,
      (of_unqueued Dev.net (fun _ => rfl) hz) ▸ mem_send _ _⟩
  · refine evc_gives hg hcore hc (makeWriteback_invalid hf hl _) hl fun d key hd => ?_
    obtain ⟨h1, h2, h3⟩ := entry_of_offNet hd g
    obtain ⟨lead, he⟩ := evcAt_sharer (d := d) (key := key) bytes poison (h1.trans ht) (h3 ▸ hst) (h3 ▸ hp) ho
    have hz := (afterClose_idle (s := { s with
      dev := (d.setDir g { d.dir g with
        ptrs := [o]
        lead := lead }).send ⟨g, none, some (.core c), .ack (.wb false)⟩ }) (g := g) (h2.trans hq)).1
    have hdir := (of_unqueued (fun z => z.dir g) (fun _ => rfl) hz).trans (dir_setDir d g _)
    exact ⟨_, he, (congrArg Dir.st hdir).trans (h3 ▸ hst), congrArg Dir.ptrs hdir,
      (of_unqueued Dev.net (fun _ => rfl) hz) ▸ mem_send _ _⟩
  · refine onMessage_gives (ok := coreOk c && lineOk g) (p := fun x => toCore c g x && x.body == .ack (.wb false))
      (f := fun s => { s with dev := s.dev.wbAckAtCore c g false }) ?_ hc ?_
    · rw [hg, Bool.and_true]
      exact decide_eq_true hcore
    · exact wbAckAtCore_frees (d := s.dev.arrive fun x => toCore c g x && x.body == .ack (.wb false)) c g hm htr

/-! ### The answers of holders (R232) -/

section
variable {d : Dev} {c g : Nat} {req : Agent}

theorem line_trackSent (d : Dev) (c g : Nat) : (d.trackSent c g).line c g = d.line c g := by
  obtain ⟨ts, h⟩ := trackSent_eq d c g
  rw [h]
  rfl

theorem net_trackSent (d : Dev) (c g : Nat) : (d.trackSent c g).net = d.net := by
  obtain ⟨ts, h⟩ := trackSent_eq d c g
  rw [h]

/-- What a holder's answer shows: its own line, and the messages it sent. -/
def answers (d e : Dev) (c g : Nat) (l : CLine) (ms : List Msg) : Prop := e.line c g = l ∧ e.net = d.net ++ ms

theorem answers_send {e : Dev} {l : CLine} {ms : List Msg} (h : answers d e c g l ms) (m : Msg) :
    answers d (e.send m) c g l (ms ++ [m]) := by
  obtain ⟨h1, h2⟩ := h
  refine ⟨h1, ?_⟩
  rw [← List.append_assoc, ← h2]
  rfl

theorem answers_self (d : Dev) (c g : Nat) : answers d d c g (d.line c g) [] := ⟨rfl, (List.append_nil _).symm⟩

theorem answers_setLine (d : Dev) (c g : Nat) (x : CLine) : answers d (d.setLine c g x) c g x [] :=
  ⟨line_setLine d c g x, (List.append_nil d.net).symm⟩

theorem answers_trackSent {e : Dev} {l : CLine} {ms : List Msg} (h : answers d e c g l ms) :
    answers d (e.trackSent c g) c g l ms := by
  obtain ⟨h1, h2⟩ := h
  exact ⟨(line_trackSent e c g).trans h1, (net_trackSent e c g).trans h2⟩

theorem answerFwdS_modified (hf : d.flips = []) (hl : (d.line c g).st = .modified) :
    answers d (d.answerFwdS c g req false false) c g { d.line c g with
      st := .shared
      stored := 0 }
      [⟨g, some (.core c), some req, .data (d.line c g).data true (d.line c g).poison false⟩,
        ⟨g, some (.core c), none, .data (d.line c g).data true (d.line c g).poison false⟩,
        ⟨g, some (.core c), none, .ack (.fwd false true)⟩] := by
  unfold Dev.answerFwdS
  dsimp only
  rw [checkLine_of_clean hf, hl]
  exact answers_send (answers_send (answers_send (answers_trackSent (answers_setLine _ _ _ _)) _) _) _

theorem answerFwdS_clean (hf : d.flips = []) (hl : (d.line c g).st = .exclusive ∨ (d.line c g).st = .lead) :
    answers d (d.answerFwdS c g req false false) c g { d.line c g with
      st := .shared
      stored := 0 }
      [⟨g, some (.core c), some req, .data (d.line c g).data false (d.line c g).poison false⟩,
        ⟨g, some (.core c), none, .ack (.fwd false false)⟩] := by
  have h := answers_send (answers_send (answers_setLine d c g { d.line c g with
      st := .shared
      stored := 0 }) ⟨g, some (.core c), some req, .data (d.line c g).data false (d.line c g).poison false⟩)
      ⟨g, some (.core c), none, .ack (.fwd false false)⟩
  unfold Dev.answerFwdS
  dsimp only
  rw [checkLine_of_clean hf]
  obtain hl | hl := hl
  · rw [hl]
    exact h
  · rw [hl]
    exact h

theorem answerFwdS_snapshot (hf : d.flips = []) (hl : (d.line c g).st = .exclusive ∨ (d.line c g).st = .lead ∨ (d.line c g).st = .shared) :
    answers d (d.answerFwdS c g req true false) c g (d.line c g)
      [⟨g, some (.core c), some req, .data (d.line c g).data false (d.line c g).poison false⟩,
        ⟨g, some (.core c), none, .ack (.fwd false false)⟩] := by
  have h := answers_send (answers_send (answers_self d c g)
    ⟨g, some (.core c), some req, .data (d.line c g).data false (d.line c g).poison false⟩)
    ⟨g, some (.core c), none, .ack (.fwd false false)⟩
  unfold Dev.answerFwdS
  dsimp only
  rw [checkLine_of_clean hf]
  obtain hl | hl | hl := hl
  · rw [hl]
    exact h
  · rw [hl]
    exact h
  · rw [hl]
    exact h

theorem answerFwdX_modified (hf : d.flips = []) (hl : (d.line c g).st = .modified) :
    answers d (d.answerFwdX c g req false) c g CLine.none
      ([⟨g, some (.core c), some req, .data (d.line c g).data true (d.line c g).poison false⟩] ++
        (if isPeat g then [⟨g, some (.core c), none, .data (d.line c g).data true (d.line c g).poison false⟩] else []) ++
        [⟨g, some (.core c), none, .ack (.fwd false (isPeat g))⟩]) := by
  have h0 := answers_send (answers_trackSent (answers_setLine d c g CLine.none))
    ⟨g, some (.core c), some req, .data (d.line c g).data true (d.line c g).poison false⟩
  unfold Dev.answerFwdX
  dsimp only
  rw [checkLine_of_clean hf, hl]
  cases hp : isPeat g with
  | true => exact answers_send (answers_send h0 _) _
  | false => exact answers_send h0 _

theorem answerFwdX_clean (hf : d.flips = []) (hl : (d.line c g).st = .exclusive ∨ (d.line c g).st = .lead ∨ (d.line c g).st = .shared) :
    answers d (d.answerFwdX c g req false) c g CLine.none
      [⟨g, some (.core c), some req, .data (d.line c g).data false (d.line c g).poison false⟩,
        ⟨g, some (.core c), none, .ack (.fwd false false)⟩] := by
  have h := answers_send (answers_send (answers_setLine d c g CLine.none)
    ⟨g, some (.core c), some req, .data (d.line c g).data false (d.line c g).poison false⟩)
    ⟨g, some (.core c), none, .ack (.fwd false false)⟩
  unfold Dev.answerFwdX
  dsimp only
  rw [checkLine_of_clean hf]
  obtain hl | hl | hl := hl
  · rw [hl]
    exact h
  · rw [hl]
    exact h
  · rw [hl]
    exact h

theorem answerInv_held (hl : (d.line c g).st ≠ .invalid) :
    answers d (d.answerInv c g) c g CLine.none [⟨g, some (.core c), none, .ack .inv⟩] := by
  unfold Dev.answerInv
  rw [if_pos (bne_iff_ne.2 hl)]
  exact answers_send (answers_setLine d c g CLine.none) _

theorem answer_absent (hf : d.flips = []) (hl : (d.line c g).st = .invalid) (hg : d.ghost c g = none) (hs : d.l2Lost c g = false) :
    d.answerFwdS c g req false false = d.toHome c g .absent ∧ d.answerFwdX c g req false = d.toHome c g .absent ∧
      d.answerInv c g = d.toHome c g .absent := by
  refine ⟨?_, ?_, ?_⟩
  · unfold Dev.answerFwdS
    dsimp only
    rw [checkLine_of_clean hf, hl, hg, hs]
    rfl
  · unfold Dev.answerFwdX
    dsimp only
    rw [checkLine_of_clean hf, hl, hg, hs]
    rfl
  · unfold Dev.answerInv
    rw [hl, hg]
    rfl

end

section
variable {s : State} {c g : Nat} {req : Agent} {l : CLine} {ms : List Msg}

theorem fwds_gives {u : Bool} (hcore : c < 288) (hg : lineOk g = true) (hr : agentOk req = true) (hc : s.dev.clocksOk = true)
    (h : ∀ d, offNet d = offNet s.dev → answers d (d.answerFwdS c g req u false) c g l ms) :
    GivesSome (.fwds c g req u false) s fun t =>
      t.dev.line c g = l ∧ t.dev.net = without s.dev (fun m => toCore c g m && m.body == .fwds req u false) ++ ms := by
  refine onMessage_gives (ok := coreOk c && lineOk g && agentOk req) (p := fun x => toCore c g x && x.body == .fwds req u false)
    (f := fun s => { s with dev := s.dev.answerFwdS c g req u false }) ?_ hc (h _ (offNet_arrive _ _))
  rw [hg, hr, show coreOk c = true from decide_eq_true hcore]
  rfl

theorem fwdx_gives (hcore : c < 288) (hg : lineOk g = true) (hr : agentOk req = true) (hc : s.dev.clocksOk = true)
    (h : ∀ d, offNet d = offNet s.dev → answers d (d.answerFwdX c g req false) c g l ms) :
    GivesSome (.fwdx c g req false) s fun t =>
      t.dev.line c g = l ∧ t.dev.net = without s.dev (fun m => toCore c g m && m.body == .fwdx req false) ++ ms := by
  refine onMessage_gives (ok := coreOk c && lineOk g && agentOk req) (p := fun x => toCore c g x && x.body == .fwdx req false)
    (f := fun s => { s with dev := s.dev.answerFwdX c g req false }) ?_ hc (h _ (offNet_arrive _ _))
  rw [hg, hr, show coreOk c = true from decide_eq_true hcore]
  rfl

theorem inv_gives (hcore : c < 288) (hg : lineOk g = true) (hc : s.dev.clocksOk = true)
    (h : ∀ d, offNet d = offNet s.dev → answers d (d.answerInv c g) c g l ms) :
    GivesSome (.inv c g) s fun t =>
      t.dev.line c g = l ∧ t.dev.net = without s.dev (fun m => toCore c g m && m.body == .inv) ++ ms := by
  refine onMessage_gives (ok := coreOk c && lineOk g) (p := fun x => toCore c g x && x.body == .inv)
    (f := fun s => { s with dev := s.dev.answerInv c g }) ?_ hc (h _ (offNet_arrive _ _))
  rw [hg, show coreOk c = true from decide_eq_true hcore]
  rfl

end

/-- What a holder reads of its line to answer for it. -/
theorem holding_of_offNet {d e : Dev} (h : offNet d = offNet e) (c g : Nat) :
    d.flips = e.flips ∧ d.line c g = e.line c g ∧ d.ghost c g = e.ghost c g ∧ d.l2Lost c g = e.l2Lost c g :=
  ⟨of_offNet Dev.flips (fun _ => rfl) h, of_offNet (fun z => z.line c g) (fun _ => rfl) h,
    of_offNet (fun z => z.ghost c g) (fun _ => rfl) h, of_offNet (fun z => z.l2Lost c g) (fun _ => rfl) h⟩

theorem holdersAnswerForwards_hold : holdersAnswerForwards := by
  intro s c g req hcore hg hr hc hf
  dsimp only
  refine ⟨fun hl => ⟨?_, ?_⟩, fun hl => ?_, fun hl => ⟨?_, ?_⟩, fun hl => ?_, fun hl hgh hls => ⟨?_, ?_, ?_⟩⟩
  · refine fwds_gives hcore hg hr hc fun d hd => ?_
    obtain ⟨h1, h2, -, -⟩ := holding_of_offNet hd c g
    rw [← h2]
    exact answerFwdS_modified (h1.trans hf) (h2 ▸ hl)
  · refine fwdx_gives hcore hg hr hc fun d hd => ?_
    obtain ⟨h1, h2, -, -⟩ := holding_of_offNet hd c g
    rw [← h2]
    exact answerFwdX_modified (h1.trans hf) (h2 ▸ hl)
  · refine fwds_gives hcore hg hr hc fun d hd => ?_
    obtain ⟨h1, h2, -, -⟩ := holding_of_offNet hd c g
    rw [← h2]
    exact answerFwdS_clean (h1.trans hf) (h2 ▸ hl)
  · refine fwds_gives hcore hg hr hc fun d hd => ?_
    obtain ⟨h1, h2, -, -⟩ := holding_of_offNet hd c g
    rw [← h2]
    exact answerFwdS_snapshot (h1.trans hf) (h2 ▸ hl)
  · refine fwdx_gives hcore hg hr hc fun d hd => ?_
    obtain ⟨h1, h2, -, -⟩ := holding_of_offNet hd c g
    rw [← h2]
    exact answerFwdX_clean (h1.trans hf) (h2 ▸ hl)
  · refine inv_gives hcore hg hc fun d hd => ?_
    obtain ⟨-, h2, -, -⟩ := holding_of_offNet hd c g
    exact answerInv_held (h2 ▸ hl)
  · refine fwds_gives hcore hg hr hc fun d hd => ?_
    obtain ⟨h1, h2, h3, h4⟩ := holding_of_offNet hd c g
    rw [(answer_absent (h1.trans hf) (h2 ▸ hl) (h3.trans hgh) (h4.trans hls)).1, ← h2]
    exact answers_send (answers_self d c g) _
  · refine fwdx_gives hcore hg hr hc fun d hd => ?_
    obtain ⟨h1, h2, h3, h4⟩ := holding_of_offNet hd c g
    rw [(answer_absent (h1.trans hf) (h2 ▸ hl) (h3.trans hgh) (h4.trans hls)).2.1, ← h2]
    exact answers_send (answers_self d c g) _
  · refine inv_gives hcore hg hc fun d hd => ?_
    obtain ⟨h1, h2, h3, h4⟩ := holding_of_offNet hd c g
    rw [(answer_absent (req := req) (h1.trans hf) (h2 ▸ hl) (h3.trans hgh) (h4.trans hls)).2.2, ← h2]
    exact answers_send (answers_self d c g) _

/-- Settles O22: the home takes a writeback by comparing it with its entry; a holder answers by the state of its line. -/
theorem writebacksAndForwards : Obligations.WritebacksAndForwards := ⟨writebacks_hold, holdersAnswerForwards_hold⟩

end Sys2Proof.Proofs
end

