-- ==== Sys2Proof/Proofs/Answers.lean ====
section
/-!
PROOFS. Answers at the home (R222, R223, R231, R234, R235), and grants, data and retries at the core (R226, R230, R231).
-/

namespace Sys2Proof.Proofs

open Sys2Proof Sys2Proof.Machine Sys2Proof.Laws

/-! ### Answers at the home -/

theorem advanceTxn_waits {s : State} {g : Nat} {t : Txn} (h : s.dev.txn g = some t) (hr : t.ready = false) :
    s.advanceTxn g = s := by
  unfold State.advanceTxn
  rw [h]
  dsimp only
  rw [hr]
  rfl

/-- A transaction that still waits for others keeps what an answer makes of it. -/
theorem keepsWaiting {s : State} {g : Nat} {d : Dev} {t : Txn} (hr : t.ready = false) :
    (({ s with dev := d.setTxn g (some t) } : State).advanceTxn g).afterClose g = { s with dev := d.setTxn g (some t) } := by
  have h : ({ s with dev := d.setTxn g (some t) } : State).dev.txn g = some t := txn_setTxn d g (some t)
  rw [advanceTxn_waits h hr, afterClose_open h]

theorem ready_of_invs {t : Txn} {b : Agent} {bs : List Agent} (h : t.invs = b :: bs) : t.ready = false := by
  unfold Txn.ready
  rw [h, List.isEmpty_cons, Bool.and_false, Bool.false_and, Bool.false_and]

theorem txn_of_bare {d e : Dev} (h : bare d = bare e) (g : Nat) : d.txn g = e.txn g := of_bare (fun z => z.txn g) (fun _ => rfl) h

theorem fld_setTxn (d : Dev) (g : Nat) (x : Option Txn) (f : Field) : (d.setTxn g x).fld f = d.fld f := rfl

section
variable {s : State} {g : Nat} {a b : Agent} {t : Txn}

theorem ackInvAt_waits (ht : s.dev.txn g = some t) (hi : t.invs = [a, b]) :
    s.ackInvAt g a = { s with dev := s.dev.setTxn g (some { t with invs := [b] }) } := by
  have he : t.invs.erase a = [b] := by rw [hi, List.erase_cons_head]
  unfold State.ackInvAt
  rw [ht]
  dsimp only
  rw [he]
  exact keepsWaiting (ready_of_invs rfl)

theorem ackFwdAt_waits (ht : s.dev.txn g = some t) (hi : t.invs = [b]) (hf : t.fwd = some a) (gh dd : Bool) :
    ∃ d : Dev, bare d = bare s.dev ∧ s.ackFwdAt g a gh dd = { s with
      dev := d.setTxn g (some { t with
        fwd := none
        served := true
        ghost := gh
        want := dd }) } := by
  have hb : bare (if gh = true then s.dev.addSat (sliceReg R.DIR_GHOST_SERVED_COUNT g) 1 else s.dev) = bare s.dev :=
    bare_ite (bare_addSat _ _ _) rfl
  refine ⟨_, hb, ?_⟩
  unfold State.ackFwdAt
  dsimp only
  rw [(txn_of_bare hb g).trans ht]
  dsimp only
  rw [hf, if_pos (beq_self_eq_true _)]
  exact keepsWaiting (ready_of_invs hi)

theorem dataAtHome_waits (ht : s.dev.txn g = some t) (hi : t.invs = [b]) (l : Line) (dirty p : Bool) :
    s.dataAtHome g l dirty p = { s with dev := s.dev.setTxn g (some { t with data := some (l, dirty, p) }) } := by
  unfold State.dataAtHome
  rw [ht]
  exact keepsWaiting (ready_of_invs hi)

/-- Absent from an agent that the home does not forward to. -/
theorem absentAt_sharer (ht : s.dev.txn g = some t) (hst : t.stage = .gather) (hi : t.invs = [a, b]) (hf : t.fwd ≠ some a) :
    ∃ d : Dev, s.absentAt g a = { s with dev := d.setTxn g (some { t with invs := [b] }) } ∧
      d.fld (sliceReg R.DIR_ABSENT_COUNT g) =
        min (s.dev.fld (sliceReg R.DIR_ABSENT_COUNT g) + 1) (2 ^ (sliceReg R.DIR_ABSENT_COUNT g).width - 1) := by
  refine ⟨s.dev.addSat (sliceReg R.DIR_ABSENT_COUNT g) 1, ?_,
    fld_addSat _ _ _ (show R.DIR_ABSENT_COUNT.lo + R.DIR_ABSENT_COUNT.width ≤ 64 by decide)⟩
  have he : t.invs.erase a = [b] := by rw [hi, List.erase_cons_head]
  have hfb : (t.fwd == some a) = false := beq_eq_false_iff_ne.2 hf
  unfold State.absentAt
  dsimp only
  rw [(txn_of_bare (bare_addSat _ _ _) g).trans ht]
  dsimp only
  rw [hst]
  dsimp only
  rw [he, hfb, if_neg (by decide), if_neg (by decide)]
  exact keepsWaiting (ready_of_invs rfl)

/-- Absent from the holder that the home forwards to: its pointer goes. -/
theorem absentAt_holder (ht : s.dev.txn g = some t) (hst : t.stage = .gather) (hi : t.invs = [b]) (hab : b ≠ a)
    (hf : t.fwd = some a) :
    ∃ d : Dev, bare d = bare s.dev ∧
      s.absentAt g a = { s with dev := (d.dropPtr g a).setTxn g (some { t with fwd := none }) } := by
  refine ⟨_, bare_addSat _ (sliceReg R.DIR_ABSENT_COUNT g) 1, ?_⟩
  have he : t.invs.erase a = t.invs := by
    rw [hi]
    exact List.erase_of_not_mem (by simpa using hab.symm)
  unfold State.absentAt
  dsimp only
  rw [(txn_of_bare (bare_addSat _ _ _) g).trans ht]
  dsimp only
  rw [hst]
  dsimp only
  rw [he, hf, if_pos (beq_self_eq_true _), if_pos (beq_self_eq_true _)]
  exact keepsWaiting (ready_of_invs hi)

theorem doneAt_requester {r : Req} (ht : s.dev.txn g = some t) (hk : t.kind = .request a r) (hst : t.stage = .granted) :
    s.doneAt g a = ({ s with dev := s.dev.closeTxn g } : State).pump g := by
  unfold State.doneAt
  rw [ht]
  dsimp only
  rw [hk]
  dsimp only
  rw [hst, beq_self_eq_true a]
  rfl

theorem grant_dir (d : Dev) (g : Nat) (src : Agent) (st : LineState) : (d.grant g src st).dir g = d.dir g := by
  unfold Dev.grant
  dsimp only
  split
  · rfl
  · rfl

theorem mem_grant (d : Dev) (g : Nat) (src : Agent) (st : LineState) :
    ⟨g, none, some src, .ack (.grant st (d.dir g).ownseq)⟩ ∈ (d.grant g src st).net := by
  unfold Dev.grant
  dsimp only
  split
  · exact mem_send _ _
  · exact mem_send _ _

theorem hintAt_target {c : Nat} {rq : Agent} {target : BitVec 16} {mask : BitVec 64} {bytes : Line} (ht : s.dev.txn g = some t)
    (hst : t.stage = .target c) (hk : t.kind = .request rq (.stash target mask bytes)) :
    s.hintAt g (.core c) = { s with dev := (s.dev.ownBy g (.core c)).grant g rq .invalid } := by
  unfold State.hintAt
  rw [ht]
  dsimp only
  rw [hst, hk]
  dsimp only
  rw [if_pos (beq_self_eq_true _)]

end

/-! ### Grants, data and retries at the core -/

section
variable {d : Dev} {c g : Nat} {m : Mshr} {st : LineState} {seq : BitVec 8}

theorem completeRequest_waits (hm : d.mshr c g = some m) (hg : m.grant = none) : d.completeRequest c g = d := by
  unfold Dev.completeRequest
  rw [hm]
  dsimp only
  rw [hg]

theorem completeRequest_fills {l : Line} {p dirty : Bool} (hm : d.mshr c g = some m) (hg : m.grant = some (st, seq))
    (hd : m.data = some (l, p, dirty)) (hst : st ≠ .invalid) (hroom : (d.l2Set c g).length < 16) :
    d.completeRequest c g =
      ((d.fillLine c g (grantedLine st m.key l p seq)).setMshr c g none).toHome c g (.ack .done) := by
  unfold Dev.completeRequest
  rw [hm]
  dsimp only
  rw [hg]
  dsimp only
  rw [if_neg (by simpa using hst), hd]
  dsimp only
  unfold Dev.makeRoom
  rw [decide_eq_true hroom]
  rfl

theorem filled (d : Dev) (c g : Nat) (x : CLine) :
    (((d.fillLine c g x).setMshr c g none).toHome c g (.ack .done)).line c g = x ∧
      (((d.fillLine c g x).setMshr c g none).toHome c g (.ack .done)).mshr c g = none ∧
      (((d.fillLine c g x).setMshr c g none).toHome c g (.ack .done)).net =
        d.net ++ [⟨g, some (.core c), none, .ack .done⟩] := by
  have h : (d.arrayWrite 5 c (64 * g) none allWords).net = d.net :=
    of_atHome Dev.net (fun _ => rfl) (atHome_arrayWrite _ _ _ _ _ _)
  unfold Dev.fillLine
  generalize d.arrayWrite 5 c (64 * g) none allWords = e at *
  exact ⟨line_setLine e c g x, mshr_setMshr (e.setLine c g x) c g none, congrArg (· ++ [_]) h⟩

theorem grantAtCore_fills {l : Line} {p dirty : Bool} (hm : d.mshr c g = some m) (hd : m.data = some (l, p, dirty))
    (hst : st ≠ .invalid) (hroom : (d.l2Set c g).length < 16) (hr : ∀ u, m.req ≠ .rds u true) :
    d.grantAtCore c g st seq =
      (((d.setMshr c g (some { m with grant := some (st, seq) })).fillLine c g
        (grantedLine st m.key l p seq)).setMshr c g none).toHome c g (.ack .done) := by
  unfold Dev.grantAtCore
  rw [hm]
  dsimp only
  split
  · next u hu => exact absurd hu (hr u)
  · exact completeRequest_fills (m := { m with grant := some (st, seq) }) (mshr_setMshr d c g _) rfl hd hst hroom

theorem dataAtCore_waits (hm : d.mshr c g = some m) (hg : m.grant = none) (l : Line) (dirty p : Bool) :
    d.dataAtCore c g l dirty p false = d.setMshr c g (some { m with data := some (l, p, dirty) }) := by
  unfold Dev.dataAtCore
  rw [if_neg (by decide), hm]
  exact completeRequest_waits (mshr_setMshr _ _ _ _) hg

end

theorem message_gives {ok : Bool} {p : Msg → Bool} {f : State → State} {s : State} {P : State → Prop} (hok : ok = true)
    (hc : s.dev.clocksOk = true) (h : ∀ u : State, offNet u.dev = offNet s.dev → P (f u)) : ∃ t, onMessage ok p f s = .next t ∧ P t :=
  onMessage_gives hok hc (h _ (offNet_arrive s.dev p))

section
variable {s : State} {g : Nat} {a : Agent} {b : MsgBody} {f : State → State} {P : State → Prop}

/-- An answer reaches a line's home. -/
theorem home_gives {c : Instr} (hc : exec c s = onMessage (lineOk g && agentOk a) (toHomeIs g a b) f s) (hg : lineOk g = true)
    (ha : agentOk a = true) (hck : s.dev.clocksOk = true)
    (h : ∀ u : State, offNet u.dev = offNet s.dev → P (f u)) : GivesSome c s P := by
  have hok : (lineOk g && agentOk a) = true := by
    rw [hg, ha]
    rfl
  obtain ⟨t, ht, hP⟩ := onMessage_gives (p := toHomeIs g a b) (f := f) hok hck (h { s with dev := s.dev.arrive (toHomeIs g a b) } rfl)
  exact ⟨t, hc.trans ht, hP⟩

end

theorem answersReachTheHome_hold : answersReachTheHome := by
  intro s g a b t hg ha hc ht
  have read (u : State) (hu : offNet u.dev = offNet s.dev) : u.dev.txn g = some t ∧ u.dev.dir g = s.dev.dir g :=
    ⟨(entry_of_offNet hu g).1.trans ht, (entry_of_offNet hu g).2.2⟩
  dsimp only
  refine ⟨fun hst hi => ?_, fun hst hi hf gh dd => ?_, fun hst hi bytes dirty p => ?_, fun hst hi hf => ?_,
    fun hst hi hab hf hds hdp => ?_, fun r hk hst hq => ?_, fun c rq target mask bytes hac hst hk => ?_⟩
  · refine home_gives (execAckInv.eq_def ..) hg ha hc fun u hu => ?_
    obtain ⟨h1, h2⟩ := read u hu
    rw [ackInvAt_waits h1 hi]
    exact ⟨txn_setTxn _ _ _, h2⟩
  · refine home_gives (execAckFwd.eq_def ..) hg ha hc fun u hu => ?_
    obtain ⟨h1, h2⟩ := read u hu
    obtain ⟨d, hb, h⟩ := ackFwdAt_waits h1 hi hf gh dd
    rw [h]
    exact ⟨txn_setTxn _ _ _, (of_bare (fun z => z.dir g) (fun _ => rfl) hb).trans h2⟩
  · refine message_gives (ok := lineOk g && agentOk a && true) (p := fun x => x.g == g && x.dst == none && (match x.body with
      | .data _ _ _ t' => t' == false
      | _ => false)) (f := fun s => s.dataAtHome g bytes dirty p) ?_ hc fun u hu => ?_
    · rw [hg, ha]
      rfl
    · obtain ⟨h1, h2⟩ := read u hu
      rw [dataAtHome_waits h1 hi]
      exact ⟨txn_setTxn _ _ _, h2⟩
  · refine home_gives (execAbsent.eq_def ..) hg ha hc fun u hu => ?_
    obtain ⟨h1, h2⟩ := read u hu
    have h3 : u.dev.fld (sliceReg R.DIR_ABSENT_COUNT g) = s.dev.fld (sliceReg R.DIR_ABSENT_COUNT g) :=
      of_offNet (fun z => z.fld (sliceReg R.DIR_ABSENT_COUNT g)) (fun _ => rfl) hu
    obtain ⟨d, h, h4⟩ := absentAt_sharer h1 hst hi hf
    rw [h3] at h4
    rw [h]
    exact ⟨txn_setTxn _ _ _, (fld_setTxn _ _ _ _).trans h4⟩
  · refine home_gives (execAbsent.eq_def ..) hg ha hc fun u hu => ?_
    obtain ⟨h1, h2⟩ := read u hu
    obtain ⟨d, hb, h⟩ := absentAt_holder h1 hst hi hab hf
    have h3 : d.dir g = s.dev.dir g := (of_bare (fun z => z.dir g) (fun _ => rfl) hb).trans h2
    rw [h]
    obtain ⟨lead, hp⟩ := dropPtr_pair (h3 ▸ hds) (h3 ▸ hdp) hab
    rw [hp]
    exact ⟨txn_setTxn _ _ _, congrArg Dir.ptrs (dir_setDir _ _ _)⟩
  · refine home_gives (execAckDone.eq_def ..) hg ha hc fun u hu => ?_
    obtain ⟨h1, h2⟩ := read u hu
    rw [doneAt_requester h1 hk hst]
    have hz := (pump_idle (s := { u with dev := u.dev.closeTxn g }) (g := g)
      ((closeTxn_sliceQ _ _).trans ((entry_of_offNet hu g).2.1.trans hq))).1
    have hdir := (of_unqueued (fun z => z.dir g) (fun _ => rfl) hz).trans ((closeTxn_dir _ _).trans (congrArg closedDir h2))
    exact ⟨(of_unqueued (fun z => z.txn g) (fun _ => rfl) hz).trans (closeTxn_txn _ _),
      (congrArg Dir.held hdir).trans (closedDir_held _), (congrArg Dir.ptrs hdir).trans (closedDir_ptrs _)⟩
  · subst hac
    refine home_gives (execAckHint.eq_def ..) hg ha hc fun u hu => ?_
    obtain ⟨h1, h2⟩ := read u hu
    have ho := dir_setDir u.dev g { u.dev.dir g with
      st := .owned
      remote := false
      lead := 3
      ptrs := [.core c]
      ownseq := (u.dev.dir g).ownseq + 1 }
    have hm := mem_grant (u.dev.ownBy g (.core c)) g rq .invalid
    have hd := (grant_dir (u.dev.ownBy g (.core c)) g rq .invalid).trans ho
    have hq : ((u.dev.ownBy g (.core c)).dir g).ownseq = (s.dev.dir g).ownseq + 1 :=
      (congrArg Dir.ownseq ho).trans (congrArg (fun e : Dir => e.ownseq + 1) h2)
    rw [hintAt_target h1 hst hk]
    rw [hq] at hm
    exact ⟨congrArg Dir.st hd, congrArg Dir.ptrs hd, (congrArg Dir.ownseq hd).trans (congrArg (fun e : Dir => e.ownseq + 1) h2), hm⟩

/-- What Retry makes of a core's request. -/
def retryAt (s : State) (c g : Nat) : State :=
  match s.dev.mshr c g with
  | none => s
  | some m =>
    { s with dev := s.dev.setMshr c g (some { m with
        retries := m.retries + 1
        starved := m.starved || decide (Nat.max 1 (s.dev.fld (sliceReg R.DIR_CTL_STARVE_AFTER g)) ≤ m.retries + 1) }) }

theorem retryAt_asks {s : State} {c g : Nat} {m : Mshr} (h : s.dev.mshr c g = some m) :
    retryAt s c g = { s with dev := s.dev.setMshr c g (some { m with
        retries := m.retries + 1
        starved := m.starved || decide (Nat.max 1 (s.dev.fld (sliceReg R.DIR_CTL_STARVE_AFTER g)) ≤ m.retries + 1) }) } := by
  unfold retryAt
  rw [h]

theorem grantsReachTheCore_hold : grantsReachTheCore := by
  intro s c g st seq m hcore hg hc hm
  have hok : (coreOk c && lineOk g) = true := by
    rw [hg, show coreOk c = true from decide_eq_true hcore]
    rfl
  dsimp only
  refine ⟨fun l p dirty hd hst hroom hr => ?_, fun hgr src bytes dirty p ha => ?_, ?_, fun hn hgr hnet => ?_⟩
  · refine onMessage_gives (ok := coreOk c && lineOk g) (p := fun x => toCore c g x && x.body == .ack (.grant st seq))
      (f := fun s => { s with dev := s.dev.grantAtCore c g st seq }) hok hc ?_
    have h := grantAtCore_fills (d := s.dev.arrive fun x => toCore c g x && x.body == .ack (.grant st seq)) (seq := seq) hm hd hst hroom hr
    have hf := filled ((s.dev.arrive fun x => toCore c g x && x.body == .ack (.grant st seq)).setMshr c g
      (some { m with grant := some (st, seq) })) c g (grantedLine st m.key l p seq)
    rw [← h] at hf
    exact hf
  · refine message_gives (ok := lineOk g && agentOk src && coreOk c) (p := fun x => x.g == g && x.dst == some (.core c) && (match x.body with
      | .data _ _ _ t' => t' == false
      | _ => false)) (f := fun s => { s with dev := s.dev.dataAtCore c g bytes dirty p false }) ?_ hc fun u hu => ?_
    · rw [hg, ha, show coreOk c = true from decide_eq_true hcore]
      rfl
    · have h := dataAtCore_waits ((of_offNet (fun z => z.mshr c g) (fun _ => rfl) hu).trans hm) hgr bytes dirty p
      dsimp only
      rw [h]
      exact ⟨mshr_setMshr _ _ _ _, (of_offNet Dev.l2 (fun _ => rfl) hu : u.dev.l2 = s.dev.l2)⟩
  · refine message_gives (ok := coreOk c && lineOk g) (p := fun x => toCore c g x && x.body == .retry)
      (f := fun s => retryAt s c g) hok hc fun u hu => ?_
    have h : u.dev.fld (sliceReg R.DIR_CTL_STARVE_AFTER g) = s.dev.fld (sliceReg R.DIR_CTL_STARVE_AFTER g) :=
      of_offNet (fun z => z.fld (sliceReg R.DIR_CTL_STARVE_AFTER g)) (fun _ => rfl) hu
    rw [retryAt_asks ((of_offNet (fun z => z.mshr c g) (fun _ => rfl) hu).trans hm), h]
    exact mshr_setMshr _ _ _ _
  · refine (execRequestResend.eq_def ..).trans ?_
    have hn : (m.retries == 0 || m.grant.isSome || s.dev.net.any (isRequest g (.core c) m.req)) = false := by
      rw [hgr, beq_eq_false_iff_ne.2 hn, List.any_eq_false.2 fun x hx => by rw [hnet x hx]; decide]
      rfl
    unfold onData
    rw [hok, hc]
    dsimp only
    rw [hm]
    dsimp only
    rw [hn]
    rfl

/-- Settles O23: a transaction takes what arrives and goes on when nothing is missing; a core's request is complete with its
grant and its data. -/
theorem answersAndGrants : Obligations.AnswersAndGrants := ⟨answersReachTheHome_hold, grantsReachTheCore_hold⟩

end Sys2Proof.Proofs
end

