-- ==== Sys2Proof/Proofs/RefillsAndQueue.lean ====
section
/-!
PROOFS. Software refills (R181, R182) and the invalidation queue of the I/O translation (R193).
-/

namespace Sys2Proof.Proofs

open Sys2Proof Sys2Proof.Machine Sys2Proof.Laws

/-! ### Refills -/

section
variable {d : Dev} {i : Nat}

theorem refillAt_eq (d : Dev) (f : Field) (i : Nat) :
    d.refillAt f i = f.at (0x10000 * (d.phys (i / 2) / 2) + 0x800 * (d.phys (i / 2) % 2) + 0x100 * (i % 2)) := by
  unfold Dev.refillAt tileAt Field.at
  dsimp only
  rw [Nat.add_assoc]

theorem phys_setReg {off : Nat} (w : Word) (hi : i < 512) (ho : 0x400D000 ≤ off) : (d.setReg off w).phys (i / 2) = d.phys (i / 2) := by
  have h : (R.CORE_MAP_PHYS.at (8 * (i / 2))).reg ≠ off := by
    show 0x1000 + 8 * (i / 2) ≠ off
    omega
  exact congrArg (R.CORE_MAP_PHYS.at (8 * (i / 2))).get (reg_setReg_other d off _ w h)

theorem refillAt_setReg {off : Nat} (w : Word) (f : Field) (hi : i < 512) (ho : 0x400D000 ≤ off) :
    (d.setReg off w).refillAt f i = d.refillAt f i := by
  unfold Dev.refillAt
  rw [phys_setReg w hi ho]

end

theorem tlbOf_setTlb (d : Dev) (c : Nat) (t : List TlbEntry) : (d.setTlb c t).tlbOf c = t := smap_get_set_same _ _ _ _

/-- The result code of an install, and what an install that succeeds leaves. -/
def installs (s : State) (i : Nat) (v : Word) (e : Dev) : Prop :=
  let d := s.dev
  let x := s.strand i
  let c := d.phys (i / 2)
  let w := d.reg (d.refillAt R.REFILL_ENTRY_ENTRY i).reg
  let a := (d.reg (d.refillAt R.REFILL_VA_ADDR i).reg).toNat
  let r := installCheck x (getF v 1 1) (getF v 2 2) w
  e.fld (d.refillAt R.REFILL_STATUS_RESULT i) = r ∧
    e.tlbOf c = if r = 0 then
      (if getF v 1 1 = 0 then .s1 x.asid.toNat x.vmid.toNat (a / pageSize (getF v 2 2)) (getF v 2 2) w (if bitOf v 4 then some (i % 2, getF v 5 3) else none)
        else .s2 x.vmid.toNat (a / pageSize (getF v 2 2)) (getF v 2 2) w (if bitOf v 4 then some (i % 2, getF v 5 3) else none)) ::
        (d.tlbOf c).filter (fun u => !(bitOf v 4 && u.pinnedAt (i % 2) (getF v 5 3)))
    else d.tlbOf c

theorem installCheck_lt (x : Strand) (stage level : Nat) (e : Word) : installCheck x stage level e < 8 := by
  unfold installCheck
  repeat' split
  all_goals decide

theorem refillCtlWrite_installs {s : State} {i : Nat} {v : Word} (hi : i < 512) (hgo : bitOf v 0 = true) :
    installs s i v (s.refillCtlWrite (.strand i) i v).dev := by
  have hreg (f : Field) : (s.dev.refillAt f i).reg =
      f.reg + (0x10000 * (s.dev.phys (i / 2) / 2) + 0x800 * (s.dev.phys (i / 2) % 2) + 0x100 * (i % 2)) := by
    rw [refillAt_eq]
    rfl
  let w := word (getF v 1 7 * 2)
  obtain ⟨z, hz⟩ : ∃ z, z = s.dev.setReg (s.dev.refillAt R.REFILL_CTL_GO i).reg w := ⟨_, rfl⟩
  have hp : z.phys (i / 2) = s.dev.phys (i / 2) := hz ▸ phys_setReg w hi (by rw [hreg]; exact Nat.le_add_right_of_le (by decide))
  have hr (f : Field) : z.refillAt f i = s.dev.refillAt f i := by
    unfold Dev.refillAt
    rw [hp]
  have hne (f : Field) (hf : f.reg ≠ R.REFILL_CTL_GO.reg) : z.reg (s.dev.refillAt f i).reg = s.dev.reg (s.dev.refillAt f i).reg := by
    rw [hz]
    refine reg_setReg_other _ _ _ _ ?_
    rw [hreg, hreg]
    omega
  have ht : z.tlb = s.dev.tlb := hz ▸ rfl
  have hstat : 0x400D000 ≤ (s.dev.refillAt R.REFILL_STATUS_RESULT i).reg := by
    rw [hreg]
    exact Nat.le_add_right_of_le (by decide)
  unfold State.refillCtlWrite
  dsimp only
  rw [if_neg (by simp), ← hz, if_pos hgo]
  dsimp only
  rw [hr, hr, hr, hne _ (by decide), hne _ (by decide)]
  have hlt := installCheck_lt (s.strand i) (getF v 1 1) (getF v 2 2) (s.dev.reg (s.dev.refillAt R.REFILL_ENTRY_ENTRY i).reg)
  unfold installs
  dsimp only
  generalize installCheck (s.strand i) (getF v 1 1) (getF v 2 2) (s.dev.reg (s.dev.refillAt R.REFILL_ENTRY_ENTRY i).reg) = r at *
  have hres : (z.setFld (s.dev.refillAt R.REFILL_STATUS_RESULT i) r).fld (s.dev.refillAt R.REFILL_STATUS_RESULT i) = r :=
    (fld_setFld_same z (s.dev.refillAt R.REFILL_STATUS_RESULT i) r
      (show R.REFILL_STATUS_RESULT.lo + R.REFILL_STATUS_RESULT.width ≤ 64 by decide)).trans (Nat.mod_eq_of_lt hlt)
  have hp2 : (z.setFld (s.dev.refillAt R.REFILL_STATUS_RESULT i) r).phys (i / 2) = s.dev.phys (i / 2) :=
    (phys_setReg _ hi hstat).trans hp
  have ht2 : (z.setFld (s.dev.refillAt R.REFILL_STATUS_RESULT i) r).tlb = s.dev.tlb := ht
  generalize z.setFld (s.dev.refillAt R.REFILL_STATUS_RESULT i) r = y at *
  have hy (c : Nat) : y.tlbOf c = s.dev.tlbOf c := congrArg (fun m => SMap.get (fun _ => []) m c) ht2
  by_cases h0 : r = 0
  · rw [if_pos (beq_iff_eq.2 h0), if_pos h0]
    refine ⟨hres, ?_⟩
    unfold Dev.installLeaf
    dsimp only
    rw [hp2, hy]
    rw [tlbOf_setTlb]
    by_cases h1 : getF v 1 1 = 0
    · rw [if_pos h1, if_pos (beq_iff_eq.2 h1)]
    · rw [if_neg h1, if_neg (by simpa using h1)]
  · rw [if_neg (by simpa using h0), if_neg h0]
    exact ⟨hres, hy _⟩

theorem installCheck_eq (x : Strand) (stage level : Nat) (e : Word) :
    installCheck x stage level e =
      if stage = 1 ∧ x.pl ≠ 2 then 1 else if level = 3 then 3 else if decodeEntry e level = .leaf then 0 else 2 := by
  unfold installCheck
  simp only [Bool.and_eq_true, beq_iff_eq, bne_iff_ne]

theorem refillInstallsLeaves_hold : refillInstallsLeaves := by
  intro s i v hi
  dsimp only
  refine ⟨fun hgo => ?_, fun j hj hj' => ?_⟩
  · have hok : (reqOk (.strand i) && strandOk i) = true := by
      rw [show strandOk i = true from decide_eq_true hi, show reqOk (.strand i) = true from decide_eq_true hi]
      rfl
    refine ⟨s.refillCtlWrite (.strand i) i v, ?_, ?_⟩
    · refine (execRefillInstall.eq_def ..).trans ?_
      rw [hok]
      rfl
    obtain ⟨hres, htlb⟩ := refillCtlWrite_installs (s := s) (v := v) hi ((bitOf_eq_getLsbD _ _).trans hgo)
    rw [installCheck_eq] at hres htlb
    rw [refillAt_eq, refillAt_eq, getF_eq_extract, getF_eq_extract] at hres
    rw [refillAt_eq, refillAt_eq, getF_eq_extract, getF_eq_extract] at htlb
    rw [bitOf_eq_getLsbD] at htlb
    refine ⟨hres, fun h0 h4 h1 => ?_, fun h0 h4 h1 => ?_, fun h0 => ?_⟩
    · rw [if_pos h0, if_pos h1, h4] at htlb
      exact ⟨_, htlb⟩
    · rw [if_pos h0, if_neg (by rw [h1]; decide), h4] at htlb
      exact ⟨_, htlb⟩
    · rw [if_neg h0] at htlb
      exact htlb
  · have hok : (reqOk (.strand j) && strandOk i) = true := by
      rw [show strandOk i = true from decide_eq_true hi, show reqOk (.strand j) = true from decide_eq_true hj']
      rfl
    refine (execRefillInstall.eq_def ..).trans ?_
    rw [hok]
    have h : s.refillCtlWrite (.strand j) i v = s := if_pos (by simpa using hj)
    rw [h]
    rfl

/-! ### The invalidation queue -/

section
variable {s : State} {c : Instr} {op : Nat} {f : Word → Word → Dev → Dev}

theorem ioqRun_valid {d : Dev} {w0 w1 : Word} {d' : Dev} (hr : d.ioqRuns = true) (hc : d.ioqCommand = ((w0, w1), d'))
    (hv : ioqValid w0 w1 = true) (ho : getF w0 0 8 = op) : d.ioqRun op f = (f w0 w1 d').ioqAdvance := by
  unfold Dev.ioqRun
  rw [hr, hc]
  dsimp only
  rw [hv, ho, bne_self_eq_false]
  rfl

theorem ioqRun_invalid {d : Dev} {w0 w1 : Word} {d' : Dev} (hr : d.ioqRuns = true) (hc : d.ioqCommand = ((w0, w1), d'))
    (hv : ioqValid w0 w1 = false) : d.ioqRun op f = d'.setFld R.IOIQ_HEAD_ERR 1 := by
  unfold Dev.ioqRun
  rw [hr, hc]
  dsimp only
  rw [hv]
  rfl

theorem ioqCompletes_of {g : Word → Word → Dev → Dev} (hc : exec c s = onDev true s fun d => d.ioqRun op f)
    (hfg : ∀ w0 w1 d, f w0 w1 d = g w0 w1 d) : ioqCompletes c s op g := by
  intro w0 w1 d' hr hcmd hv ho
  refine hc.trans ?_
  have h := ioqRun_valid (f := f) hr hcmd hv ((getF_eq_extract _ _ _).trans ho)
  unfold onDev
  dsimp only
  rw [h, hfg]
  rfl

end

theorem flag_of_fld {d : Dev} {f : Field} {x : Nat} (h : d.fld f = x) (hx : x ≠ 0) : d.flag f = true := by
  unfold Dev.flag
  rw [h]
  exact bne_iff_ne.2 hx

/-! ### IOIQ_BASE -/

theorem rise_same {old d : Dev} (h0 : d.lineHigh 0 = old.lineHigh 0) (h1 : d.lineHigh 1 = old.lineHigh 1) : Dev.rise old d = d := by
  unfold Dev.rise
  dsimp only
  rw [h0, h1, Bool.and_not_self, Bool.and_not_self]
  rfl

/-- The event lines follow four registers alone. -/
theorem lineHigh_setReg (d : Dev) {off : Nat} (v : Word)
    (h : ∀ r ∈ [R.TICK_EVENT_LOST.reg, R.TICK_EVENT_EN_BITS.reg, R.ERR_EVENT_RECORD.reg, R.ERR_EVENT_EN_BITS.reg], r ≠ off) (e : Nat) :
    (d.setReg off v).lineHigh e = d.lineHigh e := by
  unfold Dev.lineHigh
  rw [reg_setReg_other _ _ _ _ (h _ (by simp)), reg_setReg_other _ _ _ _ (h _ (by simp)), reg_setReg_other _ _ _ _ (h _ (by simp)),
    reg_setReg_other _ _ _ _ (h _ (by simp))]

theorem regAt_ioiqBase : regAt R.IOIQ_BASE_EN.reg = some ⟨0x3008, [], [⟨R.IOIQ_BASE_EN, .rw, 0, false, false⟩,
    ⟨R.IOIQ_BASE_SIZE, .rw, 0, false, false⟩, ⟨R.IOIQ_BASE_BASE, .rw, 0, false, false⟩]⟩ := by rfl

theorem writeReg_ioiqBase (d : Dev) (v : Word) : (d.writeReg R.IOIQ_BASE_EN.reg v).fld R.IOIQ_BASE_EN = getF v 0 1 := by
  have h : d.writeReg R.IOIQ_BASE_EN.reg v = d.setReg R.IOIQ_BASE_EN.reg
      (putF (putF (putF (d.reg R.IOIQ_BASE_EN.reg) 0 1 (getF v 0 1)) 1 3 (getF v 1 3)) 12 40 (getF v 12 40)) := by
    unfold Dev.writeReg
    rw [regAt_ioiqBase]
    exact rise_same (lineHigh_setReg _ _ (by decide) _) (lineHigh_setReg _ _ (by decide) _)
  unfold Dev.fld Field.get
  rw [h, reg_setReg_same]
  show getF _ 0 1 = _
  rw [getF_putF_below _ _ _ _ _ _ (by decide) (by decide), getF_putF_below _ _ _ _ _ _ (by decide) (by decide),
    getF_putF_same _ _ _ _ (by decide)]
  exact Nat.mod_eq_of_lt (getF_lt _ _ _)

theorem ioqBaseWrite_starts {d : Dev} {v : Word} (he : d.flag R.IOIQ_BASE_EN = false) (hv : v.getLsbD 0 = true) :
    (d.ioqBaseWrite v).flag R.IOIQ_BASE_EN = true ∧ (d.ioqBaseWrite v).fld R.IOIQ_HEAD_INDEX = 0 := by
  have hb : bitOf v 0 = true := (bitOf_eq_getLsbD _ _).trans hv
  have h1 : getF v 0 1 = 1 := by
    have h := getF_bit v 0
    rw [hv, beq_iff_eq] at h
    have := getF_lt v 0 1
    omega
  have h : d.ioqBaseWrite v = ((d.writeReg R.IOIQ_BASE_EN.reg v).setFld R.IOIQ_HEAD_INDEX 0).ioqIdle := by
    unfold Dev.ioqBaseWrite
    dsimp only
    rw [he, hb]
    rfl
  have hw := writeReg_ioiqBase d v
  rw [h]
  unfold Dev.ioqIdle
  generalize d.writeReg R.IOIQ_BASE_EN.reg v = e at *
  generalize bnat _ = b
  refine ⟨flag_of_fld (x := 1) ?_ (by decide), ?_⟩
  · rw [fld_setFld_reg _ _ _ _ (by decide), fld_setFld_reg _ _ _ _ (by decide), hw, h1]
  · rw [fld_setFld_apart _ _ _ _ (by decide) (by decide), fld_setFld_same _ _ _ (by decide), Nat.zero_mod]

theorem invalidationQueue_hold : invalidationQueue := by
  intro s
  dsimp only
  refine ⟨ioqCompletes_of (execInvDt.eq_def ..) fun w0 w1 d => ?_, ioqCompletes_of (execInvRid.eq_def ..) fun w0 w1 d => ?_,
    ioqCompletes_of (execInvVa.eq_def ..) fun w0 w1 d => ?_, ioqCompletes_of (execInvIpa.eq_def ..) fun w0 w1 d => ?_,
    ioqCompletes_of (execInvVmid.eq_def ..) fun w0 w1 d => ?_, ioqCompletes_of (execInvAll.eq_def ..) fun w0 w1 d => ?_,
    ioqCompletes_of (execIoiqWait.eq_def ..) fun w0 w1 d => ?_, fun w0 w1 d' hr hcmd hv c hc => ?_, fun req v hreq => ⟨fun he hv => ?_, fun he => ?_⟩⟩
  · rw [getF_eq_extract]
  · unfold Dev.ioDrop
    rw [getF_eq_extract]
  · unfold Dev.ioDrop
    rw [getF_eq_extract, getF_eq_extract]
  · unfold Dev.ioDrop
    rw [getF_eq_extract]
  · unfold Dev.ioDrop
    rw [getF_eq_extract]
  · unfold Dev.ioDrop
    dsimp only
    rw [List.filter_eq_nil_iff.2 (by simp)]
  · rw [getF_eq_extract]
  · have runs (op : Nat) (f : Word → Word → Dev → Dev) (hx : exec c s = onDev true s fun d => d.ioqRun op f) :
        Makes c s (d'.setFld R.IOIQ_HEAD_ERR 1) :=
      hx.trans (congrArg (fun d => Host.Outcome.next ({ s with dev := d } : State)) (ioqRun_invalid hr hcmd hv))
    simp only [List.mem_cons, List.not_mem_nil, or_false] at hc
    obtain rfl | rfl | rfl | rfl | rfl | rfl | rfl := hc
    · exact runs _ _ (execInvDt.eq_def ..)
    · exact runs _ _ (execInvRid.eq_def ..)
    · exact runs _ _ (execInvVa.eq_def ..)
    · exact runs _ _ (execInvIpa.eq_def ..)
    · exact runs _ _ (execInvVmid.eq_def ..)
    · exact runs _ _ (execInvAll.eq_def ..)
    · exact runs _ _ (execIoiqWait.eq_def ..)
  · exact ⟨_, (execIoiqEnable.eq_def ..).trans (if_pos hreq), ioqBaseWrite_starts he hv⟩
  · refine (execIoiqEnable.eq_def ..).trans ((if_pos hreq).trans ?_)
    have h : s.dev.ioqBaseWrite v = s.dev.setFld R.IOIQ_BASE_EN (v.extractLsb' 0 1).toNat := by
      rw [← getF_eq_extract]
      exact if_pos he
    dsimp only
    rw [h]

/-- Settles O25: an install by the strand itself, and each command of the I/O invalidation queue. -/
theorem refillsAndInvalidations : Obligations.RefillsAndInvalidations := ⟨refillInstallsLeaves_hold, invalidationQueue_hold⟩

end Sys2Proof.Proofs
end

