-- ==== Sys2Proof/Proofs/ReportRegisters.lean ====
section
/-!
PROOFS. The registers that a report writes: those of the error ring, the event lines, the router's drops and the pending bits
(R344 to R351, R466, R474).
-/

namespace Sys2Proof.Proofs

open Sys2Proof Sys2Proof.Machine Sys2Proof.Laws

/-- Whether a report may write the register at an offset. -/
def reported (off : Nat) : Bool :=
  [R.ERR_STATUS_FAULT.reg, R.ERR_HEAD_INDEX.reg, R.ERR_TAIL_INDEX.reg, R.ERR_EVENT_RECORD.reg, R.IR_DROP_INVALID.reg].contains off ||
    (R.PEND_BITS.reg ≤ off && off < R.PEND_BITS.reg + 0x20000)

/-- The registers that no report writes stand. -/
def keepsRegs (d e : Dev) : Prop := ∀ off, reported off = false → e.reg off = d.reg off

theorem keepsRegs_refl (d : Dev) : keepsRegs d d := fun _ _ => rfl

theorem keepsRegs_of_regs {d e x : Dev} (h : keepsRegs d e) (hr : x.regs = e.regs) : keepsRegs d x := fun off ho =>
  (congrArg (fun m => SMap.get coldValue m off) hr).trans (h off ho)

theorem keepsRegs_trans {d e f : Dev} (h : keepsRegs d e) (k : keepsRegs e f) : keepsRegs d f := fun off ho =>
  (k off ho).trans (h off ho)

theorem keepsRegs_ite {p : Prop} [Decidable p] {d a b : Dev} (ha : keepsRegs d a) (hb : keepsRegs d b) :
    keepsRegs d (if p then a else b) := by
  split
  · exact ha
  · exact hb

theorem keepsRegs_setReg {d e : Dev} {off : Nat} (v : Word) (ho : reported off = true) (h : keepsRegs d e) :
    keepsRegs d (e.setReg off v) := fun k hk => by
  rw [reg_setReg_other _ _ _ _ (fun hkk => by rw [hkk, ho] at hk; cases hk)]
  exact h k hk

theorem keepsRegs_setFld {d e : Dev} (f : Field) (x : Nat) (ho : reported f.reg = true) (h : keepsRegs d e) :
    keepsRegs d (e.setFld f x) := keepsRegs_setReg _ ho h

theorem keepsRegs_addSat {d e : Dev} (f : Field) (n : Nat) (ho : reported f.reg = true) (h : keepsRegs d e) :
    keepsRegs d (e.addSat f n) := keepsRegs_setReg _ ho h

theorem keepsRegs_setPend {d e : Dev} {i v : Nat} (hi : i < 512) (hv : v < 1024) (h : keepsRegs d e) : keepsRegs d (e.setPend i v) := by
  refine keepsRegs_setReg _ ?_ h
  unfold reported
  have h1 : R.PEND_BITS.reg ≤ R.PEND_BITS.reg + 0x100 * i + 8 * (v / 64) := by omega
  have h2 : R.PEND_BITS.reg + 0x100 * i + 8 * (v / 64) < R.PEND_BITS.reg + 0x20000 := by omega
  rw [decide_eq_true h1, decide_eq_true h2, Bool.and_self, Bool.or_true]

theorem keepsRegs_deliver {d e : Dev} (target v : Nat) (h : keepsRegs d e) : keepsRegs d (e.deliver target v) := by
  unfold Dev.deliver
  exact keepsRegs_ite (keepsRegs_addSat _ _ (by decide) h) (keepsRegs_ite (keepsRegs_ite h (keepsRegs_addSat _ _ (by decide) h))
    (keepsRegs_ite (keepsRegs_setPend (Nat.mod_lt _ (by decide)) (Nat.mod_lt _ (by decide)) h) (keepsRegs_addSat _ _ (by decide) h)))

theorem keepsRegs_routeEvent {d e : Dev} (n : Nat) (h : keepsRegs d e) : keepsRegs d (e.routeEvent n) :=
  keepsRegs_ite (keepsRegs_deliver _ _ h) h

theorem keepsRegs_rise {d e : Dev} (old : Dev) (h : keepsRegs d e) : keepsRegs d (Dev.rise old e) :=
  keepsRegs_ite (keepsRegs_routeEvent _ (keepsRegs_ite (keepsRegs_routeEvent _ h) h)) (keepsRegs_ite (keepsRegs_routeEvent _ h) h)

theorem keepsRegs_errEventNow {d e : Dev} (bits : Nat) (h : keepsRegs d e) : keepsRegs d (e.errEventNow bits) :=
  keepsRegs_rise _ (keepsRegs_setReg _ (by decide) h)

theorem keepsRegs_errEvent {d e : Dev} (bits : Nat) (h : keepsRegs d e) : keepsRegs d (e.errEvent bits) :=
  keepsRegs_ite (keepsRegs_errEventNow _ h) (keepsRegs_of_regs h rfl)

theorem keepsRegs_faultIf {d e : Dev} (b : Bool) (h : keepsRegs d e) : keepsRegs d (e.faultIf b) :=
  keepsRegs_ite (keepsRegs_of_regs (keepsRegs_setFld R.ERR_STATUS_FAULT 1 (by decide) h) rfl) h

theorem keepsRegs_bmcEvent {d e : Dev} (kind n : Nat) (h : keepsRegs d e) : keepsRegs d (e.bmcEvent kind n) :=
  keepsRegs_ite h (keepsRegs_of_regs h rfl)

theorem keepsRegs_appendRecord (d : Dev) (r : Rep) : keepsRegs d (d.appendRecord r) := by
  unfold Dev.appendRecord
  dsimp only
  refine keepsRegs_errEvent _ (keepsRegs_faultIf _ ?_)
  have h (e : Dev) (n : Nat) (b : Bool) (he : keepsRegs d e) :
      keepsRegs d (((if b = true then (e.setFld R.ERR_TAIL_INDEX (e.fld R.ERR_TAIL_INDEX + 1)).addSat R.ERR_STATUS_LOST 1
        else e).setFld R.ERR_HEAD_INDEX n).addWrap R.ERR_HEAD_TOTAL 1) :=
    keepsRegs_setFld _ _ (by decide) (keepsRegs_setFld _ _ (by decide)
      (keepsRegs_ite (keepsRegs_addSat _ _ (by decide) (keepsRegs_setFld _ _ (by decide) he)) he))
  have h0 (m : SMap (Option Record)) : keepsRegs d { d with ring := m } := keepsRegs_of_regs (keepsRegs_refl d) rfl
  exact keepsRegs_ite (keepsRegs_bmcEvent _ _ (keepsRegs_setFld _ _ (by decide) (h _ _ _ (h0 _))))
    (keepsRegs_setFld _ _ (by decide) (h _ _ _ (h0 _)))

theorem keepsRegs_log (d : Dev) (r : Rep) : keepsRegs d (d.log r) := by
  unfold Dev.log Dev.record
  dsimp only
  split
  · split
    · exact keepsRegs_of_regs (keepsRegs_refl d) rfl
    · exact keepsRegs_refl d
  · exact keepsRegs_appendRecord d r

theorem fld_of_keepsRegs {d e : Dev} (h : keepsRegs d e) {f : Field} (hf : reported f.reg = false) : e.fld f = d.fld f :=
  congrArg f.get (h f.reg hf)

theorem flag_of_keepsRegs {d e : Dev} (h : keepsRegs d e) {f : Field} (hf : reported f.reg = false) : e.flag f = d.flag f :=
  congrArg (· != 0) (fld_of_keepsRegs h hf)

theorem fld_log_other (d : Dev) (r : Rep) {f : Field} (hf : reported f.reg = false) : (d.log r).fld f = d.fld f :=
  fld_of_keepsRegs (keepsRegs_log d r) hf

theorem flag_log_other (d : Dev) (r : Rep) {f : Field} (hf : reported f.reg = false) : (d.log r).flag f = d.flag f :=
  flag_of_keepsRegs (keepsRegs_log d r) hf

theorem keepsRegs_tickEvent (d : Dev) (f : Field) : keepsRegs (d.setFld f 1) (d.tickEvent f) :=
  keepsRegs_rise _ (keepsRegs_refl _)

end Sys2Proof.Proofs
end

