-- ==== Sys2Proof/Proofs/ChainMessages.lean ====
section
/-!
PROOFS. The enumeration of the chain and its delays (R248, R446, R447), the return of its messages, its breaks and its repair
(R449, R452, R454, R455).
-/

namespace Sys2Proof.Proofs

open Sys2Proof Sys2Proof.Machine Sys2Proof.Laws

/-! ### Flags of the register space -/

theorem flag_setFld_reg (d : Dev) (f k : Field) (x : Nat) (h : k.reg ≠ f.reg) : (d.setFld f x).flag k = d.flag k :=
  congrArg (· != 0) (fld_setFld_reg d f k x h)

theorem flag_setFld_apart (d : Dev) (f k : Field) (x : Nat) (h : f.lo + f.width ≤ 64)
    (hk : k.lo + k.width ≤ f.lo ∨ f.lo + f.width ≤ k.lo) : (d.setFld f x).flag k = d.flag k :=
  congrArg (· != 0) (fld_setFld_apart d f k x h hk)

theorem flag_setFld_one (d : Dev) (f : Field) (h : f.lo + f.width ≤ 64) (hw : 0 < f.width) : (d.setFld f 1).flag f = true := by
  refine flag_of_fld (fld_setFld_same d f 1 h) ?_
  rw [Nat.mod_eq_of_lt (Nat.one_lt_two_pow (by omega))]
  decide

theorem flag_setFld_zero (d : Dev) (f : Field) (h : f.lo + f.width ≤ 64) : (d.setFld f 0).flag f = false := by
  unfold Dev.flag
  rw [fld_setFld_same d f 0 h, Nat.zero_mod]
  rfl

theorem fld_setFld_lt {f : Field} {x : Nat} (d : Dev) (h : f.lo + f.width ≤ 64) (hx : x < 2 ^ f.width) : (d.setFld f x).fld f = x :=
  (fld_setFld_same d f x h).trans (Nat.mod_eq_of_lt hx)

/-- A command on the device gives what its function gives. -/
theorem dev_gives {c : Instr} {ok : Bool} {s : State} {f : Dev → Dev} {P : State → Prop} (hc : exec c s = onDev ok s f)
    (hok : ok = true) (e : Dev) (he : f s.dev = e) (h : P { s with dev := e }) : GivesSome c s P :=
  ⟨_, hc.trans ((if_pos hok).trans (congrArg (fun d => Host.Outcome.next ({ s with dev := d } : State)) he)), h⟩

/-! ### Messages of the chain -/

theorem chainSent_congr {d e : Dev} (typ : Nat) (bs : List Byte) (hf : e.flag R.CHAIN_STATUS_MSG_DOWN = d.flag R.CHAIN_STATUS_MSG_DOWN)
    (hc : e.chain.sent = d.chain.sent) : chainSent e typ bs = chainSent d typ bs := by
  unfold chainSent
  rw [hf, hc]

theorem sent_chainSend (d : Dev) (typ : Nat) (bs : List Byte) : (d.chainSend typ bs).chain.sent = chainSent d typ bs := rfl

theorem enumerated_chainSend (d : Dev) (typ : Nat) (bs : List Byte) :
    (d.chainSend typ bs).chain.enumerated = d.chain.enumerated := rfl

theorem fld_chainSend (d : Dev) (typ : Nat) (bs : List Byte) (f : Field) : (d.chainSend typ bs).fld f = d.fld f := rfl

theorem flag_chainSend (d : Dev) (typ : Nat) (bs : List Byte) (f : Field) : (d.chainSend typ bs).flag f = d.flag f := rfl

theorem chain_log (d : Dev) (r : Rep) : (d.log r).chain = d.chain := of_quiet Dev.chain (fun _ => rfl) (quiet_log d r)

theorem chain_setFld (d : Dev) (f : Field) (x : Nat) : (d.setFld f x).chain = d.chain := rfl

/-- The device with another record of the chain. -/
def onChain (d : Dev) (c : Chain) : Dev := { d with chain := c }

@[simp] theorem fld_onChain (d : Dev) (c : Chain) (f : Field) : (onChain d c).fld f = d.fld f := rfl

@[simp] theorem flag_onChain (d : Dev) (c : Chain) (f : Field) : (onChain d c).flag f = d.flag f := rfl

@[simp] theorem chain_onChain (d : Dev) (c : Chain) : (onChain d c).chain = c := rfl

/-! ### Enumeration and the ping pass -/

section
variable {s : State}

theorem enum_head {v : Nat} {ov : Bool} (hv : v < 8) (he : s.dev.chain.enumerated = false) (hh : s.dev.flag R.IDENT_CHAIN_HEAD = true) :
    GivesSome (.enum v ov) s fun t =>
      t.dev.fld R.CHAIN_STATUS_PRESENT = 2 ^ (v + 1) - 1 ∧ t.dev.chain.enumerated = true ∧
      (ov = true → t.dev.flag R.CHAIN_STATUS_OVERFLOW = true) := by
  have hx : 2 ^ (v + 1) - 1 < 2 ^ R.CHAIN_STATUS_PRESENT.width :=
    Nat.lt_of_lt_of_le (Nat.sub_lt (Nat.two_pow_pos _) Nat.one_pos) (Nat.pow_le_pow_right (by decide) hv)
  obtain ⟨e, he'⟩ : ∃ e, e = s.dev.setFld R.CHAIN_STATUS_PRESENT (2 ^ (v + 1) - 1) := ⟨_, rfl⟩
  have hp : e.fld R.CHAIN_STATUS_PRESENT = 2 ^ (v + 1) - 1 := he' ▸ fld_setFld_lt _ (by decide) hx
  refine dev_gives (execEnum.eq_def ..) (decide_eq_true hv) (onChain (if ov then e.setFld R.CHAIN_STATUS_OVERFLOW 1 else e)
    { (if ov then e.setFld R.CHAIN_STATUS_OVERFLOW 1 else e).chain with
      enumerated := true
      pinging := true }) ?_ ⟨?_, rfl, ?_⟩
  · dsimp only
    rw [he, show s.dev.isHead = true from hh, ← he']
    rfl
  · rw [fld_onChain]
    split
    · rw [fld_setFld_apart _ _ _ _ (by decide) (by decide), hp]
    · exact hp
  · intro hov
    rw [flag_onChain, if_pos hov]
    exact flag_setFld_one _ _ (by decide) (by decide)

theorem enum_takesId {v : Nat} (hv : v < 7) (he : s.dev.chain.enumerated = false) (hh : s.dev.flag R.IDENT_CHAIN_HEAD = false) :
    GivesSome (.enum v false) s fun t =>
      t.dev.self = v + 1 ∧ t.dev.chain.enumerated = true ∧ t.dev.chain.sent = chainSent s.dev 1 [BitVec.ofNat 8 (v + 1), 0] := by
  obtain ⟨e, he'⟩ : ∃ e, e = (s.dev.setFld R.IDENT_SOCKET_ID (v + 1)).setFld R.CHAIN_STATUS_PRESENT (2 ^ (v + 2) - 1) := ⟨_, rfl⟩
  have h1 : e.self = v + 1 := by
    rw [he']
    unfold Dev.self
    rw [fld_setFld_reg _ _ _ _ (by decide), fld_setFld_lt _ (by decide) (show v + 1 < 8 by omega)]
  have h2 : e.flag R.CHAIN_STATUS_MSG_DOWN = s.dev.flag R.CHAIN_STATUS_MSG_DOWN := by
    rw [he', flag_setFld_apart _ _ _ _ (by decide) (by decide), flag_setFld_reg _ _ _ _ (by decide)]
  have h3 : e.chain = s.dev.chain := by rw [he', chain_setFld, chain_setFld]
  refine dev_gives (execEnum.eq_def ..) (decide_eq_true (by omega))
    ((onChain e { e.chain with enumerated := true }).chainSend 1 [BitVec.ofNat 8 (v + 1), 0]) ?_ ⟨h1, rfl, ?_⟩
  · dsimp only
    rw [he, show s.dev.isHead = false from hh, ← he', decide_eq_true hv]
    rfl
  · exact (sent_chainSend _ _ _).trans (chainSent_congr _ _ ((flag_onChain _ _ _).trans h2) (h3 ▸ rfl))

theorem enum_unaddressed {v : Nat} {ov : Bool} (hv : v < 8) (h : v = 7 ∨ ov = true) (he : s.dev.chain.enumerated = false)
    (hh : s.dev.flag R.IDENT_CHAIN_HEAD = false) :
    GivesSome (.enum v ov) s fun t =>
      t.dev.flag R.CHAIN_STATUS_UNADDRESSED = true ∧ t.dev.flag R.CHAIN_STATUS_OVERFLOW = true ∧ t.dev.self = s.dev.self ∧
      t.dev.chain.enumerated = false := by
  have hc : (decide (v < 7) && !ov) = false := by
    obtain rfl | rfl := h
    · rfl
    · rw [Bool.not_true, Bool.and_false]
  refine dev_gives (execEnum.eq_def ..) (decide_eq_true hv)
    (((s.dev.setFld R.CHAIN_STATUS_UNADDRESSED 1).setFld R.CHAIN_STATUS_OVERFLOW 1).chainRecord.chainSend 1 [BitVec.ofNat 8 v, 1])
    ?_ ⟨?_, ?_, ?_, ?_⟩
  · dsimp only
    rw [he, show s.dev.isHead = false from hh, hc]
    rfl
  · rw [flag_chainSend, Dev.chainRecord, flag_log_other _ _ (by decide), flag_setFld_apart _ _ _ _ (by decide) (by decide)]
    exact flag_setFld_one _ _ (by decide) (by decide)
  · rw [flag_chainSend, Dev.chainRecord, flag_log_other _ _ (by decide)]
    exact flag_setFld_one _ _ (by decide) (by decide)
  · unfold Dev.self
    rw [fld_chainSend, Dev.chainRecord, fld_log_other _ _ (by decide), fld_setFld_reg _ _ _ _ (by decide),
      fld_setFld_reg _ _ _ _ (by decide)]
  · rw [enumerated_chainSend, Dev.chainRecord, chain_log, chain_setFld, chain_setFld, he]

theorem enumRetry_head (he : s.dev.chain.enumerated = false) (hh : s.dev.flag R.IDENT_CHAIN_HEAD = true) :
    GivesSome .enumRetry s fun t => t.dev.self = 0 ∧ t.dev.chain.sent = chainSent s.dev 1 [0, 0] := by
  refine dev_gives (execEnumRetry.eq_def ..) rfl ((s.dev.setFld R.IDENT_SOCKET_ID 0).chainSend 1 [0, 0]) ?_ ⟨?_, ?_⟩
  · rw [he, show s.dev.isHead = true from hh]
    rfl
  · unfold Dev.self
    rw [fld_chainSend, fld_setFld_lt _ (by decide) (by decide)]
  · exact (sent_chainSend _ _ _).trans (chainSent_congr _ _ (flag_setFld_reg _ _ _ _ (by decide)) (congrArg Chain.sent (chain_setFld _ _ _)))

theorem echo_pinging {r : Nat} (hp : s.dev.chain.pinging = true) :
    GivesSome (.echo r) s fun t => t.dev.chain.pinging = false ∧
      t.dev.chain.sent = chainSent s.dev 2 (leBytes 2 ((r - 160 + 1) / 2) ++ leBytes 2 (s.dev.fld R.TICK_CTL_DELAY)) := by
  refine dev_gives (execEcho.eq_def ..) rfl ((onChain s.dev { s.dev.chain with pinging := false }).chainSend 2
    (leBytes 2 ((r - 160 + 1) / 2) ++ leBytes 2 (s.dev.fld R.TICK_CTL_DELAY))) ?_ ⟨rfl, rfl⟩
  dsimp only
  rw [hp]
  rfl

/-- The state of a socket that has learnt its hop. -/
theorem hop_set (h : Nat) (h1 : h < 1024) (c : Chain) :
    ∃ e : Dev, e = (onChain s.dev c).setFld R.CHAIN_STATUS_HOP h ∧ e.fld R.CHAIN_STATUS_HOP = h ∧ e.chain = c ∧
      e.isHead = s.dev.isHead ∧ e.flag R.CHAIN_STATUS_MSG_DOWN = s.dev.flag R.CHAIN_STATUS_MSG_DOWN :=
  ⟨_, rfl, fld_setFld_lt _ (by decide) h1, chain_setFld _ _ _,
    (flag_setFld_reg _ _ _ _ (by decide)).trans (flag_onChain _ _ _),
    (flag_setFld_apart _ _ _ _ (by decide) (by decide)).trans (flag_onChain _ _ _)⟩

theorem fld_wiring (d : Dev) {f : Field} (h1 : reported f.reg = false) (h2 : f.lo + f.width ≤ 20 ∨ 21 ≤ f.lo) :
    d.wiring.fld f = d.fld f := by
  unfold Dev.wiring Dev.chainRecord
  rw [fld_log_other _ _ h1, fld_setFld_apart _ _ _ _ (by decide) h2]

/-- What a socket does with a delay once its hop is set (R444, R447). -/
def passDelay (d : Dev) (h up : Nat) : Dev :=
  let d := if 120 < h || (d.isHead && 880 < up + h) then d.wiring else d
  if d.isHead then
    let c := up + 32
    (d.setFld R.TICK_CTL_COMP c).chainSend 0x03 (leBytes 2 c)
  else
    let d := d.setFld R.TICK_CTL_DELAY (up + h)
    if d.phase == .running then onChain d { d.chain with resync := 1 } else d

theorem delay_downstream {h up : Nat} (h1 : h < 1024) (h2 : up + h < 65536) (hh : s.dev.flag R.IDENT_CHAIN_HEAD = false) :
    GivesSome (.delay h up) s fun t => t.dev.fld R.CHAIN_STATUS_HOP = h ∧ t.dev.fld R.TICK_CTL_DELAY = up + h := by
  obtain ⟨e, he, hhop, -, hhead, -⟩ := hop_set (s := s) h h1 { s.dev.chain with
    echo := false
    pinging := !s.dev.isHead }
  obtain ⟨y, hy⟩ : ∃ y, y = if (decide (120 < h) || e.isHead && decide (880 < up + h)) = true then e.wiring else e := ⟨_, rfl⟩
  have hyf {f : Field} (k1 : reported f.reg = false) (k2 : f.lo + f.width ≤ 20 ∨ 21 ≤ f.lo) : y.fld f = e.fld f := by
    rw [hy]
    split
    · exact fld_wiring e k1 k2
    · rfl
  have hyh : y.isHead = false :=
    (congrArg (· != 0) (hyf (f := R.IDENT_CHAIN_HEAD) (by decide) (by decide))).trans (hhead.trans hh)
  have hhop' : (y.setFld R.TICK_CTL_DELAY (up + h)).fld R.CHAIN_STATUS_HOP = h := by
    rw [fld_setFld_reg _ _ _ _ (by decide), hyf (by decide) (by decide), hhop]
  have hdel : (y.setFld R.TICK_CTL_DELAY (up + h)).fld R.TICK_CTL_DELAY = up + h := fld_setFld_lt _ (by decide) h2
  obtain ⟨z, hz⟩ : ∃ z, z = y.setFld R.TICK_CTL_DELAY (up + h) := ⟨_, rfl⟩
  refine dev_gives (execDelay.eq_def ..) ?_ (if (z.phase == .running) = true then onChain z { z.chain with resync := 1 } else z) ?_ ?_
  · rw [decide_eq_true h1, decide_eq_true (show up < 65536 by omega)]
    rfl
  · show passDelay ((onChain s.dev _).setFld R.CHAIN_STATUS_HOP h) h up = _
    rw [← he]
    unfold passDelay
    dsimp only
    rw [← hy, hyh, if_neg (by decide), ← hz]
  · rw [← hz] at hhop' hdel
    split
    · exact ⟨hhop', hdel⟩
    · exact ⟨hhop', hdel⟩

theorem delay_head {h up : Nat} (h1 : h ≤ 120) (h2 : up + h ≤ 880) (hh : s.dev.flag R.IDENT_CHAIN_HEAD = true) :
    GivesSome (.delay h up) s fun t => t.dev.fld R.CHAIN_STATUS_HOP = h ∧ t.dev.fld R.TICK_CTL_COMP = up + 32 ∧
      t.dev.chain.sent = chainSent s.dev 3 (leBytes 2 (up + 32)) := by
  obtain ⟨e, he, hhop, hch, hhead, hdown⟩ := hop_set (s := s) h (by omega) { s.dev.chain with
    echo := false
    pinging := !s.dev.isHead }
  refine dev_gives (execDelay.eq_def ..) ?_ ((e.setFld R.TICK_CTL_COMP (up + 32)).chainSend 3 (leBytes 2 (up + 32))) ?_ ⟨?_, ?_, ?_⟩
  · rw [decide_eq_true (show h < 1024 by omega), decide_eq_true (show up < 65536 by omega)]
    rfl
  · show passDelay ((onChain s.dev _).setFld R.CHAIN_STATUS_HOP h) h up = _
    rw [← he]
    unfold passDelay
    dsimp only
    rw [decide_eq_false (show ¬120 < h by omega), decide_eq_false (show ¬880 < up + h by omega), Bool.and_false, Bool.or_false,
      if_neg (c := false = true) (by decide), hhead, if_pos (show s.dev.isHead = true from hh)]
  · rw [fld_chainSend, fld_setFld_reg _ _ _ _ (by decide), hhop]
  · rw [fld_chainSend, fld_setFld_lt _ (by decide) (show up + 32 < 65536 by omega)]
  · have hsent : e.chain.sent = s.dev.chain.sent := by rw [hch]
    exact (sent_chainSend _ _ _).trans (chainSent_congr _ _ ((flag_setFld_reg _ _ _ _ (by decide)).trans hdown)
      ((congrArg Chain.sent (chain_setFld _ _ _)).trans hsent))

end

theorem chainEnumeration_hold : chainEnumeration := by
  intro s
  dsimp only
  refine ⟨fun v ov hv he hh => enum_head hv he hh, fun v hv he hh => enum_takesId hv he hh,
    fun v ov hv h he hh => enum_unaddressed hv h he hh, fun hh he => enumRetry_head he hh, ?_, fun r hp => echo_pinging hp,
    fun h up h1 h2 hh => delay_downstream h1 h2 hh, fun h up h1 h2 hh => delay_head h1 h2 hh, fun c hc => ?_, fun f => ?_⟩
  · exact ⟨_, (execPing.eq_def ..).trans (if_pos rfl), rfl⟩
  · exact (execComp.eq_def ..).trans (if_pos (decide_eq_true hc))
  · exact ⟨_, (execFrameStart.eq_def ..).trans (if_pos rfl), rfl⟩

/-! ### Returns, breaks and repairs -/

section
variable {s : State}

theorem return_good {m : Nat × List Byte} {ms : List (Nat × List Byte)} (hs : s.dev.chain.sent = m :: ms) :
    GivesSome (.chainMessageReturn true) s fun t => t.dev.chain.sent = ms ∧ t.dev.chain.retries = 0 := by
  refine dev_gives (execChainMessageReturn.eq_def ..) rfl (onChain s.dev { s.dev.chain with
    sent := s.dev.chain.sent.tail
    retries := 0 }) ?_ ⟨?_, rfl⟩
  · rw [hs]
    rfl
  · rw [chain_onChain, hs]
    rfl

theorem return_marked {m : Nat × List Byte} {ms : List (Nat × List Byte)} (hs : s.dev.chain.sent = m :: ms)
    (hr : s.dev.chain.retries < 3) :
    GivesSome (.chainMessageReturn false) s fun t =>
      t.dev.chain.sent = m :: ms ∧ t.dev.chain.retries = s.dev.chain.retries + 1 := by
  refine dev_gives (execChainMessageReturn.eq_def ..) rfl
    (onChain s.dev { s.dev.chain with retries := s.dev.chain.retries + 1 }) ?_ ⟨hs, rfl⟩
  rw [hs, List.isEmpty_cons, if_neg (by decide), if_neg (by decide), if_neg (by omega)]
  rfl

theorem return_dropped {m : Nat × List Byte} {ms : List (Nat × List Byte)} (hs : s.dev.chain.sent = m :: ms)
    (hr : 3 ≤ s.dev.chain.retries) :
    GivesSome (.chainMessageReturn false) s fun t =>
      t.dev.chain.sent = ms ∧ t.dev.fld R.CHAIN_STATUS_MSG_ERRORS =
        min (s.dev.fld R.CHAIN_STATUS_MSG_ERRORS + 1) (2 ^ R.CHAIN_STATUS_MSG_ERRORS.width - 1) := by
  obtain ⟨e, he⟩ : ∃ e, e = onChain s.dev { s.dev.chain with
      sent := s.dev.chain.sent.tail
      retries := 0 } := ⟨_, rfl⟩
  have hc : e.chain.sent = ms := by
    rw [he, chain_onChain, hs]
    rfl
  have hf : e.fld R.CHAIN_STATUS_MSG_ERRORS = s.dev.fld R.CHAIN_STATUS_MSG_ERRORS := he ▸ fld_onChain _ _ _
  refine dev_gives (execChainMessageReturn.eq_def ..) rfl (e.addSat R.CHAIN_STATUS_MSG_ERRORS 1).chainRecord ?_ ⟨?_, ?_⟩
  · rw [hs, List.isEmpty_cons, if_neg (by decide), if_neg (by decide), if_pos hr, he]
    rfl
  · rw [Dev.chainRecord, chain_log]
    exact (congrArg Chain.sent (chain_setFld _ _ _)).trans hc
  · rw [Dev.chainRecord, fld_log_other _ _ (by decide), fld_addSat _ _ _ (by decide), hf]

theorem fld_bmcEvent (d : Dev) (kind n : Nat) (f : Field) : (d.bmcEvent kind n).fld f = d.fld f := by
  unfold Dev.bmcEvent
  split
  · rfl
  · rfl

theorem fld_updPhase_other (d : Dev) (p : Nat) {f : Field} (hf : f.reg ≠ R.UPD_STATUS_PHASE.reg) : (d.updPhase p).fld f = d.fld f := by
  unfold Dev.updPhase
  split
  · rfl
  · exact (fld_bmcEvent _ _ _ _).trans (fld_setFld_reg _ _ _ _ hf)

/-- An update that is given up leaves the chain's status (R453). -/
theorem fld_abortUpdate_other (d : Dev) (r : Nat) {f : Field} (hf : f.reg ≠ R.UPD_STATUS_PHASE.reg) :
    (d.abortUpdate r).fld f = d.fld f := by
  unfold Dev.abortUpdate
  split
  · exact (fld_setFld_reg _ R.UPD_STATUS_REASON _ _ hf).trans (fld_updPhase_other _ _ hf)
  · rfl

theorem fld_abortAll_other (d : Dev) (r : Nat) {f : Field} (hf : f.reg ≠ R.UPD_STATUS_PHASE.reg) :
    (d.abortAll r).fld f = d.fld f := by
  unfold Dev.abortAll
  split
  · dsimp only
    split
    · exact (fld_chainSend _ _ _ _).trans (fld_abortUpdate_other _ _ hf)
    · exact fld_abortUpdate_other _ _ hf
  · rfl

theorem fld_tickEvent_other (d : Dev) (e : Field) {f : Field} (h1 : reported f.reg = false) (h2 : f.reg ≠ e.reg) :
    (d.tickEvent e).fld f = d.fld f :=
  (fld_of_keepsRegs (keepsRegs_tickEvent d e) h1).trans (fld_setFld_reg _ _ _ _ h2)

/-- What a tick loss writes before it is told. -/
theorem fld_tickLost (d : Dev) {f : Field} (h1 : reported f.reg = false) (h2 : f.reg ≠ R.TICK_LOST_AT_NUMBER.reg)
    (h3 : f.reg ≠ R.TICK_EVENT_LOST.reg) :
    d.tickLost.fld f = ((d.setFld R.TICK_STATUS_SOURCE 1).addSat R.TICK_STATUS_LOSSES 1).fld f := by
  unfold Dev.tickLost Dev.chainRecord
  dsimp only
  rw [fld_log_other _ _ h1, fld_tickEvent_other _ _ h1 h3]
  exact (fld_onChain _ _ f).trans (congrArg f.get (reg_setReg_other _ _ _ _ h2))

theorem fld_tickLost_other (d : Dev) {f : Field} (h1 : reported f.reg = false) (h2 : f.reg ≠ R.TICK_LOST_AT_NUMBER.reg)
    (h3 : f.reg ≠ R.TICK_EVENT_LOST.reg) (h4 : f.reg ≠ R.TICK_STATUS_SOURCE.reg) : d.tickLost.fld f = d.fld f :=
  (fld_tickLost d h1 h2 h3).trans ((fld_setFld_reg _ R.TICK_STATUS_LOSSES _ _ h4).trans (fld_setFld_reg _ _ _ _ h4))

theorem source_tickLost (d : Dev) : d.tickLost.fld R.TICK_STATUS_SOURCE = 1 :=
  (fld_tickLost d (by decide) (by decide) (by decide)).trans
    ((fld_setFld_apart _ R.TICK_STATUS_LOSSES _ _ (by decide) (by decide)).trans (fld_setFld_lt _ (by decide) (by decide)))

theorem chainBreak_counts (he : s.dev.chain.enumerated = true) (hl : s.dev.flag R.CHAIN_STATUS_IN_LOST = false) :
    GivesSome .chainBreak s fun t =>
      t.dev.flag R.CHAIN_STATUS_IN_LOST = true ∧ t.dev.flag R.CHAIN_STATUS_MSG_DOWN = true ∧
      t.dev.fld R.CHAIN_STATUS_BREAKS = min (s.dev.fld R.CHAIN_STATUS_BREAKS + 1) (2 ^ R.CHAIN_STATUS_BREAKS.width - 1) ∧
      (s.dev.flag R.IDENT_CHAIN_HEAD = true → t.dev.flag R.CHAIN_STATUS_RING_OK = false ∧ t.dev.fld R.TICK_STATUS_SOURCE = 1) := by
  obtain ⟨a, ha⟩ : ∃ a, a = if s.dev.isHead = true then s.dev.abortAll 6 else s.dev.abortUpdate 6 := ⟨_, rfl⟩
  have haf {f : Field} (hf : f.reg ≠ R.UPD_STATUS_PHASE.reg) : a.fld f = s.dev.fld f := by
    rw [ha]
    split
    · exact fld_abortAll_other _ _ hf
    · exact fld_abortUpdate_other _ _ hf
  obtain ⟨b, hb⟩ : ∃ b, b = (((a.setFld R.CHAIN_STATUS_IN_LOST 1).setFld R.CHAIN_STATUS_MSG_DOWN 1).addSat R.CHAIN_STATUS_BREAKS 1).chainRecord :=
    ⟨_, rfl⟩
  have h1 : b.flag R.CHAIN_STATUS_IN_LOST = true := by
    rw [hb, Dev.chainRecord, flag_log_other _ _ (by decide), Dev.addSat, flag_setFld_apart _ _ _ _ (by decide) (by decide),
      flag_setFld_apart _ _ _ _ (by decide) (by decide), flag_setFld_one _ _ (by decide) (by decide)]
  have h2 : b.flag R.CHAIN_STATUS_MSG_DOWN = true := by
    rw [hb, Dev.chainRecord, flag_log_other _ _ (by decide), Dev.addSat, flag_setFld_apart _ _ _ _ (by decide) (by decide),
      flag_setFld_one _ _ (by decide) (by decide)]
  have h3 : b.fld R.CHAIN_STATUS_BREAKS = min (s.dev.fld R.CHAIN_STATUS_BREAKS + 1) (2 ^ R.CHAIN_STATUS_BREAKS.width - 1) := by
    rw [hb, Dev.chainRecord, fld_log_other _ _ (by decide), fld_addSat _ _ _ (by decide), fld_setFld_apart _ _ _ _ (by decide) (by decide),
      fld_setFld_apart _ _ _ _ (by decide) (by decide), haf (by decide)]
  have h4 : b.isHead = s.dev.isHead := by
    refine congrArg (· != 0) ?_
    rw [hb, Dev.chainRecord, fld_log_other _ _ (by decide), Dev.addSat, fld_setFld_reg _ _ _ _ (by decide), fld_setFld_reg _ _ _ _ (by decide),
      fld_setFld_reg _ _ _ _ (by decide), haf (by decide)]
  refine dev_gives (execChainBreak.eq_def ..) rfl (if b.isHead = true then (b.setFld R.CHAIN_STATUS_RING_OK 0).tickLost else b) ?_ ?_
  · rw [he, hl]
    show (if (!true || false) = true then _ else _) = _
    rw [if_neg (by decide)]
    dsimp only
    rw [← ha, ← hb]
  · rw [h4]
    have keep {f : Field} (k1 : reported f.reg = false) (k2 : f.reg ≠ R.TICK_LOST_AT_NUMBER.reg) (k3 : f.reg ≠ R.TICK_EVENT_LOST.reg)
        (k4 : f.reg ≠ R.TICK_STATUS_SOURCE.reg) (k5 : f.lo + f.width ≤ 16 ∨ 17 ≤ f.lo) :
        (if s.dev.isHead = true then (b.setFld R.CHAIN_STATUS_RING_OK 0).tickLost else b).fld f = b.fld f := by
      split
      · rw [fld_tickLost_other _ k1 k2 k3 k4, fld_setFld_apart _ _ _ _ (by decide) k5]
      · rfl
    refine ⟨?_, ?_, ?_, fun hh => ?_⟩
    · exact (congrArg (· != 0) (keep (by decide) (by decide) (by decide) (by decide) (by decide))).trans h1
    · exact (congrArg (· != 0) (keep (by decide) (by decide) (by decide) (by decide) (by decide))).trans h2
    · exact (keep (by decide) (by decide) (by decide) (by decide) (by decide)).trans h3
    · rw [if_pos (show s.dev.isHead = true from hh)]
      refine ⟨(congrArg (· != 0) (fld_tickLost_other _ (by decide) (by decide) (by decide) (by decide))).trans
        (flag_setFld_zero _ _ (by decide)), source_tickLost _⟩

theorem check_clears {mask : BitVec 8} (hh : s.dev.flag R.IDENT_CHAIN_HEAD = false) (hm : mask.getLsbD s.dev.self = true) :
    GivesSome (.check mask) s fun t =>
      t.dev.flag R.CHAIN_STATUS_IN_LOST = false ∧ t.dev.flag R.CHAIN_STATUS_MSG_DOWN = false := by
  have hn : natBit mask.toNat s.dev.self = true := by
    unfold natBit
    rw [← hm, BitVec.getLsbD, Nat.testBit_eq_decide_div_mod_eq, beq_eq_decide]
  refine dev_gives (execCheck.eq_def ..) rfl (((s.dev.setFld R.CHAIN_STATUS_IN_LOST 0).setFld R.CHAIN_STATUS_MSG_DOWN 0).chainSend 7
    [BitVec.ofNat 8 (2 ^ s.dev.self)]) ?_ ⟨?_, ?_⟩
  · have hself : ((s.dev.setFld R.CHAIN_STATUS_IN_LOST 0).setFld R.CHAIN_STATUS_MSG_DOWN 0).self = s.dev.self := by
      unfold Dev.self
      rw [fld_setFld_reg _ _ _ _ (by decide), fld_setFld_reg _ _ _ _ (by decide)]
    rw [show s.dev.isHead = false from hh, hn]
    dsimp only
    rw [hself]
    rfl
  · rw [flag_chainSend, flag_setFld_apart _ _ _ _ (by decide) (by decide), flag_setFld_zero _ _ (by decide)]
  · rw [flag_chainSend, flag_setFld_zero _ _ (by decide)]

/-- A resynchronisation leaves the registers when it begins at the head. -/
theorem startResync_head {d : Dev} (hh : d.isHead = true) (f : Field) : d.startResync.flag f = d.flag f := by
  unfold Dev.startResync
  rw [if_pos hh]
  unfold Dev.announceResync
  dsimp only
  split
  · rfl
  · rfl

theorem ringCloseCheck_closes {ans : BitVec 8} (hh : s.dev.flag R.IDENT_CHAIN_HEAD = true)
    (hd : s.dev.flag R.CHAIN_STATUS_MSG_DOWN = true) (hg : 64 ≤ s.dev.chain.good)
    (ha : (ans.toNat ||| 2 ^ s.dev.self) &&& s.dev.fld R.CHAIN_STATUS_PRESENT = s.dev.fld R.CHAIN_STATUS_PRESENT) :
    GivesSome (.ringCloseCheck ans false) s fun t =>
      t.dev.flag R.CHAIN_STATUS_MSG_DOWN = false ∧ t.dev.flag R.CHAIN_STATUS_IN_LOST = false ∧
      t.dev.flag R.CHAIN_STATUS_RING_OK = true := by
  obtain ⟨e, he⟩ : ∃ e, e = ((s.dev.setFld R.CHAIN_STATUS_MSG_DOWN 0).setFld R.CHAIN_STATUS_IN_LOST 0).setFld R.CHAIN_STATUS_RING_OK 1 :=
    ⟨_, rfl⟩
  have h0 : e.isHead = true := by
    rw [he, Dev.isHead, flag_setFld_reg _ _ _ _ (by decide), flag_setFld_reg _ _ _ _ (by decide), flag_setFld_reg _ _ _ _ (by decide), hh]
  have h1 : e.flag R.CHAIN_STATUS_MSG_DOWN = false := by
    rw [he, flag_setFld_apart _ _ _ _ (by decide) (by decide), flag_setFld_apart _ _ _ _ (by decide) (by decide),
      flag_setFld_zero _ _ (by decide)]
  have h2 : e.flag R.CHAIN_STATUS_IN_LOST = false := by
    rw [he, flag_setFld_apart _ _ _ _ (by decide) (by decide), flag_setFld_zero _ _ (by decide)]
  have h3 : e.flag R.CHAIN_STATUS_RING_OK = true := he ▸ flag_setFld_one _ _ (by decide) (by decide)
  refine dev_gives (execRingCloseCheck.eq_def ..) rfl e.startResync ?_ ⟨?_, ?_, ?_⟩
  · have hcond : (!s.dev.isHead || !s.dev.flag R.CHAIN_STATUS_MSG_DOWN || decide (s.dev.chain.good < 64)) = false := by
      rw [show s.dev.isHead = true from hh, hd, decide_eq_false (by omega)]
      rfl
    rw [hcond, if_neg (by decide)]
    dsimp only
    rw [ha, bne_self_eq_false, if_neg (by decide), if_neg (by decide), ← he]
  · rw [startResync_head h0, h1]
  · rw [startResync_head h0, h2]
  · rw [startResync_head h0, h3]

end

theorem chainMessagesAndBreaks_hold : chainMessagesAndBreaks := by
  intro s
  dsimp only
  exact ⟨fun m ms hs => ⟨return_good hs, fun hr => return_marked hs hr, fun hr => return_dropped hs hr⟩,
    fun he hl => chainBreak_counts he hl, fun mask hh hm => check_clears hh hm,
    fun ans hh hd hg ha => ringCloseCheck_closes hh hd hg ha⟩

/-- Settles O28: each step of the enumeration and of the ring's repair, by the registers and the chain's record that it writes. -/
theorem chainMessages : Obligations.ChainMessages := ⟨chainEnumeration_hold, chainMessagesAndBreaks_hold⟩

end Sys2Proof.Proofs
end

