-- ==== Sys2Proof/Proofs/AccessCodes.lean ====
section
/-!
PROOFS. Registers under their access codes (R11, R12): what each bit takes from a write and gives to a read, and the write of a
register that acts on nothing else.
-/

namespace Sys2Proof.Proofs

open Sys2Proof Sys2Proof.Machine Sys2Proof.Laws

/-! ### Fields that do not overlap -/

/-- A bit lies in a field. -/
def covers (f : FieldSpec) (b : Nat) : Prop := f.fld.lo ≤ b ∧ b < f.fld.lo + f.fld.width

/-- Two fields share no bit. -/
def apart (f g : FieldSpec) : Bool := f.fld.lo + f.fld.width ≤ g.fld.lo || g.fld.lo + g.fld.width ≤ f.fld.lo

/-- The fields lie inside the word and share no bit. -/
def wellPlaced : List FieldSpec → Bool
  | [] => true
  | f :: fs => decide (f.fld.lo + f.fld.width ≤ 64) && fs.all (apart f) && wellPlaced fs

theorem regTable_wellPlaced : (regTable.all fun r => wellPlaced r.fields) = true := by decide +kernel

theorem not_covers_of_apart {f g : FieldSpec} {b : Nat} (h : apart f g = true) (hb : covers f b) : ¬covers g b := by
  obtain ⟨h1, h2⟩ := hb
  rintro ⟨h3, h4⟩
  rw [apart, Bool.or_eq_true, decide_eq_true_iff, decide_eq_true_iff] at h
  omega

theorem wellPlaced_cons {f : FieldSpec} {fs : List FieldSpec} (h : wellPlaced (f :: fs) = true) :
    f.fld.lo + f.fld.width ≤ 64 ∧ (∀ g ∈ fs, apart f g = true) ∧ wellPlaced fs = true := by
  rw [wellPlaced, Bool.and_eq_true, Bool.and_eq_true, decide_eq_true_iff, List.all_eq_true] at h
  exact ⟨h.1.1, h.1.2, h.2⟩

/-! ### One field -/

/-- What a covered bit takes from a write of its field. -/
def taken (locked : Bool) (f : FieldSpec) (old v : Bool) (x : Nat) : Bool :=
  match f.acc with
  | .ro | .wo => old
  | .rw | .rws => v
  | .rwl => if locked then old else v
  | .rw1c => old && !v
  | .rw1cf => old && decide (x = 0)

section
variable {f : FieldSpec} {b : Nat}

theorem testBit_get (w : Word) (hb : covers f b) : (f.fld.get w).testBit (b - f.fld.lo) = w.getLsbD b := by
  obtain ⟨h1, h2⟩ := hb
  rw [Field.get, getF, Nat.testBit_mod_two_pow, Nat.testBit_div_two_pow, Nat.sub_add_cancel h1, decide_eq_true (by omega), Bool.true_and]
  rfl

theorem getLsbD_put_covered (w : Word) (x : Nat) (hf : f.fld.lo + f.fld.width ≤ 64) (hb : covers f b) :
    (f.fld.put w x).getLsbD b = x.testBit (b - f.fld.lo) := by
  rw [Field.put, getLsbD_putF w x b hf]
  exact if_pos hb

theorem getLsbD_put_other (w : Word) (x : Nat) (hf : f.fld.lo + f.fld.width ≤ 64) (hb : ¬covers f b) :
    (f.fld.put w x).getLsbD b = w.getLsbD b := by
  rw [Field.put, getLsbD_putF w x b hf]
  exact if_neg hb

theorem getLsbD_writeField_covered (locked : Bool) (old v : Word) (h64 : b < 64) (hf : f.fld.lo + f.fld.width ≤ 64) (hb : covers f b) :
    (writeField locked f old v).getLsbD b = taken locked f (old.getLsbD b) (v.getLsbD b) (f.fld.get v) := by
  have hput : (f.fld.put old (f.fld.get v)).getLsbD b = v.getLsbD b := by
    rw [getLsbD_put_covered _ _ hf hb, testBit_get _ hb]
  unfold writeField taken
  cases f.acc with
  | ro => rfl
  | wo => rfl
  | rw => exact hput
  | rws => exact hput
  | rwl =>
    cases locked with
    | true => rfl
    | false => exact hput
  | rw1c =>
    dsimp only
    rw [BitVec.getLsbD_and, BitVec.getLsbD_not, getLsbD_put_covered _ _ hf hb, testBit_get _ hb, decide_eq_true h64, Bool.true_and]
  | rw1cf =>
    dsimp only
    by_cases hx : f.fld.get v = 0
    · rw [if_pos (beq_iff_eq.2 hx), decide_eq_true hx, Bool.and_true]
    · rw [if_neg (by simpa using hx), decide_eq_false hx, Bool.and_false, getLsbD_put_covered _ _ hf hb, Nat.zero_testBit]

theorem getLsbD_writeField_other (locked : Bool) (old v : Word) (hf : f.fld.lo + f.fld.width ≤ 64) (hb : ¬covers f b) :
    (writeField locked f old v).getLsbD b = old.getLsbD b := by
  have hput (x : Nat) : (f.fld.put old x).getLsbD b = old.getLsbD b := getLsbD_put_other _ _ hf hb
  unfold writeField
  cases f.acc with
  | ro => rfl
  | wo => rfl
  | rw => exact hput _
  | rws => exact hput _
  | rwl =>
    cases locked with
    | true => rfl
    | false => exact hput _
  | rw1c =>
    dsimp only
    have hz : (f.fld.put 0 (f.fld.get v)).getLsbD b = false := (getLsbD_put_other _ _ hf hb).trans BitVec.getLsbD_zero
    rw [BitVec.getLsbD_and, BitVec.getLsbD_not, hz, Bool.not_false, Bool.and_true]
    by_cases h : b < 64
    · rw [decide_eq_true h, Bool.and_true]
    · rw [decide_eq_false h, Bool.and_false, BitVec.getLsbD_of_ge _ _ (by omega)]
  | rw1cf =>
    dsimp only
    split
    · rfl
    · exact hput _

/-- What a read takes of a field. -/
def readField (w : Word) (acc : Word) (f : FieldSpec) : Word := if f.acc == .wo then acc else f.fld.put acc (f.fld.get w)

theorem getLsbD_readField_covered (w acc : Word) (hf : f.fld.lo + f.fld.width ≤ 64) (hb : covers f b) (h0 : acc.getLsbD b = false) :
    (readField w acc f).getLsbD b = (f.acc != .wo && w.getLsbD b) := by
  unfold readField
  by_cases ha : f.acc = .wo
  · rw [if_pos (beq_iff_eq.2 ha), ha, h0]
    rfl
  · rw [if_neg (by simpa using ha), getLsbD_put_covered _ _ hf hb, testBit_get _ hb, bne_iff_ne.2 ha, Bool.true_and]

theorem getLsbD_readField_other (w acc : Word) (hf : f.fld.lo + f.fld.width ≤ 64) (hb : ¬covers f b) :
    (readField w acc f).getLsbD b = acc.getLsbD b := by
  unfold readField
  split
  · rfl
  · exact getLsbD_put_other _ _ hf hb

end

/-! ### All fields of a register -/

section
variable {b : Nat}

theorem writeFields_other (locked : Bool) (v : Word) (fs : List FieldSpec) (h : wellPlaced fs = true) (hb : ∀ f ∈ fs, ¬covers f b)
    (old : Word) : (fs.foldl (fun w f => writeField locked f w v) old).getLsbD b = old.getLsbD b := by
  induction fs generalizing old with
  | nil => rfl
  | cons f fs ih =>
    obtain ⟨hf, -, hfs⟩ := wellPlaced_cons h
    rw [List.foldl_cons, ih hfs (fun g hg => hb g (List.mem_cons_of_mem _ hg)),
      getLsbD_writeField_other locked old v hf (hb f List.mem_cons_self)]

theorem writeFields_covered (locked : Bool) (v : Word) (h64 : b < 64) (fs : List FieldSpec) (h : wellPlaced fs = true) {f : FieldSpec}
    (hf : f ∈ fs) (hb : covers f b) (old : Word) :
    (fs.foldl (fun w f => writeField locked f w v) old).getLsbD b =
      taken locked f (old.getLsbD b) (v.getLsbD b) (f.fld.get v) := by
  induction fs generalizing old with
  | nil => cases hf
  | cons g fs ih =>
    obtain ⟨hg, hap, hfs⟩ := wellPlaced_cons h
    rw [List.foldl_cons]
    obtain rfl | hmem := List.mem_cons.1 hf
    · rw [writeFields_other locked v fs hfs (fun k hk => not_covers_of_apart (hap k hk) hb),
        getLsbD_writeField_covered locked old v h64 hg hb]
    · have hn : ¬covers g b := fun hc => not_covers_of_apart (hap f hmem) hc hb
      rw [ih hfs hmem, getLsbD_writeField_other locked old v hg hn]

theorem readFields_other (w : Word) (fs : List FieldSpec) (h : wellPlaced fs = true) (hb : ∀ f ∈ fs, ¬covers f b) (acc : Word) :
    (fs.foldl (readField w) acc).getLsbD b = acc.getLsbD b := by
  induction fs generalizing acc with
  | nil => rfl
  | cons f fs ih =>
    obtain ⟨hf, -, hfs⟩ := wellPlaced_cons h
    rw [List.foldl_cons, ih hfs (fun g hg => hb g (List.mem_cons_of_mem _ hg)),
      getLsbD_readField_other w acc hf (hb f List.mem_cons_self)]

theorem readFields_covered (w : Word) (fs : List FieldSpec) (h : wellPlaced fs = true) {f : FieldSpec} (hf : f ∈ fs) (hb : covers f b)
    (acc : Word) (h0 : acc.getLsbD b = false) :
    (fs.foldl (readField w) acc).getLsbD b = (f.acc != .wo && w.getLsbD b) := by
  induction fs generalizing acc with
  | nil => cases hf
  | cons g fs ih =>
    obtain ⟨hg, hap, hfs⟩ := wellPlaced_cons h
    rw [List.foldl_cons]
    obtain rfl | hmem := List.mem_cons.1 hf
    · rw [readFields_other w fs hfs (fun k hk => not_covers_of_apart (hap k hk) hb), getLsbD_readField_covered w acc hg hb h0]
    · have hn : ¬covers g b := fun hc => not_covers_of_apart (hap f hmem) hc hb
      exact ih hfs hmem _ ((getLsbD_readField_other w acc hg hn).trans h0)

end

/-! ### Writes of registers -/

theorem writeReg_plain {d : Dev} {off : Nat} {r : RegSpec} (v : Word) (hr : regAt off = some r) (he : off ∉ eventRegs) :
    d.writeReg off v = d.setReg off (writeWord d.locked r (d.reg off) v) := by
  have h : ∀ k ∈ [R.TICK_EVENT_LOST.reg, R.TICK_EVENT_EN_BITS.reg, R.ERR_EVENT_RECORD.reg, R.ERR_EVENT_EN_BITS.reg], k ≠ off :=
    fun k hk hkk => he (hkk ▸ hk)
  unfold Dev.writeReg
  rw [hr]
  exact rise_same (lineHigh_setReg _ _ h _) (lineHigh_setReg _ _ h _)

section
variable {s : State} {req : Requester} {off : Nat} {v : Word}

theorem registerWrite_aligned (hr : reqOk req = true) (ho : off < 2 ^ 33) (ha : off % 8 = 0) :
    exec (.registerWrite req off v) s = .next (s.regWrite req off v) := by
  refine (execRegisterWrite.eq_def ..).trans ?_
  rw [hr, decide_eq_true (show off < 2 ^ 34 by omega), if_neg (by decide), if_neg (by omega), if_neg (by simpa using ha)]

theorem registerWrite_unaligned (hr : reqOk req = true) (ho : off < 2 ^ 33) (ha : off % 8 ≠ 0) :
    exec (.registerWrite req off v) s = .next s := by
  refine (execRegisterWrite.eq_def ..).trans ?_
  rw [hr, decide_eq_true (show off < 2 ^ 34 by omega), if_neg (by decide), if_neg (by omega), if_pos (bne_iff_ne.2 ha)]

theorem regWrite_plain {r : RegSpec} (h : plainReg s req off v r) : s.regWrite req off v = { s with dev := s.dev.writeReg off v } := by
  obtain ⟨hr, -, -, hw, h1, h2, h3, h4⟩ := h
  unfold State.regWrite
  rw [hw, if_neg (by decide), hr]
  dsimp only
  unfold State.definedWrite
  rw [h1, h2, h3, h4]

end

/-- Settles O29: the fields of every register share no bit, so each bit follows its own field's access code. -/
theorem registersFollowTheirAccessCodes : Obligations.RegistersFollowTheirAccessCodes := by
  refine ⟨fun r hr locked old v b h64 => ?_, fun s req off v r hreq hp he => ?_, fun s req off v hreq ho ha => ?_⟩
  · have hw : wellPlaced r.fields = true := List.all_eq_true.1 regTable_wellPlaced r hr
    refine ⟨fun f hf h1 h2 => ⟨?_, ?_⟩, fun hn => ⟨?_, ?_⟩⟩
    · exact writeFields_covered locked v h64 r.fields hw hf ⟨h1, h2⟩ old
    · exact readFields_covered old r.fields hw hf ⟨h1, h2⟩ 0 BitVec.getLsbD_zero
    · exact writeFields_other locked v r.fields hw hn old
    · exact (readFields_other old r.fields hw hn 0).trans BitVec.getLsbD_zero
  · refine (registerWrite_aligned hreq hp.2.1 hp.2.2.1).trans ?_
    rw [regWrite_plain hp, writeReg_plain v hp.1 he]
  · exact registerWrite_unaligned hreq ho ha

end Sys2Proof.Proofs
end

