-- ==== Sys2Proof/Proofs/InterruptEntry.lean ====
section
/-!
PROOFS. The entry of the highest takeable vector at a boundary (R467, R468), and of a strand lost (R351).
-/

namespace Sys2Proof.Proofs

open Sys2Proof Sys2Proof.Machine Sys2Proof.Laws

/-! ### The highest of a range that has a property -/

theorem find_reverse_range_some {p : Nat → Bool} {v : Nat} : ∀ {n : Nat}, v < n → p v = true → (∀ w, v < w → w < n → p w = false) →
    (List.range n).reverse.find? p = some v
  | 0, h, _, _ => absurd h (Nat.not_lt_zero v)
  | n + 1, h, hv, hw => by
    rw [List.range_succ, List.reverse_append, List.reverse_singleton, List.singleton_append]
    by_cases hn : v = n
    · rw [List.find?_cons_of_pos (hn ▸ hv), hn]
    · rw [List.find?_cons_of_neg (by rw [hw n (by omega) (by omega)]; decide)]
      exact find_reverse_range_some (by omega) hv fun w h1 h2 => hw w h1 (by omega)

theorem find_reverse_range_none {p : Nat → Bool} {n : Nat} (h : ∀ w, w < n → p w = false) : (List.range n).reverse.find? p = none := by
  rw [List.find?_eq_none]
  intro w hw
  rw [List.mem_reverse, List.mem_range] at hw
  rw [h w hw]
  decide

/-! ### What can be taken -/

section
variable {s : State} {g v : Nat}

theorem takeLevel_eq (x : Strand) (k : Nat) (ie : Bool) :
    takeLevel x k ie = if x.pl < classLevel x k ∨ x.pl = classLevel x k ∧ ie = true then some (classLevel x k) else none := by
  unfold takeLevel classLevel
  simp only [bitOf_eq_getLsbD, Bool.or_eq_true, decide_eq_true_iff, Bool.and_eq_true, beq_iff_eq]

theorem pendingAt_eq (s : State) (g v : Nat) :
    (if (v == 1023) = true then timerDue s.dev (s.strand g)
      else bitOf (s.dev.reg (R.PEND_BITS.reg + 0x100 * g + 8 * (v / 64))) (v % 64)) = pendingAt s g v := by
  unfold pendingAt timerDue
  simp only [bitOf_eq_getLsbD, beq_iff_eq]

theorem takeable_iff (hv : v < 1024) : s.takeable g v (s.strand g).ie = true ↔ canTake s g v := by
  unfold State.takeable canTake
  dsimp only
  rw [pendingAt_eq, takeLevel_eq]
  simp only [Bool.and_eq_true, bne_iff_ne, decide_eq_true_iff]
  constructor
  · rintro ⟨⟨⟨h1, h2⟩, h3⟩, h4⟩
    refine ⟨Nat.pos_of_ne_zero h2, hv, h1, h3, ?_⟩
    by_contra hc
    rw [if_neg hc] at h4
    cases h4
  · rintro ⟨h1, -, h2, h3, h4⟩
    rw [if_pos h4]
    exact ⟨⟨⟨h2, Nat.pos_iff_ne_zero.1 h1⟩, h3⟩, rfl⟩

theorem topVector_none (h : ∀ v, ¬canTake s g v) : s.topVector g (s.strand g).ie = none :=
  find_reverse_range_none fun w hw => Bool.eq_false_iff.2 fun ht => h w ((takeable_iff hw).1 ht)

theorem topVector_some (h : canTake s g v) (hw : ∀ w, v < w → ¬canTake s g w) : s.topVector g (s.strand g).ie = some v :=
  find_reverse_range_some h.2.1 ((takeable_iff h.2.1).2 h) fun w h1 h2 =>
    Bool.eq_false_iff.2 fun ht => hw w h1 ((takeable_iff h2).1 ht)

/-! ### The entry -/

theorem word_two_pow {k : Nat} (hk : k < 64) : word (2 ^ k) = 1#64 <<< k := by
  apply BitVec.eq_of_toNat_eq
  rw [word, BitVec.toNat_ofNat, BitVec.toNat_shiftLeft, Nat.shiftLeft_eq, BitVec.toNat_ofNat, Nat.one_mod_eq_one.2 (by decide), Nat.one_mul]

theorem clearPend_eq (d : Dev) (g v : Nat) :
    d.clearPend g v = d.setReg (R.PEND_BITS.reg + 0x100 * g + 8 * (v / 64))
      (d.reg (R.PEND_BITS.reg + 0x100 * g + 8 * (v / 64)) &&& ~~~(1#64 <<< (v % 64))) := by
  unfold Dev.clearPend
  rw [word_two_pow (Nat.mod_lt _ (by decide))]

theorem intCause_eq (v : Nat) : intCause v = BitVec.ofNat 64 (2 ^ 63 + 2 ^ 18 * (v / 64) + 2 ^ 8 * v) := by
  unfold intCause word
  congr 1
  omega

theorem takeVector_eq (h : canTake s g v) :
    s.takeVector g v = (({ s.setStrand g { s.strand g with tsync := false } with
      dev := if v = 1023 then s.dev else s.dev.clearPend g v } : State).enter g (classLevel (s.strand g) (v / 64)) .interrupt
        (s.strand g).pc (intCause v) false none none .none none) := by
  obtain ⟨-, -, -, -, hl⟩ := h
  unfold State.takeVector
  dsimp only
  rw [takeLevel_eq, if_pos hl]
  simp only [beq_iff_eq, setStrand_dev]

theorem interruptEntry_next (hg : g < 512) (hc : s.dev.clocksOk = true) (hb : s.atBoundary g = true)
    (hsh : (s.strand g).shadow = none) :
    exec (.interruptEntry g) s = (match (s.strand g).lost, s.topVector g (s.strand g).ie with
      | r :: rest, _ => .next (s.takeLost g r rest)
      | [], none => .next s
      | [], some v => .next (s.takeVector g v)) := by
  have hd : (s.strand g).shadowDue = false := by
    unfold Strand.shadowDue
    rw [hsh]
  have hdr : (s.dev.pm (g / 2)).draining = false := by
    unfold State.atBoundary at hb
    simp only [Bool.and_eq_true, Bool.not_eq_true'] at hb
    exact hb.1.1.1.2
  refine (execInterruptEntry.eq_def ..).trans ?_
  rw [show strandOk g = true from decide_eq_true hg, hc, hb, hd]
  rw [if_neg (c := false = true) (by decide)]
  dsimp only
  rw [hdr]
  rfl

end

/-- Settles O30: the search finds exactly the highest vector that R467 lets the strand take. -/
theorem interruptsAreTakenHighestFirst : Obligations.InterruptsAreTakenHighestFirst := by
  intro s g hg hc hb hsh
  dsimp only
  have hn := interruptEntry_next hg hc hb hsh
  refine ⟨fun hl h => ?_, fun v hl h hw => ?_, fun r rest hl => ?_, ?_⟩
  · rw [hl, topVector_none h] at hn
    exact hn
  · rw [hl, topVector_some h hw] at hn
    refine hn.trans ?_
    dsimp only
    rw [takeVector_eq h, intCause_eq, clearPend_eq]
    rfl
  · rw [hl] at hn
    exact hn
  · exact (execTimecmpReached.eq_def ..).trans (if_pos (decide_eq_true hg))

end Sys2Proof.Proofs
end

