-- ==== Sys2Proof/Proofs/LocksAndSpares.lean ====
section
/-!
PROOFS. Undefined offsets (R35), boot-lock (R38, R393, R510), the warming of spares (R23, R25) and the steward's restart (R30).
-/

namespace Sys2Proof.Proofs

open Sys2Proof Sys2Proof.Machine Sys2Proof.Laws

theorem dev_makes {c : Instr} {ok : Bool} {s : State} {f : Dev → Dev} {e : Dev} (hc : exec c s = onDev ok s f) (hok : ok = true)
    (he : f s.dev = e) : Makes c s e :=
  hc.trans ((if_pos hok).trans (congrArg (fun d => Host.Outcome.next ({ s with dev := d } : State)) he))

/-- The values that a filter of a map keeps come from the map. -/
theorem smap_mem_filterMap {β : Type} [DecidableEq β] (d : Nat → β) (f : Nat → β → Option β) {m : SMap β} {kv : Nat × β}
    (h : kv ∈ SMap.filterMap d f m) : ∃ v, (kv.1, v) ∈ m ∧ f kv.1 v = some kv.2 := by
  induction m with
  | nil => cases h
  | cons p m ih =>
    obtain ⟨j, v⟩ := p
    have tail (h : kv ∈ SMap.filterMap d f m) : ∃ w, (kv.1, w) ∈ (j, v) :: m ∧ f kv.1 w = some kv.2 := by
      obtain ⟨w, hw, hf⟩ := ih h
      exact ⟨w, List.mem_cons_of_mem _ hw, hf⟩
    unfold SMap.filterMap at h
    cases hf : f j v with
    | none =>
      rw [hf] at h
      exact tail h
    | some w =>
      rw [hf] at h
      dsimp only at h
      split at h
      · exact tail h
      · obtain rfl | h := List.mem_cons.1 h
        · exact ⟨v, List.mem_cons_self, hf⟩
        · exact tail h

/-! ### Undefined offsets -/

theorem self_lt (d : Dev) : d.self < 8 := getF_lt _ 24 3

theorem hole_kept {d : Dev} (h : d.flag R.HOLE_VALID = true) (r : Requester) (off : Nat) (w : Bool) : d.hole r off w = d := if_pos h

/-- The requester as HOLE names it (R40). -/
def holeId (d : Dev) (r : Requester) : Nat :=
  match r with
  | .strand g => 512 * d.self + g
  | .other => 0xFFF

theorem holeId_lt (d : Dev) {r : Requester} (hr : reqOk r = true) : holeId d r < 2 ^ 12 := by
  cases r with
  | other => exact (by decide : 0xFFF < 2 ^ 12)
  | strand g =>
    have h1 := self_lt d
    have h2 : g < 512 := of_decide_eq_true hr
    show 512 * d.self + g < 2 ^ 12
    omega

theorem requesterId_setFld (d : Dev) (r : Requester) (off : Nat) : (d.setFld R.HOLE_OFFSET off).requesterId r = holeId d r := by
  cases r with
  | other => rfl
  | strand g =>
    show (d.setFld R.HOLE_OFFSET off).fld R.IDENT_SOCKET_ID * 512 + g = 512 * d.self + g
    rw [fld_setFld_reg _ _ _ _ (by decide), Nat.mul_comm]
    rfl

/-- The first access to an undefined offset loads HOLE. -/
theorem hole_loaded {d : Dev} (h : d.flag R.HOLE_VALID = false) {r : Requester} (hr : reqOk r = true) {off : Nat} (ho : off < 2 ^ 28)
    (w : Bool) :
    (d.hole r off w).flag R.HOLE_VALID = true ∧ (d.hole r off w).fld R.HOLE_OFFSET = off ∧
      (d.hole r off w).fld R.HOLE_WRITE = (if w then 1 else 0) ∧ (d.hole r off w).fld R.HOLE_REQUESTER = holeId d r ∧
      (∀ x, x ≠ R.HOLE_OFFSET.reg → (d.hole r off w).reg x = d.reg x) ∧ bare (d.hole r off w) = bare d := by
  have hlt := holeId_lt d hr
  have heq : d.hole r off w = (((d.setFld R.HOLE_OFFSET off).setFld R.HOLE_REQUESTER (holeId d r)).setFld R.HOLE_WRITE (bnat w)).setFld
      R.HOLE_VALID 1 := by
    unfold Dev.hole
    rw [h, ← requesterId_setFld d r off]
    rfl
  rw [heq]
  refine ⟨flag_setFld_one _ _ (by decide) (by decide), ?_, ?_, ?_, fun x hx => ?_, ?_⟩
  · rw [fld_setFld_apart _ _ _ _ (by decide) (by decide), fld_setFld_apart _ _ _ _ (by decide) (by decide),
      fld_setFld_apart _ _ _ _ (by decide) (by decide), fld_setFld_lt _ (by decide) ho]
  · rw [fld_setFld_apart _ _ _ _ (by decide) (by decide)]
    cases w with
    | true => exact fld_setFld_lt _ (by decide) (by decide)
    | false => exact fld_setFld_lt _ (by decide) (by decide)
  · rw [fld_setFld_apart _ _ _ _ (by decide) (by decide), fld_setFld_apart _ _ _ _ (by decide) (by decide),
      fld_setFld_lt _ (by decide) hlt]
  · rw [reg_setFld_other _ R.HOLE_VALID _ _ hx, reg_setFld_other _ R.HOLE_WRITE _ _ hx, reg_setFld_other _ R.HOLE_REQUESTER _ _ hx,
      reg_setFld_other _ _ _ _ hx]
  · rw [bare_setFld, bare_setFld, bare_setFld, bare_setFld]

section
variable {s : State} {req : Requester} {off : Nat} {w : Bool}

theorem undefinedOffsetAccess_makes (hr : reqOk req = true) (ho : off < 2 ^ 28) (ha : off % 8 = 0) (hd : definedOff off = false) :
    Makes (.undefinedOffsetAccess req off w) s (s.dev.hole req off w) := by
  refine dev_makes (execUndefinedOffsetAccess.eq_def ..) ?_ (if_pos ?_)
  · rw [hr, decide_eq_true ho]
    rfl
  · rw [hd, beq_iff_eq.2 ha]
    rfl

theorem regWrite_undefined {v : Word} (ho : off < 2 ^ 28) (hd : definedOff off = false) :
    s.regWrite req off v = { s with dev := s.dev.hole req off true } := by
  obtain ⟨h1, h2⟩ := Bool.or_eq_false_iff.1 hd
  unfold State.regWrite
  rw [h2, if_neg (by decide), show regAt off = none from Option.not_isSome_iff_eq_none.1 (by rw [h1]; decide)]
  exact if_pos ho

end

theorem undefinedOffsetsAreRecordedOnce_hold : undefinedOffsetsAreRecordedOnce := by
  intro s req off w hr ho ha hd
  have hm (w : Bool) := undefinedOffsetAccess_makes (s := s) (w := w) hr ho ha hd
  refine ⟨fun h => ?_, fun h => ?_, fun v => ⟨_, ?_, hm true⟩⟩
  rotate_left
  · obtain ⟨h1, h2, h3, h4, h5, -⟩ := hole_loaded h hr ho w
    refine ⟨_, hm w, h1, h2, h3, ?_, h5⟩
    cases req with
    | strand g => exact h4
    | other => exact h4
  rotate_right
  · have h1 := hm w
    rw [hole_kept h] at h1
    exact h1
  · exact (registerWrite_aligned hr (by omega) ha).trans (congrArg Host.Outcome.next (regWrite_undefined ho hd))

/-! ### Boot-lock -/

theorem lockWrite_kept {d : Dev} {v : Word} (h : d.locked = true ∨ v.getLsbD 0 = false) : d.lockWrite v = d := by
  refine if_pos ?_
  rw [bitOf_eq_getLsbD]
  obtain h | h := h
  · rw [h]
    rfl
  · rw [h, Bool.not_false, Bool.or_true]

/-- What the steward stores at the lock, and what the sockets are told. -/
def lockTold (d : Dev) : Dev :=
  let d := { d with fw := { d.fw with snapshot := some d.lockedSnapshot } }
  d.chainSend 0x31 (leBytes 8 (d.reg R.ECAM_BASE_EN.reg).toNat ++ leBytes 8 d.mapDigest.toNat)

/-- What the lock's write leaves: the bit, the table's enable, the snapshot of what then stands. -/
theorem lockWrite_locks {d : Dev} {v : Word} (hl : d.locked = false) (hv : v.getLsbD 0 = true) :
    (d.lockWrite v).locked = true ∧ (d.lockWrite v).flag R.POT_BASE_EN = (d.flag R.POT_BASE_EN && d.potFits) ∧
      (d.lockWrite v).fw.snapshot = some (d.lockWrite v).lockedSnapshot ∧
      (∀ x, x ≠ R.LOCK_BOOT_LOCK.reg → x ≠ R.POT_BASE_EN.reg → (d.lockWrite v).reg x = d.reg x) ∧
      (d.lockWrite v).dram = d.dram ∧ (d.lockWrite v).peat = d.peat := by
  obtain ⟨e, he⟩ : ∃ e, e = if d.potFits = true then d else d.setFld R.POT_BASE_EN 0 := ⟨_, rfl⟩
  obtain ⟨z, hz⟩ : ∃ z, z = e.setFld R.LOCK_BOOT_LOCK 1 := ⟨_, rfl⟩
  have heq : d.lockWrite v = lockTold z := by
    refine (if_neg ?_).trans ?_
    · rw [bitOf_eq_getLsbD, hl, hv]
      decide
    · rw [← he]
      dsimp only
      rw [← hz]
      rfl
  have hbare : bare z = bare d := by
    rw [hz, bare_setFld, he]
    exact bare_ite rfl (bare_setFld _ _ _)
  rw [heq]
  refine ⟨hz ▸ flag_setFld_one e R.LOCK_BOOT_LOCK (by decide) (by decide), ?_, rfl, fun x h1 h2 => ?_,
    (of_bare Dev.dram (fun _ => rfl) hbare : z.dram = d.dram), (of_bare Dev.peat (fun _ => rfl) hbare : z.peat = d.peat)⟩
  · show z.flag R.POT_BASE_EN = _
    rw [hz, flag_setFld_reg _ _ _ _ (by decide), he]
    cases d.potFits with
    | true => exact (Bool.and_true _).symm
    | false => exact (flag_setFld_zero _ _ (by decide)).trans (Bool.and_false _).symm
  · show z.reg x = _
    rw [hz, reg_setFld_other _ _ _ _ h1, he]
    split
    · rfl
    · exact reg_setFld_other _ _ _ _ h2

theorem bootLock_hold : bootLock := by
  intro s req v hr
  refine ⟨fun h => ?_, fun h1 h2 => ⟨_, (execBootLock.eq_def ..).trans (if_pos hr), lockWrite_locks h1 h2⟩⟩
  refine (execBootLock.eq_def ..).trans ((if_pos hr).trans ?_)
  dsimp only
  rw [lockWrite_kept h]

/-! ### Spares, and the steward's restart -/

section
variable {s : State} {c : Nat}

theorem tlbOf_setTlb_other (d : Dev) {c k : Nat} (t : List TlbEntry) (h : k ≠ c) : (d.setTlb c t).tlbOf k = d.tlbOf k :=
  smap_get_set_other _ _ _ _ _ h

theorem linesOf_emptyCore (d : Dev) (c : Nat) : (d.emptyCore c).linesOf c = [] := by
  unfold Dev.linesOf
  rw [List.map_eq_nil_iff, List.filter_eq_nil_iff]
  intro kv hkv
  obtain ⟨v, -, hv⟩ := smap_mem_filterMap _ _ (show kv ∈ keepL2 c d.l2 from hkv)
  intro h
  rw [Bool.and_eq_true] at h
  rw [if_pos h.1] at hv
  cases hv

theorem warmSpare_makes (hc : c < 288) (h2 : s.dev.coreState c = 2) (hw : s.dev.warmSpares < s.dev.fld R.CORE_COUNT_WARM_TARGET) :
    MakesSome (.warmSpare c) s fun e =>
      e.coreState c = 3 ∧ e.fld (R.CORE_PWR_STATE.at (8 * c)) = 2 ∧ e.linesOf c = [] ∧ e.tlbOf c = [] ∧
      ∀ k, k ≠ c → k < 288 → e.coreState k = s.dev.coreState k ∧ e.tlbOf k = s.dev.tlbOf k := by
  have hpw (k : Nat) (hk : k < 288) : (R.CORE_STATE_STATE.at (8 * k)).reg ≠ (corePwr c).reg := by
    show 0x2000 + 8 * k ≠ 0x9002000 + 8 * c
    omega
  have hbare : bare (((s.dev.emptyCore c).setCoreState c 3).setFld (corePwr c) 2) = bare (s.dev.emptyCore c) := by
    rw [bare_setFld]
    exact bare_setFld _ _ _
  have hfld (f : Field) : (s.dev.emptyCore c).fld f = s.dev.fld f := rfl
  refine ⟨((s.dev.emptyCore c).setCoreState c 3).setFld (corePwr c) 2, dev_makes (execWarmSpare.eq_def ..) (decide_eq_true hc) (if_pos ?_),
    ?_, fld_setFld_lt (f := corePwr c) _ (show R.CORE_PWR_STATE.lo + R.CORE_PWR_STATE.width ≤ 64 by decide)
      (show 2 < 2 ^ R.CORE_PWR_STATE.width by decide),
    ?_, ?_, fun k hk hk' => ⟨?_, ?_⟩⟩
  · unfold Dev.mayWarm
    rw [h2, decide_eq_true hw]
    rfl
  · exact (fld_setFld_reg _ _ _ _ (hpw c hc)).trans
      (fld_setFld_lt _ (show R.CORE_STATE_STATE.lo + R.CORE_STATE_STATE.width ≤ 64 by decide)
        (show 3 < 2 ^ R.CORE_STATE_STATE.width by decide))
  · exact (of_bare (fun z => z.linesOf c) (fun _ => rfl) hbare).trans (linesOf_emptyCore _ _)
  · exact (of_bare (fun z => z.tlbOf c) (fun _ => rfl) hbare).trans (tlbOf_setTlb _ _ _)
  · refine (fld_setFld_reg _ _ _ _ (hpw k hk')).trans ((fld_setFld_reg _ _ _ _ ?_).trans (hfld _))
    show 0x2000 + 8 * k ≠ 0x2000 + 8 * c
    omega
  · exact (of_bare (fun z => z.tlbOf k) (fun _ => rfl) hbare).trans (tlbOf_setTlb_other _ _ hk)

theorem warmSpare_gives (hc : c < 288) (h : s.dev.coreState c ≠ 2 ∨ s.dev.fld R.CORE_COUNT_WARM_TARGET ≤ s.dev.warmSpares) :
    Gives (.warmSpare c) s s := by
  refine dev_makes (e := s.dev) (execWarmSpare.eq_def ..) (decide_eq_true hc) (if_neg ?_)
  unfold Dev.mayWarm
  rw [Bool.and_eq_true, beq_iff_eq, decide_eq_true_iff]
  omega

theorem watchdogRestart_makes :
    MakesSome .stewardWatchdogRestart s fun e =>
      e.fld R.STW_STATUS_STATE = 1 ∧ e.fld R.STW_STATUS_RESTARTS =
        min (s.dev.fld R.STW_STATUS_RESTARTS + 1) (2 ^ R.STW_STATUS_RESTARTS.width - 1) ∧ e.dram = s.dev.dram ∧ e.peat = s.dev.peat := by
  obtain ⟨e, he⟩ : ∃ e, e = (s.dev.addSat R.STW_STATUS_RESTARTS 1).setFld R.STW_STATUS_STATE 1 := ⟨_, rfl⟩
  have hq : quiet ((e.bmcEvent 2 0).log { source := 0x10, cls := 5 }) = quiet s.dev := by
    rw [quiet_log, quiet_bmcEvent, he, quiet_setFld, quiet_addSat]
  refine ⟨_, dev_makes (execStewardWatchdogRestart.eq_def ..) rfl (congrArg (fun z : Dev => (z.bmcEvent 2 0).log { source := 0x10, cls := 5 }) he.symm),
    ?_, ?_, of_quiet Dev.dram (fun _ => rfl) hq, of_quiet Dev.peat (fun _ => rfl) hq⟩
  · rw [fld_log_other _ _ (by decide), fld_bmcEvent, he, fld_setFld_lt _ (by decide) (by decide)]
  · rw [fld_log_other _ _ (by decide), fld_bmcEvent, he, fld_setFld_apart _ _ _ _ (by decide) (by decide), fld_addSat _ _ _ (by decide)]

end

theorem sparesWarmAndTheStewardRestarts_hold : sparesWarmAndTheStewardRestarts := by
  intro s
  dsimp only
  exact ⟨fun c hc => ⟨fun h2 hw => warmSpare_makes hc h2 hw, fun h => warmSpare_gives hc h⟩, watchdogRestart_makes⟩

/-- Settles O31: each of these commands acts once, where its own bit or state allows it. -/
theorem locksAndSpares : Obligations.LocksAndSpares :=
  ⟨undefinedOffsetsAreRecordedOnce_hold, bootLock_hold, sparesWarmAndTheStewardRestarts_hold⟩

end Sys2Proof.Proofs
end

