-- ==== Sys2Proof/Proofs/InterruptDelivery.lean ====
section
/-!
PROOFS. Interrupts on their way to strands and blocks (R470 to R475, R479), and their binding (R478).
-/

namespace Sys2Proof.Proofs

open Sys2Proof Sys2Proof.Machine Sys2Proof.Laws

/-! ### Direct delivery (R474) -/

section
variable {d : Dev} {t v : Nat}

theorem deliver_invalid (hv : v < 1024) (h : v = 0 ∨ v = 1023) : d.deliver t v = d.addSat R.IR_DROP_INVALID 1 := by
  refine if_pos ?_
  rw [Nat.mod_eq_of_lt hv]
  obtain rfl | rfl := h
  · rfl
  · rfl

theorem deliver_valid (hv : v < 1024) (h0 : v ≠ 0) (h1 : v ≠ 1023) (ht : t < 4096) :
    d.deliver t v = if t / 512 ≠ d.self then
        (if (d.fld R.CHAIN_STATUS_COHERENT).testBit (t / 512) = true then d else d.addSat R.IR_DROP_ABSENT 1)
      else if d.coreThere (t % 512 / 2) = true then d.setPend (t % 512) v else d.addSat R.IR_DROP_ABSENT 1 := by
  unfold Dev.deliver
  rw [Nat.mod_eq_of_lt hv, Nat.mod_eq_of_lt (show t / 512 < 8 by omega), natBit_eq_testBit, if_neg (by simp [h0, h1])]
  simp only [bne_iff_ne]

theorem deliveryRules_hold (d : Dev) : deliveryRules d := by
  intro t v ht hv
  dsimp only
  refine ⟨fun h => ?_, fun h0 h1 hs hc => ?_, fun h0 h1 hn => ?_⟩
  · rw [deliver_invalid hv h]
    exact ⟨fld_addSat _ _ _ (by decide), fld_setFld_apart _ _ _ _ (by decide) (by decide)⟩
  · rw [deliver_valid hv h0 h1 ht, if_neg (not_not.2 hs), if_pos hc]
    unfold Dev.setPend
    rw [word_two_pow (Nat.mod_lt _ (by decide))]
    exact ⟨reg_setReg_same _ _ _, fun x hx => reg_setReg_other _ _ _ _ hx⟩
  · have hd : d.deliver t v = d.addSat R.IR_DROP_ABSENT 1 := by
      rw [deliver_valid hv h0 h1 ht]
      by_cases hs : t / 512 = d.self
      · rw [if_pos hs] at hn
        rw [if_neg (not_not.2 hs), if_neg (by rw [hn]; decide)]
      · rw [if_neg hs] at hn
        rw [if_pos hs, if_neg (by rw [hn]; decide)]
    rw [hd]
    exact ⟨fld_addSat _ _ _ (by decide), fld_setFld_apart _ _ _ _ (by decide) (by decide)⟩

end

/-! ### Discards are counted -/

/-- The invalid messages counted so far. -/
def drops (d : Dev) : Nat := d.fld R.IR_DROP_INVALID

theorem drops_of_reg {d e : Dev} (h : e.reg R.IR_DROP_INVALID.reg = d.reg R.IR_DROP_INVALID.reg) : drops e = drops d :=
  congrArg R.IR_DROP_INVALID.get h

theorem drops_le_ite {p : Prop} [Decidable p] {a b : Dev} {n : Nat} (ha : n ≤ drops a) (hb : n ≤ drops b) :
    n ≤ drops (if p then a else b) := by
  split
  · exact ha
  · exact hb

theorem drops_lt (d : Dev) : drops d < 2 ^ 32 := getF_lt _ _ _

theorem drops_addSat (d : Dev) : drops (d.addSat R.IR_DROP_INVALID 1) = min (drops d + 1) (2 ^ 32 - 1) :=
  fld_addSat _ _ _ (by decide)

theorem drops_absent (d : Dev) : drops (d.addSat R.IR_DROP_ABSENT 1) = drops d :=
  fld_setFld_apart _ _ _ _ (by decide) (by decide)

theorem drops_deliver (d : Dev) (t v : Nat) : drops d ≤ drops (d.deliver t v) := by
  have hi : drops d ≤ drops (d.addSat R.IR_DROP_INVALID 1) := by
    have h := drops_lt d
    rw [drops_addSat]
    omega
  have ha : drops d ≤ drops (d.addSat R.IR_DROP_ABSENT 1) := (drops_absent d).ge
  refine drops_le_ite hi (drops_le_ite (drops_le_ite le_rfl ha) (drops_le_ite ?_ ha))
  refine (drops_of_reg (reg_setReg_other _ _ _ _ ?_)).ge
  show 0x6000020 ≠ 0x6010000 + _ + _
  omega

theorem drops_rise (old d : Dev) : drops d ≤ drops (Dev.rise old d) := by
  have hr (e : Dev) (n : Nat) : drops e ≤ drops (e.routeEvent n) := drops_le_ite (drops_deliver _ _ _) le_rfl
  have h0 : drops d ≤ drops (if d.lineHigh 0 && !old.lineHigh 0 then d.routeEvent 0 else d) := drops_le_ite (hr _ _) le_rfl
  exact drops_le_ite (h0.trans (hr _ _)) h0

theorem drops_setFld (d : Dev) (f : Field) (x : Nat) (h : R.IR_DROP_INVALID.reg ≠ f.reg) : drops (d.setFld f x) = drops d :=
  fld_setFld_reg _ _ _ _ h

theorem drops_log (d : Dev) (r : Rep) : drops d ≤ drops (d.log r) := by
  have hev (e : Dev) (bits : Nat) : drops e ≤ drops (e.errEvent bits) :=
    drops_le_ite ((drops_of_reg (reg_setReg_other _ _ _ _ (by decide))).ge.trans (drops_rise _ _)) le_rfl
  have hfi (e : Dev) (b : Bool) : drops (e.faultIf b) = drops e := by
    unfold Dev.faultIf
    split
    · exact drops_setFld e _ _ (by decide)
    · rfl
  have hb (e : Dev) (k n : Nat) : drops (e.bmcEvent k n) = drops e := fld_bmcEvent _ _ _ _
  have happ : drops d ≤ drops (d.appendRecord r) := by
    unfold Dev.appendRecord
    dsimp only
    refine le_trans ?_ (hev _ _)
    rw [hfi]
    have h (e : Dev) (n : Nat) (b : Bool) :
        drops (((if b = true then (e.setFld R.ERR_TAIL_INDEX (e.fld R.ERR_TAIL_INDEX + 1)).addSat R.ERR_STATUS_LOST 1
          else e).setFld R.ERR_HEAD_INDEX n).addWrap R.ERR_HEAD_TOTAL 1) = drops e := by
      rw [Dev.addWrap, drops_setFld _ _ _ (by decide), drops_setFld _ _ _ (by decide)]
      split
      · rw [Dev.addSat, drops_setFld _ _ _ (by decide), drops_setFld _ _ _ (by decide)]
      · rfl
    have h0 (m : SMap (Option Record)) : drops { d with ring := m } = drops d := rfl
    refine drops_le_ite ?_ ?_
    · rw [hb, drops_setFld _ _ _ (by decide), h]
      exact (h0 _).ge
    · rw [drops_setFld _ _ _ (by decide), h]
      exact (h0 _).ge
  unfold Dev.log Dev.record
  dsimp only
  split
  · split
    · exact le_rfl
    · exact le_rfl
  · exact happ

/-- A discarded message is counted, and the first one that stands loads IR_FAULT. -/
theorem irDiscard_counts (d : Dev) {rid index : Nat} (hr : rid < 2 ^ 16) (hi : index < 2 ^ 16) (reason : Nat) :
    min (drops d + 1) (2 ^ 32 - 1) ≤ drops (d.irDiscard rid index reason) ∧
      (d.flag R.IR_FAULT_VALID = false → (d.irDiscard rid index reason).flag R.IR_FAULT_VALID = true ∧
        (d.irDiscard rid index reason).fld R.IR_FAULT_RID = rid ∧ (d.irDiscard rid index reason).fld R.IR_FAULT_INDEX = index) := by
  obtain ⟨a, ha⟩ : ∃ a, a = d.addSat R.IR_DROP_INVALID 1 := ⟨_, rfl⟩
  have hda : drops a = min (drops d + 1) (2 ^ 32 - 1) := ha ▸ drops_addSat d
  have hva : a.flag R.IR_FAULT_VALID = d.flag R.IR_FAULT_VALID := ha ▸ flag_setFld_reg _ _ _ _ (by decide)
  obtain ⟨e, he⟩ : ∃ e, e = if a.flag R.IR_FAULT_VALID = true then a
      else (((a.setFld R.IR_FAULT_RID rid).setFld R.IR_FAULT_INDEX index).setFld R.IR_FAULT_REASON reason).setFld R.IR_FAULT_VALID 1 :=
    ⟨_, rfl⟩
  have heq : d.irDiscard rid index reason = e.log { source := 0x15, cls := 5, syndrome := reason, address := index } := by
    unfold Dev.irDiscard
    dsimp only
    rw [← ha, ← he]
  have hde : drops e = drops a := by
    rw [he]
    split
    · rfl
    · rw [drops_setFld _ _ _ (by decide), drops_setFld _ _ _ (by decide), drops_setFld _ _ _ (by decide), drops_setFld _ _ _ (by decide)]
  rw [heq]
  refine ⟨?_, fun hv => ?_⟩
  · rw [← hda, ← hde]
    exact drops_log _ _
  · rw [if_neg (by rw [hva, hv]; decide)] at he
    rw [flag_log_other _ _ (by decide), fld_log_other _ _ (by decide), fld_log_other _ _ (by decide), he]
    refine ⟨flag_setFld_one _ _ (by decide) (by decide), ?_, ?_⟩
    · rw [fld_setFld_apart _ _ _ _ (by decide) (by decide), fld_setFld_apart _ _ _ _ (by decide) (by decide),
        fld_setFld_apart _ _ _ _ (by decide) (by decide), fld_setFld_lt _ (by decide) hr]
    · rw [fld_setFld_apart _ _ _ _ (by decide) (by decide), fld_setFld_apart _ _ _ _ (by decide) (by decide),
        fld_setFld_lt _ (by decide) hi]

/-! ### Messages and their remapping (R470 to R473) -/

section
variable {d : Dev} {rid : BitVec 16} {addr : Word} {n : Nat} {x : BitVec 32}

theorem irMessage_off (h : d.flag R.IR_IRT_BASE_EN = false) : d.irMessage rid addr n x = d.irDiscard rid.toNat (x.toNat % 65536) 1 := by
  refine if_pos ?_
  rw [h]
  rfl

/-- What a message becomes once its entry is read. -/
def entryMessage (rid : BitVec 16) (idx : Nat) (w0 w1 : Word) (d : Dev) : Dev :=
  if !bitOf w0 0 then d.irDiscard rid.toNat idx 2
  else if (getF w0 24 16 ^^^ rid.toNat) &&& getF w0 40 16 != 0 then d.irDiscard rid.toNat idx 3
  else if getF w0 2 10 == 0 || getF w0 2 10 == 1023 then d.irDiscard rid.toNat idx 4
  else if bitOf w0 1 then
    if d.blockOk (getF w1 8 44 * 256) then d.guestMessage (getF w1 8 44 * 256) (getF w0 2 10) else d.irDiscard rid.toNat idx 5
  else d.deliver (getF w0 12 12) (getF w0 2 10)

theorem irMessage_entry (he : d.flag R.IR_IRT_BASE_EN = true) (hs : x.toNat % 65536 < d.irtSize) (ha : addr.toNat % 4 = 0)
    {w0 w1 : Word} {d' : Dev} (hd : d.irtEntry (x.toNat % 65536) = ((w0, w1), d')) :
    d.irMessage rid addr 4 x = entryMessage rid (x.toNat % 65536) w0 w1 d' := by
  refine (if_neg ?_).trans ((if_neg ?_).trans ?_)
  · rw [he, decide_eq_false (by omega)]
    decide
  · rw [ha]
    decide
  · dsimp only
    rw [hd]
    rfl

theorem entryMessage_counts {w0 w1 : Word} {idx : Nat} (hi : idx < 2 ^ 16) (d : Dev)
    (h : bitOf w0 0 = false ∨ (getF w0 24 16 ^^^ rid.toNat) &&& getF w0 40 16 ≠ 0 ∨ getF w0 2 10 = 0 ∨ getF w0 2 10 = 1023) :
    min (drops d + 1) (2 ^ 32 - 1) ≤ drops (entryMessage rid idx w0 w1 d) := by
  have hc (r : Nat) : min (drops d + 1) (2 ^ 32 - 1) ≤ drops (d.irDiscard rid.toNat idx r) := (irDiscard_counts d rid.isLt hi r).1
  unfold entryMessage
  split
  · exact hc _
  · next h0 =>
    split
    · exact hc _
    · next h1 =>
      split
      · exact hc _
      · next h2 =>
        simp only [Bool.or_eq_true, beq_iff_eq, bne_iff_ne, not_not, Bool.not_eq_true', Bool.not_eq_false, not_or] at h0 h1 h2
        obtain h | h | h | h := h
        · rw [h0] at h
          cases h
        · exact absurd h1 h
        · exact absurd h h2.1
        · exact absurd h h2.2

theorem entryMessage_direct {w0 w1 : Word} {idx : Nat} (h0 : bitOf w0 0 = true) (h1 : (getF w0 24 16 ^^^ rid.toNat) &&& getF w0 40 16 = 0)
    (h2 : getF w0 2 10 ≠ 0) (h3 : getF w0 2 10 ≠ 1023) (h4 : bitOf w0 1 = false) :
    entryMessage rid idx w0 w1 d = d.deliver (getF w0 12 12) (getF w0 2 10) := by
  unfold entryMessage
  rw [h0, h1, h4, if_neg (by decide), if_neg (by decide), if_neg (by simp [h2, h3]), if_neg (by decide)]

/-- A requester that the entry's mask tells apart, in bits and in numbers. -/
theorem otherRequester_iff (w0 : Word) :
    (getF w0 24 16 ^^^ rid.toNat) &&& getF w0 40 16 = 0 ↔ (w0.extractLsb' 24 16 ^^^ rid) &&& w0.extractLsb' 40 16 = 0#16 := by
  rw [getF_eq_extract, getF_eq_extract, ← BitVec.toNat_xor, ← BitVec.toNat_and, ← BitVec.toNat_inj]
  rfl

end

/-! ### The commands -/

section
variable {s : State} {req : Requester} {v : Word}

theorem irSend_delivers (hr : reqOk req = true) (hv : v.getLsbD 22 = false) :
    Makes (.irSend req v) s (s.dev.deliver (v.extractLsb' 0 12).toNat (v.extractLsb' 12 10).toNat) := by
  refine (execIrSend.eq_def ..).trans ((if_pos hr).trans ?_)
  unfold State.irSendWrite
  rw [bitOf_eq_getLsbD, hv, getF_eq_extract, getF_eq_extract]
  rfl

theorem irWake_wakes (hr : reqOk req = true) (hv : v.getLsbD 22 = true) (hs : (v.extractLsb' 9 3).toNat = s.dev.self)
    (hc : s.dev.coreThere ((v.extractLsb' 0 9).toNat / 2) = true)
    (hw : (v.extractLsb' 0 9).toNat % 2 = 1 → (s.dev.pm ((v.extractLsb' 0 9).toNat / 2)).holdsWake = false) :
    GivesSome (.irWake req v) s fun t =>
      t.strand (v.extractLsb' 0 9).toNat = { s.strand (v.extractLsb' 0 9).toNat with parked := false } ∧
      ∀ k, k ≠ (v.extractLsb' 0 9).toNat → t.strand k = s.strand k := by
  have h1 : getF v 0 12 / 512 % 8 = (v.extractLsb' 9 3).toNat := by
    rw [← getF_eq_extract]
    unfold getF
    omega
  have h2 : getF v 0 12 % 512 = (v.extractLsb' 0 9).toNat := by
    rw [← getF_eq_extract]
    unfold getF
    omega
  generalize (v.extractLsb' 0 9).toNat = g at *
  refine ⟨s.wake g, (execIrWake.eq_def ..).trans ((if_pos hr).trans ?_), ?_⟩
  · unfold State.irSendWrite State.wakeId
    rw [bitOf_eq_getLsbD, hv, h1, hs, h2, hc, bne_self_eq_false]
    rfl
  · have hh : (g % 2 == 1 && (s.dev.pm (g / 2)).holdsWake) = false := by
      by_cases hg : g % 2 = 1
      · rw [hw hg, Bool.and_false]
      · rw [beq_eq_false_iff_ne.2 hg, Bool.false_and]
    unfold State.wake
    dsimp only
    rw [hh, if_neg (by decide)]
    cases hp : (s.strand g).parked with
    | false =>
      rw [Bool.not_false, if_pos rfl]
      refine ⟨?_, fun k _ => rfl⟩
      rw [← hp]
    | true =>
      rw [Bool.not_true, if_neg (by decide)]
      split
      · exact ⟨(strand_dev _ _ _).trans (strand_setStrand_same _ _ _),
          fun k hk => (strand_dev _ _ _).trans (strand_setStrand_other _ _ _ _ hk)⟩
      · exact ⟨(strand_dev _ _ _).trans (strand_setStrand_same _ _ _),
          fun k hk => (strand_dev _ _ _).trans (strand_setStrand_other _ _ _ _ hk)⟩

end

theorem lineHigh_of_four_le (d : Dev) {e : Nat} (h : 2 ≤ e) : d.lineHigh e = false := by
  refine (if_neg ?_).trans (if_neg ?_)
  · rw [beq_iff_eq]
    omega
  · rw [beq_iff_eq]
    omega

theorem interruptMessages_hold (s : State) (rid : BitVec 16) (addr : Word) (n : Nat) (x : BitVec 32) (hc : s.dev.clocksOk = true) :
    (s.dev.inMsgWindow addr = false → Gives (.interruptMessage rid addr n x) s s) ∧
    (s.dev.inMsgWindow addr = true → Makes (.interruptMessage rid addr n x) s (s.dev.irMessage rid addr n x)) := by
  have h : exec (.interruptMessage rid addr n x) s = .next { s with
      dev := if s.dev.inMsgWindow addr = true then s.dev.irMessage rid addr n x else s.dev } :=
    (execInterruptMessage.eq_def ..).trans (if_pos hc)
  refine ⟨fun hw => ?_, fun hw => ?_⟩
  · rw [hw] at h
    exact h
  · rw [hw] at h
    exact h

theorem interruptDelivery_hold : interruptDelivery := by
  intro s
  dsimp only
  refine ⟨deliveryRules_hold _, fun req v hr hv => irSend_delivers hr hv, fun req v hr hv hs hc hw => irWake_wakes hr hv hs hc hw,
    fun req v hr => ⟨fun hv => ?_, fun hv => ?_⟩, fun rid addr n x hc => ⟨fun hw => (interruptMessages_hold s rid addr n x hc).1 hw,
      fun hw he => ?_, fun hw he hs hn ha w0 w1 d' hd => ⟨fun h => ?_, fun h0 h1 h2 h3 h4 => ?_⟩⟩,
    fun e he => ⟨fun h1 h2 h3 => ?_, fun h1 h2 => ?_, fun h1 h2 h3 => ?_, fun h1 => ?_⟩⟩
  · exact dev_makes (execIrInv.eq_def ..) hr (if_pos ((bitOf_eq_getLsbD _ _).trans hv))
  · refine ⟨_, dev_makes (execIrInv.eq_def ..) hr (if_neg ?_), ?_⟩
    · rw [bitOf_eq_getLsbD, hv]
      decide
    · dsimp only
      rw [getF_eq_extract]
  · have h := (interruptMessages_hold s rid addr n x hc).2 hw
    rw [irMessage_off he] at h
    have hk := irDiscard_counts s.dev rid.isLt (show x.toNat % 65536 < 2 ^ 16 by omega) 1
    exact ⟨_, h, hk.1, hk.2⟩
  · subst hn
    have hm := (interruptMessages_hold s rid addr 4 x hc).2 hw
    rw [irMessage_entry he hs ha hd] at hm
    refine ⟨_, hm, entryMessage_counts (show x.toNat % 65536 < 2 ^ 16 by omega) d' ?_⟩
    rw [bitOf_eq_getLsbD, ne_eq, otherRequester_iff, getF_eq_extract]
    exact h
  · subst hn
    have hm := (interruptMessages_hold s rid addr 4 x hc).2 hw
    rw [irMessage_entry he hs ha hd, entryMessage_direct ((bitOf_eq_getLsbD _ _).trans h0) ((otherRequester_iff _).2 (not_not.1 h1))
      (by rw [getF_eq_extract]; exact h2) (by rw [getF_eq_extract]; exact h3) ((bitOf_eq_getLsbD _ _).trans h4), getF_eq_extract,
      getF_eq_extract] at hm
    exact hm
  · refine dev_makes (execSocketEvent.eq_def ..) (decide_eq_true he) ((if_pos ?_).trans (if_pos h3))
    rw [h2]
    rfl
  · refine dev_makes (execSocketEvent.eq_def ..) (decide_eq_true he) (if_neg ?_)
    rw [h2, decide_eq_false (show ¬2 ≤ e by omega), Bool.false_and]
    decide
  · refine dev_makes (execSocketEvent.eq_def ..) (decide_eq_true he) ((if_pos ?_).trans (if_pos h3))
    rw [decide_eq_true h1, decide_eq_true h2, Bool.and_self, Bool.or_true]
  · refine dev_makes (execSocketEvent.eq_def ..) (decide_eq_true he) (if_neg ?_)
    rw [lineHigh_of_four_le _ (by omega), decide_eq_false (show ¬e < 4 by omega), Bool.and_false]
    decide

/-! ### Bind and unbind (R478) -/

section
variable {d : Dev} {i : Nat} {v : Word}

theorem bindWrite_bind (h1 : v.getLsbD 1 = false) (h0 : v.getLsbD 0 = true) :
    d.bindWrite i v = d.bindStrand i ((v.extractLsb' 8 44).toNat * 256) := by
  unfold Dev.bindWrite
  rw [bitOf_eq_getLsbD, bitOf_eq_getLsbD, h0, h1, getF_eq_extract]
  rfl

theorem bindWrite_unbind (h1 : v.getLsbD 1 = false) (h0 : v.getLsbD 0 = false) :
    d.bindWrite i v = (d.unbindStrand i).setFld (R.BIND_ADDR.at (0x100 * i)) (v.extractLsb' 8 44).toNat := by
  unfold Dev.bindWrite
  rw [bitOf_eq_getLsbD, bitOf_eq_getLsbD, h0, h1, getF_eq_extract]
  rfl

theorem bindStrand_bound {block : Nat} (h : d.flag (R.BIND_EN.at (0x100 * i)) = true) :
    d.bindStrand i block = d.setFld (R.BIND_REFUSED.at (0x100 * i)) 1 := if_pos h

theorem bindStrand_taken {block head : Nat} {d' : Dev} (h : d.flag (R.BIND_EN.at (0x100 * i)) = false)
    (hf : d.farWord block (fun x => x) = (head, d')) (hh : head % 2 = 1) :
    d.bindStrand i block = d'.setFld (R.BIND_REFUSED.at (0x100 * i)) 1 := by
  refine (if_neg (by rw [h]; decide)).trans ?_
  dsimp only
  rw [hf]
  exact if_pos (beq_iff_eq.2 hh)

/-- What a bind takes out of a block: its mark, and the pending bits of the classes that the strand takes (R478). -/
def takenBlock (d z : Dev) (i block head : Nat) : Dev :=
  let classes := d.fld (R.BIND_CLASS_CLASSES.at (0x100 * i))
  let mark := (putF (putF (putF (word head) 0 1 1) 1 12 (d.globalId i)) 13 1 0).toNat
  let a := z.farWord block fun _ => mark
  let b := a.2.farWord (block + 8) fun x => (word x &&& ~~~ (word classes)).toNat
  ((List.range 16).filter fun k => natBit classes k && natBit b.1 k).foldl (fun d k => d.bindClass i block k) b.2

/-- The strand's own record of its bind. -/
def recordBind (d : Dev) (i classes addr : Nat) : Dev :=
  ({ d with bindCls := SMap.set (fun _ => 0) d.bindCls i classes }.setFld (R.BIND_EN.at (0x100 * i)) 1).setFld
    (R.BIND_ADDR.at (0x100 * i)) addr

theorem recordBind_spec (d : Dev) (i classes : Nat) {addr : Nat} (ha : addr < 2 ^ 44) :
    (recordBind d i classes addr).flag (R.BIND_EN.at (0x100 * i)) = true ∧
      (recordBind d i classes addr).fld (R.BIND_ADDR.at (0x100 * i)) = addr ∧
      SMap.get (fun _ => 0) (recordBind d i classes addr).bindCls i = classes := by
  refine ⟨?_, ?_, smap_get_set_same _ _ _ _⟩
  · exact (flag_setFld_apart _ (R.BIND_ADDR.at (0x100 * i)) (R.BIND_EN.at (0x100 * i)) _
      (show R.BIND_ADDR.lo + R.BIND_ADDR.width ≤ 64 by decide)
      (show R.BIND_EN.lo + R.BIND_EN.width ≤ R.BIND_ADDR.lo ∨ R.BIND_ADDR.lo + R.BIND_ADDR.width ≤ R.BIND_EN.lo by decide)).trans
      (flag_setFld_one _ _ (show R.BIND_EN.lo + R.BIND_EN.width ≤ 64 by decide) (show 0 < R.BIND_EN.width by decide))
  · exact fld_setFld_lt _ (show R.BIND_ADDR.lo + R.BIND_ADDR.width ≤ 64 by decide) ha

theorem bindStrand_binds {block head : Nat} {d' : Dev} (h : d.flag (R.BIND_EN.at (0x100 * i)) = false)
    (hf : d.farWord block (fun x => x) = (head, d')) (hh : head % 2 = 0) :
    d.bindStrand i block =
      recordBind (takenBlock d d' i block head) i (d.fld (R.BIND_CLASS_CLASSES.at (0x100 * i))) (block / 256) := by
  refine (if_neg (by rw [h]; decide)).trans ?_
  dsimp only
  rw [hf]
  exact if_neg (by rw [beq_iff_eq, hh]; decide)

theorem unbindStrand_free (h : d.flag (R.BIND_EN.at (0x100 * i)) = false) : d.unbindStrand i = d := by
  refine if_pos ?_
  rw [h]
  rfl

theorem unbindStrand_idle (h : d.flag (R.BIND_EN.at (0x100 * i)) = true)
    (hp : ∀ k, k < 16 → d.reg (R.PEND_BITS.reg + 0x100 * i + 8 * k) = 0) {d' : Dev}
    (hd : (d.farWord (d.fld (R.BIND_ADDR.at (0x100 * i)) * 256) fun x => x / 2 * 2).2 = d') :
    d.unbindStrand i = { d'.setFld (R.BIND_EN.at (0x100 * i)) 0 with bindCls := SMap.set (fun _ => 0) d'.bindCls i 0 } := by
  have hm : ((List.range 16).filter fun k => natBit (SMap.get (fun _ => 0) d.bindCls i) k &&
      d.reg (R.PEND_BITS.reg + 0x100 * i + 8 * k) != 0) = [] := by
    rw [List.filter_eq_nil_iff]
    intro k hk
    rw [hp k (List.mem_range.1 hk), bne_self_eq_false, Bool.and_false]
    decide
  refine (if_neg ?_).trans ?_
  · rw [h]
    decide
  · dsimp only
    rw [hm, hd]
    rfl

end

theorem bindAndUnbind_hold : bindAndUnbind := by
  intro s req i v hr hi h1
  have hok : (reqOk req && strandOk i) = true := by
    rw [hr, show strandOk i = true from decide_eq_true hi]
    rfl
  have hn : (v.extractLsb' 8 44).toNat < 2 ^ 44 := (v.extractLsb' 8 44).isLt
  dsimp only
  refine ⟨fun h0 he => ?_, fun h0 he head d' hf => ⟨fun hh => ?_, fun hh => ?_⟩, fun h0 he => ?_, fun h0 he hp => ?_⟩
  · exact dev_makes (execBind.eq_def ..) hok ((bindWrite_bind h1 h0).trans (bindStrand_bound he))
  · rw [Nat.mul_comm] at hf
    exact dev_makes (execBind.eq_def ..) hok ((bindWrite_bind h1 h0).trans (bindStrand_taken he hf hh))
  · rw [Nat.mul_comm] at hf
    have hb := bindStrand_binds he hf hh
    rw [Nat.mul_div_cancel _ (by decide)] at hb
    exact ⟨_, dev_makes (execBind.eq_def ..) hok ((bindWrite_bind h1 h0).trans hb), recordBind_spec _ _ _ hn⟩
  · refine dev_makes (execUnbind.eq_def ..) hok ((bindWrite_unbind h1 h0).trans ?_)
    rw [unbindStrand_free he]
  · refine dev_makes (execUnbind.eq_def ..) hok ((bindWrite_unbind h1 h0).trans ?_)
    rw [unbindStrand_idle he hp (congrArg (fun a => (s.dev.farWord a fun x => x / 2 * 2).2) (Nat.mul_comm _ 256))]

/-- Settles O32: every way of a message ends in a delivery or in a counted drop; a bind and an unbind change one strand's block. -/
theorem interruptsAreDelivered : Obligations.InterruptsAreDelivered := ⟨interruptDelivery_hold, bindAndUnbind_hold⟩

end Sys2Proof.Proofs
end

