-- ==== Sys2Proof/Proofs/Lines.lean ====
section
/-!
PROOFS. What moving lines about leaves of the device: reading a line for an agent, gathering it at its home, expelling it from
every cache and writing it (R196, R204, R235, R390) change the caches, the home's memory, the reports and nothing else.
-/

namespace Sys2Proof.Proofs

open Sys2Proof Sys2Proof.Machine Sys2Proof.Laws

/-- The device but for what the movement of lines changes. -/
def offLines (d : Dev) : Dev :=
  { atHome d with
    l2 := []
    dirs := []
    ghosts := []
    mshrs := []
    net := []
    trackers := []
    txns := []
    wbOut := [] }

theorem offLines_of_atHome {d e : Dev} (h : atHome d = atHome e) : offLines d = offLines e :=
  show offLines (atHome d) = offLines (atHome e) from congrArg offLines h

theorem of_offLines {α : Type} {d e : Dev} (F : Dev → α) (hF : ∀ d, F (offLines d) = F d) (h : offLines d = offLines e) :
    F d = F e := by
  rw [← hF d, h, hF]

@[simp] theorem offLines_log (d : Dev) (r : Rep) : offLines (d.log r) = offLines d := offLines_of_atHome (atHome_log d r)

@[simp] theorem offLines_homeWrite (d : Dev) (g key : Nat) (l : Line) (p u : Bool) (a : Option Agent) :
    offLines (d.homeWrite g key l p u a) = offLines d := offLines_of_atHome (atHome_homeWrite d g key l p u a)

@[simp] theorem offLines_homeRead (d : Dev) (g key : Nat) : offLines (d.homeRead g key).dev = offLines d :=
  offLines_of_atHome (atHome_homeRead d g key)

@[simp] theorem offLines_llcPut (d : Dev) (g : Nat) (l : Line) (dirty p : Bool) (key : Nat) :
    offLines (d.llcPut g l dirty p key) = offLines d := offLines_of_atHome (atHome_llcPut d g l dirty p key)

@[simp] theorem offLines_checkLlc (d : Dev) (g : Nat) : offLines (d.checkLlc g) = offLines d :=
  offLines_of_atHome (atHome_checkLlc d g)

@[simp] theorem offLines_setLine (d : Dev) (c g : Nat) (x : CLine) : offLines (d.setLine c g x) = offLines d := rfl

@[simp] theorem offLines_setTracker (d : Dev) (c : Nat) (x : Tracker) : offLines (d.setTracker c x) = offLines d := rfl

@[simp] theorem offLines_toIntake (d : Dev) (e : Intake) : offLines (d.toIntake e) = offLines d := rfl

theorem offLines_setGhost (d : Dev) (c g : Nat) (x : Option Ghost) : offLines (d.setGhost c g x) = offLines d := rfl

theorem offLines_llcDrop (d : Dev) (g : Nat) : offLines (d.llcDrop g) = offLines d := rfl

theorem offLines_pokes (d : Dev) (a : SMap CLine) (b : SMap (Option Ghost)) (c : SMap (Option Mshr)) (n : List Msg) :
    offLines { d with l2 := a, ghosts := b, mshrs := c, net := n } = offLines d := rfl

@[simp] theorem offLines_setDir (d : Dev) (g : Nat) (x : Dir) : offLines (d.setDir g x) = offLines d := rfl

theorem offLines_ite {p : Prop} [Decidable p] {a b d : Dev} (ha : offLines a = offLines d) (hb : offLines b = offLines d) :
    offLines (if p then a else b) = offLines d := by
  split
  · exact ha
  · exact hb

theorem offLines_dev_ite {p : Prop} [Decidable p] {a b : Got} {d : Dev} (ha : offLines a.dev = offLines d)
    (hb : offLines b.dev = offLines d) : offLines (if p then a else b).dev = offLines d := by
  split
  · exact ha
  · exact hb

theorem offLines_foldl {α : Type} (f : Dev → α → Dev) (h : ∀ d a, offLines (f d a) = offLines d) (xs : List α) (d : Dev) :
    offLines (xs.foldl f d) = offLines d := by
  induction xs generalizing d with
  | nil => rfl
  | cons x xs ih => exact (ih _).trans (h d x)

/-! ### Reading a line -/

theorem offLines_checkArray (d : Dev) (grp c g : Nat) (ws : List Nat) : offLines (d.checkArray grp c g ws) = offLines d := by
  unfold Dev.checkArray
  dsimp only
  split
  · rfl
  · split
    · rfl
    · exact offLines_log _ _
    · split
      · exact offLines_log _ _
      · exact offLines_log _ _
    · rfl

@[simp] theorem offLines_checkLine (d : Dev) (c g : Nat) (ws : List Nat) : offLines (d.checkLine c g ws) = offLines d :=
  offLines_ite rfl ((offLines_checkArray _ _ _ _ _).trans (offLines_checkArray _ _ _ _ _))

/-- What the home finds of a line once the array that may hold it has been checked. -/
def foundAt (d : Dev) (g key : Nat) : Got :=
  match (d.ownerCore g).or (d.holders g).head? with
  | some c => ⟨(d.line c g).data, (d.line c g).poison, 1, d⟩
  | none =>
    match d.ghostOf g with
    | some (_, h) => ⟨h.data, h.poison, 1, d⟩
    | none =>
      match d.transit g with
      | some x => ⟨x.1, x.2, 1, d⟩
      | none =>
        if d.ownedAway g then ⟨d.drawLine.1, false, 1, d.drawLine.2⟩
        else
          match d.llcGet g with
          | some l => ⟨l.data, l.poison, 2, d⟩
          | none => d.homeRead g key

theorem offLines_foundAt (d : Dev) (g key : Nat) : offLines (foundAt d g key).dev = offLines d := by
  unfold foundAt
  split
  · rfl
  · split
    · rfl
    · split
      · rfl
      · refine offLines_dev_ite rfl ?_
        split
        · rfl
        · exact offLines_homeRead _ _ _

theorem snapshot_eq (d : Dev) (g key : Nat) : d.snapshot g key = foundAt (match d.ownerCore g with
    | some c => d.checkLine c g allWords
    | none => d.checkLlc g) g key := rfl

theorem offLines_snapshot (d : Dev) (g key : Nat) : offLines (d.snapshot g key).dev = offLines d := by
  rw [snapshot_eq, offLines_foundAt]
  cases d.ownerCore g with
  | some c => exact offLines_checkLine d c g allWords
  | none => exact offLines_checkLlc d g

theorem offLines_currentFor (d : Dev) (c g key : Nat) : offLines (d.currentFor c g key).dev = offLines d := by
  unfold Dev.currentFor
  refine offLines_dev_ite rfl (offLines_dev_ite (offLines_snapshot _ _ _) ?_)
  split
  · rfl
  · split
    · rfl
    · rfl
    · rfl

theorem offLines_coreRead (d : Dev) (c g key : Nat) : offLines (d.coreRead c g key).dev = offLines d := by
  unfold Dev.coreRead
  dsimp only
  split
  · split
    · rfl
    · exact offLines_currentFor _ _ _ _
  · exact offLines_currentFor _ _ _ _

/-! ### Gathering, expelling and storing -/

theorem offLines_invalidateAll (d : Dev) (g : Nat) : offLines (d.invalidateAll g) = offLines d := by
  have h := offLines_foldl (fun d c => d.dropLine c g) (fun d c => offLines_setLine d c g CLine.none)
    (d.holders g) d
  unfold Dev.invalidateAll
  dsimp only
  split
  · exact (offLines_setGhost _ _ _ _).trans h
  · exact h

theorem offLines_trackSent (d : Dev) (c g : Nat) : offLines (d.trackSent c g) = offLines d := by
  unfold Dev.trackSent
  exact offLines_ite (offLines_setTracker _ _ _) rfl

/-- What a gathered line leaves the tracker of the core that held it in M. -/
def gathered (d : Dev) (g : Nat) : Option (Nat × CLine) → Dev
  | some (c, l) => if l.st == LineState.modified then d.trackSent c g else d
  | none => d

theorem offLines_gathered (d : Dev) (g : Nat) (o : Option (Nat × CLine)) : offLines (gathered d g o) = offLines d := by
  unfold gathered
  split
  · exact offLines_ite (offLines_trackSent _ _ _) rfl
  · rfl

theorem gather_dev (d : Dev) (g key : Nat) : ∃ o x,
    (d.gather g key).dev = (gathered (((d.snapshot g key).dev.invalidateAll g).llcDrop g) g o).setDir g x := by
  have h (o : Option (Nat × CLine)) (gh : Option (Nat × Ghost)) (q : Option LLine) (r : Got) (e : Dev) (b : Bool) :
      (match o, gh, q with
        | some (c, l), _, _ => (⟨r.line, r.poison, l.st == LineState.modified, l.key, if l.st == LineState.modified then some c else none, e⟩ : Gathered)
        | none, some (c, h), _ => ⟨r.line, r.poison, true, h.key, some c, e⟩
        | none, none, some l => ⟨r.line, r.poison, l.dirty, l.key, none, e⟩
        | none, none, none => ⟨r.line, r.poison, b, key, none, e⟩).dev = e := by
    split
    · rfl
    · rfl
    · rfl
    · rfl
  exact ⟨_, _, h _ _ _ _ _ _⟩

theorem offLines_gather (d : Dev) (g key : Nat) : offLines (d.gather g key).dev = offLines d := by
  obtain ⟨o, x, h⟩ := gather_dev d g key
  rw [h, offLines_setDir, offLines_gathered, offLines_llcDrop]
  exact (offLines_invalidateAll _ _).trans (offLines_snapshot _ _ _)

theorem offLines_expel (d : Dev) (g : Nat) : offLines (d.expel g) = offLines d := by
  unfold Dev.expel
  dsimp only
  refine offLines_ite rfl (offLines_ite ?_ (offLines_gather _ _ _))
  exact (offLines_homeWrite _ _ _ _ _ _ _).trans (offLines_gather _ _ _)

theorem offLines_leaveHome (d : Dev) (g : Nat) (l : Line) (dirty p : Bool) (key : Nat) (u : Bool) (a : Option Agent) :
    offLines (d.leaveHome g l dirty p key u a) = offLines d := by
  unfold Dev.leaveHome
  dsimp only
  split
  · exact (offLines_llcPut _ _ _ _ _ _).trans (offLines_homeWrite _ _ _ _ _ _ _)
  · split
    · exact offLines_ite ((offLines_setDir _ _ _).trans (offLines_llcPut _ _ _ _ _ _)) (offLines_llcPut _ _ _ _ _ _)
    · exact offLines_llcPut _ _ _ _ _ _

/-- Every copy of a line takes bytes, but for the one in memory. -/
def pokedCopies (d : Dev) (g off : Nat) (bs : List Byte) : Dev := { d with
  l2 := pokeL2 g off bs d.l2
  ghosts := pokeGhosts g off bs d.ghosts
  mshrs := pokeMshrs g off bs d.mshrs
  net := d.net.map (pokeMsg g off bs) }

def pokedLlc (d : Dev) (g off : Nat) (bs : List Byte) : Dev :=
  match d.llcGet g with
  | none => d
  | some l => { d with llc := SMap.set (fun _ => none) d.llc g (some { l with data := putBytes l.data off bs }) }

theorem offLines_pokedLlc (d : Dev) (g off : Nat) (bs : List Byte) : offLines (pokedLlc d g off bs) = offLines d := by
  unfold pokedLlc
  split
  · rfl
  · rfl

/-- Memory takes the bytes last, a Peat line by way of its stack's intake. -/
def pokedHome (d : Dev) (i : Intake) : Dev :=
  if isPeat i.g then d.toIntake i else { d with dram := writeBytes d.dram (64 * i.g) i.data i.mask }

theorem offLines_pokedHome (d : Dev) (i : Intake) : offLines (pokedHome d i) = offLines d := by
  unfold pokedHome
  split
  · rfl
  · rfl

theorem offLines_poke (d : Dev) (g off : Nat) (bs : List Byte) (key : Nat) (u : Bool) (a : Option Agent) :
    offLines (d.poke g off bs key u a) = offLines d :=
  (show offLines (d.poke g off bs key u a) = offLines (pokedHome (pokedLlc (pokedCopies d g off bs) g off bs)
      ⟨g, putBytes 0 off bs, byteMask off bs.length, false, key, u, a, none, []⟩) from rfl).trans
    ((offLines_pokedHome _ _).trans ((offLines_pokedLlc _ _ _ _).trans (offLines_pokes _ _ _ _ _)))

theorem offLines_homeStore (d : Dev) (g off : Nat) (bs : List Byte) (key : Nat) (u : Bool) (a : Option Agent) :
    offLines (d.homeStore g off bs key u a) = offLines d := by
  unfold Dev.homeStore
  exact offLines_ite (offLines_poke _ _ _ _ _ _ _) ((offLines_leaveHome _ _ _ _ _ _ _ _).trans (offLines_gather _ _ _))

/-! ### Pages -/

theorem offLines_zeroPage (d : Dev) (p key : Nat) : offLines (d.zeroPage p key) = offLines d :=
  offLines_foldl _ (fun _ _ => offLines_ite (offLines_homeWrite _ _ _ _ _ _ _) rfl) _ _

theorem offLines_linesWrite (key : Nat) (ls : List (Nat × Line × Bool)) (d : Dev) :
    offLines (d.linesWrite key ls) = offLines d := by
  induction ls generalizing d with
  | nil => rfl
  | cons x ls ih => exact (ih _).trans (offLines_ite (offLines_homeWrite _ _ _ _ _ _ _) rfl)

theorem offLines_pageRead (d : Dev) (p key : Nat) : offLines (d.pageRead p key).2 = offLines d := by
  have h (xs : List Nat) (r : List (Line × Bool) × Dev) :
      offLines (xs.foldl (fun (r : List (Line × Bool) × Dev) g =>
        let q := r.2.coreRead 511 g key
        (r.1 ++ [(q.line, q.poison)], q.dev)) r).2 = offLines r.2 := by
    induction xs generalizing r with
    | nil => rfl
    | cons x xs ih => exact (ih _).trans (offLines_coreRead _ _ _ _)
  exact h _ _

theorem offLines_linesRead (key : Nat) (gs : List Nat) (d : Dev) : offLines (d.linesRead key gs).2 = offLines d := by
  induction gs generalizing d with
  | nil => rfl
  | cons g gs ih => exact (ih _).trans (offLines_coreRead _ _ _ _)

/-- Taking pages away drops every cached translation besides. -/
theorem takeAway_spec (d : Dev) (pages : List Nat) : ∃ e, offLines e = offLines d ∧ d.takeAway pages = e.dropTranslations :=
  ⟨_, offLines_foldl _ (fun d g => offLines_expel d g) _ _, rfl⟩

end Sys2Proof.Proofs
end

