-- ==== Sys2Proof/Proofs/SealedBuild.lean ====
section
/-!
PROOFS. How a SECALL comes to its answer (R135, R136, R540), and the commands that build a sealed domain (R395 to R397).
-/

namespace Sys2Proof.Proofs

open Sys2Proof Sys2Proof.Machine Sys2Proof.Laws

/-! ### The engine's answer -/

theorem statusWord_eq {st : Nat} (h : st < 256) (w : Word) : statusWord st w = BitVec.ofNat 64 (st + 256 * (w.toNat % 2 ^ 56)) := by
  rw [statusWord, Nat.mod_eq_of_lt h, getF, Nat.pow_zero, Nat.div_one, Nat.mul_comm]

section
variable {s u t : State} {g : Nat} {e : SysEnc} {p : Piece} {b : Block} {c : Instr} {code : Nat} {inside random : Bool}
  {f : State → Block → SeRes} {Q : State → Prop} {v w : Option Word}

/-- None of the statuses that precede a command's own stands. -/
theorem gate_none (ho : engineOpen u g inside) (hr : random = true → u.dev.fw.randomBad = false) {k : Nat} (hk : 1 ≤ k ∧ k ≤ 13) :
    u.seGate g k inside random = none := by
  obtain ⟨hst, hp, hl, ht, hi⟩ := ho
  have hb : (random && u.dev.fw.randomBad) = false := by
    cases random with
    | false => rfl
    | true => exact hr rfl
  have h0 : (k == 0 || decide (13 < k)) = false := by
    rw [Bool.or_eq_false_iff]
    exact ⟨beq_eq_false_iff_ne.2 (by omega), decide_eq_false (by omega)⟩
  unfold State.seGate Dev.seTakes
  dsimp only
  rw [hst, hp, hl, ht, hi, hb, h0, bne_self_eq_false]
  rfl

theorem gate_plain (ho : engineOpen u g inside) {k : Nat} (hk : 1 ≤ k ∧ k ≤ 13) : u.seGate g k inside false = none :=
  gate_none ho (fun h => absurd h (by decide)) hk

theorem secall_body (hr : secallReads s g e u p b) (hk : b.code = code)
    (hg : u.seGate g code inside random = none) :
    (begun s g).secallBlock g (((begun s g).strand g).getN e.a) (fun s p b =>
      if b.code != code && 1 ≤ b.code && b.code ≤ 0x0D then .hold s
      else
        match s.seGate g b.code inside random with
        | some st => s.answer g e.d p (.refuse st)
        | none => s.answer g e.d p (f s b)) = u.answer g e.d p (f u b) := by
  rw [hr.2, hk, bne_self_eq_false, Bool.false_and, Bool.false_and, if_neg (by decide), hg]

theorem secall_refused (hc : exec c s = runSecall g 0 e code inside random s f) (hr : secallReads s g e u p b) (hk : b.code = code)
    (hg : u.seGate g code inside random = none) {st : Nat} (hst : st < 256)
    (hf : f u b = .refuse st) : secallRefused c s g e u st := by
  refine ⟨Config.freeWord u.dev.free, hc.trans (runInsn_ok hr.1 ((secall_body hr hk hg).trans ?_))⟩
  rw [hf, ← statusWord_eq hst]
  rfl

theorem secall_done (hc : exec c s = runSecall g 0 e code inside random s f) (hr : secallReads s g e u p b) (hk : b.code = code)
    (hg : u.seGate g code inside random = none) (hf : f u b = .done v w t) (hq : Q t) :
    secallDone c s g e p v w Q := by
  have hfree (d : Dev) (x : Option Word) : ∃ k r, d.resultWord x = (r, { d with free := k }) ∧ ∀ y, x = some y → r = y := by
    cases x with
    | none => exact ⟨_, _, rfl, fun _ h => nomatch h⟩
    | some y => exact ⟨_, y, rfl, fun _ h => Option.some.inj h⟩
  obtain ⟨k0, r0, h0, e0⟩ := hfree t.dev v
  obtain ⟨k1, r1, h1, e1⟩ := hfree { t.dev with free := k0 } w
  refine ⟨t, k1, r0, r1, hq, e0, e1, hc.trans (runInsn_ok hr.1 ((secall_body hr hk hg).trans ?_))⟩
  rw [hf]
  unfold State.answer
  dsimp only
  rw [h0, h1, statusWord_eq (by decide), Nat.zero_add]

theorem secall_moved (hc : exec c s = runSecall g 0 e code inside random s f) (hr : secallReads s g e u p b) (hk : b.code = code)
    (hg : u.seGate g code inside random = none) (hf : f u b = .moved t) : Gives c s t := by
  refine hc.trans (runInsn_go hr.1 ((secall_body hr hk hg).trans ?_))
  rw [hf]
  rfl

theorem secallBusy_refused (hr : secallReads s g e u p b) : secallRefused (.secallBusy g 0 e) s g e u 1 := by
  refine ⟨Config.freeWord u.dev.free, (execSecallBusy.eq_def ..).trans (runInsn_ok hr.1 ((hr.2 _).trans ?_))⟩
  rw [← statusWord_eq (by decide)]
  rfl

end

/-! ### The page table, the key slots and the domains -/

section
variable (d : Dev)

theorem potEntry_setPot (page : Nat) (x : Pot) : potEntry (d.setPot page x) page = x := smap_get_set_same _ _ _ _

theorem potEntry_setPot_other {page i : Nat} (x : Pot) (h : i ≠ page) : potEntry (d.setPot page x) i = potEntry d i :=
  smap_get_set_other _ _ _ _ _ h

theorem potEntry_setDomain (i : Nat) (x : Option Domain) (page : Nat) : potEntry (d.setDomain i x) page = potEntry d page := rfl

theorem slot_setDomain (i : Nat) (x : Option Domain) (k : Nat) : (d.setDomain i x).slot k = d.slot k := rfl

theorem slot_setSlot (k : Nat) (x : KeySlot) : (d.setSlot k x).slot k = x := smap_get_set_same _ _ _ _

theorem slot_setSlot_other {k i : Nat} (x : KeySlot) (h : i ≠ k) : (d.setSlot k x).slot i = d.slot i :=
  smap_get_set_other _ _ _ _ _ h

theorem domain_setDomain_other {k i : Nat} (x : Option Domain) (h : i ≠ k) : (d.setDomain k x).domain i = d.domain i :=
  smap_get_set_other _ _ _ _ _ h

theorem bare_showSe : bare d.showSe = bare d := (bare_setFld _ _ _).trans (bare_setFld _ _ _)

theorem slot_showSe (k : Nat) : d.showSe.slot k = d.slot k := of_bare (·.slot k) (fun _ => rfl) (bare_showSe d)

theorem domain_showSe (i : Nat) : d.showSe.domain i = d.domain i := of_bare (·.domain i) (fun _ => rfl) (bare_showSe d)

theorem potEntry_showSe (page : Nat) : potEntry d.showSe page = potEntry d page :=
  of_bare (potEntry · page) (fun _ => rfl) (bare_showSe d)

theorem slot_freshKey (k cls dom : Nat) : (d.freshKey k cls dom).slot k = ⟨cls, d.nextKey, dom⟩ :=
  (slot_showSe _ _).trans (slot_setSlot d k _)

theorem slot_freshKey_other {k i : Nat} (cls dom : Nat) (h : i ≠ k) : (d.freshKey k cls dom).slot i = d.slot i :=
  (slot_showSe _ _).trans (slot_setSlot_other d _ h)

theorem potEntry_freshKey (k cls dom page : Nat) : potEntry (d.freshKey k cls dom) page = potEntry d page := potEntry_showSe _ _

theorem slot_clearSlot (k : Nat) : (d.clearSlot k).slot k = ⟨0, 0, 0⟩ := (slot_showSe _ _).trans (slot_setSlot d k _)

theorem slot_clearSlot_other {k i : Nat} (h : i ≠ k) : (d.clearSlot k).slot i = d.slot i :=
  (slot_showSe _ _).trans (slot_setSlot_other d _ h)

theorem potEntry_clearSlot (k page : Nat) : potEntry (d.clearSlot k) page = potEntry d page := potEntry_showSe _ _

theorem domain_clearSlot (k i : Nat) : (d.clearSlot k).domain i = d.domain i := domain_showSe _ _

end

/-- A page's entry survives what keeps the table. -/
theorem potEntry_of_pot {d e : Dev} (h : d.pot = e.pot) (i : Nat) : potEntry d i = potEntry e i := by
  unfold potEntry
  rw [h]

/-- Pages that are set one after the other: each gives its entry, and leaves every page that it does not name. -/
theorem potEntry_foldl {α : Type} (f : Dev → α → Dev) (at_ : α → Nat) (x : α → Pot)
    (hs : ∀ d a, potEntry (f d a) (at_ a) = x a) (ho : ∀ d a i, i ≠ at_ a → potEntry (f d a) i = potEntry d i)
    (as : List α) (hx : ∀ a ∈ as, ∀ a' ∈ as, at_ a = at_ a' → x a = x a') (d : Dev) :
    (∀ a ∈ as, potEntry (as.foldl f d) (at_ a) = x a) ∧
    ∀ i, (∀ a ∈ as, i ≠ at_ a) → potEntry (as.foldl f d) i = potEntry d i := by
  induction as generalizing d with
  | nil => exact ⟨fun _ h => (nomatch h), fun _ _ => rfl⟩
  | cons a as ih =>
    obtain ⟨h1, h2⟩ := ih (fun b hb b' hb' => hx b (.tail _ hb) b' (.tail _ hb')) (f d a)
    refine ⟨fun b hb => ?_, fun i hi => ?_⟩
    · by_cases hm : ∃ b' ∈ as, at_ b = at_ b'
      · obtain ⟨b', hb', he⟩ := hm
        rw [List.foldl_cons, he, h1 b' hb', hx b hb b' (.tail _ hb') he]
      · have hn : ∀ b' ∈ as, at_ b ≠ at_ b' := fun b' hb' he => hm ⟨b', hb', he⟩
        rw [List.foldl_cons, h2 _ hn]
        rcases List.mem_cons.1 hb with rfl | hb
        · exact hs _ _
        · exact absurd rfl (hn b hb)
    · rw [List.foldl_cons, h2 i fun b hb => hi b (.tail _ hb)]
      exact ho _ _ _ (hi a (.head _))

theorem potEntry_setAll (x : Pot) (pages : List Nat) (d : Dev) :
    (∀ p ∈ pages, potEntry (pages.foldl (fun d p => d.setPot p x) d) p = x) ∧
    ∀ i, i ∉ pages → potEntry (pages.foldl (fun d p => d.setPot p x) d) i = potEntry d i := by
  obtain ⟨h1, h2⟩ := potEntry_foldl (fun d p => d.setPot p x) id (fun _ => x) (fun d p => potEntry_setPot d p x)
    (fun d p i h => potEntry_setPot_other d x h) pages (fun _ _ _ _ _ => rfl) d
  exact ⟨h1, fun i hi => h2 i fun p hp he => hi (he ▸ hp)⟩

theorem mem_pageRun (pa : Word) {n j : Nat} (h : j < n) : pa.toNat / 4096 + j ∈ pageRun pa n :=
  List.mem_map.2 ⟨j, List.mem_range.2 h, rfl⟩

theorem pot_of_offLines {d e : Dev} (h : offLines d = offLines e) : d.pot = e.pot := of_offLines (·.pot) (fun _ => rfl) h

theorem domains_of_offLines {d e : Dev} (h : offLines d = offLines e) : d.domains = e.domains :=
  of_offLines (·.domains) (fun _ => rfl) h

theorem slots_of_offLines {d e : Dev} (h : offLines d = offLines e) : d.slots = e.slots := of_offLines (·.slots) (fun _ => rfl) h

/-! ### CREATE -/

theorem createDomain_spec (d : Dev) (i k : Nat) (b : Block) :
    let t := d.createDomain i k b
    (t.slot k).cls = 3 ∧ (t.slot k).dom = i ∧
      (∀ j, j < b.arg0.toNat → potEntry t (b.arg1.toNat / 4096 + j) = ⟨4, 0, 0, 0⟩) ∧
      ∃ m, t.domain i = some m ∧ m.built = false ∧ m.vcpus.length = b.arg0.toNat ∧ m.key3 = k ∧ m.key4 = none ∧
        m.measure = Config.sha3 ([0x63, 0x72, 0x65, 0x61, 0x74, 0x65] ++ leBytes 8 b.arg0.toNat ++ leBytes 8 b.arg2.toNat) := by
  have hpot := (potEntry_setAll ⟨4, 0, 0, 0⟩ (pageRun b.arg1 b.arg0.toNat) (d.takeAway (pageRun b.arg1 b.arg0.toNat))).1
  dsimp only
  obtain ⟨z, hz⟩ : ∃ z, (pageRun b.arg1 b.arg0.toNat).foldl (fun d p => d.setPot p ⟨4, 0, 0, 0⟩)
    (d.takeAway (pageRun b.arg1 b.arg0.toNat)) = z := ⟨_, rfl⟩
  rw [hz] at hpot
  obtain ⟨m, hm, ht⟩ : ∃ m : Domain, m = ⟨false, List.replicate b.arg0.toNat (Vcpu.fresh b.arg2), b.arg1.toNat / 4096, k, none,
      measureStart b.arg0 b.arg2, 0⟩ ∧ d.createDomain i k b = ((z.freshKey k 3 i).setDomain i (some m)).showSe :=
    ⟨_, rfl, by
      unfold Dev.createDomain
      dsimp only
      rw [hz]⟩
  have hk : (d.createDomain i k b).slot k = ⟨3, z.nextKey, i⟩ := by
    rw [ht, slot_showSe, slot_setDomain]
    exact slot_freshKey z k 3 i
  refine ⟨by rw [hk], by rw [hk], fun j hj => ?_, m, ?_, by rw [hm], by rw [hm]; exact List.length_replicate, by rw [hm], by rw [hm],
    by rw [hm]; rfl⟩
  · rw [ht, potEntry_showSe, potEntry_setDomain]
    exact (potEntry_freshKey z k 3 i _).trans (hpot _ (mem_pageRun _ hj))
  · rw [ht, domain_showSe]
    exact domain_setDomain (z.freshKey k 3 i) i (some m)

/-! ### Pages -/

theorem addPage_spec (d : Dev) (dom : Nat) (m : Domain) (b : Block) :
    potEntry (d.addPage dom m b) (b.arg0.toNat / 4096) = ⟨1, dom, getF b.arg2 12 40, getF b.arg2 0 3⟩ ∧
      ∃ page : List Byte, (d.addPage dom m b).domain dom = some { m with
        measure := Config.sha3 (lineBytes m.measure ++ leBytes 8 (4096 * getF b.arg2 12 40) ++ [BitVec.ofNat 8 (getF b.arg2 0 3)]
          ++ lineBytes (Config.sha3 page)) } := by
  obtain ⟨z, l, hz⟩ : ∃ (z : Dev) (l : List Byte), d.addPage dom m b =
      (z.setPot (b.arg0.toNat / 4096) ⟨1, dom, getF b.arg2 12 40, getF b.arg2 0 3⟩).setDomain dom
        (some { m with measure := measureNext m.measure (getF b.arg2 12 40) (getF b.arg2 0 3) (lineBytes (Config.sha3 l)) }) :=
    ⟨_, _, rfl⟩
  rw [hz]
  exact ⟨(potEntry_setDomain _ _ _ _).trans (potEntry_setPot z _ _), l, domain_setDomain _ _ _⟩

theorem addZeroPage_pot (d : Dev) (dom : Nat) (m : Domain) (b : Block) (i : Nat) :
    potEntry (d.addZeroPage dom m b i) (b.arg0.toNat / 4096 + i)
      = ⟨if m.built then 2 else 1, dom, (getF b.arg2 12 40 + i) % 2 ^ 40, getF b.arg2 0 3⟩ := potEntry_setPot _ _ _

theorem addZeroPage_pot_other (d : Dev) (dom : Nat) (m : Domain) (b : Block) (i : Nat) {k : Nat} (h : k ≠ b.arg0.toNat / 4096 + i) :
    potEntry (d.addZeroPage dom m b i) k = potEntry d k :=
  (potEntry_setPot_other _ _ h).trans (potEntry_of_pot (pot_of_offLines (offLines_zeroPage _ _ _)) k)

theorem addZero_spec (d : Dev) (dom : Nat) (m : Domain) (b : Block) :
    (∀ j, j < b.arg1.toNat → potEntry (d.addZero dom m b) (b.arg0.toNat / 4096 + j) =
      ⟨if m.built then 2 else 1, dom, (getF b.arg2 12 40 + j) % 2 ^ 40, getF b.arg2 0 3⟩) ∧
    (m.built = false → b.arg1 = 1 → (d.addZero dom m b).domain dom = some { m with
      measure := Config.sha3 (lineBytes m.measure ++ leBytes 8 (4096 * getF b.arg2 12 40) ++ [BitVec.ofNat 8 (getF b.arg2 0 3)]
        ++ [0x7A, 0x65, 0x72, 0x6F]) }) := by
  obtain ⟨hp, -⟩ := potEntry_foldl (fun d i => d.addZeroPage dom m b i) (fun i => b.arg0.toNat / 4096 + i)
    (fun i => ⟨if m.built then 2 else 1, dom, (getF b.arg2 12 40 + i) % 2 ^ 40, getF b.arg2 0 3⟩)
    (fun d i => addZeroPage_pot d dom m b i) (fun d i k h => addZeroPage_pot_other d dom m b i h)
    (List.range b.arg1.toNat) (fun i _ j _ h => by rw [Nat.add_left_cancel h]) (d.takeAway (pageRun b.arg0 b.arg1.toNat))
  have hlt := getF_lt b.arg2 12 40
  obtain ⟨z, hz⟩ : ∃ z, (List.range b.arg1.toNat).foldl (fun d i => d.addZeroPage dom m b i)
    (d.takeAway (pageRun b.arg0 b.arg1.toNat)) = z := ⟨_, rfl⟩
  rw [hz] at hp
  have ht : d.addZero dom m b = if m.built then z else z.setDomain dom (some { m with measure := zeroMeasure m.measure b b.arg1.toNat }) := by
    rw [← hz]
    rfl
  refine ⟨fun j hj => ?_, fun hb h1 => ?_⟩
  · have h : potEntry (d.addZero dom m b) (b.arg0.toNat / 4096 + j) = potEntry z (b.arg0.toNat / 4096 + j) := by
      rw [ht]
      split
      · rfl
      · rfl
    exact h.trans (hp j (List.mem_range.2 hj))
  · rw [ht, hb, if_neg (by decide), domain_setDomain, h1]
    congr 2
    change measureNext m.measure ((getF b.arg2 12 40 + 0) % 2 ^ 40) (getF b.arg2 0 3) zeroBytes = _
    rw [Nat.add_zero, Nat.mod_eq_of_lt hlt]
    rfl

/-! ### The statement -/

theorem badCount_false {w : Word} (h1 : 1 ≤ w.toNat) (h2 : w.toNat ≤ 256) : badCount w = false := by
  unfold badCount
  rw [Bool.or_eq_false_iff]
  exact ⟨beq_eq_false_iff_ne.2 (by omega), decide_eq_false (by omega)⟩

/-- Settles O33: each command through its gate, then by the branch that its operands choose. -/
theorem sealedDomainsAreBuilt : Obligations.SealedDomainsAreBuilt := by
  intro s g e u p b hr d n ipa rights
  have hipa : ipa = getF b.arg2 12 40 := (getF_eq_extract _ _ _).symm
  have hrights : rights = getF b.arg2 0 3 := (getF_eq_extract _ _ _).symm
  refine ⟨secallBusy_refused hr, fun ho hrb => ?_, fun ho => ?_⟩
  · have hg : u.seGate g 1 false true = none := gate_none ho (fun _ => hrb) (by decide)
    refine ⟨fun hk hd => ?_, fun hk hd hn => ?_, fun hk hd h1 h2 hin hb k i d' hs hf => ?_⟩
    · exact secall_refused (c := .create g 0 e) (execCreate.eq_def ..) hr hk hg (by decide) (if_pos hd)
    · refine secall_refused (c := .create g 0 e) (execCreate.eq_def ..) hr hk hg (by decide) ((if_neg (by rw [hd]; decide)).trans (if_pos ?_))
      rw [Bool.or_eq_true, beq_iff_eq, decide_eq_true_eq]
      exact hn
    · refine secall_done (c := .create g 0 e) (execCreate.eq_def ..) hr hk hg (t := { u with dev := d'.createDomain i k b }) ?_
        ⟨rfl, createDomain_spec d' i k b⟩
      have hn : (b.arg0.toNat == 0 || decide (512 < b.arg0.toNat)) = false := by
        rw [Bool.or_eq_false_iff]
        exact ⟨beq_eq_false_iff_ne.2 (Nat.ne_of_gt h1), decide_eq_false (Nat.not_lt.2 h2)⟩
      dsimp only
      rw [hd, hn, hin, hb, hs, hf]
      rfl
  · refine ⟨fun hk hm => ?_, fun m hm => ⟨fun hk hb => ?_, fun hk hb hp1 hp2 hbusy => ?_, fun hk h1 h2 hin hbusy => ?_,
      fun hk hb => ?_, fun hk hb hfl => ?_, fun hk hb hfl k hs => ?_⟩⟩
    · refine secall_refused (c := .addPage g 0 e) (execAddPage.eq_def ..) hr hk (gate_plain ho (by decide)) (by decide) ?_
      dsimp only
      rw [hm]
    · refine secall_refused (c := .addPage g 0 e) (execAddPage.eq_def ..) hr hk (gate_plain ho (by decide)) (by decide) ?_
      dsimp only
      rw [hm]
      exact if_pos hb
    · refine secall_done (execAddPage.eq_def ..) hr hk (gate_plain ho (by decide))
        (t := { u with dev := d.addPage b.dom m b }) ?_ ⟨rfl, by rw [hipa, hrights]; exact addPage_spec d b.dom m b⟩
      dsimp only
      rw [hm]
      dsimp only
      rw [hb, hp1, hp2, hbusy]
      rfl
    · refine secall_done (execAddZero.eq_def ..) hr hk (gate_plain ho (by decide))
        (t := { u with dev := d.addZero b.dom m b }) ?_ ⟨rfl, by rw [hipa, hrights]; exact addZero_spec d b.dom m b⟩
      dsimp only
      rw [badCount_false h1 h2, hm]
      dsimp only
      rw [hin, hbusy]
      rfl
    · refine secall_refused (c := .sealDomain g 0 e) (execSealDomain.eq_def ..) hr hk (gate_plain ho (by decide)) (by decide) ?_
      dsimp only
      rw [hm]
      exact if_pos hb
    · refine secall_done (execSealDomain.eq_def ..) hr hk (gate_plain ho (by decide)) ?_ rfl
      dsimp only
      rw [hm]
      exact (if_neg (by rw [hb]; decide)).trans (if_pos (beq_iff_eq.2 hfl))
    · obtain ⟨z, hz⟩ : ∃ z, d.setSlot k ⟨4, sealingKey m.measure b.arg0, b.dom⟩ = z := ⟨_, rfl⟩
      have hsl : z.slot k = ⟨4, sealingKey m.measure b.arg0, b.dom⟩ := by
        rw [← hz]
        exact slot_setSlot d k _
      refine secall_done (execSealDomain.eq_def ..) hr hk (gate_plain ho (by decide))
        (t := { u with dev := (z.setDomain b.dom (some { m with built := true, key4 := some k })).showSe }) ?_
        ⟨rfl, congrArg KeySlot.cls ((slot_showSe _ k).trans ((slot_setDomain z b.dom _ k).trans hsl)),
          congrArg KeySlot.dom ((slot_showSe _ k).trans ((slot_setDomain z b.dom _ k).trans hsl)),
          (domain_showSe _ _).trans (domain_setDomain z b.dom _)⟩
      dsimp only
      rw [hm]
      refine (if_neg (by rw [hb]; decide)).trans ((if_neg (by rw [hfl]; decide)).trans ?_)
      rw [hs]
      dsimp only
      rw [hz]

end Sys2Proof.Proofs
end

