-- ==== Sys2Proof/Proofs/SealedRun.lean ====
section
/-!
PROOFS. The commands of a sealed domain that runs and those that end one (R395, R396, R398, R399).
-/

namespace Sys2Proof.Proofs

open Sys2Proof Sys2Proof.Machine Sys2Proof.Laws

/-! ### ENTER -/

/-- A legal level 0 to 2 and SEALED pass the mask of the STATUS register. -/
theorem legalStatus_low {w : Word} {lvl : Nat} (h : getF w 0 2 = lvl) (hl : lvl < 3) : getF (legalStatus w) 0 2 = lvl := by
  have h0 : getF (w &&& word 0x7FF) 0 2 = lvl := by
    rw [getF_and, h, show getF (word 0x7FF) 0 2 = 2 ^ 2 - 1 by decide, Nat.and_two_pow_sub_one_eq_mod, Nat.mod_eq_of_lt (by omega)]
  unfold legalStatus
  dsimp only
  rw [h0, beq_eq_false_iff_ne.2 (Nat.ne_of_lt hl), if_neg Bool.false_ne_true]
  split
  · exact h0
  · rw [getF_putF_below _ _ _ _ _ _ (by decide) (by decide)]
    exact h0

theorem legalStatus_sealed {w : Word} {lvl : Nat} (h : getF w 8 1 = 1) (h0 : getF w 0 2 = lvl) (hl : lvl < 3) :
    getF (legalStatus w) 8 1 = 1 := by
  have h8 : getF (w &&& word 0x7FF) 8 1 = 1 := by
    rw [getF_and, h]
    decide
  have h2 : getF (w &&& word 0x7FF) 0 2 = lvl := by
    rw [getF_and, h0, show getF (word 0x7FF) 0 2 = 2 ^ 2 - 1 by decide, Nat.and_two_pow_sub_one_eq_mod, Nat.mod_eq_of_lt (by omega)]
  unfold legalStatus
  dsimp only
  rw [h2, beq_eq_false_iff_ne.2 (Nat.ne_of_lt hl), if_neg Bool.false_ne_true]
  split
  · exact h8
  · rw [getF_putF_above _ _ _ _ _ _ (by decide) (by decide)]
    exact h8

theorem get_canonRegs_absent {n : SMap Word} {k : Nat} (h : ∀ kv ∈ n, kv.1 ≠ k) : SMap.get (fun _ => 0) (canonRegs n) k = 0 := by
  have hf (xs m : SMap Word) (hx : ∀ kv ∈ xs, kv.1 ≠ k) : SMap.get (fun _ => 0)
      (xs.foldl (fun m kv => if kv.1 = 0 then m else SMap.set (fun _ => 0) m kv.1 kv.2) m) k = SMap.get (fun _ => 0) m k := by
    induction xs generalizing m with
    | nil => rfl
    | cons x xs ih =>
      rw [List.foldl_cons, ih _ fun kv hm => hx kv (.tail _ hm)]
      split
      · rfl
      · exact smap_get_set_other _ _ _ _ _ (hx x (.head _)).symm
  exact hf n [] h

theorem smap_mem_erase {β : Type} {m : SMap β} {k : Nat} {kv : Nat × β} (h : kv ∈ SMap.erase m k) : kv.1 ≠ k := by
  induction m with
  | nil => cases h
  | cons p m ih =>
    obtain ⟨j, w⟩ := p
    unfold SMap.erase at h
    split at h
    · exact ih h
    · rename_i hj
      rcases List.mem_cons.1 h with rfl | h
      · exact hj
      · exact ih h

theorem getN_cleared {x y : Strand} {r : Reg} (h : y.n = canonRegs (x.setN r 0).n) : y.getN r = 0 := by
  unfold Strand.getN
  split
  · rfl
  · rename_i hr
    rw [h]
    refine get_canonRegs_absent fun kv hm => ?_
    rw [Strand.setN, if_neg hr] at hm
    change kv ∈ SMap.set (fun _ => 0) x.n r.toNat 0 at hm
    rw [SMap.set, if_pos rfl] at hm
    exact smap_mem_erase hm

section
variable (x : Strand) (v : Vcpu) (sh : BitVec 32)

theorem setN_eq (r : Reg) (w : Word) : ∃ n, x.setN r w = { x with n := n } := by
  unfold Strand.setN
  split
  · exact ⟨_, rfl⟩
  · exact ⟨_, rfl⟩

/-- What ENTER takes from the vCPU, and what it keeps of the strand. -/
theorem loadVcpu_parts : (x.loadVcpu v sh).pc = v.st.pc ∧ (x.loadVcpu v sh).v = v.st.v ∧ (x.loadVcpu v sh).bankH = x.bankH ∧
    (x.loadVcpu v sh).status = (x.status &&& ~~~ (word 0x67C)) ||| v.st.status ||| word 0x100 := by
  unfold Strand.loadVcpu
  dsimp only
  split
  · exact ⟨rfl, rfl, rfl, rfl⟩
  · rename_i r _
    obtain ⟨n, hn⟩ := setN_eq { x with
      pc := v.st.pc
      n := v.st.n.foldl (fun m kv => SMap.set (fun _ => 0) m kv.1 kv.2) (keepShared sh x.n)
      v := v.st.v
      bankS := v.st.bankS
      tcfg := putF x.tcfg 0 3 (getF v.st.tcfg 0 3)
      ttb1 := v.st.ttb1
      asid := v.st.asid
      timecmp := v.st.timecmp
      status := (x.status &&& ~~~ (word 0x67C)) ||| v.st.status ||| word 0x100
      ras := [] } r 0
    rw [hn]
    exact ⟨rfl, rfl, rfl, rfl⟩

theorem loadVcpu_exitD {r : Reg} (h : v.exitD = some r) : ∃ y : Strand, x.loadVcpu v sh = y.setN r 0 := by
  unfold Strand.loadVcpu
  dsimp only
  rw [h]
  exact ⟨_, rfl⟩

end

theorem loadVcpu_status {x : Strand} {v : Vcpu} (sh : BitVec 32) (hx : getF x.status 0 2 = 1) (hv : v.st.status.extractLsb' 0 2 = 0#2) :
    getF (x.loadVcpu v sh).status 0 2 = 1 ∧ getF (x.loadVcpu v sh).status 8 1 = 1 := by
  have h0 : getF v.st.status 0 2 = 0 := by
    rw [getF_eq_extract, hv]
    rfl
  have h8 := getF_lt ((x.status &&& ~~~ (word 0x67C)) ||| v.st.status) 8 1
  rw [(loadVcpu_parts x v sh).2.2.2]
  refine ⟨?_, ?_⟩
  · rw [getF_or, getF_or, getF_and, hx, h0]
    decide
  · rw [getF_or, show getF (word 0x100) 8 1 = 1 by decide]
    generalize getF ((x.status &&& ~~~ (word 0x67C)) ||| v.st.status) 8 1 = y at h8 ⊢
    interval_cases y
    · rfl
    · rfl

theorem putF_pl (w : Word) : getF (putF w 0 2 1) 0 2 = 1 := getF_putF_same w 0 2 1 (by decide)

theorem step_bankH (x : Strand) (k : Nat) : (x.step k).bankH = x.bankH := by
  unfold Strand.step
  split
  · rfl
  · rfl

section
variable {u : State} {g dom i : Nat} {m : Domain} {v : Vcpu}

/-- The strand as ENTER finds it: its shadow has moved on, and it stands at S. -/
def entering (u : State) (g : Nat) : Strand :=
  { (u.strand g).step 1 with status := putF ((u.strand g).step 1).status 0 2 1 }

/-- The domain's record once vCPU i runs. -/
def runs (m : Domain) (i : Nat) : Domain := m.setVcpu i fun v => { v with running := true, exitD := none }

/-- The strand as ENTER leaves it. -/
def insideOf (u : State) (g dom i : Nat) (m : Domain) (v : Vcpu) : Strand :=
  { ((entering u g).loadVcpu v m.shared).masked with inside := some (dom, i) }

theorem enterDomain_eq (hm : u.dev.domain dom = some m) (hv : m.vcpus[i]? = some v) : ∃ d : Dev,
    d.domains = u.dev.domains ∧ ∃ w : State, w.dev = d ∧ (∀ k, k ≠ g → w.strand k = u.strand k) ∧
    u.enterDomain g dom i = ({ w with dev := (d.setDomain dom (some (runs m i))).flushBtb (d.phys (g / 2)) } : State).setStrand g
      (insideOf u g dom i m v) := by
  let w : State := (u.count g 1).setStrand g { ((u.count g 1).strand g).step 1 with
    status := putF (((u.count g 1).strand g).step 1).status 0 2 1 }
  have hws : w.strand g = entering u g := by
    refine (strand_setStrand_same _ _ _).trans ?_
    rw [count_strand, entering]
  have hwd : w.dev.domains = u.dev.domains := count_domains u.dev g (u.strand g) 1
  have hwm : w.dev.domain dom = some m := by
    unfold Dev.domain
    rw [hwd]
    exact hm
  refine ⟨w.dev, hwd, w, rfl, fun k hk => strand_setStrand_other _ _ _ _ hk, ?_⟩
  change w.enterVcpu g dom i = _
  unfold State.enterVcpu
  rw [hwm]
  dsimp only
  rw [hv]
  dsimp only
  rw [strand_dev, hws]
  rfl

end

theorem enter_gives {s u : State} {g : Nat} {e : SysEnc} {b : Block} {m : Domain} {v : Vcpu}
    (hm : u.dev.domain b.dom = some m) (hv : m.vcpus[b.arg0.toNat]? = some v)
    (h0 : v.st.status.extractLsb' 0 2 = 0#2) (hg : Gives (.enter g 0 e) s (u.enterDomain g b.dom b.arg0.toNat)) :
    GivesSome (.enter g 0 e) s fun t =>
      (t.strand g).pl = 1 ∧ (t.strand g).sealedB = true ∧ (t.strand g).pc = v.st.pc &&& ~~~3#64 ∧
      (t.strand g).inside = some (b.dom, b.arg0.toNat) ∧ (t.strand g).v = v.st.v ∧
      (t.strand g).bankH = (u.strand g).bankH.masked ∧
      (SMap.wf (fun _ => 0) (u.strand g).n = true → ∀ r, v.exitD = some r → (t.strand g).getN r = 0) ∧
      (t.dev.domain b.dom).map (fun q => q.vcpus[b.arg0.toNat]?.map fun w => w.running) = some (some true) ∧
      ∀ k, k ≠ g → t.strand k = u.strand k := by
  obtain ⟨d, hd, w, hw, hother, ht⟩ := enterDomain_eq (g := g) hm hv
  have hst := loadVcpu_status m.shared (x := entering u g) (putF_pl _) h0
  obtain ⟨hpc, hvv, hbh, -⟩ := loadVcpu_parts (entering u g) v m.shared
  have hy : (u.enterDomain g b.dom b.arg0.toNat).strand g = insideOf u g b.dom b.arg0.toNat m v := by
    rw [ht]
    exact strand_setStrand_same _ _ _
  refine ⟨_, hg, ?_⟩
  dsimp only
  rw [hy]
  refine ⟨legalStatus_low hst.1 (by decide), beq_iff_eq.2 (legalStatus_sealed hst.2 hst.1 (by decide)), ?_, rfl, hvv, ?_,
    fun _ r hr => ?_, ?_, fun k hk => ?_⟩
  · exact (congrArg align4 hpc).trans (align4_eq_and _)
  · refine congrArg Bank.masked (hbh.trans ?_)
    exact step_bankH _ _
  · obtain ⟨y, hyy⟩ := loadVcpu_exitD (entering u g) v m.shared hr
    refine getN_cleared (x := y) ?_
    rw [← hyy]
    rfl
  · rw [ht, setStrand_dev]
    refine (congrArg (Option.map _) (domain_setDomain d b.dom (some (runs m b.arg0.toNat)))).trans ?_
    simp [runs, Domain.setVcpu, hv]
  · rw [ht, strand_setStrand_other _ _ _ _ hk]
    exact hother k hk

/-! ### Running -/

theorem sealedDomainsRun_hold : sealedDomainsRun := by
  intro s g e u p b hr d x
  refine ⟨fun ho hk m v hm hv => ⟨fun hb => ?_, fun h1 h2 h3 h4 => ?_⟩, fun ho hk hl => ?_,
    fun ho dom m hm => ⟨fun hk ha page hp => ?_, fun hk ha hp => ?_, fun hk ha page hp hb => ?_, fun hk ha => ?_,
      fun hk ha hb l bufL hl hbl hlen hfree => ?_, fun hk => ?_⟩⟩
  · refine secall_refused (c := .enter g 0 e) (execEnter.eq_def ..) hr hk (gate_plain ho (by decide)) (by decide) ?_
    rw [hm]
    dsimp only
    rw [hv]
    refine if_pos ?_
    simpa [or_assoc] using hb
  · refine enter_gives hm hv h4 (secall_moved (execEnter.eq_def ..) hr hk (gate_plain ho (by decide)) ?_)
    rw [hm]
    dsimp only
    rw [hv]
    refine if_neg ?_
    rw [h1, h2, h3]
    decide
  · refine secall_moved (execExit.eq_def ..) hr hk (gate_plain ho (by decide)) (if_neg ?_)
    rw [show (u.strand g).longOps = [] from hl]
    decide
  · refine secall_done (execAccept.eq_def ..) hr hk (gate_plain ho (by decide)) ?_ rfl
    rw [hm]
    refine (if_neg (by rw [ha]; decide)).trans ?_
    rw [show u.dev.pageAt dom 2 (b.arg0.toNat / 4096) = some page from hp]
  · refine secall_refused (c := .accept g 0 e) (execAccept.eq_def ..) hr hk (gate_plain ho (by decide)) (by decide) ?_
    rw [hm]
    refine (if_neg (by rw [ha]; decide)).trans ?_
    rw [show u.dev.pageAt dom 2 (b.arg0.toNat / 4096) = none from hp]
  · refine secall_done (execRelease.eq_def ..) hr hk (gate_plain ho (by decide)) (t := { u with dev := d.releasePage page }) ?_
      ⟨rfl, potEntry_setPot _ _ _⟩
    rw [hm]
    refine (if_neg (by rw [ha]; decide)).trans ?_
    rw [show u.dev.pageAt dom 1 (b.arg0.toNat / 4096) = some page from hp]
    exact if_neg (by rw [show u.dev.pagesBusy [page] = false from hb]; decide)
  · refine secall_refused (c := .report g 0 e) (execReport.eq_def ..) hr hk (gate_plain ho (by decide)) (by decide) ?_
    dsimp only
    rw [hm]
    refine if_pos ?_
    rw [Bool.or_eq_true, Bool.or_eq_true]
    exact .inl (.inl (bne_iff_ne.2 ha))
  · obtain ⟨t, ht⟩ : ∃ d', d' = ((d.linesRead m.key3 [l]).2.writeReport m (((d.linesRead m.key3 [l]).1.drop (b.arg0.toNat % 64)).take 64)
      bufL) := ⟨_, rfl⟩
    refine secall_done (execReport.eq_def ..) hr hk (gate_plain ho (by decide)) (t := { u with dev := t }) ?_ rfl
    have hany : ([l] ++ bufL).any (fun l => u.dev.lineBusy l) = false := by
      rw [List.any_eq_false]
      intro k hmem
      rw [hfree k hmem]
      decide
    have hsrc : [b.arg0.toNat / 64].filterMap (u.dev.domainLine dom) = [l] := by
      rw [List.filterMap_cons_some (show u.dev.domainLine dom (b.arg0.toNat / 64) = some l from hl), List.filterMap_nil]
    dsimp only
    rw [hm]
    dsimp only
    rw [if_pos (show (b.arg0.toNat % 64 == 0) = true from beq_iff_eq.2 ha), hsrc, show List.filterMap (u.dev.domainLine dom) _ = bufL from hbl,
      hlen, hb, hany, ht]
    rfl
  · refine secall_done (execShareRegs.eq_def ..) hr hk (gate_plain ho (by decide)) ?_ rfl
    rw [hm]
    dsimp only
    rw [getF_eq_extract]

/-! ### The end of a domain -/

theorem smap_get_mem {β : Type} (df : Nat → β) (m : SMap β) (k : Nat) : (k, SMap.get df m k) ∈ m ∨ SMap.get df m k = df k := by
  induction m with
  | nil => exact .inr rfl
  | cons p m ih =>
    obtain ⟨j, w⟩ := p
    unfold SMap.get
    split
    · rename_i h
      exact .inl (h ▸ .head _)
    · exact ih.imp (.tail _) id

theorem forgetExits_lastExit (s : State) (dom k : Nat) (n : Nat × Nat) :
    ((s.forgetExits fun i => i == dom).strand k).lastExit ≠ some (dom, n) := by
  intro h
  have hs : (s.forgetExits fun i => i == dom).strand k = SMap.get (fun _ => Strand.reset) (SMap.filterMap (fun _ => Strand.reset)
      (fun _ x => some { x with lastExit := x.lastExit.filter fun e => !(e.1 == dom) }) s.strands) k := rfl
  rcases smap_get_mem (fun _ => Strand.reset) (SMap.filterMap (fun _ => Strand.reset)
      (fun _ x => some { x with lastExit := x.lastExit.filter fun e => !(e.1 == dom) }) s.strands) k with hm | hd
  · obtain ⟨v, -, hv⟩ := smap_mem_filterMap _ _ hm
    rw [← hs] at hv
    have hl : ((s.forgetExits fun i => i == dom).strand k).lastExit = v.lastExit.filter fun e => !(e.1 == dom) :=
      (congrArg Strand.lastExit (Option.some.inj hv)).symm
    rw [hl, Option.filter_eq_some_iff] at h
    simp at h
  · rw [hs, hd] at h
    cases h

theorem domains_foldl {α : Type} (f : Dev → α → Dev) (h : ∀ d a, (f d a).domains = d.domains) (as : List α) (d : Dev) :
    (as.foldl f d).domains = d.domains := by
  induction as generalizing d with
  | nil => rfl
  | cons a as ih => exact (ih _).trans (h d a)

theorem domains_setAll (x : Pot) (pages : List Nat) (d : Dev) :
    (pages.foldl (fun d p => d.setPot p x) d).domains = d.domains := domains_foldl (fun d p => d.setPot p x) (fun _ _ => rfl) _ _

/-- A domain's key slots are emptied. -/
def slotsCleared (d : Dev) (m : Domain) : Dev :=
  match m.key4 with
  | some k => (d.clearSlot m.key3).clearSlot k
  | none => d.clearSlot m.key3

theorem slotsCleared_spec (d : Dev) (m : Domain) : ((slotsCleared d m).slot m.key3).cls = 0 ∧
    (∀ k, m.key4 = some k → ((slotsCleared d m).slot k).cls = 0) ∧ (∀ i, (slotsCleared d m).domain i = d.domain i) ∧
    ∀ page, potEntry (slotsCleared d m) page = potEntry d page := by
  have h3 : ((d.clearSlot m.key3).slot m.key3).cls = 0 := congrArg KeySlot.cls (slot_clearSlot d m.key3)
  unfold slotsCleared
  cases hk : m.key4 with
  | none => exact ⟨h3, fun _ h => (nomatch h), domain_clearSlot d m.key3, potEntry_clearSlot d m.key3⟩
  | some k =>
    dsimp only
    refine ⟨?_, fun k' h => ?_, fun i => ?_, fun page => ?_⟩
    · by_cases he : m.key3 = k
      · rw [he, slot_clearSlot]
      · rw [slot_clearSlot_other _ he]
        exact h3
    · rw [← Option.some.inj h, slot_clearSlot]
    · rw [domain_clearSlot, domain_clearSlot]
    · rw [potEntry_clearSlot, potEntry_clearSlot]

theorem destroyDomain_eq {d : Dev} {dom : Nat} {m : Domain} (hm : d.domain dom = some m) :
    d.destroyDomain dom = ((slotsCleared ((List.range m.vcpus.length).foldl (fun d i => d.setPot (m.areas + i) ⟨0, 0, 0, 0⟩)
      ((d.pagesOf dom [1, 2]).foldl (fun d p => d.setPot p ⟨3, dom, 0, 0⟩) (d.takeAway (d.pagesOf dom [1, 2])))) m).setDomain dom
        none).showSe := by
  unfold Dev.destroyDomain
  rw [hm]
  rfl

/-- What a domain's end leaves of its slots, its pages and its ID. -/
theorem destroyDomain_spec {d : Dev} {dom : Nat} {m : Domain} (hm : d.domain dom = some m) :
    let t := d.destroyDomain dom
    t.domain dom = none ∧ (t.slot m.key3).cls = 0 ∧ (∀ k, m.key4 = some k → (t.slot k).cls = 0) ∧
      (∀ j, j < m.vcpus.length → potEntry t (m.areas + j) = ⟨0, 0, 0, 0⟩) ∧
      (∀ page ∈ d.pagesOf dom [1, 2], (∀ j, j < m.vcpus.length → page ≠ m.areas + j) → potEntry t page = ⟨3, dom, 0, 0⟩) ∧
      (∀ i, i ≠ dom → t.domain i = d.domain i) := by
  obtain ⟨a, ha, hta⟩ := takeAway_spec d (d.pagesOf dom [1, 2])
  obtain ⟨h1, h2⟩ := potEntry_setAll ⟨3, dom, 0, 0⟩ (d.pagesOf dom [1, 2]) (d.takeAway (d.pagesOf dom [1, 2]))
  obtain ⟨b, hb⟩ : ∃ b, (d.pagesOf dom [1, 2]).foldl (fun d p => d.setPot p ⟨3, dom, 0, 0⟩) (d.takeAway (d.pagesOf dom [1, 2])) = b :=
    ⟨_, rfl⟩
  have hbd : b.domains = d.domains := by
    rw [← hb, domains_setAll, hta]
    exact domains_of_offLines (d := a) ha
  rw [hb] at h1 h2
  obtain ⟨h3, h4⟩ := potEntry_foldl (fun d i => d.setPot (m.areas + i) ⟨0, 0, 0, 0⟩) (m.areas + ·) (fun _ => ⟨0, 0, 0, 0⟩)
    (fun d i => potEntry_setPot d _ _) (fun d i k h => potEntry_setPot_other d _ h) (List.range m.vcpus.length)
    (fun _ _ _ _ _ => rfl) b
  obtain ⟨c, hc⟩ : ∃ c, (List.range m.vcpus.length).foldl (fun d i => d.setPot (m.areas + i) ⟨0, 0, 0, 0⟩) b = c := ⟨_, rfl⟩
  have hcd : c.domains = d.domains := by
    rw [← hc, ← hbd]
    exact domains_foldl (fun d i => d.setPot (m.areas + i) ⟨0, 0, 0, 0⟩) (fun _ _ => rfl) _ _
  rw [hc] at h3 h4
  have ht : d.destroyDomain dom = ((slotsCleared c m).setDomain dom none).showSe := by
    rw [destroyDomain_eq hm, hb, hc]
  obtain ⟨hs3, hs4, hsd, hsp⟩ := slotsCleared_spec c m
  dsimp only
  rw [ht]
  refine ⟨(domain_showSe _ _).trans (domain_setDomain _ _ _), ?_, fun k hk => ?_, fun j hj => ?_, fun page hp hn => ?_, fun i hi => ?_⟩
  · rw [slot_showSe, slot_setDomain]
    exact hs3
  · rw [slot_showSe, slot_setDomain]
    exact hs4 k hk
  · rw [potEntry_showSe, potEntry_setDomain, hsp]
    exact h3 j (List.mem_range.2 hj)
  · rw [potEntry_showSe, potEntry_setDomain, hsp, h4 page fun j hj => hn j (List.mem_range.1 hj)]
    exact h1 page hp
  · rw [domain_showSe, domain_setDomain_other _ _ hi, hsd]
    unfold Dev.domain
    rw [hcd]

theorem reclaimPages_pot (d : Dev) (pages : List Nat) : ∀ p ∈ pages, potEntry (d.reclaimPages pages) p = ⟨0, 0, 0, 0⟩ :=
  (potEntry_foldl (fun d p => (d.zeroPage p 0).setPot p ⟨0, 0, 0, 0⟩) id (fun _ => ⟨0, 0, 0, 0⟩)
    (fun d p => potEntry_setPot (d.zeroPage p 0) p _)
    (fun d p _ h => (potEntry_setPot_other (d.zeroPage p 0) _ h).trans (potEntry_of_pot (pot_of_offLines (offLines_zeroPage _ _ _)) _))
    pages (fun _ _ _ _ _ => rfl) (d.takeAway pages)).1

theorem queryWord_of_domain {d : Dev} {dom : Nat} {m : Domain} (hm : d.domain dom = some m) :
    d.queryWord dom = BitVec.ofNat 64 ((if m.built then 2 else 1) + 256 * m.vcpus.length
      + 2 ^ 24 * min (d.pagesOf dom [1, 2]).length (2 ^ 32 - 1)) := by
  unfold Dev.queryWord
  rw [hm]
  dsimp only
  rw [Nat.mul_comm _ (2 ^ 8), Nat.mul_comm _ (2 ^ 24)]
  rfl

theorem sealedDomainsEnd_hold : sealedDomainsEnd := by
  intro s g e u p b hr ho d
  refine ⟨fun hk hm => ?_, fun hk m hm => ⟨fun hv => ?_, fun hv hb => ?_⟩, fun hk h1 h2 hin hb => ?_, fun hk hm => ?_, fun hk m hm => ?_⟩
  · refine secall_refused (c := .destroy g 0 e) (execDestroy.eq_def ..) hr hk (gate_plain ho (by decide)) (by decide) ?_
    dsimp only
    rw [hm]
  · refine secall_refused (c := .destroy g 0 e) (execDestroy.eq_def ..) hr hk (gate_plain ho (by decide)) (by decide) ?_
    dsimp only
    rw [hm]
    exact if_pos (List.any_eq_true.2 hv)
  · have hany : (m.vcpus.any fun v => v.running) = false := by
      rw [List.any_eq_false]
      intro v hmem
      rw [hv v hmem]
      decide
    obtain ⟨q1, q2, q3, q4, q5, -⟩ := destroyDomain_spec hm
    refine secall_done (execDestroy.eq_def ..) hr hk (gate_plain ho (by decide))
      (t := ({ u with dev := d.destroyDomain b.dom } : State).forgetExits fun i => i == b.dom) ?_
      ⟨q1, q2, q3, q4, q5, fun k n => forgetExits_lastExit _ _ _ _⟩
    dsimp only
    rw [hm]
    exact (if_neg (by rw [hany]; decide)).trans (if_neg (by rw [hb]; decide))
  · refine secall_done (execReclaim.eq_def ..) hr hk (gate_plain ho (by decide))
      (t := { u with dev := d.reclaimPages (pageRun b.arg0 b.arg1.toNat) }) ?_
      ⟨rfl, fun j hj => reclaimPages_pot d _ _ (mem_pageRun _ hj)⟩
    dsimp only
    rw [badCount_false h1 h2, hin, hb]
    rfl
  · refine secall_done (execQuery.eq_def ..) hr hk (gate_plain ho (by decide)) (t := u) ?_ rfl
    unfold Dev.queryWord
    rw [hm]
  · refine secall_done (execQuery.eq_def ..) hr hk (gate_plain ho (by decide)) (t := u) ?_ rfl
    rw [queryWord_of_domain hm]

/-- Settles O34: each command through its gate; ENTER by what it loads of the vCPU, DESTROY by what it takes from the domain. -/
theorem sealedDomainsRunAndEnd : Obligations.SealedDomainsRunAndEnd := ⟨sealedDomainsRun_hold, sealedDomainsEnd_hold⟩

end Sys2Proof.Proofs
end

