-- ==== Sys2Proof/Proofs/Mailboxes.lean ====
section
/-!
PROOFS. The mailboxes (R406, R508): claims, completions, and how a command is served; and the commands of the security engine's
(R379, R385, R389, R404, R405).
-/

namespace Sys2Proof.Proofs

open Sys2Proof Sys2Proof.Machine Sys2Proof.Laws

/-! ### Completions -/

section
variable (d : Dev) (b : Box)

theorem reported_statusOff : reported b.statusOff = false := by
  cases b
  · decide
  · decide
  · decide

theorem reported_claimOff : reported b.claimOff = false := by
  cases b
  · decide
  · decide
  · decide

theorem box_setBox (m : Mailbox) : (d.setBox b m).box b = m := by
  cases b
  · rfl
  · rfl
  · rfl

theorem regs_setBox (m : Mailbox) : (d.setBox b m).regs = d.regs := by
  cases b
  · rfl
  · rfl
  · rfl

theorem fld_setBox (m : Mailbox) (f : Field) : (d.setBox b m).fld f = d.fld f :=
  congrArg (fun r => f.get (SMap.get coldValue r f.reg)) (regs_setBox d b m)

theorem flag_setBox (m : Mailbox) (f : Field) : (d.setBox b m).flag f = d.flag f := congrArg (· != 0) (fld_setBox d b m f)

theorem box_of_bare {d e : Dev} (h : bare d = bare e) (b : Box) : d.box b = e.box b := by
  cases b
  · exact of_bare (·.seBox) (fun _ => rfl) h
  · exact of_bare (·.stwBox) (fun _ => rfl) h
  · exact of_bare (·.pfBox) (fun _ => rfl) h

theorem bare_boxEvent : bare (d.boxEvent b) = bare d := by
  cases b
  · exact bare_routeEvent _ _
  · exact bare_routeEvent _ _
  · rfl

theorem keepsRegs_boxEvent : keepsRegs d (d.boxEvent b) := by
  cases b
  · exact keepsRegs_routeEvent _ (keepsRegs_refl d)
  · exact keepsRegs_routeEvent _ (keepsRegs_refl d)
  · exact keepsRegs_refl d

/-- The response is in the buffer. -/
def responded (resp : List Byte) : Dev := d.setBox b { d.box b with buf := bufOf resp }

/-- The status register shows the completion. -/
def shown (st len : Nat) : Dev :=
  (((d.setFld (b.status R.MB_STATUS_RESULT) st).setFld (b.status R.MB_STATUS_RLENGTH) len).setFld (b.status R.MB_STATUS_BUSY) 0).setFld
    (b.status R.MB_STATUS_QUEUED) 0

theorem boxDone_eq (st : Nat) (resp : List Byte) :
    d.boxDone b st resp = (shown (responded d b resp) b st resp.length).boxEvent b := rfl

theorem bare_shown (st len : Nat) : bare (shown d b st len) = bare d := by
  unfold shown
  rw [bare_setFld, bare_setFld, bare_setFld, bare_setFld]

theorem bare_boxDone (st : Nat) (resp : List Byte) : bare (d.boxDone b st resp) = bare (responded d b resp) := by
  rw [boxDone_eq, bare_boxEvent, bare_shown]

theorem fld_status_apart (f k : Field) (x : Nat) (h : f.lo + f.width ≤ 64) (hk : k.lo + k.width ≤ f.lo ∨ f.lo + f.width ≤ k.lo) :
    (d.setFld (b.status f) x).fld (b.status k) = d.fld (b.status k) := fld_setFld_apart d (b.status f) (b.status k) x h hk

theorem shown_spec (st len : Nat) :
    (shown d b st len).fld (b.status R.MB_STATUS_RESULT) = st % 2 ^ 8 ∧
      (shown d b st len).fld (b.status R.MB_STATUS_RLENGTH) = len % 2 ^ 13 ∧
      (shown d b st len).flag (b.status R.MB_STATUS_BUSY) = false ∧ (shown d b st len).flag (b.status R.MB_STATUS_QUEUED) = false := by
  unfold shown
  obtain ⟨d1, h1⟩ : ∃ e, d.setFld (b.status R.MB_STATUS_RESULT) st = e := ⟨_, rfl⟩
  obtain ⟨d2, h2⟩ : ∃ e, d1.setFld (b.status R.MB_STATUS_RLENGTH) len = e := ⟨_, rfl⟩
  obtain ⟨d3, h3⟩ : ∃ e, d2.setFld (b.status R.MB_STATUS_BUSY) 0 = e := ⟨_, rfl⟩
  rw [h1, h2, h3]
  refine ⟨?_, ?_, ?_, ?_⟩
  · rw [fld_status_apart _ _ R.MB_STATUS_QUEUED R.MB_STATUS_RESULT 0 (by decide) (by decide), ← h3,
      fld_status_apart _ _ R.MB_STATUS_BUSY R.MB_STATUS_RESULT 0 (by decide) (by decide), ← h2,
      fld_status_apart _ _ R.MB_STATUS_RLENGTH R.MB_STATUS_RESULT len (by decide) (by decide), ← h1]
    exact fld_setFld_same d (b.status R.MB_STATUS_RESULT) st (show R.MB_STATUS_RESULT.lo + R.MB_STATUS_RESULT.width ≤ 64 by decide)
  · rw [fld_status_apart _ _ R.MB_STATUS_QUEUED R.MB_STATUS_RLENGTH 0 (by decide) (by decide), ← h3,
      fld_status_apart _ _ R.MB_STATUS_BUSY R.MB_STATUS_RLENGTH 0 (by decide) (by decide), ← h2]
    exact fld_setFld_same d1 (b.status R.MB_STATUS_RLENGTH) len
      (show R.MB_STATUS_RLENGTH.lo + R.MB_STATUS_RLENGTH.width ≤ 64 by decide)
  · refine (congrArg (· != 0) (fld_status_apart _ _ R.MB_STATUS_QUEUED R.MB_STATUS_BUSY 0 (by decide) (by decide))).trans ?_
    rw [← h3]
    exact flag_setFld_zero d2 (b.status R.MB_STATUS_BUSY) (show R.MB_STATUS_BUSY.lo + R.MB_STATUS_BUSY.width ≤ 64 by decide)
  · exact flag_setFld_zero d3 (b.status R.MB_STATUS_QUEUED) (show R.MB_STATUS_QUEUED.lo + R.MB_STATUS_QUEUED.width ≤ 64 by decide)

theorem fld_shown_reg (st len : Nat) {f : Field} (h : f.reg ≠ b.statusOff) : (shown d b st len).fld f = d.fld f := by
  unfold shown
  rw [fld_setFld_reg _ _ _ _ h, fld_setFld_reg _ _ _ _ h, fld_setFld_reg _ _ _ _ h, fld_setFld_reg _ _ _ _ h]

theorem boxDone_result (st : Nat) (resp : List Byte) :
    (d.boxDone b st resp).fld (b.status R.MB_STATUS_RESULT) = st % 2 ^ 8 ∧
      (d.boxDone b st resp).fld (b.status R.MB_STATUS_RLENGTH) = resp.length % 2 ^ 13 ∧
      (d.boxDone b st resp).flag (b.status R.MB_STATUS_BUSY) = false ∧
      (d.boxDone b st resp).flag (b.status R.MB_STATUS_QUEUED) = false := by
  obtain ⟨h1, h2, h3, h4⟩ := shown_spec (responded d b resp) b st resp.length
  have hk := keepsRegs_boxEvent (shown (responded d b resp) b st resp.length) b
  rw [boxDone_eq]
  have ho := reported_statusOff b
  exact ⟨(fld_of_keepsRegs hk ho).trans h1, (fld_of_keepsRegs hk ho).trans h2, (flag_of_keepsRegs hk ho).trans h3,
    (flag_of_keepsRegs hk ho).trans h4⟩

/-- A completion leaves every register but the mailbox's status and what an event shows. -/
theorem fld_boxDone_other (st : Nat) (resp : List Byte) {f : Field} (hr : reported f.reg = false) (h : f.reg ≠ b.statusOff) :
    (d.boxDone b st resp).fld f = d.fld f := by
  rw [boxDone_eq, fld_of_keepsRegs (keepsRegs_boxEvent _ b) hr, fld_shown_reg _ _ _ _ h]
  exact fld_setBox _ _ _ _

theorem flag_boxDone_other (st : Nat) (resp : List Byte) {f : Field} (hr : reported f.reg = false) (h : f.reg ≠ b.statusOff) :
    (d.boxDone b st resp).flag f = d.flag f := congrArg (· != 0) (fld_boxDone_other d b st resp hr h)

theorem box_boxDone (st : Nat) (resp : List Byte) : (d.boxDone b st resp).box b = { d.box b with buf := bufOf resp } :=
  (box_of_bare (bare_boxDone d b st resp) b).trans (box_setBox _ _ _)

/-- What no mailbox is part of stands at a completion. -/
theorem of_boxDone {α : Type} (F : Dev → α) (hF : ∀ d, F (bare d) = F d) (hb : ∀ d b m, F (Dev.setBox d b m) = F d)
    (st : Nat) (resp : List Byte) : F (d.boxDone b st resp) = F d :=
  (of_bare F hF (bare_boxDone d b st resp)).trans (hb _ _ _)

end

theorem get_bufOf (bs : List Byte) (i : Nat) : SMap.get (fun _ => 0) (bufOf bs) i = (bs[i]?).getD 0 := by
  have h (n : Nat) : SMap.get (fun _ => 0) ((List.range n).foldl (fun m i => SMap.set (fun _ => 0) m i ((bs[i]?).getD 0)) []) i =
      if i < n then (bs[i]?).getD 0 else 0 := by
    induction n with
    | zero => rfl
    | succ n ih =>
      rw [List.range_succ, List.foldl_append, List.foldl_cons, List.foldl_nil]
      by_cases hi : i = n
      · rw [hi, smap_get_set_same, if_pos (Nat.lt_succ_self n)]
      · rw [smap_get_set_other _ _ _ _ _ hi, ih]
        by_cases hn : i < n
        · rw [if_pos hn, if_pos (Nat.lt_succ_of_lt hn)]
        · rw [if_neg hn, if_neg (by omega)]
  refine (h bs.length).trans ?_
  split
  · rfl
  · rename_i hn
    rw [List.getElem?_eq_none (Nat.le_of_not_lt hn)]
    rfl

theorem completionRules_hold (d : Dev) (b : Box) {st : Nat} (resp : List Byte) (h : st < 256) : completionRules d b st resp := by
  obtain ⟨h1, h2, h3, h4⟩ := boxDone_result d b st resp
  have hb := box_boxDone d b st resp
  refine ⟨h1.trans (Nat.mod_eq_of_lt h), h2, h3, h4, by rw [hb], fun i => ?_, ?_, ?_⟩
  · rw [hb]
    exact get_bufOf resp i
  · exact of_boxDone d b (·.dram) (fun _ => rfl) (fun d b m => by cases b <;> rfl) st resp
  · exact of_boxDone d b (·.peat) (fun _ => rfl) (fun d b m => by cases b <;> rfl) st resp

/-! ### Claims -/

theorem fld_claim_apart (d : Dev) (b : Box) (f k : Field) (x : Nat) (h : f.lo + f.width ≤ 64)
    (hk : k.lo + k.width ≤ f.lo ∨ f.lo + f.width ≤ k.lo) : (d.setFld (b.claim f) x).fld (b.claim k) = d.fld (b.claim k) :=
  fld_setFld_apart d (b.claim f) (b.claim k) x h hk

/-- The claim register shows its holder. -/
def claimShown (d : Dev) (b : Box) (held owner : Nat) : Dev :=
  (d.setFld (b.claim R.MB_CLAIM_HELD) held).setFld (b.claim R.MB_CLAIM_OWNER) owner

theorem bare_claimShown (d : Dev) (b : Box) (held owner : Nat) : bare (claimShown d b held owner) = bare d :=
  (bare_setFld _ _ _).trans (bare_setFld _ _ _)

theorem claimShown_spec (d : Dev) (b : Box) {held owner : Nat} (h1 : held < 2) (h : owner < 2 ^ 12) :
    (claimShown d b held owner).flag (b.claim R.MB_CLAIM_HELD) = (held != 0) ∧
      (claimShown d b held owner).fld (b.claim R.MB_CLAIM_OWNER) = owner := by
  unfold claimShown
  obtain ⟨e, he⟩ : ∃ e, d.setFld (b.claim R.MB_CLAIM_HELD) held = e := ⟨_, rfl⟩
  rw [he]
  refine ⟨congrArg (· != 0) ((fld_claim_apart e b R.MB_CLAIM_OWNER R.MB_CLAIM_HELD owner (by decide) (by decide)).trans ?_), ?_⟩
  · rw [← he]
    exact fld_setFld_lt (f := b.claim R.MB_CLAIM_HELD) d (show R.MB_CLAIM_HELD.lo + R.MB_CLAIM_HELD.width ≤ 64 by decide) h1
  · exact fld_setFld_lt (f := b.claim R.MB_CLAIM_OWNER) e (show R.MB_CLAIM_OWNER.lo + R.MB_CLAIM_OWNER.width ≤ 64 by decide) h

section
variable {s : State} {b : Box} {req : Requester}

theorem claimBox_free {g : Nat} (hr : req = .strand g) (hg : g < 512) (hl : (s.strand g).pl = 2) (hc : (s.dev.box b).claimer = none) :
    ∃ e : Dev, s.claimBox b req = { s with dev := e } ∧ (e.box b).claimer = some req ∧ e.flag (b.claim R.MB_CLAIM_HELD) = true ∧
      e.fld (b.claim R.MB_CLAIM_OWNER) = 512 * s.dev.self + g ∧ (e.box b).buf = (s.dev.box b).buf := by
  have hself := self_lt s.dev
  obtain ⟨d1, h1⟩ : ∃ e, s.dev.setBox b { s.dev.box b with claimer := some req } = e := ⟨_, rfl⟩
  have hid : (d1.setFld (b.claim R.MB_CLAIM_HELD) 1).requesterId req = 512 * s.dev.self + g := by
    have hs : (d1.setFld (b.claim R.MB_CLAIM_HELD) 1).self = s.dev.self := by
      refine (fld_setFld_reg d1 (b.claim R.MB_CLAIM_HELD) R.IDENT_SOCKET_ID 1 ?_).trans ?_
      · cases b
        · decide
        · decide
        · decide
      · rw [← h1]
        exact fld_setBox _ _ _ _
    rw [hr]
    unfold Dev.requesterId Dev.globalId
    dsimp only
    rw [hs, Nat.mul_comm]
  obtain ⟨hf, ho⟩ := claimShown_spec d1 b (held := 1) (owner := 512 * s.dev.self + g) (by decide) (by omega)
  have hb : (claimShown d1 b 1 (512 * s.dev.self + g)).box b = { s.dev.box b with claimer := some req } := by
    rw [box_of_bare (bare_claimShown _ _ _ _), ← h1, box_setBox]
  refine ⟨claimShown d1 b 1 (512 * s.dev.self + g), ?_, by rw [hb], hf, ho, by rw [hb]⟩
  refine (if_pos ?_).trans ?_
  · rw [hc, hr]
    exact (Bool.and_true _).trans (beq_iff_eq.2 hl)
  · dsimp only
    rw [h1, hid]
    rfl

theorem freeBox_eq (d : Dev) (b : Box) : d.freeBox b = claimShown (d.setBox b { d.box b with claimer := none }) b 0 0 := rfl

theorem freeBox_spec (d : Dev) (b : Box) : ((d.freeBox b).box b).claimer = none ∧ (d.freeBox b).flag (b.claim R.MB_CLAIM_HELD) = false ∧
    ((d.freeBox b).box b).buf = (d.box b).buf := by
  have hb : (d.freeBox b).box b = { d.box b with claimer := none } := by
    rw [freeBox_eq, box_of_bare (bare_claimShown _ _ _ _), box_setBox]
  refine ⟨by rw [hb], ?_, by rw [hb]⟩
  rw [freeBox_eq]
  exact (claimShown_spec _ b (held := 0) (owner := 0) (by decide) (by decide)).1

end

theorem mailboxProtocol_hold : mailboxProtocol := by
  intro s stw req hr d b
  have hb : boxOf stw = b := rfl
  refine ⟨fun st resp h => completionRules_hold d b resp h, fun g hg hl hc => ?_, fun h => ?_, fun v ha hc hv => ?_, fun v h => ?_, ?_,
    fun h => ?_, fun h => ?_⟩
  · have hg' : g < 512 := by
      rw [hg] at hr
      exact of_decide_eq_true hr
    obtain ⟨e, he, h1⟩ := claimBox_free hg hg' hl hc
    exact ⟨e, (execMbClaim.eq_def ..).trans ((if_pos hr).trans (congrArg Host.Outcome.next he)), h1⟩
  · refine (execMbClaim.eq_def ..).trans ((if_pos hr).trans (congrArg Host.Outcome.next (if_neg ?_)))
    rw [Bool.and_eq_true, Option.isNone_iff_eq_none]
    rintro ⟨h1, h2⟩
    rcases h with h | h
    · rw [h] at h1
      cases h1
    · exact h h2
  · refine ⟨d.freeBox b, (execMbRelease.eq_def ..).trans ((if_pos hr).trans (congrArg Host.Outcome.next ?_)), (freeBox_spec d b).1, (freeBox_spec d b).2.1⟩
    refine (if_neg ?_).trans (if_pos ?_)
    · rw [ha, Dev.holdsBox, show (s.dev.box (boxOf stw)).claimer = some req from hc, beq_self_eq_true]
      decide
    · rw [bitOf_eq_getLsbD]
      exact hv
  · refine (execMbRelease.eq_def ..).trans ((if_pos hr).trans (congrArg Host.Outcome.next (if_pos ?_)))
    rw [Bool.not_eq_true', Bool.and_eq_false_iff]
    refine h.imp id fun h => ?_
    exact beq_eq_false_iff_ne.2 h
  · exact ⟨d.freeBox b, dev_makes (execMbClaimLapse.eq_def ..) rfl rfl, freeBox_spec d b⟩
  · exact dev_makes (execSmbQueueTimeout.eq_def ..) rfl (if_pos h)
  · exact dev_makes (execSmbQueueTimeout.eq_def ..) rfl (if_neg (by rw [show s.dev.flag (Box.stw.status R.MB_STATUS_QUEUED) = false from h]; decide))

end Sys2Proof.Proofs
end

