-- ==== Sys2Proof/Proofs/EngineCommands.lean ====
section
/-!
PROOFS. The commands of the security engine's mailbox (R379, R385, R389, R404, R405).
-/

namespace Sys2Proof.Proofs

open Sys2Proof Sys2Proof.Machine Sys2Proof.Laws

/-! ### Serving (R30, R400, R406) -/

section
variable {d : Dev} {b : Box} {code : Nat} {f : List Byte → Dev → Reply}

theorem serveSe_idle (hw : d.boxWaits b code = false) : d.serveSe b code f = d := by
  refine if_pos ?_
  rw [hw]
  rfl

theorem serveSe_run (hw : d.boxWaits b code = true) (hs : d.fld R.SE_STATUS_STATE = 1) :
    d.serveSe b code f = (f (d.boxRequest b) d).dev.boxDone b (f (d.boxRequest b) d).status (f (d.boxRequest b) d).resp := by
  unfold Dev.serveSe Dev.serve
  dsimp only
  rw [hw, hs]
  rfl

theorem serveSe_halted (hw : d.boxWaits b code = true) (hs : d.fld R.SE_STATUS_STATE = 3) :
    d.serveSe b code f = d.boxDone b stUnavailable [] := by
  unfold Dev.serveSe Dev.serve
  dsimp only
  rw [hw, hs]
  rfl

theorem serveSe_update (hw : d.boxWaits b code = true) (h1 : d.fld R.SE_STATUS_STATE ≠ 1) (h3 : d.fld R.SE_STATUS_STATE ≠ 3) :
    d.serveSe b code f = d.setFld (b.status R.MB_STATUS_QUEUED) 1 := by
  unfold Dev.serveSe Dev.serve
  dsimp only
  rw [hw, beq_eq_false_iff_ne.2 h1, beq_eq_false_iff_ne.2 h3]
  rfl

end

section
variable {s : State} {c : Instr} {code : Nat} {f : List Byte → Dev → Reply} {r : Reply}

/-- A command that the engine runs completes with its reply. -/
theorem engine_makes (hc : exec c s = onDev true s fun d => d.serveSe .se code f)
    (hw : s.dev.boxWaits .se code = true ∧ s.dev.fld R.SE_STATUS_STATE = 1) (hf : f (s.dev.boxRequest .se) s.dev = r) :
    Makes c s (r.dev.boxDone .se r.status r.resp) :=
  dev_makes hc rfl ((serveSe_run hw.1 hw.2).trans (by rw [hf]))

theorem engine_refuses {st : Nat} (hc : exec c s = onDev true s fun d => d.serveSe .se code f)
    (hw : s.dev.boxWaits .se code = true ∧ s.dev.fld R.SE_STATUS_STATE = 1) (hf : f (s.dev.boxRequest .se) s.dev = s.dev.refuse st) :
    Makes c s (s.dev.boxDone .se st []) := engine_makes (r := ⟨st, [], s.dev⟩) hc hw hf

end

/-- What DEBUG_UNLOCK answers: every domain is destroyed, and every slot of a domain's key emptied. -/
def unlocked (d : Dev) : Dev :=
  let e := (d.domains.map fun kv => kv.1).foldl (fun d i => d.destroyDomain i) d
  (e.slots.filter fun kv => kv.2.cls == 3 || kv.2.cls == 4).foldl (fun d kv => d.clearSlot kv.1) e

def unlockReply (sealedAny ok : Bool) (_ : List Byte) (d : Dev) : Reply :=
  if sealedAny then d.refuse stBadState
  else if !ok || d.fw.nonce.isNone then d.refuse stVerifyFailed
  else ((unlocked d).setFld R.SE_STATUS_DEBUG 1).done

theorem debugUnlock_serves {s : State} {ok : Bool} (h : (s.dev.boxWaits .se 0x41 && s.dev.fld R.SE_STATUS_STATE == 1
      && !(s.strands.any fun kv => kv.2.sealedB) && ok && s.dev.fw.nonce.isSome) = false) :
    exec (.debugUnlock ok) s = onDev true s fun d => d.serveSe .se 0x41 (unlockReply (s.strands.any fun kv => kv.2.sealedB) ok) := by
  refine (execDebugUnlock.eq_def ..).trans ?_
  dsimp only
  rw [h]
  rfl

theorem unlockReply_unlocks {d : Dev} (h : d.fw.nonce.isSome = true) (q : List Byte) :
    unlockReply false true q d = ((unlocked d).setFld R.SE_STATUS_DEBUG 1).done := by
  have hn : d.fw.nonce.isNone = false := by
    rw [← Option.not_isSome, h]
    rfl
  refine (if_neg (by decide)).trans (if_neg ?_)
  rw [hn]
  decide

theorem engineCommand_serves {c : Instr} {k : Nat} (h : engineCommand c k) (s : State)
    (hn : s.dev.boxWaits .se k = false ∨ s.dev.fld R.SE_STATUS_STATE ≠ 1) :
    ∃ f, exec c s = onDev true s fun d => d.serveSe .se k f := by
  rcases h with ⟨rfl, rfl⟩ | ⟨rfl, rfl⟩ | ⟨rfl, rfl⟩ | ⟨bad, rfl, rfl⟩ | ⟨rfl, rfl⟩ | ⟨ok, rfl, rfl⟩ | ⟨rfl, rfl⟩ | ⟨rfl, rfl⟩
  · exact ⟨_, execKeyGenerate.eq_def ..⟩
  · exact ⟨_, execKeyClear.eq_def ..⟩
  · exact ⟨_, execRollbackCommit.eq_def ..⟩
  · exact ⟨_, execFuseSession.eq_def ..⟩
  · exact ⟨_, execDebugNonce.eq_def ..⟩
  · refine ⟨_, debugUnlock_serves ?_⟩
    rcases hn with hn | hn
    · rw [hn]
      rfl
    · rw [beq_eq_false_iff_ne.2 hn, Bool.and_false]
      rfl
  · exact ⟨_, execLinkSecretGen.eq_def ..⟩
  · exact ⟨_, execIdeKeySet.eq_def ..⟩

theorem seBox_eq (d : Dev) : d.seBox = d.box .se := rfl

theorem fld_result_done (d : Dev) (resp : List Byte) : (d.boxDone .se 0 resp).fld R.MB_STATUS_RESULT = 0 :=
  (boxDone_result d .se 0 resp).1

theorem slot_boxDone (d : Dev) (b : Box) (st : Nat) (resp : List Byte) (k : Nat) : (d.boxDone b st resp).slot k = d.slot k :=
  of_boxDone d b (·.slot k) (fun _ => rfl) (fun _ b _ => by cases b <;> rfl) st resp

/-! ### Keys -/

theorem nextKey_freshKey (d : Dev) (k cls dom : Nat) : (d.freshKey k cls dom).nextKey = d.nextKey + 1 :=
  of_bare (·.nextKey) (fun _ => rfl) (bare_showSe _)

theorem keyGenerate_hold {s : State} {q : List Byte} {x : Nat} (hq : s.dev.boxRequest .se = q) (hx : leNat q = x)
    (hw : s.dev.boxWaits .se 0x20 = true ∧ s.dev.fld R.SE_STATUS_STATE = 1) (hr : s.dev.fw.randomBad = false) (hl : q.length = 8)
    (h24 : x < 2 ^ 24) (hc : x / 65536 = 1 ∨ x / 65536 = 2) :
    ((s.dev.slot (x % 65536)).cls ≠ 0 → Makes .keyGenerate s (s.dev.boxDone .se 4 [])) ∧
    ((s.dev.slot (x % 65536)).cls = 0 → MakesSome .keyGenerate s fun e =>
      e.slot (x % 65536) = ⟨x / 65536, s.dev.nextKey, 0⟩ ∧ e.nextKey = s.dev.nextKey + 1 ∧ e.fld R.MB_STATUS_RESULT = 0 ∧
      ∀ k, k ≠ x % 65536 → e.slot k = s.dev.slot k) := by
  have hcls : x / 65536 % 256 = x / 65536 := Nat.mod_eq_of_lt (by omega)
  have hb : (q.length != 8 || x / 2 ^ 24 != 0 || !(x / 65536 == 1 || x / 65536 == 2)) = false := by
    rw [hl, Nat.div_eq_of_lt h24]
    rcases hc with h | h
    · rw [h]
      rfl
    · rw [h]
      rfl
  have hf (r : Reply) (h : (if (s.dev.slot (x % 65536)).cls != 0 then s.dev.refuse stBadState
      else (s.dev.freshKey (x % 65536) (x / 65536) 0).done) = r) : Makes .keyGenerate s (r.dev.boxDone .se r.status r.resp) := by
    refine engine_makes (execKeyGenerate.eq_def ..) hw ?_
    rw [hq]
    dsimp only
    rw [hx, hr, hcls, hb]
    exact h
  refine ⟨fun h => hf ⟨4, [], s.dev⟩ (if_pos (bne_iff_ne.2 h)),
    fun h => ⟨_, hf (s.dev.freshKey (x % 65536) (x / 65536) 0).done (if_neg (by rw [h]; decide)), ?_, ?_, ?_, fun k hk => ?_⟩⟩
  · exact (slot_boxDone _ _ _ _ _).trans (slot_freshKey _ _ _ _)
  · exact (of_boxDone (s.dev.freshKey (x % 65536) (x / 65536) 0) .se (·.nextKey) (fun _ => rfl) (fun _ b _ => by cases b <;> rfl)
      0 []).trans (nextKey_freshKey _ _ _ _)
  · exact fld_result_done _ _
  · exact (slot_boxDone _ _ _ _ _).trans (slot_freshKey_other _ _ _ hk)

theorem keyClear_hold {s : State} {q : List Byte} {x : Nat} (hq : s.dev.boxRequest .se = q) (hx : leNat q = x)
    (hw : s.dev.boxWaits .se 0x21 = true ∧ s.dev.fld R.SE_STATUS_STATE = 1) (hl : q.length = 8) (h16 : x < 65536) :
    ((s.dev.slot x).cls ≠ 1 → (s.dev.slot x).cls ≠ 2 → Makes .keyClear s (s.dev.boxDone .se 4 [])) ∧
    (x = 0 → (s.dev.slot 0).cls = 2 → Makes .keyClear s (s.dev.boxDone .se 6 [])) ∧
    (x ≠ 0 → (s.dev.slot x).cls = 1 ∨ (s.dev.slot x).cls = 2 → MakesSome .keyClear s fun e =>
      (e.slot x).cls = 0 ∧ e.fld R.MB_STATUS_RESULT = 0 ∧ ∀ k, k ≠ x → e.slot k = s.dev.slot k) := by
  have hf (r : Reply) (h : (if !((s.dev.slot x).cls == 1 || (s.dev.slot x).cls == 2) then s.dev.refuse stBadState
      else if x == 0 then s.dev.refuse stNoSlot else (s.dev.clearSlot x).done) = r) :
      Makes .keyClear s (r.dev.boxDone .se r.status r.resp) := by
    refine engine_makes (execKeyClear.eq_def ..) hw ?_
    rw [hq]
    dsimp only
    rw [hx, hl, Nat.mod_eq_of_lt h16, Nat.div_eq_of_lt (show x < 2 ^ 16 from h16)]
    exact h
  refine ⟨fun h1 h2 => hf ⟨4, [], s.dev⟩ (if_pos ?_), fun h0 h2 => hf ⟨6, [], s.dev⟩ ((if_neg ?_).trans (if_pos ?_)),
    fun h0 h => ⟨_, hf (s.dev.clearSlot x).done ((if_neg ?_).trans (if_neg ?_)), ?_, ?_, fun k hk => ?_⟩⟩
  · rw [beq_eq_false_iff_ne.2 h1, beq_eq_false_iff_ne.2 h2]
    rfl
  · rw [h0, h2]
    decide
  · rw [h0]
    rfl
  · rcases h with h | h
    · rw [h]
      decide
    · rw [h]
      decide
  · rw [beq_eq_false_iff_ne.2 h0]
    decide
  · exact congrArg KeySlot.cls ((slot_boxDone _ _ _ _ _).trans (slot_clearSlot _ _))
  · exact fld_result_done _ _
  · exact (slot_boxDone _ _ _ _ _).trans (slot_clearSlot_other _ hk)

/-! ### Versions and fuses -/

theorem fusedSvn_boxDone (d : Dev) (b : Box) (st : Nat) (resp : List Byte) (c : Nat) : (d.boxDone b st resp).fusedSvn c = d.fusedSvn c :=
  of_boxDone d b (·.fusedSvn c) (fun _ => rfl) (fun _ b _ => by cases b <;> rfl) st resp

/-- Every component's counter rises to the SVN that runs. -/
def svnCommitted (d : Dev) : SMap Nat :=
  components.foldl (fun m c => SMap.set (fun _ => 0) m c (Nat.max (d.fusedSvn c) (d.running c).svn)) d.fw.svn

theorem get_svnCommitted (d : Dev) (c : Nat) : SMap.get (fun _ => 0) (svnCommitted d) c =
    if 1 ≤ c ∧ c ≤ 5 then max (d.fusedSvn c) (d.running c).svn else d.fusedSvn c := by
  have hf (F : Nat → Nat) (cs : List Nat) (m : SMap Nat) :
      SMap.get (fun _ => 0) (cs.foldl (fun m c => SMap.set (fun _ => 0) m c (F c)) m) c =
        if c ∈ cs then F c else SMap.get (fun _ => 0) m c := by
    induction cs generalizing m with
    | nil => simp
    | cons k cs ih =>
      rw [List.foldl_cons, ih]
      by_cases hm : c ∈ cs
      · rw [if_pos hm, if_pos (.tail _ hm)]
      · rw [if_neg hm]
        by_cases hk : c = k
        · rw [hk, smap_get_set_same, if_pos (.head _)]
        · rw [smap_get_set_other _ _ _ _ _ hk, if_neg (by simp [hm, hk])]
  refine (hf (fun c => Nat.max (d.fusedSvn c) (d.running c).svn) components d.fw.svn).trans ?_
  have hm : c ∈ components ↔ 1 ≤ c ∧ c ≤ 5 := by
    simp [components]
    omega
  by_cases h : 1 ≤ c ∧ c ≤ 5
  · rw [if_pos (hm.2 h), if_pos h]
  · rw [if_neg (fun k => h (hm.1 k)), if_neg h]
    rfl

theorem rollbackCommit_hold {s : State} (hw : s.dev.boxWaits .se 0x30 = true ∧ s.dev.fld R.SE_STATUS_STATE = 1) :
    MakesSome .rollbackCommit s fun e => e.fld R.MB_STATUS_RESULT = 0 ∧
      ∀ c, e.fusedSvn c = if 1 ≤ c ∧ c ≤ 5 then max (s.dev.fusedSvn c) (s.dev.running c).svn else s.dev.fusedSvn c :=
  ⟨_, engine_makes (execRollbackCommit.eq_def ..) hw rfl, fld_result_done _ _,
    fun c => (fusedSvn_boxDone _ _ _ _ _).trans (get_svnCommitted s.dev c)⟩

theorem indices_leBytes {i : Nat} (h : i < 65536) : indices (leBytes 2 i) = [i] := by
  change [leNat [BitVec.ofNat 8 i, BitVec.ofNat 8 (i / 256)]] = [i]
  simp only [leNat, BitVec.toNat_ofNat]
  congr 1
  omega

/-- The session's entry once it is burnt. -/
theorem burn_spec {d : Dev} {i : Nat} {r : Repair} (bad : Bool) (hr : d.repairs[i]? = some r)
    (hn : (if bad then 2 else 1) ≤ d.fld R.REPAIR_STATUS_FUSE_FREE) :
    (d.burn i bad).repairs[i]? = some { r with fuseBad := r.fuseBad || bad, fused := true } ∧
      (d.burn i bad).fld R.REPAIR_STATUS_FUSE_FREE = d.fld R.REPAIR_STATUS_FUSE_FREE - if bad then 2 else 1 := by
  have hlt : d.fld R.REPAIR_STATUS_FUSE_FREE < 2 ^ R.REPAIR_STATUS_FUSE_FREE.width := getF_lt _ _ _
  have hi : i < d.repairs.length := by
    by_contra h
    rw [List.getElem?_eq_none (Nat.le_of_not_lt h)] at hr
    cases hr
  obtain ⟨z, hz, hzr⟩ : ∃ z : Dev, d.burn i bad = z.setFld R.REPAIR_STATUS_FUSE_FREE (d.fld R.REPAIR_STATUS_FUSE_FREE - if bad then 2 else 1) ∧
      z.repairs = d.repairs.set i { r with fuseBad := r.fuseBad || bad, fused := true } := by
    unfold Dev.burn
    rw [hr]
    dsimp only
    rw [decide_eq_true hn, show Nat.min (if bad = true then 2 else 1) (d.fld R.REPAIR_STATUS_FUSE_FREE) = if bad then 2 else 1 from Nat.min_eq_left hn]
    exact ⟨_, rfl, rfl⟩
  rw [hz]
  refine ⟨?_, ?_⟩
  · rw [show (z.setFld R.REPAIR_STATUS_FUSE_FREE (d.fld R.REPAIR_STATUS_FUSE_FREE - if bad then 2 else 1)).repairs = z.repairs from
      of_bare (·.repairs) (fun _ => rfl) (bare_setFld _ _ _), hzr, List.getElem?_set_self hi]
  · exact fld_setFld_lt z (by decide) (Nat.lt_of_le_of_lt (Nat.sub_le _ _) hlt)

theorem fuseSession_burns {s : State} {i : Nat} {r : Repair} (bad : BitVec 64)
    (hw : s.dev.boxWaits .se 0x31 = true ∧ s.dev.fld R.SE_STATUS_STATE = 1) (hq : s.dev.boxRequest .se = leBytes 2 i) (hi : i < 65536)
    (hr : s.dev.repairs[i]? = some r) (hs : r.fused = false) (h1 : 1 ≤ r.typ) (h3 : r.typ ≤ 3) (hd : s.dev.phase ≠ .drain)
    (hrails : s.dev.railsBad = false) (hfree : 1 ≤ s.dev.fld R.REPAIR_STATUS_FUSE_FREE) :
    Makes (.fuseSession bad) s ((s.dev.burn i (bad.getLsbD 0)).boxDone .se 0 []) := by
  refine engine_makes (execFuseSession.eq_def ..) hw (r := (s.dev.burn i (bad.getLsbD 0)).done) ?_
  have hbit : natBit bad.toNat 0 = bad.getLsbD 0 := natBit_eq_testBit _ _
  rw [hq]
  dsimp only
  rw [indices_leBytes hi]
  refine (if_neg (by rw [leBytes_length]; decide)).trans ((if_neg ?_).trans ?_)
  · rw [beq_eq_false_iff_ne.2 hd, hrails, List.length_singleton, decide_eq_false (Nat.not_lt.2 hfree), List.any_cons, List.any_nil, hr]
    dsimp only
    rw [hs, decide_eq_true h1, decide_eq_true h3]
    decide
  · rw [← hbit]
    rfl

theorem repairs_boxDone (d : Dev) (b : Box) (st : Nat) (resp : List Byte) : (d.boxDone b st resp).repairs = d.repairs :=
  of_boxDone d b (·.repairs) (fun _ => rfl) (fun _ b _ => by cases b <;> rfl) st resp

theorem fld_fuseFree_boxDone (d : Dev) (st : Nat) (resp : List Byte) :
    (d.boxDone .se st resp).fld R.REPAIR_STATUS_FUSE_FREE = d.fld R.REPAIR_STATUS_FUSE_FREE :=
  fld_boxDone_other d .se st resp (by decide) (by decide)

/-! ### The debug lock -/

theorem random32_length (d : Dev) : d.random32.1.length = 32 := by
  have h (ws : List Word) : (ws.flatMap fun w => leBytes 8 w.toNat).length = 8 * ws.length := by
    induction ws with
    | nil => rfl
    | cons w ws ih =>
      rw [List.flatMap_cons, List.length_append, leBytes_length, ih, List.length_cons]
      omega
  exact h _

theorem debugNonce_hold {s : State} (hw : s.dev.boxWaits .se 0x40 = true ∧ s.dev.fld R.SE_STATUS_STATE = 1)
    (hr : s.dev.fw.randomBad = false) : MakesSome .debugNonce s fun e =>
      ∃ bs : List Byte, bs.length = 32 ∧ e.fw.nonce = some bs ∧ ∀ i, SMap.get (fun _ => 0) e.seBox.buf i = (bs[i]?).getD 0 := by
  obtain ⟨n, z, hn, hz⟩ : ∃ n z, s.dev.random32 = (n, z) ∧ n.length = 32 := ⟨_, _, rfl, random32_length _⟩
  obtain ⟨e, he⟩ : ∃ e : Dev, { z with fw := { z.fw with nonce := some n } } = e := ⟨_, rfl⟩
  refine ⟨e.boxDone .se 0 n, engine_makes (r := ⟨0, n, e⟩) (execDebugNonce.eq_def ..) hw ((if_neg (by rw [hr]; decide)).trans ?_),
    n, hz, ?_, fun i => ?_⟩
  · dsimp only
    rw [hn, ← he]
  · refine (of_boxDone e .se (·.fw.nonce) (fun _ => rfl) (fun _ b _ => by cases b <;> rfl) 0 n).trans ?_
    rw [← he]
  · rw [seBox_eq, box_boxDone]
    exact get_bufOf n i

theorem destroyDomain_domain (d : Dev) (dom : Nat) : (d.destroyDomain dom).domain dom = none ∧
    ∀ i, i ≠ dom → (d.destroyDomain dom).domain i = d.domain i := by
  cases hm : d.domain dom with
  | none =>
    have h : d.destroyDomain dom = d := by
      unfold Dev.destroyDomain
      rw [hm]
    rw [h]
    exact ⟨hm, fun _ _ => rfl⟩
  | some m =>
    obtain ⟨h1, -, -, -, -, h6⟩ := destroyDomain_spec hm
    exact ⟨h1, h6⟩

theorem destroyAll_domain (ks : List Nat) (d : Dev) (i : Nat) (h : i ∈ ks ∨ d.domain i = none) :
    (ks.foldl (fun d i => d.destroyDomain i) d).domain i = none := by
  induction ks generalizing d with
  | nil => exact h.resolve_left (fun h => (nomatch h))
  | cons k ks ih =>
    refine ih _ ?_
    obtain ⟨h1, h2⟩ := destroyDomain_domain d k
    by_cases hk : i = k
    · exact .inr (hk ▸ h1)
    · rw [h2 i hk]
      exact h.imp (fun hm => (List.mem_cons.1 hm).resolve_left hk) id

theorem clearAll_slot (kvs : List (Nat × KeySlot)) (d : Dev) (k : Nat) :
    (kvs.foldl (fun d kv => d.clearSlot kv.1) d).slot k = if k ∈ kvs.map Prod.fst then ⟨0, 0, 0⟩ else d.slot k := by
  induction kvs generalizing d with
  | nil => rfl
  | cons kv kvs ih =>
    rw [List.foldl_cons, ih, List.map_cons]
    by_cases hm : k ∈ kvs.map Prod.fst
    · rw [if_pos hm, if_pos (.tail _ hm)]
    · rw [if_neg hm]
      by_cases hk : k = kv.1
      · rw [hk, slot_clearSlot, if_pos (.head _)]
      · rw [slot_clearSlot_other _ hk, if_neg (by simp [hm, hk])]

theorem clearAll_domain (kvs : List (Nat × KeySlot)) (d : Dev) (i : Nat) :
    (kvs.foldl (fun d kv => d.clearSlot kv.1) d).domain i = d.domain i := by
  induction kvs generalizing d with
  | nil => rfl
  | cons kv kvs ih => exact (ih _).trans (domain_clearSlot _ _ _)

theorem unlocked_domain (d : Dev) (i : Nat) : (unlocked d).domain i = none := by
  refine (clearAll_domain _ _ _).trans (destroyAll_domain _ d i ?_)
  refine (smap_get_mem (fun _ => none) d.domains i).imp (fun h => ?_) id
  exact List.mem_map.2 ⟨_, h, rfl⟩

theorem unlocked_slot (d : Dev) {k : Nat} (hk : k ≠ 0) : ((unlocked d).slot k).cls ≠ 3 ∧ ((unlocked d).slot k).cls ≠ 4 := by
  obtain ⟨e, he⟩ : ∃ e, (d.domains.map fun kv => kv.1).foldl (fun d i => d.destroyDomain i) d = e := ⟨_, rfl⟩
  have hu : (unlocked d).slot k = if k ∈ (e.slots.filter fun kv => kv.2.cls == 3 || kv.2.cls == 4).map Prod.fst then ⟨0, 0, 0⟩
      else e.slot k := by
    unfold unlocked
    dsimp only
    rw [he]
    exact clearAll_slot _ _ _
  rw [hu]
  split
  · exact ⟨by decide, by decide⟩
  · rename_i hn
    rcases smap_get_mem slotDefault e.slots k with hm | hd
    · by_contra hc
      refine hn (List.mem_map.2 ⟨(k, e.slot k), List.mem_filter.2 ⟨hm, ?_⟩, rfl⟩)
      rw [Bool.or_eq_true, beq_iff_eq, beq_iff_eq]
      dsimp only
      omega
    · have h0 : (e.slot k).cls = 0 := by
        rw [show e.slot k = slotDefault k from hd, slotDefault, if_neg (by rw [beq_iff_eq]; exact hk)]
      rw [h0]
      exact ⟨by decide, by decide⟩

section
variable {s : State} (hw : s.dev.boxWaits .se 0x41 = true ∧ s.dev.fld R.SE_STATUS_STATE = 1)
include hw

theorem debugUnlock_refused {ok : Bool} {st : Nat}
    (h : (s.strands.any fun kv => kv.2.sealedB) = true ∧ st = 4 ∨
      (s.strands.any fun kv => kv.2.sealedB) = false ∧ ok = false ∧ st = 0xA) :
    Makes (.debugUnlock ok) s (s.dev.boxDone .se st []) := by
  rcases h with ⟨h, rfl⟩ | ⟨h, rfl, rfl⟩
  · refine engine_refuses (debugUnlock_serves ?_) hw (if_pos h)
    rw [h, Bool.not_true, Bool.and_false]
    rfl
  · refine engine_refuses (debugUnlock_serves ?_) hw ((if_neg (by rw [h]; decide)).trans (if_pos rfl))
    rw [Bool.and_false]
    rfl

theorem debugUnlock_unlocks (h : (s.strands.any fun kv => kv.2.sealedB) = false) (hn : s.dev.fw.nonce.isSome = true) :
    GivesSome (.debugUnlock true) s fun t => t.dev.flag R.SE_STATUS_DEBUG = true ∧ (∀ i, t.dev.domain i = none) ∧
      ∀ k, k ≠ 0 → (t.dev.slot k).cls ≠ 3 ∧ (t.dev.slot k).cls ≠ 4 := by
  obtain ⟨z, hz⟩ : ∃ z, unlocked s.dev = z := ⟨_, rfl⟩
  refine ⟨{ (s.forgetExits fun _ => true) with dev := (z.setFld R.SE_STATUS_DEBUG 1).boxDone .se 0 [] }, ?_, ?_, fun i => ?_, fun k hk => ?_⟩
  · refine (execDebugUnlock.eq_def ..).trans ?_
    dsimp only
    rw [if_pos (by rw [hw.1, hw.2, h, hn]; rfl)]
    refine (if_pos rfl).trans (congrArg (fun d => Host.Outcome.next ({ (s.forgetExits fun _ => true) with dev := d } : State)) ?_)
    refine (serveSe_run (f := unlockReply (s.strands.any fun kv => kv.2.sealedB) true) hw.1 hw.2).trans ?_
    rw [h, unlockReply_unlocks hn, hz]
    rfl
  · exact (flag_boxDone_other _ .se 0 [] (by decide) (by decide)).trans (flag_setFld_one z R.SE_STATUS_DEBUG (by decide) (by decide))
  · refine (of_boxDone (z.setFld R.SE_STATUS_DEBUG 1) .se (·.domain i) (fun _ => rfl) (fun _ b _ => by cases b <;> rfl) 0 []).trans ?_
    exact (of_bare (·.domain i) (fun _ => rfl) (bare_setFld z _ _)).trans (hz ▸ unlocked_domain s.dev i)
  · have he : ((z.setFld R.SE_STATUS_DEBUG 1).boxDone .se 0 []).slot k = z.slot k :=
      (slot_boxDone _ _ _ _ _).trans (of_bare (·.slot k) (fun _ => rfl) (bare_setFld z _ _))
    change (((z.setFld R.SE_STATUS_DEBUG 1).boxDone .se 0 []).slot k).cls ≠ 3 ∧ (((z.setFld R.SE_STATUS_DEBUG 1).boxDone .se 0 []).slot k).cls ≠ 4
    rw [he, ← hz]
    exact unlocked_slot s.dev hk

end

theorem sealed_any {s : State} {g : Nat} (h : (s.strand g).sealedB = true) : (s.strands.any fun kv => kv.2.sealedB) = true := by
  rcases smap_get_mem (fun _ => Strand.reset) s.strands g with hm | hd
  · exact List.any_eq_true.2 ⟨_, hm, h⟩
  · rw [show s.strand g = Strand.reset from hd] at h
    exact absurd h (by decide)

/-! ### Links -/

theorem linkSecretGen_hold {s : State} (hw : s.dev.boxWaits .se 0x60 = true ∧ s.dev.fld R.SE_STATUS_STATE = 1)
    (hr : s.dev.fw.randomBad = false) :
    (s.dev.locked = true → Makes .linkSecretGen s (s.dev.boxDone .se 9 [])) ∧
    (s.dev.locked = false → MakesSome .linkSecretGen s fun e =>
      e.flag R.SE_STATUS_LINK_SECRET = true ∧ ∃ bs : List Byte, bs.length = 32 ∧ e.fw.linkSecret = some bs) := by
  refine ⟨fun hl => engine_refuses (execLinkSecretGen.eq_def ..) hw ((if_neg (by rw [hr]; decide)).trans (if_pos hl)), fun hl => ?_⟩
  obtain ⟨z, hz⟩ : ∃ z, ({ s.dev.random32.2 with fw := { s.dev.random32.2.fw with linkSecret := some s.dev.random32.1 } } : Dev) = z := ⟨_, rfl⟩
  refine ⟨((z.setFld R.SE_STATUS_LINK_SECRET 1).chainSend 0x40 []).boxDone .se 0 [], ?_, ?_, s.dev.random32.1, random32_length _, ?_⟩
  · refine engine_makes (r := ((z.setFld R.SE_STATUS_LINK_SECRET 1).chainSend 0x40 []).done) (execLinkSecretGen.eq_def ..) hw
      ((if_neg (by rw [hr]; decide)).trans ((if_neg (by rw [hl]; decide)).trans ?_))
    dsimp only
    rw [hz]
  · refine (flag_boxDone_other _ .se 0 [] (by decide) (by decide)).trans ?_
    rw [flag_chainSend]
    exact flag_setFld_one z R.SE_STATUS_LINK_SECRET (by decide) (by decide)
  · refine (of_boxDone _ .se (·.fw.linkSecret) (fun _ => rfl) (fun _ b _ => by cases b <;> rfl) 0 []).trans ?_
    refine (of_bare (·.fw.linkSecret) (fun _ => rfl) (bare_setFld z R.SE_STATUS_LINK_SECRET 1)).trans ?_
    rw [← hz]

theorem ideKeySet_hold {s : State} {port stream : Byte} {ks : List Byte}
    (hw : s.dev.boxWaits .se 0x61 = true ∧ s.dev.fld R.SE_STATUS_STATE = 1) (hq : s.dev.boxRequest .se = port :: stream :: ks) (hk : ks ≠ []) :
    (port.toNat < 80 → stream.toNat < 5 → MakesSome .ideKeySet s fun e =>
      SMap.get (fun _ => []) e.fw.ideKeys (8 * port.toNat + stream.toNat) = ks ∧ e.fld R.MB_STATUS_RESULT = 0) ∧
    (80 ≤ port.toNat ∨ 5 ≤ stream.toNat → Makes .ideKeySet s (s.dev.boxDone .se 3 [])) := by
  refine ⟨fun hp hs => ?_, fun h => engine_refuses (execIdeKeySet.eq_def ..) hw ?_⟩
  · obtain ⟨z, hz⟩ : ∃ z : Dev, { s.dev with fw := { s.dev.fw with
      ideKeys := SMap.set (fun _ => []) s.dev.fw.ideKeys (8 * port.toNat + stream.toNat) ks } } = z := ⟨_, rfl⟩
    refine ⟨z.boxDone .se 0 [], engine_makes (r := z.done) (execIdeKeySet.eq_def ..) hw ?_, ?_, fld_result_done _ _⟩
    · rw [hq, ← hz]
      refine if_neg ?_
      have hl : ¬ (port :: stream :: ks).length < 3 := by
        have := List.length_pos_iff.2 hk
        simp only [List.length_cons]
        omega
      rw [Bool.or_eq_true, Bool.or_eq_true, decide_eq_true_iff, decide_eq_true_iff, decide_eq_true_iff]
      rintro ((h | h) | h)
      · exact hl h
      · exact absurd hp (Nat.not_lt.2 h)
      · exact absurd hs (Nat.not_lt.2 h)
    · refine (congrArg (fun m => SMap.get (fun _ => []) m _)
        (of_boxDone z .se (·.fw.ideKeys) (fun _ => rfl) (fun _ b _ => by cases b <;> rfl) 0 [])).trans ?_
      rw [← hz]
      exact smap_get_set_same _ _ _ _
  · rw [hq]
    refine if_pos ?_
    rw [Bool.or_eq_true, Bool.or_eq_true]
    exact h.elim (fun h => .inl (.inr (decide_eq_true h))) fun h => .inr (decide_eq_true h)

/-! ### The statement -/

theorem engineMailboxCommands_hold : engineMailboxCommands := by
  intro s d q x waits
  refine ⟨fun c k hc => ⟨fun hw => ?_, fun hw h3 => ?_, fun hw h1 h3 => ?_⟩, fun hw hr hl h24 hcls => keyGenerate_hold rfl rfl hw hr hl h24 hcls,
    fun hw hr => ?_, fun hw hl h16 => keyClear_hold rfl rfl hw hl h16, rollbackCommit_hold, fun hw i r bad hq hi hr hs h1 h3 hd hrails => ⟨fun hb hf => ?_, fun hb hf => ?_⟩,
    fun hw hd hl bad => ?_, debugNonce_hold, fun hw ⟨g, hg⟩ ok => debugUnlock_refused hw (.inl ⟨sealed_any hg, rfl⟩),
    fun hw hn => ⟨debugUnlock_refused hw (.inr ⟨hn, rfl, rfl⟩), debugUnlock_unlocks hw hn⟩, linkSecretGen_hold, fun hw _ _ _ => ideKeySet_hold hw⟩
  · obtain ⟨f, hf⟩ := engineCommand_serves hc s (.inl hw)
    exact dev_makes hf rfl (serveSe_idle hw)
  · obtain ⟨f, hf⟩ := engineCommand_serves hc s (.inr (by rw [show s.dev.fld R.SE_STATUS_STATE = 3 from h3]; decide))
    exact dev_makes hf rfl (serveSe_halted hw h3)
  · obtain ⟨f, hf⟩ := engineCommand_serves hc s (.inr h1)
    exact dev_makes hf rfl (serveSe_update hw h1 h3)
  · exact engine_refuses (execKeyGenerate.eq_def ..) hw (if_pos hr)
  · have hm := fuseSession_burns bad hw hq hi hr hs h1 h3 hd hrails hf
    rw [hb] at hm
    obtain ⟨k1, k2⟩ := burn_spec false hr hf
    refine ⟨_, hm, ?_, ?_, fld_result_done _ _⟩
    · rw [repairs_boxDone, k1, Bool.or_false]
    · rw [fld_fuseFree_boxDone, k2]
      rfl
  · have hm := fuseSession_burns bad hw hq hi hr hs h1 h3 hd hrails (Nat.le_of_succ_le hf)
    rw [hb] at hm
    obtain ⟨k1, k2⟩ := burn_spec true hr hf
    refine ⟨_, hm, ?_, ?_⟩
    · rw [repairs_boxDone, k1, Bool.or_true]
    · rw [fld_fuseFree_boxDone, k2]
      rfl
  · refine engine_refuses (execFuseSession.eq_def ..) hw ((if_neg ?_).trans (if_pos ?_))
    · rw [show (s.dev.boxRequest .se).length = 2 from hl]
      decide
    · rw [show s.dev.phase = .drain from hd]
      rfl

/-- Settles O35: the protocol by what each access leaves of the claim and the status, the commands by their replies. -/
theorem mailboxes : Obligations.Mailboxes := ⟨mailboxProtocol_hold, engineMailboxCommands_hold⟩

end Sys2Proof.Proofs
end

