-- ==== Sys2Proof/Proofs/Attestation.lean ====
section
/-!
PROOFS. Attestation over SPDM (R387), and the engine's halt and health (R30, R381).
-/

namespace Sys2Proof.Proofs

open Sys2Proof Sys2Proof.Machine Sys2Proof.Laws

section
variable {s : State} {c : Instr} {ch : Channel}

/-- A running engine answers what its function gives. -/
theorem spdm_answers {f : Dev → List Byte × Dev} {resp : List Byte} {d' : Dev} (hs : s.dev.fld R.SE_STATUS_STATE = 1)
    (hc : exec c s = onDev true s fun d => d.serveSpdm ch f) (hf : f s.dev = (resp, d')) : spdmAnswers c s ch resp d' := by
  cases ch with
  | mailbox =>
    intro hw
    refine dev_makes hc rfl ?_
    change s.dev.serveSe .se 0x50 (fun _ d => ⟨stOk, (f d).1, (f d).2⟩) = _
    rw [serveSe_run hw hs, hf]
  | pfMailbox =>
    intro hw
    refine dev_makes hc rfl ?_
    change s.dev.serveSe .pf 0x50 (fun _ d => ⟨stOk, (f d).1, (f d).2⟩) = _
    rw [serveSe_run hw hs, hf]
  | mctp =>
    refine dev_makes hc rfl ((if_pos (by rw [hs]; rfl)).trans ?_)
    dsimp only
    rw [hf]

/-- A request other than GET_VERSION: what a requester that has been turned away gets, and what another gets. -/
theorem spdmRequest_answers {f : Dev → List Byte} {resp : List Byte} (hs : s.dev.fld R.SE_STATUS_STATE = 1)
    (hc : exec c s = onDev true s fun d => d.spdmRequest ch f)
    (hf : (if s.dev.turnedAway ch then spdmError 7 else f s.dev) = resp) : spdmAnswers c s ch resp s.dev :=
  spdm_answers hs hc (congrArg (·, s.dev) hf)

theorem spdmRequest_away {f : Dev → List Byte} (hs : s.dev.fld R.SE_STATUS_STATE = 1)
    (hc : exec c s = onDev true s fun d => d.spdmRequest ch f) (ha : s.dev.turnedAway ch = true) :
    spdmAnswers c s ch [0x13, 0x7F, 7, 0] s.dev := spdmRequest_answers hs hc (if_pos ha)

theorem spdmRequest_served {f : Dev → List Byte} {resp : List Byte} (hs : s.dev.fld R.SE_STATUS_STATE = 1)
    (hc : exec c s = onDev true s fun d => d.spdmRequest ch f) (ha : s.dev.turnedAway ch = false) (hf : f s.dev = resp) :
    spdmAnswers c s ch resp s.dev := spdmRequest_answers hs hc ((if_neg (by rw [ha]; decide)).trans hf)

end

theorem turnedAway_setSpdm (d : Dev) (ch : Channel) (x : Nat) : (d.setSpdm ch x).turnedAway ch = (x == 3) :=
  congrArg (· == 3) (smap_get_set_same _ _ _ _)

theorem measureBlock_image (d : Dev) {k : Nat} (h : k ≤ 5) : d.measureBlock k = lineBytes (Config.sporeDigest k (d.running k).gen) :=
  if_neg (by rw [beq_iff_eq]; omega)

theorem attestation_hold : attestation := by
  intro s ch hs d unsupported invalid chain away
  refine ⟨spdm_answers hs (execGetVersion.eq_def ..) rfl, fun both nonce slot block sig ha => ⟨?_, ?_, ?_, ?_, ?_, ?_⟩, fun ha =>
    ⟨?_, ?_, ?_, turnedAway_setSpdm d ch 2, turnedAway_setSpdm d ch 3, ?_, ?_, fun k hk => ?_, fun nonce => ?_, fun k nonce hk => ?_,
      fun k h1 h5 => ?_, fun sig => ?_, fun k sig hk => ?_⟩⟩
  · exact spdmRequest_away hs (execGetCapabilities.eq_def ..) ha
  · exact spdm_answers hs (execNegotiateAlgorithms.eq_def ..) (if_pos ha)
  · exact spdmRequest_away hs (execGetDigests.eq_def ..) ha
  · exact spdmRequest_away hs (execGetCertificate.eq_def ..) ha
  · exact spdmRequest_away hs (execChallenge.eq_def ..) ha
  · exact spdmRequest_away hs (execGetMeasurements.eq_def ..) ha
  · exact spdmRequest_served hs (execGetCapabilities.eq_def ..) ha rfl
  · exact spdm_answers hs (execNegotiateAlgorithms.eq_def ..) ((if_neg (by rw [show s.dev.turnedAway ch = false from ha]; decide)).trans (if_pos rfl))
  · exact spdm_answers hs (execNegotiateAlgorithms.eq_def ..)
      ((if_neg (by rw [show s.dev.turnedAway ch = false from ha]; decide)).trans (if_neg (by decide)))
  · exact spdmRequest_served hs (execGetDigests.eq_def ..) ha rfl
  · exact spdmRequest_served hs (execGetCertificate.eq_def ..) ha (if_pos rfl)
  · exact spdmRequest_served hs (execGetCertificate.eq_def ..) ha (if_neg (by rw [beq_iff_eq]; exact hk))
  · refine spdmRequest_served hs (execChallenge.eq_def ..) ha ((if_pos rfl).trans ?_)
    exact (List.append_assoc _ _ _).symm
  · exact spdmRequest_served hs (execChallenge.eq_def ..) ha (if_neg (by rw [beq_iff_eq]; exact hk))
  · refine spdmRequest_served hs (execGetMeasurements.eq_def ..) ha ((if_pos ?_).trans ?_)
    · rw [Bool.and_eq_true, decide_eq_true_iff, decide_eq_true_iff]
      exact ⟨h1, Nat.le_succ_of_le h5⟩
    · dsimp only
      rw [measureBlock_image _ h5, if_neg (by decide), List.append_nil]
      rfl
  · refine spdmRequest_served hs (execGetMeasurements.eq_def ..) ha ((if_pos rfl).trans ?_)
    have hb : s.dev.measureBlock 6 = leBytes 8 (d.reg R.LOCK_BOOT_LOCK.reg).toNat ++ leBytes 8 (d.reg R.DUTY_FUNC.reg).toNat
        ++ BitVec.ofNat 8 (d.fld R.SE_STATUS_DEBUG) :: [1, 2, 3, 4, 5].map fun c => BitVec.ofNat 8 (d.fusedSvn c) :=
      (if_pos rfl).trans (List.append_assoc _ _ _)
    dsimp only
    rw [hb]
    exact (List.append_assoc _ _ _).symm
  · refine spdmRequest_served hs (execGetMeasurements.eq_def ..) ha (if_neg ?_)
    rw [Bool.and_eq_true, decide_eq_true_iff, decide_eq_true_iff]
    omega

/-! ### Halt and health -/

/-- The halted engine, before a command in progress completes. -/
def halted (d : Dev) : Dev := (d.setFld R.SE_STATUS_STATE 3).log { source := 0x0F, cls := 3 }

theorem halted_spec (d : Dev) : (halted d).fld R.SE_STATUS_STATE = 3 ∧ (halted d).flag R.MB_STATUS_BUSY = d.flag R.MB_STATUS_BUSY ∧
    (halted d).slots = d.slots ∧ (halted d).domains = d.domains := by
  obtain ⟨e, he⟩ : ∃ e, d.setFld R.SE_STATUS_STATE 3 = e := ⟨_, rfl⟩
  have hb : bare e = bare d := he ▸ bare_setFld _ _ _
  unfold halted
  rw [he]
  refine ⟨?_, ?_, ?_, ?_⟩
  · rw [fld_log_other _ _ (by decide), ← he]
    exact fld_setFld_lt d (by decide) (by decide)
  · rw [flag_log_other _ _ (by decide), ← he]
    exact flag_setFld_reg _ _ _ _ (by decide)
  · exact (of_quiet (·.slots) (fun _ => rfl) (quiet_log e _)).trans (of_bare (·.slots) (fun _ => rfl) hb)
  · exact (of_quiet (·.domains) (fun _ => rfl) (quiet_log e _)).trans (of_bare (·.domains) (fun _ => rfl) hb)

theorem engineHaltAndHealth_hold : engineHaltAndHealth := by
  intro s d st
  refine ⟨fun h => ?_, fun h2 h3 => ?_, fun failing => dev_makes (execRandomHealthTest.eq_def ..) rfl rfl⟩
  · refine dev_makes (e := s.dev) (execSeHalt.eq_def ..) rfl (if_pos ?_)
    rw [Bool.or_eq_true, beq_iff_eq, beq_iff_eq]
    exact h
  · have hn : ¬ (s.dev.fld R.SE_STATUS_STATE == 2 || s.dev.fld R.SE_STATUS_STATE == 3) = true := by
      rw [Bool.or_eq_true, beq_iff_eq, beq_iff_eq]
      exact fun h => h.elim h2 h3
    obtain ⟨k1, k2, k3, k4⟩ := halted_spec s.dev
    obtain ⟨e, he⟩ : ∃ e, halted s.dev = e := ⟨_, rfl⟩
    rw [he] at k1 k2 k3 k4
    have hm {x : Dev} (hx : (if e.flag (Box.se.status R.MB_STATUS_BUSY) then e.boxDone .se 2 [] else e) = x) : Makes .seHalt s x := by
      refine dev_makes (execSeHalt.eq_def ..) rfl ((if_neg hn).trans ?_)
      rw [← hx, ← he]
      rfl
    by_cases hb : e.flag (Box.se.status R.MB_STATUS_BUSY) = true
    · obtain ⟨r1, -, r3, -⟩ := boxDone_result e .se 2 []
      refine ⟨_, hm (if_pos hb), (fld_boxDone_other e .se 2 [] (by decide) (by decide)).trans k1, r3, ?_, ?_, fun _ => r1⟩
      · exact (of_boxDone e .se (·.slots) (fun _ => rfl) (fun _ b _ => by cases b <;> rfl) 2 []).trans k3
      · exact (of_boxDone e .se (·.domains) (fun _ => rfl) (fun _ b _ => by cases b <;> rfl) 2 []).trans k4
    · have hbf : e.flag R.MB_STATUS_BUSY = false := Bool.eq_false_of_not_eq_true hb
      exact ⟨e, hm (if_neg hb), k1, hbf, k3, k4, fun h => absurd (k2.trans h) hb⟩

/-- Settles O36: each SPDM request by its channel's answer; the halt by what it shows. -/
theorem attestationAndEngineHealth : Obligations.AttestationAndEngineHealth := ⟨attestation_hold, engineHaltAndHealth_hold⟩

end Sys2Proof.Proofs
end

