-- ==== Sys2Proof/Proofs/CushionEntry.lean ====
section
/-!
PROOFS. Entering the cushion (R290, R293, R295, R303): what the entry leaves of the registers, and the drain that it begins.
-/

namespace Sys2Proof.Proofs

open Sys2Proof Sys2Proof.Machine Sys2Proof.Laws

/-! ### What the entry's steps keep -/

/-- The device but for what an entry to the cushion changes besides the drain itself. -/
def offEntry (d : Dev) : Dev :=
  { quiet d with
    fw := {}
    funcs := []
    pstacks := [] }

theorem offEntry_of_quiet {d e : Dev} (h : quiet d = quiet e) : offEntry d = offEntry e :=
  show offEntry (quiet d) = offEntry (quiet e) from congrArg offEntry h

theorem of_offEntry {α : Type} {d e : Dev} (F : Dev → α) (hF : ∀ d, F (offEntry d) = F d) (h : offEntry d = offEntry e) :
    F d = F e := by
  rw [← hF d, h, hF]

theorem offEntry_setFld (d : Dev) (f : Field) (x : Nat) : offEntry (d.setFld f x) = offEntry d := offEntry_of_quiet (quiet_setFld d f x)

theorem offEntry_foldl {α : Type} (f : Dev → α → Dev) (h : ∀ d a, offEntry (f d a) = offEntry d) (xs : List α) (d : Dev) :
    offEntry (xs.foldl f d) = offEntry d := by
  induction xs generalizing d with
  | nil => rfl
  | cons x xs ih => exact (ih _).trans (h d x)

theorem fld_foldl {α : Type} (f : Dev → α → Dev) (k : Field) (xs : List α) (h : ∀ d, ∀ a ∈ xs, (f d a).fld k = d.fld k) (d : Dev) :
    (xs.foldl f d).fld k = d.fld k := by
  induction xs generalizing d with
  | nil => rfl
  | cons x xs ih => exact (ih (fun d a ha => h d a (.tail _ ha)) _).trans (h d x (.head _))

/-- The registers below the stacks' and the clocks' that an entry leaves, but for the count of drains. -/
def leftByEntry (off : Nat) : Bool :=
  (decide (off < R.PS_STATUS_MOVE_BUSY.reg) || decide (R.CLK_STATUS_MESH.reg ≤ off ∧ off < R.CORE_PWR_STATE.reg)) && !reported off &&
    !([R.MB_STATUS_QUEUED.reg, R.EVAC_STATUS_BUSY.reg, R.UPD_STATUS_PHASE.reg, R.DRAIN_STEP_DUE.reg].contains off)

/-- The drain with a phase bit due, which hardware starts when the steward does not. -/
def dueMarked (d : Dev) (r : DrainSt) (b : Nat) : Dev :=
  { d with drain := some { r with
      due := r.due + 2 ^ b
      started := if d.duty 9 then r.started else r.started + 2 ^ b } }.showDue

theorem drainDue_eq {d : Dev} {r : DrainSt} (h : d.drain = some r) {b : Nat} : d.drainDue b =
    if natBit r.due b then d else if (dueMarked d r b).duty 9 then (dueMarked d r b).dutyEvent else dueMarked d r b := by
  unfold Dev.drainDue
  rw [h]
  rfl

section
variable {f : Field} (h : leftByEntry f.reg = true) (d : Dev)
include h

theorem leftByEntry_parts : (f.reg < R.PS_STATUS_MOVE_BUSY.reg ∨ R.CLK_STATUS_MESH.reg ≤ f.reg ∧ f.reg < R.CORE_PWR_STATE.reg) ∧ reported f.reg = false ∧ f.reg ≠ R.MB_STATUS_QUEUED.reg ∧
    f.reg ≠ R.EVAC_STATUS_BUSY.reg ∧ f.reg ≠ R.UPD_STATUS_PHASE.reg ∧ f.reg ≠ R.DRAIN_STEP_DUE.reg := by
  simp only [leftByEntry, Bool.and_eq_true, Bool.or_eq_true, decide_eq_true_iff, Bool.not_eq_true', List.contains_eq_mem, decide_eq_false_iff_not,
    List.mem_cons, List.not_mem_nil, or_false, not_or] at h
  obtain ⟨⟨h1, h2⟩, h3, h4, h5, h6⟩ := h
  exact ⟨h1, h2, h3, h4, h5, h6⟩

theorem fld_setFld_above {k : Field} (x : Nat) (hk : R.CORE_PWR_STATE.reg ≤ k.reg) : (d.setFld k x).fld f = d.fld f := by
  refine fld_setFld_reg d k f x (Nat.ne_of_lt (Nat.lt_of_lt_of_le ?_ hk))
  rcases (leftByEntry_parts h).1 with h1 | ⟨-, h1⟩
  · exact Nat.lt_trans h1 (by decide)
  · exact h1

theorem fld_endQuiesces : d.endQuiesces.fld f = d.fld f := by
  refine fld_foldl _ f _ (fun d k _ => ?_) d
  refine fld_setFld_above h (d.setFunc k { d.func k with quiescing := false }) 0 ?_
  exact Nat.le_trans (show R.CORE_PWR_STATE.reg ≤ R.FN_STATUS_QUIESCING.reg by decide) (Nat.le_add_right _ _)

theorem fld_wakeDeep : d.wakeDeep.fld f = d.fld f := by
  refine fld_foldl _ f _ (fun d c _ => ?_) d
  split
  · exact (fld_setFld_above h _ _ (Nat.le_trans (show R.CORE_PWR_STATE.reg ≤ R.CORE_PWR_WAKES.reg by decide) (Nat.le_add_right _ _))).trans
      (fld_setFld_above h d 2 (Nat.le_trans (show R.CORE_PWR_STATE.reg ≤ R.CORE_PWR_STATE.reg by decide) (Nat.le_add_right _ _)))
  · rfl

theorem fld_abandonMoves : d.abandonMoves.fld f = d.fld f := by
  refine fld_foldl _ f _ (fun d n hn => ?_) d
  have hn8 : n < 8 := List.mem_range.1 hn
  refine fld_setFld_reg (d.setStack n { d.stack n with move := none }) (psReg R.PS_STATUS_MOVE_BUSY n) f 0 fun hf => ?_
  have hk : f.reg = R.PS_STATUS_MOVE_BUSY.reg + 0x40000 * n := hf
  have hs : R.PS_STATUS_MOVE_BUSY.reg = 0x3000000 := rfl
  rcases (leftByEntry_parts h).1 with h1 | ⟨h1, -⟩
  · omega
  · have hc : R.CLK_STATUS_MESH.reg = 0x9000008 := rfl
    omega

theorem fld_phaseDone (p : Nat) : (d.phaseDone p).fld f = d.fld f := by
  unfold Dev.phaseDone
  split
  · rfl
  · split
    · rfl
    · rfl

theorem fld_showDue : d.showDue.fld f = d.fld f := by
  unfold Dev.showDue
  split
  · exact fld_setFld_reg _ _ _ _ (leftByEntry_parts h).2.2.2.2.2
  · exact fld_setFld_reg _ _ _ _ (leftByEntry_parts h).2.2.2.2.2

theorem fld_dutyEvent : d.dutyEvent.fld f = d.fld f :=
  fld_of_keepsRegs (keepsRegs_errEventNow 32 (keepsRegs_refl d)) (leftByEntry_parts h).2.1

theorem fld_drainDue (b : Nat) : (d.drainDue b).fld f = d.fld f := by
  cases hr : d.drain with
  | none =>
    unfold Dev.drainDue
    rw [hr]
  | some r =>
    rw [drainDue_eq hr]
    have hd : (dueMarked d r b).fld f = d.fld f := (fld_showDue h _).trans rfl
    split
    · rfl
    · split
      · exact (fld_dutyEvent h _).trans hd
      · exact hd

end

theorem offEntry_bmcEvent (d : Dev) (kind n : Nat) : offEntry (d.bmcEvent kind n) = offEntry d :=
  offEntry_of_quiet (quiet_bmcEvent d kind n)

theorem offEntry_updPhase (d : Dev) (p : Nat) : offEntry (d.updPhase p) = offEntry d := by
  unfold Dev.updPhase
  split
  · rfl
  · exact (offEntry_bmcEvent _ _ _).trans (offEntry_setFld _ _ _)

theorem offEntry_fw (d : Dev) (x : Fw) : offEntry { d with fw := x } = offEntry d := rfl

theorem offEntry_abortUpdate (d : Dev) (r : Nat) : offEntry (d.abortUpdate r) = offEntry d := by
  unfold Dev.abortUpdate
  split
  · exact (offEntry_setFld _ _ _).trans ((offEntry_updPhase _ _).trans (offEntry_fw _ _))
  · rfl

theorem offEntry_endQuiesces (d : Dev) : offEntry d.endQuiesces = offEntry d :=
  offEntry_foldl _ (fun d k => offEntry_setFld (d.setFunc k { d.func k with quiescing := false }) _ _) _ _

theorem offEntry_wakeDeep (d : Dev) : offEntry d.wakeDeep = offEntry d := by
  refine offEntry_foldl _ (fun d c => ?_) _ _
  split
  · exact (offEntry_setFld _ _ _).trans (offEntry_setFld _ _ _)
  · rfl

theorem offEntry_abandonMoves (d : Dev) : offEntry d.abandonMoves = offEntry d :=
  offEntry_foldl _ (fun d n => offEntry_setFld (d.setStack n { d.stack n with move := none }) _ _) _ _

/-! ### The drain's bookkeeping -/

section
variable {d : Dev} {r : DrainSt} (h : d.drain = some r)
include h

theorem phaseDone_new {p : Nat} (hp : natBit r.report.phases p = false) : d.phaseDone p = { d with drain := some { r with
    report := { r.report with
      phases := r.report.phases + 2 ^ p
      phaseEnd := SMap.set (fun _ => 0) r.report.phaseEnd p d.frame } } } := by
  unfold Dev.phaseDone
  rw [h]
  dsimp only
  rw [hp, if_neg (by decide)]

theorem phaseDone_same {p : Nat} (hp : natBit r.report.phases p = true) : d.phaseDone p = d := by
  unfold Dev.phaseDone
  rw [h]
  dsimp only
  rw [if_pos hp]

theorem quiet_showDue : quiet d.showDue = quiet d := by
  unfold Dev.showDue
  rw [h]
  exact quiet_setFld _ _ _

/-- A phase that falls due: hardware starts it, or the steward is told. -/
theorem drainDue_new {b : Nat} (hb : natBit r.due b = false) : ∃ n, quiet (d.drainDue b)
    = quiet { d with drain := some { r with due := r.due + 2 ^ b, started := n } } := by
  rw [drainDue_eq h, hb, if_neg (by decide)]
  refine ⟨if d.duty 9 = true then r.started else r.started + 2 ^ b, ?_⟩
  have hs := quiet_showDue (d := { d with drain := some { r with
    due := r.due + 2 ^ b
    started := if d.duty 9 then r.started else r.started + 2 ^ b } }) rfl
  split
  · exact (quiet_of_bare (bare_errEventNow _ _)).trans hs
  · exact hs

end

/-- The report that an entry begins. -/
def firstReport (s : State) (cause : Nat) : Report :=
  { seqn := s.dev.drainSeq + 1
    sock := s.dev.self
    present := s.dev.fld R.CHAIN_STATUS_PRESENT
    cause := cause
    startFrame := s.dev.frame
    lastClosed := s.dev.reg R.EPOCH_CLOSED_EPOCH.reg
    phases := 64 * s.dev.fld R.CUSHION_CTL_RETAIN_ARM
    errFirst := s.dev.fld R.ERR_HEAD_INDEX
    ledger := s.dev.ledgerInFlight
    lines := s.dirtyPeat }

theorem fld_of_regs {d e : Dev} (h : e.regs = d.regs) (f : Field) : e.fld f = d.fld f :=
  congrArg (fun r => f.get (SMap.get coldValue r f.reg)) h

theorem regs_setFld {d e : Dev} (h : e.regs = d.regs) (f : Field) {x y : Nat} (hxy : x = y) :
    (e.setFld f x).regs = (d.setFld f y).regs := by
  subst hxy
  exact congrArg (fun r => SMap.set coldValue r f.reg (f.put (SMap.get coldValue r f.reg) x)) h

/-- The drain once the entry has ended its first phase. -/
def firstDrain (s : State) (cause : Nat) (now : Word) : DrainSt :=
  { report := { firstReport s cause with
      phases := 64 * s.dev.fld R.CUSHION_CTL_RETAIN_ARM + 2 ^ 0
      phaseEnd := SMap.set (fun _ => 0) [] 0 now }
    errTotal := s.dev.fld R.ERR_HEAD_TOTAL }

/-- The device as the entry begins: the drain stands, with its report's header. -/
def drainBegun (s : State) (cause : Nat) : Dev :=
  { s.dev with
    phase := .drain
    drainSeq := s.dev.drainSeq + 1
    drain := some { report := firstReport s cause, errTotal := s.dev.fld R.ERR_HEAD_TOTAL } }

/-- What the entry stops: an update, the quiesces, the deep park and the wear moves. -/
def entryStops (d : Dev) : Dev :=
  (((((d.addSat R.CUSHION_STATUS_DRAINS 1).setFld R.MB_STATUS_QUEUED 0).setFld R.EVAC_STATUS_BUSY 0).abortUpdate 7).endQuiesces.wakeDeep).abandonMoves

theorem offEntry_entryStops (d : Dev) : offEntry (entryStops d) = offEntry d := by
  unfold entryStops
  rw [offEntry_abandonMoves, offEntry_wakeDeep, offEntry_endQuiesces, offEntry_abortUpdate, offEntry_setFld, offEntry_setFld]
  exact offEntry_setFld _ _ _

theorem fld_entryStops {f : Field} (h : leftByEntry f.reg = true) (d : Dev) :
    (entryStops d).fld f = (d.addSat R.CUSHION_STATUS_DRAINS 1).fld f := by
  obtain ⟨-, -, h3, h4, h5, -⟩ := leftByEntry_parts h
  unfold entryStops
  rw [fld_abandonMoves h, fld_wakeDeep h, fld_endQuiesces h, fld_abortUpdate_other _ _ h5, fld_setFld_reg _ _ _ _ h4, fld_setFld_reg _ _ _ _ h3]

theorem enterCushion_eq {s : State} {cause : Nat} (hp : s.dev.phase = .running) :
    s.enterCushion cause = { s with dev := if cause % 4 / 2 == 1 then ((entryStops (drainBegun s cause)).phaseDone 0).drainDue 2
      else (((entryStops (drainBegun s cause)).phaseDone 0).drainDue 2).sendPowerFail } := by
  refine (if_neg ?_).trans rfl
  rw [hp]
  decide

theorem enterCushion_other {s : State} {cause : Nat} (hp : s.dev.phase ≠ .running) : s.enterCushion cause = s :=
  if_pos (bne_iff_ne.2 hp)

theorem phases_bit0 {a : Nat} : (64 * a + 2 ^ 0).testBit 0 = true := by
  rw [Nat.testBit_eq_decide_div_mod_eq]
  exact decide_eq_true (by omega)

theorem phases_bit6 {a : Nat} (h : a < 2) : (64 * a + 2 ^ 0).testBit 6 = (a != 0) := by
  interval_cases a
  · rfl
  · rfl

/-- An entry to the cushion from a socket that runs. -/
theorem enterCushion_spec {s : State} {cause : Nat} (hp : s.dev.phase = .running) (hc : cause ≠ 2 → cause % 4 / 2 ≠ 1) :
    Sys2Proof.entered s (s.enterCushion cause) s.dev cause ∧
      ∀ f : Field, leftByEntry f.reg = true →
        (s.enterCushion cause).dev.fld f = (s.dev.addSat R.CUSHION_STATUS_DRAINS 1).fld f := by
  obtain ⟨z, hz⟩ : ∃ z, drainBegun s cause = z := ⟨_, rfl⟩
  have hzr : z.drain = some { report := firstReport s cause, errTotal := s.dev.fld R.ERR_HEAD_TOTAL } := by
    rw [← hz]
    rfl
  have hzreg : z.regs = s.dev.regs := by
    rw [← hz]
    rfl
  obtain ⟨y, hy⟩ : ∃ y, entryStops z = y := ⟨_, rfl⟩
  have hye : offEntry y = offEntry z := hy ▸ offEntry_entryStops z
  have hyd : y.drain = some { report := firstReport s cause, errTotal := s.dev.fld R.ERR_HEAD_TOTAL } :=
    (of_offEntry (·.drain) (fun _ => rfl) hye).trans hzr
  have hp0 := phaseDone_new hyd (p := 0) (by
    rw [natBit_eq_testBit, Nat.testBit_eq_decide_div_mod_eq]
    exact decide_eq_false (by change ¬ (64 * _ / 2 ^ 0 % 2 = 1); omega))
  obtain ⟨x, hx⟩ : ∃ x, y.phaseDone 0 = x := ⟨_, rfl⟩
  rw [hx] at hp0
  obtain ⟨n, hn⟩ := drainDue_new (d := x) (b := 2) (r := firstDrain s cause y.frame) (by rw [hp0]; rfl)
    (show natBit 0 2 = false by decide)
  obtain ⟨w, hw⟩ : ∃ w, x.drainDue 2 = w := ⟨_, rfl⟩
  have hfld (f : Field) (hf : leftByEntry f.reg = true) : w.fld f = (s.dev.addSat R.CUSHION_STATUS_DRAINS 1).fld f := by
    rw [← hw, fld_drainDue hf, ← hx, fld_phaseDone hf, ← hy, fld_entryStops hf]
    exact fld_of_regs (regs_setFld hzreg _ (by rw [fld_of_regs hzreg])) f
  rw [hw] at hn
  have hwx {α : Type} (F : Dev → α) (hF : ∀ d, F (quiet d) = F d) : F w = F { x with
      drain := some { firstDrain s cause y.frame with due := 0 + 2 ^ 2, started := n } } := of_quiet F hF hn
  have hx' {α : Type} (F : Dev → α) (hF : ∀ d, F (offEntry d) = F d) : F y = F z := of_offEntry F hF hye
  obtain ⟨e, he, hed, hep, hes, her, hef⟩ : ∃ e, s.enterCushion cause = { s with dev := e } ∧ e.drain = w.drain ∧ e.phase = w.phase ∧
      e.drainSeq = w.drainSeq ∧ e.regs = w.regs ∧ (cause ≠ 2 → e.chain.failRun = true) := by
    rw [enterCushion_eq hp, hz, hy, hx, hw]
    by_cases h1 : cause % 4 / 2 = 1
    · rw [if_pos (beq_iff_eq.2 h1)]
      exact ⟨w, rfl, rfl, rfl, rfl, rfl, fun h => absurd h1 (hc h)⟩
    · rw [if_neg (by rw [beq_iff_eq]; exact h1)]
      exact ⟨w.sendPowerFail, rfl, rfl, rfl, rfl, rfl, fun _ => rfl⟩
  rw [he]
  have harm : s.dev.fld R.CUSHION_CTL_RETAIN_ARM < 2 := getF_lt _ _ _
  refine ⟨⟨rfl, ?_, ?_, ?_, hef, { firstDrain s cause y.frame with due := 0 + 2 ^ 2, started := n }, ?_, rfl, rfl, rfl, rfl, rfl,
    phases_bit0, phases_bit6 harm, ?_⟩, fun f hf => (fld_of_regs her f).trans (hfld f hf)⟩
  · refine hep.trans ((hwx (·.phase) (fun _ => rfl)).trans ?_)
    dsimp only
    rw [hp0]
    exact (hx' (·.phase) (fun _ => rfl)).trans (hz ▸ rfl)
  · refine hes.trans ((hwx (·.drainSeq) (fun _ => rfl)).trans ?_)
    dsimp only
    rw [hp0]
    exact (hx' (·.drainSeq) (fun _ => rfl)).trans (hz ▸ rfl)
  · refine (fld_of_regs her R.CUSHION_STATUS_DRAINS).trans ((hfld R.CUSHION_STATUS_DRAINS (by decide)).trans ?_)
    exact fld_addSat s.dev R.CUSHION_STATUS_DRAINS 1 (by decide)
  · exact hed.trans (hwx (·.drain) (fun _ => rfl))
  · show (0 + 2 ^ 2).testBit 2 = true
    decide

/-! ### The causes -/

/-- An entry is told of any device with the same count, number and start. -/
theorem entered_of {s s' t : State} {d d' : Dev} {cause : Nat} (h : Sys2Proof.entered s' t d' cause) (hs : s'.strands = s.strands)
    (hq : d'.drainSeq = d.drainSeq) (hd : d'.fld R.CUSHION_STATUS_DRAINS = d.fld R.CUSHION_STATUS_DRAINS)
    (hr : ∀ off ∈ [R.FRAME_NUMBER.reg, R.CHAIN_STATUS_PRESENT.reg, R.EPOCH_CLOSED_EPOCH.reg, R.CUSHION_CTL_RETAIN_ARM.reg],
      d'.reg off = d.reg off) : Sys2Proof.entered s t d cause := by
  obtain ⟨h1, h2, h3, h4, h5, r, h6, h7, h8, h9, h10, h11, h12, h13, h14⟩ := h
  refine ⟨h1.trans hs, h2, h3.trans (by rw [hq]), h4.trans (by rw [hd]), h5, r, h6, h7.trans (by rw [hq]), h8, h9.trans (hr _ ?_),
    h10.trans (congrArg R.CHAIN_STATUS_PRESENT.get (hr _ ?_)), h11.trans (hr _ ?_), h12,
    h13.trans (congrArg (fun w => R.CUSHION_CTL_RETAIN_ARM.get w != 0) (hr _ ?_)), h14⟩
  · exact .head _
  · exact .tail _ (.head _)
  · exact .tail _ (.tail _ (.head _))
  · exact .tail _ (.tail _ (.tail _ (.head _)))

section
variable {s : State} (hp : s.dev.phase = .running)
include hp

/-- An entry once registers that its report does not take have been written. -/
theorem enterCushion_after {d : Dev} (hb : bare d = bare s.dev) (hd : d.fld R.CUSHION_STATUS_DRAINS = s.dev.fld R.CUSHION_STATUS_DRAINS)
    (hr : ∀ off ∈ [R.FRAME_NUMBER.reg, R.CHAIN_STATUS_PRESENT.reg, R.EPOCH_CLOSED_EPOCH.reg, R.CUSHION_CTL_RETAIN_ARM.reg],
      d.reg off = s.dev.reg off) {cause : Nat} (hc : cause ≠ 2 → cause % 4 / 2 ≠ 1) :
    Sys2Proof.entered s (({ s with dev := d } : State).enterCushion cause) s.dev cause ∧
      ∀ f : Field, leftByEntry f.reg = true →
        (({ s with dev := d } : State).enterCushion cause).dev.fld f = (d.addSat R.CUSHION_STATUS_DRAINS 1).fld f := by
  obtain ⟨h1, h2⟩ := enterCushion_spec (s := { s with dev := d }) ((of_bare (·.phase) (fun _ => rfl) hb).trans hp) hc
  exact ⟨entered_of h1 rfl (of_bare (·.drainSeq) (fun _ => rfl) hb) hd hr, h2⟩

end

/-- The device after a brown-out of rail r has been noted. -/
def browned (d : Dev) (r : Nat) : Dev := (d.setFld (R.RAIL_BROWNOUT.at (8 * r)) 1).setFld R.CUSHION_STATUS_BROWNOUT 1

theorem browned_keeps (d : Dev) (r : Nat) : bare (browned d r) = bare d ∧
    (browned d r).fld R.CUSHION_STATUS_DRAINS = d.fld R.CUSHION_STATUS_DRAINS ∧
    (∀ off ∈ [R.FRAME_NUMBER.reg, R.CHAIN_STATUS_PRESENT.reg, R.EPOCH_CLOSED_EPOCH.reg, R.CUSHION_CTL_RETAIN_ARM.reg],
      (browned d r).reg off = d.reg off) ∧ (browned d r).flag R.CUSHION_CTL_BROWNOUT_EN = d.flag R.CUSHION_CTL_BROWNOUT_EN := by
  have hn {off : Nat} (h : off < R.RAIL_BROWNOUT.reg) : off ≠ (R.RAIL_BROWNOUT.at (8 * r)).reg :=
    Nat.ne_of_lt (Nat.lt_of_lt_of_le h (Nat.le_add_right _ _))
  obtain ⟨e, he⟩ : ∃ e, d.setFld (R.RAIL_BROWNOUT.at (8 * r)) 1 = e := ⟨_, rfl⟩
  have hk {off : Nat} (h1 : off < R.RAIL_BROWNOUT.reg) (h2 : off ≠ R.CUSHION_STATUS_BROWNOUT.reg) : (browned d r).reg off = d.reg off := by
    unfold browned
    rw [he, reg_setFld_other _ _ _ _ h2, ← he, reg_setFld_other _ _ _ _ (hn h1)]
  refine ⟨?_, ?_, fun off ho => ?_, ?_⟩
  · unfold browned
    rw [bare_setFld, bare_setFld]
  · unfold browned
    rw [he, fld_setFld_apart _ _ _ _ (by decide) (by decide), ← he]
    exact fld_setFld_reg _ _ _ _ (hn (by decide))
  · simp only [List.mem_cons, List.not_mem_nil, or_false] at ho
    rcases ho with rfl | rfl | rfl | rfl
    · exact hk (by decide) (by decide)
    · exact hk (by decide) (by decide)
    · exact hk (by decide) (by decide)
    · exact hk (by decide) (by decide)
  · exact congrArg (fun w => R.CUSHION_CTL_BROWNOUT_EN.get w != 0) (hk (off := R.CUSHION_CTL_BROWNOUT_EN.reg) (by decide) (by decide))

theorem cushionEntry_hold : cushionEntry := by
  intro s d p
  have hkey {v : Word} : v.extractLsb' 0 9 = 0x15A#9 ↔ (getF v 0 8 == 0x5A && bitOf v 8) = true := by
    rw [Bool.and_eq_true, beq_iff_eq, bitOf_eq_getLsbD, getF, Nat.pow_zero, Nat.div_one, ← BitVec.toNat_inj, BitVec.extractLsb'_toNat,
      Nat.shiftRight_zero, BitVec.getLsbD, Nat.testBit_eq_decide_div_mod_eq, decide_eq_true_iff]
    change v.toNat % 2 ^ 9 = 0x15A ↔ _
    omega
  obtain ⟨q, hq⟩ : ∃ q, s.dev.setFld R.CUSHION_STATUS_PWRFAIL 1 = q := ⟨_, rfl⟩
  have hqb : bare q = bare s.dev := hq ▸ bare_setFld _ _ _
  have hqd : q.fld R.CUSHION_STATUS_DRAINS = s.dev.fld R.CUSHION_STATUS_DRAINS :=
    hq ▸ fld_setFld_apart _ _ _ _ (by decide) (by decide)
  have hqr (off : Nat) (ho : off ∈ [R.FRAME_NUMBER.reg, R.CHAIN_STATUS_PRESENT.reg, R.EPOCH_CLOSED_EPOCH.reg, R.CUSHION_CTL_RETAIN_ARM.reg]) :
      q.reg off = s.dev.reg off := hq ▸ reg_setFld_other _ _ _ _ fun he => absurd (he ▸ ho) (by decide)
  refine ⟨fun hp => ⟨?_, ?_, fun req v hr hv => ?_, ?_, fun r hr hen => ?_⟩, fun hp => ⟨?_, ?_, fun req v hr => ?_⟩, fun req v hr hv => ?_,
    fun r hr hen => ?_, fun hp => ?_, fun h1 h2 => ?_⟩
  · obtain ⟨h1, h2⟩ := enterCushion_after hp hqb hqd hqr (cause := 1) (by decide)
    refine ⟨({ s with dev := q } : State).enterCushion 1, (execPwrfail.eq_def ..).trans ?_, h1, ?_⟩
    · rw [hq]
    · refine (congrArg (· != 0) (h2 R.CUSHION_STATUS_PWRFAIL (by decide))).trans ?_
      refine (flag_setFld_apart q R.CUSHION_STATUS_DRAINS R.CUSHION_STATUS_PWRFAIL _ (by decide) (by decide)).trans ?_
      rw [← hq]
      exact flag_setFld_one _ _ (by decide) (by decide)
  · exact ⟨_, (execPowerFail.eq_def ..).trans rfl, (enterCushion_spec hp (by decide)).1⟩
  · refine ⟨s.enterCushion 8, (execDrainTest.eq_def ..).trans ((if_pos hr).trans (congrArg Host.Outcome.next (if_pos (hkey.1 hv)))),
      (enterCushion_spec hp (by decide)).1⟩
  · refine ⟨({ s with dev := { s.dev with thermtrip := false } } : State).enterCushion 1, (execPwrgoodFall.eq_def ..).trans ?_, ?_⟩
    · dsimp only
      rw [show s.dev.phase = .running from hp]
    · exact entered_of (enterCushion_spec (s := { s with dev := { s.dev with thermtrip := false } }) hp (by decide)).1 rfl rfl rfl
        fun _ _ => rfl
  · obtain ⟨hb, hd, hr', he⟩ := browned_keeps s.dev r
    refine ⟨({ s with dev := browned s.dev r } : State).enterCushion (4 + 2 ^ (4 + r)), (execBrownout.eq_def ..).trans ((if_pos hr).trans ?_),
      (enterCushion_after hp hb hd hr' fun _ => ?_).1⟩
    · exact congrArg Host.Outcome.next (if_pos (he.trans hen))
    · rw [Nat.pow_add]
      omega
  · refine (execPwrfail.eq_def ..).trans (congrArg Host.Outcome.next (enterCushion_other ?_))
    exact fun h => hp ((of_bare (·.phase) (fun _ => rfl) (bare_setFld s.dev R.CUSHION_STATUS_PWRFAIL 1)).symm.trans h)
  · exact (execPowerFail.eq_def ..).trans (congrArg Host.Outcome.next (enterCushion_other hp))
  · refine (execDrainTest.eq_def ..).trans ((if_pos hr).trans (congrArg Host.Outcome.next ?_))
    unfold State.drainTestWrite
    split
    · exact enterCushion_other hp
    · rfl
  · exact (execDrainTest.eq_def ..).trans ((if_pos hr).trans (congrArg Host.Outcome.next (if_neg fun h => hv (hkey.2 h))))
  · obtain ⟨-, -, -, he⟩ := browned_keeps s.dev r
    refine (execBrownout.eq_def ..).trans ((if_pos hr).trans (congrArg Host.Outcome.next (if_neg ?_)))
    rw [Bool.not_eq_true]
    exact he.trans hen
  · refine (execPwrgoodFall.eq_def ..).trans ?_
    dsimp only
    rw [show s.dev.phase = .drain from hp]
  · refine (execPwrgoodFall.eq_def ..).trans ?_
    dsimp only
    cases hph : s.dev.phase with
    | running => exact absurd hph h1
    | drain => exact absurd hph h2
    | _ => rfl

end Sys2Proof.Proofs
end

