-- ==== Sys2Proof/Proofs/DrainBegins.lean ====
section
/-!
PROOFS. The first phases of the drain (R294, R296, R360): what the write-back of lines keeps, the halt of a strand, the steps that
start, and the completions of P2.
-/

namespace Sys2Proof.Proofs

open Sys2Proof Sys2Proof.Machine Sys2Proof.Laws

/-! ### Writing lines back -/

theorem offLines_send (d : Dev) (m : Msg) : offLines (d.send m) = offLines d := rfl

theorem offLines_setWbUsed (d : Dev) (c g n : Nat) : offLines (d.setWbUsed c g n) = offLines d := rfl

theorem offLines_setTxn (d : Dev) (g : Nat) (x : Option Txn) : offLines (d.setTxn g x) = offLines d := rfl

theorem offLines_writeBack (d : Dev) (c g : Nat) : offLines (d.writeBack c g) = offLines d := by
  unfold Dev.writeBack
  dsimp only
  refine offLines_ite ?_ (offLines_checkLine _ _ _ _)
  exact (offLines_send _ _).trans ((offLines_trackSent _ _ _).trans ((offLines_setWbUsed _ _ _ _).trans ((offLines_setLine _ _ _ _).trans
    (offLines_checkLine _ _ _ _))))

theorem offLines_sweep (d : Dev) (c : Nat) : offLines (d.sweep c) = offLines d := by
  unfold Dev.sweep
  dsimp only
  rw [offLines_setTracker]
  exact offLines_foldl _ (fun d e => offLines_ite (offLines_writeBack _ _ _) rfl) _ _

theorem offLines_closeBank (d : Dev) (c : Nat) : offLines (d.closeBank c) = offLines d := by
  unfold Dev.closeBank
  exact offLines_ite rfl ((offLines_sweep _ _).trans (offLines_setTracker _ _ _))

theorem offLines_keepDirty (d : Dev) (g key : Nat) (l : Line) (p : Bool) (a : Option Agent) :
    offLines (d.keepDirty g key l p a) = offLines d := by
  obtain ⟨b, w, h⟩ := keepDirty_dir d g key l p a
  rcases h with ⟨h, -⟩ | h
  · exact offLines_of_atHome h
  · exact (offLines_of_atHome h).trans (offLines_setDir _ _ _)

theorem offLines_closeTxn (d : Dev) (g : Nat) : offLines (d.closeTxn g) = offLines d := by
  rw [closeTxn_eq, offLines_setDir, offLines_setTxn]

theorem offLines_dropPtr (d : Dev) (g : Nat) (a : Agent) : offLines (d.dropPtr g a) = offLines d := by
  unfold Dev.dropPtr
  dsimp only
  exact offLines_ite rfl (offLines_ite (offLines_setDir _ _ _) (offLines_setDir _ _ _))

theorem offLines_flushLine (d : Dev) (c g : Nat) : offLines (d.flushLine c g) = offLines d := by
  unfold Dev.flushLine
  dsimp only
  have hd : offLines ((d.checkLine c g allWords).dropLine c g) = offLines d := (offLines_setLine _ _ _ _).trans (offLines_checkLine _ _ _ _)
  refine offLines_ite (offLines_checkLine _ _ _ _) (offLines_ite ?_ (offLines_ite ?_ ((offLines_dropPtr _ _ _).trans hd)))
  · exact (offLines_closeTxn _ _).trans ((offLines_keepDirty _ _ _ _ _ _).trans ((offLines_setDir _ _ _).trans ((offLines_trackSent _ _ _).trans hd)))
  · exact (offLines_closeTxn _ _).trans ((offLines_of_atHome (atHome_keepClean _ _ _ _ _)).trans ((offLines_dropPtr _ _ _).trans hd))

theorem offLines_dramWriteBack (d : Dev) : offLines d.dramWriteBack = offLines d := by
  unfold Dev.dramWriteBack
  dsimp only
  refine (offLines_foldl _ (fun d g => offLines_ite rfl (offLines_of_atHome (atHome_llcEvict _ _))) _ _).trans ?_
  refine offLines_foldl _ (fun d c => offLines_foldl _ (fun d g => offLines_ite rfl (offLines_ite (offLines_writeBack _ _ _)
    (offLines_ite rfl (offLines_flushLine _ _ _)))) _ _) _ _

/-- Writing back what has halted leaves the strands and all that no line's movement changes. -/
theorem peatWork_spec (s : State) : ∃ d, s.peatWork = { s with dev := d } ∧ offLines d = offLines s.dev := by
  unfold State.peatWork
  split
  · exact ⟨s.dev, rfl, rfl⟩
  · split
    · exact ⟨_, rfl, offLines_foldl _ (fun d l => offLines_ite (offLines_closeBank _ _) rfl) _ _⟩
    · exact ⟨s.dev, rfl, rfl⟩

/-! ### The drain's bookkeeping leaves the rest -/

/-- The device but for the drain, the registers and what a report changes. -/
def offDrain (d : Dev) : Dev := { quiet d with drain := none }

theorem offDrain_of_quiet {d e : Dev} (h : quiet d = quiet e) : offDrain d = offDrain e :=
  show offDrain (quiet d) = offDrain (quiet e) from congrArg offDrain h

theorem of_offDrain {α : Type} {d e : Dev} (F : Dev → α) (hF : ∀ d, F (offDrain d) = F d) (h : offDrain d = offDrain e) :
    F d = F e := by
  rw [← hF d, h, hF]

theorem offDrain_phaseDone (d : Dev) (p : Nat) : offDrain (d.phaseDone p) = offDrain d := by
  unfold Dev.phaseDone
  split
  · rfl
  · split
    · rfl
    · rfl

theorem offDrain_drainDue (d : Dev) (b : Nat) : offDrain (d.drainDue b) = offDrain d := by
  cases hr : d.drain with
  | none =>
    unfold Dev.drainDue
    rw [hr]
  | some r =>
    cases hb : natBit r.due b with
    | true => rw [drainDue_eq hr, if_pos hb]
    | false =>
      obtain ⟨n, hn⟩ := drainDue_new hr hb
      exact (offDrain_of_quiet hn).trans rfl

/-! ### The halt of a strand (R294) -/

/-- What follows once a strand's image is saved: the report's list, the phases due, and the write-back. -/
def afterHalt (s : State) (g : Nat) : State :=
  let d := s.dev
  let d := match d.drain with
    | none => d
    | some q => { d with drain := some { q with report := { q.report with lines := addLines q.report.lines s.dirtyPeat } } }
  let d := if s.coreHalted (g / 2) then (d.drainDue 0).drainDue 1 else d
  let s := { s with dev := d }
  let s := if s.allHalted then { s with dev := s.dev.phaseDone 1 } else s
  s.peatWork

theorem afterHalt_spec (s : State) (g : Nat) : (∀ k, (afterHalt s g).strand k = s.strand k) ∧
    ∀ k, (afterHalt s g).dev.image k = s.dev.image k := by
  have hd {d e : Dev} (h : offDrain d = offDrain e) (k : Nat) : d.image k = e.image k := of_offDrain (·.image k) (fun _ => rfl) h
  have hl (q : DrainSt) : offDrain { s.dev with drain := some q } = offDrain s.dev := rfl
  obtain ⟨d1, h1, hd1⟩ : ∃ d1, d1 = (match s.dev.drain with
    | none => s.dev
    | some q => { s.dev with drain := some { q with report := { q.report with lines := addLines q.report.lines s.dirtyPeat } } }) ∧
      offDrain d1 = offDrain s.dev := by
    refine ⟨_, rfl, ?_⟩
    split
    · rfl
    · exact hl _
  obtain ⟨d2, h2, hd2⟩ : ∃ d2, d2 = (if s.coreHalted (g / 2) then (d1.drainDue 0).drainDue 1 else d1) ∧ offDrain d2 = offDrain s.dev := by
    refine ⟨_, rfl, ?_⟩
    split
    · exact ((offDrain_drainDue _ _).trans (offDrain_drainDue _ _)).trans hd1
    · exact hd1
  obtain ⟨d3, h3, hd3⟩ : ∃ d3, (if ({ s with dev := d2 } : State).allHalted then { s with dev := d2.phaseDone 1 } else { s with dev := d2 } : State)
      = { s with dev := d3 } ∧ offDrain d3 = offDrain s.dev := by
    split
    · exact ⟨_, rfl, (offDrain_phaseDone _ _).trans hd2⟩
    · exact ⟨_, rfl, hd2⟩
  obtain ⟨d4, h4, hd4⟩ := peatWork_spec { s with dev := d3 }
  have he : afterHalt s g = { s with dev := d4 } := by
    rw [← h4, ← h3, h2, h1]
    rfl
  rw [he]
  exact ⟨fun _ => rfl, fun k => (of_offLines (·.image k) (fun _ => rfl) hd4).trans (hd hd3 k)⟩

theorem images_closeShadow (s : State) (g : Nat) : (s.closeShadow g).dev.images = s.dev.images := by
  unfold State.closeShadow
  dsimp only
  split
  · rfl
  · split
    · rfl
    · rfl

theorem images_sealedExit (s : State) (g : Nat) (pc : Word) (d : Option Reg) : (s.sealedExit g pc d).dev.images = s.dev.images := by
  unfold State.sealedExit
  dsimp only
  split
  · rfl
  · split
    · rfl
    · rfl

theorem images_enter (s : State) (g lvl : Nat) (kind : EntryKind) (epc cause : Word) (inSlot : Bool) (fa fi : Option Word) (syn : Syn)
    (ex : Option Reg) : (s.enter g lvl kind epc cause inSlot fa fi syn ex).dev.images = s.dev.images := by
  unfold State.enter
  extract_lets s1 s2 x from0 sx b b' x1 x2 s3 s4 x3 x4 vb
  have h3 : s3.dev.images = s.dev.images := (of_bare (·.images) (fun _ => rfl) (bare_count _ _ _ _)).trans (images_closeShadow s g)
  change s4.dev.images = _
  change (if sx then s3.sealedExit g epc ex else s3).dev.images = _
  split
  · exact (images_sealedExit _ _ _ _).trans h3
  · exact h3

section
variable (s : State) (g : Nat)

theorem images_halt : (s.halt g).dev.images = s.dev.images := images_closeShadow s g

theorem halt_other {k : Nat} (hk : k ≠ g) : (s.halt g).strand k = s.strand k :=
  (strand_setStrand_other _ _ _ _ hk).trans (closeShadow_other s hk)

theorem images_setInImage (d : Dev) (x : Strand) (b : Bool) : (d.setInImage x b).images = d.images := by
  unfold Dev.setInImage
  split
  · rfl
  · split
    · rfl
    · rfl

theorem saveImage_keeps : (s.saveImage g false).1.dev.images = s.dev.images ∧
    ∀ k, k ≠ g → (s.saveImage g false).1.strand k = s.strand k := by
  unfold State.saveImage
  extract_lets x sx ww s1 s2 y s3
  have h2 : s2.dev.images = s.dev.images ∧ ∀ k, k ≠ g → s2.strand k = s.strand k := by
    change (if sx then _ else s1).dev.images = _ ∧ ∀ k, k ≠ g → (if sx then _ else s1).strand k = _
    split
    · exact ⟨(images_enter _ _ _ _ _ _ _ _ _ _ _).trans (images_halt s g), fun k hk => (enter_other hk).trans (halt_other s g hk)⟩
    · exact ⟨images_halt s g, fun k hk => halt_other s g hk⟩
  refine ⟨?_, h2.2⟩
  change (if sx then s2.dev.setInImage y true else s2.dev).images = _
  split
  · exact (images_setInImage _ _ _).trans h2.1
  · exact h2.1

/-- The image of a strand that neither runs sealed nor has a shadow open. -/
theorem saveImage_plain (hs : (s.strand g).sealedB = false) (hn : (s.strand g).shadow = none) : ∃ i, (s.saveImage g false).2 = i ∧
    i.strand.pc = (s.strand g).pc ∧ i.strand.n = (s.strand g).n ∧ i.strand.v = (s.strand g).v ∧ i.strand.status = (s.strand g).status ∧
    i.parked = (s.strand g).parked ∧ i.waiting = (s.strand g).waiting.isSome ∧ i.restored = false ∧ i.withdrawn = false := by
  have hh : (s.halt g).strand g = { s.strand g with tsync := false, waiting := none, halted := true } := by
    refine (strand_setStrand_same _ _ _).trans ?_
    rw [closeShadow_of_none hn]
  refine ⟨_, rfl, ?_⟩
  unfold State.saveImage
  dsimp only
  rw [hs, if_neg (by decide), hh]
  exact ⟨rfl, rfl, rfl, rfl, rfl, rfl, rfl, rfl⟩

end

theorem strandHalt_holds {s : State} {g : Nat} {r : DrainSt} (hr : s.dev.drain = some r) (hg : g < 512)
    (hc : s.dev.coreThere (g / 2) = true) (hh : (s.strand g).halted = false) (hm : s.mayHalt g = true) :
    GivesSome (.strandHalt g) s fun t =>
      (t.strand g).halted = true ∧ (∀ k, k ≠ g → t.strand k = s.strand k) ∧
      (s.dev.imageKept g = true → (t.dev.image g).map (fun i => i.strand) = (s.dev.image g).map fun i => i.strand) ∧
      (s.dev.imageKept g = false → (s.strand g).sealedB = false → (s.strand g).shadow = none → ∃ i, t.dev.image g = some i ∧
        i.strand.pc = (s.strand g).pc ∧ i.strand.n = (s.strand g).n ∧ i.strand.v = (s.strand g).v ∧
        i.strand.status = (s.strand g).status ∧ i.parked = (s.strand g).parked ∧ i.waiting = (s.strand g).waiting.isSome ∧
        i.restored = false ∧ i.withdrawn = false) := by
  obtain ⟨him, hot⟩ := saveImage_keeps s g
  let u := (s.saveImage g false).1.setStrand g { (s.saveImage g false).1.strand g with halted := true }
  let img := if s.dev.imageKept g then (u.dev.image g).map fun i => { i with carried := true } else some (s.saveImage g false).2
  obtain ⟨h1, h2⟩ := afterHalt_spec { u with dev := u.dev.setImage g img } g
  have himg : (afterHalt { u with dev := u.dev.setImage g img } g).dev.image g = img :=
    (h2 g).trans (smap_get_set_same _ _ _ _)
  have hui : u.dev.image g = s.dev.image g := congrArg (fun m => SMap.get (fun _ => none) m g) him
  refine ⟨afterHalt { u with dev := u.dev.setImage g img } g, ?_, ?_, fun k hk => ?_, fun hk => ?_, fun hk hs hn => ?_⟩
  · refine (execStrandHalt.eq_def ..).trans ((if_neg ?_).trans ?_)
    · rw [strandOk, decide_eq_true hg]
      decide
    · rw [hr]
      refine (if_neg ?_).trans rfl
      rw [hc, hh, hm]
      decide
  · rw [h1]
    exact congrArg Strand.halted (strand_setStrand_same _ _ _)
  · rw [h1]
    exact (strand_setStrand_other _ _ _ _ hk).trans (hot k hk)
  · rw [himg]
    change Option.map _ (if s.dev.imageKept g then _ else _) = _
    rw [if_pos hk, hui, Option.map_map]
    rfl
  · obtain ⟨i, hi, hrest⟩ := saveImage_plain s g hs hn
    refine ⟨i, ?_, hrest⟩
    rw [himg, ← hi]
    exact if_neg (by rw [hk]; decide)

/-! ### The steps and the completions of P2 (R296, R360) -/
theorem add_two_pow_eq_or {m i : Nat} (h : m.testBit i = false) : m + 2 ^ i = m ||| 2 ^ i := by
  have hlt : m % 2 ^ i < 2 ^ i := Nat.mod_lt _ (Nat.two_pow_pos i)
  have he : m / 2 ^ i + 1 = m / 2 ^ i ||| 1 := by
    rw [Nat.testBit_eq_decide_div_mod_eq, decide_eq_false_iff_not] at h
    have h2 := Nat.two_pow_add_eq_or_of_lt (i := 1) (b := 1) (by decide) (m / 2 ^ i / 2)
    rw [show 2 ^ 1 * (m / 2 ^ i / 2) = m / 2 ^ i by omega] at h2
    exact h2
  have hs (a : Nat) : 2 ^ i * a = a <<< i := by rw [Nat.shiftLeft_eq, Nat.mul_comm]
  have hm : m = (m / 2 ^ i) <<< i ||| m % 2 ^ i := by
    rw [← hs, ← Nat.two_pow_add_eq_or_of_lt hlt, Nat.div_add_mod]
  calc m + 2 ^ i = 2 ^ i * (m / 2 ^ i + 1) + m % 2 ^ i := by
        rw [Nat.mul_add, Nat.mul_one, Nat.add_right_comm, Nat.div_add_mod]
    _ = (m / 2 ^ i ||| 1) <<< i ||| m % 2 ^ i := by rw [he, Nat.two_pow_add_eq_or_of_lt hlt, hs]
    _ = ((m / 2 ^ i) <<< i ||| m % 2 ^ i) ||| 2 ^ i := by
        rw [Nat.shiftLeft_or_distrib, Nat.one_shiftLeft, Nat.or_assoc, Nat.or_comm (2 ^ i), ← Nat.or_assoc]
    _ = m ||| 2 ^ i := by rw [← hm]

theorem setBit_eq (m i : Nat) : setBit m i = m ||| 2 ^ i := by
  unfold setBit
  rw [natBit_eq_testBit]
  cases h : m.testBit i with
  | false => exact (if_neg (by decide)).trans (add_two_pow_eq_or h)
  | true =>
    refine (if_pos rfl).trans (Nat.eq_of_testBit_eq fun j => ?_)
    rw [Nat.testBit_or, Nat.testBit_two_pow]
    by_cases hj : i = j
    · rw [← hj, h, Bool.true_or]
    · rw [decide_eq_false hj, Bool.or_false]

theorem testBit_add_two_pow {m i : Nat} (h : natBit m i = false) : (m + 2 ^ i).testBit i = true := by
  rw [natBit_eq_testBit] at h
  rw [Nat.add_comm, Nat.testBit_two_pow_add_eq, h]
  rfl

theorem startPhase_starts {s : State} {r : DrainSt} {b : Nat} (hr : s.dev.drain = some r) (h1 : r.due.testBit b = true)
    (h2 : r.started.testBit b = false) :
    (s.startPhase b).strands = s.strands ∧ (s.startPhase b).dev.drain.map (fun q => q.started) = some (r.started + 2 ^ b) := by
  obtain ⟨z, hz⟩ : ∃ z, ({ s.dev with drain := some { r with started := r.started + 2 ^ b } } : Dev).showDue = z := ⟨_, rfl⟩
  have hzd : z.drain = some { r with started := r.started + 2 ^ b } :=
    hz ▸ of_quiet (·.drain) (fun _ => rfl) (quiet_showDue (d := { s.dev with drain := some { r with started := r.started + 2 ^ b } }) rfl)
  obtain ⟨d, hd, hdl⟩ := peatWork_spec { s with dev := z }
  have he : s.startPhase b = { s with dev := d } := by
    unfold State.startPhase
    rw [hr]
    dsimp only
    rw [natBit_eq_testBit, natBit_eq_testBit, h1, h2, hz, ← hd]
    rfl
  rw [he]
  refine ⟨rfl, ?_⟩
  rw [show ({ s with dev := d } : State).dev.drain = z.drain from of_offLines (·.drain) (fun _ => rfl) hdl, hzd]
  rfl

theorem startPhase_not {s : State} {r : DrainSt} {b : Nat} (hr : s.dev.drain = some r)
    (h : r.due.testBit b = false ∨ r.started.testBit b = true) : s.startPhase b = s := by
  unfold State.startPhase
  rw [hr]
  dsimp only
  refine if_neg ?_
  rw [natBit_eq_testBit, natBit_eq_testBit]
  rcases h with h | h
  · rw [h]
    exact Bool.false_ne_true
  · rw [h, Bool.not_true, Bool.and_false]
    exact Bool.false_ne_true

theorem startPhase_none {s : State} (hr : s.dev.drain = none) (b : Nat) : s.startPhase b = s := by
  unfold State.startPhase
  rw [hr]

/-- Each of the commands that start a step. -/
theorem step_exec {b : Nat} {c : Instr} (s : State) (h : (b = 0 ∧ (c = .p2Go ∨ c = .drainStepTimeout 2)) ∨
    (b = 1 ∧ (c = .p3Go ∨ c = .drainStepTimeout 3)) ∨ (b = 2 ∧ (c = .p4Go ∨ c = .drainStepTimeout 4))) :
    exec c s = .next (s.startPhase b) := by
  rcases h with ⟨rfl, rfl | rfl⟩ | ⟨rfl, rfl | rfl⟩ | ⟨rfl, rfl | rfl⟩
  · exact execP2Go.eq_def ..
  · exact execDrainStepTimeout.eq_def ..
  · exact execP3Go.eq_def ..
  · exact execDrainStepTimeout.eq_def ..
  · exact execP4Go.eq_def ..
  · exact execDrainStepTimeout.eq_def ..

theorem peatDone_other {s : State} {r : DrainSt} {k : Nat} (hr : s.dev.drain = some r) (hk : k < 8) (hs : k ≠ s.dev.self) :
    Makes (.peatDone k) s { s.dev with drain := some { r with peatDone := r.peatDone ||| 2 ^ k } } := by
  refine (execPeatDone.eq_def ..).trans ((if_neg (Nat.not_le.2 hk)).trans ?_)
  rw [hr]
  refine (if_neg (by rw [beq_iff_eq]; exact hs)).trans ?_
  rw [setBit_eq]

theorem peatDone_own {s : State} {r : DrainSt} (hr : s.dev.drain = some r) (h0 : r.started.testBit 0 = true)
    (h1 : r.peatDone.testBit s.dev.self = false) (h2 : s.peatSettled false = true) :
    MakesSome (.peatDone s.dev.self) s fun e =>
      e.drain.map (fun q => q.peatDone) = some (r.peatDone ||| 2 ^ s.dev.self) ∧
      e.drain.map (fun q => q.report.phases.testBit 2) = some true ∧ e.chain.sent = chainSent s.dev 0x10 [] := by
  obtain ⟨q, hq, hp, hb, hc⟩ : ∃ q, (s.dev.phaseDone 2).drain = some q ∧ q.peatDone = r.peatDone ∧ q.report.phases.testBit 2 = true ∧
      (s.dev.phaseDone 2).chain = s.dev.chain ∧ (s.dev.phaseDone 2).regs = s.dev.regs := by
    cases hn : natBit r.report.phases 2 with
    | true =>
      rw [phaseDone_same hr hn]
      exact ⟨r, hr, rfl, by rw [← natBit_eq_testBit]; exact hn, rfl, rfl⟩
    | false =>
      rw [phaseDone_new hr hn]
      exact ⟨_, rfl, rfl, testBit_add_two_pow hn, rfl, rfl⟩
  obtain ⟨e, he⟩ : ∃ e, s.dev.phaseDone 2 = e := ⟨_, rfl⟩
  rw [he] at hq hc
  have hself : e.self = s.dev.self := fld_of_regs hc.2 _
  refine ⟨({ e with drain := some { q with peatDone := setBit q.peatDone e.self } } : Dev).chainSend 0x10 [], ?_, ?_, ?_, ?_⟩
  · have hlt := self_lt s.dev
    refine (execPeatDone.eq_def ..).trans ((if_neg (Nat.not_le.2 hlt)).trans ?_)
    rw [hr]
    refine (if_pos (beq_self_eq_true _)).trans (congrArg Host.Outcome.next ((if_pos ?_).trans ?_))
    · rw [natBit_eq_testBit, natBit_eq_testBit, h0, h1, h2]
      rfl
    · unfold State.peatComplete
      dsimp only
      rw [he, hq]
  · change some (setBit q.peatDone e.self) = _
    rw [setBit_eq, hp, hself]
  · exact congrArg some hb
  · rw [sent_chainSend]
    exact chainSent_congr _ _ (congrArg (· != 0) (fld_of_regs hc.2 _)) (congrArg Chain.sent hc.1)

theorem p2Deadline_lists {s : State} {r : DrainSt} (hr : s.dev.drain = some r) (h1 : r.peatDone.testBit s.dev.self = true) :
    GivesSome .p2Deadline s fun t => t.strands = s.strands ∧ t.dev.drain = some { r with report := { r.report with
      lines := r.report.lines.map fun x => if x.reason = 0 ∧ s.peatPending x.g = true then { x with reason := 1 } else x } } := by
  have hf : (fun x : LineItem => if x.reason == 0 && s.peatPending x.g then { x with reason := 1 } else x) =
      fun x => if x.reason = 0 ∧ s.peatPending x.g = true then { x with reason := 1 } else x := by
    funext x
    simp only [Bool.and_eq_true, beq_iff_eq]
  refine ⟨{ s with dev := { s.dev with drain := some { r with report := { r.report with
    lines := r.report.lines.map fun x => if x.reason = 0 ∧ s.peatPending x.g = true then { x with reason := 1 } else x } } } }, ?_, rfl, rfl⟩
  refine (execP2Deadline.eq_def ..).trans ?_
  rw [hr]
  dsimp only
  rw [hf, if_neg]
  rw [natBit_eq_testBit, show ({ s.dev with drain := some { r with report := { r.report with
    lines := r.report.lines.map fun x => if x.reason = 0 ∧ s.peatPending x.g = true then { x with reason := 1 } else x } } } : Dev).self
      = s.dev.self from rfl, h1]
  exact Bool.false_ne_true

theorem drainHaltsAndWritesBack_hold : drainHaltsAndWritesBack := by
  intro s d
  refine ⟨fun hr => ⟨fun g hg => ?_, ?_, fun k hk => ?_, ?_, ?_, ?_, fun k h2 h4 => ?_⟩, fun r hr => ⟨fun g hg hc hh hm => strandHalt_holds hr hg hc hh hm,
    fun b c h => ⟨fun h1 h2 => ?_, fun h1 => ?_⟩, fun k hk hs => peatDone_other hr hk hs, fun h0 h1 h2 => peatDone_own hr h0 h1 h2,
    fun h1 => p2Deadline_lists hr h1⟩⟩
  · refine (execStrandHalt.eq_def ..).trans ((if_neg ?_).trans ?_)
    · rw [strandOk, decide_eq_true hg]
      decide
    · rw [show s.dev.drain = none from hr]
  · refine (execP2Deadline.eq_def ..).trans ?_
    rw [show s.dev.drain = none from hr]
  · refine (execPeatDone.eq_def ..).trans ((if_neg (Nat.not_le.2 hk)).trans ?_)
    rw [show s.dev.drain = none from hr]
  · exact (execP2Go.eq_def ..).trans (congrArg Host.Outcome.next (startPhase_none hr 0))
  · exact (execP3Go.eq_def ..).trans (congrArg Host.Outcome.next (startPhase_none hr 1))
  · exact (execP4Go.eq_def ..).trans (congrArg Host.Outcome.next (startPhase_none hr 2))
  · refine (execDrainStepTimeout.eq_def ..).trans ((if_pos ?_).trans (congrArg Host.Outcome.next (startPhase_none hr _)))
    rw [decide_eq_true h2, decide_eq_true h4]
    rfl
  · exact ⟨_, step_exec s h, startPhase_starts hr h1 h2⟩
  · exact (step_exec s h).trans (congrArg Host.Outcome.next (startPhase_not hr h1))

/-- Settles O37: each cause by the entry that it makes, each step by what it leaves of the drain's record. -/
theorem drainBegins : Obligations.DrainBegins := ⟨cushionEntry_hold, drainHaltsAndWritesBack_hold⟩

end Sys2Proof.Proofs
end

