-- ==== Sys2Proof/Proofs/DrainEnds.lean ====
section
/-!
PROOFS. The drain's reports and end (R292, R297, R299, R302, R303), and the restore of images (R309, R310, R312, R358).
-/

namespace Sys2Proof.Proofs

open Sys2Proof Sys2Proof.Machine Sys2Proof.Laws

/-! ### P3 to P5 -/

/-- A phase that is done changes the report's phases and their ends alone. -/
theorem phaseDone_spec {d : Dev} {r : DrainSt} (hr : d.drain = some r) (p : Nat) : ∃ ph pe,
    d.phaseDone p = { d with drain := some { r with report := { r.report with phases := ph, phaseEnd := pe } } } ∧
      ph.testBit p = true := by
  cases hn : natBit r.report.phases p with
  | true =>
    refine ⟨r.report.phases, r.report.phaseEnd, ?_, by rw [← natBit_eq_testBit]; exact hn⟩
    rw [phaseDone_same hr hn]
    change d = { d with drain := some r }
    rw [← hr]
  | false => exact ⟨_, _, phaseDone_new hr hn, testBit_add_two_pow hn⟩

section
variable {s : State} {r : DrainSt} (hr : s.dev.drain = some r)
include hr

theorem dramDone_other {k : Nat} (hk : k < 8) (hs : k ≠ s.dev.self) :
    Makes (.dramDone k) s { s.dev with drain := some { r with dramDone := r.dramDone ||| 2 ^ k } } := by
  refine (execDramDone.eq_def ..).trans ((if_neg (Nat.not_le.2 hk)).trans ?_)
  rw [hr]
  refine (if_neg (by rw [beq_iff_eq]; exact hs)).trans ?_
  rw [setBit_eq]

theorem dramDone_own (h1 : r.started.testBit 1 = true) (h2 : r.dramDone.testBit s.dev.self = false) (h3 : s.allHalted = true)
    (h4 : r.report.phases.testBit 6 = true) (h5 : s.dev.dramWriteBack.dramDirty = false) :
    GivesSome (.dramDone s.dev.self) s fun t => t.strands = s.strands ∧
      t.dev.drain.map (fun q => q.dramDone) = some (r.dramDone ||| 2 ^ s.dev.self) := by
  obtain ⟨e, he⟩ : ∃ e, s.dev.dramWriteBack = e := ⟨_, rfl⟩
  have hed : e.drain = some r := (of_offLines (·.drain) (fun _ => rfl) (he ▸ offLines_dramWriteBack s.dev)).trans hr
  rw [he] at h5
  refine ⟨{ s with dev := ({ e with drain := some { r with
      dramDone := setBit r.dramDone s.dev.self
      report := { r.report with dramDone := maskOf e.liveChannels } } } : Dev).chainSend 0x11 [] }, ?_, rfl, ?_⟩
  · refine (execDramDone.eq_def ..).trans ((if_neg (Nat.not_le.2 (self_lt s.dev))).trans ?_)
    rw [hr]
    refine (if_pos (beq_self_eq_true _)).trans ((if_pos ?_).trans ?_)
    · rw [natBit_eq_testBit, natBit_eq_testBit, natBit_eq_testBit, h1, h2, h3, h4]
      rfl
    · rw [he]
      dsimp only
      rw [h5, hed]
  · exact congrArg some (setBit_eq _ _)

theorem canaryWrite_holds {n : Nat} (hn : n < 16) (h1 : r.started.testBit 1 = true) (h2 : r.report.phases.testBit 6 = true)
    (h3 : s.dev.mcLive n = true) : MakesSome (.canaryWrite n) s fun e =>
      e.fld (mcReg R.MC_STATUS_STATE n) = 3 ∧ ∃ q w, e.drain = some q ∧
        (e.chan n).canary = some (BitVec.ofNat 64 r.report.seqn, s.dev.self, n, w) ∧
        SMap.get (fun _ => 0) q.report.canary n = w ∧ q.report.canaryWritten = r.report.canaryWritten ||| 2 ^ n ∧
        q.report.selfRefresh = r.report.selfRefresh ||| 2 ^ n := by
  obtain ⟨w, hw⟩ : ∃ w, Config.randomWord s.dev.free = w := ⟨_, rfl⟩
  obtain ⟨y, hy⟩ : ∃ y, ({ s.dev with free := s.dev.free + 1 } : Dev).setChan n
    { s.dev.chan n with canary := some (word r.report.seqn, s.dev.self, n, w) } = y := ⟨_, rfl⟩
  obtain ⟨z, hz⟩ : ∃ z, y.setFld (mcReg R.MC_STATUS_STATE n) 3 = z := ⟨_, rfl⟩
  have hzf : z.fld (mcReg R.MC_STATUS_STATE n) = 3 := hz ▸ fld_setFld_lt y
    (show R.MC_STATUS_STATE.lo + R.MC_STATUS_STATE.width ≤ 64 by decide) (show 3 < 2 ^ R.MC_STATUS_STATE.width by decide)
  have hzc : z.chan n = { s.dev.chan n with canary := some (word r.report.seqn, s.dev.self, n, w) } :=
    (of_bare (·.chan n) (fun _ => rfl) (hz ▸ bare_setFld y _ _)).trans (hy ▸ smap_get_set_same _ _ _ _)
  obtain ⟨q, hq⟩ : ∃ q : DrainSt, q = { r with report := { r.report with
    canaryWritten := setBit r.report.canaryWritten n
    selfRefresh := setBit r.report.selfRefresh n
    canary := SMap.set (fun _ => 0) r.report.canary n w } } := ⟨_, rfl⟩
  obtain ⟨x, hx⟩ : ∃ x : Dev, ({ z with drain := some q } : Dev) = x := ⟨_, rfl⟩
  have hm : Makes (.canaryWrite n) s (if x.liveChannels.all fun k => natBit q.report.selfRefresh k then x.phaseDone 3 else x) := by
    refine dev_makes (execCanaryWrite.eq_def ..) (decide_eq_true hn) ?_
    rw [hr]
    refine (if_pos ?_).trans ?_
    · rw [natBit_eq_testBit, natBit_eq_testBit, h1, h2, h3]
      rfl
    · rw [← hx, hq, ← hz, ← hy, ← hw]
      rfl
  have hk (e : Dev) (q' : DrainSt) (he : e.drain = some q') (hreg : e.regs = z.regs) (hch : e.chans = z.chans)
      (h1 : q'.report.canary = q.report.canary) (h2 : q'.report.canaryWritten = q.report.canaryWritten)
      (h3 : q'.report.selfRefresh = q.report.selfRefresh) : e.fld (mcReg R.MC_STATUS_STATE n) = 3 ∧ ∃ q w, e.drain = some q ∧
        (e.chan n).canary = some (BitVec.ofNat 64 r.report.seqn, s.dev.self, n, w) ∧
        SMap.get (fun _ => 0) q.report.canary n = w ∧ q.report.canaryWritten = r.report.canaryWritten ||| 2 ^ n ∧
        q.report.selfRefresh = r.report.selfRefresh ||| 2 ^ n := by
    refine ⟨(fld_of_regs hreg _).trans hzf, q', w, he, ?_, ?_, ?_, ?_⟩
    · exact congrArg Chan.canary ((congrArg (fun m => SMap.get (fun _ => ({} : Chan)) m n) hch).trans hzc)
    · rw [h1, hq]
      exact smap_get_set_same _ _ _ _
    · rw [h2, hq]
      exact setBit_eq _ _
    · rw [h3, hq]
      exact setBit_eq _ _
  by_cases ha : (x.liveChannels.all fun k => natBit q.report.selfRefresh k) = true
  · rw [if_pos ha] at hm
    obtain ⟨ph, pe, hp, -⟩ := phaseDone_spec (d := x) (r := q) (by rw [← hx]) 3
    refine ⟨_, hm, ?_⟩
    rw [hp, ← hx]
    exact hk _ _ rfl rfl rfl rfl rfl rfl
  · rw [if_neg ha] at hm
    refine ⟨_, hm, ?_⟩
    rw [← hx]
    exact hk _ _ rfl rfl rfl rfl rfl rfl

theorem retainAssert_holds (h1 : s.dev.flag R.CUSHION_CTL_RETAIN_ARM = true)
    (h2 : ∀ n ∈ s.dev.liveChannels, r.report.selfRefresh.testBit n = true) (h3 : r.report.phases.testBit 7 = false) :
    MakesSome .retainAssert s fun e => e.retainEn = true ∧ e.flag R.CUSHION_STATUS_RETAIN_HELD = true ∧
      e.drain.map (fun q => q.report.phases.testBit 7) = some true := by
  obtain ⟨z, hz⟩ : ∃ z, s.dev.setFld R.CUSHION_STATUS_RETAIN_HELD 1 = z := ⟨_, rfl⟩
  have hzf : z.flag R.CUSHION_STATUS_RETAIN_HELD = true := hz ▸ flag_setFld_one _ _ (by decide) (by decide)
  have h7 : natBit r.report.phases 7 = false := (natBit_eq_testBit _ _).trans h3
  refine ⟨{ z with
    retainEn := true
    drain := some { r with report := { r.report with phases := r.report.phases + 128 } } }, ?_, rfl, hzf, congrArg some (testBit_add_two_pow h7)⟩
  refine dev_makes (execRetainAssert.eq_def ..) rfl ?_
  rw [hr]
  refine (if_pos ?_).trans (by rw [hz])
  rw [h1, h7, List.all_eq_true.2 fun n hn => (natBit_eq_testBit _ _).trans (h2 n hn)]
  rfl

theorem drainReportWrite_holds : GivesSome .drainReportWrite s fun t => t.strands = s.strands ∧ ∃ q, t.dev.drain = some q ∧
    q.report.phases.testBit 5 = true ∧ q.report.images = s.savedImages ∧
    q.report.lines.map (fun x => x.g) = r.report.lines.map (fun x => x.g) ∧
    ∀ x ∈ q.report.lines, x.durable = true → s.peatPending x.g = false := by
  obtain ⟨rep, hrep, hi, hl⟩ : ∃ rep : Report, exec .drainReportWrite s
      = .next { s with dev := ({ s.dev with drain := some { r with report := rep } } : Dev).phaseDone 5 } ∧
      rep.images = s.savedImages ∧ rep.lines = s.finalLines r.report.lines := by
    have h : exec .drainReportWrite s = _ := execDrainReportWrite.eq_def s
    rw [hr] at h
    exact ⟨_, h, rfl, rfl⟩
  obtain ⟨ph, pe, hp, h5⟩ := phaseDone_spec (d := { s.dev with drain := some { r with report := rep } }) rfl 5
  refine ⟨_, hrep, rfl, ?_⟩
  rw [hp]
  refine ⟨_, rfl, h5, hi, ?_, fun x hx hd => ?_⟩
  · change rep.lines.map _ = _
    rw [hl, State.finalLines, List.map_map]
    rfl
  · change x ∈ rep.lines at hx
    rw [hl] at hx
    obtain ⟨y, -, rfl⟩ := List.mem_map.1 hx
    have hd : (y.reason == 0 && !s.peatPending y.g) = true := hd
    rw [Bool.and_eq_true, Bool.not_eq_true'] at hd
    exact hd.2

theorem drainComplete_holds (h : r.report.phases.testBit 5 = true) : MakesSome .drainComplete s fun e =>
    e.phase = .drained ∧ e.drain = none ∧ SMap.get (fun _ => {}) e.reports (r.report.seqn % 2) = { r.report with
      endFrame := s.dev.frame
      complete := true } := by
  refine ⟨{ s.dev with
    reports := SMap.set (fun _ => {}) s.dev.reports (r.report.seqn % 2) { r.report with
      endFrame := s.dev.frame
      complete := true }
    drain := none
    phase := .drained }, dev_makes (execDrainComplete.eq_def ..) rfl ?_, rfl, rfl, smap_get_set_same _ _ _ _⟩
  rw [hr]
  exact if_pos ((natBit_eq_testBit _ _).trans h)

end

theorem drainReportsAndStops_hold : drainReportsAndStops := by
  intro s d
  refine ⟨fun hr => ⟨fun k hk => ?_, fun n hn => ?_, ?_, ?_, ?_⟩, dev_makes (execRetainHeldClear.eq_def ..) rfl rfl,
    fun r hr => ⟨fun k hk hs => dramDone_other hr hk hs, fun h1 h2 h3 h4 h5 => dramDone_own hr h1 h2 h3 h4 h5,
      fun n hn h1 h2 h3 => canaryWrite_holds hr hn h1 h2 h3, fun h1 h2 h3 => retainAssert_holds hr h1 h2 h3, fun h => ?_,
      drainReportWrite_holds hr, fun h => drainComplete_holds hr h, fun h => ?_⟩⟩
  · refine (execDramDone.eq_def ..).trans ((if_neg (Nat.not_le.2 hk)).trans ?_)
    rw [show s.dev.drain = none from hr]
  · refine dev_makes (e := s.dev) (execCanaryWrite.eq_def ..) (decide_eq_true hn) ?_
    rw [show s.dev.drain = none from hr]
  · refine dev_makes (e := s.dev) (execRetainAssert.eq_def ..) rfl ?_
    rw [show s.dev.drain = none from hr]
  · refine (execDrainReportWrite.eq_def ..).trans ?_
    rw [show s.dev.drain = none from hr]
  · refine dev_makes (e := s.dev) (execDrainComplete.eq_def ..) rfl ?_
    rw [show s.dev.drain = none from hr]
  · refine dev_makes (e := s.dev) (execRetainAssert.eq_def ..) rfl ?_
    rw [show s.dev.drain = some r from hr]
    refine if_neg ?_
    rw [show s.dev.flag R.CUSHION_CTL_RETAIN_ARM = false from h]
    exact Bool.false_ne_true
  · refine dev_makes (e := s.dev) (execDrainComplete.eq_def ..) rfl ?_
    rw [show s.dev.drain = some r from hr]
    refine if_neg ?_
    rw [natBit_eq_testBit, h]
    decide

/-! ### Images -/

theorem setInImage_eq (d : Dev) (x : Strand) (b : Bool) : ∃ m, d.setInImage x b = { d with domains := m } := by
  unfold Dev.setInImage
  split
  · exact ⟨_, rfl⟩
  · split
    · exact ⟨_, rfl⟩
    · exact ⟨_, rfl⟩

/-- The device whose STRAND_RESTORE register has taken a write. -/
def restoreWritten (d : Dev) (v : Word) : Dev := d.writeReg R.STRAND_RESTORE_ID.reg v

theorem restoreWritten_eq (d : Dev) (v : Word) : ∃ w, restoreWritten d v = d.setReg R.STRAND_RESTORE_ID.reg w :=
  ⟨_, writeReg_plain v (show regAt R.STRAND_RESTORE_ID.reg = some _ from rfl) (by decide)⟩

theorem bare_restoreWritten (d : Dev) (v : Word) : bare (restoreWritten d v) = bare d := by
  obtain ⟨w, h⟩ := restoreWritten_eq d v
  rw [h, bare_setReg]

theorem fld_restoreWritten (d : Dev) (v : Word) {f : Field} (h : f.reg ≠ R.STRAND_RESTORE_ID.reg) :
    (restoreWritten d v).fld f = d.fld f := by
  obtain ⟨w, hw⟩ := restoreWritten_eq d v
  rw [hw]
  exact congrArg f.get (reg_setReg_other _ _ _ _ h)

section
variable (s : State) (v : Word)

theorem coreThere_restoreWritten (l : Nat) : (restoreWritten s.dev v).coreThere l = s.dev.coreThere l := by
  refine congrArg (· != 0) (fld_restoreWritten s.dev v (Nat.ne_of_gt ?_))
  exact Nat.lt_of_lt_of_le (show R.STRAND_RESTORE_ID.reg < R.CORE_MAP_PRESENT.reg by decide) (Nat.le_add_right _ _)

theorem image_restoreWritten (k : Nat) : (restoreWritten s.dev v).image k = s.dev.image k :=
  of_bare (·.image k) (fun _ => rfl) (bare_restoreWritten s.dev v)

theorem restoreRefused_written (id : Nat) : ({ s with dev := restoreWritten s.dev v } : State).restoreRefused id = s.restoreRefused id := by
  have h1 : (restoreWritten s.dev v).self = s.dev.self := fld_restoreWritten s.dev v (by decide)
  have h2 : (restoreWritten s.dev v).locked = s.dev.locked := congrArg (· != 0) (fld_restoreWritten s.dev v (by decide))
  have h3 : (restoreWritten s.dev v).fld R.RESUME_INFO_PATH = s.dev.fld R.RESUME_INFO_PATH := fld_restoreWritten s.dev v (by decide)
  unfold State.restoreRefused
  dsimp only
  rw [h1, h2, h3, image_restoreWritten, coreThere_restoreWritten]

end

/-- What a restore leaves in RESULT. -/
def resulted (d : Dev) (r : Nat) : Dev := d.setFld R.STRAND_RESTORE_RESULT r

theorem resulted_spec (d : Dev) {r : Nat} (h : r < 16) : (resulted d r).fld R.STRAND_RESTORE_RESULT = r ∧ bare (resulted d r) = bare d :=
  ⟨fld_setFld_lt d (by decide) h, bare_setFld _ _ _⟩

section
variable {s : State} {req : Requester} {v : Word} (hreq : reqOk req = true)
include hreq

theorem restoreWrite_fails {n : Nat} (hn : n < 16)
    (h : s.restoreWrite req v = { s with dev := resulted (restoreWritten s.dev v) n }) :
    MakesSome (.strandRestore req v) s fun e => e.fld R.STRAND_RESTORE_RESULT = n ∧ e.images = s.dev.images := by
  obtain ⟨h1, h2⟩ := resulted_spec (restoreWritten s.dev v) hn
  exact ⟨_, (execStrandRestore.eq_def ..).trans ((if_pos hreq).trans (congrArg Host.Outcome.next h)), h1,
    of_bare (·.images) (fun _ => rfl) (h2.trans (bare_restoreWritten s.dev v))⟩

end

theorem restore_id (v : Word) : getF v 0 12 % 512 = (v.extractLsb' 0 9).toNat ∧ getF v 0 12 / 512 = (v.extractLsb' 9 3).toNat := by
  rw [getF, BitVec.extractLsb'_toNat, BitVec.extractLsb'_toNat, Nat.shiftRight_zero, Nat.shiftRight_eq_div_pow]
  omega

section
variable {s : State} {req : Requester} {v : Word} (hgo : v.getLsbD 12 = true)
include hgo

theorem restoreWrite_refused {n : Nat} (h : s.restoreRefused (getF v 0 12) = some n) :
    s.restoreWrite req v = { s with dev := resulted (restoreWritten s.dev v) n } := by
  unfold State.restoreWrite
  dsimp only
  rw [if_neg (by rw [bitOf_eq_getLsbD, hgo]; decide)]
  rw [show ({ s with dev := s.dev.writeReg R.STRAND_RESTORE_ID.reg v } : State).restoreRefused (getF v 0 12) = some n from
    (restoreRefused_written s v _).trans h]
  rfl

theorem restoreWrite_taken {i : Image} (h : s.restoreRefused (getF v 0 12) = none)
    (hi : s.dev.image (v.extractLsb' 0 9).toNat = some i) (hc : s.dev.coreThere ((v.extractLsb' 0 9).toNat / 2) = true) :
    s.restoreWrite req v = if !(s.strand (v.extractLsb' 0 9).toNat).parked && req != .strand (v.extractLsb' 0 9).toNat then
        { s with dev := resulted (restoreWritten s.dev v) 1 }
      else ({ s with dev := resulted (restoreWritten s.dev v) 0 } : State).loadImage (v.extractLsb' 0 9).toNat i := by
  have hcw : (s.dev.writeReg R.STRAND_RESTORE_ID.reg v).coreThere ((v.extractLsb' 0 9).toNat / 2) = true :=
    (coreThere_restoreWritten s v _).trans hc
  unfold State.restoreWrite
  dsimp only
  rw [if_neg (by rw [bitOf_eq_getLsbD, hgo]; decide)]
  rw [show ({ s with dev := s.dev.writeReg R.STRAND_RESTORE_ID.reg v } : State).restoreRefused (getF v 0 12) = none from
    (restoreRefused_written s v _).trans h, (restore_id v).1,
    show (s.dev.writeReg R.STRAND_RESTORE_ID.reg v).image (v.extractLsb' 0 9).toNat = some i from (image_restoreWritten s v _).trans hi]
  dsimp only
  rw [hcw]
  unfold State.unwithdraw
  dsimp only
  rw [if_pos hcw]
  rfl

end

/-- The strand that an image makes of the one it is loaded into. -/
def loaded (i : Image) (x : Strand) : Strand :=
  { i.strand.masked with
    parked := i.parked
    sb := x.sb
    seq := x.seq
    longOps := []
    halted := false }

/-- A strand that takes an image. -/
theorem loadImage_spec {s : State} {g : Nat} {i : Image} (h0 : s.dev.fld R.STRAND_RESTORE_RESULT = 0) :
    (s.loadImage g i).dev.fld R.STRAND_RESTORE_RESULT = 0 ∧ (s.loadImage g i).dev.image g = some { i with restored := true } ∧
      (s.loadImage g i).dev.pm (g / 2) = i.pmode ∧ (s.loadImage g i).strand g = loaded i (s.strand g) ∧
      ∀ k, k ≠ g → (s.loadImage g i).strand k = s.strand k := by
  obtain ⟨m, hm⟩ := setInImage_eq (s.dev.setPm (g / 2) i.pmode) (loaded i (s.strand g)) false
  obtain ⟨e, he⟩ : ∃ e, ((s.dev.setPm (g / 2) i.pmode).setInImage (loaded i (s.strand g)) false).setImage g
    (some { i with restored := true }) = e := ⟨_, rfl⟩
  obtain ⟨z, hz⟩ : ∃ z, (if i.parked then e else e.setFld (corePwr (e.phys (g / 2))) 1) = z := ⟨_, rfl⟩
  have hl : s.loadImage g i = ({ s with dev := z } : State).setStrand g (loaded i (s.strand g)) := by
    rw [← hz, ← he]
    rfl
  have hb : bare z = bare e := by
    rw [← hz]
    split
    · rfl
    · exact bare_setFld _ _ _
  have hf : z.fld R.STRAND_RESTORE_RESULT = s.dev.fld R.STRAND_RESTORE_RESULT := by
    have hef : e.fld R.STRAND_RESTORE_RESULT = s.dev.fld R.STRAND_RESTORE_RESULT := by
      rw [← he, hm]
      rfl
    rw [← hz, ← hef]
    split
    · rfl
    · refine fld_setFld_reg _ _ _ _ (Nat.ne_of_lt ?_)
      exact Nat.lt_of_lt_of_le (show R.STRAND_RESTORE_RESULT.reg < R.CORE_PWR_STATE.reg by decide) (Nat.le_add_right _ _)
  have hei : e.image g = some { i with restored := true } := by
    rw [← he]
    exact smap_get_set_same (fun _ => none)
      ((s.dev.setPm (g / 2) i.pmode).setInImage (loaded i (s.strand g)) false).images g (some { i with restored := true })
  have hep : e.pm (g / 2) = i.pmode := by
    rw [← he, hm]
    exact smap_get_set_same _ _ _ _
  rw [hl]
  rw [setStrand_dev]
  refine ⟨hf.trans h0, (of_bare (·.image g) (fun _ => rfl) hb).trans hei, (of_bare (·.pm (g / 2)) (fun _ => rfl) hb).trans hep,
    strand_setStrand_same _ _ _, fun k hk => ?_⟩
  exact (strand_setStrand_other _ _ _ _ hk).trans (strand_dev s z k)

/-! ### The refusals in their order -/

section
variable {s : State} {v : Word}

theorem restoreRefused_elsewhere (h : (v.extractLsb' 9 3).toNat ≠ s.dev.self) : s.restoreRefused (getF v 0 12) = some 7 := by
  unfold State.restoreRefused
  dsimp only
  rw [(restore_id v).2]
  exact if_pos (bne_iff_ne.2 h)

theorem restoreRefused_unlocked (h : (v.extractLsb' 9 3).toNat = s.dev.self) (hl : s.dev.locked = false) :
    s.restoreRefused (getF v 0 12) = some 6 := by
  unfold State.restoreRefused
  dsimp only
  rw [(restore_id v).2, if_neg (by rw [h, bne_self_eq_false]; decide)]
  exact if_pos (by rw [hl]; rfl)

variable (h : (v.extractLsb' 9 3).toNat = s.dev.self) (hl : s.dev.locked = true)
include h hl

theorem restoreRefused_noImage (hi : s.dev.image (v.extractLsb' 0 9).toNat = none) : s.restoreRefused (getF v 0 12) = some 2 := by
  unfold State.restoreRefused
  dsimp only
  rw [(restore_id v).1, (restore_id v).2, h, hl, hi, if_neg (by rw [bne_self_eq_false]; decide), if_neg (by decide)]

variable {i : Image} (hi : s.dev.image (v.extractLsb' 0 9).toNat = some i) (hc : s.dev.coreThere ((v.extractLsb' 0 9).toNat / 2) = true)
include hi hc

theorem restoreRefused_held : s.restoreRefused (getF v 0 12) =
    if s.dev.fld R.RESUME_INFO_PATH != 1 && !i.withdrawn then some 5 else if i.restored then some 4 else none := by
  unfold State.restoreRefused
  dsimp only
  rw [(restore_id v).1, (restore_id v).2, h, hl, hi, if_neg (by rw [bne_self_eq_false]; decide), if_neg (by decide)]
  exact if_neg (by rw [hc]; simp)

theorem restoreRefused_path (hw : i.withdrawn = false) (hp : s.dev.fld R.RESUME_INFO_PATH ≠ 1) :
    s.restoreRefused (getF v 0 12) = some 5 := by
  rw [restoreRefused_held h hl hi hc, hw]
  exact if_pos (by rw [Bool.not_false, Bool.and_true, bne_iff_ne]; exact hp)

theorem restoreRefused_image (hp : s.dev.fld R.RESUME_INFO_PATH = 1 ∨ i.withdrawn = true) :
    s.restoreRefused (getF v 0 12) = if i.restored then some 4 else none := by
  rw [restoreRefused_held h hl hi hc, if_neg]
  rcases hp with hp | hp
  · rw [hp]
    simp
  · rw [hp]
    simp

end

/-- A field of one bit that is clear is no flag. -/
theorem flag_of_bit {d : Dev} (f : Field) (hw : f.width = 1) (h : (d.reg f.reg).getLsbD f.lo = false) : d.flag f = false := by
  have hg : d.fld f = (f.get (d.reg f.reg)) := rfl
  rw [Dev.flag, hg, Field.get, hw, getF_eq_extract]
  rw [bne_eq_false_iff_eq]
  rw [BitVec.getLsbD] at h
  rw [BitVec.extractLsb'_toNat, Nat.shiftRight_eq_div_pow]
  simpa [Nat.testBit_eq_decide_div_mod_eq] using h

theorem images_released (d : Dev) (v : Word) (hv : v.getLsbD 22 = true) :
    (d.resumeInfoWrite v).flag R.RESUME_INFO_IMAGES_HELD = false ∧
      ∀ k i, (d.resumeInfoWrite v).image k = some i → i.withdrawn = false := by
  obtain ⟨w, hw⟩ : ∃ w, d.writeReg R.RESUME_INFO_PATH.reg v = w := ⟨_, rfl⟩
  have he : d.resumeInfoWrite v = { w with
      images := SMap.filterMap (fun _ => none)
        (fun _ i => some (i.map fun x : Image => { x with withdrawn := false })) w.images } := by
    rw [← hw]
    exact if_pos ((bitOf_eq_getLsbD _ _).trans hv)
  rw [he]
  refine ⟨?_, fun k i hi => ?_⟩
  · change w.flag _ = false
    rw [← hw, writeReg_plain v (show regAt R.RESUME_INFO_PATH.reg = some _ from rfl) (by decide)]
    refine flag_of_bit _ rfl ?_
    rw [show R.RESUME_INFO_IMAGES_HELD.reg = R.RESUME_INFO_PATH.reg from rfl, reg_setReg_same]
    refine (writeFields_covered d.locked v (b := 22) (by decide) _ (by decide) (f := ⟨R.RESUME_INFO_IMAGES_HELD, .rw1c, 0, true, true⟩)
      (by decide) (by unfold covers; decide) _).trans ?_
    rw [taken, hv, Bool.not_true, Bool.and_false]
  · rcases smap_get_mem (fun _ => (none : Option Image)) (SMap.filterMap (fun _ => none)
      (fun _ i => some (i.map fun x : Image => { x with withdrawn := false })) w.images) k with hm | hn
    · obtain ⟨o, -, ho⟩ := smap_mem_filterMap _ _ hm
      rw [show SMap.get (fun _ => (none : Option Image)) (SMap.filterMap (fun _ => none)
        (fun _ i => some (i.map fun x : Image => { x with withdrawn := false })) w.images) k = some i from hi] at ho
      obtain ⟨x, -, rfl⟩ := Option.map_eq_some_iff.1 (Option.some.inj ho)
      rfl
    · exact absurd (hi.symm.trans hn) (by simp)

theorem blockInit_holds {s : State} {b : Nat} (hb : b < 2 ^ 26) (hp : s.dev.initPending = true)
    (hh : s.dev.homeOf (b * 2 ^ 14) = some s.dev.self) : MakesSome (.blockInit b) s fun e =>
      SMap.get (fun _ => false) e.initDone b = true ∧ e.dram = s.dev.dram ∧ e.regs = s.dev.regs := by
  have hm : Makes (.blockInit b) s _ := dev_makes (execBlockInit.eq_def ..) (decide_eq_true hb) rfl
  rw [hp, hh, beq_self_eq_true, Bool.and_self, Bool.true_and] at hm
  cases hd : SMap.get (fun _ => false) s.dev.initDone b with
  | true =>
    rw [hd] at hm
    exact ⟨_, hm, hd, rfl, rfl⟩
  | false =>
    rw [hd, Bool.not_false, if_pos rfl] at hm
    exact ⟨_, hm, smap_get_set_same (fun _ => false) s.dev.initDone b true, rfl, rfl⟩

theorem imagesAreRestoredOnce_hold : imagesAreRestoredOnce := by
  intro s req v hreq d g here fails go
  have refused {n : Nat} (hn : n < 16) (hgo : go) (h : s.restoreRefused (getF v 0 12) = some n) : fails n :=
    restoreWrite_fails hreq hn (restoreWrite_refused hgo h)
  refine ⟨fun hgo => ?_, fun hgo h => refused (by decide) hgo (restoreRefused_elsewhere h),
    fun hgo h hl => refused (by decide) hgo (restoreRefused_unlocked h hl),
    fun hgo h hl hi => refused (by decide) hgo (restoreRefused_noImage h hl hi),
    fun hgo h hl i hi => ⟨fun hw hc hp => refused (by decide) hgo (restoreRefused_path h hl hi hc hw hp), fun hp hc => ?_⟩,
    fun hv => ?_, fun b hb hp hh => blockInit_holds hb hp hh⟩
  · refine ⟨_, (execStrandRestore.eq_def ..).trans ((if_pos hreq).trans (congrArg Host.Outcome.next
      (show s.restoreWrite req v = { s with dev := restoreWritten s.dev v } from if_pos ?_))), ?_, ?_⟩
    · rw [bitOf_eq_getLsbD, Bool.eq_false_iff.2 hgo]
      rfl
    · exact of_bare (·.images) (fun _ => rfl) (bare_restoreWritten s.dev v)
    · exact of_bare (·.pmode) (fun _ => rfl) (bare_restoreWritten s.dev v)
  · have hr := restoreRefused_image h hl hi hc hp
    refine ⟨fun hre => refused (by decide) hgo (hr.trans (if_pos hre)), fun hre hpk hq => ?_, fun hre hpk => ?_⟩
    · refine restoreWrite_fails hreq (by decide) ((restoreWrite_taken hgo (hr.trans (if_neg (by rw [hre]; decide))) hi hc).trans (if_pos ?_))
      rw [show (s.strand (v.extractLsb' 0 9).toNat).parked = false from hpk, Bool.not_false, Bool.true_and]
      exact bne_iff_ne.2 hq
    · have ht := (restoreWrite_taken (req := req) hgo (hr.trans (if_neg (by rw [hre]; decide))) hi hc).trans (if_neg (by
        rcases hpk with hpk | hpk
        · rw [show (s.strand (v.extractLsb' 0 9).toNat).parked = true from hpk]
          simp
        · rw [show req = .strand (v.extractLsb' 0 9).toNat from hpk]
          simp))
      refine ⟨_, (execStrandRestore.eq_def ..).trans ((if_pos hreq).trans (congrArg Host.Outcome.next ht)), ?_⟩
      exact loadImage_spec (resulted_spec _ (by decide)).1
  · exact ⟨_, dev_makes (execImagesRelease.eq_def ..) hreq rfl, images_released s.dev v hv⟩

/-- Settles O38: each step of the drain's end follows its own guard, and a restore is refused by the first cause that applies. -/
theorem drainEndsAndImagesReturn : Obligations.DrainEndsAndImagesReturn := ⟨drainReportsAndStops_hold, imagesAreRestoredOnce_hold⟩

end Sys2Proof.Proofs
end

