-- ==== Sys2Proof/Proofs/Boot.lean ====
section
/-!
PROOFS. What a restart leaves of memory, of the caches and of the identity of its socket (R306 to R309, R498 to R503).
-/

namespace Sys2Proof.Proofs

open Sys2Proof Sys2Proof.Machine Sys2Proof.Laws

/-! ### The part of the device that a boot does not build -/

/-- The memories, the caches and what goes between them. -/
structure Stores where
  dram : SMap Byte
  peat : SMap Byte
  l2 : SMap CLine
  llc : SMap (Option LLine)
  tlb : SMap (List TlbEntry)
  mshrs : SMap (Option Mshr)
  net : List Msg

def stores (d : Dev) : Stores := ⟨d.dram, d.peat, d.l2, d.llc, d.tlb, d.mshrs, d.net⟩

/-- A device whose memories, caches and identity stand. -/
def calm (d e : Dev) : Prop := stores e = stores d ∧ ∀ off, off < 0x10 → e.reg off = d.reg off

theorem calm_refl (d : Dev) : calm d d := ⟨rfl, fun _ _ => rfl⟩

section
variable {d e : Dev}

theorem calm_trans {x : Dev} (h : calm d e) (k : calm e x) : calm d x :=
  ⟨k.1.trans h.1, fun off ho => (k.2 off ho).trans (h.2 off ho)⟩

theorem calm_of_stores {x : Dev} (h : calm d e) (hs : stores x = stores e) (hr : x.regs = e.regs) : calm d x :=
  ⟨hs.trans h.1, fun off ho => (congrArg (fun m => SMap.get coldValue m off) hr).trans (h.2 off ho)⟩

theorem calm_ite {p : Prop} [Decidable p] {a b : Dev} (ha : calm d a) (hb : calm d b) : calm d (if p then a else b) := by
  split
  · exact ha
  · exact hb

theorem calm_foldl {α : Type} (f : Dev → α → Dev) (hf : ∀ e a, calm d e → calm d (f e a)) (xs : List α) {e : Dev} (h : calm d e) :
    calm d (xs.foldl f e) := by
  induction xs generalizing e with
  | nil => exact h
  | cons a xs ih => exact ih (hf e a h)

theorem stores_of_quiet {x : Dev} (h : quiet x = quiet d) : stores x = stores d := of_quiet stores (fun _ => rfl) h

theorem calm_setReg {off : Nat} (v : Word) (ho : 0x10 ≤ off) (h : calm d e) : calm d (e.setReg off v) :=
  ⟨(stores_of_quiet rfl).trans h.1, fun k hk => (reg_setReg_other _ _ _ _ (by omega)).trans (h.2 k hk)⟩

theorem calm_setFld {f : Field} (x : Nat) (ho : 0x10 ≤ f.reg) (h : calm d e) : calm d (e.setFld f x) := calm_setReg _ ho h

theorem calm_setFld_at {f : Field} (k x : Nat) (ho : 0x10 ≤ f.reg) (h : calm d e) : calm d (e.setFld (f.at k) x) :=
  calm_setReg _ (Nat.le_trans ho (Nat.le_add_right _ _)) h

theorem calm_setChan (n : Nat) (c : Chan) (h : calm d e) : calm d (e.setChan n c) := calm_of_stores h rfl rfl

theorem calm_xplant (m : List Xplant) (h : calm d e) : calm d { e with xplant := m } := calm_of_stores h rfl rfl

theorem calm_log (r : Rep) (h : calm d e) : calm d (e.log r) :=
  ⟨(stores_of_quiet (quiet_log e r)).trans h.1, fun off ho => by
    refine (keepsRegs_log e r off ?_).trans (h.2 off ho)
    rw [reported, Bool.or_eq_false_iff]
    refine ⟨?_, Bool.and_eq_false_iff.2 (.inl (decide_eq_false (Nat.not_le.2 (Nat.lt_of_lt_of_le ho (by decide)))))⟩
    rw [Bool.eq_false_iff, Ne, List.contains_iff_mem]
    intro hm
    have hb : ∀ k ∈ [R.ERR_STATUS_FAULT.reg, R.ERR_HEAD_INDEX.reg, R.ERR_TAIL_INDEX.reg, R.ERR_EVENT_RECORD.reg, R.IR_DROP_INVALID.reg],
        0x10 ≤ k := by decide
    have := hb off hm
    omega⟩

/-! ### The steps of a boot -/

theorem calm_showIntakes (h : calm d e) : calm d ((List.range 8).foldl (fun d n => d.showIntake n) e) :=
  calm_foldl _ (fun _ _ h => calm_setFld_at _ _ (by decide) h) _ h

theorem calm_setFw (x : Fw) (h : calm d e) : calm d { e with fw := x } := calm_of_stores h rfl rfl

theorem calm_checkSchema (h : calm d e) : calm d e.checkSchema := by
  unfold Dev.checkSchema
  extract_lets x y fw z
  have h1 : calm d x := calm_setFld _ (by decide) h
  have h2 : calm d z := calm_ite (calm_setFw _ (calm_setFw _ h1)) h1
  clear_value z fw y x
  exact calm_ite (calm_setFld _ (by decide) h1) (calm_log _ (calm_setFld _ (by decide) h2))

theorem calm_applyClocks (cold : Bool) (h : calm d e) : calm d (e.applyClocks cold) :=
  have h1 := calm_setFld (f := R.CLK_STATUS_MESH) (Nat.min 48 (Nat.max 24 (leNat (e.cfgItem 0x0101)))) (by decide) h
  calm_ite (calm_setFld _ (by decide) h1) h1

theorem calm_showSelfTest (b : Bool) (h : calm d e) : calm d (e.showSelfTest b) :=
  calm_foldl _ (fun _ _ h => calm_setReg _ (Nat.le_trans (by decide) (Nat.le_add_right _ _)) h) _
    (calm_setFld _ (by decide) (calm_setReg _ (by decide) h))

theorem calm_setUnits (m : SMap ErrUnit) (h : calm d e) : calm d { e with units := m } := calm_of_stores h rfl rfl

theorem calm_setRoutes (m : SMap Bool) (h : calm d e) : calm d { e with routes := m } := calm_of_stores h rfl rfl

theorem calm_applyRepair (r : Repair) (h : calm d e) : calm d (e.applyRepair r) := by
  unfold Dev.applyRepair
  extract_lets on k u x lanes kport dir y
  have h1 : calm d x := calm_setUnits _ h
  have at_le {b : Nat} (hb : 0x10 ≤ b) (k : Nat) : 0x10 ≤ b + k := Nat.le_trans hb (Nat.le_add_right _ _)
  have hy : calm d y := calm_setFld _ (at_le (by decide) _) h1
  clear_value y x
  refine calm_ite h (calm_ite (calm_setFld _ (at_le (by decide) _) h1) (calm_ite (calm_setFld _ (at_le (by decide) _) h1) ?_))
  exact calm_ite (calm_setRoutes _ h1) (calm_ite (calm_setFld _ (at_le (by decide) _) h1)
    (calm_ite (calm_setFld_at _ _ (by decide) hy) h1))

theorem calm_applyRepairs (h : calm d e) : calm d e.applyRepairs :=
  calm_of_stores (calm_foldl (fun d r => Dev.applyRepair d r) (fun _ r h => calm_applyRepair r h) e.repairs h) rfl rfl

theorem calm_restartRetire (b c : Bool) (h : calm d e) : calm d (e.restartRetire b c) := by
  unfold Dev.restartRetire
  dsimp only
  obtain ⟨x, hx⟩ : ∃ x, (e.setFld R.MEM_IL_RET_STATE 0).setFld R.MEM_IL_RET_SLOT 0 = x := ⟨_, rfl⟩
  have h1 : calm d x := by
    rw [← hx]
    exact calm_setFld _ (by decide) (calm_setFld _ (by decide) h)
  rw [hx]
  exact calm_ite (calm_setFld _ (by decide) h) (calm_ite (calm_of_stores (e := x) h1 rfl rfl) h)

theorem calm_buildCores (bad : Nat) (h : calm d e) : calm d (e.buildCores bad) := by
  unfold Dev.buildCores
  dsimp only
  refine calm_setFld _ (by decide) (calm_setFld _ (by decide) (calm_setFld _ (by decide) (calm_foldl _ (fun _ _ h => ?_) _
    (calm_foldl _ (fun _ _ h => ?_) _ h))))
  · exact calm_setReg _ (Nat.le_trans (by decide) (Nat.le_add_right _ _)) h
  · exact calm_setFld_at _ _ (by decide) (calm_setReg _ (Nat.le_trans (by decide) (Nat.le_add_right _ _)) h)

/-- With no line in the LLC a slice's index moves without one. -/
theorem calm_moveIndex (i t : Nat) (hl : d.llc = []) (h : calm d e) : calm d (e.moveIndex i t) := by
  obtain ⟨x, hx⟩ : ∃ x, e.setFld (R.SLICE_MAP_MOVING.at (8 * i)) 1 = x := ⟨_, rfl⟩
  have h1 : calm d x := hx ▸ calm_setFld_at _ _ (by decide) h
  have hn : x.llcOfIndex i = [] := by
    unfold Dev.llcOfIndex
    rw [show x.llc = [] from (congrArg Stores.llc h1.1).trans hl]
    rfl
  unfold Dev.moveIndex
  dsimp only
  rw [hx, hn, List.foldl_nil]
  exact calm_setFld_at _ _ (by decide) (calm_setFld_at _ _ (by decide) h1)

theorem calm_buildSlices (hl : d.llc = []) (h : calm d e) : calm d e.buildSlices := by
  unfold Dev.buildSlices Dev.remapSlices
  dsimp only
  refine calm_foldl _ (fun e k h => ?_) _ (calm_foldl _ (fun _ _ h => calm_setReg _ (Nat.le_trans (by decide) (Nat.le_add_right _ _)) h) _ h)
  split
  · exact calm_ite h (calm_moveIndex _ _ hl h)
  · exact h

theorem calm_loadLockable {off : Nat} (v : Word) (ho : 0x10 ≤ off) (h : calm d e) : calm d (e.loadLockable off v) := by
  unfold Dev.loadLockable
  split
  · exact h
  · exact calm_setReg _ ho h

theorem calm_defaultMap (h : calm d e) : calm d e.defaultMap := by
  unfold Dev.defaultMap
  dsimp only
  have up {b : Nat} (hb : 0x10 ≤ b) (k : Nat) : 0x10 ≤ b + k := Nat.le_trans hb (Nat.le_add_right _ _)
  refine calm_foldl _ (fun e i h => ?_) _ (calm_setReg _ (by decide) (calm_foldl _ (fun _ _ h => calm_setReg _ (up (by decide) _) h) _
    (calm_setFld _ (by decide) (calm_setFld _ (by decide) (calm_setFld _ (by decide) h)))))
  have h1 := calm_setReg 0 (up (show 0x10 ≤ R.IOWIN_LIMIT_ADDR.reg by decide) (8 * i))
    (calm_setReg 0 (up (show 0x10 ≤ R.IOWIN_BASE_EN.reg by decide) (8 * i)) h)
  exact calm_ite (calm_setReg _ (up (by decide) _) (calm_setReg _ (up (by decide) _) h1))
    (calm_setReg _ (up (by decide) _) (calm_setReg _ (up (by decide) _) h1))

theorem mapRegs_above : ∀ off ∈ mapRegs, 0x10 ≤ off := by decide

theorem calm_mapRegs (m : SMap Word) (xs : List Nat) (hx : ∀ off ∈ xs, 0x10 ≤ off) (h : calm d e) :
    calm d (xs.foldl (fun d off => d.loadLockable off (SMap.get coldValue m off)) e) := by
  induction xs generalizing e with
  | nil => exact h
  | cons off xs ih =>
    exact ih (fun k hk => hx k (List.mem_cons_of_mem _ hk)) (calm_loadLockable _ (hx off List.mem_cons_self) h)

theorem calm_provisionalMap (h : calm d e) : calm d e.provisionalMap := by
  unfold Dev.provisionalMap
  split
  · exact calm_ite (calm_defaultMap h) (calm_mapRegs _ _ mapRegs_above h)
  · exact calm_defaultMap h

end

/-! ### The restart -/

/-- The device that a restart starts from: its registers restarted, its caches and units empty, its DRAM kept by a retained resume alone. -/
def emptied (d : Dev) (kind : Nat) : Dev :=
  let d := { d with regs := restartRegs (kind == 3) d.regs }
  ((if kind == 4 then d else d.loseDram).loseCaches.loseUnits).loseTelemetry

theorem emptied_stores (d : Dev) (kind : Nat) : stores (emptied d kind) = ⟨if kind == 4 then d.dram else [], d.peat, [], [], [], [], []⟩ := by
  unfold emptied
  cases kind == 4 <;> rfl

/-- The chain as a restart leaves it: a warm reset keeps the identity of the socket. -/
def chained (d : Dev) (kind : Nat) (p : PowerUpIn) : Dev :=
  if kind == 3 then d.setFld R.CHAIN_STATUS_COHERENT (2 ^ d.self)
  else
    let d := (d.setFld R.IDENT_SOCKET_ID p.socketId).setFld R.IDENT_CHAIN_HEAD (bnat p.head)
    let d := (d.setFld R.CHAIN_STATUS_PRESENT p.present.toNat).setFld R.CHAIN_STATUS_COHERENT p.coherent.toNat
    (d.setFld R.SE_STATUS_LINK_SECRET 0).setReg R.FRAME_NUMBER.reg (if decide (kind < 3) then 0 else p.startFrame)

theorem stores_setReg (d : Dev) (off : Nat) (v : Word) : stores (d.setReg off v) = stores d := rfl

theorem stores_setFld (d : Dev) (f : Field) (x : Nat) : stores (d.setFld f x) = stores d := rfl

theorem chained_stores (d : Dev) (kind : Nat) (p : PowerUpIn) : stores (chained d kind p) = stores d := by
  unfold chained
  split
  · exact stores_setFld _ _ _
  · dsimp only
    rw [stores_setReg, stores_setFld, stores_setFld, stores_setFld, stores_setFld, stores_setFld]

theorem chained_identity (d : Dev) {kind : Nat} (p : PowerUpIn) (hk : kind ≠ 3) :
    (p.socketId < 8 → (chained d kind p).self = p.socketId) ∧ (chained d kind p).frame = if kind < 3 then 0 else p.startFrame := by
  unfold chained
  rw [if_neg (by rw [beq_iff_eq]; exact hk)]
  dsimp only
  refine ⟨fun hs => ?_, (reg_setReg_same _ _ _).trans (by simp only [decide_eq_true_eq])⟩
  obtain ⟨x, hx⟩ : ∃ x, d.setFld R.IDENT_SOCKET_ID p.socketId = x := ⟨_, rfl⟩
  have h1 : x.fld R.IDENT_SOCKET_ID = p.socketId := hx ▸ fld_setFld_lt d (by decide) hs
  rw [hx]
  have h2 (y : Dev) (v : Word) : (y.setReg R.FRAME_NUMBER.reg v).fld R.IDENT_SOCKET_ID = y.fld R.IDENT_SOCKET_ID :=
    congrArg (Field.get _) (reg_setReg_other _ _ _ _ (by decide))
  refine (h2 _ _).trans ?_
  rw [fld_setFld_reg _ _ _ _ (by decide), fld_setFld_reg _ _ _ _ (by decide), fld_setFld_reg _ _ _ _ (by decide),
    fld_setFld_apart _ _ _ _ (by decide) (by decide), h1]

theorem stores_ite {p : Prop} [Decidable p] {a b : Dev} {s : Stores} (ha : stores a = s) (hb : stores b = s) :
    stores (if p then a else b) = s := by
  split
  · exact ha
  · exact hb

theorem stores_loseSystem (d : Dev) : stores d.loseSystem = stores d := rfl

theorem stores_endWithdrawal (d : Dev) (b : Bool) : stores (d.endWithdrawal b) = stores d := rfl

theorem restart_calm (d : Dev) (kind : Nat) (p : PowerUpIn) : ∃ x e, stores x = stores (emptied d kind) ∧
    calm (chained x kind p) e ∧ d.restart kind p = { e.setFld R.RESET_INFO_KIND kind with phase := .running } := by
  unfold Dev.restart
  extract_lets warm cold retained d1 d2 d3 d4 withdrawn d5 d6 d7 d8 d9 d10 d11 d12 d13 d14 d15 d16 d17 d18 d19 d20
  have h4 : stores d4 = stores d3 := stores_ite rfl (stores_loseSystem d3)
  have h6 : stores d6 = stores d3 := ((calm_showIntakes (calm_refl d5)).1.trans (stores_endWithdrawal d4 retained)).trans h4
  have h9 : calm (chained d6 kind p) d9 := calm_refl _
  have hl : (chained d6 kind p).llc = [] :=
    congrArg Stores.llc ((chained_stores d6 kind p).trans (h6.trans (emptied_stores d kind)))
  have h12 : calm (chained d6 kind p) d12 := calm_setFld _ (by decide) (calm_applyClocks cold (calm_checkSchema
    (calm_setFld _ (by decide) (calm_setFld _ (by decide) h9))))
  have h14 : calm (chained d6 kind p) d14 := calm_restartRetire cold retained (calm_applyRepairs (calm_ite h12 (calm_showSelfTest _ h12)))
  have h15 : calm (chained d6 kind p) d15 := calm_buildCores _ h14
  have h16 : calm (chained d6 kind p) d16 := calm_ite (calm_ite (calm_xplant [] h15) h14) (calm_buildSlices hl h15)
  have h17 : calm (chained d6 kind p) d17 := calm_ite h16 (calm_foldl _ (fun e n h => calm_setChan n _
    (calm_setFld_at (f := R.MC_STATUS_STATE) _ _ (by decide) h)) _ h16)
  have h18 : calm (chained d6 kind p) d18 := calm_provisionalMap h17
  have h19 : calm (chained d6 kind p) d19 := calm_ite h18 (calm_setReg _ (by decide) h18)
  have h20 : calm (chained d6 kind p) d20 := calm_ite h19 (calm_setReg _ (by decide) h19)
  exact ⟨d6, d20, h6, h20, rfl⟩

/-- A restart empties the caches, loses DRAM but on a retained resume, and takes its identity and frame from the power-up. -/
theorem restart_spec (d : Dev) (kind : Nat) (p : PowerUpIn) : ∃ e,
    d.restart kind p = { e.setFld R.RESET_INFO_KIND kind with phase := .running } ∧
    stores e = ⟨if kind == 4 then d.dram else [], d.peat, [], [], [], [], []⟩ ∧
    (kind ≠ 3 → (p.socketId < 8 → e.self = p.socketId) ∧ e.frame = if kind < 3 then 0 else p.startFrame) := by
  obtain ⟨x, e, hx, ⟨hs, hr⟩, he⟩ := restart_calm d kind p
  refine ⟨e, he, hs.trans ((chained_stores x kind p).trans (hx.trans (emptied_stores d kind))), fun hk => ?_⟩
  obtain ⟨h1, h2⟩ := chained_identity x p hk
  exact ⟨fun h => (congrArg (Field.get R.IDENT_SOCKET_ID) (hr _ (by decide))).trans (h1 h), (hr _ (by decide)).trans h2⟩

/-! ### The boots -/

/-- A device that runs after a restart of a kind. -/
structure Restarted (d : Dev) (kind : Nat) (p : PowerUpIn) (e : Dev) : Prop where
  runs : e.phase = .running
  ofKind : e.fld R.RESET_INFO_KIND = kind
  holds : stores e = ⟨if kind == 4 then d.dram else [], d.peat, [], [], [], [], []⟩
  named : kind ≠ 3 → p.socketId < 8 → e.self = p.socketId
  framed : kind ≠ 3 → e.frame = if kind < 3 then 0 else p.startFrame

theorem restarted (d : Dev) {kind : Nat} (hk : kind < 8) (p : PowerUpIn) : Restarted d kind p (d.restart kind p) := by
  obtain ⟨e, he, hs, hi⟩ := restart_spec d kind p
  rw [he]
  refine ⟨rfl, fld_setFld_lt e (f := R.RESET_INFO_KIND) (by decide) hk, (stores_setFld e R.RESET_INFO_KIND kind).trans hs, fun h3 h8 => ?_, fun h3 => ?_⟩
  · exact (fld_setFld_reg e R.RESET_INFO_KIND R.IDENT_SOCKET_ID kind (by decide)).trans ((hi h3).1 h8)
  · exact (reg_setFld_other e R.RESET_INFO_KIND kind _ (by decide)).trans (hi h3).2

theorem Restarted.setFld {d e : Dev} {kind : Nat} {p : PowerUpIn} (h : Restarted d kind p e) {f : Field} (x : Nat)
    (hk : f.reg ≠ 0 ∧ f.reg ≠ 8) (hr : f.reg ≠ R.RESET_INFO_KIND.reg ∨
      (f.lo + f.width ≤ 64 ∧ R.RESET_INFO_KIND.lo + R.RESET_INFO_KIND.width ≤ f.lo)) : Restarted d kind p (e.setFld f x) := by
  refine ⟨(of_bare (·.phase) (fun _ => rfl) (bare_setFld e f x)).trans h.runs, ?_, (stores_setFld e f x).trans h.holds,
    fun h3 h8 => (fld_setFld_reg e f _ x (Ne.symm hk.1)).trans (h.named h3 h8), fun h3 => (reg_setFld_other e f x _ (Ne.symm hk.2)).trans (h.framed h3)⟩
  refine Eq.trans ?_ h.ofKind
  rcases hr with hr | ⟨h1, h2⟩
  · exact fld_setFld_reg e f _ x (Ne.symm hr)
  · exact fld_setFld_apart e f _ x h1 (.inl h2)

theorem Restarted.setReg {d e : Dev} {kind : Nat} {p : PowerUpIn} (h : Restarted d kind p e) {off : Nat} (v : Word)
    (h0 : off ≠ 0) (h8 : off ≠ 8) (hr : off ≠ R.RESET_INFO_KIND.reg) : Restarted d kind p (e.setReg off v) :=
  have other {f : Field} (hf : f.reg ≠ off) : (e.setReg off v).fld f = e.fld f := congrArg f.get (reg_setReg_other _ _ _ _ hf)
  ⟨(of_bare (·.phase) (fun _ => rfl) (bare_setReg e off v)).trans h.runs, (other (Ne.symm hr)).trans h.ofKind,
    (stores_setReg e off v).trans h.holds, fun h3 hs => (other (Ne.symm h0)).trans (h.named h3 hs),
    fun h3 => (reg_setReg_other e off _ v (Ne.symm h8)).trans (h.framed h3)⟩

/-- Strand 0 of the boot core starts at H at a vector, and every other is parked at its Cold state. -/
theorem release_strands (s : State) (vec : Word) : ((s.release vec).dev.coreThere 0 = true → (s.release vec).strand 0 = { Strand.reset with
      pc := vec &&& ~~~3#64
      parked := false }) ∧ ∀ g, g ≠ 0 → (s.release vec).strand g = Strand.reset := by
  have hs : (s.release vec).strands = if s.dev.coreThere 0 then [(0, { Strand.reset with pc := align4 vec, parked := false })] else [] := rfl
  have hd : (s.release vec).dev = s.dev := rfl
  unfold State.strand
  rw [hs, hd]
  refine ⟨fun h => ?_, fun g hg => ?_⟩
  · rw [if_pos h, ← align4_eq_and]
    rfl
  · split
    · exact if_neg hg
    · rfl

theorem booted_release {s : State} {d : Dev} {kind : Nat} {p : PowerUpIn} {vec : Word} (h : Restarted d kind p s.dev) :
    booted (s.release vec) kind vec := by
  obtain ⟨h0, hg⟩ := release_strands s vec
  have hs := h.holds
  exact ⟨h.runs, h.ofKind, congrArg Stores.l2 hs, congrArg Stores.tlb hs, congrArg Stores.mshrs hs, congrArg Stores.net hs, h0, hg⟩

end Sys2Proof.Proofs
end

