-- ==== Sys2Proof/Proofs/Resets.lean ====
section
/-!
PROOFS. Resets by pin, by register and by the steward; power-up and resume (R306 to R311, R493, R498 to R502, R509, R535).
-/

namespace Sys2Proof.Proofs

open Sys2Proof Sys2Proof.Machine Sys2Proof.Laws

/-! ### A cold or warm reset -/

/-- The state that a reset starts from: a running socket is flushed first. -/
def flushed (s : State) : State := if s.dev.phase == .running then s.preFlush else s

/-- The device that a cold or warm reset leaves. -/
def resetDev (s : State) (kind : Nat) (p : PowerUpIn) : Dev :=
  let d := ((flushed s).dev.restart kind p).setFld R.RESET_INFO_FLUSHED (bnat (s.dev.phase == .running && kind != 0))
  if kind == 3 then d else d.setReg R.RESUME_INFO_PATH.reg 0

theorem coldOrWarm_eq (s : State) (kind : Nat) (p : PowerUpIn) :
    s.coldOrWarm kind p = ({ flushed s with dev := resetDev s kind p } : State).release ((resetDev s kind p).reg R.BOOT_VECTOR_ADDR.reg) := rfl

theorem resetDev_restarted (s : State) {kind : Nat} (hk : kind < 8) (p : PowerUpIn) :
    Restarted (flushed s).dev kind p (resetDev s kind p) := by
  have h := (restarted (flushed s).dev hk p).setFld (f := R.RESET_INFO_FLUSHED) (bnat (s.dev.phase == .running && kind != 0))
    (by decide) (.inr (by decide))
  unfold resetDev
  split
  · exact h
  · exact h.setReg 0 (by decide) (by decide) (by decide)

theorem resetDev_flushed (s : State) {kind : Nat} (p : PowerUpIn) : (resetDev s kind p).fld R.RESET_INFO_FLUSHED =
    if s.dev.phase = .running ∧ kind ≠ 0 then 1 else 0 := by
  have h1 (b : Bool) (d : Dev) : (d.setFld R.RESET_INFO_FLUSHED (bnat b)).fld R.RESET_INFO_FLUSHED = bnat b :=
    fld_setFld_lt d (by decide) (by cases b <;> decide)
  have h2 (d : Dev) : (d.setReg R.RESUME_INFO_PATH.reg 0).fld R.RESET_INFO_FLUSHED = d.fld R.RESET_INFO_FLUSHED :=
    congrArg (Field.get _) (reg_setReg_other _ _ _ _ (by decide))
  have h3 : (resetDev s kind p).fld R.RESET_INFO_FLUSHED = bnat (s.dev.phase == .running && kind != 0) := by
    unfold resetDev
    split
    · exact h1 _ _
    · exact (h2 _).trans (h1 _ _)
  rw [h3]
  by_cases hr : s.dev.phase = .running <;> by_cases hz : kind = 0 <;> simp [hr, hz, bnat]

/-- A reset of a kind below 4 boots at BOOT_VECTOR with DRAM lost. -/
theorem coldOrWarm_boots (s : State) {kind : Nat} (hk : kind < 4) (p : PowerUpIn) : let t := s.coldOrWarm kind p
    booted t kind (t.dev.reg R.BOOT_VECTOR_ADDR.reg) ∧ t.dev.dram = [] ∧ (kind < 3 → t.dev.frame = 0) ∧
      t.dev.fld R.RESET_INFO_FLUSHED = if s.dev.phase = .running ∧ kind ≠ 0 then 1 else 0 := by
  intro t
  have ht : t = _ := coldOrWarm_eq s kind p
  have h := resetDev_restarted s (show kind < 8 by omega) p
  obtain ⟨e, he⟩ : ∃ e, resetDev s kind p = e := ⟨_, rfl⟩
  have hf := resetDev_flushed s (kind := kind) p
  rw [he] at ht h hf
  have hd : t.dev = e := by
    rw [ht]
    rfl
  rw [hd]
  refine ⟨?_, (congrArg Stores.dram h.holds).trans (if_neg (by rw [beq_iff_eq]; omega)), fun h3 => ?_, hf⟩
  · rw [ht]
    exact booted_release (s := { flushed s with dev := e }) h
  · exact (h.framed (by omega)).trans (if_pos h3)

/-- What a reset does whose outcome is a boot of a kind. -/
theorem boots_of {s s' : State} {c : Instr} {kind : Nat} (hk : kind < 4) {p : PowerUpIn} (h : exec c s = .next (s'.coldOrWarm kind p))
    (hp : s'.dev.phase = s.dev.phase) : GivesSome c s fun t =>
      booted t kind (t.dev.reg R.BOOT_VECTOR_ADDR.reg) ∧ t.dev.dram = [] ∧ (kind < 3 → t.dev.frame = 0) ∧
      t.dev.fld R.RESET_INFO_FLUSHED = (if s.dev.phase = .running ∧ kind ≠ 0 then 1 else 0) :=
  ⟨_, h, hp ▸ coldOrWarm_boots s' hk p⟩

theorem coldResetPin_boots {s : State} (h1 : s.dev.phase ≠ .off) (h2 : s.dev.phase ≠ .drain) :
    exec .coldResetPin s = .next (s.coldOrWarm 1 s.dev.sameInputs) := by
  refine (execColdResetPin.eq_def ..).trans ?_
  cases h : s.dev.phase with
  | off => exact absurd h h1
  | drain => exact absurd h h2
  | booting => rfl
  | running => rfl
  | drained => rfl
  | stopped => rfl

theorem coldResetPin_ignored {s : State} (h : s.dev.phase = .off ∨ s.dev.phase = .drain) : exec .coldResetPin s = .next s := by
  refine (execColdResetPin.eq_def ..).trans ?_
  rcases h with h | h
  · rw [h]
  · rw [h]

theorem coldAlone_single {s : State} (h : s.dev.fld R.CHAIN_STATUS_PRESENT = 2 ^ s.dev.self) :
    s.coldAlone = s.coldOrWarm 2 s.dev.sameInputs := if_pos (beq_iff_eq.2 h)

theorem coldAlone_several {s : State} (h : s.dev.fld R.CHAIN_STATUS_PRESENT ≠ 2 ^ s.dev.self) :
    s.coldAlone.dev.phase = .booting ∧ s.coldAlone.dev.chain.enumerated = false ∧ s.coldAlone.strands = [] := by
  unfold State.coldAlone
  extract_lets d t
  rw [if_neg (by rw [beq_iff_eq]; exact h)]
  exact ⟨rfl, rfl, rfl⟩

/-! ### RESET_CTL -/

/-- The reset control register shows a result. -/
def showReset (s : State) (r : Nat) : State := { s with dev := s.dev.setFld R.RESET_CTL_RESULT r }

theorem showReset_stores (s : State) (r : Nat) : stores (showReset s r).dev = stores s.dev := stores_setFld s.dev R.RESET_CTL_RESULT r

theorem showReset_strand (s : State) (r k : Nat) : (showReset s r).strand k = s.strand k := strand_dev s _ k

theorem showReset_pm (s : State) (r l : Nat) : (showReset s r).dev.pm l = s.dev.pm l :=
  of_bare (·.pm l) (fun _ => rfl) (bare_setFld s.dev R.RESET_CTL_RESULT r)

theorem resetCtlWrite_denied {s : State} {req : Requester} (v : Word) (h : ¬∃ g, req = .strand g ∧ (s.strand g).pl = 2) :
    s.resetCtlWrite req v = showReset s 4 := by
  cases req with
  | other => rfl
  | strand g =>
    refine if_pos ?_
    change (!((s.strand g).pl == 2)) = true
    rw [Bool.not_eq_true', beq_eq_false_iff_ne]
    exact fun hp => h ⟨g, rfl, hp⟩

theorem keyed_passes {v : Word} {b : Bool} (hk : v.extractLsb' 16 8 = 0xC3#8) : ¬(b && !(getF v 16 8 == 0xC3)) = true := by
  rw [getF_eq_extract, hk, show ((0xC3#8).toNat == 0xC3) = true from rfl]
  simp

/-- Bits 12 to 14 of a write that asks for a strand reset alone. -/
theorem strandReset_bits {v : Word} (h : v.extractLsb' 12 3 = 1#3) : bitOf v 12 = true ∧ bitOf v 13 = false ∧ bitOf v 14 = false := by
  have hb (k : Nat) (hk : k < 3) : bitOf v (12 + k) = (1#3).getLsbD k := by
    rw [bitOf_eq_getLsbD, ← h, BitVec.getLsbD_extractLsb']
    simp [hk]
  exact ⟨hb 0 (by decide), hb 1 (by decide), hb 2 (by decide)⟩

section
variable {s : State} {g : Nat} {v : Word} (hp : (s.strand g).pl = 2)
include hp

/-- The strand at H passes the first check. -/
theorem atH_passes : ¬(!((s.strand g).pl == 2)) = true := by
  rw [hp]
  decide

theorem resetCtlWrite_unkeyed (hb : v.getLsbD 13 = true ∨ v.getLsbD 14 = true) (hk : v.extractLsb' 16 8 ≠ 0xC3#8) :
    s.resetCtlWrite (.strand g) v = showReset s 3 := by
  refine (if_neg (atH_passes hp)).trans (if_pos ?_)
  rw [bitOf_eq_getLsbD, bitOf_eq_getLsbD, getF_eq_extract, Bool.and_eq_true, Bool.or_eq_true, Bool.not_eq_true', beq_eq_false_iff_ne]
  exact ⟨hb, fun h => hk (BitVec.eq_of_toNat_eq h)⟩

theorem resetCtlWrite_cold (hk : v.extractLsb' 16 8 = 0xC3#8) (hb : v.getLsbD 14 = true) :
    s.resetCtlWrite (.strand g) v = s.coldAlone :=
  (if_neg (atH_passes hp)).trans ((if_neg (keyed_passes hk)).trans (if_pos ((bitOf_eq_getLsbD _ _).trans hb)))

theorem resetCtlWrite_warm (hk : v.extractLsb' 16 8 = 0xC3#8) (h14 : v.getLsbD 14 = false) (hb : v.getLsbD 13 = true) :
    s.resetCtlWrite (.strand g) v = s.warm :=
  (if_neg (atH_passes hp)).trans ((if_neg (keyed_passes hk)).trans ((if_neg (by rw [bitOf_eq_getLsbD, h14]; decide)).trans
    (if_pos ((bitOf_eq_getLsbD _ _).trans hb))))

theorem resetCtlWrite_strand (h : v.extractLsb' 12 3 = 1#3) {r : Nat} (hr : s.strandResetResult (getF v 0 12) = r) :
    s.resetCtlWrite (.strand g) v = if r = 0 then (showReset s 0).restartStrand (getF v 0 9) else showReset s r := by
  obtain ⟨h12, h13, h14⟩ := strandReset_bits h
  refine (if_neg (atH_passes hp)).trans ((if_neg (by rw [h13, h14]; simp)).trans ((if_neg (by rw [h14]; decide)).trans
    ((if_neg (by rw [h13]; decide)).trans ((if_pos h12).trans ?_))))
  split
  · next h0 =>
    rw [if_pos (hr.symm.trans h0)]
    rfl
  · next h0 =>
    rw [if_neg (fun hz => h0 (hr.trans hz)), hr]
    rfl

end

theorem strandResetResult_eq (s : State) (v : Word) : s.strandResetResult (getF v 0 12) =
    if (v.extractLsb' 9 3).toNat ≠ s.dev.self ∨ s.dev.coreThere ((v.extractLsb' 0 9).toNat / 2) = false then 1
    else if (v.extractLsb' 0 9).toNat % 2 = 1 ∧ (s.dev.pm ((v.extractLsb' 0 9).toNat / 2)).active = true then 2 else 0 := by
  have hodd : getF v 0 12 % 2 = (v.extractLsb' 0 9).toNat % 2 := by
    rw [← (restore_id v).1]
    omega
  unfold State.strandResetResult
  rw [(restore_id v).1, (restore_id v).2, hodd]
  simp only [Bool.or_eq_true, bne_iff_ne, Bool.not_eq_true', Bool.and_eq_true, beq_iff_eq]

/-! ### The reset of a strand -/

/-- A strand at its Cold state, at a vector, that keeps what is not the strand's own. -/
def coldAt (x : Strand) (pc : Word) : Strand :=
  { Strand.reset with
    pc := pc
    sb := x.sb
    seq := x.seq
    halted := x.halted
    parked := true }

/-- A device that a strand reset has counted: memory, the caches, the modes and every register but the counter's stand. -/
structure CountedReset (d e : Dev) : Prop where
  holds : stores e = stores d
  pm : ∀ l, e.pm l = d.pm l
  reg : ∀ off, off ≠ R.RESET_INFO_STRAND_RESETS.reg → e.reg off = d.reg off

theorem counted_addSat (d : Dev) : CountedReset d (d.addSat R.RESET_INFO_STRAND_RESETS 1) :=
  ⟨stores_of_quiet (quiet_addSat d R.RESET_INFO_STRAND_RESETS 1),
    fun l => of_bare (·.pm l) (fun _ => rfl) (bare_addSat d R.RESET_INFO_STRAND_RESETS 1), fun off ho => reg_setReg_other d _ off _ ho⟩

theorem CountedReset.drop {d e : Dev} (h : CountedReset d e) (a : List (Nat × TinvOp)) (b : SMap Port) :
    CountedReset d { e with tinvs := a, ports := b } := ⟨h.holds, h.pm, h.reg⟩

theorem restartStrand_eq {s : State} {g : Nat} (hs : (s.strand g).sealedB = false) : ∃ e, CountedReset s.dev e ∧ s.restartStrand g =
    (({ s.resetStrand g with dev := e } : State).setStrand g (coldAt (s.strand g) (align4 (e.reg R.STRAND_VECTOR_ADDR.reg)))).wake g := by
  have hsame : (s.resetStrand g).strand g = { Strand.reset with
      sb := (s.strand g).sb
      seq := (s.strand g).seq } := strand_setStrand_same _ _ _
  unfold State.restartStrand
  extract_lets x s1 s2 d d' s3 s4 s5
  have h2 : s2 = s.resetStrand g := congrArg (fun s => State.resetStrand s g) (if_neg (by rw [hs]; decide))
  clear_value s2 s1
  have hdev : s2.dev = s.dev := (congrArg State.dev h2).trans (setStrand_dev _ _ _)
  have hc : CountedReset s2.dev d := counted_addSat s2.dev
  clear_value d
  have hd : CountedReset s.dev d := hdev ▸ hc
  have hd' : CountedReset s.dev d' := hd.drop _ _
  clear_value d'
  have h4 : s4 = { Strand.reset with
      sb := (s.strand g).sb
      seq := (s.strand g).seq } := (strand_dev s2 d' g).trans ((congrArg (fun s => State.strand s g) h2).trans hsame)
  refine ⟨d', hd', congrArg (fun s => State.wake s g) ?_⟩
  have h3 : s3 = { s.resetStrand g with dev := d' } := congrArg (fun s => ({ s with dev := d' } : State)) h2
  have h5 : s5 = s3.setStrand g { s4 with
      pc := align4 (d'.reg R.STRAND_VECTOR_ADDR.reg)
      halted := (s.strand g).halted } := rfl
  rw [h5, h3, h4]
  rfl

/-- A parked strand that no mode holds is woken: its core runs. -/
theorem wake_unheld {s : State} {g : Nat} (hp : (s.strand g).parked = true) (hw : g % 2 = 1 → (s.dev.pm (g / 2)).holdsWake = false) :
    ∃ e, stores e = stores s.dev ∧ (∀ off, off < R.CORE_PWR_STATE.reg → e.reg off = s.dev.reg off) ∧
      s.wake g = { s.setStrand g { s.strand g with parked := false } with dev := e } := by
  have hn : ¬(g % 2 == 1 && (s.dev.pm (g / 2)).holdsWake) = true := by
    rw [Bool.and_eq_true, beq_iff_eq]
    exact fun h => Bool.false_ne_true ((hw h.1).symm.trans h.2)
  have above (f : Field) (k x : Nat) (d : Dev) (hf : R.CORE_PWR_STATE.reg ≤ f.reg) (off : Nat) (ho : off < R.CORE_PWR_STATE.reg) :
      (d.setFld (f.at k) x).reg off = d.reg off :=
    reg_setFld_other d (f.at k) x off (Nat.ne_of_lt (Nat.lt_of_lt_of_le ho (Nat.le_trans hf (Nat.le_add_right _ _))))
  unfold State.wake
  extract_lets x p c s1 d
  rw [if_neg hn, if_neg (show ¬(!x.parked) = true by rw [show x.parked = true from hp]; decide)]
  obtain ⟨e, he⟩ : ∃ e, d.setFld (corePwr c) 1 = e := ⟨_, rfl⟩
  have hs : stores e = stores s.dev := he ▸ stores_setFld d _ _
  have hr : ∀ off, off < R.CORE_PWR_STATE.reg → e.reg off = s.dev.reg off := he ▸ above R.CORE_PWR_STATE (8 * c) 1 d (Nat.le_refl _)
  rw [he]
  split
  · refine ⟨e.addSat (R.CORE_PWR_WAKES.at (8 * c)) 1, (stores_of_quiet (quiet_addSat e _ 1)).trans hs, fun off ho => ?_, rfl⟩
    refine (reg_setReg_other e _ off _ (Nat.ne_of_lt (Nat.lt_of_lt_of_le ho ?_))).trans (hr off ho)
    exact Nat.le_trans (show R.CORE_PWR_STATE.reg ≤ R.CORE_PWR_WAKES.reg by decide) (Nat.le_add_right _ _)
  · exact ⟨e, hs, hr, rfl⟩

/-- What a strand reset leaves: the strand restarts, RESULT reads 0, memory and every other strand stand. -/
theorem restartStrand_spec {s : State} {g : Nat} (hs : (s.strand g).sealedB = false) (hr : s.dev.fld R.RESET_CTL_RESULT = 0)
    (hw : g % 2 = 1 → (s.dev.pm (g / 2)).holdsWake = false) : let t := s.restartStrand g
    t.dev.fld R.RESET_CTL_RESULT = 0 ∧ t.dev.dram = s.dev.dram ∧ t.dev.peat = s.dev.peat ∧ t.dev.l2 = s.dev.l2 ∧
      (∀ k, k ≠ g → t.strand k = s.strand k) ∧
      t.strand g = { coldAt (s.strand g) (t.dev.reg R.STRAND_VECTOR_ADDR.reg &&& ~~~3#64) with parked := false } := by
  intro t
  obtain ⟨e, he, ht⟩ := restartStrand_eq hs
  obtain ⟨s1, h1⟩ : ∃ s1, ({ s.resetStrand g with dev := e } : State).setStrand g
    (coldAt (s.strand g) (align4 (e.reg R.STRAND_VECTOR_ADDR.reg))) = s1 := ⟨_, rfl⟩
  have hg : s1.strand g = coldAt (s.strand g) (align4 (e.reg R.STRAND_VECTOR_ADDR.reg)) := h1 ▸ strand_setStrand_same _ _ _
  have hdev : s1.dev = e := h1 ▸ setStrand_dev _ _ _
  have hk : ∀ k, k ≠ g → s1.strand k = s.strand k := fun k hk => by
    rw [← h1, strand_setStrand_other _ _ _ _ hk]
    exact strand_setStrand_other _ _ _ _ hk
  obtain ⟨z, hz, hzr, hwk⟩ := wake_unheld (s := s1) (g := g) (by rw [hg]; rfl) (fun h => by rw [hdev, he.pm]; exact hw h)
  have htz : t = { s1.setStrand g { s1.strand g with parked := false } with dev := z } := by
    rw [← hwk, ← h1]
    exact ht
  have hst : stores z = stores s.dev := hz.trans ((congrArg stores hdev).trans he.holds)
  have hzreg {off : Nat} (ho : off < R.CORE_PWR_STATE.reg) (hn : off ≠ R.RESET_INFO_STRAND_RESETS.reg) : z.reg off = s.dev.reg off :=
    (hzr off ho).trans ((congrArg (fun d => Dev.reg d off) hdev).trans (he.reg off hn))
  rw [htz]
  refine ⟨(congrArg (Field.get _) (hzreg (by decide) (by decide))).trans hr, congrArg Stores.dram hst, congrArg Stores.peat hst,
    congrArg Stores.l2 hst, fun k hk' => (strand_setStrand_other _ _ _ _ hk').trans (hk k hk'), ?_⟩
  refine (strand_setStrand_same _ _ _).trans ?_
  rw [hg, align4_eq_and]
  rw [show z.reg R.STRAND_VECTOR_ADDR.reg = e.reg R.STRAND_VECTOR_ADDR.reg from
    (hzreg (by decide) (by decide)).trans (he.reg _ (by decide)).symm]

/-- The accepted strand reset of RESET_CTL. -/
theorem strandReset_spec {s : State} {g : Nat} (hs : (s.strand g).sealedB = false)
    (hw : g % 2 = 1 → (s.dev.pm (g / 2)).holdsWake = false) : let t := (showReset s 0).restartStrand g
    t.dev.fld R.RESET_CTL_RESULT = 0 ∧ t.dev.dram = s.dev.dram ∧ t.dev.peat = s.dev.peat ∧ t.dev.l2 = s.dev.l2 ∧
      (∀ k, k ≠ g → t.strand k = s.strand k) ∧
      t.strand g = { coldAt (s.strand g) (t.dev.reg R.STRAND_VECTOR_ADDR.reg &&& ~~~3#64) with parked := false } := by
  intro t
  have hst := showReset_stores s 0
  obtain ⟨h1, h2, h3, h4, h5, h6⟩ := restartStrand_spec (s := showReset s 0) (g := g) ((showReset_strand s 0 g).symm ▸ hs)
    (fld_setFld_lt s.dev (by decide) (by decide)) (fun ho => (showReset_pm s 0 _).symm ▸ hw ho)
  refine ⟨h1, h2.trans (congrArg Stores.dram hst), h3.trans (congrArg Stores.peat hst), h4.trans (congrArg Stores.l2 hst),
    fun k hk => (h5 k hk).trans (showReset_strand s 0 k), ?_⟩
  rw [showReset_strand s 0 g] at h6
  exact h6

/-! ### The steward's RESET -/

/-- A management command that reaches the steward directly and is not kept from it by a boot. -/
theorem manage_mctp {d : Dev} (h : d.portAnswers = true) (hb : d.phase ≠ .booting) (code : Nat) (f : Dev → Reply) :
    d.manage .mctp code f = { (f d).dev with
      fw := { (f d).dev.fw with
        response := (f d).resp
        result := (f d).status } } := by
  unfold Dev.manage
  rw [if_neg (by rw [show (Channel.mctp == Channel.pfMailbox) = false from rfl, Bool.false_and]; exact Bool.false_ne_true)]
  dsimp only
  rw [if_pos h, if_neg]
  rw [show (d.phase == .booting) = false from beq_eq_false_iff_ne.2 hb, Bool.false_and]
  decide

section
variable {s : State} (ha : s.dev.portAnswers = true) (hb : s.dev.phase ≠ .booting) (hs : s.dev.phase ≠ .stopped)
include ha hb hs

theorem reset_serves {kind : Nat} (hk : kind < 2) : ∃ e, e.phase = s.dev.phase ∧ exec (.reset .mctp kind 0xC3) s =
    .next (if kind == 0 then ({ s with dev := e } : State).coldOrWarm 2 e.sameInputs else ({ s with dev := e } : State).warm) := by
  obtain ⟨m, hm⟩ : ∃ m, s.dev.manage .mctp 0x30 (fun d =>
    if 0xC3 != 0xC3 then d.refuse stDenied
    else if 2 ≤ kind then d.refuse stBadCommand
    else ({ d with phase := .stopped } : Dev).done) = m := ⟨_, rfl⟩
  have hp : m.phase = .stopped := by
    rw [← hm, manage_mctp ha hb]
    dsimp only
    rw [if_neg (by decide), if_neg (by omega)]
    rfl
  refine ⟨{ m with phase := s.dev.phase }, rfl, (execReset.eq_def ..).trans ?_⟩
  dsimp only
  rw [hm, if_pos (by rw [hp, Bool.and_eq_true, bne_iff_ne]; exact ⟨rfl, hs⟩)]

theorem reset_denied {kind key : Nat} (hk : key ≠ 0xC3) : GivesSome (.reset .mctp kind key) s fun t =>
    t.dev.fw.result = 8 ∧ t.strands = s.strands ∧ t.dev.phase = s.dev.phase ∧ t.dev.regs = s.dev.regs := by
  have hm : s.dev.manage .mctp 0x30 (fun d =>
    if key != 0xC3 then d.refuse stDenied
    else if 2 ≤ kind then d.refuse stBadCommand
    else ({ d with phase := .stopped } : Dev).done) = { s.dev with
      fw := { s.dev.fw with
        response := []
        result := stDenied } } := by
    rw [manage_mctp ha hb]
    dsimp only
    rw [if_pos (bne_iff_ne.2 hk)]
    rfl
  refine ⟨{ s with dev := { s.dev with
      fw := { s.dev.fw with
        response := []
        result := stDenied } } }, (execReset.eq_def ..).trans ?_, rfl, rfl, rfl, rfl⟩
  dsimp only
  rw [hm, if_neg]
  rw [Bool.and_eq_true, beq_iff_eq]
  exact fun h => hs h.1

end

/-- What each command that writes RESET_CTL runs. -/
theorem resetCtl_runs {req : Requester} {v : Word} (h : reqOk req = true) {s : State} {P : Instr → Prop}
    (hP : ∀ c, exec c s = .next (s.resetCtlWrite req v) → P c) :
    P (.coldReset req v) ∧ P (.warmReset req v) ∧ P (.strandReset req v) :=
  ⟨hP _ ((execColdReset.eq_def ..).trans (if_pos h)), hP _ ((execWarmReset.eq_def ..).trans (if_pos h)),
    hP _ ((execStrandReset.eq_def ..).trans (if_pos h))⟩

theorem resets_hold : resets := by
  intro s d boots
  refine ⟨coldResetPin_ignored, fun h1 h2 => boots_of (by decide) (coldResetPin_boots h1 h2) rfl, fun req v hreq => ?_,
    fun ha hb hs => ⟨?_, ?_, fun kind key hk => reset_denied ha hb hs hk⟩⟩
  · intro atH keyed every
    have write (c : Instr) (P : State → Prop) (hc : exec c s = .next (s.resetCtlWrite req v)) {t : State}
        (ht : s.resetCtlWrite req v = t) (hP : P t) : GivesSome c s P := ⟨t, hc.trans (congrArg _ ht), hP⟩
    have hcold : exec (.coldReset req v) s = .next (s.resetCtlWrite req v) := (execColdReset.eq_def ..).trans (if_pos hreq)
    have hwarm : exec (.warmReset req v) s = .next (s.resetCtlWrite req v) := (execWarmReset.eq_def ..).trans (if_pos hreq)
    have hstrand : exec (.strandReset req v) s = .next (s.resetCtlWrite req v) := (execStrandReset.eq_def ..).trans (if_pos hreq)
    refine ⟨fun hn => ?_, ?_, ?_, ?_, ?_, ?_⟩
    · exact resetCtl_runs hreq fun c hc => hc.trans (congrArg _ (resetCtlWrite_denied v hn))
    · rintro ⟨g, rfl, hp⟩ hb hk
      exact resetCtl_runs hreq fun c hc => hc.trans (congrArg _ (resetCtlWrite_unkeyed hp hb hk))
    · rintro ⟨g, rfl, hp⟩ hk hb h1
      exact boots_of (by decide) (hcold.trans (congrArg _ ((resetCtlWrite_cold hp hk hb).trans (coldAlone_single h1)))) rfl
    · rintro ⟨g, rfl, hp⟩ hk hb h1
      exact write _ _ hcold (resetCtlWrite_cold hp hk hb) (coldAlone_several h1)
    · rintro ⟨g, rfl, hp⟩ hk h14 hb
      exact boots_of (by decide) (hwarm.trans (congrArg _ (resetCtlWrite_warm hp hk h14 hb))) rfl
    · rintro ⟨g', rfl, hp⟩ hbits g there p
      have hr := strandResetResult_eq s v
      refine ⟨fun hn => ?_, fun ht hodd hact => ?_, fun ht hodd hsl => ?_⟩
      · refine hstrand.trans (congrArg _ ((resetCtlWrite_strand hp hbits (hr.trans (if_pos ?_))).trans (if_neg (by decide))))
        by_cases hself : (v.extractLsb' 9 3).toNat = s.dev.self
        · exact .inr (Bool.eq_false_iff.2 fun hc => hn ⟨hself, hc⟩)
        · exact .inl hself
      · refine hstrand.trans (congrArg _ ((resetCtlWrite_strand hp hbits (hr.trans ((if_neg ?_).trans (if_pos ⟨hodd, hact⟩)))).trans
          (if_neg (by decide))))
        obtain ⟨h1, h2⟩ := ht
        exact not_or.2 ⟨not_not.2 h1, fun hc => Bool.false_ne_true (hc.symm.trans h2)⟩
      · obtain ⟨h1, h2⟩ := ht
        have hw := resetCtlWrite_strand hp hbits (hr.trans ((if_neg (not_or.2 ⟨not_not.2 h1,
          fun hc => Bool.false_ne_true (hc.symm.trans h2)⟩)).trans (if_neg fun ho => Bool.false_ne_true ((hodd ho.1).1.symm.trans ho.2))))
        rw [if_pos rfl, getF_eq_extract] at hw
        exact write _ _ hstrand hw (strandReset_spec hsl fun ho => (hodd ho).2)
  · obtain ⟨e, he, hx⟩ := reset_serves ha hb hs (kind := 0) (by decide)
    exact boots_of (by decide) (hx.trans (congrArg _ (if_pos rfl))) he
  · obtain ⟨e, he, hx⟩ := reset_serves ha hb hs (kind := 1) (by decide)
    exact boots_of (by decide) (hx.trans (congrArg _ (if_neg (by decide)))) he

/-! ### Power-up and resume -/

theorem Restarted.setReports {d e : Dev} {kind : Nat} {p : PowerUpIn} (h : Restarted d kind p e) (m : SMap Report) :
    Restarted d kind p { e with reports := m } := ⟨h.runs, h.ofKind, h.holds, h.named, h.framed⟩

/-- The path that a resume shows. -/
theorem path_showResume (d : Dev) (retained valid torn : Bool) (p : PowerUpIn) :
    (d.showResume retained valid torn p).fld R.RESUME_INFO_PATH = if retained then 1 else 2 := by
  unfold Dev.showResume
  extract_lets held
  clear_value held
  refine (congrArg (Field.get _) (reg_setReg_same d _ _)).trans ?_
  change (word _).toNat / 2 ^ 0 % 2 ^ 2 = _
  rw [BitVec.toNat_ofNat]
  cases retained
  · change (2 + 4 * bnat valid + 8 * bnat torn + 16 * bnat false + 32 * bnat p.mismatch + 64 * p.canaryOk.toNat + 2 ^ 22 * bnat held
      + 2 ^ 23 * (d.drainSeq % 2)) % 2 ^ 64 / 2 ^ 0 % 2 ^ 2 = 2
    omega
  · change (1 + 4 * bnat valid + 8 * bnat torn + 16 * bnat true + 32 * bnat p.mismatch + 64 * p.canaryOk.toNat + 2 ^ 22 * bnat held
      + 2 ^ 23 * (d.drainSeq % 2)) % 2 ^ 64 / 2 ^ 0 % 2 ^ 2 = 1
    omega

/-- A resume boots at RESUME_VECTOR, retained or not. -/
theorem resume_spec (s : State) (p : PowerUpIn) : ∃ e, s.resume p = ({ s with dev := e } : State).release (e.reg R.RESUME_VECTOR_ADDR.reg) ∧
    Restarted s.dev (if s.dev.mayRetain p then 4 else 5) p e ∧ e.fld R.RESUME_INFO_PATH = if s.dev.mayRetain p then 1 else 2 := by
  unfold State.resume
  extract_lets d r retained valid torn d1 d2 d3 d4 d5
  have h1 : Restarted s.dev (if s.dev.mayRetain p then 4 else 5) p d1 := restarted s.dev (by split <;> decide) p
  have hf : d2.fld R.RESUME_INFO_PATH = if s.dev.mayRetain p then 1 else 2 := path_showResume d1 retained valid torn p
  have h2 : Restarted s.dev (if s.dev.mayRetain p then 4 else 5) p d2 := h1.setReg _ (by decide) (by decide) (by decide)
  clear_value d2
  have h3 : Restarted s.dev (if s.dev.mayRetain p then 4 else 5) p d3 := h2.setFld _ (by decide) (.inl (by decide))
  have hf3 : d3.fld R.RESUME_INFO_PATH = d2.fld R.RESUME_INFO_PATH := fld_setFld_reg d2 R.CUSHION_CTL_RETAIN_ARM _ _ (by decide)
  clear_value d3
  have h4 : Restarted s.dev (if s.dev.mayRetain p then 4 else 5) p d4 ∧ d4.fld R.RESUME_INFO_PATH = d3.fld R.RESUME_INFO_PATH := by
    rcases Bool.eq_false_or_eq_true (valid || torn) with hv | hv
    · rw [show d4 = d3.setReg R.EPOCH_CLOSED_EPOCH.reg r.lastClosed from if_pos hv]
      exact ⟨h3.setReg _ (by decide) (by decide) (by decide), congrArg (Field.get _) (reg_setReg_other d3 _ _ _ (by decide))⟩
    · rw [show d4 = d3 from if_neg (by rw [hv]; exact Bool.false_ne_true)]
      exact ⟨h3, rfl⟩
  clear_value d4
  have h5 : Restarted s.dev (if s.dev.mayRetain p then 4 else 5) p d5 ∧ d5.fld R.RESUME_INFO_PATH = d4.fld R.RESUME_INFO_PATH := by
    rcases Bool.eq_false_or_eq_true valid with hv | hv
    · rw [show d5 = _ from if_pos hv]
      exact ⟨h4.1.setReports _, rfl⟩
    · rw [show d5 = d4 from if_neg (by rw [hv]; exact Bool.false_ne_true)]
      exact ⟨h4.1, rfl⟩
  clear_value d5
  exact ⟨d5, rfl, h5.1, h5.2.trans (h4.2.trans (hf3.trans hf))⟩

theorem goodStart_id {d : Dev} {p : PowerUpIn} (h : goodStart d p) : p.socketId < 8 := by
  obtain ⟨-, -, -, -, -, hid, -, -, -⟩ := h
  exact hid

theorem powerOn_good {s : State} {p : PowerUpIn} (h : goodStart s.dev p) : s.powerOn p = s.startPath p := by
  obtain ⟨h1, h2, h3, h4, h5, h6, h7, h8, h9⟩ := h
  have ht : s.dev.tearDrain = s.dev := by
    unfold Dev.tearDrain
    rw [h9]
  unfold State.powerOn
  rw [ht]
  dsimp only
  rw [if_neg (by rw [h1, h2]; decide), if_neg (show ¬s.dev.badStart = true by rw [h8]; decide), if_neg, if_neg, if_pos h7]
  · rw [Bool.or_eq_true, beq_iff_eq, decide_eq_true_iff, not_or]
    exact ⟨h5, by omega⟩
  · rw [h3, Bool.not_true, Bool.false_or, beq_iff_eq]
    exact h4

/-- What both ways of resuming share. -/
theorem resume_path {s s' : State} {c : Instr} {p : PowerUpIn} (hx : p.cold = false → exec c s = .next (s'.startPath p)) (hp : p.socketId < 8)
    (hst : stores s'.dev = stores s.dev) :
    (p.cold = false → s'.dev.mayRetain p = true → GivesSome c s fun t =>
      booted t 4 (t.dev.reg R.RESUME_VECTOR_ADDR.reg) ∧ t.dev.frame = p.startFrame ∧ t.dev.fld R.RESUME_INFO_PATH = 1 ∧
      t.dev.dram = s.dev.dram ∧ t.dev.peat = s.dev.peat ∧ t.dev.self = p.socketId) ∧
    (p.cold = false → s'.dev.mayRetain p = false → GivesSome c s fun t =>
      booted t 5 (t.dev.reg R.RESUME_VECTOR_ADDR.reg) ∧ t.dev.frame = p.startFrame ∧ t.dev.fld R.RESUME_INFO_PATH = 2 ∧
      t.dev.dram = [] ∧ t.dev.peat = s.dev.peat ∧ t.dev.self = p.socketId) := by
  obtain ⟨e, he, hr, hpath⟩ := resume_spec s' p
  have hstart (hc : p.cold = false) : exec c s = .next (({ s' with dev := e } : State).release (e.reg R.RESUME_VECTOR_ADDR.reg)) :=
    (hx hc).trans (congrArg _ ((if_neg (by rw [hc]; exact Bool.false_ne_true)).trans he))
  refine ⟨fun hc hm => ?_, fun hc hm => ?_⟩
  · rw [hm, if_pos rfl] at hr hpath
    refine ⟨_, hstart hc, booted_release (s := { s' with dev := e }) hr, (hr.framed (by decide)).trans (if_neg (by decide)), hpath,
      (congrArg Stores.dram hr.holds).trans (congrArg Stores.dram hst), (congrArg Stores.peat hr.holds).trans (congrArg Stores.peat hst),
      hr.named (by decide) hp⟩
  · rw [hm, if_neg Bool.false_ne_true] at hr hpath
    refine ⟨_, hstart hc, booted_release (s := { s' with dev := e }) hr, (hr.framed (by decide)).trans (if_neg (by decide)), hpath,
      congrArg Stores.dram hr.holds, (congrArg Stores.peat hr.holds).trans (congrArg Stores.peat hst), hr.named (by decide) hp⟩

theorem powerUp_on {s : State} {p : PowerUpIn} (h : s.dev.phase = .off) (hf : s.dev.flag R.CUSHION_STATUS_PWRFAIL = false) :
    exec (.powerUp p) s = .next (s.powerOn p) := by
  refine (execPowerUp.eq_def ..).trans ((if_neg ?_).trans (if_neg ?_))
  · rw [h]
    decide
  · rw [hf, Bool.false_and]
    exact Bool.false_ne_true

theorem powerUp_failed {s : State} {p : PowerUpIn} (h : s.dev.phase = .off) (hf : s.dev.flag R.CUSHION_STATUS_PWRFAIL = false)
    (hb : p.railsOk = false ∨ p.testTied = false) : GivesSome (.powerUp p) s fun t =>
      t.dev.phase = .off ∧ t.dev.faultN = true ∧ t.strands = [] ∧ t.dev.peat = s.dev.peat := by
  have ht : s.dev.tearDrain.peat = s.dev.peat := by
    unfold Dev.tearDrain
    split
    · rfl
    · rfl
  obtain ⟨e, he⟩ : ∃ e, s.dev.tearDrain = e := ⟨_, rfl⟩
  rw [he] at ht
  refine ⟨{ s with
      strands := []
      dev := { e with
        phase := .off
        faultN := true
        badStart := e.badStart || !p.railsOk } }, (powerUp_on h hf).trans (congrArg _ ?_), rfl, rfl, rfl, ht⟩
  unfold State.powerOn
  rw [he]
  refine if_pos ?_
  rcases hb with hb | hb
  · rw [hb]
    rfl
  · rw [hb, Bool.not_false, Bool.or_true]

theorem powerUp_cold {s : State} {p : PowerUpIn} (h : s.dev.phase = .off) (hc : p.cold = true) (hp : p.socketId < 8) :
    let t := s.startPath p
    booted t 0 (t.dev.reg R.BOOT_VECTOR_ADDR.reg) ∧ t.dev.frame = 0 ∧ t.dev.dram = [] ∧ t.dev.peat = s.dev.peat ∧ t.dev.self = p.socketId := by
  intro t
  have hfl : flushed s = s := if_neg (by rw [h]; decide)
  obtain ⟨e, he⟩ : ∃ e, resetDev s 0 p = e := ⟨_, rfl⟩
  have hr : Restarted s.dev 0 p e := by
    have := resetDev_restarted s (kind := 0) (by decide) p
    rwa [he, hfl] at this
  have ht : t = ({ s with dev := e } : State).release (e.reg R.BOOT_VECTOR_ADDR.reg) := by
    refine (if_pos hc).trans ((coldOrWarm_eq s 0 p).trans ?_)
    rw [he, hfl]
  rw [ht]
  exact ⟨booted_release (s := { s with dev := e }) hr, (hr.framed (by decide)).trans (if_pos (by decide)), congrArg Stores.dram hr.holds,
    congrArg Stores.peat hr.holds, hr.named (by decide) hp⟩

/-- The state in which PWRFAIL_N is high again. -/
def failRisen (s : State) : State := { s with dev := s.dev.setFld R.CUSHION_STATUS_PWRFAIL 0 }

theorem failRisen_phase (s : State) : (failRisen s).dev.phase = s.dev.phase :=
  of_bare (·.phase) (fun _ => rfl) (bare_setFld s.dev R.CUSHION_STATUS_PWRFAIL 0)

theorem pwrfailNRise_eq (s : State) (p : PowerUpIn) : exec (.pwrfailNRise p) s = match (failRisen s).dev.phase with
    | .drained => if p.cold then .next ((failRisen s).coldOrWarm 1 p) else .next ((failRisen s).powerOn p)
    | .off => .next ((failRisen s).powerOn p)
    | _ => .next (failRisen s) := execPwrfailNRise.eq_def ..

theorem goodStart_failRisen {s : State} {p : PowerUpIn} (h : goodStart s.dev p) : goodStart (failRisen s).dev p := by
  obtain ⟨h1, h2, h3, h4, h5, h6, h7, h8, h9⟩ := h
  have hb := bare_setFld s.dev R.CUSHION_STATUS_PWRFAIL 0
  exact ⟨h1, h2, h3, h4, h5, h6, h7, (of_bare (·.badStart) (fun _ => rfl) hb).trans h8, (of_bare (·.drain) (fun _ => rfl) hb).trans h9⟩

theorem powerUpAndResume_hold : powerUpAndResume := by
  intro s p d path low
  refine ⟨fun h => ?_, fun h hf => ⟨powerUp_failed h hf, fun hg => ?_⟩, fun h hg => ?_, fun h => ?_⟩
  · refine (execPowerUp.eq_def ..).trans ?_
    rcases h with h | ⟨h, hf⟩
    · exact if_pos (beq_iff_eq.2 h)
    · refine (if_neg (by rw [show s.dev.phase = .off from h]; decide)).trans (if_pos ?_)
      rw [show s.dev.flag R.CUSHION_STATUS_PWRFAIL = true from hf, show s.dev.phase = .off from h]
      rfl
  · have hx : exec (.powerUp p) s = .next (s.startPath p) := (powerUp_on h hf).trans (congrArg _ (powerOn_good hg))
    have hid : p.socketId < 8 := goodStart_id hg
    exact ⟨resume_path (fun _ => hx) hid rfl, fun hc => ⟨_, hx, powerUp_cold h hc hid⟩⟩
  · have hid : p.socketId < 8 := goodStart_id hg
    have hph : (failRisen s).dev.phase = .drained := (failRisen_phase s).trans h
    have hx := pwrfailNRise_eq s p
    rw [hph] at hx
    have hx : exec (.pwrfailNRise p) s = if p.cold then .next ((failRisen s).coldOrWarm 1 p) else .next ((failRisen s).powerOn p) := hx
    refine ⟨?_, fun hc => ?_⟩
    · refine resume_path (s' := failRisen s) (fun hc => ?_) hid (stores_setFld s.dev R.CUSHION_STATUS_PWRFAIL 0)
      exact hx.trans ((if_neg (by rw [hc]; exact Bool.false_ne_true)).trans (congrArg _ (powerOn_good (goodStart_failRisen hg))))
    · obtain ⟨h1, h2, -, -⟩ := coldOrWarm_boots (failRisen s) (kind := 1) (by decide) p
      exact ⟨_, hx.trans (if_pos hc), h1, h2⟩
  · refine (pwrfailNRise_eq s p).trans ?_
    rw [failRisen_phase]
    rcases h with h | h | h | h
    · rw [show s.dev.phase = .drain from h]
      rfl
    · rw [show s.dev.phase = .running from h]
      rfl
    · rw [show s.dev.phase = .stopped from h]
      rfl
    · rw [show s.dev.phase = .booting from h]
      rfl

/-- Settles O39: every boot is one restart of the device, and the commands differ in when they let it happen. -/
theorem resetsAndPowerUp : Obligations.ResetsAndPowerUp := ⟨resets_hold, powerUpAndResume_hold⟩

end Sys2Proof.Proofs
end

