-- ==== Sys2Proof/Proofs/Clocks.lean ====
section
/-!
PROOFS. The reference clock, tile clocks, their rails and throttles, deep park and the thermal trip (R485 to R496, R537).
-/

namespace Sys2Proof.Proofs

open Sys2Proof Sys2Proof.Machine Sys2Proof.Laws

/-! ### The reference clock and the clock stop -/

/-- The registers of the reference clock when it is lost. -/
def clockLost (d : Dev) : Dev := (d.setFld R.CLK_STATUS_REFCLK_OK 0).addSat R.CLK_STATUS_REFCLK_LOSSES 1

theorem clockLost_spec (d : Dev) : (clockLost d).flag R.CLK_STATUS_REFCLK_OK = false ∧
    (clockLost d).fld R.CLK_STATUS_REFCLK_LOSSES =
      min (d.fld R.CLK_STATUS_REFCLK_LOSSES + 1) (2 ^ R.CLK_STATUS_REFCLK_LOSSES.width - 1) ∧
    bare (clockLost d) = bare d ∧ ∀ off, off ≠ R.CLK_STATUS_REFCLK_OK.reg → (clockLost d).reg off = d.reg off := by
  obtain ⟨e, he⟩ : ∃ e, d.setFld R.CLK_STATUS_REFCLK_OK 0 = e := ⟨_, rfl⟩
  have h1 : e.flag R.CLK_STATUS_REFCLK_OK = false := he ▸ flag_setFld_zero d _ (by decide)
  have h2 : e.fld R.CLK_STATUS_REFCLK_LOSSES = d.fld R.CLK_STATUS_REFCLK_LOSSES := he ▸ fld_setFld_apart d _ _ _ (by decide) (by decide)
  have h3 : bare e = bare d := he ▸ bare_setFld d _ _
  have h4 : ∀ off, off ≠ R.CLK_STATUS_REFCLK_OK.reg → e.reg off = d.reg off := fun off ho => he ▸ reg_setFld_other d _ _ off ho
  unfold clockLost
  rw [he]
  refine ⟨(flag_setFld_apart e R.CLK_STATUS_REFCLK_LOSSES _ _ (by decide) (by decide)).trans h1, ?_, (bare_addSat e _ _).trans h3,
    fun off ho => (reg_setReg_other e _ off _ ho).trans (h4 off ho)⟩
  rw [fld_addSat e _ _ (by decide), h2]

theorem refclkLoss_running {s : State} (hok : s.dev.flag R.CLK_STATUS_REFCLK_OK = true) (hp : s.dev.phase = .running) :
    GivesSome .refclkLoss s fun t => Sys2Proof.entered s t s.dev 4 ∧ t.dev.flag R.CLK_STATUS_REFCLK_OK = false ∧
      t.dev.fld R.CLK_STATUS_REFCLK_LOSSES =
        min (s.dev.fld R.CLK_STATUS_REFCLK_LOSSES + 1) (2 ^ R.CLK_STATUS_REFCLK_LOSSES.width - 1) := by
  obtain ⟨h1, h2, h3, h4⟩ := clockLost_spec s.dev
  obtain ⟨c, hc⟩ : ∃ c, clockLost s.dev = c := ⟨_, rfl⟩
  rw [hc] at h1 h2 h3 h4
  obtain ⟨z, hz⟩ : ∃ z, c.log { source := 0x11, cls := 3 } = z := ⟨_, rfl⟩
  have hk : keepsRegs c z := hz ▸ keepsRegs_log c _
  have hq : quiet z = quiet s.dev := (hz ▸ quiet_log c _).trans (quiet_of_bare h3)
  obtain ⟨e1, e2⟩ := enterCushion_spec (s := { s with dev := z }) (cause := 4) ((of_quiet (·.phase) (fun _ => rfl) hq).trans hp) (by decide)
  obtain ⟨t, ht⟩ : ∃ t, ({ s with dev := z } : State).enterCushion 4 = t := ⟨_, rfl⟩
  rw [ht] at e1 e2
  have hreg {off : Nat} (ho : off ≠ R.CLK_STATUS_REFCLK_OK.reg) (hr : reported off = false) : z.reg off = s.dev.reg off :=
    (hk off hr).trans (h4 off ho)
  have hfld {f : Field} (hf : leftByEntry f.reg = true) (hr : f.reg ≠ R.CUSHION_STATUS_DRAINS.reg) : t.dev.fld f = c.fld f :=
    (e2 f hf).trans ((congrArg f.get (reg_setReg_other z _ f.reg _ hr)).trans (congrArg f.get (hk f.reg (leftByEntry_parts hf).2.1)))
  refine ⟨t, (execRefclkLoss.eq_def ..).trans ((if_neg (by rw [hok]; decide)).trans ?_), ?_, ?_, ?_⟩
  · rw [← ht, ← hz, ← hc]
    rfl
  · refine entered_of e1 rfl (of_quiet (·.drainSeq) (fun _ => rfl) hq) (congrArg (Field.get _) (hreg (by decide) (by decide))) fun off ho => ?_
    have hb : ∀ off ∈ [R.FRAME_NUMBER.reg, R.CHAIN_STATUS_PRESENT.reg, R.EPOCH_CLOSED_EPOCH.reg, R.CUSHION_CTL_RETAIN_ARM.reg],
      off ≠ R.CLK_STATUS_REFCLK_OK.reg ∧ reported off = false := by decide
    exact hreg (hb off ho).1 (hb off ho).2
  · exact (congrArg (· != 0) (hfld (f := R.CLK_STATUS_REFCLK_OK) (by decide) (by decide))).trans h1
  · exact (hfld (f := R.CLK_STATUS_REFCLK_LOSSES) (by decide) (by decide)).trans h2

theorem tearDrain_spec (d : Dev) : d.tearDrain.drain = none ∧ d.tearDrain.dram = d.dram ∧ d.tearDrain.peat = d.peat := by
  unfold Dev.tearDrain
  split
  · next h => exact ⟨h, rfl, rfl⟩
  · exact ⟨rfl, rfl, rfl⟩

/-! ### Deep park -/

theorem mem_linesOf {d : Dev} {c g : Nat} (hc : c < 512) (h : (d.line c g).st ≠ .invalid) : g ∈ d.linesOf c := by
  rcases smap_get_mem (fun _ => CLine.none) d.l2 (g * 512 + c) with hm | hm
  · refine List.mem_map.2 ⟨_, List.mem_filter.2 ⟨hm, ?_⟩, ?_⟩
    · rw [Bool.and_eq_true, beq_iff_eq, bne_iff_ne]
      exact ⟨by omega, h⟩
    · change (g * 512 + c) / 512 = g
      omega
  · exact absurd (congrArg CLine.st hm) h

/-- Lines changed one after the other by a change that is its own repetition. -/
theorem line_foldl_setLine (u : CLine → CLine) (hu : ∀ x, u (u x) = u x) (c g : Nat) (gs : List Nat) (d : Dev) :
    (gs.foldl (fun d g => d.setLine c g (u (d.line c g))) d).line c g = if g ∈ gs then u (d.line c g) else d.line c g := by
  induction gs generalizing d with
  | nil => rfl
  | cons k gs ih =>
    rw [List.foldl_cons, ih]
    by_cases hk : g = k
    · rw [hk, line_setLine, hu, if_pos List.mem_cons_self]
      split
      · rfl
      · rfl
    · have hl : (d.setLine c k (u (d.line c k))).line c g = d.line c g := smap_get_set_other _ _ _ _ _ (by omega)
      rw [hl]
      exact if_congr (by simp [hk]) rfl rfl

/-- The mark of an L1 taken off a line. -/
def unmarked (i : Bool) (l : CLine) : CLine := if i then { l with l1i := false } else { l with l1d := false }

theorem clearL1_line {d : Dev} {c g : Nat} (hc : c < 512) (i : Bool) : ((d.clearL1 c i).line c g) =
    if (d.line c g).st ≠ .invalid then unmarked i (d.line c g) else (d.clearL1 c i).line c g := by
  split
  · next h =>
    refine (line_foldl_setLine (unmarked i) (fun x => by cases i <;> rfl) c g (d.linesOf c) d).trans ?_
    rw [if_pos (mem_linesOf hc h)]
  · rfl

theorem clearL1_st (d : Dev) (c g : Nat) (i : Bool) : ((d.clearL1 c i).line c g).st = (d.line c g).st := by
  refine (congrArg CLine.st (line_foldl_setLine (unmarked i) (fun x => by cases i <;> rfl) c g (d.linesOf c) d)).trans ?_
  split
  · cases i <;> rfl
  · rfl

theorem clearL1s_marks {d : Dev} {c g : Nat} (hc : c < 512) (h : (((d.clearL1 c true).clearL1 c false).line c g).st ≠ .invalid) :
    (((d.clearL1 c true).clearL1 c false).line c g).l1i = false ∧ (((d.clearL1 c true).clearL1 c false).line c g).l1d = false := by
  rw [clearL1_st] at h
  rw [clearL1_line hc, if_pos h]
  rw [clearL1_st] at h
  rw [clearL1_line hc, if_pos h]
  exact ⟨rfl, rfl⟩

theorem deepPark_enters {s : State} {c : Nat} (hc : c < 288) (hm : s.mayDeepPark c = true) :
    let l := s.dev.fld (R.CORE_STATE_LOGICAL.at (8 * c))
    GivesSome (.deepParkEntry c) s fun t =>
      t.dev.fld (R.CORE_PWR_STATE.at (8 * c)) = 3 ∧ t.strand (2 * l) = { s.strand (2 * l) with ras := [] } ∧
      t.strand (2 * l + 1) = { s.strand (2 * l + 1) with ras := [] } ∧
      (∀ g, (t.dev.line c g).st ≠ .invalid → (t.dev.line c g).l1i = false ∧ (t.dev.line c g).l1d = false) ∧
      ∀ k, k ≠ 2 * l → k ≠ 2 * l + 1 → t.strand k = s.strand k := by
  intro l
  obtain ⟨y, hy⟩ : ∃ y, ((s.dev.clearL1 c true).clearL1 c false).flushBtb c = y := ⟨_, rfl⟩
  obtain ⟨z, hz⟩ : ∃ z, y.setFld (corePwr c) 3 = z := ⟨_, rfl⟩
  have hl (g : Nat) : z.line c g = ((s.dev.clearL1 c true).clearL1 c false).line c g :=
    (of_bare (·.line c g) (fun _ => rfl) (hz ▸ bare_setFld y _ _)).trans (hy ▸ rfl)
  have hpw : z.fld (R.CORE_PWR_STATE.at (8 * c)) = 3 := hz ▸ fld_setFld_lt y (show R.CORE_PWR_STATE.lo + R.CORE_PWR_STATE.width ≤ 64 by decide)
    (show 3 < 2 ^ R.CORE_PWR_STATE.width by decide)
  refine ⟨(({ s with dev := z } : State).setStrand (2 * l) { s.strand (2 * l) with ras := [] }).setStrand (2 * l + 1)
    { s.strand (2 * l + 1) with ras := [] }, ?_, ?_⟩
  · refine (execDeepParkEntry.eq_def ..).trans ((if_neg (by rw [show coreOk c = true from decide_eq_true hc]; decide)).trans
      ((if_neg (by rw [hm]; decide)).trans ?_))
    dsimp only
    rw [hy, hz, strand_setStrand_other _ _ _ _ (by omega)]
    rfl
  · refine ⟨hpw, ?_, strand_setStrand_same _ _ _, fun g hg => ?_, fun k h1 h2 => ?_⟩
    · rw [strand_setStrand_other _ _ _ _ (by omega), strand_setStrand_same]
    · have hd : ((({ s with dev := z } : State).setStrand (2 * l) { s.strand (2 * l) with ras := [] }).setStrand (2 * l + 1)
        { s.strand (2 * l + 1) with ras := [] }).dev = z := rfl
      rw [hd, hl] at hg
      rw [hd, hl]
      exact clearL1s_marks (by omega) hg
    · rw [strand_setStrand_other _ _ _ _ h2, strand_setStrand_other _ _ _ _ h1, strand_dev]

theorem clockLossAndDeepPark_hold : clockLossAndDeepPark := by
  intro s d f
  refine ⟨fun h => (execRefclkLoss.eq_def ..).trans (if_pos (by rw [show s.dev.flag R.CLK_STATUS_REFCLK_OK = false from h]; rfl)),
    fun h hp => refclkLoss_running h hp, dev_makes (execRefclkReturn.eq_def ..) rfl rfl, dev_makes (execThermtrip.eq_def ..) rfl rfl, ?_,
    fun c hc => ⟨fun h => ?_, fun h => deepPark_enters hc h⟩⟩
  · obtain ⟨h1, h2, h3⟩ := tearDrain_spec s.dev
    exact ⟨{ s.dev.tearDrain with phase := .stopped }, dev_makes (execOvertempClockStop.eq_def ..) rfl rfl, rfl, h1, h2, h3⟩
  · refine (execDeepParkEntry.eq_def ..).trans ((if_neg (by rw [show coreOk c = true from decide_eq_true hc]; decide)).trans (if_pos ?_))
    rw [h]
    rfl

/-! ### Tile clocks -/

section
variable {d e : Dev}

/-- The ratio of a frond is told by the power states, the settings and the ratios in effect. -/
theorem frondRatio_congr {t : Nat} (ht : t < 144) (h1 : ∀ u, e.clkAt u = d.clkAt u)
    (h2 : ∀ u, u < 144 → e.fld (tileClk R.TILE_CLK_CURRENT u) = d.fld (tileClk R.TILE_CLK_CURRENT u))
    (h3 : ∀ c, e.fld (corePwr c) = d.fld (corePwr c)) : e.frondRatio t = d.frondRatio t := by
  have hr (u : Nat) : e.tileRuns u = d.tileRuns u := by
    unfold Dev.tileRuns
    rw [h3, h3]
  unfold Dev.frondRatio
  simp only [hr, h1]
  rw [h2 t ht]
  refine List.foldl_ext _ _ _ fun m u hu => ?_
  rw [h2 u (List.mem_range.1 (List.mem_filter.1 hu).1)]

/-- What the start of a PLL leaves. -/
theorem pllStart_spec (d : Dev) (p : Nat) : bare (d.pllStart p) = bare d ∧ (d.pllStart p).fld (pllReg R.PLL_STATUS_SETTLED p) = 0 ∧
    (∀ off, off < R.PLL_STATUS_SETTLED.reg → (d.pllStart p).reg off = d.reg off) ∧
    ∀ q, d.fld (pllReg R.PLL_STATUS_SETTLED q) = 0 → (d.pllStart p).fld (pllReg R.PLL_STATUS_SETTLED q) = 0 := by
  obtain ⟨x, hx⟩ : ∃ x, d.setFld (pllReg R.PLL_STATUS_SETTLED p) 0 = x := ⟨_, rfl⟩
  have h0 : x.fld (pllReg R.PLL_STATUS_SETTLED p) = 0 := hx ▸ fld_setFld_lt d
    (show R.PLL_STATUS_SETTLED.lo + R.PLL_STATUS_SETTLED.width ≤ 64 by decide) (Nat.two_pow_pos _)
  have hs (q : Nat) : (x.addSat (pllReg R.PLL_STATUS_STARTS p) 1).fld (pllReg R.PLL_STATUS_SETTLED q) = x.fld (pllReg R.PLL_STATUS_SETTLED q) :=
    fld_setFld_apart x (pllReg R.PLL_STATUS_STARTS p) (pllReg R.PLL_STATUS_SETTLED q) _
      (show R.PLL_STATUS_STARTS.lo + R.PLL_STATUS_STARTS.width ≤ 64 by decide)
      (.inl (show R.PLL_STATUS_SETTLED.lo + R.PLL_STATUS_SETTLED.width ≤ R.PLL_STATUS_STARTS.lo by decide))
  unfold Dev.pllStart
  rw [hx]
  refine ⟨(bare_addSat x _ _).trans (hx ▸ bare_setFld d _ _), (hs p).trans h0, fun off ho => ?_, fun q hq => (hs q).trans ?_⟩
  · have hn : off ≠ R.PLL_STATUS_SETTLED.reg + 8 * p := Nat.ne_of_lt (Nat.lt_of_lt_of_le ho (Nat.le_add_right _ _))
    exact (reg_setFld_other x (pllReg R.PLL_STATUS_STARTS p) _ off hn).trans (hx ▸ reg_setFld_other d _ _ off hn)
  · by_cases hpq : q = p
    · rw [hpq]
      exact h0
    · rw [← hx]
      refine (fld_setFld_reg d _ _ 0 (show R.PLL_STATUS_SETTLED.reg + 8 * q ≠ R.PLL_STATUS_SETTLED.reg + 8 * p by omega)).trans hq

/-- A tile that has been retuned. -/
structure Retuned (d : Dev) (t x : Nat) (e : Dev) : Prop where
  clk : e.clkAt t = x
  others : ∀ u, u ≠ t → e.clkAt u = d.clkAt u
  waits : e.vidWait.contains t = decide (d.frondRatio t < x)
  starts : x ≤ d.frondRatio t → e.fld (pllReg R.PLL_STATUS_SETTLED t) = 0
  regs : ∀ off, off < R.PLL_STATUS_SETTLED.reg → e.reg off = (d.setFld (tileClk R.TILE_CLK_SETTLING t) 1).reg off

/-- The tile with its new target, waiting for its rail or settling. -/
def targeted (y : Dev) (t x : Nat) (wait : Bool) : Dev :=
  let w := { y.setClk t x with vidWait := (y.setClk t x).vidWait.filter fun u => u != t }
  if wait then { w with vidWait := w.vidWait ++ [t] } else w.pllStart t

theorem targeted_spec (y : Dev) (t x : Nat) (wait : Bool) : (∀ u, (targeted y t x wait).clkAt u = if u = t then x else y.clkAt u) ∧
    (targeted y t x wait).vidWait.contains t = wait ∧
    (wait = false → (targeted y t x wait).fld (pllReg R.PLL_STATUS_SETTLED t) = 0) ∧
    ∀ off, off < R.PLL_STATUS_SETTLED.reg → (targeted y t x wait).reg off = y.reg off := by
  obtain ⟨w, hw⟩ : ∃ w : Dev, ({ y.setClk t x with vidWait := (y.setClk t x).vidWait.filter fun u => u != t } : Dev) = w := ⟨_, rfl⟩
  have hwc (u : Nat) : w.clkAt u = if u = t then x else y.clkAt u := by
    rw [← hw]
    split
    · next h => exact h ▸ smap_get_set_same _ _ _ _
    · next h => exact smap_get_set_other _ _ _ _ _ h
  have hwr : w.regs = y.regs := hw ▸ rfl
  have hwt : t ∉ w.vidWait := fun h => by
    rw [← hw] at h
    simpa using (List.mem_filter.1 h).2
  have heq : targeted y t x wait = if wait then { w with vidWait := w.vidWait ++ [t] } else w.pllStart t := hw ▸ rfl
  have reg_of {e : Dev} (h : e.regs = y.regs) (off : Nat) : e.reg off = y.reg off := congrArg (fun m => SMap.get coldValue m off) h
  rw [heq]
  cases wait with
  | true =>
    refine ⟨hwc, ?_, fun h => absurd h (by decide), fun off _ => reg_of hwr off⟩
    rw [List.contains_iff_mem]
    exact List.mem_append_right _ (List.mem_singleton.2 rfl)
  | false =>
    obtain ⟨h1, h2, h3, -⟩ := pllStart_spec w t
    refine ⟨fun u => (of_bare (·.clkAt u) (fun _ => rfl) h1).trans (hwc u), ?_, fun _ => h2, fun off ho => (h3 off ho).trans (reg_of hwr off)⟩
    rw [if_neg Bool.false_ne_true, of_bare (·.vidWait) (fun _ => rfl) h1, Bool.eq_false_iff, Ne, List.contains_iff_mem]
    exact hwt

theorem retune_eq (d : Dev) (t x : Nat) :
    d.retune t x = targeted (d.setFld (tileClk R.TILE_CLK_SETTLING t) 1) t x (decide (d.frondRatio t < x)) := rfl

theorem retuned (d : Dev) (t x : Nat) : Retuned d t x (d.retune t x) := by
  obtain ⟨y, hy⟩ : ∃ y, d.setFld (tileClk R.TILE_CLK_SETTLING t) 1 = y := ⟨_, rfl⟩
  have hyc (u : Nat) : y.clkAt u = d.clkAt u := of_bare (·.clkAt u) (fun _ => rfl) (hy ▸ bare_setFld d _ _)
  obtain ⟨h1, h2, h3, h4⟩ := targeted_spec y t x (decide (d.frondRatio t < x))
  rw [retune_eq, hy]
  exact ⟨(h1 t).trans (if_pos rfl), fun u hu => (h1 u).trans ((if_neg hu).trans (hyc u)), h2,
    fun h => h3 (decide_eq_false (Nat.not_lt.2 h)), fun off ho => hy ▸ h4 off ho⟩

end

/-! ### The fields of a tile's clock register -/

section
variable (d : Dev) (f k : Field) (t x : Nat)

theorem fld_tile_same (h : f.lo + f.width ≤ 64) (hx : x < 2 ^ f.width) : (d.setFld (tileClk f t) x).fld (tileClk f t) = x :=
  fld_setFld_lt d h hx

theorem fld_tile_apart (h : f.lo + f.width ≤ 64) (hk : k.lo + k.width ≤ f.lo ∨ f.lo + f.width ≤ k.lo) :
    (d.setFld (tileClk f t) x).fld (tileClk k t) = d.fld (tileClk k t) := fld_setFld_apart d (tileClk f t) (tileClk k t) x h hk

theorem reg_tile_other {u : Nat} (hf : f.reg = R.TILE_CLK_RATIO.reg) (hu : u ≠ t) :
    (d.setFld (tileClk f t) x).reg (R.TILE_CLK_RATIO.reg + 8 * u) = d.reg (R.TILE_CLK_RATIO.reg + 8 * u) := by
  refine reg_setFld_other d (tileClk f t) x _ ?_
  change _ ≠ f.reg + 8 * t
  rw [hf]
  omega

theorem clkAt_setFld (f : Field) (u : Nat) : (d.setFld f x).clkAt u = d.clkAt u := of_bare (·.clkAt u) (fun _ => rfl) (bare_setFld d f x)

/-- A field of a tile's clock register beside the ratio in effect does not move its frond's ratio. -/
theorem frondRatio_setFld {u : Nat} (hu : u < 144) (ht : t < 144) (hf : f.reg = R.TILE_CLK_RATIO.reg) (h : f.lo + f.width ≤ 64)
    (hk : R.TILE_CLK_CURRENT.lo + R.TILE_CLK_CURRENT.width ≤ f.lo ∨ f.lo + f.width ≤ R.TILE_CLK_CURRENT.lo) :
    (d.setFld (tileClk f t) x).frondRatio u = d.frondRatio u := by
  refine frondRatio_congr hu (clkAt_setFld d x (tileClk f t)) (fun w _ => ?_) fun c => ?_
  · by_cases hw : w = t
    · rw [hw]
      exact fld_tile_apart d f _ t x h hk
    · exact congrArg R.TILE_CLK_CURRENT.get (reg_tile_other d f t x hf hw)
  · refine fld_setFld_reg d (tileClk f t) (corePwr c) x ?_
    change R.CORE_PWR_STATE.reg + 8 * c ≠ f.reg + 8 * t
    rw [hf, show R.CORE_PWR_STATE.reg = 0x9002000 from rfl, show R.TILE_CLK_RATIO.reg = 0x9001000 from rfl]
    omega

end

section
variable {d e : Dev} {t x : Nat} (ht : t < 144) (h : Retuned d t x e)
include ht h

/-- A tile that is retuned settles, and keeps the other fields of its register. -/
theorem Retuned.settling : e.fld (tileClk R.TILE_CLK_SETTLING t) = 1 := by
  refine (congrArg R.TILE_CLK_SETTLING.get (h.regs _ ?_)).trans (fld_tile_same d R.TILE_CLK_SETTLING t 1 (by decide) (by decide))
  change R.TILE_CLK_SETTLING.reg + 8 * t < _
  rw [show R.TILE_CLK_SETTLING.reg = 0x9001000 from rfl, show R.PLL_STATUS_SETTLED.reg = 0x9004000 from rfl]
  omega

theorem Retuned.fld {k : Field} (hr : k.reg = R.TILE_CLK_RATIO.reg)
    (hk : k.lo + k.width ≤ R.TILE_CLK_SETTLING.lo ∨ R.TILE_CLK_SETTLING.lo + R.TILE_CLK_SETTLING.width ≤ k.lo) :
    e.fld (tileClk k t) = d.fld (tileClk k t) := by
  refine (congrArg k.get (h.regs _ ?_)).trans (fld_tile_apart d R.TILE_CLK_SETTLING k t 1 (by decide) hk)
  change k.reg + 8 * t < _
  rw [hr, show R.TILE_CLK_RATIO.reg = 0x9001000 from rfl, show R.PLL_STATUS_SETTLED.reg = 0x9004000 from rfl]
  omega

omit ht in
theorem Retuned.reg_other {u : Nat} (hu : u < 144) (hut : u ≠ t) :
    e.reg (R.TILE_CLK_RATIO.reg + 8 * u) = d.reg (R.TILE_CLK_RATIO.reg + 8 * u) := by
  refine (h.regs _ ?_).trans (reg_tile_other d R.TILE_CLK_SETTLING t 1 rfl hut)
  rw [show R.TILE_CLK_RATIO.reg = 0x9001000 from rfl, show R.PLL_STATUS_SETTLED.reg = 0x9004000 from rfl]
  omega

end

/-- The registers of a write of TILE_CLK[t] before the tile is retuned. -/
def ratioWritten (d : Dev) (t x p : Nat) : Dev :=
  ((d.setFld (tileClk R.TILE_CLK_PINNED t) p).setFld (tileClk R.TILE_CLK_RATIO t) x).setFld (tileClk R.TILE_CLK_THROTTLED t) 0

theorem ratioWritten_spec (d : Dev) {t x p : Nat} (ht : t < 144) (hx : x < 128) (hp : p < 2) :
    (ratioWritten d t x p).fld (tileClk R.TILE_CLK_RATIO t) = x ∧ (ratioWritten d t x p).fld (tileClk R.TILE_CLK_THROTTLED t) = 0 ∧
    (ratioWritten d t x p).fld (tileClk R.TILE_CLK_PINNED t) = p ∧ (ratioWritten d t x p).frondRatio t = d.frondRatio t ∧
    (∀ u, (ratioWritten d t x p).clkAt u = d.clkAt u) ∧
    ∀ u, u ≠ t → (ratioWritten d t x p).reg (R.TILE_CLK_RATIO.reg + 8 * u) = d.reg (R.TILE_CLK_RATIO.reg + 8 * u) := by
  obtain ⟨a, ha⟩ : ∃ a, d.setFld (tileClk R.TILE_CLK_PINNED t) p = a := ⟨_, rfl⟩
  obtain ⟨b, hb⟩ : ∃ b, a.setFld (tileClk R.TILE_CLK_RATIO t) x = b := ⟨_, rfl⟩
  have hap : a.fld (tileClk R.TILE_CLK_PINNED t) = p := ha ▸ fld_tile_same d _ t p (by decide) hp
  have hbp : b.fld (tileClk R.TILE_CLK_PINNED t) = p := (hb ▸ fld_tile_apart a _ _ t x (by decide) (by decide)).trans hap
  have hbx : b.fld (tileClk R.TILE_CLK_RATIO t) = x := hb ▸ fld_tile_same a _ t x (by decide) hx
  unfold ratioWritten
  rw [ha, hb]
  refine ⟨(fld_tile_apart b R.TILE_CLK_THROTTLED _ t 0 (by decide) (by decide)).trans hbx,
    fld_tile_same b R.TILE_CLK_THROTTLED t 0 (by decide) (by decide),
    (fld_tile_apart b R.TILE_CLK_THROTTLED _ t 0 (by decide) (by decide)).trans hbp, ?_, fun u => ?_, fun u hu => ?_⟩
  · rw [frondRatio_setFld b R.TILE_CLK_THROTTLED t 0 ht ht rfl (by decide) (by decide), ← hb, frondRatio_setFld a R.TILE_CLK_RATIO t x ht ht rfl (by decide) (by decide), ← ha,
      frondRatio_setFld d R.TILE_CLK_PINNED t p ht ht rfl (by decide) (by decide)]
  · rw [clkAt_setFld, ← hb, clkAt_setFld, ← ha, clkAt_setFld]
  · rw [reg_tile_other b R.TILE_CLK_THROTTLED t 0 rfl hu, ← hb, reg_tile_other a R.TILE_CLK_RATIO t x rfl hu, ← ha, reg_tile_other d R.TILE_CLK_PINNED t p rfl hu]

theorem tileRatioWrite_holds {s : State} {req : Requester} {t : Nat} (v : Word) (hr : reqOk req = true) (ht : t < 144) :
    MakesSome (.tileRatioWrite req t v) s fun e =>
      let x := min (s.dev.fld (tileClk R.TILE_CLK_MAX t)) (max 16 (v.extractLsb' 0 7).toNat)
      e.fld (tileClk R.TILE_CLK_RATIO t) = x ∧ e.clkAt t = x ∧ e.fld (tileClk R.TILE_CLK_SETTLING t) = 1 ∧
      e.fld (tileClk R.TILE_CLK_THROTTLED t) = 0 ∧ e.flag (tileClk R.TILE_CLK_PINNED t) = v.getLsbD 22 ∧
      e.vidWait.contains t = decide (s.dev.frondRatio t < x) ∧
      (x ≤ s.dev.frondRatio t → e.fld (pllReg R.PLL_STATUS_SETTLED t) = 0) ∧
      ∀ u, u < 144 → u ≠ t → e.clkAt u = s.dev.clkAt u ∧ e.reg (tileClk R.TILE_CLK_RATIO u).reg = s.dev.reg (tileClk R.TILE_CLK_RATIO u).reg := by
  obtain ⟨x, hx⟩ : ∃ x, min (s.dev.fld (tileClk R.TILE_CLK_MAX t)) (max 16 (v.extractLsb' 0 7).toNat) = x := ⟨_, rfl⟩
  have hxlt : x < 128 := hx ▸ Nat.lt_of_le_of_lt (Nat.min_le_left _ _) (getF_lt _ _ _)
  have hcl : s.dev.clampRatio t (getF v 0 7) = x := by
    rw [← hx, getF_eq_extract]
    rfl
  have hp2 : getF v 22 1 < 2 := getF_lt _ _ _
  have hb : (getF v 22 1 != 0) = v.getLsbD 22 := by
    rw [← bitOf_eq_getLsbD, bitOf, getF, Nat.pow_one]
    have : v.toNat / 2 ^ 22 % 2 < 2 := Nat.mod_lt _ (by decide)
    interval_cases v.toNat / 2 ^ 22 % 2 <;> rfl
  obtain ⟨h1, h2, h3, h4, h5, h6⟩ := ratioWritten_spec s.dev (x := x) ht hxlt hp2
  obtain ⟨w, hw⟩ : ∃ w, ratioWritten s.dev t x (getF v 22 1) = w := ⟨_, rfl⟩
  rw [hw] at h1 h2 h3 h4 h5 h6
  have hret := retuned w t x
  obtain ⟨e, he⟩ : ∃ e, w.retune t x = e := ⟨_, rfl⟩
  rw [he] at hret
  rw [hx]
  refine ⟨e, dev_makes (execTileRatioWrite.eq_def ..) (by rw [hr, decide_eq_true ht]; rfl) ?_, ?_⟩
  · unfold Dev.tileClkWrite
    dsimp only
    rw [hcl]
    rw [← he, ← hw]
    rfl
  · refine ⟨(hret.fld ht rfl (by decide)).trans h1, hret.clk, hret.settling ht, (hret.fld ht (k := R.TILE_CLK_THROTTLED) rfl (by decide)).trans h2,
      (congrArg (· != 0) ((hret.fld ht (k := R.TILE_CLK_PINNED) rfl (by decide)).trans h3)).trans hb, h4 ▸ hret.waits, fun hle => hret.starts (h4.symm ▸ hle),
      fun u hu hut => ⟨(hret.others u hut).trans (h5 u), (hret.reg_other hu hut).trans (h6 u hut)⟩⟩

/-! ### The PLLs and the rails -/

theorem pllSettle_holds {s : State} {p : Nat} (hp : p < 197) (hr : s.dev.flag R.CLK_STATUS_REFCLK_OK = true)
    (hw : s.dev.vidWait.contains p = false) : MakesSome (.pllSettle p) s fun e => e.fld (pllReg R.PLL_STATUS_SETTLED p) = 1 ∧
      (p < 144 → s.dev.flag (tileClk R.TILE_CLK_SETTLING p) = true →
        e.fld (tileClk R.TILE_CLK_CURRENT p) = s.dev.clkAt p % 128 ∧ e.flag (tileClk R.TILE_CLK_SETTLING p) = false) := by
  obtain ⟨y, hy⟩ : ∃ y, s.dev.setFld (pllReg R.PLL_STATUS_SETTLED p) 1 = y := ⟨_, rfl⟩
  have h1 : y.fld (pllReg R.PLL_STATUS_SETTLED p) = 1 := hy ▸ fld_setFld_lt s.dev
    (show R.PLL_STATUS_SETTLED.lo + R.PLL_STATUS_SETTLED.width ≤ 64 by decide) (show 1 < 2 ^ R.PLL_STATUS_SETTLED.width by decide)
  have hc : y.clkAt p = s.dev.clkAt p := hy ▸ clkAt_setFld s.dev 1 _ p
  have base : R.PLL_STATUS_SETTLED.reg = 0x9004000 ∧ R.TILE_CLK_SETTLING.reg = 0x9001000 := ⟨rfl, rfl⟩
  have hm : Makes (.pllSettle p) s (if p < 144 && y.flag (tileClk R.TILE_CLK_SETTLING p) then
      (y.setFld (tileClk R.TILE_CLK_CURRENT p) (y.clkAt p)).setFld (tileClk R.TILE_CLK_SETTLING p) 0 else y) := by
    refine dev_makes (execPllSettle.eq_def ..) (decide_eq_true hp) ?_
    dsimp only
    rw [if_neg (by rw [hr, hw]; decide), hy]
  by_cases ht : p < 144
  · have hs : y.flag (tileClk R.TILE_CLK_SETTLING p) = s.dev.flag (tileClk R.TILE_CLK_SETTLING p) := by
      refine hy ▸ flag_setFld_reg s.dev (pllReg R.PLL_STATUS_SETTLED p) (tileClk R.TILE_CLK_SETTLING p) 1 ?_
      change R.TILE_CLK_SETTLING.reg + 8 * p ≠ R.PLL_STATUS_SETTLED.reg + 8 * p
      omega
    rw [hs, decide_eq_true ht, Bool.true_and] at hm
    cases hf : s.dev.flag (tileClk R.TILE_CLK_SETTLING p) with
    | false =>
      rw [hf, if_neg Bool.false_ne_true] at hm
      exact ⟨y, hm, h1, fun _ h => absurd h Bool.false_ne_true⟩
    | true =>
      rw [hf, if_pos rfl] at hm
      obtain ⟨z, hz⟩ : ∃ z, y.setFld (tileClk R.TILE_CLK_CURRENT p) (y.clkAt p) = z := ⟨_, rfl⟩
      have hzc : z.fld (tileClk R.TILE_CLK_CURRENT p) = y.clkAt p % 128 := hz ▸ fld_setFld_same y _ _
        (show R.TILE_CLK_CURRENT.lo + R.TILE_CLK_CURRENT.width ≤ 64 by decide)
      have pll (d : Dev) (f : Field) (x : Nat) (hf : f.reg = R.TILE_CLK_RATIO.reg) :
          (d.setFld (tileClk f p) x).fld (pllReg R.PLL_STATUS_SETTLED p) = d.fld (pllReg R.PLL_STATUS_SETTLED p) := by
        refine fld_setFld_reg d (tileClk f p) _ x ?_
        change R.PLL_STATUS_SETTLED.reg + 8 * p ≠ f.reg + 8 * p
        rw [hf, show R.TILE_CLK_RATIO.reg = 0x9001000 from rfl]
        omega
      rw [hz] at hm
      refine ⟨_, hm, (pll z R.TILE_CLK_SETTLING 0 rfl).trans ((hz ▸ pll y R.TILE_CLK_CURRENT _ rfl).trans h1), fun _ _ => ⟨?_, ?_⟩⟩
      · exact (fld_tile_apart z R.TILE_CLK_SETTLING R.TILE_CLK_CURRENT p 0 (by decide) (by decide)).trans (hzc.trans (by rw [hc]))
      · exact flag_setFld_zero z (tileClk R.TILE_CLK_SETTLING p) (show R.TILE_CLK_SETTLING.lo + R.TILE_CLK_SETTLING.width ≤ 64 by decide)
  · rw [decide_eq_false ht, Bool.false_and, if_neg Bool.false_ne_true] at hm
    exact ⟨y, hm, h1, fun h => absurd h ht⟩

/-- PLLs started one after the other. -/
theorem pllStarts_spec (ts : List Nat) (d : Dev) : bare (ts.foldl (fun d t => d.pllStart t) d) = bare d ∧
    (∀ off, off < R.PLL_STATUS_SETTLED.reg → (ts.foldl (fun d t => d.pllStart t) d).reg off = d.reg off) ∧
    ∀ t, t ∈ ts ∨ d.fld (pllReg R.PLL_STATUS_SETTLED t) = 0 →
      (ts.foldl (fun d t => d.pllStart t) d).fld (pllReg R.PLL_STATUS_SETTLED t) = 0 := by
  induction ts generalizing d with
  | nil => exact ⟨rfl, fun _ _ => rfl, fun t h => h.resolve_left (by simp)⟩
  | cons p ts ih =>
    obtain ⟨h1, h2, h3, h4⟩ := pllStart_spec d p
    obtain ⟨i1, i2, i3⟩ := ih (d.pllStart p)
    rw [List.foldl_cons]
    refine ⟨i1.trans h1, fun off ho => (i2 off ho).trans (h3 off ho), fun t ht => i3 t ?_⟩
    rcases ht with ht | ht
    · rcases List.mem_cons.1 ht with rfl | ht
      · exact .inr h2
      · exact .inl ht
    · exact .inr (h4 t ht)

theorem vidAck_holds {s : State} {f mv : Nat} (hf : f < 4) (hmv : mv < 4096) : MakesSome (.vidAck f mv) s fun e =>
    e.fld (R.RAIL_MV.at (8 * f)) = mv ∧ e.vidWait = s.dev.vidWait.filter (fun t => tileFrond t != f) ∧
    ∀ t ∈ s.dev.vidTiles f, e.fld (pllReg R.PLL_STATUS_SETTLED t) = 0 := by
  obtain ⟨x, hx⟩ : ∃ x, s.dev.setFld (R.RAIL_MV.at (8 * f)) mv = x := ⟨_, rfl⟩
  have hxm : x.fld (R.RAIL_MV.at (8 * f)) = mv := hx ▸ fld_setFld_lt s.dev (show R.RAIL_MV.lo + R.RAIL_MV.width ≤ 64 by decide)
    (show mv < 2 ^ R.RAIL_MV.width by exact hmv)
  obtain ⟨y, hy⟩ : ∃ y, x.setFld (R.RAIL_TARGET_MV.at (8 * f)) mv = y := ⟨_, rfl⟩
  have hym : y.fld (R.RAIL_MV.at (8 * f)) = mv := (hy ▸ fld_setFld_apart x (R.RAIL_TARGET_MV.at (8 * f)) (R.RAIL_MV.at (8 * f)) mv
    (show R.RAIL_TARGET_MV.lo + R.RAIL_TARGET_MV.width ≤ 64 by decide)
    (.inl (show R.RAIL_MV.lo + R.RAIL_MV.width ≤ R.RAIL_TARGET_MV.lo by decide))).trans hxm
  have hyw : y.vidWait = s.dev.vidWait :=
    of_bare (·.vidWait) (fun _ => rfl) ((hy ▸ bare_setFld x _ _).trans (hx ▸ bare_setFld s.dev _ _))
  obtain ⟨z, hz⟩ : ∃ z : Dev, ({ y with vidWait := y.vidWait.filter fun t => tileFrond t != f } : Dev) = z := ⟨_, rfl⟩
  have hzr : z.regs = y.regs := (congrArg Dev.regs hz.symm).trans rfl
  have hzm : z.fld (R.RAIL_MV.at (8 * f)) = mv := (fld_of_regs hzr _).trans hym
  have hzw : z.vidWait = s.dev.vidWait.filter fun t => tileFrond t != f := by
    rw [← hz, ← hyw]
  obtain ⟨h1, h2, h3⟩ := pllStarts_spec (s.dev.vidTiles f) z
  refine ⟨_, dev_makes (execVidAck.eq_def ..) (decide_eq_true hf) ?_, ?_, (of_bare (·.vidWait) (fun _ => rfl) h1).trans hzw,
    fun t ht => h3 t (.inl ht)⟩
  · dsimp only
    rw [hx, hy, hz]
  · refine (congrArg R.RAIL_MV.get (h2 _ ?_)).trans hzm
    change R.RAIL_MV.reg + 8 * f < R.PLL_STATUS_SETTLED.reg
    rw [show R.RAIL_MV.reg = 0x9003000 from rfl, show R.PLL_STATUS_SETTLED.reg = 0x9004000 from rfl]
    omega

/-- A tile that gives up a raise: its ratio and its target are those in effect. -/
def givenUp (d : Dev) (t : Nat) : Dev :=
  ((d.setFld (tileClk R.TILE_CLK_RATIO t) (d.fld (tileClk R.TILE_CLK_CURRENT t))).setFld (tileClk R.TILE_CLK_SETTLING t) 0).setClk t
    (d.fld (tileClk R.TILE_CLK_CURRENT t))

/-- The tile runs at ratio x, set and in effect. -/
def settledAt (d : Dev) (t x : Nat) : Prop :=
  d.fld (tileClk R.TILE_CLK_RATIO t) = x ∧ d.clkAt t = x ∧ d.flag (tileClk R.TILE_CLK_SETTLING t) = false

theorem givenUp_spec (d : Dev) (t : Nat) : settledAt (givenUp d t) t (d.fld (tileClk R.TILE_CLK_CURRENT t)) ∧
    (givenUp d t).vidWait = d.vidWait ∧
    (∀ u, (givenUp d t).fld (tileClk R.TILE_CLK_CURRENT u) = d.fld (tileClk R.TILE_CLK_CURRENT u)) ∧
    ∀ u x, u ≠ t → settledAt d u x → settledAt (givenUp d t) u x := by
  obtain ⟨c, hc⟩ : ∃ c, d.fld (tileClk R.TILE_CLK_CURRENT t) = c := ⟨_, rfl⟩
  have hlt : c < 128 := hc ▸ getF_lt _ _ _
  obtain ⟨x, hx⟩ : ∃ x, d.setFld (tileClk R.TILE_CLK_RATIO t) c = x := ⟨_, rfl⟩
  obtain ⟨y, hy⟩ : ∃ y, x.setFld (tileClk R.TILE_CLK_SETTLING t) 0 = y := ⟨_, rfl⟩
  have hg : givenUp d t = y.setClk t c := by
    unfold givenUp
    rw [hc, hx, hy]
  have hreg (off : Nat) : (y.setClk t c).reg off = y.reg off := rfl
  have hfld (f : Field) : (y.setClk t c).fld f = y.fld f := rfl
  have hbare : bare y = bare d := (hy ▸ bare_setFld x _ _).trans (hx ▸ bare_setFld d _ _)
  have hother {u : Nat} (hu : u ≠ t) : y.reg (R.TILE_CLK_RATIO.reg + 8 * u) = d.reg (R.TILE_CLK_RATIO.reg + 8 * u) :=
    (hy ▸ reg_tile_other x R.TILE_CLK_SETTLING t 0 rfl hu).trans (hx ▸ reg_tile_other d R.TILE_CLK_RATIO t c rfl hu)
  rw [hg, hc]
  refine ⟨⟨?_, smap_get_set_same _ _ _ _, ?_⟩, (show (y.setClk t c).vidWait = y.vidWait from rfl).trans (of_bare (·.vidWait) (fun _ => rfl) hbare),
    fun u => ?_, fun u v hu ⟨h1, h2, h3⟩ => ⟨?_, ?_, ?_⟩⟩
  · rw [hfld, ← hy, fld_tile_apart x _ _ _ _ (by decide) (by decide), ← hx, fld_tile_same d _ _ _ (by decide) hlt]
  · exact (congrArg (· != 0) (hfld _)).trans (hy ▸ flag_setFld_zero x _ (show R.TILE_CLK_SETTLING.lo + R.TILE_CLK_SETTLING.width ≤ 64 by decide))
  · by_cases hu : u = t
    · rw [hu, hfld, ← hy, fld_tile_apart x _ _ _ _ (by decide) (by decide), ← hx, fld_tile_apart d _ _ _ _ (by decide) (by decide)]
    · exact congrArg R.TILE_CLK_CURRENT.get (hother hu)
  · exact (congrArg R.TILE_CLK_RATIO.get (hother hu)).trans h1
  · exact (smap_get_set_other _ _ _ _ _ hu).trans ((of_bare (·.clkAt u) (fun _ => rfl) hbare).trans h2)
  · exact (congrArg (fun w => R.TILE_CLK_SETTLING.get w != 0) (hother hu)).trans h3

theorem givenUps_spec (c : Nat → Nat) (ts : List Nat) (d : Dev) (hc : ∀ u, d.fld (tileClk R.TILE_CLK_CURRENT u) = c u) :
    (ts.foldl givenUp d).vidWait = d.vidWait ∧ ∀ t, t ∈ ts ∨ settledAt d t (c t) → settledAt (ts.foldl givenUp d) t (c t) := by
  induction ts generalizing d with
  | nil => exact ⟨rfl, fun t h => h.resolve_left (by simp)⟩
  | cons p ts ih =>
    obtain ⟨h1, h2, h3, h4⟩ := givenUp_spec d p
    obtain ⟨i1, i2⟩ := ih (givenUp d p) fun u => (h3 u).trans (hc u)
    rw [hc p] at h1
    rw [List.foldl_cons]
    refine ⟨i1.trans h2, fun t ht => i2 t ?_⟩
    by_cases htp : t = p
    · rw [htp]
      exact .inr h1
    · refine ht.imp (fun hm => (List.mem_cons.1 hm).resolve_left htp) (h4 t (c t) htp)

theorem vidTimeout_holds {s : State} {f : Nat} (hf : f < 4) (hw : ∀ t ∈ s.dev.vidWait, t < 144) (hn : s.dev.vidTiles f ≠ []) :
    MakesSome (.vidTimeout f) s fun e => e.vidWait = s.dev.vidWait.filter (fun t => tileFrond t != f) ∧
      ∀ t ∈ s.dev.vidTiles f, e.fld (tileClk R.TILE_CLK_RATIO t) = s.dev.fld (tileClk R.TILE_CLK_CURRENT t) ∧
        e.clkAt t = s.dev.fld (tileClk R.TILE_CLK_CURRENT t) ∧ e.flag (tileClk R.TILE_CLK_SETTLING t) = false := by
  obtain ⟨z, hz⟩ : ∃ z : Dev, ({ s.dev with vidWait := s.dev.vidWait.filter fun t => tileFrond t != f } : Dev) = z := ⟨_, rfl⟩
  have hzr : z.regs = s.dev.regs := (congrArg Dev.regs hz.symm).trans rfl
  have hzc (u : Nat) : z.fld (tileClk R.TILE_CLK_CURRENT u) = s.dev.fld (tileClk R.TILE_CLK_CURRENT u) := fld_of_regs hzr _
  have hzw : z.vidWait = s.dev.vidWait.filter fun t => tileFrond t != f := hz ▸ rfl
  obtain ⟨h1, h2⟩ := givenUps_spec _ (s.dev.vidTiles f) z hzc
  obtain ⟨w, hwe⟩ : ∃ w, (s.dev.vidTiles f).foldl givenUp z = w := ⟨_, rfl⟩
  rw [hwe] at h1 h2
  have hq := quiet_log w { source := 0x12, inst := f, cls := 5 }
  refine ⟨w.log { source := 0x12, inst := f, cls := 5 }, dev_makes (execVidTimeout.eq_def ..) (decide_eq_true hf) ?_,
    (of_quiet (·.vidWait) (fun _ => rfl) hq).trans (h1.trans hzw), fun t ht => ?_⟩
  · dsimp only
    rw [if_neg (by rw [List.isEmpty_iff]; exact hn), ← hwe, ← hz]
    rfl
  · obtain ⟨g1, g2, g3⟩ := h2 t (.inl ht)
    have hlt : t < 144 := hw t (List.mem_filter.1 ht).1
    have hrep : reported (R.TILE_CLK_RATIO.reg + 8 * t) = false := by
      rw [reported, Bool.or_eq_false_iff, show R.TILE_CLK_RATIO.reg = 0x9001000 from rfl]
      refine ⟨?_, Bool.and_eq_false_iff.2 (.inr (decide_eq_false ?_))⟩
      · have hb : ∀ k ∈ [R.ERR_STATUS_FAULT.reg, R.ERR_HEAD_INDEX.reg, R.ERR_TAIL_INDEX.reg, R.ERR_EVENT_RECORD.reg, R.IR_DROP_INVALID.reg],
          k < 0x9001000 := by decide
        rw [Bool.eq_false_iff, Ne, List.contains_iff_mem]
        intro hm
        have := hb _ hm
        omega
      · rw [show R.PEND_BITS.reg = 0x6010000 from rfl]
        omega
    exact ⟨(fld_log_other w _ (f := tileClk R.TILE_CLK_RATIO t) hrep).trans g1, (of_quiet (·.clkAt t) (fun _ => rfl) hq).trans g2,
      (flag_log_other w _ (f := tileClk R.TILE_CLK_SETTLING t) hrep).trans g3⟩

/-! ### The throttles -/

theorem stepDown_low {d : Dev} {t : Nat} (h : d.clkAt t ≤ 16) : d.stepDown t = d := if_pos h

theorem stepDown_high {d : Dev} {t : Nat} (ht : t < 144) (h : 16 < d.clkAt t) :
    (d.stepDown t).clkAt t = d.clkAt t - 1 ∧ (d.stepDown t).flag (tileClk R.TILE_CLK_THROTTLED t) = true ∧
    (d.stepDown t).fld (tileClk R.TILE_CLK_TEMP t) = d.fld (tileClk R.TILE_CLK_TEMP t) ∧
    (∀ u, u ≠ t → (d.stepDown t).clkAt u = d.clkAt u) ∧
    ∀ u, u < 144 → u ≠ t → (d.stepDown t).reg (R.TILE_CLK_RATIO.reg + 8 * u) = d.reg (R.TILE_CLK_RATIO.reg + 8 * u) := by
  have hr := retuned d t (d.clkAt t - 1)
  obtain ⟨e, he⟩ : ∃ e, d.retune t (d.clkAt t - 1) = e := ⟨_, rfl⟩
  have hs : d.stepDown t = e.setFld (tileClk R.TILE_CLK_THROTTLED t) 1 := (if_neg (Nat.not_le.2 h)).trans (by rw [he])
  rw [he] at hr
  rw [hs]
  refine ⟨(clkAt_setFld e 1 _ t).trans hr.clk, flag_setFld_one e _ (show R.TILE_CLK_THROTTLED.lo + R.TILE_CLK_THROTTLED.width ≤ 64 by decide)
    (show 0 < R.TILE_CLK_THROTTLED.width by decide), ?_, fun u hu => (clkAt_setFld e 1 _ u).trans (hr.others u hu),
    fun u hlt hu => (reg_tile_other e R.TILE_CLK_THROTTLED t 1 rfl hu).trans (hr.reg_other hlt hu)⟩
  exact (fld_tile_apart e R.TILE_CLK_THROTTLED R.TILE_CLK_TEMP t 1 (by decide) (by decide)).trans
    (hr.fld ht (k := R.TILE_CLK_TEMP) rfl (by decide))

/-- The tiles of a list step down once each. -/
theorem stepDowns_spec (ts : List Nat) (hnd : ts.Nodup) (hlt : ∀ t ∈ ts, t < 144) (d : Dev) {t : Nat} (ht : t < 144) :
    let e := ts.foldl (fun d t => d.stepDown t) d
    (e.clkAt t = if t ∈ ts ∧ 16 < d.clkAt t then d.clkAt t - 1 else d.clkAt t) ∧
    (t ∈ ts → 16 < d.clkAt t → e.flag (tileClk R.TILE_CLK_THROTTLED t) = true) ∧
    (t ∉ ts → e.reg (R.TILE_CLK_RATIO.reg + 8 * t) = d.reg (R.TILE_CLK_RATIO.reg + 8 * t)) := by
  induction ts generalizing d with
  | nil => exact ⟨(if_neg fun h => by simp at h).symm, fun h => absurd h (by simp), fun _ => rfl⟩
  | cons p ts ih =>
    obtain ⟨hp, hnd⟩ := List.nodup_cons.1 hnd
    have hp144 := hlt p List.mem_cons_self
    obtain ⟨i1, i2, i3⟩ := ih hnd (fun k hk => hlt k (List.mem_cons_of_mem _ hk)) (d.stepDown p)
    dsimp only
    rw [List.foldl_cons]
    by_cases hhigh : 16 < d.clkAt p
    · obtain ⟨s1, s2, -, s4, s5⟩ := stepDown_high hp144 hhigh
      by_cases htp : t = p
      · subst htp
        rw [if_neg (fun h => hp h.1), s1] at i1
        refine ⟨?_, fun _ _ => ?_, fun h => absurd List.mem_cons_self h⟩
        · rw [if_pos ⟨List.mem_cons_self, hhigh⟩]
          exact i1
        · exact (congrArg (fun w => R.TILE_CLK_THROTTLED.get w != 0) (i3 hp)).trans s2
      · have hmem : t ∈ p :: ts ↔ t ∈ ts := by simp [htp]
        rw [s4 t htp] at i1 i2
        simp only [hmem]
        exact ⟨i1, i2, fun h => (i3 h).trans (s5 t ht htp)⟩
    · rw [stepDown_low (Nat.not_lt.1 hhigh)] at i1 i2 i3 ⊢
      by_cases htp : t = p
      · subst htp
        rw [if_neg (fun h => hp h.1)] at i1
        exact ⟨i1.trans (if_neg (fun h => hhigh h.2)).symm, fun _ h => absurd h hhigh, fun h => absurd List.mem_cons_self h⟩
      · have hmem : t ∈ p :: ts ↔ t ∈ ts := by simp [htp]
        simp only [hmem]
        exact ⟨i1, i2, i3⟩

theorem powerThrottle_holds {s : State} {w : Nat} (hw : s.dev.wattLimit < w) : MakesSome (.powerThrottle w) s fun e => ∀ t, t < 144 →
    (s.dev.tileRuns t = true → s.dev.flag (tileClk R.TILE_CLK_PINNED t) = false → 16 < s.dev.clkAt t →
      e.clkAt t = s.dev.clkAt t - 1 ∧ e.flag (tileClk R.TILE_CLK_THROTTLED t) = true) ∧
    (s.dev.tileRuns t = false ∨ s.dev.flag (tileClk R.TILE_CLK_PINNED t) = true ∨ s.dev.clkAt t ≤ 16 → e.clkAt t = s.dev.clkAt t) := by
  obtain ⟨ts, hts⟩ : ∃ ts, (List.range 144).filter (fun t => s.dev.tileRuns t && !s.dev.flag (tileClk R.TILE_CLK_PINNED t)) = ts := ⟨_, rfl⟩
  have hnd : ts.Nodup := hts ▸ List.nodup_range.filter _
  have hlt : ∀ t ∈ ts, t < 144 := fun t ht => by
    rw [← hts] at ht
    exact List.mem_range.1 (List.mem_filter.1 ht).1
  refine ⟨ts.foldl (fun d t => d.stepDown t) s.dev, dev_makes (execPowerThrottle.eq_def ..) rfl ?_, fun t ht => ?_⟩
  · dsimp only
    rw [if_pos hw, hts]
  · have hmem : t ∈ ts ↔ s.dev.tileRuns t = true ∧ s.dev.flag (tileClk R.TILE_CLK_PINNED t) = false := by
      rw [← hts, List.mem_filter, List.mem_range, Bool.and_eq_true, Bool.not_eq_true']
      exact and_iff_right ht
    obtain ⟨h1, h2, -⟩ := stepDowns_spec ts hnd hlt s.dev ht
    refine ⟨fun hr hp hc => ⟨h1.trans (if_pos ⟨hmem.2 ⟨hr, hp⟩, hc⟩), h2 (hmem.2 ⟨hr, hp⟩) hc⟩, fun h => h1.trans (if_neg ?_)⟩
    rintro ⟨hm, hc⟩
    obtain ⟨hr, hp⟩ := hmem.1 hm
    rcases h with h | h | h
    · exact Bool.false_ne_true (h.symm.trans hr)
    · exact Bool.false_ne_true (hp.symm.trans h)
    · omega

theorem thermalThrottle_holds {s : State} {t c : Nat} (ht : t < 144) (hc : c < 256) (hl : s.dev.tjLimit < c) (hk : 16 < s.dev.clkAt t) :
    MakesSome (.thermalThrottle t c) s fun e => e.clkAt t = s.dev.clkAt t - 1 ∧ e.flag (tileClk R.TILE_CLK_THROTTLED t) = true ∧
      e.fld (tileClk R.TILE_CLK_TEMP t) = c := by
  obtain ⟨y, hy⟩ : ∃ y, s.dev.setFld (tileClk R.TILE_CLK_TEMP t) c = y := ⟨_, rfl⟩
  have h1 : y.clkAt t = s.dev.clkAt t := hy ▸ clkAt_setFld s.dev c _ t
  have h2 : y.fld (tileClk R.TILE_CLK_TEMP t) = c := hy ▸ fld_tile_same s.dev R.TILE_CLK_TEMP t c (by decide) (show c < 2 ^ 8 from hc)
  have h3 : y.tjLimit = s.dev.tjLimit := by
    refine congrArg (Nat.min 105) (hy ▸ fld_setFld_reg s.dev (tileClk R.TILE_CLK_TEMP t) R.PWR_CTL_TJ_THROTTLE c (Nat.ne_of_lt ?_))
    exact Nat.lt_of_lt_of_le (show R.PWR_CTL_TJ_THROTTLE.reg < R.TILE_CLK_TEMP.reg by decide) (Nat.le_add_right _ _)
  obtain ⟨s1, s2, s3, -, -⟩ := stepDown_high (d := y) ht (h1.symm ▸ hk)
  refine ⟨y.stepDown t, dev_makes (execThermalThrottle.eq_def ..) (decide_eq_true ht) ?_, s1.trans (by rw [h1]), s2, s3.trans h2⟩
  dsimp only
  rw [hy, if_pos]
  rw [h3, decide_eq_true hl, Bool.true_or]

theorem tileClocks_hold : tileClocks := by
  intro s d clk
  refine ⟨fun req t v hr ht => tileRatioWrite_holds v hr ht, fun p hp => ⟨fun h => ?_, fun hr hw => pllSettle_holds hp hr hw⟩,
    fun f mv hf hmv hw => ⟨vidAck_holds hf hmv, fun h => ?_, fun h => vidTimeout_holds hf hw h⟩, fun w hw => powerThrottle_holds hw,
    fun w h1 h2 => ?_, fun t c ht hc hl hk => thermalThrottle_holds ht hc hl hk⟩
  · refine dev_makes (e := s.dev) (execPllSettle.eq_def ..) (decide_eq_true hp) (if_pos ?_)
    rcases h with h | h
    · rw [show s.dev.flag R.CLK_STATUS_REFCLK_OK = false from h]
      rfl
    · rw [show s.dev.vidWait.contains p = true from h, Bool.or_true]
  · exact dev_makes (e := s.dev) (execVidTimeout.eq_def ..) (decide_eq_true hf) (if_pos (List.isEmpty_iff.2 h))
  · exact dev_makes (e := s.dev) (execPowerThrottle.eq_def ..) rfl ((if_neg (Nat.not_lt.2 h1)).trans (if_neg (Nat.not_lt.2 h2)))

/-- Settles O40: a retuned tile writes its own clock register, its target and its PLL alone, so tiles are told apart. -/
theorem clocksAndPower : Obligations.ClocksAndPower := ⟨clockLossAndDeepPark_hold, tileClocks_hold⟩

end Sys2Proof.Proofs
end

