-- ==== Sys2Proof/Proofs/Errors.lean ====
section
/-!
PROOFS. The error ring's tail, the events held for the steward, buckets, mesh routes and confirmation tests (R337 to R361).
-/

namespace Sys2Proof.Proofs

open Sys2Proof Sys2Proof.Machine Sys2Proof.Laws

/-! ### The tail of the ring -/

/-- The number of records between the tail and an index. -/
def tailDist (d : Dev) (n : Nat) : Nat :=
  let x := (n + 1024 - d.fld R.ERR_TAIL_INDEX) % 1024
  if x = 0 ∧ d.flag R.ERR_HEAD_FULL = true then 1024 else x

theorem errTailWrite_eq (d : Dev) (v : Word) : d.errTailWrite v =
    if tailDist d (v.extractLsb' 0 10).toNat ≤ d.unread ∧ tailDist d (v.extractLsb' 0 10).toNat ≠ 0 then
      (d.setFld R.ERR_TAIL_INDEX (v.extractLsb' 0 10).toNat).setFld R.ERR_HEAD_FULL 0
    else d := by
  unfold Dev.errTailWrite tailDist
  rw [getF_eq_extract]
  dsimp only
  simp only [Bool.and_eq_true, beq_iff_eq, bne_iff_ne, decide_eq_true_eq]

/-- The device whose tail has moved. -/
def tailMoved (d : Dev) (n : Nat) : Dev := (d.setFld R.ERR_TAIL_INDEX n).setFld R.ERR_HEAD_FULL 0

theorem tailMoved_spec (d : Dev) {n : Nat} (hn : n < 1024) : (tailMoved d n).fld R.ERR_TAIL_INDEX = n ∧
    (tailMoved d n).flag R.ERR_HEAD_FULL = false ∧ (tailMoved d n).ring = d.ring ∧
    (tailMoved d n).fld R.ERR_HEAD_INDEX = d.fld R.ERR_HEAD_INDEX := by
  obtain ⟨x, hx⟩ : ∃ x, d.setFld R.ERR_TAIL_INDEX n = x := ⟨_, rfl⟩
  have h1 : x.fld R.ERR_TAIL_INDEX = n := hx ▸ fld_setFld_lt d (by decide) hn
  have h2 : x.fld R.ERR_HEAD_INDEX = d.fld R.ERR_HEAD_INDEX := hx ▸ fld_setFld_reg d _ _ _ (by decide)
  have h3 : bare x = bare d := hx ▸ bare_setFld d _ _
  unfold tailMoved
  rw [hx]
  exact ⟨(fld_setFld_reg x _ _ _ (by decide)).trans h1, flag_setFld_zero x _ (by decide),
    of_bare (·.ring) (fun _ => rfl) ((bare_setFld x _ _).trans h3), (fld_setFld_apart x _ _ _ (by decide) (by decide)).trans h2⟩

theorem unread_tailMoved {d : Dev} {n : Nat} (hn : n < 1024) (h : tailDist d n ≤ d.unread)
    (hf : d.flag R.ERR_HEAD_FULL = true → d.fld R.ERR_HEAD_INDEX = d.fld R.ERR_TAIL_INDEX) :
    (tailMoved d n).unread = d.unread - tailDist d n := by
  obtain ⟨h1, h2, -, h4⟩ := tailMoved_spec d hn
  have hh : d.fld R.ERR_HEAD_INDEX < 1024 := getF_lt _ _ _
  have ht : d.fld R.ERR_TAIL_INDEX < 1024 := getF_lt _ _ _
  have hu : (tailMoved d n).unread = (d.fld R.ERR_HEAD_INDEX + 1024 - n) % 1024 := by
    unfold Dev.unread
    rw [h2, if_neg Bool.false_ne_true, h1, h4]
  rw [hu]
  unfold Dev.unread tailDist at *
  cases hfull : d.flag R.ERR_HEAD_FULL with
  | true =>
    have he := hf hfull
    rw [hfull] at h
    simp only [if_true, and_true] at h ⊢
    by_cases hx : (n + 1024 - d.fld R.ERR_TAIL_INDEX) % 1024 = 0
    · rw [if_pos hx] at h ⊢
      omega
    · rw [if_neg hx] at h ⊢
      omega
  | false =>
    rw [hfull] at h
    simp only [Bool.false_eq_true, and_false, if_false] at h ⊢
    omega

/-! ### The events -/

/-- The registers below the interrupt block stand. -/
def lowStands (d e : Dev) : Prop := ∀ off, off < R.IR_DROP_INVALID.reg → e.reg off = d.reg off

section
variable {d e : Dev} (h : lowStands d e)
include h

theorem lowStands_setReg {off : Nat} (v : Word) (ho : R.IR_DROP_INVALID.reg ≤ off) : lowStands d (e.setReg off v) := fun k hk =>
  (reg_setReg_other _ _ _ _ (by omega)).trans (h k hk)

theorem lowStands_deliver (target v : Nat) : lowStands d (e.deliver target v) := by
  unfold Dev.deliver
  split
  · exact lowStands_setReg h _ (by decide)
  · split
    · split
      · exact h
      · exact lowStands_setReg h _ (by decide)
    · split
      · exact lowStands_setReg h _ (Nat.le_trans (show R.IR_DROP_INVALID.reg ≤ R.PEND_BITS.reg by decide) (by omega))
      · exact lowStands_setReg h _ (by decide)

theorem lowStands_routeEvent (n : Nat) : lowStands d (e.routeEvent n) := by
  unfold Dev.routeEvent
  split
  · exact lowStands_deliver h _ _
  · exact h

theorem lowStands_rise (old : Dev) : lowStands d (Dev.rise old e) := by
  unfold Dev.rise
  have h1 : lowStands d (if e.lineHigh 0 && !old.lineHigh 0 then e.routeEvent 0 else e) := by
    split
    · exact lowStands_routeEvent h 0
    · exact h
  dsimp only
  split
  · exact lowStands_routeEvent h1 1
  · exact h1

end

theorem releaseEvents_spec {d : Dev} (h : d.evHeld ≠ 0) : d.releaseEvents.evHeld = 0 ∧
    d.releaseEvents.reg R.ERR_EVENT_RECORD.reg = d.reg R.ERR_EVENT_RECORD.reg ||| BitVec.ofNat 64 d.evHeld := by
  obtain ⟨e, he⟩ : ∃ e : Dev, ({ d with evHeld := 0 } : Dev) = e := ⟨_, rfl⟩
  have h0 : e.evHeld = 0 := he ▸ rfl
  have hr : e.regs = d.regs := (congrArg Dev.regs he.symm).trans rfl
  have hre : d.releaseEvents = Dev.rise e (e.setReg R.ERR_EVENT_RECORD.reg (e.reg R.ERR_EVENT_RECORD.reg ||| word d.evHeld)) := by
    rw [← he]
    exact if_neg (by rw [beq_iff_eq]; exact h)
  rw [hre]
  refine ⟨(of_bare (·.evHeld) (fun _ => rfl) ((bare_rise _ _).trans (bare_setReg e _ _))).trans h0, ?_⟩
  refine (lowStands_rise (fun _ _ => rfl) e R.ERR_EVENT_RECORD.reg (by decide)).trans ((reg_setReg_same _ _ _).trans ?_)
  rw [show e.reg R.ERR_EVENT_RECORD.reg = d.reg R.ERR_EVENT_RECORD.reg from congrArg (fun m => SMap.get coldValue m _) hr]

/-! ### The buckets -/

theorem bucketDecay_holds {s : State} (h : s.dev.frame.toNat % 65536 = 0) (hw : SMap.wf (fun _ => ({} : ErrUnit)) s.dev.units = true) :
    MakesSome .bucketDecay s fun e => ∀ k i, e.unitAt k i = { s.dev.unitAt k i with bucket := (s.dev.unitAt k i).bucket - 1 } := by
  refine ⟨{ s.dev with
    units := SMap.filterMap (fun _ => {}) (fun _ u => some { u with bucket := u.bucket - 1 }) s.dev.units },
    dev_makes (execBucketDecay.eq_def ..) rfl (if_pos (beq_iff_eq.2 h)), fun k i => ?_⟩
  exact smap_get_filterMap (fun _ => ({} : ErrUnit)) (fun _ u => some { u with bucket := u.bucket - 1 }) _ hw rfl

/-! ### Candidates -/

/-- A device whose unit records beside one stand. -/
def unitsBeside (d : Dev) (key : Nat) (m : SMap ErrUnit) : Prop :=
  ∀ k, k ≠ key → SMap.get (fun _ => ({} : ErrUnit)) m k = SMap.get (fun _ => {}) d.units k

theorem candidate_quiet (d : Dev) (kind inst cls a : Nat) : ∃ m, quiet (d.candidate kind inst cls a) = quiet { d with units := m } ∧
    unitsBeside d (kind * 65536 + inst) m := by
  unfold Dev.candidate
  extract_lets u x
  split
  · exact ⟨d.units, rfl, fun _ _ => rfl⟩
  · exact ⟨_, quiet_log x _, fun k hk => smap_get_set_other _ _ _ _ _ hk⟩

theorem keepsRegs_candidate (d : Dev) (kind inst cls a : Nat) : keepsRegs d (d.candidate kind inst cls a) := by
  unfold Dev.candidate
  extract_lets u x
  split
  · exact keepsRegs_refl d
  · exact keepsRegs_trans (keepsRegs_of_regs (keepsRegs_refl d) rfl) (keepsRegs_log x _)

/-! ### Mesh routes -/

theorem candidate_unit {d : Dev} (kind inst cls a : Nat) {k i : Nat} (h : k * 65536 + i ≠ kind * 65536 + inst) :
    (d.candidate kind inst cls a).unitAt k i = d.unitAt k i := by
  obtain ⟨m, hm, ho⟩ := candidate_quiet d kind inst cls a
  exact (of_quiet (·.unitAt k i) (fun _ => rfl) hm).trans (ho _ h)

theorem candidate_stops (d : Dev) (kind inst cls a : Nat) : (d.candidate kind inst cls a).routes = d.routes ∧
    (d.candidate kind inst cls a).lostStops = d.lostStops := by
  obtain ⟨m, hm, -⟩ := candidate_quiet d kind inst cls a
  exact ⟨(of_quiet (·.routes) (fun _ => rfl) hm).trans rfl, (of_quiet (·.lostStops) (fun _ => rfl) hm).trans rfl⟩

theorem loseStop_spec (d : Dev) {t l : Nat} (ht : t < 144) (hl : l < 264) : (d.loseStop t).routes = d.routes ∧
    (d.loseStop t).lostStops = t :: d.lostStops ∧ (d.loseStop t).unitAt 3 l = d.unitAt 3 l := by
  unfold Dev.loseStop
  extract_lets hit x y
  have hx : x.routes = d.routes ∧ x.lostStops = t :: d.lostStops ∧ x.unitAt 3 l = d.unitAt 3 l := ⟨rfl, rfl, rfl⟩
  have hq : quiet y = quiet x := quiet_log x _
  clear_value y x
  obtain ⟨h1, h2, h3⟩ := hx
  obtain ⟨a1, a2⟩ := candidate_stops y 4 (2 * t) 1 0
  obtain ⟨b1, b2⟩ := candidate_stops (y.candidate 4 (2 * t) 1 0) 4 (2 * t + 1) 1 0
  refine ⟨b1.trans (a1.trans ((of_quiet (·.routes) (fun _ => rfl) hq).trans h1)),
    b2.trans (a2.trans ((of_quiet (·.lostStops) (fun _ => rfl) hq).trans h2)), ?_⟩
  rw [candidate_unit _ _ _ _ (by omega), candidate_unit _ _ _ _ (by omega)]
  exact (of_quiet (·.unitAt 3 l) (fun _ => rfl) hq).trans h3

theorem joined_congr {d e : Dev} (h : e.routes = d.routes) (a b : Nat) : e.joined a b = d.joined a b := by
  unfold Dev.joined Dev.rowClear Dev.colClear
  rw [h]

/-- Every stop that the routes leave out is lost. -/
theorem loseStops_spec (ts : List Nat) (hts : ∀ t ∈ ts, t < 144) {l : Nat} (hl : l < 264) (d : Dev) :
    let e := ts.foldl (fun d t => if d.lostStops.contains t || d.joined 5 t then d else d.loseStop t) d
    e.routes = d.routes ∧ e.unitAt 3 l = d.unitAt 3 l ∧ ∀ t, t ∈ d.lostStops ∨ (t ∈ ts ∧ d.joined 5 t = false) → t ∈ e.lostStops := by
  induction ts generalizing d with
  | nil => exact ⟨rfl, rfl, fun t h => h.resolve_right fun h => by simp at h⟩
  | cons p ts ih =>
    have tail := fun t ht => hts t (List.mem_cons_of_mem p ht)
    dsimp only
    rw [List.foldl_cons]
    by_cases hc : (d.lostStops.contains p || d.joined 5 p) = true
    · rw [if_pos hc]
      obtain ⟨i1, i2, i3⟩ := ih tail d
      refine ⟨i1, i2, fun t ht => i3 t ?_⟩
      rcases ht with ht | ⟨hm, hj⟩
      · exact .inl ht
      · rcases List.mem_cons.1 hm with rfl | hm
        · rw [hj, Bool.or_false, List.contains_iff_mem] at hc
          exact .inl hc
        · exact .inr ⟨hm, hj⟩
    · rw [if_neg hc]
      obtain ⟨s1, s2, s3⟩ := loseStop_spec d (hts p List.mem_cons_self) hl
      obtain ⟨i1, i2, i3⟩ := ih tail (d.loseStop p)
      refine ⟨i1.trans s1, i2.trans s3, fun t ht => i3 t ?_⟩
      rw [s2, joined_congr s1]
      rcases ht with ht | ⟨hm, hj⟩
      · exact .inl (List.mem_cons_of_mem _ ht)
      · rcases List.mem_cons.1 hm with rfl | hm
        · exact .inl List.mem_cons_self
        · exact .inr ⟨hm, hj⟩

theorem showRepairs_quiet (d : Dev) : quiet d.showRepairs = quiet d := by
  unfold Dev.showRepairs
  extract_lets used
  rw [quiet_setFld, quiet_setFld]

/-- An entry of the repair record changes the record alone. -/
theorem addRepair_quiet (d : Dev) (r : Repair) (source : Nat) : quiet (d.addRepair r source) =
    quiet { d with repairs := if d.repairs.length < 16384 then d.repairs ++ [r] else d.repairs } := by
  unfold Dev.addRepair
  by_cases h : d.repairs.length < 16384
  · rw [if_pos h, if_pos h]
    exact showRepairs_quiet _
  · rw [if_neg h, if_neg h]
    exact quiet_log d _

theorem routeRecompute_holds {s : State} {l : Nat} (hl : l < 264) (h : SMap.get (fun _ => false) s.dev.routes l = false) :
    MakesSome (.routeRecompute l) s fun e => SMap.get (fun _ => false) e.routes l = true ∧ (e.unitAt 3 l).retired = true ∧
      ∀ t, t < 144 → e.joined 5 t = false → t ∈ e.lostStops := by
  obtain ⟨x, hx⟩ : ∃ x : Dev, ({ s.dev with routes := SMap.set (fun _ => false) s.dev.routes l true } : Dev) = x := ⟨_, rfl⟩
  have hxr : SMap.get (fun _ => false) x.routes l = true := by
    rw [← hx]
    exact smap_get_set_same (fun _ => false) s.dev.routes l true
  obtain ⟨y, hy⟩ : ∃ y, x.addRepair (retiredUnit s.dev 3 l 0) 9 = y := ⟨_, rfl⟩
  have hyq : quiet y = quiet _ := hy ▸ addRepair_quiet x _ _
  have hyr : y.routes = x.routes := (of_quiet (·.routes) (fun _ => rfl) hyq).trans rfl
  obtain ⟨z, hz⟩ : ∃ z, (y.setUnit 3 l { s.dev.unitAt 3 l with retired := true, candidate := false }).log
    { source := 9, inst := l, cls := 4, action := 3, bucket := (s.dev.unitAt 3 l).bucket, location := 0 } = z := ⟨_, rfl⟩
  have hzq := hz ▸ quiet_log (y.setUnit 3 l { s.dev.unitAt 3 l with retired := true, candidate := false }) _
  have hzr : z.routes = y.routes := (of_quiet (·.routes) (fun _ => rfl) hzq).trans rfl
  have hzu : z.unitAt 3 l = { s.dev.unitAt 3 l with retired := true, candidate := false } :=
    (of_quiet (·.unitAt 3 l) (fun _ => rfl) hzq).trans (smap_get_set_same _ _ _ _)
  obtain ⟨h1, h2, h3⟩ := loseStops_spec (List.range 144) (fun t ht => List.mem_range.1 ht) hl z
  refine ⟨_, dev_makes (execRouteRecompute.eq_def ..) (decide_eq_true hl) ?_, ?_, ?_, fun t ht hj => h3 t (.inr ⟨List.mem_range.2 ht, ?_⟩)⟩
  · dsimp only
    rw [if_neg (by rw [h]; exact Bool.false_ne_true), hx, hy, hz]
  · rw [h1, hzr, hyr, hxr]
  · rw [h2, hzu]
  · rw [← hj]
    exact (joined_congr h1 5 t).symm

/-! ### Confirmation tests -/

theorem clearCandidate_spec (d : Dev) (kind inst : Nat) : ((d.clearCandidate kind inst).unitAt kind inst).bucket = 0 ∧
    ((d.clearCandidate kind inst).unitAt kind inst).candidate = false ∧
    ((d.clearCandidate kind inst).unitAt kind inst).retired = (d.unitAt kind inst).retired := by
  have h : (d.clearCandidate kind inst).unitAt kind inst = { d.unitAt kind inst with bucket := 0, candidate := false } :=
    (of_quiet (·.unitAt kind inst) (fun _ => rfl) (quiet_log _ _)).trans (smap_get_set_same _ _ _ _)
  rw [h]
  exact ⟨rfl, rfl, rfl⟩

theorem rowFault_spec {d : Dev} {inst : Nat} (h : d.repairs.length < 16384) : ((d.rowFault inst).unitAt 7 inst).retired = true ∧
    (d.rowFault inst).repairs = d.repairs ++ [⟨3, 7, 0, inst, 0, 0, 0, false, false, d.frame⟩] := by
  obtain ⟨x, hx⟩ : ∃ x, d.setUnit 7 inst { d.unitAt 7 inst with retired := true, candidate := false } = x := ⟨_, rfl⟩
  have hxu : x.unitAt 7 inst = { d.unitAt 7 inst with retired := true, candidate := false } := hx ▸ smap_get_set_same _ _ _ _
  have hxr : x.repairs = d.repairs := hx ▸ rfl
  have hxf : x.frame = d.frame := hx ▸ rfl
  have hq : quiet (d.rowFault inst) = quiet { x with repairs := x.repairs ++ [retiredUnit x 7 inst 0] } := by
    unfold Dev.rowFault
    extract_lets u y
    have hy : y = x := hx
    rw [hy, quiet_log, addRepair_quiet, if_pos (hxr ▸ h)]
  refine ⟨congrArg ErrUnit.retired ((of_quiet (·.unitAt 7 inst) (fun _ => rfl) hq).trans hxu), (of_quiet (·.repairs) (fun _ => rfl) hq).trans ?_⟩
  rw [hxr, retiredUnit, hxf]

/-- Settles O41: each report ends in a record, which leaves units, routes and repairs as the command set them. -/
theorem errorsEventsAndTests : Obligations.ErrorsEventsAndTests := by
  intro s d dist
  refine ⟨fun req v hr => ?_, fun c hc => ?_, fun h => ?_, fun h hw => bucketDecay_holds h hw, fun l hl => ⟨fun h => ?_, fun h => routeRecompute_holds hl h⟩,
    fun kind inst o => ⟨fun h => ?_, fun hu ht => ?_, fun hk ho => ?_, fun hk hu ho hd hlen => ?_⟩⟩
  · have hn : (v.extractLsb' 0 10).toNat < 1024 := (v.extractLsb' 0 10).isLt
    have hx {e : Dev} (he : s.dev.errTailWrite v = e) : Makes (.errTailWrite req v) s e := dev_makes (execErrTailWrite.eq_def ..) hr he
    refine ⟨fun h => hx ((errTailWrite_eq s.dev v).trans (if_neg ?_)), fun h0 hle => ?_⟩
    · rintro ⟨h1, h2⟩
      exact h.elim h2 (fun h => absurd h1 (Nat.not_le.2 h))
    · obtain ⟨h1, h2, h3, -⟩ := tailMoved_spec s.dev hn
      exact ⟨_, hx ((errTailWrite_eq s.dev v).trans (if_pos ⟨hle, Nat.pos_iff_ne_zero.1 h0⟩)), h1, h2, h3, unread_tailMoved hn hle⟩
  · have hx {e : Dev} (he : s.dev.releaseEvents = e) : Makes c s e := by
      rcases hc with rfl | rfl
      · exact dev_makes (execErrEventTimeout.eq_def ..) rfl he
      · exact dev_makes (execStewardAcknowledge.eq_def ..) rfl he
    exact ⟨fun h => hx (if_pos (beq_iff_eq.2 h)), fun h => ⟨_, hx rfl, releaseEvents_spec h⟩⟩
  · exact dev_makes (e := s.dev) (execBucketDecay.eq_def ..) rfl (if_neg (by rw [beq_iff_eq]; exact h))
  · exact dev_makes (e := s.dev) (execRouteRecompute.eq_def ..) (decide_eq_true hl) (if_pos h)
  · exact (execConfirmationTest.eq_def ..).trans (if_pos (by rw [show s.dev.underTest kind inst = false from h]; rfl))
  · refine ⟨_, (execConfirmationTest.eq_def ..).trans ((if_neg (by rw [show s.dev.underTest kind inst = true from hu]; decide)).trans
      (if_pos ?_)), clearCandidate_spec s.dev kind inst⟩
    rw [show s.dev.thirdCandidacy kind inst = false from ht]
    rfl
  · refine (execConfirmationTest.eq_def ..).trans ?_
    split
    · rfl
    · rw [if_neg (by rw [beq_eq_false_iff_ne.2 ho, Bool.false_and]; exact Bool.false_ne_true)]
      rcases hk with rfl | rfl
      · rfl
      · rfl
  · subst hk
    refine ⟨_, (execConfirmationTest.eq_def ..).trans ((if_neg (by rw [show s.dev.underTest 7 inst = true from hu]; decide)).trans
      ((if_neg (by rw [beq_eq_false_iff_ne.2 ho, Bool.false_and]; exact Bool.false_ne_true)).trans (congrArg _ ?_))), rowFault_spec hlen⟩
    exact congrArg (fun e => ({ s with dev := e } : State)) (if_neg (by rw [show s.dev.duty 8 = false from hd]; exact Bool.false_ne_true))

end Sys2Proof.Proofs
end

