-- ==== Sys2Proof/Proofs/Transplant.lean ====
section
/-!
PROOFS. The transplant of a core: its source, its target, withdrawal, and the source's test (R353 to R357, R362).
-/

namespace Sys2Proof.Proofs

open Sys2Proof Sys2Proof.Machine Sys2Proof.Laws

/-! ### The registers of the cores -/

/-- The registers of the core map, of the core states and of transplants stand. -/
def coreRegs (d e : Dev) : Prop := ∀ off, off < 0x6040 → reported off = false → e.reg off = d.reg off

section
variable {d e : Dev}

theorem coreRegs_refl (d : Dev) : coreRegs d d := fun _ _ _ => rfl

theorem coreRegs_of_keepsRegs (h : keepsRegs d e) : coreRegs d e := fun off _ hr => h off hr

theorem coreRegs_of_regs (h : e.regs = d.regs) : coreRegs d e := fun off _ _ => congrArg (fun m => SMap.get coldValue m off) h

theorem coreRegs_trans {x : Dev} (h : coreRegs d e) (k : coreRegs e x) : coreRegs d x := fun off ho hr =>
  (k off ho hr).trans (h off ho hr)

theorem coreRegs_ite {p : Prop} [Decidable p] {a b : Dev} (ha : coreRegs d a) (hb : coreRegs d b) : coreRegs d (if p then a else b) := by
  split
  · exact ha
  · exact hb

theorem coreRegs_setReg (d : Dev) {off : Nat} (v : Word) (ho : 0x6040 ≤ off) : coreRegs d (d.setReg off v) := fun k hk _ =>
  reg_setReg_other _ _ _ _ (by omega)

theorem coreRegs_setFld (d : Dev) (f : Field) (x : Nat) (ho : 0x6040 ≤ f.reg) : coreRegs d (d.setFld f x) := coreRegs_setReg d _ ho

theorem coreRegs_foldl {α : Type} (f : Dev → α → Dev) (hf : ∀ d a, coreRegs d (f d a)) (xs : List α) (d : Dev) : coreRegs d (xs.foldl f d) := by
  induction xs generalizing d with
  | nil => exact coreRegs_refl d
  | cons a xs ih => exact coreRegs_trans (hf d a) (ih _)

theorem fld_of_coreRegs (h : coreRegs d e) {f : Field} (ho : f.reg < 0x6040) (hr : reported f.reg = false) : e.fld f = d.fld f :=
  congrArg f.get (h f.reg ho hr)

/-- The registers of the core map and of the core states are none that a report writes. -/
theorem reported_core {off : Nat} (h1 : 0x30 < off) (h2 : off < 0x6000) : reported off = false := by
  rw [reported, Bool.or_eq_false_iff]
  refine ⟨?_, Bool.and_eq_false_iff.2 (.inl (decide_eq_false (Nat.not_le.2 (Nat.lt_trans h2 (by decide)))))⟩
  have hb : ∀ k ∈ [R.ERR_STATUS_FAULT.reg, R.ERR_HEAD_INDEX.reg, R.ERR_TAIL_INDEX.reg, R.ERR_EVENT_RECORD.reg, R.IR_DROP_INVALID.reg],
      0x6000 ≤ k := by decide
  rw [Bool.eq_false_iff, Ne, List.contains_iff_mem]
  intro hm
  have := hb _ hm
  omega

theorem coreRegs_checkArray (d : Dev) (grp c g : Nat) (ws : List Nat) : coreRegs d (d.checkArray grp c g ws) := by
  unfold Dev.checkArray
  extract_lets l fs rep f
  split
  · exact coreRegs_refl d
  · split
    · exact coreRegs_refl d
    · exact coreRegs_of_keepsRegs (keepsRegs_log _ _)
    · exact coreRegs_ite (coreRegs_of_keepsRegs (keepsRegs_log _ _)) (coreRegs_of_keepsRegs (keepsRegs_log _ _))
    · exact coreRegs_of_regs rfl

theorem coreRegs_writeBack (d : Dev) (c g : Nat) : coreRegs d (d.writeBack c g) := by
  have h1 : coreRegs d (d.checkLine c g allWords) :=
    coreRegs_ite (coreRegs_refl d) (coreRegs_trans (coreRegs_checkArray _ _ _ _ _) (coreRegs_checkArray _ _ _ _ _))
  unfold Dev.writeBack
  extract_lets x l y z
  have hz : z.regs = x.regs := by
    change (if isPeat g then _ else _ : Dev).regs = _
    split
    · rfl
    · rfl
  exact coreRegs_ite (coreRegs_trans h1 (coreRegs_of_regs hz)) h1

theorem coreRegs_sendOpen (d : Dev) (c : Nat) : coreRegs d (d.sendOpen c) :=
  coreRegs_foldl _ (fun d _ => coreRegs_ite (coreRegs_writeBack d c _) (coreRegs_refl d)) _ d

theorem coreRegs_coreEnable_off (d : Dev) (c x : Nat) : coreRegs d (d.coreEnable c x false) := by
  have hb (k : Nat) : 0x6040 ≤ (coreCtl c k).reg := Nat.le_trans (show 0x6040 ≤ R.CORE_CACHE_CTL_L2_EN.reg by decide) (Nat.le_add_right _ _)
  unfold Dev.coreEnable
  refine coreRegs_ite (coreRegs_refl d) (coreRegs_ite (coreRegs_refl d) ?_)
  rw [if_neg Bool.false_ne_true]
  exact coreRegs_trans (coreRegs_setFld d _ _ (hb _)) (coreRegs_setFld _ _ _ (hb _))

theorem coreRegs_disableSource (d : Dev) (c : Nat) : coreRegs d (d.disableSource c) :=
  coreRegs_trans (coreRegs_trans (coreRegs_coreEnable_off d c 0) (coreRegs_coreEnable_off _ c 1)) (coreRegs_coreEnable_off _ c 2)

theorem coreRegs_copyCoreRegs (d : Dev) (a b : Nat) : coreRegs d (d.copyCoreRegs a b) := by
  have hb (f : Field) (hf : 0x6040 ≤ f.reg) (stride off : Nat) : 0x6040 ≤ (tileAt f b stride).reg + off :=
    Nat.le_trans hf (Nat.le_trans (Nat.le_add_right _ _) (Nat.le_add_right _ _))
  unfold Dev.copyCoreRegs
  extract_lets copy x y ctl
  have hx : coreRegs d x := coreRegs_foldl _ (fun d i => coreRegs_setReg d _ (hb R.PMC_CTL_EVENT (by decide) 0x800 (8 * i))) _ d
  have hy : coreRegs x y := coreRegs_setReg x _ (hb R.PHELD_COUNT (by decide) 0x800 0)
  clear_value ctl y x
  exact coreRegs_trans hx (coreRegs_trans hy (coreRegs_setReg y _ (hb R.CORE_CACHE_CTL_L1I_EN (by decide) 0x100 0)))

theorem coreRegs_emptyCore (d : Dev) (t : Nat) : coreRegs d (d.emptyCore t) := coreRegs_of_regs rfl

theorem coreRegs_flushBtb (d : Dev) (t : Nat) : coreRegs d (d.flushBtb t) := coreRegs_of_regs rfl

theorem coreRegs_count (d : Dev) (g : Nat) (x : Strand) (ev : Nat) : coreRegs d (d.count g x ev) := by
  refine coreRegs_ite (coreRegs_refl d) (coreRegs_foldl _ (fun d i => ?_) _ d)
  unfold Dev.countOne
  refine coreRegs_ite (coreRegs_setReg d _ ?_) (coreRegs_refl d)
  exact Nat.le_trans (show 0x6040 ≤ R.PMC_COUNT.reg by decide) (Nat.le_trans (Nat.le_add_right _ _) (Nat.le_add_right _ _))

end

/-! ### Halts -/

theorem srWrite_registers (x : Strand) (sr : BitVec 12) (v : Word) (lvl : Nat) : (x.srWrite sr v lvl).n = x.n ∧ (x.srWrite sr v lvl).v = x.v := by
  unfold Strand.srWrite
  extract_lets k b
  have bank (y : Bank) : (x.setBank b y).n = x.n ∧ (x.setBank b y).v = x.v := by
    unfold Strand.setBank
    split
    · exact ⟨rfl, rfl⟩
    · exact ⟨rfl, rfl⟩
  have ite {p : Prop} [Decidable p] {a b : Strand} (ha : a.n = x.n ∧ a.v = x.v) (hb : b.n = x.n ∧ b.v = x.v) :
      (if p then a else b).n = x.n ∧ (if p then a else b).v = x.v := by
    split
    · exact ha
    · exact hb
  have same : x.n = x.n ∧ x.v = x.v := ⟨rfl, rfl⟩
  exact ite ⟨rfl, rfl⟩ (ite ⟨rfl, rfl⟩ (ite ⟨rfl, rfl⟩ (ite ⟨rfl, rfl⟩ (ite ⟨rfl, rfl⟩ (ite ⟨rfl, rfl⟩ (ite ⟨rfl, rfl⟩ (ite ⟨rfl, rfl⟩
    (ite ⟨rfl, rfl⟩ (ite same (ite same (bank _)))))))))))

theorem closeShadow_registers (s : State) (g : Nat) : ((s.closeShadow g).strand g).n = (s.strand g).n ∧
    ((s.closeShadow g).strand g).v = (s.strand g).v ∧ (s.closeShadow g).dev.regs = s.dev.regs := by
  unfold State.closeShadow
  dsimp only
  split
  · exact ⟨rfl, rfl, rfl⟩
  · next sh _ =>
    obtain ⟨h1, h2⟩ := srWrite_registers (s.strand g) sh.sr sh.val sh.lvl
    have hs : (s.setStrand g { (s.strand g).srWrite sh.sr sh.val sh.lvl with shadow := none }).strand g =
      { (s.strand g).srWrite sh.sr sh.val sh.lvl with shadow := none } := strand_setStrand_same _ _ _
    split
    · refine ⟨(congrArg Strand.n ((strand_dev _ _ _).trans hs)).trans h1, (congrArg Strand.v ((strand_dev _ _ _).trans hs)).trans h2, rfl⟩
    · exact ⟨(congrArg Strand.n hs).trans h1, (congrArg Strand.v hs).trans h2, rfl⟩

theorem halt_spec (s : State) (g : Nat) : ((s.halt g).strand g).halted = true ∧ ((s.halt g).strand g).n = (s.strand g).n ∧
    ((s.halt g).strand g).v = (s.strand g).v ∧ (s.halt g).dev.regs = s.dev.regs := by
  obtain ⟨h1, h2, h3⟩ := closeShadow_registers s g
  have hs : (s.halt g).strand g = { (s.closeShadow g).strand g with tsync := false, waiting := none, halted := true } :=
    strand_setStrand_same _ _ _
  rw [hs]
  exact ⟨rfl, h1, h2, h3⟩

theorem haltCore_spec (s : State) (l : Nat) : (s.haltCore l).dev.regs = s.dev.regs ∧ ∀ j, j < 2 →
    ((s.haltCore l).strand (2 * l + j)).halted = true ∧ ((s.haltCore l).strand (2 * l + j)).n = (s.strand (2 * l + j)).n ∧
    ((s.haltCore l).strand (2 * l + j)).v = (s.strand (2 * l + j)).v := by
  obtain ⟨a1, a2, a3, a4⟩ := halt_spec s (2 * l)
  obtain ⟨b1, b2, b3, b4⟩ := halt_spec (s.halt (2 * l)) (2 * l + 1)
  have h0 : ((s.halt (2 * l)).halt (2 * l + 1)).strand (2 * l) = (s.halt (2 * l)).strand (2 * l) := halt_other _ _ (by omega)
  have h1 : (s.halt (2 * l)).strand (2 * l + 1) = s.strand (2 * l + 1) := halt_other _ _ (by omega)
  refine ⟨b4.trans a4, fun j hj => ?_⟩
  unfold State.haltCore
  rcases (show j = 0 ∨ j = 1 by omega) with rfl | rfl
  · rw [show 2 * l + 0 = 2 * l from rfl, h0]
    exact ⟨a1, a2, a3⟩
  · exact ⟨b1, b2.trans (by rw [h1]), b3.trans (by rw [h1])⟩

/-! ### The move -/

/-- The registers of the core map and of the core states stand. -/
def mapStands (d e : Dev) : Prop := ∀ off, R.CORE_MAP_PHYS.reg ≤ off → off < 0x3000 → e.reg off = d.reg off

/-- Core t serves logical core l in place of core c. -/
structure Placed (l c t : Nat) (d : Dev) : Prop where
  phys : d.phys l = t
  target : d.coreState t = 1
  source : d.coreState c = 5
  logical : d.fld (R.CORE_STATE_LOGICAL.at (8 * t)) = l

section
variable {d e : Dev} {l c t : Nat}

theorem mapStands_of_coreRegs (h : coreRegs d e) : mapStands d e := fun off h1 h2 =>
  h off (by omega) (reported_core (Nat.lt_of_lt_of_le (show 0x30 < R.CORE_MAP_PHYS.reg by decide) h1) (by omega))

theorem mapStands_setFld (d : Dev) (f : Field) (x : Nat) (h : f.reg < R.CORE_MAP_PHYS.reg ∨ 0x3000 ≤ f.reg) : mapStands d (d.setFld f x) :=
  fun off h1 h2 => reg_setFld_other d f x off (by rintro rfl; omega)

theorem coreState_of_mapStands (h : mapStands d e) {k : Nat} (hk : k < 288) : e.coreState k = d.coreState k := by
  refine congrArg R.CORE_STATE_STATE.get (h _ ?_ ?_)
  · exact Nat.le_trans (show R.CORE_MAP_PHYS.reg ≤ R.CORE_STATE_STATE.reg by decide) (Nat.le_add_right _ _)
  · change R.CORE_STATE_STATE.reg + 8 * k < 0x3000
    rw [show R.CORE_STATE_STATE.reg = 0x2000 from rfl]
    omega

theorem logical_of_mapStands (h : mapStands d e) {k : Nat} (hk : k < 288) :
    e.fld (R.CORE_STATE_LOGICAL.at (8 * k)) = d.fld (R.CORE_STATE_LOGICAL.at (8 * k)) := by
  refine congrArg R.CORE_STATE_LOGICAL.get (h _ ?_ ?_)
  · exact Nat.le_trans (show R.CORE_MAP_PHYS.reg ≤ R.CORE_STATE_LOGICAL.reg by decide) (Nat.le_add_right _ _)
  · change R.CORE_STATE_LOGICAL.reg + 8 * k < 0x3000
    rw [show R.CORE_STATE_LOGICAL.reg = 0x2000 from rfl]
    omega

theorem phys_of_mapStands (h : mapStands d e) (hl : l < 256) : e.phys l = d.phys l := by
  refine congrArg R.CORE_MAP_PHYS.get (h _ (Nat.le_add_right _ _) ?_)
  change R.CORE_MAP_PHYS.reg + 8 * l < 0x3000
  rw [show R.CORE_MAP_PHYS.reg = 0x1000 from rfl]
  omega

theorem Placed.stands (p : Placed l c t d) (h : mapStands d e) (hl : l < 256) (hc : c < 288) (ht : t < 288) : Placed l c t e :=
  ⟨(phys_of_mapStands h hl).trans p.phys, (coreState_of_mapStands h ht).trans p.target, (coreState_of_mapStands h hc).trans p.source,
    (logical_of_mapStands h ht).trans p.logical⟩

theorem coreState_setCoreState (d : Dev) {c x : Nat} (hx : x < 8) : (d.setCoreState c x).coreState c = x :=
  fld_setFld_lt d (show R.CORE_STATE_STATE.lo + R.CORE_STATE_STATE.width ≤ 64 by decide) hx

/-- The map with the move entered. -/
theorem placed_of (hs : d.coreState c = 5) (hct : c ≠ t) (hl : l < 256) (ht : t < 288) :
    Placed l c t (((d.setFld (R.CORE_MAP_PHYS.at (8 * l)) t).setCoreState t 1).setFld (R.CORE_STATE_LOGICAL.at (8 * t)) l) := by
  obtain ⟨x, hx⟩ : ∃ x, d.setFld (R.CORE_MAP_PHYS.at (8 * l)) t = x := ⟨_, rfl⟩
  have hxp : x.phys l = t := hx ▸ fld_setFld_lt d (show R.CORE_MAP_PHYS.lo + R.CORE_MAP_PHYS.width ≤ 64 by decide)
    (show t < 2 ^ R.CORE_MAP_PHYS.width by exact Nat.lt_of_lt_of_le ht (by decide))
  have base : R.CORE_MAP_PHYS.reg = 0x1000 ∧ R.CORE_STATE_STATE.reg = 0x2000 ∧ R.CORE_STATE_LOGICAL.reg = 0x2000 := ⟨rfl, rfl, rfl⟩
  have hxs : x.coreState c = 5 := by
    refine (hx ▸ fld_setFld_reg d (R.CORE_MAP_PHYS.at (8 * l)) (R.CORE_STATE_STATE.at (8 * c)) t ?_).trans hs
    change R.CORE_STATE_STATE.reg + 8 * c ≠ R.CORE_MAP_PHYS.reg + 8 * l
    omega
  rw [hx]
  unfold Dev.setCoreState
  obtain ⟨y, hy⟩ : ∃ y, x.setFld (R.CORE_STATE_STATE.at (8 * t)) 1 = y := ⟨_, rfl⟩
  have hyt : y.coreState t = 1 := hy ▸ coreState_setCoreState x (by decide)
  have hys : y.coreState c = 5 := by
    refine (hy ▸ fld_setFld_reg x (R.CORE_STATE_STATE.at (8 * t)) (R.CORE_STATE_STATE.at (8 * c)) 1 ?_).trans hxs
    change R.CORE_STATE_STATE.reg + 8 * c ≠ R.CORE_STATE_STATE.reg + 8 * t
    omega
  have hyp : y.phys l = t := by
    refine (hy ▸ fld_setFld_reg x (R.CORE_STATE_STATE.at (8 * t)) (R.CORE_MAP_PHYS.at (8 * l)) 1 ?_).trans hxp
    change R.CORE_MAP_PHYS.reg + 8 * l ≠ R.CORE_STATE_STATE.reg + 8 * t
    omega
  rw [hy]
  refine ⟨?_, ?_, ?_, ?_⟩
  · refine (fld_setFld_reg y (R.CORE_STATE_LOGICAL.at (8 * t)) (R.CORE_MAP_PHYS.at (8 * l)) l ?_).trans hyp
    change R.CORE_MAP_PHYS.reg + 8 * l ≠ R.CORE_STATE_LOGICAL.reg + 8 * t
    omega
  · exact (fld_setFld_apart y (R.CORE_STATE_LOGICAL.at (8 * t)) (R.CORE_STATE_STATE.at (8 * t)) l
      (show R.CORE_STATE_LOGICAL.lo + R.CORE_STATE_LOGICAL.width ≤ 64 by decide)
      (.inl (show R.CORE_STATE_STATE.lo + R.CORE_STATE_STATE.width ≤ R.CORE_STATE_LOGICAL.lo by decide))).trans hyt
  · refine (fld_setFld_reg y (R.CORE_STATE_LOGICAL.at (8 * t)) (R.CORE_STATE_STATE.at (8 * c)) l ?_).trans hys
    change R.CORE_STATE_STATE.reg + 8 * c ≠ R.CORE_STATE_LOGICAL.reg + 8 * t
    omega
  · exact fld_setFld_lt y (show R.CORE_STATE_LOGICAL.lo + R.CORE_STATE_LOGICAL.width ≤ 64 by decide)
      (show l < 2 ^ R.CORE_STATE_LOGICAL.width by exact hl)

end

theorem loseUnreadable_none (s : State) (l : Nat) : s.loseUnreadable l 0 = s := rfl

theorem resumeCore_spec (s : State) (l : Nat) : (s.resumeCore l).dev = s.dev ∧
    (∀ j, j < 2 → (s.resumeCore l).strand (2 * l + j) = { s.strand (2 * l + j) with halted := false, ras := [] }) := by
  obtain ⟨s1, h1⟩ : ∃ s1, s.setStrand (2 * l) { s.strand (2 * l) with halted := false, ras := [] } = s1 := ⟨_, rfl⟩
  have hr : s.resumeCore l = s1.setStrand (2 * l + 1) { s1.strand (2 * l + 1) with halted := false, ras := [] } := by
    rw [← h1]
    rfl
  have h0 : s1.strand (2 * l) = { s.strand (2 * l) with halted := false, ras := [] } := h1 ▸ strand_setStrand_same _ _ _
  have hn : s1.strand (2 * l + 1) = s.strand (2 * l + 1) := h1 ▸ strand_setStrand_other _ _ _ _ (by omega)
  rw [hr]
  refine ⟨h1 ▸ rfl, fun j hj => ?_⟩
  rcases (show j = 0 ∨ j = 1 by omega) with rfl | rfl
  · exact (strand_setStrand_other _ _ _ _ (by omega)).trans h0
  · refine (strand_setStrand_same _ _ _).trans ?_
    rw [hn]

/-- A transplant with every strand readable moves the logical core. -/
theorem transplant_moves {s : State} {c t : Nat} (hc : c < 288) (ht : t < 288) (hct : c ≠ t)
    (hl : s.dev.fld (R.CORE_STATE_LOGICAL.at (8 * c)) < 256) : moved s (s.transplant c t 0) c t := by
  unfold State.transplant
  extract_lets d l warm d1 d2 d3 d4 d5 d6 d7 d8 d9 d10
  have h1 : coreRegs (s.dev.setCoreState c 5) d1 := coreRegs_sendOpen _ c
  have h2 : coreRegs d1 d2 := coreRegs_ite (coreRegs_refl d1) (coreRegs_emptyCore d1 t)
  have h3 : coreRegs d2 d3 := coreRegs_trans (coreRegs_trans (coreRegs_copyCoreRegs d2 c t) (coreRegs_disableSource _ c)) (coreRegs_flushBtb _ t)
  have hs3 : d3.coreState c = 5 := (coreState_of_mapStands (mapStands_of_coreRegs (coreRegs_trans h1 (coreRegs_trans h2 h3))) hc).trans
    (coreState_setCoreState _ (by decide))
  clear_value d3 d2 d1
  have p5 : Placed l c t d5 := placed_of hs3 hct hl ht
  clear_value d5 d4
  have p6 : Placed l c t d6 := p5.stands (mapStands_setFld d5 R.CORE_COUNT_SPARE _ (.inl (by decide))) hl hc ht
  clear_value d6
  have p7 : Placed l c t d7 := p6.stands (mapStands_setFld d6 (corePwr t) _
    (.inr (Nat.le_trans (show 0x3000 ≤ R.CORE_PWR_STATE.reg by decide) (Nat.le_add_right _ _)))) hl hc ht
  clear_value d7
  have p8 : Placed l c t d8 := p7.stands (fun off _ _ => congrArg (fun m => SMap.get coldValue m off) (show d8.regs = d7.regs from rfl)) hl hc ht
  clear_value d8
  have p9 : Placed l c t d9 := p8.stands (mapStands_setFld d8 R.XPLANT_STATUS_CANDIDATE _ (.inr (by decide))) hl hc ht
  have f9 : d9.flag R.XPLANT_STATUS_CANDIDATE = false := flag_setFld_zero d8 _ (by decide)
  clear_value d9
  have p10 : Placed l c t d10 := p9.stands (mapStands_setFld d9 R.XPLANT_STATUS_RESULT _ (.inr (by decide))) hl hc ht
  have f10 : d10.flag R.XPLANT_STATUS_CANDIDATE = false := (flag_setFld_apart d9 R.XPLANT_STATUS_RESULT _ _ (by decide) (by decide)).trans f9
  have r10 : d10.fld R.XPLANT_STATUS_RESULT = 0 := fld_setFld_lt d9 (by decide) (by decide)
  clear_value d10
  rw [loseUnreadable_none]
  obtain ⟨e1, e2⟩ := resumeCore_spec { s with dev := d10 } l
  have e1 : (State.resumeCore { s with dev := d10 } l).dev = d10 := e1
  unfold moved
  dsimp only
  rw [e1]
  refine ⟨p10.phys, p10.target, p10.source, p10.logical, f10, r10, fun j hj => ?_⟩
  rw [e2 j hj, strand_dev s d10 (2 * l + j)]
  exact ⟨rfl, rfl, rfl, rfl⟩

/-! ### The withdrawal -/

theorem coreRegs_setInImage (d : Dev) (x : Strand) (b : Bool) : coreRegs d (d.setInImage x b) := by
  obtain ⟨m, hm⟩ := setInImage_eq d x b
  rw [hm]
  exact coreRegs_of_regs rfl

theorem coreRegs_sealedExit (s : State) (g : Nat) (pc : Word) (r : Option Reg) : coreRegs s.dev (s.sealedExit g pc r).dev := by
  unfold State.sealedExit
  extract_lets x y n s1
  split
  · exact coreRegs_of_regs rfl
  · split
    · exact coreRegs_of_regs rfl
    · exact coreRegs_of_regs rfl

theorem coreRegs_enter (s : State) (g lvl : Nat) (kind : EntryKind) (epc cause : Word) (inSlot : Bool) (fa fi : Option Word) (syn : Syn)
    (ex : Option Reg) : coreRegs s.dev (s.enter g lvl kind epc cause inSlot fa fi syn ex).dev := by
  unfold State.enter
  extract_lets s1 s2 x from0 sx b b' x1 x2 s3 s4 x3 x4 vb
  have h1 : coreRegs s.dev s1.dev := coreRegs_of_regs (closeShadow_registers s g).2.2
  have h3 : coreRegs s.dev s3.dev := coreRegs_trans h1 (coreRegs_count _ _ _ _)
  change coreRegs s.dev s4.dev
  change coreRegs s.dev (if sx then s3.sealedExit g epc ex else s3).dev
  split
  · exact coreRegs_trans h3 (coreRegs_sealedExit s3 g epc ex)
  · exact h3

theorem coreRegs_saveImage (s : State) (g : Nat) (b : Bool) : coreRegs s.dev (s.saveImage g b).1.dev := by
  unfold State.saveImage
  extract_lets x sx ww s1 s2 y s3
  have h1 : coreRegs s.dev s1.dev := coreRegs_of_regs (halt_spec s g).2.2.2
  have h2 : coreRegs s.dev s2.dev := by
    change coreRegs s.dev (if sx then _ else s1).dev
    split
    · exact coreRegs_trans h1 (coreRegs_enter _ _ _ _ _ _ _ _ _ _ _)
    · exact h1
  change coreRegs s.dev (if sx then s2.dev.setInImage y true else s2.dev)
  exact coreRegs_ite (coreRegs_trans h2 (coreRegs_setInImage _ _ _)) h2

theorem coreRegs_strandLost (s : State) (g a : Nat) : coreRegs s.dev (s.strandLost g a).dev := by
  unfold State.strandLost
  extract_lets r s1
  have h : coreRegs s.dev s1.dev := coreRegs_of_keepsRegs (keepsRegs_log s.dev _)
  split
  · exact h
  · exact h

theorem coreThere_of_mapStands {d e : Dev} (h : mapStands d e) {l : Nat} (hl : l < 256) : e.coreThere l = d.coreThere l := by
  refine congrArg (fun w => R.CORE_MAP_PRESENT.get w != 0) (h _ (Nat.le_add_right _ _) ?_)
  change R.CORE_MAP_PRESENT.reg + 8 * l < 0x3000
  rw [show R.CORE_MAP_PRESENT.reg = 0x1000 from rfl]
  omega

theorem coreRegs_foldState {α : Type} (f : State → α → State) (hf : ∀ s a, coreRegs s.dev (f s a).dev) (xs : List α) (s : State) :
    coreRegs s.dev (xs.foldl f s).dev := by
  induction xs generalizing s with
  | nil => exact coreRegs_refl s.dev
  | cons a xs ih => exact coreRegs_trans (hf s a) (ih _)

/-- What a withdrawal keeps of the source. -/
def noteSource (d : Dev) (m : List Xplant) (n : Nat) : Dev := { d with xplant := m, unreadable := n }

theorem coreRegs_noteSource (d : Dev) (m : List Xplant) (n : Nat) : coreRegs d (noteSource d m n) := coreRegs_of_regs rfl

/-- A withdrawal is entered in the map; what follows it changes no register of the cores. -/
theorem withdraw_regs (s : State) (c : Nat) : ∃ d : Dev, coreRegs ((((d.setFld
    (R.CORE_MAP_PRESENT.at (8 * s.dev.fld (R.CORE_STATE_LOGICAL.at (8 * c)))) 0).setCoreState c 5).setFld R.XPLANT_STATUS_RESULT 3).setFld
      R.XPLANT_STATUS_CANDIDATE 0) (s.withdraw c).dev := by
  unfold State.withdraw
  extract_lets l s1 d d1 d2 src d3
  have h3 : coreRegs d2 d3 := by
    change coreRegs d2 (noteSource ((d2.sendOpen c).disableSource c) (d2.xplant ++ [Xplant.mk c 511]) 0)
    obtain ⟨x, hx⟩ : ∃ x, (d2.sendOpen c).disableSource c = x := ⟨_, rfl⟩
    have hd : coreRegs d2 x := hx ▸ coreRegs_trans (coreRegs_sendOpen d2 c) (coreRegs_disableSource _ c)
    rw [hx]
    exact coreRegs_trans hd (coreRegs_noteSource x _ _)
  refine ⟨d, ?_⟩
  have h2 : (((d.setFld (R.CORE_MAP_PRESENT.at (8 * l)) 0).setCoreState c 5).setFld R.XPLANT_STATUS_RESULT 3).setFld
      R.XPLANT_STATUS_CANDIDATE 0 = d2 := rfl
  rw [show s.dev.fld (R.CORE_STATE_LOGICAL.at (8 * c)) = l from rfl, h2]
  clear_value d3 src d2 d1 d s1
  exact coreRegs_trans h3 (coreRegs_foldState _ (fun s j => coreRegs_strandLost s (2 * l + j) 7) _ { s1 with dev := d3 })

/-- A logical core for which no spare is left is gone from the map. -/
theorem withdraw_spec {s : State} {c : Nat} (hc : c < 288) (hl : s.dev.fld (R.CORE_STATE_LOGICAL.at (8 * c)) < 256) :
    let z := s.withdraw c
    z.dev.coreThere (s.dev.fld (R.CORE_STATE_LOGICAL.at (8 * c))) = false ∧ z.dev.coreState c = 5 ∧ z.dev.fld R.XPLANT_STATUS_RESULT = 3 := by
  intro z
  obtain ⟨d, hz⟩ : ∃ d : Dev, coreRegs _ z.dev := withdraw_regs s c
  obtain ⟨l, hle⟩ : ∃ l, s.dev.fld (R.CORE_STATE_LOGICAL.at (8 * c)) = l := ⟨_, rfl⟩
  rw [hle] at hz hl ⊢
  obtain ⟨x, hx⟩ : ∃ x, d.setFld (R.CORE_MAP_PRESENT.at (8 * l)) 0 = x := ⟨_, rfl⟩
  have hxl : x.coreThere l = false := hx ▸ flag_setFld_zero d (R.CORE_MAP_PRESENT.at (8 * l))
    (show R.CORE_MAP_PRESENT.lo + R.CORE_MAP_PRESENT.width ≤ 64 by decide)
  obtain ⟨y, hy⟩ : ∃ y, x.setCoreState c 5 = y := ⟨_, rfl⟩
  have hyc : y.coreState c = 5 := hy ▸ coreState_setCoreState x (by decide)
  have hyl : y.coreThere l = false := by
    rw [← hy]
    refine (flag_setFld_reg x (R.CORE_STATE_STATE.at (8 * c)) (R.CORE_MAP_PRESENT.at (8 * l)) 5 ?_).trans hxl
    change R.CORE_MAP_PRESENT.reg + 8 * l ≠ R.CORE_STATE_STATE.reg + 8 * c
    rw [show R.CORE_MAP_PRESENT.reg = 0x1000 from rfl, show R.CORE_STATE_STATE.reg = 0x2000 from rfl]
    omega
  obtain ⟨w, hw⟩ : ∃ w, y.setFld R.XPLANT_STATUS_RESULT 3 = w := ⟨_, rfl⟩
  have hwr : w.fld R.XPLANT_STATUS_RESULT = 3 := hw ▸ fld_setFld_lt y (by decide) (by decide)
  have hwm : mapStands y w := hw ▸ mapStands_setFld y R.XPLANT_STATUS_RESULT 3 (.inr (by decide))
  obtain ⟨v, hv⟩ : ∃ v, w.setFld R.XPLANT_STATUS_CANDIDATE 0 = v := ⟨_, rfl⟩
  have hvr : v.fld R.XPLANT_STATUS_RESULT = 3 := (hv ▸ fld_setFld_apart w _ _ _ (by decide) (by decide)).trans hwr
  have hvm : mapStands w v := hv ▸ mapStands_setFld w R.XPLANT_STATUS_CANDIDATE 0 (.inr (by decide))
  rw [hx, hy, hw, hv] at hz
  have hm : mapStands y z.dev := fun off h1 h2 => (mapStands_of_coreRegs hz off h1 h2).trans ((hvm off h1 h2).trans (hwm off h1 h2))
  exact ⟨(coreThere_of_mapStands hm hl).trans hyl, (coreState_of_mapStands hm hc).trans hyc,
    (fld_of_coreRegs hz (by decide) (by decide)).trans hvr⟩

/-! ### Spares -/

theorem pickSpare_congr {d e : Dev} (h : ∀ k, k < 288 → e.coreState k = d.coreState k) (c st : Nat) : e.pickSpare c st = d.pickSpare c st := by
  unfold Dev.pickSpare
  refine List.foldl_ext _ _ _ fun b k hk => ?_
  rw [h k (List.mem_range.1 hk)]

/-- A spare that is picked is in the state asked for. -/
theorem pickSpare_state {d : Dev} {c st t : Nat} (h : d.pickSpare c st = some t) : d.coreState t = st := by
  have step (b : Option Nat) (hb : ∀ k, b = some k → d.coreState k = st) (f : Option Nat → Nat → Option Nat)
      (hf : ∀ b x k, f b x = some k → b = some k ∨ (k = x ∧ d.coreState x = st)) (xs : List Nat) :
      ∀ k, xs.foldl f b = some k → d.coreState k = st := by
    induction xs generalizing b with
    | nil => exact hb
    | cons x xs ih =>
      refine ih (f b x) fun k hk => ?_
      rcases hf b x k hk with hk | ⟨rfl, hx⟩
      · exact hb k hk
      · exact hx
  unfold Dev.pickSpare at h
  extract_lets cost at h
  clear_value cost
  refine step none (fun k hk => by simp at hk) _ (fun b x k hk => ?_) _ t h
  split at hk
  · exact .inl hk
  · next hx =>
    have hx : d.coreState x = st := by simpa using hx
    cases b with
    | none => exact .inr ⟨(Option.some.inj hk).symm, hx⟩
    | some b =>
      dsimp only at hk
      split at hk
      · exact .inr ⟨(Option.some.inj hk).symm, hx⟩
      · exact .inl hk

/-! ### The candidate -/

/-- The state in which a candidate's strands have halted. -/
def candidateHalted (s : State) (c l : Nat) : State :=
  State.haltCore { s with dev := (s.dev.candidate 4 c 1 0).setFld R.XPLANT_STATUS_SOURCE c } l

theorem candidateHalted_spec (s : State) {c : Nat} (hc : c < 288) (l : Nat) :
    (candidateHalted s c l).dev.fld R.XPLANT_STATUS_SOURCE = c ∧ mapStands s.dev (candidateHalted s c l).dev ∧
    (candidateHalted s c l).dev.duty 5 = s.dev.duty 5 ∧ ∀ j, j < 2 → ((candidateHalted s c l).strand (2 * l + j)).halted = true ∧
      ((candidateHalted s c l).strand (2 * l + j)).n = (s.strand (2 * l + j)).n ∧
      ((candidateHalted s c l).strand (2 * l + j)).v = (s.strand (2 * l + j)).v := by
  obtain ⟨x, hx⟩ : ∃ x, s.dev.candidate 4 c 1 0 = x := ⟨_, rfl⟩
  have hxc : coreRegs s.dev x := hx ▸ coreRegs_of_keepsRegs (keepsRegs_candidate _ _ _ _ _)
  obtain ⟨y, hy⟩ : ∃ y, x.setFld R.XPLANT_STATUS_SOURCE c = y := ⟨_, rfl⟩
  have hys : y.fld R.XPLANT_STATUS_SOURCE = c := hy ▸ fld_setFld_lt x (by decide) (show c < 2 ^ 9 by omega)
  have hym : mapStands x y := hy ▸ mapStands_setFld x R.XPLANT_STATUS_SOURCE c (.inr (by decide))
  have hyd : y.duty 5 = x.duty 5 := congrArg (natBit · 5) (hy ▸ fld_setFld_reg x _ R.DUTY_FUNC _ (by decide))
  have hxd : x.duty 5 = s.dev.duty 5 := congrArg (natBit · 5) (fld_of_coreRegs hxc (by decide) (by decide))
  obtain ⟨h1, h2⟩ := haltCore_spec { s with dev := y } l
  have heq : candidateHalted s c l = State.haltCore { s with dev := y } l := by
    rw [← hy, ← hx]
    rfl
  rw [heq]
  have hcore : coreRegs y (State.haltCore { s with dev := y } l).dev := coreRegs_of_regs h1
  refine ⟨(fld_of_coreRegs hcore (by decide) (by decide)).trans hys, fun off a b => (mapStands_of_coreRegs hcore off a b).trans
    ((hym off a b).trans (mapStands_of_coreRegs hxc off a b)), ?_, fun j hj => ?_⟩
  · exact (congrArg (natBit · 5) (fld_of_coreRegs hcore (f := R.DUTY_FUNC) (by decide) (by decide))).trans (hyd.trans hxd)
  · have := h2 j hj
    rwa [strand_dev s y (2 * l + j)] at this

/-- Core c of s moves to t from the state in which its strands have halted. -/
theorem moved_of_halted {s z : State} {c t : Nat} (hc : c < 288)
    (h : moved (candidateHalted s c (s.dev.fld (R.CORE_STATE_LOGICAL.at (8 * c)))) z c t) : moved s z c t := by
  obtain ⟨l, hl⟩ : ∃ l, s.dev.fld (R.CORE_STATE_LOGICAL.at (8 * c)) = l := ⟨_, rfl⟩
  obtain ⟨-, hm, -, hn⟩ := candidateHalted_spec s hc l
  have hlog := (logical_of_mapStands hm hc).trans hl
  rw [hl] at h
  unfold moved at h ⊢
  dsimp only at h ⊢
  rw [hlog] at h
  rw [hl]
  obtain ⟨h1, h2, h3, h4, h5, h6, h7⟩ := h
  refine ⟨h1, h2, h3, h4, h5, h6, fun j hj => ?_⟩
  obtain ⟨a, b, e, f⟩ := h7 j hj
  obtain ⟨-, g, k⟩ := hn j hj
  exact ⟨a, b, e.trans g, f.trans k⟩

section
variable {s : State} {c : Nat} (u : BitVec 2) (hc : c < 288) (hok : s.dev.clocksOk = true)
include hc hok

theorem coreTransplant_waits (h : mayMove s c = false) : Gives (.coreTransplant c u) s s := by
  refine (execCoreTransplant.eq_def ..).trans ?_
  rw [if_neg (by rw [show coreOk c = true from decide_eq_true hc]; exact Bool.false_ne_true), if_neg (by rw [hok]; exact Bool.false_ne_true)]
  refine if_pos ?_
  have h : (s.dev.servesCore c && _ && _) = false := h
  rw [← Bool.not_and, ← Bool.not_and, h]
  rfl

theorem coreTransplant_eq (h : mayMove s c = true) :
    let x := candidateHalted s c (s.dev.fld (R.CORE_STATE_LOGICAL.at (8 * c)))
    exec (.coreTransplant c u) s = if x.dev.duty 5 then
        .next { x with dev := ({ x.dev.setFld R.XPLANT_STATUS_CANDIDATE 1 with unreadable := u.toNat } : Dev).dutyEvent }
      else .next (x.transplantAny c u.toNat) := by
  refine (execCoreTransplant.eq_def ..).trans ?_
  rw [if_neg (by rw [show coreOk c = true from decide_eq_true hc]; exact Bool.false_ne_true), if_neg (by rw [hok]; exact Bool.false_ne_true)]
  refine if_neg ?_
  have h : (s.dev.servesCore c && _ && _) = true := h
  rw [← Bool.not_and, ← Bool.not_and, h]
  exact Bool.false_ne_true

theorem coreTransplant_shown (h : mayMove s c = true) (hd : s.dev.duty 5 = true) : GivesSome (.coreTransplant c u) s fun z =>
    z.dev.fld R.XPLANT_STATUS_SOURCE = c ∧ z.dev.flag R.XPLANT_STATUS_CANDIDATE = true ∧ z.dev.unreadable = u.toNat ∧
      (z.strand (2 * s.dev.fld (R.CORE_STATE_LOGICAL.at (8 * c)))).halted = true ∧
      (z.strand (2 * s.dev.fld (R.CORE_STATE_LOGICAL.at (8 * c)) + 1)).halted = true := by
  have hx := coreTransplant_eq u hc hok h
  obtain ⟨l, hl⟩ : ∃ l, s.dev.fld (R.CORE_STATE_LOGICAL.at (8 * c)) = l := ⟨_, rfl⟩
  rw [hl] at hx ⊢
  obtain ⟨h1, -, h3, h4⟩ := candidateHalted_spec s hc l
  obtain ⟨x, hxe⟩ : ∃ x, candidateHalted s c l = x := ⟨_, rfl⟩
  rw [hxe] at hx h1 h3 h4
  obtain ⟨y, hy⟩ : ∃ y, x.dev.setFld R.XPLANT_STATUS_CANDIDATE 1 = y := ⟨_, rfl⟩
  have hyc : y.flag R.XPLANT_STATUS_CANDIDATE = true := hy ▸ flag_setFld_one x.dev _ (by decide) (by decide)
  have hys : y.fld R.XPLANT_STATUS_SOURCE = c := (hy ▸ fld_setFld_apart x.dev R.XPLANT_STATUS_CANDIDATE _ _ (by decide) (by decide)).trans h1
  obtain ⟨w, hw⟩ : ∃ w, ({ y with unreadable := u.toNat } : Dev) = w := ⟨_, rfl⟩
  have hwr : w.regs = y.regs := hw ▸ rfl
  have hwu : w.unreadable = u.toNat := hw ▸ rfl
  have hk := keepsRegs_errEventNow 32 (keepsRegs_refl w)
  refine ⟨_, hx.trans (if_pos (h3.trans hd)), ?_, ?_, ?_, ?_, ?_⟩
  · rw [hy, hw]
    exact (fld_of_keepsRegs hk (by decide)).trans ((fld_of_regs hwr _).trans hys)
  · rw [hy, hw]
    exact (flag_of_keepsRegs hk (by decide)).trans ((congrArg (· != 0) (fld_of_regs hwr _)).trans hyc)
  · rw [hy, hw]
    exact (of_bare (·.unreadable) (fun _ => rfl) (bare_errEventNow w 32)).trans hwu
  · rw [strand_dev]
    exact (h4 0 (by decide)).1
  · rw [strand_dev]
    exact (h4 1 (by decide)).1

omit hok in
theorem pickSpare_halted (l st : Nat) : (candidateHalted s c l).dev.pickSpare c st = s.dev.pickSpare c st :=
  pickSpare_congr (fun _ hk => coreState_of_mapStands (candidateHalted_spec s hc l).2.1 hk) c st

theorem coreTransplant_moves {t : Nat} (hl : s.dev.fld (R.CORE_STATE_LOGICAL.at (8 * c)) < 256) (h : mayMove s c = true)
    (hd : s.dev.duty 5 = false) (ht : t < 288) (hp : s.dev.pickSpare c 3 = some t) :
    GivesSome (.coreTransplant c 0) s fun z => moved s z c t := by
  have hx := coreTransplant_eq 0 hc hok h
  have hpx := pickSpare_halted (s := s) hc (s.dev.fld (R.CORE_STATE_LOGICAL.at (8 * c))) 3
  have hct : c ≠ t := by
    rintro rfl
    have hst := pickSpare_state hp
    have hsv : s.dev.servesCore c = true := (Bool.and_eq_true_iff.1 (Bool.and_eq_true_iff.1 h).1).1
    unfold Dev.servesCore at hsv
    simp [hst] at hsv
  have hmv := @moved_of_halted s ((candidateHalted s c (s.dev.fld (R.CORE_STATE_LOGICAL.at (8 * c)))).transplant c t 0) c t hc
  obtain ⟨l, hle⟩ : ∃ l, s.dev.fld (R.CORE_STATE_LOGICAL.at (8 * c)) = l := ⟨_, rfl⟩
  rw [hle] at hx hl hpx hmv
  obtain ⟨-, h2, h3, -⟩ := candidateHalted_spec s hc l
  have hlog := (logical_of_mapStands h2 hc).trans hle
  obtain ⟨x, hxe⟩ : ∃ x, candidateHalted s c l = x := ⟨_, rfl⟩
  rw [hxe] at hx h3 hpx hlog hmv
  refine ⟨_, hx.trans ((if_neg (by rw [h3, hd]; exact Bool.false_ne_true)).trans (congrArg Host.Outcome.next ?_)),
    hmv (transplant_moves hc ht hct (by rw [hlog]; exact hl))⟩
  unfold State.transplantAny
  rw [hpx, hp]
  rfl

theorem coreTransplant_withdraws (hl : s.dev.fld (R.CORE_STATE_LOGICAL.at (8 * c)) < 256) (h : mayMove s c = true)
    (hd : s.dev.duty 5 = false) (h3 : s.dev.pickSpare c 3 = none) (h2 : s.dev.pickSpare c 2 = none) :
    GivesSome (.coreTransplant c 0) s fun z => z.dev.coreThere (s.dev.fld (R.CORE_STATE_LOGICAL.at (8 * c))) = false ∧
      z.dev.coreState c = 5 ∧ z.dev.fld R.XPLANT_STATUS_RESULT = 3 := by
  have hx := coreTransplant_eq 0 hc hok h
  obtain ⟨l, hle⟩ : ∃ l, s.dev.fld (R.CORE_STATE_LOGICAL.at (8 * c)) = l := ⟨_, rfl⟩
  rw [hle] at hx hl ⊢
  have hp3 := (pickSpare_halted hc l 3).trans h3
  have hp2 := (pickSpare_halted hc l 2).trans h2
  obtain ⟨-, hm, hd5, -⟩ := candidateHalted_spec s hc l
  have hlog := (logical_of_mapStands hm hc).trans hle
  obtain ⟨x, hxe⟩ : ∃ x, candidateHalted s c l = x := ⟨_, rfl⟩
  rw [hxe] at hx hd5 hp3 hp2 hlog
  have hw := @withdraw_spec x c hc (by rw [hlog]; exact hl)
  rw [hlog] at hw
  refine ⟨_, hx.trans ((if_neg (by rw [hd5, hd]; exact Bool.false_ne_true)).trans (congrArg Host.Outcome.next ?_)), hw⟩
  unfold State.transplantAny
  rw [hp3, hp2]

end

/-! ### Fields of a plain register after its write -/

theorem testBit_get_lt (f : Field) (w : Word) (i : Nat) : (f.get w).testBit i = (decide (i < f.width) && w.getLsbD (i + f.lo)) := by
  rw [Field.get, getF, Nat.testBit_mod_two_pow, Nat.testBit_div_two_pow]
  rfl

/-- A field of one bit is set as its bit is. -/
theorem get_bit (f : Field) (hw : f.width = 1) (w : Word) : (f.get w != 0) = w.getLsbD f.lo := by
  have h0 := testBit_get_lt f w 0
  rw [hw, Nat.zero_add, decide_eq_true Nat.one_pos, Bool.true_and, Nat.testBit_zero] at h0
  have hlt : f.get w < 2 := by
    have := getF_lt w f.lo f.width
    rw [hw] at this
    rw [Field.get, hw]
    exact this
  rw [← h0]
  rcases (show f.get w = 0 ∨ f.get w = 1 by omega) with h | h <;> rw [h] <;> rfl

section
variable {d : Dev} {off : Nat} {r : RegSpec} (v : Word) (hr : regAt off = some r) (he : off ∉ eventRegs)
include hr he

theorem reg_writeReg_other {k : Nat} (h : k ≠ off) : (d.writeReg off v).reg k = d.reg k := by
  rw [writeReg_plain v hr he]
  exact reg_setReg_other _ _ _ _ h

theorem bare_writeReg_plain : bare (d.writeReg off v) = bare d := by
  rw [writeReg_plain v hr he]
  exact bare_setReg _ _ _

/-- A field that software may write takes its bits of what is written. -/
theorem fld_writeReg_taken {f : FieldSpec} (hreg : f.fld.reg = off) (hp : wellPlaced r.fields = true) (hf : f ∈ r.fields) (hrw : f.acc = .rw)
    (hw : f.fld.lo + f.fld.width ≤ 64) : (d.writeReg off v).fld f.fld = f.fld.get v := by
  rw [writeReg_plain v hr he]
  refine Nat.eq_of_testBit_eq fun i => ?_
  rw [Dev.fld, hreg, reg_setReg_same, testBit_get_lt, testBit_get_lt]
  by_cases hi : i < f.fld.width
  · rw [writeWord, writeFields_covered d.locked v (by omega) r.fields hp hf ⟨by omega, by omega⟩, taken, hrw]
  · rw [decide_eq_false hi, Bool.false_and, Bool.false_and]

end

/-! ### The choice of software -/

section
variable {s : State} {req : Requester} {v : Word} (hr : reqOk req = true)
include hr

theorem xplantGo_eq : exec (.xplantGo req v) s = .next (s.xplantWrite v) :=
  (execXplantGo.eq_def ..).trans (if_pos hr)

omit hr in
theorem xplantWritten_spec : mapStands s.dev (s.dev.writeReg R.XPLANT_CTL_TARGET.reg v) ∧
    (s.dev.writeReg R.XPLANT_CTL_TARGET.reg v).duty 5 = s.dev.duty 5 ∧
    (s.dev.writeReg R.XPLANT_CTL_TARGET.reg v).flag R.XPLANT_STATUS_CANDIDATE = s.dev.flag R.XPLANT_STATUS_CANDIDATE ∧
    (s.dev.writeReg R.XPLANT_CTL_TARGET.reg v).fld R.XPLANT_STATUS_SOURCE = s.dev.fld R.XPLANT_STATUS_SOURCE ∧
    (s.dev.writeReg R.XPLANT_CTL_TARGET.reg v).unreadable = s.dev.unreadable ∧
    (s.dev.writeReg R.XPLANT_CTL_TARGET.reg v).fld R.XPLANT_CTL_TARGET = (v.extractLsb' 0 9).toNat ∧
    (s.dev.writeReg R.XPLANT_CTL_TARGET.reg v).flag R.XPLANT_CTL_ANY = v.getLsbD 9 := by
  have hr : regAt R.XPLANT_CTL_TARGET.reg = some _ := rfl
  have he : R.XPLANT_CTL_TARGET.reg ∉ eventRegs := by decide
  have ho {k : Nat} (h : k ≠ R.XPLANT_CTL_TARGET.reg) := reg_writeReg_other (d := s.dev) v hr he h
  have ht := fld_writeReg_taken (d := s.dev) v hr he (f := ⟨R.XPLANT_CTL_TARGET, .rw, 0, false, false⟩) rfl (by decide) (by decide) rfl (by decide)
  have ha := fld_writeReg_taken (d := s.dev) v hr he (f := ⟨R.XPLANT_CTL_ANY, .rw, 0, false, false⟩) rfl (by decide) (by decide) rfl (by decide)
  refine ⟨fun off h1 h2 => ho ?_, congrArg (fun w => natBit (R.DUTY_FUNC.get w) 5) (ho (by decide)),
    congrArg (fun w => R.XPLANT_STATUS_CANDIDATE.get w != 0) (ho (by decide)), congrArg R.XPLANT_STATUS_SOURCE.get (ho (by decide)),
    of_bare (·.unreadable) (fun _ => rfl) (bare_writeReg_plain v hr he), ht.trans (getF_eq_extract v 0 9), ?_⟩
  · exact Nat.ne_of_lt (Nat.lt_of_lt_of_le h2 (by decide))
  · exact (congrArg (· != 0) ha).trans (get_bit R.XPLANT_CTL_ANY rfl v)

theorem xplantGo_written (h : v.getLsbD 10 = false ∨ s.dev.duty 5 = false ∨ s.dev.flag R.XPLANT_STATUS_CANDIDATE = false) :
    Makes (.xplantGo req v) s (s.dev.writeReg R.XPLANT_CTL_TARGET.reg v) := by
  obtain ⟨-, h2, h3, -⟩ := xplantWritten_spec (s := s) (v := v)
  refine (xplantGo_eq hr).trans (congrArg Host.Outcome.next ?_)
  unfold State.xplantWrite
  extract_lets d s1
  change d.duty 5 = _ at h2
  change d.flag _ = _ at h3
  refine if_neg ?_
  rw [h2, h3, bitOf_eq_getLsbD]
  rcases h with h | h | h
  · rw [h, Bool.false_and, Bool.false_and]
    exact Bool.false_ne_true
  · rw [h, Bool.and_false, Bool.false_and]
    exact Bool.false_ne_true
  · rw [h, Bool.and_false]
    exact Bool.false_ne_true

/-- A transplant that software asks for goes to the target that it names, a spare. -/
theorem xplantGo_eq_named (h9 : v.getLsbD 9 = false) (h10 : v.getLsbD 10 = true) (hd : s.dev.duty 5 = true)
    (hcand : s.dev.flag R.XPLANT_STATUS_CANDIDATE = true) :
    let x : State := { s with dev := s.dev.writeReg R.XPLANT_CTL_TARGET.reg v }
    exec (.xplantGo req v) s = .next (
      if (v.extractLsb' 0 9).toNat < 288 && (s.dev.coreState (v.extractLsb' 0 9).toNat == 3 || s.dev.coreState (v.extractLsb' 0 9).toNat == 2) then
        x.transplant (s.dev.fld R.XPLANT_STATUS_SOURCE) (v.extractLsb' 0 9).toNat s.dev.unreadable
      else { x with dev := x.dev.setFld R.XPLANT_STATUS_RESULT 1 }) := by
  obtain ⟨h1, h2, h3, h4, h5, h6, h7⟩ := xplantWritten_spec (s := s) (v := v)
  refine (xplantGo_eq hr).trans (congrArg Host.Outcome.next ?_)
  unfold State.xplantWrite
  obtain ⟨t, ht⟩ : ∃ t, (v.extractLsb' 0 9).toNat = t := ⟨_, rfl⟩
  rw [ht] at h6 ⊢
  obtain ⟨y, hy⟩ : ∃ y, s.dev.writeReg R.XPLANT_CTL_TARGET.reg v = y := ⟨_, rfl⟩
  rw [hy] at h1 h2 h3 h4 h5 h6 h7
  have hst (ht : t < 288) : y.coreState t = s.dev.coreState t := coreState_of_mapStands h1 ht
  rw [hy]
  dsimp only
  rw [if_pos (by rw [h2, h3, hd, hcand, bitOf_eq_getLsbD, h10]; rfl), if_neg (by rw [h7, h9]; exact Bool.false_ne_true), h6, h4, h5]
  by_cases ht : t < 288
  · rw [hst ht]
  · rw [decide_eq_false ht, Bool.false_and, Bool.false_and]

theorem xplantGo_refused (h9 : v.getLsbD 9 = false) (h10 : v.getLsbD 10 = true) (hd : s.dev.duty 5 = true)
    (hcand : s.dev.flag R.XPLANT_STATUS_CANDIDATE = true)
    (hs : (decide ((v.extractLsb' 0 9).toNat < 288) && (s.dev.coreState (v.extractLsb' 0 9).toNat == 3 || s.dev.coreState (v.extractLsb' 0 9).toNat == 2)) = false) :
    MakesSome (.xplantGo req v) s fun e => e.fld R.XPLANT_STATUS_RESULT = 1 := by
  have hx := xplantGo_eq_named hr h9 h10 hd hcand
  rw [hs] at hx
  exact ⟨_, hx, fld_setFld_lt _ (by decide) (by decide)⟩

theorem xplantGo_moves {c : Nat} (hc : c < 288) (h9 : v.getLsbD 9 = false) (h10 : v.getLsbD 10 = true) (hd : s.dev.duty 5 = true)
    (hcand : s.dev.flag R.XPLANT_STATUS_CANDIDATE = true)
    (hs : (decide ((v.extractLsb' 0 9).toNat < 288) && (s.dev.coreState (v.extractLsb' 0 9).toNat == 3 || s.dev.coreState (v.extractLsb' 0 9).toNat == 2)) = true)
    (hsrc : s.dev.fld R.XPLANT_STATUS_SOURCE = c) (hu : s.dev.unreadable = 0) (h5 : s.dev.coreState c = 5)
    (hl : s.dev.fld (R.CORE_STATE_LOGICAL.at (8 * c)) < 256) :
    GivesSome (.xplantGo req v) s fun z => moved s z c (v.extractLsb' 0 9).toNat := by
  have hx := xplantGo_eq_named hr h9 h10 hd hcand
  rw [hs, hsrc, hu] at hx
  obtain ⟨h1, -⟩ := xplantWritten_spec (s := s) (v := v)
  obtain ⟨t, ht⟩ : ∃ t, (v.extractLsb' 0 9).toNat = t := ⟨_, rfl⟩
  rw [ht] at hx hs ⊢
  rw [Bool.and_eq_true, decide_eq_true_iff] at hs
  obtain ⟨y, hy⟩ : ∃ y, s.dev.writeReg R.XPLANT_CTL_TARGET.reg v = y := ⟨_, rfl⟩
  rw [hy] at h1 hx
  have hlog := logical_of_mapStands h1 hc
  have hct : c ≠ t := by
    rintro rfl
    rw [h5] at hs
    exact absurd hs.2 (by decide)
  refine ⟨_, hx, ?_⟩
  have hm := @transplant_moves { s with dev := y } c t hc hs.1 hct (by rw [show State.dev { s with dev := y } = y from rfl, hlog]; exact hl)
  unfold moved at hm ⊢
  dsimp only at hm ⊢
  rw [hlog] at hm
  obtain ⟨a1, a2, a3, a4, a5, a6, a7⟩ := hm
  exact ⟨a1, a2, a3, a4, a5, a6, fun j hj => a7 j hj⟩

end

/-! ### The test of the source -/

/-- The power states of the cores are none that a report writes. -/
theorem reported_power {c : Nat} (hc : c < 288) : reported (corePwr c).reg = false := by
  change reported (R.CORE_PWR_STATE.reg + 8 * c) = false
  rw [show R.CORE_PWR_STATE.reg = 0x9002000 from rfl]
  rw [reported, Bool.or_eq_false_iff]
  refine ⟨?_, Bool.and_eq_false_iff.2 (.inr (decide_eq_false (by rw [show R.PEND_BITS.reg = 0x6010000 from rfl]; omega)))⟩
  have hb : ∀ k ∈ [R.ERR_STATUS_FAULT.reg, R.ERR_HEAD_INDEX.reg, R.ERR_TAIL_INDEX.reg, R.ERR_EVENT_RECORD.reg, R.IR_DROP_INVALID.reg],
      k < 0x9002000 := by decide
  rw [Bool.eq_false_iff, Ne, List.contains_iff_mem]
  intro hm
  have := hb _ hm
  omega

section
variable {s : State} {c : Nat} (hc : c < 288)
include hc

theorem sourceCoreTest_waits (bad : Bool) (h : (s.dev.xplant.any fun x => x.source == c) = false ∨ s.dev.sourceClean c = false) :
    Gives (.sourceCoreTest c bad) s s := by
  refine dev_makes (e := s.dev) (execSourceCoreTest.eq_def ..) (decide_eq_true hc) (if_pos ?_)
  rcases h with h | h
  · rw [h]
    rfl
  · rw [h, Bool.not_false, Bool.or_true]

/-- The registers of core c's state and power stand. -/
def coreStands (c : Nat) (d e : Dev) : Prop :=
  e.reg (R.CORE_STATE_STATE.at (8 * c)).reg = d.reg (R.CORE_STATE_STATE.at (8 * c)).reg ∧ e.reg (corePwr c).reg = d.reg (corePwr c).reg

theorem coreStands_setFld (d : Dev) (f : Field) (x : Nat) (h : f.reg < 0x2000 ∨ 0x3000 ≤ f.reg ∧ f.reg < 0x9000000) :
    coreStands c d (d.setFld f x) := by
  refine ⟨reg_setFld_other d f x _ ?_, reg_setFld_other d f x _ ?_⟩
  · change R.CORE_STATE_STATE.reg + 8 * c ≠ _
    rw [show R.CORE_STATE_STATE.reg = 0x2000 from rfl]
    omega
  · change R.CORE_PWR_STATE.reg + 8 * c ≠ _
    rw [show R.CORE_PWR_STATE.reg = 0x9002000 from rfl]
    omega

theorem coreStands_log (d : Dev) (r : Rep) : coreStands c d (d.log r) := by
  refine ⟨keepsRegs_log d r _ (reported_core ?_ ?_), keepsRegs_log d r _ ?_⟩
  · exact Nat.lt_of_lt_of_le (show 0x30 < R.CORE_STATE_STATE.reg by decide) (Nat.le_add_right _ _)
  · change R.CORE_STATE_STATE.reg + 8 * c < _
    rw [show R.CORE_STATE_STATE.reg = 0x2000 from rfl]
    omega
  · exact reported_power hc

theorem coreStands_addRepair (d : Dev) (r : Repair) (source : Nat) : coreStands c d (d.addRepair r source) := by
  unfold Dev.addRepair
  split
  · obtain ⟨h1, h2⟩ := coreStands_setFld hc { d with repairs := d.repairs ++ [r] } R.REPAIR_STATUS_USED (d.repairs ++ [r]).length (.inr (by decide))
    obtain ⟨x, hx⟩ : ∃ x, Dev.setFld { d with repairs := d.repairs ++ [r] } R.REPAIR_STATUS_USED (d.repairs ++ [r]).length = x := ⟨_, rfl⟩
    rw [hx] at h1 h2
    unfold Dev.showRepairs
    dsimp only
    rw [hx]
    obtain ⟨k1, k2⟩ := coreStands_setFld hc x R.REPAIR_STATUS_RECORD_LOW (bnat (decide (16384 < (d.repairs ++ [r]).length + 256))) (.inr (by decide))
    exact ⟨k1.trans h1, k2.trans h2⟩
  · exact coreStands_log hc _ _

omit hc in
/-- The state and the power of a core, as they are set. -/
theorem core_set (d : Dev) {x p : Nat} (hx : x < 8) (hp : p < 4) : ((d.setCoreState c x).setFld (corePwr c) p).coreState c = x ∧
    ((d.setCoreState c x).setFld (corePwr c) p).fld (corePwr c) = p := by
  refine ⟨(fld_setFld_reg _ _ _ _ ?_).trans (coreState_setCoreState d hx), fld_setFld_lt _ (show R.CORE_PWR_STATE.lo + R.CORE_PWR_STATE.width ≤ 64 by decide) hp⟩
  change R.CORE_STATE_STATE.reg + 8 * c ≠ R.CORE_PWR_STATE.reg + 8 * c
  rw [show R.CORE_STATE_STATE.reg = 0x2000 from rfl, show R.CORE_PWR_STATE.reg = 0x9002000 from rfl]
  omega

end

/-- A source core that its test retires. -/
def retireSource (d : Dev) (c : Nat) (u : ErrUnit) : Dev :=
  let d := (d.setCoreState c 4).setFld (corePwr c) 0
  let d := d.setFld R.CORE_COUNT_GOOD (d.fld R.CORE_COUNT_GOOD - 1)
  let d := (d.setUnit 4 c { u with retired := true, candidate := false }).addRepair (retiredUnit d 4 c 0) 3
  d.log { source := 3, inst := c, cls := 4, action := 3, bucket := u.bucket }

/-- A source core that becomes a warm spare. -/
def spareSource (d : Dev) (c : Nat) (u : ErrUnit) : Dev :=
  let d := (((d.emptyCore c).setCoreState c 3).setFld (corePwr c) 2).addSpares 1 0
  (d.setUnit 4 c { u with bucket := 0, candidate := false }).log { source := 3, inst := c, cls := 1, action := 2 }

theorem unitAt_setUnit (d : Dev) (kind inst : Nat) (u : ErrUnit) : (d.setUnit kind inst u).unitAt kind inst = u := smap_get_set_same _ _ _ _

theorem retireSource_spec {c : Nat} (hc : c < 288) (d : Dev) (u : ErrUnit) : (retireSource d c u).coreState c = 4 ∧
    (retireSource d c u).fld (corePwr c) = 0 ∧ (retireSource d c u).unitAt 4 c = { u with retired := true, candidate := false } ∧
      (retireSource d c u).xplant = d.xplant := by
  obtain ⟨h1, h2⟩ := core_set (c := c) d (x := 4) (p := 0) (by decide) (by decide)
  have hx : ((d.setCoreState c 4).setFld (corePwr c) 0).xplant = d.xplant := rfl
  unfold retireSource
  extract_lets a b e
  change a.coreState c = 4 at h1
  change a.fld (corePwr c) = 0 at h2
  change a.xplant = d.xplant at hx
  clear_value a
  have hb : coreStands c a b := coreStands_setFld hc a R.CORE_COUNT_GOOD _ (.inl (by decide))
  have hbx : b.xplant = a.xplant := rfl
  clear_value b
  have he : coreStands c (b.setUnit 4 c { u with retired := true, candidate := false }) e := coreStands_addRepair hc _ _ _
  have heq := addRepair_quiet (b.setUnit 4 c { u with retired := true, candidate := false }) (retiredUnit b 4 c 0) 3
  change quiet e = _ at heq
  have heu : e.unitAt 4 c = { u with retired := true, candidate := false } :=
    (of_quiet (·.unitAt 4 c) (fun _ => rfl) heq).trans (unitAt_setUnit b 4 c _)
  have hex : e.xplant = b.xplant := (of_quiet (·.xplant) (fun _ => rfl) heq).trans rfl
  clear_value e
  obtain ⟨r, hr⟩ : ∃ r : Rep, ({ source := 3, inst := c, cls := 4, action := 3, bucket := u.bucket } : Rep) = r := ⟨_, rfl⟩
  rw [hr]
  have hl := coreStands_log hc e r
  have hq := quiet_log e r
  refine ⟨?_, ?_, (of_quiet (·.unitAt 4 c) (fun _ => rfl) hq).trans heu, (of_quiet (·.xplant) (fun _ => rfl) hq).trans (hex.trans (hbx.trans hx))⟩
  · exact (congrArg R.CORE_STATE_STATE.get (hl.1.trans (he.1.trans hb.1))).trans h1
  · exact (congrArg (corePwr c).get (hl.2.trans (he.2.trans hb.2))).trans h2

theorem spareSource_spec {c : Nat} (hc : c < 288) (d : Dev) (u : ErrUnit) : (spareSource d c u).coreState c = 3 ∧
    (spareSource d c u).fld (corePwr c) = 2 ∧ (spareSource d c u).unitAt 4 c = { u with bucket := 0, candidate := false } ∧
      (spareSource d c u).xplant = d.xplant := by
  obtain ⟨e, he⟩ : ∃ e, d.emptyCore c = e := ⟨_, rfl⟩
  have hex : e.xplant = d.xplant := he ▸ rfl
  obtain ⟨h1, h2⟩ := core_set (c := c) e (x := 3) (p := 2) (by decide) (by decide)
  obtain ⟨a, ha⟩ : ∃ a, (e.setCoreState c 3).setFld (corePwr c) 2 = a := ⟨_, rfl⟩
  have hx : a.xplant = d.xplant := Eq.trans (ha ▸ rfl) hex
  rw [ha] at h1 h2
  unfold spareSource
  dsimp only
  rw [he, ha]
  obtain ⟨b, hb⟩ : ∃ b, a.addSpares 1 0 = b := ⟨_, rfl⟩
  have hbs : coreStands c a b := hb ▸ coreStands_setFld hc a R.CORE_COUNT_SPARE _ (.inl (by decide))
  have hbx : b.xplant = a.xplant := hb ▸ of_bare (·.xplant) (fun _ => rfl) (bare_setFld a R.CORE_COUNT_SPARE _)
  rw [hb]
  obtain ⟨r, hr⟩ : ∃ r : Rep, ({ source := 3, inst := c, cls := 1, action := 2 } : Rep) = r := ⟨_, rfl⟩
  rw [hr]
  obtain ⟨w, hw⟩ : ∃ w : ErrUnit, ({ u with bucket := 0, candidate := false } : ErrUnit) = w := ⟨_, rfl⟩
  rw [hw]
  have hl := coreStands_log hc (b.setUnit 4 c w) r
  have hq := quiet_log (b.setUnit 4 c w) r
  refine ⟨?_, ?_, (of_quiet (·.unitAt 4 c) (fun _ => rfl) hq).trans (unitAt_setUnit b 4 c w),
    ((of_quiet (·.xplant) (fun _ => rfl) hq).trans rfl).trans (hbx.trans hx)⟩
  · exact (congrArg R.CORE_STATE_STATE.get (hl.1.trans hbs.1)).trans h1
  · exact (congrArg (corePwr c).get (hl.2.trans hbs.2)).trans h2

theorem sourceCoreTest_tests {s : State} {c : Nat} (hc : c < 288) (bad : Bool) (hx : (s.dev.xplant.any fun x => x.source == c) = true)
    (hs : s.dev.sourceClean c = true) : MakesSome (.sourceCoreTest c bad) s fun e =>
      let out := bad || s.dev.thirdCandidacy 4 c
      e.coreState c = (if out then 4 else 3) ∧ e.fld (R.CORE_PWR_STATE.at (8 * c)) = (if out then 0 else 2) ∧
        (e.unitAt 4 c).candidate = false ∧ (out = true → (e.unitAt 4 c).retired = true) ∧ ∀ x ∈ e.xplant, x.source ≠ c := by
  obtain ⟨d, hd⟩ : ∃ d : Dev, ({ s.dev with xplant := s.dev.xplant.filter fun x => x.source != c } : Dev) = d := ⟨_, rfl⟩
  have hdx : ∀ k ∈ d.xplant, k.source ≠ c := hd ▸ fun x hx => bne_iff_ne.1 (List.mem_filter.1 hx).2
  have ht : d.thirdCandidacy 4 c = s.dev.thirdCandidacy 4 c := hd ▸ rfl
  have hm : Makes (.sourceCoreTest c bad) s (if bad || s.dev.thirdCandidacy 4 c then retireSource d c (s.dev.unitAt 4 c)
      else spareSource d c (s.dev.unitAt 4 c)) := by
    refine dev_makes (execSourceCoreTest.eq_def ..) (decide_eq_true hc) ?_
    dsimp only
    rw [if_neg (by rw [hx, hs]; exact Bool.false_ne_true), hd, ht]
    rfl
  refine ⟨_, hm, ?_⟩
  dsimp only
  cases bad || s.dev.thirdCandidacy 4 c with
  | true =>
    obtain ⟨h1, h2, h3, h4⟩ := retireSource_spec hc d (s.dev.unitAt 4 c)
    rw [if_pos rfl, h3, h4]
    exact ⟨h1, h2, rfl, fun _ => rfl, hdx⟩
  | false =>
    obtain ⟨h1, h2, h3, h4⟩ := spareSource_spec hc d (s.dev.unitAt 4 c)
    rw [if_neg Bool.false_ne_true, h3, h4]
    exact ⟨h1, h2, rfl, fun h => absurd h Bool.false_ne_true, hdx⟩

/-- Settles O42: a transplant writes the core map last, over registers that emptying and copying a core leave alone. -/
theorem coresAreTransplanted : Obligations.CoresAreTransplanted := by
  intro s c hc d l
  refine ⟨fun hok hl => ⟨fun h u => coreTransplant_waits u hc hok h, fun h hd u => coreTransplant_shown u hc hok h hd,
    fun h hd t ht hp => coreTransplant_moves hc hok hl h hd ht hp, fun h hd h3 h2 => coreTransplant_withdraws hc hok hl h hd h3 h2⟩,
    fun req v hr => ⟨fun h => xplantGo_written hr h, fun h9 h10 hd hcand => ⟨fun hs => xplantGo_refused hr h9 h10 hd hcand hs,
      fun hs hsrc hu h5 hl => xplantGo_moves hr hc h9 h10 hd hcand hs hsrc hu h5 hl⟩⟩,
    fun bad => ⟨fun h => sourceCoreTest_waits hc bad h, fun hx hs => sourceCoreTest_tests hc bad hx hs⟩⟩

end Sys2Proof.Proofs
end

