-- ==== Sys2Proof/Proofs/SelfTest.lean ====
section
/-!
PROOFS. The arming of an injection, and the slices of the self-test engines with their findings (R368, R371 to R375).
-/

namespace Sys2Proof.Proofs

open Sys2Proof Sys2Proof.Machine Sys2Proof.Laws

/-! ### Arming -/

/-- The layout of an arming register. -/
def armSpec : RegSpec := ⟨0x7010120, [(0x100, 22)], [⟨R.INJ_ARM_ARM, .rw, 0, false, false⟩, ⟨R.INJ_ARM_FIRED, .rw1c, 0, false, false⟩,
  ⟨R.INJ_ARM_REFUSED, .rw1c, 0, false, false⟩]⟩

theorem regAt_arm : ∀ k < 22, regAt (0x7010120 + 0x100 * k) = some armSpec := by decide +kernel

/-- No register but that of offset off differs. -/
def oneReg (off : Nat) (d e : Dev) : Prop := bare e = bare d ∧ ∀ k, k ≠ off → e.reg k = d.reg k

theorem injReg_reg (f : Field) (g : Nat) : (injReg f g).reg = f.reg + 0x100 * (g - 1) := rfl

section
variable {d e : Dev} {off : Nat} (h : oneReg off d e)
include h

theorem fld_oneReg {f : Field} (hf : f.reg ≠ off) : e.fld f = d.fld f := congrArg f.get (h.2 _ hf)

theorem instanceOk_oneReg (ho : 0x7010120 ≤ off) (ho' : off < 0x7020000) (g i : Nat) : e.instanceOk g i = d.instanceOk g i := by
  have hcore (hi : i < 288) : e.coreState i = d.coreState i := fld_oneReg h (by
    change R.CORE_STATE_STATE.reg + 8 * i ≠ off
    rw [show R.CORE_STATE_STATE.reg = 0x2000 from rfl]
    omega)
  have hmc (hi : i < 16) : e.fld (mcReg R.MC_STATUS_STATE i) = d.fld (mcReg R.MC_STATUS_STATE i) := fld_oneReg h (by
    change R.MC_STATUS_STATE.reg + 0x40000 * i ≠ off
    rw [show R.MC_STATUS_STATE.reg = 0x1000000 from rfl]
    omega)
  unfold Dev.instanceOk
  by_cases h288 : i < 288
  · by_cases h16 : i < 16
    · rw [hcore h288, hmc h16]
    · rw [hcore h288, decide_eq_false h16]
      rfl
  · rw [decide_eq_false h288, decide_eq_false (show ¬i < 16 by omega)]
    rfl

end

/-- Whether an arming is refused does not depend on the arming register. -/
theorem armRefused_oneReg {d e : Dev} {g : Nat} (h : oneReg (injReg R.INJ_ARM_ARM g).reg d e) (h1 : 1 ≤ g) (h2 : g ≤ 22) :
    e.armRefused g = d.armRefused g := by
  have hoff : (injReg R.INJ_ARM_ARM g).reg = 0x7010120 + 0x100 * (g - 1) := rfl
  have other {f : Field} (hf : f.reg < 0x7010120) : e.fld (injReg f g) = d.fld (injReg f g) := fld_oneReg h (by
    rw [hoff, injReg_reg]
    omega)
  have low {f : Field} (hf : f.reg < 0x7010120) : e.fld f = d.fld f := fld_oneReg h (by rw [hoff]; omega)
  have hlock : e.locked = d.locked := congrArg (· != 0) (low (by decide))
  have hdbg : e.flag R.SE_STATUS_DEBUG = d.flag R.SE_STATUS_DEBUG := congrArg (· != 0) (low (by decide))
  have hmask : e.reg (injReg R.INJ_FLIP_MASK g).reg = d.reg (injReg R.INJ_FLIP_MASK g).reg := h.2 _ (by
    rw [hoff, injReg_reg, show R.INJ_FLIP_MASK.reg = 0x7010108 from rfl]
    omega)
  have hi := instanceOk_oneReg h (by rw [hoff]; omega) (by rw [hoff]; omega) g (d.fld (injReg R.INJ_SEL_INSTANCE g))
  unfold Dev.armRefused
  dsimp only
  rw [other (f := R.INJ_SEL_INSTANCE) (by decide), other (f := R.INJ_SEL_MATCH) (by decide), other (f := R.INJ_SEL_WORD) (by decide),
    low (f := R.SELFTEST_CTL_INJ_POLICY) (by decide), hlock, hdbg, hi]
  obtain ⟨i, hie⟩ : ∃ i, d.fld (injReg R.INJ_SEL_INSTANCE g) = i := ⟨_, rfl⟩
  rw [hie]
  cases hok : d.instanceOk g i with
  | false => simp only [Bool.not_false, Bool.true_or]
  | true =>
    have hb : e.maskBounded g i = d.maskBounded g i := by
      unfold Dev.maskBounded
      rw [hmask, other (f := R.INJ_FLIP_CHK_MASK) (by decide)]
      by_cases hg : g = 0x10
      · have h16 : i < 16 := by
          subst hg
          rw [Dev.instanceOk] at hok
          simp only [beq_iff_eq] at hok
          simp at hok
          exact hok.1.1.1
        have hx : e.flag (mcReg R.MC_CFG_X8 i) = d.flag (mcReg R.MC_CFG_X8 i) := congrArg (· != 0) (low (by
          change R.MC_CFG_X8.reg + 0x40000 * i < _
          rw [show R.MC_CFG_X8.reg = 0x1000008 from rfl]
          omega))
        rw [hx]
      · have hg : (g == 0x10) = false := beq_false_of_ne hg
        simp only [hg, Bool.false_eq_true, if_false]
    rw [hb]

theorem injArmWrite_spec (d : Dev) {g : Nat} (v : Word) (h1 : 1 ≤ g) (h2 : g ≤ 22) :
    (d.injArmWrite g v).flag (injReg R.INJ_ARM_ARM g) = (v.getLsbD 0 && !d.armRefused g) ∧
    (v.getLsbD 0 = true → d.armRefused g = true → (d.injArmWrite g v).flag (injReg R.INJ_ARM_REFUSED g) = true) ∧
    ∀ off, off ≠ (injReg R.INJ_ARM_ARM g).reg → (d.injArmWrite g v).reg off = d.reg off := by
  have hr : regAt (injReg R.INJ_ARM_ARM g).reg = some armSpec := regAt_arm (g - 1) (by omega)
  have he : (injReg R.INJ_ARM_ARM g).reg ∉ eventRegs := by
    have hb : ∀ k ∈ eventRegs, k < 0x7010120 := by decide
    intro hm
    have := hb _ hm
    rw [injReg_reg, show R.INJ_ARM_ARM.reg = 0x7010120 from rfl] at this
    omega
  have hone : oneReg (injReg R.INJ_ARM_ARM g).reg d (d.writeReg (injReg R.INJ_ARM_ARM g).reg v) :=
    ⟨bare_writeReg_plain v hr he, fun k hk => reg_writeReg_other v hr he hk⟩
  have hw : (d.writeReg (injReg R.INJ_ARM_ARM g).reg v).reg (injReg R.INJ_ARM_ARM g).reg =
      writeWord d.locked armSpec (d.reg (injReg R.INJ_ARM_ARM g).reg) v := by
    rw [writeReg_plain v hr he, reg_setReg_same]
  have hbit : (d.writeReg (injReg R.INJ_ARM_ARM g).reg v).flag (injReg R.INJ_ARM_ARM g) = v.getLsbD 0 := by
    refine (congrArg (fun w => R.INJ_ARM_ARM.get w != 0) hw).trans ((get_bit R.INJ_ARM_ARM rfl _).trans ?_)
    exact writeFields_covered d.locked v (b := 0) (by decide) armSpec.fields (by decide) (f := ⟨R.INJ_ARM_ARM, .rw, 0, false, false⟩)
      (by decide) (by unfold covers; decide) _
  have href := armRefused_oneReg hone h1 h2
  unfold Dev.injArmWrite
  obtain ⟨x, hx⟩ : ∃ x, d.writeReg (injReg R.INJ_ARM_ARM g).reg v = x := ⟨_, rfl⟩
  rw [hx] at hone hbit href
  dsimp only
  rw [hx, href, bitOf_eq_getLsbD]
  cases h0 : v.getLsbD 0 && d.armRefused g with
  | true =>
    obtain ⟨ha, hb⟩ := Bool.and_eq_true_iff.1 h0
    rw [if_pos rfl, ha, hb]
    obtain ⟨y, hy⟩ : ∃ y, x.setFld (injReg R.INJ_ARM_ARM g) 0 = y := ⟨_, rfl⟩
    have hya : y.flag (injReg R.INJ_ARM_ARM g) = false := hy ▸ flag_setFld_zero x _ (show R.INJ_ARM_ARM.lo + R.INJ_ARM_ARM.width ≤ 64 by decide)
    have hyo : ∀ off, off ≠ (injReg R.INJ_ARM_ARM g).reg → y.reg off = x.reg off := fun off ho => hy ▸ reg_setFld_other x _ _ off ho
    rw [hy]
    refine ⟨(flag_setFld_apart y (injReg R.INJ_ARM_REFUSED g) (injReg R.INJ_ARM_ARM g) 1 (show R.INJ_ARM_REFUSED.lo + R.INJ_ARM_REFUSED.width ≤ 64 by decide)
      (.inl (show R.INJ_ARM_ARM.lo + R.INJ_ARM_ARM.width ≤ R.INJ_ARM_REFUSED.lo by decide))).trans hya,
      fun _ _ => flag_setFld_one y _ (show R.INJ_ARM_REFUSED.lo + R.INJ_ARM_REFUSED.width ≤ 64 by decide) (show 0 < R.INJ_ARM_REFUSED.width by decide),
      fun off ho => (reg_setFld_other y (injReg R.INJ_ARM_REFUSED g) 1 off ho).trans ((hyo off ho).trans (hone.2 off ho))⟩
  | false =>
    rw [if_neg Bool.false_ne_true]
    refine ⟨hbit.trans ?_, fun ha hb => ?_, hone.2⟩
    · cases hv : v.getLsbD 0 with
      | false => rfl
      | true =>
        rw [hv, Bool.true_and] at h0
        rw [h0]
        rfl
    · rw [ha, hb] at h0
      exact absurd h0 (by decide)

/-! ### Findings -/

/-- A spare row that is left is mapped, and recorded. -/
theorem mapSpare_row {d : Dev} {g i sub loc : Nat} (hl : d.repairs.length < 16384) (hs : d.sparesUsed 1 g i sub < spareRows g) :
    (d.mapSpare 1 g i sub loc).repairs = d.repairs ++ [⟨1, 7, g, i, sub, loc, d.sparesUsed 1 g i sub, false, false, d.frame⟩] ∧
      (d.mapSpare 1 g i sub loc).engines = d.engines ∧
      ∀ off, reported off = false → off ≠ R.REPAIR_STATUS_USED.reg → (d.mapSpare 1 g i sub loc).reg off = d.reg off := by
  unfold Dev.mapSpare
  extract_lets n
  rw [if_pos (show ((1 : Nat) == 1) = true from rfl), if_neg (Nat.not_le.2 hs)]
  obtain ⟨r, hr⟩ : ∃ r : Repair, (⟨1, 7, g, i, sub, loc, n, false, false, d.frame⟩ : Repair) = r := ⟨_, rfl⟩
  change _ = d.repairs ++ [⟨1, 7, g, i, sub, loc, n, false, false, d.frame⟩] ∧ _
  rw [hr]
  have hq := addRepair_quiet d r (groupSource g)
  have hreg : ∀ off, off ≠ R.REPAIR_STATUS_USED.reg → (d.addRepair r (groupSource g)).reg off = d.reg off := fun off ho => by
    unfold Dev.addRepair
    rw [if_pos hl]
    exact (reg_setFld_other _ R.REPAIR_STATUS_RECORD_LOW _ off ho).trans (reg_setFld_other _ R.REPAIR_STATUS_USED _ off ho)
  rw [if_pos hl] at hq
  obtain ⟨x, hx⟩ : ∃ x, d.addRepair r (groupSource g) = x := ⟨_, rfl⟩
  rw [hx] at hq hreg ⊢
  obtain ⟨p, hp⟩ : ∃ p : Rep, ({ source := groupSource g, inst := i, cls := 4, action := 3, location := g + loc * 256 } : Rep) = p := ⟨_, rfl⟩
  rw [hp]
  have hlq := quiet_log x p
  exact ⟨(of_quiet (·.repairs) (fun _ => rfl) hlq).trans ((of_quiet (·.repairs) (fun _ => rfl) hq).trans rfl),
    (of_quiet (·.engines) (fun _ => rfl) hlq).trans ((of_quiet (·.engines) (fun _ => rfl) hq).trans rfl),
    fun off hr ho => (keepsRegs_log x p off hr).trans (hreg off ho)⟩

/-! ### The engines -/

theorem reported_slice : ∀ k < 6, reported (R.SLICE_FAIL_VALID.at (0x40 * k)).reg = false ∧
    reported (R.SLICE_STATUS_POSITION.at (0x40 * k)).reg = false := by decide

theorem sliceTotal_lt (k : Nat) : sliceTotal k < 2 ^ 24 := by
  unfold sliceTotal
  split
  · decide
  · split
    · decide
    · decide

section
variable (d : Dev)

theorem engine_setEngine (k : Nat) (x : Engine) : (d.setEngine k x).engine k = x := smap_get_set_same _ _ _ _

/-- The position goes on to the next slice, or to the first one when the pass is done. -/
theorem sliceNext_spec (k : Nat) : (d.sliceNext k).fld (R.SLICE_STATUS_POSITION.at (0x40 * k)) =
      (if d.fld (R.SLICE_STATUS_POSITION.at (0x40 * k)) + 1 < sliceTotal k then d.fld (R.SLICE_STATUS_POSITION.at (0x40 * k)) + 1 else 0) ∧
    (sliceTotal k ≤ d.fld (R.SLICE_STATUS_POSITION.at (0x40 * k)) + 1 → (d.sliceNext k).flag (R.SLICE_STATUS_PASS_DONE.at (0x40 * k)) = true) ∧
    (d.sliceNext k).repairs = d.repairs ∧ (d.sliceNext k).frame = d.frame ∧ ((d.sliceNext k).engine k).go = (d.engine k).go := by
  have hpw : (R.SLICE_STATUS_POSITION.at (0x40 * k)).lo + (R.SLICE_STATUS_POSITION.at (0x40 * k)).width ≤ 64 :=
    show R.SLICE_STATUS_POSITION.lo + R.SLICE_STATUS_POSITION.width ≤ 64 by decide
  have hlt := sliceTotal_lt k
  unfold Dev.sliceNext
  extract_lets p len x
  change _ = (if p < _ then p else 0) ∧ (_ ≤ p → _) ∧ _
  have hf : R.FRAME_NUMBER.reg ≠ (R.SLICE_STATUS_POSITION.at (0x40 * k)).reg := by
    change R.FRAME_NUMBER.reg ≠ R.SLICE_STATUS_POSITION.reg + 0x40 * k
    rw [show R.FRAME_NUMBER.reg = 8 from rfl, show R.SLICE_STATUS_POSITION.reg = 0x7001008 from rfl]
    omega
  by_cases hp : p < sliceTotal k
  · rw [if_pos hp, if_pos hp]
    have hb := bare_setFld d (R.SLICE_STATUS_POSITION.at (0x40 * k)) p
    exact ⟨fld_setFld_lt d hpw (show p < 2 ^ R.SLICE_STATUS_POSITION.width by exact Nat.lt_trans hp hlt), fun h => absurd hp (Nat.not_lt.2 h),
      of_bare (·.repairs) (fun _ => rfl) hb, reg_setFld_other d _ p _ hf, of_bare (fun d => (d.engine k).go) (fun _ => rfl) hb⟩
  · rw [if_neg hp, if_neg hp]
    have ha {f : Field} (h : f.lo + f.width ≤ 64) : (f.at (0x40 * k)).lo + (f.at (0x40 * k)).width ≤ 64 := h
    obtain ⟨w, hw⟩ : ∃ w, d.setFld (R.SLICE_STATUS_POSITION.at (0x40 * k)) 0 = w := ⟨_, rfl⟩
    have hwp : w.fld (R.SLICE_STATUS_POSITION.at (0x40 * k)) = 0 := hw ▸ fld_setFld_lt d hpw (Nat.two_pow_pos _)
    have hwb : bare w = bare d := hw ▸ bare_setFld d _ 0
    have hwf : w.reg R.FRAME_NUMBER.reg = d.reg R.FRAME_NUMBER.reg := hw ▸ reg_setFld_other d _ 0 _ hf
    have hx : x = w.setFld (R.SLICE_STATUS_LAST_PASS.at (0x40 * k)) len := hw ▸ rfl
    clear_value x len
    have hxp : x.fld (R.SLICE_STATUS_POSITION.at (0x40 * k)) = 0 := (hx ▸ fld_setFld_apart w (R.SLICE_STATUS_LAST_PASS.at (0x40 * k)) (R.SLICE_STATUS_POSITION.at (0x40 * k)) len
      (ha (by decide)) (.inl (show R.SLICE_STATUS_POSITION.lo + R.SLICE_STATUS_POSITION.width ≤ R.SLICE_STATUS_LAST_PASS.lo by decide))).trans hwp
    have hxb : bare x = bare d := (hx ▸ bare_setFld w _ len).trans hwb
    have hxf : x.reg R.FRAME_NUMBER.reg = d.reg R.FRAME_NUMBER.reg := (hx ▸ reg_setFld_other w (R.SLICE_STATUS_LAST_PASS.at (0x40 * k)) len _ hf).trans hwf
    obtain ⟨z, hz⟩ : ∃ z, x.setFld (sliceReg' R.SLICE_STATUS_PASS_DONE k) 1 = z := ⟨_, rfl⟩
    have hzp : z.fld (R.SLICE_STATUS_POSITION.at (0x40 * k)) = 0 := (hz ▸ fld_setFld_apart x (R.SLICE_STATUS_PASS_DONE.at (0x40 * k)) (R.SLICE_STATUS_POSITION.at (0x40 * k)) 1
      (ha (by decide)) (.inl (show R.SLICE_STATUS_POSITION.lo + R.SLICE_STATUS_POSITION.width ≤ R.SLICE_STATUS_PASS_DONE.lo by decide))).trans hxp
    have hzd : z.flag (R.SLICE_STATUS_PASS_DONE.at (0x40 * k)) = true := hz ▸ flag_setFld_one x (R.SLICE_STATUS_PASS_DONE.at (0x40 * k)) (ha (by decide))
      (show 0 < R.SLICE_STATUS_PASS_DONE.width by decide)
    have hzb : bare z = bare d := (hz ▸ bare_setFld x _ 1).trans hxb
    have hzf : z.reg R.FRAME_NUMBER.reg = d.reg R.FRAME_NUMBER.reg := (hz ▸ reg_setFld_other x (R.SLICE_STATUS_PASS_DONE.at (0x40 * k)) 1 _ hf).trans hxf
    have hxe : x.engine k = d.engine k := of_bare (·.engine k) (fun _ => rfl) hxb
    rw [hz]
    have hzr : z.repairs = d.repairs := of_bare (·.repairs) (fun _ => rfl) hzb
    refine ⟨hzp, fun _ => hzd, hzr, hzf, ?_⟩
    rw [engine_setEngine]
    exact show (x.engine k).go = (d.engine k).go from congrArg Engine.go hxe

end

/-! ### Findings that are shown -/

/-- The content of `SLICE_FAIL` for a row. -/
def rowShown (g i row : Nat) : Nat := g % 256 + i % 65536 * 2 ^ 8 + row % 65536 * 2 ^ 24 + 0 * 2 ^ 40 + 2 ^ 41

theorem showFinding_row (d : Dev) {k g i sub row : Nat} (hk : k < 6) (hg : g < 256) (hi : i < 65536) (hr : row < 65536) :
    let e := d.showFinding k (.row g i sub row)
    e.engine k = { d.engine k with held := .row g i sub row } ∧ e.flag (R.SLICE_FAIL_VALID.at (0x40 * k)) = true ∧
      e.fld (R.SLICE_FAIL_GROUP.at (0x40 * k)) = g ∧ e.fld (R.SLICE_FAIL_INSTANCE.at (0x40 * k)) = i ∧
      e.fld (R.SLICE_FAIL_ROW.at (0x40 * k)) = row ∧ e.repairs = d.repairs := by
  obtain ⟨x, hx⟩ : ∃ x, d.setEngine k { d.engine k with held := .row g i sub row } = x := ⟨_, rfl⟩
  have hxe : x.engine k = { d.engine k with held := .row g i sub row } := hx ▸ engine_setEngine d k _
  have hxr : x.repairs = d.repairs := hx ▸ rfl
  obtain ⟨y, hy⟩ : ∃ y, x.setReg (R.SLICE_FAIL_VALID.at (0x40 * k)).reg (word (rowShown g i row)) = y := ⟨_, rfl⟩
  have hyw : y.reg (R.SLICE_FAIL_VALID.at (0x40 * k)).reg = word (rowShown g i row) := hy ▸ reg_setReg_same x _ _
  have hyb : bare y = bare x := hy ▸ bare_setReg x _ _
  have he : d.showFinding k (.row g i sub row) = y.dutyEvent := by
    rw [← hy, ← hx]
    rfl
  intro e
  have hw : e.reg (R.SLICE_FAIL_VALID.at (0x40 * k)).reg = word (rowShown g i row) := by
    change (d.showFinding k (.row g i sub row)).reg _ = _
    rw [he]
    exact (keepsRegs_errEventNow 32 (keepsRegs_refl y) _ (reported_slice k hk).1).trans hyw
  have hb : bare e = bare x := by
    change bare (d.showFinding k (.row g i sub row)) = _
    rw [he]
    exact (bare_errEventNow y 32).trans hyb
  have hn : (word (rowShown g i row)).toNat = g + i * 2 ^ 8 + row * 2 ^ 24 + 2 ^ 41 := by
    rw [word, rowShown, Nat.mod_eq_of_lt hg, Nat.mod_eq_of_lt hi, Nat.mod_eq_of_lt hr, BitVec.toNat_ofNat]
    omega
  have hf (f : Field) (h : f.reg = R.SLICE_FAIL_VALID.reg) : e.fld (f.at (0x40 * k)) =
      (g + i * 2 ^ 8 + row * 2 ^ 24 + 2 ^ 41) / 2 ^ f.lo % 2 ^ f.width := by
    rw [← hn, ← hw, ← show (f.at (0x40 * k)).reg = (R.SLICE_FAIL_VALID.at (0x40 * k)).reg from congrArg (· + 0x40 * k) h]
    rfl
  refine ⟨(of_bare (·.engine k) (fun _ => rfl) hb).trans hxe, ?_, (hf R.SLICE_FAIL_GROUP rfl).trans ?_, (hf R.SLICE_FAIL_INSTANCE rfl).trans ?_,
    (hf R.SLICE_FAIL_ROW rfl).trans ?_, (of_bare (·.repairs) (fun _ => rfl) hb).trans hxr⟩
  · rw [Dev.flag, hf R.SLICE_FAIL_VALID rfl, show R.SLICE_FAIL_VALID.lo = 41 from rfl, show R.SLICE_FAIL_VALID.width = 1 from rfl]
    rw [show (g + i * 2 ^ 8 + row * 2 ^ 24 + 2 ^ 41) / 2 ^ 41 % 2 ^ 1 = 1 by omega]
    rfl
  · rw [show R.SLICE_FAIL_GROUP.lo = 0 from rfl, show R.SLICE_FAIL_GROUP.width = 8 from rfl]
    omega
  · rw [show R.SLICE_FAIL_INSTANCE.lo = 8 from rfl, show R.SLICE_FAIL_INSTANCE.width = 16 from rfl]
    omega
  · rw [show R.SLICE_FAIL_ROW.lo = 24 from rfl, show R.SLICE_FAIL_ROW.width = 16 from rfl]
    omega

/-- A finding that software has dealt with is shown no longer. -/
theorem showFinding_clean (d : Dev) (k : Nat) : let e := d.showFinding k .clean
    (e.engine k).held = .clean ∧ e.flag (R.SLICE_FAIL_VALID.at (0x40 * k)) = false ∧ e.repairs = d.repairs ∧
      ∀ off, off ≠ (R.SLICE_FAIL_VALID.at (0x40 * k)).reg → e.reg off = d.reg off := by
  obtain ⟨x, hx⟩ : ∃ x, d.setEngine k { d.engine k with held := .clean } = x := ⟨_, rfl⟩
  have hxe : x.engine k = { d.engine k with held := .clean } := hx ▸ engine_setEngine d k _
  have hxr : x.repairs = d.repairs := hx ▸ rfl
  have hxg : x.regs = d.regs := hx ▸ rfl
  obtain ⟨y, hy⟩ : ∃ y, x.setReg (R.SLICE_FAIL_VALID.at (0x40 * k)).reg 0 = y := ⟨_, rfl⟩
  have hyw : y.reg (R.SLICE_FAIL_VALID.at (0x40 * k)).reg = 0 := hy ▸ reg_setReg_same x _ _
  have hyo : ∀ off, off ≠ (R.SLICE_FAIL_VALID.at (0x40 * k)).reg → y.reg off = x.reg off := fun off ho => hy ▸ reg_setReg_other x _ off _ ho
  have hyb : bare y = bare x := hy ▸ bare_setReg x _ _
  have he : d.showFinding k .clean = y := by
    rw [← hy, ← hx]
    rfl
  rw [he]
  refine ⟨(of_bare (fun d => (d.engine k).held) (fun _ => rfl) hyb).trans (congrArg Engine.held hxe), ?_,
    (of_bare (·.repairs) (fun _ => rfl) hyb).trans hxr, fun off ho => (hyo off ho).trans (congrArg (fun m => SMap.get coldValue m off) hxg)⟩
  exact congrArg (fun w => R.SLICE_FAIL_VALID.get w != 0) hyw

/-! ### The commands of the engines -/

theorem data_makes {c : Instr} {ok : Bool} {s : State} {f : Dev → Dev} {e : Dev} (hc : exec c s = onData ok s f) (hok : ok = true)
    (hclk : s.dev.clocksOk = true) (he : f s.dev = e) : Makes c s e := by
  refine hc.trans ?_
  unfold onData
  rw [hok, if_neg (by decide), if_pos hclk, he]

section
variable {s : State} {k : Nat} (hk : k < 6) (hc : s.dev.clocksOk = true)
include hk hc

theorem sliceTest_off (f : SliceFinding) (h : s.dev.flag (R.SLICE_CTL_EN.at (0x40 * k)) = false ∨ s.dev.phase ≠ .running) :
    Gives (.sliceTest k f) s s := by
  refine data_makes (e := s.dev) (execSliceTest.eq_def ..) (decide_eq_true hk) hc (if_pos ?_)
  rcases h with h | h
  · rw [show s.dev.flag (sliceReg' R.SLICE_CTL_EN k) = false from h]
    rfl
  · rw [bne_iff_ne.2 h, Bool.or_true]

theorem sliceTest_waits (f : SliceFinding) (hd : s.dev.duty 8 = true) (hg : (s.dev.engine k).go = none) : Gives (.sliceTest k f) s s := by
  refine data_makes (e := s.dev) (execSliceTest.eq_def ..) (decide_eq_true hk) hc ?_
  dsimp only
  rw [hd, hg]
  exact ite_self _

section
variable (hon : s.dev.flag (R.SLICE_CTL_EN.at (0x40 * k)) = true) (hrun : s.dev.phase = .running)
include hon hrun

omit hk hc in
theorem engine_runs : ¬(!s.dev.flag (sliceReg' R.SLICE_CTL_EN k) || s.dev.phase != .running) = true := by
  rw [show s.dev.flag (sliceReg' R.SLICE_CTL_EN k) = true from hon, hrun]
  decide

/-- The engine at the slice it stands at, by itself. -/
theorem sliceTest_alone (f : SliceFinding) (hd : s.dev.duty 8 = false) : ∃ x : Dev, bare x = bare (s.dev.setEngine k (x.engine k)) ∧
    x.regs = s.dev.regs ∧ Makes (.sliceTest k f) s ((x.sliceNext k).repairFinding f) := by
  refine ⟨s.dev.setEngine k { s.dev.engine k with owed := false, misses := 0 }, ?_, rfl, data_makes (execSliceTest.eq_def ..) (decide_eq_true hk) hc ?_⟩
  · rw [engine_setEngine]
  · dsimp only
    rw [if_neg (engine_runs hon hrun), hd]
    rfl

theorem sliceTest_clean (hd : s.dev.duty 8 = false) : MakesSome (.sliceTest k .clean) s fun e =>
    e.fld (R.SLICE_STATUS_POSITION.at (0x40 * k)) = (if s.dev.fld (R.SLICE_STATUS_POSITION.at (0x40 * k)) + 1 < sliceTotal k then
      s.dev.fld (R.SLICE_STATUS_POSITION.at (0x40 * k)) + 1 else 0) ∧
    (sliceTotal k ≤ s.dev.fld (R.SLICE_STATUS_POSITION.at (0x40 * k)) + 1 → e.flag (R.SLICE_STATUS_PASS_DONE.at (0x40 * k)) = true) ∧
    e.repairs = s.dev.repairs := by
  obtain ⟨x, hb, hr, hm⟩ := sliceTest_alone hk hc hon hrun .clean hd
  obtain ⟨h1, h2, h3, -⟩ := sliceNext_spec x k
  have hp := fld_of_regs hr (R.SLICE_STATUS_POSITION.at (0x40 * k))
  rw [hp] at h1 h2
  exact ⟨_, hm, h1, h2, h3.trans ((of_bare (·.repairs) (fun _ => rfl) hb).trans rfl)⟩

theorem sliceTest_row {g i sub row : Nat} (hd : s.dev.duty 8 = false) (hl : s.dev.repairs.length < 16384)
    (hs : s.dev.sparesUsed 1 g i sub < spareRows g) : MakesSome (.sliceTest k (.row g i sub row)) s fun e =>
      e.repairs = s.dev.repairs ++ [⟨1, 7, g, i, sub, row, s.dev.sparesUsed 1 g i sub, false, false, s.dev.frame⟩] := by
  obtain ⟨x, hb, hr, hm⟩ := sliceTest_alone hk hc hon hrun (.row g i sub row) hd
  obtain ⟨-, -, h3, h4, -⟩ := sliceNext_spec x k
  have h3 : (x.sliceNext k).repairs = s.dev.repairs := h3.trans ((of_bare (·.repairs) (fun _ => rfl) hb).trans rfl)
  have h4 : (x.sliceNext k).frame = s.dev.frame := h4.trans (congrArg (fun m => SMap.get coldValue m R.FRAME_NUMBER.reg) hr)
  have hu : (x.sliceNext k).sparesUsed 1 g i sub = s.dev.sparesUsed 1 g i sub := by
    unfold Dev.sparesUsed
    rw [h3]
  obtain ⟨hm1, -⟩ := mapSpare_row (loc := row) (by rw [h3]; exact hl) (by rw [hu]; exact hs)
  refine ⟨_, hm, hm1.trans ?_⟩
  rw [h3, h4, hu]

theorem sliceTest_held {g i sub row n : Nat} (hd : s.dev.duty 8 = true) (hgo : (s.dev.engine k).go = some n) (hg : g < 256) (hi : i < 65536)
    (hr : row < 65536) : MakesSome (.sliceTest k (.row g i sub row)) s fun e =>
      (e.engine k).held = .row g i sub row ∧ (e.engine k).go = none ∧ e.flag (R.SLICE_FAIL_VALID.at (0x40 * k)) = true ∧
      e.fld (R.SLICE_FAIL_GROUP.at (0x40 * k)) = g ∧ e.fld (R.SLICE_FAIL_INSTANCE.at (0x40 * k)) = i ∧
      e.fld (R.SLICE_FAIL_ROW.at (0x40 * k)) = row ∧ e.repairs = s.dev.repairs := by
  obtain ⟨x, hx⟩ : ∃ x, s.dev.setEngine k { s.dev.engine k with go := none, owed := false, misses := 0 } = x := ⟨_, rfl⟩
  have hxe : (x.engine k).go = none := by
    rw [← hx, engine_setEngine]
  have hxr : x.repairs = s.dev.repairs := hx ▸ rfl
  obtain ⟨y, hy⟩ : ∃ y, x.setFld (sliceReg' R.SLICE_STATUS_DUE k) 0 = y := ⟨_, rfl⟩
  have hyb : bare y = bare x := hy ▸ bare_setFld x _ 0
  have hye : (y.engine k).go = none := (of_bare (fun d => (d.engine k).go) (fun _ => rfl) hyb).trans hxe
  have hyr : y.repairs = s.dev.repairs := (of_bare (·.repairs) (fun _ => rfl) hyb).trans hxr
  obtain ⟨z, hz⟩ : ∃ z, (if n == s.dev.fld (sliceReg' R.SLICE_STATUS_POSITION k) then y.sliceNext k else y) = z := ⟨_, rfl⟩
  have hzs : (z.engine k).go = none ∧ z.repairs = s.dev.repairs := by
    obtain ⟨-, -, h3, -, h5⟩ := sliceNext_spec y k
    rw [← hz]
    split
    · exact ⟨h5.trans hye, h3.trans hyr⟩
    · exact ⟨hye, hyr⟩
  obtain ⟨h1, h2, h3, h4, h5, h6⟩ := showFinding_row z (sub := sub) hk hg hi hr
  refine ⟨_, data_makes (e := z.showFinding k (.row g i sub row)) (execSliceTest.eq_def ..) (decide_eq_true hk) hc ?_, congrArg Engine.held h1,
    (congrArg Engine.go h1).trans hzs.1, h2, h3, h4, h5, h6.trans hzs.2⟩
  dsimp only
  rw [if_neg (engine_runs hon hrun), hd, hgo]
  dsimp only
  rw [if_pos rfl, hx, hy, hz, show (SliceFinding.row g i sub row == .clean) = false from rfl]
  exact if_neg Bool.false_ne_true

end

end

/-! ### What software writes -/

section
variable {s : State} {req : Requester} {k : Nat} (hr : reqOk req = true) (hk : k < 6)
include hr hk

theorem sliceGo_makes {v : Word} {e : Dev} (h : s.dev.sliceGoWrite k v = e) : Makes (.sliceGo req k v) s e ∧
    Makes (.sliceRepair req k v) s e ∧ Makes (.sliceSkip req k v) s e := by
  have ho : (reqOk req && decide (k < 6)) = true := by rw [hr, decide_eq_true hk]; rfl
  exact ⟨dev_makes (execSliceGo.eq_def ..) ho h, dev_makes (execSliceRepair.eq_def ..) ho h, dev_makes (execSliceSkip.eq_def ..) ho h⟩

end

/-- An engine that software releases, or that it leaves. -/
def released (d : Dev) (k : Nat) (v : Word) : Dev :=
  if v.getLsbD 24 && d.duty 8 && (d.flag (sliceReg' R.SLICE_STATUS_DUE k) || getF v 0 24 != 0xFFFFFF) then
    d.setEngine k { d.engine k with
      go := some (if getF v 0 24 == 0xFFFFFF then d.fld (sliceReg' R.SLICE_STATUS_POSITION k) else getF v 0 24) }
  else d

theorem sliceGoWrite_eq (d : Dev) (k : Nat) (v : Word) : d.sliceGoWrite k v =
    if (released d k v).flag (sliceReg' R.SLICE_FAIL_VALID k) && (v.getLsbD 25 || v.getLsbD 26) then
      if v.getLsbD 25 then ((released d k v).showFinding k .clean).repairFinding ((released d k v).engine k).held
      else (released d k v).showFinding k .clean
    else released d k v := by
  unfold Dev.sliceGoWrite released
  rw [bitOf_eq_getLsbD v 25, bitOf_eq_getLsbD v 26, bitOf_eq_getLsbD v 24]

theorem released_none {d : Dev} {k : Nat} {v : Word} (h : v.getLsbD 24 = false) : released d k v = d :=
  if_neg (by rw [h, Bool.false_and, Bool.false_and]; exact Bool.false_ne_true)

theorem sliceGoWrite_go {d : Dev} {k n : Nat} {v : Word} (h : v.extractLsb' 25 2 = 0#2) (hg : v.getLsbD 24 = true) (hd : d.duty 8 = true)
    (hn : (v.extractLsb' 0 24).toNat ≠ 0xFFFFFF ∧ n = (v.extractLsb' 0 24).toNat ∨
      (v.extractLsb' 0 24).toNat = 0xFFFFFF ∧ d.flag (R.SLICE_STATUS_DUE.at (0x40 * k)) = true ∧ n = d.fld (R.SLICE_STATUS_POSITION.at (0x40 * k))) :
    (((d.sliceGoWrite k v).engine k).go) = some n := by
  have h25 : v.getLsbD 25 = false := by
    have := congrArg (·.getLsbD 0) h
    simpa using this
  have h26 : v.getLsbD 26 = false := by
    have := congrArg (·.getLsbD 1) h
    simpa using this
  rw [sliceGoWrite_eq, h25, h26, if_neg (by rw [Bool.or_false, Bool.and_false]; exact Bool.false_ne_true)]
  unfold released
  rw [hg, hd, getF_eq_extract]
  rcases hn with ⟨h0, rfl⟩ | ⟨h0, hdue, rfl⟩
  · rw [if_pos (by rw [bne_iff_ne.2 h0, Bool.or_true]; rfl), engine_setEngine, if_neg (by rw [beq_iff_eq]; exact h0)]
  · rw [if_pos (by rw [show d.flag (sliceReg' R.SLICE_STATUS_DUE k) = true from hdue]; rfl), engine_setEngine, if_pos (by rw [beq_iff_eq]; exact h0)]
    rfl

theorem sliceGoWrite_shown {d : Dev} {k : Nat} {v : Word} (h24 : v.getLsbD 24 = false)
    (hf : d.flag (R.SLICE_FAIL_VALID.at (0x40 * k)) = true) (h : v.getLsbD 25 = true ∨ v.getLsbD 26 = true) :
    d.sliceGoWrite k v = if v.getLsbD 25 then (d.showFinding k .clean).repairFinding (d.engine k).held else d.showFinding k .clean := by
  rw [sliceGoWrite_eq, released_none h24]
  refine if_pos ?_
  rw [show d.flag (sliceReg' R.SLICE_FAIL_VALID k) = true from hf, Bool.true_and, Bool.or_eq_true]
  exact h

theorem sliceGoWrite_none {d : Dev} {k : Nat} {v : Word} (h24 : v.getLsbD 24 = false)
    (hf : d.flag (R.SLICE_FAIL_VALID.at (0x40 * k)) = false) : d.sliceGoWrite k v = d := by
  rw [sliceGoWrite_eq, released_none h24]
  exact if_neg (by rw [show d.flag (sliceReg' R.SLICE_FAIL_VALID k) = false from hf]; exact Bool.false_ne_true)

/-- Bits 24 to 26 of a command to an engine. -/
theorem goBits {v : Word} {x : BitVec 3} (h : v.extractLsb' 24 3 = x) : v.getLsbD 24 = x.getLsbD 0 ∧ v.getLsbD 25 = x.getLsbD 1 ∧
    v.getLsbD 26 = x.getLsbD 2 := by
  subst h
  simp

theorem sliceFail_apart : ∀ k < 6, (R.SLICE_FAIL_VALID.at (0x40 * k)).reg ≠ R.FRAME_NUMBER.reg ∧
    (R.SLICE_FAIL_VALID.at (0x40 * k)).reg ≠ R.REPAIR_STATUS_USED.reg := by decide

/-- Settles O43: what an engine does ends in the record of repairs or in what it shows, over registers of its own. -/
theorem selfTestAndInjection : Obligations.SelfTestAndInjection := by
  intro s req hr d
  refine ⟨fun g v h1 h2 => ?_, fun k hk => ⟨fun hc => ⟨fun f h => sliceTest_off hk hc f h, fun f hd hg => sliceTest_waits hk hc f hd hg,
    fun hon hrun hd => sliceTest_clean hk hc hon hrun hd, fun hon hrun hd g i sub row hl hs => sliceTest_row hk hc hon hrun hd hl hs,
    fun hon hrun hd g i sub row n hgo hg hi hrow => sliceTest_held hk hc hon hrun hd hgo hg hi hrow⟩,
    fun v h hg hd => ⟨fun hn => ⟨_, (sliceGo_makes hr hk rfl).1, sliceGoWrite_go h hg hd (.inl ⟨hn, rfl⟩)⟩,
      fun hn hdue => ⟨_, (sliceGo_makes hr hk rfl).1, sliceGoWrite_go h hg hd (.inr ⟨hn, hdue, rfl⟩)⟩⟩,
    fun v g i sub row hv hf hh hl hs => ?_, fun v hv hf => ?_, fun hf v h24 => ?_⟩⟩
  · obtain ⟨a, b, e⟩ := injArmWrite_spec s.dev v h1 h2
    refine ⟨_, dev_makes (execInjectionArm.eq_def ..) (by rw [hr, decide_eq_true h1, decide_eq_true h2]; rfl) rfl, a, b, fun k k1 k2 hk => e _ ?_⟩
    rw [injReg_reg, injReg_reg]
    omega
  · obtain ⟨b0, b1, -⟩ := goBits hv
    obtain ⟨c1, c2, c3, c4⟩ := showFinding_clean s.dev k
    obtain ⟨x, hx⟩ : ∃ x, s.dev.showFinding k .clean = x := ⟨_, rfl⟩
    have hw : s.dev.sliceGoWrite k v = x.repairFinding (.row g i sub row) := by
      rw [sliceGoWrite_shown b0 hf (.inl b1), if_pos (show v.getLsbD 25 = true from b1), hx, show (s.dev.engine k).held = .row g i sub row from hh]
    rw [hx] at c1 c2 c3 c4
    have hu : x.sparesUsed 1 g i sub = s.dev.sparesUsed 1 g i sub := by
      unfold Dev.sparesUsed
      rw [c3]
    obtain ⟨m1, m2, m3⟩ := mapSpare_row (loc := row) (by rw [c3]; exact hl) (by rw [hu]; exact hs)
    obtain ⟨a1, a2⟩ := sliceFail_apart k hk
    have hfr : x.frame = s.dev.frame := c4 _ a1.symm
    refine ⟨_, (sliceGo_makes hr hk hw).2.1, ?_, ?_, m1.trans (by rw [c3, hu, hfr])⟩
    · exact (congrArg (fun m => (SMap.get (fun _ => ({} : Engine)) m k).held) m2).trans c1
    · exact (congrArg (fun w => R.SLICE_FAIL_VALID.get w != 0) (m3 _ (reported_slice k hk).1 a2)).trans c2
  · obtain ⟨b0, b1, b2⟩ := goBits hv
    obtain ⟨c1, c2, c3, -⟩ := showFinding_clean s.dev k
    refine ⟨_, (sliceGo_makes hr hk ?_).2.2, c1, c2, c3⟩
    rw [sliceGoWrite_shown b0 hf (.inr b2), if_neg (by rw [b1]; decide)]
  · have h := sliceGo_makes (s := s) hr hk (sliceGoWrite_none h24 hf)
    exact ⟨h.2.1, h.2.2⟩

end Sys2Proof.Proofs
end

