-- ==== Sys2Proof/Proofs/Links.lean ====
section
/-!
PROOFS. The Frahal links: training, flits, retirement, and the routes that follow from the maps (R404, R408, R457 to R461).
-/

namespace Sys2Proof.Proofs

open Sys2Proof Sys2Proof.Machine Sys2Proof.Laws

/-! ### What a new computation of the routes keeps -/

theorem flReg_reg (f : Field) (n : Nat) : (flReg f n).reg = f.reg + 0x40000 * n := rfl

theorem routeReg_reg (f : Field) (p : Nat) : (f.at (8 * p)).reg = f.reg + 8 * p := rfl

/-- Routes may differ, and the states of spare links in service between active and idle. -/
structure Rerouted (d e : Dev) : Prop where
  kept : ∀ off, (off < 0x7000 ∨ 0x7040 ≤ off) → (∀ n < 8, off ≠ 0x2000000 + 0x40000 * n) → e.reg off = d.reg off
  status : ∀ n < 8, ∀ f : Field, f.reg = R.FL_STATUS_STATE.reg → 3 ≤ f.lo → e.fld (flReg f n) = d.fld (flReg f n)
  inService : ∀ n < 8, e.linkIn n = d.linkIn n
  state : ∀ n < 8, d.linkIn n = false ∨ d.flag (flReg R.FL_CTL_SPARE n) = false →
    e.fld (flReg R.FL_STATUS_STATE n) = d.fld (flReg R.FL_STATUS_STATE n)
  rest : bare e = bare d

section
variable {d e : Dev}

theorem Rerouted.refl (d : Dev) : Rerouted d d := ⟨fun _ _ _ => rfl, fun _ _ _ _ _ => rfl, fun _ _ => rfl, fun _ _ _ => rfl, rfl⟩

theorem Rerouted.spare (h : Rerouted d e) {n : Nat} (hn : n < 8) : e.flag (flReg R.FL_CTL_SPARE n) = d.flag (flReg R.FL_CTL_SPARE n) := by
  refine congrArg (fun w => R.FL_CTL_SPARE.get w != 0) (h.kept _ (.inr ?_) fun m hm => ?_)
  · rw [flReg_reg, show R.FL_CTL_SPARE.reg = 0x2000008 from rfl]
    omega
  · rw [flReg_reg, show R.FL_CTL_SPARE.reg = 0x2000008 from rfl]
    omega

theorem Rerouted.trans {x : Dev} (h : Rerouted d e) (k : Rerouted e x) : Rerouted d x where
  kept off h1 h2 := (k.kept off h1 h2).trans (h.kept off h1 h2)
  status n hn f h1 h2 := (k.status n hn f h1 h2).trans (h.status n hn f h1 h2)
  inService n hn := (k.inService n hn).trans (h.inService n hn)
  state n hn hs := (k.state n hn (by rw [h.inService n hn, h.spare hn]; exact hs)).trans (h.state n hn hs)
  rest := k.rest.trans h.rest

theorem Rerouted.foldl {f : Dev → Nat → Dev} (hf : ∀ d n, n < 8 → Rerouted d (f d n)) (xs : List Nat) (hx : ∀ n ∈ xs, n < 8) (d : Dev) :
    Rerouted d (xs.foldl f d) := by
  induction xs generalizing d with
  | nil => exact .refl d
  | cons n xs ih =>
    rw [List.foldl_cons]
    exact (hf d n (hx n List.mem_cons_self)).trans (ih (fun m hm => hx m (List.mem_cons_of_mem _ hm)) _)

/-- Every field of a link's status but the ones of register off stands. -/
theorem rerouted_of_setFld (d : Dev) {f : Field} (x : Nat) (h1 : 0x7000 ≤ f.reg) (h2 : f.reg < 0x7040) : Rerouted d (d.setFld f x) := by
  have hs {n : Nat} (k : Field) (hk : k.reg = R.FL_STATUS_STATE.reg) : (d.setFld f x).fld (flReg k n) = d.fld (flReg k n) :=
    fld_setFld_reg d f _ x (by
      rw [flReg_reg, hk, show R.FL_STATUS_STATE.reg = 0x2000000 from rfl]
      omega)
  refine ⟨fun off ho _ => reg_setFld_other d f x off (by omega), fun n _ k hk _ => hs k hk, fun n _ => ?_, fun n _ _ => hs _ rfl,
    bare_setFld d f x⟩
  unfold Dev.linkIn
  rw [hs R.FL_STATUS_STATE rfl]

/-- A spare link in service is active or idle. -/
theorem rerouted_spareState (d : Dev) {n : Nat} (hn : n < 8) (b : Bool) (h1 : d.linkIn n = true) (h2 : d.flag (flReg R.FL_CTL_SPARE n) = true) :
    Rerouted d (d.setFld (flReg R.FL_STATUS_STATE n) (if b then 3 else 4)) := by
  have hreg {m : Nat} (h : m ≠ n) (k : Field) (hk : k.reg = R.FL_STATUS_STATE.reg) :
      (d.setFld (flReg R.FL_STATUS_STATE n) (if b then 3 else 4)).fld (flReg k m) = d.fld (flReg k m) := fld_setFld_reg d _ _ _ (by
    rw [flReg_reg, flReg_reg, hk]
    omega)
  have hset : (d.setFld (flReg R.FL_STATUS_STATE n) (if b then 3 else 4)).fld (flReg R.FL_STATUS_STATE n) = if b then 3 else 4 :=
    fld_setFld_lt d (show R.FL_STATUS_STATE.lo + R.FL_STATUS_STATE.width ≤ 64 by decide)
      (show _ < 2 ^ R.FL_STATUS_STATE.width by cases b <;> decide)
  refine ⟨fun off _ ho => reg_setFld_other d _ _ off (by rw [flReg_reg]; exact ho n hn), fun m _ k hk hlo => ?_, fun m _ => ?_, fun m _ hm => ?_,
    bare_setFld d _ _⟩
  · by_cases h : m = n
    · subst h
      exact fld_setFld_apart d (flReg R.FL_STATUS_STATE m) (flReg k m) _ (show R.FL_STATUS_STATE.lo + R.FL_STATUS_STATE.width ≤ 64 by decide)
        (.inr hlo)
    · exact hreg h k hk
  · by_cases h : m = n
    · subst h
      rw [h1]
      unfold Dev.linkIn
      rw [hset]
      cases b <;> rfl
    · unfold Dev.linkIn
      rw [hreg h R.FL_STATUS_STATE rfl]
  · refine hreg (fun h => ?_) R.FL_STATUS_STATE rfl
    subst h
    rw [h1, h2] at hm
    exact hm.elim Bool.noConfusion Bool.noConfusion

/-! ### Routes -/

theorem ownLinks_rerouted (h : Rerouted d e) : e.ownLinks = d.ownLinks := by
  unfold Dev.ownLinks
  refine List.map_congr_left fun n hn => ?_
  have hn := List.mem_range.1 hn
  rw [h.status n hn R.FL_STATUS_PEER_SOCKET rfl (by decide), h.status n hn R.FL_STATUS_PEER_LINK rfl (by decide), h.inService n hn, h.spare hn]

theorem self_rerouted (h : Rerouted d e) : e.self = d.self :=
  congrArg R.IDENT_SOCKET_ID.get (h.kept _ (.inl (by decide)) fun n _ => Nat.ne_of_lt (Nat.lt_of_lt_of_le (by decide) (Nat.le_add_right _ _)))

theorem linksOf_rerouted (h : Rerouted d e) (s : Nat) : e.linksOf s = d.linksOf s := by
  unfold Dev.linksOf
  rw [self_rerouted h, ownLinks_rerouted h, of_bare Dev.chain (fun _ => rfl) h.rest]

theorem routeTo_rerouted (h : Rerouted d e) (p : Nat) : e.routeTo p = d.routeTo p := by
  have hp : e.fld R.CHAIN_STATUS_PRESENT = d.fld R.CHAIN_STATUS_PRESENT :=
    congrArg R.CHAIN_STATUS_PRESENT.get (h.kept _ (.inl (by decide)) fun n _ => Nat.ne_of_lt (Nat.lt_of_lt_of_le (by decide) (Nat.le_add_right _ _)))
  have hm (f : LinkEntry → Bool) : e.linkMask p f = d.linkMask p f := by
    unfold Dev.linkMask
    rw [ownLinks_rerouted h]
  have hb (a b : Nat) : e.bundle a b = d.bundle a b := by
    unfold Dev.bundle
    rw [linksOf_rerouted h]
  unfold Dev.routeTo
  rw [self_rerouted h, hp, hm, hm]
  simp only [hb]

theorem mask_lt (f : Nat → Bool) (k : Nat) : ((List.range k).filter f).foldl (fun m n => m + 2 ^ n) 0 < 2 ^ k := by
  induction k with
  | zero => exact Nat.one_pos
  | succ k ih =>
    rw [List.range_succ, List.filter_append, List.foldl_append]
    by_cases h : f k = true
    · rw [List.filter_cons_of_pos h, List.filter_nil, List.foldl_cons, List.foldl_nil, Nat.pow_succ]
      omega
    · rw [List.filter_cons_of_neg h, List.filter_nil, List.foldl_nil, Nat.pow_succ]
      omega

/-- A route fits the fields of its register. -/
theorem routeTo_lt (d : Dev) (p : Nat) : (d.routeTo p).1 < 2 ^ 8 ∧ (d.routeTo p).2.1 < 2 ^ 3 ∧ (d.routeTo p).2.2 < 2 ^ 2 := by
  have hm (f : LinkEntry → Bool) : d.linkMask p f < 2 ^ 8 := mask_lt _ 8
  unfold Dev.routeTo
  split
  · decide
  · split
    · exact ⟨hm _, show 0 < 2 ^ 3 by decide, show 1 < 2 ^ 2 by decide⟩
    · split
      · exact ⟨hm _, show 0 < 2 ^ 3 by decide, show 1 < 2 ^ 2 by decide⟩
      · split
        · next m h => exact ⟨show 0 < 2 ^ 8 by decide, List.mem_range.1 (List.mem_of_find?_eq_some h), show 2 < 2 ^ 2 by decide⟩
        · decide

/-- The route to p as its register shows it. -/
def routeShown (d : Dev) (p : Nat) : Nat × Nat × Nat :=
  (d.fld (R.ROUTE_LINKS.at (8 * p)), d.fld (R.ROUTE_VIA.at (8 * p)), d.fld (R.ROUTE_KIND.at (8 * p)))

theorem routeShown_congr {p : Nat} (h : e.reg (R.ROUTE_LINKS.at (8 * p)).reg = d.reg (R.ROUTE_LINKS.at (8 * p)).reg) :
    routeShown e p = routeShown d p := by
  have h1 : e.fld (R.ROUTE_LINKS.at (8 * p)) = d.fld (R.ROUTE_LINKS.at (8 * p)) := congrArg R.ROUTE_LINKS.get h
  have h2 : e.fld (R.ROUTE_VIA.at (8 * p)) = d.fld (R.ROUTE_VIA.at (8 * p)) := congrArg R.ROUTE_VIA.get h
  have h3 : e.fld (R.ROUTE_KIND.at (8 * p)) = d.fld (R.ROUTE_KIND.at (8 * p)) := congrArg R.ROUTE_KIND.get h
  unfold routeShown
  rw [h1, h2, h3]

/-- The route to p is entered in its register. -/
def enterRoute (d : Dev) (p : Nat) : Dev :=
  let r := d.routeTo p
  let d := d.setFld (R.ROUTE_LINKS.at (8 * p)) r.1
  (d.setFld (R.ROUTE_VIA.at (8 * p)) r.2.1).setFld (R.ROUTE_KIND.at (8 * p)) r.2.2

theorem enterRoute_spec (d : Dev) {p : Nat} (hp : p < 8) : Rerouted d (enterRoute d p) ∧ routeShown (enterRoute d p) p = d.routeTo p ∧
    ∀ q, q ≠ p → routeShown (enterRoute d p) q = routeShown d q := by
  obtain ⟨b1, b2, b3⟩ := routeTo_lt d p
  obtain ⟨r, hr⟩ : ∃ r, d.routeTo p = r := ⟨_, rfl⟩
  rw [hr] at b1 b2 b3 ⊢
  have hin (f : Field) (hf : f.reg = R.ROUTE_LINKS.reg) : 0x7000 ≤ (f.at (8 * p)).reg ∧ (f.at (8 * p)).reg < 0x7040 := by
    rw [routeReg_reg, hf, show R.ROUTE_LINKS.reg = 0x7000 from rfl]
    omega
  obtain ⟨x, hx⟩ : ∃ x, d.setFld (R.ROUTE_LINKS.at (8 * p)) r.1 = x := ⟨_, rfl⟩
  have x1 : x.fld (R.ROUTE_LINKS.at (8 * p)) = r.1 := hx ▸ fld_setFld_lt d (show R.ROUTE_LINKS.lo + R.ROUTE_LINKS.width ≤ 64 by decide) b1
  have xr : Rerouted d x := hx ▸ rerouted_of_setFld d _ (hin _ rfl).1 (hin _ rfl).2
  have xo : ∀ off, off ≠ (R.ROUTE_LINKS.at (8 * p)).reg → x.reg off = d.reg off := fun off ho => hx ▸ reg_setFld_other d _ _ off ho
  obtain ⟨y, hy⟩ : ∃ y, x.setFld (R.ROUTE_VIA.at (8 * p)) r.2.1 = y := ⟨_, rfl⟩
  have y1 : y.fld (R.ROUTE_LINKS.at (8 * p)) = r.1 := (hy ▸ fld_setFld_apart x (R.ROUTE_VIA.at (8 * p)) (R.ROUTE_LINKS.at (8 * p)) _
    (show R.ROUTE_VIA.lo + R.ROUTE_VIA.width ≤ 64 by decide) (.inl (show R.ROUTE_LINKS.lo + R.ROUTE_LINKS.width ≤ R.ROUTE_VIA.lo by decide))).trans x1
  have y2 : y.fld (R.ROUTE_VIA.at (8 * p)) = r.2.1 := hy ▸ fld_setFld_lt x (show R.ROUTE_VIA.lo + R.ROUTE_VIA.width ≤ 64 by decide) b2
  have yr : Rerouted x y := hy ▸ rerouted_of_setFld x _ (hin R.ROUTE_VIA rfl).1 (hin R.ROUTE_VIA rfl).2
  have yo : ∀ off, off ≠ (R.ROUTE_LINKS.at (8 * p)).reg → y.reg off = x.reg off := fun off ho =>
    hy ▸ reg_setFld_other x (R.ROUTE_VIA.at (8 * p)) _ off ho
  obtain ⟨z, hz⟩ : ∃ z, y.setFld (R.ROUTE_KIND.at (8 * p)) r.2.2 = z := ⟨_, rfl⟩
  have z1 : z.fld (R.ROUTE_LINKS.at (8 * p)) = r.1 := (hz ▸ fld_setFld_apart y (R.ROUTE_KIND.at (8 * p)) (R.ROUTE_LINKS.at (8 * p)) _
    (show R.ROUTE_KIND.lo + R.ROUTE_KIND.width ≤ 64 by decide) (.inl (show R.ROUTE_LINKS.lo + R.ROUTE_LINKS.width ≤ R.ROUTE_KIND.lo by decide))).trans y1
  have z2 : z.fld (R.ROUTE_VIA.at (8 * p)) = r.2.1 := (hz ▸ fld_setFld_apart y (R.ROUTE_KIND.at (8 * p)) (R.ROUTE_VIA.at (8 * p)) _
    (show R.ROUTE_KIND.lo + R.ROUTE_KIND.width ≤ 64 by decide) (.inl (show R.ROUTE_VIA.lo + R.ROUTE_VIA.width ≤ R.ROUTE_KIND.lo by decide))).trans y2
  have z3 : z.fld (R.ROUTE_KIND.at (8 * p)) = r.2.2 := hz ▸ fld_setFld_lt y (show R.ROUTE_KIND.lo + R.ROUTE_KIND.width ≤ 64 by decide) b3
  have zr : Rerouted y z := hz ▸ rerouted_of_setFld y _ (hin R.ROUTE_KIND rfl).1 (hin R.ROUTE_KIND rfl).2
  have zo : ∀ off, off ≠ (R.ROUTE_LINKS.at (8 * p)).reg → z.reg off = y.reg off := fun off ho =>
    hz ▸ reg_setFld_other y (R.ROUTE_KIND.at (8 * p)) _ off ho
  have he : enterRoute d p = z := by
    unfold enterRoute
    dsimp only
    rw [hr, hx, hy, hz]
  rw [he]
  refine ⟨xr.trans (yr.trans zr), ?_, fun q hq => routeShown_congr ?_⟩
  · unfold routeShown
    rw [z1, z2, z3]
  · have hne : (R.ROUTE_LINKS.at (8 * q)).reg ≠ (R.ROUTE_LINKS.at (8 * p)).reg := by
      rw [routeReg_reg, routeReg_reg]
      omega
    rw [zo _ hne, yo _ hne, xo _ hne]

theorem enterRoutes_spec {d0 : Dev} (xs : List Nat) (hx : ∀ n ∈ xs, n < 8) (d : Dev) (h : Rerouted d0 d) {p : Nat}
    (hp : p ∈ xs ∨ routeShown d p = d0.routeTo p) : routeShown (xs.foldl enterRoute d) p = d0.routeTo p := by
  induction xs generalizing d with
  | nil => exact hp.resolve_left (List.not_mem_nil)
  | cons q xs ih =>
    obtain ⟨h1, h2, h3⟩ := enterRoute_spec d (hx q List.mem_cons_self)
    rw [List.foldl_cons]
    refine ih (fun m hm => hx m (List.mem_cons_of_mem _ hm)) _ (h.trans h1) ?_
    by_cases hq : p = q
    · subst hq
      exact .inr (h2.trans (routeTo_rerouted h p))
    · rcases hp with hp | hp
      · exact .inl ((List.mem_cons.1 hp).resolve_left hq)
      · exact .inr ((h3 p hq).trans hp)

/-- The state of a spare link that is in service. -/
def setSpare (d : Dev) (n : Nat) : Dev :=
  if d.linkIn n && d.flag (flReg R.FL_CTL_SPARE n) then
    let used := natBit (d.fld (R.ROUTE_LINKS.at (8 * d.fld (flReg R.FL_STATUS_PEER_SOCKET n)))) n
    d.setFld (flReg R.FL_STATUS_STATE n) (if used then 3 else 4)
  else d

theorem setSpare_spec (d : Dev) {n : Nat} (hn : n < 8) : Rerouted d (setSpare d n) ∧ ∀ p < 8, routeShown (setSpare d n) p = routeShown d p := by
  unfold setSpare
  split
  · next h =>
    obtain ⟨h1, h2⟩ := Bool.and_eq_true_iff.1 h
    refine ⟨rerouted_spareState d hn _ h1 h2, fun p hp => routeShown_congr (reg_setFld_other d _ _ _ ?_)⟩
    rw [flReg_reg, routeReg_reg, show R.ROUTE_LINKS.reg = 0x7000 from rfl, show R.FL_STATUS_STATE.reg = 0x2000000 from rfl]
    omega
  · exact ⟨.refl d, fun _ _ => rfl⟩

theorem setSpares_routes (xs : List Nat) (hx : ∀ n ∈ xs, n < 8) (d : Dev) {p : Nat} (hp : p < 8) :
    routeShown (xs.foldl setSpare d) p = routeShown d p := by
  induction xs generalizing d with
  | nil => rfl
  | cons n xs ih =>
    rw [List.foldl_cons]
    exact (ih (fun m hm => hx m (List.mem_cons_of_mem _ hm)) _).trans ((setSpare_spec d (hx n List.mem_cons_self)).2 p hp)

theorem reroute_eq (d : Dev) : d.reroute = (List.range 8).foldl setSpare ((List.range 8).foldl enterRoute d) := rfl

theorem reroute_spec (d : Dev) : Rerouted d d.reroute ∧ ∀ p < 8, routeShown d.reroute p = d.reroute.routeTo p := by
  have hr : ∀ n ∈ List.range 8, n < 8 := fun n hn => List.mem_range.1 hn
  have h1 : Rerouted d ((List.range 8).foldl enterRoute d) := .foldl (fun d n hn => (enterRoute_spec d hn).1) _ hr d
  have h2 := Rerouted.foldl (f := setSpare) (fun d n hn => (setSpare_spec d hn).1) _ hr ((List.range 8).foldl enterRoute d)
  rw [reroute_eq]
  refine ⟨h1.trans h2, fun p hp => ?_⟩
  rw [setSpares_routes _ hr _ hp, enterRoutes_spec _ hr d (.refl d) (.inl (List.mem_range.2 hp)), routeTo_rerouted (h1.trans h2)]

end

/-! ### Fields of one link -/

section
variable (d : Dev) {f k : Field} (n x : Nat)

theorem fl_apart (hf : f.lo + f.width ≤ 64) (h : k.reg ≠ f.reg ∨ k.lo + k.width ≤ f.lo ∨ f.lo + f.width ≤ k.lo) :
    (d.setFld (flReg f n) x).fld (flReg k n) = d.fld (flReg k n) := by
  rcases h with h | h
  · exact fld_setFld_reg d _ _ x (by rw [flReg_reg, flReg_reg]; omega)
  · exact fld_setFld_apart d _ _ x hf h

theorem fl_same (hf : f.lo + f.width ≤ 64) (hx : x < 2 ^ f.width) : (d.setFld (flReg f n) x).fld (flReg f n) = x :=
  fld_setFld_lt d hf hx

end

/-- The registers of links. -/
def flRegs : List Nat := [0x2000000, 0x2000008, 0x2000010, 0x2000018, 0x2000020]

theorem reported_fl : ∀ r ∈ flRegs, ∀ n < 8, reported (r + 0x40000 * n) = false ∧ r + 0x40000 * n ≠ R.REPAIR_STATUS_USED.reg := by decide

theorem fl_log (d : Dev) (r : Rep) {k : Field} {n : Nat} (hk : k.reg ∈ flRegs) (hn : n < 8) : (d.log r).fld (flReg k n) = d.fld (flReg k n) :=
  congrArg (flReg k n).get (keepsRegs_log d r _ (reported_fl _ hk n hn).1)

theorem reg_addRepair (d : Dev) (r : Repair) (source : Nat) {off : Nat} (h1 : reported off = false) (h2 : off ≠ R.REPAIR_STATUS_USED.reg) :
    (d.addRepair r source).reg off = d.reg off := by
  unfold Dev.addRepair
  split
  · exact (reg_setFld_other _ R.REPAIR_STATUS_RECORD_LOW _ off h2).trans (reg_setFld_other _ R.REPAIR_STATUS_USED _ off h2)
  · exact keepsRegs_log d _ off h1

theorem fl_addRepair (d : Dev) (r : Repair) (source : Nat) {k : Field} {n : Nat} (hk : k.reg ∈ flRegs) (hn : n < 8) :
    (d.addRepair r source).fld (flReg k n) = d.fld (flReg k n) :=
  congrArg (flReg k n).get (reg_addRepair d r source (reported_fl _ hk n hn).1 (reported_fl _ hk n hn).2)

theorem linkChanged_spec (d : Dev) : ∃ c, Rerouted (onChain d c) d.linkChanged := ⟨_, (reroute_spec _).1⟩

section
variable (d : Dev) {n : Nat} (hn : n < 8)
include hn

theorem fl_linkChanged {k : Field} (hk : k.reg ∈ flRegs) (h : k.reg ≠ R.FL_STATUS_STATE.reg ∨ 3 ≤ k.lo) :
    d.linkChanged.fld (flReg k n) = d.fld (flReg k n) := by
  obtain ⟨c, hc⟩ := linkChanged_spec d
  by_cases hs : k.reg = R.FL_STATUS_STATE.reg
  · exact hc.status n hn k hs (h.resolve_left (fun h => h hs))
  · have hb : ∀ r ∈ flRegs, 0x2000000 ≤ r ∧ r ≤ 0x2000020 := by decide
    have := hb _ hk
    have hs : k.reg ≠ 0x2000000 := hs
    exact congrArg (flReg k n).get (hc.kept _ (.inr (by rw [flReg_reg]; omega)) fun m _ => by rw [flReg_reg]; omega)

theorem state_linkChanged (h : d.linkIn n = false ∨ d.flag (flReg R.FL_CTL_SPARE n) = false) :
    d.linkChanged.fld (flReg R.FL_STATUS_STATE n) = d.fld (flReg R.FL_STATUS_STATE n) := by
  obtain ⟨c, hc⟩ := linkChanged_spec d
  exact hc.state n hn h

omit hn in
theorem rest_linkChanged : ∃ c, bare d.linkChanged = bare (onChain d c) := by
  obtain ⟨c, hc⟩ := linkChanged_spec d
  exact ⟨c, hc.rest⟩

end

/-! ### Training -/

theorem linkOk_of {n : Nat} (hn : n < 8) : linkOk n = true := decide_eq_true hn

section
variable {s : State} {n : Nat} (hn : n < 8)
include hn

theorem linkTraining_out (o : LinkOutcome) (h : s.dev.flag (flReg R.FL_CTL_EN n) = false ∨ s.dev.fld (flReg R.FL_STATUS_STATE n) = 6) :
    Gives (.linkTraining n o) s s := by
  refine dev_makes (e := s.dev) (execLinkTraining.eq_def ..) (linkOk_of hn) (if_pos ?_)
  rcases h with h | h
  · rw [h]
    rfl
  · rw [h, beq_self_eq_true, Bool.or_true]

variable (he : s.dev.flag (flReg R.FL_CTL_EN n) = true) (h6 : s.dev.fld (flReg R.FL_STATUS_STATE n) ≠ 6)
include he h6

omit hn in
theorem link_trains : ¬(!s.dev.flag (flReg R.FL_CTL_EN n) || s.dev.fld (flReg R.FL_STATUS_STATE n) == 6) = true := by
  rw [he, beq_false_of_ne h6]
  decide

theorem linkTraining_noPeer : Makes (.linkTraining n .noPeer) s (s.dev.setFld (flReg R.FL_STATUS_STATE n) 0) :=
  dev_makes (execLinkTraining.eq_def n .noPeer s) (linkOk_of hn) (if_neg (link_trains he h6))

theorem linkTraining_ownSocket : MakesSome (.linkTraining n .ownSocket) s fun e => e.fld (flReg R.FL_STATUS_STATE n) = 0 := by
  refine ⟨_, dev_makes (execLinkTraining.eq_def n .ownSocket s) (linkOk_of hn) (if_neg (link_trains he h6)), ?_⟩
  dsimp only
  rw [fl_log _ _ (by decide) hn, fl_same _ _ _ (by decide) (by decide)]

theorem linkTraining_authFailed : MakesSome (.linkTraining n .authFailed) s fun e =>
    e.fld (flReg R.FL_STATUS_STATE n) = 7 ∧ e.flag (flReg R.FL_CRYPTO_AUTH_OK n) = false := by
  refine ⟨_, dev_makes (execLinkTraining.eq_def n .authFailed s) (linkOk_of hn) (if_neg (link_trains he h6)), ?_, ?_⟩
  · dsimp only
    rw [fl_log _ _ (by decide) hn, fl_apart _ _ _ (by decide) (by decide), fl_same _ _ _ (by decide) (by decide)]
  · dsimp only
    rw [Dev.flag, fl_log _ _ (by decide) hn, fl_same _ _ _ (by decide) (by decide)]
    rfl

/-- A link that has trained, before its change of state is told. -/
def trained (d : Dev) (n peer pl w : Nat) (conf : Bool) : Dev :=
  let d := d.setFld (flReg R.FL_STATUS_STATE n) 3
  let d := (d.setFld (flReg R.FL_STATUS_PEER_SOCKET n) peer).setFld (flReg R.FL_STATUS_PEER_LINK n) pl
  let d := d.setFld (flReg R.FL_STATUS_WIDTH n) w
  let d := (d.setFld (flReg R.FL_CRYPTO_REKEYS n) 0).setFld (flReg R.FL_CRYPTO_AUTH_OK n) 1
  d.setFld (flReg R.FL_CRYPTO_CONFIDENTIAL n) (bnat conf)

omit hn he h6 in
theorem trained_spec (d : Dev) {peer pl w : Nat} (conf : Bool) (hp : peer < 8) (hl : pl < 8) (hw : w < 32) :
    (trained d n peer pl w conf).fld (flReg R.FL_STATUS_STATE n) = 3 ∧ (trained d n peer pl w conf).fld (flReg R.FL_STATUS_PEER_SOCKET n) = peer ∧
    (trained d n peer pl w conf).fld (flReg R.FL_STATUS_PEER_LINK n) = pl ∧ (trained d n peer pl w conf).fld (flReg R.FL_STATUS_WIDTH n) = w ∧
    (trained d n peer pl w conf).fld (flReg R.FL_CRYPTO_AUTH_OK n) = 1 ∧
    (trained d n peer pl w conf).fld (flReg R.FL_CRYPTO_CONFIDENTIAL n) = bnat conf ∧
    (trained d n peer pl w conf).fld (flReg R.FL_CTL_SPARE n) = d.fld (flReg R.FL_CTL_SPARE n) := by
  have hc : bnat conf < 2 ^ R.FL_CRYPTO_CONFIDENTIAL.width := by cases conf <;> decide
  have hp : peer < 2 ^ R.FL_STATUS_PEER_SOCKET.width := hp
  have hl : pl < 2 ^ R.FL_STATUS_PEER_LINK.width := hl
  have hw : w < 2 ^ R.FL_STATUS_WIDTH.width := hw
  unfold trained
  dsimp only
  refine ⟨?_, ?_, ?_, ?_, ?_, ?_, ?_⟩
  · simp (disch := decide) only [fl_apart, fl_same]
  · simp (disch := decide) only [fl_apart, fl_same _ _ _ _ hp]
  · simp (disch := decide) only [fl_apart, fl_same _ _ _ _ hl]
  · simp (disch := decide) only [fl_apart, fl_same _ _ _ _ hw]
  · simp (disch := decide) only [fl_apart, fl_same]
  · simp (disch := decide) only [fl_same _ _ _ _ hc]
  · simp (disch := decide) only [fl_apart]

theorem linkTraining_active {peer pl w : Nat} (conf : Bool) (hp : peer < 8) (hl : pl < 8) (hw : w < 32)
    (hs : s.dev.flag (flReg R.FL_CTL_SPARE n) = false) : MakesSome (.linkTraining n (.active peer pl w conf)) s fun e =>
      e.fld (flReg R.FL_STATUS_STATE n) = 3 ∧ e.fld (flReg R.FL_STATUS_PEER_SOCKET n) = peer ∧ e.fld (flReg R.FL_STATUS_PEER_LINK n) = pl ∧
      e.fld (flReg R.FL_STATUS_WIDTH n) = min w (24 - weight 24 (s.dev.lanesRetired n)) ∧
      e.flag (flReg R.FL_CRYPTO_AUTH_OK n) = true ∧ e.flag (flReg R.FL_CRYPTO_CONFIDENTIAL n) = conf := by
  obtain ⟨m, hm⟩ : ∃ m, min w (24 - weight 24 (s.dev.lanesRetired n)) = m := ⟨_, rfl⟩
  obtain ⟨h1, h2, h3, h4, h5, h7, h8⟩ := trained_spec (n := n) s.dev (w := m) conf hp hl (by omega)
  have hx : Makes (.linkTraining n (.active peer pl w conf)) s (trained s.dev n peer pl m conf).linkChanged := by
    refine dev_makes (execLinkTraining.eq_def n (.active peer pl w conf) s) (linkOk_of hn) ((if_neg (link_trains he h6)).trans ?_)
    dsimp only
    rw [hs, if_neg Bool.false_ne_true, show Dev.lanesRetired _ n = s.dev.lanesRetired n by
      unfold Dev.lanesRetired
      simp (disch := decide) only [fl_apart], show Nat.min w (24 - weight 24 (s.dev.lanesRetired n)) = m from hm]
    rfl
  obtain ⟨t, ht⟩ : ∃ t, trained s.dev n peer pl m conf = t := ⟨_, rfl⟩
  rw [ht] at hx h1 h2 h3 h4 h5 h7 h8
  rw [hm]
  refine ⟨_, hx, (state_linkChanged t hn (.inr ((congrArg (· != 0) h8).trans hs))).trans h1, (fl_linkChanged t hn (by decide) (by decide)).trans h2,
    (fl_linkChanged t hn (by decide) (by decide)).trans h3, (fl_linkChanged t hn (by decide) (by decide)).trans h4,
    congrArg (· != 0) ((fl_linkChanged t hn (by decide) (by decide)).trans h5),
    (congrArg (· != 0) ((fl_linkChanged t hn (by decide) (by decide)).trans h7)).trans (by cases conf <;> rfl)⟩

end

/-! ### Retirement -/

theorem units_linkChanged (d : Dev) : d.linkChanged.units = d.units := by
  obtain ⟨c, hc⟩ := rest_linkChanged d
  exact (of_bare (·.units) (fun _ => rfl) hc).trans rfl

theorem links_linkChanged (d : Dev) : d.linkChanged.links = d.links := by
  obtain ⟨c, hc⟩ := rest_linkChanged d
  exact (of_bare (·.links) (fun _ => rfl) hc).trans rfl

theorem fl_setLink (d : Dev) (n : Nat) (x : Link) (f : Field) : (d.setLink n x).fld f = d.fld f := rfl

theorem link_setLink (d : Dev) (n : Nat) (x : Link) : (d.setLink n x).link n = x := smap_get_set_same _ _ _ _

theorem units_record (d : Dev) (r : Repair) (source : Nat) (p : Rep) : ((d.addRepair r source).log p).units = d.units :=
  (of_quiet (·.units) (fun _ => rfl) (quiet_log _ p)).trans ((of_quiet (·.units) (fun _ => rfl) (addRepair_quiet d r source)).trans rfl)

/-- A link that is retired. -/
theorem retireLink_spec (d : Dev) {n : Nat} (hn : n < 8) (syn : Nat) (h : d.fld (flReg R.FL_STATUS_STATE n) ≠ 6) :
    (d.retireLink n syn).fld (flReg R.FL_STATUS_STATE n) = 6 ∧ (d.retireLink n syn).fld (flReg R.FL_STATUS_WIDTH n) = 0 ∧
      (d.retireLink n syn).lanesRetired n = d.lanesRetired n ∧ (d.retireLink n syn).units = d.units := by
  obtain ⟨a, ha⟩ : ∃ a, ((d.setFld (flReg R.FL_STATUS_STATE n) 6).setFld (flReg R.FL_STATUS_WIDTH n) 0).setFld (flReg R.FL_STATUS_CANDIDATE n) 0 = a :=
    ⟨_, rfl⟩
  have h1 : a.fld (flReg R.FL_STATUS_STATE n) = 6 := by
    rw [← ha]
    simp (disch := decide) only [fl_apart, fl_same]
  have h2 : a.fld (flReg R.FL_STATUS_WIDTH n) = 0 := by
    rw [← ha]
    simp (disch := decide) only [fl_apart, fl_same]
  have h3 : a.fld (flReg R.FL_STATUS_LANES_RETIRED n) = d.fld (flReg R.FL_STATUS_LANES_RETIRED n) := by
    rw [← ha]
    simp (disch := decide) only [fl_apart]
  have h4 : a.units = d.units := by
    rw [← ha]
    exact of_bare (·.units) (fun _ => rfl) ((bare_setFld _ _ _).trans ((bare_setFld _ _ _).trans (bare_setFld _ _ _)))
  obtain ⟨b, hb⟩ : ∃ b, ((a.setLink n {}).addRepair (retiredUnit (a.setLink n {}) 1 n 24) 0xA).log
    { source := 0xA, inst := n, cls := 4, action := 3, syndrome := syn } = b := ⟨_, rfl⟩
  have hf {k : Field} (hk : k.reg ∈ flRegs) : b.fld (flReg k n) = a.fld (flReg k n) := by
    rw [← hb, fl_log _ _ hk hn, fl_addRepair _ _ _ hk hn, fl_setLink]
  have hu : b.units = a.units := by
    rw [← hb, units_record]
    rfl
  have he : d.retireLink n syn = b.linkChanged := by
    unfold Dev.retireLink
    rw [if_neg (by rw [beq_iff_eq]; exact h)]
    dsimp only
    rw [ha, hb]
  have hb6 := (hf (k := R.FL_STATUS_STATE) (by decide)).trans h1
  have hin : b.linkIn n = false := by
    unfold Dev.linkIn
    rw [hb6]
    rfl
  rw [he]
  exact ⟨(state_linkChanged b hn (.inl hin)).trans hb6, (fl_linkChanged b hn (by decide) (by decide)).trans ((hf (by decide)).trans h2),
    (fl_linkChanged b hn (k := R.FL_STATUS_LANES_RETIRED) (by decide) (by decide)).trans ((hf (by decide)).trans h3),
    (units_linkChanged b).trans (hu.trans h4)⟩

theorem linkIn_state {d : Dev} {n : Nat} (h : d.linkIn n = true) : d.fld (flReg R.FL_STATUS_STATE n) ≠ 6 := by
  intro h6
  unfold Dev.linkIn at h
  rw [h6] at h
  exact absurd h (by decide)

theorem unitAt_of_units {d e : Dev} (h : e.units = d.units) (kind inst : Nat) : e.unitAt kind inst = d.unitAt kind inst := by
  unfold Dev.unitAt
  rw [h]

/-- Bit i of the mask of the retired lanes. -/
def laneBit (n i : Nat) : Field := ⟨(flReg R.FL_STATUS_LANES_RETIRED n).reg, R.FL_STATUS_LANES_RETIRED.lo + i, 1⟩

theorem laneBit_set (d : Dev) {n i : Nat} (hi : i < 24) : ((d.setFld (laneBit n i) 1).lanesRetired n).testBit i = true := by
  have h64 : R.FL_STATUS_LANES_RETIRED.lo + i + 1 ≤ 64 := by
    change 14 + i + 1 ≤ 64
    omega
  have hbit : ((d.setFld (laneBit n i) 1).reg (flReg R.FL_STATUS_LANES_RETIRED n).reg).getLsbD (R.FL_STATUS_LANES_RETIRED.lo + i) = true := by
    have hflag := flag_setFld_one d (laneBit n i) h64 Nat.one_pos
    exact (get_bit (laneBit n i) rfl _).symm.trans hflag
  unfold Dev.lanesRetired Dev.fld
  rw [testBit_get_lt]
  change (decide (i < 24) && ((d.setFld (laneBit n i) 1).reg (flReg R.FL_STATUS_LANES_RETIRED n).reg).getLsbD (i + R.FL_STATUS_LANES_RETIRED.lo)) = true
  rw [Nat.add_comm i, hbit, decide_eq_true hi]
  rfl

theorem retireLane_spec (d : Dev) {n i : Nat} (hn : n < 8) (hi : i < 24) (hu : (d.unitAt 1 (24 * n + i)).retired = false) :
    ((d.retireLane n i).lanesRetired n).testBit i = true ∧ ((d.retireLane n i).unitAt 1 (24 * n + i)).retired = true ∧
      (5 ≤ weight 24 ((d.retireLane n i).lanesRetired n) → (d.retireLane n i).fld (flReg R.FL_STATUS_STATE n) = 6) := by
  obtain ⟨u, hue⟩ : ∃ u, d.unitAt 1 (24 * n + i) = u := ⟨_, rfl⟩
  obtain ⟨a, ha⟩ : ∃ a, d.setUnit 1 (24 * n + i) { u with retired := true, candidate := false } = a := ⟨_, rfl⟩
  have hau : (a.unitAt 1 (24 * n + i)).retired = true := by
    rw [← ha, unitAt_setUnit]
  obtain ⟨b, hb⟩ : ∃ b, a.setFld (laneBit n i) 1 = b := ⟨_, rfl⟩
  have hbl : (b.lanesRetired n).testBit i = true := hb ▸ laneBit_set a hi
  have hbu : b.units = a.units := hb ▸ of_bare (·.units) (fun _ => rfl) (bare_setFld a _ 1)
  obtain ⟨c, hc⟩ : ∃ c, (b.addRepair (retiredUnit b 1 n i) 0xA).log
    { source := 0xA, inst := n, cls := 4, action := 3, bucket := u.bucket, location := i } = c := ⟨_, rfl⟩
  have hcl : c.lanesRetired n = b.lanesRetired n := by
    unfold Dev.lanesRetired
    rw [← hc, fl_log _ _ (by decide) hn, fl_addRepair _ _ _ (by decide) hn]
  have hcu : c.units = b.units := by
    rw [← hc, units_record]
  have he : d.retireLane n i = if weight 24 (c.lanesRetired n) ≤ 4 then
      ((if c.linkIn n then c.setFld (flReg R.FL_STATUS_STATE n) 5 else c).setFld (flReg R.FL_STATUS_WIDTH n) 0).linkChanged
      else c.retireLink n 0 := by
    unfold Dev.retireLane
    dsimp only
    rw [hue] at hu ⊢
    rw [if_neg (by rw [hu]; exact Bool.false_ne_true), ha]
    rw [show ({ reg := (flReg R.FL_STATUS_LANES_RETIRED n).reg, lo := R.FL_STATUS_LANES_RETIRED.lo + i, width := 1 } : Field) = laneBit n i from rfl,
      hb, hc]
  obtain ⟨e, hee⟩ : ∃ e, d.retireLane n i = e := ⟨_, rfl⟩
  rw [hee] at he ⊢
  have hunit (z : Dev) (hz : z.units = c.units) : (z.unitAt 1 (24 * n + i)).retired = true := by
    rw [unitAt_of_units (hz.trans (hcu.trans hbu))]
    exact hau
  by_cases hw : weight 24 (c.lanesRetired n) ≤ 4
  · rw [if_pos hw] at he
    obtain ⟨x, hx⟩ : ∃ x, (if c.linkIn n then c.setFld (flReg R.FL_STATUS_STATE n) 5 else c) = x := ⟨_, rfl⟩
    have hxl : x.lanesRetired n = c.lanesRetired n ∧ x.units = c.units := by
      rw [← hx]
      split
      · exact ⟨fl_apart (k := R.FL_STATUS_LANES_RETIRED) c n 5 (by decide) (by decide), of_bare (·.units) (fun _ => rfl) (bare_setFld c _ 5)⟩
      · exact ⟨rfl, rfl⟩
    obtain ⟨y, hy⟩ : ∃ y, x.setFld (flReg R.FL_STATUS_WIDTH n) 0 = y := ⟨_, rfl⟩
    have hyl : y.lanesRetired n = x.lanesRetired n := hy ▸ fl_apart (k := R.FL_STATUS_LANES_RETIRED) x n 0 (by decide) (by decide)
    have hyu : y.units = x.units := hy ▸ of_bare (·.units) (fun _ => rfl) (bare_setFld x _ 0)
    rw [hx, hy] at he
    have hel : e.lanesRetired n = c.lanesRetired n := by
      rw [he]
      exact (fl_linkChanged y hn (k := R.FL_STATUS_LANES_RETIRED) (by decide) (by decide)).trans (hyl.trans hxl.1)
    refine ⟨by rw [hel, hcl]; exact hbl, hunit e ?_, fun h5 => ?_⟩
    · rw [he]
      exact (units_linkChanged y).trans (hyu.trans hxl.2)
    · rw [hel] at h5
      omega
  · rw [if_neg hw] at he
    by_cases h6 : c.fld (flReg R.FL_STATUS_STATE n) = 6
    · have hec : e = c := by
        rw [he, Dev.retireLink, if_pos (by rw [beq_iff_eq]; exact h6)]
      rw [hec]
      exact ⟨by rw [hcl]; exact hbl, hunit c rfl, fun _ => h6⟩
    · obtain ⟨h1, -, h3, h4⟩ := retireLink_spec c hn 0 h6
      rw [he]
      exact ⟨by rw [h3, hcl]; exact hbl, hunit _ h4, fun _ => h1⟩

section
variable {s : State} {n : Nat} (hn : n < 8)
include hn

theorem flRetireGo_none {req : Requester} {v : Word} (hr : reqOk req = true)
    (h : (s.dev.link n).candidateLane = none ∨ v.getLsbD 0 = false) : Gives (.flRetireGo req n v) s s := by
  refine dev_makes (e := s.dev) (execFlRetireGo.eq_def ..) (by rw [hr, linkOk_of hn]; rfl) ?_
  unfold Dev.flRetireWrite
  split
  · rfl
  · next i hi =>
    rw [hi] at h
    rw [bitOf_eq_getLsbD, h.resolve_left (by simp)]
    rfl

theorem flRetireGo_lane {req : Requester} {v : Word} {i : Nat} (hr : reqOk req = true) (h : (s.dev.link n).candidateLane = some i) (hi : i < 24)
    (hu : (s.dev.unitAt 1 (24 * n + i)).retired = false) (hv : v.getLsbD 0 = true) : MakesSome (.flRetireGo req n v) s fun e =>
      (e.lanesRetired n).testBit i = true ∧ (e.unitAt 1 (24 * n + i)).retired = true ∧
        (5 ≤ weight 24 (e.lanesRetired n) → e.fld (flReg R.FL_STATUS_STATE n) = 6) := by
  obtain ⟨a, ha⟩ : ∃ a, s.dev.setLink n { s.dev.link n with candidateLane := none } = a := ⟨_, rfl⟩
  have hau : a.units = s.dev.units := ha ▸ rfl
  obtain ⟨b, hb⟩ : ∃ b, a.setFld (flReg R.FL_STATUS_CANDIDATE n) 0 = b := ⟨_, rfl⟩
  have hbu : b.units = a.units := hb ▸ of_bare (·.units) (fun _ => rfl) (bare_setFld a _ 0)
  refine ⟨b.retireLane n i, dev_makes (execFlRetireGo.eq_def ..) (by rw [hr, linkOk_of hn]; rfl) ?_,
    retireLane_spec b hn hi (by rw [unitAt_of_units (hbu.trans hau)]; exact hu)⟩
  unfold Dev.flRetireWrite
  rw [h]
  dsimp only
  rw [bitOf_eq_getLsbD, hv, if_pos rfl, ha, hb]

theorem linkRekey_keys (h : s.dev.linkIn n = true) : MakesSome (.linkRekey n) s fun e => (e.link n).flits = 0 ∧
    e.fld (flReg R.FL_CRYPTO_REKEYS n) = (s.dev.fld (flReg R.FL_CRYPTO_REKEYS n) + 1) % 2 ^ 32 := by
  obtain ⟨a, ha⟩ : ∃ a, s.dev.setLink n { s.dev.link n with flits := 0 } = a := ⟨_, rfl⟩
  have haf : a.fld (flReg R.FL_CRYPTO_REKEYS n) = s.dev.fld (flReg R.FL_CRYPTO_REKEYS n) := ha ▸ rfl
  have hal : (a.link n).flits = 0 := by
    rw [← ha, link_setLink]
  refine ⟨a.addWrap (flReg R.FL_CRYPTO_REKEYS n) 1, dev_makes (execLinkRekey.eq_def ..) (linkOk_of hn) ?_,
    (of_bare (fun d => (d.link n).flits) (fun _ => rfl) (bare_setFld a _ _)).trans hal, ?_⟩
  · dsimp only
    rw [if_pos h, ha]
  · rw [Dev.addWrap, fld_setFld_same a (flReg R.FL_CRYPTO_REKEYS n) _ (show R.FL_CRYPTO_REKEYS.lo + R.FL_CRYPTO_REKEYS.width ≤ 64 by decide), haf]
    rfl

theorem linkBlockLockLoss_retires (h : s.dev.linkIn n = true) : MakesSome (.linkBlockLockLoss n) s fun e =>
    e.fld (flReg R.FL_STATUS_STATE n) = 6 ∧ e.fld (flReg R.FL_STATUS_WIDTH n) = 0 := by
  obtain ⟨h1, h2, -⟩ := retireLink_spec s.dev hn 0 (linkIn_state h)
  exact ⟨_, dev_makes (execLinkBlockLockLoss.eq_def ..) (linkOk_of hn) (if_pos h), h1, h2⟩

theorem link_down (h : s.dev.linkIn n = false) : Gives (.linkRekey n) s s ∧ Gives (.linkBlockLockLoss n) s s :=
  ⟨dev_makes (e := s.dev) (execLinkRekey.eq_def ..) (linkOk_of hn) (if_neg (by rw [h]; exact Bool.false_ne_true)),
    dev_makes (e := s.dev) (execLinkBlockLockLoss.eq_def ..) (linkOk_of hn) (if_neg (by rw [h]; exact Bool.false_ne_true))⟩

end

/-! ### Flits -/

/-- The device that has counted what FEC corrected in a flit. -/
def fecCounted (d : Dev) (n fec : Nat) : Dev := d.addSat (flReg R.FL_COUNT_FEC_CORRECTED n) fec

theorem fecCounted_spec (d : Dev) (n fec : Nat) : (fecCounted d n fec).links = d.links ∧
    (fecCounted d n fec).fld (flReg R.FL_COUNT_FEC_CORRECTED n) = min (d.fld (flReg R.FL_COUNT_FEC_CORRECTED n) + fec) (2 ^ 32 - 1) ∧
    (fecCounted d n fec).fld (flReg R.FL_COUNT_REPLAYS n) = d.fld (flReg R.FL_COUNT_REPLAYS n) ∧
    (fecCounted d n fec).fld (flReg R.FL_STATUS_STATE n) = d.fld (flReg R.FL_STATUS_STATE n) :=
  ⟨of_bare (·.links) (fun _ => rfl) (bare_setFld d _ _), fld_addSat d _ _ (show R.FL_COUNT_FEC_CORRECTED.lo + R.FL_COUNT_FEC_CORRECTED.width ≤ 64 by decide),
    fl_apart (k := R.FL_COUNT_REPLAYS) d n _ (by decide) (by decide), fl_apart (k := R.FL_STATUS_STATE) d n _ (by decide) (by decide)⟩

/-- The device that has counted a replay. -/
def replayed (d : Dev) (n : Nat) : Dev := d.addSat (flReg R.FL_COUNT_REPLAYS n) 1

theorem replayed_spec (d : Dev) (n : Nat) : (replayed d n).links = d.links ∧
    (replayed d n).fld (flReg R.FL_COUNT_REPLAYS n) = min (d.fld (flReg R.FL_COUNT_REPLAYS n) + 1) (2 ^ 32 - 1) ∧
    (replayed d n).fld (flReg R.FL_STATUS_STATE n) = d.fld (flReg R.FL_STATUS_STATE n) :=
  ⟨of_bare (·.links) (fun _ => rfl) (bare_setFld d _ _), fld_addSat d _ _ (show R.FL_COUNT_REPLAYS.lo + R.FL_COUNT_REPLAYS.width ≤ 64 by decide),
    fl_apart (k := R.FL_STATUS_STATE) d n _ (by decide) (by decide)⟩

theorem keepsRegs_transient (d : Dev) (kind inst : Nat) (r : Rep) : keepsRegs d (d.transient kind inst r) := by
  unfold Dev.transient
  extract_lets u b x y
  have hx : keepsRegs d x := keepsRegs_of_regs (keepsRegs_refl d) rfl
  have hy : keepsRegs x y := keepsRegs_log x _
  clear_value y x
  exact keepsRegs_ite (keepsRegs_trans (keepsRegs_trans hx hy) (keepsRegs_candidate _ _ _ _ _)) (keepsRegs_trans hx hy)

/-- What a flit that is received does: link n stood as k. -/
def flitTaken (k : Link) (n lane : Nat) (crcOk tagOk : Bool) (d : Dev) : Dev :=
  if !crcOk then
    let failed := if k.failed.contains lane then k.failed else lane :: k.failed
    let d := (replayed d n).transient 1 (24 * n + lane) { source := 0xA, inst := n, cls := 0, location := lane }
    if 3 ≤ k.replayRun then
      failed.foldl (fun d i => d.candidate 1 (24 * n + i) 1 0) (d.setLink n { k with replayRun := 0, failed := [] })
    else d.setLink n { k with replayRun := k.replayRun + 1, failed := failed }
  else if !tagOk then
    if 2 ≤ k.tagRun then (replayed d n).retireLink n 1 else (replayed d n).setLink n { k with tagRun := k.tagRun + 1 }
  else d.setLink n { k with flits := k.flits + 1, replayRun := 0, failed := [], tagRun := 0 }

section
variable {s : State} {n lane fec : Nat} (hn : n < 8) (hl : lane < 24) (hc : s.dev.clocksOk = true)
include hn hl hc

theorem flitReceive_makes (a b : Bool) (hin : s.dev.linkIn n = true) :
    Makes (.flitReceive n a b lane fec) s (flitTaken (s.dev.link n) n lane a b (fecCounted s.dev n fec)) := by
  refine data_makes (execFlitReceive.eq_def ..) (by rw [linkOk_of hn, decide_eq_true hl]; rfl) hc ?_
  have hk : (fecCounted s.dev n fec).link n = s.dev.link n := by
    unfold Dev.link
    rw [(fecCounted_spec s.dev n fec).1]
  dsimp only
  rw [if_neg (by rw [hin]; decide), show s.dev.addSat (flReg R.FL_COUNT_FEC_CORRECTED n) fec = fecCounted s.dev n fec from rfl, hk]
  rfl

theorem flitReceive_down (a b : Bool) (h : s.dev.linkIn n = false) : Gives (.flitReceive n a b lane fec) s s := by
  refine data_makes (e := s.dev) (execFlitReceive.eq_def ..) (by rw [linkOk_of hn, decide_eq_true hl]; rfl) hc (if_pos ?_)
  rw [h]
  rfl

variable (hin : s.dev.linkIn n = true)
include hin

theorem flitReceive_good : MakesSome (.flitReceive n true true lane fec) s fun e =>
    e.link n = { s.dev.link n with
      flits := (s.dev.link n).flits + 1
      replayRun := 0
      failed := []
      tagRun := 0 } ∧
    e.fld (flReg R.FL_COUNT_FEC_CORRECTED n) = min (s.dev.fld (flReg R.FL_COUNT_FEC_CORRECTED n) + fec) (2 ^ 32 - 1) := by
  refine ⟨_, flitReceive_makes hn hl hc true true hin, ?_, ?_⟩
  · exact link_setLink _ n _
  · exact (fl_setLink _ n _ _).trans (fecCounted_spec s.dev n fec).2.1

theorem flitReceive_replay (tag : Bool) (hr : (s.dev.link n).replayRun < 3) : MakesSome (.flitReceive n false tag lane fec) s fun e =>
    (e.link n).replayRun = (s.dev.link n).replayRun + 1 ∧ lane ∈ (e.link n).failed ∧
      e.fld (flReg R.FL_COUNT_REPLAYS n) = min (s.dev.fld (flReg R.FL_COUNT_REPLAYS n) + 1) (2 ^ 32 - 1) := by
  obtain ⟨-, -, f3, -⟩ := fecCounted_spec s.dev n fec
  obtain ⟨-, r2, -⟩ := replayed_spec (fecCounted s.dev n fec) n
  have hm := flitReceive_makes (fec := fec) hn hl hc false tag hin
  unfold flitTaken at hm
  obtain ⟨x, hx⟩ : ∃ x, replayed (fecCounted s.dev n fec) n = x := ⟨_, rfl⟩
  rw [f3, hx] at r2
  rw [hx] at hm
  have hk := keepsRegs_transient x 1 (24 * n + lane) { source := 0xA, inst := n, cls := 0, location := lane }
  dsimp only at hm
  obtain ⟨y, hy⟩ : ∃ y, x.transient 1 (24 * n + lane) { source := 0xA, inst := n, cls := 0, location := lane } = y := ⟨_, rfl⟩
  rw [hy] at hk hm
  rw [if_pos (show (!false) = true from rfl), if_neg (Nat.not_le.2 hr)] at hm
  refine ⟨_, hm, congrArg Link.replayRun (link_setLink _ n _), ?_, (fl_setLink _ n _ _).trans ((congrArg (flReg R.FL_COUNT_REPLAYS n).get
    (hk _ (reported_fl _ (by decide) n hn).1)).trans r2)⟩
  rw [link_setLink]
  dsimp only
  split
  · next h => exact List.contains_iff_mem.1 h
  · exact List.mem_cons_self

theorem flitReceive_tag (ht : (s.dev.link n).tagRun < 2) : MakesSome (.flitReceive n true false lane fec) s fun e =>
    (e.link n).tagRun = (s.dev.link n).tagRun + 1 ∧
      e.fld (flReg R.FL_COUNT_REPLAYS n) = min (s.dev.fld (flReg R.FL_COUNT_REPLAYS n) + 1) (2 ^ 32 - 1) := by
  obtain ⟨-, -, f3, -⟩ := fecCounted_spec s.dev n fec
  obtain ⟨-, r2, -⟩ := replayed_spec (fecCounted s.dev n fec) n
  have hm := flitReceive_makes (fec := fec) hn hl hc true false hin
  unfold flitTaken at hm
  dsimp only at hm
  rw [if_neg (show ¬(!true) = true by decide), if_pos (show (!false) = true from rfl), if_neg (Nat.not_le.2 ht)] at hm
  rw [f3] at r2
  exact ⟨_, hm, congrArg Link.tagRun (link_setLink _ n _), (fl_setLink _ n _ _).trans r2⟩

theorem flitReceive_badTag (ht : 2 ≤ (s.dev.link n).tagRun) : MakesSome (.flitReceive n true false lane fec) s fun e =>
    e.fld (flReg R.FL_STATUS_STATE n) = 6 := by
  obtain ⟨-, -, -, f4⟩ := fecCounted_spec s.dev n fec
  obtain ⟨-, -, r3⟩ := replayed_spec (fecCounted s.dev n fec) n
  have hm := flitReceive_makes (fec := fec) hn hl hc true false hin
  unfold flitTaken at hm
  dsimp only at hm
  rw [if_neg (show ¬(!true) = true by decide), if_pos (show (!false) = true from rfl), if_pos ht] at hm
  refine ⟨_, hm, (retireLink_spec _ hn 1 ?_).1⟩
  rw [r3, f4]
  exact linkIn_state hin

end

/-! ### Maps -/

section
variable {s : State} {src : Nat} (hs : src < 8)
include hs

theorem linkMap_own (ls : List LinkEntry) (h : src = s.dev.self) : Gives (.linkMap src ls) s s :=
  dev_makes (e := s.dev) (execLinkMap.eq_def ..) (decide_eq_true hs) (if_pos (by rw [beq_iff_eq]; exact h))

theorem linkMap_routes (ls : List LinkEntry) (h : src ≠ s.dev.self) : MakesSome (.linkMap src ls) s fun e =>
    e.linksOf src = ls.take 8 ∧ ∀ p, p < 8 → e.fld (R.ROUTE_LINKS.at (8 * p)) = (e.routeTo p).1 ∧
      e.fld (R.ROUTE_VIA.at (8 * p)) = (e.routeTo p).2.1 ∧ e.fld (R.ROUTE_KIND.at (8 * p)) = (e.routeTo p).2.2 := by
  obtain ⟨x, hx⟩ : ∃ x, onChain s.dev { s.dev.chain with maps := SMap.set (fun _ => []) s.dev.chain.maps src (ls.take 8) } = x := ⟨_, rfl⟩
  have hxs : x.self = s.dev.self := hx ▸ rfl
  have hxl : SMap.get (fun _ => []) x.chain.maps src = ls.take 8 := hx ▸ smap_get_set_same _ _ _ _
  obtain ⟨h1, h2⟩ := reroute_spec x
  refine ⟨x.reroute, dev_makes (execLinkMap.eq_def ..) (decide_eq_true hs) ((if_neg (by rw [beq_iff_eq]; exact h)).trans (congrArg Dev.reroute hx)), ?_,
    fun p hp => ?_⟩
  · rw [linksOf_rerouted h1, Dev.linksOf, if_neg (by rw [beq_iff_eq, hxs]; exact h), hxl]
  · have hr := h2 p hp
    exact ⟨congrArg (·.1) hr, congrArg (·.2.1) hr, congrArg (·.2.2) hr⟩

theorem mapExchange_holds (a b : Word) : MakesSome (.mapExchange src a b) s fun e => e.regs = s.dev.regs ∧
    SMap.get (fun _ => 0) e.chain.mapBase src = a ∧ SMap.get (fun _ => 0) e.chain.mapDigest src = b :=
  ⟨_, dev_makes (execMapExchange.eq_def ..) (decide_eq_true hs) rfl, rfl, smap_get_set_same _ _ _ _, smap_get_set_same _ _ _ _⟩

end

/-- Settles O44: every change of a link ends in the routes, which are computed from what the status of the links shows. -/
theorem frahalLinks : Obligations.FrahalLinks := by
  intro s n hn d k at' st up
  refine ⟨fun o h => linkTraining_out hn o h, fun he h6 => ⟨fun peer pl w conf hp hl hw hs => linkTraining_active hn he h6 conf hp hl hw hs,
    linkTraining_ownSocket hn he h6, linkTraining_authFailed hn he h6, linkTraining_noPeer hn he h6⟩, fun h => link_down hn h,
    fun h => ⟨linkRekey_keys hn h, linkBlockLockLoss_retires hn h⟩, fun hc lane fec hl => ⟨fun h a b => flitReceive_down hn hl hc a b h,
      fun h => ⟨flitReceive_good hn hl hc h, fun tag hr => flitReceive_replay hn hl hc h tag hr, fun ht => flitReceive_tag hn hl hc h ht,
        fun ht => flitReceive_badTag hn hl hc h ht⟩⟩,
    fun req v hr => ⟨fun h => flRetireGo_none hn hr h, fun i h hi hu hv => flRetireGo_lane hn hr h hi hu hv⟩,
    fun src ls hs => ⟨fun h => linkMap_own hs ls h, fun h => linkMap_routes hs ls h, fun a b => mapExchange_holds hs a b⟩⟩

end Sys2Proof.Proofs
end

