-- ==== Sys2Proof/Proofs/Patrol.lean ====
section
/-!
PROOFS. The patrol of a memory channel (R329).
-/

namespace Sys2Proof.Proofs

open Sys2Proof Sys2Proof.Machine Sys2Proof.Laws

/-! ### What a read by the patrol leaves alone -/

/-- A register that neither a regulator, nor the counts of errors, nor a report writes. -/
def patrolReg (off : Nat) : Bool :=
  !reported off && (decide (off < 0x1000000) || decide (off % 0x40000 = 0x8) || decide (off % 0x40000 = 0x18) || decide (off % 0x40000 = 0x20))

/-- What stands through the acceptance and the check of a read of a channel. -/
structure Served (d e : Dev) : Prop where
  regs : ∀ off, patrolReg off = true → e.reg off = d.reg off
  dram : e.dram = d.dram
  poisoned : e.poisoned = d.poisoned
  patrol : ∀ n, (e.chan n).patrol = (d.chan n).patrol

theorem mcReg_reg (f : Field) (n : Nat) : (mcReg f n).reg = f.reg + 0x40000 * n := rfl

section
variable {d e : Dev}

theorem Served.refl (d : Dev) : Served d d := ⟨fun _ _ => rfl, rfl, rfl, fun _ => rfl⟩

theorem Served.trans {x : Dev} (h : Served d e) (k : Served e x) : Served d x :=
  ⟨fun off ho => (k.regs off ho).trans (h.regs off ho), k.dram.trans h.dram, k.poisoned.trans h.poisoned,
    fun n => (k.patrol n).trans (h.patrol n)⟩

theorem Served.fld (h : Served d e) {f : Field} (hf : patrolReg f.reg = true) : e.fld f = d.fld f := congrArg f.get (h.regs _ hf)

theorem Served.ite {p : Prop} [Decidable p] {a b : Dev} (ha : Served d a) (hb : Served d b) : Served d (if p then a else b) := by
  split
  · exact ha
  · exact hb

theorem served_of_quiet (h : quiet e = quiet d) (k : keepsRegs d e) : Served d e := by
  refine ⟨fun off ho => k off ?_, of_quiet (·.dram) (fun _ => rfl) h, of_quiet (·.poisoned) (fun _ => rfl) h,
    fun n => of_quiet (fun d => (d.chan n).patrol) (fun _ => rfl) h⟩
  exact (Bool.not_eq_true' _).mp (Bool.and_eq_true_iff.1 ho).1

theorem served_log (d : Dev) (r : Rep) : Served d (d.log r) := served_of_quiet (quiet_log d r) (keepsRegs_log d r)

theorem served_setFld (d : Dev) (f : Field) (x : Nat) (h : patrolReg f.reg = false) : Served d (d.setFld f x) := by
  have hb := bare_setFld d f x
  refine ⟨fun off ho => reg_setFld_other d f x off (fun hf => ?_), of_bare (·.dram) (fun _ => rfl) hb, of_bare (·.poisoned) (fun _ => rfl) hb,
    fun n => of_bare (fun d => (d.chan n).patrol) (fun _ => rfl) hb⟩
  rw [hf, h] at ho
  exact Bool.false_ne_true ho

theorem chan_setChan_same (d : Dev) (n : Nat) (x : Chan) : (d.setChan n x).chan n = x := smap_get_set_same _ _ _ _

theorem chan_setChan_other (d : Dev) {n k : Nat} (x : Chan) (h : k ≠ n) : (d.setChan n x).chan k = d.chan k := smap_get_set_other _ _ _ _ _ h

theorem served_setChan (d : Dev) (n : Nat) (x : Chan) (h : x.patrol = (d.chan n).patrol) : Served d (d.setChan n x) := by
  refine ⟨fun _ _ => rfl, rfl, rfl, fun k => ?_⟩
  by_cases hk : k = n
  · subst hk
    rw [chan_setChan_same, h]
  · rw [chan_setChan_other d x hk]

theorem served_setUnit (d : Dev) (kind inst : Nat) (u : ErrUnit) : Served d (d.setUnit kind inst u) := ⟨fun _ _ => rfl, rfl, rfl, fun _ => rfl⟩

theorem served_candidate (d : Dev) (kind inst cls a : Nat) : Served d (d.candidate kind inst cls a) := by
  unfold Dev.candidate
  extract_lets u x
  refine .ite (.refl d) ?_
  have hx : Served d x := served_setUnit d _ _ _
  clear_value x
  exact hx.trans (served_log x _)

theorem patrolReg_mc {r : Nat} {n : Nat} (h1 : 0x1000000 ≤ r) (h2 : r < 0x1040000) (h3 : r - 0x1000000 ≠ 8) (h4 : r - 0x1000000 ≠ 0x18)
    (h5 : r - 0x1000000 ≠ 0x20) : patrolReg (r + 0x40000 * n) = false := by
  have hm : (r + 0x40000 * n) % 0x40000 = r - 0x1000000 := by omega
  rw [patrolReg, Bool.and_eq_false_iff]
  refine .inr ?_
  rw [hm, decide_eq_false h3, decide_eq_false h4, decide_eq_false h5, decide_eq_false (by omega)]
  rfl

theorem acceptReq_served (d : Dev) (n group : Nat) : Served d (d.acceptReq n group).2 := by
  unfold Dev.acceptReq
  extract_lets p cfg cr c x
  have hp : p < 16 := getF_lt _ _ 4
  have hcr (f : Field) (hf : f.reg = R.PORT_STATUS_CREDITS.reg) : patrolReg ((mcReg f n).at (8 * p)).reg = false := by
    have : ((mcReg f n).at (8 * p)).reg = (0x1000180 + 8 * p) + 0x40000 * n := by
      change f.reg + 0x40000 * n + 8 * p = _
      rw [hf, show R.PORT_STATUS_CREDITS.reg = 0x1000180 from rfl]
      omega
    rw [this]
    exact patrolReg_mc (by omega) (by omega) (by omega) (by omega) (by omega)
  have hx : Served d x := by
    change Served d (if _ then d else _)
    exact .ite (.refl d) ((served_setChan d n { c with starved := p :: c.starved } rfl).trans (served_setFld _ _ _ (hcr R.PORT_STATUS_STARVED rfl)))
  clear_value x
  split
  · exact .refl d
  · split
    · exact served_setFld d cr _ (hcr R.PORT_STATUS_CREDITS rfl)
    · exact hx

theorem served_noteRow (d : Dev) (n loc : Nat) : Served d (d.noteRow n loc) := by
  unfold Dev.noteRow
  extract_lets c x u
  have hx : Served d x := served_setChan d n _ rfl
  clear_value x
  exact .ite (hx.trans (served_setUnit x _ _ _)) hx

theorem served_checkRead (d : Dev) (n a g : Nat) (chk : ReadCheck) : Served d (d.checkRead n a g chk) := by
  have hc (f : Field) (hf : f.reg = R.ERR_COUNT_CE_COUNT.reg) : patrolReg (mcReg f n).reg = false := by
    rw [mcReg_reg, hf]
    exact patrolReg_mc (by decide) (by decide) (by decide) (by decide) (by decide)
  unfold Dev.checkRead
  extract_lets loc x y z b w x' u w'
  have hx : Served d x := served_setFld d _ _ (hc R.ERR_COUNT_CE_COUNT rfl)
  have hy : Served x y := Served.ite (served_setFld x _ 1 (hc R.ERR_COUNT_CE_OVF rfl)) (.refl x)
  clear_value x
  have hz : Served y z := served_noteRow y n loc
  clear_value y
  have hw : Served z w := served_log z _
  clear_value b
  clear_value z w
  have hx' : Served d x' := Served.trans (served_setFld d (mcReg R.ERR_COUNT_UE_COUNT n) _ (hc R.ERR_COUNT_UE_COUNT rfl)) (served_noteRow _ n loc)
  have hw' : Served x' w' := served_log x' _
  clear_value u
  clear_value w'
  clear_value x'
  cases chk with
  | clean => exact .refl d
  | correctable => exact (hx.trans (hy.trans (hz.trans hw))).trans (.ite (served_candidate _ _ _ _ _) (.refl w))
  | uncorrectable => exact (hx'.trans hw').trans (served_candidate _ _ _ _ _)

end

/-! ### The patrol goes on -/

theorem patrolReg_own : ∀ n < 16, patrolReg (mcReg R.MC_CFG_CAP_GIB n).reg = true ∧ patrolReg (mcReg R.SCRUB_CTL_EN n).reg = true ∧
    patrolReg (mcReg R.SCRUB_STATUS_ADDR n).reg = true := by decide

/-- The line to which the patrol of channel n goes on from line p. -/
def patrolAfter (d : Dev) (n p : Nat) : Nat := if p + 1 < d.patrolLines n then p + 1 else 0

theorem patrolNext_spec (d : Dev) (n : Nat) : ((d.patrolNext n).chan n).patrol = patrolAfter d n (d.chan n).patrol ∧ (d.patrolNext n).dram = d.dram ∧
    (d.patrolNext n).poisoned = d.poisoned ∧
    (patrolAfter d n (d.chan n).patrol = 0 → (d.patrolNext n).flag (mcReg R.SCRUB_STATUS_PASS_DONE n) = true) ∧
    (d.patrolNext n).flag (mcReg R.SCRUB_STATUS_WAITING n) = d.flag (mcReg R.SCRUB_STATUS_WAITING n) := by
  unfold Dev.patrolNext patrolAfter
  extract_lets c
  change (_ = if c.patrol + 1 < _ then _ else _) ∧ _ ∧ _ ∧ ((if c.patrol + 1 < _ then _ else _) = 0 → _) ∧ _
  by_cases h : c.patrol + 1 < d.patrolLines n
  · rw [if_pos h, if_pos h]
    exact ⟨congrArg Chan.patrol (chan_setChan_same d n _), rfl, rfl, fun h => absurd h (Nat.succ_ne_zero _), rfl⟩
  · rw [if_neg h, if_neg h]
    obtain ⟨x, hx⟩ : ∃ x, d.setChan n { c with patrol := 0 } = x := ⟨_, rfl⟩
    have hxp : (x.chan n).patrol = 0 := by
      rw [← hx, chan_setChan_same]
    have hxd : x.dram = d.dram ∧ x.poisoned = d.poisoned ∧ x.regs = d.regs := hx ▸ ⟨rfl, rfl, rfl⟩
    rw [hx]
    have hb := bare_setFld x (mcReg R.SCRUB_STATUS_PASS_DONE n) 1
    refine ⟨(of_bare (fun d => (d.chan n).patrol) (fun _ => rfl) hb).trans hxp, (of_bare (·.dram) (fun _ => rfl) hb).trans hxd.1,
      (of_bare (·.poisoned) (fun _ => rfl) hb).trans hxd.2.1, fun _ => flag_setFld_one x _
        (show R.SCRUB_STATUS_PASS_DONE.lo + R.SCRUB_STATUS_PASS_DONE.width ≤ 64 by decide) (show 0 < R.SCRUB_STATUS_PASS_DONE.width by decide), ?_⟩
    refine (flag_setFld_apart x (mcReg R.SCRUB_STATUS_PASS_DONE n) (mcReg R.SCRUB_STATUS_WAITING n) 1
      (show R.SCRUB_STATUS_PASS_DONE.lo + R.SCRUB_STATUS_PASS_DONE.width ≤ 64 by decide)
      (.inl (show R.SCRUB_STATUS_WAITING.lo + R.SCRUB_STATUS_WAITING.width ≤ R.SCRUB_STATUS_PASS_DONE.lo by decide))).trans ?_
    exact congrArg (· != 0) (fld_of_regs hxd.2.2 _)

theorem patrolAfter_served {d e : Dev} (h : Served d e) {n : Nat} (hn : n < 16) (p : Nat) : patrolAfter e n p = patrolAfter d n p := by
  unfold patrolAfter Dev.patrolLines
  rw [h.fld (patrolReg_own n hn).1]

theorem scrubLine_spec (d : Dev) (n : Nat) (ue : Bool) : (d.scrubLine n ue).regs = d.regs ∧ (d.scrubLine n ue).chans = d.chans ∧
    (d.scrubLine n ue).dram = d.dram := by
  unfold Dev.scrubLine
  split
  · exact ⟨rfl, rfl, rfl⟩
  · split
    · exact ⟨rfl, rfl, rfl⟩
    · exact ⟨rfl, rfl, rfl⟩

/-! ### The patrol's command -/

/-- Whether channel n's patrol runs. -/
def patrolRuns (d : Dev) (n : Nat) : Bool := d.mcLive n && d.flag (mcReg R.SCRUB_CTL_EN n) && !d.flag (mcReg R.SCRUB_STATUS_WAITING n)

theorem not_patrolRuns (d : Dev) (n : Nat) :
    (!d.mcLive n || !d.flag (mcReg R.SCRUB_CTL_EN n) || d.flag (mcReg R.SCRUB_STATUS_WAITING n)) = !patrolRuns d n := by
  unfold patrolRuns
  rw [Bool.not_and, Bool.not_and, Bool.not_not]

section
variable {s : State} {n : Nat} (hn : n < 16) (hc : s.dev.clocksOk = true)
include hn hc

theorem patrolScrub_off (chk : ReadCheck) (h : patrolRuns s.dev n = false) : Gives (.patrolScrub n chk) s s :=
  data_makes (e := s.dev) (execPatrolScrub.eq_def ..) (decide_eq_true hn) hc (if_pos (by rw [not_patrolRuns, h]; rfl))

theorem patrolScrub_held (chk : ReadCheck) (h : patrolRuns s.dev n = true) {e : Dev} (ha : s.dev.acceptReq n 15 = (false, e)) :
    Makes (.patrolScrub n chk) s e := by
  refine data_makes (execPatrolScrub.eq_def ..) (decide_eq_true hn) hc ?_
  dsimp only
  rw [not_patrolRuns, h, if_neg (by decide), ha]
  rfl

/-- The patrol's line has been read. -/
theorem patrolScrub_read (chk : ReadCheck) (h : patrolRuns s.dev n = true) {x : Dev} (ha : s.dev.acceptReq n 15 = (true, x)) :
    ∃ d : Dev, Served s.dev d ∧ Makes (.patrolScrub n chk) s (if chk == .clean then d.patrolNext n
      else if d.duty 7 then (((d.setFld (mcReg R.SCRUB_STATUS_ADDR n) (64 * (s.dev.chan n).patrol)).setFld (mcReg R.SCRUB_STATUS_WAITING n) 1).setFld
        (mcReg R.SCRUB_STATUS_UE n) (bnat (chk == .uncorrectable))).dutyEvent
      else (d.scrubLine n (chk == .uncorrectable)).patrolNext n) := by
  have hx := acceptReq_served s.dev n 15
  rw [ha] at hx
  have hx : Served s.dev x := hx
  have hp := hx.patrol n
  obtain ⟨p, hpe⟩ : ∃ p, (s.dev.chan n).patrol = p := ⟨_, rfl⟩
  have hs := hx.trans (served_checkRead x n (64 * p) ((x.lineAtLocal n (64 * p)).getD (64 * p / 64)) chk)
  obtain ⟨d, hd⟩ : ∃ d, x.checkRead n (64 * p) ((x.lineAtLocal n (64 * p)).getD (64 * p / 64)) chk = d := ⟨_, rfl⟩
  rw [hd] at hs
  refine ⟨d, hs, data_makes (execPatrolScrub.eq_def ..) (decide_eq_true hn) hc ?_⟩
  dsimp only
  rw [not_patrolRuns, h, if_neg (by decide), ha]
  dsimp only
  rw [if_neg (by decide), hp, hpe, hd]

theorem patrolScrub_clean (h : patrolRuns s.dev n = true) {x : Dev} (ha : s.dev.acceptReq n 15 = (true, x)) :
    MakesSome (.patrolScrub n .clean) s fun e => (e.chan n).patrol = patrolAfter s.dev n (s.dev.chan n).patrol ∧ e.dram = s.dev.dram ∧
      (patrolAfter s.dev n (s.dev.chan n).patrol = 0 → e.flag (mcReg R.SCRUB_STATUS_PASS_DONE n) = true) := by
  obtain ⟨d, hd, hm⟩ := patrolScrub_read hn hc .clean h ha
  rw [if_pos (show (ReadCheck.clean == .clean) = true from rfl)] at hm
  obtain ⟨h1, h2, -, h4, -⟩ := patrolNext_spec d n
  rw [hd.patrol n, patrolAfter_served hd hn] at h1 h4
  exact ⟨_, hm, h1, h2.trans hd.dram, h4⟩

theorem patrolScrub_correctable (h : patrolRuns s.dev n = true) {x : Dev} (ha : s.dev.acceptReq n 15 = (true, x)) (h7 : s.dev.duty 7 = false) :
    MakesSome (.patrolScrub n .correctable) s fun e => (e.chan n).patrol = patrolAfter s.dev n (s.dev.chan n).patrol ∧ e.dram = s.dev.dram := by
  obtain ⟨d, hd, hm⟩ := patrolScrub_read hn hc .correctable h ha
  have hd7 : d.duty 7 = false := (congrArg (natBit · 7) (hd.fld (f := R.DUTY_FUNC) (by decide))).trans h7
  rw [if_neg (show ¬(ReadCheck.correctable == .clean) = true by decide), hd7, if_neg Bool.false_ne_true] at hm
  obtain ⟨y, hy⟩ : ∃ y, d.scrubLine n (ReadCheck.correctable == .uncorrectable) = y := ⟨_, rfl⟩
  obtain ⟨s1, s2, s3⟩ := scrubLine_spec d n (ReadCheck.correctable == .uncorrectable)
  rw [hy] at s1 s2 s3 hm
  have hyc : y.chan n = d.chan n := congrArg (fun m => SMap.get (fun _ => ({} : Chan)) m n) s2
  obtain ⟨h1, h2, -⟩ := patrolNext_spec y n
  have hcap : patrolAfter y n (d.chan n).patrol = patrolAfter d n (d.chan n).patrol := by
    unfold patrolAfter Dev.patrolLines
    rw [fld_of_regs s1]
  rw [hyc, hcap, hd.patrol n, patrolAfter_served hd hn] at h1
  exact ⟨_, hm, h1, h2.trans (s3.trans hd.dram)⟩

theorem patrolScrub_shown (h : patrolRuns s.dev n = true) {x : Dev} (ha : s.dev.acceptReq n 15 = (true, x)) (h7 : s.dev.duty 7 = true)
    (hp : (s.dev.chan n).patrol < 2 ^ 34) : MakesSome (.patrolScrub n .uncorrectable) s fun e =>
      e.flag (mcReg R.SCRUB_STATUS_WAITING n) = true ∧ e.flag (mcReg R.SCRUB_STATUS_UE n) = true ∧
      e.fld (mcReg R.SCRUB_STATUS_ADDR n) = 64 * (s.dev.chan n).patrol ∧ (e.chan n).patrol = (s.dev.chan n).patrol := by
  obtain ⟨d, hd, hm⟩ := patrolScrub_read hn hc .uncorrectable h ha
  have hd7 : d.duty 7 = true := (congrArg (natBit · 7) (hd.fld (f := R.DUTY_FUNC) (by decide))).trans h7
  rw [if_neg (show ¬(ReadCheck.uncorrectable == .clean) = true by decide), hd7, if_pos rfl] at hm
  obtain ⟨p, hpe⟩ : ∃ p, (s.dev.chan n).patrol = p := ⟨_, rfl⟩
  rw [hpe] at hm hp ⊢
  obtain ⟨a, ha⟩ : ∃ a, d.setFld (mcReg R.SCRUB_STATUS_ADDR n) (64 * p) = a := ⟨_, rfl⟩
  have haa : a.fld (mcReg R.SCRUB_STATUS_ADDR n) = 64 * p := ha ▸ fld_setFld_lt d
    (show R.SCRUB_STATUS_ADDR.lo + R.SCRUB_STATUS_ADDR.width ≤ 64 by decide) (show 64 * p < 2 ^ 40 by omega)
  have hap : (a.chan n).patrol = p := (ha ▸ of_bare (fun d => (d.chan n).patrol) (fun _ => rfl) (bare_setFld d _ _)).trans ((hd.patrol n).trans hpe)
  obtain ⟨b, hb⟩ : ∃ b, a.setFld (mcReg R.SCRUB_STATUS_WAITING n) 1 = b := ⟨_, rfl⟩
  have hbw : b.flag (mcReg R.SCRUB_STATUS_WAITING n) = true := hb ▸ flag_setFld_one a _
    (show R.SCRUB_STATUS_WAITING.lo + R.SCRUB_STATUS_WAITING.width ≤ 64 by decide) (show 0 < R.SCRUB_STATUS_WAITING.width by decide)
  have hba : b.fld (mcReg R.SCRUB_STATUS_ADDR n) = 64 * p := (hb ▸ fld_setFld_apart a (mcReg R.SCRUB_STATUS_WAITING n) (mcReg R.SCRUB_STATUS_ADDR n) 1
    (show R.SCRUB_STATUS_WAITING.lo + R.SCRUB_STATUS_WAITING.width ≤ 64 by decide)
    (.inl (show R.SCRUB_STATUS_ADDR.lo + R.SCRUB_STATUS_ADDR.width ≤ R.SCRUB_STATUS_WAITING.lo by decide))).trans haa
  have hbp : (b.chan n).patrol = p := (hb ▸ of_bare (fun d => (d.chan n).patrol) (fun _ => rfl) (bare_setFld a _ _)).trans hap
  obtain ⟨c, hce⟩ : ∃ c, b.setFld (mcReg R.SCRUB_STATUS_UE n) (bnat (ReadCheck.uncorrectable == .uncorrectable)) = c := ⟨_, rfl⟩
  have hlo : R.SCRUB_STATUS_UE.lo + R.SCRUB_STATUS_UE.width ≤ 64 := by decide
  have hcu : c.flag (mcReg R.SCRUB_STATUS_UE n) = true := hce ▸ flag_setFld_one b _ hlo (show 0 < R.SCRUB_STATUS_UE.width by decide)
  have hcw : c.flag (mcReg R.SCRUB_STATUS_WAITING n) = true := (hce ▸ flag_setFld_apart b (mcReg R.SCRUB_STATUS_UE n) (mcReg R.SCRUB_STATUS_WAITING n) _ hlo
    (.inl (show R.SCRUB_STATUS_WAITING.lo + R.SCRUB_STATUS_WAITING.width ≤ R.SCRUB_STATUS_UE.lo by decide))).trans hbw
  have hca : c.fld (mcReg R.SCRUB_STATUS_ADDR n) = 64 * p := (hce ▸ fld_setFld_apart b (mcReg R.SCRUB_STATUS_UE n) (mcReg R.SCRUB_STATUS_ADDR n) _ hlo
    (.inl (show R.SCRUB_STATUS_ADDR.lo + R.SCRUB_STATUS_ADDR.width ≤ R.SCRUB_STATUS_UE.lo by decide))).trans hba
  have hcp : (c.chan n).patrol = p := (hce ▸ of_bare (fun d => (d.chan n).patrol) (fun _ => rfl) (bare_setFld b _ _)).trans hbp
  rw [ha, hb, hce] at hm
  have hk := keepsRegs_errEventNow 32 (keepsRegs_refl c)
  have hr : reported (mcReg R.SCRUB_STATUS_ADDR n).reg = false :=
    (Bool.not_eq_true' _).mp (Bool.and_eq_true_iff.1 (patrolReg_own n hn).2.2).1
  exact ⟨_, hm, (flag_of_keepsRegs (f := mcReg R.SCRUB_STATUS_WAITING n) hk hr).trans hcw,
    (flag_of_keepsRegs (f := mcReg R.SCRUB_STATUS_UE n) hk hr).trans hcu, (fld_of_keepsRegs hk hr).trans hca,
    (of_bare (fun d => (d.chan n).patrol) (fun _ => rfl) (bare_errEventNow c 32)).trans hcp⟩

end

/-! ### What software writes to the patrol -/

/-- The layout of a patrol's control register. -/
def scrubSpec : RegSpec := ⟨0x1000018, [(0x40000, 16)], [⟨R.SCRUB_CTL_EN, .rw, 1, true, false⟩, ⟨R.SCRUB_CTL_PERIOD, .rw, 0x28, true, false⟩,
  ⟨R.SCRUB_CTL_REWRITE, .wo, 0, false, false⟩, ⟨R.SCRUB_CTL_SKIP, .wo, 0, false, false⟩]⟩

theorem regAt_scrub : ∀ n < 16, regAt (0x1000018 + 0x40000 * n) = some scrubSpec := by decide +kernel

theorem lineAtLocal_oneReg {d e : Dev} {off : Nat} (h : oneReg off d e) (ho : 0x1000000 ≤ off) (n a : Nat) : e.lineAtLocal n a = d.lineAtLocal n a := by
  have low {f : Field} (hf : f.reg < 0x1000000) : e.fld f = d.fld f := fld_oneReg h (by omega)
  have hev : e.evac = d.evac := of_bare (·.evac) (fun _ => rfl) h.1
  have hself : e.self = d.self := low (by decide)
  have hmc {k : Nat} (hk : k < 16) : e.slotMc k = d.slotMc k := low (by
    change R.CH_MAP_MC.reg + 8 * k < _
    rw [show R.CH_MAP_MC.reg = 0x5000 from rfl]
    omega)
  have hval {k : Nat} (hk : k < 16) : e.flag (R.CH_MAP_VALID.at (8 * k)) = d.flag (R.CH_MAP_VALID.at (8 * k)) := congrArg (· != 0) (low (by
    change R.CH_MAP_VALID.reg + 8 * k < _
    rw [show R.CH_MAP_VALID.reg = 0x5000 from rfl]
    omega))
  have hslot : e.mcSlot n = d.mcSlot n := by
    unfold Dev.mcSlot
    refine List.find?_congr fun k hk => ?_
    rw [hmc (List.mem_range.1 hk), hval (List.mem_range.1 hk)]
  have hways : e.ways = d.ways := by
    unfold Dev.ways Dev.waysLog
    rw [low (f := R.MEM_IL_WAYS) (by decide)]
  have hline (k q : Nat) : e.lineOfGranule k q = d.lineOfGranule k q := by
    have hself8 : d.self < 8 := getF_lt _ _ 3
    unfold Dev.lineOfGranule
    rw [hways, hself, low (f := R.HOME_BASE_ADDR.at (8 * d.self)) (by
      change R.HOME_BASE_ADDR.reg + 8 * d.self < _
      rw [show R.HOME_BASE_ADDR.reg = 0x100 from rfl]
      omega)]
  have hsv (k : Nat) : e.survivors k = d.survivors k := by
    unfold Dev.survivors
    rw [hways]
  have hst : e.fld R.MEM_IL_RET_STATE = d.fld R.MEM_IL_RET_STATE := low (by decide)
  have hun (k q : Nat) : e.unmoved k q = d.unmoved k q := by
    unfold Dev.unmoved
    rw [hev, hst]
  unfold Dev.lineAtLocal
  rw [hslot, low (f := R.MEM_IL_U_GIB) (by decide), hst, low (f := R.MEM_IL_RET_SLOT) (by decide)]
  simp only [hsv, hline, hun]

section
variable {s : State} {req : Requester} {n : Nat} (hr : reqOk req = true) (hn : n < 16)

/-- The patrol of a channel goes on. -/
def patrolFreed (d : Dev) (n : Nat) : Dev :=
  ((d.setFld (mcReg R.SCRUB_STATUS_WAITING n) 0).setFld (mcReg R.SCRUB_STATUS_UE n) 0).patrolNext n

include hn in
theorem patrolFreed_spec (d : Dev) : (patrolFreed d n).flag (mcReg R.SCRUB_STATUS_WAITING n) = false ∧
    ((patrolFreed d n).chan n).patrol = patrolAfter d n (d.chan n).patrol ∧ (patrolFreed d n).poisoned = d.poisoned := by
  obtain ⟨a, ha⟩ : ∃ a, d.setFld (mcReg R.SCRUB_STATUS_WAITING n) 0 = a := ⟨_, rfl⟩
  have haw : a.flag (mcReg R.SCRUB_STATUS_WAITING n) = false := ha ▸ flag_setFld_zero d _
    (show R.SCRUB_STATUS_WAITING.lo + R.SCRUB_STATUS_WAITING.width ≤ 64 by decide)
  obtain ⟨b, hb⟩ : ∃ b, a.setFld (mcReg R.SCRUB_STATUS_UE n) 0 = b := ⟨_, rfl⟩
  have hbw : b.flag (mcReg R.SCRUB_STATUS_WAITING n) = false := (hb ▸ flag_setFld_apart a (mcReg R.SCRUB_STATUS_UE n) (mcReg R.SCRUB_STATUS_WAITING n) 0
    (show R.SCRUB_STATUS_UE.lo + R.SCRUB_STATUS_UE.width ≤ 64 by decide)
    (.inl (show R.SCRUB_STATUS_WAITING.lo + R.SCRUB_STATUS_WAITING.width ≤ R.SCRUB_STATUS_UE.lo by decide))).trans haw
  have hbb : bare b = bare d := (hb ▸ bare_setFld a _ _).trans (ha ▸ bare_setFld d _ _)
  have hbc : b.chan n = d.chan n := of_bare (·.chan n) (fun _ => rfl) hbb
  have hcap : b.fld (mcReg R.MC_CFG_CAP_GIB n) = d.fld (mcReg R.MC_CFG_CAP_GIB n) := by
    have hne : (mcReg R.MC_CFG_CAP_GIB n).reg ≠ (mcReg R.SCRUB_STATUS_UE n).reg := by
      rw [mcReg_reg, mcReg_reg, show R.MC_CFG_CAP_GIB.reg = 0x1000008 from rfl, show R.SCRUB_STATUS_UE.reg = 0x1000020 from rfl]
      omega
    exact (hb ▸ fld_setFld_reg a (mcReg R.SCRUB_STATUS_UE n) (mcReg R.MC_CFG_CAP_GIB n) 0 hne).trans
      (ha ▸ fld_setFld_reg d (mcReg R.SCRUB_STATUS_WAITING n) (mcReg R.MC_CFG_CAP_GIB n) 0 hne)
  obtain ⟨h1, -, h3, -, h5⟩ := patrolNext_spec b n
  have he : patrolFreed d n = b.patrolNext n := by
    unfold patrolFreed
    rw [ha, hb]
  have hpa : patrolAfter b n (d.chan n).patrol = patrolAfter d n (d.chan n).patrol := by
    unfold patrolAfter Dev.patrolLines
    rw [hcap]
  rw [hbc, hpa] at h1
  rw [he]
  exact ⟨h5.trans hbw, h1, h3.trans (of_bare (·.poisoned) (fun _ => rfl) hbb)⟩

variable (hw : s.dev.flag (mcReg R.SCRUB_STATUS_WAITING n) = true)
include hr hn hw

theorem scrubWrite_frees {v : Word} (h : v.getLsbD 17 = true ∨ v.getLsbD 18 = true) : ∃ x, oneReg (mcReg R.SCRUB_CTL_EN n).reg s.dev x ∧
    s.dev.scrubWrite n v = patrolFreed (if v.getLsbD 17 then x.scrubLine n (s.dev.flag (mcReg R.SCRUB_STATUS_UE n)) else x) n := by
  have hat : regAt (mcReg R.SCRUB_CTL_EN n).reg = some scrubSpec := regAt_scrub n hn
  have hne : (mcReg R.SCRUB_CTL_EN n).reg ∉ eventRegs := by
    have hb : ∀ n < 16, (mcReg R.SCRUB_CTL_EN n).reg ∉ eventRegs := by decide
    exact hb n hn
  refine ⟨s.dev.writeReg (mcReg R.SCRUB_CTL_EN n).reg v, ⟨bare_writeReg_plain v hat hne, fun k hk => reg_writeReg_other v hat hne hk⟩, ?_⟩
  have hst : (mcReg R.SCRUB_STATUS_WAITING n).reg ≠ (mcReg R.SCRUB_CTL_EN n).reg := by
    rw [mcReg_reg, mcReg_reg, show R.SCRUB_STATUS_WAITING.reg = 0x1000020 from rfl, show R.SCRUB_CTL_EN.reg = 0x1000018 from rfl]
    omega
  have h1 : (s.dev.writeReg (mcReg R.SCRUB_CTL_EN n).reg v).flag (mcReg R.SCRUB_STATUS_WAITING n) = true :=
    (congrArg (fun w => R.SCRUB_STATUS_WAITING.get w != 0) (reg_writeReg_other v hat hne hst)).trans hw
  have h2 : (s.dev.writeReg (mcReg R.SCRUB_CTL_EN n).reg v).flag (mcReg R.SCRUB_STATUS_UE n) = s.dev.flag (mcReg R.SCRUB_STATUS_UE n) :=
    congrArg (fun w => R.SCRUB_STATUS_UE.get w != 0) (reg_writeReg_other v hat hne hst)
  unfold Dev.scrubWrite
  dsimp only
  rw [h1, h2, bitOf_eq_getLsbD, bitOf_eq_getLsbD, if_pos (by rw [Bool.true_and, Bool.or_eq_true]; exact h)]
  rfl

omit hr hw in
theorem patrolAfter_scrubbed {x : Dev} (hx : oneReg (mcReg R.SCRUB_CTL_EN n).reg s.dev x) : patrolAfter x n (x.chan n).patrol =
    patrolAfter s.dev n (s.dev.chan n).patrol := by
  have hc : x.chan n = s.dev.chan n := of_bare (·.chan n) (fun _ => rfl) hx.1
  unfold patrolAfter Dev.patrolLines
  rw [hc, fld_oneReg hx (f := mcReg R.MC_CFG_CAP_GIB n) (by
    rw [mcReg_reg, mcReg_reg, show R.MC_CFG_CAP_GIB.reg = 0x1000008 from rfl, show R.SCRUB_CTL_EN.reg = 0x1000018 from rfl]
    omega)]

theorem scrubRewrite_frees {v : Word} (h : v.getLsbD 17 = true) : MakesSome (.scrubRewrite req n v) s fun e =>
    e.flag (mcReg R.SCRUB_STATUS_WAITING n) = false ∧ (e.chan n).patrol = patrolAfter s.dev n (s.dev.chan n).patrol ∧
      ∀ g, s.dev.lineAtLocal n (64 * (s.dev.chan n).patrol) = some g →
        e.isPoisoned g = (s.dev.isPoisoned g || s.dev.flag (mcReg R.SCRUB_STATUS_UE n)) := by
  obtain ⟨x, hx, he⟩ := scrubWrite_frees hr hn hw (.inl h)
  obtain ⟨u, hu⟩ : ∃ u, s.dev.flag (mcReg R.SCRUB_STATUS_UE n) = u := ⟨_, rfl⟩
  rw [if_pos h, hu] at he
  obtain ⟨s1, s2, -⟩ := scrubLine_spec x n u
  obtain ⟨h1, h2, h3⟩ := patrolFreed_spec hn (x.scrubLine n u)
  have hpa : patrolAfter (x.scrubLine n u) n ((x.scrubLine n u).chan n).patrol = patrolAfter x n (x.chan n).patrol := by
    unfold patrolAfter Dev.patrolLines Dev.chan
    rw [fld_of_regs s1, s2]
  refine ⟨_, dev_makes (execScrubRewrite.eq_def ..) (by rw [hr, mcOk, decide_eq_true hn]; rfl) he, h1,
    h2.trans (hpa.trans (patrolAfter_scrubbed hn hx)), fun g hg => ?_⟩
  have hxc : x.chan n = s.dev.chan n := of_bare (·.chan n) (fun _ => rfl) hx.1
  have hxp : x.poisoned = s.dev.poisoned := of_bare (·.poisoned) (fun _ => rfl) hx.1
  have hxl : x.lineAtLocal n (64 * (x.chan n).patrol) = some g := by
    rw [hxc, lineAtLocal_oneReg hx (Nat.le_trans (show 0x1000000 ≤ R.SCRUB_CTL_EN.reg by decide) (Nat.le_add_right _ _)), hg]
  have hpe : (x.scrubLine n u).poisoned = if u then SMap.set (fun _ => false) x.poisoned g true else x.poisoned := by
    unfold Dev.scrubLine
    rw [hxl]
    dsimp only
    split
    · rfl
    · rfl
  unfold Dev.isPoisoned
  rw [h3, hpe, hu]
  cases u with
  | false => rw [if_neg Bool.false_ne_true, hxp, Bool.or_false]
  | true => rw [if_pos rfl, smap_get_set_same, Bool.or_true]

theorem scrubSkip_frees {v : Word} (h7 : v.getLsbD 17 = false) (h : v.getLsbD 18 = true) : MakesSome (.scrubSkip req n v) s fun e =>
    e.flag (mcReg R.SCRUB_STATUS_WAITING n) = false ∧ (e.chan n).patrol = patrolAfter s.dev n (s.dev.chan n).patrol ∧
      e.poisoned = s.dev.poisoned := by
  obtain ⟨x, hx, he⟩ := scrubWrite_frees hr hn hw (.inr h)
  rw [h7, if_neg Bool.false_ne_true] at he
  obtain ⟨h1, h2, h3⟩ := patrolFreed_spec hn x
  exact ⟨_, dev_makes (execScrubSkip.eq_def ..) (by rw [hr, mcOk, decide_eq_true hn]; rfl) he, h1, h2.trans (patrolAfter_scrubbed hn hx),
    h3.trans (of_bare (·.poisoned) (fun _ => rfl) hx.1)⟩

end

theorem patrolScrub_hold : patrolScrub := by
  intro s n req hn hr d at' on p next
  exact ⟨fun hc => ⟨fun chk h => patrolScrub_off hn hc chk h, fun e0 h ha chk => patrolScrub_held hn hc chk h ha,
    fun e0 h ha => ⟨patrolScrub_clean hn hc h ha, fun h7 => patrolScrub_correctable hn hc h ha h7,
      fun h7 hp => patrolScrub_shown hn hc h ha h7 hp⟩⟩,
    fun hw v => ⟨fun h => scrubRewrite_frees hr hn hw h, fun h7 h => scrubSkip_frees hr hn hw h7 h⟩⟩

end Sys2Proof.Proofs
end

