-- ==== Sys2Proof/Proofs/Evacuation.lean ====
section
/-!
PROOFS. The evacuation of a memory channel and its retirement (R330 to R334).
-/

namespace Sys2Proof.Proofs

open Sys2Proof Sys2Proof.Machine Sys2Proof.Laws

/-! ### The start -/

theorem beginEvac_spec (d : Dev) (k : Nat) (u : Bool) : (d.beginEvac k u).evac = some ⟨k, u, 0, []⟩ ∧ (d.beginEvac k u).fenced = none ∧
    (d.fld R.MEM_IL_RET_STATE = 0 ∨ d.fld R.MEM_IL_RET_STATE = 3 → (d.beginEvac k u).fld R.MEM_IL_RET_STATE = 0) := by
  refine ⟨rfl, rfl, fun h => ?_⟩
  change (if d.fld R.MEM_IL_RET_STATE == 3 then d.setFld R.MEM_IL_RET_STATE 0 else d).fld R.MEM_IL_RET_STATE = 0
  rcases h with h | h
  · rw [h, if_neg (by decide), h]
  · rw [h, if_pos (by decide), fld_setFld_lt d (by decide) (by decide)]

theorem evacStart_begins {s : State} {req : Requester} {v : Word} (hr : reqOk req = true) (hv : v.getLsbD 20 = true) (h4 : s.dev.duty 4 = true)
    (hc : s.dev.flag R.EVAC_STATUS_CANDIDATE = true) (hm : s.dev.mayEvacuate = true) : MakesSome (.evacStart req v) s fun e =>
      e.evac = some ⟨s.dev.fld R.EVAC_STATUS_CAND_SLOT, s.dev.fenced == some (s.dev.fld R.EVAC_STATUS_CAND_SLOT), 0, []⟩ ∧ e.fenced = none ∧
        e.fld R.MEM_IL_RET_STATE = 0 := by
  have hat : regAt R.EVAC_CTL_RATE.reg = some _ := rfl
  have hne : R.EVAC_CTL_RATE.reg ∉ eventRegs := by decide
  obtain ⟨x, hx⟩ : ∃ x, s.dev.writeReg R.EVAC_CTL_RATE.reg v = x := ⟨_, rfl⟩
  have hb : bare x = bare s.dev := hx ▸ bare_writeReg_plain v hat hne
  have ho {f : Field} (h : f.reg ≠ R.EVAC_CTL_RATE.reg) : x.fld f = s.dev.fld f := congrArg f.get (hx ▸ reg_writeReg_other v hat hne h)
  have hst := ho (f := R.MEM_IL_RET_STATE) (by decide)
  have hxm : x.mayEvacuate = s.dev.mayEvacuate := by
    unfold Dev.mayEvacuate Dev.ways Dev.waysLog Dev.flag
    rw [ho (f := R.MEM_IL_RESERVE_EN) (by decide), ho (f := R.MEM_IL_WAYS) (by decide), hst, of_bare (·.evac) (fun _ => rfl) hb]
  have hstate : x.fld R.MEM_IL_RET_STATE = 0 ∨ x.fld R.MEM_IL_RET_STATE = 3 := by
    rw [hst]
    have := (Bool.and_eq_true_iff.1 hm).2
    rwa [Bool.or_eq_true, beq_iff_eq, beq_iff_eq] at this
  have he : s.dev.evacWrite v = x.beginEvac (s.dev.fld R.EVAC_STATUS_CAND_SLOT) (s.dev.fenced == some (s.dev.fld R.EVAC_STATUS_CAND_SLOT)) := by
    unfold Dev.evacWrite
    dsimp only
    rw [hx, bitOf_eq_getLsbD, hv, show x.duty 4 = s.dev.duty 4 from congrArg (natBit · 4) (ho (f := R.DUTY_FUNC) (by decide)), h4,
      show x.flag R.EVAC_STATUS_CANDIDATE = s.dev.flag R.EVAC_STATUS_CANDIDATE from congrArg (· != 0) (ho (by decide)), hc, hxm, hm,
      ho (f := R.EVAC_STATUS_CAND_SLOT) (by decide), of_bare (·.fenced) (fun _ => rfl) hb]
    rfl
  obtain ⟨h1, h2, h3⟩ := beginEvac_spec x (s.dev.fld R.EVAC_STATUS_CAND_SLOT) (s.dev.fenced == some (s.dev.fld R.EVAC_STATUS_CAND_SLOT))
  exact ⟨_, dev_makes (execEvacStart.eq_def ..) hr he, h1, h2, h3 hstate⟩

/-! ### Without an evacuation -/

section
variable {s : State} (h : s.dev.evac = none)
include h

theorem evac_none : Gives .evacSwitch s s ∧ (s.dev.clocksOk = true → ∀ cs, Gives (.evacBackgroundMove cs) s s) ∧ Gives .evacComplete s s ∧
    Gives .channelRetire s s := by
  refine ⟨dev_makes (e := s.dev) (execEvacSwitch.eq_def ..) rfl ?_, fun hc cs => data_makes (e := s.dev) (execEvacBackgroundMove.eq_def ..) rfl hc ?_,
    dev_makes (e := s.dev) (execEvacComplete.eq_def ..) rfl ?_, dev_makes (e := s.dev) (execChannelRetire.eq_def ..) rfl ?_⟩
  all_goals rw [h]

end

/-! ### The steps of an evacuation -/

theorem dram_moveLine (d : Dev) (n g : Nat) (chk : ReadCheck) : (d.moveLine n g chk).dram = d.dram := by
  unfold Dev.moveLine
  extract_lets a x k y
  have hx : x.dram = d.dram := (served_checkRead d n a g chk).dram
  clear_value x
  split
  · have hy : y.dram = x.dram := (of_bare (·.dram) (fun _ => rfl) (bare_setFld (x.poisonLine g) _ _)).trans rfl
    clear_value y
    split
    · exact ((served_log y _).dram).trans (hy.trans hx)
    · exact hy.trans hx
  · exact hx

theorem dram_moveGranule (d : Dev) (slot q : Nat) (cs : List ReadCheck) : (d.moveGranule slot q cs).dram = d.dram := by
  have hf (xs : List Nat) (f : Dev → Nat → Dev) (h : ∀ d i, (f d i).dram = d.dram) (d : Dev) : (xs.foldl f d).dram = d.dram := by
    induction xs generalizing d with
    | nil => rfl
    | cons i xs ih =>
      rw [List.foldl_cons]
      exact (ih _).trans (h d i)
  unfold Dev.moveGranule
  extract_lets g n x
  have hx : x.dram = d.dram := hf _ _ (fun d i => dram_moveLine d n (g + i) _) d
  clear_value x
  exact (of_bare (·.dram) (fun _ => rfl) (bare_setFld x _ _)).trans hx

section
variable {s : State} {v : Evac} (he : s.dev.evac = some v) (hp : s.dev.phase = .running)
include he hp

theorem evacSwitch_switches (h0 : s.dev.fld R.MEM_IL_RET_STATE = 0) (hs : v.slot < 16) (hn : s.dev.slotMc v.slot < 16) :
    MakesSome .evacSwitch s fun e => e.fld R.MEM_IL_RET_STATE = 1 ∧ e.fld R.MEM_IL_RET_SLOT = v.slot ∧
      e.fld (mcReg R.MC_STATUS_STATE (s.dev.slotMc v.slot)) = 4 ∧ e.flag R.EVAC_STATUS_BUSY = true ∧ e.evac = s.dev.evac := by
  obtain ⟨n, hne⟩ : ∃ n, s.dev.slotMc v.slot = n := ⟨_, rfl⟩
  rw [hne] at hn ⊢
  obtain ⟨a, ha⟩ : ∃ a, s.dev.setFld R.MEM_IL_RET_SLOT v.slot = a := ⟨_, rfl⟩
  have ha1 : a.fld R.MEM_IL_RET_SLOT = v.slot := ha ▸ fld_setFld_lt s.dev (by decide) (show v.slot < 2 ^ 4 by exact hs)
  have ha2 {f : Field} (h : f.reg ≠ R.MEM_IL_RET_SLOT.reg) : a.fld f = s.dev.fld f := ha ▸ fld_setFld_reg s.dev _ _ _ h
  have hab : bare a = bare s.dev := ha ▸ bare_setFld s.dev _ _
  obtain ⟨b, hb⟩ : ∃ b, a.setFld R.MEM_IL_RET_STATE 1 = b := ⟨_, rfl⟩
  have hb1 : b.fld R.MEM_IL_RET_STATE = 1 := hb ▸ fld_setFld_lt a (by decide) (by decide)
  have hb2 : b.fld R.MEM_IL_RET_SLOT = v.slot := (hb ▸ fld_setFld_apart a R.MEM_IL_RET_STATE R.MEM_IL_RET_SLOT 1 (by decide) (by decide)).trans ha1
  have hb3 {f : Field} (h : f.reg ≠ R.MEM_IL_RET_SLOT.reg) : b.fld f = s.dev.fld f := (hb ▸ fld_setFld_reg a R.MEM_IL_RET_STATE _ _ h).trans (ha2 h)
  have hbb : bare b = bare s.dev := (hb ▸ bare_setFld a _ _).trans hab
  have hbn : b.slotMc v.slot = n := (hb3 (by
    change R.CH_MAP_MC.reg + 8 * v.slot ≠ _
    rw [show R.CH_MAP_MC.reg = 0x5000 from rfl, show R.MEM_IL_RET_SLOT.reg = 0x70 from rfl]
    omega)).trans hne
  obtain ⟨c, hc⟩ : ∃ c, b.setFld (mcReg R.MC_STATUS_STATE n) 4 = c := ⟨_, rfl⟩
  have hmc : (mcReg R.MC_STATUS_STATE n).reg = 0x1000000 + 0x40000 * n := rfl
  have hc1 : c.fld (mcReg R.MC_STATUS_STATE n) = 4 := hc ▸ fld_setFld_lt b (show R.MC_STATUS_STATE.lo + R.MC_STATUS_STATE.width ≤ 64 by decide)
    (show 4 < 2 ^ R.MC_STATUS_STATE.width by decide)
  have hc2 {f : Field} (h : f.reg < 0x1000000) : c.fld f = b.fld f := hc ▸ fld_setFld_reg b _ _ _ (by rw [hmc]; omega)
  have hcb : bare c = bare s.dev := (hc ▸ bare_setFld b _ _).trans hbb
  obtain ⟨e, hee⟩ : ∃ e, c.setFld R.EVAC_STATUS_BUSY 1 = e := ⟨_, rfl⟩
  have he1 : e.flag R.EVAC_STATUS_BUSY = true := hee ▸ flag_setFld_one c _ (by decide) (by decide)
  have he2 {f : Field} (h : f.reg ≠ R.EVAC_STATUS_BUSY.reg) : e.fld f = c.fld f := hee ▸ fld_setFld_reg c _ _ _ h
  have heb : bare e = bare s.dev := (hee ▸ bare_setFld c _ _).trans hcb
  refine ⟨e, dev_makes (execEvacSwitch.eq_def ..) rfl ?_, (he2 (by decide)).trans ((hc2 (by decide)).trans hb1),
    (he2 (by decide)).trans ((hc2 (by decide)).trans hb2), (he2 ?_).trans hc1, he1, of_bare (·.evac) (fun _ => rfl) heb⟩
  · dsimp only
    rw [he]
    dsimp only
    rw [hp, h0, if_pos (by decide), ha, hb, hbn, hc, hee]
  · rw [hmc, show R.EVAC_STATUS_BUSY.reg = 0x5108 from rfl]
    omega

theorem evacBackgroundMove_moves (hc : s.dev.clocksOk = true) (h1 : s.dev.fld R.MEM_IL_RET_STATE = 1) (h2 : s.dev.flag R.EVAC_CTL_PAUSE = false)
    (hq : skipMoved v.moved v.moved.length v.next < s.dev.granules) (cs : List ReadCheck) :
    MakesSome (.evacBackgroundMove cs) s fun e => e.evac = some { v with
        next := skipMoved v.moved v.moved.length v.next + 1
        moved := v.moved.filter fun x => decide (skipMoved v.moved v.moved.length v.next < x) } ∧ e.dram = s.dev.dram := by
  have hd := dram_moveGranule s.dev v.slot (skipMoved v.moved v.moved.length v.next) cs
  obtain ⟨x, hx⟩ : ∃ x, s.dev.moveGranule v.slot (skipMoved v.moved v.moved.length v.next) cs = x := ⟨_, rfl⟩
  rw [hx] at hd
  refine ⟨{ x with evac := some { v with
      next := skipMoved v.moved v.moved.length v.next + 1
      moved := v.moved.filter fun x => decide (skipMoved v.moved v.moved.length v.next < x) } },
    data_makes (execEvacBackgroundMove.eq_def ..) rfl hc ?_, rfl, hd⟩
  dsimp only
  rw [he]
  dsimp only
  rw [hp, h1, h2, decide_eq_true hq, if_pos (by decide), hx]

omit hp in
theorem evacBackgroundMove_paused (hc : s.dev.clocksOk = true) (h2 : s.dev.flag R.EVAC_CTL_PAUSE = true) (cs : List ReadCheck) :
    Gives (.evacBackgroundMove cs) s s := by
  refine data_makes (e := s.dev) (execEvacBackgroundMove.eq_def ..) rfl hc ?_
  dsimp only
  rw [he]
  dsimp only
  rw [h2, Bool.not_true, Bool.and_false, Bool.false_and, if_neg Bool.false_ne_true]

theorem evacComplete_ends (h1 : s.dev.fld R.MEM_IL_RET_STATE = 1) (hq : s.dev.granules ≤ skipMoved v.moved v.moved.length v.next) :
    MakesSome .evacComplete s fun e => e.fld R.MEM_IL_RET_STATE = 2 ∧ e.flag R.EVAC_STATUS_BUSY = false ∧ e.evac = s.dev.evac := by
  obtain ⟨a, ha⟩ : ∃ a, s.dev.setFld R.MEM_IL_RET_STATE 2 = a := ⟨_, rfl⟩
  have ha1 : a.fld R.MEM_IL_RET_STATE = 2 := ha ▸ fld_setFld_lt s.dev (by decide) (by decide)
  have hab : bare a = bare s.dev := ha ▸ bare_setFld s.dev _ _
  refine ⟨a.setFld R.EVAC_STATUS_BUSY 0, dev_makes (execEvacComplete.eq_def ..) rfl ?_, (fld_setFld_reg a _ _ _ (by decide)).trans ha1,
    flag_setFld_zero a _ (by decide), of_bare (·.evac) (fun _ => rfl) ((bare_setFld a _ _).trans hab)⟩
  rw [he]
  dsimp only
  rw [hp, h1, Dev.allMoved, decide_eq_true hq, if_pos (by decide), ha]

theorem evacComplete_waits (hq : skipMoved v.moved v.moved.length v.next < s.dev.granules) : Gives .evacComplete s s := by
  refine dev_makes (e := s.dev) (execEvacComplete.eq_def ..) rfl ?_
  rw [he]
  dsimp only
  rw [Dev.allMoved, decide_eq_false (Nat.not_le.2 hq), Bool.and_false, if_neg Bool.false_ne_true]

theorem channelRetire_retires (h2 : s.dev.fld R.MEM_IL_RET_STATE = 2) (hn : s.dev.slotMc v.slot < 16) :
    MakesSome .channelRetire s fun e => e.evac = none ∧ e.fld (mcReg R.MC_STATUS_STATE (s.dev.slotMc v.slot)) = 5 ∧
      (e.unitAt 0 (s.dev.slotMc v.slot)).retired = true := by
  obtain ⟨n, hne⟩ : ∃ n, s.dev.slotMc v.slot = n := ⟨_, rfl⟩
  rw [hne] at hn ⊢
  have hrep : reported (mcReg R.MC_STATUS_STATE n).reg = false ∧ (mcReg R.MC_STATUS_STATE n).reg ≠ R.REPAIR_STATUS_USED.reg := by
    have hb : ∀ n < 16, reported (mcReg R.MC_STATUS_STATE n).reg = false ∧ (mcReg R.MC_STATUS_STATE n).reg ≠ R.REPAIR_STATUS_USED.reg := by decide
    exact hb n hn
  obtain ⟨a, ha⟩ : ∃ a, s.dev.setFld (mcReg R.MC_STATUS_STATE n) 5 = a := ⟨_, rfl⟩
  have ha1 : a.fld (mcReg R.MC_STATUS_STATE n) = 5 := ha ▸ fld_setFld_lt s.dev (show R.MC_STATUS_STATE.lo + R.MC_STATUS_STATE.width ≤ 64 by decide)
    (show 5 < 2 ^ R.MC_STATUS_STATE.width by decide)
  obtain ⟨u, hu⟩ : ∃ u, a.unitAt 0 n = u := ⟨_, rfl⟩
  obtain ⟨b, hb⟩ : ∃ b, a.setUnit 0 n { u with retired := true, candidate := false } = b := ⟨_, rfl⟩
  have hb1 : b.regs = a.regs := hb ▸ rfl
  have hb2 : (b.unitAt 0 n).retired = true := by
    rw [← hb, unitAt_setUnit]
  obtain ⟨r, hr⟩ : ∃ r : Rep, ({ source := 1, inst := n, cls := 4, action := 3, bucket := u.bucket } : Rep) = r := ⟨_, rfl⟩
  obtain ⟨c, hc⟩ : ∃ c, b.log r = c := ⟨_, rfl⟩
  have hc1 : c.fld (mcReg R.MC_STATUS_STATE n) = 5 := (hc ▸ fld_of_keepsRegs (keepsRegs_log b r) hrep.1).trans ((fld_of_regs hb1 _).trans ha1)
  have hc2 : (c.unitAt 0 n).retired = true := (hc ▸ of_quiet (fun d => (d.unitAt 0 n).retired) (fun _ => rfl) (quiet_log b r)).trans hb2
  obtain ⟨x, hx⟩ : ∃ x : Dev, ({ c with evac := none } : Dev) = x := ⟨_, rfl⟩
  have hx1 : x.fld (mcReg R.MC_STATUS_STATE n) = 5 := (hx ▸ rfl : x.fld (mcReg R.MC_STATUS_STATE n) = c.fld (mcReg R.MC_STATUS_STATE n)).trans hc1
  have hx2 : (x.unitAt 0 n).retired = true := (hx ▸ rfl : (x.unitAt 0 n).retired = (c.unitAt 0 n).retired).trans hc2
  have hx3 : x.evac = none := hx ▸ rfl
  have hq := addRepair_quiet x (retiredUnit c 0 n v.slot) 1
  refine ⟨x.addRepair (retiredUnit c 0 n v.slot) 1, dev_makes (execChannelRetire.eq_def ..) rfl ?_, ?_, ?_, ?_⟩
  · dsimp only
    rw [he]
    dsimp only
    rw [hp, h2, if_pos (by decide), hne, ha, hu, hb, hr, hc, hx]
  · exact ((of_quiet (·.evac) (fun _ => rfl) hq).trans rfl).trans hx3
  · exact (congrArg (mcReg R.MC_STATUS_STATE n).get (reg_addRepair x _ 1 hrep.1 hrep.2)).trans hx1
  · exact ((of_quiet (fun d => (d.unitAt 0 n).retired) (fun _ => rfl) hq).trans rfl).trans hx2

end

theorem channelEvacuation_hold : channelEvacuation := by
  intro s d ret
  exact ⟨fun req v hr hv h4 hc hm => evacStart_begins hr hv h4 hc hm, fun h => evac_none h,
    fun v he hp => ⟨fun h0 hs hn => evacSwitch_switches he hp h0 hs hn, fun hc h1 h2 hq cs => evacBackgroundMove_moves he hp hc h1 h2 hq cs,
      fun hc h2 cs => evacBackgroundMove_paused he hc h2 cs, fun h1 hq => evacComplete_ends he hp h1 hq, fun _ hq => evacComplete_waits he hp hq,
      fun h2 hn => channelRetire_retires he hp h2 hn⟩⟩

/-- Settles O46: the patrol's steps keep what its line needs, and each step of an evacuation writes registers of its own. -/
theorem patrolAndEvacuation : Obligations.PatrolAndEvacuation := ⟨patrolScrub_hold, channelEvacuation_hold⟩

end Sys2Proof.Proofs
end

