-- ==== Sys2Proof/Proofs/ManagementCommands.lean ====
section
/-!
PROOFS. The management port and the management commands (R506 to R512): what serving a command on a channel does, once for every
command, and the reply of each.
-/

namespace Sys2Proof.Proofs

open Sys2Proof Sys2Proof.Machine Sys2Proof.Laws

section
variable {c : Instr} {s : State} {ch : Channel} {code : Nat} {f : Dev → Reply}

/-! ### Serving a command on a channel -/

theorem carriesMore (h : (ch == .pfMailbox) = false) : ¬(ch == .pfMailbox && code != 0x40) = true := by
  rw [h, Bool.false_and]
  exact Bool.false_ne_true

/-- The reply of a command that fiddlehead does not keep from the steward. -/
theorem gated_passes {d : Dev} (h : (d.phase != .booting || code == 0x01 || code == 0x40 || code == 0x42) = true) (r q : Reply) :
    (if (d.phase == .booting && !(code == 0x01 || code == 0x40 || code == 0x42)) = true then r else q) = q :=
  if_neg fun hk => by
    rw [Bool.and_eq_true, Bool.not_eq_true'] at hk
    obtain ⟨h1, h2⟩ := hk
    rw [Bool.or_assoc, Bool.or_assoc, ← Bool.or_assoc (code == 0x01), h2, Bool.or_false, bne, h1] at h
    exact Bool.false_ne_true h

theorem manage_served {d : Dev} (h : mayManage d ch code = true) (f : Dev → Reply) :
    d.manage ch code f = managed ch (f d).status (f d).resp (f d).dev := by
  unfold mayManage at h
  rw [Bool.and_eq_true, Bool.and_eq_true] at h
  obtain ⟨⟨hp, hg⟩, hw⟩ := h
  unfold Dev.manage
  cases ch with
  | mctp =>
    rw [if_neg (carriesMore rfl)]
    dsimp only
    rw [if_pos hp, gated_passes hg]
    rfl
  | mailbox =>
    rw [if_neg (carriesMore rfl)]
    dsimp only [Dev.serve] at hw ⊢
    rw [if_neg (by rw [hw]; decide), if_neg (by rw [hp]; decide), gated_passes hg]
    rfl
  | pfMailbox =>
    rw [Bool.and_eq_true, beq_iff_eq] at hw
    obtain ⟨rfl, hw⟩ := hw
    rw [if_neg (by decide)]
    dsimp only [Dev.serve]
    rw [if_neg (by rw [hw]; decide), if_neg (by rw [hp]; decide), gated_passes hg]
    rfl

theorem answers_of {st : Nat} {resp : List Byte} {e : Dev} (hc : exec c s = onDev true s fun d => d.manage ch code f)
    (hr : f s.dev = ⟨st, resp, e⟩) : Sys2Proof.answers c s ch code st resp e := fun h =>
  dev_makes hc rfl (by rw [manage_served h, hr])

theorem manage_mailbox (d : Dev) : d.manage .mailbox code f = d.serve .stw code d.portAnswers fun _ d =>
    if d.phase == .booting && !(code == 0x01 || code == 0x40 || code == 0x42) then d.refuse stBadCommand else f d := by
  unfold Dev.manage
  rw [if_neg (carriesMore rfl)]

theorem manage_mctp_silent {d : Dev} (h : d.portAnswers = false) : d.manage .mctp code f = d := by
  unfold Dev.manage
  rw [if_neg (carriesMore rfl)]
  dsimp only
  rw [if_neg (by rw [h]; exact Bool.false_ne_true)]

/-- In fiddlehead the management port answers a command that is not known there with a bad command. -/
theorem manage_mctp_unknown {d : Dev} (hb : d.phase = .booting) (h1 : code ≠ 0x01) (h2 : code ≠ 0x40) (h3 : code ≠ 0x42) :
    d.manage .mctp code f = managed .mctp 3 [] d := by
  unfold Dev.manage
  rw [if_neg (carriesMore rfl)]
  dsimp only
  rw [if_pos (by rw [Dev.portAnswers, hb]; exact Bool.or_true _),
    if_pos (by rw [hb, beq_eq_false_iff_ne.2 h1, beq_eq_false_iff_ne.2 h2, beq_eq_false_iff_ne.2 h3]; decide)]
  rfl

theorem unservedRules_of {c : Channel → Instr} (hc : ∀ ch, ∃ f : Dev → Reply, exec (c ch) s = onDev true s fun d => d.manage ch code f) :
    unservedRules c s code := by
  obtain ⟨f, hm⟩ := hc .mailbox
  obtain ⟨k, hk⟩ := hc .mctp
  refine ⟨fun hw => ?_, fun hp hw => ?_, fun hp => ?_, fun hb h1 h2 h3 => ?_⟩
  · exact dev_makes hm rfl ((manage_mailbox _).trans (if_pos (by rw [hw]; rfl)))
  · exact dev_makes hm rfl ((manage_mailbox _).trans (by rw [Dev.serve, if_neg (by rw [hw]; decide), if_pos (by rw [hp]; rfl)]; rfl))
  · exact dev_makes hk rfl (manage_mctp_silent hp)
  · exact dev_makes hk rfl (manage_mctp_unknown hb h1 h2 h3)

end

/-! ### The configuration store and the records -/

section
variable {s : State} {ch : Channel} {k : Nat}

theorem cfgRead_hold : (k ∈ cfgKeys → Sys2Proof.answers (.cfgRead ch k) s ch 0x10 0 (s.dev.cfgItem k) s.dev) ∧
    (k ∉ cfgKeys → Sys2Proof.answers (.cfgRead ch k) s ch 0x10 3 [] s.dev) :=
  ⟨fun h => answers_of (execCfgRead.eq_def ..) (if_pos (List.contains_iff_mem.2 h)),
    fun h => answers_of (execCfgRead.eq_def ..) (if_neg fun hk => h (List.contains_iff_mem.1 hk))⟩

theorem cfgWrite_unknown {v : List Byte} (h : k ∉ cfgKeys) : Sys2Proof.answers (.cfgWrite ch k v) s ch 0x11 3 [] s.dev :=
  answers_of (execCfgWrite.eq_def ..) (if_pos (by rw [Bool.not_eq_true', ← Bool.not_eq_true, List.contains_iff_mem]; exact h))

theorem cfgWrite_known {v : List Byte} (h : k ∈ cfgKeys) {st : Nat} {e : Dev}
    (hr : (if (k == 0x0200 || (k == 0x0401 && (s.dev.locked || ch == .mctp))) = true then s.dev.refuse stLocked
      else if (decide (4088 < v.length) || (k == 0x0400 && !(decide (10000 ≤ leNat v) && decide (leNat v ≤ 10000000)))) = true then
        s.dev.refuse stBadCommand
      else (s.dev.cfgStore (SMap.set (fun _ => []) s.dev.cfgNow k v)).done) = ⟨st, [], e⟩) :
    Sys2Proof.answers (.cfgWrite ch k v) s ch 0x11 st [] e :=
  answers_of (execCfgWrite.eq_def ..) ((if_neg (by rw [List.contains_iff_mem.2 h]; decide)).trans hr)

theorem cfgWrite_locked {v : List Byte} (h : k = 0x0200 ∨ k = 0x0401 ∧ (s.dev.locked = true ∨ ch = .mctp)) :
    Sys2Proof.answers (.cfgWrite ch k v) s ch 0x11 9 [] s.dev := by
  refine cfgWrite_known ?_ (if_pos ?_)
  · rcases h with rfl | ⟨rfl, -⟩
    · decide
    · decide
  · rw [Bool.or_eq_true, Bool.and_eq_true, Bool.or_eq_true, beq_iff_eq, beq_iff_eq, beq_iff_eq]
    exact h

theorem cfgWrite_stores {v : List Byte} (h : k ∈ cfgKeys) (h2 : k ≠ 0x0200) (h3 : k ≠ 0x0401 ∨ (s.dev.locked = false ∧ ch ≠ .mctp))
    (h4 : k ≠ 0x0400 ∨ 10000 ≤ leNat v ∧ leNat v ≤ 10000000) (h5 : v.length ≤ 4088) :
    Sys2Proof.answers (.cfgWrite ch k v) s ch 0x11 0 [] (s.dev.cfgStore (SMap.set (fun _ => []) s.dev.cfgNow k v)) := by
  refine cfgWrite_known h ((if_neg ?_).trans (if_neg ?_))
  · rw [Bool.or_eq_true, Bool.and_eq_true, Bool.or_eq_true, beq_iff_eq, beq_iff_eq, beq_iff_eq]
    rintro (hk | ⟨hk, hl | hl⟩)
    · exact h2 hk
    · exact h3.elim (· hk) fun hn => Bool.false_ne_true (hn.1.symm.trans hl)
    · exact h3.elim (· hk) fun hn => hn.2 hl
  · rw [Bool.or_eq_true, Bool.and_eq_true, Bool.not_eq_true', Bool.and_eq_false_iff, decide_eq_true_iff, beq_iff_eq,
      decide_eq_false_iff_not, decide_eq_false_iff_not]
    rintro (hl | ⟨hk, hv⟩)
    · omega
    · rcases h4 with hn | hn
      · exact hn hk
      · omega

theorem cfgDefaults_hold : (ch = .mctp → s.dev.locked = true → Sys2Proof.answers (.cfgDefaults ch) s ch 0x12 9 [] s.dev) ∧
    (ch ≠ .mctp ∨ s.dev.locked = false → Sys2Proof.answers (.cfgDefaults ch) s ch 0x12 0 [] { s.dev with fw := { s.dev.fw with
      cfg := []
      cfgGen := s.dev.fw.cfgGen + 1
      cfgSchema := s.dev.fw.schema
      snapshot := none } }) := by
  refine ⟨fun h hl => answers_of (execCfgDefaults.eq_def ..) (if_pos ?_), fun h => answers_of (execCfgDefaults.eq_def ..) (if_neg ?_)⟩
  · rw [hl, h]
    rfl
  · rw [Bool.and_eq_true, beq_iff_eq]
    rintro ⟨hc, hl⟩
    exact h.elim (· hc) fun hn => Bool.false_ne_true (hn.symm.trans hl)

theorem errRead_hold {first n : Nat} :
    (1 ≤ n → n ≤ 63 → first < 1024 → Sys2Proof.answers (.errRead ch first n) s ch 0x20 0
      ((List.range n).flatMap fun i => s.dev.recordBytes ((first + i) % 1024)) s.dev) ∧
    (n = 0 ∨ 63 < n ∨ 1024 ≤ first → Sys2Proof.answers (.errRead ch first n) s ch 0x20 3 [] s.dev) := by
  have hb : (n == 0 || decide (63 < n) || decide (1024 ≤ first)) = true ↔ n = 0 ∨ 63 < n ∨ 1024 ≤ first := by
    rw [Bool.or_eq_true, Bool.or_eq_true, beq_iff_eq, decide_eq_true_iff, decide_eq_true_iff, or_assoc]
  exact ⟨fun h1 h2 h3 => answers_of (execErrRead.eq_def ..) (if_neg (by rw [hb]; omega)),
    fun h => answers_of (execErrRead.eq_def ..) (if_pos (hb.2 h))⟩

theorem tlmRead_hold {first : Word} {n : Nat} :
    (1 ≤ n → n ≤ 31 → Sys2Proof.answers (.tlmRead ch first n) s ch 0x21 0
      ((List.range n).flatMap fun i => SMap.get (fun _ => leBytes 128 0) s.dev.fw.tlm ((first.toNat + i) % 4096)) s.dev) ∧
    (n = 0 ∨ 31 < n → Sys2Proof.answers (.tlmRead ch first n) s ch 0x21 3 [] s.dev) := by
  have hb : (n == 0 || decide (31 < n)) = true ↔ n = 0 ∨ 31 < n := by rw [Bool.or_eq_true, beq_iff_eq, decide_eq_true_iff]
  exact ⟨fun h1 h2 => answers_of (execTlmRead.eq_def ..) (if_neg (by rw [hb]; omega)),
    fun h => answers_of (execTlmRead.eq_def ..) (if_pos (hb.2 h))⟩

theorem repairClear_hold {i : Nat} {r : Repair} (hr : s.dev.repairs[i]? = some r) :
    (r.fused = false → Sys2Proof.answers (.repairClear ch i) s ch 0x31 0 []
      { s.dev with repairs := s.dev.repairs.set i { r with typ := 4 } }.showRepairs) ∧
    (r.fused = true → Sys2Proof.answers (.repairClear ch i) s ch 0x31 4 [] s.dev) := by
  refine ⟨fun h => answers_of (execRepairClear.eq_def ..) ?_, fun h => answers_of (execRepairClear.eq_def ..) ?_⟩
  · rw [hr]
    exact if_neg (by rw [h]; exact Bool.false_ne_true)
  · rw [hr]
    exact if_pos h

end

/-! ### MCTP control -/

section
variable {s : State}

theorem silentPort_hold (h : s.dev.portAnswers = false) (a b : BitVec 7) : Gives (.entdaa a) s s ∧ Gives (.setdasa b a) s s :=
  ⟨dev_makes (execEntdaa.eq_def ..) rfl (if_neg (by rw [h]; exact Bool.false_ne_true)),
    dev_makes (execSetdasa.eq_def ..) rfl (if_neg (by rw [h, Bool.false_and, Bool.false_and]; exact Bool.false_ne_true))⟩

theorem setdasa_hold (h : s.dev.portAnswers = true) (a b : BitVec 7) :
    (s.dev.chain.enumerated = true → b.toNat = 0x30 + s.dev.self →
      Makes (.setdasa b a) s { s.dev with fw := { s.dev.fw with i3cAddr := some a } }) ∧
    (s.dev.chain.enumerated = false ∨ b.toNat ≠ 0x30 + s.dev.self → Gives (.setdasa b a) s s) := by
  have hb : (s.dev.portAnswers && s.dev.chain.enumerated && b.toNat == 0x30 + s.dev.self) = true ↔
      s.dev.chain.enumerated = true ∧ b.toNat = 0x30 + s.dev.self := by
    rw [h, Bool.true_and, Bool.and_eq_true, beq_iff_eq]
  refine ⟨fun h1 h2 => dev_makes (execSetdasa.eq_def ..) rfl (if_pos (hb.2 ⟨h1, h2⟩)),
    fun hn => dev_makes (execSetdasa.eq_def ..) rfl (if_neg (mt hb.1 ?_))⟩
  rintro ⟨h1, h2⟩
  exact hn.elim (fun h0 => Bool.false_ne_true (h0.symm.trans h1)) (· h2)

end

/-- Settles O52: serving a command on a channel is one rule, and each command's reply is read off its definition. -/
theorem managementCommands : Obligations.ManagementCommands := by
  intro s ch
  dsimp only
  refine ⟨silentPort_hold, fun h => ⟨fun a => ?_, setdasa_hold h, fun e => ?_, ?_, ?_, ?_⟩, ?_, ?_, ?_, ?_, fun k => cfgRead_hold,
    fun k v => ⟨?_, ?_, cfgWrite_unknown, cfgWrite_locked, cfgWrite_stores⟩, cfgDefaults_hold.1, cfgDefaults_hold.2,
    fun first n => errRead_hold, fun first n => tlmRead_hold,
    fun i => ⟨fun r hr => (repairClear_hold hr).1, fun r hr => (repairClear_hold hr).2⟩, ?_⟩
  · exact dev_makes (execEntdaa.eq_def ..) rfl (if_pos h)
  · exact ⟨_, dev_makes (execSetEndpointId.eq_def ..) rfl (if_pos h), rfl, rfl, rfl⟩
  · exact dev_makes (execGetEndpointId.eq_def ..) rfl (if_pos h)
  · exact dev_makes (execGetMctpVersionSupport.eq_def ..) rfl (if_pos h)
  · exact dev_makes (execGetMessageTypeSupport.eq_def ..) rfl (if_pos h)
  · exact dev_makes (execEventMessageTimeout.eq_def ..) rfl rfl
  · exact unservedRules_of fun ch => ⟨_, execGetInfo.eq_def ..⟩
  · exact unservedRules_of fun ch => ⟨_, execCfgDefaults.eq_def ..⟩
  · exact answers_of (execGetInfo.eq_def ..) rfl
  · exact unservedRules_of fun ch => ⟨_, execCfgRead.eq_def ..⟩
  · exact unservedRules_of fun ch => ⟨_, execCfgWrite.eq_def ..⟩
  · exact answers_of (execUpdateStatus.eq_def ..) rfl

end Sys2Proof.Proofs
end

