-- ==== Sys2Proof/Proofs/ActivationAndOverwrite.lean ====
section
/-!
PROOFS. The steps of a firmware update and its activation (R404, R451, R515 to R520): what a change of phase, an abort and a message
of the update leave, then the activation at frame A and the overwrite of the units.
-/

namespace Sys2Proof.Proofs

open Sys2Proof Sys2Proof.Machine Sys2Proof.Laws

/-! ### Phases, aborts and messages of an update -/

section
variable (d : Dev)

theorem quiet_updPhase (p : Nat) : quiet (d.updPhase p) = quiet d := quiet_ite rfl (quiet_bmcEvent _ _ _)

theorem phase_updPhase {p : Nat} (hp : p < 16) : (d.updPhase p).fld R.UPD_STATUS_PHASE = p := by
  unfold Dev.updPhase
  split
  case isTrue h => exact beq_iff_eq.1 h
  case isFalse => exact (fld_bmcEvent _ _ _ _).trans (fld_setFld_lt _ (by decide) hp)

theorem fld_updPhase_apart (p : Nat) {f : Field} (h : 4 ≤ f.lo) : (d.updPhase p).fld f = d.fld f := by
  unfold Dev.updPhase
  split
  · rfl
  · exact (fld_bmcEvent _ _ _ _).trans (fld_setFld_apart _ _ _ _ (by decide) (.inr h))

theorem fw_updPhase {α : Type} (F : Fw → α) (hF : ∀ w : Fw, F { w with msgs := [] } = F w) (p : Nat) : F (d.updPhase p).fw = F d.fw :=
  of_quiet (fun x => F x.fw) (fun x => hF x.fw) (quiet_updPhase d p)

theorem flag_updPhase_other (p : Nat) {f : Field} (h : f.reg ≠ R.UPD_STATUS_PHASE.reg) : (d.updPhase p).flag f = d.flag f :=
  congrArg (· != 0) (fld_updPhase_other d p h)

theorem fld_updSend (sub : Nat) (a : Word) (r : Nat) (f : Field) : (d.updSend sub a r).fld f = d.fld f := rfl

theorem fw_setFld (f : Field) (x : Nat) : (d.setFld f x).fw = d.fw := rfl

theorem fw_updSend (sub : Nat) (a : Word) (r : Nat) : (d.updSend sub a r).fw = d.fw := rfl

/-- An abort that is still allowed is shown with its reason. -/
theorem updateAborted_abortUpdate {r : Nat} (h : d.mayAbort = true) (hr : r < 256) : updateAborted r (d.abortUpdate r) := by
  unfold Dev.abortUpdate updateAborted
  rw [if_pos h]
  exact ⟨(fld_setFld_apart _ R.UPD_STATUS_REASON _ _ (by decide) (by decide)).trans (phase_updPhase _ (by decide)),
    fld_setFld_lt _ (by decide) hr, fw_updPhase _ Fw.aborted (fun _ => rfl) 8, fw_updPhase _ Fw.confirmed (fun _ => rfl) 8,
    fw_updPhase _ Fw.armA (fun _ => rfl) 8⟩

theorem chain_abortUpdate (r : Nat) : (d.abortUpdate r).chain = d.chain := by
  unfold Dev.abortUpdate
  split
  · exact (of_quiet Dev.chain (fun _ => rfl) (quiet_updPhase _ 8)).trans rfl
  · rfl

theorem sentLast_updSend {d x : Dev} (h : x.flag R.CHAIN_STATUS_MSG_DOWN = d.flag R.CHAIN_STATUS_MSG_DOWN) (sub : Nat) (a : Word)
    (r : Nat) : sentLast sub a d (x.updSend sub a r) := by
  intro hd
  refine ⟨leBytes 8 x.fw.sorusId.toNat ++ [BitVec.ofNat 8 r], ?_⟩
  unfold Dev.updSend Dev.chainSend
  dsimp only
  rw [h, hd, if_neg Bool.false_ne_true, List.getLast?_concat, List.append_assoc]

theorem updateAborted_abortAll {r : Nat} (h : d.mayAbort = true) (hr : r < 256) : updateAborted r (d.abortAll r) := by
  unfold Dev.abortAll
  rw [if_pos h]
  dsimp only
  split
  · exact updateAborted_abortUpdate d h hr
  · exact updateAborted_abortUpdate d h hr

theorem isHead_abortUpdate (r : Nat) : (d.abortUpdate r).isHead = d.isHead :=
  congrArg (· != 0) (fld_abortUpdate_other d r (by decide))

theorem sentLast_abortAll {r : Nat} (h : d.mayAbort = true) (hh : d.isHead = true) : sentLast updAbort 0 d (d.abortAll r) := by
  unfold Dev.abortAll
  rw [if_pos h]
  dsimp only
  rw [if_pos ((isHead_abortUpdate d r).trans hh)]
  exact sentLast_updSend (congrArg (· != 0) (fld_abortUpdate_other d r (by decide))) _ _ _

theorem quiet_settleUpdate : quiet d.settleUpdate = quiet d := quiet_ite (quiet_updPhase _ _) rfl

theorem fld_settleUpdate_apart {f : Field} (h : 4 ≤ f.lo) : d.settleUpdate.fld f = d.fld f := by
  unfold Dev.settleUpdate
  split
  · exact fld_updPhase_apart _ _ h
  · rfl

theorem fw_settleUpdate {α : Type} (F : Fw → α) (hF : ∀ w : Fw, F { w with msgs := [] } = F w) : F d.settleUpdate.fw = F d.fw :=
  of_quiet (fun x => F x.fw) (fun x => hF x.fw) (quiet_settleUpdate d)

/-- A report of the activation keeps what the loader keeps of the update. -/
theorem fw_reportActivated {α : Type} (F : Fw → α) (hF : ∀ w : Fw, F { w with msgs := [] } = F w) : F d.reportActivated.fw = F d.fw := by
  unfold Dev.reportActivated
  split
  · dsimp only
    split
    · exact (fw_settleUpdate _ F hF).trans (congrArg F ((fw_setFld _ _ _).trans (fw_updSend _ _ _ _)))
    · exact (fw_updPhase _ F hF 7).trans (congrArg F (fw_updSend _ _ _ _))
  · rfl

end

/-! ### Activation -/

section
variable {s : State} {a : Word} (ha : s.dev.fw.armA = some a)
include ha

theorem activationSwitch_waits (h : s.dev.frame.toNat < a.toNat ∨ s.dev.fw.switched = true) : Gives .activationSwitch s s := by
  refine dev_makes (execActivationSwitch.eq_def ..) rfl ?_
  rw [ha]
  exact if_pos (by rw [Bool.or_eq_true, decide_eq_true_iff]; exact h)

variable (hf : a.toNat ≤ s.dev.frame.toNat) (hs : s.dev.fw.switched = false)
include hf hs

omit ha in
theorem not_waits : ¬(decide (s.dev.frame.toNat < a.toNat) || s.dev.fw.switched) = true := by
  rw [hs, Bool.or_false, decide_eq_true_iff]
  omega

theorem activationSwitch_activates (hc : s.dev.fw.confirmed = true) (hb : s.dev.fw.aborted = false) (hp : s.dev.phase = .running) :
    MakesSome .activationSwitch s fun e =>
      e.fld R.UPD_STATUS_PHASE = 6 ∧ e.fw.switched = true ∧ e.fw.armA = some a ∧ e.fw.running = s.dev.fw.running := by
  refine ⟨_, dev_makes (execActivationSwitch.eq_def ..) rfl ?_, phase_updPhase { s.dev with fw := { s.dev.fw with switched := true } }
    (by decide), fw_updPhase _ Fw.switched (fun _ => rfl) 6, (fw_updPhase _ Fw.armA (fun _ => rfl) 6).trans ha,
    fw_updPhase _ Fw.running (fun _ => rfl) 6⟩
  rw [ha]
  exact (if_neg (not_waits hf hs)).trans (if_pos (by rw [hc, hb, hp]; rfl))

theorem activationSwitch_disarms (h : s.dev.fw.confirmed = false ∨ s.dev.fw.aborted = true ∨ s.dev.phase ≠ .running) :
    MakesSome .activationSwitch s fun e =>
      e.fw.switched = false ∧ e.fw.armA = none ∧ e.fw.running = s.dev.fw.running ∧ sentLast updNotActivated a s.dev e := by
  refine ⟨({ s.dev with fw := { s.dev.fw with armA := none } }).updSend updNotActivated a 0,
    dev_makes (execActivationSwitch.eq_def ..) rfl ?_, hs, rfl, rfl, sentLast_updSend rfl _ _ _⟩
  rw [ha]
  refine (if_neg (not_waits hf hs)).trans (if_neg ?_)
  rw [Bool.and_eq_true, Bool.and_eq_true, Bool.not_eq_true', beq_iff_eq]
  rintro ⟨⟨hc, hb⟩, hp⟩
  rcases h with h | h | h
  · exact Bool.false_ne_true (h.symm.trans hc)
  · exact Bool.false_ne_true (hb.symm.trans h)
  · exact h hp

end

/-! ### The overwrite of the units -/

theorem stagedImage_congr {d e : Dev} {c : Nat} (h1 : e.fw.staged = d.fw.staged) (h2 : e.self = d.self) (h3 : e.fw.running = d.fw.running) :
    e.stagedImage c = d.stagedImage c := by
  unfold Dev.stagedImage Dev.ownEntries Dev.running
  rw [h1, h2, h3]

section
variable {s : State} {c u : Nat}

theorem bounds_ok (h1 : 1 ≤ c) (h5 : c ≤ 5) (hu : u < 288) : decide (1 ≤ c ∧ c ≤ 5 ∧ u < 288) = true := decide_eq_true ⟨h1, h5, hu⟩

/-- The loader has nothing to do for the unit now. -/
def overwriteHeld (d : Dev) (c u : Nat) : Bool :=
  !d.fw.switched || d.phase == .drain || (d.stagedImage c).isNone || !d.overwriteTurn c || overwriteUnits c ≤ u ||
    d.fw.overwritten.contains (c, u)

theorem overwriteHeld_iff (d : Dev) : overwriteHeld d c u = true ↔ d.fw.switched = false ∨ d.phase = .drain ∨ d.stagedImage c = none ∨
    d.overwriteTurn c = false ∨ overwriteUnits c ≤ u ∨ (c, u) ∈ d.fw.overwritten := by
  unfold overwriteHeld
  rw [Bool.or_eq_true, Bool.or_eq_true, Bool.or_eq_true, Bool.or_eq_true, Bool.or_eq_true, Bool.not_eq_true', Bool.not_eq_true',
    beq_iff_eq, Option.isNone_iff_eq_none, decide_eq_true_iff, List.contains_iff_mem, or_assoc, or_assoc, or_assoc, or_assoc]

/-- The device when the loader has written the unit, its component's controller being restarted at its start and complete. -/
def unitWritten (d : Dev) (c u : Nat) : Dev :=
  let e : Dev := { d with fw := { d.fw with overwritten := d.fw.overwritten ++ [(c, u)] } }
  if c == 1 then e.setFld R.SE_STATUS_STATE (if u == 0 then 2 else 1)
  else if c == 2 then e.setFld R.STW_STATUS_STATE (if u == 0 then 2 else 1)
  else e

theorem fw_unitWritten (d : Dev) : (unitWritten d c u).fw = { d.fw with overwritten := d.fw.overwritten ++ [(c, u)] } := by
  unfold unitWritten
  dsimp only
  split
  · rfl
  · split <;> rfl

theorem self_unitWritten (d : Dev) : (unitWritten d c u).self = d.self := by
  unfold unitWritten Dev.self
  dsimp only
  split
  · exact fld_setFld_reg _ _ _ _ (by decide)
  · split
    · exact fld_setFld_reg _ _ _ _ (by decide)
    · rfl

theorem stagedImage_unitWritten (d : Dev) : (unitWritten d c u).stagedImage c = d.stagedImage c :=
  stagedImage_congr (by rw [fw_unitWritten]) (self_unitWritten d) (by rw [fw_unitWritten])

/-- The device once the unit's component, when this was its last unit, runs its new image. -/
def unitRuns (d : Dev) (c u : Nat) : Dev :=
  if (unitWritten d c u).overwritten c then (unitWritten d c u).imageRuns c else unitWritten d c u

theorem firmwareOverwrite_writes (h1 : 1 ≤ c) (h5 : c ≤ 5) (hu : u < 288) (hh : overwriteHeld s.dev c u = false) :
    Makes (.firmwareOverwrite c u true) s (unitRuns s.dev c u).reportActivated := by
  refine dev_makes (execFirmwareOverwrite.eq_def ..) (by simp only [h1, h5, hu, decide_true, Bool.and_self]) ?_
  exact (if_neg (show ¬overwriteHeld s.dev c u = true by rw [hh]; exact Bool.false_ne_true)).trans
    (if_neg (by rw [Bool.not_true, Bool.false_and]; exact Bool.false_ne_true))

theorem fw_imageRuns {d : Dev} {i : ImageId} (h : d.stagedImage c = some i) :
    (d.imageRuns c).fw.running = SMap.set (fun _ => {}) d.fw.running c i ∧ (d.imageRuns c).fw.overwritten = d.fw.overwritten := by
  unfold Dev.imageRuns
  rw [h]
  exact ⟨rfl, rfl⟩

theorem overwritten_of_units {d : Dev} (h : ∀ w, w < overwriteUnits c → (c, w) ∈ d.fw.overwritten) : d.overwritten c = true := by
  unfold Dev.overwritten
  refine Bool.or_eq_true_iff.2 (.inr (List.all_eq_true.2 fun w hw => ?_))
  rw [Bool.or_eq_true, List.contains_iff_mem]
  exact .inl (h w (List.mem_range.1 hw))

theorem unitRuns_spec {d : Dev} {i : ImageId} (hi : d.stagedImage c = some i) :
    (unitRuns d c u).fw.overwritten = d.fw.overwritten ++ [(c, u)] ∧
    ((∀ w, w < overwriteUnits c → w ≠ u → (c, w) ∈ d.fw.overwritten) → SMap.get (fun _ => {}) (unitRuns d c u).fw.running c = i) ∧
    ∀ x, x ≠ c → SMap.get (fun _ => {}) (unitRuns d c u).fw.running x = SMap.get (fun _ => {}) d.fw.running x := by
  obtain ⟨hr, ho⟩ := fw_imageRuns ((stagedImage_unitWritten (u := u) d).trans hi)
  have hw := fw_unitWritten (c := c) (u := u) d
  unfold unitRuns
  split
  · rw [hr, ho, hw]
    exact ⟨rfl, fun _ => smap_get_set_same _ _ _ _, fun x hx => smap_get_set_other _ _ _ _ _ hx⟩
  case isFalse hn =>
    rw [hw]
    refine ⟨rfl, fun hall => absurd (overwritten_of_units fun w hlt => ?_) hn, fun x _ => rfl⟩
    rw [hw]
    by_cases hx : w = u
    · exact List.mem_append_right _ (List.mem_singleton.2 (congrArg _ hx))
    · exact List.mem_append_left _ (hall w hlt hx)

theorem firmwareOverwrite_hold (h1 : 1 ≤ c) (h5 : c ≤ 5) (hu : u < 288) (hh : overwriteHeld s.dev c u = false) {i : ImageId}
    (hi : s.dev.stagedImage c = some i) : MakesSome (.firmwareOverwrite c u true) s fun e =>
      (c, u) ∈ e.fw.overwritten ∧ (∀ x ∈ s.dev.fw.overwritten, x ∈ e.fw.overwritten) ∧
      ((∀ w, w < overwriteUnits c → w ≠ u → (c, w) ∈ s.dev.fw.overwritten) → SMap.get (fun _ => {}) e.fw.running c = i) ∧
      ∀ x, x ≠ c → SMap.get (fun _ => {}) e.fw.running x = SMap.get (fun _ => {}) s.dev.fw.running x := by
  obtain ⟨ho, hr, hx⟩ := unitRuns_spec (u := u) hi
  refine ⟨_, firmwareOverwrite_writes h1 h5 hu hh, ?_⟩
  dsimp only
  rw [fw_reportActivated _ Fw.overwritten fun _ => rfl, fw_reportActivated _ Fw.running fun _ => rfl, ho]
  exact ⟨List.mem_append_right _ (List.mem_singleton.2 rfl), fun x hx => List.mem_append_left _ hx, hr, hx⟩

theorem firmwareOverwrite_rewrites (h1 : 1 ≤ c) (h5 : c ≤ 5) (hu : u < 288) (hh : overwriteHeld s.dev c u = false)
    (ht : SMap.get (fun _ => 0) s.dev.fw.rewrites (c * 512 + u) < 3) : Makes (.firmwareOverwrite c u false) s
      { s.dev with fw := { s.dev.fw with
        rewrites := SMap.set (fun _ => 0) s.dev.fw.rewrites (c * 512 + u) (SMap.get (fun _ => 0) s.dev.fw.rewrites (c * 512 + u) + 1) } } := by
  refine dev_makes (execFirmwareOverwrite.eq_def ..) (by simp only [h1, h5, hu, decide_true, Bool.and_self]) ?_
  exact (if_neg (show ¬overwriteHeld s.dev c u = true by rw [hh]; exact Bool.false_ne_true)).trans
    (if_pos (by rw [Bool.not_false, Bool.true_and, decide_eq_true_iff]; exact ht))

theorem firmwareOverwrite_held (h1 : 1 ≤ c) (h5 : c ≤ 5) (hu : u < 288) {ok : Bool} (hh : overwriteHeld s.dev c u = true) :
    Gives (.firmwareOverwrite c u ok) s s :=
  dev_makes (execFirmwareOverwrite.eq_def ..) (by simp only [h1, h5, hu, decide_true, Bool.and_self]) (if_pos hh)

end

/-! ### Messages between the stewards and the security engines -/

section
variable {s : State} {src : Nat} {bs : List Byte}

theorem seMsg_hold (hsrc : src < 8) : (src = s.dev.self ∨ bs = [] ∨ s.dev.locked = true → Gives (.seMsg src bs) s s) ∧
    (src ≠ s.dev.self → bs ≠ [] → s.dev.locked = false → MakesSome (.seMsg src bs) s fun e =>
      e.fw.linkSecret = some bs ∧ e.flag R.SE_STATUS_LINK_SECRET = true) := by
  have hb : (src == s.dev.self || bs.isEmpty || s.dev.locked) = true ↔ src = s.dev.self ∨ bs = [] ∨ s.dev.locked = true := by
    rw [Bool.or_eq_true, Bool.or_eq_true, beq_iff_eq, List.isEmpty_iff, or_assoc]
  refine ⟨fun h => dev_makes (execSeMsg.eq_def ..) (decide_eq_true hsrc) (if_pos (hb.2 h)), fun h1 h2 h3 => ?_⟩
  refine ⟨_, dev_makes (execSeMsg.eq_def ..) (decide_eq_true hsrc) (if_neg (mt hb.1 ?_)), rfl, flag_setFld_one _ _ (by decide) (by decide)⟩
  rintro (h | h | h)
  · exact h1 h
  · exact h2 h
  · exact Bool.false_ne_true (h3.symm.trans h)

theorem stewardMsg_ignored (hsrc : src < 8) (h : s.dev.isHead = true ∨ src = s.dev.self) : Gives (.stewardMsg src bs) s s :=
  dev_makes (execStewardMsg.eq_def ..) (decide_eq_true hsrc) (if_pos (by rw [Bool.or_eq_true, beq_iff_eq]; exact h))

theorem stewardMsg_completes (hsrc : src < 8) (h1 : s.dev.isHead = false) (h2 : src ≠ s.dev.self) {b : Byte} {rest : List Byte}
    (hw : s.dev.boxWaits .stw 0x40 = true ∨ s.dev.boxWaits .stw 0x41 = true ∨ s.dev.boxWaits .stw 0x43 = true) :
    Makes (.stewardMsg src (b :: rest)) s (s.dev.boxDone .stw b.toNat rest) :=
  dev_makes (execStewardMsg.eq_def ..) (decide_eq_true hsrc)
    ((if_neg (by rw [h1, beq_eq_false_iff_ne.2 h2]; decide)).trans
      (if_pos (by rw [Bool.or_eq_true, Bool.or_eq_true, or_assoc]; exact hw)))

end

/-- Settles O53: the switch at frame A by its three cases, the overwrite by what the loader writes of one unit. -/
theorem activationAndOverwrite : Obligations.ActivationAndOverwrite := by
  intro s
  dsimp only
  refine ⟨fun h => dev_makes (execActivationSwitch.eq_def ..) rfl (by rw [h]), fun a ha => ⟨activationSwitch_waits ha, fun hf hs =>
    ⟨activationSwitch_activates ha hf hs, activationSwitch_disarms ha hf hs⟩⟩, fun c u ok h1 h5 hu => ⟨fun h => ?_, ?_⟩,
    fun src bs hsrc => ⟨(seMsg_hold hsrc).1, (seMsg_hold hsrc).2, stewardMsg_ignored hsrc, ?_⟩⟩
  · exact firmwareOverwrite_held h1 h5 hu ((overwriteHeld_iff _).2 h)
  · intro hs hd ht hlt hm i hi
    have hh : overwriteHeld s.dev c u = false := by
      rw [← Bool.not_eq_true, overwriteHeld_iff, hs, ht, hi]
      simp only [Bool.true_eq_false, hd, reduceCtorEq, hm, or_false, false_or]
      omega
    exact ⟨firmwareOverwrite_rewrites h1 h5 hu hh, firmwareOverwrite_hold h1 h5 hu hh hi⟩
  · rintro h1 h2 b rest rfl hw
    exact stewardMsg_completes hsrc h1 h2 hw

end Sys2Proof.Proofs
end

