-- ==== Sys2Proof/Proofs/UpdateSteps.lean ====
section
/-!
PROOFS. The steps of an update (R514 to R519): what completing its command, arming, preparing and starting it leave, once each.
-/

namespace Sys2Proof.Proofs

open Sys2Proof Sys2Proof.Machine Sys2Proof.Laws

/-! ### Completing a management command -/

section
variable (d : Dev) (ch : Channel) (st : Nat) (resp : List Byte)

theorem fld_managed {f : Field} (hr : reported f.reg = false) (h1 : f.reg ≠ Box.stw.statusOff) (h2 : f.reg ≠ Box.pf.statusOff) :
    (managed ch st resp d).fld f = d.fld f := by
  cases ch with
  | mctp => rfl
  | mailbox => exact fld_boxDone_other d .stw st resp hr h1
  | pfMailbox => exact fld_boxDone_other d .pf st resp hr h2

theorem fw_boxDone (b : Box) : (d.boxDone b st resp).fw = d.fw :=
  of_boxDone d b Dev.fw (fun _ => rfl) (fun _ b _ => by cases b <;> rfl) st resp

theorem chain_boxDone (b : Box) : (d.boxDone b st resp).chain = d.chain :=
  of_boxDone d b Dev.chain (fun _ => rfl) (fun _ b _ => by cases b <;> rfl) st resp

/-- What the steward keeps besides its last answer stands at a completion. -/
theorem fw_managed {α : Type} (F : Fw → α) (hF : ∀ (w : Fw) (q : List Byte) (n : Nat), F { w with
      response := q
      result := n } = F w) : F (managed ch st resp d).fw = F d.fw := by
  cases ch with
  | mctp => exact hF _ _ _
  | mailbox => exact congrArg F (fw_boxDone d st resp .stw)
  | pfMailbox => exact congrArg F (fw_boxDone d st resp .pf)

theorem chain_managed : (managed ch st resp d).chain = d.chain := by
  cases ch with
  | mctp => rfl
  | mailbox => exact chain_boxDone d st resp .stw
  | pfMailbox => exact chain_boxDone d st resp .pf

theorem phase_managed : (managed ch st resp d).fld R.UPD_STATUS_PHASE = d.fld R.UPD_STATUS_PHASE :=
  fld_managed d ch st resp (by decide) (by decide) (by decide)

theorem updateAborted_managed {r : Nat} (h : updateAborted r d) : updateAborted r (managed ch st resp d) := by
  obtain ⟨hp, hr, ha, hc, hm⟩ := h
  exact ⟨(phase_managed d ch st resp).trans hp, (fld_managed d ch st resp (by decide) (by decide) (by decide)).trans hr,
    (fw_managed d ch st resp Fw.aborted fun _ _ _ => rfl).trans ha, (fw_managed d ch st resp Fw.confirmed fun _ _ _ => rfl).trans hc,
    (fw_managed d ch st resp Fw.armA fun _ _ _ => rfl).trans hm⟩

theorem sentLast_managed {sub : Nat} {a : Word} {x : Dev} (h : sentLast sub a x d) : sentLast sub a x (managed ch st resp d) := by
  unfold sentLast
  rw [chain_managed]
  exact h

end

theorem makes_managed {c : Instr} {s : State} {ch : Channel} {code : Nat} {f : Dev → Reply} {P : Dev → Prop}
    (hc : exec c s = onDev true s fun d => d.manage ch code f) (h : mayManage s.dev ch code = true) {e : Dev} (hr : f s.dev = e.done)
    (hP : P (managed ch 0 [] e)) : MakesSome c s P :=
  ⟨_, dev_makes hc rfl (by rw [manage_served h, hr]; rfl), hP⟩

/-! ### Arming and preparing -/

section
variable (d : Dev)

/-- The device with another record of the steward. -/
def onFw (w : Fw) : Dev := { d with fw := w }

theorem fld_onFw (w : Fw) (f : Field) : (onFw d w).fld f = d.fld f := rfl

theorem flag_onFw (w : Fw) (f : Field) : (onFw d w).flag f = d.flag f := rfl

theorem targets_congr {d e : Dev} (h1 : e.fw.staged = d.fw.staged) (h2 : e.fld R.CHAIN_STATUS_PRESENT = d.fld R.CHAIN_STATUS_PRESENT) :
    e.targets = d.targets := by
  unfold Dev.targets
  rw [h1, h2]

theorem updLead_congr {d e : Dev} (h : e.fw = d.fw) : e.updLead = d.updLead := by
  unfold Dev.updLead Dev.cfgItem Dev.cfgNow
  rw [h]

/-- The head armed for frame a, before its phase shows it. -/
def armedFor (a : Word) : Dev := onFw d { d.fw with
  armA := some a
  armedMask := 2 ^ d.self
  confirmed := false }

/-- The device once phase 5 and the frame show. -/
def armShown (a : Word) : Dev := (d.updPhase 5).setReg R.UPD_FRAME_FRAME.reg a

theorem armAll_eq : d.armAll = (armShown (armedFor d (d.frame + word d.updLead)) (d.frame + word d.updLead)).updSend updArm
    (d.frame + word d.updLead) 0 := rfl

theorem fld_armShown (a : Word) {f : Field} (h : f.reg ≠ R.UPD_FRAME_FRAME.reg) : (armShown d a).fld f = (d.updPhase 5).fld f :=
  congrArg f.get (reg_setReg_other _ _ _ _ h)

theorem phase_armShown (a : Word) : (armShown d a).fld R.UPD_STATUS_PHASE = 5 :=
  (fld_armShown d a (by decide)).trans (phase_updPhase d (by decide))

theorem fw_armShown {α : Type} (F : Fw → α) (hF : ∀ w : Fw, F { w with msgs := [] } = F w) (a : Word) : F (armShown d a).fw = F d.fw :=
  fw_updPhase d F hF 5

theorem flag_armShown (a : Word) {f : Field} (h1 : f.reg ≠ R.UPD_FRAME_FRAME.reg) (h2 : f.reg ≠ R.UPD_STATUS_PHASE.reg) :
    (armShown d a).flag f = d.flag f :=
  congrArg (· != 0) ((fld_armShown d a h1).trans (fld_updPhase_other d 5 h2))

theorem armAll_spec {a : Word} (ha : d.frame + word d.updLead = a) :
    d.armAll.fld R.UPD_STATUS_PHASE = 5 ∧ d.armAll.fw.armA = some a ∧ d.armAll.reg R.UPD_FRAME_FRAME.reg = a ∧
    d.armAll.fw.confirmed = false ∧ d.armAll.fw.armedMask = 2 ^ d.self ∧ sentLast updArm a d d.armAll := by
  rw [armAll_eq, ha]
  exact ⟨phase_armShown _ a, fw_armShown (armedFor d a) Fw.armA (fun _ => rfl) a, reg_setReg_same _ _ _,
    fw_armShown (armedFor d a) Fw.confirmed (fun _ => rfl) a, fw_armShown (armedFor d a) Fw.armedMask (fun _ => rfl) a,
    sentLast_updSend (flag_armShown (armedFor d a) a (by decide) (by decide)) _ _ _⟩

/-- Arming keeps what it does not set of the steward's record. -/
theorem fw_armAll {α : Type} (F : Fw → α) (hF : ∀ w : Fw, F { w with msgs := [] } = F w)
    (hA : ∀ (w : Fw) (x : Option Word) (n : Nat) (b : Bool), F { w with
      armA := x
      armedMask := n
      confirmed := b } = F w) : F d.armAll.fw = F d.fw := by
  rw [armAll_eq, fw_updSend]
  exact (fw_armShown (armedFor d _) F hF _).trans (hA _ _ _ _)

/-- READY of a socket at a head that collects them. -/
theorem readyFrom_eq {src : Nat} (hh : d.isHead = true) (hp : d.fld R.UPD_STATUS_PHASE = 3 ∨ d.fld R.UPD_STATUS_PHASE = 4) :
    d.readyFrom src =
      if (d.fld R.UPD_STATUS_READY ||| 2 ^ src) &&& d.targets = d.targets then
        (d.setFld R.UPD_STATUS_READY (d.fld R.UPD_STATUS_READY ||| 2 ^ src)).armAll
      else d.setFld R.UPD_STATUS_READY (d.fld R.UPD_STATUS_READY ||| 2 ^ src) := by
  have ht (m : Nat) : (d.setFld R.UPD_STATUS_READY m).targets = d.targets :=
    targets_congr (congrArg Fw.staged (fw_setFld d _ _)) (fld_setFld_reg _ _ _ _ (by decide))
  unfold Dev.readyFrom
  rw [if_pos (by rw [hh, Bool.true_and, Bool.or_eq_true, beq_iff_eq, beq_iff_eq]; exact hp)]
  dsimp only
  rw [ht]
  simp only [beq_iff_eq]

/-- The running images are kept as the previous ones, and the socket shows that it prepares. -/
def preparing : Dev := (onFw d { d.fw with previous := d.fw.running }).updPhase 4

theorem prepare_eq : d.prepare = if (preparing d).isHead = true then (preparing d).readyFrom (preparing d).self
    else (preparing d).updSend updReady 0 0 := rfl

theorem isHead_preparing : (preparing d).isHead = d.isHead := flag_updPhase_other _ 4 (by decide)

theorem fw_preparing {α : Type} (F : Fw → α) (hF : ∀ w : Fw, F { w with msgs := [] } = F w) :
    F (preparing d).fw = F { d.fw with previous := d.fw.running } := fw_updPhase (onFw d { d.fw with previous := d.fw.running }) F hF 4

theorem phase_preparing : (preparing d).fld R.UPD_STATUS_PHASE = 4 := phase_updPhase _ (by decide)

theorem prepare_head (hh : d.isHead = true) : d.prepare.fw.previous = d.fw.running ∧ d.prepare.fw.staged = d.fw.staged ∧
    (d.prepare.fld R.UPD_STATUS_PHASE = 4 ∨ d.prepare.fld R.UPD_STATUS_PHASE = 5) := by
  have h4 := phase_preparing d
  have hv := fw_preparing d Fw.previous fun _ => rfl
  have hs := fw_preparing d Fw.staged fun _ => rfl
  rw [prepare_eq, isHead_preparing, if_pos hh, readyFrom_eq _ ((isHead_preparing d).trans hh) (.inr h4)]
  split
  · rw [fw_armAll _ Fw.previous (fun _ => rfl) fun _ _ _ _ => rfl, fw_armAll _ Fw.staged (fun _ => rfl) fun _ _ _ _ => rfl, fw_setFld]
    exact ⟨hv, hs, .inr (armAll_spec _ rfl).1⟩
  · rw [fw_setFld]
    exact ⟨hv, hs, .inl ((fld_setFld_apart _ _ _ _ (by decide) (by decide)).trans h4)⟩

theorem prepare_other (hh : d.isHead = false) : d.prepare.fw.previous = d.fw.running ∧ d.prepare.fw.staged = d.fw.staged ∧
    d.prepare.fld R.UPD_STATUS_PHASE = 4 ∧ sentLast updReady 0 d d.prepare := by
  rw [prepare_eq, isHead_preparing, if_neg (by rw [hh]; exact Bool.false_ne_true), fw_updSend]
  exact ⟨fw_preparing d Fw.previous fun _ => rfl, fw_preparing d Fw.staged fun _ => rfl, phase_preparing d,
    sentLast_updSend ((flag_updPhase_other (onFw d _) 4 (by decide)).trans (flag_onFw d _ _)) _ _ _⟩

end

theorem fw_abortUpdate_staged (d : Dev) (r : Nat) : (d.abortUpdate r).fw.staged = d.fw.staged := by
  unfold Dev.abortUpdate
  split
  · exact (congrArg Fw.staged (fw_setFld _ _ _)).trans (fw_updPhase _ Fw.staged (fun _ => rfl) 8)
  · rfl

/-! ### The start of an update -/

section
variable (d : Dev)

theorem fld_setReg_other (d : Dev) (off : Nat) (v : Word) {f : Field} (h : f.reg ≠ off) : (d.setReg off v).fld f = d.fld f :=
  congrArg f.get (reg_setReg_other _ _ _ _ h)

/-- The registers of an update before it begins. -/
def updateCleared : Dev :=
  (((d.setFld R.UPD_STATUS_READY 0).setFld R.UPD_STATUS_ACTIVATED 0).setFld R.UPD_STATUS_REASON 0).setReg R.UPD_FRAME_FRAME.reg 0

theorem bare_updateCleared : bare (updateCleared d) = bare d := by
  unfold updateCleared
  rw [bare_setReg, bare_setFld, bare_setFld, bare_setFld]

theorem fld_updateCleared {f : Field} (h1 : f.reg ≠ R.UPD_FRAME_FRAME.reg) (h2 : f.lo + f.width ≤ 4 ∨ f.reg ≠ R.UPD_STATUS_PHASE.reg) :
    (updateCleared d).fld f = d.fld f := by
  have h (x : Dev) {k : Field} (hk : k.reg = R.UPD_STATUS_PHASE.reg) (h4 : 4 ≤ k.lo) (hw : k.lo + k.width ≤ 64) :
      (x.setFld k 0).fld f = x.fld f := by
    rcases h2 with h2 | h2
    · exact fld_setFld_apart _ _ _ _ hw (.inl (h2.trans h4))
    · exact fld_setFld_reg _ _ _ _ (hk ▸ h2)
  unfold updateCleared
  rw [fld_setReg_other _ _ _ h1, h _ (k := R.UPD_STATUS_REASON) rfl (by decide) (by decide),
    h _ (k := R.UPD_STATUS_ACTIVATED) rfl (by decide) (by decide), h _ (k := R.UPD_STATUS_READY) rfl (by decide) (by decide)]

/-- The steward's record of an update that begins. -/
def freshFw (w : Fw) : Fw := { w with
  sorusId := word (sorusNum w.staged 8 8)
  ready := none
  armA := none
  confirmed := false
  aborted := false
  armedMask := 0
  notActivated := 0
  reasons := []
  switched := false
  overwritten := []
  rewrites := [] }

theorem freshUpdate_eq : d.freshUpdate = onFw (updateCleared d) (freshFw (updateCleared d).fw) := rfl

theorem fld_freshUpdate {f : Field} (h1 : f.reg ≠ R.UPD_FRAME_FRAME.reg) (h2 : f.lo + f.width ≤ 4 ∨ f.reg ≠ R.UPD_STATUS_PHASE.reg) :
    d.freshUpdate.fld f = d.fld f := by
  rw [freshUpdate_eq, fld_onFw]
  exact fld_updateCleared d h1 h2

theorem flag_freshUpdate {f : Field} (h1 : f.reg ≠ R.UPD_FRAME_FRAME.reg) (h2 : f.reg ≠ R.UPD_STATUS_PHASE.reg) :
    d.freshUpdate.flag f = d.flag f := congrArg (· != 0) (fld_freshUpdate d h1 (.inr h2))

theorem fw_updateCleared : (updateCleared d).fw = d.fw := of_bare Dev.fw (fun _ => rfl) (bare_updateCleared d)

theorem fw_onFw (w : Fw) : (onFw d w).fw = w := rfl

theorem fw_freshUpdate : d.freshUpdate.fw = freshFw d.fw := by
  rw [freshUpdate_eq, fw_onFw, fw_updateCleared]

theorem freshFw_keeps (w : Fw) : (freshFw w).staged = w.staged ∧ (freshFw w).running = w.running ∧ (freshFw w).svn = w.svn ∧
    (freshFw w).armA = none := ⟨rfl, rfl, rfl, rfl⟩

theorem sorusVerdict_congr {d e : Dev} (h1 : e.fw.staged = d.fw.staged) (h2 : e.fw.svn = d.fw.svn) (v : Nat) :
    e.sorusVerdict v = d.sorusVerdict v := by
  unfold Dev.sorusVerdict Dev.fusedSvn
  rw [h1, h2]

theorem mayAbort_unarmed {p : Nat} (hp : d.fld R.UPD_STATUS_PHASE = p) (h2 : 2 ≤ p) (h5 : p ≤ 5) (ha : d.fw.armA = none) :
    d.mayAbort = true := by
  unfold Dev.mayAbort
  rw [ha, hp, decide_eq_true h2, decide_eq_true h5]
  rfl

/-- The update that begins, in phase 2. -/
def updateBegun : Dev := d.freshUpdate.updPhase 2

theorem fw_updateBegun : (updateBegun d).fw.staged = d.fw.staged ∧ (updateBegun d).fw.running = d.fw.running ∧
    (updateBegun d).fw.svn = d.fw.svn ∧ (updateBegun d).fw.armA = none := by
  obtain ⟨hs, hr, hv, ha⟩ := freshFw_keeps d.fw
  rw [← fw_freshUpdate] at hs hr hv ha
  exact ⟨(fw_updPhase _ Fw.staged (fun _ => rfl) 2).trans hs, (fw_updPhase _ Fw.running (fun _ => rfl) 2).trans hr,
    (fw_updPhase _ Fw.svn (fun _ => rfl) 2).trans hv, (fw_updPhase _ Fw.armA (fun _ => rfl) 2).trans ha⟩

theorem flag_updateBegun {f : Field} (h1 : f.reg ≠ R.UPD_FRAME_FRAME.reg) (h2 : f.reg ≠ R.UPD_STATUS_PHASE.reg) :
    (updateBegun d).flag f = d.flag f := (flag_updPhase_other _ 2 h2).trans (flag_freshUpdate d h1 h2)

/-- The sorus goes to the other sockets, when there are any. -/
def distribute : Dev :=
  if d.fld R.CHAIN_STATUS_PRESENT == 2 ^ d.self then d else d.chainSend 0x21 (leBytes 8 d.fw.sorusId.toNat)

theorem distribute_spec : (distribute d).fw = d.fw ∧ (distribute d).isHead = d.isHead := by
  unfold distribute
  split
  · exact ⟨rfl, rfl⟩
  · exact ⟨rfl, rfl⟩

theorem prepare_distribute : (distribute d).prepare =
    if d.fld R.CHAIN_STATUS_PRESENT == 2 ^ d.self then d.prepare else (d.chainSend 0x21 (leBytes 8 d.fw.sorusId.toNat)).prepare :=
  apply_ite Dev.prepare _ _ _

variable (v : Nat)

theorem verdict_updateBegun : (updateBegun d).sorusVerdict v = d.sorusVerdict v := by
  obtain ⟨hs, -, hn, -⟩ := fw_updateBegun d
  exact sorusVerdict_congr hs hn v

section
variable {d : Dev} {e : Dev} (he : d.freshUpdate.updPhase 2 = e) (hm : e.flag R.CHAIN_STATUS_MSG_DOWN = false)
include he hm

theorem startUpdate_good (hv : e.sorusVerdict v = 0) : d.startUpdate v = (distribute (e.updPhase 3)).prepare := by
  unfold Dev.startUpdate
  rw [he]
  refine (if_neg (by rw [hm]; exact Bool.false_ne_true)).trans ?_
  split
  case h_1 => exact (prepare_distribute _).symm
  case h_2 hn => exact absurd hv hn

theorem startUpdate_bad (hv : e.sorusVerdict v ≠ 0) : d.startUpdate v = e.abortAll (e.sorusVerdict v) := by
  unfold Dev.startUpdate
  rw [he]
  refine (if_neg (by rw [hm]; exact Bool.false_ne_true)).trans ?_
  split
  case h_1 h0 => exact absurd h0 hv
  case h_2 => rfl

end

theorem mayAbort_updateBegun : (updateBegun d).mayAbort = true := by
  obtain ⟨-, -, -, ha⟩ := fw_updateBegun d
  exact mayAbort_unarmed _ (phase_updPhase _ (by decide)) (by decide) (by decide) ha

theorem startUpdate_spec (hh : d.isHead = true) (hd : d.flag R.CHAIN_STATUS_MSG_DOWN = false) :
    (d.sorusVerdict v ≠ 0 → d.sorusVerdict v < 256 → updateAborted (d.sorusVerdict v) (d.startUpdate v)) ∧
    (d.sorusVerdict v = 0 → (d.startUpdate v).fw.previous = d.fw.running ∧ (d.startUpdate v).fw.staged = d.fw.staged ∧
      ((d.startUpdate v).fld R.UPD_STATUS_PHASE = 4 ∨ (d.startUpdate v).fld R.UPD_STATUS_PHASE = 5)) := by
  have hm := (flag_updateBegun d (f := R.CHAIN_STATUS_MSG_DOWN) (by decide) (by decide)).trans hd
  have hk := verdict_updateBegun d v
  refine ⟨fun hv hr => ?_, fun hv => ?_⟩
  · rw [startUpdate_bad v (e := updateBegun d) rfl hm (hk ▸ hv), hk]
    exact updateAborted_abortAll _ (mayAbort_updateBegun d) hr
  · obtain ⟨hs, hr, -, -⟩ := fw_updateBegun d
    have h3 : ((updateBegun d).updPhase 3).isHead = d.isHead :=
      (flag_updPhase_other _ 3 (by decide)).trans (flag_updateBegun d (by decide) (by decide))
    have h1 := (fw_updPhase (updateBegun d) Fw.running (fun _ => rfl) 3).trans hr
    have h2 := (fw_updPhase (updateBegun d) Fw.staged (fun _ => rfl) 3).trans hs
    rw [startUpdate_good v (e := updateBegun d) rfl hm (hk.trans hv)]
    obtain ⟨hw, he⟩ := distribute_spec ((updateBegun d).updPhase 3)
    obtain ⟨hp, hst, hph⟩ := prepare_head (distribute ((updateBegun d).updPhase 3)) (he.trans (h3.trans hh))
    rw [hw] at hp hst
    exact ⟨hp.trans h1, hst.trans h2, hph⟩

end

end Sys2Proof.Proofs
end

