-- ==== Sys2Proof/Proofs/SorusUpdates.lean ====
section
/-!
PROOFS. The commands that stage a sorus and the messages that move its update on (R514 to R519, R523), by the steps of an update.
-/

namespace Sys2Proof.Proofs

open Sys2Proof Sys2Proof.Machine Sys2Proof.Laws

/-! ### Chunks -/

section
variable {s : State} {ch : Channel} {off total : Nat} {last start rb : Bool} {bytes : List Byte}

theorem sorusChunk_relayed (hh : s.dev.isHead = false) (hp : s.dev.phase ≠ .booting) :
    Makes (.sorusChunk ch off total last start rb bytes) s (s.dev.chainSend 0x41 (leBytes 8 off)) :=
  dev_makes (execSorusChunk.eq_def ..) rfl (if_neg (by rw [hh, beq_eq_false_iff_ne.2 hp]; decide))

theorem sorusChunk_answers (hh : s.dev.isHead = true ∨ s.dev.phase = .booting) {st : Nat} {resp : List Byte} {e : Dev}
    (hr : s.dev.stageChunk off total last start rb bytes = ⟨st, resp, e⟩) :
    Sys2Proof.answers (.sorusChunk ch off total last start rb bytes) s ch 0x40 st resp e := fun h =>
  dev_makes (execSorusChunk.eq_def ..) rfl
    ((if_pos (by rw [Bool.or_eq_true, beq_iff_eq]; exact hh)).trans (by rw [manage_served h, hr]))

section
variable {d : Dev}

theorem stageChunk_busy (h : d.updBusy = true) : d.stageChunk off total last start rb bytes = ⟨1, [], d⟩ := if_pos h

theorem badChunk_iff : (bytes.isEmpty || decide (4064 < bytes.length) || decide (2 ^ 28 < total) || decide (total < off + bytes.length)) = true ↔
    bytes = [] ∨ 4064 < bytes.length ∨ 2 ^ 28 < total ∨ total < off + bytes.length := by
  rw [Bool.or_eq_true, Bool.or_eq_true, Bool.or_eq_true, List.isEmpty_iff, decide_eq_true_iff, decide_eq_true_iff, decide_eq_true_iff,
    or_assoc, or_assoc]

theorem misplaced_iff (n : Nat) : (off != 0 && off != n) = true ↔ off ≠ 0 ∧ off ≠ n := by
  rw [Bool.and_eq_true, bne_iff_ne, bne_iff_ne]

variable (hb : d.updBusy = false)
include hb

theorem not_busy : ¬d.updBusy = true := by
  rw [hb]
  exact Bool.false_ne_true

theorem stageChunk_bad (h : bytes = [] ∨ 4064 < bytes.length ∨ 2 ^ 28 < total ∨ total < off + bytes.length) :
    d.stageChunk off total last start rb bytes = ⟨3, [], d⟩ := (if_neg (not_busy hb)).trans (if_pos (badChunk_iff.2 h))

variable (hg : ¬(bytes = [] ∨ 4064 < bytes.length ∨ 2 ^ 28 < total ∨ total < off + bytes.length))
include hg

theorem stageChunk_misplaced (h0 : off ≠ 0) (hn : off ≠ d.fw.staged.length) :
    d.stageChunk off total last start rb bytes = ⟨4, [], d⟩ :=
  (if_neg (not_busy hb)).trans ((if_neg (mt badChunk_iff.1 hg)).trans (if_pos ((misplaced_iff _).2 ⟨h0, hn⟩)))

/-- The device when a chunk is staged. -/
def chunkStaged (d : Dev) (st : List Byte) (total : Nat) (last rb : Bool) : Dev :=
  (onFw d { d.fw with
    staged := st
    stagedTotal := total
    stagedLast := last
    rebuild := rb }).updPhase 1

omit hb hg in
/-- A chunk that neither ends a sorus nor starts its update is staged alone. -/
theorem ends_at_chunk {e a b : Dev} (h : last = false ∨ (start = false ∧ e.phase ≠ .booting)) :
    (if e.phase == .booting then (if last then a else e) else if last && start then b else e) = e := by
  rcases h with rfl | ⟨rfl, hp⟩
  · exact (ite_congr rfl (fun _ => if_neg Bool.false_ne_true) fun _ => if_neg Bool.false_ne_true).trans (ite_self e)
  · exact (if_neg fun h => hp (beq_iff_eq.1 h)).trans (if_neg (by rw [Bool.and_false]; exact Bool.false_ne_true))

theorem stageChunk_stages (hp : off = 0 ∨ off = d.fw.staged.length) (h : last = false ∨ (start = false ∧ d.phase ≠ .booting))
    {st : List Byte} (hst : (if off = 0 then [] else d.fw.staged) ++ bytes = st) :
    d.stageChunk off total last start rb bytes = ⟨0, leBytes 8 st.length, chunkStaged d st total last rb⟩ := by
  have hs : (if (off == 0) = true then [] else d.fw.staged) ++ bytes = st :=
    (congrArg (· ++ bytes) (if_congr beq_iff_eq rfl rfl)).trans hst
  have hq : (chunkStaged d st total last rb).phase = d.phase := 
    (of_quiet Dev.phase (fun _ => rfl) (quiet_updPhase (onFw d _) 1)).trans rfl
  refine (if_neg (not_busy hb)).trans ((if_neg (mt badChunk_iff.1 hg)).trans ((if_neg (mt (misplaced_iff _).1 ?_)).trans ?_))
  · rintro ⟨h1, h2⟩
    exact hp.elim h1 h2
  · rw [hs]
    exact congrArg (Reply.mk 0 _) (ends_at_chunk (e := chunkStaged d st total last rb) (by rw [hq]; exact h))

end

end

/-! ### Starting and aborting an update -/

section
variable {s : State} {ch : Channel}

theorem updateStart_relayed {x : BitVec 8} (hh : s.dev.isHead = false) : Makes (.updateStart ch x) s (s.dev.chainSend 0x41 [0x41]) :=
  dev_makes (execUpdateStart.eq_def ..) rfl (if_neg (by rw [hh]; exact Bool.false_ne_true))

theorem updateAbort_relayed (hh : s.dev.isHead = false) : Makes (.updateAbort ch) s (s.dev.chainSend 0x41 [0x43]) :=
  dev_makes (execUpdateAbort.eq_def ..) rfl (if_neg (by rw [hh]; exact Bool.false_ne_true))

variable (hh : s.dev.isHead = true)
include hh

/-- The reply of a head's UPDATE_START. -/
def startReply (d : Dev) (x : BitVec 8) : Reply :=
  if d.updBusy then d.refuse stBusy else if d.fw.staged.isEmpty then d.refuse stBadState else (d.startUpdate x.toNat).done

/-- The reply of a head's UPDATE_ABORT. -/
def abortReply (d : Dev) : Reply := if d.mayAbort then (d.abortAll 8).done else d.refuse stBadState

theorem updateStart_makes {x : BitVec 8} (h : mayManage s.dev ch 0x41 = true) : Makes (.updateStart ch x) s
    (managed ch (startReply s.dev x).status (startReply s.dev x).resp (startReply s.dev x).dev) :=
  dev_makes (execUpdateStart.eq_def ..) rfl ((if_pos hh).trans (manage_served h (startReply · x)))

theorem updateAbort_makes (h : mayManage s.dev ch 0x43 = true) : Makes (.updateAbort ch) s
    (managed ch (abortReply s.dev).status (abortReply s.dev).resp (abortReply s.dev).dev) :=
  dev_makes (execUpdateAbort.eq_def ..) rfl ((if_pos hh).trans (manage_served h abortReply))

theorem updateStart_busy {x : BitVec 8} (hb : s.dev.updBusy = true) : Sys2Proof.answers (.updateStart ch x) s ch 0x41 1 [] s.dev := fun h => by
  have hm := updateStart_makes (x := x) hh h
  rw [startReply, if_pos hb] at hm
  exact hm

theorem updateStart_unstaged {x : BitVec 8} (hb : s.dev.updBusy = false) (he : s.dev.fw.staged = []) :
    Sys2Proof.answers (.updateStart ch x) s ch 0x41 4 [] s.dev := fun h => by
  have hm := updateStart_makes (x := x) hh h
  rw [startReply, if_neg (not_busy hb), if_pos (by rw [he]; rfl)] at hm
  exact hm

theorem updateStart_starts {x : BitVec 8} (hb : s.dev.updBusy = false) (he : s.dev.fw.staged ≠ [])
    (hd : s.dev.flag R.CHAIN_STATUS_MSG_DOWN = false) (h : mayManage s.dev ch 0x41 = true) : MakesSome (.updateStart ch x) s fun e =>
      (s.dev.sorusVerdict x.toNat ≠ 0 → s.dev.sorusVerdict x.toNat < 256 → updateAborted (s.dev.sorusVerdict x.toNat) e) ∧
      (s.dev.sorusVerdict x.toNat = 0 → e.fw.previous = s.dev.fw.running ∧ e.fw.staged = s.dev.fw.staged ∧
        (e.fld R.UPD_STATUS_PHASE = 4 ∨ e.fld R.UPD_STATUS_PHASE = 5)) := by
  have hm := updateStart_makes (x := x) hh h
  rw [startReply, if_neg (not_busy hb), if_neg (mt List.isEmpty_iff.1 he)] at hm
  obtain ⟨h1, h2⟩ := startUpdate_spec s.dev x.toNat hh hd
  refine ⟨_, hm, fun hv hr => updateAborted_managed _ _ _ _ (h1 hv hr), fun hv => ?_⟩
  rw [fw_managed _ _ _ _ Fw.previous fun _ _ _ => rfl, fw_managed _ _ _ _ Fw.staged fun _ _ _ => rfl, phase_managed]
  exact h2 hv

theorem updateAbort_refused (hm : s.dev.mayAbort = false) : Sys2Proof.answers (.updateAbort ch) s ch 0x43 4 [] s.dev := fun h => by
  have hk := updateAbort_makes hh h
  rw [abortReply, if_neg (by rw [hm]; exact Bool.false_ne_true)] at hk
  exact hk

theorem updateAbort_aborts (hm : s.dev.mayAbort = true) (h : mayManage s.dev ch 0x43 = true) :
    MakesSome (.updateAbort ch) s fun e => updateAborted 8 e ∧ sentLast updAbort 0 s.dev e := by
  have hk := updateAbort_makes hh h
  rw [abortReply, if_pos hm] at hk
  exact ⟨_, hk, updateAborted_managed _ _ _ _ (updateAborted_abortAll _ hm (by decide)),
    sentLast_managed _ _ _ _ (sentLast_abortAll _ hm hh)⟩

end

/-! ### Copies of the sorus -/

section
variable {s : State} {off total : Nat} {bytes : List Byte}

theorem sorusData_ignored (h : s.dev.isHead = true ∧ s.dev.phase ≠ .booting ∨ off ≠ 0 ∧ off ≠ s.dev.fw.staged.length) :
    Gives (.sorusData off total bytes) s s :=
  dev_makes (execSorusData.eq_def ..) rfl (if_pos (by rw [Bool.or_eq_true, misplaced_iff, Bool.and_eq_true, bne_iff_ne]; exact h))

/-- The device that holds a part of its copy. -/
def copyHeld (d : Dev) (st : List Byte) (total : Nat) (whole : Bool) : Dev := onFw d { d.fw with
  staged := st
  stagedTotal := total
  stagedLast := whole }

variable (hh : s.dev.isHead = false) (hp : s.dev.phase ≠ .booting)
include hh

theorem sorusData_taken (ho : off = 0 ∨ off = s.dev.fw.staged.length) :
    ¬((s.dev.isHead && s.dev.phase != .booting) || (off != 0 && off != s.dev.fw.staged.length)) = true := by
  rw [Bool.or_eq_true, misplaced_iff, hh, Bool.false_and]
  rintro (h | ⟨h1, h2⟩)
  · exact Bool.false_ne_true h
  · exact ho.elim h1 h2

theorem sorusData_part (ho : off = s.dev.fw.staged.length) (h0 : off ≠ 0) (hl : off + bytes.length ≠ total) :
    Makes (.sorusData off total bytes) s (copyHeld s.dev (s.dev.fw.staged ++ bytes) total false) := by
  have hst : (if (off == 0) = true then [] else s.dev.fw.staged) = s.dev.fw.staged := if_neg (mt beq_iff_eq.1 h0)
  have hlen : (s.dev.fw.staged ++ bytes).length ≠ total := by
    rw [List.length_append, ← ho]
    exact hl
  refine dev_makes (execSorusData.eq_def ..) rfl ((if_neg (sorusData_taken hh (.inr ho))).trans
    ((if_pos (bne_iff_ne.2 ?_)).trans ((if_neg ?_).trans ?_)))
  · rw [hst]
    exact hlen
  · rw [beq_eq_false_iff_ne.2 h0]
    exact Bool.false_ne_true
  · refine (congrArg (fun st => copyHeld s.dev (st ++ bytes) total ((st ++ bytes).length == total)) hst).trans ?_
    rw [beq_eq_false_iff_ne.2 hlen]

/-- What a socket does once its copy is whole and the update is fresh: READY, or ABORT with the check that fails. -/
def copyJudged (d : Dev) (v : Nat) : Dev :=
  if d.sorusVerdict v = 0 then d.prepare else (d.abortUpdate (d.sorusVerdict v)).updSend updAbort 0 (d.sorusVerdict v)

/-- The device that has its whole copy, in phase 3. -/
def copyWhole (d : Dev) (st : List Byte) (total : Nat) : Dev := (copyHeld d st total true).updPhase 3

omit hh in
theorem phase_copyWhole (d : Dev) (st : List Byte) : (copyWhole d st total).phase = d.phase :=
  (of_quiet Dev.phase (fun _ => rfl) (quiet_updPhase (copyHeld d st total true) 3)).trans rfl

include hp in
theorem sorusData_whole (hl : bytes.length = total) : Makes (.sorusData 0 total bytes) s
    (copyJudged (copyWhole s.dev bytes total).freshUpdate (Config.sorusCheck bytes)) := by
  refine dev_makes (execSorusData.eq_def ..) rfl ((if_neg (sorusData_taken hh (.inl rfl))).trans ?_)
  extract_lets st w d1 d2 d3
  have h1 : d1 = copyHeld s.dev bytes total true := congrArg (copyHeld s.dev bytes total) (beq_iff_eq.2 hl)
  have hst : st = bytes := rfl
  have h2 : d2 = if ((0 : Nat) == 0 && d1.phase != .booting) = true then d1.updPhase 3 else d1 := rfl
  have h3 : d3 = d2.freshUpdate := rfl
  clear_value d3 d2 d1 w st
  rw [h1, if_pos (by rw [beq_self_eq_true, Bool.true_and]; exact bne_iff_ne.2 hp)] at h2
  change d2 = copyWhole s.dev bytes total at h2
  have hq : d2.phase ≠ .booting := by
    rw [h2, phase_copyWhole]
    exact hp
  rw [← h2, ← h3, hst]
  refine (if_neg (by rw [bne_iff_ne]; exact absurd hl)).trans ((if_neg (mt beq_iff_eq.1 hq)).trans ?_)
  unfold copyJudged
  split
  case h_1 h0 => exact (if_pos h0).symm
  case h_2 hn => exact (if_neg hn).symm

omit hh in
theorem copyFresh_spec (d : Dev) (st : List Byte) :
    (copyWhole d st total).freshUpdate.fw.staged = st ∧ (copyWhole d st total).freshUpdate.fw.running = d.fw.running ∧
    (copyWhole d st total).freshUpdate.fw.svn = d.fw.svn ∧ (copyWhole d st total).freshUpdate.fw.armA = none ∧
    (copyWhole d st total).freshUpdate.fld R.UPD_STATUS_PHASE = 3 ∧
    ∀ f : Field, f.reg ≠ R.UPD_FRAME_FRAME.reg → f.reg ≠ R.UPD_STATUS_PHASE.reg →
      (copyWhole d st total).freshUpdate.flag f = d.flag f := by
  obtain ⟨hs, hr, hv, ha⟩ := freshFw_keeps (copyWhole d st total).fw
  rw [← fw_freshUpdate] at hs hr hv ha
  exact ⟨hs.trans (fw_updPhase (copyHeld d st total true) Fw.staged (fun _ => rfl) 3),
    hr.trans (fw_updPhase (copyHeld d st total true) Fw.running (fun _ => rfl) 3),
    hv.trans (fw_updPhase (copyHeld d st total true) Fw.svn (fun _ => rfl) 3), ha,
    (fld_freshUpdate _ (by decide) (.inl (by decide))).trans (phase_updPhase _ (by decide)),
    fun f h1 h2 => (flag_freshUpdate _ h1 h2).trans (flag_updPhase_other _ 3 h2)⟩

omit hh in
theorem copyJudged_spec {d e : Dev} {v : Nat} (h3 : e.fld R.UPD_STATUS_PHASE = 3) (ha : e.fw.armA = none) (hh : e.isHead = false)
    (hm : e.flag R.CHAIN_STATUS_MSG_DOWN = d.flag R.CHAIN_STATUS_MSG_DOWN) :
    (copyJudged e v).fw.staged = e.fw.staged ∧
    (e.sorusVerdict v = 0 → (copyJudged e v).fld R.UPD_STATUS_PHASE = 4 ∧ (copyJudged e v).fw.previous = e.fw.running ∧
      sentLast updReady 0 d (copyJudged e v)) ∧
    (e.sorusVerdict v ≠ 0 → e.sorusVerdict v < 256 → updateAborted (e.sorusVerdict v) (copyJudged e v) ∧
      sentLast updAbort 0 d (copyJudged e v)) := by
  unfold copyJudged
  by_cases hv : e.sorusVerdict v = 0
  · obtain ⟨hp, hs, h4, hl⟩ := prepare_other e hh
    rw [if_pos hv]
    refine ⟨hs, fun _ => ⟨h4, hp, fun hd => hl (hm.trans hd)⟩, fun hn => absurd hv hn⟩
  · have hb := mayAbort_unarmed e h3 (by decide) (by decide) ha
    rw [if_neg hv]
    refine ⟨fw_abortUpdate_staged e _, fun h => absurd h hv, fun _ hr => ⟨updateAborted_abortUpdate e hb hr, sentLast_updSend ?_ _ _ _⟩⟩
    exact (congrArg (· != 0) (fld_abortUpdate_other e _ (by decide))).trans hm

include hp in
theorem sorusData_judged (hl : bytes.length = total) : MakesSome (.sorusData 0 total bytes) s fun e =>
    e.fw.staged = bytes ∧
    ((onFw s.dev { s.dev.fw with staged := bytes }).sorusVerdict (Config.sorusCheck bytes) = 0 →
      e.fld R.UPD_STATUS_PHASE = 4 ∧ e.fw.previous = s.dev.fw.running ∧ sentLast updReady 0 s.dev e) ∧
    ((onFw s.dev { s.dev.fw with staged := bytes }).sorusVerdict (Config.sorusCheck bytes) ≠ 0 →
      (onFw s.dev { s.dev.fw with staged := bytes }).sorusVerdict (Config.sorusCheck bytes) < 256 →
      updateAborted ((onFw s.dev { s.dev.fw with staged := bytes }).sorusVerdict (Config.sorusCheck bytes)) e ∧
        sentLast updAbort 0 s.dev e) := by
  obtain ⟨hs, hr, hv, ha, h3, hf⟩ := copyFresh_spec (total := total) s.dev bytes
  have hk := sorusVerdict_congr (d := onFw s.dev { s.dev.fw with staged := bytes }) hs hv (Config.sorusCheck bytes)
  obtain ⟨h0, h1, h2⟩ := copyJudged_spec (d := s.dev) (v := Config.sorusCheck bytes) h3 ha
    ((hf R.IDENT_CHAIN_HEAD (by decide) (by decide)).trans hh) (hf R.CHAIN_STATUS_MSG_DOWN (by decide) (by decide))
  rw [hk, hr] at h1
  rw [hk] at h2
  exact ⟨_, sorusData_whole hh hp hl, h0.trans hs, h1, h2⟩

end

theorem sorusIsStaged_hold : sorusIsStaged := by
  intro s ch
  dsimp only
  refine ⟨fun off total last start rb bytes => ⟨sorusChunk_relayed, fun hh => ⟨?_, ?_, ?_, ?_⟩⟩, fun x => ⟨updateStart_relayed, fun hh => updateStart_busy hh,
    fun hh => updateStart_unstaged hh, fun hh => updateStart_starts hh⟩, updateAbort_relayed, updateAbort_refused, updateAbort_aborts,
    fun off total bytes => ⟨sorusData_ignored, ?_, ?_⟩⟩
  · exact fun hb => sorusChunk_answers hh (stageChunk_busy hb)
  · exact fun hb hbad => sorusChunk_answers hh (stageChunk_bad hb hbad)
  · exact fun hb hg h0 hn => sorusChunk_answers hh (stageChunk_misplaced hb hg h0 hn)
  · exact fun hb hg hp hl => sorusChunk_answers hh (stageChunk_stages hb hg hp hl rfl)
  · exact fun hh _ ho h0 hl => sorusData_part hh ho h0 hl
  · rintro hh hp rfl hl
    exact sorusData_judged hh hp hl

/-! ### Messages of the update -/

section
variable {s : State} {m : UpdMsg}

theorem otherSorus_ignored (hm : m.src < 8) (h : m.sorusId ≠ s.dev.fw.sorusId) :
    Gives (.ready m) s s ∧ Gives (.arm m) s s ∧ Gives (.armed m) s s ∧ Gives (.activated m) s s ∧ Gives (.notActivated m) s s := by
  have hn : (m.sorusId == s.dev.fw.sorusId) = false := beq_eq_false_iff_ne.2 h
  have hok := decide_eq_true hm
  refine ⟨dev_makes (execReady.eq_def ..) hok (if_neg ?_), dev_makes (execArm.eq_def ..) hok (if_pos ?_),
    dev_makes (execArmed.eq_def ..) hok (if_neg ?_), dev_makes (execActivated.eq_def ..) hok (if_neg ?_),
    dev_makes (execNotActivated.eq_def ..) hok (if_neg ?_)⟩
  · rw [hn]
    exact Bool.false_ne_true
  · rw [Bool.or_eq_true]
    exact .inr (bne_iff_ne.2 h)
  · rw [hn, Bool.and_false]
    exact Bool.false_ne_true
  · rw [hn, Bool.and_false]
    exact Bool.false_ne_true
  · rw [hn, Bool.and_false]
    exact Bool.false_ne_true

/-- Every targeted socket is in the mask. -/
def allIn (d : Dev) (mask : Nat) : Prop := mask &&& d.targets = d.targets

theorem ready_counts (hm : m.src < 8) (h : m.sorusId = s.dev.fw.sorusId) (hh : s.dev.isHead = true)
    (hp : s.dev.fld R.UPD_STATUS_PHASE = 3 ∨ s.dev.fld R.UPD_STATUS_PHASE = 4) :
    (¬allIn s.dev (s.dev.fld R.UPD_STATUS_READY ||| 2 ^ m.src) →
      Makes (.ready m) s (s.dev.setFld R.UPD_STATUS_READY (s.dev.fld R.UPD_STATUS_READY ||| 2 ^ m.src))) ∧
    (allIn s.dev (s.dev.fld R.UPD_STATUS_READY ||| 2 ^ m.src) →
      Makes (.ready m) s (s.dev.setFld R.UPD_STATUS_READY (s.dev.fld R.UPD_STATUS_READY ||| 2 ^ m.src)).armAll) := by
  have hr := (execReady.eq_def m s)
  refine ⟨fun hn => dev_makes hr (decide_eq_true hm) ?_, fun ha => dev_makes hr (decide_eq_true hm) ?_⟩
  · exact (if_pos (beq_iff_eq.2 h)).trans ((readyFrom_eq _ hh hp).trans (if_neg hn))
  · exact (if_pos (beq_iff_eq.2 h)).trans ((readyFrom_eq _ hh hp).trans (if_pos ha))

theorem sentLast_congr {sub : Nat} {a : Word} {d x e : Dev} (hf : x.flag R.CHAIN_STATUS_MSG_DOWN = d.flag R.CHAIN_STATUS_MSG_DOWN)
    (h : sentLast sub a x e) : sentLast sub a d e := fun hd => h (hf.trans hd)

theorem mayAbort_congr {d e : Dev} (h1 : e.fld R.UPD_STATUS_PHASE = d.fld R.UPD_STATUS_PHASE) (h2 : e.fw.armA = d.fw.armA)
    (h3 : e.frame = d.frame) : e.mayAbort = d.mayAbort := by
  unfold Dev.mayAbort
  rw [h1, h2, h3]

theorem ready_arms (hm : m.src < 8) (h : m.sorusId = s.dev.fw.sorusId) (hh : s.dev.isHead = true)
    (hp : s.dev.fld R.UPD_STATUS_PHASE = 3 ∨ s.dev.fld R.UPD_STATUS_PHASE = 4)
    (hall : allIn s.dev (s.dev.fld R.UPD_STATUS_READY ||| 2 ^ m.src)) {a : Word} (ha : s.dev.frame + BitVec.ofNat 64 s.dev.updLead = a) :
    MakesSome (.ready m) s fun e => e.fld R.UPD_STATUS_PHASE = 5 ∧ e.fw.armA = some a ∧ e.reg R.UPD_FRAME_FRAME.reg = a ∧
      e.fw.confirmed = false ∧ e.fw.armedMask = 2 ^ s.dev.self ∧ sentLast updArm a s.dev e := by
  have hk := (ready_counts hm h hh hp).2 hall
  have hfr : ∀ n, (s.dev.setFld R.UPD_STATUS_READY n).frame = s.dev.frame := fun n => reg_setFld_other _ _ _ _ (by decide)
  have hle : ∀ n, (s.dev.setFld R.UPD_STATUS_READY n).updLead = s.dev.updLead := fun n => updLead_congr (fw_setFld _ _ _)
  have hse : ∀ n, (s.dev.setFld R.UPD_STATUS_READY n).self = s.dev.self := fun n => fld_setFld_reg _ _ _ _ (by decide)
  have hfl : ∀ n, (s.dev.setFld R.UPD_STATUS_READY n).flag R.CHAIN_STATUS_MSG_DOWN = s.dev.flag R.CHAIN_STATUS_MSG_DOWN := fun n =>
    flag_setFld_reg _ _ _ _ (by decide)
  obtain ⟨h5, hA, hR, hC, hM, hS⟩ := armAll_spec (s.dev.setFld R.UPD_STATUS_READY (s.dev.fld R.UPD_STATUS_READY ||| 2 ^ m.src)) (a := a)
    (by rw [hfr, hle]; exact ha)
  exact ⟨_, hk, h5, hA, hR, hC, hM.trans (congrArg _ (hse _)), sentLast_congr (hfl _) hS⟩

theorem arm_arms (hm : m.src < 8) (h : m.sorusId = s.dev.fw.sorusId) (hh : s.dev.isHead = false) (hb : s.dev.mayAbort = true) :
    MakesSome (.arm m) s fun e =>
      e.fld R.UPD_STATUS_PHASE = 5 ∧ e.fw.armA = some m.frame ∧ e.fw.confirmed = false ∧ sentLast updArmed m.frame s.dev e := by
  refine ⟨(armShown (onFw s.dev { s.dev.fw with
    armA := some m.frame
    confirmed := false }) m.frame).updSend updArmed m.frame 0, dev_makes (execArm.eq_def ..) (decide_eq_true hm) (if_neg ?_), ?_⟩
  · rw [hh, hb, bne, beq_iff_eq.2 h]
    decide
  · exact ⟨phase_armShown _ _, fw_armShown (onFw s.dev _) Fw.armA (fun _ => rfl) m.frame,
      fw_armShown (onFw s.dev _) Fw.confirmed (fun _ => rfl) m.frame,
      sentLast_updSend ((flag_armShown (onFw s.dev _) _ (by decide) (by decide)).trans (flag_onFw _ _ _)) _ _ _⟩

theorem armed_counts (hm : m.src < 8) (h : m.sorusId = s.dev.fw.sorusId) (hh : s.dev.isHead = true)
    (hp : s.dev.fld R.UPD_STATUS_PHASE = 5) :
    Makes (.armed m) s { s.dev with fw := { s.dev.fw with armedMask := s.dev.fw.armedMask ||| 2 ^ m.src } } :=
  dev_makes (execArmed.eq_def ..) (decide_eq_true hm) (if_pos (by rw [hh, hp, beq_iff_eq.2 h]; rfl))

theorem confirm_holds (hm : m.src < 8) (h : m.sorusId = s.dev.fw.sorusId) {a : Word} (ha : s.dev.fw.armA = some a)
    (hb : s.dev.fw.aborted = false) :
    (s.dev.isHead = false ∨ s.dev.frame.toNat + 500 ≤ a.toNat →
      Makes (.confirm m) s { s.dev with fw := { s.dev.fw with confirmed := true } }) ∧
    (s.dev.isHead = true → a.toNat < s.dev.frame.toNat + 500 → s.dev.mayAbort = true → MakesSome (.confirm m) s (updateAborted 5)) := by
  have hn : ¬(m.sorusId != s.dev.fw.sorusId || s.dev.fw.aborted) = true := by
    rw [bne, beq_iff_eq.2 h, hb]
    decide
  refine ⟨fun hc => dev_makes (execConfirm.eq_def ..) (decide_eq_true hm) ?_, fun hh hl hmay =>
    ⟨_, dev_makes (execConfirm.eq_def ..) (decide_eq_true hm) ?_, updateAborted_abortAll s.dev hmay (by decide)⟩⟩
  · rw [ha]
    refine (if_neg hn).trans (if_neg ?_)
    rw [Bool.and_eq_true, decide_eq_true_iff]
    rintro ⟨hh, hl⟩
    rcases hc with hc | hc
    · exact Bool.false_ne_true (hc.symm.trans hh)
    · omega
  · rw [ha]
    exact (if_neg hn).trans (if_pos (by rw [hh, Bool.true_and, decide_eq_true_iff]; exact hl))

theorem abort_ends (hm : m.src < 8) (h : m.sorusId = s.dev.fw.sorusId) (hs : m.src ≠ s.dev.self) (hb : s.dev.mayAbort = true) :
    MakesSome (.abort m) s fun e => updateAborted m.reason.toNat e ∧ (s.dev.isHead = true → sentLast updAbort 0 s.dev e) := by
  have hk := (mayAbort_congr (e := onFw s.dev { s.dev.fw with
    reasons := SMap.set (fun _ => 0) s.dev.fw.reasons m.src m.reason.toNat }) rfl rfl rfl).trans hb
  exact ⟨_, dev_makes (execAbort.eq_def ..) (decide_eq_true hm)
    ((if_pos (by rw [Bool.or_eq_true]; exact .inl (beq_iff_eq.2 h))).trans (if_neg (mt beq_iff_eq.1 hs))),
    updateAborted_abortAll (onFw s.dev _) hk m.reason.isLt, fun hh => sentLast_congr (flag_onFw _ _ _) (sentLast_abortAll (onFw s.dev _) hk hh)⟩

theorem natBit_sub_two_pow {n k : Nat} (h : natBit n k = true) : natBit (n - 2 ^ k) k = false := by
  have hlt : 2 ^ k ≤ n := by
    rw [natBit_eq_testBit] at h
    exact Nat.ge_two_pow_of_testBit h
  have hd : (n - 2 ^ k) / 2 ^ k = n / 2 ^ k - 1 := by
    have := Nat.sub_mul_div n (2 ^ k) 1
    rwa [Nat.mul_one] at this
  unfold natBit at h ⊢
  rw [beq_iff_eq] at h
  rw [hd, beq_eq_false_iff_ne]
  omega

/-- What the head knows of a socket that has activated. -/
def cleared (n k : Nat) : Nat := if natBit n k then n - 2 ^ k else n

theorem natBit_cleared (n k : Nat) : natBit (cleared n k) k = false := by
  unfold cleared
  split
  case isTrue h => exact natBit_sub_two_pow h
  case isFalse h => exact Bool.eq_false_iff.2 h

theorem activated_lt (hm : m.src < 8) : s.dev.fld R.UPD_STATUS_ACTIVATED ||| 2 ^ m.src < 2 ^ R.UPD_STATUS_ACTIVATED.width :=
  Nat.or_lt_two_pow (getF_lt _ _ _) (Nat.pow_lt_pow_right (by decide) hm)

theorem activated_counts (hm : m.src < 8) (h : m.sorusId = s.dev.fw.sorusId) (hh : s.dev.isHead = true) :
    MakesSome (.activated m) s fun e => natBit (e.fld R.UPD_STATUS_ACTIVATED) m.src = true ∧ natBit e.fw.notActivated m.src = false ∧
      (allIn s.dev (s.dev.fld R.UPD_STATUS_ACTIVATED ||| 2 ^ m.src) → e.fld R.UPD_STATUS_PHASE = 7) := by
  obtain ⟨mask, hmask⟩ : ∃ x, s.dev.fld R.UPD_STATUS_ACTIVATED ||| 2 ^ m.src = x := ⟨_, rfl⟩
  obtain ⟨z, hz⟩ : ∃ z, onFw (s.dev.setFld R.UPD_STATUS_ACTIVATED mask) { s.dev.fw with
    notActivated := cleared s.dev.fw.notActivated m.src } = z := ⟨_, rfl⟩
  have hA : z.fld R.UPD_STATUS_ACTIVATED = mask := by
    rw [← hz, fld_onFw]
    exact fld_setFld_lt _ (by decide) (hmask ▸ activated_lt hm)
  have hN : z.fw.notActivated = cleared s.dev.fw.notActivated m.src := by rw [← hz, fw_onFw]
  have hT : z.targets = s.dev.targets :=
    targets_congr (by rw [← hz, fw_onFw]) (by rw [← hz, fld_onFw]; exact fld_setFld_reg _ _ _ _ (by decide))
  have hH : z.isHead = true := by
    rw [Dev.isHead, ← hz, flag_onFw]
    exact (flag_setFld_reg _ _ _ _ (by decide)).trans hh
  have hbit : natBit mask m.src = true := by
    rw [← hmask, natBit_eq_testBit, Nat.testBit_or, Nat.testBit_two_pow_self, Bool.or_true]
  rw [hmask]
  refine ⟨z.settleUpdate, dev_makes (execActivated.eq_def ..) (decide_eq_true hm) ?_, ?_, ?_, fun hall => ?_⟩
  · rw [← hz, ← hmask]
    exact if_pos (by rw [hh, beq_iff_eq.2 h]; rfl)
  · rw [fld_settleUpdate_apart _ (by decide), hA]
    exact hbit
  · rw [fw_settleUpdate _ Fw.notActivated fun _ => rfl, hN]
    exact natBit_cleared _ _
  · unfold Dev.settleUpdate
    rw [if_pos (by rw [hH, hA, hT, Bool.true_and, beq_iff_eq]; exact hall)]
    exact phase_updPhase _ (by decide)

theorem notActivated_counts (hm : m.src < 8) (h : m.sorusId = s.dev.fw.sorusId) (hh : s.dev.isHead = true) :
    MakesSome (.notActivated m) s fun e => natBit e.fw.notActivated m.src = true ∧
      (s.dev.fld R.UPD_STATUS_PHASE ≠ 8 → e.fld R.UPD_STATUS_PHASE = 5 ∧ e.fw.armA.isSome = true) := by
  obtain ⟨x, hx⟩ : ∃ x, onFw s.dev { s.dev.fw with notActivated := s.dev.fw.notActivated ||| 2 ^ m.src } = x := ⟨_, rfl⟩
  obtain ⟨z, hz⟩ : ∃ z, x.log { source := 0x10, inst := m.src, cls := 5 } = z := ⟨_, rfl⟩
  have hN : z.fw.notActivated = s.dev.fw.notActivated ||| 2 ^ m.src := by
    rw [← hz, of_quiet (fun x => x.fw.notActivated) (fun _ => rfl) (quiet_log _ _), ← hx, fw_onFw]
  have hP : z.fld R.UPD_STATUS_PHASE = s.dev.fld R.UPD_STATUS_PHASE := by
    rw [← hz, fld_log_other _ _ (by decide), ← hx, fld_onFw]
  have hbit : natBit (s.dev.fw.notActivated ||| 2 ^ m.src) m.src = true := by
    rw [natBit_eq_testBit, Nat.testBit_or, Nat.testBit_two_pow_self, Bool.or_true]
  refine ⟨if z.fld R.UPD_STATUS_PHASE == 8 then z else z.armAll, dev_makes (execNotActivated.eq_def ..) (decide_eq_true hm) ?_, ?_, fun h8 => ?_⟩
  · rw [← hz, ← hx]
    exact if_pos (by rw [hh, beq_iff_eq.2 h]; rfl)
  · split
    · rw [hN]
      exact hbit
    · rw [fw_armAll _ Fw.notActivated (fun _ => rfl) fun _ _ _ _ => rfl, hN]
      exact hbit
  · rw [if_neg (by rw [beq_iff_eq, hP]; exact h8)]
    obtain ⟨h5, hA, -⟩ := armAll_spec z rfl
    exact ⟨h5, by rw [hA]; rfl⟩

end

/-! ### The head's deadlines -/

section
variable {s : State}

theorem deadlines_elsewhere (hh : s.dev.isHead = false) : Gives .updateDeadline s s ∧ Gives .confirmSend s s := by
  refine ⟨dev_makes (execUpdateDeadline.eq_def ..) rfl (if_pos (by rw [hh]; rfl)), dev_makes (execConfirmSend.eq_def ..) rfl ?_⟩
  split
  · rfl
  · exact if_pos (by rw [hh]; rfl)

variable (hh : s.dev.isHead = true)
include hh

theorem readyDeadline (hp : s.dev.fld R.UPD_STATUS_PHASE = 3 ∨ s.dev.fld R.UPD_STATUS_PHASE = 4) :
    (allIn s.dev (s.dev.fld R.UPD_STATUS_READY) → Gives .updateDeadline s s) ∧
    (¬allIn s.dev (s.dev.fld R.UPD_STATUS_READY) → s.dev.mayAbort = true → MakesSome .updateDeadline s (updateAborted 5)) := by
  have h1 : ¬(!s.dev.isHead) = true := by
    rw [hh]
    decide
  have h2 : (s.dev.fld R.UPD_STATUS_PHASE == 3 || s.dev.fld R.UPD_STATUS_PHASE == 4) = true := by
    rw [Bool.or_eq_true, beq_iff_eq, beq_iff_eq]
    exact hp
  exact ⟨fun ha => dev_makes (execUpdateDeadline.eq_def ..) rfl ((if_neg h1).trans ((if_pos h2).trans (if_pos (beq_iff_eq.2 ha)))),
    fun hn hb => ⟨_, dev_makes (execUpdateDeadline.eq_def ..) rfl ((if_neg h1).trans ((if_pos h2).trans (if_neg (mt beq_iff_eq.1 hn)))),
      updateAborted_abortAll s.dev hb (by decide)⟩⟩

variable (hp : s.dev.fld R.UPD_STATUS_PHASE = 5) {a : Word} (ha : s.dev.fw.armA = some a)
include hp ha

theorem armDeadline_passes (hb : s.dev.mayAbort = true) (h : a.toNat ≤ s.dev.frame.toNat + 1000 ∧ ¬allIn s.dev s.dev.fw.armedMask ∨
    a.toNat ≤ s.dev.frame.toNat + 500 ∧ s.dev.fw.confirmed = false) : MakesSome .updateDeadline s (updateAborted 5) := by
  refine ⟨_, dev_makes (execUpdateDeadline.eq_def ..) rfl ((if_neg (by rw [hh]; decide)).trans ((if_neg (by rw [hp]; decide)).trans ?_)),
    updateAborted_abortAll s.dev hb (by decide)⟩
  rw [ha]
  refine if_pos ?_
  rw [hp, beq_self_eq_true, Bool.true_and, Bool.or_eq_true, Bool.and_eq_true, Bool.and_eq_true, decide_eq_true_iff, decide_eq_true_iff,
    bne_iff_ne, Bool.not_eq_true']
  exact h

theorem confirmSend_hold :
    (s.dev.frame.toNat + 1000 < a.toNat → Gives .confirmSend s s) ∧
    (a.toNat ≤ s.dev.frame.toNat + 1000 → allIn s.dev s.dev.fw.armedMask → Makes .confirmSend s (s.dev.updSend updConfirm a 0)) ∧
    (a.toNat ≤ s.dev.frame.toNat + 1000 → ¬allIn s.dev s.dev.fw.armedMask → s.dev.mayAbort = true →
      MakesSome .confirmSend s (updateAborted 5)) := by
  have hw : (!s.dev.isHead || s.dev.fld R.UPD_STATUS_PHASE != 5 || decide (s.dev.frame.toNat + 1000 < a.toNat)) = true ↔
      s.dev.frame.toNat + 1000 < a.toNat := by
    rw [hh, hp, bne_self_eq_false, Bool.not_true, Bool.false_or, Bool.false_or, decide_eq_true_iff]
  refine ⟨fun h => dev_makes (execConfirmSend.eq_def ..) rfl ?_, fun h hall => dev_makes (execConfirmSend.eq_def ..) rfl ?_, fun h hn hb =>
    ⟨_, dev_makes (execConfirmSend.eq_def ..) rfl ?_, updateAborted_abortAll s.dev hb (by decide)⟩⟩
  · rw [ha]
    exact if_pos (hw.2 h)
  · rw [ha]
    exact (if_neg (mt hw.1 (by omega))).trans (if_pos (beq_iff_eq.2 hall))
  · rw [ha]
    exact (if_neg (mt hw.1 (by omega))).trans (if_neg (mt beq_iff_eq.1 hn))

end

theorem updateMessages_hold : updateMessages := by
  intro s m hm
  dsimp only
  exact ⟨otherSorus_ignored hm, fun h hh hp => ⟨(ready_counts hm h hh hp).1, fun hall => ready_arms hm h hh hp hall rfl⟩, arm_arms hm,
    armed_counts hm, fun h a ha hb => confirm_holds hm h ha hb, abort_ends hm, activated_counts hm, notActivated_counts hm,
    deadlines_elsewhere, readyDeadline, fun hh hp a ha => ⟨(confirmSend_hold hh hp ha).1, (confirmSend_hold hh hp ha).2.1,
      fun hf hn hb => ⟨(confirmSend_hold hh hp ha).2.2 hf hn hb, armDeadline_passes hh hp ha hb (.inl ⟨hf, hn⟩)⟩,
      fun hf hc hb => armDeadline_passes hh hp ha hb (.inr ⟨hf, hc⟩)⟩⟩

/-- Settles O54: the staging by the cases of a chunk and of a copy, the messages one by one. -/
theorem sorusUpdates : Obligations.SorusUpdates := ⟨sorusIsStaged_hold, updateMessages_hold⟩

end Sys2Proof.Proofs
end

