-- ==== Sys2Proof/Proofs/DescriptorsRun.lean ====
section
/-!
PROOFS. The descriptors of the Ledger Engine (R431, R433, R436): the engine's write of part of a line by where its address leads, what
running a descriptor leaves, and each operation on one line.
-/

namespace Sys2Proof.Proofs

open Sys2Proof Sys2Proof.Machine Sys2Proof.Laws

/-! ### The engine's writes -/

section
variable {s : State} {b : LedBy} {a : Nat} {bs : List Byte} {e : Dev}

theorem ledWrite_refused (h : s.dev.ioTo (fnRid b.fn) a true = .refused e) : s.ledWrite b a bs = .fail 2 { s with dev := e } := by
  unfold State.ledWrite
  rw [h]

theorem ledWrite_unclaimed (h : s.dev.ioTo (fnRid b.fn) a true = .unclaimed e) : s.ledWrite b a bs = .fail 1 { s with dev := e } := by
  unfold State.ledWrite
  rw [h]

theorem ledWindow_contained {pa pt : Nat} (hw : e.windowPort pa = some pt) (hc : e.contained pt = true) :
    e.ledWindow pa = (4, e.addSat (kpReg R.KPORT_COUNT_LOST pt) 1) := by
  unfold Dev.ledWindow
  rw [hw]
  exact if_pos hc

theorem ledWrite_contained {pa pt : Nat} (h : s.dev.ioTo (fnRid b.fn) a true = .window pa e) (hw : e.windowPort pa = some pt)
    (hc : e.contained pt = true) : s.ledWrite b a bs = .fail 4 { s with dev := e.addSat (kpReg R.KPORT_COUNT_LOST pt) 1 } := by
  unfold State.ledWrite
  rw [h]
  dsimp only
  rw [ledWindow_contained hw hc]
  exact if_neg (show ¬((4 : Nat) == leOk) = true by decide)

section
variable {pa key ipa : Nat}

theorem ledWrite_waits (h : s.dev.ioTo (fnRid b.fn) a true = .mem pa key ipa e) (hp : isPeat (pa / 64) = true)
    (hh : e.homedHere (pa / 64) = true) (hd : e.phase ≠ .drain) (hc : (e.stack (stackOf (pa / 64))).ledgerLeft = 0) :
    s.ledWrite b a bs = .wait { s with dev := e } := by
  have hl : e.ledCredit (pa / 64) = false := by
    unfold Dev.ledCredit
    rw [hh, hc, beq_eq_false_iff_ne.2 hd]
    decide
  unfold State.ledWrite
  rw [h]
  exact if_pos (by rw [hp, hl]; rfl)

/-- A write outside Peat goes to its line as a Stash once its page is logged. -/
theorem ledWrite_logged (h : s.dev.ioTo (fnRid b.fn) a true = .mem pa key ipa e) (hp : isPeat (pa / 64) = false) {x : Dev}
    (hl : e.logPage b.fn ipa = some x) :
    s.ledWrite b a bs = .ok (({ s with dev := x } : State).ioStash (pa / 64) (pa % 64) bs key b.target false) := by
  unfold State.ledWrite
  rw [h]
  refine (if_neg (by rw [hp, Bool.false_and]; exact Bool.false_ne_true)).trans ?_
  rw [hl]
  dsimp only
  rw [hp, Bool.false_and]
  exact congrArg LedPut.ok ((if_neg Bool.false_ne_true).trans (by rw [if_neg Bool.false_ne_true]))

theorem ledWrite_stalls (h : s.dev.ioTo (fnRid b.fn) a true = .mem pa key ipa e) (hp : isPeat (pa / 64) = false)
    (hl : e.logPage b.fn ipa = none) :
    s.ledWrite b a bs = .wait { s with dev := e.setFld (dlReg R.DLOG_CTL_STALLED b.fn) 1 } := by
  unfold State.ledWrite
  rw [h]
  refine (if_neg (by rw [hp, Bool.false_and]; exact Bool.false_ne_true)).trans ?_
  rw [hl]

end

/-! ### Dirty-page logging of a write -/

section
variable {f ipa : Nat}

theorem logPage_off (h : f = 0 ∨ e.flag (dlReg R.DLOG_CTL_EN f) = false) : e.logPage f ipa = some e :=
  if_pos (by rw [Bool.or_eq_true, beq_iff_eq, Bool.not_eq_true']; exact h)

variable (h0 : f ≠ 0) (hen : e.flag (dlReg R.DLOG_CTL_EN f) = true)
include h0 hen

theorem logs : ¬(f == 0 || !e.flag (dlReg R.DLOG_CTL_EN f)) = true := by
  rw [hen, beq_eq_false_iff_ne.2 h0]
  decide

theorem logPage_bitmap (hm : e.duty 1 = false) : e.logPage f ipa = some (e.logBit f (ipa / 4096)) :=
  (if_neg (logs h0 hen)).trans (if_pos (by rw [hm]; rfl))

theorem logPage_ring (hm : e.duty 1 = true) (hf : e.dlFull f = false) : e.logPage f ipa = some (e.logEntry f (ipa / 4096)) :=
  (if_neg (logs h0 hen)).trans ((if_neg (by rw [hm]; decide)).trans (if_pos (by rw [hf]; rfl)))

theorem logPage_full (hm : e.duty 1 = true) (hf : e.dlFull f = true) (hs : e.flag (dlReg R.DLOG_CTL_FULL_STALL f) = true)
    (hp : e.phase = .running) : e.logPage f ipa = none :=
  (if_neg (logs h0 hen)).trans ((if_neg (by rw [hm]; decide)).trans ((if_neg (by rw [hf]; decide)).trans
    (if_pos (by rw [hs, hp]; rfl))))

end

end

theorem logBit_beyond {e : Dev} {v page : Nat} (h : e.fld (dlReg R.DLOG_CTL_GIB v) * 2 ^ 18 ≤ page) :
    e.logBit v page = e.setFld (dlReg R.DLOG_CTL_OVERFLOW v) 1 := if_pos h

theorem logBit_within {e : Dev} {v page : Nat} (h : page < e.fld (dlReg R.DLOG_CTL_GIB v) * 2 ^ 18) :
    e.logBit v page = (e.farWord (e.fld (dlReg (if e.fld (dlReg R.DLOG_GEN_GEN_ACK v) % 2 = 0 then R.DLOG_MAP0_ADDR
      else R.DLOG_MAP1_ADDR) v) * 4096 + page / 64 * 8) fun w => w ||| 2 ^ (page % 64)).2 := by
  refine (if_neg (by omega)).trans ?_
  rw [if_congr beq_iff_eq rfl rfl]

theorem engineWrites_hold : engineWrites := by
  intro s b a bs
  dsimp only
  refine ⟨fun e => ledWrite_refused, fun e => ledWrite_unclaimed, fun e pa pt => ledWrite_contained, fun e pa key ipa h =>
    ⟨ledWrite_waits h, fun hp hl => ledWrite_logged h hp (logPage_off hl), fun hp h0 hen hm hb => ?_, fun hp h0 hen hm hb => ?_,
      fun hp h0 hr hf => ?_, fun hp h0 hr hf hs hph => ledWrite_stalls h hp (logPage_full h0 hr.1 hr.2 hf hs hph)⟩⟩
  · exact ledWrite_logged h hp ((logPage_bitmap h0 hen hm).trans (congrArg some (logBit_beyond hb)))
  · exact ledWrite_logged h hp ((logPage_bitmap h0 hen hm).trans (congrArg some (logBit_within hb)))
  · exact ledWrite_logged h hp (logPage_ring h0 hr.1 hr.2 hf)

/-! ### Parts of a line -/

theorem parts_zero (unit fuel a : Nat) : parts unit fuel a 0 = [] := by
  cases fuel with
  | zero => rfl
  | succ fuel => exact if_pos rfl

theorem lineParts_zero (a : Nat) : lineParts a 0 = [] := parts_zero _ _ _

theorem lineParts_one {a n : Nat} (h0 : 0 < n) (h : a % 64 + n ≤ 64) : lineParts a n = [(a, n)] := by
  have hk : Nat.min n (64 - a % 64) = n := Nat.min_eq_left (by omega)
  refine (if_neg (mt beq_iff_eq.1 (by omega))).trans ?_
  rw [hk, Nat.sub_self, parts_zero]

/-! ### Running a descriptor -/

section
variable {s : State} {q sq : Nat} {x : Desc}

theorem runDesc_ends {op : Nat} {target : Desc → BitVec 16} {f : LedBy → Desc → Run → Run} {result : Desc → Run → Nat}
    (hd : s.dev.desc q sq = some x) (hm : s.dev.mayRun q x = true) (hop : x.op = op) (h0 : x.bytes = 0) {z : State} {n st : Nat}
    (hr : f ⟨s.dev.qOwner q, q, sq, 0, target x, if x.op == 2 then none else some (x.src, x.len)⟩ x ⟨s, 0, 0, false⟩ = ⟨z, n, st, false⟩) :
    s.runDesc q sq op target f result = { z with dev := z.dev.setDesc q sq fun e => { e with
      started := true
      done := true
      status := st
      bytes := n
      result := word (result x ⟨z, n, st, false⟩) } } := by
  unfold State.runDesc
  rw [hd]
  refine (if_neg (by rw [hop, hm, bne_self_eq_false]; decide)).trans ?_
  rw [h0]
  dsimp only
  rw [hr]
  rfl

theorem ledger_gives {c : Instr} {f : State → State} {t : State} (hc : exec c s = onLedger (queueOk q) f s) (hq : q < 8192)
    (hk : s.dev.clocksOk = true) (hf : f s = t) : Gives c s t := by
  refine hc.trans ?_
  unfold onLedger
  rw [show queueOk q = true from decide_eq_true hq, if_neg (by decide), if_pos hk, hf]

end

/-! ### Writes of one part -/

section
variable {b : LedBy} {a : Nat} {bs : List Byte} {r : Run}

theorem runWrite_nil : runWrite b a [] r = r := by
  unfold runWrite
  rw [show lineParts a ([] : List Byte).length = [] from lineParts_zero a]
  rfl

/-- A part that the descriptor's own source does not overlap. -/
def clearOf (b : LedBy) (a n : Nat) : Prop := ∀ lo k, b.src = some (lo, k) → a + n ≤ lo ∨ lo + k ≤ a

theorem overlapped_clear {d : Dev} (h : clearOf b a bs.length) : d.overlapped b a bs = (bs, d) := by
  unfold Dev.overlapped
  split
  · rfl
  case h_2 lo n hs =>
    refine if_neg ?_
    rw [Bool.and_eq_true, decide_eq_true_iff, decide_eq_true_iff]
    have := h lo n hs
    omega

/-- How far a write has come with one more part of n bytes. -/
def putRun (done n : Nat) : LedPut → Run
  | .ok s => ⟨s, done + n, 0, false⟩
  | .fail e s => ⟨s, done, e, false⟩
  | .wait s => ⟨s, done, 0, true⟩

/-- A write within one line is the engine's write of that part. -/
theorem runWrite_one {u : State} {n : Nat} (h0 : 0 < bs.length) (hl : a % 64 + bs.length ≤ 64) (hc : clearOf b a bs.length) :
    runWrite b a bs ⟨u, n, 0, false⟩ = putRun n bs.length (u.ledWrite { b with off := n } a bs) := by
  unfold runWrite
  rw [lineParts_one h0 hl, List.foldl_cons, List.foldl_nil]
  refine (if_neg (show ¬(((0 : Nat) != leOk) || false) = true by decide)).trans ?_
  have hb : (bs.drop (a - a)).take bs.length = bs := by rw [Nat.sub_self, List.drop_zero, List.take_length]
  dsimp only
  rw [hb, overlapped_clear hc]
  dsimp only
  cases u.ledWrite { b with off := n } a bs with
  | ok s => rfl
  | fail e s => rfl
  | wait s => rfl

end

/-! ### Operations on one line -/

section
variable {s : State} {q sq : Nat} {x : Desc}

theorem firstDiff_self (bs : List Byte) : firstDiff bs bs = bs.length := by
  induction bs with
  | nil => rfl
  | cons a as ih => exact (if_pos (beq_self_eq_true a)).trans (congrArg (· + 1) ih)

theorem firstDiff_at {k : Nat} {as bs : List Byte} (ha : k < as.length) (hb : k < bs.length) (ht : as.take k = bs.take k)
    (hk : as[k]? ≠ bs[k]?) : firstDiff as bs = k := by
  induction k generalizing as bs with
  | zero =>
    cases as with
    | nil => exact absurd ha (Nat.not_lt_zero _)
    | cons a as =>
      cases bs with
      | nil => exact absurd hb (Nat.not_lt_zero _)
      | cons b bs => exact if_neg (mt beq_iff_eq.1 fun h => hk (congrArg some h))
  | succ k ih =>
    cases as with
    | nil => exact absurd ha (Nat.not_lt_zero _)
    | cons a as =>
      cases bs with
      | nil => exact absurd hb (Nat.not_lt_zero _)
      | cons b bs =>
        obtain ⟨hab, ht⟩ := List.cons.inj ht
        exact (if_pos (beq_iff_eq.2 hab)).trans (congrArg (· + 1)
          (ih (Nat.lt_of_succ_lt_succ ha) (Nat.lt_of_succ_lt_succ hb) ht hk))

/-- The descriptor's source as its function reads it. -/
def sourceRead (s : State) (q : Nat) (x : Desc) : LedGot := s.dev.ledRead (fnRid (s.dev.qOwner q)) x.src x.len

/-- Who writes for the descriptor. -/
def writerOf (s : State) (q sq : Nat) (target : BitVec 16) (src : Option (Nat × Nat)) : LedBy := ⟨s.dev.qOwner q, q, sq, 0, target, src⟩

theorem writer_clear {a n : Nat} {target : BitVec 16} (h : a + n ≤ x.src ∨ x.src + x.len ≤ a) :
    clearOf (writerOf s q sq target (some (x.src, x.len))) a n := by
  intro lo k hs
  obtain ⟨rfl, rfl⟩ := Prod.mk.inj (Option.some.inj hs)
  exact h

theorem putRun_zero (n : Nat) (p : LedPut) :
    (if (putRun 0 n p).status != leOk || (putRun 0 n p).waits then putRun 0 n p
      else { putRun 0 n p with status := 0 }) = putRun 0 n p := by
  split
  · rfl
  case isFalse h =>
    cases p with
    | ok s => rfl
    | wait s => rfl
    | fail e s =>
      have he : e = 0 := by
        rw [Bool.or_eq_true, not_or, bne_iff_ne, not_not] at h
        exact h.1
      subst he
      rfl

section
variable {target : BitVec 16} (h0 : 0 < x.len) (hl : x.dst % 64 + x.len ≤ 64)
include h0 hl

theorem runCopy_one {b : LedBy} : runCopy b x ⟨s, 0, 0, false⟩ = copyPart b x ⟨s, 0, 0, false⟩ (x.dst, x.len) := by
  unfold runCopy
  rw [show x.dst + (⟨s, 0, 0, false⟩ : Run).bytes = x.dst from rfl, show x.len - (⟨s, 0, 0, false⟩ : Run).bytes = x.len from rfl,
    lineParts_one h0 hl]
  rfl

omit h0 hl in
theorem copyPart_of (src : Option (Nat × Nat)) {g : LedGot} {w : Run} (hg : sourceRead s q x = g)
    (hw : runWrite (writerOf s q sq target src) x.dst g.bytes ⟨{ s with dev := g.dev }, 0, 0, false⟩ = w) :
    copyPart (writerOf s q sq target src) x ⟨s, 0, 0, false⟩ (x.dst, x.len) =
      if w.status != leOk || w.waits then w else { w with status := g.status } := by
  have hr : s.dev.ledRead (fnRid (writerOf s q sq target src).fn) (x.src + (x.dst - x.dst)) x.len = g := by
    rw [Nat.sub_self]
    exact hg
  unfold copyPart
  refine (if_neg (show ¬(((0 : Nat) != leOk) || false) = true by decide)).trans ?_
  dsimp only
  rw [hr, hw]

theorem runCopy_unread (src : Option (Nat × Nat)) (hn : (sourceRead s q x).bytes = []) :
    runCopy (writerOf s q sq target src) x ⟨s, 0, 0, false⟩ =
      ⟨{ s with dev := (sourceRead s q x).dev }, 0, (sourceRead s q x).status, false⟩ := by
  have hw (r : Run) : runWrite (writerOf s q sq target src) x.dst (sourceRead s q x).bytes r = r := by
    rw [hn]
    exact runWrite_nil
  rw [runCopy_one h0 hl, copyPart_of src rfl (hw _)]
  exact if_neg (show ¬(((0 : Nat) != leOk) || false) = true by decide)

theorem runCopy_read (hg : (sourceRead s q x).status = 0) (hn : (sourceRead s q x).bytes.length = x.len)
    (ha : x.dst + x.len ≤ x.src ∨ x.src + x.len ≤ x.dst) :
    runCopy (writerOf s q sq target (some (x.src, x.len))) x ⟨s, 0, 0, false⟩ =
      putRun 0 x.len (({ s with dev := (sourceRead s q x).dev } : State).ledWrite (writerOf s q sq target (some (x.src, x.len))) x.dst
        (sourceRead s q x).bytes) := by
  have hw := runWrite_one (b := writerOf s q sq target (some (x.src, x.len))) (a := x.dst) (bs := (sourceRead s q x).bytes)
    (u := { s with dev := (sourceRead s q x).dev }) (n := 0) (by rw [hn]; exact h0) (by rw [hn]; exact hl) (by rw [hn]; exact writer_clear ha)
  rw [runCopy_one h0 hl, copyPart_of _ rfl hw, hg, hn]
  exact putRun_zero _ _

end

variable (hq : q < 8192) (hk : s.dev.clocksOk = true) (hd : s.dev.desc q sq = some x) (hm : s.dev.mayRun q x = true) (h0 : x.bytes = 0)
include hq hk hd hm h0

/-- A command of the engine ends its descriptor with what its operation comes to. -/
theorem descEnds_of {c : Instr} {op : Nat} {target : Desc → BitVec 16} {f : LedBy → Desc → Run → Run} {result : Desc → Run → Nat}
    (hc : exec c s = onLedger (queueOk q) (fun t => t.runDesc q sq op target f result) s) (hop : x.op = op) {z : State} {n st : Nat} {w : Word}
    (hr : f ⟨s.dev.qOwner q, q, sq, 0, target x, if op == 2 then none else some (x.src, x.len)⟩ x ⟨s, 0, 0, false⟩ = ⟨z, n, st, false⟩)
    (hw : word (result x ⟨z, n, st, false⟩) = w) : descEnds c s z q sq st n w := by
  rw [← hw]
  exact ledger_gives hc hq hk (runDesc_ends hd hm hop h0 (by rw [hop]; exact hr))

theorem copyEnds (h1 : 0 < x.len) (hl : x.dst % 64 + x.len ≤ 64) {c : Instr} {op : Nat} {target : Desc → BitVec 16}
    (hc : exec c s = onLedger (queueOk q) (fun t => t.runDesc q sq op target runCopy fun _ _ => 0) s) (hop : x.op = op) (h2 : op ≠ 2)
    {w : BitVec 16} (ht : target x = w) :
    ((sourceRead s q x).status ≠ 0 → (sourceRead s q x).bytes = [] →
      descEnds c s { s with dev := (sourceRead s q x).dev } q sq (sourceRead s q x).status 0 0) ∧
    ((sourceRead s q x).status = 0 → (sourceRead s q x).bytes.length = x.len → (x.dst + x.len ≤ x.src ∨ x.src + x.len ≤ x.dst) →
      (∀ z, ({ s with dev := (sourceRead s q x).dev } : State).ledWrite (writerOf s q sq w (some (x.src, x.len))) x.dst
        (sourceRead s q x).bytes = .ok z → descEnds c s z q sq 0 x.len 0) ∧
      (∀ e z, e ≠ 0 → ({ s with dev := (sourceRead s q x).dev } : State).ledWrite (writerOf s q sq w (some (x.src, x.len)))
        x.dst (sourceRead s q x).bytes = .fail e z → descEnds c s z q sq e 0 0)) := by
  subst ht
  have hb : (if op == 2 then none else some (x.src, x.len)) = some (x.src, x.len) := if_neg (mt beq_iff_eq.1 h2)
  refine ⟨fun _ hn => descEnds_of hq hk hd hm h0 hc hop (by rw [hb]; exact runCopy_unread h1 hl _ hn) rfl, fun hg hn ha =>
    ⟨fun z hz => descEnds_of hq hk hd hm h0 hc hop ?_ rfl, fun e z _ hz => descEnds_of hq hk hd hm h0 hc hop ?_ rfl⟩⟩
  · rw [hb]
    exact (runCopy_read h1 hl hg hn ha).trans (by rw [hz, putRun, Nat.zero_add])
  · rw [hb]
    exact (runCopy_read h1 hl hg hn ha).trans (by rw [hz]; rfl)

theorem fillEnds (h1 : 0 < x.len) (hl : x.dst % 64 + x.len ≤ 64) (hop : x.op = 2) {bs : List Byte}
    (hbs : ((List.range x.len).map fun i => BitVec.ofNat 8 (x.arg0.toNat / 256 ^ (i % 8))) = bs) :
    (∀ z, s.ledWrite (writerOf s q sq 0x8000 none) x.dst bs = .ok z → descEnds (.fill q sq) s z q sq 0 x.len 0) ∧
    (∀ e z, e ≠ 0 → s.ledWrite (writerOf s q sq 0x8000 none) x.dst bs = .fail e z → descEnds (.fill q sq) s z q sq e 0 0) := by
  have hlen : bs.length = x.len := by rw [← hbs, List.length_map, List.length_range]
  have hr : runFill (writerOf s q sq 0x8000 none) x ⟨s, 0, 0, false⟩ =
      putRun 0 x.len (s.ledWrite (writerOf s q sq 0x8000 none) x.dst bs) := by
    unfold runFill
    simp only [Nat.zero_add, Nat.add_zero, Nat.sub_zero, hbs]
    exact (runWrite_one (by omega) (by omega) fun _ _ h => absurd h.symm (Option.some_ne_none _)).trans (by rw [hlen]; rfl)
  refine ⟨fun z hz => descEnds_of (c := .fill q sq) hq hk hd hm h0 (execFill.eq_def ..) hop (hr.trans ?_) rfl,
    fun e z _ hz => descEnds_of (c := .fill q sq) hq hk hd hm h0 (execFill.eq_def ..) hop (hr.trans ?_) rfl⟩
  · rw [hz, putRun, Nat.zero_add]
  · rw [hz, putRun]

/-! ### APPEND -/

theorem appendEnds (h1 : 0 < x.len) (hop : x.op = 3) (hg : (sourceRead s q x).status = 0) (hn : (sourceRead s q x).bytes.length = x.len)
    {a : Nat} (hst : s.dev.streamAddr x.stream x.resv = a) (hfit : x.resv % s.dev.streamSize x.stream + x.len ≤ s.dev.streamSize x.stream)
    (hl : a % 64 + x.len ≤ 64) (ha : a + x.len ≤ x.src ∨ x.src + x.len ≤ a) {e : Dev} {pa key ipa : Nat}
    (hw : (sourceRead s q x).dev.ioTo (fnRid (s.dev.qOwner q)) a true = .mem pa key ipa e) :
    (isPeat (pa / 64) = true → e.homedHere (pa / 64) = true → ∀ z,
      ({ s with dev := e } : State).ledWrite (writerOf s q sq 0x8000 (some (x.src, x.len))) a (sourceRead s q x).bytes = .ok z →
        descEnds (.append q sq) s z q sq 0 x.len (BitVec.ofNat 64 x.resv)) ∧
    (isPeat (pa / 64) = false ∨ e.homedHere (pa / 64) = false →
      descEnds (.append q sq) s { s with dev := e } q sq 9 0 (BitVec.ofNat 64 x.resv)) := by
  obtain ⟨b, hb⟩ : ∃ b, writerOf s q sq 0x8000 (some (x.src, x.len)) = b := ⟨_, rfl⟩
  have hp : runAppend b x ⟨s, 0, 0, false⟩ = appendPart b x ⟨s, 0, 0, false⟩ (a, x.len) := by
    unfold runAppend
    dsimp only
    rw [Nat.add_zero, Nat.sub_zero, show Nat.min x.len (s.dev.streamSize x.stream - x.resv % s.dev.streamSize x.stream) = x.len from
      Nat.min_eq_left (by omega), Nat.sub_self, lineParts_zero, hst, lineParts_one h1 hl]
    rfl
  have hpart : appendPart b x ⟨s, 0, 0, false⟩ (a, x.len) =
      if isPeat (pa / 64) && e.homedHere (pa / 64) then runWrite b a (sourceRead s q x).bytes ⟨{ s with dev := e }, 0, 0, false⟩
      else ⟨{ s with dev := e }, 0, 9, false⟩ := by
    have hr : s.dev.ledRead (fnRid b.fn) (x.src + 0) x.len = sourceRead s q x := by rw [← hb]; rfl
    have hi : (sourceRead s q x).dev.ioTo (fnRid b.fn) a true = .mem pa key ipa e := by rw [← hb]; exact hw
    unfold appendPart
    refine (if_neg (show ¬(((0 : Nat) != leOk) || false) = true by decide)).trans ?_
    dsimp only
    rw [hr]
    refine (if_neg (by rw [hg]; decide)).trans ?_
    rw [hi]
  rw [hpart] at hp
  refine ⟨fun hpe hh z hz => descEnds_of (c := .append q sq) hq hk hd hm h0 (execAppend.eq_def ..) hop ?_ rfl,
    fun hno => descEnds_of (c := .append q sq) hq hk hd hm h0 (execAppend.eq_def ..) hop ?_ rfl⟩
  · refine (congrArg (runAppend · x _) hb).trans (hp.trans ((if_pos (by rw [hpe, hh]; rfl)).trans ?_))
    rw [runWrite_one (by omega) (by omega) (by rw [← hb, hn]; exact writer_clear ha), show ({ b with off := 0 } : LedBy) = b by rw [← hb]; rfl,
      ← hb, hz, hn, putRun, Nat.zero_add]
  · refine (congrArg (runAppend · x _) hb).trans (hp.trans (if_neg ?_))
    rw [Bool.and_eq_true]
    rintro ⟨hpe, hh⟩
    exact hno.elim (fun h => Bool.false_ne_true (h.symm.trans hpe)) fun h => Bool.false_ne_true (h.symm.trans hh)

/-! ### DIGEST, ENCRYPT and COMPARE -/

theorem digestEnds_of (hop : x.op = 4) {z : State} {n st : Nat} {w : Word}
    (hr : runDigest (writerOf s q sq 0x8000 (some (x.src, x.len))) x ⟨s, 0, 0, false⟩ = ⟨z, n, st, false⟩)
    (hw : word (if st == leOk then digestResult x (fnRid (s.dev.qOwner q)) s.dev else 0) = w) :
    descEnds (.digest q sq) s z q sq st n w := by
  have hb : (if x.op == 2 then none else some (x.src, x.len)) = some (x.src, x.len) := if_neg (by rw [hop]; decide)
  rw [← hw]
  exact ledger_gives (execDigest.eq_def ..) hq hk (runDesc_ends hd hm hop h0 (by rw [hb]; exact hr))

theorem digestEnds (hop : x.op = 4) :
    ((sourceRead s q x).status ≠ 0 → descEnds (.digest q sq) s { s with dev := (sourceRead s q x).dev } q sq (sourceRead s q x).status
      (sourceRead s q x).bytes.length 0) ∧
    ((sourceRead s q x).status = 0 → x.opflag 0 = false →
      descEnds (.digest q sq) s { s with dev := (sourceRead s q x).dev } q sq 0 x.len
        (BitVec.ofNat 64 (crc64 x.arg0.toNat (sourceRead s q x).bytes))) := by
  obtain ⟨b, hb⟩ : ∃ b, writerOf s q sq 0x8000 (some (x.src, x.len)) = b := ⟨_, rfl⟩
  have hr : s.dev.ledRead (fnRid b.fn) x.src x.len = sourceRead s q x := by rw [← hb]; rfl
  refine ⟨fun hg => digestEnds_of hq hk hd hm h0 hop
      ((congrArg (runDigest · x _) hb).trans ?_) (congrArg word (if_neg (mt beq_iff_eq.1 hg))),
    fun hg hf => digestEnds_of hq hk hd hm h0 hop
      ((congrArg (runDigest · x _) hb).trans ?_)
      (congrArg word ((if_pos (beq_self_eq_true 0)).trans (if_neg (by rw [hf]; exact Bool.false_ne_true))))⟩
  · unfold runDigest
    dsimp only
    rw [hr]
    exact if_pos (bne_iff_ne.2 hg)
  · unfold runDigest
    dsimp only
    rw [hr]
    exact (if_neg (by rw [hg]; decide)).trans (if_neg (by rw [hf]; exact Bool.false_ne_true))

theorem encryptEnds (hop : x.op = 5) (hu : x.opflag 1 = false) (hlen : x.len = 512) {k p : LedGot}
    (hkey : s.dev.ledRead (fnRid (s.dev.qOwner q)) x.arg0.toNat 64 = k) (hp : k.dev.ledRead (fnRid (s.dev.qOwner q)) x.src 512 = p)
    {out : List Byte} (hout : Config.xts k.bytes (x.arg1.toNat % 2 ^ 128) (x.opflag 0) p.bytes = out) :
    (k.status ≠ 0 → descEnds (.encrypt q sq) s { s with dev := k.dev } q sq k.status 0 0) ∧
    (k.status = 0 → p.status ≠ 0 → descEnds (.encrypt q sq) s { s with dev := p.dev } q sq p.status 0 0) ∧
    (k.status = 0 → p.status = 0 → ∀ z,
      runWrite (writerOf s q sq 0x8000 (some (x.src, x.len))) x.dst ((List.range 512).map fun i => (out[i]?).getD 0)
        ⟨{ s with dev := p.dev }, 0, 0, false⟩ = ⟨z, 512, 0, false⟩ → descEnds (.encrypt q sq) s z q sq 0 512 0) := by
  obtain ⟨b, hb⟩ : ∃ b, writerOf s q sq 0x8000 (some (x.src, x.len)) = b := ⟨_, rfl⟩
  have hfn : b.fn = s.dev.qOwner q := by rw [← hb]; rfl
  have hn : x.xtsUnit = 512 := if_neg (by rw [hu]; exact Bool.false_ne_true)
  have hkey' : s.dev.ledRead (fnRid b.fn) x.arg0.toNat 64 = k := by rw [hfn, hkey]
  have hrun (hs : k.status = 0) : runEncrypt b x ⟨s, 0, 0, false⟩ = xtsUnit b x k.bytes ⟨{ s with dev := k.dev }, 0, 0, false⟩ 0 := by
    unfold runEncrypt
    dsimp only
    rw [hkey', hn, hlen]
    exact (if_neg (by rw [hs]; decide)).trans (List.foldl_cons ..)
  have hunit : xtsUnit b x k.bytes ⟨{ s with dev := k.dev }, 0, 0, false⟩ 0 =
      if p.status != 0 then ⟨{ s with dev := p.dev }, 0, p.status, false⟩
      else
        let w := runWrite b x.dst ((List.range 512).map fun i => (out[i]?).getD 0) ⟨{ s with dev := p.dev }, 0, 0, false⟩
        if w.status != 0 || w.waits then { w with bytes := 0 } else w := by
    unfold xtsUnit
    refine (if_neg (show ¬(((0 : Nat) != leOk) || false) = true by decide)).trans ?_
    dsimp only
    rw [hn, Nat.zero_mul, Nat.add_zero, Nat.add_zero, Nat.add_zero, hfn, hp, hout]
  refine ⟨fun hs => descEnds_of (c := .encrypt q sq) hq hk hd hm h0 (execEncrypt.eq_def ..) hop
      ((congrArg (runEncrypt · x _) hb).trans ?_) rfl,
    fun hs hps => descEnds_of (c := .encrypt q sq) hq hk hd hm h0 (execEncrypt.eq_def ..) hop
      ((congrArg (runEncrypt · x _) hb).trans ((hrun hs).trans (hunit.trans (if_pos (bne_iff_ne.2 hps))))) rfl,
    fun hs hps z hz => descEnds_of (c := .encrypt q sq) hq hk hd hm h0 (execEncrypt.eq_def ..) hop
      ((congrArg (runEncrypt · x _) hb).trans ((hrun hs).trans (hunit.trans ((if_neg (by rw [hps]; decide)).trans ?_)))) rfl⟩
  · unfold runEncrypt
    dsimp only
    rw [hkey']
    exact if_pos (bne_iff_ne.2 hs)
  · rw [← hb, hz]
    exact if_neg (show ¬(((0 : Nat) != 0) || false) = true by decide)

theorem compareEnds (hop : x.op = 6) {p : LedGot} (hp : (sourceRead s q x).dev.ledRead (fnRid (s.dev.qOwner q)) x.dst x.len = p)
    (hg : (sourceRead s q x).status = 0) (hps : p.status = 0) (hn : (sourceRead s q x).bytes.length = x.len) (hpn : p.bytes.length = x.len) :
    ((sourceRead s q x).bytes = p.bytes →
      descEnds (.compare q sq) s { s with dev := p.dev } q sq 0 x.len (BitVec.ofNat 64 x.len)) ∧
    (∀ k, k < x.len → (sourceRead s q x).bytes.take k = p.bytes.take k → (sourceRead s q x).bytes[k]? ≠ p.bytes[k]? →
      descEnds (.compare q sq) s { s with dev := p.dev } q sq 5 (k + 1) (BitVec.ofNat 64 k)) := by
  obtain ⟨b, hb⟩ : ∃ b, writerOf s q sq 0x8000 (some (x.src, x.len)) = b := ⟨_, rfl⟩
  have hr1 : s.dev.ledRead (fnRid b.fn) x.src x.len = sourceRead s q x := by rw [← hb]; rfl
  have hr2 : (sourceRead s q x).dev.ledRead (fnRid b.fn) x.dst x.len = p := by rw [← hb]; exact hp
  have hrun : runCompare b x ⟨s, 0, 0, false⟩ =
      if firstDiff (sourceRead s q x).bytes p.bytes < x.len then
        ⟨{ s with dev := p.dev }, firstDiff (sourceRead s q x).bytes p.bytes + 1, 5, false⟩
      else ⟨{ s with dev := p.dev }, x.len, 0, false⟩ := by
    unfold runCompare
    dsimp only
    rw [hr1, hr2, hn, hpn, hg, hps, show Nat.min x.len x.len = x.len from Nat.min_self _, if_neg (show ¬((0 : Nat) != leOk) = true by decide)]
  refine ⟨fun he => descEnds_of (c := .compare q sq) hq hk hd hm h0 (execCompare.eq_def ..) hop
      ((congrArg (runCompare · x _) hb).trans (hrun.trans (if_neg ?_))) (congrArg word (if_neg (show ¬((0 : Nat) == leDiffer) = true by decide))),
    fun k hkl ht hne => descEnds_of (c := .compare q sq) hq hk hd hm h0 (execCompare.eq_def ..) hop
      ((congrArg (runCompare · x _) hb).trans (hrun.trans ?_)) (congrArg word (if_pos (show ((5 : Nat) == leDiffer) = true by decide)))⟩
  · rw [he, firstDiff_self, hpn]
    exact Nat.lt_irrefl _
  · rw [firstDiff_at (by rw [hn]; exact hkl) (by rw [hpn]; exact hkl) ht hne]
    exact if_pos hkl

end

/-- Settles O49: the engine's write by where its address leads, and each operation by its run on one line. -/
theorem descriptorsRun : Obligations.DescriptorsRun := by
  refine ⟨engineWrites_hold, fun s q sq x hq hk hd hm h0 h1 => ?_⟩
  dsimp only
  refine ⟨fun op target ho hop hl => ?_, fun hop hl => fillEnds hq hk hd hm h0 h1 hl hop rfl,
    fun hop hg hn hfit hl ha e pa key ipa hw => appendEnds hq hk hd hm h0 h1 hop hg hn rfl hfit hl ha hw,
    digestEnds hq hk hd hm h0, fun hop hu hlen => encryptEnds hq hk hd hm h0 hop hu hlen rfl rfl rfl,
    fun hop hg hps hn hpn => compareEnds hq hk hd hm h0 hop rfl hg hps hn hpn⟩
  rcases ho with ⟨rfl, rfl⟩ | ⟨rfl, rfl⟩
  · rw [show (if (1 : Nat) = 1 then Instr.copy q sq else .stashcopy q sq) = .copy q sq from if_pos rfl]
    exact copyEnds hq hk hd hm h0 h1 hl (c := .copy q sq) (execCopy.eq_def ..) hop (by decide) rfl
  · rw [show (if (7 : Nat) = 1 then Instr.copy q sq else .stashcopy q sq) = .stashcopy q sq from if_neg (by decide)]
    exact copyEnds hq hk hd hm h0 h1 hl (c := .stashcopy q sq) (execStashcopy.eq_def ..) hop (by decide) rfl

end Sys2Proof.Proofs
end

