-- ==== Sys2Proof/Proofs/QueuePairs.lean ====
section
/-!
PROOFS. Queue pairs of the Ledger Engine (R427, R428, R430, R431, R438): where the engine's registers lie, then doorbells, fetches,
enables and assignments.
-/

namespace Sys2Proof.Proofs

open Sys2Proof Sys2Proof.Machine Sys2Proof.Laws

/-! ### Where the engine's registers lie -/

/-- The first offset past a register's array. -/
def regEnd (r : RegSpec) : Nat :=
  match r.dims with
  | [] => r.base + 1
  | (stride, count) :: _ => r.base + stride * count

/-- Every dimension of a register's array has a stride. -/
def strided (r : RegSpec) : Bool := r.dims.all fun p => decide (0 < p.1)

/-- Whether a register lies at an offset. -/
def liesAt (off : Nat) (r : RegSpec) : Bool := r.base ≤ off && inDims (off - r.base) r.dims

theorem not_liesAt_past {r : RegSpec} {off : Nat} (hs : strided r = true) (h : regEnd r ≤ off) : ¬liesAt off r = true := by
  unfold liesAt
  rw [Bool.and_eq_true]
  rintro ⟨-, hd⟩
  unfold regEnd at h
  unfold strided at hs
  cases hr : r.dims with
  | nil =>
    rw [hr] at h hd
    have := beq_iff_eq.1 hd
    dsimp only at h
    omega
  | cons p ds =>
    rw [hr] at h hd hs
    obtain ⟨hp, -⟩ := Bool.and_eq_true_iff.1 hs
    obtain ⟨hq, -⟩ := Bool.and_eq_true_iff.1 hd
    have := (Nat.div_lt_iff_lt_mul (of_decide_eq_true hp)).1 (of_decide_eq_true hq)
    rw [Nat.mul_comm] at this
    dsimp only at h
    omega

theorem find_past {rs : List RegSpec} {lim off : Nat} (hr : (rs.all fun r => strided r && decide (regEnd r ≤ lim)) = true) (h : lim ≤ off) :
    rs.find? (liesAt off) = none :=
  List.find?_eq_none.2 fun r hm => by
    obtain ⟨hs, hl⟩ := Bool.and_eq_true_iff.1 (List.all_eq_true.1 hr r hm)
    exact not_liesAt_past hs ((of_decide_eq_true hl).trans h)

/-- The registers of the blocks below the engine's BAR. -/
def regsBelow : List RegSpec :=
  regsSoc0 ++ regsSoc1 ++ regsSoc2 ++ regsSoc3 ++ regsSoc4 ++ regsStw ++ regsSe ++ regsMc0 ++ regsMc1 ++ regsFl ++ regsPs0 ++ regsPs1 ++
    regsTile0 ++ regsTile1 ++ regsTile2 ++ regsIr0 ++ regsIr1 ++ regsSt0 ++ regsSt1 ++ regsLed ++ regsClk0 ++ regsClk1

theorem regAt_engine {off : Nat} (h : 0x100000000 ≤ off) :
    regAt off = ((regsLebar0.find? (liesAt off)).or (regsLebar1.find? (liesAt off))).or (regsKp.find? (liesAt off)) := by
  have hb : (regsBelow.all fun r => strided r && decide (regEnd r ≤ 0x100000000)) = true := by decide +kernel
  change (regsBelow ++ regsLebar0 ++ regsLebar1 ++ regsKp).find? (liesAt off) = _
  rw [List.find?_append, List.find?_append, List.find?_append, find_past hb h, Option.none_or]

/-- The offset is no element of an array whose elements lie elsewhere in the stride. -/
theorem not_liesAt_offset {r : RegSpec} {off stride count : Nat} (hd : r.dims = [(stride, count)]) (h : (off - r.base) % stride ≠ 0) :
    ¬liesAt off r = true := by
  unfold liesAt
  rw [hd, Bool.and_eq_true]
  rintro ⟨-, hi⟩
  exact h (beq_iff_eq.1 (Bool.and_eq_true_iff.1 hi).2)

theorem liesAt_element {r : RegSpec} {stride count k : Nat} (hd : r.dims = [(stride, count)]) (hs : 0 < stride) (hk : k < count) :
    liesAt (r.base + stride * k) r = true := by
  unfold liesAt
  rw [hd, Nat.add_sub_cancel_left, Bool.and_eq_true]
  refine ⟨decide_eq_true (Nat.le_add_right _ _), Bool.and_eq_true_iff.2 ⟨?_, beq_iff_eq.2 (Nat.mul_mod_right _ _)⟩⟩
  rw [Nat.mul_div_cancel_left _ hs]
  exact decide_eq_true hk

/-- The layout of a pair's control register. -/
def queueCtlSpec : RegSpec := ⟨0x101000020, [(0x100, 8192)], [⟨R.Q_CTL_EN, .rw, 0, false, false⟩, ⟨R.Q_CTL_PAUSE, .rw, 0, false, false⟩,
  ⟨R.Q_CTL_VECTOR, .rw, 0, false, false⟩, ⟨R.Q_CTL_WEIGHT, .rw, 0, false, false⟩]⟩

theorem qReg_reg (f : Field) (q : Nat) : (qReg f q).reg = f.reg + 0x100 * q := rfl

theorem regAt_queueCtl {q : Nat} (hq : q < 8192) : regAt (qReg R.Q_CTL_EN q).reg = some queueCtlSpec := by
  have hreg : (qReg R.Q_CTL_EN q).reg = 0x101000020 + 0x100 * q := rfl
  have h0 : (regsLebar0.all fun r => strided r && decide (regEnd r ≤ 0x101000000)) = true := by decide +kernel
  rw [hreg, regAt_engine (by omega), find_past h0 (by omega), Option.none_or]
  have h1 : regsLebar1.find? (liesAt (0x101000020 + 0x100 * q)) = some queueCtlSpec := by
    unfold regsLebar1
    rw [List.find?_cons_of_neg (not_liesAt_offset rfl (by dsimp only; omega)), List.find?_cons_of_neg (not_liesAt_offset rfl (by dsimp only; omega)),
      List.find?_cons_of_neg (not_liesAt_offset rfl (by dsimp only; omega)), List.find?_cons_of_neg (not_liesAt_offset rfl (by dsimp only; omega))]
    exact List.find?_cons_of_pos (liesAt_element (r := queueCtlSpec) rfl (by decide) hq)
  rw [h1]
  rfl

theorem engineReg_plain {off : Nat} (h : 0x100000000 ≤ off) : off ∉ eventRegs := by
  have hb : ∀ o ∈ eventRegs, o < 0x100000000 := by decide
  exact fun hm => absurd (hb off hm) (by omega)

section
variable {d : Dev} {off : Nat} {r : RegSpec} (v : Word) (hr : regAt off = some r) (he : off ∉ eventRegs)
include hr he

/-- A field that software may write of an array's element takes its bits of what is written. -/
theorem get_writeReg_taken {f : FieldSpec} (hp : wellPlaced r.fields = true) (hf : f ∈ r.fields) (hrw : f.acc = .rw)
    (hw : f.fld.lo + f.fld.width ≤ 64) : f.fld.get ((d.writeReg off v).reg off) = f.fld.get v := by
  rw [writeReg_plain v hr he]
  refine Nat.eq_of_testBit_eq fun i => ?_
  rw [reg_setReg_same, testBit_get_lt, testBit_get_lt]
  by_cases hi : i < f.fld.width
  · rw [writeWord, writeFields_covered d.locked v (by omega) r.fields hp hf ⟨by omega, by omega⟩, taken, hrw]
  · rw [decide_eq_false hi, Bool.false_and, Bool.false_and]

end

/-! ### Fields of a pair's page and of a function's status -/

section
variable {d : Dev} {q : Nat} {f k : Field} {x : Nat}

theorem fld_queue_same (h : f.lo + f.width ≤ 64) (hx : x < 2 ^ f.width) : (d.setFld (qReg f q) x).fld (qReg f q) = x :=
  fld_setFld_lt (f := qReg f q) d h hx

theorem fld_queue_other (h : k.reg ≠ f.reg) : (d.setFld (qReg f q) x).fld (qReg k q) = d.fld (qReg k q) :=
  fld_setFld_reg _ _ _ _ fun he => h (Nat.add_right_cancel he)

theorem fld_queue_apart (h : f.lo + f.width ≤ 64) (hk : k.lo + k.width ≤ f.lo ∨ f.lo + f.width ≤ k.lo) :
    (d.setFld (qReg f q) x).fld (qReg k q) = d.fld (qReg k q) := fld_setFld_apart d (qReg f q) (qReg k q) x h hk

theorem bare_showQueue : bare (d.showQueue q) = bare d := by
  unfold Dev.showQueue
  rw [bare_setFld, bare_setFld]

theorem queue_showQueue (j : Nat) : (d.showQueue q).queue j = d.queue j := of_bare (·.queue j) (fun _ => rfl) bare_showQueue

theorem stream_showQueue (t : Nat) : (d.showQueue q).stream t = d.stream t := of_bare (·.stream t) (fun _ => rfl) bare_showQueue

theorem fld_showQueue_other (h : k.reg ≠ R.Q_STATUS_IDLE.reg + 0x100 * q) : (d.showQueue q).fld k = d.fld k :=
  (fld_setFld_reg _ (qReg R.Q_STATUS_IDLE q) _ _ h).trans (fld_setFld_reg _ (qReg R.Q_STATUS_INFLIGHT q) _ _ h)

theorem inflight_showQueue (h : (d.queue q).inflight.length < 512) :
    (d.showQueue q).fld (qReg R.Q_STATUS_INFLIGHT q) = (d.queue q).inflight.length :=
  (fld_queue_apart (by decide) (by decide)).trans (fld_queue_same (by decide) h)

theorem bare_showFn (n : Nat) : bare (d.showFn n) = bare d := by
  unfold Dev.showFn
  extract_lets y w e
  rw [bare_setFld, bare_setFld]
  exact bare_setFld _ _ _

theorem fld_showFn_other {n : Nat} (h : k.reg ≠ R.FN_STATUS_ENABLED.reg + 8 * n) : (d.showFn n).fld k = d.fld k := by
  unfold Dev.showFn
  extract_lets y w e
  exact ((fld_setFld_reg _ (fnReg R.FN_STATUS_PENDING_ENABLE n) _ _ h).trans (fld_setFld_reg _ (fnReg R.FN_STATUS_QUIESCING n) _ _ h)).trans
    (fld_setFld_reg _ (fnReg R.FN_STATUS_ENABLED n) _ _ h)

theorem qOwner_lt (d : Dev) (q : Nat) : d.qOwner q < 2048 := Nat.mod_lt _ (by decide)

/-- A function's status lies below every pair's page. -/
theorem fnStatus_below (d : Dev) (j q : Nat) {k : Field} (h : R.SQ_BASE_SIZE.reg ≤ k.reg) :
    (qReg k q).reg ≠ R.FN_STATUS_ENABLED.reg + 8 * d.qOwner j := by
  have := qOwner_lt d j
  rw [qReg_reg, show R.FN_STATUS_ENABLED.reg = 0x100040000 from rfl]
  rw [show R.SQ_BASE_SIZE.reg = 0x101000000 from rfl] at h
  omega

theorem queue_setQueue_same (d : Dev) (q : Nat) (y : Queue) : (d.setQueue q y).queue q = y := smap_get_set_same _ _ _ _

theorem queue_setQueue_other (d : Dev) (y : Queue) {q j : Nat} (h : j ≠ q) : (d.setQueue q y).queue j = d.queue j :=
  smap_get_set_other _ _ _ _ _ h

theorem fld_setQueue (d : Dev) (q : Nat) (y : Queue) (f : Field) : (d.setQueue q y).fld f = d.fld f := rfl

end

/-! ### Admission of a descriptor -/

section
variable {d : Dev} {x : Desc}

theorem admit_malformed {q : Nat} (h : x.wellFormed = false) : d.admitDesc q x = ({ x with started := true, done := true, status := 7 }, d) :=
  if_pos (by rw [h]; rfl)

variable (h : x.wellFormed = true)
include h

theorem admit_other {q : Nat} (ho : x.op ≠ 3) : d.admitDesc q x = (x, d) :=
  (if_neg (by rw [h]; decide)).trans (if_neg (mt beq_iff_eq.1 ho))

theorem admit_append {q : Nat} (ho : x.op = 3) : d.admitDesc q x = d.reserve q x :=
  (if_neg (by rw [h]; decide)).trans (if_pos (beq_iff_eq.2 ho))

end

section
variable {d : Dev} {q : Nat} {x : Desc} {f : Nat} (hf : d.qOwner q = f)
include hf

/-- The stream of an APPEND takes no reservation of it. -/
theorem refuses_iff : (!d.flag (streamReg R.STREAM_CTL_EN x.stream) || (d.stream x.stream).closing ||
    d.fld (streamReg R.STREAM_CTL_OWNER x.stream) != d.qOwner q) = true ↔
    (d.flag (streamReg R.STREAM_CTL_EN x.stream) && !(d.stream x.stream).closing &&
      d.fld (streamReg R.STREAM_CTL_OWNER x.stream) == f) = false := by
  rw [hf, bne]
  generalize d.flag (streamReg R.STREAM_CTL_EN x.stream) = a
  generalize (d.stream x.stream).closing = b
  generalize (d.fld (streamReg R.STREAM_CTL_OWNER x.stream) == f) = c
  revert a b c
  decide

theorem reserve_refused (hok : (d.flag (streamReg R.STREAM_CTL_EN x.stream) && !(d.stream x.stream).closing &&
    d.fld (streamReg R.STREAM_CTL_OWNER x.stream) == f) = false) :
    d.reserve q x = ({ x with started := true, done := true, status := 7 }, d) := if_pos ((refuses_iff hf).2 hok)

variable (hok : (d.flag (streamReg R.STREAM_CTL_EN x.stream) && !(d.stream x.stream).closing &&
    d.fld (streamReg R.STREAM_CTL_OWNER x.stream) == f) = true)
include hok

theorem not_refused : ¬(!d.flag (streamReg R.STREAM_CTL_EN x.stream) || (d.stream x.stream).closing ||
    d.fld (streamReg R.STREAM_CTL_OWNER x.stream) != d.qOwner q) = true := fun h =>
  Bool.false_ne_true (((refuses_iff hf).1 h).symm.trans hok)

theorem reserve_full (hl : d.streamSize x.stream < (d.stream x.stream).resv - d.fld (streamReg R.STREAM_HEAD_OFFSET x.stream) + x.len) :
    d.reserve q x = ({ x with started := true, done := true, status := 6 }, d) :=
  (if_neg (not_refused hf hok)).trans (if_pos hl)

theorem reserve_takes (hl : ¬d.streamSize x.stream < (d.stream x.stream).resv - d.fld (streamReg R.STREAM_HEAD_OFFSET x.stream) + x.len) :
    d.reserve q x = ({ x with resv := (d.stream x.stream).resv },
      d.setStream x.stream { d.stream x.stream with
        resv := (d.stream x.stream).resv + x.len
        ranges := (d.stream x.stream).ranges ++ [(q, x.sq, (d.stream x.stream).resv, x.len, false)] }) :=
  (if_neg (not_refused hf hok)).trans (if_neg hl)

end

theorem stream_setStream_same (d : Dev) (t : Nat) (y : Stream) : (d.setStream t y).stream t = y := smap_get_set_same _ _ _ _

section
variable {s : State} {q : Nat} (hq : q < 8192)
include hq

theorem queueOk_true : queueOk q = true := decide_eq_true hq

/-! ### Doorbells -/

section
variable {v : Word}

theorem doorbell_dropped (h : (s.dev.func (s.dev.qOwner q)).quiescing = true) :
    Makes (.sqDoorbell q v) s (s.dev.addSat (fnReg R.FN_STATUS_DROPPED (s.dev.qOwner q)) 1) :=
  dev_makes (execSqDoorbell.eq_def ..) (queueOk_true hq) (if_pos h)

variable (hf : s.dev.fnOn (s.dev.qOwner q) = true)
include hf

omit hq in
theorem not_quiescing : ¬(s.dev.func (s.dev.qOwner q)).quiescing = true := by
  unfold Dev.fnOn at hf
  dsimp only at hf
  rw [Bool.and_eq_true, Bool.and_eq_true, Bool.not_eq_true', ← Bool.not_eq_true] at hf
  exact hf.1.2

omit hq in
theorem is_on : ¬(!s.dev.fnOn (s.dev.qOwner q)) = true := by
  rw [hf]
  decide

theorem doorbell_past (he : s.dev.flag (qReg R.Q_CTL_EN q) = true) (hn : s.dev.sqSize q ≤ (v.extractLsb' 0 16).toNat) :
    MakesSome (.sqDoorbell q v) s fun e =>
      e.fld (qReg R.Q_STATUS_ERR q) = 1 ∧ e.reg (qReg R.SQ_TAIL_INDEX q).reg = s.dev.reg (qReg R.SQ_TAIL_INDEX q).reg := by
  refine ⟨_, dev_makes (execSqDoorbell.eq_def ..) (queueOk_true hq) ((if_neg (not_quiescing hf)).trans ((if_neg (is_on hf)).trans
    (if_pos ?_))), fld_queue_same (by decide) (by decide), reg_setFld_other _ _ _ _ ?_⟩
  · rw [he, Bool.true_and, decide_eq_true_iff, getF_eq_extract]
    exact hn
  · rw [qReg_reg, qReg_reg, show R.SQ_TAIL_INDEX.reg = 0x101000008 from rfl, show R.Q_STATUS_ERR.reg = 0x101000028 from rfl]
    omega

theorem doorbell_moves (hn : s.dev.flag (qReg R.Q_CTL_EN q) = false ∨ (v.extractLsb' 0 16).toNat < s.dev.sqSize q) :
    MakesSome (.sqDoorbell q v) s fun e => e.fld (qReg R.SQ_TAIL_INDEX q) = (v.extractLsb' 0 16).toNat := by
  refine ⟨_, dev_makes (execSqDoorbell.eq_def ..) (queueOk_true hq) ((if_neg (not_quiescing hf)).trans ((if_neg (is_on hf)).trans
    (if_neg ?_))), ?_⟩
  · rw [Bool.and_eq_true, decide_eq_true_iff, getF_eq_extract]
    rintro ⟨he, hl⟩
    rcases hn with hn | hn
    · exact Bool.false_ne_true (hn.symm.trans he)
    · omega
  · exact (fld_queue_same (by decide) (getF_lt _ _ _)).trans (getF_eq_extract _ _ _)

end

/-! ### Fetches -/

section
variable (hk : s.dev.clocksOk = true)
include hk

theorem fetch_held (h : s.dev.mayFetch q = false) : Gives (.descriptorFetch q) s s :=
  data_makes (execDescriptorFetch.eq_def ..) (queueOk_true hq) hk (if_pos (by rw [h]; rfl))

variable (hm : s.dev.mayFetch q = true)
include hm

omit hq hk in
theorem fetches : ¬(!s.dev.mayFetch q) = true := by
  rw [hm]
  decide

omit hq hk in
theorem room : (s.dev.queue q).inflight.length < 256 := by
  unfold Dev.mayFetch at hm
  dsimp only at hm
  rw [Bool.and_eq_true, Bool.and_eq_true] at hm
  exact of_decide_eq_true hm.1.2

/-- What the engine reads for the descriptor at the pair's head. -/
def fetched (d : Dev) (q : Nat) : LedGot :=
  d.ledRead (fnRid (d.qOwner q)) (d.fld (qReg R.SQ_BASE_ADDR q) * 4096 + 64 * ((d.queue q).head % d.sqSize q)) 64

theorem fetch_fails (hg : (fetched s.dev q).status ≠ 0) : MakesSome (.descriptorFetch q) s fun e =>
    e.fld (qReg R.Q_STATUS_ERR q) = 2 ∧ e.queue q = (fetched s.dev q).dev.queue q :=
  ⟨_, data_makes (execDescriptorFetch.eq_def ..) (queueOk_true hq) hk ((if_neg (fetches hm)).trans (if_pos (bne_iff_ne.2 hg))),
    fld_queue_same (by decide) (by decide), of_bare (·.queue q) (fun _ => rfl) (bare_setFld _ _ _)⟩

/-- The fetched descriptor before it is admitted. -/
def fetchedDesc (d : Dev) (q : Nat) : Desc := { sq := (d.queue q).seqn, raw := (fetched d q).bytes }

/-- A fetched descriptor joins the pair's list as it is admitted. -/
theorem fetch_takes (hg : (fetched s.dev q).status = 0) {y : Desc} {e : Dev}
    (ha : (fetched s.dev q).dev.admitDesc q (fetchedDesc s.dev q) = (y, e)) {P : Dev → Prop}
    (hP : ∀ z, (∀ t, z.stream t = e.stream t) → P z) :
    MakesSome (.descriptorFetch q) s fun e =>
      e.queue q = { s.dev.queue q with
        head := ((s.dev.queue q).head + 1) % s.dev.sqSize q
        seqn := ((s.dev.queue q).seqn + 1) % 2 ^ 32
        inflight := (s.dev.queue q).inflight ++ [y] } ∧
      e.fld (qReg R.Q_STATUS_INFLIGHT q) = (s.dev.queue q).inflight.length + 1 ∧ P e := by
  have hr := room hm
  obtain ⟨w, hw⟩ : ∃ w, ({ s.dev.queue q with
    head := ((s.dev.queue q).head + 1) % s.dev.sqSize q
    seqn := ((s.dev.queue q).seqn + 1) % 2 ^ 32
    inflight := (s.dev.queue q).inflight ++ [y] } : Queue) = w := ⟨_, rfl⟩
  have hl : w.inflight.length = (s.dev.queue q).inflight.length + 1 := by
    rw [← hw]
    exact List.length_append
  have hi := inflight_showQueue (d := e.setQueue q w) (q := q) (by rw [queue_setQueue_same, hl]; omega)
  rw [queue_setQueue_same, hl] at hi
  rw [hw]
  refine ⟨(e.setQueue q w).showQueue q, data_makes (execDescriptorFetch.eq_def ..) (queueOk_true hq) hk ((if_neg (fetches hm)).trans
    ((if_neg (show ¬((fetched s.dev q).status != leOk) = true by rw [hg]; decide)).trans ?_)), (queue_showQueue q).trans (queue_setQueue_same _ _ _),
    hi, hP _ fun t => stream_showQueue t⟩
  rw [← hw]
  exact congrArg (fun r : Desc × Dev => (r.2.setQueue q { s.dev.queue q with
    head := ((s.dev.queue q).head + 1) % s.dev.sqSize q
    seqn := ((s.dev.queue q).seqn + 1) % 2 ^ 32
    inflight := (s.dev.queue q).inflight ++ [r.1] }).showQueue q) ha

end

/-! ### Enables -/

section
variable {d : Dev} {v : Word}

omit hq in
/-- What a pair's start leaves. -/
theorem startQueue_spec (d : Dev) : (d.startQueue q).flag (qReg R.Q_CTL_EN q) = true ∧ (d.startQueue q).fld (qReg R.SQ_TAIL_INDEX q) = 0 ∧
    (d.startQueue q).fld (qReg R.CQ_HEAD_INDEX q) = 0 ∧ (d.startQueue q).queue q = { inflight := (d.queue q).inflight } := by
  have ne {f : Field} (h : f.reg ≠ R.Q_STATUS_IDLE.reg) : (qReg f q).reg ≠ R.Q_STATUS_IDLE.reg + 0x100 * q := fun he =>
    h (Nat.add_right_cancel he)
  obtain ⟨e, he⟩ : ∃ e, (d.setFld (qReg R.SQ_TAIL_INDEX q) 0).setFld (qReg R.CQ_HEAD_INDEX q) 0 = e := ⟨_, rfl⟩
  have hq : e.queue q = d.queue q := by
    rw [← he]
    exact of_bare (·.queue q) (fun _ => rfl) ((bare_setFld _ _ _).trans (bare_setFld _ _ _))
  unfold Dev.startQueue
  dsimp only
  rw [he, hq]
  have hen : (e.setFld (qReg R.Q_CTL_EN q) 1).fld (qReg R.Q_CTL_EN q) = 1 := fld_queue_same (f := R.Q_CTL_EN) (by decide) (by decide)
  have htail : (e.setFld (qReg R.Q_CTL_EN q) 1).fld (qReg R.SQ_TAIL_INDEX q) = 0 := by
    rw [fld_queue_other (f := R.Q_CTL_EN) (k := R.SQ_TAIL_INDEX) (by decide), ← he,
      fld_queue_other (f := R.CQ_HEAD_INDEX) (k := R.SQ_TAIL_INDEX) (by decide)]
    exact fld_queue_same (f := R.SQ_TAIL_INDEX) (by decide) (by decide)
  have hhead : (e.setFld (qReg R.Q_CTL_EN q) 1).fld (qReg R.CQ_HEAD_INDEX q) = 0 := by
    rw [fld_queue_other (f := R.Q_CTL_EN) (k := R.CQ_HEAD_INDEX) (by decide), ← he]
    exact fld_queue_same (f := R.CQ_HEAD_INDEX) (by decide) (by decide)
  generalize e.setFld (qReg R.Q_CTL_EN q) 1 = z at hen htail hhead
  exact ⟨flag_of_fld ((fld_showQueue_other (ne (by decide))).trans ((fld_setQueue _ _ _ _).trans hen)) (by decide),
    (fld_showQueue_other (ne (by decide))).trans ((fld_setQueue _ _ _ _).trans htail),
    (fld_showQueue_other (ne (by decide))).trans ((fld_setQueue _ _ _ _).trans hhead), (queue_showQueue q).trans (queue_setQueue_same _ _ _)⟩

theorem written_spec : (d.writeReg (qReg R.Q_CTL_EN q).reg v).flag (qReg R.Q_CTL_EN q) = v.getLsbD 0 ∧
    bare (d.writeReg (qReg R.Q_CTL_EN q).reg v) = bare d := by
  have hr := regAt_queueCtl hq
  have he : (qReg R.Q_CTL_EN q).reg ∉ eventRegs := engineReg_plain (by
    rw [qReg_reg, show R.Q_CTL_EN.reg = 0x101000020 from rfl]
    omega)
  refine ⟨(congrArg (· != 0) (get_writeReg_taken v hr he (f := ⟨R.Q_CTL_EN, .rw, 0, false, false⟩) (by decide) (by decide) rfl (by decide))).trans
    (get_bit R.Q_CTL_EN rfl v), bare_writeReg_plain v hr he⟩

end

section
variable {v : Word}

theorem enable_starts (hv : v.getLsbD 0 = true) (he : s.dev.flag (qReg R.Q_CTL_EN q) = false)
    (hf : (s.dev.func (s.dev.qOwner q)).quiescing = false) : MakesSome (.queueEnable q v) s fun e =>
      e.flag (qReg R.Q_CTL_EN q) = true ∧ e.fld (qReg R.SQ_TAIL_INDEX q) = 0 ∧ e.fld (qReg R.CQ_HEAD_INDEX q) = 0 ∧
      e.queue q = { inflight := (s.dev.queue q).inflight } := by
  obtain ⟨w, hw⟩ : ∃ w, s.dev.writeReg (qReg R.Q_CTL_EN q).reg v = w := ⟨_, rfl⟩
  obtain ⟨-, hb⟩ := written_spec hq (d := s.dev) (v := v)
  rw [hw] at hb
  obtain ⟨h1, h2, h3, h4⟩ := startQueue_spec (q := q) w
  rw [of_bare (·.queue q) (fun _ => rfl) hb] at h4
  refine ⟨w.startQueue q, dev_makes (execQueueEnable.eq_def ..) (queueOk_true hq) ?_, h1, h2, h3, h4⟩
  unfold Dev.queueCtl
  dsimp only
  rw [hw, of_bare (·.func (s.dev.qOwner q)) (fun _ => rfl) hb, he, hf, bitOf_eq_getLsbD, hv]
  rfl

theorem enable_waits (hv : v.getLsbD 0 = true) (he : s.dev.flag (qReg R.Q_CTL_EN q) = false)
    (hf : (s.dev.func (s.dev.qOwner q)).quiescing = true) : MakesSome (.queueEnable q v) s fun e =>
      e.flag (qReg R.Q_CTL_EN q) = false ∧ (e.queue q).pendingEn = true := by
  obtain ⟨w, hw⟩ : ∃ w, s.dev.writeReg (qReg R.Q_CTL_EN q).reg v = w := ⟨_, rfl⟩
  obtain ⟨-, hb⟩ := written_spec hq (d := s.dev) (v := v)
  rw [hw] at hb
  obtain ⟨y, hy⟩ : ∃ y, { w.queue q with pendingEn := true } = y := ⟨_, rfl⟩
  refine ⟨((w.setFld (qReg R.Q_CTL_EN q) 0).setQueue q y).showFn (s.dev.qOwner q),
    dev_makes (execQueueEnable.eq_def ..) (queueOk_true hq) ?_, ?_, ?_⟩
  · unfold Dev.queueCtl
    dsimp only
    rw [hw, of_bare (·.func (s.dev.qOwner q)) (fun _ => rfl) hb, he, hf, bitOf_eq_getLsbD, hv, ← hy]
    rfl
  · exact (congrArg (· != 0) (fld_showFn_other (fnStatus_below s.dev q q (by decide)))).trans (flag_setFld_zero w (qReg R.Q_CTL_EN q)
      (show R.Q_CTL_EN.lo + R.Q_CTL_EN.width ≤ 64 by decide))
  · rw [of_bare (·.queue q) (fun _ => rfl) (bare_showFn _), queue_setQueue_same, ← hy]

theorem disable_clears (hv : v.getLsbD 0 = false) : MakesSome (.queueEnable q v) s fun e =>
    e.flag (qReg R.Q_CTL_EN q) = false ∧ e.fld (qReg R.Q_STATUS_ERR q) = 0 ∧
    e.queue q = { s.dev.queue q with pendingEn := false } := by
  obtain ⟨w, hw⟩ : ∃ w, s.dev.writeReg (qReg R.Q_CTL_EN q).reg v = w := ⟨_, rfl⟩
  obtain ⟨hen, hb⟩ := written_spec hq (d := s.dev) (v := v)
  rw [hw] at hb hen
  obtain ⟨y, hy⟩ : ∃ y, { w.queue q with pendingEn := false } = y := ⟨_, rfl⟩
  refine ⟨(w.queueErr q 0).setQueue q y, dev_makes (execQueueEnable.eq_def ..) (queueOk_true hq) ?_, ?_, ?_, ?_⟩
  · unfold Dev.queueCtl
    dsimp only
    rw [hw, bitOf_eq_getLsbD, hv, ← hy]
    rfl
  · refine Eq.trans (congrArg (· != 0) ((fld_setQueue _ _ _ _).trans ?_)) (hen.trans hv)
    exact fld_queue_other (f := R.Q_STATUS_ERR) (k := R.Q_CTL_EN) (by decide)
  · exact (fld_setQueue _ _ _ _).trans (fld_queue_same (f := R.Q_STATUS_ERR) (by decide) (by decide))
  · rw [queue_setQueue_same, ← hy, of_bare (·.queue q) (fun _ => rfl) hb]

/-! ### Assignment -/

theorem assign_hold {fn j : Nat} (hn : (v.extractLsb' 0 12).toNat = fn) (hj : (v.extractLsb' 12 8).toNat = j) :
    MakesSome (.qpAssign q v) s fun e =>
      ((s.dev.flag (qReg R.Q_CTL_EN q) || !(s.dev.queue q).inflight.isEmpty || (fn != 0 && 224 ≤ j) || 2048 ≤ fn ||
        s.dev.slotHeld q fn j) = true → e.flag (qReg R.Q_STATUS_ASSIGN_REFUSED q) = true ∧ e.qOwner q = s.dev.qOwner q) ∧
      ((s.dev.flag (qReg R.Q_CTL_EN q) || !(s.dev.queue q).inflight.isEmpty || (fn != 0 && 224 ≤ j) || 2048 ≤ fn ||
        s.dev.slotHeld q fn j) = false → e.qOwner q = fn ∧ e.fld (R.QP_ASSIGN_SLOT.at (8 * q)) = j) := by
  obtain ⟨bad, hbad⟩ : ∃ b, (s.dev.flag (qReg R.Q_CTL_EN q) || !(s.dev.queue q).inflight.isEmpty || (fn != 0 && decide (224 ≤ j)) ||
    decide (2048 ≤ fn) || s.dev.slotHeld q fn j) = b := ⟨_, rfl⟩
  have hex : s.dev.qpAssign q v = if bad = true then s.dev.setFld (qReg R.Q_STATUS_ASSIGN_REFUSED q) 1
      else (s.dev.setFld (R.QP_ASSIGN_FUNC.at (8 * q)) fn).setFld (R.QP_ASSIGN_SLOT.at (8 * q)) j := by
    unfold Dev.qpAssign
    dsimp only
    rw [getF_eq_extract, getF_eq_extract, hn, hj, hbad]
  rw [hbad]
  refine ⟨_, dev_makes (execQpAssign.eq_def ..) (queueOk_true hq) hex, fun hb => ?_, fun hb => ?_⟩
  · rw [if_pos hb]
    refine ⟨flag_setFld_one _ (qReg R.Q_STATUS_ASSIGN_REFUSED q)
      (show R.Q_STATUS_ASSIGN_REFUSED.lo + R.Q_STATUS_ASSIGN_REFUSED.width ≤ 64 by decide)
      (show 0 < R.Q_STATUS_ASSIGN_REFUSED.width by decide), congrArg (· % 2048) (fld_setFld_reg _ _ _ _ ?_)⟩
    change R.QP_ASSIGN_FUNC.reg + 8 * q ≠ R.Q_STATUS_ASSIGN_REFUSED.reg + 0x100 * q
    rw [show R.QP_ASSIGN_FUNC.reg = 0x100010000 from rfl, show R.Q_STATUS_ASSIGN_REFUSED.reg = 0x101000028 from rfl]
    omega
  · have hfn : fn < 2048 := by
      rw [← hbad, Bool.or_eq_false_iff, Bool.or_eq_false_iff, decide_eq_false_iff_not] at hb
      omega
    have hjw : j < 2 ^ 8 := by
      rw [← hj]
      exact BitVec.isLt _
    rw [if_neg (by rw [hb]; exact Bool.false_ne_true)]
    refine ⟨?_, fld_setFld_lt (f := R.QP_ASSIGN_SLOT.at (8 * q)) _ (show R.QP_ASSIGN_SLOT.lo + R.QP_ASSIGN_SLOT.width ≤ 64 by decide) hjw⟩
    refine (congrArg (· % 2048) ((fld_setFld_apart _ (R.QP_ASSIGN_SLOT.at (8 * q)) (R.QP_ASSIGN_FUNC.at (8 * q)) _
      (show R.QP_ASSIGN_SLOT.lo + R.QP_ASSIGN_SLOT.width ≤ 64 by decide)
      (show R.QP_ASSIGN_FUNC.lo + R.QP_ASSIGN_FUNC.width ≤ R.QP_ASSIGN_SLOT.lo ∨ _ from .inl (by decide))).trans
      (fld_setFld_lt (f := R.QP_ASSIGN_FUNC.at (8 * q)) _ (show R.QP_ASSIGN_FUNC.lo + R.QP_ASSIGN_FUNC.width ≤ 64 by decide)
        (show fn < 2 ^ R.QP_ASSIGN_FUNC.width from lt_trans hfn (by decide))))).trans (Nat.mod_eq_of_lt hfn)

end

end

/-- Settles O50: doorbells, fetches, enables and assignments by the cases of their definitions. -/
theorem queuePairs : Obligations.QueuePairs := by
  intro s q hq
  dsimp only
  refine ⟨fun v => ⟨doorbell_dropped hq, doorbell_past hq, doorbell_moves hq⟩, fun hk => ⟨fetch_held hq hk, fun hm => ⟨fetch_fails hq hk hm,
    fun hg hx => ⟨fun hw => ?_, fun hw ho => ?_, fun hw ho => ⟨fun hf hok => ?_, fun hf hok hl => ?_, fun hf hok hl => ?_⟩⟩⟩⟩,
    fun v => ⟨enable_starts hq, enable_waits hq, disable_clears hq⟩, fun v => assign_hold hq rfl rfl⟩
  · exact fetch_takes hq hk hm hg (admit_malformed hw) fun _ _ => trivial
  · exact fetch_takes hq hk hm hg (admit_other hw ho) fun _ _ => trivial
  · exact fetch_takes hq hk hm hg ((admit_append hw ho).trans (reserve_refused hf hok)) fun _ _ => trivial
  · exact fetch_takes hq hk hm hg ((admit_append hw ho).trans (reserve_full hf hok (of_decide_eq_true hl))) fun _ _ => trivial
  · refine fetch_takes hq hk hm hg ((admit_append hw ho).trans (reserve_takes hf hok (of_decide_eq_false hl))) fun z hz => ?_
    rw [hz, stream_setStream_same]
    exact ⟨rfl, rfl⟩

end Sys2Proof.Proofs
end

