-- ==== Sys2Proof/Proofs/LogsAndStreams.lean ====
section
/-!
PROOFS. The completion entry (R435), the registers of streams (R436) and the rounds of dirty-page logging (R439, R440).
-/

namespace Sys2Proof.Proofs

open Sys2Proof Sys2Proof.Machine Sys2Proof.Laws

/-! ### The completion entry -/

theorem leNat_leBytes (n x : Nat) : leNat (leBytes n x) = x % 256 ^ n := by
  induction n generalizing x with
  | zero => exact (Nat.mod_one x).symm
  | succ n ih =>
    change (BitVec.ofNat 8 x).toNat + 256 * leNat (leBytes n (x / 256)) = _
    rw [ih, BitVec.toNat_ofNat, pow_succ 256 n, Nat.mul_comm (256 ^ n), Nat.mod_mul]

theorem completionBytes_words {x : Desc} (phase : Bool) {h : Nat} (hsq : x.sq < 2 ^ 32) (hst : x.status < 256) (hb : x.bytes < 2 ^ 64)
    (hop : x.op < 16) (hh : h < 65536) :
    (completionBytes x phase h).length = 32 ∧
    leNat (((completionBytes x phase h).drop (8 * 0)).take 8) = x.sq + x.status * 2 ^ 32 + x.op * 2 ^ 40 + bnat phase * 2 ^ 63 ∧
    leNat (((completionBytes x phase h).drop (8 * 1)).take 8) = x.bytes ∧
    leNat (((completionBytes x phase h).drop (8 * 2)).take 8) = x.result.toNat ∧
    leNat (((completionBytes x phase h).drop (8 * 3)).take 8) = x.tag + h * 2 ^ 32 := by
  have ht : x.tag < 2 ^ 32 := getF_lt _ _ _
  have hp : bnat phase ≤ 1 := by cases phase <;> decide
  obtain ⟨A, hA⟩ : ∃ A, leBytes 8 (x.sq % 2 ^ 32 + x.status * 2 ^ 32 + x.op % 16 * 2 ^ 40 + bnat phase * 2 ^ 63) = A := ⟨_, rfl⟩
  obtain ⟨B, hB⟩ : ∃ B, leBytes 8 x.bytes = B := ⟨_, rfl⟩
  obtain ⟨C, hC⟩ : ∃ C, leBytes 8 x.result.toNat = C := ⟨_, rfl⟩
  obtain ⟨D, hD⟩ : ∃ D, leBytes 8 (x.tag + h * 2 ^ 32) = D := ⟨_, rfl⟩
  have he : completionBytes x phase h = A ++ (B ++ (C ++ D)) := by
    rw [← hA, ← hB, ← hC, ← hD, ← List.append_assoc, ← List.append_assoc]
    rfl
  have lA : A.length = 8 := by rw [← hA, leBytes_length]
  have lB : B.length = 8 := by rw [← hB, leBytes_length]
  have lC : C.length = 8 := by rw [← hC, leBytes_length]
  have lD : D.length = 8 := by rw [← hD, leBytes_length]
  have nA : leNat A = x.sq + x.status * 2 ^ 32 + x.op * 2 ^ 40 + bnat phase * 2 ^ 63 := by
    rw [← hA, leNat_leBytes]
    omega
  have nB : leNat B = x.bytes := by
    rw [← hB, leNat_leBytes]
    omega
  have nC : leNat C = x.result.toNat := by
    rw [← hC, leNat_leBytes]
    exact Nat.mod_eq_of_lt x.result.isLt
  have nD : leNat D = x.tag + h * 2 ^ 32 := by
    rw [← hD, leNat_leBytes]
    omega
  have e1 : (A ++ (B ++ (C ++ D))).drop (8 * 1) = B ++ (C ++ D) := List.drop_left' lA
  have e2 : (A ++ (B ++ (C ++ D))).drop (8 * 2) = C ++ D := by
    rw [show 8 * 2 = 8 * 1 + 8 from rfl, ← List.drop_drop, e1]
    exact List.drop_left' lB
  have e3 : (A ++ (B ++ (C ++ D))).drop (8 * 3) = D := by
    rw [show 8 * 3 = 8 * 2 + 8 from rfl, ← List.drop_drop, e2]
    exact List.drop_left' lC
  rw [he, e1, e2, e3, Nat.mul_zero, List.drop_zero, List.take_left' lA, List.take_left' lB, List.take_left' lC,
    List.take_of_length_le (le_of_eq lD)]
  exact ⟨by rw [List.length_append, List.length_append, List.length_append, lA, lB, lC, lD], nA, nB, nC, nD⟩

theorem completionEntry_hold {x : Desc} {phase : Bool} {h : Nat} (hsq : x.sq < 2 ^ 32) (hst : x.status < 256) (hb : x.bytes < 2 ^ 64)
    (hop : x.op < 16) (hh : h < 65536) {w : Nat → Nat} (hw : ∀ k, leNat (((completionBytes x phase h).drop (8 * k)).take 8) = w k) :
    (completionBytes x phase h).length = 32 ∧ w 0 % 2 ^ 32 = x.sq ∧ w 0 / 2 ^ 32 % 256 = x.status ∧ w 0 / 2 ^ 40 % 16 = x.op ∧
    w 0 / 2 ^ 44 = (if phase then 2 ^ 19 else 0) ∧ w 1 = x.bytes ∧ w 2 = x.result.toNat ∧ w 3 = x.tag + h * 2 ^ 32 := by
  obtain ⟨hl, h0, h1, h2, h3⟩ := completionBytes_words phase hsq hst hb hop hh
  rw [hw] at h0 h1 h2 h3
  have hp : bnat phase * 2 ^ 19 = if phase then 2 ^ 19 else 0 := by cases phase <;> rfl
  have hp1 : bnat phase ≤ 1 := by cases phase <;> decide
  refine ⟨hl, ?_, ?_, ?_, ?_, h1, h2, h3⟩
  · omega
  · omega
  · omega
  · rw [← hp]
    omega

/-! ### Dirty-page logging -/

section
variable {s : State} {v : Nat} (h1 : 1 ≤ v) (h2 : v < 2048)
include h1 h2

theorem vfOk_true : vfOk v = true := by
  unfold vfOk
  rw [decide_eq_true h1, decide_eq_true h2]
  rfl

theorem dlogGen_opens {x : Word} (hx : x.toNat % 2 ^ 32 = (s.dev.fld (dlReg R.DLOG_GEN_GEN v) + 1) % 2 ^ 32) :
    MakesSome (.dlogGen v x) s fun e => e.fld (dlReg R.DLOG_GEN_GEN v) = x.toNat % 2 ^ 32 ∧
      e.fld (dlReg R.DLOG_GEN_GEN_ACK v) = s.dev.fld (dlReg R.DLOG_GEN_GEN_ACK v) := by
  have hg : getF x 0 32 = x.toNat % 2 ^ 32 := by rw [getF, Nat.pow_zero, Nat.div_one]
  refine ⟨_, dev_makes (execDlogGen.eq_def ..) (vfOk_true h1 h2) (if_pos (beq_iff_eq.2 (hg.trans hx))), ?_, ?_⟩
  · exact (fld_setFld_same _ (dlReg R.DLOG_GEN_GEN v) _ (show R.DLOG_GEN_GEN.lo + R.DLOG_GEN_GEN.width ≤ 64 by decide)).trans hx.symm
  · exact fld_setFld_apart _ (dlReg R.DLOG_GEN_GEN v) (dlReg R.DLOG_GEN_GEN_ACK v) _
      (show R.DLOG_GEN_GEN.lo + R.DLOG_GEN_GEN.width ≤ 64 by decide)
      (show R.DLOG_GEN_GEN_ACK.lo + R.DLOG_GEN_GEN_ACK.width ≤ R.DLOG_GEN_GEN.lo ∨
        R.DLOG_GEN_GEN.lo + R.DLOG_GEN_GEN.width ≤ R.DLOG_GEN_GEN_ACK.lo by decide)

theorem dlogGen_ignored {x : Word} (hx : x.toNat % 2 ^ 32 ≠ (s.dev.fld (dlReg R.DLOG_GEN_GEN v) + 1) % 2 ^ 32) :
    Gives (.dlogGen v x) s s := by
  have hg : getF x 0 32 = x.toNat % 2 ^ 32 := by rw [getF, Nat.pow_zero, Nat.div_one]
  exact dev_makes (execDlogGen.eq_def ..) (vfOk_true h1 h2) (if_neg (mt beq_iff_eq.1 (by rw [hg]; exact hx)))

theorem dlogGenAck_hold : MakesSome (.dlogGenAck v) s fun e =>
    e.fld (dlReg R.DLOG_GEN_GEN_ACK v) = s.dev.fld (dlReg R.DLOG_GEN_GEN v) ∧
      e.fld (dlReg R.DLOG_GEN_GEN v) = s.dev.fld (dlReg R.DLOG_GEN_GEN v) := by
  refine ⟨_, dev_makes (execDlogGenAck.eq_def ..) (vfOk_true h1 h2) rfl, ?_, ?_⟩
  · exact fld_setFld_lt (f := dlReg R.DLOG_GEN_GEN_ACK v) _ (show R.DLOG_GEN_GEN_ACK.lo + R.DLOG_GEN_GEN_ACK.width ≤ 64 by decide)
      (getF_lt _ _ 32)
  · exact fld_setFld_apart _ (dlReg R.DLOG_GEN_GEN_ACK v) (dlReg R.DLOG_GEN_GEN v) _
      (show R.DLOG_GEN_GEN_ACK.lo + R.DLOG_GEN_GEN_ACK.width ≤ 64 by decide)
      (show R.DLOG_GEN_GEN.lo + R.DLOG_GEN_GEN.width ≤ R.DLOG_GEN_GEN_ACK.lo ∨
        R.DLOG_GEN_GEN_ACK.lo + R.DLOG_GEN_GEN_ACK.width ≤ R.DLOG_GEN_GEN.lo by decide)

omit h1 h2 in
/-- Fields of a VF's log that lie in different registers. -/
theorem fld_dlog_other {d : Dev} {f k : Field} {x : Nat} (h : k.reg ≠ f.reg) : (d.setFld (dlReg f v) x).fld (dlReg k v) = d.fld (dlReg k v) :=
  fld_setFld_reg _ _ _ _ fun he => h (Nat.add_right_cancel he)

theorem dlogHead_hold {x : Word} : MakesSome (.dlogRingHeadWrite v x) s fun e =>
    e.fld (dlReg R.DLOG_RING_HEAD_INDEX v) = x.toNat % 2 ^ 22 ∧
    e.fld (dlReg R.DLOG_RING_TAIL_INDEX v) = s.dev.fld (dlReg R.DLOG_RING_TAIL_INDEX v) ∧
    ((s.dev.setFld (dlReg R.DLOG_RING_HEAD_INDEX v) (x.toNat % 2 ^ 22)).dlFull v = false → e.flag (dlReg R.DLOG_CTL_STALLED v) = false) := by
  have hg : getF x 0 22 = x.toNat % 2 ^ 22 := by rw [getF, Nat.pow_zero, Nat.div_one]
  obtain ⟨w, hw⟩ : ∃ w, s.dev.setFld (dlReg R.DLOG_RING_HEAD_INDEX v) (x.toNat % 2 ^ 22) = w := ⟨_, rfl⟩
  have hhead : w.fld (dlReg R.DLOG_RING_HEAD_INDEX v) = x.toNat % 2 ^ 22 := by
    rw [← hw]
    exact fld_setFld_lt (f := dlReg R.DLOG_RING_HEAD_INDEX v) _ (show R.DLOG_RING_HEAD_INDEX.lo + R.DLOG_RING_HEAD_INDEX.width ≤ 64 by decide)
      (Nat.mod_lt _ (Nat.two_pow_pos 22))
  have htail : w.fld (dlReg R.DLOG_RING_TAIL_INDEX v) = s.dev.fld (dlReg R.DLOG_RING_TAIL_INDEX v) := by
    rw [← hw]
    exact fld_dlog_other (f := R.DLOG_RING_HEAD_INDEX) (by decide)
  rw [hw]
  refine ⟨if w.dlFull v = true then w else w.setFld (dlReg R.DLOG_CTL_STALLED v) 0,
    dev_makes (execDlogRingHeadWrite.eq_def ..) (vfOk_true h1 h2) ?_, ?_, ?_, fun hf => ?_⟩
  · unfold Dev.dlogHeadWrite
    dsimp only
    rw [hg, hw]
  · split
    · exact hhead
    · exact (fld_dlog_other (f := R.DLOG_CTL_STALLED) (k := R.DLOG_RING_HEAD_INDEX) (by decide)).trans hhead
  · split
    · exact htail
    · exact (fld_dlog_other (f := R.DLOG_CTL_STALLED) (k := R.DLOG_RING_TAIL_INDEX) (by decide)).trans htail
  · rw [if_neg (by rw [hf]; exact Bool.false_ne_true)]
    exact flag_setFld_zero _ (dlReg R.DLOG_CTL_STALLED v) (show R.DLOG_CTL_STALLED.lo + R.DLOG_CTL_STALLED.width ≤ 64 by decide)

end

theorem loggingRounds_hold : loggingRounds := by
  intro s v h1 h2
  exact ⟨fun x => ⟨dlogGen_opens h1 h2, dlogGen_ignored h1 h2⟩, dlogGenAck_hold h1 h2, fun x => dlogHead_hold h1 h2⟩

/-! ### Streams -/

/-- The layout of a stream's control register. -/
def streamCtlSpec : RegSpec := ⟨0x100020008, [(0x20, 4096)], [⟨R.STREAM_CTL_EN, .rw, 0, false, false⟩,
  ⟨R.STREAM_CTL_OWNER, .rw, 0, false, false⟩, ⟨R.STREAM_CTL_LOG2SIZE, .rw, 12, false, false⟩]⟩

theorem streamReg_reg (f : Field) (t : Nat) : (streamReg f t).reg = f.reg + 0x20 * t := rfl

theorem regAt_streamCtl {t : Nat} (ht : t < 4096) : regAt (streamReg R.STREAM_CTL_EN t).reg = some streamCtlSpec := by
  have hreg : (streamReg R.STREAM_CTL_EN t).reg = 0x100020008 + 0x20 * t := rfl
  have h0 : regsLebar0.find? (liesAt (0x100020008 + 0x20 * t)) = some streamCtlSpec := by
    unfold regsLebar0
    rw [List.find?_cons_of_neg (not_liesAt_past rfl (by show 0x100000000 + 1 ≤ _; omega)),
      List.find?_cons_of_neg (not_liesAt_past rfl (by show 0x100000008 + 1 ≤ _; omega)),
      List.find?_cons_of_neg (not_liesAt_past rfl (by show 0x100010000 + 8 * 8192 ≤ _; omega)),
      List.find?_cons_of_neg (not_liesAt_offset rfl (by dsimp only; omega))]
    exact List.find?_cons_of_pos (liesAt_element (r := streamCtlSpec) rfl (by decide) ht)
  rw [hreg, regAt_engine (by omega), h0]
  rfl

section
variable {s : State} {t : Nat} (ht : t < 4096)
include ht

theorem streamOk_true : streamOk t = true := decide_eq_true ht

theorem streamCtl_makes {v : Word} {c : Instr} (hc : c = .streamEnable t v ∨ c = .streamDisable t v) {e : Dev} (he : s.dev.streamCtl t v = e) :
    Makes c s e := by
  rcases hc with rfl | rfl
  · exact dev_makes (execStreamEnable.eq_def ..) (streamOk_true ht) he
  · exact dev_makes (execStreamDisable.eq_def ..) (streamOk_true ht) he

theorem streamWritten_spec (d : Dev) {v : Word} : (d.writeReg (streamReg R.STREAM_CTL_EN t).reg v).flag (streamReg R.STREAM_CTL_EN t) = v.getLsbD 0 ∧
    (d.writeReg (streamReg R.STREAM_CTL_EN t).reg v).reg (streamReg R.STREAM_HEAD_OFFSET t).reg = d.reg (streamReg R.STREAM_HEAD_OFFSET t).reg := by
  have hr := regAt_streamCtl ht
  have he : (streamReg R.STREAM_CTL_EN t).reg ∉ eventRegs := engineReg_plain (by
    rw [streamReg_reg, show R.STREAM_CTL_EN.reg = 0x100020008 from rfl]
    omega)
  refine ⟨(congrArg (· != 0) (get_writeReg_taken v hr he (f := ⟨R.STREAM_CTL_EN, .rw, 0, false, false⟩) (by decide) (by decide) rfl
    (by decide))).trans (get_bit R.STREAM_CTL_EN rfl v), reg_writeReg_other v hr he ?_⟩
  rw [streamReg_reg, streamReg_reg, show R.STREAM_CTL_EN.reg = 0x100020008 from rfl, show R.STREAM_HEAD_OFFSET.reg = 0x100020010 from rfl]
  omega

theorem stream_starts {v : Word} {c : Instr} (hc : c = .streamEnable t v ∨ c = .streamDisable t v)
    (hen : s.dev.flag (streamReg R.STREAM_CTL_EN t) = false) (hv : v.getLsbD 0 = true) : MakesSome c s fun e =>
      e.flag (streamReg R.STREAM_CTL_EN t) = true ∧
      e.reg (streamReg R.STREAM_TAIL_OFFSET t).reg = s.dev.reg (streamReg R.STREAM_HEAD_OFFSET t).reg ∧
      e.stream t = { resv := (s.dev.reg (streamReg R.STREAM_HEAD_OFFSET t).reg).toNat } := by
  obtain ⟨w, hw⟩ : ∃ w, s.dev.writeReg (streamReg R.STREAM_CTL_EN t).reg v = w := ⟨_, rfl⟩
  obtain ⟨hflag, hhead⟩ := streamWritten_spec ht s.dev (v := v)
  rw [hw] at hflag hhead
  obtain ⟨h, hh⟩ : ∃ h, s.dev.reg (streamReg R.STREAM_HEAD_OFFSET t).reg = h := ⟨_, rfl⟩
  rw [hh] at hhead ⊢
  refine ⟨(w.setReg (streamReg R.STREAM_TAIL_OFFSET t).reg h).setStream t { resv := h.toNat }, streamCtl_makes ht hc ?_, ?_,
    reg_setReg_same _ _ _, stream_setStream_same _ _ _⟩
  · unfold Dev.streamCtl
    dsimp only
    rw [hen, hw, hhead, bitOf_eq_getLsbD, hv]
    rfl
  · refine (congrArg (fun x => R.STREAM_CTL_EN.get x != 0) (reg_setReg_other _ _ _ _ ?_)).trans (hflag.trans hv)
    rw [streamReg_reg, streamReg_reg, show R.STREAM_CTL_EN.reg = 0x100020008 from rfl, show R.STREAM_TAIL_OFFSET.reg = 0x100020018 from rfl]
    omega

section
variable {v : Word} {c : Instr} (hc : c = .streamEnable t v ∨ c = .streamDisable t v) (hen : s.dev.flag (streamReg R.STREAM_CTL_EN t) = true)
include hc hen

theorem stream_stays (hv : v.getLsbD 0 = true) : Gives c s s :=
  streamCtl_makes ht hc ((if_pos hen).trans (if_pos (by rw [bitOf_eq_getLsbD]; exact hv)))

theorem stream_stops (hv : v.getLsbD 0 = false) (hr : (s.dev.stream t).ranges = []) : MakesSome c s fun e =>
    e.flag (streamReg R.STREAM_CTL_EN t) = false ∧ e.stream t = s.dev.stream t := by
  refine ⟨_, streamCtl_makes ht hc ((if_pos hen).trans ((if_neg ?_).trans (if_pos (by rw [hr]; rfl)))),
    flag_setFld_zero _ (streamReg R.STREAM_CTL_EN t) (show R.STREAM_CTL_EN.lo + R.STREAM_CTL_EN.width ≤ 64 by decide),
    of_bare (·.stream t) (fun _ => rfl) (bare_setFld _ _ _)⟩
  rw [bitOf_eq_getLsbD, hv]
  exact Bool.false_ne_true

theorem stream_closes (hv : v.getLsbD 0 = false) (hr : (s.dev.stream t).ranges ≠ []) : MakesSome c s fun e =>
    e.flag (streamReg R.STREAM_CTL_EN t) = true ∧ e.stream t = { s.dev.stream t with closing := true } := by
  refine ⟨_, streamCtl_makes ht hc ((if_pos hen).trans ((if_neg ?_).trans (if_neg (mt List.isEmpty_iff.1 hr)))), hen,
    stream_setStream_same _ _ _⟩
  rw [bitOf_eq_getLsbD, hv]
  exact Bool.false_ne_true

end

end

end Sys2Proof.Proofs
end

