-- ==== Sys2Proof/Proofs/FunctionsQuiesce.lean ====
section
/-!
PROOFS. Quiesces of the Ledger Engine's functions (R427, R437, R438, R441): what each step of a quiesce leaves of the pairs, streams,
functions and registers, then the commands that begin and end one.
-/

namespace Sys2Proof.Proofs

open Sys2Proof Sys2Proof.Machine Sys2Proof.Laws

/-! ### Keys of a map -/

section
variable {β : Type}

/-- The map lists a key. -/
def lists (m : SMap β) (k : Nat) : Prop := ∃ v, (k, v) ∈ m

theorem lists_of_get {df : Nat → β} {m : SMap β} {k : Nat} (h : SMap.get df m k ≠ df k) : lists m k :=
  (smap_get_mem df m k).elim (fun hm => ⟨_, hm⟩) fun he => absurd he h

theorem lists_insert {m : SMap β} {k j : Nat} {v : β} (h : lists m k) : lists (SMap.insert m j v) k := by
  obtain ⟨w, hw⟩ := h
  induction m with
  | nil => cases hw
  | cons p m ih =>
    obtain ⟨i, u⟩ := p
    unfold SMap.insert
    split
    · exact ⟨w, List.mem_cons_of_mem _ hw⟩
    · rcases List.mem_cons.1 hw with he | hm
      · obtain ⟨rfl, rfl⟩ := Prod.mk.inj he
        split
        case isTrue hj => exact ⟨v, List.mem_cons.2 (.inl (by rw [hj]))⟩
        case isFalse => exact ⟨w, List.mem_cons_self⟩
      · split
        · exact ⟨w, List.mem_cons_of_mem _ hm⟩
        · obtain ⟨x, hx⟩ := ih hm
          exact ⟨x, List.mem_cons_of_mem _ hx⟩

theorem lists_erase {m : SMap β} {k j : Nat} (h : lists m k) (hk : k ≠ j) : lists (SMap.erase m j) k := by
  obtain ⟨w, hw⟩ := h
  induction m with
  | nil => cases hw
  | cons p m ih =>
    obtain ⟨i, u⟩ := p
    unfold SMap.erase
    rcases List.mem_cons.1 hw with he | hm
    · obtain ⟨rfl, rfl⟩ := Prod.mk.inj he
      rw [if_neg hk]
      exact ⟨w, List.mem_cons_self⟩
    · split
      · exact ih hm
      · obtain ⟨x, hx⟩ := ih hm
        exact ⟨x, List.mem_cons_of_mem _ hx⟩

theorem lists_set [DecidableEq β] {df : Nat → β} {m : SMap β} {k j : Nat} {v : β} (h : lists m k) (hk : k ≠ j) : lists (SMap.set df m j v) k := by
  unfold SMap.set
  split
  · exact lists_erase h hk
  · exact lists_insert h

end

/-! ### Fields that no quiesce writes -/

/-- A field of the registers below the functions' status, other than a stream's EN. -/
def stands (f : Field) : Prop := f.reg < 0x100020000 ∨ f.reg < 0x100040000 ∧ (1 ≤ f.lo ∨ f.reg % 0x20 ≠ 8)

/-- The fields that no quiesce writes are the same. -/
def standing (d e : Dev) : Prop := ∀ f, stands f → e.fld f = d.fld f

theorem standing_refl (d : Dev) : standing d d := fun _ _ => rfl

theorem standing_trans {a b c : Dev} (h : standing a b) (k : standing b c) : standing a c := fun f hf => (k f hf).trans (h f hf)

theorem standing_of_regs {d e : Dev} (h : e.regs = d.regs) : standing d e := fun f _ => fld_of_regs h f

theorem standing_setReg (d : Dev) {off : Nat} (v : Word) (h : 0x100040000 ≤ off) : standing d (d.setReg off v) := fun f hf =>
  fld_setReg_other d off v (by
    rcases hf with hf | ⟨hf, -⟩ <;> omega)

theorem standing_setFld (d : Dev) {f : Field} (x : Nat) (h : 0x100040000 ≤ f.reg) : standing d (d.setFld f x) := standing_setReg d _ h

theorem standing_streamEn (d : Dev) (t x : Nat) : standing d (d.setFld (streamReg R.STREAM_CTL_EN t) x) := by
  intro f hf
  by_cases hr : f.reg = (streamReg R.STREAM_CTL_EN t).reg
  · refine fld_setFld_apart _ (streamReg R.STREAM_CTL_EN t) _ _ (show R.STREAM_CTL_EN.lo + R.STREAM_CTL_EN.width ≤ 64 by decide) (.inr ?_)
    rw [streamReg_reg, show R.STREAM_CTL_EN.reg = 0x100020008 from rfl] at hr
    change 1 ≤ f.lo
    rcases hf with hf | ⟨-, hf⟩ <;> omega
  · exact fld_setFld_reg _ _ _ _ hr

theorem standing_showFn (d : Dev) (n : Nat) : standing d (d.showFn n) := fun f hf =>
  fld_showFn_other (by
    rw [show R.FN_STATUS_ENABLED.reg = 0x100040000 from rfl]
    rcases hf with hf | ⟨hf, -⟩ <;> omega)

theorem dropped_showFn (d : Dev) (n : Nat) : (d.showFn n).fld (fnReg R.FN_STATUS_DROPPED n) = d.fld (fnReg R.FN_STATUS_DROPPED n) := by
  have ap (x : Dev) {k : Field} (v : Nat) (hw : k.lo + k.width ≤ 16) :
      (x.setFld (fnReg k n) v).fld (fnReg R.FN_STATUS_DROPPED n) = x.fld (fnReg R.FN_STATUS_DROPPED n) :=
    fld_setFld_apart _ (fnReg k n) (fnReg R.FN_STATUS_DROPPED n) _ (Nat.le_trans hw (by decide)) (.inr hw)
  unfold Dev.showFn
  extract_lets y w e
  exact (ap _ (k := R.FN_STATUS_PENDING_ENABLE) _ (by decide)).trans ((ap _ (k := R.FN_STATUS_QUIESCING) _ (by decide)).trans
    (ap _ (k := R.FN_STATUS_ENABLED) _ (by decide)))

theorem stands_qpAssign {q : Nat} (hq : q < 8192) : stands (R.QP_ASSIGN_FUNC.at (8 * q)) := .inl (by
  change R.QP_ASSIGN_FUNC.reg + 8 * q < _
  rw [show R.QP_ASSIGN_FUNC.reg = 0x100010000 from rfl]
  omega)

theorem stands_tail {t : Nat} (ht : t < 4096) : stands (streamReg R.STREAM_TAIL_OFFSET t) := by
  have hr : (streamReg R.STREAM_TAIL_OFFSET t).reg = 0x100020018 + 0x20 * t := rfl
  exact .inr ⟨by omega, .inr (by omega)⟩

theorem stands_owner {t : Nat} (ht : t < 4096) : stands (streamReg R.STREAM_CTL_OWNER t) := by
  have hr : (streamReg R.STREAM_CTL_OWNER t).reg = 0x100020008 + 0x20 * t := rfl
  exact .inr ⟨by omega, .inl (show 1 ≤ R.STREAM_CTL_OWNER.lo by decide)⟩

theorem qOwner_of_standing {d e : Dev} (h : standing d e) {q : Nat} (hq : q < 8192) : e.qOwner q = d.qOwner q :=
  congrArg (· % 2048) (h _ (stands_qpAssign hq))

/-! ### The steps of a quiesce -/

section
variable (d : Dev)

theorem func_of_funcs {d e : Dev} (h : e.funcs = d.funcs) (k : Nat) : e.func k = d.func k := by
  unfold Dev.func
  rw [h]

theorem stream_of_streams {d e : Dev} (h : e.streams = d.streams) (t : Nat) : e.stream t = d.stream t := by
  unfold Dev.stream
  rw [h]

theorem stream_setStream_other {t k : Nat} (y : Stream) (h : k ≠ t) : (d.setStream t y).stream k = d.stream k :=
  smap_get_set_other _ _ _ _ _ h

theorem func_setFunc_same (f : Nat) (y : Func) : (d.setFunc f y).func f = y := smap_get_set_same _ _ _ _

theorem func_setFunc_other {f k : Nat} (y : Func) (h : k ≠ f) : (d.setFunc f y).func k = d.func k := smap_get_set_other _ _ _ _ _ h

/-- The page of a pair at its Cold values. -/
def coldPage (q : Nat) : Dev := (List.range 6).foldl (fun d i =>
  d.setReg (R.SQ_BASE_SIZE.reg + 0x100 * q + 8 * i) (coldValue (R.SQ_BASE_SIZE.reg + 0x100 * q + 8 * i))) d

theorem coldQueue_eq (q : Nat) : d.coldQueue q = (coldPage d q).setQueue q {} := rfl

theorem bare_coldPage (q : Nat) : bare (coldPage d q) = bare d := bare_foldl _ (fun _ _ => bare_setReg _ _ _) _ _

theorem standing_foldl {α : Type} (g : Dev → α → Dev) (h : ∀ d a, standing d (g d a)) (l : List α) : standing d (l.foldl g d) := by
  induction l generalizing d with
  | nil => exact standing_refl d
  | cons a l ih =>
    rw [List.foldl_cons]
    exact standing_trans (h d a) (ih _)

theorem standing_coldQueue (q : Nat) : standing d (d.coldQueue q) := by
  rw [coldQueue_eq]
  refine standing_trans (standing_foldl d _ (fun x i => standing_setReg x _ ?_) _) (standing_of_regs rfl)
  rw [show R.SQ_BASE_SIZE.reg = 0x101000000 from rfl]
  omega

theorem coldQueue_spec (q : Nat) : (d.coldQueue q).queue q = {} ∧ (∀ j, j ≠ q → (d.coldQueue q).queue j = d.queue j) ∧
    (d.coldQueue q).streams = d.streams ∧ (d.coldQueue q).funcs = d.funcs := by
  rw [coldQueue_eq]
  have hb := bare_coldPage d q
  generalize coldPage d q = e at hb
  have hs : e.streams = d.streams := of_bare (·.streams) (fun _ => rfl) hb
  have hf : e.funcs = d.funcs := of_bare (·.funcs) (fun _ => rfl) hb
  exact ⟨queue_setQueue_same _ _ _, fun j hj => (queue_setQueue_other _ _ hj).trans (of_bare (·.queue j) (fun _ => rfl) hb), hs, hf⟩

theorem coldQueues_spec (l : List Nat) : standing d (l.foldl (fun d q => d.coldQueue q) d) ∧
    (∀ q ∈ l, (l.foldl (fun d q => d.coldQueue q) d).queue q = {}) ∧
    (∀ q, q ∉ l → (l.foldl (fun d q => d.coldQueue q) d).queue q = d.queue q) ∧
    (l.foldl (fun d q => d.coldQueue q) d).streams = d.streams ∧ (l.foldl (fun d q => d.coldQueue q) d).funcs = d.funcs := by
  induction l generalizing d with
  | nil => exact ⟨standing_refl d, fun _ h => absurd h List.not_mem_nil, fun _ _ => rfl, rfl, rfl⟩
  | cons a l ih =>
    rw [List.foldl_cons]
    obtain ⟨hc, ho, hs, hf⟩ := coldQueue_spec d a
    have h0 := standing_coldQueue d a
    generalize d.coldQueue a = e at hc ho hs hf h0
    obtain ⟨i0, i1, i2, i3, i4⟩ := ih e
    refine ⟨standing_trans h0 i0, fun q hq => ?_, fun q hq => ?_, i3.trans hs, i4.trans hf⟩
    · by_cases hl : q ∈ l
      · exact i1 q hl
      · rw [i2 q hl]
        rcases List.mem_cons.1 hq with rfl | h
        · exact hc
        · exact absurd h hl
    · rw [List.mem_cons, not_or] at hq
      exact (i2 q hq.2).trans (ho q hq.1)

/-- A stream of a function that quiesces takes TAIL as its reservation point. -/
def cutStream (t : Nat) : Dev :=
  (if (d.stream t).closing then d.setFld (streamReg R.STREAM_CTL_EN t) 0 else d).setStream t
    { resv := (if (d.stream t).closing then d.setFld (streamReg R.STREAM_CTL_EN t) 0 else d).fld (streamReg R.STREAM_TAIL_OFFSET t) }

theorem cutStreams_eq (f : Nat) : d.cutStreams f =
    ((d.streams.map fun kv => kv.1).filter fun t => d.fld (streamReg R.STREAM_CTL_OWNER t) == f).foldl cutStream d := rfl

theorem cutStream_spec (t : Nat) : standing d (cutStream d t) ∧ (t < 4096 → (cutStream d t).stream t = { resv := d.fld (streamReg R.STREAM_TAIL_OFFSET t) }) ∧
    (∀ k, k ≠ t → (cutStream d t).stream k = d.stream k ∧ (lists d.streams k → lists (cutStream d t).streams k)) ∧
    (∀ q, (cutStream d t).queue q = d.queue q) ∧ (cutStream d t).funcs = d.funcs := by
  obtain ⟨e, he⟩ : ∃ e, (if (d.stream t).closing then d.setFld (streamReg R.STREAM_CTL_EN t) 0 else d) = e := ⟨_, rfl⟩
  have hb : bare e = bare d := by
    rw [← he]
    split
    · exact bare_setFld _ _ _
    · rfl
  have hst : standing d e := by
    rw [← he]
    split
    · exact standing_streamEn _ _ _
    · exact standing_refl d
  have hss : e.streams = d.streams := of_bare (·.streams) (fun _ => rfl) hb
  have hff : e.funcs = d.funcs := of_bare (·.funcs) (fun _ => rfl) hb
  have hqq (q : Nat) : e.queue q = d.queue q := of_bare (·.queue q) (fun _ => rfl) hb
  unfold cutStream
  rw [he]
  refine ⟨standing_trans hst (standing_of_regs rfl), fun ht => ?_, fun k hk => ⟨?_, fun hl => ?_⟩, hqq, hff⟩
  · rw [stream_setStream_same, hst _ (stands_tail ht)]
  · rw [stream_setStream_other _ _ hk]
    exact of_bare (·.stream k) (fun _ => rfl) hb
  · exact lists_set (df := fun _ => {}) (m := e.streams) (by rw [hss]; exact hl) hk

theorem cutAll_spec (l : List Nat) : standing d (l.foldl cutStream d) ∧
    (∀ t ∈ l, t < 4096 → (l.foldl cutStream d).stream t = { resv := d.fld (streamReg R.STREAM_TAIL_OFFSET t) }) ∧
    (∀ k, k ∉ l → (l.foldl cutStream d).stream k = d.stream k ∧ (lists d.streams k → lists (l.foldl cutStream d).streams k)) ∧
    (∀ q, (l.foldl cutStream d).queue q = d.queue q) ∧ (l.foldl cutStream d).funcs = d.funcs := by
  induction l generalizing d with
  | nil => exact ⟨standing_refl d, fun _ h => absurd h List.not_mem_nil, fun _ _ => ⟨rfl, id⟩, fun _ => rfl, rfl⟩
  | cons a l ih =>
    rw [List.foldl_cons]
    obtain ⟨h0, hc, ho, hq, hf⟩ := cutStream_spec d a
    generalize cutStream d a = e at h0 hc ho hq hf
    obtain ⟨i0, i1, i2, i3, i4⟩ := ih e
    refine ⟨standing_trans h0 i0, fun t ht hlt => ?_, fun k hk => ?_, fun q => (i3 q).trans (hq q), i4.trans hf⟩
    · by_cases hl : t ∈ l
      · rw [i1 t hl hlt, h0 _ (stands_tail hlt)]
      · rw [(i2 t hl).1]
        rcases List.mem_cons.1 ht with rfl | h
        · exact hc hlt
        · exact absurd h hl
    · rw [List.mem_cons, not_or] at hk
      exact ⟨(i2 k hk.2).1.trans (ho k hk.1).1, fun hl => (i2 k hk.2).2 ((ho k hk.1).2 hl)⟩

/-- The device whose function f quiesces, but for what shows it. -/
def quiesceCut (f : Nat) : Dev := (((d.pairsOf f ++ d.pagesOfFn f).eraseDups.foldl (fun d q => d.coldQueue q) d).cutStreams f)

theorem startQuiesce_eq (f : Nat) : d.startQuiesce f =
    (((quiesceCut d f).setFld (fnReg R.FN_STATUS_DROPPED f) 0).setFunc f
      { ((quiesceCut d f).setFld (fnReg R.FN_STATUS_DROPPED f) 0).func f with quiescing := true }).showFn f := rfl

theorem quiesceCut_spec (f : Nat) : standing d (quiesceCut d f) ∧
    (∀ q, (quiesceCut d f).queue q = d.queue q ∨ (quiesceCut d f).queue q = {}) ∧
    (∀ q, d.qOwner q = f → ((quiesceCut d f).queue q).inflight = []) ∧
    (∀ t, t < 4096 → d.fld (streamReg R.STREAM_CTL_OWNER t) ≠ f →
      (quiesceCut d f).stream t = d.stream t ∧ (lists d.streams t → lists (quiesceCut d f).streams t)) ∧
    (∀ t, t < 4096 → lists d.streams t → d.fld (streamReg R.STREAM_CTL_OWNER t) = f →
      (quiesceCut d f).stream t = { resv := d.fld (streamReg R.STREAM_TAIL_OFFSET t) }) ∧
    (quiesceCut d f).funcs = d.funcs := by
  obtain ⟨l, hl⟩ : ∃ l, (d.pairsOf f ++ d.pagesOfFn f).eraseDups = l := ⟨_, rfl⟩
  have hmem {q : Nat} (h1 : lists d.queues q) (h2 : d.qOwner q = f) : q ∈ l := by
    obtain ⟨v, hv⟩ := h1
    rw [← hl, List.mem_eraseDups, List.mem_append]
    exact .inl (List.mem_filter.2 ⟨List.mem_map.2 ⟨_, hv, rfl⟩, beq_iff_eq.2 h2⟩)
  obtain ⟨c0, c1, c2, c3, c4⟩ := coldQueues_spec d l
  unfold quiesceCut
  rw [hl]
  generalize l.foldl (fun d q => d.coldQueue q) d = e at c0 c1 c2 c3 c4
  rw [cutStreams_eq]
  obtain ⟨k, hk⟩ : ∃ k, ((e.streams.map fun kv => kv.1).filter fun t => e.fld (streamReg R.STREAM_CTL_OWNER t) == f) = k := ⟨_, rfl⟩
  have hkm (t : Nat) : t ∈ k ↔ lists d.streams t ∧ e.fld (streamReg R.STREAM_CTL_OWNER t) = f := by
    rw [← hk, List.mem_filter, beq_iff_eq, List.mem_map, c3]
    refine and_congr_left fun _ => ⟨fun ⟨p, hp, he⟩ => ⟨p.2, he ▸ hp⟩, fun ⟨v, hv⟩ => ⟨_, hv, rfl⟩⟩
  rw [hk]
  obtain ⟨i0, i1, i2, i3, i4⟩ := cutAll_spec e k
  have hst {q : Nat} (P : Queue → Prop) (h : P (e.queue q)) : P ((k.foldl cutStream e).queue q) := by
    rw [i3]
    exact h
  have heq (t : Nat) : e.stream t = d.stream t := stream_of_streams c3 t
  refine ⟨standing_trans c0 i0, fun q => hst (fun y => y = d.queue q ∨ y = {}) ?_, fun q hq => hst (fun y => y.inflight = []) ?_,
    fun t ht ho => ?_, fun t ht hlt ho => ?_, i4.trans c4⟩
  · by_cases h : q ∈ l
    · exact .inr (c1 q h)
    · exact .inl (c2 q h)
  · by_cases h : q ∈ l
    · rw [c1 q h]
    · rw [c2 q h]
      by_cases hd : d.queue q = {}
      · rw [hd]
      · exact absurd (hmem (lists_of_get hd) hq) h
  · have hn : t ∉ k := fun h => ho ((c0 _ (stands_owner ht)).symm.trans ((hkm t).1 h).2)
    exact ⟨(i2 t hn).1.trans (heq t), fun hlt => (i2 t hn).2 (c3 ▸ hlt)⟩
  · rw [i1 t ((hkm t).2 ⟨hlt, (c0 _ (stands_owner ht)).trans ho⟩) ht, c0 _ (stands_tail ht)]

/-- What a quiesce of a function leaves. -/
structure Quiesced (d : Dev) (f : Nat) (e : Dev) : Prop where
  low : standing d e
  dropped : e.fld (fnReg R.FN_STATUS_DROPPED f) = 0
  own : e.func f = { d.func f with quiescing := true }
  others : ∀ k, k ≠ f → e.func k = d.func k
  queues : ∀ q, e.queue q = d.queue q ∨ e.queue q = {}
  empty : ∀ q, d.qOwner q = f → (e.queue q).inflight = []
  kept : ∀ t, t < 4096 → d.fld (streamReg R.STREAM_CTL_OWNER t) ≠ f →
    e.stream t = d.stream t ∧ (lists d.streams t → lists e.streams t)
  cut : ∀ t, t < 4096 → lists d.streams t → d.fld (streamReg R.STREAM_CTL_OWNER t) = f →
    e.stream t = { resv := d.fld (streamReg R.STREAM_TAIL_OFFSET t) }

end

/-- A function's record that is set and shown. -/
theorem shownFunc_spec (z : Dev) (f : Nat) (y : Func) :
    standing z ((z.setFunc f y).showFn f) ∧
    ((z.setFunc f y).showFn f).fld (fnReg R.FN_STATUS_DROPPED f) = z.fld (fnReg R.FN_STATUS_DROPPED f) ∧
    ((z.setFunc f y).showFn f).func f = y ∧ (∀ k, k ≠ f → ((z.setFunc f y).showFn f).func k = z.func k) ∧
    (∀ k, ((z.setFunc f y).showFn f).queue k = z.queue k) ∧ ((z.setFunc f y).showFn f).streams = z.streams := by
  have hst : standing (z.setFunc f y) ((z.setFunc f y).showFn f) := standing_showFn _ _
  have hdr := dropped_showFn (z.setFunc f y) f
  have hb := bare_showFn (d := z.setFunc f y) f
  have hf : (z.setFunc f y).func f = y := func_setFunc_same _ _ _
  have ho (k : Nat) (hk : k ≠ f) : (z.setFunc f y).func k = z.func k := func_setFunc_other _ _ hk
  have hq (k : Nat) : (z.setFunc f y).queue k = z.queue k := rfl
  have hs : (z.setFunc f y).streams = z.streams := rfl
  have hr : standing z (z.setFunc f y) := standing_of_regs rfl
  have hd : (z.setFunc f y).fld (fnReg R.FN_STATUS_DROPPED f) = z.fld (fnReg R.FN_STATUS_DROPPED f) := rfl
  generalize z.setFunc f y = x at hst hdr hb hf ho hq hs hr hd ⊢
  exact ⟨standing_trans hr hst, hdr.trans hd, (of_bare (·.func f) (fun _ => rfl) hb).trans hf,
    fun k hk => (of_bare (·.func k) (fun _ => rfl) hb).trans (ho k hk), fun k => (of_bare (·.queue k) (fun _ => rfl) hb).trans (hq k),
    (of_bare (·.streams) (fun _ => rfl) hb).trans hs⟩

theorem dropsCleared_spec (e : Dev) (f : Nat) : standing e (e.setFld (fnReg R.FN_STATUS_DROPPED f) 0) ∧
    (e.setFld (fnReg R.FN_STATUS_DROPPED f) 0).fld (fnReg R.FN_STATUS_DROPPED f) = 0 ∧
    bare (e.setFld (fnReg R.FN_STATUS_DROPPED f) 0) = bare e :=
  ⟨standing_setFld e 0 (Nat.le_add_right _ _), fld_setFld_lt (f := fnReg R.FN_STATUS_DROPPED f) e
    (show R.FN_STATUS_DROPPED.lo + R.FN_STATUS_DROPPED.width ≤ 64 by decide) (Nat.two_pow_pos _), bare_setFld _ _ _⟩

theorem startQuiesce_quiesced (d : Dev) (f : Nat) : Quiesced d f (d.startQuiesce f) := by
  obtain ⟨h0, h1, h2, h3, h4, h5⟩ := quiesceCut_spec d f
  rw [startQuiesce_eq]
  generalize quiesceCut d f = e at h0 h1 h2 h3 h4 h5 ⊢
  obtain ⟨hlow, hdr, hb⟩ := dropsCleared_spec e f
  generalize e.setFld (fnReg R.FN_STATUS_DROPPED f) 0 = z at hdr hlow hb ⊢
  have hf (k : Nat) : z.func k = d.func k := (of_bare (·.func k) (fun _ => rfl) hb).trans (func_of_funcs h5 k)
  have hq (k : Nat) : z.queue k = e.queue k := of_bare (·.queue k) (fun _ => rfl) hb
  have hs : z.streams = e.streams := of_bare (·.streams) (fun _ => rfl) hb
  obtain ⟨g0, g1, g2, g3, g4, g5⟩ := shownFunc_spec z f { z.func f with quiescing := true }
  generalize (z.setFunc f { z.func f with quiescing := true }).showFn f = x at g0 g1 g2 g3 g4 g5 ⊢
  have st (t : Nat) : x.stream t = e.stream t := stream_of_streams (g5.trans hs) t
  refine ⟨standing_trans h0 (standing_trans hlow g0), g1.trans hdr, by rw [g2, hf], fun k hk => (g3 k hk).trans (hf k), fun q => ?_,
    fun q hq' => ?_, fun t ht ho => ?_, fun t ht hl ho => ?_⟩
  · rw [g4, hq]
    exact h1 q
  · rw [g4, hq]
    exact h2 q hq'
  · rw [st, g5, hs]
    exact h3 t ht ho
  · rw [st]
    exact h4 t ht hl ho

/-! ### Functions that are taken away, reset or put into D3hot -/

/-- One VF is taken away. -/
def hideVf (d : Dev) (v : Nat) : Dev := (d.setFunc v { d.func v with exposed := false, wantVf := false, bme := false }).startQuiesce v

theorem hideVfs_eq (d : Dev) : d.hideVfs = d.exposedVfs.foldl hideVf d := rfl

theorem quiesced_setFunc {d e : Dev} {v : Nat} {y : Func} (h : Quiesced (d.setFunc v y) v e) :
    standing d e ∧ e.func v = { y with quiescing := true } ∧ (∀ k, k ≠ v → e.func k = d.func k) ∧
    ∀ t, t < 4096 → d.fld (streamReg R.STREAM_CTL_OWNER t) ≠ v → (lists d.streams t → lists e.streams t) := by
  refine ⟨standing_trans (standing_of_regs (d := d) (e := d.setFunc v y) rfl) h.low, ?_, fun k hk => ?_, fun t ht ho hl => ?_⟩
  · rw [h.own, func_setFunc_same]
  · rw [h.others k hk, func_setFunc_other _ _ hk]
  · exact (h.kept t ht ho).2 hl

theorem hideAll_spec (l : List Nat) (d : Dev) : standing d (l.foldl hideVf d) ∧
    (∀ v ∈ l, ((l.foldl hideVf d).func v).exposed = false ∧ ((l.foldl hideVf d).func v).quiescing = true) ∧
    (∀ v, v ∉ l → (l.foldl hideVf d).func v = d.func v) ∧
    ∀ t, t < 4096 → d.fld (streamReg R.STREAM_CTL_OWNER t) ∉ l → lists d.streams t → lists (l.foldl hideVf d).streams t := by
  induction l generalizing d with
  | nil => exact ⟨standing_refl d, fun _ h => absurd h List.not_mem_nil, fun _ _ => rfl, fun _ _ _ h => h⟩
  | cons a l ih =>
    rw [List.foldl_cons]
    obtain ⟨h0, h1, h2, h3⟩ := quiesced_setFunc (startQuiesce_quiesced (d.setFunc a { d.func a with exposed := false, wantVf := false, bme := false }) a)
    change standing d (hideVf d a) at h0
    change (hideVf d a).func a = _ at h1
    change ∀ k, k ≠ a → (hideVf d a).func k = d.func k at h2
    change ∀ t, t < 4096 → _ → (lists d.streams t → lists (hideVf d a).streams t) at h3
    generalize hideVf d a = e at h0 h1 h2 h3 ⊢
    obtain ⟨i0, i1, i2, i3⟩ := ih e
    refine ⟨standing_trans h0 i0, fun v hv => ?_, fun v hv => ?_, fun t ht ho hl => ?_⟩
    · by_cases hl : v ∈ l
      · exact i1 v hl
      · rw [i2 v hl]
        rcases List.mem_cons.1 hv with rfl | h
        · rw [h1]
          exact ⟨rfl, rfl⟩
        · exact absurd h hl
    · rw [List.mem_cons, not_or] at hv
      exact (i2 v hv.2).trans (h2 v hv.1)
    · rw [List.mem_cons, not_or] at ho
      exact i3 t ht (by rw [h0 _ (stands_owner ht)]; exact ho.2) (h3 t ht ho.1 hl)

theorem mem_exposedVfs {d : Dev} {v : Nat} (hv : v ≠ 0) (h : (d.func v).exposed = true) : v ∈ d.exposedVfs := by
  rcases smap_get_mem (fun _ => {}) d.funcs v with hm | he
  · refine List.mem_map.2 ⟨_, List.mem_filter.2 ⟨hm, ?_⟩, rfl⟩
    rw [Bool.and_eq_true, bne_iff_ne]
    exact ⟨hv, h⟩
  · rw [Dev.func, he] at h
    exact absurd h Bool.false_ne_true

theorem zero_not_exposed (d : Dev) : 0 ∉ d.exposedVfs := fun h => by
  obtain ⟨kv, hkv, h0⟩ := List.mem_map.1 h
  obtain ⟨-, hf⟩ := List.mem_filter.1 hkv
  rw [Bool.and_eq_true, bne_iff_ne] at hf
  exact hf.1 h0

/-- The function is stopped, its descriptors discarded and its streams cut, as the state before shows them. -/
def functionStopped (d : Dev) (f : Nat) (e : Dev) : Prop :=
  (e.func f).quiescing = true ∧ (e.func f).bme = false ∧ e.fld (fnReg R.FN_STATUS_DROPPED f) = 0 ∧
  (∀ q, q < 8192 → d.qOwner q = f → (e.queue q).inflight = []) ∧
  ∀ t st, t < 4096 → (t, st) ∈ d.streams → d.fld (streamReg R.STREAM_CTL_OWNER t) = f →
    (e.stream t).resv = d.fld (streamReg R.STREAM_TAIL_OFFSET t) ∧ (e.stream t).ranges = []

theorem functionStopped_of {d x e : Dev} {f : Nat} (hl : standing d x) (hs : ∀ t, t < 4096 → d.fld (streamReg R.STREAM_CTL_OWNER t) = f →
    lists d.streams t → lists x.streams t) (hb : (x.func f).bme = false) (h : Quiesced x f e) : functionStopped d f e := by
  refine ⟨by rw [h.own], by rw [h.own]; exact hb, h.dropped, fun q hq ho => h.empty q ((qOwner_of_standing hl hq).trans ho),
    fun t st ht hm ho => ?_⟩
  rw [h.cut t ht (hs t ht ho ⟨st, hm⟩) ((hl _ (stands_owner ht)).trans ho), hl _ (stands_tail ht)]
  exact ⟨rfl, rfl⟩

/-- A function's registers at their Cold values. -/
theorem coldFunc_spec (d : Dev) (f : Nat) : (d.coldFunc f).regs = d.regs ∧ (d.coldFunc f).streams = d.streams ∧
    (d.coldFunc f).func f = { d.func f with
      bme := false
      mse := false
      d3 := false
      cfg := [] } := ⟨rfl, rfl, func_setFunc_same _ _ _⟩

theorem flr_eq (d : Dev) (f : Nat) : d.flr f = ((if f == 0 then d.hideVfs else d).coldFunc f).startQuiesce f := rfl

/-! ### Pairs that start once a quiesce is over -/

/-- A start of a pair changes the registers of its own page and its own record alone. -/
theorem startQueue_frame (d : Dev) (q : Nat) : (d.startQueue q).funcs = d.funcs ∧ ∀ j, j ≠ q →
    (d.startQueue q).queue j = d.queue j ∧ (d.startQueue q).fld (qReg R.Q_CTL_EN j) = d.fld (qReg R.Q_CTL_EN j) := by
  have ap (x : Dev) (f : Field) (v j : Nat) (h : f.reg < R.Q_CTL_EN.reg + 0x100 ∧ R.Q_CTL_EN.reg < f.reg + 0x100) (hj : j ≠ q) :
      (x.setFld (qReg f q) v).fld (qReg R.Q_CTL_EN j) = x.fld (qReg R.Q_CTL_EN j) := by
    refine fld_setFld_reg _ _ _ _ fun he => ?_
    rw [qReg_reg, qReg_reg] at he
    omega
  obtain ⟨e, he⟩ : ∃ e, ((d.setFld (qReg R.SQ_TAIL_INDEX q) 0).setFld (qReg R.CQ_HEAD_INDEX q) 0).setFld (qReg R.Q_CTL_EN q) 1 = e := ⟨_, rfl⟩
  have hb : bare e = bare d := by
    rw [← he]
    exact (bare_setFld _ _ _).trans ((bare_setFld _ _ _).trans (bare_setFld _ _ _))
  have hc (j : Nat) (hj : j ≠ q) : e.fld (qReg R.Q_CTL_EN j) = d.fld (qReg R.Q_CTL_EN j) := by
    rw [← he]
    exact (ap _ _ _ j (by decide) hj).trans ((ap _ _ _ j (by decide) hj).trans (ap _ _ _ j (by decide) hj))
  unfold Dev.startQueue
  dsimp only
  rw [he]
  generalize ({ Dev.queue _ q with
    tail := 0
    head := 0
    seqn := 0
    written := 0
    pendingEn := false } : Queue) = y
  have hs := bare_showQueue (d := e.setQueue q y) (q := q)
  have hf : (e.setQueue q y).funcs = e.funcs := rfl
  refine ⟨(of_bare (·.funcs) (fun _ => rfl) hs).trans (hf.trans (of_bare (·.funcs) (fun _ => rfl) hb)), fun j hj => ⟨?_, ?_⟩⟩
  · exact (queue_showQueue j).trans ((queue_setQueue_other _ _ hj).trans (of_bare (·.queue j) (fun _ => rfl) hb))
  · refine (fld_showQueue_other fun h => ?_).trans ((fld_setQueue _ _ _ _).trans (hc j hj))
    rw [qReg_reg, show R.Q_CTL_EN.reg = 0x101000020 from rfl, show R.Q_STATUS_IDLE.reg = 0x101000028 from rfl] at h
    omega

theorem startQueues_spec (l : List Nat) (d : Dev) : (l.foldl (fun d q => d.startQueue q) d).funcs = d.funcs ∧
    (∀ q ∈ l, (l.foldl (fun d q => d.startQueue q) d).flag (qReg R.Q_CTL_EN q) = true ∧
      ((l.foldl (fun d q => d.startQueue q) d).queue q).pendingEn = false) ∧
    ∀ q, q ∉ l → (l.foldl (fun d q => d.startQueue q) d).queue q = d.queue q ∧
      (l.foldl (fun d q => d.startQueue q) d).fld (qReg R.Q_CTL_EN q) = d.fld (qReg R.Q_CTL_EN q) := by
  induction l generalizing d with
  | nil => exact ⟨rfl, fun _ h => absurd h List.not_mem_nil, fun _ _ => ⟨rfl, rfl⟩⟩
  | cons a l ih =>
    rw [List.foldl_cons]
    obtain ⟨hen, -, -, hq⟩ := startQueue_spec (q := a) d
    obtain ⟨hf, ho⟩ := startQueue_frame d a
    generalize d.startQueue a = e at hen hq hf ho
    obtain ⟨i0, i1, i2⟩ := ih e
    refine ⟨i0.trans hf, fun q hm => ?_, fun q hn => ?_⟩
    · by_cases hl : q ∈ l
      · exact i1 q hl
      · obtain ⟨h1, h2⟩ := i2 q hl
        rcases List.mem_cons.1 hm with rfl | h
        · rw [h1, hq, Dev.flag, h2]
          exact ⟨hen, rfl⟩
        · exact absurd h hl
    · rw [List.mem_cons, not_or] at hn
      obtain ⟨h1, h2⟩ := i2 q hn.2
      obtain ⟨h3, h4⟩ := ho q hn.1
      exact ⟨h1.trans h3, h2.trans h4⟩

/-- The pairs of a function that wait for its quiesce's end. -/
def waitingPairs (d : Dev) (f : Nat) : List Nat := (d.pairsOf f).filter fun q => (d.queue q).pendingEn

theorem mem_waitingPairs {d : Dev} {f q : Nat} (ho : d.qOwner q = f) (hp : (d.queue q).pendingEn = true) : q ∈ waitingPairs d f := by
  have hl : lists d.queues q := lists_of_get (df := fun _ => {}) fun he => by
    rw [Dev.queue, he] at hp
    exact Bool.false_ne_true hp
  obtain ⟨v, hv⟩ := hl
  exact List.mem_filter.2 ⟨List.mem_filter.2 ⟨List.mem_map.2 ⟨_, hv, rfl⟩, beq_iff_eq.2 ho⟩, hp⟩

/-- A function's record once its quiesce is over. -/
def quiesceOver (x : Func) : Func := { x with
  quiescing := false
  exposed := x.exposed || x.wantVf
  bme := x.bme || x.wantBme
  wantVf := false
  wantBme := false }

theorem quiesceDone_ends {d : Dev} {f : Nat} (h : (d.func f).quiescing = true) : d.quiesceDone f =
    ((waitingPairs (d.setFunc f (quiesceOver (d.func f))) f).foldl (fun d q => d.startQueue q) (d.setFunc f (quiesceOver (d.func f)))).showFn f :=
  if_neg (by rw [h]; decide)

section
variable {s : State} {f : Nat} (hf : f < 2048)
include hf

theorem funcOk_true : funcOk f = true := decide_eq_true hf

theorem flr_hold : MakesSome (.flr f) s fun e => functionStopped s.dev f e ∧ (e.func f).cfg = [] ∧ (e.func f).mse = false ∧
    (e.func f).d3 = false := by
  obtain ⟨x, hx⟩ : ∃ x, (if f == 0 then s.dev.hideVfs else s.dev) = x := ⟨_, rfl⟩
  have hl : standing s.dev x ∧ ∀ t, t < 4096 → s.dev.fld (streamReg R.STREAM_CTL_OWNER t) = f → lists s.dev.streams t → lists x.streams t := by
    rw [← hx]
    split
    case isTrue h0 =>
      obtain ⟨h, -, -, hs⟩ := hideAll_spec s.dev.exposedVfs s.dev
      rw [← hideVfs_eq] at h hs
      exact ⟨h, fun t ht ho => hs t ht (by rw [ho, beq_iff_eq.1 h0]; exact zero_not_exposed _)⟩
    case isFalse => exact ⟨standing_refl _, fun _ _ _ h => h⟩
  obtain ⟨hr, hs, hc⟩ := coldFunc_spec x f
  have hq := startQuiesce_quiesced (x.coldFunc f) f
  have heq : s.dev.flr f = (x.coldFunc f).startQuiesce f := by rw [flr_eq, hx]
  generalize x.coldFunc f = z at hr hs hc hq heq
  refine ⟨z.startQuiesce f, dev_makes (execFlr.eq_def ..) (funcOk_true hf) heq,
    functionStopped_of (standing_trans hl.1 (standing_of_regs hr)) (fun t ht ho h => by rw [hs]; exact hl.2 t ht ho h) (by rw [hc]) hq, ?_⟩
  rw [hq.own, hc]
  exact ⟨rfl, rfl, rfl⟩

theorem d3hot_hold : MakesSome (.d3hotEntry f) s fun e => functionStopped s.dev f e ∧ (e.func f).d3 = true := by
  obtain ⟨x, hx⟩ : ∃ x, s.dev.setFunc f { s.dev.func f with d3 := true, bme := false } = x := ⟨_, rfl⟩
  have hr : x.regs = s.dev.regs := by
    rw [← hx]
    rfl
  have hs : x.streams = s.dev.streams := by
    rw [← hx]
    rfl
  have hc : x.func f = { s.dev.func f with d3 := true, bme := false } := by
    rw [← hx]
    exact func_setFunc_same _ _ _
  have hq := startQuiesce_quiesced x f
  refine ⟨x.startQuiesce f, dev_makes (execD3hotEntry.eq_def ..) (funcOk_true hf) (congrArg (·.startQuiesce f) hx),
    functionStopped_of (standing_of_regs hr) (fun t _ _ h => by rw [hs]; exact h) (by rw [hc]) hq, ?_⟩
  rw [hq.own, hc]

theorem busMaster_hold (on : Bool) : MakesSome (.busMasterEnable f on) s fun e =>
    (on = true ∧ (s.dev.func f).quiescing = true → (e.func f).wantBme = true ∧ (e.func f).bme = (s.dev.func f).bme) ∧
    (on = false ∨ (s.dev.func f).quiescing = false → (e.func f).bme = on ∧ (e.func f).wantBme = false) := by
  refine ⟨_, dev_makes (execBusMasterEnable.eq_def ..) (funcOk_true hf) rfl, fun h => ?_, fun h => ?_⟩ <;>
    rw [show ((s.dev.setBme f on).func f) = _ from (shownFunc_spec s.dev f _).2.2.1]
  · rw [if_pos (by rw [h.1, h.2]; decide)]
    exact ⟨rfl, rfl⟩
  · rw [if_neg (by rcases h with h | h <;> simp [h])]
    exact ⟨rfl, rfl⟩

theorem quiesce_stands (h : (s.dev.func f).quiescing = false) : Gives (.quiesceComplete f) s s :=
  dev_makes (execQuiesceComplete.eq_def ..) (funcOk_true hf) (if_pos (by rw [h]; decide))

theorem quiesce_ends (h : (s.dev.func f).quiescing = true) : MakesSome (.quiesceComplete f) s fun e =>
    (e.func f).quiescing = false ∧ (e.func f).bme = ((s.dev.func f).bme || (s.dev.func f).wantBme) ∧
    (e.func f).exposed = ((s.dev.func f).exposed || (s.dev.func f).wantVf) ∧
    ∀ q, q < 8192 → s.dev.qOwner q = f → (s.dev.queue q).pendingEn = true →
      e.flag (qReg R.Q_CTL_EN q) = true ∧ (e.queue q).pendingEn = false := by
  have heq := quiesceDone_ends h
  obtain ⟨x, hx⟩ : ∃ x, s.dev.setFunc f (quiesceOver (s.dev.func f)) = x := ⟨_, rfl⟩
  have hf' : x.func f = quiesceOver (s.dev.func f) := by
    rw [← hx]
    exact func_setFunc_same _ _ _
  have hm (q : Nat) (ho : s.dev.qOwner q = f) (hp : (s.dev.queue q).pendingEn = true) : q ∈ waitingPairs x f := by
    rw [← hx]
    exact mem_waitingPairs ho hp
  obtain ⟨h0, h1, -⟩ := startQueues_spec (waitingPairs x f) x
  rw [hx] at heq
  generalize (waitingPairs x f).foldl (fun d q => d.startQueue q) x = z at h0 h1 heq
  have hv : (z.showFn f).func f = quiesceOver (s.dev.func f) :=
    (of_bare (·.func f) (fun _ => rfl) (bare_showFn f)).trans ((func_of_funcs h0 f).trans hf')
  refine ⟨z.showFn f, dev_makes (execQuiesceComplete.eq_def ..) (funcOk_true hf) heq, ?_, ?_, ?_, fun q hq ho hp => ?_⟩
  · rw [hv]
    rfl
  · rw [hv]
    rfl
  · rw [hv]
    rfl
  · obtain ⟨he, hn⟩ := h1 q (hm q ho hp)
    refine ⟨?_, (congrArg Queue.pendingEn (of_bare (·.queue q) (fun _ => rfl) (bare_showFn f))).trans hn⟩
    rw [Dev.flag, fld_showFn_other (by
      rw [qReg_reg, show R.Q_CTL_EN.reg = 0x101000020 from rfl, show R.FN_STATUS_ENABLED.reg = 0x100040000 from rfl]
      omega)]
    exact he

end

/-! ### VF Enable -/

/-- One VF is exposed, or waits for its quiesce. -/
def showVf (d : Dev) (v : Nat) : Dev :=
  (d.setFunc v (if (d.func v).quiescing then { d.func v with wantVf := true } else { d.func v with exposed := true })).showFn v

theorem showVfs_succ (d : Dev) (n : Nat) : d.showVfs (n + 1) = showVf (d.showVfs n) (n + 1) := by
  unfold Dev.showVfs
  rw [List.range_succ, List.foldl_append]
  rfl

theorem showVfs_spec (d : Dev) (n : Nat) : (∀ v, 1 ≤ v → v ≤ n →
      ((d.func v).quiescing = true → ((d.showVfs n).func v).wantVf = true ∧ ((d.showVfs n).func v).exposed = (d.func v).exposed) ∧
      ((d.func v).quiescing = false → ((d.showVfs n).func v).exposed = true)) ∧
    ∀ v, n < v → (d.showVfs n).func v = d.func v := by
  induction n with
  | zero => exact ⟨fun v h1 h2 => by omega, fun _ _ => rfl⟩
  | succ n ih =>
    obtain ⟨i1, i2⟩ := ih
    rw [showVfs_succ]
    generalize d.showVfs n = e at i1 i2
    obtain ⟨-, -, hs, ho, -, -⟩ :=
      shownFunc_spec e (n + 1) (if (e.func (n + 1)).quiescing then { e.func (n + 1) with wantVf := true } else { e.func (n + 1) with exposed := true })
    change (showVf e (n + 1)).func (n + 1) = _ at hs
    change ∀ k, k ≠ n + 1 → (showVf e (n + 1)).func k = e.func k at ho
    refine ⟨fun v h1 h2 => ?_, fun v hv => (ho v (by omega)).trans (i2 v (by omega))⟩
    by_cases hv : v = n + 1
    · subst hv
      rw [hs, i2 _ (Nat.lt_succ_self n)]
      refine ⟨fun hq => ?_, fun hq => ?_⟩
      · rw [if_pos hq]
        exact ⟨rfl, rfl⟩
      · rw [if_neg (by rw [hq]; decide)]
    · rw [ho v hv]
      exact i1 v h1 (by omega)

theorem vfs_shown {s : State} {n : Nat} (hn : n < 2048) : MakesSome (.vfEnable true n) s fun e => ∀ v, 1 ≤ v → v ≤ n →
    ((s.dev.func v).quiescing = true → (e.func v).wantVf = true ∧ (e.func v).exposed = (s.dev.func v).exposed) ∧
    ((s.dev.func v).quiescing = false → (e.func v).exposed = true) :=
  ⟨s.dev.showVfs n, dev_makes (execVfEnable.eq_def ..) (decide_eq_true hn) (if_pos rfl), (showVfs_spec _ _).1⟩

theorem vfs_hidden {s : State} {n : Nat} (hn : n < 2048) : MakesSome (.vfEnable false n) s fun e => ∀ v, v ≠ 0 →
    (s.dev.func v).exposed = true → (e.func v).exposed = false ∧ (e.func v).quiescing = true :=
  ⟨s.dev.hideVfs, dev_makes (execVfEnable.eq_def ..) (decide_eq_true hn) (if_neg Bool.false_ne_true), fun v h0 hv => by
    rw [hideVfs_eq]
    exact (hideAll_spec _ _).2.1 v (mem_exposedVfs h0 hv)⟩

/-! ### The stop in a drain -/

/-- The device whose descriptors and reservations are discarded. -/
def discarded (d : Dev) : Dev := { d with
  queues := SMap.filterMap (fun _ => {}) (fun _ x => some { x with inflight := [] }) d.queues
  streams := SMap.filterMap (fun _ => {}) (fun _ x => some { x with ranges := [] }) d.streams }

theorem discarded_spec (d : Dev) : (∀ q, ((discarded d).queue q).inflight = []) ∧ ∀ t, ((discarded d).stream t).ranges = [] := by
  refine ⟨fun q => ?_, fun t => ?_⟩
  · rcases smap_get_mem (fun _ => {}) (discarded d).queues q with h | h
    · obtain ⟨v, -, hv⟩ := smap_mem_filterMap _ _ h
      exact (congrArg Queue.inflight (Option.some.inj hv)).symm
    · exact congrArg Queue.inflight h
  · rcases smap_get_mem (fun _ => {}) (discarded d).streams t with h | h
    · obtain ⟨v, -, hv⟩ := smap_mem_filterMap _ _ h
      exact (congrArg Stream.ranges (Option.some.inj hv)).symm
    · exact congrArg Stream.ranges h

theorem phaseDone_marks (d : Dev) (p : Nat) : (d.phaseDone p).queues = d.queues ∧ (d.phaseDone p).streams = d.streams ∧
    ∀ r, (d.phaseDone p).drain = some r → natBit r.report.phases p = true := by
  cases h : d.drain with
  | none =>
    have he : d.phaseDone p = d := by
      unfold Dev.phaseDone
      rw [h]
    rw [he, h]
    exact ⟨rfl, rfl, nofun⟩
  | some r =>
    cases hp : natBit r.report.phases p with
    | true =>
      rw [phaseDone_same h hp, h]
      exact ⟨rfl, rfl, fun _ hr => Option.some.inj hr ▸ hp⟩
    | false =>
      rw [phaseDone_new h hp]
      refine ⟨rfl, rfl, fun _ hr => ?_⟩
      rw [← Option.some.inj hr, natBit_eq_testBit]
      exact testBit_add_two_pow hp

theorem drainStop_stands {s : State} (h : s.dev.drain = none) : Gives .ledgerDrainStop s s :=
  dev_makes (execLedgerDrainStop.eq_def ..) rfl (if_pos (by rw [h]; rfl))

theorem drainStop_discards {s : State} (h : s.dev.drain ≠ none) : MakesSome .ledgerDrainStop s fun e =>
    (∀ q, (e.queue q).inflight = []) ∧ (∀ t, (e.stream t).ranges = []) ∧ ∀ r, e.drain = some r → natBit r.report.phases 4 = true := by
  obtain ⟨z, hz⟩ : ∃ z, (s.dev.queues.flatMap fun kv => kv.2.inflight.map fun x => (kv.1, x)).foldl (fun d e => d.stopDesc e.1 e.2) s.dev = z :=
    ⟨_, rfl⟩
  obtain ⟨hq, hs⟩ := discarded_spec z
  obtain ⟨g1, g2, g3⟩ := phaseDone_marks (discarded z) 4
  refine ⟨(discarded z).phaseDone 4, dev_makes (execLedgerDrainStop.eq_def ..) rfl ((if_neg ?_).trans ?_), fun q => ?_, fun t => ?_, g3⟩
  · rwa [Option.isNone_iff_eq_none]
  · exact congrArg (fun d => (discarded d).phaseDone 4) hz
  · rw [Dev.queue, g1]
    exact hq q
  · rw [stream_of_streams g2]
    exact hs t

theorem functionsQuiesce_hold : functionsQuiesce := by
  unfold functionsQuiesce
  intro s
  exact ⟨fun f hf => ⟨flr_hold hf, d3hot_hold hf, busMaster_hold hf, quiesce_stands hf, quiesce_ends hf⟩, fun n hn => vfs_shown hn,
    fun n hn => vfs_hidden hn, drainStop_stands, drainStop_discards⟩

end Sys2Proof.Proofs
end


-- ==== Sys2Proof/Proofs/Completions.lean ====
section
/-!
PROOFS. Completions of the Ledger Engine's descriptors (R434 to R436), with what an interrupt message leaves of the queues and streams; then
`CompletionsFunctionsAndLogs`.
-/

namespace Sys2Proof.Proofs

open Sys2Proof Sys2Proof.Machine Sys2Proof.Laws

/-! ### What stands under the writes of the engine and the messages of the router -/

/-- The queues, streams and ports are those of another device, and so are the registers of the streams and the ports' status. -/
structure Beside (d₀ d : Dev) : Prop where
  queues : d.queues = d₀.queues
  streams : d.streams = d₀.streams
  ports : d.ports = d₀.ports
  regs : ∀ off, freeReg off = false → d.reg off = d₀.reg off

def besideFrame (d₀ : Dev) : Frame where
  keeps := Beside d₀
  reg v ha h := ⟨h.queues, h.streams, h.ports, fun off ho =>
    (reg_setReg_other _ _ _ _ fun he => by
      rw [he, ha] at ho
      exact Bool.noConfusion ho).trans (h.regs off ho)⟩
  rest hr hq hs hp _ _ h := ⟨hq.trans h.queues, hs.trans h.streams, hp.trans h.ports, fun off ho =>
    (congrArg (fun m => SMap.get coldValue m off) hr).trans (h.regs off ho)⟩

theorem kept_beside (d : Dev) : Kept (besideFrame d) d := ⟨rfl, rfl, rfl, fun _ _ => rfl⟩

theorem beside_msixSend (s : State) {f : Nat} (e : Nat) (hf : f < 2048) : Beside s.dev (s.msixSend f e).dev :=
  Kept.msixSend (F := besideFrame s.dev) hf (kept_beside s.dev)

theorem stream_not_free {t : Nat} (ht : t < 4096) (f : Field) (hf : R.STREAM_CTL_EN.reg ≤ f.reg ∧ f.reg ≤ R.STREAM_CTL_EN.reg + 0x10) :
    freeReg (streamReg f t).reg = false := by
  rw [show R.STREAM_CTL_EN.reg = 0x100020008 from rfl] at hf
  unfold freeReg
  rw [streamReg_reg, Bool.and_eq_false_iff, Bool.or_eq_false_iff, decide_eq_false_iff_not, decide_eq_false_iff_not]
  omega

/-! ### Completions -/

section
variable {s : State} {q sq : Nat} {x : Desc} (hq : q < 8192) (hk : s.dev.clocksOk = true) (hd : s.dev.desc q sq = some x)
include hq hk hd

theorem completion_gives {t : State} (h : (if s.dev.mayComplete q x then s.complete q x else s) = t) : Gives (.completionWrite q sq) s t := by
  refine (execCompletionWrite.eq_def ..).trans ?_
  unfold onLedger
  rw [show queueOk q = true from queueOk_true hq, if_neg (by decide), if_pos hk]
  dsimp only
  rw [hd]
  exact congrArg Host.Outcome.next h

theorem completion_held (hm : s.dev.mayComplete q x = false) : Gives (.completionWrite q sq) s s :=
  completion_gives hq hk hd (if_neg (by rw [hm]; decide))

end

/-- The write of a descriptor's completion entry. -/
def completionPut (s : State) (q : Nat) (x : Desc) : LedPut :=
  s.ledWrite ⟨s.dev.qOwner q, q, x.sq, 0, 0x8000, none⟩
    (s.dev.fld (qReg R.CQ_BASE_ADDR q) * 4096 + 32 * ((s.dev.queue q).written % s.dev.cqSize q))
    (completionBytes x ((s.dev.queue q).written / s.dev.cqSize q % 2 == 0) (s.dev.queue q).head)

/-- The pair once the completion of one of its descriptors stands in memory. -/
def completed (d : Dev) (q k : Nat) (x : Desc) : Dev := (d.setQueue q { d.queue q with
  written := k
  inflight := (d.queue q).inflight.filter fun e => e.sq != x.sq }).showQueue q

/-- The device once a completion stands in memory, with the range that it settles and the drain's report of it. -/
def afterCompletion (d : Dev) (q k : Nat) (x : Desc) : Dev :=
  (if x.op == 3 then (completed d q k x).settleRange q x else completed d q k x).reportDesc q x true x.status x.bytes

theorem complete_ok {s z : State} {q : Nat} {x : Desc} (hw : completionPut s q x = .ok z) : s.complete q x =
    if x.intr then ({ z with dev := afterCompletion z.dev q ((s.dev.queue q).written + 1) x } : State).msixSend (s.dev.qOwner q)
      ((afterCompletion z.dev q ((s.dev.queue q).written + 1) x).qVector q)
    else { z with dev := afterCompletion z.dev q ((s.dev.queue q).written + 1) x } := by
  unfold completionPut at hw
  unfold State.complete
  dsimp only
  rw [hw]
  rfl

theorem complete_wait {s z : State} {q : Nat} {x : Desc} (hw : completionPut s q x = .wait z) : s.complete q x = z := by
  unfold completionPut at hw
  unfold State.complete
  dsimp only
  rw [hw]

theorem complete_fail {s z : State} {q e : Nat} {x : Desc} (hw : completionPut s q x = .fail e z) :
    s.complete q x = { z with dev := z.dev.queueErr q 3 } := by
  unfold completionPut at hw
  unfold State.complete
  dsimp only
  rw [hw]

section
variable (d : Dev) (q k : Nat) (x : Desc)

theorem completed_spec : (completed d q k x).queue q = { d.queue q with
      written := k
      inflight := (d.queue q).inflight.filter fun e => e.sq != x.sq } ∧
    ∀ t, (completed d q k x).stream t = d.stream t :=
  ⟨(queue_showQueue q).trans (queue_setQueue_same _ _ _), fun t => (stream_showQueue t).trans rfl⟩

/-- The stream's record once a range is settled, with the disable that waited for it. -/
def putSettled (e : Dev) (t : Nat) (st : Stream) (rest : List (Nat × Nat × Nat × Nat × Bool)) : Dev :=
  if st.closing && rest.isEmpty then (e.setFld (streamReg R.STREAM_CTL_EN t) 0).setStream t { st with ranges := rest, closing := false }
  else e.setStream t { st with ranges := rest }

theorem putSettled_spec (e : Dev) (t : Nat) (st : Stream) (rest : List (Nat × Nat × Nat × Nat × Bool)) :
    (putSettled e t st rest).fld (streamReg R.STREAM_TAIL_OFFSET t) = e.fld (streamReg R.STREAM_TAIL_OFFSET t) ∧
    ((putSettled e t st rest).stream t).ranges = rest ∧ ∀ j, (putSettled e t st rest).queue j = e.queue j := by
  unfold putSettled
  split
  · have ho : (e.setFld (streamReg R.STREAM_CTL_EN t) 0).fld (streamReg R.STREAM_TAIL_OFFSET t) = e.fld (streamReg R.STREAM_TAIL_OFFSET t) :=
      fld_setFld_reg _ _ _ _ fun he => by
        rw [streamReg_reg, streamReg_reg] at he
        exact absurd (Nat.add_right_cancel he) (by decide)
    have hb (j : Nat) : (e.setFld (streamReg R.STREAM_CTL_EN t) 0).queue j = e.queue j :=
      of_bare (·.queue j) (fun _ => rfl) (bare_setFld _ _ _)
    generalize e.setFld (streamReg R.STREAM_CTL_EN t) 0 = z at ho hb
    exact ⟨ho, congrArg Stream.ranges (stream_setStream_same _ _ _), hb⟩
  · exact ⟨rfl, congrArg Stream.ranges (stream_setStream_same _ _ _), fun _ => rfl⟩

theorem settleRange_eq (h : ((d.stream x.stream).ranges.any fun e => e.1 == q && e.2.1 == x.sq) = true) : d.settleRange q x =
    putSettled (d.setFld (streamReg R.STREAM_TAIL_OFFSET x.stream) (x.resv + x.len)) x.stream (d.stream x.stream)
      ((d.stream x.stream).ranges.filter fun e => !(e.1 == q && e.2.1 == x.sq)) := by
  unfold Dev.settleRange putSettled
  exact if_neg (by rw [h]; decide)

theorem settleRange_settles (h : ((d.stream x.stream).ranges.any fun e => e.1 == q && e.2.1 == x.sq) = true) :
    (d.settleRange q x).fld (streamReg R.STREAM_TAIL_OFFSET x.stream) = (x.resv + x.len) % 2 ^ 64 ∧
    ((d.settleRange q x).stream x.stream).ranges = (d.stream x.stream).ranges.filter fun e => !(e.1 == q && e.2.1 == x.sq) := by
  have ht := fld_setFld_same d (streamReg R.STREAM_TAIL_OFFSET x.stream) (x.resv + x.len)
    (show R.STREAM_TAIL_OFFSET.lo + R.STREAM_TAIL_OFFSET.width ≤ 64 by decide)
  rw [show (streamReg R.STREAM_TAIL_OFFSET x.stream).width = 64 from rfl] at ht
  rw [settleRange_eq d q x h]
  generalize d.setFld (streamReg R.STREAM_TAIL_OFFSET x.stream) (x.resv + x.len) = e at ht
  obtain ⟨h1, h2, -⟩ := putSettled_spec e x.stream (d.stream x.stream) ((d.stream x.stream).ranges.filter fun e => !(e.1 == q && e.2.1 == x.sq))
  exact ⟨h1.trans ht, h2⟩

theorem queue_settleRange : (d.settleRange q x).queue q = d.queue q := by
  by_cases h : ((d.stream x.stream).ranges.any fun e => e.1 == q && e.2.1 == x.sq) = true
  · rw [settleRange_eq d q x h]
    have ha : (d.setFld (streamReg R.STREAM_TAIL_OFFSET x.stream) (x.resv + x.len)).queue q = d.queue q :=
      of_bare (·.queue q) (fun _ => rfl) (bare_setFld _ _ _)
    generalize d.setFld (streamReg R.STREAM_TAIL_OFFSET x.stream) (x.resv + x.len) = e at ha
    exact ((putSettled_spec e _ _ _).2.2 q).trans ha
  · have he : d.settleRange q x = d := if_pos (by
      rw [Bool.not_eq_true] at h
      rw [h]
      decide)
    rw [he]

theorem reportDesc_spec (f : Bool) (a b : Nat) : (d.reportDesc q x f a b).queues = d.queues ∧ (d.reportDesc q x f a b).streams = d.streams ∧
    (d.reportDesc q x f a b).regs = d.regs := by
  unfold Dev.reportDesc
  split
  · exact ⟨rfl, rfl, rfl⟩
  · exact ⟨rfl, rfl, rfl⟩

theorem queue_of_queues {d e : Dev} (h : e.queues = d.queues) (q : Nat) : e.queue q = d.queue q := by
  unfold Dev.queue
  rw [h]

/-- What the statement of a completion says of the pair and of the stream that it settles. -/
structure Completes (d : Dev) (q k : Nat) (x : Desc) (e : Dev) : Prop where
  written : (e.queue q).written = k
  inflight : (e.queue q).inflight = (d.queue q).inflight.filter fun e => e.sq != x.sq
  settles : x.op = 3 → ((d.stream x.stream).ranges.any fun e => e.1 == q && e.2.1 == x.sq) = true →
    e.fld (streamReg R.STREAM_TAIL_OFFSET x.stream) = (x.resv + x.len) % 2 ^ 64 ∧
    ∀ r ∈ (e.stream x.stream).ranges, ¬(r.1 = q ∧ r.2.1 = x.sq)

theorem afterCompletion_completes : Completes d q k x (afterCompletion d q k x) := by
  obtain ⟨hq, hs⟩ := completed_spec d q k x
  unfold afterCompletion
  generalize completed d q k x = e at hq hs
  obtain ⟨z, hz⟩ : ∃ z, (if x.op == 3 then e.settleRange q x else e) = z := ⟨_, rfl⟩
  have hzq : z.queue q = e.queue q := by
    rw [← hz]
    split
    · exact queue_settleRange e q x
    · rfl
  have hzs (h3 : x.op = 3) (ha : ((d.stream x.stream).ranges.any fun e => e.1 == q && e.2.1 == x.sq) = true) :
      z.fld (streamReg R.STREAM_TAIL_OFFSET x.stream) = (x.resv + x.len) % 2 ^ 64 ∧
      ∀ r ∈ (z.stream x.stream).ranges, ¬(r.1 = q ∧ r.2.1 = x.sq) := by
    obtain ⟨h1, h2⟩ := settleRange_settles e q x (by rw [hs]; exact ha)
    rw [← hz, if_pos (beq_iff_eq.2 h3), h2]
    refine ⟨h1, fun r hr he => ?_⟩
    obtain ⟨-, hn⟩ := List.mem_filter.1 hr
    rw [Bool.not_eq_true', ← Bool.not_eq_true, Bool.and_eq_true, beq_iff_eq, beq_iff_eq] at hn
    exact hn he
  rw [hz]
  obtain ⟨r1, r2, r3⟩ := reportDesc_spec z q x true x.status x.bytes
  generalize z.reportDesc q x true x.status x.bytes = y at r1 r2 r3
  have hy : y.queue q = _ := (queue_of_queues r1 q).trans (hzq.trans hq)
  refine ⟨by rw [hy], by rw [hy], fun h3 ha => ?_⟩
  rw [fld_of_regs r3, stream_of_streams r2]
  exact hzs h3 ha

variable {d q k x} in
/-- What stands beside a message keeps a completion. -/
theorem completes_beside {e y : Dev} (h : Completes d q k x e) (hy : Beside e y) : Completes d q k x y := by
  have hq : y.queue q = e.queue q := queue_of_queues hy.queues q
  refine ⟨by rw [hq]; exact h.written, by rw [hq]; exact h.inflight, fun h3 ha => ?_⟩
  have ht : x.stream < 4096 := getF_lt _ _ _
  rw [Dev.fld, hy.regs _ (stream_not_free ht _ (by decide)), stream_of_streams hy.streams]
  exact h.settles h3 ha

end

theorem completes_sent {d : Dev} {q k f e : Nat} {x : Desc} (u : State) (h : Completes d q k x u.dev) (hf : f < 2048) (b : Bool) :
    Completes d q k x (if b then u.msixSend f e else u).dev := by
  cases b with
  | true => exact completes_beside h (beside_msixSend u e hf)
  | false => exact h

theorem complete_completes {s z : State} {q : Nat} {x : Desc} (hw : completionPut s q x = .ok z) :
    Completes z.dev q ((s.dev.queue q).written + 1) x (s.complete q x).dev := by
  rw [complete_ok hw]
  exact completes_sent { z with dev := afterCompletion z.dev q ((s.dev.queue q).written + 1) x } (afterCompletion_completes _ _ _ _)
    (qOwner_lt _ _) _

theorem completionWrites_hold {s : State} {q sq : Nat} {x : Desc} (hq : q < 8192) (hk : s.dev.clocksOk = true)
    (hd : s.dev.desc q sq = some x) (hm : s.dev.mayComplete q x = true) :
    (∀ z, completionPut s q x = .wait z → Gives (.completionWrite q sq) s z) ∧
    (∀ e z, completionPut s q x = .fail e z → Gives (.completionWrite q sq) s { z with dev := z.dev.queueErr q 3 }) ∧
    ∀ z, completionPut s q x = .ok z → GivesSome (.completionWrite q sq) s fun t =>
      Completes z.dev q ((s.dev.queue q).written + 1) x t.dev :=
  ⟨fun _ hw => completion_gives hq hk hd ((if_pos hm).trans (complete_wait hw)),
    fun _ _ hw => completion_gives hq hk hd ((if_pos hm).trans (complete_fail hw)),
    fun _ hw => ⟨_, completion_gives hq hk hd (if_pos hm), complete_completes hw⟩⟩

theorem completionsAndStreams_hold : completionsAndStreams := by
  unfold completionsAndStreams
  refine ⟨?_, ?_, fun s t v ht => ?_⟩
  · intro x phase h hsq hst hb hop hh bs w
    exact completionEntry_hold hsq hst hb hop hh (w := w) fun _ => rfl
  · intro s q sq x hq hk hd d y n bs w
    refine ⟨completion_held hq hk hd, fun hm => ?_⟩
    obtain ⟨h1, h2, h3⟩ := completionWrites_hold hq hk hd hm
    refine ⟨h1, h2, fun z hz => ?_⟩
    obtain ⟨t, ht, hw, hi, hs⟩ := h3 z hz
    exact ⟨t, ht, hw, hi, hs⟩
  · intro d en st h c hc
    exact ⟨stream_starts ht hc, stream_stays ht hc, stream_stops ht hc, stream_closes ht hc⟩

/-- Settles O51: a completion by what its write and its interrupt leave of the pair and the stream, a quiesce by what each of its steps
leaves, a logging round by the registers that it writes. -/
theorem completionsFunctionsAndLogs : Obligations.CompletionsFunctionsAndLogs := by
  unfold Obligations.CompletionsFunctionsAndLogs
  exact ⟨completionsAndStreams_hold, functionsQuiesce_hold, loggingRounds_hold⟩

end Sys2Proof.Proofs
end
